-- ==== Sys2Proof/Word.lean ====
section
/-! DEFINITION. The widths the manual counts in (R6, R7, R8): bytes, the 16-, 32- and 64-bit words
of records and registers, and the byte strings that arrive and leave. -/

namespace Sys2Proof

/-- One byte. -/
abbrev Byte := BitVec 8
/-- A 16-bit field: event codes, unit codes (R37), YF16 encodings (R85). -/
abbrev Half := BitVec 16
/-- A setup register (R8) or a binary32 encoding (R79). -/
abbrev Word := BitVec 32
/-- A 64-bit field: host addresses, positions, times. -/
abbrev Long := BitVec 64
/-- A string of bytes, lowest address first (R7). -/
abbrev Bytes := List Byte

end Sys2Proof
end

