-- ==== Sys2Proof/Machine/Bits.lean ====
section
/-! DEFINITION. Bit fields, byte order (R6, R7) and the CRC-32C that the manual's records, units and
flits carry (R72, R262, R309, R375). -/

namespace Sys2Proof.Machine

/-- Field NAME[hi:lo] of a number (R6). -/
def bits (hi lo w : Nat) : Nat := (w / 2 ^ lo) % 2 ^ (hi + 1 - lo)

/-- Bit n of a number (R6). -/
def bit (n w : Nat) : Bool := (w / 2 ^ n) % 2 == 1

/-- A Boolean as the bit it stands for. -/
def b2n (b : Bool) : Nat := if b then 1 else 0

/-- The number a byte string spells, little-endian (R7). -/
def leNat : Bytes → Nat
  | [] => 0
  | b :: bs => b.toNat + 256 * leNat bs

/-- n as `len` bytes, little-endian (R7). -/
def leBytes : Nat → Nat → Bytes
  | 0, _ => []
  | len + 1, n => BitVec.ofNat 8 n :: leBytes len (n / 256)

/-- The bytes from `off`, `len` of them; a byte beyond the string reads as zero. -/
def slice (bs : Bytes) (off len : Nat) : Bytes :=
  let t := (bs.drop off).take len
  t ++ List.replicate (len - t.length) 0

/-- The little-endian field of `len` bytes at `off`. -/
def field (bs : Bytes) (off len : Nat) : Nat := leNat (slice bs off len)

/-- Whether every byte from `off`, `len` of them, is zero. -/
def zeroAt (bs : Bytes) (off len : Nat) : Bool := (slice bs off len).all (· == 0)

/-- Replace the bytes from `off` by `new`, keeping the length. -/
def splice (bs : Bytes) (off : Nat) (new : Bytes) : Bytes :=
  (slice bs 0 off ++ new ++ bs.drop (off + new.length)).take (max bs.length (off + new.length))

/-- Pad with zero bytes to `len`. -/
def padTo (len : Nat) (bs : Bytes) : Bytes := bs ++ List.replicate (len - bs.length) 0

/-- n rounded up to a multiple of m. -/
def roundUp (n m : Nat) : Nat := (n + m - 1) / m * m

/-- ceil(n / m). -/
def ceilDiv (n m : Nat) : Nat := (n + m - 1) / m

/-- A saturating count of w bits advanced by n. -/
def satAdd {w : Nat} (c : BitVec w) (n : Nat) : BitVec w := BitVec.ofNat w (min (2 ^ w - 1) (c.toNat + n))

/-- The two's-complement integer of the low w bits of n. -/
def signedOf (w n : Nat) : Int := (BitVec.ofNat w n).toInt

/-- One bit of the CRC-32C register, reflected polynomial 0x82F63B78 (PRESUMED: Castagnoli's; log 5). -/
def crcBit (c : Nat) : Nat := if c % 2 = 1 then (c / 2) ^^^ 0x82F63B78 else c / 2

/-- One byte into the CRC-32C register. -/
def crcByte (c : Nat) (b : Byte) : Nat :=
  let x := c ^^^ b.toNat
  crcBit (crcBit (crcBit (crcBit (crcBit (crcBit (crcBit (crcBit x)))))))

/-- CRC-32C of a byte string. -/
def crc32c (bs : Bytes) : Nat := (bs.foldl crcByte 0xFFFFFFFF) ^^^ 0xFFFFFFFF

/-- Strictly ascending numbers. -/
def strictlyAscending : List Nat → Bool
  | [] => true
  | [_] => true
  | a :: b :: r => a < b && strictlyAscending (b :: r)

end Sys2Proof.Machine
end

