-- ==== Sys2Proof/Syntax.lean ====
section
/-! DEFINITION. The commands: one constructor per row of spec/opcode_table.json, with the operands that
the row's rule gives it (who it names, what arrives, when). Values that arrive from outside the module
(register values, bytes read from host memory, flits, sensor readings, the outcome of a hardware check)
are operands. Times are the module's copy of the herd time base, in ns (R42). -/

namespace Sys2Proof

/-- A line of a tile (R36). -/
structure LineId where
  tile : Fin 32
  line : Fin 2
  deriving DecidableEq, Repr

/-- A matrix stage, A or B, of a line (R25, R36). -/
structure StageId where
  tile : Fin 32
  line : Fin 2
  b : Bool
  deriving DecidableEq, Repr

/-- A record context of a churn (R183). -/
structure CtxId where
  tile : Fin 32
  line : Fin 2
  ctx : Fin 8
  deriving DecidableEq, Repr

/-- The stitch ports of a tile, in the order of UNIT[6:5] (R17, R37). -/
inductive StitchPort where
  | north
  | east
  | south
  | west
  deriving DecidableEq, Repr

/-- One end of a stitch link: a port of a tile, or a branch port of a memory port die (R17, R19). -/
inductive LinkEnd where
  | mesh (tile : Fin 32) (port : StitchPort)
  | branch (die : Fin 12) (port : Fin 2)
  deriving DecidableEq, Repr

/-- A lane of an optical engine, Okk.n (R16, R36). -/
structure OpticalLane where
  engine : Fin 16
  lane : Fin 8
  deriving DecidableEq, Repr

/-- A unit that R37 gives a code: stage numbers 0 to 9 stand for the stages 1 to 10 of R25. -/
inductive UnitId where
  | module
  | tile (t : Fin 32)
  | stage (t : Fin 32) (line : Fin 2) (stage : Fin 10)
  | exchange (t : Fin 32)
  | tileStore (t : Fin 32)
  | channel (c : Fin 384)
  | lane (o : OpticalLane)
  | engine (k : Fin 16)
  | hostPort (p : Fin 4)
  | sequencer
  | tackRoom
  | stitch (e : LinkEnd)
  deriving DecidableEq, Repr

/-- How a read of host memory ends (R353): its bytes, or failed. -/
inductive ReadResult where
  | ok (data : Bytes)
  | failed
  deriving DecidableEq, Repr

/-- The checks of R377 during a command: none failed, or one failed, charged to a unit (R37). -/
abbrev Check := Option UnitId

/-- A DONE report of a module for a step, with READY and the period result it carries (R53, R62, R169). -/
structure DoneReport where
  module : BitVec 12
  step : BitVec 48
  ready : List (Nat × Nat) := []
  periodOk : Bool := true
  deriving DecidableEq, Repr

/-- The decision for the coming tick with what it announces (R45, R62, R170, R294). -/
structure Decision where
  go : Bool
  period : Option (BitVec 24 × Nat) := none
  swaps : List (Nat × Nat) := []
  t0 : Option Long := none
  deriving DecidableEq, Repr

/-- The tile store regions of R29. -/
inductive RegionKind where
  | intake
  | rowCache
  | parameter
  | activation
  | exchange
  | scratch
  deriving DecidableEq, Repr

/-- One region of a tile store in MiB (R29). -/
structure TileRegion where
  tile : Fin 32
  kind : RegionKind
  start : Nat
  size : Nat
  deriving DecidableEq, Repr

/-- What the memory layout names for one owned shard range of a table: its region's base and home tile
(R146, R174). -/
structure RangePlace where
  table : Nat
  range : Nat
  base : Nat
  size : Nat
  home : Fin 32
  deriving DecidableEq, Repr

/-- A dense tensor of the layout: its records (R178, R179), its working copy in HBM or, with `workTile`, in a
tile store (R486), and its churn bindings, block ranges first to last inclusive (R175). -/
structure DenseTensor where
  id : Nat
  planes : Nat
  blocks : Nat
  base : Nat
  workBase : Nat
  workTile : Option (Fin 32) := none
  binds : List (Nat × Nat × LineId)
  deriving DecidableEq, Repr

/-- One access of a stage to a tile store range in a phase, in the schedule that R30 checks: stage 1 to 10 of a line, or 11,
the tile's exchange stage (R25, R37). -/
structure ScheduledAccess where
  phase : Nat
  tile : Fin 32
  line : Fin 2
  stage : Nat
  first : Nat
  last : Nat
  isWrite : Bool
  deriving DecidableEq, Repr

/-- The kinds of exchange operation (R286). -/
inductive ExchangeOp where
  | send
  | allToAll
  | reduce
  | allGather
  | gather
  | ringPass
  deriving DecidableEq, Repr

/-- One exchange of the plan's schedule between two modules (R286, R295), in the order in which the source sends:
the kind of its message and its identifier (log 6), and the source's tile whose exchange stage sends it. -/
structure ScheduledExchange where
  op : ExchangeOp
  src : BitVec 12
  dst : BitVec 12
  kind : Nat
  ident : Nat
  tile : Fin 32 := 0
  deriving DecidableEq, Repr

/-- Where the stage programs of a line leave the YS8 keys or values of the step's appended events (R226): elements
of the first at `addr`, scale bytes at `scaleAddr`, the events one behind another. -/
structure AppendPlace where
  set : Nat
  layer : Nat
  isValue : Bool
  tile : Fin 32
  addr : Nat
  scaleAddr : Nat
  deriving DecidableEq, Repr

/-- Where the stage programs take the pooled vectors of a feature and leave its bag gradients (R160, R161): sample p's
YF16 elements at `addr`, its binary32 gradient at `gradAddr`, sample behind sample. -/
structure BagPlace where
  feature : Nat
  tile : Fin 32
  addr : Nat
  gradAddr : Nat
  deriving DecidableEq, Repr

/-- Where an operand tensor of the matrix stages stands in a tile store (R112). -/
structure OperandPlace where
  tensor : Nat
  tile : Fin 32
  addr : Nat
  bytes : Nat
  deriving DecidableEq, Repr

/-- What a plan image holds beyond the parts the manual lays out in bytes by offset: the stage programs,
the memory layout and the exchange schedule (R57). Entries that the manual does lay out come as bytes. -/
structure PlanLayout where
  regions : List TileRegion := []
  excluded : List Nat := []
  ranges : List RangePlace := []
  staging : List (Nat × Nat) := []
  hbmRegions : List (Nat × Nat) := []
  history : List Bytes := []
  ys8Streams : List Nat := []
  programs : List Bytes := []
  sweep : List (LineId × Bytes) := []
  dense : List DenseTensor := []
  matrix : List (StageId × Bytes) := []
  slotOwners : List (Nat × StageId × Nat × Bool) := []
  watch : List Bytes := []
  delayed : List (Nat × Nat) := []
  schedule : List ScheduledAccess := []
  exchanges : List ScheduledExchange := []
  writes : List (Nat × Nat) := []
  stageWrites : List (Nat × Nat) := []
  lines : List LineId := []
  exchangeBuffer : Nat := 0
  exportLog : Option (Nat × Nat) := none
  rateMax : List Nat := []
  burstMax : List Nat := []
  denseBytes : Nat := 0
  outBytes : Nat := 0
  outTile : Fin 32 := 0
  outAddr : Nat := 0
  receiveLog : Nat := 0
  appendAt : List AppendPlace := []
  bags : List BagPlace := []
  operands : List OperandPlace := []
  embeddingLayer : Nat := 0
  conformance : Bool := false
  deriving DecidableEq, Repr

/-- The functions of R134. -/
inductive VecFn where
  | exp2
  | exp
  | log2
  | log
  | tanh
  | sigmoid
  | erf
  deriving DecidableEq, Repr

/-- The vector stage's operations (R133). -/
inductive VecOp where
  | add
  | sub
  | mul
  | fma
  | max
  | min
  | cmpEq
  | cmpLt
  | cmpLe
  | cmpUn
  | select
  | rcp
  | rsqrt
  | div
  | sqrt
  | fn (f : VecFn)
  | convert
  deriving DecidableEq, Repr

/-- One vector instruction: the operation, the format codes of R104 of its operands and result, its
attribute, and the places of operands and result: tile store byte addresses, or for binary64 cells of the stage's registers
(R79). `tensor`, `elemBase`, `scaleK`,
`delayed`, `ovfInf` and `sr` belong to a convert (R92 to R94, R238); `aux` is where the scale bytes of
a YS8 operand or result lie (R100), whose stream identifier is `stream`. For row codes `aux` gives the scale
(low 16 bits) and the offset (next 16), and for YI8 activations the scale and the zero point (next 8). `lastBlocks`: the
convert writes the last block of its YS8 tensor (R100). -/
structure VecInstr where
  op : VecOp
  src : Nat
  dst : Nat
  rm : BitVec 2 := 0
  sr : Bool := false
  ovfInf : Bool := false
  delayed : Bool := false
  scaleK : Int := 0
  tensor : Nat := 0
  stream : Nat := 0
  elemBase : Nat := 0
  n : Nat
  a : Nat
  b : Nat := 0
  c : Nat := 0
  d : Nat
  aux : Nat := 0
  lastBlocks : Bool := false
  deriving DecidableEq, Repr

/-- Row operations (R133, R135). -/
inductive RowKind where
  | sum
  | max
  | sumSq
  | dot
  deriving DecidableEq, Repr

/-- One row operation over n elements on one lane (R135). -/
structure RowInstr where
  kind : RowKind
  wide : Bool := false
  tensor : Nat := 0
  rm : BitVec 2 := 0
  n : Nat
  a : Nat
  b : Nat := 0
  d : Nat
  deriving DecidableEq, Repr

/-- Consecutive positions of one block of keys (R224, R232): `len` positions from `first` on of a window block, or of the own
block where `block` is none, and where their keys and values stand as YF16 in the tile store. -/
structure SubBlock where
  block : Option Nat := none
  first : Nat := 0
  len : Nat
  keys : Nat
  values : Nat
  deriving DecidableEq, Repr

/-- One query row and head of an attention computation (R231 to R233): the event of a sample of a set that asks, the tensor
written, the matrix stage and its slots for the products and for dq, and where the operands and results stand; `kept` is
where m and l stay for phase 4. -/
structure AttendInstr where
  row : Nat
  set : Nat
  sample : Nat
  event : Nat
  tensor : Nat := 0
  stageB : Bool := false
  slot : Fin 32 := 0
  dqSlot : Fin 32 := 1
  q : Nat
  dh : Nat
  smScale : Half
  anchor : BitVec 10
  subs : List SubBlock
  out : Nat
  kept : Nat
  dout : Nat := 0
  dq : Nat := 0
  dk : Nat := 0
  dv : Nat := 0
  deriving DecidableEq, Repr

/-- What ALL_TO_ALL carries (R286). -/
inductive A2AKind where
  | sendLists
  | rows
  | partials
  | userLists
  | appends
  deriving DecidableEq, Repr

/-- A shard that GATHER copies (R289): format code, source in HBM or a tile store, destination, elements;
for YS8 the stream and check-block positions whose tags R102 checks. An activation that crosses a layer cut goes to or
comes from another module of the pen (R286). -/
structure ShardCopy where
  fmt : Nat
  fromHbm : Bool
  srcTile : Fin 32
  src : Nat
  srcScale : Nat
  dstTile : Fin 32
  dst : Nat
  n : Nat
  stream : Nat := 0
  firstBlock : Nat := 0
  tensor : Nat := 0
  toModule : Option (BitVec 12) := none
  fromModule : Option (BitVec 12) := none
  deriving DecidableEq, Repr

/-- Statistics of other modules that reach this one at the end of phase 6: per watch entry (KIND, ID) the
AMAX and SAT of its scope's other modules (R241), and per module identifier L, G and samples (R248). -/
structure PeerStats where
  amax : List (Nat × Nat × Word × Nat) := []
  noise : List (Nat × Long × Long × Nat) := []
  deriving DecidableEq, Repr

/-- A unit of a message that a suspect module had not yet sent (R385): the message's destination and MSG number, the unit's
index, LAST, its data and its tag word. -/
structure OutUnit where
  dst : BitVec 12
  num : Nat
  unit : Nat
  last : Bool
  data : Bytes
  tag : Word
  deriving DecidableEq, Repr

/-- What a witness returns (R385): CHECK and TAG of every unit its computation would send, by the message's destination and
MSG number and in sending order; the tile store blocks, merged row gradients (table, row, elements) and dense gradients
(tensor, element) that phase 7 reads; and the units not yet sent. -/
structure WitnessReturn where
  checks : List (BitVec 12 × Nat × List (Word × Word)) := []
  blocks : List (Fin 32 × Nat × Bytes) := []
  merged : List (Nat × Nat × List Word) := []
  dense : List (Nat × Nat × Word) := []
  units : List OutUnit := []
  deriving DecidableEq, Repr

/-- A herd packet that arrives with a good FCS (R275, R276, R281): the 66 bytes of its Ethernet, IPv6 and UDP headers, its Lemod
header, its payload, and its tag in confidential mode. -/
structure HerdPacket where
  header : Bytes
  payload : Bytes
  tag : Bytes := []
  outer : Bytes := []
  deriving DecidableEq, Repr

/-- What the boot ROM finds when the tack room leaves reset (R412, R479, R483): the device secret the PUF gives, the
boot ROM's measurement, the certificates and the trim and option records that Hyram wrote to module flash, the firmware image
there, SVN_FLOOR when a copy of it stands, which checks of hardware fail, and the lanes that fail in the training of a
channel. -/
structure BootInput where
  secret : Option (BitVec 256) := none
  romId : BitVec 256 := 0
  certs : Bytes := []
  vendor : Half := 0
  stepping : Byte := 0
  trimOk : Bool := true
  trim : Bytes := []
  flashReadOk : Bool := true
  image : Bytes := []
  svnFloor : Option Word := none
  laneFails : List (Nat × Nat) := []
  deriving DecidableEq, Repr

/-- How a channel retraining ends (R323). -/
inductive RetrainOutcome where
  | trained (spared : Nat)
  | oldSettings
  | down
  deriving DecidableEq, Repr

/-- What the power stage has measured when a tick falls (R443): VIN in mV, the input current in units of 10 mA,
PIN averaged over 1 ms and over 1 s in W, and PEAK_USED in ms. -/
structure PowerSample where
  vin : Half := 0
  iin : Half := 0
  pin1ms : Half := 0
  pin1s : Half := 0
  peakUsed : BitVec 12 := 0
  deriving DecidableEq, Repr

/-- What raises a retraining request (R321). -/
inductive RetrainCause where
  | errors (n : Nat)
  | temperature
  | age
  deriving DecidableEq, Repr

/-- How the read of a firmware or recovery image ends, and whether module flash could be read (R480 to R482). -/
structure FwImage where
  read : ReadResult
  flashOk : Bool := true
  deriving DecidableEq, Repr

/-- Which kind of host read times out (R353). -/
inductive HostRead where
  | doorbell (g : Fin 128)
  | descriptor (q : Fin 8192)
  | buffer (q : Fin 8192)
  | setup
  deriving DecidableEq, Repr

/-- A host reset's cause (R364). -/
inductive ResetCause where
  | perst
  | hotReset
  | d3hot
  deriving DecidableEq, Repr

/-- When the phase before ended on this module, and when the phase starts (R51, R72). -/
structure PhaseStart where
  ended : Long
  now : Long
  deriving DecidableEq, Repr

/-- A read of a latching low register (R8, R409): the port it comes through, how far above the register's address it
begins, and how many bytes wide it is. -/
structure LowRead where
  port : Fin 4
  shift : Fin 4
  width : Nat
  deriving DecidableEq, Repr

/-- What a read of a group's doorbell page brings back (R349), and when each queue's new tail became visible to the
device (R64). -/
structure DoorbellRead where
  result : ReadResult
  visible : List (Fin 64 × Long)
  deriving DecidableEq, Repr

/-- A herd port that gains PCS lock, and whether its peer signals a remote fault (R271). -/
structure PcsLock where
  port : Fin 8
  remoteFault : Bool
  deriving DecidableEq, Repr

/-- The commands: one constructor per row of spec/opcode_table.json. -/
inductive Instr where
  -- ticks and decisions
  | localTick (now : Long) (p : PowerSample)
  | decisionPoint (now : Long)
  | decisionMessage (d : Decision)
  | timeTransfer (now : Long) (peer : BitVec 12)
  | tickHoldover (now : Long)
  | tickLost (now : Long)
  | tickInEdge (now : Long) (p : PowerSample)
  | done (r : DoneReport)
  | excessDeclaration (module : BitVec 12) (step : BitVec 48)
  | start (port : Fin 4) (value : Word)
  | stop (port : Fin 4) (value : Word)
  -- phases
  | gatherPhaseStart (times : PhaseStart)
  | denseForwardStart (mb : Fin 64) (times : PhaseStart)
  | backwardStart (mb : Fin 64) (times : PhaseStart)
  | gradientExchangeStart (layer : Nat) (now : Long)
  | mergePhaseStart (times : PhaseStart)
  | phase6End (now : Long) (peers : PeerStats)
  | updateSweepStart (times : PhaseStart)
  | sweepEnd (now : Long)
  | tailSlotEnd (now : Long)
  | stepRecord (now : Long) (power : Half)
  -- sequencer registers and latching reads
  | tickPeriod (port : Fin 4) (value : Word)
  | tickCtrl (port : Fin 4) (value : Word)
  | stepLoRead (read : LowRead)
  | evtTailLoRead (read : LowRead)
  | lifeStepsLoRead (read : LowRead)
  -- host queues and descriptors
  | groupPoll (g : Fin 128)
  | descriptorFetched (q : Fin 8192) (r : ReadResult) (now : Long)
  | lapReread (q : Fin 8192)
  | hostReadCompletion (q : Fin 8192) (r : ReadResult) (chk : Check)
  | hostReadTimeout (r : HostRead)
  | trainBatch (q : Fin 8192)
  | evalBatch (q : Fin 8192)
  | tableLoadDescriptor (q : Fin 8192)
  | tableLoadRecords (q : Fin 8192) (writeFails : List Nat)
  | tableLoadBinary32 (q : Fin 8192) (writeFails : List Nat)
  | tableStaging (q : Fin 8192)
  | stagingFillEnd
  | tableSwap (q : Fin 8192)
  | tableSwapDiscard (q : Fin 8192)
  | exportArm (q : Fin 8192)
  | exportArmStop (q : Fin 8192)
  | fence (q : Fin 8192)
  | fenceCompletion (q : Fin 8192)
  | telemetrySnapshot (q : Fin 8192)
  | nop (q : Fin 8192)
  | completionRecord (q : Fin 8192) (now : Long)
  | msixHoldoffEnd (q : Fin 8192)
  | telemetryEntry
  | exportEntry (readFails : Bool)
  | arm (port : Fin 4) (value : Word)
  | disarm (port : Fin 4) (value : Word)
  | disarmEnd (q : Fin 8192)
  | groupCfg (port : Fin 4) (value : Word)
  -- host ports
  | portLinkDown (p : Fin 4) (unacked : Nat)
  | portRetrain (p : Fin 4)
  | linkDownTimeout (p : Fin 4)
  | hostReset (p : Fin 4) (cause : ResetCause)
  | surpriseRemoval (p : Fin 4)
  | portUp (p : Fin 4) (speed : BitVec 4) (width : BitVec 5)
  | unsupportedRequest (p : Fin 4)
  -- embedding path
  | separate (chk : Check)
  | aggregate (owner : BitVec 12)
  | gatherRows (l : LineId)
  | pool (l : LineId) (p : Nat) (f : Nat)
  | rowCacheFill (tile : Fin 32) (table : Nat) (row : Nat)
  -- matrix, vector and attention stages
  | mma (m : StageId) (w : Bytes) (chk : Check)
  | join (m : StageId) (w : Bytes)
  | read (m : StageId) (w : Bytes)
  | store (m : StageId) (w : Bytes)
  | clear (m : StageId) (w : Bytes)
  | status (m : StageId) (w : Bytes)
  | vectorOperation (l : LineId) (i : VecInstr) (chk : Check)
  | rowOperation (l : LineId) (i : RowInstr)
  | attend (l : LineId) (i : AttendInstr)
  | attendBack (l : LineId) (i : AttendInstr)
  -- exchange stage
  | send (dst : BitVec 12) (kind : Nat) (body : Bytes)
  | allToAll (k : A2AKind)
  | reduce (tensor t : Nat) (tile : Fin 32) (addr : Nat)
  | allGather (tensor t : Nat) (tile : Fin 32) (addr : Nat)
  | gather (c : ShardCopy)
  | ringPass (p : Fin 8) (set user layer block : Nat) (tile : Fin 32) (addr : Nat)
  -- update unit
  | firstRead (c : CtxId) (i : Nat) (readsFailed : Fin 4)
  | add (c : CtxId) (d a b : Fin 32) (rm : BitVec 2)
  | sub (c : CtxId) (d a b : Fin 32) (rm : BitVec 2)
  | mul (c : CtxId) (d a b : Fin 32) (rm : BitVec 2)
  | fma (c : CtxId) (d a b e : Fin 32) (rm : BitVec 2)
  | fms (c : CtxId) (d a b e : Fin 32) (rm : BitVec 2)
  | rcp (c : CtxId) (d a : Fin 32) (rm : BitVec 2)
  | rsq (c : CtxId) (d a : Fin 32) (rm : BitVec 2)
  | max (c : CtxId) (d a b : Fin 32)
  | min (c : CtxId) (d a b : Fin 32)
  | neg (c : CtxId) (d a : Fin 32)
  | abs (c : CtxId) (d a : Fin 32)
  | mov (c : CtxId) (d a : Fin 32)
  | ceq (c : CtxId) (d a b : Fin 32)
  | clt (c : CtxId) (d a b : Fin 32)
  | cle (c : CtxId) (d a b : Fin 32)
  | cun (c : CtxId) (d a b : Fin 32)
  | sel (c : CtxId) (d a b e : Fin 32)
  | ldc (c : CtxId) (d : Fin 32) (k : Fin 64)
  | ldf (c : CtxId) (d : Fin 32) (f : BitVec 4) (mfmt : Bool)
  | stf (c : CtxId) (f : BitVec 4) (mfmt : Bool) (a : Fin 32) (rm : BitVec 2)
  | lds (c : CtxId) (d : Fin 32) (k : Fin 4)
  | red (c : CtxId) (kind : BitVec 2) (a : Fin 32) (k : Fin 4) (rm : BitVec 2)
  | qprep (c : CtxId) (kmin kmax : Fin 4)
  | wacc (c : CtxId) (a b : Fin 32)
  | wcopy (c : CtxId)
  | sect (c : CtxId) (once prologue last : Bool) (chk : Check)
  | churnNop (c : CtxId)
  | recordWriteVerified (l : LineId) (i : Nat)
  | sweepTakeover (l : LineId)
  -- history, watch and digests
  | appendDone (pos : Fin 8) (userWriteFails : Nat)
  | digestCompare (module : BitVec 12) (tensor : Nat) (digest : BitVec 256)
  -- pen links
  | dataFlit (k : Fin 8) (flit : Bytes)
  | controlFlit (k : Fin 8) (flit : Bytes)
  | timeFlit (k : Fin 8) (flit : Bytes) (now : Long)
  | retryReq (k : Fin 8) (flit : Bytes)
  | linkRetrain (k : Fin 8)
  | penRetrain (k : Fin 8) (success : Bool)
  | stitchRetransmit (link : LinkEnd)
  | train (port : Fin 4) (value : Word)
  | ident (k : Fin 8) (module : BitVec 12) (digest : Long)
  -- herd ports
  | dataPacket (i : Fin 8) (p : HerdPacket) (fill : Nat) (now : Long)
  | xon (i : Fin 8) (fill : Nat)
  | ackPacket (i : Fin 8) (p : HerdPacket) (now : Long)
  | nak (i : Fin 8) (p : HerdPacket) (now : Long)
  | timePacket (i : Fin 8) (p : HerdPacket) (now : Long)
  | controlPacket (i : Fin 8) (p : HerdPacket) (now : Long)
  | standaloneAck (i : Fin 8) (remote : BitVec 12)
  | gapPersists (i : Fin 8) (remote : BitVec 12)
  | retransmission (i : Fin 8) (remote : BitVec 12) (psn : Nat) (now : Long)
  | ackProgressTimeout (i : Fin 8) (remote : BitVec 12)
  | rateRecovery (i : Fin 8) (remote : BitVec 12)
  | pfcFrame (i : Fin 8) (priority : Fin 8) (quanta : Half) (now : Long)
  | herdPfcStorm (i : Fin 8) (priority : Fin 8)
  | pauseFrame (i : Fin 8)
  | herdPortDown (i : Fin 8)
  | pcsLock (p : PcsLock)
  | joinMessage (module : BitVec 12) (now : Long)
  | mapDigest (module : BitVec 12) (digest : BitVec 256)
  | peerAbsent
  -- memory system
  | blockRead (addr : Nat) (readsFailed : Fin 4)
  | recordWrite (addr : Nat) (data : Bytes) (tag : Word) (mergeReadsFailed : Fin 4)
  | stackWriteAck (stack : Fin 12) (entry : Fin 64) (ok : Bool)
  | regulatedIssue (stack : Fin 12) (cls : Fin 5) (now : Long)
  | retrainRequest (ch : Fin 384) (cause : RetrainCause) (now : Long)
  | retrainOverdue (ch : Fin 384)
  | retrainDone (ch : Fin 384) (o : RetrainOutcome) (now : Long)
  | retrainNow (port : Fin 4) (value : Word)
  | stackTempSample (stack : Fin 12) (temp : Half)
  | regRate (port : Fin 4) (cls : Fin 5) (burst : Bool) (value : Word)
  -- reliability
  | witnessReq (module : BitVec 12) (step : BitVec 48)
  | witnessWork (faults : List UnitId) (result : Bytes)
  | witnessResult (ok : Bool) (r : WitnessReturn)
  | resend (module : BitVec 12) (msg unit : Nat)
  | lifetimeCountWrite
  | trWatchdog
  -- security
  | certs (port : Fin 4) (value : Word)
  | report (port : Fin 4) (value : Word)
  | reportKem (port : Fin 4) (value : Word)
  | keyLoad (port : Fin 4) (value : Word) (r : ReadResult)
  | exit (port : Fin 4) (value : Word)
  | bypass
  | idcode
  | samplePreload
  | extest
  | debug
  -- power
  | auxPowerUp
  | moduleInsertion
  | moduleExtraction
  | pwrEnRise (now : Long)
  | powering (now : Long)
  | bulkCharged
  | pwrgd
  | railRegulationTimeout
  | pwrEnFall (now : Long)
  | railsOff (hours : Nat) (hot : Nat)
  | tripWaitEnd
  | vinUv
  | vinOv
  | vinLow (mv : Half)
  | vinHigh (mv : Half)
  | vinRated (mv : Half)
  | pwrOcp
  | clampStep (junction : Bool)
  | budgetClamp
  | specVoid
  | junctionSensorRead (temp : Half) (sensor : BitVec 7)
  | thermTrip
  | coolSpec (inlet flow : Half) (pin : Bool)
  | coolOk (inlet flow : Half)
  | coolLost
  | wearHour (hot : Bool)
  | auxCfg (port : Fin 4) (value : Word)
  | getStatus
  | setEnable (arg : Bool)
  | powerCycle
  | getEvents
  | mctpControlMessage (body : Bytes)
  | setdasa (addr : BitVec 7)
  | entdaa (addr : BitVec 7)
  -- setup and boot
  | setupUnlock (port : Fin 4) (value : Word)
  | apply (port : Fin 4) (value : Word)
  | discard (port : Fin 4) (value : Word)
  | planLoad (port : Fin 4) (value : Word)
  | planImageRead (r : ReadResult) (layout : PlanLayout)
  | fwUpdate (port : Fin 4) (value : Word)
  | flashWriteEnd
  | erase (port : Fin 4) (value : Word)
  | eraseEnd
  | moduleReset (port : Fin 4) (value : Word)
  | recover (port : Fin 4) (value : Word) (img : FwImage)
  | boot (b : BootInput)
  | dieStarted (die : Fin 64)
  | dieStartTimeout (die : Fin 64)
  | registerWrite (port : Fin 4) (offset : Nat) (width : Nat) (value : Word)
  | doorbellReadCompletion (g : Fin 128) (r : DoorbellRead) (now : Long)
  | idleFlit (k : Fin 8) (flit : Bytes)
  | penTrainingEnd (failed : List OpticalLane)
  | receivedFrameDiscarded (i : Fin 8) (frame : Bytes)
  | pfcPauseExpiry (i : Fin 8) (priority : Fin 8)
  | fwImageRead (img : FwImage)
  deriving DecidableEq, Repr

end Sys2Proof
end

