-- ==== Sys2Proof/Decode.lean ====
section
/-! DEFINITION. Decoding. No row of spec/opcode_table.json gives bits: the commands are register accesses, flits, packets,
events and stage instructions of their own layouts, not words of an instruction memory, so no table word spells one. The two
instruction words that the manual lays out are decoded here: matrix instructions (R123) and churn instructions (R190). -/

namespace Sys2Proof

/-- The command that a word of `nbits` bits spells: the table gives no row any bits, so none does. -/
def decodeTableWord (_nbits _w : Nat) : Option Instr := none

namespace Machine

/-- OP of a matrix instruction (R123). -/
def matrixOp (w : Bytes) : Nat := field w 0 1

/-- The command that a matrix stage's instruction is, by its OP (R123); none for an undefined one. -/
def decodeMatrixWord (m : StageId) (w : Bytes) : Option Instr :=
  if w.length ≠ 24 then none
  else
    match matrixOp w with
    | 1 => some (.mma m w none)
    | 2 => some (.join m w)
    | 3 => some (.read m w)
    | 4 => some (.store m w)
    | 5 => some (.clear m w)
    | 6 => some (.status m w)
    | _ => none

/-- OP of a churn instruction (R190). -/
def cOp (w : Nat) : Nat := bits 7 0 w
/-- D of a churn instruction (R190). -/
def cD (w : Nat) : Fin 32 := Fin.ofNat 32 (bits 12 8 w)
/-- A of a churn instruction (R190). -/
def cA (w : Nat) : Fin 32 := Fin.ofNat 32 (bits 17 13 w)
/-- B of a churn instruction (R190). -/
def cB (w : Nat) : Fin 32 := Fin.ofNat 32 (bits 22 18 w)
/-- C of a churn instruction (R190). -/
def cC (w : Nat) : Fin 32 := Fin.ofNat 32 (bits 27 23 w)
/-- RM of a churn instruction (R190). -/
def cRm (w : Nat) : BitVec 2 := BitVec.ofNat 2 (bits 29 28 w)

/-- The bits of an instruction that its operation uses, none for an undefined OP (R190, R191). -/
def churnMask (op : Nat) : Option Nat :=
  let d := 0x1F00
  let a := 0x3E000
  let b := 0x7C0000
  let c := 0xF800000
  let rm := 0x30000000
  if op = 1 ∨ op = 2 ∨ op = 3 then some (d + a + b + rm)
  else if op = 4 ∨ op = 5 then some (d + a + b + c + rm)
  else if op = 6 ∨ op = 7 then some (d + a + rm)
  else if op = 8 ∨ op = 9 ∨ (16 ≤ op ∧ op ≤ 19) then some (d + a + b)
  else if op = 10 ∨ op = 11 ∨ op = 12 then some (d + a)
  else if op = 20 then some (d + a + b + c)
  else if op = 0x20 then some (d + 0x7E000)
  else if op = 0x21 then some (d + 0x3E000)
  else if op = 0x22 then some (0x1F00 + a + rm)
  else if op = 0x23 then some (d + 0x6000)
  else if op = 0x24 then some (0x300 + a + 0xC0000 + rm)
  else if op = 0x25 then some (0x6000 + 0xC0000)
  else if op = 0x26 then some (a + b)
  else if op = 0x27 then some 0
  else if op = 0x30 then some 0x700
  else if op = 0x3F then some 0
  else none

/-- A churn instruction is undefined, or has a bit that its operation does not use. -/
def churnWordBad (w : Nat) : Bool :=
  match churnMask (cOp w) with
  | some m => (w / 256 * 256 &&& (0xFFFFFFFF ^^^ m)) != 0
  | none => true

/-- The command that a 32-bit churn instruction is in a record context (R190, R191); none for an undefined OP or a bit that its
operation does not use. -/
def decodeChurnWord (c : CtxId) (w : Nat) : Option Instr :=
  if churnWordBad w ∨ 2 ^ 32 ≤ w then none
  else
    match cOp w with
    | 0x01 => some (.add c (cD w) (cA w) (cB w) (cRm w))
    | 0x02 => some (.sub c (cD w) (cA w) (cB w) (cRm w))
    | 0x03 => some (.mul c (cD w) (cA w) (cB w) (cRm w))
    | 0x04 => some (.fma c (cD w) (cA w) (cB w) (cC w) (cRm w))
    | 0x05 => some (.fms c (cD w) (cA w) (cB w) (cC w) (cRm w))
    | 0x06 => some (.rcp c (cD w) (cA w) (cRm w))
    | 0x07 => some (.rsq c (cD w) (cA w) (cRm w))
    | 0x08 => some (.max c (cD w) (cA w) (cB w))
    | 0x09 => some (.min c (cD w) (cA w) (cB w))
    | 0x0A => some (.neg c (cD w) (cA w))
    | 0x0B => some (.abs c (cD w) (cA w))
    | 0x0C => some (.mov c (cD w) (cA w))
    | 0x10 => some (.ceq c (cD w) (cA w) (cB w))
    | 0x11 => some (.clt c (cD w) (cA w) (cB w))
    | 0x12 => some (.cle c (cD w) (cA w) (cB w))
    | 0x13 => some (.cun c (cD w) (cA w) (cB w))
    | 0x14 => some (.sel c (cD w) (cA w) (cB w) (cC w))
    | 0x20 => some (.ldc c (cD w) (Fin.ofNat 64 (bits 18 13 w)))
    | 0x21 => some (.ldf c (cD w) (BitVec.ofNat 4 (bits 16 13 w)) (bit 17 w))
    | 0x22 => some (.stf c (BitVec.ofNat 4 (bits 11 8 w)) (bit 12 w) (cA w) (cRm w))
    | 0x23 => some (.lds c (cD w) (Fin.ofNat 4 (bits 14 13 w)))
    | 0x24 => some (.red c (BitVec.ofNat 2 (bits 9 8 w)) (cA w) (Fin.ofNat 4 (bits 19 18 w)) (cRm w))
    | 0x25 => some (.qprep c (Fin.ofNat 4 (bits 14 13 w)) (Fin.ofNat 4 (bits 19 18 w)))
    | 0x26 => some (.wacc c (cA w) (cB w))
    | 0x27 => some (.wcopy c)
    | 0x30 => some (.sect c (bit 8 w) (bit 9 w) (bit 10 w) none)
    | 0x3F => some (.churnNop c)
    | _ => none

end Machine

end Sys2Proof
end

