-- ==== Sys2Proof/Config.lean ====
section
/-! DEFINITION. The free values of the model: every constant here has no body, so nothing can be
proved of its value. Each stands for a value the manual does not state or takes from a standard it only
names (log 4, log 5). -/

namespace Sys2Proof.Config

/-- What the reserved bits of a setup register read as (R10: undefined, may change); log 9. -/
opaque reservedBits : Nat → Word

/-- Which of the results within the error that R134 allows a function gives, by function and argument: the manual bounds the
error and does not give the bits; log 5. -/
opaque functionPick : Nat → Word → Nat

/-- SHA3-256 of FIPS 202, which the manual names and does not define; log 5. -/
opaque sha3 : Bytes → BitVec 256
/-- KMAC256(K, X, 256, S) of SP 800-185 (R413), with S numbered by its use; log 5. -/
opaque kmac256 : BitVec 256 → Bytes → Nat → BitVec 256
/-- The AES-256-GCM tag (R266, R281, R402, R428) under a key, a nonce, associated data and plaintext; log 5. -/
opaque gcmTag : BitVec 256 → Bytes → Bytes → Bytes → BitVec 128
/-- AES-256-GCM encryption of a plaintext under a key and a nonce; log 5. -/
opaque gcmEncrypt : BitVec 256 → Bytes → Bytes → Bytes
/-- The ML-DSA-44 public key of the identity seed (R413), 1,312 bytes; log 5. -/
opaque identityKey : BitVec 256 → Bytes
/-- The ML-DSA-44 signature (2,420 bytes) of a message under the identity key with a context; log 5. -/
opaque sign : BitVec 256 → Nat → Bytes → Bytes
/-- Whether an ML-DSA-44 signature over a message verifies under a public key with a context; log 5. -/
opaque verify : Bytes → Nat → Bytes → Bytes → Bool
/-- The output of the random bit generator of R416 at each draw; log 5. -/
opaque randomBits : Nat → BitVec 256
/-- The ML-KEM-768 encapsulation key (1,184 bytes) of the key pair made from a draw (R416); log 5. -/
opaque kemPublic : BitVec 256 → Bytes
/-- ML-KEM.Decaps of FIPS 203 (R424): the shared secret of a ciphertext; log 5. -/
opaque kemDecaps : BitVec 256 → Bytes → BitVec 256

/-- The SHA3-256 of Hyram's firmware-signing public key, which the boot ROM holds (R480) and the manual does not give; log 5. -/
opaque fwKeyDigest : BitVec 256

/-- The answer to an MCTP control message (R459), which DSP0236 gives; log 5. -/
opaque mctpReply : Bytes → Bytes

/-- What a compare record of a vector file gives (R104): its result and status, of which the manual states neither relation nor
value; log 4. -/
opaque vectorCompare : Bytes → Long × Word

/-- A value a device read or a stage left open for which the manual gives no bits; log 4. -/
opaque freeWord : Nat → Word

end Sys2Proof.Config
end

