-- ==== Sys2Proof/Machine/Memory.lean ====
section
/-! DEFINITION. Sparse maps keyed by number, and byte memory as such a map, each in one canonical form:
keys strictly rising and, for memory, no entry equal to what an unlisted address reads as. -/

namespace Sys2Proof.Machine

/-- A map from numbers to values: keys strictly rising. -/
abbrev NMap (α : Type) := List (Nat × α)

/-- The value listed at a key. -/
def NMap.find? {α : Type} : NMap α → Nat → Option α
  | [], _ => none
  | (k, v) :: r, i => if k = i then some v else NMap.find? r i

/-- The value at a key, `d` where none is listed. -/
def NMap.getD {α : Type} (m : NMap α) (i : Nat) (d : α) : α := (NMap.find? m i).getD d

/-- List `v` at key `i`. -/
def NMap.insert {α : Type} : NMap α → Nat → α → NMap α
  | [], i, v => [(i, v)]
  | (k, w) :: r, i, v =>
    if k < i then (k, w) :: NMap.insert r i v
    else if k = i then (i, v) :: r
    else (i, v) :: (k, w) :: r

/-- List nothing at key `i`. -/
def NMap.erase {α : Type} : NMap α → Nat → NMap α
  | [], _ => []
  | (k, w) :: r, i => if k = i then r else (k, w) :: NMap.erase r i

/-- Change the value at key `i`, taking `d` where none is listed. -/
def NMap.modify {α : Type} (m : NMap α) (i : Nat) (d : α) (f : α → α) : NMap α :=
  NMap.insert m i (f (NMap.getD m i d))

/-- The keys strictly rise from a lower bound. -/
def NMap.sortedFrom {α : Type} : Nat → NMap α → Bool
  | _, [] => true
  | lo, (k, _) :: r => decide (lo ≤ k) && NMap.sortedFrom (k + 1) r

/-- The canonical order of keys. -/
def NMap.sorted {α : Type} (m : NMap α) : Bool := NMap.sortedFrom 0 m

/-- Byte memory: the bytes that differ from 0x00, which an unlisted address reads as (log 7). -/
abbrev Memory := List Host.Cell

/-- What an address reads as where nothing is listed (DESIGN CHOICE; log 7). -/
def Memory.blank : Byte := 0

/-- One byte of memory. -/
def Memory.read (m : Memory) (a : Nat) : Byte := NMap.getD m a Memory.blank

/-- Write one byte, keeping the canonical form. -/
def Memory.write (m : Memory) (a : Nat) (b : Byte) : Memory :=
  if b = Memory.blank then NMap.erase m a else NMap.insert m a b

/-- The bytes from an address, lowest first. -/
def Memory.readBytes (m : Memory) (a : Nat) : Nat → Bytes
  | 0 => []
  | n + 1 => Memory.read m a :: Memory.readBytes m (a + 1) n

/-- Write bytes from an address up. -/
def Memory.writeBytes (m : Memory) : Nat → Bytes → Memory
  | _, [] => m
  | a, b :: bs => Memory.writeBytes (Memory.write m a b) (a + 1) bs

/-- The canonical form of memory. -/
def Memory.wf (m : Memory) : Bool := NMap.sorted m && m.all (fun c => c.2 != Memory.blank)

end Sys2Proof.Machine
end

