-- ==== Sys2Proof/Machine/Flags.lean ====
section
/-! DEFINITION. The exceptions and counts that an operation or a conversion reports (R83, R92, R96, R97,
R105, R485). The model's processor-style flags are these: the block has no flag register. -/

namespace Sys2Proof.Machine

/-- What one operation or conversion of one element or block signals: bits 0 to 10 of the status word
of R105. -/
structure Flags where
  invalid : Bool := false
  divZero : Bool := false
  overflow : Bool := false
  underflow : Bool := false
  inexact : Bool := false
  saturation : Bool := false
  crowded : Bool := false
  zeroBlock : Bool := false
  poisoned : Bool := false
  ovf : Bool := false
  loss : Bool := false
  deriving DecidableEq, Repr

/-- Nothing signalled. -/
def Flags.none : Flags := {}

/-- Both operations' signals. -/
def Flags.or (a b : Flags) : Flags where
  invalid := a.invalid || b.invalid
  divZero := a.divZero || b.divZero
  overflow := a.overflow || b.overflow
  underflow := a.underflow || b.underflow
  inexact := a.inexact || b.inexact
  saturation := a.saturation || b.saturation
  crowded := a.crowded || b.crowded
  zeroBlock := a.zeroBlock || b.zeroBlock
  poisoned := a.poisoned || b.poisoned
  ovf := a.ovf || b.ovf
  loss := a.loss || b.loss

/-- The status word of R105. -/
def Flags.word (f : Flags) : Nat :=
  b2n f.invalid + 2 * b2n f.divZero + 4 * b2n f.overflow + 8 * b2n f.underflow + 16 * b2n f.inexact
    + 32 * b2n f.saturation + 64 * b2n f.crowded + 128 * b2n f.zeroBlock + 256 * b2n f.poisoned
    + 512 * b2n f.ovf + 1024 * b2n f.loss

end Sys2Proof.Machine
end

