-- ==== Sys2Proof/Machine/Operands.lean ====
section
/-! DEFINITION. Every operand form of the number formats (R79 to R99, R485): what an encoding's value
is, how an exact value is rounded into a format, IEEE 754 arithmetic on them, and the block and row
conversions. -/

namespace Sys2Proof.Machine

/-! ## Formats -/

/-- A floating-point format of R79: exponent and fraction bits, bias (R85), whether emax holds infinities
(R86), and its generated NaN (R82, R86). -/
structure Fmt where
  expBits : Nat
  fracBits : Nat
  bias : Nat
  hasInf : Bool
  genNaN : Nat
  deriving DecidableEq, Repr

/-- binary64 (R79, R82). -/
def binary64 : Fmt := ⟨11, 52, 1023, true, 0x7FF8000000000000⟩
/-- binary32 (R79, R82). -/
def binary32 : Fmt := ⟨8, 23, 127, true, 0x7FC00000⟩
/-- YF16 (R85, R86). -/
def yf16 : Fmt := ⟨8, 7, 127, true, 0x7FC0⟩
/-- YF8E4 (R85, R86). -/
def yf8e4 : Fmt := ⟨4, 3, 7, false, 0x7F⟩
/-- YF8E5 (R85, R86). -/
def yf8e5 : Fmt := ⟨5, 2, 15, true, 0x7E⟩

/-- Bits of a format. -/
def Fmt.width (f : Fmt) : Nat := 1 + f.expBits + f.fracBits
/-- The greatest exponent field value (R85). -/
def Fmt.emax (f : Fmt) : Nat := 2 ^ f.expBits - 1
/-- The exponent of the subnormal step, 2^(1 − B − F) (R85). -/
def Fmt.quantum (f : Fmt) : Int := 1 - (f.bias : Int) - (f.fracBits : Int)
/-- The exponent of the largest finite value's last place. -/
def Fmt.topQuantum (f : Fmt) : Int :=
  (if f.hasInf then (f.emax : Int) - 1 else (f.emax : Int)) - (f.bias : Int) - (f.fracBits : Int)
/-- The significand of the largest finite value (R86): all ones, but 14 for YF8E4 whose f = 7 is a NaN. -/
def Fmt.topSig (f : Fmt) : Nat := if f.hasInf then 2 ^ (f.fracBits + 1) - 1 else 2 ^ (f.fracBits + 1) - 2

/-- The format that a code of R104 names, for the floating-point codes. -/
def Fmt.ofCode (c : Nat) : Option Fmt :=
  if c = 1 then some binary64 else if c = 2 then some binary32 else if c = 3 then some yf16
  else if c = 4 then some yf8e4 else if c = 5 then some yf8e5 else none

/-! ## Values -/

/-- The value of an encoding: a NaN (signalling or quiet), an infinity, or (−1)^neg × m × 2^e. -/
inductive Num where
  | nan (signalling : Bool)
  | inf (neg : Bool)
  | fin (neg : Bool) (m : Nat) (e : Int)
  deriving DecidableEq, Repr

/-- The value of an encoding (R85, R86, and IEEE 754 for binary32 and binary64). -/
def decodeNum (f : Fmt) (w : Nat) : Num :=
  let s := bit (f.expBits + f.fracBits) w
  let e := (w / 2 ^ f.fracBits) % 2 ^ f.expBits
  let fr := w % 2 ^ f.fracBits
  if e = f.emax ∧ f.hasInf then
    if fr = 0 then .inf s else .nan (fr < 2 ^ (f.fracBits - 1))
  else if e = f.emax ∧ fr = 2 ^ f.fracBits - 1 then .nan false
  else if e = 0 then .fin s fr f.quantum
  else .fin s (2 ^ f.fracBits + fr) ((e : Int) - f.bias - f.fracBits)

/-- Whether a value is a NaN. -/
def Num.isNaN : Num → Bool
  | .nan _ => true
  | _ => false

/-- Whether a value is a signalling NaN (R82). -/
def Num.isSNaN : Num → Bool
  | .nan s => s
  | _ => false

/-- Whether a value is finite. -/
def Num.isFin : Num → Bool
  | .fin _ _ _ => true
  | _ => false

/-- Whether a value is a zero. -/
def Num.isZero : Num → Bool
  | .fin _ m _ => m == 0
  | _ => false

/-- The sign of a value. -/
def Num.neg? : Num → Bool
  | .nan _ => false
  | .inf s => s
  | .fin s _ _ => s

/-- A value with its sign inverted. -/
def Num.negate : Num → Num
  | .nan s => .nan s
  | .inf s => .inf (!s)
  | .fin s m e => .fin (!s) m e

/-- A value with its sign cleared. -/
def Num.abs : Num → Num
  | .nan s => .nan s
  | .inf _ => .inf false
  | .fin _ m e => .fin false m e

/-- A value times 2^k (R94), exactly. -/
def Num.scale (x : Num) (k : Int) : Num :=
  match x with
  | .fin s m e => .fin s m (e + k)
  | y => y

/-- An integer as a value. -/
def Num.ofInt (i : Int) : Num := .fin (decide (i < 0)) i.natAbs 0

/-- The signed multiple of 2^k that a finite value is, for k at or below its exponent. -/
def Num.atScale (x : Num) (k : Int) : Int :=
  match x with
  | .fin s m e =>
    let v : Int := (m * 2 ^ (e - k).toNat : Nat)
    if s then -v else v
  | _ => 0

/-- The exponent of a finite value. -/
def Num.exponent : Num → Int
  | .fin _ _ e => e
  | _ => 0

/-- An exact integer times 2^e as a value; an exact zero takes the sign given. -/
def Num.ofScaled (i : Int) (e : Int) (zeroNeg : Bool) : Num :=
  if i = 0 then .fin zeroNeg 0 e else .fin (decide (i < 0)) i.natAbs e

/-- Compare finite values or infinities: the sign of a − b, for operands that are no NaN. -/
def Num.lt (a b : Num) : Bool :=
  match a, b with
  | .nan _, _ => false
  | _, .nan _ => false
  | .inf s, .inf t => s && !t
  | .inf s, .fin _ _ _ => s
  | .fin _ _ _, .inf t => !t
  | x, y => let k := min x.exponent y.exponent
            decide (x.atScale k < y.atScale k)

/-- Equality of numbers that are no NaN; the zeros are equal. -/
def Num.eq (a b : Num) : Bool := !a.isNaN && !b.isNaN && !Num.lt a b && !Num.lt b a

/-! ## Rounding -/

/-- The rounding methods of R81, R92 and R103: to nearest even, toward zero, toward positive, toward
negative, and stochastic with a draw u (R93). -/
inductive Rounding where
  | rne
  | rz
  | rp
  | rn
  | sr (u : Nat)
  deriving DecidableEq, Repr

/-- The rounding-direction attribute of a 2-bit field (R81). -/
def Rounding.ofField (rm : BitVec 2) : Rounding :=
  if rm = 0 then .rne else if rm = 1 then .rz else if rm = 2 then .rp else .rn

/-- Round the magnitude a / b to a whole number, for a value of the given sign (R81, R93). -/
def roundQuot (r : Rounding) (neg : Bool) (a b : Nat) : Nat :=
  let q := a / b
  let t := a % b
  if t = 0 then q else
  match r with
  | .rne => if b < 2 * t ∨ (2 * t = b ∧ q % 2 = 1) then q + 1 else q
  | .rz => q
  | .rp => if neg then q else q + 1
  | .rn => if neg then q + 1 else q
  | .sr u => if u < t * 65536 / b then q + 1 else q

/-- An exact magnitude num / den × 2^e, with den above zero. -/
structure Mag where
  num : Nat
  den : Nat
  e : Int
  deriving DecidableEq, Repr

/-- floor(log2) of a magnitude that is not zero. -/
def Mag.log2 (x : Mag) : Int :=
  let d : Int := (x.num.log2 : Int) - (x.den.log2 : Int)
  let below := if 0 ≤ d then decide (x.num < x.den * 2 ^ d.toNat)
               else decide (x.num * 2 ^ (-d).toNat < x.den)
  (if below then d - 1 else d) + x.e

/-- The magnitude as a fraction of 2^q. -/
def Mag.overQ (x : Mag) (q : Int) : Nat × Nat :=
  let d := x.e - q
  if 0 ≤ d then (x.num * 2 ^ d.toNat, x.den) else (x.num, x.den * 2 ^ (-d).toNat)

/-- The magnitude rounded to a multiple of 2^q. -/
def Mag.roundAt (x : Mag) (r : Rounding) (neg : Bool) (q : Int) : Nat :=
  let f := x.overQ q
  roundQuot r neg f.1 f.2

/-- Whether the magnitude is a multiple of 2^q. -/
def Mag.exactAt (x : Mag) (q : Int) : Bool :=
  let f := x.overQ q
  f.1 % f.2 == 0

/-- How a format's overflow is answered (R92): as IEEE 754 for the long formats, infinity or the largest
finite value for the short ones. -/
inductive Overflow where
  | ieee
  | toInf
  | toMax
  | directed
  deriving DecidableEq, Repr

/-- How a target answers a value beyond its largest finite one (R92). -/
def Overflow.of (f : Fmt) (r : Rounding) (ovfInf : Bool) : Overflow :=
  if f = binary32 ∨ f = binary64 then .ieee
  else if f = yf16 then (if r = .rp ∨ r = .rn ∨ r = .rz then .directed else .toInf)
  else if f = yf8e5 ∧ ovfInf then .toInf
  else .toMax

/-- The encoding of sign and a significand n × 2^q with n at most 2^(F + 1). -/
def encodeSig (f : Fmt) (neg : Bool) (n : Nat) (q : Int) : Nat :=
  let top := 2 ^ (f.fracBits + 1)
  let n' := if n = top then top / 2 else n
  let q' := if n = top then q + 1 else q
  let sign := b2n neg * 2 ^ (f.expBits + f.fracBits)
  if n' < 2 ^ f.fracBits then sign + n'
  else sign + (q' + f.fracBits + f.bias).toNat * 2 ^ f.fracBits + (n' - 2 ^ f.fracBits)

/-- The infinity of a sign in a format with infinities. -/
def encodeInf (f : Fmt) (neg : Bool) : Nat :=
  b2n neg * 2 ^ (f.expBits + f.fracBits) + f.emax * 2 ^ f.fracBits

/-- The largest finite value of a sign. -/
def encodeMax (f : Fmt) (neg : Bool) : Nat := encodeSig f neg f.topSig f.topQuantum

/-- The zero of a sign. -/
def encodeZero (f : Fmt) (neg : Bool) : Nat := b2n neg * 2 ^ (f.expBits + f.fracBits)

/-- Round an exact magnitude once into a format, with the exceptions of R83 and R485 and the saturation
of R92. -/
def roundTo (f : Fmt) (r : Rounding) (ovfInf neg : Bool) (x : Mag) : Nat × Flags :=
  if x.num = 0 then (encodeZero f neg, {}) else
  let free := x.log2 - f.fracBits
  let q := max free f.quantum
  let n := x.roundAt r neg q
  let inexact := !x.exactAt q
  let nFree := x.roundAt r neg free
  let tiny := decide (nFree ≠ 0 ∧ (⟨nFree, 1, free⟩ : Mag).log2 < 1 - (f.bias : Int))
  let base := min q f.topQuantum
  let exceeds := decide (((⟨f.topSig, 1, f.topQuantum⟩ : Mag).overQ base).1 < ((⟨n, 1, q⟩ : Mag).overQ base).1)
  if exceeds then
    match Overflow.of f r ovfInf with
    | .ieee =>
      let toInf := match r with
        | .rne => true
        | .sr _ => true
        | .rz => false
        | .rp => !neg
        | .rn => neg
      (if toInf then encodeInf f neg else encodeMax f neg, { overflow := true, inexact := true })
    | .toInf => (encodeInf f neg, { saturation := true, inexact := true })
    | .toMax => (encodeMax f neg, { saturation := true, inexact := true })
    | .directed =>
      let away := match r with
        | .rp => !neg
        | .rn => neg
        | _ => false
      (if away then encodeInf f neg else encodeMax f neg, { saturation := true, inexact := true })
  else (encodeSig f neg n q, { underflow := tiny && inexact, inexact := inexact })

/-- Round a value into a format: NaN as the generated NaN, infinities as R95 gives them. -/
def Num.round (f : Fmt) (r : Rounding) (ovfInf : Bool) (x : Num) : Nat × Flags :=
  match x with
  | .nan s => (f.genNaN, { invalid := s })
  | .inf s => if f.hasInf then (encodeInf f s, {}) else (encodeMax f s, { saturation := true, inexact := true })
  | .fin s m e => roundTo f r ovfInf s ⟨m, 1, e⟩

/-! ## Arithmetic (R80 to R84) -/

/-- Sum of two values, exact; an exact zero sum takes the sign IEEE 754 gives it under the attribute. -/
def Num.add (r : Rounding) (a b : Num) : Num × Flags :=
  match a, b with
  | .nan s, y => (.nan false, { invalid := s || y.isSNaN })
  | x, .nan s => (.nan false, { invalid := s || x.isSNaN })
  | .inf s, .inf t => if s = t then (.inf s, {}) else (.nan false, { invalid := true })
  | .inf s, .fin _ _ _ => (.inf s, {})
  | .fin _ _ _, .inf t => (.inf t, {})
  | .fin s m e, .fin t n d =>
    let k := min e d
    let sum := (Num.fin s m e).atScale k + (Num.fin t n d).atScale k
    let zeroNeg := if m = 0 ∧ n = 0 ∧ s = t then s else decide (r = .rn)
    (Num.ofScaled sum k zeroNeg, {})

/-- Product of two values, exact. -/
def Num.mul (a b : Num) : Num × Flags :=
  match a, b with
  | .nan s, y => (.nan false, { invalid := s || y.isSNaN })
  | x, .nan s => (.nan false, { invalid := s || x.isSNaN })
  | .inf s, .inf t => (.inf (s != t), {})
  | .inf s, .fin t n _ => if n = 0 then (.nan false, { invalid := true }) else (.inf (s != t), {})
  | .fin s m _, .inf t => if m = 0 then (.nan false, { invalid := true }) else (.inf (s != t), {})
  | .fin s m e, .fin t n d => (.fin (s != t) (m * n) (e + d), {})

/-- One operation's rounded result with its signals; a NaN result is canonical (R82). -/
def finish (f : Fmt) (r : Rounding) (x : Num × Flags) : Nat × Flags :=
  match x.1 with
  | .nan _ => (f.genNaN, x.2)
  | y => let z := y.round f r true
         (z.1, x.2.or z.2)

/-- addition (R80). -/
def fAdd (f : Fmt) (r : Rounding) (a b : Nat) : Nat × Flags :=
  finish f r (Num.add r (decodeNum f a) (decodeNum f b))

/-- subtraction (R80). -/
def fSub (f : Fmt) (r : Rounding) (a b : Nat) : Nat × Flags :=
  finish f r (Num.add r (decodeNum f a) (decodeNum f b).negate)

/-- multiplication (R80). -/
def fMul (f : Fmt) (r : Rounding) (a b : Nat) : Nat × Flags :=
  finish f r (Num.mul (decodeNum f a) (decodeNum f b))

/-- fusedMultiplyAdd a × b + c on values, one rounding (R80). 0 × ∞ + a quiet NaN signals invalid (DESIGN CHOICE, log 37). -/
def Num.fma (r : Rounding) (a b c : Num) : Num × Flags :=
  let p := Num.mul a b
  let s := Num.add r p.1 c
  (s.1, (p.2.or s.2).or { invalid := c.isSNaN })

/-- fusedMultiplyAdd (R80). -/
def fFma (f : Fmt) (r : Rounding) (a b c : Nat) : Nat × Flags :=
  finish f r (Num.fma r (decodeNum f a) (decodeNum f b) (decodeNum f c))

/-- c − a × b with one rounding (R191 FMS). -/
def fFms (f : Fmt) (r : Rounding) (a b c : Nat) : Nat × Flags :=
  finish f r (Num.fma r (decodeNum f a).negate (decodeNum f b) (decodeNum f c))

/-- division (R80). -/
def fDiv (f : Fmt) (r : Rounding) (a b : Nat) : Nat × Flags :=
  match decodeNum f a, decodeNum f b with
  | .nan s, y => (f.genNaN, { invalid := s || y.isSNaN })
  | x, .nan s => (f.genNaN, { invalid := s || x.isSNaN })
  | .inf _, .inf _ => (f.genNaN, { invalid := true })
  | .inf s, .fin t _ _ => (encodeInf f (s != t), {})
  | .fin s _ _, .inf t => (encodeZero f (s != t), {})
  | .fin s m e, .fin t n d =>
    if n = 0 then
      if m = 0 then (f.genNaN, { invalid := true }) else (encodeInf f (s != t), { divZero := true })
    else roundTo f r true (s != t) ⟨m, n, e - d⟩

/-- division by a whole number above zero, taken exactly. -/
def fDivInt (f : Fmt) (r : Rounding) (a n : Nat) : Nat × Flags :=
  match decodeNum f a with
  | .nan s => (f.genNaN, { invalid := s })
  | .inf s => (encodeInf f s, {})
  | .fin s m e => roundTo f r true s ⟨m, n, e⟩

/-- The encoding of 1.0. -/
def one (f : Fmt) : Nat := f.bias * 2 ^ f.fracBits

/-- division 1 / x (R80). -/
def fRcp (f : Fmt) (r : Rounding) (a : Nat) : Nat × Flags := fDiv f r (one f) a

/-- The greatest s with s × s at most n, from bit k − 1 down. -/
def isqrtFrom : Nat → Nat → Nat → Nat
  | 0, _, s => s
  | k + 1, n, s =>
    let t := s + 2 ^ k
    isqrtFrom k n (if t * t ≤ n then t else s)

/-- floor of the square root. -/
def isqrt (n : Nat) : Nat := isqrtFrom (n.log2 / 2 + 1) n 0

/-- squareRoot of a finite value above zero as a magnitude whose last bit is sticky. -/
def sqrtMag (m : Nat) (e : Int) : Mag :=
  let m' := if e % 2 = 0 then m else 2 * m
  let e' := if e % 2 = 0 then e else e - 1
  let x := m' * 2 ^ 128
  let s := isqrt x
  ⟨2 * s + b2n (s * s != x), 1, e' / 2 - 64 - 1⟩

/-- 1 / squareRoot of a finite value above zero as a magnitude whose last bit is sticky. -/
def rsqrtMag (m : Nat) (e : Int) : Mag :=
  let m' := if e % 2 = 0 then m else 2 * m
  let e' := if e % 2 = 0 then e else e - 1
  let k := m'.log2 + 72
  let x := 2 ^ (2 * k)
  let s := isqrt (x / m')
  ⟨2 * s + b2n (s * s * m' != x), 1, -(e' / 2) - (k : Int) - 1⟩

/-- squareRoot (R80). -/
def fSqrt (f : Fmt) (r : Rounding) (a : Nat) : Nat × Flags :=
  match decodeNum f a with
  | .nan s => (f.genNaN, { invalid := s })
  | .inf s => if s then (f.genNaN, { invalid := true }) else (encodeInf f false, {})
  | .fin s m e =>
    if m = 0 then (encodeZero f s, {})
    else if s then (f.genNaN, { invalid := true })
    else roundTo f r true false (sqrtMag m e)

/-- rSqrt (R80). -/
def fRsqrt (f : Fmt) (r : Rounding) (a : Nat) : Nat × Flags :=
  match decodeNum f a with
  | .nan s => (f.genNaN, { invalid := s })
  | .inf s => if s then (f.genNaN, { invalid := true }) else (encodeZero f false, {})
  | .fin s m e =>
    if m = 0 then (encodeInf f s, { divZero := true })
    else if s then (f.genNaN, { invalid := true })
    else roundTo f r true false (rsqrtMag m e)

/-- A NaN as the canonical one, any other encoding unchanged (R82). -/
def canon (f : Fmt) (a : Nat) : Nat := if (decodeNum f a).isNaN then f.genNaN else a

/-- maximumNumber and minimumNumber under R84: `big` selects the maximum. -/
def fExtreme (f : Fmt) (big : Bool) (a b : Nat) : Nat × Flags :=
  let x := decodeNum f a
  let y := decodeNum f b
  let inv : Flags := { invalid := x.isSNaN || y.isSNaN }
  if x.isNaN && y.isNaN then (f.genNaN, inv)
  else if x.isNaN then (b, inv)
  else if y.isNaN then (a, inv)
  else if x.isZero && y.isZero then
    (if big then encodeZero f (x.neg? && y.neg?) else encodeZero f (x.neg? || y.neg?), inv)
  else if Num.lt x y = big then (b, inv) else (a, inv)

/-- maximumNumber (R84). -/
def fMax (f : Fmt) (a b : Nat) : Nat × Flags := fExtreme f true a b
/-- minimumNumber (R84). -/
def fMin (f : Fmt) (a b : Nat) : Nat × Flags := fExtreme f false a b

/-- The four quiet comparisons of R80. -/
inductive Cmp where
  | eq
  | lt
  | le
  | un
  deriving DecidableEq, Repr

/-- A quiet comparison: true or false, invalid only for a signalling NaN (R80, R82). -/
def fCmp (f : Fmt) (c : Cmp) (a b : Nat) : Bool × Flags :=
  let x := decodeNum f a
  let y := decodeNum f b
  let inv : Flags := { invalid := x.isSNaN || y.isSNaN }
  match c with
  | .eq => (Num.eq x y, inv)
  | .lt => (Num.lt x y, inv)
  | .le => (Num.lt x y || Num.eq x y, inv)
  | .un => (x.isNaN || y.isNaN, inv)

/-- Sign inverted; a NaN gives the canonical NaN (R191 NEG). -/
def fNeg (f : Fmt) (a : Nat) : Nat :=
  if (decodeNum f a).isNaN then f.genNaN else a ^^^ 2 ^ (f.expBits + f.fracBits)

/-- Sign cleared; a NaN gives the canonical NaN (R191 ABS). -/
def fAbs (f : Fmt) (a : Nat) : Nat :=
  if (decodeNum f a).isNaN then f.genNaN else a % 2 ^ (f.expBits + f.fracBits)

/-! ## Conversions (R92 to R95) -/

/-- Convert an encoding from one floating-point format to another, with a tensor scale 2^k (R94). -/
def convert (src dst : Fmt) (r : Rounding) (ovfInf : Bool) (k : Int) (a : Nat) : Nat × Flags :=
  ((decodeNum src a).scale k).round dst r ovfInf

/-- Widen an encoding exactly to binary32 (R87, R95). -/
def widen (src : Fmt) (a : Nat) : Nat := (convert src binary32 .rne true 0 a).1

/-- The signals of a list of results. -/
def flagsOf (rs : List (Nat × Flags)) : Flags := rs.foldl (fun acc p => Flags.or acc p.2) Flags.none

/-! ## Block formats (R88, R89, R96, R97) -/

/-- The value of YS8 element x with scale byte S (R88); a poisoned block gives NaN (R99). -/
def ys8Elem (s x : Nat) : Num :=
  if s = 255 then .nan false else (decodeNum yf8e4 x).scale ((s : Int) - 127)

/-- A YS8 block: scale byte and 32 element bytes. -/
structure Ys8 where
  scale : Nat
  elems : List Nat
  deriving DecidableEq, Repr

/-- The signals of the elements of a block or row that is written poisoned: invalid for a signalling NaN (R82). -/
def poisonSignals (xs : List Num) : List Flags := xs.map (fun x => { invalid := x.isSNaN })

/-- Whether any element is a signalling NaN. -/
def anySNaN (xs : List Num) : Bool := xs.any Num.isSNaN

/-- The poisoned YS8 block of R96. -/
def Ys8.poison : Ys8 := ⟨255, List.replicate 32 0⟩

/-- The largest magnitude of finite values, zero for none. -/
def amaxOf : List Num → Num
  | [] => .fin false 0 0
  | x :: xs => let m := amaxOf xs
               if x.isFin && Num.lt m x.abs then x.abs else m

/-- floor(log2 |x|) of a finite value that is not zero. -/
def Num.floorLog2 : Num → Int
  | .fin _ m e => (⟨m, 1, e⟩ : Mag).log2
  | _ => 0

/-- ceil(log2(x / 448)) of a finite value above zero (R96). -/
def ceilLog2Over448 : Num → Int
  | .fin _ m e =>
    let x : Mag := ⟨m, 7, e - 6⟩
    let d := x.log2
    let f := x.overQ d
    if f.1 = f.2 then d else d + 1
  | _ => 0

/-- The draw an element uses, if the method is stochastic; any other method is the same for all. -/
def Rounding.at (m : Nat → Rounding) (i : Nat) : Rounding := m i

/-- The scale of a block whose largest magnitude is not zero (R96). -/
def ys8Scale (xs : List Num) : Int := min (max (ceilLog2Over448 (amaxOf xs) + 127) 0) 254

/-- The elements of a block at a scale, each with its signals (R96, R485). -/
def ys8Rounded (xs : List Num) (method : Nat → Rounding) (s : Int) : List (Nat × Flags) :=
  xs.zipIdx.map (fun p => (p.1.scale (127 - s)).round yf8e4 (method p.2) false)

/-- What the conversion of each element to YS8 signals (R485). -/
def ys8Signals (xs : List Num) (method : Nat → Rounding) : List Flags :=
  if xs.any (fun x => !x.isFin) then poisonSignals xs
  else if (amaxOf xs).isZero then xs.map (fun _ => {})
  else (ys8Rounded xs method (ys8Scale xs)).map (·.2)

/-- Conversion of a block of values to YS8 (R96). -/
def ys8From (xs : List Num) (method : Nat → Rounding) : Ys8 × Flags × Nat :=
  if xs.any (fun x => !x.isFin) then (Ys8.poison, { poisoned := true, invalid := anySNaN xs }, 0) else
  let a := amaxOf xs
  if a.isZero then (⟨0, xs.map (fun x => encodeZero yf8e4 x.neg?)⟩, {}, 0) else
  let s := ys8Scale xs
  let rs := ys8Rounded xs method s
  let crowd := (xs.zip rs).countP (fun p => !p.1.isZero && p.2.1 % 128 == 0 && decide (0 < s))
  let fl := flagsOf rs
  (⟨s.toNat, rs.map (·.1)⟩,
    fl.or { crowded := decide (0 < crowd), zeroBlock := rs.all (fun p => p.1 % 128 == 0) }, crowd)

/-- A YB16 block: exponent byte and 32 fractions as 16-bit numbers. -/
structure Yb16 where
  exp : Nat
  fracs : List Nat
  deriving DecidableEq, Repr

/-- The poisoned YB16 block of R97. -/
def Yb16.poison : Yb16 := ⟨255, List.replicate 32 0⟩
/-- The zero YB16 block of R97. -/
def Yb16.zero : Yb16 := ⟨0, List.replicate 32 0⟩

/-- Whether a block breaks the encoding of R89 (R99 BLOCK_MALFORMED). -/
def Yb16.malformed (b : Yb16) : Bool :=
  (b.exp == 0 && b.fracs.any (· != 0)) || (b.exp != 255 && b.fracs.any (· == 0x8000))

/-- Whether a reader takes the block as poisoned (R99). -/
def Yb16.isPoison (b : Yb16) : Bool := b.exp == 255 || b.malformed

/-- The value of element i of a YB16 block (R89), NaN from a poisoned block (R99). -/
def Yb16.elem (b : Yb16) (i : Nat) : Num :=
  if b.isPoison then .nan false
  else
    let v := signedOf 16 (b.fracs.getD i 0)
    .fin (decide (v < 0)) v.natAbs ((b.exp : Int) - 141)

/-- The fractions of a block at exponent e (R97). -/
def yb16Fracs (xs : List Num) (method : Nat → Rounding) (e : Nat) : List Int :=
  xs.zipIdx.map (fun p =>
    match p.1 with
    | .fin s m d =>
      let n := (⟨m, 1, d⟩ : Mag).roundAt (method p.2) s ((e : Int) - 141)
      if s then -(n : Int) else n
    | _ => 0)

/-- The exponent search of R97: the first exponent from e at which every fraction fits. -/
def yb16Search (xs : List Num) (method : Nat → Rounding) : Nat → Nat → Option (Nat × List Int)
  | 0, _ => none
  | fuel + 1, e =>
    if 254 < e then none
    else
      let v := yb16Fracs xs method e
      if v.all (fun i => i.natAbs ≤ 32767) then some (e, v) else yb16Search xs method fuel (e + 1)

/-- The exponent and the fractions of a finite block that is not zero, none when no exponent holds it (R97). -/
def yb16Fit (xs : List Num) (method : Nat → Rounding) : Option (Nat × List Int) :=
  yb16Search xs method 256 (max 1 ((amaxOf xs).floorLog2 + 127)).toNat

/-- A fraction at an exponent differs from its source (R485). -/
def yb16Inexact (e : Nat) (x : Num) (v : Int) : Bool := !Num.eq x ((Num.ofInt v).scale ((e : Int) - 141))

/-- What the conversion of each element to YB16 signals (R485). -/
def yb16Signals (xs : List Num) (method : Nat → Rounding) : List Flags :=
  if xs.any (fun x => !x.isFin) then poisonSignals xs
  else if (amaxOf xs).isZero then xs.map (fun _ => {})
  else
    match yb16Fit xs method with
    | none => xs.map (fun _ => {})
    | some (e, v) => (xs.zip v).map (fun p => { inexact := yb16Inexact e p.1 p.2 })

/-- Conversion of a block of 32 values to YB16 (R97), with its signals and crowded count. -/
def yb16From (xs : List Num) (method : Nat → Rounding) : Yb16 × Flags × Nat :=
  if xs.any (fun x => !x.isFin) then (Yb16.poison, { poisoned := true, invalid := anySNaN xs }, 0) else
  let a := amaxOf xs
  if a.isZero then (Yb16.zero, { zeroBlock := true }, 0) else
  match yb16Fit xs method with
  | none => (Yb16.poison, { poisoned := true }, 0)
  | some (e, v) =>
    let crowd := if 1 < e then (xs.zip v).countP (fun p => !p.1.isZero && p.2 == 0) else 0
    let inexact := (xs.zip v).any (fun p => yb16Inexact e p.1 p.2)
    let fl : Flags := { inexact := inexact, crowded := decide (0 < crowd) }
    if v.all (· == 0) then (Yb16.zero, fl.or { zeroBlock := true }, crowd)
    else (⟨e, v.map (fun i => (BitVec.ofInt 16 i).toNat)⟩, fl, crowd)

/-! ## Row codes and activations (R90, R91, R98) -/

/-- The exact real o + s × c of a code (R90); NaN and infinity by IEEE rules. -/
def codeValue (s o : Num) (c : Nat) : Num × Flags := Num.fma .rne s (Num.ofInt c) o

/-- A dequantised element in a format: o + s × c rounded once by RNE (R95). -/
def dequant (dst : Fmt) (s o c : Nat) : Nat × Flags :=
  finish dst .rne (codeValue (decodeNum yf16 s) (decodeNum yf16 o) c)

/-- The exact quotient (x − o) / s rounded to an integer and clamped to b bits (R98), with the
saturation. -/
def toCode (b : Nat) (s o x : Num) (r : Rounding) : Nat × Flags :=
  match (Num.add .rne x o.negate).1, s with
  | .fin dn dm de, .fin sn sm se =>
    if sm = 0 then (0, {}) else
    let f := (⟨dm, sm, de - se⟩ : Mag).overQ 0
    let neg := dn != sn
    let n := roundQuot r neg f.1 f.2
    let v : Int := if neg then -(n : Int) else n
    let top : Int := 2 ^ b - 1
    if v < 0 then (0, { saturation := true, inexact := true })
    else if top < v then (top.toNat, { saturation := true, inexact := true })
    else (v.toNat, { inexact := f.1 % f.2 != 0 })
  | _, _ => (0, { invalid := true })

/-- A row's (or segment's) codes with the scale and offset written (R98). -/
structure RowCodes where
  scale : Nat
  offset : Nat
  codes : List Nat
  deriving DecidableEq, Repr

/-- The poisoned row of R98: scale and offset 0x7FC0, every code 0. -/
def RowCodes.poison (n : Nat) : RowCodes := ⟨0x7FC0, 0x7FC0, List.replicate n 0⟩

/-- What the conversion of each element to a row code signals (R98, R485): with a scale of zero every code stands for the
offset. -/
def codeSignals (b s o : Nat) (xs : List Num) (method : Nat → Rounding) : List Flags :=
  let sn := decodeNum yf16 s
  let on := decodeNum yf16 o
  if !sn.isFin || !on.isFin || xs.any (fun x => !x.isFin) then poisonSignals xs
  else if sn.isZero then xs.map (fun x => { inexact := !Num.eq x on })
  else xs.zipIdx.map (fun p => (toCode b sn on p.1 (method p.2)).2)

/-- Conversion of elements to row codes with a given scale and offset (R98). -/
def codesFrom (b s o : Nat) (xs : List Num) (method : Nat → Rounding) : RowCodes × Flags × Nat :=
  let sn := decodeNum yf16 s
  let on := decodeNum yf16 o
  if !sn.isFin || !on.isFin || xs.any (fun x => !x.isFin) then
    (RowCodes.poison xs.length, { poisoned := true, invalid := anySNaN xs }, 0)
  else if sn.isZero then (⟨s, o, xs.map (fun _ => 0)⟩, { inexact := xs.any (fun x => !Num.eq x on) }, 0)
  else
    let rs := xs.zipIdx.map (fun p => toCode b sn on p.1 (method p.2))
    (⟨s, o, rs.map (·.1)⟩, flagsOf rs,
      rs.countP (fun p => p.2.saturation))

/-- The standard rule of R98: OFFSET is the minimum rounded to YF16 toward negative, SCALE is
(M − o) / (2^b − 1) rounded toward positive; the signals of the one and of the other (R92). -/
def standardRule (b : Nat) (m mx : Num) : Nat × Nat × List Flags :=
  let o := m.round yf16 .rn false
  match (Num.add .rne mx (decodeNum yf16 o.1).negate).1 with
  | .fin s n e =>
    let q := roundTo yf16 .rp false s ⟨n, 2 ^ b - 1, e⟩
    (q.1, o.1, [o.2, q.2])
  | .inf s => (encodeInf yf16 s, o.1, [o.2])
  | .nan _ => (yf16.genNaN, o.1, [o.2])

/-- A YI8 activation code: clamp(round(x / a) + z, 0, 255) with x / a exact (R95). A NaN gives z,
counted as invalid; an infinity gives 0 or 255, counted as a saturation. For a scale a of zero, an infinity or a NaN, of
which the manual says nothing, the quotient is what division gives (DESIGN CHOICE, log 37): x / 0 is as an infinity, 0 / 0
and a NaN as a NaN, and x / ∞ is 0. -/
def toActivation (a : Num) (z : Nat) (x : Num) (r : Rounding) : Nat × Flags :=
  match x, a with
  | .nan _, _ => (z, { invalid := true })
  | .inf s, _ => (if s != a.neg? then 0 else 255, { saturation := true, inexact := true })
  | .fin sx mx ex, .fin sa ma ea =>
    if ma = 0 then
      if mx = 0 then (z, { invalid := true })
      else (if sx != sa then 0 else 255, { saturation := true, inexact := true })
    else
      let f := (⟨mx, ma, ex - ea⟩ : Mag).overQ 0
      let neg := sx != sa
      let n := roundQuot r neg f.1 f.2
      let v : Int := (if neg then -(n : Int) else n) + z
      if v < 0 then (0, { saturation := true, inexact := true })
      else if 255 < v then (255, { saturation := true, inexact := true })
      else (v.toNat, { inexact := f.1 % f.2 != 0 })
  | .fin _ mx _, .inf _ => (z, { inexact := decide (mx ≠ 0) })
  | .fin _ _ _, .nan _ => (z, { invalid := true })

/-! ## The rounding stream (R198 to R200) -/

/-- mix of R199. -/
def rsMix (z : BitVec 64) : BitVec 64 :=
  let z := (z ^^^ (z >>> 31)) * 0xA3B195C62E4F7D1B#64
  let z := (z ^^^ (z >>> 29)) * 0x8C2F61E5B7D349A5#64
  z ^^^ (z >>> 32)

/-- rs_draw of R199: job seed, step, tensor or table identifier, element index. -/
def rsDraw (s : BitVec 64) (n d : Nat) (x : BitVec 64) : Nat :=
  let k := rsMix (s ^^^ (BitVec.ofNat 64 n <<< 16) ^^^ BitVec.ofNat 64 d)
  let h := rsMix (k ^^^ x)
  let h := rsMix (h + 0x6C8E9CF5703294C1#64)
  (h >>> 48).toNat

/-- The element index of R198. -/
def drawIndex (isTable : Bool) (plane position : Nat) : BitVec 64 :=
  BitVec.ofNat 64 (position % 2 ^ 60 + (plane % 4) * 2 ^ 60 + b2n isTable * 2 ^ 62)

/-- One converted element (R243): its exact source, its result as a value, and what it signalled. -/
structure Converted where
  src : Num
  dst : Num
  flags : Flags
  deriving DecidableEq, Repr

end Sys2Proof.Machine
end

