-- ==== Sys2Proof/Machine/State.lean ====
section
/-! DEFINITION. The state of the module: every register, queue, buffer, counter, mode and pin that the
manual gives it, the queue of waiting commands, and the state right after reset. INVENTORY.md lists each
field with its rule and reset value. -/

namespace Sys2Proof.Machine

/-- Why the machine stops. -/
inductive Fault where
  /-- An operand, result or slot image of a stage instruction reaches beyond the 256 MiB of a tile store
  (R28): an address that does not exist. Raised by the matrix, vector, attention and GATHER commands.
  Safe: the machine stops. -/
  | tileStoreRange
  /-- An HBM address at or beyond the usable space of R304. Raised by BLOCK_READ and RECORD_WRITE. Safe:
  the machine stops. -/
  | hbmRange
  deriving DecidableEq, Repr

/-- Why a command has no meaning. -/
inductive Refusal where
  /-- No meaning is written for the command yet. Raised by arms of exec only. Safe: the machine stops. -/
  | notModelled (mnemonic : String)
  /-- The vector stage does not provide the operation: a conversion that R95 does not list, or a format that R133 does not
  give. Raised by VECTOR_OPERATION. Safe: the machine stops. -/
  | notProvided
  deriving DecidableEq, Repr

/-! ## What leaves the module -/

/-- What a completion record that leaves late still needs (R65, R366, R368): whether its descriptor also wrote data,
whether it is a batch's, the tick its bound names for a covered batch, and the HOLD ticks counted when the record was made. -/
structure CompletionInfo where
  hasData : Bool := false
  batch : Bool := false
  bound : Option Nat := none
  holds : Nat := 0
  deriving DecidableEq, Repr

/-- One thing the module puts on its connectors and links (R2). -/
inductive Output where
  /-- A write to host memory through a port. -/
  | hostWrite (port : Nat) (addr : Nat) (data : Bytes)
  /-- A completion record written to host memory through a port (R354). -/
  | completion (port : Nat) (addr : Nat) (record : Bytes) (info : CompletionInfo)
  /-- A read request to host memory through a port. -/
  | hostRead (port : Nat) (addr : Nat) (len : Nat)
  /-- An MSI-X message (R363). -/
  | msix (port : Nat) (vector : Nat)
  /-- The data of a window read (R8). -/
  | windowData (port : Nat) (value : Word)
  /-- A completion with Unsupported Request (R332). -/
  | unsupported (port : Nat)
  /-- A pulse of 1 µs on TICK_OUT (R47). -/
  | tickOut
  /-- The same pulse on an AUX pin (R457). -/
  | auxPulse (pin : Nat)
  /-- A message of the tree of R43 or of the exchange stage to a module. -/
  | message (dst : Nat) (kind : Nat) (body : Bytes)
  /-- A flit on a pen engine (R262). -/
  | penFlit (engine : Nat) (flit : Bytes)
  /-- A packet on a herd port (R275, R276): its Ethernet, IPv6 and UDP headers, its Lemod header, and its payload. -/
  | herdPacket (plane : Nat) (path : Nat) (outer header payload : Bytes)
  /-- A PFC frame on a herd port (R273): quanta for a priority. -/
  | pfc (plane : Nat) (priority : Nat) (quanta : Nat)
  /-- Bytes on the sideband (R459). -/
  | sideband (data : Bytes)
  /-- The I3C in-band interrupt (R458). -/
  | inBandInterrupt
  deriving DecidableEq, Repr

/-! ## Buffered fields (R10 RB, R468) -/

/-- The buffered fields of one herd port (R298). -/
structure HerdCfg where
  vid : BitVec 12 := 0
  pfcTx : Bool := true
  pfcRx : Bool := true
  srcMac : BitVec 48 := 0
  gwMac : BitVec 48 := 0
  deriving DecidableEq, Repr

/-- Every RB field of the setup window: one view of them, active or pending (R468). -/
structure Buffered where
  tickSource : BitVec 2 := 0
  tickOutEn : Bool := false
  tickPeriod : BitVec 24 := 100000
  slipLimit : BitVec 8 := 8
  stallEn : Bool := true
  recordsEn : Bool := true
  histDefault : BitVec 5 := 8
  noiseShift : BitVec 4 := 6
  stallDefault : BitVec 16 := 256
  herdEn : Bool := false
  moduleId : BitVec 12 := 0
  pcpTime : BitVec 3 := 6
  pcpCtrl : BitVec 3 := 5
  pcpBulk : BitVec 3 := 3
  dscpTime : BitVec 6 := 48
  dscpCtrl : BitVec 6 := 40
  dscpBulk : BitVec 6 := 26
  herd : NMap HerdCfg := []
  retrainAuto : Bool := true
  excl : NMap (BitVec 10) := []
  regRate : NMap (BitVec 20) := [(0, 128000), (1, 64000), (2, 32000), (3, 64000), (4, 8000)]
  regBurst : NMap (BitVec 16) := [(0, 256), (1, 256), (2, 256), (3, 256), (4, 256)]
  debugEn : Bool := false
  powerLimit : BitVec 12 := 2400
  aux0 : BitVec 2 := 0
  aux1 : BitVec 2 := 0
  deriving DecidableEq, Repr

/-! ## Setup control, identity and boot (chapter 15) -/

/-- The setup-control block (R477). `op` is 0 when no long setup operation runs (R471). -/
structure SetupState where
  armed : Bool := true
  op : BitVec 3 := 0
  cmdRunning : BitVec 4 := 0
  flashBusy : Bool := false
  resultCode : Half := 0
  resultDone : Bool := false
  resultCmd : BitVec 3 := 0
  addr : Long := 0
  len : Word := 0
  shadowSel : BitVec 18 := 0
  logOffset : BitVec 20 := 0
  logReason : BitVec 4 := 0
  logSource : BitVec 3 := 0
  logCount : Word := 0
  deriving DecidableEq, Repr

/-- Selector and staging registers (RW, R10) of the other blocks. -/
structure WindowRegs where
  digestSel : Half := 0
  chSel : BitVec 9 := 0
  groupSel : BitVec 7 := 0
  qSel : BitVec 13 := 0
  qClass : BitVec 2 := 0
  qLog2 : BitVec 5 := 6
  qRing : Long := 0
  qAux : Long := 0
  qStartLap : Word := 0
  secAddr : Long := 0
  secLen : Word := 0
  secNonce : NMap Word := []
  ledgerSel : Half := 0
  deriving DecidableEq, Repr

/-- The stages of boot (R475 STAGE). -/
inductive BootStage where
  | rom
  | loading
  | releasing
  | ready
  | recovery
  | failed
  deriving DecidableEq, Repr

/-- What Hyram writes to module flash at manufacture (R483): the certificates, the trim records, and the VENDOR and STEPPING of
the option records. -/
structure HyramRecords where
  certs : Bytes
  trim : Bytes
  vendor : Half
  stepping : Byte
  deriving DecidableEq, Repr

/-- Identity, boot and die release (R475, R479), and module flash (R13, R483) apart from its ledger log, which stands in the ledger,
the wear counts and the step count: `hyram` is what Hyram wrote, `svnFloor` the copy of SVN_FLOOR, `image` the firmware
image (R481, R482), each none until the first boot reads it; `writing` is the image whose write runs; `penPeers` keeps, by pen engine, the
position that it last reached (R269; log 41). -/
structure BootState where
  stage : BootStage := .rom
  fail : Byte := 0
  cause : BitVec 4 := 0
  fwNewer : Bool := false
  vendor : Half := 0
  stepping : Byte := 0
  serial : Long := 0
  version : Word := 0
  released : List Nat := []
  started : List Nat := []
  hyram : Option HyramRecords := none
  svnFloor : Option Word := none
  image : Option Bytes := none
  writing : Option Bytes := none
  penPeers : NMap Nat := []
  deriving DecidableEq, Repr

/-! ## Ticks and the sequencer (chapter 02) -/

/-- SEQ_STATUS.STATE (R76). -/
inductive JobState where
  | idle
  | filling
  | running
  | stopping
  | halted
  deriving DecidableEq, Repr

/-- The time base and the ticks (R42 to R48). `transfers` holds, by module, the sender's time of its last time transfer and
the time at which it arrived (R283). -/
structure ClockState where
  time : Long := 0
  offset : Half := 0
  locked : Bool := false
  holdover : Bool := false
  held : Bool := false
  glitch : Byte := 0
  lastTransfer : Long := 0
  transfers : NMap (Long × Long) := []
  lastTick : Long := 0
  lastEdge : Long := 0
  edgeSeen : Bool := false
  t0 : Option Long := none
  tickNo : Nat := 0
  holds : Nat := 0
  decision : Option Decision := none
  tickLost : Bool := false
  deriving DecidableEq, Repr

/-- Which causes suspend the time promise (R63): stack temperature or coolant (R327), VIN (R436), a
clamp (R446). -/
structure VoidCauses where
  stack : Bool := false
  coolant : Bool := false
  vin : Bool := false
  clamp : Bool := false
  deriving DecidableEq, Repr

/-- Progress of the eight phases of the current step (R51). Times are relative to T_n in 10 ns (R72). -/
structure Phases where
  started : List Nat := []
  ended : List Nat := []
  forwardStarted : Nat := 0
  backwardStarted : Nat := 0
  layers : List Nat := []
  ends : NMap Nat := []
  deriving DecidableEq, Repr

/-- The tail slots in priority order after the replay reserve: 1 maintenance, 2 evaluation, 3 export
(R54). -/
structure TailState where
  claimed : List Nat := []
  granted : List Nat := []
  current : Option Nat := none
  deferred : List Nat := []
  deriving DecidableEq, Repr

/-- The intake of the next batch (R64, R67); `tick` is the GO tick at which it began. -/
structure IntakeState where
  active : Bool := false
  ended : Bool := false
  tick : Nat := 0
  step : BitVec 48 := 0
  batches : Nat := 0
  samples : Nat := 0
  events : Nat := 0
  bytes : Nat := 0
  closed : Bool := false
  began : Long := 0
  endTime : Nat := 0
  rereads : List (Nat × Nat) := []
  order : List (Nat × Nat) := []
  excess : Bool := false
  deriving DecidableEq, Repr

/-- A step record that is due and not yet written (R72, R73): its body before LOST and CRC, its watch records before
their CRC (R252), and whether the step formed digests, which phase 1 of the next step compares (R251). -/
structure DueRecord where
  step : BitVec 48
  body : Bytes
  watch : List Bytes
  digest : Bool := false
  deriving DecidableEq, Repr

/-- The parts of a step record that the step gathers (R72). `kept` holds accOvf, accLoss and invalid as they stood when the attempt
began that a replay may discard (R238). -/
structure StepStats where
  slips : Nat := 0
  slipped : Bool := false
  budget : Bool := false
  replayed : Bool := false
  witness : Bool := false
  reserveShort : Bool := false
  holdover : Bool := false
  voided : Bool := false
  deferred : Bool := false
  batches : Nat := 0
  samples : Nat := 0
  clockMin : Nat := 3600
  clockMax : Nat := 3600
  maxUnique : Nat := 0
  busyTable : Nat := 0
  busyRange : Nat := 0
  excessRanges : Nat := 0
  invalid : Nat := 0
  hbmBytes : Nat := 0
  penBytes : Nat := 0
  herdBytes : Nat := 0
  tjMax : Half := 0
  accOvf : Nat := 0
  accLoss : Nat := 0
  kept : Nat × Nat × Nat := (0, 0, 0)
  deriving DecidableEq, Repr

/-- Local replay of the current step (R69, R382 to R384). -/
structure ReplayState where
  running : Bool := false
  phase : Nat := 0
  count : Nat := 0
  began : Long := 0
  reserveUsed : Nat := 0
  suspect : Bool := false
  awaiting : Bool := false
  verdictOk : Bool := false
  witnessBlocks : Bytes := []
  resend : List (Nat × Nat) := []
  badBlocks : List Nat := []
  deriving DecidableEq, Repr

/-- The sequencer (R49 to R77). -/
structure SeqState where
  job : JobState := .idle
  startPending : Bool := false
  stopPending : Bool := false
  haltPending : Bool := false
  step : BitVec 48 := 0
  stepHi : Half := 0
  curSlips : Byte := 0
  slipTotal : Word := 0
  admitNeed : Word := 0
  admitHave : Word := 0
  void : VoidCauses := {}
  excess : Bool := false
  ownExcess : Bool := false
  excessSpent : Bool := false
  doneFrom : List DoneReport := []
  doneSent : Bool := false
  doneUp : Bool := false
  doneTime : Long := 0
  haltDue : Bool := false
  periodAsk : Option (BitVec 24) := none
  periodAnn : Option (BitVec 24 × Nat) := none
  periodOk : Bool := true
  phases : Phases := {}
  tail : TailState := {}
  intake : IntakeState := {}
  next : IntakeState := {}
  stats : StepStats := {}
  replay : ReplayState := {}
  joined : Bool := false
  joinFrom : List (BitVec 12) := []
  evalFaults : Nat := 0
  due : List DueRecord := []
  tickTime : Long := 0
  deriving DecidableEq, Repr

/-! ## The plan -/

/-- The header fields of R57. -/
structure PlanHeader where
  flags : Nat
  imageLen : Nat
  microBatches : Nat
  reservePct : Nat
  maintUs : Nat
  evalUs : Nat
  exportUs : Nat
  wcOffset : Nat
  budgetOffset : Nat
  budgetCount : Nat
  maxBatches : Nat
  maxSamples : Nat
  maxEvents : Nat
  maxIntakeBytes : Nat
  deriving DecidableEq, Repr

/-- One entry of the budget table (R59). -/
structure Budget where
  table : Nat
  range : Nat
  rows : Nat
  lookups : Nat
  deriving DecidableEq, Repr

/-- One module entry of the job map (R291). -/
structure MapEntry where
  module : Nat
  witness : Nat
  replica : Nat
  addrs : List Bytes
  deriving DecidableEq, Repr

/-- The job map (R290). -/
structure JobMap where
  jobTag : Nat
  jobSeed : Nat
  tickMaster : Nat
  penSize : Nat
  herd : Bool
  pens : Nat
  udpPort : Nat
  modules : List MapEntry
  bytes : Bytes
  deriving DecidableEq, Repr

/-- A loaded plan image (R57 to R60, R290). -/
structure Plan where
  header : PlanHeader
  wc : List Nat
  budgets : List Budget
  map : JobMap
  layout : PlanLayout
  measure : BitVec 256
  deriving DecidableEq, Repr

/-! ## Host ports and queues (chapter 11) -/

/-- PORT_STATUS.STATE (R373). -/
inductive PortLink where
  | down
  | up
  | retraining
  deriving DecidableEq, Repr

/-- One entry of a port's MSI-X table (R363). -/
structure MsixEntry where
  addr : Long := 0
  data : Word := 0
  masked : Bool := true
  pending : Bool := false
  deriving DecidableEq, Repr

/-- A host port (R364 to R373). `heldOut` is what the module holds for the port while its link is down
(R365); `unacked` is what it has sent and the link has not acknowledged (R366). -/
structure Port where
  link : PortLink := .down
  orphaned : Bool := false
  present : Bool := false
  speed : BitVec 4 := 0
  width : BitVec 5 := 0
  retrains : Half := 0
  heldOut : List Output := []
  outstanding : List Output := []
  unacked : List Output := []
  msix : NMap MsixEntry := []
  deriving DecidableEq, Repr

/-- A queue group (R338). -/
structure Group where
  poll : BitVec 4 := 3
  enable : Bool := false
  db : Long := 0
  outstanding : Bool := false
  deriving DecidableEq, Repr

/-- Q_STATUS.STATE (R373). -/
inductive QueueMode where
  | unarmed
  | armed
  | halted
  | orphaned
  | disarming
  deriving DecidableEq, Repr

/-- Where a descriptor stands between its first round and its completion record (R352 to R355). -/
inductive DescStage where
  | reading
  | ready
  | taken
  | waiting
  | finished
  deriving DecidableEq, Repr

/-- A descriptor the device has read (R343): its 64 bytes, its buffers, where it stands, and what its
completion will carry (R354). `readyAt` is t + Q + 20 µs and `eligible` the tick T_e once it has come (R64); `deferrals` counts the
deferrals of an EVAL_BATCH's slot (R66). -/
structure Desc where
  pos : Nat
  bytes : Bytes
  data : Bytes := []
  stage : DescStage := .reading
  status : Half := 0
  step : BitVec 48 := 0xFFFFFFFFFFFF
  slips : Nat := 0
  result : Nat := 0
  rewritten : Bool := false
  voided : Bool := false
  excess : Bool := false
  readyAt : Nat := 0
  eligible : Option Nat := none
  covered : Bool := false
  deferrals : Nat := 0
  intakeDone : Bool := false
  tagKnown : Bool := true
  sampleBase : Nat := 0
  deriving DecidableEq, Repr

/-- A queue (R336 to R341, R357, R363). C, F and D are the positions of R341; P and K those of R357. -/
structure Queue where
  mode : QueueMode := .unarmed
  armErr : Bool := false
  code : Half := 0
  cls : BitVec 2 := 0
  log2 : BitVec 5 := 0
  ring : Long := 0
  aux : Long := 0
  startLap : Word := 0
  c : Nat := 0
  f : Nat := 0
  d : Nat := 0
  p : Nat := 0
  k : Nat := 0
  vector : BitVec 11 := 0
  irqEn : Bool := false
  holdoff : Byte := 0
  holding : Bool := false
  more : Bool := false
  rereads : Nat := 0
  stale : Bool := false
  fetching : Bool := false
  posted : Long := 0
  mute : Bool := false
  descs : List Desc := []
  deriving DecidableEq, Repr

/-- A record on its way into the TELEMETRY ring (R358). -/
structure TelRecord where
  kind : Nat
  body : Bytes
  deriving DecidableEq, Repr

/-- The telemetry path: records accepted for the ring, step records held (R73), and how many were lost
before the next one. -/
structure TelState where
  accepted : List TelRecord := []
  held : List TelRecord := []
  lost : Nat := 0
  deriving DecidableEq, Repr

/-- The host side. -/
structure HostState where
  ports : NMap Port := []
  groups : NMap Group := []
  queues : NMap Queue := []
  descFail : Word := 0
  tel : TelState := {}
  deriving DecidableEq, Repr

/-! ## Memory (chapter 10) -/

/-- The metadata that decides whether a unit verifies (R309, R310): its coordinate, the generation of the
keys it was written under, its tag word, and whether its stored bits are intact. -/
structure UnitMeta where
  coord : Long
  keyGen : Nat
  tag : Word
  deriving DecidableEq, Repr

/-- One entry of a memory port's write buffer (R314). -/
inductive WriteEntry where
  | free
  | built (block : Nat) (data : Bytes) (tag : Word) (src : Nat)
  | committed (block : Nat) (data : Bytes) (tag : Word) (src : Nat)
  deriving DecidableEq, Repr

/-- A write that waits at its memory port: for a FREE entry (R314), or behind an earlier write to the same
block (R316). -/
structure WaitingWrite where
  addr : Nat
  bytes : Bytes
  tag : Option Word
  src : Nat
  mergeFails : Bool
  deriving DecidableEq, Repr

/-- A channel (R301, R321 to R323, R329). -/
structure Channel where
  spares : Nat := 0
  down : Bool := false
  pending : Option Long := none
  overdue : Bool := false
  held : Bool := false
  errors : Half := 0
  trained : Long := 0
  trainedTemp : Half := 0
  deriving DecidableEq, Repr

/-- A stack and its memory port die (R314, R319, R325, R326). Buckets are in
thousandths of a byte. -/
structure Stack where
  temp : Half := 0
  peak : Half := 0
  hot : Bool := false
  crit : Bool := false
  buffer : NMap WriteEntry := []
  buckets : NMap Nat := []
  refilled : NMap Long := []
  deriving DecidableEq, Repr

/-- An entry of a tile's row cache (R162, R163): a row's segment records, and STEP_TAG of the first. -/
structure CacheEntry where
  tile : Nat
  table : Nat
  row : Nat
  stepTag : Half
  segs : List Bytes := []
  deriving DecidableEq, Repr

/-- HBM, tile stores and their ports. `zeroed` holds the key generation and MEM_EPOCH of the last secure erase, under which
every unit not listed since is a block of zeros (R473). -/
structure MemState where
  hbm : Memory := []
  units : NMap UnitMeta := []
  epoch : Half := 0
  keyGen : Nat := 0
  zeroed : Option (Nat × Half) := none
  channels : NMap Channel := []
  stackRecs : NMap Stack := []
  throttled : Bool := false
  crit : Bool := false
  blockErr : Word := 0
  waiting : List WaitingWrite := []
  tiles : Memory := []
  tileTags : NMap Word := []
  rowCache : List CacheEntry := []
  deriving DecidableEq, Repr

/-! ## Tables, lookups and merge (chapter 05) -/

/-- A shard range (R140). -/
structure ShardRange where
  first : Nat
  last : Nat
  owner : Nat
  deriving DecidableEq, Repr

/-- A table version held (R139 to R150). `bases` gives each range index's region base in HBM, `dropped` the records that sweeps
have written since the step in which staging of another version began, and `sweptNow` those of the current step (R171). -/
structure TableVer where
  id : Nat
  version : Nat
  rows : Nat
  dim : Nat
  code : Nat
  layout : Nat
  anchor : BitVec 10
  ranges : List ShardRange
  defaults : Bytes
  current : Bool := false
  staged : Bool := false
  announced : Bool := false
  filled : Bool := false
  filling : Bool := false
  bases : NMap Nat := []
  dropped : Nat := 0
  sweptNow : Nat := 0
  deriving DecidableEq, Repr

/-- A pending TABLE_SWAP (R169 to R171): the descriptors waiting on it, and after the announcement the
number of GO ticks still bound to the old version. -/
structure Swap where
  table : Nat
  version : Nat
  waiters : List (Nat × Nat)
  announced : Bool := false
  lastOld : Option (BitVec 48) := none
  deriving DecidableEq, Repr

/-- An entry of a unique-row list or send list (R154, R156). -/
structure RowRef where
  table : Nat
  row : Nat
  count : Nat
  owner : Nat
  deriving DecidableEq, Repr

/-- One lookup after separation (R154): its order key, its table and weight, and its slot in the unique
list, none for the default row. -/
structure Lookup where
  p : Nat
  f : Nat
  j : Nat
  table : Nat
  pool : Nat
  weight : Word
  slot : Option Nat
  deriving DecidableEq, Repr

/-- What separation, exchange and gather have produced for a step (R154 to R160): the unique list and the lookups, how
many lookups of each table are invalid, the aggregated list of each owner, the owned unique list, and by row key the
record bytes and the dequantised values. -/
structure LookupState where
  unique : List RowRef := []
  lookups : List Lookup := []
  invalid : NMap Nat := []
  agg : List (Nat × List RowRef) := []
  owned : List RowRef := []
  aggregated : Bool := false
  rowBytes : NMap Bytes := []
  values : NMap (List Half) := []
  pooled : List (Nat × Nat × List Half) := []
  done : Bool := false
  deriving DecidableEq, Repr

/-- The separation and prefetch of the next batch beside the current step (R155, R380). `served` are the owned rows that
the step serves, a fill set of the row cache (R162); `sortScratch` and `mergeBuffer` are what the separator and the merge stage
hold for themselves (R25): the lookups sorted last, and the row summed last; `regions` the table regions and the staging pool of the layout under
which the versions lie (R146). -/
structure EmbState where
  tables : List TableVer := []
  pool : List (Nat × Nat) := []
  swaps : List Swap := []
  now : LookupState := {}
  next : LookupState := {}
  partials : List (Nat × Nat × Nat × List Word) := []
  exact : List (Nat × Nat × Nat × List (BitVec 160 × BitVec 4)) := []
  merged : List (Nat × Nat × List Word) := []
  denseGrad : NMap Word := []
  sortScratch : List (Lookup × Nat) := []
  mergeBuffer : List Word := []
  served : List RowRef := []
  regions : Option (List RangePlace × List (Nat × Nat)) := none
  deriving DecidableEq, Repr

/-! ## Matrix stages (chapter 04) -/

/-- An accumulator entry (R117, R120). -/
structure AccEntry where
  n : BitVec 160 := 0
  anchor : BitVec 10 := 0
  ovf : Bool := false
  nan : Bool := false
  pinf : Bool := false
  ninf : Bool := false
  deriving DecidableEq, Repr

/-- A slot (R121): the anchor it was initialised with, the entries that differ from the initialised one,
and its status. -/
structure Slot where
  anchor : BitVec 10 := 0
  entries : NMap AccEntry := []
  ovf : Bool := false
  loss : Word := 0
  chunks : Word := 0
  deriving DecidableEq, Repr

/-! ## Churns (chapter 06) -/

/-- Whose record a sweep item is (R174). -/
inductive SweepItem where
  | dense (tensor block : Nat)
  | row (table version row segment : Nat)
  deriving DecidableEq, Repr

/-- What one instruction of a record adds to the watch's counts when the record is written (R83, R92, R243): the elements it
converted with the tensor scale applied, crowded elements, crowded, zero and poisoned blocks or rows, and what its operations
signalled. -/
structure RecordTally where
  k : Int := 0
  elems : List Converted := []
  crowded : Nat := 0
  crowdedBlocks : Nat := 0
  zeroBlocks : Nat := 0
  poison : Nat := 0
  flags : List Flags := []
  deriving DecidableEq, Repr

/-- A record context (R183): registers by 32 × register + lane, accumulators, stage planes by
32 × block + lane, and the record under work: what its instructions add to the watch, its WACC pairs, whether WCOPY has run, the
failures of its retag write while one is outstanding, whether its write is formed (`sent`), waits for H (`held`), and is verified
(`stored`), the parts of its working copy not yet verified, and whether a resumed sweep passes over it (`skip`). -/
structure Ctx where
  prog : Nat := 0
  v : NMap Word := []
  acc : NMap Word := []
  stage0 : NMap Word := []
  stage1 : NMap Word := []
  index : Nat := 0
  item : Option SweepItem := none
  active : Bool := false
  block : Nat := 0
  nAct : Nat := 0
  old : Bytes := []
  new : Bytes := []
  qprep : Bool := false
  poison : Bool := false
  failures : Nat := 0
  tally : List RecordTally := []
  wacc : List (Word × Word) := []
  wcopy : Bool := false
  retag : Option Nat := none
  sent : Bool := false
  held : Bool := false
  stored : Bool := false
  copies : List Nat := []
  skip : Bool := false
  deriving DecidableEq, Repr

/-- The watch sums of a churn for one tensor or table (R196): binary64 ΣΔ², Σw² and the count. -/
structure WatchSum where
  upd : Long := 0
  wgt : Long := 0
  nonzero : Nat := 0
  deriving DecidableEq, Repr

/-- What a verified record adds to the watch once V passes it, so that it enters in list order (R196): its watch key, its WACC
pairs and its counts. -/
structure PendingSums where
  key : Nat
  pairs : List (Word × Word)
  tally : List RecordTally
  deriving DecidableEq, Repr

/-- A churn (R183, R185, R207): its contexts, its list with the marks V and H and the records beyond them
that are done, the writes the port has verified, what verified records add to the watch, and the list it will resume (R210);
`resumed` says that its list is the tile's other churn's. `prologue` and `consts` are keyed by 1,024 × program + 32 × register +
lane and by 64 × program + constant. -/
structure Churn where
  ctxs : NMap Ctx := []
  list : List SweepItem := []
  v : Nat := 0
  h : Nat := 0
  readDone : List Nat := []
  writeDone : List Nat := []
  verified : List Nat := []
  pending : NMap PendingSums := []
  resumed : Bool := false
  faulted : Bool := false
  resumeH : Nat := 0
  resume : Option (List SweepItem × Nat × Nat) := none
  prologue : NMap Word := []
  consts : NMap Word := []
  sums : NMap WatchSum := []
  deriving DecidableEq, Repr

/-! ## History and attention (chapter 07) -/

/-- An entry of a user list (R228) with the pen position of the module that sent it. -/
structure UserEntry where
  pos : Nat
  user : Nat
  set : Nat
  appends : Nat
  sample : Nat
  deriving DecidableEq, Repr

/-- An appended position received by the stretch holder (R226): YS8 bytes of one block part. -/
structure Append where
  set : Nat
  user : Nat
  position : Nat
  layer : Nat
  isValue : Bool
  scales : Bytes
  elems : Bytes
  deriving DecidableEq, Repr

/-- An item of the export stream (R396, R401). -/
structure ExportItem where
  kind : Nat
  id : Nat
  part : Nat := 0
  layer : Nat := 0
  index : Nat
  user : Nat := 0
  sub : Nat := 0
  failed : Bool := false
  payload : Bytes
  deriving DecidableEq, Repr

/-- The history work of a step (R224 to R229). `lengths` holds LENGTH_0 by set and user; `ringSent` the last block sent in each pass of
the ring, with the turn of its micro-batch; `writing` the append writes that are not verified, each with its failures, and `touched` the
check blocks that the append writes touch, with their addresses (R226). -/
structure HistState where
  users : List UserEntry := []
  lengths : List (Nat × Nat × Nat) := []
  appends : List Append := []
  ringSent : NMap (List Nat) := []
  writing : List (WaitingWrite × Nat) := []
  touched : List (ExportItem × Nat) := []
  doneSent : Bool := false
  doneFrom : List Nat := []
  written : Bool := false
  deriving DecidableEq, Repr

/-- The running state of one query row and head (R232): m, l and o in binary32. -/
structure AttnState where
  m : Word := 0xFF800000
  l : Word := 0
  o : List Word := []
  deriving DecidableEq, Repr

/-- What the stages of a line hold for themselves (R25, R79): the pool stage's bag accumulator, and the vector stage's register
file, whose cells hold binary64. -/
structure LineState where
  bag : List Word := []
  regs : NMap Long := []
  deriving DecidableEq, Repr

/-! ## The numerics watch (chapter 08) -/

/-- The counts of R243 and, by unit code, the sums ERR_SQ and SRC_SQ and their number of elements (R244)
for one tensor or table in one step. -/
structure Counts where
  conversions : Word := 0
  saturations : Word := 0
  crowded : Word := 0
  crowdedBlocks : Word := 0
  zeroBlocks : Word := 0
  invalid : Word := 0
  divZero : Word := 0
  overflow : Word := 0
  underflow : Word := 0
  inexact : Word := 0
  poison : Word := 0
  accLoss : Word := 0
  accChunks : Word := 0
  invalidLookups : Word := 0
  retags : Word := 0
  errs : NMap (Long × Long × Nat) := []
  deriving DecidableEq, Repr

/-- The device's record of one watch entry or counted tensor (R236, R239 to R247). `k` is the scale of
the current epoch, `kNext` the one set for the next. The fields that end in Start are as the attempt began that a replay may discard, and
`kept` the counts then (R238, R240); `countsNext` are counts that belong to the next epoch already (R243). -/
structure Watch where
  k : Int := 0
  kNext : Int := 0
  history : List Long := []
  amax : Word := 0
  sat : Nat := 0
  converted : Bool := false
  amaxNext : Word := 0
  satNext : Nat := 0
  convertedNext : Bool := false
  amaxStart : Word := 0
  satStart : Nat := 0
  convertedStart : Bool := false
  historyStart : List Long := []
  amaxScoped : Word := 0
  satScoped : Nat := 0
  histMax : Long := 0
  counts : Counts := {}
  kept : Counts := {}
  countsNext : Counts := {}
  upd : Long := 0
  wgt : Long := 0
  uwr : Word := 0
  nonzero : Nat := 0
  swept : Nat := 0
  stall : Half := 0
  stallRaised : Bool := false
  flags : Byte := 0
  digest : Option (BitVec 256 × BitVec 48) := none
  peers : List (Nat × BitVec 256) := []
  deriving DecidableEq, Repr

/-- The numerics watch (R236 to R254). Entries are keyed by 65,536 × KIND + ID; `averageStart` is the average as the step began (R249). -/
structure WatchState where
  entries : NMap Watch := []
  lost : Word := 0
  lLocal : Long := 0
  gLocal : Long := 0
  lSum : Long := 0
  gSum : Long := 0
  estimate : Long := 0x7FF8000000000000
  average : Long := 0x7FF8000000000000
  averageStart : Long := 0x7FF8000000000000
  deriving DecidableEq, Repr

/-! ## Fabric (chapter 09) -/

/-- A flit, or a packet, before it is numbered: KIND or TYPE, LAST, the message and the index of its first unit, STEP
of the step that sent it, and its content. -/
structure LinkItem where
  kind : Nat
  last : Bool
  msg : Nat := 0
  unit : Nat := 0
  step : Nat := 0
  content : Bytes
  deriving DecidableEq, Repr

/-- A pen engine (R258 to R269). `waiting` is what waits for credits or for the link; `sendGroup` the encrypted flits
sent since the last tag flit; `group` those received; `msgsGot` and `unitsGot` the DATA messages completed in the step and
the units of the one in progress; `ctl` the CONTROL message in progress, `timeCtl` that of the TIME class. -/
structure PenEngine where
  up : Bool := false
  valid : Bool := false
  peer : BitVec 3 := 0
  retraining : Bool := false
  attempts : Nat := 0
  retries : Word := 0
  nextSeq : Half := 0
  expect : Half := 0
  discarding : Bool := false
  retry : List (Nat × Bytes) := []
  credits : Nat := 1024
  freed : Nat := 0
  waiting : List LinkItem := []
  sendGroup : List Bytes := []
  group : List Bytes := []
  msgsGot : Nat := 0
  unitsGot : Nat := 0
  ctl : Bytes := []
  timeCtl : Bytes := []
  groupsSent : Nat := 0
  groupsGot : Nat := 0
  tagFails : Nat := 0
  deriving DecidableEq, Repr

/-- A herd port (R271 to R273, R298). -/
structure HerdPort where
  pcsLock : Bool := false
  localFault : Bool := false
  remoteFault : Bool := false
  retx : Word := 0
  ce : Word := 0
  fill : Nat := 0
  xoff : Bool := false
  paused : NMap Nat := []
  pauseSince : NMap Long := []
  discarded : Word := 0
  pauseFrames : Word := 0
  deriving DecidableEq, Repr

/-- A packet sent and not yet acknowledged (R277, R279); `held` is one that goes again when its class is no longer paused
(R273). -/
structure SentPacket where
  seq : Nat
  header : Bytes
  payload : Bytes
  sentAt : Long
  path : Nat
  retries : Nat := 0
  held : Bool := false
  deriving DecidableEq, Repr

/-- A connection (R277 to R281), keyed by 8 × remote module + plane. `rate` is in 64ths of the line
rate × 2^20; `ctlMsgs` counts the control messages of the step `ctlStep` to the module, on its plane 0 (R276). -/
structure Conn where
  nextSeq : Nat := 0
  acked : Nat := 0
  sent : List SentPacket := []
  below : Nat := 0
  got : List Nat := []
  ceSince : Nat := 0
  nextPath : Nat := 0
  removed : List Nat := []
  lossAt : NMap (List Long) := []
  rate : Nat := 67108864
  lowered : Option Long := none
  tagFails : List Long := []
  ackDue : Bool := false
  stopped : Bool := false
  waiting : List LinkItem := []
  ctlStep : BitVec 48 := 0
  ctlMsgs : Nat := 0
  deriving DecidableEq, Repr

/-- A message being received (R278, R287): its source and number, the units that have arrived, how many
it has when known, and whether it is visible. -/
structure Msg where
  src : Nat
  num : Nat
  units : NMap (Bytes × Word × Word)
  total : Option Nat := none
  visible : Bool := false
  deriving DecidableEq, Repr

/-- The fabric. `sentNo` and `gotNo` count, by module and message kind, the messages of the step that the plan orders
but does not name; `reducing` are the dense tiles whose reduced gradient is still owed; `asked` the units (source, message,
unit) for which RESEND was sent (R388); `lanesDown` the optical lanes that the last training did not bring up (R267). -/
structure FabState where
  pen : NMap PenEngine := []
  herd : NMap HerdPort := []
  conns : NMap Conn := []
  msgs : List Msg := []
  sentNo : NMap Nat := []
  gotNo : NMap Nat := []
  reducing : List (Nat × Nat) := []
  asked : List (Nat × Nat × Nat) := []
  training : Bool := false
  lanesDown : List OpticalLane := []
  mapDigests : List (Nat × BitVec 256) := []
  mismatch : Bool := false
  sendLog : List (Nat × Nat × Word × Word) := []
  recvLog : List (Nat × Nat × Bytes × Word) := []
  deriving DecidableEq, Repr

/-! ## Reliability (chapter 12) -/

/-- An event record (R406). -/
structure EventRec where
  code : Half
  unit : Half
  step : BitVec 48
  module : BitVec 12
  halt : Bool
  redacted : Bool
  time : Long
  detail : Long
  entered : Bool := false
  deriving DecidableEq, Repr

/-- The events block (R407 to R409). `once` holds (code, identifier) pairs already raised in the current
step. -/
structure EventState where
  buffer : List EventRec := []
  seq : Long := 0
  tailHi : Word := 0
  lost : Word := 0
  fault : Bool := false
  once : List (Nat × Nat) := []
  deriving DecidableEq, Repr

/-- A unit ledger entry (R391): STATE 0 GOOD, 1 WATCHED, 2 PERMANENT, 3 RETIRED. -/
structure LedgerEntry where
  state : BitVec 2 := 0
  f1 : BitVec 48 := 0
  f2 : BitVec 48 := 0
  perm : BitVec 48 := 0
  counted : Word := 0
  logged : Word := 0
  countedIn : Option (BitVec 48) := none
  stepCount : Nat := 0
  deriving DecidableEq, Repr

/-- EXPORT_STATUS.STATE (R409). -/
inductive ExportMode where
  | off
  | base
  | delta
  | broken
  deriving DecidableEq, Repr

/-- The export stream (R396 to R403). -/
structure ExportState where
  mode : ExportMode := .off
  waiting : Bool := false
  stepValid : Bool := false
  step : BitVec 48 := 0
  queue : Nat := 0
  armPending : Bool := false
  logging : Bool := false
  stopAfter : Option (BitVec 48) := none
  stopWaiters : List (Nat × Nat) := []
  armWaiter : Option (Nat × Nat) := none
  log : List (BitVec 48 × ExportItem) := []
  logUsed : Nat := 0
  stepItems : NMap Nat := []
  openSteps : List (BitVec 48) := []
  base : List ExportItem := []
  lastEnded : Option (BitVec 48) := none
  entrySeq : Nat := 0
  deriving DecidableEq, Repr

/-- Reliability state. -/
structure RelState where
  ledger : NMap LedgerEntry := []
  lifeSteps : Long := 0
  lifeHi : Word := 0
  lifeWritten : Long := 0
  replays : Half := 0
  suspects : Half := 0
  served : Half := 0
  witnessReqs : List (BitVec 12 × BitVec 48) := []
  exp : ExportState := {}
  deriving DecidableEq, Repr

/-! ## Security (chapter 13) -/

/-- Performance counters as they stood at CONF_ENTER (R429). -/
structure Frozen where
  penRetry : NMap Word := []
  herdRetx : NMap Word := []
  herdCe : NMap Word := []
  chErrors : NMap Half := []
  replays : Word := 0
  served : Half := 0
  watchLost : Word := 0
  evtLost : Word := 0
  deriving DecidableEq, Repr

/-- The JTAG instruction in force (R430). -/
inductive JtagInstr where
  | bypass
  | idcode
  | samplePreload
  | extest
  | debug
  deriving DecidableEq, Repr

/-- The tack room's identity, session and measurements (R412 to R432). -/
structure SecState where
  mode : BitVec 2 := 0
  idOk : Bool := false
  running : Bool := false
  svnLow : Bool := false
  svn : Word := 0
  svnFloor : Word := 0
  resultCode : Half := 0
  resultDone : Bool := false
  secret : Option (BitVec 256) := none
  kem : Option (BitVec 256) := none
  reportSeq : Long := 0
  lastReport : Bytes := []
  romId : BitVec 256 := 0
  fw : BitVec 256 := 0
  trim : BitVec 256 := 0
  plan : BitVec 256 := 0
  idDigest : BitVec 256 := 0
  certs : Bytes := []
  jobTag : Word := 0
  jobSecret : BitVec 256 := 0
  tenantPub : Bytes := []
  tenantKey : BitVec 256 := 0
  keyMid : BitVec 12 := 0
  draws : Nat := 0
  frozen : Frozen := {}
  jtag : JtagInstr := .bypass
  deriving DecidableEq, Repr

/-! ## Power (chapter 14) -/

/-- The module controller's states (R439). -/
inductive CtlState where
  | standby
  | powering
  | on
  | stopping
  | lockout
  deriving DecidableEq, Repr

/-- The power stage, the module controller and the clock (R436 to R461). -/
structure PowerState where
  ctl : CtlState := .standby
  auxUp : Bool := false
  inserted : Bool := true
  pwrEn : Bool := false
  sideband : Bool := true
  pwrgd : Bool := false
  bulk : Bool := false
  saddle : Bool := false
  tackRoom : Bool := false
  thermTrip : Bool := false
  tripWait : Bool := false
  lowSince : Option Long := none
  rearmed : Bool := false
  waitRaised : Bool := false
  cycleAt : Option Long := none
  vin : Half := 0
  iin : Half := 0
  pin1ms : Half := 0
  pin1s : Half := 0
  vinOk : Bool := true
  coolOk : Bool := true
  coolPin : Bool := false
  inlet : Half := 0
  flow : Half := 0
  peakUsed : BitVec 12 := 0
  clock : Half := 3600
  stepClock : Half := 3600
  clampActed : Bool := false
  clamped : Bool := false
  clampAt : Option Long := none
  tj : Half := 0
  tjSensor : BitVec 7 := 0
  tjMax : Half := 0
  wearHot : Word := 0
  wearOn : Word := 0
  events : List EventRec := []
  slotId : BitVec 4 := 0xF
  dynAddr : Option (BitVec 7) := none
  deriving DecidableEq, Repr

/-! ## The whole module -/

/-- The state of one Y64 and its queue of waiting commands. -/
structure State where
  pending : List Instr := []
  fresh : Nat := 0
  out : List Output := []
  active : Buffered := {}
  pend : Buffered := {}
  setup : SetupState := {}
  win : WindowRegs := {}
  boot : BootState := {}
  clk : ClockState := {}
  seq : SeqState := {}
  plan : Option Plan := none
  host : HostState := {}
  mem : MemState := {}
  emb : EmbState := {}
  acc : NMap Slot := []
  churns : NMap Churn := []
  hist : HistState := {}
  attn : NMap AttnState := []
  lines : NMap LineState := []
  watch : WatchState := {}
  fab : FabState := {}
  events : EventState := {}
  rel : RelState := {}
  sec : SecState := {}
  pwr : PowerState := {}
  deriving DecidableEq, Repr

/-- The module right after reset: every field at its reset value (R10, INVENTORY.md), no command
waiting (log 2, log 3). -/
def State.reset : State := {}

end Sys2Proof.Machine
end

