-- ==== Sys2Proof/WellFormed.lean ====
section
/-! DEFINITION. Which commands are well formed: operands that arrive from outside have the lengths and ranges that the manual
gives them. The machine runs an ill-formed command too; claims that need the lengths take this as a premise. -/

namespace Sys2Proof

/-- A read of host memory that ends well brings so many bytes (R338, R343, R423). -/
def readOf (n : Nat) (r : ReadResult) : Bool :=
  match r with
  | .ok b => b.length == n
  | .failed => true

/-- A read of host memory that ends well brings whole units of so many bytes (R477). -/
def readUnits (n : Nat) (r : ReadResult) : Bool :=
  match r with
  | .ok b => b.length % n == 0
  | .failed => true

/-- A herd packet has the headers of R275 and R276, and a tag of none or 16 bytes (R281). -/
def packetOk (p : HerdPacket) : Bool :=
  p.outer.length == 66 && p.header.length == 32 && decide (p.payload.length ≤ 4160) && (p.tag.length == 0 || p.tag.length == 16)

/-- The entries that a layout carries as bytes have their lengths: sweep tables (R189), history sets (R214), watch entries
(R236) and matrix instructions (R123). -/
def layoutOk (l : PlanLayout) : Bool :=
  l.sweep.all (fun e => e.2.length == 16) && l.history.all (fun h => h.length == 32) && l.watch.all (fun w => w.length == 32)
    && l.matrix.all (fun m => m.2.length == 24)

/-- A stitch link stands at the end: nothing is attached to branch port 1 of M04, M05, M10 and M11 (R19). -/
def LinkEnd.attached (e : LinkEnd) : Bool :=
  match e with
  | .mesh _ _ => true
  | .branch d p => p == 0 || !(d == 4 || d == 5 || d == 10 || d == 11)

/-- Whether a command is well formed. -/
def Instr.wellFormed (i : Instr) : Bool :=
  match i with
  -- ticks and decisions
  | .localTick _ _ => true
  | .decisionPoint _ => true
  | .decisionMessage _ => true
  | .timeTransfer _ _ => true
  | .tickHoldover _ => true
  | .tickLost _ => true
  | .tickInEdge _ _ => true
  | .done _ => true
  | .excessDeclaration _ _ => true
  | .start _ _ => true
  | .stop _ _ => true
  -- phases
  | .gatherPhaseStart _ => true
  | .denseForwardStart _ _ => true
  | .backwardStart _ _ => true
  | .gradientExchangeStart _ _ => true
  | .mergePhaseStart _ => true
  | .phase6End _ _ => true
  | .updateSweepStart _ => true
  | .sweepEnd _ => true
  | .tailSlotEnd _ => true
  | .stepRecord _ _ => true
  -- sequencer registers and latching reads
  | .tickPeriod _ _ => true
  | .tickCtrl _ _ => true
  | .stepLoRead _ => true
  | .evtTailLoRead _ => true
  | .lifeStepsLoRead _ => true
  -- host queues and descriptors
  | .groupPoll _ => true
  | .descriptorFetched _ r _ => readOf 64 r
  | .lapReread _ => true
  | .hostReadCompletion _ _ _ => true
  | .hostReadTimeout _ => true
  | .trainBatch _ => true
  | .evalBatch _ => true
  | .tableLoadDescriptor _ => true
  | .tableLoadRecords _ _ => true
  | .tableLoadBinary32 _ _ => true
  | .tableStaging _ => true
  | .stagingFillEnd => true
  | .tableSwap _ => true
  | .tableSwapDiscard _ => true
  | .exportArm _ => true
  | .exportArmStop _ => true
  | .fence _ => true
  | .fenceCompletion _ => true
  | .telemetrySnapshot _ => true
  | .nop _ => true
  | .completionRecord _ _ => true
  | .msixHoldoffEnd _ => true
  | .telemetryEntry => true
  | .exportEntry _ => true
  | .arm _ _ => true
  | .disarm _ _ => true
  | .disarmEnd _ => true
  | .groupCfg _ _ => true
  -- host ports
  | .portLinkDown _ _ => true
  | .portRetrain _ => true
  | .linkDownTimeout _ => true
  | .hostReset _ _ => true
  | .surpriseRemoval _ => true
  | .portUp _ _ _ => true
  | .unsupportedRequest _ => true
  -- embedding path
  | .separate _ => true
  | .aggregate _ => true
  | .gatherRows _ => true
  | .pool _ _ _ => true
  | .rowCacheFill _ _ _ => true
  -- matrix, vector and attention stages
  | .mma _ w _ => w.length == 24 && w.head? == some 1
  | .join _ w => w.length == 24 && w.head? == some 2
  | .read _ w => w.length == 24 && w.head? == some 3
  | .store _ w => w.length == 24 && w.head? == some 4
  | .clear _ w => w.length == 24 && w.head? == some 5
  | .status _ w => w.length == 24 && w.head? == some 6
  | .vectorOperation _ i _ => decide (i.src < 16 ∧ i.dst < 16 ∧ 0 < i.n ∧ -126 ≤ i.scaleK ∧ i.scaleK ≤ 127)
  | .rowOperation _ i => decide (0 < i.n)
  | .attend _ _ => true
  | .attendBack _ _ => true
  -- exchange stage
  | .send _ _ _ => true
  | .allToAll _ => true
  | .reduce _ _ _ _ => true
  | .allGather _ _ _ _ => true
  | .gather c => decide (0 < c.n) && (c.toModule.isNone || c.fromModule.isNone)
  | .ringPass _ _ _ _ _ _ _ => true
  -- update unit
  | .firstRead _ _ _ => true
  | .add _ _ _ _ _ => true
  | .sub _ _ _ _ _ => true
  | .mul _ _ _ _ _ => true
  | .fma _ _ _ _ _ _ => true
  | .fms _ _ _ _ _ _ => true
  | .rcp _ _ _ _ => true
  | .rsq _ _ _ _ => true
  | .max _ _ _ _ => true
  | .min _ _ _ _ => true
  | .neg _ _ _ => true
  | .abs _ _ _ => true
  | .mov _ _ _ => true
  | .ceq _ _ _ _ => true
  | .clt _ _ _ _ => true
  | .cle _ _ _ _ => true
  | .cun _ _ _ _ => true
  | .sel _ _ _ _ _ => true
  | .ldc _ _ _ => true
  | .ldf _ _ _ _ => true
  | .stf _ _ _ _ _ => true
  | .lds _ _ _ => true
  | .red _ _ _ _ _ => true
  | .qprep _ _ _ => true
  | .wacc _ _ _ => true
  | .wcopy _ => true
  | .sect _ _ _ _ _ => true
  | .churnNop _ => true
  | .recordWriteVerified _ _ => true
  | .sweepTakeover _ => true
  -- history, watch and digests
  | .appendDone _ _ => true
  | .digestCompare _ _ _ => true
  -- pen links
  | .dataFlit _ flit => flit.length == 536
  | .controlFlit _ flit => flit.length == 536
  | .timeFlit _ flit _ => flit.length == 536
  | .retryReq _ flit => flit.length == 536
  | .linkRetrain _ => true
  | .penRetrain _ _ => true
  | .stitchRetransmit e => e.attached
  | .train _ _ => true
  | .ident _ _ _ => true
  -- herd ports
  | .dataPacket _ p _ _ => packetOk p
  | .xon _ _ => true
  | .ackPacket _ p _ => packetOk p
  | .nak _ p _ => packetOk p
  | .timePacket _ p _ => packetOk p
  | .controlPacket _ p _ => packetOk p
  | .standaloneAck _ _ => true
  | .gapPersists _ _ => true
  | .retransmission _ _ psn _ => decide (psn < 4294967296)
  | .ackProgressTimeout _ _ => true
  | .rateRecovery _ _ => true
  | .pfcFrame _ _ _ _ => true
  | .herdPfcStorm _ _ => true
  | .pauseFrame _ => true
  | .herdPortDown _ => true
  | .pcsLock _ => true
  | .joinMessage _ _ => true
  | .mapDigest _ _ => true
  | .peerAbsent => true
  -- memory system
  | .blockRead addr _ => addr % 512 == 0
  | .recordWrite addr data _ _ => decide (1 ≤ data.length ∧ addr % 512 + data.length ≤ 512)
  | .stackWriteAck _ _ _ => true
  | .regulatedIssue _ _ _ => true
  | .retrainRequest _ _ _ => true
  | .retrainOverdue _ => true
  | .retrainDone _ o _ => (match o with
      | .trained n => decide (n ≤ 2)
      | .oldSettings => true
      | .down => true)
  | .retrainNow _ _ => true
  | .stackTempSample _ _ => true
  | .regRate _ _ _ _ => true
  -- reliability
  | .witnessReq _ _ => true
  | .witnessWork _ _ => true
  | .witnessResult _ _ => true
  | .resend _ _ _ => true
  | .lifetimeCountWrite => true
  | .trWatchdog => true
  -- security
  | .certs _ _ => true
  | .report _ _ => true
  | .reportKem _ _ => true
  | .keyLoad _ _ r => readOf 2480 r
  | .exit _ _ => true
  | .bypass => true
  | .idcode => true
  | .samplePreload => true
  | .extest => true
  | .debug => true
  -- power
  | .auxPowerUp => true
  | .moduleInsertion => true
  | .moduleExtraction => true
  | .pwrEnRise _ => true
  | .powering _ => true
  | .bulkCharged => true
  | .pwrgd => true
  | .railRegulationTimeout => true
  | .pwrEnFall _ => true
  | .railsOff _ _ => true
  | .tripWaitEnd => true
  | .vinUv => true
  | .vinOv => true
  | .vinLow _ => true
  | .vinHigh _ => true
  | .vinRated _ => true
  | .pwrOcp => true
  | .clampStep _ => true
  | .budgetClamp => true
  | .specVoid => true
  | .junctionSensorRead _ _ => true
  | .thermTrip => true
  | .coolSpec _ _ _ => true
  | .coolOk _ _ => true
  | .coolLost => true
  | .wearHour _ => true
  | .auxCfg _ _ => true
  | .getStatus => true
  | .setEnable _ => true
  | .powerCycle => true
  | .getEvents => true
  | .mctpControlMessage _ => true
  | .setdasa _ => true
  | .entdaa _ => true
  -- setup and boot
  | .setupUnlock _ _ => true
  | .apply _ _ => true
  | .discard _ _ => true
  | .planLoad _ _ => true
  | .planImageRead r layout => readUnits 512 r && layoutOk layout
  | .fwUpdate _ _ => true
  | .flashWriteEnd => true
  | .erase _ _ => true
  | .eraseEnd => true
  | .moduleReset _ _ => true
  | .recover _ _ img => readUnits 512 img.read
  | .boot b => b.certs.length == 7592 && b.laneFails.all (fun e => decide (e.1 < 384 ∧ e.2 ≤ 66))
  | .dieStarted _ => true
  | .dieStartTimeout _ => true
  | .registerWrite _ offset width _ => decide (offset < 0x100000) && [1, 2, 4, 8].contains width
  | .doorbellReadCompletion _ r _ => readOf 512 r.result
  | .idleFlit _ flit => flit.length == 536
  | .penTrainingEnd _ => true
  | .receivedFrameDiscarded _ _ => true
  | .pfcPauseExpiry _ _ => true
  | .fwImageRead img => readUnits 512 img.read

end Sys2Proof
end

