-- ==== Sys2Proof/Machine/Place.lean ====
section
/-! DEFINITION. Unit codes (R37, R38), and what the module knows of its place in the job: its state, the job map,
its pen and its replica (R5, R43, R291). -/

namespace Sys2Proof.Machine

/-! ## Unit codes (R37, R38) -/

/-- No unit. -/
def unitNone : Half := 0
/-- A stage of a line (stages 1 to 10 of R25). -/
def unitStage (tile line stage : Nat) : Half := BitVec.ofNat 16 (0x1000 + tile * 128 + line * 64 + stage * 4)
/-- A whole tile. -/
def unitTile (tile : Nat) : Half := unitStage tile 0 0
/-- A tile's exchange stage. -/
def unitExchange (tile : Nat) : Half := unitStage tile 0 11
/-- A tile store. -/
def unitTileStore (tile : Nat) : Half := unitStage tile 0 12
/-- A global HBM4 channel. -/
def unitChannel (ch : Nat) : Half := BitVec.ofNat 16 (0x2000 + ch / 32 * 256 + ch % 32 * 8)
/-- A whole optical engine. -/
def unitEngine (k : Nat) : Half := BitVec.ofNat 16 (0x3000 + k * 256 + 8)
/-- A host port. -/
def unitPort (p : Nat) : Half := BitVec.ofNat 16 (0x4000 + p * 1024)
/-- One lane of an optical engine. -/
def unitLane (k lane : Nat) : Half := BitVec.ofNat 16 (0x3000 + k * 256 + lane)
/-- The sequencer. -/
def unitSequencer : Half := 0x5000
/-- The tack room. -/
def unitTackRoom : Half := 0x6000

/-- A stitch port's code in UNIT[6:5]. -/
def stitchCode : StitchPort → Nat
  | .north => 0
  | .east => 1
  | .south => 2
  | .west => 3

/-- The end that names a stitch link (R38): the tile on its west side within a row, on its north side between rows; an edge
link is named from its tile, a branch link from its memory port die. -/
def linkNaming (e : LinkEnd) : LinkEnd :=
  match e with
  | .mesh t .west => if t.val % 8 = 0 then e else .mesh (t - 1) .east
  | .mesh t .north => if t.val / 8 = 0 then e else .mesh (t - 8) .south
  | _ => e

/-- The unit code of a stitch link: a mesh link or a branch link (R37). -/
def linkCode (e : LinkEnd) : Half :=
  match linkNaming e with
  | .mesh t p => BitVec.ofNat 16 (0x7000 + t.val * 128 + stitchCode p * 32)
  | .branch d b => BitVec.ofNat 16 (0x8000 + d.val * 256 + b.val * 128)

/-- The unit code of a unit (R37). -/
def unitCode (u : UnitId) : Half :=
  match u with
  | .module => unitNone
  | .tile t => unitTile t.val
  | .stage t l k => unitStage t.val l.val (k.val + 1)
  | .exchange t => unitExchange t.val
  | .tileStore t => unitTileStore t.val
  | .channel c => unitChannel c.val
  | .lane o => unitLane o.engine.val o.lane.val
  | .engine k => unitEngine k.val
  | .hostPort p => unitPort p.val
  | .sequencer => unitSequencer
  | .tackRoom => unitTackRoom
  | .stitch e => linkCode e

/-- The number of a line among the module's 64. -/
def lineIx (l : LineId) : Nat := l.tile.val * 2 + l.line.val

/-! ## The job and this module's place in it -/

/-- SEQ_STATUS.STATE is IDLE. -/
def State.idle (s : State) : Bool := s.seq.job == .idle
/-- A job runs: it has started and has neither ended nor halted. -/
def State.jobRuns (s : State) : Bool :=
  s.seq.job == .filling || s.seq.job == .running || s.seq.job == .stopping
/-- The active module identifier (R5). -/
def State.me (s : State) : Nat := s.active.moduleId.toNat
/-- Confidential mode: MODE 2 (R425). -/
def State.confidential (s : State) : Bool := s.sec.mode == 2
/-- The job map of the loaded plan. -/
def State.jobMap (s : State) : Option JobMap := s.plan.map (·.map)
/-- The module identifiers of the job, ascending. -/
def State.modules (s : State) : List Nat :=
  match s.jobMap with
  | some m => m.modules.map (·.module)
  | none => [s.me]
/-- Whether the job has more than one module. -/
def State.multi (s : State) : Bool := decide (1 < s.modules.length)
/-- The tick master's identifier (R42). -/
def State.tickMaster (s : State) : Nat :=
  match s.jobMap with
  | some m => m.tickMaster
  | none => s.me
/-- TICK_STATUS.MASTER (R76): this module is the tick master of the loaded plan's job. -/
def State.isMaster (s : State) : Bool :=
  match s.jobMap with
  | some m => m.tickMaster == s.me
  | none => false

/-- The parent of a module in the tree of R43 under a tick master. -/
def treeParent (master m : Nat) : Option Nat :=
  if m = master then none
  else if m / 8 = master / 8 then some master
  else if m % 8 = 0 then some master
  else some (m / 8 * 8)

/-- The modules below this one in the tree of R43. -/
def State.treeChildren (s : State) : List Nat :=
  s.modules.filter (fun m => treeParent s.tickMaster m == some s.me)
/-- The other modules of this pen in the job, ascending. -/
def State.penPeers (s : State) : List Nat :=
  s.modules.filter (fun m => m / 8 == s.me / 8 && m != s.me)
/-- Modules of the pen in the job map, N of R214. -/
def State.penSize (s : State) : Nat := s.penPeers.length + 1
/-- This module's replica index (R291). -/
def State.replica (s : State) : Nat :=
  match s.jobMap with
  | some m => ((m.modules.find? (·.module == s.me)).map (·.replica)).getD 0
  | none => 0
/-- The replica count, PENS of R290. -/
def State.replicas (s : State) : Nat :=
  match s.jobMap with
  | some m => m.pens
  | none => 1
/-- The module of a replica at this module's position (R288). -/
def State.replicaModule (s : State) (r : Nat) : Nat :=
  match s.jobMap with
  | some m => ((m.modules.find? (fun e => e.replica == r && e.module % 8 == s.me % 8)).map (·.module)).getD s.me
  | none => s.me
/-- This module's witness (R291), none for 0xFFFF. -/
def State.witness (s : State) : Option Nat :=
  match s.jobMap with
  | some m => (m.modules.find? (·.module == s.me)).bind
      (fun e => if e.witness = 0xFFFF then none else some e.witness)
  | none => none
/-- The active tick period P in µs. -/
def State.period (s : State) : Nat := s.active.tickPeriod.toNat

end Sys2Proof.Machine
end

