-- ==== Sys2Proof/Machine/Frames.lean ====
section
/-! DEFINITION. The Ethernet, IPv6 and UDP headers of the herd ports (R7, R271, R272, R273, R275), as a frame is sent and as one
that arrives is checked. The preamble and the FCS that the MAC adds are not put out (log 41). -/

namespace Sys2Proof.Machine

/-! ## Network byte order (R7) -/

/-- n as `len` bytes in network byte order. -/
def beBytes (len n : Nat) : Bytes := (leBytes len n).reverse

/-- The number in network byte order at a place of a frame. -/
def beField (b : Bytes) (off len : Nat) : Nat := leNat (slice b off len).reverse

/-- The sum of the 16-bit words of a string, in network byte order; an odd last byte is followed by a zero. -/
def wordSum : Bytes → Nat
  | [] => 0
  | [a] => 256 * a.toNat
  | a :: b :: r => 256 * a.toNat + b.toNat + wordSum r

/-- A sum as ones' complement arithmetic keeps it in 16 bits. -/
def onesFold (n : Nat) : Nat := if n = 0 then 0 else (n - 1) % 65535 + 1

/-- What the checksum of UDP over IPv6 covers: the two addresses, the length, the protocol number 17, and the datagram. -/
def checksumSum (src dst udp : Bytes) : Nat := wordSum (src ++ dst ++ beBytes 4 udp.length ++ beBytes 4 17 ++ udp)

/-- The UDP checksum of a datagram whose checksum field is zero; a result of zero is sent as 0xFFFF (R271; RFC 768). -/
def udpChecksum (src dst udp : Bytes) : Nat :=
  let c := 65535 - onesFold (checksumSum src dst udp)
  if c = 0 then 65535 else c

/-! ## A frame that is sent -/

/-- The 802.1Q priority of a packet's class: TIME, CONTROL or BULK (R273). An ACK and a NAK travel as CONTROL (DESIGN CHOICE;
log 41). -/
def State.classPriority (s : State) (kind : Nat) : Nat :=
  match kind with
  | 0 => s.active.pcpBulk.toNat
  | 3 => s.active.pcpTime.toNat
  | _ => s.active.pcpCtrl.toNat

/-- The IPv6 DSCP of a packet's class (R273). -/
def State.classDscp (s : State) (kind : Nat) : Nat :=
  match kind with
  | 0 => s.active.dscpBulk.toNat
  | 3 => s.active.dscpTime.toNat
  | _ => s.active.dscpCtrl.toNat

/-- The address of a module on a plane, from the job map (R272, R291). -/
def State.planeAddress (s : State) (m plane : Nat) : Bytes :=
  match s.jobMap with
  | some j => ((j.modules.find? (·.module == m)).bind (fun e => e.addrs[plane]?)).getD []
  | none => []

/-- UDP_PORT of the job map. -/
def State.udpPort (s : State) : Nat := (s.jobMap.map (·.udpPort)).getD 0

/-- The UDP source port of a packet, which is also its flow label (R275). -/
def sourcePort (dst path : Nat) : Nat := 0xC000 + 1024 * path + dst % 1024

/-- The 66 bytes ahead of the Lemod header (R271, R272, R275): the MAC header with one C-tag, the IPv6 header with hop limit 64 and
ECT(0), and the UDP header with its checksum. `body` is the Lemod header and what follows it. -/
def State.outerHeader (s : State) (dst plane path kind : Nat) (body : Bytes) : Bytes :=
  let cfg := NMap.getD s.active.herd plane {}
  let src := s.planeAddress s.me plane
  let dest := s.planeAddress dst plane
  let udp := beBytes 2 (sourcePort dst path) ++ beBytes 2 s.udpPort ++ beBytes 2 (8 + body.length)
  beBytes 6 cfg.gwMac.toNat ++ beBytes 6 cfg.srcMac.toNat ++ beBytes 2 0x8100
    ++ beBytes 2 (8192 * s.classPriority kind + cfg.vid.toNat) ++ beBytes 2 0x86DD
    ++ beBytes 4 (0x60000000 + 2 ^ 20 * (4 * s.classDscp kind + 2) + sourcePort dst path) ++ beBytes 2 (8 + body.length)
    ++ beBytes 1 17 ++ beBytes 1 64 ++ src ++ dest ++ udp ++ beBytes 2 (udpChecksum src dest (udp ++ [0, 0] ++ body))

/-! ## A frame that arrives -/

/-- Why a herd port does not take a frame (R271, R272). -/
inductive FrameFault where
  | oversize
  | lldp
  | wrongMac
  | untagged
  | ipv4
  | icmp
  | fragment
  | extension
  | wrongAddress
  | checksum
  | unsupported
  deriving DecidableEq, Repr

/-- What is wrong with the UDP datagram of a frame: its checksum, or a port that is not the job's (log 41). -/
def State.datagramFault (s : State) (f : Bytes) : Option FrameFault :=
  if beField f 64 2 = 0 ∨ onesFold (checksumSum (slice f 26 16) (slice f 42 16) (f.drop 58)) ≠ 65535 then some .checksum
  else if beField f 60 2 ≠ s.udpPort ∨ beField f 22 2 + 58 ≠ f.length then some .unsupported
  else none

/-- What is wrong with the IPv6 packet of a frame for a port: another protocol than UDP, an extension header, or another address
than this module's on the plane. -/
def State.packetFault (s : State) (i : Nat) (f : Bytes) : Option FrameFault :=
  match beField f 24 1 with
  | 17 => if slice f 42 16 = s.planeAddress s.me i then s.datagramFault f else some .wrongAddress
  | 58 => some .icmp
  | 44 => some .fragment
  | _ => some .extension

/-- Why a port does not take a frame, given from its destination MAC up to its FCS: its length of at most 4,352 bytes with the
FCS, LLDP (which carries DCBX), its MAC, its C-tag, its protocol. -/
def State.frameFault (s : State) (i : Nat) (f : Bytes) : Option FrameFault :=
  if 4352 < f.length + 4 then some .oversize
  else if beField f 12 2 = 0x88CC then some .lldp
  else if beField f 0 6 ≠ (NMap.getD s.active.herd i {}).srcMac.toNat then some .wrongMac
  else if beField f 12 2 ≠ 0x8100 then some .untagged
  else if beField f 16 2 = 0x0800 then some .ipv4
  else if beField f 16 2 ≠ 0x86DD then some .unsupported
  else s.packetFault i f

/-- Whether the manual counts a frame that is discarded (R271, R272); it says so of no LLDP frame and of no extension header. A
frame without a C-tag, with a bad checksum or of a protocol the table does not list is counted (DESIGN CHOICE; log 41). -/
def FrameFault.counted : FrameFault → Bool
  | .lldp => false
  | .extension => false
  | _ => true

/-- The bytes of a packet from its destination MAC to its last. -/
def packetBytes (p : HerdPacket) : Bytes := p.outer ++ p.header ++ p.payload ++ p.tag

/-- Whether a packet is CE-marked: ECN 3 of its IPv6 header (R271, R280; RFC 3168). -/
def packetCe (p : HerdPacket) : Bool := beField p.outer 18 2 / 16 % 4 == 3

end Sys2Proof.Machine
end

