-- ==== Sys2Proof/Machine/KeyOps.lean ====
section
/-! DEFINITION. The keys of R416 as functions of the device secret and the session, and what is sealed under them:
export entries (R402), table loads (R428), fabric groups (R266, R281). -/

namespace Sys2Proof.Machine

/-- The number of a customisation string of R413, R416, R423 and R425. -/
inductive KeyUse where
  | identity
  | flash
  | pen
  | herd
  | exporting
  | load
  | session
  | map
  deriving DecidableEq, Repr

/-- The model's number of a use. -/
def KeyUse.code : KeyUse → Nat
  | .identity => 0
  | .flash => 1
  | .pen => 2
  | .herd => 3
  | .exporting => 4
  | .load => 5
  | .session => 6
  | .map => 7

/-- The bytes of a 256-bit value. -/
def bytes256 (x : BitVec 256) : Bytes := leBytes 32 x.toNat

/-- JT: the session's JOB_TAG as 4 bytes (R416). -/
def State.jt (s : State) : Bytes := leBytes 4 s.sec.jobTag.toNat
/-- MID ‖ JT, as they were taken at KEY_LOAD (R416). -/
def State.midJt (s : State) : Bytes := leBytes 2 s.sec.keyMid.toNat ++ s.jt

/-- The load key (R416). -/
def State.loadKey (s : State) : BitVec 256 := Config.kmac256 s.sec.jobSecret s.jt KeyUse.load.code
/-- The export key (R416). -/
def State.exportKey (s : State) : BitVec 256 := Config.kmac256 s.sec.jobSecret s.midJt KeyUse.exporting.code
/-- The pen fabric key (R416). -/
def State.penKey (s : State) : BitVec 256 := Config.kmac256 s.sec.jobSecret s.jt KeyUse.pen.code
/-- The herd fabric key of a plane (R416). -/
def State.herdKey (s : State) (plane : Nat) : BitVec 256 :=
  Config.kmac256 s.sec.jobSecret (s.jt ++ leBytes 1 plane) KeyUse.herd.code
/-- The identity seed ξ of a device secret (R413). -/
def identitySeed (ds : BitVec 256) : BitVec 256 := Config.kmac256 ds [] KeyUse.identity.code

/-- The job-map digest of R294: of the map in normal mode, keyed in confidential mode (R425). -/
def State.mapDigestOf (s : State) (m : Bytes) : BitVec 256 :=
  if s.confidential then Config.kmac256 s.penKey m KeyUse.map.code else Config.sha3 m

/-- AES-256-GCM with the tag over the plaintext it opens to: the plaintext, when the tag holds. Counter mode
opens with the function that seals. -/
def gcmOpen (key : BitVec 256) (nonce ad sealed tag : Bytes) : Option Bytes :=
  let p := Config.gcmEncrypt key nonce sealed
  if BitVec.ofNat 128 (leNat tag) = Config.gcmTag key nonce ad p then some p else none

/-- One sealed piece of a table load (R428): its plaintext, when its tag holds and its index is in order. -/
def openPiece (key : BitVec 256) (ad piece : Bytes) (index : Nat) : Option Bytes :=
  let h := piece.take 16
  let n := piece.length - 32
  if field h 12 4 = index ∧ 32 ≤ piece.length then gcmOpen key (h.take 12) (h ++ ad) (slice piece 16 n) (piece.drop (16 + n))
  else none

/-- The pieces of a sealed source in order: the plaintext up to the first that fails, and whether all opened. -/
def openPieces (key : BitVec 256) (ad : Bytes) : Nat → Nat → Bytes → Bytes × Bool
  | 0, _, bs => ([], bs.isEmpty)
  | fuel + 1, i, bs =>
    match bs with
    | [] => ([], true)
    | _ =>
      match openPiece key ad (bs.take 4096) i with
      | some p => let r := openPieces key ad fuel (i + 1) (bs.drop 4096)
                  (p ++ r.1, r.2)
      | none => ([], false)

/-- The source of a table load in plaintext, and whether every piece opened (R428). -/
def State.openLoad (s : State) (d src : Bytes) : Bytes × Bool :=
  if s.confidential then openPieces s.loadKey (slice d 16 24) (src.length / 4096 + 1) 0 src else (src, true)

end Sys2Proof.Machine
end

