-- ==== Sys2Proof/Machine/Links.lean ====
section
/-! DEFINITION. What leaves on the pen links and the herd ports: flits (R262 to R266), packets (R275 to R281), and a
message of the exchange stage as the units, flits and packets that carry it (R278, R282, R286). The manual lays out
the carriers; how a control message spells itself inside one is the model's (log 6). -/

namespace Sys2Proof.Machine

/-- Put something on a connector or link; oldest first (log 6). -/
def State.emit (s : State) (o : Output) : State := { s with out := s.out ++ [o] }
/-- Put several things out in order. -/
def State.emits (s : State) (os : List Output) : State := { s with out := s.out ++ os }

/-- Message kinds of the tree and of the exchange stage (R43, R286). The manual names the messages and
gives no codes; the numbers are the model's (log 6). -/
inductive MsgKind where
  | decision
  | done
  | excess
  | join
  | mapDigest
  | witnessReq
  | witnessResult
  | resend
  | appendDone
  | ready
  | digest
  | sendList
  | rows
  | partials
  | userList
  | append
  | reduce
  | allGather
  | activation
  | ring
  | timeTransfer
  | resent
  | watch
  deriving DecidableEq, Repr

/-- The model's number of a message kind (log 6). -/
def MsgKind.code : MsgKind → Nat
  | .decision => 1
  | .done => 2
  | .excess => 3
  | .join => 4
  | .mapDigest => 5
  | .witnessReq => 6
  | .witnessResult => 7
  | .resend => 8
  | .appendDone => 9
  | .ready => 10
  | .digest => 11
  | .sendList => 12
  | .rows => 13
  | .partials => 14
  | .userList => 15
  | .append => 16
  | .reduce => 17
  | .allGather => 18
  | .activation => 19
  | .ring => 20
  | .timeTransfer => 21
  | .resent => 22
  | .watch => 23

/-- The key of a count of messages: the module and the kind. -/
def countKey (m : Nat) (k : MsgKind) : Nat := m * 32 + k.code

/-! ## Pen flits (R262, R266) -/

/-- A pen engine. -/
def State.pen (s : State) (k : Nat) : PenEngine := NMap.getD s.fab.pen k {}
/-- Change a pen engine. -/
def State.setPen (s : State) (k : Nat) (f : PenEngine → PenEngine) : State :=
  { s with fab.pen := NMap.modify s.fab.pen k {} f }

/-- The engine that reaches a pen position (R268). -/
def State.engineTo (s : State) (pos : Nat) : Option Nat :=
  (List.range 8).find? (fun k => (s.pen k).up && (s.pen k).valid && (s.pen k).peer.toNat == pos)

/-- The module that an engine reaches. -/
def State.engineModule (s : State) (k : Nat) : Nat := s.me / 8 * 8 + (s.pen k).peer.toNat

/-- A flit of 536 bytes (R262) around its bytes 8 to 527. -/
def flitBytes (kind flags seq ack credit : Nat) (body : Bytes) : Bytes :=
  let b := leBytes 1 kind ++ leBytes 1 flags ++ leBytes 2 seq ++ leBytes 2 ack ++ leBytes 2 credit ++ padTo 520 body
  b ++ leBytes 4 (crc32c b) ++ leBytes 4 0

/-- The nonce of a group of encrypted flits (R266). -/
def penNonce (src dst count : Nat) : Bytes := leBytes 2 src ++ leBytes 2 dst ++ leBytes 8 count

/-- The last n bytes of a string. -/
def lastBytes (n : Nat) (b : Bytes) : Bytes := b.drop (b.length - n)

/-- Send one numbered flit and keep it for a retry (R264). -/
def State.emitFlit (s : State) (k kind flags : Nat) (body : Bytes) : State :=
  let e := s.pen k
  let f := flitBytes kind flags e.nextSeq.toNat (e.expect - 1).toNat e.freed body
  let r := e.retry ++ [(e.nextSeq.toNat, f)]
  (({ s with seq.stats.penBytes := s.seq.stats.penBytes + 536 } : State).setPen k (fun x => { x with
    nextSeq := x.nextSeq + 1, freed := 0, retry := r.drop (r.length - 512)
    credits := if kind = 1 then x.credits - 1 else x.credits })).emit (.penFlit k f)

/-- Send one TIME flit, which is not numbered (R262). -/
def State.sendTime (s : State) (k : Nat) (last : Bool) (body : Bytes) : State :=
  let e := s.pen k
  (s.setPen k (fun x => { x with freed := 0 })).emit (.penFlit k (flitBytes 3 (b2n last) 0 (e.expect - 1).toNat e.freed body))

/-- Send one TIME, DATA or CONTROL flit; DATA and CONTROL in clear, or encrypted with the tag of the group behind its last flit
(R266). -/
def State.sendFlit (s : State) (k : Nat) (i : LinkItem) : State :=
  if i.kind = 3 then s.sendTime k i.last i.content
  else if s.confidential then
    let e := s.pen k
    let nonce := penNonce s.me (s.engineModule k) e.groupsSent
    let g := e.sendGroup ++ [padTo 520 i.content]
    let s1 := (s.emitFlit k i.kind (b2n i.last + 2) (lastBytes 520 (Config.gcmEncrypt s.penKey nonce g.flatten))).setPen k
      (fun x => { x with sendGroup := g })
    if g.length = 32 ∨ i.last = true then
      (s1.emitFlit k 2 0 (leBytes 16 (Config.gcmTag s.penKey nonce [] g.flatten).toNat)).setPen k
        (fun x => { x with sendGroup := [], groupsSent := x.groupsSent + 1 })
    else s1
  else s.emitFlit k i.kind (b2n i.last) i.content

/-- Whether an item belongs to the inputs or results of a witness, which yield to plan units (R385). -/
def LinkItem.yields (i : LinkItem) : Bool := i.msg / 65536 == MsgKind.witnessReq.code || i.msg / 65536 == MsgKind.witnessResult.code

/-- The item that a link sends at its next flit boundary (R263, R265): it sends while it is up and not retraining, TIME before CONTROL
before DATA, DATA only against credits, plan units before those of a witness (R385), and each kind in order. -/
def PenEngine.nextItem (e : PenEngine) : Option LinkItem :=
  if !e.up || e.retraining then none
  else
    match (e.waiting.find? (fun i => i.kind == 3)).orElse fun _ => e.waiting.find? (fun i => i.kind == 2) with
    | some i => some i
    | none => if e.credits = 0 then none else ((e.waiting.find? (fun i => !i.yields)).orElse fun _ => e.waiting.head?)

/-- Send what waits on a link. -/
def State.drainPen : Nat → State → Nat → State
  | 0, s, _ => s
  | fuel + 1, s, k =>
    match (s.pen k).nextItem with
    | none => s
    | some i => State.drainPen fuel ((s.setPen k (fun x => { x with waiting := x.waiting.erase i })).sendFlit k i) k

/-- Give items to a link. -/
def State.toPen (s : State) (k : Nat) (is : List LinkItem) : State :=
  let s1 := s.setPen k (fun x => { x with waiting := x.waiting ++ is })
  State.drainPen (s1.pen k).waiting.length s1 k

/-! ## Herd packets (R275 to R282) -/

/-- The key of a connection to a module on a plane (R277). -/
def connKey (dst plane : Nat) : Nat := 8 * dst + plane
/-- A connection. -/
def State.conn (s : State) (dst plane : Nat) : Conn := NMap.getD s.fab.conns (connKey dst plane) {}
/-- Change a connection. -/
def State.setConn (s : State) (dst plane : Nat) (f : Conn → Conn) : State :=
  { s with fab.conns := NMap.modify s.fab.conns (connKey dst plane) {} f }
/-- A herd port. -/
def State.herdPort (s : State) (i : Nat) : HerdPort := NMap.getD s.fab.herd i {}
/-- Change a herd port. -/
def State.setHerd (s : State) (i : Nat) (f : HerdPort → HerdPort) : State :=
  { s with fab.herd := NMap.modify s.fab.herd i {} f }

/-- Whether a connection is open to a module on a plane. -/
def State.connOpen (s : State) (dst plane : Nat) : Bool := (NMap.find? s.fab.conns (connKey dst plane)).isSome

/-- A plane holds the connection to a module, or has room for it: a port holds up to 1,024 (R277). -/
def State.mayConnect (s : State) (dst plane : Nat) : Bool :=
  s.connOpen dst plane || decide (s.fab.conns.countP (fun e => e.1 % 8 == plane) < 1024)

/-- The planes on which a module is reached (R277, R282). -/
def State.planesTo (s : State) (dst : Nat) : List Nat :=
  (List.range 8).filter (fun i => s.active.herdEn && (s.herdPort i).pcsLock && !(s.conn dst i).stopped && s.mayConnect dst i)

/-- The transport header (R276). -/
def State.packetHeader (s : State) (kind flags dst plane len psn ackPsn msg unit step ce : Nat) : Bytes :=
  leBytes 1 (1 + 16 * kind) ++ leBytes 1 flags ++ leBytes 2 (s.me + plane * 4096) ++ leBytes 2 dst ++ leBytes 2 len
    ++ leBytes 4 psn ++ leBytes 4 ackPsn ++ leBytes 4 msg ++ leBytes 4 unit
    ++ leBytes 4 ((s.jobMap.map (·.jobTag)).getD 0) ++ leBytes 2 (step % 65536) ++ leBytes 2 (ce % 65536)

/-- The nonce of a packet (R281). -/
def herdNonce (src plane dst seq : Nat) : Bytes := leBytes 2 (src + plane * 4096) ++ leBytes 2 dst ++ leBytes 8 seq

/-- The next path of a connection after `p`, skipping those removed (R278, R279). -/
def nextPath (removed : List Nat) (p : Nat) : Nat :=
  (((List.range 16).map (fun i => (p + i) % 16)).find? (fun i => !removed.contains i)).getD (p % 16)

/-- A payload as it is carried: in clear, or encrypted with its tag behind it (R281). -/
def State.herdPayload (s : State) (dst plane seq : Nat) (header payload : Bytes) : Bytes :=
  if s.confidential then
    let n := herdNonce s.me plane dst seq
    Config.gcmEncrypt (s.herdKey plane) n payload ++ leBytes 16 (Config.gcmTag (s.herdKey plane) n header payload).toNat
  else payload

/-- Send one numbered packet on a connection and keep it until it is acknowledged (R277 to R279); it carries an
acknowledgement that is due. -/
def State.sendPacket (s : State) (dst plane : Nat) (i : LinkItem) : State :=
  let c := s.conn dst plane
  let path := nextPath c.removed c.nextPath
  let header := s.packetHeader i.kind (b2n s.confidential + 2 * b2n i.last + 4) dst plane i.content.length c.nextSeq c.below i.msg
    i.unit i.step c.ceSince
  let payload := s.herdPayload dst plane c.nextSeq header i.content
  (({ s with seq.stats.herdBytes := s.seq.stats.herdBytes + header.length + payload.length } : State).setConn dst plane (fun x => { x with
    nextSeq := x.nextSeq + 1, nextPath := path + 1, ackDue := false, ceSince := 0
    sent := x.sent ++ [{ seq := c.nextSeq, header := header, payload := payload, sentAt := s.clk.time, path := path }] })).emit
    (.herdPacket plane path (s.outerHeader dst plane path i.kind (header ++ payload)) header payload)

/-- A packet that is not numbered: an ACK or a NAK (R276, R279). -/
def State.sendUnnumbered (s : State) (dst plane kind psn : Nat) : State :=
  let c := s.conn dst plane
  let path := nextPath c.removed c.nextPath
  let header := s.packetHeader kind 4 dst plane 0 psn c.below 0 0 s.seq.step.toNat c.ceSince
  (s.setConn dst plane (fun c => { c with ackDue := false, ceSince := 0 })).emit
    (.herdPacket plane path (s.outerHeader dst plane path kind header) header [])

/-- Send an item of a connection: an ACK (1) or NAK (2) names its PSN in `unit`. -/
def State.sendItem (s : State) (dst plane : Nat) (i : LinkItem) : State :=
  if i.kind = 1 ∨ i.kind = 2 then s.sendUnnumbered dst plane i.kind i.unit else s.sendPacket dst plane i

/-- Whether a port's received pause holds a class back (R273). -/
def State.classPaused (s : State) (plane kind : Nat) : Bool :=
  ((NMap.find? (s.herdPort plane).paused (s.classPriority kind))).isSome

/-- The item that a connection sends next: while it runs, the first whose class is not paused (R273); a numbered packet while
fewer than 1,024 are unacknowledged (R277). -/
def State.nextPacket (s : State) (dst plane : Nat) : Option LinkItem :=
  let c := s.conn dst plane
  if c.stopped then none
  else c.waiting.find? (fun i => !s.classPaused plane i.kind && (i.kind == 1 || i.kind == 2 || decide (c.sent.length < 1024)))

/-- Send what waits on a connection. -/
def State.drainConn : Nat → State → Nat → Nat → State
  | 0, s, _, _ => s
  | fuel + 1, s, dst, plane =>
    match s.nextPacket dst plane with
    | none => s
    | some i =>
      State.drainConn fuel ((s.setConn dst plane (fun x => { x with waiting := x.waiting.erase i })).sendItem dst plane i) dst plane

/-- Give an item to a connection. -/
def State.toConn (s : State) (dst plane : Nat) (i : LinkItem) : State :=
  let s1 := s.setConn dst plane (fun x => { x with waiting := x.waiting ++ [i] })
  State.drainConn (s1.conn dst plane).waiting.length s1 dst plane

/-! ## Messages -/

/-- The block units of a message body: 512 bytes each, the last padded (R278). -/
def units : Nat → Bytes → List Bytes
  | 0, _ => []
  | n + 1, bs =>
    match bs with
    | [] => []
    | _ => padTo 512 (bs.take 512) :: units n (bs.drop 512)

/-- CHECK of a unit with its tag word (R375). -/
def checkWord (unit : Bytes) (tag : Word) : Word := BitVec.ofNat 32 (crc32c (unit ++ leBytes 4 tag.toNat))

/-- A block unit as it travels: 512 bytes, CHECK and TAG (R262, R275). -/
def carried (u : Bytes × Word) : Bytes := padTo 512 u.1 ++ leBytes 4 (checkWord (padTo 512 u.1) u.2).toNat ++ leBytes 4 u.2.toNat

/-- The MSG number of a message: its kind and identifier (log 6). -/
def msgNumber (code ident : Nat) : Nat := code * 65536 + ident % 65536

/-- A control message as the contents of flits or packets of KIND 2, or 3 for the TIME class: its kind, its length and its body
(log 6). -/
def controlUnits (kind code ident : Nat) (body : Bytes) : List LinkItem :=
  let b := leBytes 2 code ++ leBytes 2 body.length ++ body
  let us := if b.length ≤ 512 then [b] else units (b.length / 512 + 1) b
  us.zipIdx.map (fun u => { kind := kind, last := u.2 + 1 == us.length, msg := msgNumber code ident, unit := u.2, content := u.1 })

/-- Block units as DATA items of a message. -/
def dataItems (code ident : Nat) (us : List (Bytes × Word)) : List LinkItem :=
  us.zipIdx.map (fun u => { kind := 1, last := u.2 + 1 == us.length, msg := msgNumber code ident, unit := u.2, content := carried u.1 })

/-- Items of a message packed up to eight units to a packet (R275). -/
def packItems : Nat → List LinkItem → List LinkItem
  | 0, _ => []
  | n + 1, is =>
    match is with
    | [] => []
    | i :: _ =>
      if i.kind = 1 then
        let g := is.take 8
        { i with kind := 0, last := (g.getLast?.map (·.last)).getD false, content := (g.map (·.content)).flatten } :: packItems n (is.drop 8)
      else { i with kind := if i.kind = 3 then 3 else 4 } :: packItems n (is.drop 1)

/-- Stripe packets of messages over the planes that reach a module, round robin from plane MSG mod 8 (R278, R282); the TIME class
runs on the lowest-numbered (R283). -/
def State.stripe (s : State) (dst : Nat) (is : List LinkItem) : State :=
  match s.planesTo dst with
  | [] => s
  | p :: ps =>
    let planes := p :: ps
    is.zipIdx.foldl (fun (st : State) e => st.toConn dst (if e.1.kind = 3 then p else planes.getD ((e.1.msg % 8 + e.2) % planes.length) p) e.1) s

/-- Items that leave in the current step (R276). -/
def State.stamped (s : State) (is : List LinkItem) : List LinkItem := is.map (fun i => { i with step := s.seq.step.toNat })

/-- Carry a message's items to a module: on the pen link to a peer of the pen, on the herd planes to any other, packet
by packet from plane MSG mod 8 (R278, R282). A module that nothing reaches gets nothing. -/
def State.transmit (s : State) (dst : Nat) (is : List LinkItem) : State :=
  if dst / 8 = s.me / 8 then
    match s.engineTo (dst % 8) with
    | some k => s.toPen k (s.stamped is)
    | none => s
  else
    s.stripe dst (packItems is.length (s.stamped is))

/-- How many control messages have left for a module of another pen in the step, which numbers the next (R276; log 6). -/
def State.controlCount (s : State) (dst : Nat) : Nat :=
  ((List.range 8).map (fun p => if (s.conn dst p).ctlStep = s.seq.step then (s.conn dst p).ctlMsgs else 0)).foldl max 0

/-- One more control message for a module of another pen, counted at the connection of the lowest plane that reaches it. -/
def State.countControl (s : State) (dst : Nat) : State :=
  if dst / 8 = s.me / 8 then s
  else
    match s.planesTo dst with
    | [] => s
    | p :: _ => s.setConn dst p (fun c => { c with ctlMsgs := s.controlCount dst + 1, ctlStep := s.seq.step })

/-- Send a control message: decisions and time transfers in the TIME class, every other in CONTROL (R43, R283). -/
def State.sendControl (s : State) (dst code : Nat) (body : Bytes) : State :=
  (s.countControl dst).transmit dst
    (controlUnits (if code = MsgKind.decision.code ∨ code = MsgKind.timeTransfer.code then 3 else 2) code (s.controlCount dst) body)

end Sys2Proof.Machine
end

