-- ==== Sys2Proof/Machine/Ops.lean ====
section
/-! DEFINITION. The operations that every command shares: event records (R406, R407), the access log (R464), the
unit ledger (R391, R392), halting, and putting things on the connectors. -/

namespace Sys2Proof.Machine

/-! ## Connectors -/

/-- A host port. -/
def State.port (s : State) (p : Nat) : Port := NMap.getD s.host.ports p {}
/-- Change a host port. -/
def State.setPort (s : State) (p : Nat) (f : Port → Port) : State :=
  { s with host.ports := NMap.modify s.host.ports p {} f }

/-- A request of the device on a host port: issued while the link is up, held while it is down (R365), and
discarded for a port whose host was reset (R369). A write stays unacknowledged until the link says
otherwise (R366). -/
def State.toHost (s : State) (p : Nat) (o : Output) : State :=
  let port := s.port p
  if port.orphaned then s
  else if port.link = .up then s.emit o
  else s.setPort p (fun q => { q with heldOut := q.heldOut ++ [o] })

/-- Send a message to a module. -/
def State.message (s : State) (dst : Nat) (k : MsgKind) (body : Bytes) : State :=
  (s.emit (.message dst k.code body)).sendControl dst k.code body

/-- Send a message to each of a list of modules. -/
def State.messages (s : State) (dsts : List Nat) (k : MsgKind) (body : Bytes) : State :=
  dsts.foldl (fun (st : State) d => st.message d k body) s

/-- Send a message up the tree of R43; the tick master has no parent. -/
def State.upTree (s : State) (k : MsgKind) (body : Bytes) : State :=
  match treeParent s.tickMaster s.me with
  | some p => if s.multi then s.message p k body else s
  | none => s

/-! ## The telemetry ring's room (R357, R358) -/

/-- Entries of a queue's ring. -/
def Queue.entries (q : Queue) : Nat := 2 ^ q.log2.toNat

/-- A queue; every queue is UNARMED until it is armed. -/
def State.queue (s : State) (q : Nat) : Queue := NMap.getD s.host.queues q {}
/-- Change a queue. -/
def State.setQueue (s : State) (q : Nat) (f : Queue → Queue) : State :=
  { s with host.queues := NMap.modify s.host.queues q {} f }

/-- The TELEMETRY queue that is filled: armed with CLASS TELEMETRY (R337). -/
def State.telemetryQueue (s : State) : Option Nat :=
  (List.find? (fun e => e.2.cls == 2 && e.2.mode == .armed) s.host.queues).map (·.1)

/-- Free entries of the telemetry ring beyond those already promised to accepted records. -/
def State.telemetryRoom (s : State) : Nat :=
  match s.telemetryQueue with
  | some q =>
    let x := s.queue q
    let m := x.entries * 2 ^ 32
    x.entries - (x.p % m + m - x.k % m) % m - s.host.tel.accepted.length
  | none => 0

/-- Accept a record into the telemetry ring. -/
def State.acceptRecord (s : State) (kind : Nat) (body : Bytes) : State :=
  { s with host.tel.accepted := s.host.tel.accepted ++ [⟨kind, body⟩] }

/-! ## Event records (R406, R407) -/

/-- The bytes of an event record (R406). -/
def EventRec.encode (e : EventRec) : Bytes :=
  leBytes 2 e.code.toNat ++ leBytes 2 e.unit.toNat ++ leBytes 6 e.step.toNat ++ leBytes 2 e.module.toNat
    ++ leBytes 1 (b2n e.halt + 2 * b2n e.redacted) ++ leBytes 3 0 ++ leBytes 8 e.time.toNat
    ++ leBytes 8 e.detail.toNat

/-- The step a record or completion carries: the counter, or all ones when no job runs (R354, R406). -/
def State.stepOrNone (s : State) : BitVec 48 := if s.jobRuns then s.seq.step else 0xFFFFFFFFFFFF

/-- The event record of R406 for an event raised now. -/
def State.eventRec (s : State) (code : Nat) (unit : Half) (ident qty : Nat) (halts : Bool) : EventRec where
  code := BitVec.ofNat 16 code
  unit := unit
  step := s.stepOrNone
  module := s.active.moduleId
  halt := halts && s.jobRuns
  redacted := s.confidential
  time := s.clk.time
  detail := if s.confidential then 0 else BitVec.ofNat 64 (ident % 65536 + qty % 2 ^ 48 * 65536)
  entered := decide (0 < s.telemetryRoom)

/-- Place an event record in the buffer of the 256 newest, counting one that leaves without having entered
the telemetry ring (R407, R409). -/
def EventState.push (e : EventState) (r : EventRec) : EventState :=
  let all := e.buffer ++ [r]
  let gone := all.take (all.length - 256)
  { e with
    buffer := all.drop (all.length - 256)
    seq := e.seq + 1
    lost := satAdd e.lost (gone.countP (fun g => !g.entered))
    fault := e.fault || r.halt }

/-- Raise an event (R406, R407). -/
def State.raise (s : State) (code : Nat) (unit : Half := 0) (ident : Nat := 0) (qty : Nat := 0)
    (halts : Bool := false) : State :=
  let r := s.eventRec code unit ident qty halts
  let s1 : State := { s with events := s.events.push r }
  if r.entered then s1.acceptRecord 3 r.encode else s1

/-- Raise an event at most once per step for a mark (R153, R335, R353 and others). While the job is IDLE no step runs: the time from one
GO tick to the next is one step here (DESIGN CHOICE, log 49). -/
def State.raiseOnce (s : State) (mark : Nat) (code : Nat) (unit : Half := 0) (ident : Nat := 0)
    (qty : Nat := 0) (halts : Bool := false) : State :=
  if s.events.once.contains (code, mark) then s
  else
    let s1 := s.raise code unit ident qty halts
    { s1 with events.once := (code, mark) :: s1.events.once }

/-! ## Halting -/

/-- The job halts at the next tick, when a job runs. -/
def State.haltNext (s : State) : State := { s with seq.haltPending := s.seq.haltPending || s.jobRuns }

/-- Raise an event that halts the job at the next tick. -/
def State.raiseHalt (s : State) (code : Nat) (unit : Half := 0) (ident : Nat := 0) (qty : Nat := 0) : State :=
  (s.raise code unit ident qty true).haltNext

/-! ## The access log (R464) -/

/-- The reasons of R464. -/
inductive LogReason where
  | width
  | locked
  | key
  | busy
  | range
  | state
  | reserved
  | denied
  | cmd
  deriving DecidableEq, Repr

/-- REASON of R464. -/
def LogReason.code : LogReason → BitVec 4
  | .width => 1
  | .locked => 2
  | .key => 3
  | .busy => 4
  | .range => 5
  | .state => 6
  | .reserved => 7
  | .denied => 8
  | .cmd => 9

/-- Log an access (R464). `source` is the port, or 7 for an internal one. -/
def State.log (s : State) (offset : Nat) (source : Nat) (r : LogReason) : State :=
  { s with
    setup.logOffset := BitVec.ofNat 20 offset
    setup.logReason := r.code
    setup.logSource := BitVec.ofNat 3 source
    setup.logCount := satAdd s.setup.logCount 1 }

/-- Begin a long setup operation: BUSY, OP, and the guard re-armed (R465, R471). -/
def State.startOp (s : State) (op : Nat) : State :=
  { s with setup.op := BitVec.ofNat 3 op, setup.armed := true }

/-- End the long setup operation of a number, if it is the one that runs. -/
def State.endOp (s : State) (op : Nat) : State :=
  if s.setup.op = BitVec.ofNat 3 op then { s with setup.op := 0 } else s

/-- A setup command of R472 ends with a code, 0 for success. -/
def State.endCmd (s : State) (code : Nat) : State :=
  { s with setup.cmdRunning := 0, setup.resultCode := BitVec.ofNat 16 code, setup.resultDone := true }

/-! ## The unit ledger (R391 to R394) -/

/-- A unit's ledger entry. -/
def State.unit (s : State) (u : Half) : LedgerEntry := NMap.getD s.rel.ledger u.toNat {}
/-- Change a unit's ledger entry. -/
def State.setUnit (s : State) (u : Half) (f : LedgerEntry → LedgerEntry) : State :=
  { s with rel.ledger := NMap.modify s.rel.ledger u.toNat {} f }

/-- The lifetime step as the ledger holds it. -/
def State.lifeStep (s : State) : BitVec 48 := BitVec.ofNat 48 s.rel.lifeSteps.toNat

/-- A counted fault entered in a ledger entry at lifetime step t (R392). A unit already PERMANENT or
RETIRED stays so (R394). -/
def LedgerEntry.count (e : LedgerEntry) (t : BitVec 48) : LedgerEntry :=
  let e := { e with counted := satAdd e.counted 1 }
  if e.state = 2 ∨ e.state = 3 then e
  else if e.f1 ≠ 0 ∧ t.toNat - e.f1.toNat < 1000000 then { e with state := 2, perm := t }
  else { e with f1 := e.f2, f2 := t, state := 1 }

/-- A counted fault of a unit (R391, R392): at most one per unit per job step; UNIT_FAULT for each one
recorded, and UNIT_PERMANENT when it makes the unit permanent. -/
def State.countedFault (s : State) (u : Half) : State :=
  let e := s.unit u
  if s.jobRuns ∧ e.countedIn = some s.seq.step then s
  else
    let e' := e.count s.lifeStep
    let s1 := (s.setUnit u (fun _ => { e' with countedIn := if s.jobRuns then some s.seq.step else none })).raise 0x7201 u
    if e'.state = 2 ∧ e.state ≠ 2 then s1.raise 0x7202 u else s1

/-- A logged occurrence of a unit (R391). -/
def State.logged (s : State) (u : Half) : State :=
  s.setUnit u (fun e => { e with logged := satAdd e.logged 1 })

/-- A unit made permanent at once (R391: CH_DOWN). -/
def State.permanentNow (s : State) (u : Half) : State :=
  s.setUnit u (fun e => if e.state = 3 then e else { e with state := 2, perm := s.lifeStep })

/-- Whether a unit is unavailable under R39: PERMANENT or RETIRED. -/
def State.unavailable (s : State) (u : Half) : Bool := (s.unit u).state == 2 || (s.unit u).state == 3

/-- Whether a line is available (R39): none of its stages, its tile's exchange stage, its tile store or the
tile itself is unavailable. -/
def State.lineAvailable (s : State) (tile line : Nat) : Bool :=
  !(s.unavailable (unitTile tile) || s.unavailable (unitExchange tile) || s.unavailable (unitTileStore tile)
    || (List.range 10).any (fun k => s.unavailable (unitStage tile line (k + 1))))

/-- Whether a tile's exchange stage and tile store may have work (R39). -/
def State.tileAvailable (s : State) (tile : Nat) : Bool :=
  !(s.unavailable (unitTile tile) || s.unavailable (unitExchange tile) || s.unavailable (unitTileStore tile))

/-! ## Excess and evaluation of the time promise -/

/-- The module declares an excess for the current step (R67): it goes up the tree, the step record carries
it, and the coming tick is HOLD (R68). -/
def State.declareExcess (s : State) : State :=
  ({ s with seq.excess := true, seq.ownExcess := true, seq.excessSpent := false } : State).upTree .excess (leBytes 6 s.seq.step.toNat)

/-- Some cause suspends the time promise (R63). -/
def VoidCauses.any (v : VoidCauses) : Bool := v.stack || v.coolant || v.vin || v.clamp

/-- Set causes of SPEC_VOID; the event is raised when the promise was in force (R63, R327, R436, R446). -/
def State.voidPromise (s : State) (f : VoidCauses → VoidCauses) : State :=
  let v := f s.seq.void
  let s1 : State := { s with seq.void := v, seq.stats.voided := s.seq.stats.voided || v.any }
  if v.any && !s.seq.void.any then s1.raise 0x9010 else s1

/-! ## The free value -/

/-- The next free value and the state that has drawn it (log 4). -/
def State.free (s : State) : Word × State := (Config.freeWord s.fresh, { s with fresh := s.fresh + 1 })

/-- The next output of the random bit generator (R416; log 5). -/
def State.random (s : State) : BitVec 256 × State :=
  (Config.randomBits s.sec.draws, { s with sec.draws := s.sec.draws + 1 })

end Sys2Proof.Machine
end

