-- ==== Sys2Proof/Machine/Hbm.lean ====
section
/-! DEFINITION. HBM and the tile stores as the stages see them: the interleave (R304, R305), block
coordinates (R309), block reads with their retries (R311), writes verified at once (R312, R313), and the tile
stores with their side array (R28, R376). -/

namespace Sys2Proof.Machine

/-! ## The interleave -/

/-- The excluded channels of the active set, each once (R307, R329). -/
def State.excluded (s : State) : List Nat :=
  ((s.active.excl.filter (fun e => bit 9 e.2.toNat)).map (fun e => bits 8 0 e.2.toNat)).eraseDups

/-- Channels in the interleave, C (R304). -/
def State.channelCount (s : State) : Nat := 384 - s.excluded.length

/-- The global channel at an interleave slot (R305). -/
def slotChannel (slot : Nat) : Nat := 32 * (slot % 12) + slot / 12

/-- The interleave order of the channels that remain, L (R305). -/
def State.interleave (s : State) : List Nat :=
  ((List.range 384).map slotChannel).filter (fun c => !s.excluded.contains c)

/-- Data granules of a channel (R302). -/
def granules : Nat := 3784170

/-- Where block b lies: its channel and its data granule there (R305). -/
def State.place (s : State) (b : Nat) : Nat × Nat :=
  (s.interleave.getD (b % s.channelCount) 0, b / s.channelCount)

/-- The byte of the channel where a granule's unit starts (R302, R305). -/
def granuleByte (g : Nat) : Nat := 16384 * (g / 31) + 528 * (g % 31)

/-- The key of a granule in the model's HBM. -/
def granuleKey (place : Nat × Nat) : Nat := place.1 * granules + place.2

/-- The channel byte address of block b, which the block events name (R406). -/
def State.channelByte (s : State) (b : Nat) : Nat := granuleByte (s.place b).2

/-- Blocks of the usable space (R304). -/
def State.blockCount (s : State) : Nat := s.channelCount * granules

/-- COORD of block b (R309). -/
def State.coord (s : State) (b : Nat) : Long :=
  BitVec.ofNat 64 (b % 2 ^ 40 + s.mem.epoch.toNat * 2 ^ 48)

/-- A channel. -/
def State.channel (s : State) (c : Nat) : Channel := NMap.getD s.mem.channels c {}
/-- Change a channel. -/
def State.setChannel (s : State) (c : Nat) (f : Channel → Channel) : State :=
  { s with mem.channels := NMap.modify s.mem.channels c {} f }
/-- A stack with its memory port die. -/
def State.stack (s : State) (k : Nat) : Stack := NMap.getD s.mem.stackRecs k {}
/-- Change a stack. -/
def State.setStack (s : State) (k : Nat) (f : Stack → Stack) : State :=
  { s with mem.stackRecs := NMap.modify s.mem.stackRecs k {} f }

/-! ## Reading a block -/

/-- What a memory port delivers for a block: its data and tag word, or the block marked failed. -/
structure BlockRead where
  ok : Bool
  data : Bytes
  tag : Word
  deriving DecidableEq, Repr

/-- The COMMITTED entry of a port's write buffer for a block (R316). -/
def Stack.committed (k : Stack) (b : Nat) : Option (Bytes × Word) :=
  k.buffer.foldl (fun acc e =>
    match e.2 with
    | .committed blk d t _ => if blk = b then some (d, t) else acc
    | _ => acc) none

/-- The contents of block b when its unit verifies (R32, R309, R310): it was written at this coordinate under
the keys in force. A COMMITTED entry is served from the buffer (R316). A unit written by the last secure erase is a block of
zeros (R473); an unwritten unit fails (log 7). -/
def State.blockAt (s : State) (b : Nat) : Option (Bytes × Word) :=
  let pl := s.place b
  match (s.stack (pl.1 / 32)).committed b with
  | some x => some x
  | none =>
    if (s.channel pl.1).down then none
    else
      match NMap.find? s.mem.units (granuleKey pl) with
      | some u =>
        if u.coord = s.coord b ∧ u.keyGen = s.mem.keyGen then
          some (Memory.readBytes s.mem.hbm (granuleKey pl * 512) 512, u.tag)
        else none
      | none => if s.mem.zeroed = some (s.mem.keyGen, s.mem.epoch) then some (List.replicate 512 0, 0) else none

/-- A block failed its three reads (R311). -/
def State.blockBad (s : State) (b : Nat) : State :=
  let ch := (s.place b).1
  let s1 : State := { s with mem.blockErr := satAdd s.mem.blockErr 1 }
  (s1.countedFault (unitChannel ch)).raise 0x4101 (unitChannel ch) 0 (s.channelByte b)

/-- Read block b, of which the hardware failed the first `failed` reads (R311). -/
def State.readBlock (s : State) (b : Nat) (failed : Nat) : State × BlockRead :=
  match s.blockAt b with
  | some x =>
    let s1 : State := { s with seq.stats.hbmBytes := s.seq.stats.hbmBytes + 512 }
    if failed = 0 then (s1, ⟨true, x.1, x.2⟩)
    else if failed < 3 then (s1.countedFault (unitChannel (s.place b).1), ⟨true, x.1, x.2⟩)
    else (s1.blockBad b, ⟨false, [], 0⟩)
  | none => (s.blockBad b, ⟨false, [], 0⟩)

/-- Read a record of up to 512 bytes inside one block; none when the block is marked failed. -/
def State.readRecord (s : State) (addr len : Nat) (failed : Nat) : State × Option Bytes :=
  let r := s.readBlock (addr / 512) failed
  (r.1, if r.2.ok then some (slice r.2.data (addr % 512) len) else none)

/-- The bytes of a record as they stand, without counting anything: what a later read would deliver. -/
def State.peek (s : State) (addr len : Nat) : Option Bytes :=
  (s.blockAt (addr / 512)).map (fun x => slice x.1 (addr % 512) len)

/-! ## Writing a block -/

/-- Store a verified unit (R302, R312). -/
def State.putUnit (s : State) (b : Nat) (data : Bytes) (tag : Word) : State :=
  let key := granuleKey (s.place b)
  { s with
    mem.hbm := Memory.writeBytes s.mem.hbm (key * 512) (slice data 0 512)
    mem.units := NMap.insert s.mem.units key ⟨s.coord b, s.mem.keyGen, tag⟩
    seq.stats.hbmBytes := s.seq.stats.hbmBytes + 512 }

/-- The block that a record write builds (R314, R315): the old plaintext with the new bytes merged, or 0xFF
around them when the merge read failed three times. -/
def mergeBlock (old : Option Bytes) (off : Nat) (bytes : Bytes) : Bytes :=
  splice (match old with
    | some d => d
    | none => List.replicate 512 0xFF) off bytes

/-- The tag word of a block after a write that belongs to no YS8 stream: KIND and STREAM are zero (R101). -/
def plainTag (old : Word) : Word := if bits 31 28 old.toNat = 0 then old else 0

/-- A write of bytes inside one block that the port carries out and verifies at once. A whole-block write
skips the merge read. Answers whether it was verified; a write to a channel that is down is not. -/
def State.writeVerified (s : State) (addr : Nat) (bytes : Bytes) (tag : Option Word) : State × Bool :=
  let b := addr / 512
  let ch := (s.place b).1
  let old := s.blockAt b
  if (s.channel ch).down then (s.raise 0x4104 (unitChannel ch) 0 (s.channelByte b), false)
  else
    let keep := plainTag ((old.map (·.2)).getD 0)
    let data := mergeBlock (old.map (·.1)) (addr % 512) bytes
    let s1 := if old.isNone && decide (bytes.length < 512) then (s.blockBad b).raise 0x4102 (unitChannel ch) 0 (s.channelByte b) else s
    (s1.putUnit b data (tag.getD keep), true)

/-- A write longer than a block, split at 512-byte boundaries (R306). -/
def State.writeRange : Nat → State → Nat → Bytes → State
  | 0, s, _, _ => s
  | fuel + 1, s, addr, bytes =>
    match bytes with
    | [] => s
    | _ =>
      let n := 512 - addr % 512
      State.writeRange fuel (s.writeVerified addr (bytes.take n) none).1 (addr + n) (bytes.drop n)

/-! ## The write buffers (R314 to R316) -/

/-- The 64 entries of a port's write buffer as (number, entry). -/
def Stack.entries (k : Stack) : List (Nat × WriteEntry) :=
  (List.range 64).map (fun e => (e, NMap.getD k.buffer e .free))

/-- The first FREE entry of a write buffer. -/
def Stack.freeEntry (k : Stack) : Option Nat := (k.entries.find? (fun e => e.2 == .free)).map (·.1)

/-- Whether a write to block b is in progress at its port (R316). -/
def Stack.busyBlock (k : Stack) (b : Nat) : Bool :=
  k.entries.any (fun e =>
    match e.2 with
    | .free => false
    | .built blk _ _ _ => blk == b
    | .committed blk _ _ _ => blk == b)

/-- Take a write into the write buffer: merge it into the old block, or with 0xFF where the merge read fails
three times (R315), and mark the entry COMMITTED (R314). None when it must wait. -/
def State.enterWrite (s : State) (w : WaitingWrite) : Option State :=
  let b := w.addr / 512
  let ch := (s.place b).1
  let k := ch / 32
  if (s.stack k).busyBlock b then none
  else
    match (s.stack k).freeEntry with
    | none => none
    | some e =>
      let old := if w.mergeFails then none else s.blockAt b
      let whole := decide (512 ≤ w.bytes.length)
      let data := if whole then w.bytes else mergeBlock (old.map (·.1)) (w.addr % 512) w.bytes
      let s1 := if old.isNone && !whole then (s.blockBad b).raise 0x4102 (unitChannel ch) 0 (s.channelByte b) else s
      some (s1.setStack k (fun st =>
        let entry := WriteEntry.committed b data (w.tag.getD (plainTag ((old.map (·.2)).getD 0))) w.src
        { st with buffer := NMap.insert st.buffer e entry }))

/-- A write arrives at its memory port (R314, R316). -/
def State.portWrite (s : State) (w : WaitingWrite) : State :=
  match s.enterWrite w with
  | some t => t
  | none => { s with mem.waiting := s.mem.waiting ++ [w] }

/-- After an entry frees, the waiting writes are tried again in their order of arrival (R316). -/
def State.retryWaiting (s : State) : State :=
  s.mem.waiting.foldl State.portWrite { s with mem.waiting := [] }

/-- The source number of a churn's write of record i: line number and record (R203, R207). -/
def churnSource (line i : Nat) : Nat := (line + 1) * 2 ^ 40 + i
/-- The source number of the retag of record i (R208). -/
def retagSource (line i : Nat) : Nat := churnSource line i + 2 ^ 38
/-- The source number of part n, 0 or 1, of the working copy of record i (R204). -/
def copySource (line i n : Nat) : Nat := churnSource line i + 2 ^ 39 + n * 2 ^ 38

/-- The source number of append write k of a step (R226), past those of the 64 lines. -/
def appendSource (k : Nat) : Nat := 65 * 2 ^ 40 + k

/-! ## The tile stores -/

/-- Bytes of a tile store (R28). -/
def tileBytes : Nat := 268435456

/-- Where a byte of a tile store stands in the model's one map of all 32. -/
def tileAddr (tile addr : Nat) : Nat := tile * tileBytes + addr

/-- Whether a range lies inside a tile store. -/
def tileRange (addr len : Nat) : Bool := decide (addr + len ≤ tileBytes)

/-- Bytes of a tile store. -/
def State.tileRead (s : State) (tile addr len : Nat) : Bytes :=
  Memory.readBytes s.mem.tiles (tileAddr tile addr) len

/-- The tags that a write of n bytes from an address leaves: a block that it touches carries none until its stage sets one (R101). -/
def clearTags (m : NMap Word) (a n : Nat) : NMap Word :=
  m.filter (fun e => n == 0 || decide (512 * e.1 + 512 ≤ a) || decide (a + n ≤ 512 * e.1))

/-- Write bytes of a tile store. -/
def State.tileWrite (s : State) (tile addr : Nat) (bytes : Bytes) : State :=
  { s with
    mem.tiles := Memory.writeBytes s.mem.tiles (tileAddr tile addr) bytes
    mem.tileTags := clearTags s.mem.tileTags (tileAddr tile addr) bytes.length }

/-- The tag word of a tile store block in the side array (R376). -/
def State.tileTag (s : State) (tile addr : Nat) : Word :=
  NMap.getD s.mem.tileTags (tileAddr tile addr / 512) 0

/-- Set the tag word of a tile store block. -/
def State.setTileTag (s : State) (tile addr : Nat) (tag : Word) : State :=
  { s with mem.tileTags := NMap.insert s.mem.tileTags (tileAddr tile addr / 512) tag }

/-- Little-endian elements of w bytes from a byte string. -/
def elements (w : Nat) : Nat → Bytes → List Nat
  | 0, _ => []
  | n + 1, bs => leNat (bs.take w) :: elements w n (bs.drop w)

/-- The byte string of elements of w bytes each. -/
def elementBytes (w : Nat) (xs : List Nat) : Bytes := (xs.map (leBytes w)).flatten

end Sys2Proof.Machine
end

