-- ==== Sys2Proof/Machine/TableOps.lean ====
section
/-! DEFINITION. Where records lie: segments, record sizes and regions of tables (R143 to R146), dense records
(R178, R179), the versions held and their bindings (R148, R168). -/

namespace Sys2Proof.Machine

/-! ## Segments (R145) and record sizes (R146) -/

/-- SMAX of R145 for a CODE and a LAYOUT. -/
def segMax (code layout : Nat) : Nat :=
  if layout = 0 then (if code = 0 then 496 else 992) else (if code = 0 then 240 else 320)
/-- SEG_DIM. -/
def segDim (code layout dim : Nat) : Nat := min dim (segMax code layout)
/-- G, segments of a row. -/
def segCount (code layout dim : Nat) : Nat := ceilDiv dim (segDim code layout dim)
/-- Elements of segment g. -/
def segElems (code layout dim g : Nat) : Nat :=
  min dim ((g + 1) * segDim code layout dim) - g * segDim code layout dim
/-- Bytes of n codes (R90). -/
def codeLen (code n : Nat) : Nat := if code = 0 then n else ceilDiv n 2
/-- RS, the record size of a table (R146). -/
def recordSize (code layout dim : Nat) : Nat :=
  let n := segDim code layout dim
  roundUp (16 + codeLen code n + (if layout = 1 then n else 0)) 32
/-- K, records of a check block. -/
def perBlock (rs : Nat) : Nat := 512 / rs

/-- RS of a version. -/
def TableVer.rs (t : TableVer) : Nat := recordSize t.code t.layout t.dim
/-- G of a version. -/
def TableVer.segs (t : TableVer) : Nat := segCount t.code t.layout t.dim
/-- Bits of a code, 8 or 4. -/
def TableVer.codeBits (t : TableVer) : Nat := if t.code = 0 then 8 else 4

/-- The shard range that holds a row (R140), with its index. -/
def TableVer.rangeOf (t : TableVer) (row : Nat) : Option (Nat × ShardRange) :=
  (t.ranges.zipIdx.find? (fun r => decide (r.1.first ≤ row ∧ row < r.1.last))).map (fun r => (r.2, r.1))

/-- The owner of a row (R142). -/
def TableVer.ownerOf (t : TableVer) (row : Nat) : Option Nat := (t.rangeOf row).map (fun r => r.2.owner)

/-- The record number of a row's segment in its range's region (R146). -/
def TableVer.recordNo (t : TableVer) (row g : Nat) : Nat :=
  match t.rangeOf row with
  | some r => (row - r.2.first) * t.segs + g
  | none => 0

/-- The byte offset of record n in a region of records of rs bytes (R146, R179). -/
def recordOffset (rs n : Nat) : Nat := n / perBlock rs * 512 + n % perBlock rs * rs

/-- Record n of `total` with the zeros that fill its check block when it is the block's last (R146, R179). -/
def recordTail (rs total n : Nat) (bytes : Bytes) : Bytes :=
  if n % perBlock rs + 1 = perBlock rs ∨ n + 1 = total then padTo (512 - n % perBlock rs * rs) bytes else bytes

/-- The HBM address of a row's segment record on its owner (R146). -/
def TableVer.recordAddr (t : TableVer) (row g : Nat) : Nat :=
  match t.rangeOf row with
  | some r => NMap.getD t.bases r.1 0 + recordOffset t.rs (t.recordNo row g)
  | none => 0

/-- Bytes of a range's region. -/
def TableVer.regionBytes (t : TableVer) (r : ShardRange) : Nat :=
  ceilDiv ((r.last - r.first) * t.segs) (perBlock t.rs) * 512

/-- The default row's segment record (R139, R146). -/
def TableVer.defaultRecord (t : TableVer) (g : Nat) : Bytes :=
  slice t.defaults (recordOffset t.rs g) t.rs

/-! ## Fields of a segment record (R143, R144) -/

/-- The elements of a segment record as row codes. -/
def recordCodes (t : TableVer) (g : Nat) (rec : Bytes) : List Nat :=
  let n := segElems t.code t.layout t.dim g
  if t.code = 0 then elements 1 n (rec.drop 16)
  else (List.range n).map (fun i => if i % 2 = 0 then field rec (16 + i / 2) 1 % 16 else field rec (16 + i / 2) 1 / 16)

/-- Whether a segment record is poisoned (R99): POISON is set or its SCALE is a NaN. -/
def recordPoisoned (rec : Bytes) : Bool :=
  bit 1 (field rec 10 2) || (bits 14 7 (field rec 0 2) == 255 && bits 6 0 (field rec 0 2) != 0)

/-! ## Versions held (R148, R168) -/

/-- The current version of a table. -/
def State.currentTable (s : State) (id : Nat) : Option TableVer :=
  s.emb.tables.find? (fun t => t.id == id && t.current)
/-- The staged version of a table. -/
def State.stagedTable (s : State) (id : Nat) : Option TableVer :=
  s.emb.tables.find? (fun t => t.id == id && t.staged)
/-- The version of a table that a number names. -/
def State.tableVersion (s : State) (id version : Nat) : Option TableVer :=
  s.emb.tables.find? (fun t => t.id == id && t.version == version)
/-- The version held of a table: the current one, else any descriptor held. -/
def State.anyTable (s : State) (id : Nat) : Option TableVer :=
  match s.currentTable id with
  | some t => some t
  | none => s.emb.tables.find? (fun t => t.id == id)

/-- Change every held version that a test selects. -/
def State.mapTables (s : State) (p : TableVer → Bool) (f : TableVer → TableVer) : State :=
  { s with emb.tables := s.emb.tables.map (fun t => if p t then f t else t) }

/-- The identifiers of tables held, ascending, each once. -/
def State.tableIds (s : State) : List Nat := ((s.emb.tables.map (·.id)).mergeSort (· ≤ ·)).eraseDups

/-- Whether every record that this module owns of a version has LOADED = 1 (R149). -/
def State.tableComplete (s : State) (t : TableVer) : Bool :=
  t.ranges.zipIdx.all (fun r => r.1.owner != s.me ||
    (List.range ((r.1.last - r.1.first) * t.segs)).all (fun n =>
      match s.peek (NMap.getD t.bases r.2 0 + recordOffset t.rs n) t.rs with
      | some rec => bit 0 (field rec 10 2)
      | none => false))

/-- The regions that the plan's memory layout gives a table's ranges (R146). -/
def State.layoutRanges (s : State) (id : Nat) : List RangePlace :=
  (s.plan.map (fun p => p.layout.ranges.filter (fun r => r.table == id))).getD []

/-- The layout gives a range that the module owns no region, or one that does not hold it, so a row load fails (R146; DESIGN CHOICE
for the second, log 43). -/
def State.regionMissing (s : State) (t : TableVer) : Bool :=
  t.ranges.zipIdx.any (fun r => r.1.owner == s.me && !(s.layoutRanges t.id).any (fun p => p.range == r.2 && decide (t.regionBytes r.1 ≤ p.size)))

/-- Region bases of a table's ranges from the plan's memory layout (R146). -/
def State.layoutBases (s : State) (id : Nat) : NMap Nat :=
  match s.plan with
  | some p => (p.layout.ranges.filter (fun r => r.table == id)).foldl (fun m r => NMap.insert m r.range r.base) []
  | none => []

/-- The home tile of an owned range (R174). -/
def State.homeTile (s : State) (id range : Nat) : Option Nat :=
  match s.plan with
  | some p => (p.layout.ranges.find? (fun r => r.table == id && r.range == range)).map (fun r => r.home.val)
  | none => none

/-! ## Dense records (R178, R179) -/

/-- Bytes of a dense record with that many planes. -/
def denseSize (planes : Nat) : Nat := 32 + 64 * planes

/-- A dense tensor of the plan's layout. -/
def State.dense (s : State) (id : Nat) : Option DenseTensor :=
  match s.plan with
  | some p => p.layout.dense.find? (fun d => d.id == id)
  | none => none

/-- The HBM address of a dense record (R179). -/
def denseAddr (d : DenseTensor) (block : Nat) : Nat := d.base + recordOffset (denseSize d.planes) block

/-- The YB16 block of plane p of a dense record (R178). -/
def densePlane (rec : Bytes) (p : Nat) : Yb16 :=
  ⟨field rec p 1, elements 2 32 (rec.drop (32 + 64 * p))⟩

end Sys2Proof.Machine
end

