-- ==== Sys2Proof/Machine/ExportOps.lean ====
section
/-! DEFINITION. The export stream's items and log: what an item is (R396, R401), how it is appended to the
export log as phase 7 writes it (R397), and how the stream breaks (R403). -/

namespace Sys2Proof.Machine

/-- The bytes of an item: its 32-byte header and its payload padded to 16 bytes (R401). -/
def ExportItem.encode (i : ExportItem) : Bytes :=
  let h := leBytes 1 i.kind ++ leBytes 1 (b2n i.failed) ++ leBytes 2 i.id ++ leBytes 2 i.payload.length
    ++ leBytes 1 i.part ++ leBytes 1 i.layer ++ leBytes 8 i.index ++ leBytes 4 i.user ++ leBytes 4 i.sub
  h ++ leBytes 4 (crc32c (h ++ i.payload)) ++ leBytes 4 0 ++ padTo (roundUp i.payload.length 16) i.payload

/-- Bytes an item takes in an entry or in the log. -/
def ExportItem.size (i : ExportItem) : Nat := 32 + roundUp i.payload.length 16

/-- INDEX of a table segment item (R401). -/
def rowIndex (row g : Nat) : Nat := row % 2 ^ 40 + g % 8 * 2 ^ 40

/-- Append an item that phase 7 has verified to the export log, while the stream logs (R397). -/
def State.logItem (s : State) (i : ExportItem) : State :=
  if s.rel.exp.logging then
    { s with rel.exp := { s.rel.exp with
        log := s.rel.exp.log ++ [(s.seq.step, i)]
        logUsed := s.rel.exp.logUsed + i.size
        stepItems := NMap.modify s.rel.exp.stepItems s.seq.step.toNat 0 (· + 1) } }
  else s

/-- The bytes of the export log region, and the most bytes of delta items a step can produce (R397). -/
def State.exportLog (s : State) : Option (Nat × Nat) := s.plan.bind (·.layout.exportLog)

/-- A descriptor that waits on the stream finishes with a status. -/
def State.finishWaiter (s : State) (status : Half) (w : Nat × Nat) : State :=
  s.setQueue w.1 (fun x => { x with descs := x.descs.map (fun d =>
    if d.pos = w.2 then { d with stage := .finished, status := status } else d) })

/-- The stream breaks (R403): EXPORT_BROKEN, logging stops, and the log is discarded. A STOP that waits is done; an arm
that waits ends with EXPORT_BROKEN (log 6). -/
def State.breakExport (s : State) : State :=
  if s.rel.exp.mode = .base ∨ s.rel.exp.mode = .delta ∨ s.rel.exp.armPending then
    let s1 := s.rel.exp.stopWaiters.foldl (fun (st : State) w => st.finishWaiter 0 w) s
    let s2 := (match s.rel.exp.armWaiter with
      | some w => s1.finishWaiter 0x7403 w
      | none => s1)
    ({ s2 with rel.exp := { s2.rel.exp with
        mode := .broken, waiting := false, armPending := false, logging := false, stopAfter := none
        stopWaiters := [], armWaiter := none
        log := [], logUsed := 0, stepItems := [], openSteps := [], base := [] } } : State).raise 0x7403
  else s

end Sys2Proof.Machine
end

