-- ==== Sys2Proof/Machine/Functions.lean ====
section
/-! DEFINITION. The functions of R134: the exact value to 320 binary places, rounded once, and from it a result within the
error that the rule allows; which of those results the device gives is open (log 5). -/

namespace Sys2Proof.Machine

/-! ## Fixed point: an integer stands for itself times 2^−320 -/

/-- 1 in fixed point. -/
def fxOne : Int := 2 ^ 320
/-- A product in fixed point. -/
def fxMul (a b : Int) : Int := a * b / fxOne
/-- A quotient in fixed point. -/
def fxDiv (a b : Int) : Int := a * fxOne / b

/-- Terms t^n / n! of the exponential from one of them on. -/
def expTerms (t : Int) : Nat → Nat → Int → Int
  | 0, _, _ => 0
  | k + 1, n, term => term + expTerms t k (n + 1) (fxMul term t / (n + 1))

/-- e^t for t from 0 to 1. -/
def fxExp (t : Int) : Int := expTerms t 100 0 fxOne

/-- Terms z^(2n+1) / (2n+1), each times `sign` to the n, from one of them on; `z2` is z². -/
def oddTerms (sign z2 : Int) : Nat → Nat → Int → Int
  | 0, _, _ => 0
  | k + 1, n, p => p / (2 * n + 1) + oddTerms sign z2 k (n + 1) (sign * fxMul p z2)

/-- atanh z for z from 0 to 1/3. -/
def fxAtanh (z : Int) : Int := oddTerms 1 (fxMul z z) 110 0 z
/-- atan z for z up to 1/5. -/
def fxAtan (z : Int) : Int := oddTerms (-1) (fxMul z z) 110 0 z

/-- ln 2 = 2 atanh (1/3). -/
def fxLn2 : Int := 2 * fxAtanh (fxOne / 3)
/-- π by Machin's formula. -/
def fxPi : Int := 16 * fxAtan (fxOne / 5) - 4 * fxAtan (fxOne / 239)
/-- 2 / √π. -/
def fxErfScale : Int := fxDiv (2 * fxOne) (isqrt (fxPi * fxOne).toNat)

/-- Terms (−1)^n x^(2n+1) / (n! (2n+1)) of the error function from one of them on; `x2` is x². -/
def erfTerms (x2 : Int) : Nat → Nat → Int → Int
  | 0, _, _ => 0
  | k + 1, n, p => p / (2 * n + 1) + erfTerms x2 k (n + 1) (-(fxMul p x2) / (n + 1))

/-- A binary32 magnitude in fixed point, held at a limit beyond which the function rounds as at the limit. -/
def fxOf (m : Nat) (e : Int) (limit : Nat) : Int :=
  if decide (10 ≤ (⟨m, 1, e⟩ : Mag).log2) ∧ m ≠ 0 then limit * fxOne else min (m * 2 ^ (e + 320).toNat : Nat) (limit * fxOne)

/-! ## The exact values -/

/-- 2^y × 2^(t / ln 2 − y) as a magnitude: e to the fixed-point power x. -/
def expMag (x : Int) : Mag :=
  let k := x / fxLn2
  ⟨(fxExp (x - k * fxLn2)).toNat, 1, k - 320⟩

/-- 2 to the fixed-point power x. -/
def exp2Mag (x : Int) : Mag :=
  let k := x / fxOne
  ⟨(fxExp (fxMul (x - k * fxOne) fxLn2)).toNat, 1, k - 320⟩

/-- ln (m × 2^e) in fixed point, for m above zero. -/
def fxLog (m : Nat) (e : Int) : Int :=
  let k := m.log2
  let z := fxDiv ((m : Int) - 2 ^ k) ((m : Int) + 2 ^ k)
  2 * fxAtanh z + ((k : Int) + e) * fxLn2

/-- A fixed-point value as a sign and a magnitude. -/
def fxValue (v : Int) : Bool × Mag := (decide (v < 0), ⟨v.natAbs, 1, -320⟩)

/-- The value of a function on a finite argument that R134 lists no special result for, whether that value is exact, and the
error allowed in units in the last place. -/
structure FnValue where
  neg : Bool
  mag : Mag
  exact : Bool := false
  ulps : Nat
  deriving DecidableEq, Repr

/-- The value and the error of R134 for an argument (−1)^s × m × 2^e. -/
def fnValue (f : VecFn) (s : Bool) (m : Nat) (e : Int) : FnValue :=
  let signed := fun (limit : Nat) => (if s then -(fxOf m e limit) else fxOf m e limit)
  match f with
  | .exp2 => { neg := false, mag := exp2Mag (signed 400), exact := decide (signed 400 % fxOne = 0), ulps := 1 }
  | .exp => { neg := false, mag := expMag (signed 400), exact := decide (m = 0), ulps := 2 }
  | .log2 =>
    let v := fxValue (fxDiv (fxLog m e) fxLn2)
    { neg := v.1, mag := v.2, ulps := 1 }
  | .log =>
    let v := fxValue (fxLog m e)
    { neg := v.1, mag := v.2, ulps := 2 }
  | .tanh =>
    let p : Mag := expMag (2 * fxOf m e 64)
    let a : Int := p.num * 2 ^ (p.e + 320).toNat
    { neg := s, mag := ⟨(fxDiv (a - fxOne) (a + fxOne)).toNat, 1, -320⟩, ulps := 2 }
  | .sigmoid =>
    let p : Mag := expMag (-(signed 200))
    let a : Int := (⟨p.num, 1, p.e⟩ : Mag).roundAt .rz false (-320)
    { neg := false, mag := ⟨(fxDiv fxOne (fxOne + a)).toNat, 1, -320⟩, exact := decide (m = 0), ulps := 2 }
  | .erf =>
    let x := fxOf m e 6
    { neg := s, mag := ⟨(fxMul fxErfScale (erfTerms (fxMul x x) 300 0 x)).toNat, 1, -320⟩, ulps := 2 }

/-- A binary32 result within the error of the exactly rounded one, the one that `pick` selects, with overflow and underflow as
R83 has them of the result given. -/
def nearResult (v : FnValue) (pick : Nat) : Nat × Flags :=
  let q := max (v.mag.log2 - 23) binary32.quantum
  let n := v.mag.roundAt .rne v.neg q
  let k := n + pick % (2 * v.ulps + 1) - v.ulps
  let r := roundTo binary32 .rne true v.neg ⟨k, 1, q⟩
  let tiny := decide (r.1 % 2 ^ 31 < 2 ^ 23)
  (r.1, { overflow := r.2.overflow, underflow := tiny && !(v.exact && k == n && v.mag.exactAt q) })

/-- The number of a function among the free picks of log 5. -/
def vecFnIndex : VecFn → Nat
  | .exp2 => 0
  | .exp => 1
  | .log2 => 2
  | .log => 3
  | .tanh => 4
  | .sigmoid => 5
  | .erf => 6

/-- A function of R134 on an ordinary argument. -/
def fnOrdinary (f : VecFn) (w : Nat) (s : Bool) (m : Nat) (e : Int) : Nat × Flags :=
  nearResult (fnValue f s m e) (Config.functionPick (vecFnIndex f) (BitVec.ofNat 32 w))

/-- A function of R134 with its special inputs. -/
def vecFn (f : VecFn) (w : Nat) : Nat × Flags :=
  let signedOne := fun (s : Bool) => ((if s then 0xBF800000 else 0x3F800000 : Nat), ({} : Flags))
  match decodeNum binary32 w with
  | .nan s => (0x7FC00000, { invalid := s })
  | .inf s =>
    match f with
    | .exp2 => (if s then 0 else 0x7F800000, {})
    | .exp => (if s then 0 else 0x7F800000, {})
    | .log2 => if s then (0x7FC00000, { invalid := true }) else (0x7F800000, {})
    | .log => if s then (0x7FC00000, { invalid := true }) else (0x7F800000, {})
    | .tanh => signedOne s
    | .sigmoid => if s then (0, {}) else (0x3F800000, {})
    | .erf => signedOne s
  | .fin s m e =>
    let logs := if m = 0 then (0xFF800000, { divZero := true }) else if s then (0x7FC00000, { invalid := true }) else fnOrdinary f w s m e
    match f with
    | .exp2 => fnOrdinary f w s m e
    | .exp => fnOrdinary f w s m e
    | .log2 => logs
    | .log => logs
    | .tanh => if m = 0 then (w, {}) else fnOrdinary f w s m e
    | .sigmoid => fnOrdinary f w s m e
    | .erf => if m = 0 then (w, {}) else fnOrdinary f w s m e

end Sys2Proof.Machine
end

