-- ==== Sys2Proof/Machine/Accum.lean ====
section
/-! DEFINITION. The arithmetic of the matrix stages: operands and their split (R109, R111, R112), chunk sums
(R114 to R116), conversion into L160 and saturating addition (R117 to R119), JOIN (R127) and the readout of an
entry (R130). -/

namespace Sys2Proof.Machine

/-! ## Operands -/

/-- Bytes of an element of a matrix operand format (R109), none for a code that never reaches the array. -/
def matrixElemBytes (code : Nat) : Option Nat :=
  if code = 2 then some 4 else if code = 3 then some 2
  else if code = 4 ∨ code = 5 ∨ code = 10 then some 1 else none

/-- The exact value of an operand element; for YI8 activations the zero point is subtracted (R111). -/
def matrixElem (code z w : Nat) : Num :=
  match Fmt.ofCode code with
  | some f => decodeNum f w
  | none => Num.ofInt ((w : Int) - z)

/-- The two YF16 parts of an operand element (R112) and whether the split counts a saturation. -/
structure Parts where
  hi : Num
  lo : Num
  sat : Bool
  deriving DecidableEq, Repr

/-- The +0 that the low part is when nothing remains. -/
def plusZero : Num := .fin false 0 0

/-- The split of R112. An operand in YF16, an 8-bit format or YI8 is its own high part. -/
def splitElem (code z w : Nat) : Parts :=
  if code = 2 then
    let x := decodeNum binary32 w
    match x with
    | .nan _ => ⟨.nan false, plusZero, false⟩
    | .inf s => ⟨.inf s, plusZero, false⟩
    | .fin s _ _ =>
      let h := decodeNum yf16 (x.round yf16 .rne false).1
      match h with
      | .fin _ _ _ =>
        let d := (Num.add .rne x h.negate).1
        ⟨h, decodeNum yf16 (d.round yf16 .rne false).1, false⟩
      | _ => ⟨.inf s, plusZero, true⟩
  else ⟨matrixElem code z w, plusZero, false⟩

/-! ## Chunk sums (R115, R116) -/

/-- What a cell holds for one chunk: the register and the three flags. -/
structure Chunk where
  sum : Num := plusZero
  loaded : Bool := false
  nan : Bool := false
  pinf : Bool := false
  ninf : Bool := false
  deriving DecidableEq, Repr

/-- Round a finite value to a 24-bit significand by RNE (R115); an exact zero is +0. -/
def round24 (x : Num) : Num :=
  match x with
  | .fin s m e =>
    if m = 0 then plusZero
    else
      let g : Mag := ⟨m, 1, e⟩
      let q := g.log2 - 23
      .fin s (g.roundAt .rne s q) q
  | y => y

/-- One product into the chunk register (R115, R116). -/
def Chunk.take (c : Chunk) (a b : Num) : Chunk :=
  match (Num.mul a b).1 with
  | .nan _ => { c with nan := true }
  | .inf s => if s then { c with ninf := true } else { c with pinf := true }
  | .fin s m e =>
    if c.loaded then { c with sum := round24 (Num.add .rne c.sum (.fin s m e)).1 }
    else { c with sum := if m = 0 then plusZero else .fin s m e, loaded := true }

/-- The chunk sum of products in ascending index (R115). -/
def chunkSum (ps : List (Num × Num)) : Chunk := ps.foldl (fun c p => c.take p.1 p.2) {}

/-! ## L160 (R117 to R119) -/

/-- The bounds of an L160 integer. -/
def l160Max : Int := 2 ^ 159 - 1
/-- The least L160 integer. -/
def l160Min : Int := -2 ^ 159

/-- An integer brought into range, with whether it left it (R118). -/
def clamp160 (q : Int) : Int × Bool :=
  if l160Max < q then (l160Max, true) else if q < l160Min then (l160Min, true) else (q, false)

/-- The conversion of R118: the integer, whether it saturated, and whether a non-zero sum gave 0. -/
def convert160 (sum : Num) (adj : Int) (anchor : Int) : Int × Bool × Bool :=
  match sum with
  | .fin s m e =>
    let n := (⟨m, 1, e + adj + 96 - anchor⟩ : Mag).roundAt .rne s 0
    let q : Int := if s then -(n : Int) else n
    let r := clamp160 q
    (r.1, r.2, m != 0 && n == 0)
  | _ => (0, false, false)

/-- Saturating addition into an entry (R118). -/
def AccEntry.addInt (x : AccEntry) (q : Int) (ovf : Bool) : AccEntry :=
  let r := clamp160 (x.n.toInt + q)
  { x with n := BitVec.ofInt 160 r.1, ovf := x.ovf || ovf || r.2 }

/-- One chunk into an entry (R116, R118), with whether it lost the sum (R119). -/
def AccEntry.addChunk (x : AccEntry) (c : Chunk) (adj : Int) : AccEntry × Bool :=
  let q := convert160 c.sum adj x.anchor.toInt
  let y := x.addInt q.1 q.2.1
  ({ y with nan := y.nan || c.nan, pinf := y.pinf || c.pinf, ninf := y.ninf || c.ninf }, q.2.2)

/-- A slot initialised with an anchor (R121). -/
def Slot.init (anchor : BitVec 10) : Slot := { anchor := anchor }

/-- The entry an initialised slot holds (R121). -/
def Slot.blank (s : Slot) : AccEntry := { anchor := s.anchor }

/-- An entry of a slot. -/
def Slot.entry (s : Slot) (i : Nat) : AccEntry := NMap.getD s.entries i s.blank

/-- Put an entry into a slot; the slot's OVF is the OR of its entries' (R121). -/
def Slot.put (s : Slot) (i : Nat) (x : AccEntry) : Slot :=
  { s with entries := NMap.insert s.entries i x, ovf := s.ovf || x.ovf }

/-- One chunk into entry i of a slot, counted in CHUNKS and LOSS (R118, R119). -/
def Slot.addChunk (s : Slot) (i : Nat) (c : Chunk) (adj : Int) : Slot :=
  let r := (s.entry i).addChunk c adj
  let t := s.put i r.1
  { t with chunks := satAdd t.chunks 1, loss := satAdd t.loss (b2n r.2) }

/-! ## JOIN (R127) -/

/-- One entry of a stored tile added into an entry of the slot; whether their anchors differ. -/
def AccEntry.join (x y : AccEntry) : AccEntry × Bool :=
  if x.anchor = y.anchor then
    let z := x.addInt y.n.toInt y.ovf
    ({ z with nan := z.nan || y.nan, pinf := z.pinf || y.pinf, ninf := z.ninf || y.ninf }, false)
  else ({ x with nan := true }, true)

/-- The 24 bytes of an entry (R120). -/
def AccEntry.encode (x : AccEntry) : Bytes :=
  leBytes 20 x.n.toNat ++ leBytes 2 x.anchor.toNat
    ++ leBytes 2 (b2n x.ovf + 2 * b2n x.nan + 4 * b2n x.pinf + 8 * b2n x.ninf)

/-- The entry that 24 bytes spell (R120). -/
def AccEntry.decode (bs : Bytes) : AccEntry :=
  let f := field bs 22 2
  { n := BitVec.ofNat 160 (field bs 0 20), anchor := BitVec.ofNat 10 (field bs 20 2), ovf := bit 0 f, nan := bit 1 f
    pinf := bit 2 f, ninf := bit 3 f }

/-- The 16 bytes of a slot's status (R126). -/
def Slot.statusBytes (s : Slot) : Bytes :=
  leBytes 2 s.anchor.toNat ++ leBytes 2 (b2n s.ovf) ++ leBytes 4 s.loss.toNat ++ leBytes 4 s.chunks.toNat
    ++ leBytes 4 0

/-- The stored tile of a slot, 197,120 bytes (R126). -/
def Slot.stored (s : Slot) : Bytes :=
  ((List.range 8192).map (fun i => (s.entry i).encode)).flatten ++ padTo 512 s.statusBytes

/-- JOIN of the stored tile in a byte string into a slot (R127), with whether an anchor differed. -/
def Slot.joinBytes (s : Slot) (tile : Bytes) : Slot × Bool :=
  let r := (List.range 8192).foldl (fun (acc : Slot × Bool) i =>
    let j := (acc.1.entry i).join (AccEntry.decode (slice tile (24 * i) 24))
    (acc.1.put i j.1, acc.2 || j.2)) (s, false)
  let st := slice tile 196608 16
  ({ r.1 with
      ovf := r.1.ovf || bit 0 (field st 2 2)
      loss := satAdd r.1.loss (field st 4 4)
      chunks := satAdd r.1.chunks (field st 8 4) }, r.2)

/-- The stored tile that an exact partial of 168,448 bytes expands to (R131). -/
def expandPartial (p : Bytes) : Bytes :=
  let st := slice p 167936 512
  ((List.range 8192).map (fun i =>
    let nib := if i % 2 = 0 then field p (163840 + i / 2) 1 % 16 else field p (163840 + i / 2) 1 / 16
    slice p (20 * i) 20 ++ slice st 0 2 ++ leBytes 2 nib)).flatten ++ st

/-- The exact partial of a slot (R131). -/
def Slot.partialBytes (s : Slot) : Bytes :=
  let nib := fun i => let x := s.entry i
                      b2n x.ovf + 2 * b2n x.nan + 4 * b2n x.pinf + 8 * b2n x.ninf
  ((List.range 8192).map (fun i => leBytes 20 (s.entry i).n.toNat)).flatten
    ++ (List.range 4096).map (fun i => BitVec.ofNat 8 (nib (2 * i) + 16 * nib (2 * i + 1)))
    ++ padTo 512 s.statusBytes

/-! ## Readout (R130) -/

/-- The exact value of an entry, N × 2^(A − 96) (R117). -/
def AccEntry.value (x : AccEntry) : Num :=
  .fin (decide (x.n.toInt < 0)) x.n.toInt.natAbs (x.anchor.toInt - 96)

/-- The conversion of one entry (R130). -/
def readEntry (x : AccEntry) (f : Fmt) (r : Rounding) (ovfInf : Bool) (sa sb : Nat) (k : Int) : Nat × Flags :=
  if x.nan || (x.pinf && x.ninf) then (f.genNaN, {})
  else if x.pinf || x.ninf then (Num.inf x.ninf).round f r ovfInf
  else
    let a := decodeNum yf16 sa
    let b := decodeNum yf16 sb
    if !a.isFin || !b.isFin then (f.genNaN, { invalid := true })
    else
      match (Num.mul (Num.mul x.value a).1 b).1.scale k with
      | .fin s m e => if m = 0 then (0, {}) else (Num.fin s m e).round f r ovfInf
      | _ => (f.genNaN, { invalid := true })

/-- READ of a slot to binary32 by RNE with unit scales (R132). -/
def Slot.binary32s (s : Slot) : List Nat :=
  (List.range 8192).map (fun i => (readEntry (s.entry i) binary32 .rne false 0x3F80 0x3F80 0).1)

end Sys2Proof.Machine
end

