-- ==== Sys2Proof/Machine/WatchOps.lean ====
section
/-! DEFINITION. What every conversion adds to the numerics watch: the entries of the watch table (R236), the
epoch's scale (R238, R240), AMAX and saturations (R239), the counts of R243 and the sums of R244. -/

namespace Sys2Proof.Machine

/-- The key of a watch record in the state: KIND and ID. -/
def watchKey (kind id : Nat) : Nat := kind * 65536 + id

/-- A watch-table entry of the plan as its 32 bytes (R236). -/
def State.watchEntry (s : State) (key : Nat) : Option Bytes :=
  match s.plan with
  | some p => p.layout.watch.find? (fun e => watchKey (field e 2 1) (field e 0 2) == key)
  | none => none

/-- The watch key of a tensor: KIND 0x01 when the plan lists it so, else KIND 0x03 (R236, R243). -/
def State.tensorKey (s : State) (id : Nat) : Nat :=
  if (s.watchEntry (watchKey 1 id)).isSome then watchKey 1 id else watchKey 3 id

/-- SCALED of an entry. -/
def entryScaled (e : Bytes) : Bool := bit 1 (field e 3 1)
/-- K_INIT of an entry. -/
def entryKInit (e : Bytes) : Int := signedOf 8 (field e 7 1)

/-- The device's record of a key. -/
def State.watchOf (s : State) (key : Nat) : Watch := NMap.getD s.watch.entries key {}
/-- Change the device's record of a key. -/
def State.setWatch (s : State) (key : Nat) (f : Watch → Watch) : State :=
  { s with watch.entries := NMap.modify s.watch.entries key {} f }

/-- The greatest phase that the current step has started, 0 before phase 1. -/
def State.phase (s : State) : Nat := s.seq.phases.started.foldl max 0

/-- The work of the evaluation slot runs (R54). -/
def State.inEvaluation (s : State) : Bool := s.seq.tail.current == some 2

/-- Conversions belong to the coming epoch: phase 7 and the evaluation slot (R238). -/
def State.nextEpoch (s : State) : Bool := s.inEvaluation || decide (7 ≤ s.phase)

/-- The tensor scale exponent in force for a key (R238, R240); 0 for an entry that is not SCALED. -/
def State.scaleOf (s : State) (key : Nat) : Int :=
  match s.watchEntry key with
  | some e => if entryScaled e then (if s.nextEpoch then (s.watchOf key).kNext else (s.watchOf key).k) else 0
  | none => 0

/-- The elements that a rounding result and its format give. -/
def converted (f : Fmt) (srcs : List Num) (rs : List (Nat × Flags)) : List Converted :=
  (srcs.zip rs).map (fun p => ⟨p.1, decodeNum f p.2.1, p.2.2⟩)

/-- A binary64 addition, multiplication or rounding by RNE (R244). -/
def add64 (a b : Nat) : Nat := (fAdd binary64 .rne a b).1
/-- A binary64 product by RNE. -/
def mul64 (a b : Nat) : Nat := (fMul binary64 .rne a b).1
/-- A value in binary64 by RNE. -/
def to64 (x : Num) : Nat := (x.round binary64 .rne false).1

/-- One finite element into the sums of R244: (x − q × 2^(−k))² and x², each operation in binary64. -/
def errStep (k : Int) (acc : Long × Long × Nat) (c : Converted) : Long × Long × Nat :=
  if c.src.isFin && c.dst.isFin then
    let x := to64 c.src
    let d := (fSub binary64 .rne x (to64 (c.dst.scale (-k)))).1
    (BitVec.ofNat 64 (add64 acc.1.toNat (mul64 d d)), BitVec.ofNat 64 (add64 acc.2.1.toNat (mul64 x x)), acc.2.2 + 1)
  else acc

/-- How many of a list of elements signal something. -/
def countFlag (f : Flags → Bool) (cs : List Converted) : Nat := cs.countP (fun c => f c.flags)

/-- Elements, crowded elements, crowded and zero blocks, and poisoned blocks or rows, into the counts. -/
def Counts.add (c : Counts) (unit : Nat) (k : Int) (cs : List Converted) (crowded crowdedBlocks zeroBlocks poison : Nat)
    : Counts :=
  { c with
    conversions := satAdd c.conversions cs.length
    saturations := satAdd c.saturations (countFlag (·.saturation) cs)
    crowded := satAdd c.crowded crowded
    crowdedBlocks := satAdd c.crowdedBlocks crowdedBlocks
    zeroBlocks := satAdd c.zeroBlocks zeroBlocks
    invalid := satAdd c.invalid (countFlag (·.invalid) cs)
    divZero := satAdd c.divZero (countFlag (·.divZero) cs)
    overflow := satAdd c.overflow (countFlag (·.overflow) cs)
    underflow := satAdd c.underflow (countFlag (·.underflow) cs)
    inexact := satAdd c.inexact (countFlag (·.inexact) cs)
    poison := satAdd c.poison poison
    errs := NMap.modify c.errs unit (0, 0, 0) (fun e => cs.foldl (errStep k) e) }

/-- The largest finite |x| of the sources in binary32, exact for the sources of R239. -/
def amax32 (cs : List Converted) : Nat := ((amaxOf (cs.map (·.src))).round binary32 .rne false).1

/-- AMAX and SAT of an epoch take a list of conversions (R239). -/
def Watch.observe (w : Watch) (next : Bool) (cs : List Converted) : Watch :=
  let a := amax32 cs
  let sat := countFlag (·.saturation) cs
  if next then
    { w with amaxNext := BitVec.ofNat 32 (fMax binary32 w.amaxNext.toNat a).1, satNext := w.satNext + sat, convertedNext := true }
  else
    { w with amax := BitVec.ofNat 32 (fMax binary32 w.amax.toNat a).1, sat := w.sat + sat, converted := true }

/-- Record counted conversions for a key by a unit with scale k (R238, R239, R243, R244). The evaluation
slot's conversions are counted and enter neither AMAX nor the guard; witness work enters nothing (R238). -/
def State.countConversions (s : State) (key : Nat) (unit : Half) (k : Int) (cs : List Converted)
    (crowded crowdedBlocks zeroBlocks poison : Nat) : State :=
  s.setWatch key (fun w =>
    let w1 := { w with counts := w.counts.add unit.toNat k cs crowded crowdedBlocks zeroBlocks poison }
    if s.inEvaluation then w1 else w1.observe s.nextEpoch cs)

/-- The exceptions and saturations of a list of operations into the counts (R83, R92). -/
def Counts.signal (c : Counts) (fs : List Flags) : Counts :=
  { c with
    saturations := satAdd c.saturations (fs.countP (·.saturation))
    invalid := satAdd c.invalid (fs.countP (·.invalid))
    divZero := satAdd c.divZero (fs.countP (·.divZero))
    overflow := satAdd c.overflow (fs.countP (·.overflow))
    underflow := satAdd c.underflow (fs.countP (·.underflow))
    inexact := satAdd c.inexact (fs.countP (·.inexact)) }

/-- Count the exceptions and saturations of operations other than the counted conversions (R83, R92) for a key. -/
def State.countExceptions (s : State) (key : Nat) (fs : List Flags) : State :=
  s.setWatch key (fun w => { w with counts := w.counts.signal fs })

/-- The counts as they stand are kept when the work that follows is discarded (R238). -/
def State.keepCounts (s : State) : State :=
  { s with
    watch.entries := s.watch.entries.map (fun e => (e.1, { e.2 with kept := e.2.counts }))
    seq.stats.kept := (s.seq.stats.accOvf, s.seq.stats.accLoss, s.seq.stats.invalid) }

/-- The counts of discarded work go (R238). -/
def State.dropCounts (s : State) : State :=
  { s with
    watch.entries := s.watch.entries.map (fun e => (e.1, { e.2 with counts := e.2.kept }))
    seq.stats := { s.seq.stats with accOvf := s.seq.stats.kept.1, accLoss := s.seq.stats.kept.2.1, invalid := s.seq.stats.kept.2.2 } }

/-- The scales, histories and noise average as the step began (R238, R240, R249): its PHASE_6_END, if it was reached, is undone. -/
def State.dropEpoch (s : State) : State :=
  { s with watch := { s.watch with
      lLocal := 0, gLocal := 0, average := s.watch.averageStart
      entries := s.watch.entries.map (fun e => (e.1, { e.2 with
        amax := e.2.amaxStart, sat := e.2.satStart, converted := e.2.convertedStart
        history := e.2.historyStart, kNext := e.2.k, flags := e.2.flags &&& 0x7E })) } }

/-- Counts that no replay discards: they stand in both. After the step has closed they are the next step's (R238, R243). -/
def State.countKept (s : State) (key : Nat) (f : Counts → Counts) : State :=
  s.setWatch key (fun w =>
    if s.seq.phases.ended.contains 8 then { w with countsNext := f w.countsNext } else { w with counts := f w.counts, kept := f w.kept })

/-- Count poisoned blocks or rows read or written for a key, once per event POISON_READ or POISON_MADE of the
code given (R99, R243). -/
def State.countPoison (s : State) (code key n : Nat) : State :=
  if n = 0 then s
  else
    let s1 := s.setWatch key (fun w => { w with counts := { w.counts with poison := satAdd w.counts.poison n } })
    s1.raiseOnce key code 0 (key % 65536) n

end Sys2Proof.Machine
end

