-- ==== Sys2Proof/Machine/Replay.lean ====
section
/-! DEFINITION. Check faults and what they start: where a fault is found decides what follows (R381), the
local replay (R382, R383), the suspect step (R384, R385), and units as they leave under the send log (R375,
R380, R382). -/

namespace Sys2Proof.Machine

/-! ## Suspicion (R384, R385, R387) -/

/-- The job halts because no witness can serve (R387). -/
def State.witnessRefused (s : State) : State :=
  ({ s with seq.replay.awaiting := false } : State).raiseHalt 0x7106

/-- The held intake region and receive log that a suspect module sends its witness (R385), as block units. -/
def State.heldInputs (s : State) : List (Bytes × Word) :=
  let intake := (s.seq.intake.order.flatMap (fun o =>
    ((NMap.getD s.host.queues o.1 {}).descs.filter (fun d => d.pos == o.2)).map (·.data))).flatten
  (units (intake.length / 512 + 1) intake).map (fun u => (u, 0)) ++ s.fab.recvLog.map (fun u => (u.2.2.1, u.2.2.2))

/-- The current step becomes suspect (R384): SUSPECT, an excess, and WITNESS_REQ to the witness (R385), or
WITNESS_REFUSED without one (R387). -/
def State.makeSuspect (s : State) : State :=
  if s.seq.replay.suspect then s
  else
    let s1 : State := { s with
      seq.replay.suspect := true, seq.replay.awaiting := true, seq.replay.running := false
      seq.stats.witness := true, rel.suspects := satAdd s.rel.suspects 1 }
    let s2 := (s1.raise 0x7103).declareExcess
    match s2.witness with
    | some w => (s2.message w .witnessReq (leBytes 6 s2.seq.step.toNat)).transmit w (dataItems MsgKind.witnessReq.code 0 s2.heldInputs)
    | none => s2.witnessRefused

/-! ## The local replay (R382, R383) -/

/-- What the replay of phases 1 to p needs, in µs (R383). -/
def State.replayNeed (s : State) (p : Nat) : Nat :=
  match s.plan with
  | some pl => ceilDiv ((List.range p).foldl (fun a i => a + pl.wc.getD (i + 1) 0) 0) 3000
  | none => 0

/-- The replay reserve left, in µs (R383). -/
def State.reserveLeft (s : State) : Nat :=
  match s.plan with
  | some pl => s.period * pl.header.reservePct / 100 - s.seq.replay.reserveUsed
  | none => 0

/-- Discard what the step has computed: slots, gathered and pooled values, gradients and running attention
states (R382), and its statistics (R238). Received units stay in the receive log (R380). -/
def State.discardAttempt (s : State) : State :=
  { s with
    acc := []
    attn := []
    emb := { s.emb with
      now := { s.emb.now with rowBytes := [], values := [], pooled := [] }
      partials := [], exact := [], merged := [], denseGrad := [] }
    fab := { s.fab with sentNo := [], gotNo := [], reducing := [] }
    hist.ringSent := []
    seq.phases := { started := [1], ended := [] } }.dropEpoch.dropCounts

/-- Begin the local replay of the current step (R382, R383); a second fault, or one during the replay, makes
the step suspect (R384). -/
def State.beginReplay (s : State) : State :=
  if s.seq.replay.running ∨ 0 < s.seq.replay.count then s.makeSuspect
  else
    let p := s.phase
    let fits := decide (s.replayNeed p ≤ s.reserveLeft)
    let s1 := ({ s with
      seq.replay.running := true, seq.replay.phase := p, seq.replay.count := 1, seq.replay.began := s.clk.time
      seq.stats.replayed := true, rel.replays := satAdd s.rel.replays 1 } : State).discardAttempt
    let s2 := s1.raise 0x7102
    if fits then s2
    else ({ s2 with seq.stats.reserveShort := true } : State).declareExcess

/-- The replay has reached the end of the phase in which the fault was found: the time it took is drawn from
the reserve (R383). -/
def State.endReplay (s : State) : State :=
  if s.seq.replay.running then
    { s with
      seq.replay.running := false
      seq.replay.reserveUsed := s.seq.replay.reserveUsed + (s.clk.time.toNat - s.seq.replay.began.toNat) / 1000 }
  else s

/-! ## Check faults (R381) -/

/-- A fault in the evaluation slot: the first runs the slot's work once more, a second fails every EVAL_BATCH
of the slot with EVAL_FAULT (R381). The counts of the work so far go (R238). -/
def State.evalFault (s : State) : State :=
  if s.seq.evalFaults = 0 then { s.dropCounts with seq.evalFaults := 1 }
  else
    ({ s.dropCounts with
      seq.evalFaults := s.seq.evalFaults + 1
      host.queues := s.host.queues.map (fun e => (e.1, { e.2 with descs := e.2.descs.map (fun d =>
        if d.stage = .taken ∧ field d.bytes 0 1 = 2 then { d with stage := .finished, status := 0x7108 } else d) })) }
      : State).raise 0x7108

/-- A check fault found by this module, charged to a unit (R377, R381, R391). In phases 1 to 6 of a running
job it starts a local replay; in phase 7 the record rules take over (R204 to R211). -/
def State.checkFault (s : State) (u : Half) : State :=
  let s1 := (s.raise 0x7101 u).countedFault u
  if s.inEvaluation then s1.evalFault
  else if s.jobRuns ∧ 1 ≤ s.phase ∧ s.phase ≤ 6 then s1.beginReplay
  else s1

/-- The outcome of a command's checks. -/
def State.checked (s : State) (c : Check) : State :=
  match c with
  | none => s
  | some u => s.checkFault (unitCode u)

/-! ## Units that leave (R375, R380, R382) -/

/-- One unit of a message as it leaves: logged in the send log, or, in a replay, compared with what the first
attempt sent instead of being sent again (R380, R382). A difference makes the step suspect (R384). -/
def State.sendUnit (s : State) (msg unit : Nat) (c tag : Word) : State :=
  match s.fab.sendLog.find? (fun e => e.1 == msg && e.2.1 == unit) with
  | some e => if e.2.2.1 = c ∧ e.2.2.2 = tag then s else s.makeSuspect
  | none => { s with fab.sendLog := s.fab.sendLog ++ [(msg, unit, c, tag)] }

/-- Whether every unit of a message was sent by an earlier attempt of the step. -/
def State.alreadySent (s : State) (msg n : Nat) : Bool :=
  (List.range n).all (fun i => s.fab.sendLog.any (fun e => e.1 == msg && e.2.1 == i))

/-- The key of a message in the send log. -/
def logKey (dst : Nat) (k : MsgKind) (ident : Nat) : Nat := dst * 2 ^ 32 + msgNumber k.code ident

/-- Send a unit again that a RESEND named (R388): on a pen link, whose flits name no message, inside a control message that
names it (log 6). -/
def State.transmitAgain (s : State) (dst : Nat) (i : LinkItem) : State :=
  if dst / 8 = s.me / 8 then s.sendControl dst MsgKind.resent.code (leBytes 4 i.msg ++ leBytes 4 i.unit ++ i.content)
  else s.transmit dst [i]

/-- Send block units of the step to a module through the exchange stage (R286), under the send log: units sent by an
earlier attempt are compared and not sent again, apart from those that a RESEND named (R382, R388). -/
def State.exchangeUnits (s : State) (dst : Nat) (k : MsgKind) (ident : Nat) (us : List (Bytes × Word)) : State :=
  let msg := logKey dst k ident
  let old := s.alreadySent msg us.length
  let s1 := us.zipIdx.foldl (fun (st : State) u => st.sendUnit msg u.2 (checkWord (padTo 512 u.1.1) u.1.2) u.1.2) s
  let items := dataItems k.code ident us
  if old then
    (items.filter (fun i => s1.seq.replay.resend.contains (msg, i.unit))).foldl (fun (st : State) i => st.transmitAgain dst i)
      { s1 with seq.replay.resend := s1.seq.replay.resend.filter (fun e => e.1 != msg) }
  else s1.transmit dst items

/-- Send a message of the step to a module through the exchange stage (R286), under the send log. -/
def State.exchange (s : State) (dst : Nat) (k : MsgKind) (ident : Nat) (body : Bytes) : State :=
  let us := (units (body.length / 512 + 1) body).map (fun u => (u, 0))
  let s1 := s.exchangeUnits dst k ident us
  if s.alreadySent (logKey dst k ident) us.length then s1 else s1.emit (.message dst k.code body)

end Sys2Proof.Machine
end

