-- ==== Sys2Proof/Machine/Matrix.lean ====
section
/-! DEFINITION. The six matrix instructions of R123, each given as its 24 bytes: MMA, JOIN, READ, STORE, CLEAR
and STATUS. Results do not depend on when an instruction runs (R124); times are left out (log 12). -/

namespace Sys2Proof.Machine

/-! ## Fields of an instruction (R123) -/

/-- Word k of an instruction. -/
def mWord (w : Bytes) (k : Nat) : Nat := field w (4 * k) 4
/-- SLOT. -/
def mSlot (w : Bytes) : Nat := bits 12 8 (mWord w 0)
/-- INIT. -/
def mInit (w : Bytes) : Bool := bit 13 (mWord w 0)
/-- PASSES. -/
def mPasses (w : Bytes) : Nat := bits 15 14 (mWord w 0)
/-- ANCHOR. -/
def mAnchor (w : Bytes) : BitVec 10 := BitVec.ofNat 10 (bits 25 16 (mWord w 0))
/-- FMT_A, or FMT_OUT. -/
def mFmtA (w : Bytes) : Nat := bits 3 0 (mWord w 1)
/-- FMT_B. -/
def mFmtB (w : Bytes) : Nat := bits 7 4 (mWord w 1)
/-- SA or ZA. -/
def mSA (w : Bytes) : Nat := bits 15 8 (mWord w 1)
/-- SB or ZB. -/
def mSB (w : Bytes) : Nat := bits 23 16 (mWord w 1)
/-- K_BASE. -/
def mKBase (w : Bytes) : Nat := bits 23 0 (mWord w 2)
/-- K_LEN, or ROW_STRIDE. -/
def mKLen (w : Bytes) : Nat := bits 23 0 (mWord w 3)
/-- ADDR in bytes. -/
def mAddr (w : Bytes) : Nat := bits 21 0 (mWord w 4) * 64
/-- ADDR_B in bytes. -/
def mAddrB (w : Bytes) : Nat := bits 21 0 (mWord w 5) * 64

/-- The number of a matrix stage among the module's 128. -/
def stageIx (m : StageId) : Nat := (m.tile.val * 2 + m.line.val) * 2 + b2n m.b
/-- Its unit code: stage 5 is matrix A, stage 6 matrix B (R25, R37). -/
def stageUnit (m : StageId) : Half := unitStage m.tile.val m.line.val (5 + b2n m.b)

/-- A slot of a stage; every slot is initialised with anchor 0 at job start (R121). -/
def State.slot (s : State) (m : StageId) (k : Nat) : Slot := NMap.getD s.acc (stageIx m * 32 + k) {}
/-- Replace a slot. -/
def State.setSlot (s : State) (m : StageId) (k : Nat) (x : Slot) : State :=
  { s with acc := NMap.insert s.acc (stageIx m * 32 + k) x }

/-! ## MMA (R108 to R119) -/

/-- Bytes of an operand of n slices with `rows` elements each. -/
def operandBytes (code rows n : Nat) : Nat := ((matrixElemBytes code).getD 0) * rows * n

/-- One operand's element of a slice, split (R110, R112). -/
def State.operandElem (s : State) (tile base code z rows slice i : Nat) : Parts :=
  let w := (matrixElemBytes code).getD 0
  splitElem code z (leNat (s.tileRead tile (base + (slice * rows + i) * w) w))

/-- The products of a pass: which part of each operand enters (R113). -/
def passPart (pass : Nat) (a b : Parts) : Num × Num :=
  if pass = 0 then (a.hi, b.hi) else if pass = 1 then (a.hi, b.lo) else (a.lo, b.hi)

/-- The slices of an instruction grouped by the chunk their global index falls in (R114): for each chunk
met, its first slice and how many. -/
def chunkRuns : Nat → Nat → Nat → List (Nat × Nat)
  | 0, _, _ => []
  | fuel + 1, base, n =>
    if n = 0 then []
    else
      let k := min n (32 - base % 32)
      (base, k) :: chunkRuns fuel (base + k) (n - k)

/-- One output entry over one pass and one chunk. -/
def State.mmaChunk (s : State) (m : StageId) (w : Bytes) (pass r c first n : Nat) : Chunk :=
  chunkSum ((List.range n).map (fun i =>
    let sl := first - mKBase w + i
    passPart pass (s.operandElem m.tile.val (mAddr w) (mFmtA w) (mSA w) 128 sl r)
      (s.operandElem m.tile.val (mAddrB w) (mFmtB w) (mSB w) 64 sl c)))

/-- SA + SB, zero for integer operands (R118). -/
def mAdjust (w : Bytes) : Int := if mFmtA w = 10 then 0 else signedOf 8 (mSA w) + signedOf 8 (mSB w)

/-- The chunks of an instruction (R114). -/
def mChunks (w : Bytes) : List (Nat × Nat) := chunkRuns (mKLen w + 1) (mKBase w) (mKLen w)

/-- A slot after every pass, chunk and entry of an MMA. -/
def State.mmaSlot (s : State) (m : StageId) (w : Bytes) (x : Slot) : Slot :=
  (List.range (mPasses w)).foldl (fun x pass =>
    (mChunks w).foldl (fun x ch =>
      (List.range 8192).foldl (fun x i =>
        x.addChunk i (s.mmaChunk m w pass (i / 64) (i % 64) ch.1 ch.2) (mAdjust w)) x) x) x

/-- Every entry of a slot with NAN set (R127). -/
def Slot.allNaN (x : Slot) : Slot :=
  (List.range 8192).foldl (fun x i => x.put i { x.entry i with nan := true }) x

/-- The slot an MMA adds into: initialised with ANCHOR under INIT; without it, a slot of another anchor has
NAN set and takes the products at its own anchor (R127). -/
def State.mmaStart (s : State) (m : StageId) (w : Bytes) : Slot × Bool :=
  let x := s.slot m (mSlot w)
  if mInit w then (Slot.init (mAnchor w), false)
  else if x.anchor = mAnchor w then (x, false)
  else (x.allNaN, true)

/-- How many elements of an operand are taken as an infinity by their split (R112). -/
def State.splitSats (s : State) (tile base code z rows n : Nat) : Nat :=
  (List.range n).foldl (fun a k => a + (List.range rows).countP (fun i => (s.operandElem tile base code z rows k i).sat)) 0

/-- The tensor of which an operand is a part, as the plan places it. -/
def State.operandTensor (s : State) (tile addr : Nat) : Option Nat :=
  (s.plan.bind (fun p => p.layout.operands.find? (fun o => o.tile.val == tile && decide (o.addr ≤ addr ∧ addr < o.addr + o.bytes)))).map
    (·.tensor)

/-- Saturations against an operand tensor (R112). -/
def State.countSaturations (s : State) (tensor : Option Nat) (n : Nat) : State :=
  match tensor with
  | some t =>
    if n = 0 then s
    else s.setWatch (s.tensorKey t) (fun w => { w with counts := { w.counts with saturations := satAdd w.counts.saturations n } })
  | none => s

/-- The saturations of an MMA's splits, each against its operand's tensor (R112). -/
def State.countSplits (s : State) (m : StageId) (w : Bytes) : State :=
  let t := m.tile.val
  (s.countSaturations (s.operandTensor t (mAddr w)) (s.splitSats t (mAddr w) (mFmtA w) (mSA w) 128 (mKLen w))).countSaturations
    (s.operandTensor t (mAddrB w)) (s.splitSats t (mAddrB w) (mFmtB w) (mSB w) 64 (mKLen w))

/-- Whether both operands of an MMA lie inside the tile store. -/
def mmaInRange (w : Bytes) : Bool :=
  tileRange (mAddr w) (operandBytes (mFmtA w) 128 (mKLen w)) && tileRange (mAddrB w) (operandBytes (mFmtB w) 64 (mKLen w))

/-- MMA on the state (R108 to R119, R127). -/
def State.mma (s : State) (m : StageId) (w : Bytes) : State :=
  let x := s.mmaStart m w
  let s1 := (s.setSlot m (mSlot w) (s.mmaSlot m w x.1)).countSplits m w
  if x.2 then s1.raise 0x2203 (stageUnit m) (mSlot w) else s1

/-- MMA: accumulates A × B into a slot over the passes selected; a failed check is a check fault (R377). -/
def execMma (m : StageId) (w : Bytes) (chk : Check) (s : State) : Host.Outcome State Fault Refusal :=
  if mmaInRange w then .next ((s.mma m w).checked chk) else .fault .tileStoreRange

/-! ## JOIN, STORE, CLEAR, STATUS -/

/-- JOIN on the state (R127). -/
def State.joinTile (s : State) (m : StageId) (w : Bytes) : State :=
  let r := (s.slot m (mSlot w)).joinBytes (s.tileRead m.tile.val (mAddr w) 197120)
  let s1 := s.setSlot m (mSlot w) r.1
  if r.2 then s1.raise 0x2203 (stageUnit m) (mSlot w) else s1

/-- JOIN: adds the stored tile at ADDR into a slot entry by entry (R127). -/
def execJoin (m : StageId) (w : Bytes) (s : State) : Host.Outcome State Fault Refusal :=
  if tileRange (mAddr w) 197120 then .next (s.joinTile m w) else .fault .tileStoreRange

/-- STORE: writes a slot to the tile store as a stored tile of 197,120 bytes (R126). -/
def execStore (m : StageId) (w : Bytes) (s : State) : Host.Outcome State Fault Refusal :=
  if tileRange (mAddr w) 197120 then .next (s.tileWrite m.tile.val (mAddr w) (s.slot m (mSlot w)).stored)
  else .fault .tileStoreRange

/-- CLEAR: initialises a slot with ANCHOR (R121, R122). -/
def execClear (m : StageId) (w : Bytes) (s : State) : Host.Outcome State Fault Refusal :=
  .next (s.setSlot m (mSlot w) (Slot.init (mAnchor w)))

/-- STATUS: writes the 16 status bytes of a slot (R126). -/
def execStatus (m : StageId) (w : Bytes) (s : State) : Host.Outcome State Fault Refusal :=
  if tileRange (mAddr w) 16 then .next (s.tileWrite m.tile.val (mAddr w) (s.slot m (mSlot w)).statusBytes)
  else .fault .tileStoreRange

/-! ## READ (R130) -/

/-- A rounding of R103's ROUND codes; SR draws from the rounding stream (R93, R199). -/
def State.roundingOf (s : State) (code : Nat) (ident : Nat) (index : Nat) (plane : Nat) (isTable : Bool) : Rounding :=
  if code = 1 then
    .sr (rsDraw (BitVec.ofNat 64 ((s.jobMap.map (·.jobSeed)).getD 0)) s.seq.step.toNat ident (drawIndex isTable plane index))
  else if code = 2 then .rz else if code = 3 then .rp else if code = 4 then .rn else .rne

/-- The results of a READ in index order, each with its signals (R130). -/
def State.readResults (s : State) (m : StageId) (w : Bytes) (f : Fmt) : List (Nat × Flags) :=
  let x := s.slot m (mSlot w)
  let w1 := mWord w 1
  let k := signedOf 8 (bits 15 8 w1)
  (List.range 8192).map (fun i =>
    let index := mWord w 2 + i / 64 * mKLen w + i % 64
    readEntry (x.entry i) f (s.roundingOf (bits 6 4 w1) (bits 31 16 w1) index 0 false) (bit 7 w1)
      (bits 15 0 (mWord w 5)) (bits 31 16 (mWord w 5)) k)

/-- The exact value that READ converts, before the tensor scale, for the watch (R239, R244). -/
def readSource (x : AccEntry) (sa sb : Nat) : Num :=
  if x.nan || (x.pinf && x.ninf) then .nan false
  else if x.pinf || x.ninf then .inf x.ninf
  else (Num.mul (Num.mul x.value (decodeNum yf16 sa)).1 (decodeNum yf16 sb)).1

/-- LOSS and CHUNKS of a slot that is read, into the counts of a tensor (R243). -/
def State.slotCounts (s : State) (key : Nat) (x : Slot) : State :=
  s.setWatch key (fun v => { v with counts := { v.counts with
    accLoss := satAdd v.counts.accLoss x.loss.toNat, accChunks := satAdd v.counts.accChunks x.chunks.toNat } })

/-- What READ adds to the watch: conversions of the short formats, exceptions of binary32, and the slot's
LOSS and CHUNKS (R130, R243). -/
def State.readCounts (s : State) (m : StageId) (w : Bytes) (f : Fmt) (rs : List (Nat × Flags)) : State :=
  let x := s.slot m (mSlot w)
  let key := s.tensorKey (bits 31 16 (mWord w 1))
  let srcs := (List.range 8192).map (fun i =>
    readSource (x.entry i) (bits 15 0 (mWord w 5)) (bits 31 16 (mWord w 5)))
  let s1 := if f = binary32 then s.countExceptions key (rs.map (·.2))
            else s.countConversions key (stageUnit m) (signedOf 8 (bits 15 8 (mWord w 1))) (converted f srcs rs) 0 0 0 0
  s1.slotCounts key x

/-- ACC_OVF and ACC_LOSS of a slot that is read as slot k of a stage, each once per slot per step, and their totals of the
step record (R130, R254). -/
def State.slotEvents (s : State) (m : StageId) (k : Nat) (x : Slot) : State :=
  let mark := stageIx m * 32 + k
  let lossy := decide (x.chunks.toNat < 1024 * x.loss.toNat)
  let s1 := if x.ovf then ({ s with seq.stats.accOvf := s.seq.stats.accOvf + 1 } : State).raiseOnce mark 0x2201 (stageUnit m) k else s
  if lossy then
    ({ s1 with seq.stats.accLoss := s1.seq.stats.accLoss + 1 } : State).raiseOnce mark 0x2202 (stageUnit m) k
  else s1

/-- READ on the state (R130): the results stand contiguously from ADDR. -/
def State.readSlot (s : State) (m : StageId) (w : Bytes) (f : Fmt) : State :=
  let rs := s.readResults m w f
  let s1 := (s.readCounts m w f rs).slotEvents m (mSlot w) (s.slot m (mSlot w))
  s1.tileWrite m.tile.val (mAddr w) (elementBytes (f.width / 8) (rs.map (·.1)))

/-- The format of FMT_OUT; a code that names none is refused at load (R123) and reads as binary32 here. -/
def readFmt (w : Bytes) : Fmt := (Fmt.ofCode (mFmtA w)).getD binary32

/-- READ: converts each entry of a slot to FMT_OUT and writes the 8,192 results (R130). -/
def execRead (m : StageId) (w : Bytes) (s : State) : Host.Outcome State Fault Refusal :=
  if tileRange (mAddr w) (8192 * ((readFmt w).width / 8)) then .next (s.readSlot m w (readFmt w))
  else .fault .tileStoreRange

end Sys2Proof.Machine
end

