-- ==== Sys2Proof/Machine/VectorStage.lean ====
section
/-! DEFINITION. The vector stage: elementwise operations, conversions and functions (R133, R134, R95) and row
operations (R135). Operands and results stand in the tile store of the line's tile, binary64 in the stage's registers (R79). -/

namespace Sys2Proof.Machine

/-- The unit code of a line's vector stage, stage 7 (R25, R37). -/
def vectorUnit (l : LineId) : Half := unitStage l.tile.val l.line.val 7

/-! ## Registers (R25, R79) -/

/-- What a line's stages hold for themselves. -/
def State.lineState (s : State) (l : LineId) : LineState := NMap.getD s.lines (lineIx l) {}
/-- Change it. -/
def State.setLine (s : State) (l : LineId) (f : LineState → LineState) : State :=
  { s with lines := NMap.modify s.lines (lineIx l) {} f }

/-- A cell of the vector stage's register file. -/
def State.vecReg (s : State) (l : LineId) (r : Nat) : Nat := (NMap.getD (s.lineState l).regs r 0).toNat

/-- Write consecutive cells of the register file. -/
def State.setVecRegs (s : State) (l : LineId) (r : Nat) (xs : List Nat) : State :=
  s.setLine l (fun y => { y with regs := xs.zipIdx.foldl (fun m x => NMap.insert m (r + x.2) (BitVec.ofNat 64 x.1)) y.regs })

/-- n elements of a long format at an operand's place: registers for binary64, the tile store for binary32 (R79). -/
def State.longElems (s : State) (l : LineId) (wide : Bool) (a n : Nat) : List Nat :=
  if wide then (List.range n).map (fun j => s.vecReg l (a + j)) else elements 4 n (s.tileRead l.tile.val a (4 * n))

/-- Write elements of a long format to a result's place. -/
def State.putLong (s : State) (l : LineId) (wide : Bool) (d : Nat) (xs : List Nat) : State :=
  if wide then s.setVecRegs l d xs else s.tileWrite l.tile.val d (elementBytes 4 xs)

/-! ## Elementwise operations (R133) -/

/-- 1.0 where a comparison holds, else +0 (R191 gives the churn's; DEDUCED for the vector stage, log 13). -/
def boolResult (f : Fmt) (b : Bool × Flags) : Nat × Flags := (if b.1 then one f else 0, b.2)

/-- An operand as a result: a NaN as the canonical one, a signalling NaN with invalid (R82). -/
def chosen (f : Fmt) (a : Nat) : Nat × Flags := (canon f a, { invalid := (decodeNum f a).isSNaN })

/-- One element of an operation in a long format. Select takes A where C is not all zero bits, so where C is −0 too, else B;
the manual names it and gives no more (DESIGN CHOICE, log 13). -/
def vecElem (op : VecOp) (f : Fmt) (r : Rounding) (a b c : Nat) : Nat × Flags :=
  match op with
  | .add => fAdd f r a b
  | .sub => fSub f r a b
  | .mul => fMul f r a b
  | .fma => fFma f r a b c
  | .max => fMax f a b
  | .min => fMin f a b
  | .cmpEq => boolResult f (fCmp f .eq a b)
  | .cmpLt => boolResult f (fCmp f .lt a b)
  | .cmpLe => boolResult f (fCmp f .le a b)
  | .cmpUn => boolResult f (fCmp f .un a b)
  | .select => chosen f (if c = 0 then b else a)
  | .rcp => fRcp f r a
  | .rsqrt => fRsqrt f r a
  | .div => fDiv f r a b
  | .sqrt => fSqrt f r a
  | .fn g => vecFn g a
  | .convert => (a, {})

/-- Whether an operation reads B, and C. -/
def vecReads : VecOp → Bool × Bool
  | .fma => (true, true)
  | .select => (true, true)
  | .rcp => (false, false)
  | .rsqrt => (false, false)
  | .sqrt => (false, false)
  | .fn _ => (false, false)
  | .convert => (false, false)
  | _ => (true, false)

/-! ## Operands of a conversion (R95, R100, R104) -/

/-- Bytes that n elements of a format take in the tile store; binary64 takes none there (R79), and the scale bytes of YS8 stand
apart (R100). YB16 blocks and rows of codes, which records carry (R79, R89), stand as the operands of a vector file do:
exponent and fractions, 65 bytes a block; scale, offset and codes, 4 bytes and the codes (R104). An activation's codes stand
one a byte, with scale and zero point in `aux` (DESIGN CHOICE, log 38). -/
def formatBytes (code n : Nat) : Nat :=
  if code = 1 then 0 else if code = 2 then 4 * n else if code = 3 then 2 * n
  else if code = 7 then 65 * (n / 32) else if code = 8 then 4 + n else if code = 9 then 4 + ceilDiv n 2
  else n

/-- The tag words of YS8 block k of a stream: those of its data and its scale check block (R101). -/
def ys8Tags (stream k : Nat) : Word × Word :=
  (BitVec.ofNat 32 (stream % 65536 + k / 16 % 4096 * 65536 + 0x10000000),
   BitVec.ofNat 32 (stream % 65536 + k / 512 % 4096 * 65536 + 0x20000000))

/-- What a stage reads of a format: the exact element values, what reading each signals, how many blocks were poisoned,
malformed, and whether a tag check failed (R99, R102). -/
structure Loaded where
  values : List Num
  signals : List Flags := []
  poisoned : Nat := 0
  malformed : Nat := 0
  skew : Bool := false
  deriving DecidableEq, Repr

/-- YS8 elements from the tile store, each block's tags checked first (R102). A block of a data check block that fails them is
treated as poisoned and counted so, with POISON_READ beside SCALE_SKEW (DEDUCED, log 38). -/
def State.loadYs8 (s : State) (tile addr scales stream first n : Nat) : Loaded :=
  (List.range (n / 32)).foldl (fun acc i =>
    let k := first + i
    let t := ys8Tags stream k
    let good := decide (s.tileTag tile (addr + 32 * i) = t.1 ∧ s.tileTag tile (scales + i) = t.2)
    let sc := leNat (s.tileRead tile (scales + i) 1)
    let vs := (elements 1 32 (s.tileRead tile (addr + 32 * i) 32)).map (fun e => if good then ys8Elem sc e else .nan false)
    { values := acc.values ++ vs, poisoned := acc.poisoned + b2n (!good || sc == 255), malformed := acc.malformed
      skew := acc.skew || !good }) { values := [] }

/-- The YB16 block at a tile store address. -/
def State.loadYb16 (s : State) (tile addr : Nat) : Yb16 :=
  ⟨leNat (s.tileRead tile addr 1), elements 2 32 (s.tileRead tile (addr + 1) 64)⟩

/-- The row codes of n elements: one byte each for YI8, two to a byte for YI4, the first in the low half
(R143). -/
def codesOf (b n : Nat) (bs : Bytes) : List Nat :=
  if b = 8 then elements 1 n bs
  else (List.range n).map (fun i => if i % 2 = 0 then field bs (i / 2) 1 % 16 else field bs (i / 2) 1 / 16)

/-- The bytes of row codes. -/
def codeBytes (b : Nat) (cs : List Nat) : Bytes :=
  if b = 8 then elementBytes 1 cs
  else (List.range (ceilDiv cs.length 2)).map (fun i => BitVec.ofNat 8 (cs.getD (2 * i) 0 + 16 * cs.getD (2 * i + 1) 0))

/-- The exact values of n elements of a format at an operand's place. -/
def State.loadValues (s : State) (l : LineId) (code addr aux stream first n : Nat) : Loaded :=
  let tile := l.tile.val
  match Fmt.ofCode code with
  | some f =>
    { values := if code = 1 then (s.longElems l true addr n).map (decodeNum f)
        else (elements (f.width / 8) n (s.tileRead tile addr (formatBytes code n))).map (decodeNum f) }
  | none =>
    if code = 6 then s.loadYs8 tile addr aux stream (first / 32) n
    else if code = 7 then
      (List.range (n / 32)).foldl (fun acc i =>
        let b := s.loadYb16 tile (addr + 65 * i)
        { acc with values := acc.values ++ (List.range 32).map b.elem, poisoned := acc.poisoned + b2n (b.exp == 255)
                   malformed := acc.malformed + b2n b.malformed }) { values := [] }
    else
      let bs := s.tileRead tile addr (formatBytes code n)
      let sc := decodeNum yf16 (field bs 0 2)
      let of := decodeNum yf16 (field bs 2 2)
      let vs := (codesOf (if code = 8 then 8 else 4) n (bs.drop 4)).map (codeValue sc of)
      { values := vs.map (·.1), signals := vs.map (·.2), poisoned := b2n sc.isNaN }

/-- Blocks of 32 of a list. -/
def blocks32 : Nat → List Num → List (List Num)
  | 0, _ => []
  | n + 1, xs => xs.take 32 :: blocks32 n (xs.drop 32)

/-! ## Conversions -/

/-- A conversion's written bytes, its elements for the watch, and its block counts. -/
structure Written where
  bytes : Bytes
  scales : Bytes := []
  elems : List Converted
  crowded : Nat := 0
  crowdedBlocks : Nat := 0
  zeroBlocks : Nat := 0
  poison : Nat := 0
  deriving DecidableEq, Repr

/-- Two parts of a conversion joined. -/
def Written.append (a b : Written) : Written :=
  ⟨a.bytes ++ b.bytes, a.scales ++ b.scales, a.elems ++ b.elems, a.crowded + b.crowded, a.crowdedBlocks + b.crowdedBlocks,
    a.zeroBlocks + b.zeroBlocks, a.poison + b.poison⟩

/-- Converted elements of a block or row, each with what it signals. -/
def blockElems (srcs dsts : List Num) (fs : List Flags) : List Converted :=
  ((srcs.zip dsts).zip fs).map (fun p => ⟨p.1.1, p.1.2, p.2⟩)

/-- One block to YS8 (R96). -/
def writeYs8 (xs : List Num) (m : Nat → Rounding) : Written :=
  let r := ys8From xs m
  let dst := r.1.elems.map (ys8Elem r.1.scale)
  { bytes := elementBytes 1 r.1.elems, scales := leBytes 1 r.1.scale, elems := blockElems xs dst (ys8Signals xs m)
    crowded := r.2.2, crowdedBlocks := b2n r.2.1.crowded
    zeroBlocks := b2n (r.2.1.zeroBlock && xs.any (fun x => !x.isZero) && r.1.scale != 255), poison := b2n (r.1.scale == 255) }

/-- One block to YB16 (R97). -/
def writeYb16 (xs : List Num) (m : Nat → Rounding) : Written :=
  let r := yb16From xs m
  { bytes := leBytes 1 r.1.exp ++ elementBytes 2 r.1.fracs, elems := blockElems xs ((List.range 32).map r.1.elem) (yb16Signals xs m)
    crowded := r.2.2, crowdedBlocks := b2n r.2.1.crowded, zeroBlocks := b2n r.2.1.zeroBlock, poison := b2n (r.1.exp == 255) }

/-- A row to codes with a given scale and offset (R98). -/
def writeCodes (b sc of : Nat) (xs : List Num) (m : Nat → Rounding) : Written :=
  let r := codesFrom b sc of xs m
  let dst := r.1.codes.map (fun c => (codeValue (decodeNum yf16 r.1.scale) (decodeNum yf16 r.1.offset) c).1)
  { bytes := leBytes 2 r.1.scale ++ leBytes 2 r.1.offset ++ codeBytes b r.1.codes
    elems := blockElems xs dst (codeSignals b sc of xs m)
    poison := b2n r.2.1.poisoned }

/-- A list of values to a format (R95 to R98). -/
def writeValues (code k aux : Nat) (kexp : Int) (ovfInf : Bool) (xs : List Num) (m : Nat → Rounding) : Written :=
  match Fmt.ofCode code with
  | some f =>
    let rs := xs.zipIdx.map (fun p => (p.1.scale kexp).round f (m (k + p.2)) ovfInf)
    { bytes := elementBytes (f.width / 8) (rs.map (·.1)), elems := converted f xs rs }
  | none =>
    if code = 6 then
      (blocks32 (xs.length / 32) xs).zipIdx.foldl (fun acc p => acc.append (writeYs8 p.1 (fun i => m (k + 32 * p.2 + i)))) { bytes := [], elems := [] }
    else if code = 7 then
      (blocks32 (xs.length / 32) xs).zipIdx.foldl (fun acc p => acc.append (writeYb16 p.1 (fun i => m (k + 32 * p.2 + i)))) { bytes := [], elems := [] }
    else if code = 8 then writeCodes 8 (bits 15 0 aux) (bits 31 16 aux) xs (fun i => m (k + i))
    else if code = 9 then writeCodes 4 (bits 15 0 aux) (bits 31 16 aux) xs (fun i => m (k + i))
    else
      let a := decodeNum yf16 (bits 15 0 aux)
      let z := bits 23 16 aux
      let rs := xs.zipIdx.map (fun p => toActivation a z p.1 (m (k + p.2)))
      { bytes := elementBytes 1 (rs.map (·.1))
        elems := (xs.zip rs).map (fun p => ⟨p.1, (Num.mul (Num.ofInt ((p.2.1 : Int) - z)) a).1, p.2.2⟩) }

/-- Whether R95 lists a conversion from one format code to another. -/
def convertListed (src dst : Nat) : Bool :=
  match src with
  | 1 => dst == 2
  | 2 => dst == 1 || dst == 3 || dst == 4 || dst == 5 || dst == 6 || dst == 7 || dst == 8 || dst == 9 || dst == 10
  | 3 => dst == 2 || dst == 4 || dst == 5 || dst == 6 || dst == 10
  | 4 => dst == 2 || dst == 3
  | 5 => dst == 2 || dst == 3
  | 6 => dst == 2 || dst == 3
  | 7 => dst == 2 || dst == 3
  | 8 => dst == 2 || dst == 3
  | 9 => dst == 2 || dst == 3
  | _ => false

/-- Whether a conversion counts in the watch: a target of R243 that is not a widening. -/
def convertCounts (src dst : Nat) : Bool :=
  (src == 1 || src == 2 || src == 3 || src == 7 || src == 8 || src == 9) && (3 ≤ dst)

/-- The operations that the vector stage provides (R133, R134, R94, R95): a long format in and out, binary32 for the functions,
and the listed conversions with a tensor scale exponent of −126 to 127. -/
def vecProvided (i : VecInstr) : Bool :=
  match i.op with
  | .convert => convertListed i.src i.dst && decide (-126 ≤ i.scaleK ∧ i.scaleK ≤ 127)
  | .fn _ => i.src == 2 && i.dst == 2
  | _ => i.src == i.dst && (i.src == 1 || i.src == 2)

/-- Tag the YS8 check blocks that a stage writes in the tile store (R101). -/
def State.tagYs8 (s : State) (tile addr scales stream first n : Nat) : State :=
  (List.range n).foldl (fun st i =>
    let t := ys8Tags stream (first + i)
    (st.setTileTag tile (addr + 32 * i) t.1).setTileTag tile (scales + i) t.2) s

/-- How element j of a convert rounds (R92, R95): binary64 to binary32 under the attribute, a short format by RNE or SR, and a
YB16 element or a code by RNE alone; widenings are exact. -/
def State.vecRounding (s : State) (i : VecInstr) (j : Nat) : Rounding :=
  if i.dst = 2 then (if i.src = 1 then Rounding.ofField i.rm else .rne)
  else if i.sr ∧ (i.src = 2 ∨ i.src = 3) then s.roundingOf 1 i.tensor (i.elemBase + j) 0 false
  else .rne

/-- The tensor scale exponent a convert to YF16, YF8E4 or YF8E5 applies: its own, or the delayed one of the watch (R94, R238). -/
def State.vecScale (s : State) (i : VecInstr) : Int :=
  if i.dst < 3 ∨ 5 < i.dst then 0 else if i.delayed then s.scaleOf (s.tensorKey i.tensor) else i.scaleK

/-- Bytes from an address to the end of its check block. -/
def restOfBlock (a : Nat) : Nat := (512 - a % 512) % 512

/-- A convert that writes a YS8 tensor's last block leaves the rest of its data and scale check blocks at 0x00 (R100). -/
def State.ys8Tail (s : State) (tile : Nat) (i : VecInstr) : State :=
  if i.lastBlocks then
    let d := i.d + i.n
    let a := i.aux + i.n / 32
    (s.tileWrite tile d (List.replicate (restOfBlock d) 0)).tileWrite tile a (List.replicate (restOfBlock a) 0)
  else s

/-- What reading and converting an element signal together. -/
def withSignals (es : List Converted) (fs : List Flags) : List Converted :=
  es.zipIdx.map (fun e => { e.1 with flags := e.1.flags.or (fs.getD e.2 {}) })

/-- A conversion's bytes to the result's place: registers for binary64, else the tile store, YS8 with its scales and tags. -/
def State.putConverted (s : State) (l : LineId) (i : VecInstr) (w : Written) : State :=
  let tile := l.tile.val
  if i.dst = 1 then s.setVecRegs l i.d (elements 8 i.n w.bytes)
  else if i.dst = 6 then
    (((s.tileWrite tile i.d w.bytes).tileWrite tile i.aux w.scales).ys8Tail tile i).tagYs8 tile i.d i.aux i.stream (i.elemBase / 32) (i.n / 32)
  else s.tileWrite tile i.d w.bytes

/-- A convert operation (R95): poisoned sources are counted and reported, a tag mismatch is a check fault
charged to the tile store, and the watch counts what R243 lists. -/
def State.vecConvert (s : State) (l : LineId) (i : VecInstr) : State :=
  let key := s.tensorKey i.tensor
  let x := s.loadValues l i.src i.a i.aux i.stream i.elemBase i.n
  let k := s.vecScale i
  let w := writeValues i.dst 0 i.aux k i.ovfInf x.values (s.vecRounding i)
  let es := withSignals w.elems x.signals
  let s1 := (s.countPoison 0x2101 key x.poisoned).countPoison 0x2102 key x.malformed
  let s2 := if convertCounts i.src i.dst then
      s1.countConversions key (vectorUnit l) k es w.crowded w.crowdedBlocks w.zeroBlocks 0
    else s1.countExceptions key (es.map (·.flags))
  let s3 := (s2.countPoison 0x2104 key w.poison).putConverted l i w
  if x.skew then (s3.raise 0x2103 (vectorUnit l) i.stream).checkFault (unitTileStore l.tile.val) else s3

/-- An elementwise operation in a long format (R80 to R84, R133). -/
def State.vecArith (s : State) (l : LineId) (i : VecInstr) : State :=
  let wide := i.src == 1
  let f := if wide then binary64 else binary32
  let a := s.longElems l wide i.a i.n
  let b := s.longElems l wide i.b i.n
  let c := s.longElems l wide i.c i.n
  let rs := (List.range i.n).map (fun j =>
    vecElem i.op f (Rounding.ofField i.rm) (a.getD j 0) (b.getD j 0) (c.getD j 0))
  (s.countExceptions (s.tensorKey i.tensor) (rs.map (·.2))).putLong l wide i.d (rs.map (·.1))

/-- Where the operands and the result of a vector instruction must lie. -/
def vecInRange (i : VecInstr) : Bool :=
  let need := fun (use : Bool) (addr : Nat) => !use || tileRange addr (formatBytes i.src i.n)
  tileRange i.a (formatBytes i.src i.n) && need (vecReads i.op).1 i.b && need (vecReads i.op).2 i.c
    && tileRange i.d (formatBytes i.dst i.n)
    && (!(i.op == .convert && (i.src == 6 || i.dst == 6)) || tileRange i.aux (i.n / 32))

/-- A vector instruction on the state. -/
def State.vector (s : State) (l : LineId) (i : VecInstr) : State := if i.op = .convert then s.vecConvert l i else s.vecArith l i

/-- VECTOR_OPERATION: an elementwise, conversion or function operation (R133); a failed check is a check
fault (R377, R378). What the stage does not provide has no meaning (R95, R133). -/
def execVectorOperation (l : LineId) (i : VecInstr) (chk : Check) (s : State) : Host.Outcome State Fault Refusal :=
  if !vecProvided i then .refused .notProvided
  else if vecInRange i then .next ((s.vector l i).checked chk) else .fault .tileStoreRange

/-! ## Row operations (R135) -/

/-- Fold a row in ascending element index, each addition or FMA rounded under the attribute. A sum or product
starts from +0; a maximum starts from its first element, as a result has it (R82). -/
def rowFold (k : RowKind) (f : Fmt) (r : Rounding) (a b : List Nat) : Nat × List Flags :=
  match k with
  | .sum => a.foldl (fun acc x => let y := fAdd f r acc.1 x
                                  (y.1, acc.2 ++ [y.2])) (0, [])
  | .sumSq => a.foldl (fun acc x => let y := fFma f r x x acc.1
                                    (y.1, acc.2 ++ [y.2])) (0, [])
  | .dot => (a.zip b).foldl (fun acc p => let y := fFma f r p.1 p.2 acc.1
                                          (y.1, acc.2 ++ [y.2])) (0, [])
  | .max =>
    match a with
    | [] => (encodeInf f true, [])
    | x :: xs => xs.foldl (fun acc z => let y := fMax f acc.1 z
                                        (y.1, acc.2 ++ [y.2])) ((chosen f x).1, [(chosen f x).2])

/-- The format of a row operation. -/
def rowFmt (i : RowInstr) : Fmt := if i.wide then binary64 else binary32

/-- A row operation on the state. -/
def State.rowOp (s : State) (l : LineId) (i : RowInstr) : State :=
  let r := rowFold i.kind (rowFmt i) (Rounding.ofField i.rm) (s.longElems l i.wide i.a i.n) (s.longElems l i.wide i.b i.n)
  (s.countExceptions (s.tensorKey i.tensor) r.2).putLong l i.wide i.d [r.1]

/-- Whether a row operation's operands and result lie inside the tile store; binary64 lies in registers. -/
def rowInRange (i : RowInstr) : Bool :=
  i.wide || (tileRange i.a (4 * i.n) && (i.kind != .dot || tileRange i.b (4 * i.n)) && tileRange i.d 4)

/-- ROW_OPERATION: one row on one lane, summed in ascending index (R135). -/
def execRowOperation (l : LineId) (i : RowInstr) (s : State) : Host.Outcome State Fault Refusal :=
  if rowInRange i then .next (s.rowOp l i) else .fault .tileStoreRange

end Sys2Proof.Machine
end

