-- ==== Sys2Proof/Machine/Vectors.lean ====
section
/-! DEFINITION. Conformance vector files (R103 to R106, R137): the header, what a line makes of a record, and the result file
that goes to the export stream. The spec names the file, the records and the result; how the stream carries a result file, and
where a conversion takes a scale, an offset or a zero point from, it leaves open (DESIGN CHOICE, log 47). -/

namespace Sys2Proof.Machine

/-- A vector file's MAGIC (R103). -/
def isVectorFile (b : Bytes) : Bool := field b 0 4 == 0x56435959

/-- The header of a vector file (R103). -/
structure VectorHeader where
  op : Nat
  fmtA : Nat
  fmtB : Nat
  fmtC : Nat
  fmtOut : Nat
  round : Nat
  opts : Nat
  recordBytes : Nat
  count : Nat
  seed : Nat
  step : Nat
  tensor : Nat
  dim : Nat
  scaleK : Int
  deriving DecidableEq, Repr

/-- The header that a file's bytes spell (R103). -/
def vectorHeader (b : Bytes) : VectorHeader where
  op := field b 6 2
  fmtA := field b 8 1
  fmtB := field b 9 1
  fmtC := field b 10 1
  fmtOut := field b 11 1
  round := field b 12 1
  opts := field b 13 1
  recordBytes := field b 14 2
  count := field b 16 8
  seed := field b 24 8
  step := field b 32 6
  tensor := field b 38 2
  dim := field b 40 2
  scaleK := signedOf 8 (field b 42 1)

/-! ## Where a record's parts stand (R104, R105) -/

/-- The operand size of a format (R104). -/
def operandSize (code dim : Nat) : Nat :=
  if code = 1 then 8 else if code = 2 then 4 else if code = 3 then 2 else if code = 4 ∨ code = 5 then 1
  else if code = 6 then 33 else if code = 7 then 65 else if code = 8 then 4 + dim else if code = 9 then 4 + ceilDiv dim 2
  else if code = 10 then 4 else if code = 11 then 2 else if code = 12 then 24 else 0

/-- Elements that one operand of a block or row format holds; none for a format of single elements. -/
def groupSize (code dim : Nat) : Option Nat :=
  if code = 6 ∨ code = 7 then some 32 else if code = 8 ∨ code = 9 then some dim else none

/-- Elements of a record: DIM of each operand of a CHUNK (R137), and of a conversion as many as its block or row holds (DEDUCED from
R95; log 47). -/
def VectorHeader.elems (h : VectorHeader) : Nat :=
  if h.op = 12 then h.dim
  else if h.op = 1 then ((groupSize h.fmtA h.dim).or (groupSize h.fmtOut h.dim)).getD 1
  else 1

/-- Bytes of an operand or result of a record, without its padding. -/
def VectorHeader.size (h : VectorHeader) (code : Nat) : Nat :=
  if (groupSize code h.dim).isSome ∨ code = 12 then operandSize code h.dim else h.elems * operandSize code h.dim

/-- The same, padded with zero bytes to a multiple of 8 (R105). -/
def VectorHeader.padded (h : VectorHeader) (code : Nat) : Nat := roundUp (h.size code) 8

/-- Where operand A, B, C, the expected result and the status word stand in a record (R105). -/
def VectorHeader.places (h : VectorHeader) : List Nat :=
  let b := 8 + h.padded h.fmtA
  let c := b + h.padded h.fmtB
  let o := c + h.padded h.fmtC
  [8, b, c, o, o + h.padded h.fmtOut]

/-- Operand or result k of a record, in a format. -/
def VectorHeader.part (h : VectorHeader) (r : Bytes) (k code : Nat) : Bytes := slice r (h.places.getD k 0) (h.size code)

/-! ## The operations -/

/-- The operation of the vector stage that an operation code names (R104). -/
def vectorOp (op : Nat) : Option VecOp :=
  if op = 2 then some .add else if op = 3 then some .mul else if op = 4 then some .fma else if op = 5 then some .div
  else if op = 6 then some .sqrt else if op = 7 then some .rcp else if op = 8 then some .rsqrt else if op = 9 then some .max
  else if op = 10 then some .min else none

/-- A CHUNK file's header stands as R137 says. -/
def VectorHeader.chunkOk (h : VectorHeader) : Bool :=
  let short := fun c => decide (2 ≤ c) && decide (c ≤ 5)
  ((short h.fmtA && short h.fmtB) || (h.fmtA == 10 && h.fmtB == 10) || (h.fmtA == 11 && h.fmtB == 11))
    && h.fmtC == 12 && h.fmtOut == 12 && decide (1 ≤ h.dim) && decide (h.dim ≤ 32) && h.round == 0 && h.opts == 0

/-- The header names an operation that the device has, on formats that it has it for (R95, R133, R137). -/
def VectorHeader.provided (h : VectorHeader) : Bool :=
  if h.op = 12 then h.chunkOk
  else if h.op = 1 then convertListed h.fmtA h.fmtOut && h.fmtB == 0 && h.fmtC == 0 && h.elems != 0
  else if h.op = 11 then (h.fmtA == 1 || h.fmtA == 2) && h.fmtB == h.fmtA && h.fmtC == 0 && h.fmtOut == h.fmtA
  else
    match vectorOp h.op with
    | some o =>
      (h.fmtA == 1 || h.fmtA == 2) && h.fmtOut == h.fmtA && h.fmtB == (if (vecReads o).1 then h.fmtA else 0)
        && h.fmtC == (if (vecReads o).2 then h.fmtA else 0) && h.round != 1
    | none => false

/-- A vector file's header holds a value that R103 does not define, or a reserved byte that is not zero (R352). -/
def vectorFileBad (b : Bytes) : Bool :=
  let h := vectorHeader b
  field b 4 2 != 1 || decide (4 < h.round) || decide (3 < h.opts) || !zeroAt b 43 17 || !h.provided

/-- Its records break their alignment, do not hold what R105 puts into them, or do not fill its buffer's bytes (R352). -/
def vectorExtentBad (b : Bytes) (len : Nat) : Bool :=
  let h := vectorHeader b
  h.recordBytes % 8 != 0 || decide (h.recordBytes < h.places.getD 4 0 + 4) || decide (len < 64 + h.count * h.recordBytes)

/-- The rounding of element j of a record (R92, R93, R95): the attribute for binary64 to binary32, SR or RNE for a short format. -/
def VectorHeader.rounding (h : VectorHeader) (r : Bytes) (j : Nat) : Rounding :=
  if h.fmtOut < 3 ∧ (h.op ≠ 1 ∨ h.fmtA = 1) then
    (if h.round = 2 then .rz else if h.round = 3 then .rp else if h.round = 4 then .rn else .rne)
  else if h.round = 1 ∧ (h.fmtA = 2 ∨ h.fmtA = 3) then
    .sr (rsDraw (BitVec.ofNat 64 h.seed) h.step h.tensor (BitVec.ofNat 64 (field r 0 8 + j)))
  else .rne

/-- The exact elements of an operand of a conversion, what reading each signals, and whether the block or row is poisoned. -/
def vectorValues (code n : Nat) (b : Bytes) : List Num × List Flags × Bool :=
  match Fmt.ofCode code with
  | some f => ((elements (f.width / 8) n b).map (decodeNum f), [], false)
  | none =>
    if code = 6 then ((elements 1 32 (b.drop 1)).map (ys8Elem (field b 0 1)), [], field b 0 1 == 255)
    else if code = 7 then
      let y : Yb16 := ⟨field b 0 1, elements 2 32 (b.drop 1)⟩
      ((List.range 32).map y.elem, [], y.isPoison)
    else
      let vs := (codesOf (if code = 8 then 8 else 4) n (b.drop 4)).map (codeValue (decodeNum yf16 (field b 0 2)) (decodeNum yf16 (field b 2 2)))
      (vs.map (·.1), vs.map (·.2), (decodeNum yf16 (field b 0 2)).isNaN)

/-- The scale and offset of a row, or the scale and zero point of an activation, that a conversion is given: those of the expected
result (DESIGN CHOICE, log 47). -/
def VectorHeader.given (h : VectorHeader) (r : Bytes) : Nat :=
  let e := h.part r 3 h.fmtOut
  if h.fmtOut = 10 then field e 2 2 + 65536 * field e 1 1 else field e 0 4

/-- A conversion of a record: the result's bytes and its status. -/
def VectorHeader.convert (h : VectorHeader) (r : Bytes) : Bytes × Flags :=
  let x := vectorValues h.fmtA h.elems (h.part r 0 h.fmtA)
  let k := if bit 1 h.opts ∧ 3 ≤ h.fmtOut ∧ h.fmtOut ≤ 5 then h.scaleK else 0
  let g := h.given r
  let w := writeValues h.fmtOut 0 g k (bit 0 h.opts) x.1 (h.rounding r)
  let fs := ((withSignals w.elems x.2.1).map (·.flags)).foldl Flags.or {}
  let out := if h.fmtOut = 10 then w.bytes ++ leBytes 1 (g / 65536) ++ leBytes 2 (g % 65536) else w.scales ++ w.bytes
  (out, fs.or { crowded := decide (0 < w.crowded), zeroBlock := decide (0 < w.zeroBlocks), poisoned := x.2.2 || decide (0 < w.poison) })

/-- An arithmetic operation of a record. -/
def VectorHeader.arith (h : VectorHeader) (r : Bytes) (o : VecOp) : Bytes × Flags :=
  let x := vecElem o (if h.fmtA = 1 then binary64 else binary32) (h.rounding r 0) (leNat (h.part r 0 h.fmtA)) (leNat (h.part r 1 h.fmtB))
    (leNat (h.part r 2 h.fmtC))
  (leBytes (operandSize h.fmtOut 0) x.1, x.2)

/-- An operand of a CHUNK, its elements split (R112, R137). -/
def vectorParts (code n : Nat) (b : Bytes) : List Parts :=
  if code = 10 then (List.range n).map (fun i => splitElem 10 (field b (4 * i + 1) 1) (field b (4 * i) 1))
  else if code = 11 then (List.range n).map (fun i => ⟨Num.ofInt (signedOf 9 (field b (2 * i) 2 % 512)), plusZero, false⟩)
  else (elements (operandSize code 0) n b).map (splitElem code 0)

/-- The entry of a CHUNK record after its passes, whether a conversion lost its sum, and whether a split saturated (R137). -/
def VectorHeader.chunk (h : VectorHeader) (r : Bytes) : Bytes × Flags :=
  let a := vectorParts h.fmtA h.dim (h.part r 0 h.fmtA)
  let b := vectorParts h.fmtB h.dim (h.part r 1 h.fmtB)
  let x := (List.range (if h.fmtA = 2 ∨ h.fmtB = 2 then 3 else 1)).foldl (fun (acc : AccEntry × Bool) pass =>
    let y := acc.1.addChunk (chunkSum ((a.zip b).map (fun p => passPart pass p.1 p.2))) 0
    (y.1, acc.2 || y.2)) (AccEntry.decode (h.part r 2 12), false)
  (x.1.encode, { saturation := (a ++ b).any (·.sat), ovf := x.1.ovf, loss := x.2 })

/-- What a line makes of a record: the result's bytes and the status word (R105). A compare's relation and result the manual does not
give: a free value (log 4). -/
def VectorHeader.run (h : VectorHeader) (r : Bytes) : Bytes × Nat :=
  if h.op = 11 then
    let f := Config.vectorCompare (slice r 0 (h.places.getD 3 0))
    (leBytes (operandSize h.fmtOut 0) f.1.toNat, f.2.toNat % 2048)
  else
    let x := if h.op = 12 then h.chunk r
      else match vectorOp h.op with
        | some o => h.arith r o
        | none => h.convert r
    (x.1, x.2.word)

/-- A record with its expected result and status replaced by those a line produced (R106). -/
def VectorHeader.replaced (h : VectorHeader) (r : Bytes) : Bytes :=
  let x := h.run r
  splice (splice r (h.places.getD 3 0) (padTo (h.padded h.fmtOut) x.1)) (h.places.getD 4 0) (leBytes 4 x.2)

/-- The result file of a vector file (R106). -/
def resultFile (b : Bytes) : Bytes :=
  let h := vectorHeader b
  slice b 0 64 ++ ((List.range h.count).map (fun i => h.replaced (slice b (64 + i * h.recordBytes) h.recordBytes))).flatten

/-! ## The export stream (R106) -/

/-- The items that carry a line's result file: pieces of 512 bytes of KIND 0x06, with the line and the file's number (DESIGN CHOICE, log
47). -/
def resultItems (line file : Nat) (b : Bytes) : List ExportItem :=
  (List.range (ceilDiv b.length 512)).map (fun i =>
    { kind := 6, id := line, index := i, sub := file, payload := slice b (512 * i) (min 512 (b.length - 512 * i)) })

/-- The lines that are available. -/
def State.availableLines (s : State) : List Nat := (List.range 64).filter (fun l => s.lineAvailable (l / 2) (l % 2))

/-- Every available line runs the step's vector files and writes a result file of each to the export stream (R106). -/
def State.runVectors (s : State) (files : List Bytes) : State :=
  (files.zipIdx.flatMap (fun f => s.availableLines.flatMap (fun l => resultItems l f.2 (resultFile f.1)))).foldl State.logItem s

end Sys2Proof.Machine
end

