-- ==== Sys2Proof/Machine/Batch.lean ====
section
/-! DEFINITION. Descriptors and intake buffers: the fields of R343 to R351, the batch of R346 with its feature
blocks (R151) and history event blocks (R221), and the two rounds of validation of R352. A check answers the
event code of the first failure, none when everything passes. -/

namespace Sys2Proof.Machine

/-! ## Fields of a descriptor -/

/-- OPCODE of R343. -/
def dOp (d : Bytes) : Nat := field d 0 1
/-- LAP of R343. -/
def dLap (d : Bytes) : Nat := field d 4 4
/-- BUF_ADDR of a batch (R345). -/
def dBufAddr (d : Bytes) : Nat := field d 16 8
/-- BUF_LEN of a batch. -/
def dBufLen (d : Bytes) : Nat := field d 24 8
/-- SAMPLES of a batch. -/
def dSamples (d : Bytes) : Nat := field d 32 4
/-- EVENTS of a batch. -/
def dEvents (d : Bytes) : Nat := field d 36 4
/-- OUT_ADDR of a batch. -/
def dOutAddr (d : Bytes) : Nat := field d 40 8
/-- OUT_LEN of a batch. -/
def dOutLen (d : Bytes) : Nat := field d 48 8
/-- TABLE_ID of a load or swap (R348, R349). -/
def dTable (d : Bytes) : Nat := field d 16 2
/-- SRC_KIND of a load. -/
def dKind (d : Bytes) : Nat := field d 18 1
/-- VERSION of a load or swap. -/
def dVersion (d : Bytes) : Nat := field d 20 4
/-- FIRST_ROW of a load. -/
def dFirstRow (d : Bytes) : Nat := field d 24 5
/-- ROW_COUNT of a load. -/
def dRowCount (d : Bytes) : Nat := field d 32 8
/-- SRC_ADDR of a load. -/
def dSrcAddr (d : Bytes) : Nat := field d 40 8
/-- SRC_LEN of a load. -/
def dSrcLen (d : Bytes) : Nat := field d 48 8
/-- FLAGS of a swap, an arm or a fence, whose bit 0 is DISCARD, STOP or WAIT_VALID. -/
def dFlag (d : Bytes) : Bool := bit 0 (field d 18 1)
/-- WAIT_POSITION of a fence (R350). -/
def dWaitPos (d : Bytes) : Nat := field d 24 8
/-- WIN_OFFSET of a snapshot (R351). -/
def dWinOffset (d : Bytes) : Nat := field d 16 4
/-- WIN_LEN of a snapshot. -/
def dWinLen (d : Bytes) : Nat := field d 20 4
/-- BUF_ADDR of a snapshot. -/
def dSnapAddr (d : Bytes) : Nat := field d 24 8
/-- BUF_LEN of a snapshot. -/
def dSnapLen (d : Bytes) : Nat := field d 32 8

/-- All ones in a field of so many bytes (R352 step 3). -/
def allOnes (len n : Nat) : Bool := n == 256 ^ len - 1

/-- The first failure of a list of checks. -/
def firstFail : List (Bool × Nat) → Option Nat
  | [] => none
  | (bad, code) :: r => if bad then some code else firstFail r

/-! ## The first round (R352) -/

/-- The reserved bytes and zero rules of each opcode (step 1). -/
def badDesc (d : Bytes) : Bool :=
  let op := dOp d
  !zeroAt d 1 3 || op == 0 || decide (8 < op)
    || ((op == 1 || op == 2) && (!zeroAt d 56 8 || (dOutLen d == 0 && dOutAddr d != 0)))
    || (op == 3 && (!zeroAt d 19 1 || !zeroAt d 29 3 || !zeroAt d 56 8 || decide (2 < dKind d)
        || (dKind d == 0 && (dFirstRow d != 0 || dRowCount d != 0))))
    || ((op == 4 || op == 5) && decide (1 < field d 18 1))
    || (op == 4 && (!zeroAt d 19 1 || !zeroAt d 24 40))
    || (op == 5 && !zeroAt d 19 45)
    || (op == 6 && (decide (1 < field d 18 1) || !zeroAt d 19 5 || !zeroAt d 32 32))
    || (op == 7 && !zeroAt d 40 24)

/-- Whether an opcode is permitted on a port (R334) and on a queue's class (R337). -/
def opAllowed (op port : Nat) (cls : BitVec 2) : Bool :=
  (port == 0 || (op != 4 && op != 5))
    && (if cls = 0 then op == 1 || op == 2 || op == 6 || op == 8
        else if cls = 1 then 3 ≤ op && op ≤ 8
        else false)

/-- A count field of all ones (step 3). -/
def badCount (d : Bytes) : Bool :=
  let op := dOp d
  ((op == 1 || op == 2) && (allOnes 4 (dSamples d) || allOnes 4 (dEvents d) || allOnes 8 (dBufLen d) || allOnes 8 (dOutLen d)))
    || (op == 3 && (allOnes 8 (dRowCount d) || allOnes 8 (dSrcLen d)))
    || (op == 7 && (allOnes 4 (dWinLen d) || allOnes 8 (dSnapLen d)))

/-- Plaintext bytes that the source of a row load implies (R348). -/
def loadLen (t : TableVer) (d : Bytes) : Nat :=
  if dKind d = 1 then dRowCount d * t.segs * t.rs else dRowCount d * t.dim * 4

/-- Source bytes that a plaintext of L bytes takes: sealed pieces in confidential mode (R428). -/
def sealedLen (sealed : Bool) (l : Nat) : Nat := if sealed then l + 32 * ceilDiv l 4064 else l

/-- An extent failure of the descriptor alone (step 4). -/
def State.badExtent (s : State) (d : Bytes) : Bool :=
  let op := dOp d
  let need := ((s.plan.map (fun p => p.layout.outBytes)).getD 0) * dSamples d
  ((op == 1 || op == 2) && (dBufAddr d % 64 != 0 || dOutAddr d % 64 != 0 || dBufLen d < 64 || dSamples d == 0 || dOutLen d < need))
    || (op == 3 && (dSrcAddr d % 64 != 0
        || (dKind d != 0 && (match s.tableVersion (dTable d) (dVersion d) with
          | some t => dSrcLen d != sealedLen s.confidential (loadLen t d) || decide (t.rows < dFirstRow d + dRowCount d)
          | none => false))))
    || (op == 7 && (dWinOffset d % 4 != 0 || dWinLen d % 4 != 0 || dWinLen d == 0 || decide (1048576 < dWinLen d)
        || decide (0x100000 < dWinOffset d + dWinLen d) || dSnapAddr d % 64 != 0 || decide (dSnapLen d < dWinLen d)))

/-- Rows that are all held by ranges of this module (R147). -/
def State.ownsRows (s : State) (t : TableVer) (first count : Nat) : Bool :=
  let mine := (t.ranges.filter (fun r => r.owner == s.me)).foldl (fun a r => a + (min r.last (first + count) - max r.first first)) 0
  mine == count

/-- The checks of a row load that rest on the descriptor (R146, R147): TABLE_BAD or TABLE_NOT_OWNER. -/
def State.rowLoadFail (s : State) (d : Bytes) : Option Nat :=
  match s.tableVersion (dTable d) (dVersion d) with
  | none => some 0x3001
  | some t =>
    if s.plan.isNone || (t.current && s.regionMissing t) then some 0x3001
    else if s.ownsRows t (dFirstRow d) (dRowCount d) then none else some 0x3003

/-- The first round of R352 for a descriptor on a port and class. -/
def State.round1 (s : State) (d : Bytes) (port : Nat) (cls : BitVec 2) : Option Nat :=
  match firstFail [(badDesc d, 0x6103), (!opAllowed (dOp d) port cls, 0x6106), (badCount d, 0x6101), (s.badExtent d, 0x6102)] with
  | some c => some c
  | none => if dOp d = 3 ∧ dKind d ≠ 0 then s.rowLoadFail d else none

/-! ## The batch (R346) -/

/-- A directory entry: KIND, LENGTH, OFFSET. -/
structure DirEntry where
  kind : Nat
  len : Nat
  off : Nat
  zero : Bool
  deriving DecidableEq, Repr

/-- The directory entries of a buffer, as many as BLOCKS says and the buffer holds; a vector file has none (R103). -/
def batchDir (b : Bytes) : List DirEntry :=
  if isVectorFile b then [] else (List.range (min (field b 6 2) ((b.length - 64) / 16))).map (fun i =>
    ⟨field b (64 + 16 * i) 1, field b (64 + 16 * i + 4) 4, field b (64 + 16 * i + 8) 8, zeroAt b (64 + 16 * i + 1) 3⟩)

/-- Whether any two blocks overlap. -/
def dirOverlap : List DirEntry → Bool
  | [] => false
  | e :: r => r.any (fun f => decide (e.off < f.off + f.len ∧ f.off < e.off + e.len)) || dirOverlap r

/-- Offsets that start at 0, never fall, and end at a count. -/
def offsetsOk (os : List Nat) (n : Nat) : Bool :=
  os.head? == some 0 && (os.zip (os.drop 1)).all (fun p => decide (p.1 ≤ p.2)) && os.getLast? == some n

/-- The offsets at byte 16 of a block, n + 1 of them. -/
def blockOffsets (b : Bytes) (off n : Nat) : List Nat := elements 4 (n + 1) (slice b (off + 16) (4 * (n + 1)))

/-- Where the array after the offsets starts, from the start of the block. -/
def afterOffsets (n : Nat) : Nat := roundUp (16 + 4 * (n + 1)) 8

/-- Bytes of a feature block (R151). -/
def featureBytes (bags lookups : Nat) (weighted : Bool) : Nat :=
  afterOffsets bags + 8 * lookups + (if weighted then 4 * lookups else 0)

/-- Bytes of a history event block (R221). -/
def historyBytes (samples events eb : Nat) : Nat := roundUp (afterOffsets samples + 4 * samples) 8 + events * eb

/-- A block's counts of all ones (R152, R222). -/
def blockCountBad (b : Bytes) (e : DirEntry) : Bool :=
  (e.kind == 2 && (allOnes 4 (field b (e.off + 4) 4) || allOnes 4 (field b (e.off + 8) 4)))
    || (e.kind == 3 && (allOnes 4 (field b (e.off + 4) 4) || allOnes 4 (field b (e.off + 8) 4)))

/-- The extent failures that R152 and R222 name. -/
def blockExtentBad (b : Bytes) (samples : Nat) (e : DirEntry) : Bool :=
  if e.kind = 2 then
    let bags := field b (e.off + 4) 4
    let n := field b (e.off + 8) 4
    bags != samples || decide (b.length < e.off + featureBytes bags n (bit 0 (field b (e.off + 3) 1)))
      || !offsetsOk (blockOffsets b e.off bags) n
  else if e.kind = 3 then
    let k := field b (e.off + 4) 4
    let n := field b (e.off + 8) 4
    k != samples || decide (b.length < e.off + historyBytes k n (field b (e.off + 2) 2)) || !offsetsOk (blockOffsets b e.off k) n
  else false

/-- The header's failures of step 4. -/
def State.headerExtentBad (s : State) (d b : Bytes) : Bool :=
  let n := field b 6 2
  let dir := batchDir b
  let dense := dir.filter (fun e => e.kind == 1)
  n == 0 || decide (4096 < n) || decide (dBufLen d < 64 + 16 * n) || field b 8 4 != dSamples d || field b 12 4 != dEvents d || field b 16 8 != dBufLen d
    || (dir.filter (fun e => e.kind == 3)).foldl (fun a e => a + field b (e.off + 8) 4) 0 != dEvents d
    || dir.any (fun e => e.off % 8 != 0 || decide (e.off < 64 + 16 * n) || decide (dBufLen d < e.off + e.len))
    || dirOverlap dir || decide (1 < dense.length)
    || dense.any (fun e => e.len != dSamples d * ((s.plan.map (fun p => p.layout.denseBytes)).getD 0))
    || dir.any (fun e => blockExtentBad b (dSamples d) e)

/-- The tables of the job: those that the plan's budget table names (DEDUCED; log 15). -/
def State.jobTables (s : State) : List Nat := ((s.plan.map (fun p => p.budgets.map (·.table))).getD []).eraseDups

/-- A history set entry of the plan (R214). -/
def State.histSet (s : State) (id : Nat) : Option Bytes :=
  match s.plan with
  | some p => p.layout.history.find? (fun e => field e 0 2 == id)
  | none => none

/-- A feature block's failures of R152 after its extents. -/
def State.featureFail (s : State) (b : Bytes) (e : DirEntry) : Option Nat :=
  let bags := field b (e.off + 4) 4
  let pool := field b (e.off + 2) 1
  let flags := field b (e.off + 3) 1
  firstFail
    [(!s.jobTables.contains (field b e.off 2), 0x3008),
     (decide (3 < pool) || decide (1 < flags) || (bit 0 flags != (pool == 3)) || !zeroAt b (e.off + 12) 4
        || !zeroAt b (e.off + 16 + 4 * (bags + 1)) (afterOffsets bags - 16 - 4 * (bags + 1)), 0x3009)]

/-- The event records of a sample, each with its NOAPPEND bit and whether its reserved bits are zero. -/
def sampleEvents (b : Bytes) (e : DirEntry) (k : Nat) : List (Bool × Bool) :=
  let samples := field b (e.off + 4) 4
  let eb := field b (e.off + 2) 2
  let os := blockOffsets b e.off samples
  let base := e.off + roundUp (afterOffsets samples + 4 * samples) 8
  (List.range (os.getD (k + 1) 0 - os.getD k 0)).map (fun i =>
    let w := field b (base + (os.getD k 0 + i) * eb) 8
    (bit 0 w, w / 2 == 0))

/-- A history event block's failures of R222 after its extents, padding that is not zero among them (R221); `seen` are the sets of earlier blocks. -/
def State.historyFail (s : State) (b : Bytes) (seen : List Nat) (e : DirEntry) : Option Nat :=
  let id := field b e.off 2
  let eb := field b (e.off + 2) 2
  let samples := field b (e.off + 4) 4
  match s.histSet id with
  | none => some 0x3008
  | some h =>
    let bad := (List.range samples).any (fun k =>
      let ev := sampleEvents b e k
      decide (field h 18 2 < ev.length) || ev.any (fun x => !x.2)
        || ((ev.dropWhile (fun x => !x.1)).any (fun x => !x.1)))
    if seen.contains id || !zeroAt b (e.off + 12) 4 || !zeroAt b (e.off + 16 + 4 * (samples + 1)) (afterOffsets samples - 16 - 4 * (samples + 1))
        || !zeroAt b (e.off + afterOffsets samples + 4 * samples) (roundUp (afterOffsets samples + 4 * samples) 8 - afterOffsets samples - 4 * samples) || eb < 16 || 4096 < eb || eb % 8 != 0 || bad then some 0x3009 else none

/-- Step 5: the blocks one at a time in directory order. -/
def State.blockFails (s : State) (b : Bytes) : List Nat → List DirEntry → Option Nat
  | _, [] => none
  | seen, e :: r =>
    let f := if e.kind = 2 then s.featureFail b e else if e.kind = 3 then s.historyFail b seen e else none
    match f with
    | some c => some c
    | none => State.blockFails s b (if e.kind = 3 then field b e.off 2 :: seen else seen) r

/-- The plan is a conformance plan, which takes vector files (R106). -/
def State.takesVectors (s : State) : Bool := (s.plan.map (fun p => p.layout.conformance)).getD false

/-- The second round of R352 for a batch: for a conformance plan's TRAIN_BATCH that names a vector file, that file's (R103, R106). -/
def State.round2Batch (s : State) (d b : Bytes) : Option Nat :=
  let dir := batchDir b
  if s.takesVectors && dOp d == 1 && isVectorFile b then
    firstFail [(vectorFileBad b, 0x6103), (vectorExtentBad b (dBufLen d), 0x6102)]
  else
  match firstFail
    [(field b 0 4 != 0x48544259 || field b 4 2 != 1 || !zeroAt b 24 40
        || dir.any (fun e => !e.zero || e.kind == 0 || decide (3 < e.kind)), 0x6103),
     (allOnes 2 (field b 6 2) || allOnes 4 (field b 8 4) || allOnes 4 (field b 12 4) || allOnes 8 (field b 16 8)
        || dir.any (fun e => allOnes 4 e.len || blockCountBad b e), 0x6101),
     (s.headerExtentBad d b, 0x6102)] with
  | some c => some c
  | none => s.blockFails b [] dir

end Sys2Proof.Machine
end

