-- ==== Sys2Proof/Machine/StepOps.lean ====
section
/-! DEFINITION. DONE reports (R49, R53, R169): a module's own, those of the modules below it in the tree of R43, and the
one that a lead module forwards for its pen. -/

namespace Sys2Proof.Machine

/-- The filling interval: a job runs and step 0 has not started (R49). -/
def State.filling (s : State) : Bool := s.jobRuns && s.seq.phases.started.isEmpty

/-- READY(table, version) of this module's pending swaps, in the order taken in (R169). The filling interval's DONE carries
none: it belongs to no step. -/
def State.readyList (s : State) : List (Nat × Nat) :=
  if s.filling then [] else (s.emb.swaps.filter (fun w => !w.announced)).map (fun w => (w.table, w.version))

/-- This module's own report. -/
def State.ownDone (s : State) : DoneReport := ⟨s.active.moduleId, s.seq.step, s.readyList, s.seq.periodOk⟩

/-- The bytes of a DONE message: module, step, the period result and the READY entries (log 6). -/
def doneBody (r : DoneReport) : Bytes :=
  leBytes 2 r.module.toNat ++ leBytes 6 r.step.toNat ++ leBytes 1 (b2n r.periodOk) ++ leBytes 2 r.ready.length
    ++ (r.ready.map (fun e => leBytes 2 e.1 ++ leBytes 4 e.2)).flatten

/-- Whether this module and every module below it have reported DONE for the current step. -/
def State.allDone (s : State) : Bool :=
  s.seq.doneSent && s.treeChildren.all (fun m => s.seq.doneFrom.any (fun r => r.module.toNat == m))

/-- The one report for this module and those below it: READY where every report carries it, and a period result that holds
for all. -/
def State.joinedDone (s : State) : DoneReport :=
  ⟨s.active.moduleId, s.seq.step,
    (match s.seq.doneFrom with
      | [] => []
      | r :: rs => r.ready.filter (fun e => rs.all (fun x => x.ready.contains e))),
    s.seq.doneFrom.all (·.periodOk)⟩

/-- Forward the report up the tree once it is complete (R53). -/
def State.forwardDone (s : State) : State :=
  if s.allDone && !s.seq.doneUp then ({ s with seq.doneUp := true } : State).upTree .done (doneBody s.joinedDone) else s

/-- The module reports DONE for the current step or for the filling interval. -/
def State.reportDone (s : State) : State :=
  if s.seq.doneSent then s
  else ({ s with seq.doneFrom := s.ownDone :: s.seq.doneFrom, seq.doneSent := true, seq.doneTime := s.clk.time } : State).forwardDone

/-- DONE on the state: a report of a module below for the current step. -/
def State.takeDone (s : State) (r : DoneReport) : State :=
  if s.jobRuns && decide (r.step = s.seq.step) && s.treeChildren.contains r.module.toNat
      && !s.seq.doneFrom.any (fun x => x.module == r.module) then
    ({ s with seq.doneFrom := s.seq.doneFrom ++ [r] } : State).forwardDone
  else s

/-- DONE: a report arrives up the tree; a lead module forwards one DONE for its pen (R43, R53). -/
def execDone (r : DoneReport) (s : State) : Host.Outcome State Fault Refusal := .next (s.takeDone r)

/-- EXCESS_DECLARATION on the state: an excess of a module below for the current step, passed on up the tree. -/
def State.takeExcess (s : State) (m : Nat) (step : BitVec 48) : State :=
  if s.jobRuns && decide (step = s.seq.step) && s.treeChildren.contains m then
    ({ s with seq.excess := true, seq.excessSpent := false } : State).upTree .excess (leBytes 6 step.toNat)
  else s

/-- EXCESS_DECLARATION: a declaration travels up the tree and forces a HOLD (R67, R68). -/
def execExcessDeclaration (module : BitVec 12) (step : BitVec 48) (s : State) : Host.Outcome State Fault Refusal :=
  .next (s.takeExcess module.toNat step)

end Sys2Proof.Machine
end

