-- ==== Sys2Proof/Machine/HostOps.lean ====
section
/-! DEFINITION. What the host-queue commands share: positions (R341), reads of host memory and their failures
(R353), failing a descriptor (R352), the intake of the next batch (R64, R67, R347), completion records (R354),
device-written rings (R357, R358) and MSI-X (R363). -/

namespace Sys2Proof.Machine

/-! ## Positions (R341) -/

/-- Positions count modulo N × 2^32. -/
def Queue.modulus (q : Queue) : Nat := q.entries * 2 ^ 32
/-- How far position a lies beyond position b. -/
def Queue.ahead (q : Queue) (a b : Nat) : Nat := (a % q.modulus + q.modulus - b % q.modulus) % q.modulus
/-- The position after p. -/
def Queue.next (q : Queue) (p : Nat) : Nat := (p + 1) % q.modulus
/-- The slot of a position. -/
def Queue.slot (q : Queue) (p : Nat) : Nat := p % q.entries
/-- The port of a queue (R336). -/
def queuePort (q : Nat) : Nat := q / 2048
/-- The group of a queue (R336). -/
def queueGroup (q : Nat) : Nat := q / 64
/-- Whether a class is a device-written ring (R337). -/
def deviceRing (cls : BitVec 2) : Bool := cls == 2 || cls == 3

/-- A group. -/
def State.group (s : State) (g : Nat) : Group := NMap.getD s.host.groups g {}
/-- Change a group. -/
def State.setGroup (s : State) (g : Nat) (f : Group → Group) : State :=
  { s with host.groups := NMap.modify s.host.groups g {} f }

/-! ## Reads of host memory -/

/-- Issue a read; it stays outstanding until it completes or fails (R353, R366). -/
def State.readHost (s : State) (p addr len : Nat) : State :=
  if (s.port p).orphaned then s
  else (s.setPort p (fun x => { x with outstanding := x.outstanding ++ [.hostRead p addr len] })).toHost p (.hostRead p addr len)

/-- Reads of a range, at most 4,096 bytes each (R331). -/
def State.readBuffer : Nat → State → Nat → Nat → Nat → State
  | 0, s, _, _, _ => s
  | fuel + 1, s, p, addr, len =>
    if len = 0 then s
    else State.readBuffer fuel (s.readHost p addr (min len 4096)) p (addr + 4096) (len - 4096)

/-- Whether an output is a read of an address range. -/
def isReadIn (lo len : Nat) : Output → Bool
  | .hostRead _ a _ => decide (lo ≤ a ∧ a < lo + max len 1)
  | _ => false

/-- The reads of a range have completed or failed. -/
def State.readOver (s : State) (p addr len : Nat) : State :=
  s.setPort p (fun x => { x with outstanding := x.outstanding.filter (fun o => !isReadIn addr len o) })

/-! ## Descriptors -/

/-- Change the descriptor at a position. -/
def State.setDesc (s : State) (q pos : Nat) (f : Desc → Desc) : State :=
  s.setQueue q (fun x => { x with descs := x.descs.map (fun d => if d.pos = pos then f d else d) })

/-- A descriptor's work is done with a status and a result. -/
def State.finishDesc (s : State) (q pos status result : Nat) : State :=
  s.setDesc q pos (fun d => { d with stage := .finished, status := BitVec.ofNat 16 status, result := result })

/-- Every batch of the coming step has been read and validated: its intake ends (R64). That ends the filling interval's
work (R49). -/
def State.endIntake (s : State) : State :=
  let i := s.seq.next
  let open' := i.order.any (fun o => (s.queue o.1).descs.any (fun d => d.pos == o.2 && d.stage == .taken && !d.intakeDone))
  if i.active && !i.ended && !open' then
    let s1 : State := { s with seq.next := { i with ended := true, endTime := (s.clk.time.toNat - i.began.toNat) / 10 } }
    if s1.filling then s1.reportDone else s1
  else s

/-- A batch is withdrawn from the step that would take it in. -/
def State.withdraw (s : State) (q : Nat) (d : Desc) : State :=
  let i := s.seq.next
  if i.order.contains (q, d.pos) then
    { s with seq.next := { i with
        order := i.order.filter (fun o => o != (q, d.pos))
        batches := i.batches - 1, samples := i.samples - dSamples d.bytes, events := i.events - dEvents d.bytes
        bytes := i.bytes - dBufLen d.bytes } }
  else s

/-- A descriptor fails (R352, R353): its status is fixed, the failure counted, and its event raised at most once
per queue per step. Nothing of it executes. -/
def State.failDesc (s : State) (q pos status : Nat) : State :=
  let s0 := match (s.queue q).descs.find? (fun d => d.pos == pos) with
    | some d => s.withdraw q d
    | none => s
  let s1 := s0.finishDesc q pos status 0
  let s2 := { s1.setQueue q (fun x => { x with code := BitVec.ofNat 16 status }) with host.descFail := satAdd s1.host.descFail 1 }
  (s2.raiseOnce q status (unitPort (queuePort q)) q pos).endIntake

/-- Work that had begun stops with a status (R147, R381, R428, R489): the event once per queue per step. -/
def State.stopDesc (s : State) (q pos status result : Nat) : State :=
  ((s.finishDesc q pos status result).setQueue q (fun x => { x with code := BitVec.ofNat 16 status })).raiseOnce q status
    (unitPort (queuePort q)) q pos

/-- Every FENCE that waits on a queue that is lost fails with FENCE_BAD (R350). -/
def State.failFences (s : State) (wq : Nat) : State :=
  s.host.queues.foldl (fun (st : State) e =>
    e.2.descs.foldl (fun (st : State) d =>
      if d.stage = .waiting ∧ dOp d.bytes = 6 ∧ dFlag d.bytes ∧ dTable d.bytes = wq then st.failDesc e.1 d.pos 0x6107 else st) st) s

/-- A queue or ring halts (R341, R344, R357). -/
def State.haltQueue (s : State) (q code : Nat) : State :=
  let s1 := (s.setQueue q (fun x => { x with mode := .halted, code := BitVec.ofNat 16 code })).raise code (unitPort (queuePort q)) q
  if (s.queue q).cls = 3 ∧ s.rel.exp.queue = q then s1.breakExport else s1

/-- Ask for the next descriptor of a submission queue (R341, R344). -/
def State.fetchNext (s : State) (q : Nat) : State :=
  let x := s.queue q
  if x.mode = .armed ∧ !deviceRing x.cls ∧ !x.fetching ∧ !x.stale ∧ x.c ≠ x.d then
    (s.setQueue q (fun y => { y with fetching := true })).readHost (queuePort q) (x.ring.toNat + 64 * x.slot x.c) 64
  else s

/-- The next descriptor a queue may take: the first that is not yet taken in, when nothing ahead of it holds the
queue (R149, R344, R350). -/
def Queue.nextReady (x : Queue) : Option Desc :=
  match x.descs.find? (fun d => d.stage == .reading || d.stage == .ready || d.stage == .waiting) with
  | some d => if d.stage = .ready then some d else none
  | none => none

/-- The next descriptor of an armed queue, when it has an opcode. -/
def State.readyDesc (s : State) (q op : Nat) : Option Desc :=
  if (s.queue q).mode = .armed then
    match (s.queue q).nextReady with
    | some d => if dOp d.bytes = op then some d else none
    | none => none
  else none

/-! ## Intake (R64, R67, R345, R347) -/

/-- t + Q + 20 µs, in ns (R64): T_e is the first tick at or after it. -/
def State.readyTime (s : State) (q : Nat) (t : Nat) : Nat := t + 250 * 2 ^ (s.group (queueGroup q)).poll.toNat + 20000

/-- A tick comes: it is T_e of a descriptor whose time has come (R64). -/
def Desc.atTick (now tick : Nat) (d : Desc) : Desc := if d.eligible.isNone ∧ d.readyAt ≤ now then { d with eligible := some tick } else d

/-- Whether the intake that takes a descriptor now is the first that begins at or after T_e, or an earlier one (R66). -/
def State.inTime (s : State) (d : Desc) : Bool :=
  match d.eligible with
  | some e => s.filling || decide (s.seq.intake.tick < e)
  | none => true

/-- The batches of a step are not covered: a budget of the plan is exceeded (R66). -/
def State.uncover (s : State) (step : BitVec 48) : State :=
  { s with host.queues := s.host.queues.map (fun e => (e.1, { e.2 with descs := e.2.descs.map (fun d =>
      if dOp d.bytes = 1 ∧ d.stage = .taken ∧ d.step = step then { d with covered := false } else d) })) }

/-- The maxima of the plan that a batch alone exceeds, by the byte of its descriptor field (R347). -/
def overMaxima (h : PlanHeader) (d : Bytes) : List Nat :=
  (if h.maxSamples < dSamples d then [32] else []) ++ (if h.maxEvents < dEvents d then [36] else [])
    ++ (if h.maxIntakeBytes < dBufLen d then [24] else [])

/-- Whether a batch leaves the step within its maxima (R64). -/
def fitsStep (h : PlanHeader) (i : IntakeState) (d : Bytes) : Bool :=
  decide (i.batches + 1 ≤ h.maxBatches ∧ i.samples + dSamples d ≤ h.maxSamples ∧ i.events + dEvents d ≤ h.maxEvents
    ∧ i.bytes + dBufLen d ≤ h.maxIntakeBytes)

/-- The number of the step whose batch is being taken in (R48): the coming one. -/
def State.nextStep (s : State) : BitVec 48 := if s.jobRuns && !s.filling then s.seq.step + 1 else 0

/-- A TRAIN_BATCH enters the coming step: counted, bound to the step, and its buffer read. -/
def State.enterBatch (s : State) (q : Nat) (d : Desc) : State :=
  let i := s.seq.next
  let s1 : State := { s with seq.next := { i with
      ended := false, order := i.order ++ [(q, d.pos)], batches := i.batches + 1
      samples := i.samples + dSamples d.bytes, events := i.events + dEvents d.bytes, bytes := i.bytes + dBufLen d.bytes } }
  let s2 := s1.setDesc q d.pos (fun x => { x with
    stage := .taken, step := s.nextStep, sampleBase := i.samples
    covered := s.inTime x || x.covered })
  State.readBuffer (dBufLen d.bytes / 4096 + 1) s2 (queuePort q) (dBufAddr d.bytes) (dBufLen d.bytes)

/-- The step's budgets are exceeded by a batch alone: BUDGET for each field, and an excess for the step that
takes it in (R67, R347). -/
def State.overBudget (s : State) (fields : List Nat) (d : Bytes) : State :=
  let s1 := fields.foldl (fun (st : State) f => st.raise 0x1202 0 f (if f = 24 then dBufLen d else field d f 4)) s
  ({ s1 with seq.next.excess := true, seq.next.closed := true } : State).uncover s.nextStep

/-- Intake takes the next TRAIN_BATCH of a queue when it may (R64, R347); the state unchanged otherwise. -/
def State.takeBatch (s : State) (q : Nat) : State :=
  let i := s.seq.next
  match s.plan, s.readyDesc q 1 with
  | some pl, some d =>
    let exceeded := overMaxima pl.header d.bytes
    if !i.active || i.closed || s.emb.next.done || (s.filling && s.seq.doneSent) then s
    else if exceeded.isEmpty then (if fitsStep pl.header i d.bytes then s.enterBatch q d else s)
    else if i.batches = 0 then (s.enterBatch q d).overBudget exceeded d.bytes
    else s
  | _, _ => s

/-- Take from a queue until nothing more is taken. -/
def State.takeAll : Nat → State → Nat → State
  | 0, s, _ => s
  | fuel + 1, s, q =>
    let t := s.takeBatch q
    if t.seq.next.order = s.seq.next.order then s else State.takeAll fuel t q

/-- The intake of a GO tick: the training queues in ascending number, within a queue ring order (R64). -/
def State.takeEveryBatch (s : State) : State :=
  (s.host.queues.filter (fun e => e.2.cls == 0)).foldl (fun (st : State) e => State.takeAll (e.2.descs.length + 1) st e.1) s

/-! ## MSI-X (R363) -/

/-- Send a message of a port's vector, or set its pending bit while it is masked. -/
def State.msix (s : State) (p v : Nat) : State :=
  let e := NMap.getD (s.port p).msix v {}
  if e.masked then s.setPort p (fun x => { x with msix := NMap.insert x.msix v { e with pending := true } })
  else s.toHost p (.msix p v)

/-- A completion record or producer word was written for a queue. -/
def State.notify (s : State) (q : Nat) : State :=
  let x := s.queue q
  if !x.irqEn then s
  else if x.holding then s.setQueue q (fun y => { y with more := true })
  else (s.msix (queuePort q) x.vector.toNat).setQueue q (fun y => { y with holding := decide (y.holdoff ≠ 0), more := false })

/-! ## Completions (R354, R355) -/

/-- Whether the descriptor wrote data to host memory before its completion. -/
def Desc.hasData (d : Desc) : Bool := (dOp d.bytes == 1 || dOp d.bytes == 2 || dOp d.bytes == 7) && d.status == 0 && decide (0 < d.result)

/-- The completion record of a descriptor (R354). -/
def completionRecord (q : Nat) (x : Queue) (d : Desc) (step : BitVec 48) (late : Bool) : Bytes :=
  let batch := dOp d.bytes == 1 || dOp d.bytes == 2
  leBytes 2 q ++ leBytes 2 d.status.toNat ++ leBytes 4 d.pos ++ leBytes 8 (if d.tagKnown then field d.bytes 8 8 else 0)
    ++ leBytes 6 (if batch then d.step else step).toNat ++ leBytes 1 (if batch then min 255 d.slips else 0)
    ++ leBytes 1 (b2n d.rewritten + 2 * b2n late + 4 * b2n d.voided + 8 * b2n d.excess)
    ++ leBytes 4 (min d.result (2 ^ 32 - 1)) ++ leBytes 3 0 ++ leBytes 1 ((d.pos / x.entries % 2) ^^^ 1)

/-- The output bytes that the stage programs left for a batch (R345). -/
def State.batchOutput (s : State) (d : Desc) : Bytes :=
  match s.plan with
  | some p => s.tileRead p.layout.outTile.val (p.layout.outAddr + d.sampleBase * p.layout.outBytes) (dSamples d.bytes * p.layout.outBytes)
  | none => []

/-- A batch has done its work: its outputs are the result, and its flags those of the step (R354, R355). -/
def State.finishBatch (s : State) (q : Nat) (d : Desc) : State :=
  let n := if dOutLen d.bytes = 0 then 0 else (s.batchOutput d).length
  s.setDesc q d.pos (fun x => { x with
    stage := .finished, result := n, voided := x.voided || s.seq.void.any || s.seq.stats.voided, excess := x.excess || s.seq.excess
    data := if n = 0 then [] else s.batchOutput d })

/-- Write the data that a completion covers: a batch's outputs, or a snapshot's words. -/
def State.writeOutputs (s : State) (q : Nat) (d : Desc) : State :=
  if d.hasData then
    s.toHost (queuePort q) (.hostWrite (queuePort q) (if dOp d.bytes = 7 then dSnapAddr d.bytes else dOutAddr d.bytes) d.data)
  else s

/-- The tick T_(e+2+s) before which a descriptor's record is to be visible, later by one for each deferral of an evaluation slot
(R66). -/
def State.bound (s : State) (d : Desc) : Nat := d.eligible.getD s.clk.tickNo + 2 + d.slips + d.deferrals

/-- Whether a covered descriptor's record becomes visible after the bound of R66. -/
def State.late (s : State) (d : Desc) : Bool := d.covered && decide (s.bound d ≤ s.clk.tickNo)

/-- What the record of a descriptor still needs when it leaves late. -/
def State.completionInfo (s : State) (d : Desc) : CompletionInfo where
  hasData := d.hasData
  batch := dOp d.bytes == 1 || dOp d.bytes == 2
  bound := if d.covered then some (s.bound d) else none
  holds := s.clk.holds

/-- The completion at position F, when its descriptor has finished: its outputs, then its record, then an MSI-X
message (R355, R362). An orphaned queue's completion is not written (R370). -/
def State.complete (s : State) (q : Nat) : State :=
  let x := s.queue q
  match x.descs.find? (fun d => if x.mute then d.stage == .finished else d.pos == x.f) with
  | none => s
  | some d =>
    if d.stage = .finished then
      let s1 := s.setQueue q (fun y => { y with f := y.next y.f, descs := y.descs.filter (fun e => e.pos != d.pos) })
      if x.mute then s1
      else
        let r := completionRecord q x d s.stepOrNone (s.late d)
        ((s1.writeOutputs q d).toHost (queuePort q)
          (.completion (queuePort q) (x.aux.toNat + 32 * x.slot d.pos) r (s.completionInfo d))).notify q
    else s

/-! ## Device-written rings (R357) -/

/-- Whether a ring has a free entry. -/
def Queue.free (x : Queue) : Bool := decide (x.ahead x.p x.k < x.entries)

/-- Write one entry and the producer word that covers it. -/
def State.writeEntry (s : State) (q size : Nat) (e : Bytes) : State :=
  let x := s.queue q
  let p := queuePort q
  let s1 := s.toHost p (.hostWrite p (x.ring.toNat + size * x.slot x.p) (padTo size e))
  let s2 := s1.setQueue q (fun y => { y with p := y.next y.p })
  (s2.toHost p (.hostWrite p x.aux.toNat (leBytes 8 (x.next x.p)))).notify q

/-- A TELEMETRY ring entry (R358). -/
def telemetryEntry (pos : Nat) (r : TelRecord) : Bytes :=
  padTo 512 (leBytes 2 r.kind ++ leBytes 2 r.body.length ++ leBytes 4 0 ++ leBytes 8 pos ++ List.replicate 48 0 ++ r.body)

/-! ## Step records in the ring (R72, R73) -/

/-- A step record's 252-byte body with LOST, when it is not redacted, and the CRC (R72, R74). -/
def sealStepRecord (body : Bytes) (lost : Nat) : Bytes :=
  let b := if bit 8 (field body 6 2) then body else splice body 220 (leBytes 4 lost)
  b ++ leBytes 4 (crc32c b)

/-- Held step records enter the ring while it has room (R73). -/
def State.refillHeld : Nat → State → State
  | 0, s => s
  | fuel + 1, s =>
    match s.host.tel.held with
    | [] => s
    | r :: rest =>
      if 0 < s.telemetryRoom then
        let s1 : State := { s with host.tel.held := rest, host.tel.lost := 0 }
        State.refillHeld fuel (s1.acceptRecord 1 (sealStepRecord r.body s.host.tel.lost))
      else s

/-- A step record is offered to the ring: it enters, or is held; the 65th held discards the oldest (R73). -/
def State.offerStepRecord (s : State) (body : Bytes) : State :=
  let all := s.host.tel.held ++ [⟨1, body⟩]
  let gone := all.length - 64
  State.refillHeld 65 { s with host.tel.held := all.drop gone, host.tel.lost := s.host.tel.lost + gone }

end Sys2Proof.Machine
end

