-- ==== Sys2Proof/Machine/ChurnOps.lean ====
section
/-! DEFINITION. The operations that the churn commands share: the record under work and its place (R174,
R184), registers lane by lane (R183, R191), the fields that LDF reads and STF writes (R192, R193), the
program's constants (R186, R187), and how a new record leaves (R201 to R207). -/

namespace Sys2Proof.Machine

/-! ## Lines, contexts -/

/-- The line of a context. -/
def ctxLine (c : CtxId) : LineId := ⟨c.tile, c.line⟩
/-- The churn's unit code: stage 10 (R25, R38). -/
def churnUnit (line : Nat) : Half := unitStage (line / 2) (line % 2) 10

/-- A churn. -/
def State.churn (s : State) (line : Nat) : Churn := NMap.getD s.churns line {}
/-- Change a churn. -/
def State.setChurn (s : State) (line : Nat) (f : Churn → Churn) : State :=
  { s with churns := NMap.modify s.churns line {} f }
/-- A record context. -/
def State.ctx (s : State) (c : CtxId) : Ctx := NMap.getD (s.churn (lineIx (ctxLine c))).ctxs c.ctx.val {}
/-- Change a record context. -/
def State.setCtx (s : State) (c : CtxId) (f : Ctx → Ctx) : State :=
  s.setChurn (lineIx (ctxLine c)) (fun k => { k with ctxs := NMap.modify k.ctxs c.ctx.val {} f })

/-- Lane l of register r (R183). -/
def Ctx.reg (x : Ctx) (r l : Nat) : Nat := (NMap.getD x.v (32 * r + l) 0).toNat
/-- The 32 lanes of a register. -/
def Ctx.lanes (x : Ctx) (r : Nat) : List Nat := (List.range 32).map (x.reg r)
/-- Write the 32 lanes of a register. -/
def Ctx.setLanes (x : Ctx) (r : Nat) (vs : List Nat) : Ctx :=
  { x with v := (vs.zipIdx).foldl (fun m p => NMap.insert m (32 * r + p.2) (BitVec.ofNat 32 p.1)) x.v }
/-- Active elements of the current block (R184). -/
def Ctx.activeLanes (x : Ctx) : Nat := min 32 (x.nAct - 32 * x.block)

/-! ## The record under work -/

/-- What a sweep item is: its KIND of R189, identifier, place, size, elements, and how its position keys a
draw (R174, R184, R198). -/
structure ItemInfo where
  kind : Nat
  id : Nat
  addr : Nat
  size : Nat
  elems : Nat
  position : Nat
  deriving DecidableEq, Repr

/-- The place and shape of a sweep item. -/
def State.itemInfo (s : State) (it : SweepItem) : ItemInfo :=
  match it with
  | .dense t b =>
    match s.dense t with
    | some d => ⟨1, t, denseAddr d b, denseSize d.planes, 32, b * 32⟩
    | none => ⟨1, t, 0, 0, 32, b * 32⟩
  | .row t v x g =>
    match s.tableVersion t v with
    | some tv => ⟨2, t, tv.recordAddr x g, tv.rs, segElems tv.code tv.layout tv.dim g, x * tv.dim + g * segDim tv.code tv.layout tv.dim⟩
    | none => ⟨2, t, 0, 0, 0, 0⟩

/-- The table version of a row item. -/
def State.itemTable (s : State) (it : SweepItem) : Option TableVer :=
  match it with
  | .dense _ _ => none
  | .row t v _ _ => s.tableVersion t v

/-- The planes of a dense item's record, as its tensor's layout gives them. -/
def State.itemPlanes (s : State) (it : SweepItem) : Nat :=
  match it with
  | .dense t _ => ((s.dense t).map (·.planes)).getD 1
  | .row _ _ _ _ => 0

/-- The segment of an item. -/
def itemSegment : SweepItem → Nat
  | .dense _ _ => 0
  | .row _ _ _ g => g

/-- The watch key of an item (R196, R243). -/
def State.itemKey (s : State) (it : SweepItem) : Nat :=
  let i := s.itemInfo it
  watchKey i.kind i.id

/-- The sweep-table entry of a line for a KIND and ID (R189). -/
def State.sweepEntry (s : State) (line kind id : Nat) : Option Bytes :=
  match s.plan with
  | some p => (p.layout.sweep.find? (fun e => lineIx e.1 == line && field e.2 2 1 == kind && field e.2 0 2 == id)).map (·.2)
  | none => none

/-- A churn program block of the plan (R186). -/
def State.program (s : State) (id : Nat) : Option Bytes :=
  match s.plan with
  | some p => p.layout.programs.find? (fun b => field b 0 2 == id)
  | none => none

/-- The other line of a line's tile. -/
def otherLine (line : Nat) : Nat := if line % 2 = 0 then line + 1 else line - 1

/-- The line whose list a churn runs, with its sweep table, constants and prologues: its own, or after a takeover that of the tile's
other line (R187, R209, R210). -/
def State.listLine (s : State) (line : Nat) : Nat := if (s.churn line).resumed then otherLine line else line

/-- The program that a churn runs for an item. -/
def State.itemProgram (s : State) (line : Nat) (it : SweepItem) : Nat :=
  let i := s.itemInfo it
  ((s.sweepEntry (s.listLine line) i.kind i.id).map (fun e => field e 4 2)).getD 0

/-- The program of a context: its record's, or in a context that holds none, where a prologue runs, that of the first record that
the churn has not read (R185; DEDUCED, log 44). -/
def State.ctxProgram (s : State) (c : CtxId) : Nat :=
  let line := lineIx (ctxLine c)
  if (s.ctx c).active then (s.ctx c).prog
  else (((s.churn line).list[(s.churn line).h]?).map (s.itemProgram line)).getD 0

/-! ## Constants (R186, R187) -/

/-- p of decay_term: square and multiply from the most significant 1 bit of t down (R187). -/
def decayPower : Nat → Nat → Nat → Nat → Nat
  | 0, _, _, p => p
  | k + 1, b, t, p =>
    let q := mul64 p p
    decayPower k b t (if bit k t then mul64 q b else q)

/-- decay_term(beta, t) of R187. -/
def decayTerm (beta t : Nat) : Nat :=
  let b := (convert binary32 binary64 .rne true 0 beta).1
  let p := decayPower (t.log2 + 1) b t (one binary64)
  (convert binary64 binary32 .rne true 0 (fSub binary64 .rne (one binary64) p).1).1

/-- The constants C56 to C63 of a program for update count t (R187). -/
def stepConstants (prog : Bytes) (t : Nat) : List Nat :=
  let warm := field prog 32 4
  let tn := Num.ofInt t
  let c60 := if warm = 0 ∨ warm ≤ t then one binary32
             else (convert binary64 binary32 .rne true 0
               (fDiv binary64 .rne (to64 tn) (to64 (Num.ofInt warm))).1).1
  (List.range 4).map (fun i => decayTerm (field prog (16 + 4 * i) 4) t)
    ++ [c60, (convert binary64 binary32 .rne true 0 (to64 tn)).1, 0, 0]

/-- The update count of a step for a program: T_BASE + n + 1 (R187). -/
def updateCount (prog : Bytes) (n : Nat) : Nat := field prog 8 6 + n + 1

/-- Constant C_k of a program on a churn (R186, R187). -/
def State.constant (s : State) (line prog k : Nat) : Nat :=
  if k < 56 then ((s.program prog).map (fun b => field b (64 + 4 * k) 4)).getD 0
  else (NMap.getD (s.churn (s.listLine line)).consts (64 * prog + k) 0).toNat

/-! ## What a record adds to the watch -/

/-- An instruction of the record under work adds to its tally (R83, R243). -/
def State.addTally (s : State) (c : CtxId) (t : RecordTally) : State :=
  s.setCtx c (fun x => if x.item.isSome then { x with tally := x.tally ++ [t] } else x)

/-- What an instruction's lanes signalled, in the tally of the record under work. -/
def State.addSignals (s : State) (c : CtxId) (fs : List Flags) : State :=
  if fs.all (fun f => f == Flags.none) then s else s.addTally c { flags := fs.filter (fun f => f != Flags.none) }

/-- A tally into the watch's counts of a tensor or table. -/
def State.countTally (s : State) (key : Nat) (unit : Half) (t : RecordTally) : State :=
  let s1 := if t.elems.isEmpty then s
            else s.countConversions key unit t.k t.elems t.crowded t.crowdedBlocks t.zeroBlocks 0
  (s1.countExceptions key t.flags).countPoison 0x2104 key t.poison

/-! ## Lane operations (R191) -/

/-- An operation of one source on every lane, with its signals counted against the item's tensor or table. -/
def State.laneOp1 (s : State) (c : CtxId) (d a : Nat) (f : Nat → Nat × Flags) : State :=
  let x : Ctx := s.ctx c
  let rs : List (Nat × Flags) := (x.lanes a).map f
  let s1 := s.addSignals c ((List.take x.activeLanes rs).map Prod.snd)
  s1.setCtx c (fun y => y.setLanes d (List.map Prod.fst rs))

/-- An operation of two sources on every lane. -/
def State.laneOp2 (s : State) (c : CtxId) (d a b : Nat) (f : Nat → Nat → Nat × Flags) : State :=
  let x : Ctx := s.ctx c
  let rs : List (Nat × Flags) := ((x.lanes a).zip (x.lanes b)).map (fun p => f p.1 p.2)
  let s1 := s.addSignals c ((List.take x.activeLanes rs).map Prod.snd)
  s1.setCtx c (fun y => y.setLanes d (List.map Prod.fst rs))

/-- An operation of three sources on every lane. -/
def State.laneOp3 (s : State) (c : CtxId) (d a b e : Nat) (f : Nat → Nat → Nat → Nat × Flags) : State :=
  let x : Ctx := s.ctx c
  let rs : List (Nat × Flags) := (List.range 32).map (fun l => f (x.reg a l) (x.reg b l) (x.reg e l))
  let s1 := s.addSignals c ((List.take x.activeLanes rs).map Prod.snd)
  s1.setCtx c (fun y => y.setLanes d (List.map Prod.fst rs))

/-- The churn's operations of R191 by their OP, for the prologue that the device runs itself: the result lanes
of the register operations, and nothing for any other. -/
def churnAlu (op : Nat) (r : Rounding) (a b c : Nat) : Option Nat :=
  if op = 1 then some (fAdd binary32 r a b).1
  else if op = 2 then some (fSub binary32 r a b).1
  else if op = 3 then some (fMul binary32 r a b).1
  else if op = 4 then some (fFma binary32 r a b c).1
  else if op = 5 then some (fFms binary32 r a b c).1
  else if op = 6 then some (fRcp binary32 r a).1
  else if op = 7 then some (fRsqrt binary32 r a).1
  else if op = 8 then some (fMax binary32 a b).1
  else if op = 9 then some (fMin binary32 a b).1
  else if op = 10 then some (fNeg binary32 a)
  else if op = 11 then some (fAbs binary32 a)
  else if op = 12 then some a
  else if op = 16 then some (boolResult binary32 (fCmp binary32 .eq a b)).1
  else if op = 17 then some (boolResult binary32 (fCmp binary32 .lt a b)).1
  else if op = 18 then some (boolResult binary32 (fCmp binary32 .le a b)).1
  else if op = 19 then some (boolResult binary32 (fCmp binary32 .un a b)).1
  else if op = 20 then some (if c = 0 then b else a)
  else none

/-- One prologue instruction (R185, R190): a register operation or LDC. -/
def prologueStep (consts : Nat → Nat) (x : Ctx) (w : Nat) : Ctx :=
  let op := bits 7 0 w
  let d := bits 12 8 w
  if op = 32 then x.setLanes d (List.replicate 32 (consts (bits 18 13 w)))
  else
    let rs := (List.range 32).map (fun l =>
      churnAlu op (Rounding.ofField (BitVec.ofNat 2 (bits 29 28 w))) (x.reg (bits 17 13 w) l) (x.reg (bits 22 18 w) l) (x.reg (bits 27 23 w) l))
    if rs.all (·.isSome) then x.setLanes d (rs.map (fun o => o.getD 0)) else x

/-- The instructions of a program's prologue: those before its first SECT, when that SECT has PROLOGUE = 1. -/
def prologueCode (prog : Bytes) : List Nat :=
  let ws := (List.range (field prog 4 2)).map (fun i => field prog (288 + 4 * i) 4)
  let pre := ws.takeWhile (fun w => bits 7 0 w != 0x30)
  match ws.drop pre.length with
  | w :: _ => if bit 9 w then pre else []
  | [] => []

/-- The registers that a program's prologue leaves (R185). -/
def prologueRegs (consts : Nat → Nat) (prog : Bytes) : NMap Word :=
  ((prologueCode prog).foldl (prologueStep consts) {}).v

/-! ## Starting a record (R185) -/

/-- A context at the start of a record: prologue registers, everything else +0 or empty, and the record
buffer a copy of the old record. -/
def Churn.freshCtx (k : Churn) (prog index : Nat) (it : SweepItem) (info : ItemInfo) (old : Bytes) : Ctx :=
  { prog := prog
    v := (k.prologue.filter (fun e => e.1 / 1024 == prog)).map (fun e => (e.1 % 1024, e.2))
    index := index, item := some it, active := true, nAct := info.elems, old := old, new := old }

/-- A context restarted from its held old record (R204). -/
def Churn.restartCtx (k : Churn) (x : Ctx) : Ctx :=
  { x with
    v := (k.prologue.filter (fun e => e.1 / 1024 == x.prog)).map (fun e => (e.1 % 1024, e.2))
    acc := [], stage0 := [], stage1 := [], block := 0, new := x.old, qprep := false, poison := false
    tally := [], wacc := [], wcopy := false }

/-! ## Fields (R192) -/

/-- Gradient element e of an item, binary32: a row's merged sum by segment element, a dense tensor's reduced
gradient (R192). -/
def State.gradient (s : State) (it : SweepItem) (e : Nat) : Nat :=
  match it with
  | .dense t b => (NMap.getD s.emb.denseGrad (t * 2 ^ 53 + b * 32 + e) 0).toNat
  | .row t _ x g =>
    match s.emb.merged.find? (fun m => m.1 == t && m.2.1 == x), s.anyTable t with
    | some m, some tv => (m.2.2.getD (g * segDim tv.code tv.layout tv.dim + e) 0).toNat
    | _, _ => 0

/-- Field F of the old record in active lane l of the current block, with what its conversion signals: o + s × c is rounded once,
and every other field is exact (R192). -/
def State.fieldLane (s : State) (x : Ctx) (it : SweepItem) (f : Nat) (mfmt : Bool) (l : Nat) : Nat × Flags :=
  let e := 32 * x.block + l
  if f = 0 then (s.gradient it e, .none)
  else if f = 6 then ((NMap.getD x.stage0 e 0).toNat, .none)
  else if f = 7 then ((NMap.getD x.stage1 e 0).toNat, .none)
  else if f = 10 then (((Num.ofInt x.nAct).round binary32 .rne true).1, .none)
  else
    match it with
    | .dense _ _ =>
      if f = 1 ∨ f = 2 ∨ f = 3 then ((((densePlane x.old (f - 1)).elem l).round binary32 .rne true).1, .none) else (0, .none)
    | .row _ _ _ g =>
      if f = 5 then (field x.old 4 4, .none)
      else if f = 8 then (widen yf16 (field x.old 0 2), .none)
      else if f = 9 then (widen yf16 (field x.old 2 2), .none)
      else
        match s.itemTable it with
        | none => (0, .none)
        | some t =>
          if f = 1 then dequant binary32 (field x.old 0 2) (field x.old 2 2) ((recordCodes t g x.old).getD e 0)
          else if f = 4 then
            (widen (if mfmt then yf8e5 else yf8e4) (field x.old (16 + codeLen t.code x.nAct + e) 1), .none)
          else (0, .none)

/-- The lanes that LDF gives (R192), +0 in an inactive lane (R184), with their signals. -/
def State.fieldLanes (s : State) (x : Ctx) (f : Nat) (mfmt : Bool) : List (Nat × Flags) :=
  match x.item with
  | none => List.replicate 32 (0, .none)
  | some it => (List.range 32).map (fun l => if l < x.activeLanes then s.fieldLane x it f mfmt l else (0, .none))

/-! ## Storing (R193) -/

/-- The rounding of an STF in lane l: RNE, or the stream's draw for the element (R193, R198). -/
def State.stfRounding (s : State) (x : Ctx) (it : SweepItem) (rm : BitVec 2) (plane l : Nat) : Rounding :=
  let i := s.itemInfo it
  if rm = 1 then s.roundingOf 1 i.id (i.position + 32 * x.block + l) plane (i.kind == 2) else .rne

/-- Put 32 lanes into a stage plane's current block. -/
def putStage (m : NMap Word) (block : Nat) (vs : List Nat) : NMap Word :=
  (vs.zipIdx).foldl (fun m p => NMap.insert m (32 * block + p.2) (BitVec.ofNat 32 p.1)) m

/-- Codes e onward of a segment record replaced. -/
def spliceCodes (code : Nat) (rec : Bytes) (e : Nat) (cs : List Nat) : Bytes :=
  if code = 0 then splice rec (16 + e) (elementBytes 1 cs)
  else splice rec (16 + e / 2) ((List.range (ceilDiv cs.length 2)).map (fun i =>
    BitVec.ofNat 8 (cs.getD (2 * i) 0 + 16 * cs.getD (2 * i + 1) 0)))

/-- What an STF leaves: the record buffer, whether it wrote a poisoned block or row, and its conversions. -/
structure Stored where
  new : Bytes
  poison : Bool
  out : Written
  deriving DecidableEq, Repr

/-- STF to a plane of a dense record (R97, R193). -/
def State.stfPlane (s : State) (x : Ctx) (it : SweepItem) (p : Nat) (vs : List Nat) (rm : BitVec 2) : Stored :=
  let xs := vs.map (decodeNum binary32)
  let w := writeYb16 xs (s.stfRounding x it rm p)
  let r := yb16From xs (s.stfRounding x it rm p)
  { new := splice (splice x.new p (leBytes 1 r.1.exp)) (32 + 64 * p) (elementBytes 2 r.1.fracs)
    poison := r.1.exp == 255, out := w }

/-- STF of codes to a row record (R98, R193): the new SCALE and OFFSET when QPREP has run, else the old. -/
def State.stfCodes (s : State) (x : Ctx) (it : SweepItem) (t : TableVer) (vs : List Nat) (rm : BitVec 2) : Stored :=
  let xs := (vs.take x.activeLanes).map (decodeNum binary32)
  let w := writeCodes t.codeBits (field x.new 0 2) (field x.new 2 2) xs (s.stfRounding x it rm 0)
  let r := codesFrom t.codeBits (field x.new 0 2) (field x.new 2 2) xs (s.stfRounding x it rm 0)
  { new := spliceCodes t.code x.new (32 * x.block) r.1.codes, poison := r.2.1.poisoned, out := w }

/-- STF of moment bytes to a row record of layout 1 (R92, R192). -/
def State.stfMom (s : State) (x : Ctx) (it : SweepItem) (t : TableVer) (mfmt : Bool) (vs : List Nat) (rm : BitVec 2)
    : Stored :=
  let f := if mfmt then yf8e5 else yf8e4
  let xs := (vs.take x.activeLanes).map (decodeNum binary32)
  let rs := xs.zipIdx.map (fun p => p.1.round f (s.stfRounding x it rm 2 p.2) false)
  { new := splice x.new (16 + codeLen t.code x.nAct + 32 * x.block) (elementBytes 1 (rs.map (·.1)))
    poison := false, out := { bytes := [], elems := converted f xs rs } }

/-- STF to a field of the new record (R192, R193); SCALAR takes lane 0 exactly. -/
def State.storeField (s : State) (x : Ctx) (it : SweepItem) (f : Nat) (mfmt : Bool) (vs : List Nat) (rm : BitVec 2)
    : Option Stored :=
  match it with
  | .dense _ _ => if f = 1 ∨ f = 2 ∨ f = 3 then some (s.stfPlane x it (f - 1) vs rm) else none
  | .row _ _ _ _ =>
    match s.itemTable it with
    | none => none
    | some t =>
      if f = 1 then some (s.stfCodes x it t vs rm)
      else if f = 4 then some (s.stfMom x it t mfmt vs rm)
      else if f = 5 then
        some { new := splice x.new 4 (leBytes 4 (vs.getD 0 0)), poison := false, out := { bytes := [], elems := [] } }
      else none

/-! ## The record that leaves (R201, R202, R205, R206) -/

/-- The low 16 bits of the step. -/
def State.stepTag (s : State) : Nat := s.seq.step.toNat % 65536

/-- A record with its STEP_TAG replaced; the tag stands at byte 4 of a dense record and byte 8 of a row's. -/
def retag (kind tag : Nat) (rec : Bytes) : Bytes := splice rec (if kind = 1 then 4 else 8) (leBytes 2 (tag % 65536))

/-- STEP_TAG of a record. -/
def tagOf (kind : Nat) (rec : Bytes) : Nat := field rec (if kind = 1 then 4 else 8) 2

/-- A record with POISON set. -/
def setPoison (kind : Nat) (rec : Bytes) : Bytes :=
  let off := if kind = 1 then 6 else 10
  splice rec off (leBytes 2 (field rec off 2 ||| 2))

/-- A row record written poisoned by R98: SCALE and OFFSET 0x7FC0 and every code 0. -/
def poisonCodes (code n : Nat) (rec : Bytes) : Bytes :=
  splice (splice rec 0 (leBytes 2 0x7FC0 ++ leBytes 2 0x7FC0)) 16 (List.replicate (codeLen code n) 0)

/-- The new record with its header completed (R202). -/
def State.completeRecord (s : State) (x : Ctx) (it : SweepItem) : Bytes :=
  let i := s.itemInfo it
  let r := retag i.kind s.stepTag x.new
  if x.poison then
    match s.itemTable it with
    | some t => setPoison 2 (poisonCodes t.code x.nAct r)
    | none => setPoison 1 r
  else r

/-- The record written when three reads fail (R205). -/
def State.unreadable (s : State) (it : SweepItem) : Bytes :=
  match it with
  | .dense t b =>
    let p := s.itemPlanes it
    (List.range 3).map (fun k => if k < p then (0xFF : Byte) else 0) ++ leBytes 1 p ++ leBytes 2 s.stepTag ++ leBytes 2 3
      ++ leBytes 2 t ++ leBytes 6 b ++ List.replicate (16 + 64 * p) 0
  | .row _ _ _ g =>
    padTo (s.itemInfo it).size (leBytes 2 0x7FC0 ++ leBytes 2 0x7FC0 ++ leBytes 4 0x7FC00000 ++ leBytes 2 s.stepTag
      ++ leBytes 2 (3 + 8 * g) ++ leBytes 4 0)

/-- Whether a record is poisoned on input (R206). -/
def State.poisonedInput (s : State) (line : Nat) (it : SweepItem) (rec : Bytes) : Bool :=
  match it with
  | .dense _ _ =>
    let planes := ((s.program (s.itemProgram line it)).map (fun b => field b 3 1)).getD (s.itemPlanes it)
    bit 1 (field rec 6 2) || !bit 0 (field rec 6 2) || field rec 3 1 != planes
      || (List.range planes).any (fun p => (densePlane rec p).isPoison)
  | .row _ _ _ _ => recordPoisoned rec

/-- Blocks of a record that break R89 (BLOCK_MALFORMED). -/
def State.itemMalformed (s : State) (it : SweepItem) (rec : Bytes) : Nat :=
  match it with
  | .dense _ _ => (List.range (s.itemPlanes it)).countP (fun p => (densePlane rec p).malformed)
  | .row _ _ _ _ => 0

/-- Blocks of a dense record with exponent 0xFF, or 1 for a row whose SCALE is a NaN or whose POISON is set (POISON_READ, R99). -/
def State.itemPoison (s : State) (it : SweepItem) (rec : Bytes) : Nat :=
  match it with
  | .dense _ _ => (List.range (s.itemPlanes it)).countP (fun p => (densePlane rec p).isPoison && !(densePlane rec p).malformed)
  | .row _ _ _ _ => b2n (recordPoisoned rec)

/-- Poisoned and malformed blocks or rows as a reader finds them, each with its event (R99). -/
def State.readPoison (s : State) (key poisoned malformed : Nat) : State :=
  (s.countPoison 0x2101 key poisoned).countPoison 0x2102 key malformed

/-- What a reader of plane 0 of a dense record finds there (R99). -/
def State.planePoison (s : State) (id : Nat) (rec : Bytes) : State :=
  let p := densePlane rec 0
  s.readPoison (watchKey 1 id) (b2n (p.isPoison && !p.malformed)) (b2n p.malformed)

/-- A dense record as it is written, with the zeros beyond the last record of its check block (R179); a row record as it is. -/
def State.recordBytes (s : State) (it : SweepItem) (rec : Bytes) : Bytes :=
  match it with
  | .dense t b =>
    match s.dense t with
    | some d => recordTail (denseSize d.planes) d.blocks b rec
    | none => rec
  | .row _ _ _ _ => rec

/-- Issue the write of a record through the record path (R201): one write of the header and all the rest. -/
def State.issueRecord (s : State) (line index : Nat) (it : SweepItem) (rec : Bytes) : State :=
  s.portWrite ⟨(s.itemInfo it).addr, s.recordBytes it rec, none, churnSource line index, false⟩

/-- Issue the write that takes a stale tag from a record (R208). -/
def State.issueRetag (s : State) (line index : Nat) (it : SweepItem) (rec : Bytes) : State :=
  s.portWrite ⟨(s.itemInfo it).addr, rec, none, retagSource line index, false⟩

/-! ## Marks (R207) -/

/-- A mark advanced over the records beyond it that are done. -/
def advanceMark : Nat → Nat → List Nat → Nat
  | 0, m, _ => m
  | fuel + 1, m, done => if done.contains m then advanceMark fuel (m + 1) done else m

/-- The first read of record i has completed, and any retag of it (R207, R208). -/
def Churn.markRead (k : Churn) (i : Nat) : Churn :=
  let d := if k.readDone.contains i then k.readDone else i :: k.readDone
  let h := advanceMark (d.length + 1) k.h d
  { k with readDone := d.filter (fun j => h ≤ j), h := h }

/-- The write of record i is verified (R204, R207). -/
def Churn.markWritten (k : Churn) (i : Nat) : Churn :=
  let d := if k.writeDone.contains i then k.writeDone else i :: k.writeDone
  let v := advanceMark (d.length + 1) k.v d
  { k with writeDone := d.filter (fun j => v ≤ j), v := v, verified := k.verified.filter (fun j => j != i) }

/-- A churn whose own list is done begins the list it took over, from the marks it was left at (R209, R210). -/
def Churn.takeResume (k : Churn) : Churn :=
  match k.resume with
  | some (l, v, h) =>
    if k.list.length ≤ k.v then
      { k with
        list := l, v := v, h := h, resumeH := h, readDone := [], writeDone := [], verified := [], pending := [], ctxs := []
        resumed := true, resume := none }
    else k
  | none => k

/-- One active lane's A and B into the watch sums (R196). -/
def WatchSum.add (w : WatchSum) (p : Word × Word) : WatchSum :=
  let a := widen64 p.1.toNat
  let b := widen64 p.2.toNat
  { upd := BitVec.ofNat 64 (add64 w.upd.toNat (mul64 a a))
    wgt := BitVec.ofNat 64 (add64 w.wgt.toNat (mul64 b b))
    nonzero := w.nonzero + b2n (!(decodeNum binary32 p.1.toNat).isZero) }
where
  /-- A binary32 encoding in binary64, exactly. -/
  widen64 (x : Nat) : Nat := (convert binary32 binary64 .rne true 0 x).1

/-- The WACC pairs of record i enter the churn's sums (R196). -/
def Churn.addSums (k : Churn) (i : Nat) : Churn :=
  match NMap.find? k.pending i with
  | none => k
  | some p => { k with sums := NMap.modify k.sums p.key {} (fun w => p.pairs.foldl WatchSum.add w) }

/-- What record i adds to the watch's counts enters them. -/
def State.flushTally (s : State) (line i : Nat) : State :=
  match NMap.find? (s.churn line).pending i with
  | none => s
  | some p => p.tally.foldl (fun (st : State) t => st.countTally p.key (churnUnit line) t) s

/-- The verified records that V has passed, from a mark on, enter the sums and the counts in list order (R196, R243). -/
def State.settleSums (s : State) (line from' : Nat) : State :=
  let is := List.range' from' ((s.churn line).v - from')
  let s1 := is.foldl (fun (st : State) i => st.flushTally line i) s
  s1.setChurn line (fun k =>
    let k1 := is.foldl Churn.addSums k
    { k1 with pending := k1.pending.filter (fun e => decide (k1.v ≤ e.1)) })

/-- Whether the other churn of the tile can take over a list (R39, R210). -/
def State.canTakeOver (s : State) (line : Nat) : Bool :=
  s.lineAvailable (otherLine line / 2) (otherLine line % 2) && !(s.churn (otherLine line)).faulted

/-- No churn of the tile can continue a list (R211): SWEEP_LOST, once, and the job halts at the next tick. -/
def State.sweepLost (s : State) (line : Nat) : State :=
  (s.raiseOnce line 0x7303 (churnUnit line) line 0 true).haltNext

/-! ## What happens when a record is verified (R163, R171, R203, R396, R397) -/

/-- The record that record i's context holds. -/
def Churn.holding (k : Churn) (i : Nat) : Option (Nat × Ctx) := List.find? (fun e => e.2.active && e.2.index == i) k.ctxs

/-- The export item of a swept record: dense records from replica 0, and rows of a current version (R396). -/
def State.sweepItemExport (s : State) (it : SweepItem) (rec : Bytes) : Option ExportItem :=
  match it with
  | .dense t b => if s.replica = 0 then some { kind := 1, id := t, index := b, payload := rec } else none
  | .row t v x g =>
    if ((s.tableVersion t v).map (·.current)).getD false then
      some { kind := 2, id := t, index := rowIndex x g, payload := rec }
    else none

/-- The item of a swept record enters the export log when it is one of R396. -/
def State.logSwept (s : State) (it : SweepItem) (rec : Bytes) : State :=
  match s.sweepItemExport it rec with
  | some e => s.logItem e
  | none => s

/-- The row cache entry of a swept row takes the new record (R163, R203). -/
def State.cacheSwept (s : State) (it : SweepItem) (rec : Bytes) : State :=
  match it with
  | .row t _ x g => { s with mem.rowCache := s.mem.rowCache.map (fun e =>
      if e.table = t ∧ e.row = x then { e with stepTag := BitVec.ofNat 16 s.stepTag, segs := e.segs.set g rec } else e) }
  | .dense _ _ => s

/-- A row written by a sweep is one that a swap of its table may drop (R171). -/
def State.countDropped (s : State) (it : SweepItem) : State :=
  match it with
  | .row t v _ _ =>
    s.mapTables (fun tv => tv.id == t && tv.version == v && !tv.staged) (fun tv => { tv with dropped := tv.dropped + 1, sweptNow := tv.sweptNow + 1 })
  | .dense _ _ => s

/-- A record of the step stands verified in HBM: the export log, the row cache and the counts of R171 and R246 take it, and what its
program adds to the watch waits for V (R196). A record that a resumed sweep passes over has all this from its first write. -/
def State.recordKept (s : State) (line i : Nat) : State :=
  match (s.churn line).holding i with
  | none => s
  | some (_, x) =>
    match x.item, x.skip with
    | some it, false =>
      let s1 := ((s.logSwept it x.new).cacheSwept it x.new).countDropped it
      let s2 := s1.setWatch (s.itemKey it) (fun w => { w with swept := w.swept + 1 })
      s2.setChurn line (fun k => { k with pending := NMap.insert k.pending i ⟨s.itemKey it, x.wacc, x.tally⟩ })
    | _, _ => s

/-- The churn faults (R204): records that the port has reported verified are kept, and its sweep is interrupted, and lost when the
tile's other churn cannot continue. The sums of R196 for records beyond V are lost (R247). -/
def State.faultChurn (s : State) (line : Nat) : State :=
  let s1 := ((s.churn line).verified.mergeSort (· ≤ ·)).foldl (fun (st : State) i => st.recordKept line i) s
  let s2 := ((s1.churn line).pending.map (·.1)).foldl (fun (st : State) i => st.flushTally line i) s1
  let s3 := s2.setChurn line (fun k => { k with faulted := true, verified := [], pending := [] })
  if s3.canTakeOver line then s3 else s3.sweepLost line

/-! ## Working copies (R180, R486) -/

/-- One part of a working copy: where in the region it lies, its bytes and its tag word. -/
structure WorkPart where
  off : Nat
  bytes : Bytes
  tag : Word
  deriving DecidableEq, Repr

/-- A part written to HBM or to the tile store at once; answers whether the write was verified. -/
def State.writeWorking (s : State) (d : DenseTensor) (p : WorkPart) : State × Bool :=
  match d.workTile with
  | some t => ((s.tileWrite t.val (d.workBase + p.off) p.bytes).setTileTag t.val (d.workBase + p.off) p.tag, true)
  | none => s.writeVerified (d.workBase + p.off) p.bytes (some p.tag)

/-- The working copy of a block as bytes of its data stream (R180): YF16 by RNE, YF8 with the tensor's next
scale, or YS8. -/
def workingBytes (code : Nat) (k : Int) (xs : List Num) : Written :=
  if code = 6 then writeYs8 xs (fun _ => .rne)
  else
    match Fmt.ofCode code with
    | some f =>
      let rs := xs.map (fun x => (x.scale (if code = 3 then 0 else k)).round f .rne false)
      { bytes := elementBytes (f.width / 8) (rs.map (·.1)), elems := converted f xs rs }
    | none => { bytes := [], elems := [] }

/-- The scale stream's offset in a YS8 working copy (R486). -/
def scaleStreamOffset (blocks : Nat) : Nat := roundUp (32 * blocks) 512

/-- Bytes of the last element or scale of a stream with the zeros that fill its check block (R100, R486). -/
def streamTail (last : Bool) (off : Nat) (bytes : Bytes) : Bytes :=
  if last then padTo (roundUp (off + bytes.length) 512 - off) bytes else bytes

/-- What a block's working copy is, with its conversions, by the format and stream of a sweep-table entry. -/
structure WorkCopy where
  parts : List WorkPart
  tally : RecordTally
  deriving DecidableEq, Repr

/-- The working copy of a block of values (R180, R486): the 8-bit formats use the tensor's scale for the next step. -/
def State.workingCopy (s : State) (d : DenseTensor) (entry : Bytes) (block : Nat) (xs : List Num) : WorkCopy :=
  let code := field entry 3 1
  let k := s.scaleOf (watchKey 1 d.id)
  let w := workingBytes code k xs
  let last := decide (block + 1 = d.blocks)
  let count : RecordTally :=
    { k := if code = 3 ∨ code = 6 then 0 else k, elems := w.elems, crowded := w.crowded, crowdedBlocks := w.crowdedBlocks,
      zeroBlocks := w.zeroBlocks, poison := w.poison }
  if code = 6 then
    let t := ys8Tags (field entry 6 2) block
    let so := scaleStreamOffset d.blocks + block
    ⟨[⟨32 * block, streamTail last (32 * block) w.bytes, t.1⟩, ⟨so, streamTail last so w.scales, t.2⟩], count⟩
  else if code = 3 ∨ code = 4 ∨ code = 5 then
    let off := 32 * block * (if code = 3 then 2 else 1)
    ⟨[⟨off, streamTail last off w.bytes, 0⟩], count⟩
  else ⟨[], {}⟩

/-- The working copy of a dense record's plane 0, for a tensor that the churn's sweep table gives a format (R180). -/
def State.recordCopy (s : State) (line : Nat) (it : SweepItem) (rec : Bytes) : Option (DenseTensor × WorkCopy) :=
  match it with
  | .dense t b =>
    match s.dense t, s.sweepEntry (s.listLine line) 1 t with
    | some d, some e => some (d, s.workingCopy d e b ((List.range 32).map (densePlane rec 0).elem))
    | _, _ => none
  | .row _ _ _ _ => none

/-- Issue part n of a record's working copy: through the memory port, or into a tile store, which verifies no write (R312, R376). -/
def State.issueCopy (s : State) (line index n : Nat) (d : DenseTensor) (p : WorkPart) : State :=
  match d.workTile with
  | some _ => (s.writeWorking d p).1
  | none => s.portWrite ⟨d.workBase + p.off, p.bytes, some p.tag, copySource line index n, false⟩

/-- The parts of a working copy that wait for the memory port's report. -/
def WorkCopy.waits (w : WorkCopy) (d : DenseTensor) : List Nat := if d.workTile.isSome then [] else List.range w.parts.length

/-- Issue every part of a record's working copy. -/
def State.issueCopies (s : State) (line index : Nat) (d : DenseTensor) (w : WorkCopy) : State :=
  w.parts.zipIdx.foldl (fun (st : State) p => st.issueCopy line index p.2 d p.1) s

end Sys2Proof.Machine
end

