-- ==== Sys2Proof/Machine/ChurnSweep.lean ====
section
/-! DEFINITION. The commands of the churns: a record's first read (R204 to R208), the 26 churn operations
(R191), the end of a section (R185, R201 to R204), the verified write (R203, R207, R397) and the takeover of a
faulted churn's list (R209 to R211). -/

namespace Sys2Proof.Machine

/-! ## The first read (R205 to R209) -/

/-- The records whose new bytes wait for H leave once H has passed them, in list order (R207). -/
def State.releaseHeld (s : State) (line : Nat) : State :=
  let k := s.churn line
  if k.faulted then s
  else
    let ready := (k.ctxs.filter (fun e => e.2.held && decide (e.2.index < k.h))).mergeSort (fun a b => decide (a.2.index ≤ b.2.index))
    let s1 := s.setChurn line (fun k => { k with
      ctxs := k.ctxs.map (fun e => (e.1, { e.2 with held := e.2.held && !decide (e.2.index < k.h) })) })
    ready.foldl (fun (st : State) e =>
      match e.2.item with
      | some it => st.issueRecord line e.2.index it e.2.new
      | none => st) s1

/-- The first read of record i has completed (R207): H advances, and what waited for it leaves. -/
def State.readComplete (s : State) (line i : Nat) : State := (s.setChurn line (fun k => k.markRead i)).releaseHeld line

/-- A record enters a context with the bytes to write already built: no program runs over it (R205, R206). -/
def State.writeWithout (s : State) (c : CtxId) (i : Nat) (it : SweepItem) (old new : Bytes) : State :=
  let x : Ctx :=
    { index := i, item := some it, active := true, old := old, new := new, nAct := (s.itemInfo it).elems, sent := true, held := true }
  (s.setCtx c (fun _ => x)).readComplete (lineIx (ctxLine c)) i

/-- A record that is poisoned on input (R99, R206): what was read is counted, the record once more as skipped (R243), and it is
written back with only STEP_TAG changed. -/
def State.skipPoisoned (s : State) (c : CtxId) (i : Nat) (it : SweepItem) (rec : Bytes) : State :=
  let info := s.itemInfo it
  let key := s.itemKey it
  let s1 := s.readPoison key (s.itemPoison it rec) (s.itemMalformed it rec)
  let s2 := s1.setWatch key (fun w => { w with counts := { w.counts with poison := satAdd w.counts.poison 1 } })
  let s3 := s2.raiseOnce key 0x7306 (churnUnit (lineIx (ctxLine c))) info.id 1
  s3.writeWithout c i it rec (retag info.kind s.stepTag rec)

/-- A record that does not carry the current tag enters a context (R206, R208): its program runs over it, or it is skipped. -/
def State.enterRecord (s : State) (c : CtxId) (i : Nat) (it : SweepItem) (old : Bytes) : State :=
  let line := lineIx (ctxLine c)
  if s.poisonedInput line it old then s.skipPoisoned c i it old
  else
    let k := s.churn (s.listLine line)
    (s.setCtx c (fun _ => k.freshCtx (s.itemProgram line it) i it (s.itemInfo it) old)).readComplete line i

/-- A record that carries the current tag and was not written in this step (R208): the retag is counted, TAG_STALE raised once per
tensor or table per step, and the old record written back with the tag of the step before; H waits until that write is verified. -/
def State.retagStale (s : State) (c : CtxId) (i : Nat) (it : SweepItem) (rec : Bytes) : State :=
  let line := lineIx (ctxLine c)
  let info := s.itemInfo it
  let old := retag info.kind (s.seq.step.toNat + 65535) rec
  let s1 := (s.setWatch (s.itemKey it) (fun w => { w with counts := { w.counts with retags := satAdd w.counts.retags 1 } })).raiseOnce
    (s.itemKey it) 0x7305 (churnUnit line) info.id 1
  let x : Ctx := { index := i, item := some it, active := true, old := old, new := old, nAct := info.elems, retag := some 0 }
  (s1.setCtx c (fun _ => x)).issueRetag line i it old

/-- A record that was read and may be updated (R208). -/
def State.startRecord (s : State) (c : CtxId) (i : Nat) (it : SweepItem) (rec : Bytes) : State :=
  if tagOf (s.itemInfo it).kind rec = s.stepTag then s.retagStale c i it rec else s.enterRecord c i it rec

/-- A record's working copy stands written and verified, and its own write too: the port's report is due (R204). -/
def Ctx.complete (x : Ctx) : Bool := x.stored && x.copies.isEmpty

/-- The port reports record i verified once nothing of it is outstanding. -/
def State.reportVerified (s : State) (line i : Nat) : State :=
  match (s.churn line).holding i with
  | some (_, x) =>
    if x.complete then s.setChurn line (fun k => { k with verified := i :: k.verified.filter (fun j => j != i) }) else s
  | none => s

/-- A record of a resumed list that was written in this step (R209): its working copy is derived again, with the counts of plane 0
as it reads (R99), and the record is done once that is verified. -/
def State.skipWritten (s : State) (c : CtxId) (i : Nat) (it : SweepItem) (rec : Bytes) : State :=
  let line := lineIx (ctxLine c)
  let w := s.recordCopy line it rec
  let x : Ctx :=
    { index := i, item := some it, active := true, old := rec, new := rec, nAct := (s.itemInfo it).elems, wcopy := true, sent := true
      stored := true, skip := true, copies := (w.map (fun w => w.2.waits w.1)).getD [] }
  let s1 := (s.setCtx c (fun _ => x)).readComplete line i
  let s2 := (match w with
    | some w => (s1.planePoison w.1.id rec).issueCopies line i w.1 w.2
    | none => s1)
  s2.reportVerified line i

/-- A record that fails three reads (R205). -/
def State.lostRecord (s : State) (c : CtxId) (i : Nat) (it : SweepItem) : State :=
  let line := lineIx (ctxLine c)
  (s.raise 0x7304 (churnUnit line) (s.itemInfo it).id i).writeWithout c i it [] (s.unreadable it)

/-- How many records from V up to i are not verified: the records that a churn must have in flight to have taken record i, since it
takes them in list order (R176). -/
def Churn.inFlight (k : Churn) (i : Nat) : Nat := i + 1 - k.v - k.writeDone.countP (fun j => decide (j ≤ i))

/-- Whether the first read of record i of a line's list may complete into a context now: at most eight records are in flight. -/
def State.mayRead (s : State) (c : CtxId) (i : Nat) : Bool :=
  let k := s.churn (lineIx (ctxLine c))
  !k.faulted && !(s.ctx c).active && decide (k.v ≤ i) && decide (k.inFlight i ≤ 8) && !k.readDone.contains i
    && decide (k.h ≤ i ∨ i < k.resumeH) && !k.ctxs.any (fun e => e.2.active && e.2.index == i) && !k.writeDone.contains i

/-- FIRST_READ on the state. -/
def State.firstRead (s : State) (c : CtxId) (i : Nat) (failed : Nat) : State :=
  let k := s.churn (lineIx (ctxLine c))
  match k.list[i]? with
  | none => s
  | some it =>
    if s.mayRead c i then
      let info := s.itemInfo it
      let r := s.readRecord info.addr info.size failed
      match r.2 with
      | none => r.1.lostRecord c i it
      | some rec =>
        if i < k.resumeH ∧ tagOf info.kind rec = s.stepTag then r.1.skipWritten c i it rec
        else r.1.startRecord c i it rec
    else s

/-- FIRST_READ: the churn's first read of record i of its list completes into a record context (R176, R204 to
R209). `readsFailed` is how many reads of the check block fail before one verifies. -/
def execFirstRead (c : CtxId) (i : Nat) (readsFailed : Fin 4) (s : State) : Host.Outcome State Fault Refusal :=
  .next (s.firstRead c i readsFailed.val)

/-! ## Register operations (R191) -/

/-- ADD: D := A + B. -/
def execAdd (c : CtxId) (d a b : Fin 32) (rm : BitVec 2) (s : State) : Host.Outcome State Fault Refusal :=
  .next (s.laneOp2 c d.val a.val b.val (fAdd binary32 (Rounding.ofField rm)))

/-- SUB: D := A − B. -/
def execSub (c : CtxId) (d a b : Fin 32) (rm : BitVec 2) (s : State) : Host.Outcome State Fault Refusal :=
  .next (s.laneOp2 c d.val a.val b.val (fSub binary32 (Rounding.ofField rm)))

/-- MUL: D := A × B. -/
def execMul (c : CtxId) (d a b : Fin 32) (rm : BitVec 2) (s : State) : Host.Outcome State Fault Refusal :=
  .next (s.laneOp2 c d.val a.val b.val (fMul binary32 (Rounding.ofField rm)))

/-- FMA: D := A × B + C, one rounding. -/
def execFma (c : CtxId) (d a b e : Fin 32) (rm : BitVec 2) (s : State) : Host.Outcome State Fault Refusal :=
  .next (s.laneOp3 c d.val a.val b.val e.val (fFma binary32 (Rounding.ofField rm)))

/-- FMS: D := C − A × B, one rounding. -/
def execFms (c : CtxId) (d a b e : Fin 32) (rm : BitVec 2) (s : State) : Host.Outcome State Fault Refusal :=
  .next (s.laneOp3 c d.val a.val b.val e.val (fFms binary32 (Rounding.ofField rm)))

/-- RCP: D := 1 / A. -/
def execRcp (c : CtxId) (d a : Fin 32) (rm : BitVec 2) (s : State) : Host.Outcome State Fault Refusal :=
  .next (s.laneOp1 c d.val a.val (fRcp binary32 (Rounding.ofField rm)))

/-- RSQ: D := rSqrt(A). -/
def execRsq (c : CtxId) (d a : Fin 32) (rm : BitVec 2) (s : State) : Host.Outcome State Fault Refusal :=
  .next (s.laneOp1 c d.val a.val (fRsqrt binary32 (Rounding.ofField rm)))

/-- MAX: maximumNumber with R84. -/
def execMax (c : CtxId) (d a b : Fin 32) (s : State) : Host.Outcome State Fault Refusal :=
  .next (s.laneOp2 c d.val a.val b.val (fMax binary32))

/-- MIN: minimumNumber with R84. -/
def execMin (c : CtxId) (d a b : Fin 32) (s : State) : Host.Outcome State Fault Refusal :=
  .next (s.laneOp2 c d.val a.val b.val (fMin binary32))

/-- NEG: sign inverted; a NaN gives the canonical NaN. -/
def execNeg (c : CtxId) (d a : Fin 32) (s : State) : Host.Outcome State Fault Refusal :=
  .next (s.laneOp1 c d.val a.val (fun x => (fNeg binary32 x, {})))

/-- ABS: sign cleared; a NaN gives the canonical NaN. -/
def execAbs (c : CtxId) (d a : Fin 32) (s : State) : Host.Outcome State Fault Refusal :=
  .next (s.laneOp1 c d.val a.val (fun x => (fAbs binary32 x, {})))

/-- MOV: D := A, bits unchanged. -/
def execMov (c : CtxId) (d a : Fin 32) (s : State) : Host.Outcome State Fault Refusal :=
  .next (s.laneOp1 c d.val a.val (fun x => (x, {})))

/-- CEQ: 1.0 where A = B, else +0. -/
def execCeq (c : CtxId) (d a b : Fin 32) (s : State) : Host.Outcome State Fault Refusal :=
  .next (s.laneOp2 c d.val a.val b.val (fun x y => boolResult binary32 (fCmp binary32 .eq x y)))

/-- CLT: 1.0 where A < B, else +0. -/
def execClt (c : CtxId) (d a b : Fin 32) (s : State) : Host.Outcome State Fault Refusal :=
  .next (s.laneOp2 c d.val a.val b.val (fun x y => boolResult binary32 (fCmp binary32 .lt x y)))

/-- CLE: 1.0 where A ≤ B, else +0. -/
def execCle (c : CtxId) (d a b : Fin 32) (s : State) : Host.Outcome State Fault Refusal :=
  .next (s.laneOp2 c d.val a.val b.val (fun x y => boolResult binary32 (fCmp binary32 .le x y)))

/-- CUN: 1.0 where A or B is a NaN, else +0. -/
def execCun (c : CtxId) (d a b : Fin 32) (s : State) : Host.Outcome State Fault Refusal :=
  .next (s.laneOp2 c d.val a.val b.val (fun x y => boolResult binary32 (fCmp binary32 .un x y)))

/-- SEL: A where C's bits are not zero, else B. -/
def execSel (c : CtxId) (d a b e : Fin 32) (s : State) : Host.Outcome State Fault Refusal :=
  .next (s.laneOp3 c d.val a.val b.val e.val (fun x y z => (if z = 0 then y else x, {})))

/-- LDC: every lane := constant C_K (R186, R187). -/
def execLdc (c : CtxId) (d : Fin 32) (k : Fin 64) (s : State) : Host.Outcome State Fault Refusal :=
  .next (s.setCtx c (fun x => x.setLanes d.val (List.replicate 32 (s.constant (lineIx (ctxLine c)) (s.ctxProgram c) k.val))))

/-! ## Fields, accumulators, scale and offset -/

/-- LDF on the state. -/
def State.loadField (s : State) (c : CtxId) (d f : Nat) (mfmt : Bool) : State :=
  let rs := s.fieldLanes (s.ctx c) f mfmt
  (s.addSignals c (rs.map (·.2))).setCtx c (fun x => x.setLanes d (rs.map (·.1)))

/-- LDF: every active lane := field F of the old record or stage (R184, R192). -/
def execLdf (c : CtxId) (d : Fin 32) (f : BitVec 4) (mfmt : Bool) (s : State) : Host.Outcome State Fault Refusal :=
  .next (s.loadField c d.val f.toNat mfmt)

/-- What an STF adds to the tally: a poisoned plane counts as its block; a poisoned row counts once, when the record is formed. -/
def Stored.tally (it : SweepItem) (r : Stored) : RecordTally :=
  { elems := r.out.elems, crowded := r.out.crowded, crowdedBlocks := r.out.crowdedBlocks, zeroBlocks := r.out.zeroBlocks
    poison := match it with
      | .dense _ _ => b2n r.poison
      | .row _ _ _ _ => 0 }

/-- STF to a field of the record: the buffer takes it, and the record's tally its conversions (R193, R243). -/
def State.storeRecord (s : State) (c : CtxId) (f : Nat) (mfmt : Bool) (a : Nat) (rm : BitVec 2) : State :=
  let x := s.ctx c
  match x.item with
  | none => s
  | some it =>
    match s.storeField x it f mfmt (x.lanes a) rm with
    | none => s
    | some r => (s.addTally c (r.tally it)).setCtx c (fun y => { y with new := r.new, poison := y.poison || r.poison })

/-- STF to a stage plane: the active lanes, exactly (R192). -/
def State.storeStage (s : State) (c : CtxId) (one : Bool) (a : Nat) : State :=
  s.setCtx c (fun x =>
    let vs := (x.lanes a).take x.activeLanes
    if one then { x with stage1 := putStage x.stage1 x.block vs } else { x with stage0 := putStage x.stage0 x.block vs })

/-- STF: field F of the new record or stage := A (R193). -/
def execStf (c : CtxId) (f : BitVec 4) (mfmt : Bool) (a : Fin 32) (rm : BitVec 2) (s : State) : Host.Outcome State Fault Refusal :=
  .next (if f = 6 then s.storeStage c false a.val
    else if f = 7 then s.storeStage c true a.val
    else s.storeRecord c f.toNat mfmt a.val rm)

/-- LDS: every lane := accumulator S_k, +0 when it is empty. -/
def execLds (c : CtxId) (d : Fin 32) (k : Fin 4) (s : State) : Host.Outcome State Fault Refusal :=
  .next (s.setCtx c (fun x => x.setLanes d.val (List.replicate 32 (NMap.getD x.acc k.val 0).toNat)))

/-- One value folded into an accumulator (R194). -/
def redFold (kind : BitVec 2) (r : Rounding) (acc : Option Nat × List Flags) (x : Nat) : Option Nat × List Flags :=
  match acc.1 with
  | none =>
    if kind = 3 then
      let y := fMul binary32 r x x
      (some y.1, acc.2 ++ [y.2])
    else (some x, acc.2)
  | some a =>
    let y := if kind = 0 then fAdd binary32 r a x
             else if kind = 1 then fMin binary32 a x
             else if kind = 2 then fMax binary32 a x
             else fFma binary32 r x x a
    (some y.1, acc.2 ++ [y.2])

/-- RED on the state: the active lanes in ascending order. -/
def State.reduceLanes (s : State) (c : CtxId) (kind : BitVec 2) (a k : Nat) (rm : BitVec 2) : State :=
  let x := s.ctx c
  let r := ((x.lanes a).take x.activeLanes).foldl (redFold kind (Rounding.ofField rm)) ((NMap.find? x.acc k).map (·.toNat), [])
  let s1 := s.addSignals c r.2
  match r.1 with
  | some v => s1.setCtx c (fun y => { y with acc := NMap.insert y.acc k (BitVec.ofNat 32 v) })
  | none => s1

/-- RED: folds the active lanes of A into S_k (R194). -/
def execRed (c : CtxId) (kind : BitVec 2) (a : Fin 32) (k : Fin 4) (rm : BitVec 2) (s : State) : Host.Outcome State Fault Refusal :=
  .next (s.reduceLanes c kind a.val k.val rm)

/-- The SCALE and OFFSET that QPREP sets, with what they signal (R92), none when an accumulator is empty or not finite (R195). -/
def qprepPair (b : Nat) (m mx : Option Word) : Option (Nat × Nat × List Flags) :=
  match m, mx with
  | some lo, some hi =>
    let x := decodeNum binary32 lo.toNat
    let y := decodeNum binary32 hi.toNat
    if x.isFin && y.isFin then some (standardRule b x y) else none
  | _, _ => none

/-- QPREP on the state (R195). -/
def State.qprepare (s : State) (c : CtxId) (kmin kmax : Nat) : State :=
  let x := s.ctx c
  match x.item with
  | none => s
  | some it =>
    let b := ((s.itemTable it).map (·.codeBits)).getD 8
    match qprepPair b (NMap.find? x.acc kmin) (NMap.find? x.acc kmax) with
    | some p => (s.addSignals c p.2.2).setCtx c (fun y => { y with qprep := true, new := splice y.new 0 (leBytes 2 p.1 ++ leBytes 2 p.2.1) })
    | none => s.setCtx c (fun y => { y with qprep := true, poison := true, new := splice y.new 0 (leBytes 2 0x7FC0 ++ leBytes 2 0x7FC0) })

/-- QPREP: sets the new SCALE and OFFSET from S_(k_min) and S_(k_max) (R195). -/
def execQprep (c : CtxId) (kmin kmax : Fin 4) (s : State) : Host.Outcome State Fault Refusal :=
  .next (s.qprepare c kmin.val kmax.val)

/-- WACC on the state: the active lanes of A and B join the record's pairs. -/
def State.watchAccumulate (s : State) (c : CtxId) (a b : Nat) : State :=
  s.setCtx c (fun x =>
    if x.item.isSome then
      { x with wacc := x.wacc ++ (((x.lanes a).zip (x.lanes b)).take x.activeLanes).map (fun p => (BitVec.ofNat 32 p.1, BitVec.ofNat 32 p.2)) }
    else x)

/-- WACC: adds the sums of A² and B² over the active lanes to the churn's watch sums (R196), which take a record's lanes in list order,
once the record is verified. -/
def execWacc (c : CtxId) (a b : Fin 32) (s : State) : Host.Outcome State Fault Refusal :=
  .next (s.watchAccumulate c a.val b.val)

/-- WCOPY: the working copy of the new plane 0 as the record will be stored (R180): it is formed with the record. -/
def execWcopy (c : CtxId) (s : State) : Host.Outcome State Fault Refusal := .next (s.setCtx c (fun x => { x with wcopy := true }))

/-- NOP of the churn: none. -/
def execChurnNop (_c : CtxId) (s : State) : Host.Outcome State Fault Refusal := .next s

/-! ## The end of a section (R185, R201 to R204) -/

/-- The prologue has run: its registers are copied into every context (R185). -/
def State.endPrologue (s : State) (c : CtxId) : State :=
  let x := s.ctx c
  let prog := s.ctxProgram c
  s.setChurn (lineIx (ctxLine c)) (fun k =>
    { k with
      prologue := x.v.foldl (fun m e => NMap.insert m (1024 * prog + e.1) e.2) k.prologue
      ctxs := k.ctxs.map (fun e => (e.1, if e.2.active && e.2.prog == prog then { e.2 with v := x.v.foldl (fun m r => NMap.insert m r.1 r.2) e.2.v } else e.2)) })

/-- A check of the churn's arithmetic fails before the write (R204): SWEEP_RECOMPUTE and a new start from the
held old record; a second failure on the record faults the churn. -/
def State.recompute (s : State) (c : CtxId) (u : Half) : State :=
  let line := lineIx (ctxLine c)
  let x := s.ctx c
  let s1 := s.checkFault u
  if x.failures = 0 then
    (s1.raise 0x7301 (churnUnit line) line x.index).setCtx c (fun y => { (s1.churn (s1.listLine line)).restartCtx y with failures := 1 })
  else s1.faultChurn line

/-- The working copy that a context's record leaves, when its program ran WCOPY. -/
def State.ctxCopy (s : State) (line : Nat) (x : Ctx) (it : SweepItem) (rec : Bytes) : Option (DenseTensor × WorkCopy) :=
  if x.wcopy then s.recordCopy line it rec else none

/-- The last section has ended: the record's header is completed, its working copy written, and its write issued once H has passed it
(R180, R201, R202, R207). A poisoned row counts once under POISON. -/
def State.finishRecord (s : State) (c : CtxId) : State :=
  let line := lineIx (ctxLine c)
  let x := s.ctx c
  match x.item with
  | none => s
  | some it =>
    let buf := s.completeRecord x it
    let w := s.ctxCopy line x it buf
    let row : List RecordTally := match it with
      | .row _ _ _ _ => if x.poison then [{ poison := 1 }] else []
      | .dense _ _ => []
    let s1 := s.setCtx c (fun y => { y with
      new := buf, sent := true, held := true, copies := (w.map (fun w => w.2.waits w.1)).getD []
      tally := y.tally ++ row ++ (w.map (fun w => [w.2.tally])).getD [] })
    let s2 := (match w with
      | some w => s1.issueCopies line x.index w.1 w.2
      | none => s1)
    s2.releaseHeld line

/-- SECT on the state: a per-block section runs again for the next block until every block is done (R184,
R185). In a context whose record is formed, or waits for its retag, no program runs. -/
def State.endSection (s : State) (c : CtxId) (once prologue last : Bool) (chk : Check) : State :=
  let x := s.ctx c
  if x.sent || x.retag.isSome then s
  else
  match chk with
  | some u => s.recompute c (unitCode u)
  | none =>
    if prologue then s.endPrologue c
    else if !once && decide (x.block + 1 < ceilDiv x.nAct 32) then s.setCtx c (fun y => { y with block := y.block + 1 })
    else
      let s1 := s.setCtx c (fun y => { y with block := 0 })
      if last then s1.finishRecord c else s1

/-- SECT: ends a section; after the last, the new record is written (R185, R201). -/
def execSect (c : CtxId) (once prologue last : Bool) (chk : Check) (s : State) : Host.Outcome State Fault Refusal :=
  .next (s.endSection c once prologue last chk)

/-! ## The verified write (R203, R204, R207, R397) -/

/-- RECORD_WRITE_VERIFIED on the state: what the record leaves is kept, its context is free, V advances, and the records it has passed
enter the watch's sums. -/
def State.recordVerified (s : State) (line i : Nat) : State :=
  let k := s.churn line
  if k.faulted || !k.verified.contains i then s
  else
    match k.holding i with
    | none => s
    | some (n, _) =>
      let s1 := (s.recordKept line i).setChurn line (fun k => { k with ctxs := NMap.erase k.ctxs n }.markWritten i)
      (s1.settleSums line k.v).setChurn line (fun k => k.takeResume)

/-- RECORD_WRITE_VERIFIED: the port reports the write of record i verified; the churn frees what it holds of it
and advances V (R203, R207). -/
def execRecordWriteVerified (l : LineId) (i : Nat) (s : State) : Host.Outcome State Fault Refusal :=
  .next (s.recordVerified (lineIx l) i)

/-! ## Takeover (R209 to R211) -/

/-- A takeover leaves the sweep statistics of a list's entries incomplete (R247). -/
def State.incomplete (s : State) (items : List SweepItem) : State :=
  ((items.map s.itemKey).eraseDups).foldl (fun (st : State) k => st.setWatch k (fun w => { w with flags := w.flags ||| 0x10 })) s

/-- SWEEP_TAKEOVER on the state: the faulted churn's list, with its marks, goes to the tile's other churn, which
begins it once its own list is done. -/
def State.takeover (s : State) (line : Nat) : State :=
  let k := s.churn line
  if !k.faulted || decide (k.list.length ≤ k.v) then s
  else
    let s1 := s.countedFault (churnUnit line)
    if s1.canTakeOver line then
      let s2 := (s1.incomplete k.list).raise 0x7302 (churnUnit line) line k.v
      (s2.setChurn (otherLine line) (fun o => { o with resume := some (k.list, k.v, k.h) }.takeResume)).setChurn line
        (fun f => { f with list := [], v := 0, h := 0, readDone := [], writeDone := [], verified := [] })
    else s1.sweepLost line

/-- SWEEP_TAKEOVER: a churn faults during the sweep and the tile's other churn takes over its list, or the sweep
is lost (R210, R211). -/
def execSweepTakeover (l : LineId) (s : State) : Host.Outcome State Fault Refusal := .next (s.takeover (lineIx l))

end Sys2Proof.Machine
end

