-- ==== Sys2Proof/Machine/Registers.lean ====
section
/-! DEFINITION. The setup window as software reads it (R8, R10, R335, R463): the registers by offset, the bits
that each defines, and what each reads, from the tables R75/R76, R255/R256, R297/R298, R328/R329, R372/R373,
R408/R409, R431/R432, R460/R461 and R474 to R477. -/

namespace Sys2Proof.Machine

/-- The setup registers. An argument is the register's index. -/
inductive Reg where
  | idDevice | idStepping | serialLo | serialHi | fwVersion | bootStatus | unitCounts | availLinesLo | availLinesHi
  | availCh (k : Nat)
  | setupUnlock | setupStatus | setupApply | setupCmd | setupAddrLo | setupAddrHi | setupLen | setupResult | shadowSel
  | shadowData | logOffset | logInfo | logCount
  | tickCtrl | tickPeriod | tickStatus | stepLo | stepHi | seqCtrl | seqStatus | admitNeed | admitHave | slipTotal
  | portStatus (p : Nat)
  | groupSel | groupCfg | groupDbLo | groupDbHi | qSel | qCfg | qRingLo | qRingHi | qAuxLo | qAuxHi | qStartLap | qIrq
  | qCmd | qStatus | qPosLo | qPosHi | descFail
  | msixTable (word : Nat) | msixPba (word : Nat)
  | memCtrl | memStatus | memEpoch | memExcl (k : Nat) | retrainPend | stackTemp (k : Nat) | regRate (c : Nat)
  | regBurst (c : Nat) | blockErr | chSel | chStatus
  | fabCtrl | fabStatus | moduleId | penMap | tcMap | penRetry (k : Nat) | herdCfg (i : Nat) | srcMacLo (i : Nat)
  | srcMacHi (i : Nat) | gwMacLo (i : Nat) | gwMacHi (i : Nat) | herdStatus (i : Nat) | herdRetx (i : Nat)
  | herdCe (i : Nat)
  | watchCtrl | watchStatus | watchLost | digestSel | digest (k : Nat) | digestStepLo | digestStepHi | noiseShiftActive
  | secStatus | secCmd | secAddrLo | secAddrHi | secLen | secNonce (k : Nat) | secResult | debugCtrl | fwMeas (k : Nat)
  | idDigest (k : Nat) | planMeas (k : Nat) | confJobTag
  | pwrStatus | vin | pin | powerLimit | clock | tj | coolant | peakUsed | auxCfg | wearHot | wearOn
  | evtStatus | evtTailLo | evtTailHi | evtLost | replayCount | witnessCount | ledgerSel | ledgerStatus | lifeStepsLo
  | lifeStepsHi | exportStatus | exportStepLo | exportStepHi | exportLogFree | evtBuf (word : Nat)
  deriving DecidableEq, Repr

/-! ## Offsets -/

/-- Identity and status (R474). -/
def regsIdentity : NMap Reg :=
  [(0, .idDevice), (4, .idStepping), (8, .serialLo), (0xC, .serialHi), (0x10, .fwVersion), (0x14, .bootStatus),
   (0x18, .unitCounts), (0x20, .availLinesLo), (0x24, .availLinesHi)]
/-- Setup control (R476). -/
def regsSetup : NMap Reg :=
  [(0, .setupUnlock), (4, .setupStatus), (8, .setupApply), (0xC, .setupCmd), (0x10, .setupAddrLo), (0x14, .setupAddrHi),
   (0x18, .setupLen), (0x1C, .setupResult), (0x20, .shadowSel), (0x24, .shadowData), (0x28, .logOffset), (0x2C, .logInfo),
   (0x30, .logCount)]
/-- Sequencer (R75). -/
def regsSequencer : NMap Reg :=
  [(0, .tickCtrl), (4, .tickPeriod), (8, .tickStatus), (0xC, .stepLo), (0x10, .stepHi), (0x14, .seqCtrl), (0x18, .seqStatus),
   (0x1C, .admitNeed), (0x20, .admitHave), (0x24, .slipTotal)]
/-- Host queues (R372). -/
def regsHost : NMap Reg :=
  [(0, .portStatus 0), (4, .portStatus 1), (8, .portStatus 2), (0xC, .portStatus 3), (0x10, .groupSel), (0x14, .groupCfg),
   (0x18, .groupDbLo), (0x1C, .groupDbHi), (0x20, .qSel), (0x24, .qCfg), (0x28, .qRingLo), (0x2C, .qRingHi), (0x30, .qAuxLo),
   (0x34, .qAuxHi), (0x38, .qStartLap), (0x3C, .qIrq), (0x40, .qCmd), (0x44, .qStatus), (0x48, .qPosLo), (0x4C, .qPosHi),
   (0x50, .descFail)]
/-- Memory (R328), apart from the indexed registers. -/
def regsMemory : NMap Reg :=
  [(0, .memCtrl), (4, .memStatus), (8, .memEpoch), (0x20, .retrainPend), (0xC0, .blockErr), (0xD0, .chSel), (0xD4, .chStatus)]
/-- Fabric (R297), apart from the indexed registers. -/
def regsFabric : NMap Reg :=
  [(0, .fabCtrl), (4, .fabStatus), (8, .moduleId), (0xC, .penMap), (0x10, .tcMap)]
/-- Numerics (R255), apart from DIGEST_k. -/
def regsNumerics : NMap Reg :=
  [(0, .watchCtrl), (4, .watchStatus), (8, .watchLost), (0xC, .digestSel), (0x30, .digestStepLo), (0x34, .digestStepHi),
   (0x38, .noiseShiftActive)]
/-- Security (R431), apart from the indexed registers. -/
def regsSecurity : NMap Reg :=
  [(0, .secStatus), (4, .secCmd), (8, .secAddrLo), (0xC, .secAddrHi), (0x10, .secLen), (0x34, .secResult), (0x38, .debugCtrl),
   (0xA0, .confJobTag)]
/-- Power (R460). -/
def regsPower : NMap Reg :=
  [(0, .pwrStatus), (4, .vin), (8, .pin), (0xC, .powerLimit), (0x10, .clock), (0x14, .tj), (0x18, .coolant), (0x1C, .peakUsed),
   (0x20, .auxCfg), (0x24, .wearHot), (0x28, .wearOn)]
/-- Events (R408), apart from EVT_BUF. -/
def regsEvents : NMap Reg :=
  [(0, .evtStatus), (4, .evtTailLo), (8, .evtTailHi), (0xC, .evtLost), (0x10, .replayCount), (0x14, .witnessCount),
   (0x20, .ledgerSel), (0x24, .ledgerStatus), (0x28, .lifeStepsLo), (0x2C, .lifeStepsHi), (0x30, .exportStatus),
   (0x34, .exportStepLo), (0x38, .exportStepHi), (0x3C, .exportLogFree)]

/-- One of n registers in a row from an offset. -/
def regRow (off base n : Nat) (r : Nat → Reg) : Option Reg :=
  if base ≤ off ∧ off < base + 4 * n then some (r ((off - base) / 4)) else none

/-- The first register found. -/
def firstReg : List (Option Reg) → Option Reg
  | [] => none
  | some r :: _ => some r
  | none :: rs => firstReg rs

/-- A register of a herd port's group (R297). -/
def regHerd (off : Nat) : Option Reg :=
  if 0x100 ≤ off ∧ off < 0x200 then
    let i := (off - 0x100) / 32
    some (match (off - 0x100) % 32 / 4 with
      | 0 => .herdCfg i
      | 1 => .srcMacLo i
      | 2 => .srcMacHi i
      | 3 => .gwMacLo i
      | 4 => .gwMacHi i
      | 5 => .herdStatus i
      | 6 => .herdRetx i
      | _ => .herdCe i)
  else none

/-- The register at an aligned offset, none for a reserved one (R463). -/
def regAt (off : Nat) : Option Reg :=
  let o := off % 0x10000
  match off / 0x10000 with
  | 0x0 => firstReg [NMap.find? regsIdentity o, regRow o 0x40 12 .availCh]
  | 0x1 => NMap.find? regsSetup o
  | 0x2 => NMap.find? regsSequencer o
  | 0x4 => NMap.find? regsHost o
  | 0x6 => firstReg [regRow o 0 8192 .msixTable, regRow o 0x8000 64 .msixPba]
  | 0x8 => firstReg [NMap.find? regsMemory o, regRow o 0x10 4 .memExcl, regRow o 0x40 12 .stackTemp,
      regRow o 0x80 5 .regRate, regRow o 0xA0 5 .regBurst]
  | 0xA => firstReg [NMap.find? regsFabric o, regRow o 0x40 8 .penRetry, regHerd o]
  | 0xC => firstReg [NMap.find? regsNumerics o, regRow o 0x10 8 .digest]
  | 0xD => firstReg [NMap.find? regsSecurity o, regRow o 0x14 8 .secNonce, regRow o 0x40 8 .fwMeas, regRow o 0x60 8 .idDigest,
      regRow o 0x80 8 .planMeas]
  | 0xE => NMap.find? regsPower o
  | 0xF => firstReg [NMap.find? regsEvents o, regRow o 0x1000 2048 .evtBuf]
  | _ => none

/-- The bits of a register that are not reserved. -/
def Reg.defined : Reg → Nat
  | .idStepping => 0xFF
  | .bootStatus => 0x1FFF07
  | .setupStatus => 0xFF
  | .setupApply => 3
  | .setupCmd => 0xF
  | .setupResult => 0xFFFFF
  | .shadowSel => 0xFFFFC
  | .logOffset => 0xFFFFF
  | .logInfo => 0x7F
  | .tickCtrl => 7
  | .tickPeriod => 0xFFFFFF
  | .tickStatus => 0xFFFFFF0F
  | .stepHi => 0xFFFF
  | .seqCtrl => 0xFF03
  | .seqStatus => 0xFF1F
  | .portStatus _ => 0xFFFF1FFF
  | .groupSel => 0x7F
  | .groupCfg => 0x1F
  | .qSel => 0x1FFF
  | .qCfg => 0x7F
  | .qIrq => 0xFF0FFF
  | .qCmd => 3
  | .qStatus => 0xFFFF000F
  | .memCtrl => 3
  | .memStatus => 0xFFFF
  | .memEpoch => 0xFFFF
  | .memExcl _ => 0x3FF
  | .retrainPend => 0xFFF
  | .regRate _ => 0xFFFFF
  | .regBurst _ => 0xFFFF
  | .chSel => 0x1FF
  | .chStatus => 0xFFFF001F
  | .fabCtrl => 3
  | .fabStatus => 0x3FFFF
  | .moduleId => 0xFFF
  | .tcMap => 0x7FFFFFF
  | .herdCfg _ => 0x3FFF
  | .srcMacHi _ => 0xFFFF
  | .gwMacHi _ => 0xFFFF
  | .herdStatus _ => 0x1F07
  | .watchCtrl => 0xFFFF07FF
  | .watchStatus => 0x3FFF
  | .digestSel => 0xFFFF
  | .digestStepHi => 0xFFFF
  | .noiseShiftActive => 0xF
  | .secStatus => 0xFFFF001F
  | .secCmd => 0xF
  | .secResult => 0x1FFFF
  | .debugCtrl => 1
  | .pwrStatus => 0x7F
  | .powerLimit => 0xFFF
  | .tj => 0x7FFFFF
  | .peakUsed => 0xFFF
  | .auxCfg => 0xF
  | .evtStatus => 1
  | .witnessCount => 0xFFFF
  | .ledgerSel => 0xFFFF
  | .ledgerStatus => 0xFFFF0003
  | .exportStatus => 0xFFFF000F
  | .exportStepHi => 0xFFFF
  | _ => 0xFFFFFFFF

/-! ## What the status registers show -/

/-- STAGE of R475. -/
def BootStage.code : BootStage → Nat
  | .rom => 0
  | .loading => 1
  | .releasing => 2
  | .ready => 3
  | .recovery => 4
  | .failed => 5
/-- STATE of R76. -/
def JobState.code : JobState → Nat
  | .idle => 0
  | .filling => 1
  | .running => 2
  | .stopping => 3
  | .halted => 4
/-- STATE of PORT_STATUS (R373). -/
def PortLink.code : PortLink → Nat
  | .down => 0
  | .up => 1
  | .retraining => 2
/-- STATE of Q_STATUS (R373). -/
def QueueMode.code : QueueMode → Nat
  | .unarmed => 0
  | .armed => 1
  | .halted => 2
  | .orphaned => 3
  | .disarming => 4
/-- STATE of EXPORT_STATUS (R409). -/
def ExportMode.code : ExportMode → Nat
  | .off => 0
  | .base => 1
  | .delta => 2
  | .broken => 3

/-- Fields of a register as (lowest bit, value). -/
def packFields (fs : List (Nat × Nat)) : Nat := fs.foldl (fun a f => a + f.2 * 2 ^ f.1) 0

/-- The 64-bit AVAIL_LINES value (R475): bit 2t + l. -/
def State.availLines (s : State) : Nat :=
  packFields ((List.range 64).map (fun i => (i, b2n (s.lineAvailable (i / 2) (i % 2)))))

/-- Global channels neither down nor unavailable, 32 of stack k (R475). -/
def State.availChannels (s : State) (k : Nat) : Nat :=
  packFields ((List.range 32).map (fun c =>
    (c, b2n (!(s.channel (32 * k + c)).down && !s.unavailable (unitChannel (32 * k + c))))))

/-- How many ledger units stand in a state. -/
def State.unitsIn (s : State) (st : BitVec 2) : Nat := s.rel.ledger.countP (fun e => e.2.state == st)

/-- RETIRE_PENDING of R308: the ledger marks a channel PERMANENT or RETIRED that is not excluded. -/
def State.retirePending (s : State) : Bool :=
  (List.range 384).any (fun c => s.unavailable (unitChannel c) && !s.excluded.contains c)

/-- Whether a stack holds a retraining request (R329). -/
def State.stackPending (s : State) (k : Nat) : Bool :=
  (List.range 32).any (fun c => (s.channel (32 * k + c)).pending.isSome)

/-- The fewest paths left on any connection of a herd port (R298). -/
def State.pathsLeft (s : State) (i : Nat) : Nat :=
  match (s.fab.conns.filter (fun e => e.1 % 8 == i)).map (fun e => 16 - e.2.removed.length) with
  | [] => 0
  | p :: ps => ps.foldl min p

/-- The latest digest of the tensor that DIGEST_SEL names, and its step (R256). -/
def State.latestDigest (s : State) : Option (BitVec 256 × BitVec 48) := (s.watchOf (s.tensorKey s.win.digestSel.toNat)).digest

/-- The digest that DIGEST_0 to DIGEST_7 hold: none in confidential mode, where they read zero (R256, R425). -/
def State.shownDigest (s : State) : Option (BitVec 256) := if s.confidential then none else s.latestDigest.map (·.1)

/-- Word k of a 256-bit value. -/
def word256 (x : BitVec 256) (k : Nat) : Nat := bits (32 * k + 31) (32 * k) x.toNat

/-- Word w of the event buffer (R409): record s stands at slot s mod 256. -/
def State.eventWord (s : State) (w : Nat) : Nat :=
  let seq := s.events.seq.toNat
  let n := s.events.buffer.length
  let back := (seq + 256 - 1 - w / 8) % 256 + 1
  if n < back then 0
  else
    match s.events.buffer[n - back]? with
    | some e => field e.encode (w % 8 * 4) 4
    | none => 0

/-- The low or high 32 bits of a number. -/
def lo32 (n : Nat) : Nat := bits 31 0 n
/-- Bits 63 to 32. -/
def hi32 (n : Nat) : Nat := bits 63 32 n

/-- A counter of R429 as software reads it: as it stood at CONF_ENTER in confidential mode. -/
def State.counter (s : State) (live frozen : Nat) : Nat := if s.confidential then frozen else live

/-- A word of a port's MSI-X table (R363, PCIe): address low and high, data, vector control. -/
def State.msixWord (s : State) (port w : Nat) : Nat :=
  let e := NMap.getD (s.port port).msix (w / 4) {}
  match w % 4 with
  | 0 => lo32 e.addr.toNat
  | 1 => hi32 e.addr.toNat
  | 2 => e.data.toNat
  | _ => b2n e.masked

/-- A word of a port's pending bit array. -/
def State.msixPending (s : State) (port w : Nat) : Nat :=
  packFields ((List.range 32).map (fun i => (i, b2n (NMap.getD (s.port port).msix (32 * w + i) {}).pending)))

/-! ## The fields of each register -/

/-- Buffered fields of a register in one view (R468); none for a register without them. -/
def Buffered.reg (v : Buffered) : Reg → Option Nat
  | .tickCtrl => some (packFields [(0, v.tickSource.toNat), (2, b2n v.tickOutEn)])
  | .tickPeriod => some v.tickPeriod.toNat
  | .seqCtrl => some (packFields [(8, v.slipLimit.toNat)])
  | .watchCtrl => some (packFields [(0, b2n v.stallEn), (1, b2n v.recordsEn), (2, v.histDefault.toNat), (7, v.noiseShift.toNat),
      (16, v.stallDefault.toNat)])
  | .fabCtrl => some (packFields [(1, b2n v.herdEn)])
  | .moduleId => some v.moduleId.toNat
  | .tcMap => some (packFields [(0, v.pcpTime.toNat), (3, v.pcpCtrl.toNat), (6, v.pcpBulk.toNat), (9, v.dscpTime.toNat),
      (15, v.dscpCtrl.toNat), (21, v.dscpBulk.toNat)])
  | .herdCfg i => let h := NMap.getD v.herd i {}
      some (packFields [(0, h.vid.toNat), (12, b2n h.pfcTx), (13, b2n h.pfcRx)])
  | .srcMacLo i => some (lo32 (NMap.getD v.herd i {}).srcMac.toNat)
  | .srcMacHi i => some (bits 47 32 (NMap.getD v.herd i {}).srcMac.toNat)
  | .gwMacLo i => some (lo32 (NMap.getD v.herd i {}).gwMac.toNat)
  | .gwMacHi i => some (bits 47 32 (NMap.getD v.herd i {}).gwMac.toNat)
  | .memCtrl => some (b2n v.retrainAuto)
  | .memExcl k => some (NMap.getD v.excl k 0).toNat
  | .regRate c => some (NMap.getD v.regRate c 0).toNat
  | .regBurst c => some (NMap.getD v.regBurst c 0).toNat
  | .debugCtrl => some (b2n v.debugEn)
  | .powerLimit => some v.powerLimit.toNat
  | .auxCfg => some (packFields [(0, v.aux0.toNat), (2, v.aux1.toNat)])
  | _ => none

/-- Identity, setup control and sequencer registers. -/
def State.readControl (s : State) (r : Reg) : Nat :=
  let b := s.boot
  match r with
  | .idDevice => packFields [(0, b.vendor.toNat), (16, 0x64)]
  | .idStepping => b.stepping.toNat
  | .serialLo => lo32 b.serial.toNat
  | .serialHi => hi32 b.serial.toNat
  | .fwVersion => b.version.toNat
  | .bootStatus => packFields [(0, b.stage.code), (8, b.fail.toNat), (16, b.cause.toNat), (20, b2n b.fwNewer)]
  | .unitCounts => packFields [(0, s.unitsIn 3 % 65536), (16, s.unitsIn 2 % 65536)]
  | .availLinesLo => lo32 s.availLines
  | .availLinesHi => hi32 s.availLines
  | .availCh k => s.availChannels k
  | .setupStatus => packFields [(0, b2n (s.setup.op != 0)), (1, s.setup.op.toNat), (4, b2n (!s.setup.armed)),
      (5, b2n (s.pend != s.active)), (6, b2n s.setup.flashBusy), (7, b2n (s.setup.cmdRunning != 0))]
  | .setupAddrLo => lo32 s.setup.addr.toNat
  | .setupAddrHi => hi32 s.setup.addr.toNat
  | .setupLen => s.setup.len.toNat
  | .setupResult => packFields [(0, s.setup.resultCode.toNat), (16, b2n s.setup.resultDone), (17, s.setup.resultCmd.toNat)]
  | .shadowSel => s.setup.shadowSel.toNat * 4
  | .logOffset => s.setup.logOffset.toNat
  | .logInfo => packFields [(0, s.setup.logReason.toNat), (4, s.setup.logSource.toNat)]
  | .logCount => s.setup.logCount.toNat
  | .tickStatus => packFields [(0, b2n s.clk.locked), (1, b2n s.clk.holdover), (2, b2n s.isMaster), (3, b2n s.clk.held),
      (8, s.clk.glitch.toNat), (16, s.clk.offset.toNat)]
  | .stepLo => lo32 s.seq.step.toNat
  | .stepHi => s.seq.stepHi.toNat
  | .seqStatus => packFields [(0, s.seq.job.code), (3, b2n s.plan.isSome), (4, b2n s.seq.void.any), (8, s.seq.curSlips.toNat)]
  | .admitNeed => s.seq.admitNeed.toNat
  | .admitHave => s.seq.admitHave.toNat
  | .slipTotal => s.seq.slipTotal.toNat
  | _ => 0

/-- Host-queue registers (R373). -/
def State.readHostRegs (s : State) (port : Nat) (r : Reg) : Nat :=
  let g := s.group s.win.groupSel.toNat
  let q := s.queue s.win.qSel.toNat
  match r with
  | .portStatus p => let x := s.port p
      packFields [(0, x.link.code), (2, b2n x.orphaned), (3, b2n x.present), (4, x.speed.toNat), (8, x.width.toNat),
        (16, x.retrains.toNat)]
  | .groupSel => s.win.groupSel.toNat
  | .groupCfg => packFields [(0, g.poll.toNat), (4, b2n g.enable)]
  | .groupDbLo => lo32 g.db.toNat
  | .groupDbHi => hi32 g.db.toNat
  | .qSel => s.win.qSel.toNat
  | .qCfg => packFields [(0, s.win.qClass.toNat), (2, s.win.qLog2.toNat)]
  | .qRingLo => lo32 s.win.qRing.toNat
  | .qRingHi => hi32 s.win.qRing.toNat
  | .qAuxLo => lo32 s.win.qAux.toNat
  | .qAuxHi => hi32 s.win.qAux.toNat
  | .qStartLap => s.win.qStartLap.toNat
  | .qIrq => packFields [(0, q.vector.toNat), (11, b2n q.irqEn), (16, q.holdoff.toNat)]
  | .qStatus => packFields [(0, q.mode.code), (3, b2n q.armErr), (16, q.code.toNat)]
  | .qPosLo => lo32 (if deviceRing q.cls then q.p else q.c)
  | .qPosHi => hi32 (if deviceRing q.cls then q.p else q.c)
  | .descFail => s.host.descFail.toNat
  | .msixTable w => s.msixWord port w
  | .msixPba w => s.msixPending port w
  | _ => 0

/-- Memory and fabric registers (R298, R329). -/
def State.readMemFab (s : State) (r : Reg) : Nat :=
  let c := s.channel s.win.chSel.toNat
  match r with
  | .memStatus => packFields [(0, s.channelCount), (9, s.excluded.length), (12, b2n s.mem.throttled), (13, b2n s.mem.crit),
      (14, b2n (s.mem.channels.any (fun e => e.2.held))), (15, b2n s.retirePending)]
  | .memEpoch => s.mem.epoch.toNat
  | .retrainPend => packFields ((List.range 12).map (fun k => (k, b2n (s.stackPending k))))
  | .stackTemp k => packFields [(0, (s.stack k).temp.toNat), (16, (s.stack k).peak.toNat)]
  | .blockErr => s.mem.blockErr.toNat
  | .chSel => s.win.chSel.toNat
  | .chStatus => packFields [(0, min c.spares 2), (2, b2n (s.excluded.contains s.win.chSel.toNat)), (3, b2n c.down),
      (4, b2n c.pending.isSome), (16, s.counter c.errors.toNat (NMap.getD s.sec.frozen.chErrors s.win.chSel.toNat 0).toNat)]
  | .fabStatus => packFields ((List.range 8).map (fun k => (k, b2n ((NMap.getD s.fab.pen k {}).up && (NMap.getD s.fab.pen k {}).valid)))
      ++ (List.range 8).map (fun i => (8 + i, b2n (NMap.getD s.fab.herd i {}).pcsLock))
      ++ [(16, b2n s.fab.training), (17, b2n s.seq.joined)])
  | .penMap => packFields ((List.range 8).map (fun k =>
      (4 * k, 8 * b2n (NMap.getD s.fab.pen k {}).valid + (NMap.getD s.fab.pen k {}).peer.toNat)))
  | .penRetry k => s.counter (NMap.getD s.fab.pen k {}).retries.toNat (NMap.getD s.sec.frozen.penRetry k 0).toNat
  | .herdStatus i => let h := NMap.getD s.fab.herd i {}
      packFields [(0, b2n h.pcsLock), (1, b2n h.localFault), (2, b2n h.remoteFault), (8, s.pathsLeft i)]
  | .herdRetx i => s.counter (NMap.getD s.fab.herd i {}).retx.toNat (NMap.getD s.sec.frozen.herdRetx i 0).toNat
  | .herdCe i => s.counter (NMap.getD s.fab.herd i {}).ce.toNat (NMap.getD s.sec.frozen.herdCe i 0).toNat
  | _ => 0

/-- Numerics, security, power and events registers (R256, R409, R432, R461). -/
def State.readStatus (s : State) (r : Reg) : Nat :=
  match r with
  | .watchStatus => packFields [(0, (s.plan.map (fun p => p.layout.watch.length)).getD 0), (13, b2n s.shownDigest.isSome)]
  | .watchLost => s.counter s.watch.lost.toNat s.sec.frozen.watchLost.toNat
  | .digestSel => s.win.digestSel.toNat
  | .digest k => word256 (s.shownDigest.getD 0) k
  | .digestStepLo => lo32 (s.latestDigest.getD (0, 0)).2.toNat
  | .digestStepHi => bits 47 32 (s.latestDigest.getD (0, 0)).2.toNat
  | .noiseShiftActive => s.active.noiseShift.toNat
  | .secStatus => packFields [(0, s.sec.mode.toNat), (2, b2n s.sec.idOk), (3, b2n s.sec.running), (4, b2n s.sec.svnLow),
      (16, s.sec.svn.toNat % 65536)]
  | .secAddrLo => lo32 s.win.secAddr.toNat
  | .secAddrHi => hi32 s.win.secAddr.toNat
  | .secLen => s.win.secLen.toNat
  | .secNonce k => (NMap.getD s.win.secNonce k 0).toNat
  | .secResult => packFields [(0, s.sec.resultCode.toNat), (16, b2n s.sec.resultDone)]
  | .fwMeas k => word256 s.sec.fw k
  | .idDigest k => word256 s.sec.idDigest k
  | .planMeas k => word256 s.sec.plan k
  | .confJobTag => if s.confidential then s.sec.jobTag.toNat else 0
  | .pwrStatus => packFields [(0, b2n s.pwr.vinOk), (1, b2n s.pwr.coolOk), (2, b2n s.pwr.clamped), (3, b2n (s.pwr.peakUsed == 250)),
      (4, b2n (decide (1600 < s.pwr.tj.toInt))), (5, b2n (s.seq.void.vin || s.seq.void.clamp || s.seq.void.coolant)),
      (6, b2n s.pwr.coolPin)]
  | .vin => packFields [(0, s.pwr.vin.toNat), (16, s.pwr.iin.toNat)]
  | .pin => packFields [(0, s.pwr.pin1ms.toNat), (16, s.pwr.pin1s.toNat)]
  | .clock => packFields [(0, s.pwr.clock.toNat), (16, s.pwr.stepClock.toNat)]
  | .tj => packFields [(0, s.pwr.tj.toNat), (16, s.pwr.tjSensor.toNat)]
  | .coolant => packFields [(0, s.pwr.inlet.toNat), (16, s.pwr.flow.toNat)]
  | .peakUsed => s.pwr.peakUsed.toNat
  | .wearHot => s.pwr.wearHot.toNat
  | .wearOn => s.pwr.wearOn.toNat
  | .evtStatus => b2n s.events.fault
  | .evtTailLo => lo32 s.events.seq.toNat
  | .evtTailHi => s.events.tailHi.toNat
  | .evtLost => s.counter s.events.lost.toNat s.sec.frozen.evtLost.toNat
  | .replayCount => s.counter (packFields [(0, s.rel.replays.toNat), (16, s.rel.suspects.toNat)]) s.sec.frozen.replays.toNat
  | .witnessCount => s.counter s.rel.served.toNat s.sec.frozen.served.toNat
  | .ledgerSel => s.win.ledgerSel.toNat
  | .ledgerStatus => packFields [(0, (s.unit s.win.ledgerSel).state.toNat), (16, min 65535 (s.unit s.win.ledgerSel).counted.toNat)]
  | .lifeStepsLo => lo32 s.rel.lifeSteps.toNat
  | .lifeStepsHi => s.rel.lifeHi.toNat
  | .exportStatus => packFields [(0, s.rel.exp.mode.code), (2, b2n s.rel.exp.waiting), (3, b2n s.rel.exp.stepValid),
      (16, s.rel.exp.queue)]
  | .exportStepLo => lo32 s.rel.exp.step.toNat
  | .exportStepHi => bits 47 32 s.rel.exp.step.toNat
  | .exportLogFree => ((s.exportLog.map (·.1)).getD 0 - s.rel.exp.logUsed) / 2 ^ 20
  | .evtBuf w => s.eventWord w
  | _ => 0

/-- The defined bits of a register, its buffered fields in one view. -/
def State.readReg (s : State) (view : Buffered) (port : Nat) (r : Reg) : Nat :=
  match view.reg r with
  | some v => v
  | none => s.readControl r + s.readHostRegs port r + s.readMemFab r + s.readStatus r

/-- Add free values for a register's reserved bits (R10; log 9). -/
def State.withReserved (s : State) (off defined value : Nat) : Nat :=
  value &&& defined ||| ((Config.reservedBits (s.fresh * 2 ^ 20 + off)).toNat &&& (0xFFFFFFFF ^^^ defined))

/-- What SHADOW_DATA shows (R468): the selected register with its pending view. -/
def State.shadowData (s : State) (port : Nat) : Nat :=
  let off := s.setup.shadowSel.toNat * 4
  match regAt off with
  | some .shadowData => 0
  | some r => s.withReserved off r.defined (s.readReg s.pend port r)
  | none => 0

/-- Whether a port may read an offset (R335, R481). -/
def State.portSees (s : State) (port off : Nat) : Bool :=
  if s.boot.stage = .recovery then decide (off < 0x20000)
  else port == 0 || decide (off < 0x10000) || off == 0x40000 + 4 * port || decide (0x60000 ≤ off ∧ off ≤ 0x680FC)

/-- What a 32-bit read of the window returns, without its side effects (R335, R463, R481). -/
def State.windowRead (s : State) (port off : Nat) : Word :=
  if !s.portSees port off then 0xFFFFFFFF
  else
    match regAt off with
    | none => 0
    | some .shadowData => BitVec.ofNat 32 (s.shadowData port)
    | some r => BitVec.ofNat 32 (s.withReserved off r.defined (s.readReg s.active port r))

end Sys2Proof.Machine
end

