-- ==== Sys2Proof/Machine/Tables.lean ====
section
/-! DEFINITION. Loading and swapping tables: descriptor blocks (R139 to R141), what a load may write (R148),
row loads (R147), staging (R149), swaps (R169 to R171), and how versions are discarded (R146, R150, R489). -/

namespace Sys2Proof.Machine

/-! ## The staging pool (R146, R149) -/

/-- Join adjacent spans of an ascending list. -/
def joinSpans : List (Nat × Nat) → List (Nat × Nat)
  | [] => []
  | a :: r =>
    match joinSpans r with
    | b :: t => if a.1 + a.2 = b.1 then (a.1, a.2 + b.2) :: t else a :: b :: t
    | [] => [a]

/-- Spans in ascending order, adjacent ones joined. -/
def poolOf (spans : List (Nat × Nat)) : List (Nat × Nat) :=
  joinSpans ((spans.filter (fun a => a.2 != 0)).mergeSort (fun a b => decide (a.1 ≤ b.1)))

/-- The owned ranges of a version with their index. -/
def State.ownedRanges (s : State) (t : TableVer) : List (ShardRange × Nat) :=
  t.ranges.zipIdx.filter (fun r => r.1.owner == s.me)

/-- The HBM regions of a version on this module: base and bytes. -/
def State.regionsOf (s : State) (t : TableVer) : List (Nat × Nat) :=
  (s.ownedRanges t).filterMap (fun r => (NMap.find? t.bases r.2).map (fun b => (b, t.regionBytes r.1)))

/-- Discard the versions that a test selects; their space joins the staging pool (R146), and their cache
entries are released. -/
def State.dropVersions (s : State) (p : TableVer → Bool) : State :=
  let gone := s.emb.tables.filter p
  { s with
    emb.tables := s.emb.tables.filter (fun t => !p t)
    emb.pool := poolOf (s.emb.pool ++ gone.flatMap s.regionsOf)
    mem.rowCache := s.mem.rowCache.filter (fun e => !gone.any (fun t => t.current && t.id == e.table)) }

/-- Space of n bytes taken from the first span of a pool that holds it (DESIGN CHOICE, log 43): where it begins, and the pool that
is left. -/
def takeSpan (n : Nat) : List (Nat × Nat) → Option (Nat × List (Nat × Nat))
  | [] => none
  | a :: r => if n ≤ a.2 then some (a.1, (a.1 + n, a.2 - n) :: r) else (takeSpan n r).map (fun x => (x.1, a :: x.2))

/-- Regions for ranges, one after another, from a pool: their bases, and the pool that is left (R149). -/
def placeRanges (t : TableVer) : List (ShardRange × Nat) → List (Nat × Nat) → Option (NMap Nat × List (Nat × Nat))
  | [], pool => some ([], pool)
  | r :: rs, pool =>
    match takeSpan (t.regionBytes r.1) pool with
    | none => none
    | some x => (placeRanges t rs x.2).map (fun y => (NMap.insert y.1 r.2 x.1, y.2))

/-! ## Ending swaps -/

/-- TABLE_SWAPs complete with SWAP_INCOMPLETE (R150, R169, R489). -/
def State.failSwaps (s : State) (ws : List (Nat × Nat)) : State :=
  ws.foldl (fun st w => st.stopDesc w.1 w.2 0x3203 0) s

/-- A swap takes effect (R169, R171): the staged version becomes current, the old one is freed, the waiting
descriptors complete with the count of dropped updates. -/
def State.commitSwap (s : State) (table version : Nat) (waiters : List (Nat × Nat)) : State :=
  let n := ((s.currentTable table).map (·.dropped)).getD 0
  let s1 := s.dropVersions (fun t => t.id == table && t.current)
  let s2 := s1.mapTables (fun t => t.id == table && t.version == version)
    (fun t => { t with current := true, staged := false, announced := false, dropped := 0 })
  let s3 : State := { s2 with emb.swaps := s2.emb.swaps.filter (fun w => w.table != table) }
  let s4 := waiters.foldl (fun (st : State) w => st.finishDesc w.1 w.2 0 n) s3
  let s5 := s4.raise 0x3202 0 table version
  if n = 0 then s5 else s5.raise 0x3204 0 table n

/-- A TABLE_LOAD that waits for the staging fill of a version that is discarded ends with TABLE_DISCARDED (DESIGN CHOICE: the manual does
not say what becomes of it; log 43), and with the fill the long setup operation ends. -/
def State.dropStaging (s : State) : State :=
  let s1 := s.host.queues.foldl (fun (st : State) e => e.2.descs.foldl (fun (st : State) d =>
    if d.stage = .waiting ∧ dOp d.bytes = 3 then st.stopDesc e.1 d.pos 0x300A 0 else st) st) s
  if s1.emb.tables.any (·.filling) then s1.endOp 3 else s1

/-- A job stops (R150): announced staged versions become current, the others and their swaps end. -/
def State.settleVersions (s : State) : State :=
  let s1 := (s.emb.swaps.filter (·.announced)).foldl (fun (st : State) w => st.commitSwap w.table w.version w.waiters) s
  let s2 := s1.emb.swaps.foldl (fun (st : State) w => st.failSwaps w.waiters) s1
  let s3 := (({ s2 with emb.swaps := [] } : State).dropStaging).dropVersions (fun t => t.staged)
  s3.mapTables (fun _ => true) (fun t => { t with dropped := 0, sweptNow := 0 })

/-- The loaded plan is discarded: PLAN_MEAS reads zero again (R418) and the export stream breaks (R403). -/
def State.dropPlan (s : State) : State := ({ s with plan := none, sec.plan := 0 } : State).breakExport

/-- Every version and staged version is discarded (R489). -/
def State.discardTables (s : State) : State :=
  let s1 := s.emb.swaps.foldl (fun (st : State) w => st.failSwaps w.waiters) s
  ({ s1.dropStaging with emb.tables := [], emb.swaps := [], emb.pool := [], emb.regions := none, mem.rowCache := [] } : State).raise 0x300A

/-! ## Descriptor blocks (R139 to R141) -/

/-- Where the default row's records begin in a block (R139). -/
def defaultsAt (ranges : Nat) : Nat := roundUp (64 + 16 * ranges) 512

/-- The version that a block describes. -/
def parseBlock (b : Bytes) : TableVer where
  id := field b 0 2
  version := field b 4 4
  rows := field b 8 5
  dim := field b 16 2
  code := field b 18 1
  layout := field b 19 1
  anchor := BitVec.ofNat 10 (field b 22 2)
  ranges := (List.range (field b 20 2)).map (fun i => ⟨field b (64 + 16 * i) 5, field b (69 + 16 * i) 5, field b (74 + 16 * i) 2⟩)
  defaults := b.drop (defaultsAt (field b 20 2))

/-- The header breaks R139. -/
def blockHeaderBad (b : Bytes) : Bool :=
  field b 0 2 == 0xFFFF || field b 2 2 != 1 || field b 4 4 == 0 || field b 4 4 == 0xFFFFFFFF || field b 8 5 == 0
    || !zeroAt b 13 3 || decide (field b 16 2 < 16) || decide (1024 < field b 16 2) || field b 16 2 % 16 != 0
    || decide (1 < field b 18 1) || decide (1 < field b 19 1) || field b 20 2 == 0 || decide (4096 < field b 20 2)
    || decide (1023 < field b 22 2) || !zeroAt b 28 36

/-- A range entry breaks R140 or names no module of the job (R141). -/
def State.rangeBad (s : State) (b : Bytes) (t : TableVer) (i : Nat) (r : ShardRange) : Bool :=
  !zeroAt b (76 + 16 * i) 4 || decide (4095 < r.owner) || decide (r.last ≤ r.first) || decide (t.rows < r.last)
    || !(match s.jobMap with
      | some m => m.modules.any (fun e => e.module == r.owner)
      | none => false)

/-- A default row record breaks R144: LOADED and FROZEN are 1, SEGMENT is right and bits [15:6] are zero; POISON may be set. -/
def defaultBad (t : TableVer) (g : Nat) : Bool :=
  let f := field (t.defaultRecord g) 10 2
  f != 5 + 8 * g && f != 7 + 8 * g

/-- An entry's END exceeds the next entry's FIRST (R141). -/
def rangesOverlap (rs : List ShardRange) : Bool := (rs.zip (rs.drop 1)).any (fun p => decide (p.2.first < p.1.last))

/-- The check of a block for a descriptor (R141): SHARD_OVERLAP, which stands instead of TABLE_BAD, TABLE_BAD or none. -/
def State.blockFail (s : State) (d b : Bytes) : Option Nat :=
  let t := parseBlock b
  let start := defaultsAt t.ranges.length
  if rangesOverlap t.ranges then some 0x3002
  else if blockHeaderBad b then some 0x3001
  else if s.plan.isNone || t.id != dTable d || t.version != dVersion d
      || field b 24 4 != start + ceilDiv t.segs (perBlock t.rs) * 512
      || !zeroAt b (64 + 16 * t.ranges.length) (start - (64 + 16 * t.ranges.length))
      || t.ranges.zipIdx.any (fun r => s.rangeBad b t r.2 r.1)
      || !strictlyAscending (t.ranges.map (·.first)) || (List.range t.segs).any (defaultBad t) then some 0x3001
  else none

/-- Two versions that may be staged over one another (R149): they differ in VERSION and the default row alone. -/
def TableVer.sameShape (a b : TableVer) : Bool :=
  a.rows == b.rows && a.dim == b.dim && a.code == b.code && a.layout == b.layout && a.anchor == b.anchor && a.ranges == b.ranges

/-! ## What a load may write (R148) -/

/-- What a TABLE_LOAD does to the version it names. -/
inductive LoadTarget where
  | fails (code : Nat)
  | first
  | current
  | newStage
  | staged
  deriving DecidableEq, Repr

/-- The row of R148's table for a table and a version. -/
def State.loadTarget (s : State) (table version : Nat) : LoadTarget :=
  match s.currentTable table, s.stagedTable table with
  | none, _ => if s.idle then .first else .fails 0x3001
  | some c, g =>
    if c.version = version then (if s.idle then .current else .fails 0x3006)
    else
      match g with
      | none => .newStage
      | some t => if t.version ≠ version then .fails 0x3005 else if t.announced then .fails 0x3006 else .staged

/-- Hold a version, in place of one of the same identifier and number. -/
def State.holdVersion (s : State) (t : TableVer) : State :=
  { s with emb.tables := s.emb.tables.filter (fun u => u.id != t.id || u.version != t.version) ++ [t] }

/-- A version that becomes current where the plan's layout places the table (R146); another held one of the same
shape keeps its place. -/
def State.holdCurrent (s : State) (t : TableVer) : State :=
  let bases := match s.tableVersion t.id t.version with
    | some o => if o.sameShape t then o.bases else s.layoutBases t.id
    | none => s.layoutBases t.id
  s.holdVersion { t with current := true, bases := bases }

/-- TABLE_LOAD_DESCRIPTOR on the state. -/
def State.loadBlock (s : State) (q : Nat) : State :=
  match s.readyDesc q 3 with
  | none => s
  | some d =>
    if dKind d.bytes ≠ 0 then s
    else
      match s.blockFail d.bytes d.data with
      | some code => s.failDesc q d.pos code
      | none =>
        let t := parseBlock d.data
        match s.loadTarget t.id t.version with
        | .fails code => s.failDesc q d.pos code
        | .first => (s.holdCurrent t).finishDesc q d.pos 0 0
        | .current => (s.holdCurrent t).finishDesc q d.pos 0 0
        | .newStage =>
          if ((s.currentTable t.id).map (·.sameShape t)).getD false then
            (s.holdVersion { t with staged := true }).setDesc q d.pos (fun x => { x with stage := .waiting })
          else s.failDesc q d.pos 0x3001
        | .staged =>
          match s.stagedTable t.id with
          | some g =>
            if !g.sameShape t then s.failDesc q d.pos 0x3001
            else (s.holdVersion { g with defaults := t.defaults }).finishDesc q d.pos 0 0
          | none => s

/-- TABLE_LOAD_DESCRIPTOR: a table descriptor block is checked and held (R141, R147, R148); the first load of a new
version waits for its staging fill (R149). -/
def execTableLoadDescriptor (q : Fin 8192) (s : State) : Host.Outcome State Fault Refusal := .next (s.loadBlock q.val)

/-! ## Row loads (R147) -/

/-- One write of a load: its address, its bytes and how many records it carries. -/
structure LoadWrite where
  addr : Nat
  bytes : Bytes
  count : Nat
  deriving DecidableEq, Repr

/-- The writes of one check block of a region of `total` records: the block whole when the load supplies every record
of it, else its records (R147); bytes beyond the block's last record are zero (R146). -/
def blockWrites (t : TableVer) (base total : Nat) (recs : List (Nat × Bytes)) (b : Nat) : List LoadWrite :=
  let k := perBlock t.rs
  let mine := recs.filter (fun r => r.1 / k == b)
  if mine.length = min k (total - b * k) then [⟨base + b * 512, padTo 512 (mine.flatMap (·.2)), mine.length⟩]
  else mine.map (fun r => ⟨base + recordOffset t.rs r.1, recordTail t.rs total r.1 r.2, 1⟩)

/-- The writes of the records of one range, ascending. -/
def rangeWrites (t : TableVer) (base : Nat) (r : ShardRange) (recs : List (Nat × Bytes)) : List LoadWrite :=
  ((recs.map (fun e => e.1 / perBlock t.rs)).eraseDups).flatMap (blockWrites t base ((r.last - r.first) * t.segs) recs)

/-- One write of a load, tried once more when it fails verification (R147, R312); whether it was verified. -/
def State.loadWrite (s : State) (w : LoadWrite) (fails : Nat) : State × Bool :=
  let bad (st : State) := st.raise 0x4104 (unitChannel (st.place (w.addr / 512)).1) 0 (st.channelByte (w.addr / 512))
  match fails with
  | 0 =>
    let r := s.writeVerified w.addr w.bytes none
    if r.2 then r else r.1.writeVerified w.addr w.bytes none
  | 1 => (bad s).writeVerified w.addr w.bytes none
  | _ => (bad (bad s), false)

/-- The writes of a load in order until one fails twice: the records written, and whether all were verified. -/
def State.loadWrites : List LoadWrite → List Nat → State → Nat → State × Nat × Bool
  | [], _, s, n => (s, n, true)
  | w :: ws, fs, s, n =>
    let r := s.loadWrite w (fs.headD 0)
    if r.2 then State.loadWrites ws (fs.drop 1) r.1 (n + w.count) else (r.1, n, false)

/-- A record of a RECORDS load as it is written: LOADED set, its tag kept. -/
def recordsRecord (t : TableVer) (src : Bytes) (i : Nat) : Bytes :=
  let r := slice src (i * t.rs) t.rs
  splice r 10 (leBytes 2 (field r 10 2 / 2 * 2 + 1))

/-- A list of binary32 values reduced by an operation (R84). -/
def reduce32 (f : Nat → Nat → Nat × Flags) (ws : List Nat) : Num :=
  decodeNum binary32 (match ws with
    | [] => 0
    | w :: r => r.foldl (fun m x => (f m x).1) w)

/-- SCALE and OFFSET of a segment of binary32 values by the standard rule, with what it signals (R98, R147). -/
def segmentScale (t : TableVer) (ws : List Nat) : Nat × Nat × List Flags :=
  standardRule t.codeBits (reduce32 (fMin binary32) ws) (reduce32 (fMax binary32) ws)

/-- A segment of binary32 values converted by the standard rule with RNE (R98, R147). -/
def convertSegment (t : TableVer) (ws : List Nat) : Written :=
  let so := segmentScale t ws
  writeCodes t.codeBits so.1 so.2.1 (ws.map (decodeNum binary32)) (fun _ => .rne)

/-- The record of a converted segment (R143, R147). -/
def binaryRecord (t : TableVer) (g : Nat) (w : Written) : Bytes :=
  padTo t.rs (w.bytes.take 4 ++ leBytes 4 0 ++ leBytes 2 0xFFFF ++ leBytes 2 (1 + 2 * w.poison + 8 * g) ++ leBytes 4 0 ++ w.bytes.drop 4)

/-- The values of row i, segment g, of a BINARY32 source. -/
def binaryValues (t : TableVer) (src : Bytes) (i g : Nat) : List Nat :=
  elements 4 (segElems t.code t.layout t.dim g) (src.drop (4 * (i * t.dim + g * segDim t.code t.layout t.dim)))

/-- The records of a load by range, from the whole records that the source holds. -/
def State.loadRecords (s : State) (t : TableVer) (d : Bytes) (src : Bytes) : List LoadWrite :=
  let rows := if dKind d = 1 then src.length / (t.rs * t.segs) else src.length / (4 * t.dim)
  let n := min rows (dRowCount d)
  let first := dFirstRow d
  (s.ownedRanges t).flatMap (fun r =>
    let lo := max first r.1.first
    let hi := min (first + n) r.1.last
    let recs := (List.range (hi - lo)).flatMap (fun x => (List.range t.segs).map (fun g =>
      let i := lo + x - first
      ((lo + x - r.1.first) * t.segs + g,
        if dKind d = 1 then recordsRecord t src (i * t.segs + g) else binaryRecord t g (convertSegment t (binaryValues t src i g)))))
    rangeWrites t (NMap.getD t.bases r.2 0) r.1 recs)

/-- A record of a RECORDS source that fails R147: SEGMENT differs from its position, or FROZEN is set. -/
def recordsBad (t : TableVer) (src : Bytes) : Bool :=
  (List.range (src.length / t.rs)).any (fun i =>
    let f := field (slice src (i * t.rs) t.rs) 10 2
    bits 5 3 f != i % t.segs || bit 2 f)

/-- The conversions of a BINARY32 load in the watch's counts (R92, R98, R243). -/
def State.countLoad (s : State) (t : TableVer) (src : Bytes) : State :=
  let segs := (List.range (src.length / (4 * t.dim))).flatMap (fun i => (List.range t.segs).map (binaryValues t src i))
  let w := (segs.map (convertSegment t)).foldl Written.append ⟨[], [], [], 0, 0, 0, 0⟩
  let key := watchKey 2 t.id
  let s1 := s.countKept key (fun c => (c.add 0 0 w.elems 0 0 0 w.poison).signal (segs.flatMap (fun ws => (segmentScale t ws).2.2)))
  if w.poison = 0 then s1 else s1.raiseOnce key 0x2104 0 t.id w.poison

/-- A row load's records go to their version (R147, R148); the state unchanged while its staging fill runs. -/
def State.loadRows (s : State) (q kind : Nat) (fails : List Nat) : State :=
  match s.readyDesc q 3 with
  | none => s
  | some d =>
    if dKind d.bytes ≠ kind then s
    else
      match s.rowLoadFail d.bytes, s.tableVersion (dTable d.bytes) (dVersion d.bytes) with
      | some code, _ => s.failDesc q d.pos code
      | none, none => s.failDesc q d.pos 0x3001
      | none, some t =>
        if s.badExtent d.bytes then s.failDesc q d.pos 0x6102
        else
          match s.loadTarget t.id t.version with
          | .fails code => s.failDesc q d.pos code
          | target =>
            if target = .staged ∧ !t.filled then s
            else if kind = 1 ∧ recordsBad t d.data then s.failDesc q d.pos 0x3001
            else
              let s1 := if kind = 2 then s.countLoad t d.data else s
              let r := State.loadWrites (s.loadRecords t d.bytes d.data) fails s1 0
              if !r.2.2 then r.1.stopDesc q d.pos 0x4104 r.2.1
              else if d.status ≠ 0 then r.1.stopDesc q d.pos d.status.toNat r.2.1
              else r.1.finishDesc q d.pos 0 r.2.1

/-- TABLE_LOAD_RECORDS: row records are copied into the named version (R147). `writeFails` gives how often each write
in order fails verification. -/
def execTableLoadRecords (q : Fin 8192) (writeFails : List Nat) (s : State) : Host.Outcome State Fault Refusal :=
  .next (s.loadRows q.val 1 writeFails)

/-- TABLE_LOAD_BINARY32: binary32 rows are converted by the standard rule into the named version (R98, R147). -/
def execTableLoadBinary32 (q : Fin 8192) (writeFails : List Nat) (s : State) : Host.Outcome State Fault Refusal :=
  .next (s.loadRows q.val 2 writeFails)

/-! ## Staging (R149) -/

/-- The load of a queue that waits for its staging fill. -/
def Queue.stagingLoad (x : Queue) : Option Desc := x.descs.find? (fun d => d.stage == .waiting && dOp d.bytes == 3)

/-- Write zero bytes over a region, block by block. -/
def State.zeroRegion : Nat → State → Nat → State
  | 0, s, _ => s
  | n + 1, s, a => State.zeroRegion n (s.writeVerified a (List.replicate 512 0) (some 0)).1 (a + 512)

/-- TABLE_STAGING on the state. The updates that the swap will drop count from the current step on (R171). -/
def State.beginStaging (s : State) (q : Nat) : State :=
  match (s.queue q).stagingLoad with
  | none => s
  | some d =>
    match s.stagedTable (dTable d.bytes) with
    | none => s
    | some t =>
      if s.setup.op ≠ 0 ∨ t.filled = true ∨ t.filling = true then s
      else
        match placeRanges t (s.ownedRanges t) s.emb.pool with
        | none => (s.dropVersions (fun u => u.id == t.id && u.staged)).failDesc q d.pos 0x3004
        | some p =>
          let s1 : State := { s with emb.pool := poolOf p.2 }
          let s2 := s1.mapTables (fun u => u.id == t.id && u.staged) (fun u => { u with bases := p.1, filling := true })
          let s3 := s2.mapTables (fun u => u.id == t.id && u.current) (fun u => { u with dropped := u.sweptNow })
          (s3.regionsOf { t with bases := p.1 }).foldl (fun (st : State) r => State.zeroRegion (r.2 / 512) st r.1) (s3.startOp 3)

/-- TABLE_STAGING: the first load of a new version takes space from the staging pool and its records are filled with
zero, once no other long setup operation runs (R149). -/
def execTableStaging (q : Fin 8192) (s : State) : Host.Outcome State Fault Refusal := .next (s.beginStaging q.val)

/-- STAGING_FILL_END on the state. -/
def State.endStaging (s : State) : State :=
  if s.setup.op ≠ 3 then s
  else
    let ids := (s.emb.tables.filter (·.filling)).map (·.id)
    let s1 := (s.endOp 3).mapTables (·.filling) (fun t => { t with filling := false, filled := true })
    s1.host.queues.foldl (fun (st : State) e => e.2.descs.foldl (fun (st : State) d =>
      if d.stage = .waiting ∧ dOp d.bytes = 3 ∧ ids.contains (dTable d.bytes) then st.finishDesc e.1 d.pos 0 0 else st) st) s1

/-- STAGING_FILL_END: the zero fill of a staged version ends, and with it the long setup operation (R149, R471). -/
def execStagingFillEnd (s : State) : Host.Outcome State Fault Refusal := .next s.endStaging

/-! ## Swaps (R169) -/

/-- TABLE_SWAP with DISCARD 0 on the state. -/
def State.takeSwap (s : State) (q : Nat) : State :=
  match s.readyDesc q 4 with
  | none => s
  | some d =>
    if dFlag d.bytes then s
    else
      let id := dTable d.bytes
      let v := dVersion d.bytes
      match s.tableVersion id v with
      | none => s.stopDesc q d.pos 0x3203 0
      | some t =>
        if !t.staged || !t.filled || !s.tableComplete t then s.stopDesc q d.pos 0x3203 0
        else if s.idle then s.commitSwap id v [(q, d.pos)]
        else
          let s1 := s.setDesc q d.pos (fun x => { x with stage := .taken })
          if s.emb.swaps.any (fun w => w.table == id && w.version == v) then
            { s1 with emb.swaps := s1.emb.swaps.map (fun w =>
                if w.table = id ∧ w.version = v then { w with waiters := w.waiters ++ [(q, d.pos)] } else w) }
          else { s1 with emb.swaps := s1.emb.swaps ++ [{ table := id, version := v, waiters := [(q, d.pos)] }] }

/-- TABLE_SWAP: a swap takes effect at once while the job is IDLE, or adds READY to the module's DONE reports (R169). -/
def execTableSwap (q : Fin 8192) (s : State) : Host.Outcome State Fault Refusal := .next (s.takeSwap q.val)

/-- TABLE_SWAP with DISCARD 1 on the state; a version whose fill still runs is discarded when the fill has ended. -/
def State.takeDiscard (s : State) (q : Nat) : State :=
  match s.readyDesc q 4 with
  | none => s
  | some d =>
    if !dFlag d.bytes then s
    else
      let id := dTable d.bytes
      match s.stagedTable id with
      | none => s.finishDesc q d.pos 0 0
      | some t =>
        if t.version ≠ dVersion d.bytes then s.finishDesc q d.pos 0 0
        else if t.announced then s.stopDesc q d.pos 0x3006 0
        else if !t.filled then s
        else
          let ws := (s.emb.swaps.filter (fun w => w.table == id)).flatMap (·.waiters)
          let s1 : State := { s with emb.swaps := s.emb.swaps.filter (fun w => w.table != id) }
          (((s1.dropVersions (fun u => u.id == id && u.staged)).finishDesc q d.pos 0 0).failSwaps ws)

/-- TABLE_SWAP_DISCARD: a staged version that is not announced is discarded, and the swaps that wait on it fail
(R169). -/
def execTableSwapDiscard (q : Fin 8192) (s : State) : Host.Outcome State Fault Refusal := .next (s.takeDiscard q.val)

end Sys2Proof.Machine
end

