-- ==== Sys2Proof/Machine/Window.lean ====
section
/-! DEFINITION. Writes to the setup window (R8, R10, R335, R464 to R471): the one path that every write takes, the
apply points (R469, R470), and the registers that need no operation of their own. -/

namespace Sys2Proof.Machine

/-! ## Admission (R61) -/

/-- The left-hand side of the second condition of R61, in µs: the cycles rounded up to a whole µs, then the sum. -/
def admitNeed (p : Plan) (period : Nat) : Nat :=
  let w := (List.range 7).foldl (fun a i => a + p.wc.getD (i + 1) 0) 0
  ceilDiv (100 * (ceilDiv w 3000 + p.header.maintUs + p.header.evalUs + p.header.exportUs + 100) + period * p.header.reservePct) 100

/-- Both conditions of R61. -/
def admits (p : Plan) (period : Nat) : Bool :=
  decide (ceilDiv (p.wc.getD 0 0) 3000 + 100 ≤ period) && decide (admitNeed p period ≤ period)

/-- Run the admission unit for a plan and a period: the registers, and ADMIT_REFUSE when it fails (R61, R62). -/
def State.runAdmission (s : State) (p : Plan) (period : Nat) : State × Bool :=
  let s1 : State := { s with seq.admitNeed := BitVec.ofNat 32 (admitNeed p period), seq.admitHave := BitVec.ofNat 32 period }
  if admits p period then (s1, true) else (s1.raise 0x1301, false)

/-! ## Apply points (R469, R470) -/

/-- Offsets that apply points log. -/
def offTickPeriod : Nat := 0x20004
/-- MEM_CTRL. -/
def offMemCtrl : Nat := 0x80000

/-- The tick period takes its pending value when it may (R62, R77); on the tick master of several modules it asks for its
announcement. `idle` is an apply point with STATE IDLE. -/
def State.applyPeriod (s : State) (idle : Bool) : State :=
  let keep : State := { s with pend.tickPeriod := s.active.tickPeriod }
  if s.pend.tickPeriod = s.active.tickPeriod then s
  else if !idle ∧ s.multi then
    if s.isMaster then { s with seq.periodAsk := some s.pend.tickPeriod } else keep.log offTickPeriod 7 .state
  else
    match s.plan with
    | none => { s with active.tickPeriod := s.pend.tickPeriod }
    | some p =>
      let r := s.runAdmission p s.pend.tickPeriod.toNat
      if r.2 then { r.1 with active.tickPeriod := r.1.pend.tickPeriod }
      else { r.1 with pend.tickPeriod := r.1.active.tickPeriod }

/-- RETRAIN_AUTO takes its pending value unless the plan has no maintenance slot (R322). -/
def State.applyRetrain (s : State) : State :=
  if s.pend.retrainAuto && !s.active.retrainAuto && ((s.plan.map (fun p => p.header.maintUs == 0)).getD false) then
    ({ s with pend.retrainAuto := s.active.retrainAuto } : State).log offMemCtrl 7 .state
  else s

/-- Whether two sets of MEM_EXCL registers exclude the same channels (R307). -/
def sameExclusion (a b : NMap (BitVec 10)) : Bool :=
  let f (m : NMap (BitVec 10)) := ((m.filter (fun e => bit 9 e.2.toNat)).map (fun e => bits 8 0 e.2.toNat)).eraseDups.mergeSort (· ≤ ·)
  f a == f b

/-- The exclusion set takes its pending value (R307). -/
def State.applyExclusion (s : State) : State :=
  if sameExclusion s.pend.excl s.active.excl then { s with active.excl := s.pend.excl }
  else
    let s1 : State := { s with active.excl := s.pend.excl, mem.epoch := s.mem.epoch + 1 }
    (s1.dropPlan.discardTables).raise 0x4002

/-- Watch histories under HIST_DEFAULT keep their newest entries (R256). -/
def State.trimHistories (s : State) : State :=
  match s.plan with
  | none => s
  | some p => (p.layout.watch.filter (fun e => field e 5 1 == 0)).foldl (fun (st : State) e =>
      st.setWatch (watchKey (field e 2 1) (field e 0 2)) (fun w => { w with
        history := w.history.take st.active.histDefault.toNat, historyStart := w.historyStart.take st.active.histDefault.toNat })) s

/-- The regulator fields that stand above the plan's maxima are clamped (R320). -/
def clampTo (max : List Nat) {w : Nat} (m : NMap (BitVec w)) : NMap (BitVec w) :=
  m.map (fun e => (e.1, BitVec.ofNat w (min e.2.toNat (max.getD e.1 e.2.toNat))))

/-- Clamp the pending regulator fields (R320): REG_CLAMP when a value changes. -/
def State.clampRegulators (s : State) : State :=
  match s.plan with
  | none => s
  | some p =>
    let r := clampTo (w := 20) p.layout.rateMax s.pend.regRate
    let b := clampTo (w := 16) p.layout.burstMax s.pend.regBurst
    if r = s.pend.regRate ∧ b = s.pend.regBurst then s
    else ({ s with pend.regRate := r, pend.regBurst := b } : State).raise 0x4401

/-- Fields without a rule of their own become active; the rest keep both views. -/
def Buffered.adopt (a p : Buffered) : Buffered :=
  { p with
    tickSource := a.tickSource, moduleId := a.moduleId, excl := a.excl, tickPeriod := a.tickPeriod }

/-- An apply point (R470): every pending view becomes active at one instant, subject to R62, R77, R307, R320 and R322. -/
def State.applyPoint (s : State) (idle : Bool) : State :=
  let s1 := s.clampRegulators.applyRetrain
  let h := s1.active.histDefault
  let s2 : State := { s1 with active := s1.active.adopt s1.pend }
  let s3 : State := if idle then { s2 with active := { s2.active with tickSource := s2.pend.tickSource, moduleId := s2.pend.moduleId } } else s2
  let s4 := s3.applyPeriod idle
  let s5 := if idle then s4.applyExclusion else s4
  if s5.active.histDefault = h then s5 else s5.trimHistories

/-! ## The path of a write -/

/-- The bits of a register that are RK (R10). -/
def Reg.guarded : Reg → Nat
  | .tickCtrl => 3
  | .seqCtrl => 3
  | .moduleId => 0xFFF
  | .memCtrl => 2
  | .memExcl _ => 0x3FF
  | .setupCmd => 0xF
  | .secCmd => 0xF
  | .debugCtrl => 1
  | .powerLimit => 0xFFF
  | _ => 0

/-- A write would change an RK field or starts an RK command (R466). -/
def State.lockedHit (s : State) (r : Reg) (v : Nat) : Bool :=
  (v &&& r.guarded) != (((s.pend.reg r).getD 0) &&& r.guarded)

/-- Whether a write through P0 is refused in confidential mode (R425, R429). -/
def State.confRefused (s : State) (r : Reg) : Bool :=
  s.confidential && (match r with
    | .debugCtrl => true
    | .moduleId => true
    | .penRetry _ => true
    | .herdRetx _ => true
    | .herdCe _ => true
    | .watchLost => true
    | .evtLost => true
    | _ => false)

/-- A write that the device denies: logged, and its event once per step (R335, R425). -/
def State.denied (s : State) (port off : Nat) : State :=
  if port = 0 then (s.log off 0 .denied).raiseOnce 0 0x8203
  else (s.log off port .denied).raiseOnce port 0x6005 (unitPort port)

/-- A write while a long setup operation runs (R471); a SEC_CMD write while OP is 2 raises SEC_CMD_BUSY. -/
def State.busyWrite (s : State) (off : Nat) : State :=
  let s1 := s.log off 0 .busy
  if s.setup.op = 2 ∧ regAt off = some .secCmd then s1.raise 0x8005 unitTackRoom else s1

/-- A word written to a port's MSI-X table (R363, PCIe): an unmasked vector with its pending bit set sends its message. -/
def State.writeMsix (s : State) (port w v : Nat) : State :=
  let i := w / 4
  let s1 := s.setPort port (fun x => { x with msix := NMap.modify x.msix i {} (fun e =>
    match w % 4 with
    | 0 => { e with addr := BitVec.ofNat 64 (hi32 e.addr.toNat * 2 ^ 32 + v % 2 ^ 32) }
    | 1 => { e with addr := BitVec.ofNat 64 (v % 2 ^ 32 * 2 ^ 32 + lo32 e.addr.toNat) }
    | 2 => { e with data := BitVec.ofNat 32 v }
    | _ => { e with masked := bit 0 v }) })
  let e := NMap.getD (s1.port port).msix i {}
  if e.pending && !e.masked then
    (s1.setPort port (fun x => { x with msix := NMap.insert x.msix i { e with pending := false } })).toHost port (.msix port i)
  else s1

/-- The setup command that a SETUP_CMD value starts runs while another runs (R472). -/
def State.commandRuns (s : State) (r : Reg) (v : Nat) : Bool :=
  r == .setupCmd && decide (1 ≤ v % 16 ∧ v % 16 ≤ 5) && s.setup.cmdRunning != 0

/-- A write that the guard, the busy rule and the views let through, or that they log. `armed` is the guard as it stood
when the write arrived; `unlocked` is the write's effect, and `locked` the effect on the fields that are not RK. -/
def State.guardedWrite (s : State) (armed : Bool) (off v : Nat) (r : Reg) (locked unlocked : State → State) : State :=
  if s.confRefused r then s.denied 0 off
  else if s.setup.op ≠ 0 then s.busyWrite off
  else if s.commandRuns r v then s.log off 0 .cmd
  else if armed ∧ s.lockedHit r v then (locked s).log off 0 .locked
  else unlocked s

/-- Whether the window serves writes: at READY, or in RECOVERY (R479, R481). -/
def State.serves (s : State) : Bool := s.boot.stage == .ready || s.boot.stage == .recovery

/-- A write of a value to an offset of the window through a port (R8, R335, R463 to R471, R481). -/
def State.windowWrite (s : State) (port off width v : Nat) (locked unlocked : State → State) : State :=
  if !s.serves || decide (0x100000 ≤ off) then s
  else
    let armed := s.setup.armed
    let s0 : State := if port = 0 ∧ off ≠ 0x10000 then { s with setup.armed := true } else s
    if width ≠ 4 ∨ off % 4 ≠ 0 then s0.log off port .width
    else
      match regAt off with
      | some (.msixTable w) => s0.writeMsix port w v
      | some (.msixPba _) => s0
      | reg =>
        if port ≠ 0 then s0.denied port off
        else if s.boot.stage = .recovery ∧ 0x20000 ≤ off then s0.log off 0 .state
        else
          match reg with
          | none => if s0.setup.op ≠ 0 then s0.busyWrite off else s0.log off 0 .reserved
          | some r => s0.guardedWrite armed off v r locked unlocked

/-! ## Buffered registers -/

/-- A write of the device's own range refusal. -/
def State.outOfRange (s : State) (off : Nat) : State := s.log off 0 .range

/-- Change the pending view. -/
def State.setPending (s : State) (f : Buffered → Buffered) : State := { s with pend := f s.pend }

/-- TICK_CTRL (R76): SOURCE 0b11 is refused with TICK_RANGE (R78). -/
def State.writeTickCtrl (s : State) (v : Nat) (guarded : Bool) : State :=
  if !guarded ∧ v % 4 = 3 then (s.outOfRange 0x20000).raise 0x1001
  else s.setPending (fun b => { b with
    tickSource := if guarded then b.tickSource else BitVec.ofNat 2 v
    tickOutEn := bit 2 v })

/-- TICK_PERIOD (R41): a value outside 1,000 to 10,000,000 is refused with TICK_RANGE. -/
def State.writeTickPeriod (s : State) (v : Nat) : State :=
  let p := v % 2 ^ 24
  if p < 1000 ∨ 10000000 < p then (s.outOfRange 0x20004).raise 0x1001
  else s.setPending (fun b => { b with tickPeriod := BitVec.ofNat 24 p })

/-- WATCH_CTRL (R256). -/
def State.writeWatchCtrl (s : State) (v : Nat) : State :=
  if bits 6 2 v = 0 ∨ 16 < bits 6 2 v ∨ bits 31 16 v = 0 then s.outOfRange 0xC0000
  else s.setPending (fun b => { b with
    stallEn := bit 0 v, recordsEn := bit 1 v, histDefault := BitVec.ofNat 5 (bits 6 2 v)
    noiseShift := BitVec.ofNat 4 (bits 10 7 v), stallDefault := BitVec.ofNat 16 (bits 31 16 v) })

/-- TC_MAP (R298). -/
def State.writeTcMap (s : State) (v : Nat) : State :=
  s.setPending (fun b => { b with
    pcpTime := BitVec.ofNat 3 (bits 2 0 v), pcpCtrl := BitVec.ofNat 3 (bits 5 3 v), pcpBulk := BitVec.ofNat 3 (bits 8 6 v)
    dscpTime := BitVec.ofNat 6 (bits 14 9 v), dscpCtrl := BitVec.ofNat 6 (bits 20 15 v), dscpBulk := BitVec.ofNat 6 (bits 26 21 v) })

/-- A herd port's buffered registers (R298). -/
def State.writeHerd (s : State) (i : Nat) (f : HerdCfg → HerdCfg) : State :=
  s.setPending (fun b => { b with herd := NMap.modify b.herd i {} f })

/-- The low 32 or the high bits of a wider field replaced. -/
def setLow {w : Nat} (x : BitVec w) (v : Nat) : BitVec w := BitVec.ofNat w (x.toNat / 2 ^ 32 * 2 ^ 32 + v % 2 ^ 32)
/-- Bits from 32 up replaced. -/
def setHigh {w : Nat} (x : BitVec w) (v : Nat) : BitVec w := BitVec.ofNat w (v * 2 ^ 32 + x.toNat % 2 ^ 32)

/-- MEM_EXCL_k (R329): CHANNEL above 383 is ignored and logged. -/
def State.writeExcl (s : State) (k v : Nat) : State :=
  if 383 < bits 8 0 v then s.outOfRange (0x80010 + 4 * k)
  else s.setPending (fun b => { b with excl := NMap.insert b.excl k (BitVec.ofNat 10 v) })

/-- A regulator register (R320, R329): BURST 0 is ignored and logged; a value above the plan's maximum is clamped. -/
def State.writeRegulator (s : State) (c : Nat) (burst : Bool) (v : Nat) : State :=
  if burst then
    if v % 2 ^ 16 = 0 then s.outOfRange (0x800A0 + 4 * c)
    else (s.setPending (fun b => { b with regBurst := NMap.insert b.regBurst c (BitVec.ofNat 16 v) })).clampRegulators
  else (s.setPending (fun b => { b with regRate := NMap.insert b.regRate c (BitVec.ofNat 20 v) })).clampRegulators

/-- POWER_LIMIT (R461): 1,800 to 2,400 W. -/
def State.writePowerLimit (s : State) (v : Nat) : State :=
  let w := v % 4096
  if w < 1800 ∨ 2400 < w then s.outOfRange 0xE000C else s.setPending (fun b => { b with powerLimit := BitVec.ofNat 12 w })

/-- A claim of an AUX pin function against the pending view (R457): a pin that has a holder gives up its function only
for none, and the tick mirror needs the one AUX pulse timer. -/
def claimRefused (old other new : BitVec 2) : Bool :=
  new != old && ((old != 0 && new != 0) || (new == 1 && other == 1))

/-- AUX_CFG (R457). -/
def State.writeAux (s : State) (v : Nat) : State :=
  let n0 := BitVec.ofNat 2 v
  let n1 := BitVec.ofNat 2 (v / 4)
  let p := s.pend
  if n0 = 3 ∨ n1 = 3 then s.outOfRange 0xE0020
  else if claimRefused p.aux0 (if n1 = 0 then 0 else p.aux1) n0 || claimRefused p.aux1 (if n0 = p.aux0 then p.aux0 else n0) n1 then
    (s.log 0xE0020 0 .state).raise 0x9020
  else s.setPending (fun b => { b with aux0 := n0, aux1 := n1 })

/-! ## Counters and selectors -/

/-- Bits written as 1 clear (R10 W1C). -/
def clearBits {w : Nat} (c : BitVec w) (v : Nat) : BitVec w := c &&& ~~~(BitVec.ofNat w v)

/-- Registers whose write takes effect at once and needs no operation: selectors, staging registers, counters to clear. -/
def State.writePlain (s : State) (r : Reg) (v : Nat) : State :=
  match r with
  | .setupAddrLo => if v % 64 ≠ 0 then s.outOfRange 0x10010 else { s with setup.addr := setLow s.setup.addr v }
  | .setupAddrHi => { s with setup.addr := setHigh s.setup.addr v }
  | .setupLen => if v % 512 ≠ 0 then s.outOfRange 0x10018 else { s with setup.len := BitVec.ofNat 32 v }
  | .shadowSel => { s with setup.shadowSel := BitVec.ofNat 18 (bits 19 2 v) }
  | .logCount => { s with setup.logCount := clearBits s.setup.logCount v }
  | .groupSel => { s with win.groupSel := BitVec.ofNat 7 v }
  | .groupDbLo =>
    if v % 512 ≠ 0 then s.outOfRange 0x40018
    else if (s.group s.win.groupSel.toNat).enable then s.log 0x40018 0 .state
    else s.setGroup s.win.groupSel.toNat (fun g => { g with db := setLow g.db v })
  | .groupDbHi =>
    if (s.group s.win.groupSel.toNat).enable then s.log 0x4001C 0 .state
    else s.setGroup s.win.groupSel.toNat (fun g => { g with db := setHigh g.db v })
  | .qSel => { s with win.qSel := BitVec.ofNat 13 v }
  | .qCfg => { s with win.qClass := BitVec.ofNat 2 v, win.qLog2 := BitVec.ofNat 5 (v / 4) }
  | .qRingLo => { s with win.qRing := setLow s.win.qRing v }
  | .qRingHi => { s with win.qRing := setHigh s.win.qRing v }
  | .qAuxLo => { s with win.qAux := setLow s.win.qAux v }
  | .qAuxHi => { s with win.qAux := setHigh s.win.qAux v }
  | .qStartLap => { s with win.qStartLap := BitVec.ofNat 32 v }
  | .qIrq => s.setQueue s.win.qSel.toNat (fun q => { q with
      vector := BitVec.ofNat 11 v, irqEn := bit 11 v, holdoff := BitVec.ofNat 8 (v / 65536) })
  | .descFail => { s with host.descFail := clearBits s.host.descFail v }
  | .blockErr => { s with mem.blockErr := clearBits s.mem.blockErr v }
  | .chSel => { s with win.chSel := BitVec.ofNat 9 v }
  | .penRetry k => { s with fab.pen := NMap.modify s.fab.pen k {} (fun e => { e with retries := clearBits e.retries v }) }
  | .herdRetx i => { s with fab.herd := NMap.modify s.fab.herd i {} (fun e => { e with retx := clearBits e.retx v }) }
  | .herdCe i => { s with fab.herd := NMap.modify s.fab.herd i {} (fun e => { e with ce := clearBits e.ce v }) }
  | .watchLost => { s with watch.lost := clearBits s.watch.lost v }
  | .digestSel => { s with win.digestSel := BitVec.ofNat 16 v }
  | .secAddrLo => { s with win.secAddr := setLow s.win.secAddr v }
  | .secAddrHi => { s with win.secAddr := setHigh s.win.secAddr v }
  | .secLen => { s with win.secLen := BitVec.ofNat 32 v }
  | .secNonce k => { s with win.secNonce := NMap.insert s.win.secNonce k (BitVec.ofNat 32 v) }
  | .evtStatus => { s with events.fault := s.events.fault && !bit 0 v }
  | .evtLost => { s with events.lost := clearBits s.events.lost v }
  | .ledgerSel => { s with win.ledgerSel := BitVec.ofNat 16 v }
  | _ => s

/-- Registers with buffered fields only. -/
def State.writeBuffered (s : State) (r : Reg) (v : Nat) : State :=
  match r with
  | .watchCtrl => s.writeWatchCtrl v
  | .moduleId => s.setPending (fun b => { b with moduleId := BitVec.ofNat 12 v })
  | .tcMap => s.writeTcMap v
  | .herdCfg i => s.writeHerd i (fun h => { h with vid := BitVec.ofNat 12 v, pfcTx := bit 12 v, pfcRx := bit 13 v })
  | .srcMacLo i => s.writeHerd i (fun h => { h with srcMac := setLow h.srcMac v })
  | .srcMacHi i => s.writeHerd i (fun h => { h with srcMac := setHigh h.srcMac (v % 65536) })
  | .gwMacLo i => s.writeHerd i (fun h => { h with gwMac := setLow h.gwMac v })
  | .gwMacHi i => s.writeHerd i (fun h => { h with gwMac := setHigh h.gwMac (v % 65536) })
  | .memExcl k => s.writeExcl k v
  | .debugCtrl => s.setPending (fun b => { b with debugEn := bit 0 v })
  | .powerLimit => s.writePowerLimit v
  | _ => s.writePlain r v

/-! ## The guard, apply and discard (R465, R469, R470) -/

/-- SETUP_UNLOCK (R465). -/
def State.writeUnlock (s : State) (v : Nat) : State :=
  if v % 2 ^ 32 = 0x7A910E5D then { s with setup.armed := false }
  else ({ s with setup.armed := true } : State).log 0x10000 0 .key

/-- SETUP_APPLY (R469, R470): DISCARD first, then APPLY. -/
def State.writeApply (s : State) (v : Nat) : State :=
  if bit 0 v ∧ !s.idle then s.log 0x10008 0 .state
  else
    let s1 : State := if bit 1 v then { s with pend := s.active } else s
    if bit 0 v then s1.applyPoint true else s1

/-! ## Queues and groups (R338, R339) -/

/-- Poll units of a group (R338). -/
def Group.units (g : Group) : Nat := if g.enable then 2 ^ (8 - g.poll.toNat) else 0

/-- Poll units of a port's groups but one. -/
def State.pollUnits (s : State) (g : Nat) : Nat :=
  ((List.range 32).filter (fun i => g / 32 * 32 + i != g)).foldl (fun a i => a + (s.group (g / 32 * 32 + i)).units) 0

/-- Some queue of a group is not UNARMED. -/
def State.groupInUse (s : State) (g : Nat) : Bool := s.host.queues.any (fun e => e.1 / 64 == g && e.2.mode != .unarmed)

/-- GROUP_CFG (R338, R339). -/
def State.writeGroupCfg (s : State) (v : Nat) : State :=
  let g := s.win.groupSel.toNat
  let poll := BitVec.ofNat 4 v
  let en := bit 4 v
  if 8 < poll.toNat then s.outOfRange 0x40014
  else if !en && (s.group g).enable && s.groupInUse g then (s.log 0x40014 0 .state).raise 0x6202 (unitPort (g / 32)) g
  else if en && decide (1024 < s.pollUnits g + 2 ^ (8 - poll.toNat)) then
    (s.log 0x40014 0 .state).raise 0x6201 (unitPort (g / 32)) g
  else s.setGroup g (fun x => { x with poll := poll, enable := en })

/-- The conditions of R339 that an ARM of a queue breaks. -/
def State.armBad (s : State) (q : Nat) : Bool :=
  let w := s.win
  (s.queue q).mode != .unarmed || !(s.group (queueGroup q)).enable || (s.port (queuePort q)).link != .up
    || decide (w.qLog2.toNat < 6) || decide (16 < w.qLog2.toNat) || w.qRing.toNat % 4096 != 0
    || (!deviceRing w.qClass && w.qAux.toNat % 4096 != 0) || (deviceRing w.qClass && w.qAux.toNat % 8 != 0)
    || (w.qClass == 2 && s.host.queues.any (fun e => e.2.cls == 2 && e.2.mode == .armed))

/-- ARM of the queue in Q_SEL (R339, R369). -/
def State.armQueue (s : State) : State :=
  let q := s.win.qSel.toNat
  let w := s.win
  if s.armBad q then
    ((s.setQueue q (fun x => { x with armErr := true })).log 0x40040 0 .state).raise 0x6202 (unitPort (queuePort q)) q
  else
    let start := w.qStartLap.toNat * 2 ^ w.qLog2.toNat
    let s1 := s.setQueue q (fun x => { vector := x.vector, irqEn := x.irqEn, holdoff := x.holdoff
                                       mode := .armed, cls := w.qClass, log2 := w.qLog2, ring := w.qRing, aux := w.qAux
                                       startLap := w.qStartLap, c := start, f := start, d := start, p := start, k := start })
    let s2 := s1.setPort (queuePort q) (fun x => { x with orphaned := false })
    if w.qClass = 2 then State.refillHeld 64 s2 else s2

/-- DISARM of the queue in Q_SEL (R339): descriptors not yet taken in are left. -/
def State.disarmQueue (s : State) : State :=
  let q := s.win.qSel.toNat
  let x := s.queue q
  if x.mode = .armed ∨ x.mode = .halted ∨ x.mode = .orphaned then
    s.setQueue q (fun y => { y with
      mode := .disarming, stale := false, fetching := false, mute := y.mute || y.mode == .orphaned
      descs := y.descs.filter (fun d => d.stage == .taken || d.stage == .waiting || d.stage == .finished) })
  else s

/-- Q_CMD (R339, R373). -/
def State.writeQCmd (s : State) (v : Nat) : State :=
  match v % 4 with
  | 0 => s
  | 1 => s.armQueue
  | 2 => s.disarmQueue
  | _ => s.outOfRange 0x40040

/-- DISARM_END on the state. -/
def State.endDisarm (s : State) (q : Nat) : State :=
  let x := s.queue q
  if x.mode = .disarming ∧ x.descs = [] then
    (s.setQueue q (fun y => { y with mode := .unarmed, mute := false })).failFences q
  else s

/-! ## The commands -/

/-- TICK_PERIOD: a write to TICK_PERIOD enters the pending view, or is refused with TICK_RANGE (R41). -/
def execTickPeriod (port : Fin 4) (value : Word) (s : State) : Host.Outcome State Fault Refusal :=
  .next (s.windowWrite port.val 0x20004 4 value.toNat (fun t => t) (fun t => t.writeTickPeriod value.toNat))

/-- TICK_CTRL: a write to TICK_CTRL sets the pending source and TICK_OUT_EN (R76). -/
def execTickCtrl (port : Fin 4) (value : Word) (s : State) : Host.Outcome State Fault Refusal :=
  .next (s.windowWrite port.val 0x20000 4 value.toNat (fun t => t.writeTickCtrl value.toNat true) (fun t => t.writeTickCtrl value.toNat false))

/-- REG_RATE: a write to REG_RATE_c or REG_BURST_c, clamped to the plan's maximum (R320). -/
def execRegRate (port : Fin 4) (cls : Fin 5) (burst : Bool) (value : Word) (s : State) : Host.Outcome State Fault Refusal :=
  .next (s.windowWrite port.val ((if burst then 0x800A0 else 0x80080) + 4 * cls.val) 4 value.toNat (fun t => t)
    (fun t => t.writeRegulator cls.val burst value.toNat))

/-- AUX_CFG: a write to AUX_CFG claims or releases AUX pin functions (R457). -/
def execAuxCfg (port : Fin 4) (value : Word) (s : State) : Host.Outcome State Fault Refusal :=
  .next (s.windowWrite port.val 0xE0020 4 value.toNat (fun t => t) (fun t => t.writeAux value.toNat))

/-- SETUP_UNLOCK: the key disarms the guard; any other value arms it (R465). -/
def execSetupUnlock (port : Fin 4) (value : Word) (s : State) : Host.Outcome State Fault Refusal :=
  .next (s.windowWrite port.val 0x10000 4 value.toNat (fun t => t) (fun t => t.writeUnlock value.toNat))

/-- APPLY: a write of 1 to SETUP_APPLY.APPLY makes an apply point while STATE is IDLE (R469). -/
def execApply (port : Fin 4) (value : Word) (s : State) : Host.Outcome State Fault Refusal :=
  .next (s.windowWrite port.val 0x10008 4 value.toNat (fun t => t) (fun t => t.writeApply value.toNat))

/-- DISCARD: a write of 1 to SETUP_APPLY.DISCARD sets every pending view to its active view (R470). -/
def execDiscard (port : Fin 4) (value : Word) (s : State) : Host.Outcome State Fault Refusal :=
  .next (s.windowWrite port.val 0x10008 4 value.toNat (fun t => t) (fun t => t.writeApply value.toNat))

/-- GROUP_CFG: a write to GROUP_CFG enables a group or changes its poll period (R338, R339). -/
def execGroupCfg (port : Fin 4) (value : Word) (s : State) : Host.Outcome State Fault Refusal :=
  .next (s.windowWrite port.val 0x40014 4 value.toNat (fun t => t) (fun t => t.writeGroupCfg value.toNat))

/-- ARM: Q_CMD ARM copies the staging registers into the selected queue and starts it (R339). -/
def execArm (port : Fin 4) (value : Word) (s : State) : Host.Outcome State Fault Refusal :=
  .next (s.windowWrite port.val 0x40040 4 value.toNat (fun t => t) (fun t => t.writeQCmd value.toNat))

/-- DISARM: Q_CMD DISARM stops the selected queue (R339). -/
def execDisarm (port : Fin 4) (value : Word) (s : State) : Host.Outcome State Fault Refusal :=
  .next (s.windowWrite port.val 0x40040 4 value.toNat (fun t => t) (fun t => t.writeQCmd value.toNat))

/-- DISARM_END: the last descriptor taken in has finished and the queue becomes UNARMED (R339, R350). -/
def execDisarmEnd (q : Fin 8192) (s : State) : Host.Outcome State Fault Refusal := .next (s.endDisarm q.val)

/-! ## Latching reads (R76, R409) -/

/-- A read of a latching register pair's low half through a port: the data goes out, and a port that sees the register
latches the high half. A read of another width or alignment is completed with all-ones and logged (R8). -/
def State.latchRead (s : State) (port off shift width : Nat) (latch : State → State) : State :=
  if !s.serves then s
  else if width ≠ 4 ∨ shift ≠ 0 then (s.emit (.windowData port 0xFFFFFFFF)).log (off + shift) port .width
  else
    let s1 := (s.emit (.windowData port (s.windowRead port off)))
    if s.portSees port off then latch s1 else s1

/-- STEP_LO_READ: a read of STEP_LO latches STEP[47:32] into STEP_HI (R76). -/
def execStepLoRead (read : LowRead) (s : State) : Host.Outcome State Fault Refusal :=
  .next (s.latchRead read.port.val 0x2000C read.shift.val read.width (fun t => { t with seq.stepHi := BitVec.ofNat 16 (t.seq.step.toNat / 2 ^ 32) }))

/-- EVT_TAIL_LO_READ: a read of EVT_TAIL_LO latches SEQ[63:32] into EVT_TAIL_HI (R409). -/
def execEvtTailLoRead (read : LowRead) (s : State) : Host.Outcome State Fault Refusal :=
  .next (s.latchRead read.port.val 0xF0004 read.shift.val read.width (fun t => { t with events.tailHi := BitVec.ofNat 32 (t.events.seq.toNat / 2 ^ 32) }))

/-- LIFE_STEPS_LO_READ: a read of LIFE_STEPS_LO latches LIFE_STEPS_HI (R409). -/
def execLifeStepsLoRead (read : LowRead) (s : State) : Host.Outcome State Fault Refusal :=
  .next (s.latchRead read.port.val 0xF0028 read.shift.val read.width (fun t => { t with rel.lifeHi := BitVec.ofNat 32 (t.rel.lifeSteps.toNat / 2 ^ 32) }))

end Sys2Proof.Machine
end

