-- ==== Sys2Proof/Machine/MemPorts.lean ====
section
/-! DEFINITION. The memory ports: block reads and their check faults (R311), writes through the write buffers (R312 to
R316), the regulators (R319), channel retraining (R321 to R324) and the stack temperatures (R325 to R327). -/

namespace Sys2Proof.Machine

/-! ## Reads (R311) -/

/-- Whether a stage of a running step reads: phases 1 to 6, or the evaluation slot. -/
def State.stageReads (s : State) : Bool := s.jobRuns && (s.inEvaluation || (decide (1 ≤ s.phase) && decide (s.phase ≤ 6)))

/-- The blocks that failed their three reads and are a check fault: in a replay not those that failed before it (R311). -/
def State.newBad (s : State) (bs : List Nat) : List Nat :=
  if s.seq.replay.running then bs.filter (fun b => !s.seq.replay.badBlocks.contains b) else bs

/-- What the reads of one operation report to replay control (R102, R311, R381): a tag that does not stand, charged to a unit,
or blocks that failed, charged to the first one's channel. One operation reports one check fault (DEDUCED, log 39). -/
def State.readFaults (s : State) (bs : List Nat) (skew : Option Half) : State :=
  if !s.stageReads then s
  else
    let new := s.newBad bs
    let s1 : State := { s with seq.replay.badBlocks := new ++ s.seq.replay.badBlocks }
    match skew, new with
    | some u, _ => s1.checkFault u
    | none, b :: _ => s1.checkFault (unitChannel (s.place b).1)
    | none, [] => s1

/-- A block read of a stage (R311). -/
def State.stageBlock (s : State) (b failed : Nat) : State × BlockRead :=
  let r := s.readBlock b failed
  if r.2.ok then r else (r.1.readFaults [b] none, r.2)

/-- A record read of a stage, of which the hardware fails no read; none when the block fails. -/
def State.stageRecord (s : State) (addr len : Nat) : State × Option Bytes :=
  let r := s.stageBlock (addr / 512) 0
  (r.1, if r.2.ok then some (slice r.2.data (addr % 512) len) else none)

/-- Whether a port issues an access to a block now: its channel is not held, or its write buffer serves it (R316, R322). -/
def State.accessible (s : State) (b : Nat) : Bool :=
  let ch := (s.place b).1
  !(s.channel ch).held || ((s.stack (ch / 32)).committed b).isSome

/-- BLOCK_READ: a memory port reads a check block, of which the first `readsFailed` reads fail (R311). An address outside
the usable space does not exist (R304). -/
def execBlockRead (addr : Nat) (readsFailed : Fin 4) (s : State) : Host.Outcome State Fault Refusal :=
  if s.blockCount * 512 ≤ addr then .fault .hbmRange
  else if s.accessible (addr / 512) then .next (s.stageBlock (addr / 512) readsFailed.val).1
  else .next s

/-! ## Writes (R312 to R316) -/

/-- A record write as it is stored: a dense record of the plan's layout with the zeros beyond the last record of its check block (R179,
R487). -/
def State.denseTail (s : State) (addr : Nat) (data : Bytes) : Bytes :=
  match (s.plan.map (fun p => p.layout.dense)).bind (List.find? (fun d => decide (d.base ≤ addr ∧ addr < denseAddr d d.blocks))) with
  | some d =>
    let b := (addr - d.base) / 512 * perBlock (denseSize d.planes) + (addr - d.base) % 512 / denseSize d.planes
    if denseAddr d b = addr ∧ data.length = denseSize d.planes then recordTail (denseSize d.planes) d.blocks b data else data
  | none => data

/-- A write that arrives at a port (R314): 1 to 512 bytes inside one block, of whose merge reads the first `failed` fail. -/
def State.recordWrite (s : State) (addr : Nat) (data : Bytes) (tag : Word) (failed : Nat) : State :=
  if data.length = 0 ∨ 512 < addr % 512 + data.length then s
  else
    let whole := decide (512 ≤ data.length)
    let s1 := if !whole ∧ 0 < failed ∧ failed < 3 then s.countedFault (unitChannel (s.place (addr / 512)).1) else s
    s1.portWrite ⟨addr, s.denseTail addr data, some tag, 0, !whole && failed == 3⟩

/-- RECORD_WRITE: a memory port carries out a record or whole-block write through its write buffer (R313 to R315). -/
def execRecordWrite (addr : Nat) (data : Bytes) (tag : Word) (mergeReadsFailed : Fin 4) (s : State) :
    Host.Outcome State Fault Refusal :=
  if s.blockCount * 512 ≤ addr then .fault .hbmRange else .next (s.recordWrite addr data tag mergeReadsFailed.val)

/-- Context n of a line. -/
def ctxAt (line n : Nat) : CtxId := ⟨Fin.ofNat 32 (line / 2), Fin.ofNat 2 line, Fin.ofNat 8 n⟩

/-- One more failure of a record whose write, or whose working copy's, failed its checks (R204): `again` writes it once more, and a
second failure faults the churn. -/
def State.failedOnce (s : State) (line n : Nat) (x : Ctx) (again : State → State) : State :=
  if x.failures = 0 then again (s.setCtx (ctxAt line n) (fun y => { y with failures := 1 })) else s.faultChurn line

/-- A churn hears how its write of record i ended (R203, R204): verified, or written again from what it holds. The write of a faulted
churn that ends well after the fault stands in HBM all the same. -/
def State.recordEnded (s : State) (line i : Nat) (ok : Bool) : State :=
  match (s.churn line).holding i with
  | none => s
  | some (n, x) =>
    match ok, (s.churn line).faulted with
    | true, false => (s.setCtx (ctxAt line n) (fun y => { y with stored := true })).reportVerified line i
    | true, true => ((s.recordKept line i).flushTally line i).setChurn line (fun k => { k with pending := [] })
    | false, false => s.failedOnce line n x (fun st => (x.item.map (fun it => st.issueRecord line i it x.new)).getD st)
    | false, true => s

/-- A churn hears how a part of record i's working copy ended (R204). -/
def State.copyEnded (s : State) (line i part : Nat) (ok : Bool) : State :=
  match (s.churn line).holding i, (s.churn line).faulted with
  | some (n, x), false =>
    if ok then (s.setCtx (ctxAt line n) (fun y => { y with copies := y.copies.filter (fun j => j != part) })).reportVerified line i
    else s.failedOnce line n x (fun st =>
      match (x.item.bind (fun it => st.recordCopy line it x.new)) with
      | some w => ((w.2.parts[part]?).map (fun p => st.issueCopy line i part w.1 p)).getD st
      | none => st)
  | _, _ => s

/-- A churn hears how the retag of record i ended (R208): the record enters its context, or the retag is written once more, and a
second failure faults the churn. -/
def State.retagEnded (s : State) (line i : Nat) (ok : Bool) : State :=
  match (s.churn line).holding i, (s.churn line).faulted with
  | some (n, x), false =>
    match x.retag, x.item with
    | some k, some it =>
      if ok then s.enterRecord (ctxAt line n) i it x.old
      else if k = 0 then (s.setCtx (ctxAt line n) (fun y => { y with retag := some 1 })).issueRetag line i it x.old
      else s.faultChurn line
    | _, _ => s
  | _, _ => s

/-- Log a touched check block as it now stands (R397). -/
def State.logTouched (s : State) (t : ExportItem × Nat) : State :=
  s.logItem { t.1 with payload := (s.peek t.2 512).getD (List.replicate 512 0) }

/-- Every append write of this holder is verified: the check blocks that they touched enter the export stream, and APPEND_DONE goes to
every module of the pen (R226). -/
def State.appendsWritten (s : State) : State :=
  let s1 := s.hist.touched.foldl State.logTouched s
  ({ s1 with hist.touched := [], hist.doneSent := true } : State).messages s1.penPeers .appendDone (leBytes 6 s1.seq.step.toNat)

/-- One more failure of append write k: it is written once more, and a second failure loses the sweep (R226; DEDUCED from the rule of
the user records, log 45). -/
def State.appendFailed (s : State) (k : Nat) (w : WaitingWrite × Nat) : State :=
  let s1 : State := { s with hist.writing := s.hist.writing.map (fun v => if v.1.src = appendSource k then (v.1, v.2 + 1) else v) }
  if w.2 = 0 then s1.portWrite w.1 else s1.raiseHalt 0x7303

/-- The holder hears how append write k ended (R226). -/
def State.appendEnded (s : State) (k : Nat) (ok : Bool) : State :=
  match s.hist.writing.find? (fun v => v.1.src == appendSource k) with
  | none => s
  | some w =>
    if !ok then s.appendFailed k w
    else
      let s1 : State := { s with hist.writing := s.hist.writing.filter (fun v => v.1.src != appendSource k) }
      if s1.hist.writing.isEmpty then s1.appendsWritten else s1

/-- The writer of an entry hears how its write ended. -/
def State.tellWriter (s : State) (src : Nat) (ok : Bool) : State :=
  if src < 2 ^ 40 then s
  else if appendSource 0 ≤ src then s.appendEnded (src - appendSource 0) ok
  else
    let line := src / 2 ^ 40 - 1
    let i := src % 2 ^ 38
    match src % 2 ^ 40 / 2 ^ 38 with
    | 0 => s.recordEnded line i ok
    | 1 => s.retagEnded line i ok
    | n + 2 => s.copyEnded line i n ok

/-- STACK_WRITE_ACK on the state. -/
def State.writeAck (s : State) (k e : Nat) (ok : Bool) : State :=
  match NMap.getD (s.stack k).buffer e .free with
  | .committed b data tag src =>
    let ch := (s.place b).1
    if (s.channel ch).held then s
    else
      let s1 := s.setStack k (fun st => { st with buffer := NMap.erase st.buffer e })
      let s2 := if ok && !(s.channel ch).down then s1.putUnit b data tag else s1.raise 0x4104 (unitChannel ch) 0 (s.channelByte b)
      (s2.tellWriter src (ok && !(s.channel ch).down)).retryWaiting
  | _ => s

/-- STACK_WRITE_ACK: the stack acknowledges a committed write; the port reports it verified and frees the entry, or
reports it failed and the old block stays (R312, R314). -/
def execStackWriteAck (stack : Fin 12) (entry : Fin 64) (ok : Bool) (s : State) : Host.Outcome State Fault Refusal :=
  .next (s.writeAck stack.val entry.val ok)

/-! ## Regulators (R319) -/

/-- A bucket's tokens at a time, in thousandths of a byte (R319): REG_RATE in MB/s is thousandths of a byte per ns. -/
def State.bucket (s : State) (k c : Nat) (now : Long) : Nat :=
  let cap := (NMap.getD s.active.regBurst c 0).toNat * 1024000
  let rate := (NMap.getD s.active.regRate c 0).toNat
  match NMap.find? (s.stack k).buckets c with
  | some b => min cap (b + rate * (now.toNat - (NMap.getD (s.stack k).refilled c 0).toNat))
  | none => cap

/-- REGULATED_ISSUE on the state: the block's tokens are taken when the bucket holds them; a class of rate 0 moves
nothing. -/
def State.regulatedIssue (s : State) (k c : Nat) (now : Long) : State :=
  let b := s.bucket k c now
  let rate := NMap.getD s.active.regRate c 0
  { s.setStack k (fun st => { st with
      buckets := NMap.insert st.buckets c (if 512000 ≤ b ∧ rate ≠ 0 then b - 512000 else b)
      refilled := NMap.insert st.refilled c now }) with clk.time := now }

/-- REGULATED_ISSUE: a memory port issues a block of a regulated class against its token bucket (R319). -/
def execRegulatedIssue (stack : Fin 12) (cls : Fin 5) (now : Long) (s : State) : Host.Outcome State Fault Refusal :=
  .next (s.regulatedIssue stack.val cls.val now)

/-! ## Retraining (R321 to R324) -/

/-- How far two temperatures lie apart, in units of 0.0625 °C. -/
def tempMoved (a b : Half) : Nat := (a.toInt - b.toInt).natAbs

/-- Whether a cause asks for retraining (R321). -/
def State.retrainCaused (s : State) (ch : Nat) (cause : RetrainCause) (now : Long) : Bool :=
  let c := s.channel ch
  match cause with
  | .errors n => decide (16 ≤ n)
  | .temperature => decide (160 ≤ tempMoved (s.stack (ch / 32)).temp c.trainedTemp)
  | .age => decide (3600000000000 ≤ now.toNat - c.trained.toNat)

/-- RETRAIN_REQUEST on the state: the errors are counted; a channel has at most one request pending. -/
def State.retrainRequest (s : State) (ch : Nat) (cause : RetrainCause) (now : Long) : State :=
  let n := match cause with
    | .errors n => n
    | _ => 0
  let s1 := ({ s with clk.time := now } : State).setChannel ch (fun c => { c with errors := satAdd c.errors n })
  if s.active.retrainAuto && s.retrainCaused ch cause now && !(s.channel ch).down && (s.channel ch).pending.isNone then
    s1.setChannel ch (fun c => { c with pending := some now, overdue := false })
  else s1

/-- RETRAIN_REQUEST: a memory port raises a retraining request for a channel (R321). -/
def execRetrainRequest (ch : Fin 384) (cause : RetrainCause) (now : Long) (s : State) : Host.Outcome State Fault Refusal :=
  .next (s.retrainRequest ch.val cause now)

/-- RETRAIN_OVERDUE on the state. -/
def State.retrainOverdue (s : State) (ch : Nat) : State :=
  let c := s.channel ch
  if c.pending.isSome && !c.overdue then (s.setChannel ch (fun x => { x with overdue := true })).raise 0x4203 (unitChannel ch) else s

/-- RETRAIN_OVERDUE: a request has been pending for 60 s (R321). -/
def execRetrainOverdue (ch : Fin 384) (s : State) : Host.Outcome State Fault Refusal := .next (s.retrainOverdue ch.val)

/-- Lanes replaced in a training (R301): each is logged in the ledger and raises LANE_SPARED. -/
def State.spareLanes (s : State) (ch n : Nat) : State :=
  (List.range n).foldl (fun (st : State) _ => (st.logged (unitChannel ch)).raise 0x4202 (unitChannel ch))
    (s.setChannel ch (fun c => { c with spares := c.spares + n }))

/-- A channel is down (R301, R323): the ledger marks it permanent, and a running job halts at the next tick. -/
def State.channelDown (s : State) (ch : Nat) : State :=
  ((s.setChannel ch (fun c => { c with down := true, pending := none, overdue := false })).permanentNow (unitChannel ch)).raiseHalt
    0x4204 (unitChannel ch)

/-- A channel has been trained at a time (R301, R323). -/
def State.channelTrained (s : State) (ch : Nat) (now : Long) : State :=
  s.setChannel ch (fun c => { c with
    pending := none, overdue := false, errors := 0, trained := now, trainedTemp := (s.stack (ch / 32)).temp })

/-- RETRAIN_DONE on the state; the channel is released and, outside a job, the long setup operation ends. -/
def State.retrainDone (s : State) (ch : Nat) (o : RetrainOutcome) (now : Long) : State :=
  if !(s.channel ch).held then s
  else
    let s1 := (({ s with clk.time := now } : State).setChannel ch (fun c => { c with held := false })).endOp 4
    match o with
    | .trained n =>
      if 2 < (s.channel ch).spares + n then s1.channelDown ch
      else ((s1.spareLanes ch n).channelTrained ch now).raise 0x4201 (unitChannel ch)
    | .oldSettings => s1
    | .down => s1.channelDown ch

/-- RETRAIN_DONE: a channel retraining ends with new settings, old settings, or the channel down (R323). -/
def execRetrainDone (ch : Fin 384) (o : RetrainOutcome) (now : Long) (s : State) : Host.Outcome State Fault Refusal :=
  .next (s.retrainDone ch.val o now)

/-- MEM_CTRL (R329): RETRAIN_AUTO enters the pending view; RETRAIN_NOW outside a job holds the channel of CH_SEL (R324). -/
def State.writeMemCtrl (s : State) (v : Nat) (guarded : Bool) : State :=
  if bit 1 v && !guarded && (!s.idle || decide (383 < s.win.chSel.toNat)) then
    s.log offMemCtrl 0 (if s.idle then .range else .state)
  else
    let s1 := s.setPending (fun b => { b with retrainAuto := bit 0 v })
    if bit 1 v && !guarded then (s1.startOp 4).setChannel s.win.chSel.toNat (fun c => { c with held := true }) else s1

/-- RETRAIN_NOW: a write to MEM_CTRL retrains the CH_SEL channel outside a job (R324). -/
def execRetrainNow (port : Fin 4) (value : Word) (s : State) : Host.Outcome State Fault Refusal :=
  .next (s.windowWrite port.val offMemCtrl 4 value.toNat (fun t => t.writeMemCtrl value.toNat true) (fun t => t.writeMemCtrl value.toNat false))

/-! ## Stack temperatures (R325 to R327) -/

/-- The promise is suspended for a stack or for the coolant (R327). -/
def State.stackCrit (s : State) (ident : Nat) (f : VoidCauses → VoidCauses) : State :=
  (({ s with mem.crit := true } : State).raise 0x4303 0 ident).voidPromise f

/-- Every stack reads at most a temperature. -/
def State.stacksBelow (s : State) (t : Int) : Bool := (List.range 12).all (fun k => decide ((s.stack k).temp.toInt ≤ t))

/-- STACK_TEMP_SAMPLE on the state. Temperatures are in units of 0.0625 °C: 1,472 is 92 °C, 1,520 95 °C, 1,680 105 °C. -/
def State.stackTemp (s : State) (k : Nat) (temp : Half) : State :=
  let was := s.stack k
  let hot := decide (1520 < temp.toInt)
  let crit := decide (1680 < temp.toInt)
  let s1 := s.setStack k (fun st => { st with
    temp := temp, peak := if st.peak.toInt < temp.toInt then temp else st.peak, hot := st.hot || hot, crit := crit })
  let s2 := if hot && !was.hot then ({ s1 with mem.throttled := true } : State).raise 0x4301 0 k else s1
  let s3 := if crit && !was.crit then s2.stackCrit k (fun v => { v with stack := true }) else s2
  if s3.mem.throttled && s3.stacksBelow 1472 then
    ({ s3 with mem.throttled := false, mem.stackRecs := s3.mem.stackRecs.map (fun e => (e.1, { e.2 with hot := false })) } : State).raise 0x4302
  else s3

/-- STACK_TEMP_SAMPLE: a memory port reads its stack's temperature (R325 to R327). -/
def execStackTempSample (stack : Fin 12) (temp : Half) (s : State) : Host.Outcome State Fault Refusal :=
  .next (s.stackTemp stack.val temp)

end Sys2Proof.Machine
end

