-- ==== Sys2Proof/Machine/HistOps.lean ====
section
/-! DEFINITION. History sets: their place in HBM (R214 to R220), the user lists of a step (R223, R228), the window and
the positions of appended events (R224, R225), and messages as they have arrived (R287). -/

namespace Sys2Proof.Machine

/-! ## Messages that have arrived -/

/-- The data of a message's units in order. -/
def Msg.data (m : Msg) : Bytes := (m.units.map (fun u => u.2.1)).flatten

/-- The data and tag words of a message's units in order. -/
def Msg.tagged (m : Msg) : List (Bytes × Word) := m.units.map (fun u => (u.2.1, u.2.2.2))

/-- The visible messages of a kind, ascending by source and identifier. -/
def State.inbox (s : State) (k : MsgKind) : List Msg :=
  (s.fab.msgs.filter (fun m => m.visible && m.num / 65536 == k.code)).mergeSort (fun a b => decide (a.src * 2 ^ 32 + a.num ≤ b.src * 2 ^ 32 + b.num))

/-- A visible message of a kind and identifier from a module. -/
def State.received (s : State) (k : MsgKind) (src ident : Nat) : Option Msg :=
  s.fab.msgs.find? (fun m => m.visible && m.src == src && m.num == msgNumber k.code ident)

/-! ## The layout of a set (R214, R216 to R220) -/

/-- LAYERS of a set entry. -/
def hLayers (h : Bytes) : Nat := field h 3 1
/-- HEADS × DH: elements of a position in a plane. -/
def hWidth (h : Bytes) : Nat := field h 4 1 * field h 6 2
/-- USERS. -/
def hUsers (h : Bytes) : Nat := field h 8 4
/-- CAP. -/
def hCap (h : Bytes) : Nat := field h 12 2
/-- BASE. -/
def hBase (h : Bytes) : Nat := field h 20 8

/-- REC_BYTES of R217. -/
def recBytes (h : Bytes) : Nat := roundUp (16 * hUsers h) 512
/-- BLOCK_BYTES of R217. -/
def blockBytes (h : Bytes) : Nat := 1056 * hWidth h
/-- Bytes of a set's region on a module of a pen of n modules (R217). -/
def histBytes (h : Bytes) (n : Nat) : Nat := recBytes h + hUsers h * (hCap h / n) * hLayers h * blockBytes h

/-- The pen position that holds block b of a user (R216). -/
def holderOf (n user b : Nat) : Nat := (b + user) % n
/-- The local slot of block b (R216). -/
def localSlot (h : Bytes) (n b : Nat) : Nat := b / n % (hCap h / n)
/-- q of R220: the plane of a user and local slot. -/
def planeOf (h : Bytes) (n user b : Nat) : Nat := user * (hCap h / n) + localSlot h n b
/-- The HBM address of a key/value block (R217). -/
def blockAddr (h : Bytes) (n user b layer : Nat) : Nat :=
  hBase h + recBytes h + (planeOf h n user b * hLayers h + layer) * blockBytes h
/-- Where a part of a block starts: 0 key data, 1 value data, 2 key scale, 3 value scale (R219). -/
def partOffset (h : Bytes) (part : Nat) : Nat :=
  match part with
  | 0 => 0
  | 1 => 512 * hWidth h
  | 2 => 1024 * hWidth h
  | _ => 1040 * hWidth h
/-- Check blocks of a part. -/
def partBlocks (h : Bytes) (part : Nat) : Nat := if part < 2 then hWidth h else hWidth h / 32
/-- The tag word of check block i of a part (R101, R220). -/
def partTag (h : Bytes) (n user b layer part i : Nat) : Word :=
  let stream := field h 14 2 + 2 * layer + part % 2
  let q := planeOf h n user b
  if part < 2 then (ys8Tags stream (16 * (q * hWidth h + i))).1 else (ys8Tags stream (512 * (q * (hWidth h / 32) + i))).2

/-- The HBM address of a user record (R217). -/
def userAddr (h : Bytes) (user : Nat) : Nat := hBase h + 16 * user
/-- A user record (R218). -/
def userRecord (length tag appends : Nat) : Bytes := leBytes 6 length ++ leBytes 2 tag ++ leBytes 4 appends ++ leBytes 4 0

/-- This module's pen position. -/
def State.penPos (s : State) : Nat := s.me % 8
/-- M of the plan. -/
def State.microBatches (s : State) : Nat := (s.plan.map (fun p => p.header.microBatches)).getD 1
/-- The history sets of the plan. -/
def State.histSets (s : State) : List Bytes := (s.plan.map (fun p => p.layout.history)).getD []

/-! ## User lists (R223, R228) -/

/-- The batches that the step computes: those taken in for it, or in the evaluation slot its EVAL_BATCHes. -/
def State.stepBatches (s : State) : List (Nat × Desc) :=
  if s.inEvaluation then
    s.host.queues.flatMap (fun e => (e.2.descs.filter (fun d =>
      dOp d.bytes == 2 && d.stage == .taken && d.intakeDone && decide (d.step.toNat ≤ s.seq.step.toNat))).map (fun d => (e.1, d)))
  else s.seq.intake.order.filterMap (fun o => ((s.queue o.1).descs.find? (fun d => d.pos == o.2)).map (fun d => (o.1, d)))

/-- The user slot of sample k of a history event block. -/
def sampleUser (b : Bytes) (e : DirEntry) (k : Nat) : Nat := field b (e.off + afterOffsets (field b (e.off + 4) 4) + 4 * k) 4

/-- The samples of a set in the step's batches as entries, with invalid user slots. -/
def State.sampleEntries (s : State) (id : Nat) : List UserEntry :=
  s.stepBatches.flatMap (fun qd =>
    ((batchDir qd.2.data).filter (fun e => e.kind == 3 && field qd.2.data e.off 2 == id)).flatMap (fun e =>
      (List.range (field qd.2.data (e.off + 4) 4)).map (fun k =>
        { pos := s.penPos, user := sampleUser qd.2.data e k, set := id
          appends := (sampleEvents qd.2.data e k).countP (fun x => !x.1), sample := qd.2.sampleBase + k })))

/-- This module's user list of a set: the samples with a valid user slot (R228). -/
def State.userList (s : State) (h : Bytes) : List UserEntry :=
  (s.sampleEntries (field h 0 2)).filter (fun e => decide (e.user < hUsers h))

/-- The samples whose user slot is invalid (R223). -/
def State.invalidUsers (s : State) : Nat :=
  s.histSets.foldl (fun a h => a + ((s.sampleEntries (field h 0 2)).countP (fun e => decide (hUsers h ≤ e.user)))) 0

/-- An entry of a user list (R228). -/
def UserEntry.encode (e : UserEntry) : Bytes :=
  leBytes 4 e.user ++ leBytes 2 e.set ++ leBytes 2 e.appends ++ leBytes 4 e.sample ++ leBytes 4 0

/-- The entries of a received user list: a count of 8 bytes and the entries (log 6). -/
def userEntries (pos : Nat) (b : Bytes) : List UserEntry :=
  (List.range (field b 0 8)).map (fun i =>
    ⟨pos, field b (8 + 16 * i) 4, field b (12 + 16 * i) 2, field b (14 + 16 * i) 2, field b (16 + 16 * i) 4⟩)

/-- The body of a user list message. -/
def userListBody (es : List UserEntry) : Bytes := leBytes 8 es.length ++ (es.map UserEntry.encode).flatten

/-- Every user list of the step: the own ones and those received from the pen, by position. -/
def State.allUsers (s : State) : List UserEntry :=
  (s.histSets.flatMap s.userList) ++ (s.inbox .userList).flatMap (fun m => userEntries (m.src % 8) m.data)

/-- LENGTH_0 of every user of the lists, and the blocks that failed. -/
def State.readUsers (s : State) : State × List Nat :=
  ((s.hist.users.map (fun e => (e.set, e.user))).eraseDups).foldl (fun (st : State × List Nat) u =>
    match st.1.histSet u.1 with
    | none => st
    | some h =>
      let r := st.1.readRecord (userAddr h u.2) 16 0
      match r.2 with
      | some rec => ({ r.1 with hist.lengths := r.1.hist.lengths ++ [(u.1, u.2, field rec 0 6)] }, st.2)
      | none => (r.1, st.2 ++ [userAddr h u.2 / 512])) ({ s with hist.lengths := [] }, [])

/-- Read LENGTH_0 of every user of the lists (R224). A user record that fails its reads has no poisoned reading: failing
again in the replay makes the step suspect (R311). -/
def State.readLengths (s : State) : State :=
  let r := s.readUsers
  if s.seq.replay.running && r.2.any (fun b => s.seq.replay.badBlocks.contains b) then r.1.makeSuspect else r.1.readFaults r.2 none

/-- LENGTH_0 of a user. -/
def State.length0 (s : State) (set user : Nat) : Option Nat :=
  (s.hist.lengths.find? (fun e => e.1 == set && e.2.1 == user)).map (·.2.2)

/-! ## The window and positions (R224, R225) -/

/-- Whether block b of a user is in the step's window. -/
def inWindow (h : Bytes) (length b : Nat) : Bool :=
  let nb := ceilDiv length 512
  decide (nb - hCap h ≤ b ∧ b < nb)

/-- Window positions in block b of a user: those below LENGTH_0, when the block is in the window (R224). -/
def State.windowPositions (s : State) (h : Bytes) (user b : Nat) : Nat :=
  match s.length0 (field h 0 2) user with
  | some l => if inWindow h l b then min 512 (l - 512 * b) else 0
  | none => 0

/-- Whether entry a comes before entry b in the order of R225. -/
def UserEntry.before (a b : UserEntry) : Bool := decide (a.pos < b.pos) || (a.pos == b.pos && decide (a.sample < b.sample))

/-- The position of the first appended event of an entry (R225). -/
def State.firstPosition (s : State) (e : UserEntry) : Option Nat :=
  (s.length0 e.set e.user).map (fun l =>
    ((s.hist.users.filter (fun x => x.set == e.set && x.user == e.user && x.before e)).foldl (fun a x => a + x.appends) l))

/-- The events a user gains in the step. -/
def State.userAppends (s : State) (set user : Nat) : Nat :=
  ((s.hist.users.filter (fun x => x.set == set && x.user == user)).foldl (fun a x => a + x.appends) 0)

/-- The appended events of this module for a set, in its own order: user and position of each. -/
def State.ownEvents (s : State) (h : Bytes) : List (Nat × Nat) :=
  (s.userList h).flatMap (fun e =>
    match s.firstPosition e with
    | some p => (List.range e.appends).map (fun i => (e.user, p + i))
    | none => [])

end Sys2Proof.Machine
end

