-- ==== Sys2Proof/Machine/Attention.lean ====
section
/-! DEFINITION. The attention stage: blockwise scaled dot-product attention with a running softmax in binary32
(R224, R231, R232) and its backward pass (R233). One command is one query row and head. -/

namespace Sys2Proof.Machine

/-! ## Products in the matrix stage (R231) -/

/-- A dot product into an entry of a slot: chunks of 32 products (R114 to R118). -/
def dotInto : Nat → Slot → Nat → List (Num × Num) → Slot
  | 0, x, _, _ => x
  | n + 1, x, i, ps =>
    match ps with
    | [] => x
    | _ => dotInto n (x.addChunk i (chunkSum (ps.take 32)) 0) i (ps.drop 32)

/-- An MMA of some rows of products into a slot, row i into entry i. -/
def dotRows (x : Slot) (rows : List (List (Num × Num))) : Slot :=
  rows.zipIdx.foldl (fun y r => dotInto (r.1.length + 1) y r.2 r.1) x

/-- A READ of the first n entries to binary32 by RNE with SCALE_A (R130, R231). -/
def readRows (x : Slot) (n scaleA : Nat) : List (Nat × Flags) :=
  (List.range n).map (fun i => readEntry (x.entry i) binary32 .rne false scaleA 0x3F80 0)

/-- What an attention command has signalled and the slots that it has read. -/
structure Tally where
  signals : List Flags := []
  reads : List Slot := []
  deriving DecidableEq, Repr

/-- Two tallies in order. -/
def Tally.append (a b : Tally) : Tally := ⟨a.signals ++ b.signals, a.reads ++ b.reads⟩

/-- The matrix stage whose slots an attention command uses. -/
def attendStage (l : LineId) (i : AttendInstr) : StageId := ⟨l.tile, l.line, i.stageB⟩

/-- Count what an attention command has signalled against the tensor it writes, and the READs of its slots (R83, R130, R243). -/
def State.tally (s : State) (l : LineId) (i : AttendInstr) (a : Tally) : State :=
  let key := s.tensorKey i.tensor
  a.reads.foldl (fun (st : State) x => (st.slotCounts key x).slotEvents (attendStage l i) i.slot.val x) (s.countExceptions key a.signals)

/-! ## Keys (R223, R224, R232) -/

/-- YF16 elements from the tile store. -/
def State.halves (s : State) (tile addr n : Nat) : List Nat := elements 2 n (s.tileRead tile addr (2 * n))

/-- Row t of a block of rows of dh YF16 elements. -/
def State.halfRow (s : State) (tile base dh t : Nat) : List Num :=
  (s.halves tile (base + 2 * dh * t) dh).map (decodeNum yf16)

/-- Positions of a window block that a sample sees: those of its user's window, none for an invalid user slot (R223, R224). -/
def State.samplePositions (s : State) (set sample b : Nat) : Nat :=
  match s.histSet set, (s.sampleEntries set).find? (fun e => e.sample == sample) with
  | some h, some e => if e.user < hUsers h then s.windowPositions h e.user b else 0
  | _, _ => 0

/-- Whether a query sees position t of a sub-block: a window position of its sample's user, or its own sample's events up to and
including itself (R224). -/
def State.seesKey (s : State) (i : AttendInstr) (b : SubBlock) (t : Nat) : Bool :=
  match b.block with
  | some k => decide (b.first + t < s.samplePositions i.set i.sample k)
  | none => decide (b.first + t ≤ i.event)

/-- The unmasked positions of a sub-block, ascending (R232). -/
def State.subPositions (s : State) (i : AttendInstr) (b : SubBlock) : List Nat := (List.range b.len).filter (s.seesKey i b)

/-- Sub-blocks of up to 128 consecutive positions (R232). -/
def cutSub (dh : Nat) (b : SubBlock) : List SubBlock :=
  (List.range (ceilDiv b.len 128)).map (fun j =>
    { b with first := b.first + 128 * j, len := min 128 (b.len - 128 * j), keys := b.keys + 256 * dh * j, values := b.values + 256 * dh * j })

/-- The combine order: window blocks ascending, then the own block, positions ascending (R232). -/
def comesBefore (a b : SubBlock) : Bool :=
  match a.block, b.block with
  | some x, some y => decide (x < y) || (x == y && decide (a.first ≤ b.first))
  | some _, none => true
  | none, some _ => false
  | none, none => decide (a.first ≤ b.first)

/-- The sub-blocks of a command in combine order. -/
def combineOrder (i : AttendInstr) : List SubBlock := (i.subs.flatMap (cutSub i.dh)).mergeSort comesBefore

/-! ## The forward pass (R231, R232) -/

/-- The slot of the scores of a query against some positions of a sub-block (R231). -/
def State.scoreSlot (s : State) (tile : Nat) (i : AttendInstr) (b : SubBlock) (ts : List Nat) : Slot :=
  dotRows (Slot.init i.anchor) (ts.map (fun t => (s.halfRow tile i.q i.dh 0).zip (s.halfRow tile b.keys i.dh t)))

/-- The greatest of a list of scores, ascending, by R84. -/
def maxScore : List Nat → Nat × List Flags
  | [] => (0xFF800000, [])
  | x :: xs => xs.foldl (fun acc y => let z := fMax binary32 acc.1 y
                                      (z.1, acc.2 ++ [z.2])) (x, [])

/-- The sum of a list in binary32 by RNE, ascending from +0. -/
def sum32 (xs : List Nat) : Nat × List Flags :=
  xs.foldl (fun acc x => let y := fAdd binary32 .rne acc.1 x
                         (y.1, acc.2 ++ [y.2])) (0, [])

/-- exp (a − b) in binary32 (R134). -/
def expDiff (a b : Nat) : Nat × List Flags :=
  let d := fSub binary32 .rne a b
  let e := vecFn .exp d.1
  (e.1, [d.2, e.2])

/-- A weight: exp (score − m), rounded to YF16 by RNE. -/
def weight (x m : Nat) : Nat × List Flags :=
  let e := expDiff x m
  let h := convert binary32 yf16 .rne false 0 e.1
  (h.1, e.2 ++ [h.2])

/-- One sub-block of `attend` (R232). -/
def State.attendSub (s : State) (tile : Nat) (i : AttendInstr) (r : AttnState) (b : SubBlock) : AttnState × Tally :=
  match s.subPositions i b with
  | [] => (r, {})
  | ts =>
    let ss := s.scoreSlot tile i b ts
    let sc := readRows ss ts.length i.smScale.toNat
    let mj := maxScore (sc.map (·.1))
    let mn := fMax binary32 r.m.toNat mj.1
    let alpha := expDiff r.m.toNat mn.1
    let p := sc.map (fun x => weight x.1 mn.1)
    let sum := sum32 (p.map (fun x => widen yf16 x.1))
    let l := fFma binary32 .rne r.l.toNat alpha.1 sum.1
    let rows := ts.map (s.halfRow tile b.values i.dh)
    let vs := dotRows (Slot.init i.anchor) ((List.range i.dh).map (fun e =>
      (p.map (fun x => decodeNum yf16 x.1)).zip (rows.map (fun v => v.getD e plusZero))))
    let pv := readRows vs i.dh 0x3F80
    let o := (r.o.zip pv).map (fun x => fFma binary32 .rne x.1.toNat alpha.1 x.2.1)
    ({ m := BitVec.ofNat 32 mn.1, l := BitVec.ofNat 32 l.1, o := o.map (fun x => BitVec.ofNat 32 x.1) },
      { signals := sc.map (·.2) ++ mj.2 ++ mn.2 :: alpha.2 ++ p.flatMap (·.2) ++ sum.2 ++ l.2 :: pv.map (·.2) ++ o.map (·.2)
        reads := [ss, vs] })

/-- The running state of a row before its first sub-block (R232). -/
def attnStart (dh : Nat) : AttnState := { o := List.replicate dh 0 }

/-- Every sub-block of a row in combine order (R232). -/
def State.attendRow (s : State) (tile : Nat) (i : AttendInstr) : AttnState × Tally :=
  (combineOrder i).foldl (fun (a : AttnState × Tally) b => let y := s.attendSub tile i a.1 b
                                                           (y.1, a.2.append y.2)) (attnStart i.dh, {})

/-- The outputs o / l of a row (R232). -/
def AttnState.outputs (r : AttnState) : List (Nat × Flags) := r.o.map (fun x => fDiv binary32 .rne x.toNat r.l.toNat)

/-- The slot of the products as a command leaves it: its last MMA. -/
def State.leaveSlot (s : State) (l : LineId) (i : AttendInstr) (a : Tally) : State :=
  match a.reads.getLast? with
  | some x => s.setSlot (attendStage l i) i.slot.val x
  | none => s

/-- ATTEND on the state: the outputs o / l in binary32 at `out`, m and l at `kept` for phase 4 (R232). -/
def State.attend (s : State) (l : LineId) (i : AttendInstr) : State :=
  let r := s.attendRow l.tile.val i
  let outs := r.1.outputs
  let s1 := (({ s with attn := NMap.insert s.attn i.row r.1 } : State).tally l i (r.2.append { signals := outs.map (·.2) })).leaveSlot l i r.2
  (s1.tileWrite l.tile.val i.kept (elementBytes 4 [r.1.m.toNat, r.1.l.toNat])).tileWrite l.tile.val i.out (elementBytes 4 (outs.map (·.1)))

/-- Whether what an attention instruction reads and writes lies inside the tile store. -/
def attendInRange (i : AttendInstr) (back : Bool) : Bool :=
  tileRange i.q (2 * i.dh) && tileRange i.out (4 * i.dh) && tileRange i.kept 8
    && i.subs.all (fun b => tileRange b.keys (2 * i.dh * b.len) && tileRange b.values (2 * i.dh * b.len))
    && (!back || (tileRange i.dout (2 * i.dh) && tileRange i.dq (4 * i.dh)
      && i.subs.all (fun b => b.block.isSome
        || (tileRange i.dk (24 * i.dh * (b.first + b.len)) && tileRange i.dv (24 * i.dh * (b.first + b.len))))))

/-- ATTEND: one query row and head over its sub-blocks in combine order (R224, R231, R232). -/
def execAttend (l : LineId) (i : AttendInstr) (s : State) : Host.Outcome State Fault Refusal :=
  if attendInRange i false then .next (s.attend l i) else .fault .tileStoreRange

/-! ## The backward pass (R233)

PASSES of the MMAs whose operand is binary32 (p and ds), and the formats of dout (YF16) and out (binary32), the manual leaves
open: the model multiplies by the high part alone, as PASSES 0b01 does (DESIGN CHOICE, log 40). -/

/-- d := the FMA chain of dout × out (R233). -/
def State.attnD (s : State) (tile : Nat) (i : AttendInstr) : Nat × List Flags :=
  let dout := (s.halves tile i.dout i.dh).map (widen yf16)
  let out := elements 4 i.dh (s.tileRead tile i.out (4 * i.dh))
  (dout.zip out).foldl (fun acc p => let y := fFma binary32 .rne p.1 p.2 acc.1
                                     (y.1, acc.2 ++ [y.2])) (0, [])

/-- The m and l of a row that phase 3 kept (R232). -/
def State.keptMl (s : State) (tile : Nat) (i : AttendInstr) : Nat × Nat :=
  (leNat (s.tileRead tile i.kept 4), leNat (s.tileRead tile (i.kept + 4) 4))

/-- p and ds of a position from its score and dp, with what they signal (R233). -/
def attnGrad (m l d score dp : Nat) : Nat × Nat × List Flags :=
  let w := weight score m
  let p := fDiv binary32 .rne (widen yf16 w.1) l
  let dd := fSub binary32 .rne dp d
  let ds := fMul binary32 .rne p.1 dd.1
  (p.1, ds.1, w.2 ++ [p.2, dd.2, ds.2])

/-- A position of a sub-block with its p and ds. -/
structure AttnGrad where
  sub : SubBlock
  pos : Nat
  p : Nat
  ds : Nat
  deriving DecidableEq, Repr

/-- Every position of a sub-block with its p and ds, by an MMA of the scores and one of dp (R233). -/
def State.attnGradsOf (s : State) (tile : Nat) (i : AttendInstr) (d : Nat) (b : SubBlock) : List AttnGrad × Tally :=
  match s.subPositions i b with
  | [] => ([], {})
  | ts =>
    let ml := s.keptMl tile i
    let ss := s.scoreSlot tile i b ts
    let sc := readRows ss ts.length i.smScale.toNat
    let vs := dotRows (Slot.init i.anchor) (ts.map (fun t => (s.halfRow tile i.dout i.dh 0).zip (s.halfRow tile b.values i.dh t)))
    let dp := readRows vs ts.length 0x3F80
    let gs := (sc.zip dp).map (fun x => attnGrad ml.1 ml.2 d x.1.1 x.2.1)
    ((ts.zip gs).map (fun x => ⟨b, x.1, x.2.1, x.2.2.1⟩),
      { signals := sc.map (·.2) ++ dp.map (·.2) ++ gs.flatMap (·.2.2), reads := [ss, vs] })

/-- The positions of all sub-blocks in combine order. -/
def State.attnGrads (s : State) (tile : Nat) (i : AttendInstr) : List AttnGrad × Tally :=
  let d := s.attnD tile i
  (combineOrder i).foldl (fun (a : List AttnGrad × Tally) b => let y := s.attnGradsOf tile i d.1 b
                                                               (a.1 ++ y.1, a.2.append y.2)) ([], { signals := d.2 })

/-- The slot of dq: ds × key added over the sub-blocks in combine order, element e into entry e (R233). -/
def State.dqOf (s : State) (tile : Nat) (i : AttendInstr) (gs : List AttnGrad) : Slot :=
  (combineOrder i).foldl (fun (x : Slot) b =>
    let mine := gs.filter (fun g => g.sub == b)
    dotRows x ((List.range i.dh).map (fun e => mine.map (fun g =>
      ((splitElem 2 0 g.ds).hi, (s.halfRow tile b.keys i.dh g.pos).getD e plusZero))))) (Slot.init i.anchor)

/-- One product added into a stored L160 entry of 24 bytes (R120, R233). -/
def State.addEntry (s : State) (tile addr : Nat) (a b : Num) : State :=
  let x := AccEntry.decode (s.tileRead tile addr 24)
  s.tileWrite tile addr (x.addChunk (chunkSum [(a, b)]) 0).1.encode

/-- The gradients of the own block's key and value t (R233). -/
def State.ownGrad (s : State) (tile : Nat) (i : AttendInstr) (t : Nat) (p ds : Nat) : State :=
  let q := s.halfRow tile i.q i.dh 0
  let dout := s.halfRow tile i.dout i.dh 0
  (List.range i.dh).foldl (fun (st : State) e =>
    (st.addEntry tile (i.dv + 24 * (t * i.dh + e)) (splitElem 2 0 p).hi (dout.getD e plusZero)).addEntry tile
      (i.dk + 24 * (t * i.dh + e)) (splitElem 2 0 ds).hi (q.getD e plusZero)) s

/-- ATTEND_BACK on the state: dq in binary32, and dk and dv of the own block added into their L160 entries (R233). -/
def State.attendBack (s : State) (l : LineId) (i : AttendInstr) : State :=
  let tile := l.tile.val
  let gs := s.attnGrads tile i
  let x := s.dqOf tile i gs.1
  let dq := readRows x i.dh i.smScale.toNat
  let s1 := ((s.tally l i (gs.2.append { signals := dq.map (·.2), reads := [x] })).leaveSlot l i gs.2).setSlot (attendStage l i) i.dqSlot.val x
  let s2 := gs.1.foldl (fun (st : State) g => if g.sub.block.isNone then st.ownGrad tile i (g.sub.first + g.pos) g.p g.ds else st) s1
  s2.tileWrite tile i.dq (elementBytes 4 (dq.map (·.1)))

/-- ATTEND_BACK: the gradients of one query row and head (R233). -/
def execAttendBack (l : LineId) (i : AttendInstr) (s : State) : Host.Outcome State Fault Refusal :=
  if attendInRange i true then .next (s.attendBack l i) else .fault .tileStoreRange

end Sys2Proof.Machine
end

