-- ==== Sys2Proof/Machine/Lookup.lean ====
section
/-! DEFINITION. Lookups: separation of the next batch (R151, R153 to R155), the send lists and their two hops (R156,
R157), the budgets of shard ranges (R67), and the user lists that travel with them (R228). -/

namespace Sys2Proof.Machine

/-! ## Rows and lists -/

/-- The key of a row: table and index. -/
def rowKey (table row : Nat) : Nat := table * 2 ^ 40 + row

/-- An entry of a send list (R156). -/
def RowRef.encode (e : RowRef) : Bytes := leBytes 5 e.row ++ leBytes 2 e.table ++ leBytes 1 0 ++ leBytes 4 e.count ++ leBytes 4 0

/-- The entry that 16 bytes spell, for an owner. -/
def RowRef.decode (owner : Nat) (b : Bytes) : RowRef := ⟨field b 5 2, field b 0 5, field b 8 4, owner⟩

/-- The body of a list message: a count of 8 bytes and the entries (log 6). -/
def listBody (es : List RowRef) : Bytes := leBytes 8 es.length ++ (es.map RowRef.encode).flatten

/-- The entries of a received list. -/
def listEntries (owner : Nat) (b : Bytes) : List RowRef :=
  (List.range (field b 0 8)).map (fun i => RowRef.decode owner (slice b (8 + 16 * i) 16))

/-- Counts by row key, in ascending order of table and index. -/
def countRows (rs : List (Nat × Nat)) : NMap Nat := rs.foldl (fun m r => NMap.modify m r.1 0 (· + r.2)) []

/-- The union of lists with their counts summed (R157). -/
def unionRows (owner : Nat) (es : List RowRef) : List RowRef :=
  (countRows (es.map (fun e => (rowKey e.table e.row, e.count)))).map (fun k => ⟨k.1 / 2 ^ 40, k.1 % 2 ^ 40, k.2, owner⟩)

/-! ## Separation (R151, R153, R154) -/

/-- The version that a step binds a table to (R168, R170). -/
def State.boundTable (s : State) (step : BitVec 48) (id : Nat) : Option TableVer :=
  match s.emb.swaps.find? (fun w => w.table == id && w.announced) with
  | some w =>
    match w.lastOld with
    | some n => if n.toNat < step.toNat then s.tableVersion id w.version else s.currentTable id
    | none => s.currentTable id
  | none => s.currentTable id

/-- The feature blocks of a buffer in order. -/
def featureBlocks (b : Bytes) : List DirEntry := (batchDir b).filter (fun e => e.kind == 2)

/-- Weight i of a feature block: a binary32 encoding, 0 without weights. -/
def blockWeight (b : Bytes) (e : DirEntry) (i : Nat) : Word :=
  let bags := field b (e.off + 4) 4
  if bit 0 (field b (e.off + 3) 1) then BitVec.ofNat 32 (field b (e.off + afterOffsets bags + 8 * field b (e.off + 8) 4 + 4 * i) 4) else 0

/-- The lookups of one feature block with the index entry of each. -/
def blockLookups (b : Bytes) (e : DirEntry) (f base : Nat) : List (Lookup × Nat) :=
  let bags := field b (e.off + 4) 4
  let os := blockOffsets b e.off bags
  (List.range bags).flatMap (fun bag =>
    (List.range (os.getD (bag + 1) 0 - os.getD bag 0)).map (fun j =>
      let i := os.getD bag 0 + j
      (⟨base + bag, f, j, field b e.off 2, field b (e.off + 2) 1, blockWeight b e i, none⟩,
        field b (e.off + afterOffsets bags + 8 * i) 8)))

/-- Every lookup of a list of batches. -/
def batchLookups (ds : List Desc) : List (Lookup × Nat) :=
  ds.flatMap (fun d => (featureBlocks d.data).zipIdx.flatMap (fun e => blockLookups d.data e.1 e.2 d.sampleBase))

/-- Whether an index entry is valid for a version (R153). -/
def validIndex (t : Option TableVer) (x : Nat) : Bool :=
  match t with
  | some t => decide (x < t.rows) && (t.rangeOf x).isSome
  | none => false

/-- The order of lookups: ascending (p, f, j). -/
def Lookup.le (a b : Lookup) : Bool :=
  decide (a.p < b.p) || (a.p == b.p && (decide (a.f < b.f) || (a.f == b.f && decide (a.j ≤ b.j))))

/-- Lookups in the separator's order (R154). -/
def sortedLookups (ls : List (Lookup × Nat)) : List (Lookup × Nat) := ls.mergeSort (fun a b => Lookup.le a.1 b.1)

/-- The separation of lookups with a binding of tables (R154). -/
def separateLookups (bound : Nat → Option TableVer) (ls : List (Lookup × Nat)) : LookupState :=
  let sorted := sortedLookups ls
  let valid := sorted.filter (fun l => validIndex (bound l.1.table) l.2)
  let u := countRows (valid.map (fun l => (rowKey l.1.table l.2, 1)))
  let unique : List RowRef := u.map (fun e =>
    ⟨e.1 / 2 ^ 40, e.1 % 2 ^ 40, e.2, (((bound (e.1 / 2 ^ 40)).bind (fun t => t.ownerOf (e.1 % 2 ^ 40))).getD 0)⟩)
  { unique := unique
    lookups := sorted.map (fun l =>
      if validIndex (bound l.1.table) l.2 then { l.1 with slot := some (unique.findIdx (fun e => e.table == l.1.table && e.row == l.2)) }
      else l.1)
    invalid := (sorted.filter (fun l => !validIndex (bound l.1.table) l.2)).foldl (fun m l => NMap.modify m l.1.table 0 (· + 1)) []
    done := true }

/-- INVALID_INDEX for each table with an invalid lookup, once per step (R153). -/
def State.raiseInvalid (s : State) (m : NMap Nat) : State :=
  m.foldl (fun (st : State) e => st.raiseOnce e.1 0x3101 0 e.1 e.2) s

/-- Invalid lookups in the step record and the watch's counts (R153, R243). -/
def State.countInvalid (s : State) (m : NMap Nat) : State :=
  let s1 := m.foldl (fun (st : State) e => st.setWatch (watchKey 2 e.1) (fun w =>
    { w with counts := { w.counts with invalidLookups := satAdd w.counts.invalidLookups e.2 } })) s
  { s1 with seq.stats.invalid := s1.seq.stats.invalid + m.foldl (fun a e => a + e.2) 0 }

/-- The batches taken in for the coming step. -/
def State.nextBatches (s : State) : List Desc :=
  s.seq.next.order.filterMap (fun o => (s.queue o.1).descs.find? (fun d => d.pos == o.2))

/-- Separate the coming step's batches (R155), once its intake has ended. -/
def State.separateNext (s : State) : State :=
  if !s.seq.next.ended || s.emb.next.done then s
  else
    let n := separateLookups (s.boundTable s.nextStep) (batchLookups s.nextBatches)
    ({ s with emb.next := n, emb.sortScratch := sortedLookups (batchLookups s.nextBatches) } : State).raiseInvalid n.invalid

/-- Separate the EVAL_BATCHes of the evaluation slot (R55); their invalid user slots count too (R223). -/
def State.separateEval (s : State) : State :=
  let n := separateLookups s.currentTable (batchLookups (s.stepBatches.map (·.2)))
  let s1 := (({ s with emb.now := n, emb.sortScratch := sortedLookups (batchLookups (s.stepBatches.map (·.2))) } : State).raiseInvalid
    n.invalid).countInvalid n.invalid
  { s1 with seq.stats.invalid := s1.seq.stats.invalid + s1.invalidUsers }

/-- SEPARATE: the separator sorts the next batch's lookups into the unique list, the inverse map and the send lists
(R154); in the evaluation slot those of its batches. A consistency check that fails leaves nothing (R377, R378). -/
def execSeparate (chk : Check) (s : State) : Host.Outcome State Fault Refusal :=
  match chk with
  | some u => .next (s.checkFault (unitCode u))
  | none => .next (if s.inEvaluation then s.separateEval else s.separateNext)

/-! ## The lists on their way (R156, R157) -/

/-- The module that a list for an owner goes to first: the owner in this pen, else the proxy of its position. -/
def State.firstHop (s : State) (owner : Nat) : Nat := if owner / 8 = s.me / 8 then owner else s.me / 8 * 8 + owner % 8

/-- This module's send list for an owner. -/
def State.sendList (s : State) (owner : Nat) : List RowRef := s.emb.now.unique.filter (fun e => e.owner == owner)

/-- The owners in other pens whose lists this module aggregates as a proxy. -/
def State.proxyFor (s : State) : List Nat := s.modules.filter (fun o => o / 8 != s.me / 8 && o % 8 == s.me % 8)

/-- Send the lists for every owner that is reached over another module (R156). -/
def State.sendLists (s : State) : State :=
  (s.modules.filter (fun o => s.firstHop o != s.me)).foldl (fun (st : State) o =>
    st.exchange (st.firstHop o) .sendList o (listBody (st.sendList o))) s

/-- Send the user list of each set to the other modules of the pen (R228). -/
def State.sendUserLists (s : State) : State :=
  s.histSets.foldl (fun (st : State) h => st.penPeers.foldl (fun (st : State) m =>
    st.exchange m .userList (field h 0 2) (userListBody (st.userList h))) st) s

/-- Whether a list has arrived from a module for an owner. -/
def State.hasList (s : State) (src owner : Nat) : Bool := (s.received .sendList src owner).isSome

/-- The lists that a proxy awaits for an owner: one from each other module of the pen. -/
def State.proxyReady (s : State) (owner : Nat) : Bool := s.penPeers.all (fun m => s.hasList m owner)

/-- Every list that this module awaits as an owner, and every user list, has arrived (R51, R228). -/
def State.listsArrived (s : State) : Bool :=
  s.penPeers.all (fun m => s.hasList m s.me) && s.proxyFor.all (fun m => s.hasList m s.me)
    && s.histSets.all (fun h => s.penPeers.all (fun m => (s.received .userList m (field h 0 2)).isSome))

/-- The lists received for an owner, ascending by source. -/
def State.listsFor (s : State) (owner : Nat) : List (Nat × List RowRef) :=
  ((s.inbox .sendList).filter (fun m => m.num % 65536 == owner)).map (fun m => (m.src, listEntries owner m.data))

/-- A proxy's union for an owner of another pen, sent on (R157). -/
def State.aggregateProxy (s : State) (owner : Nat) : State :=
  if s.proxyReady owner && !(s.emb.now.agg.any (fun a => a.1 == owner)) then
    let agg := unionRows owner (s.sendList owner ++ (s.listsFor owner).flatMap (·.2))
    ({ s with emb.now.agg := s.emb.now.agg ++ [(owner, agg)] } : State).exchange owner .sendList owner (listBody agg)
  else s

/-- The budget entry of a range. -/
def State.budgetOf (s : State) (table range : Nat) : Option Budget :=
  s.plan.bind (fun p => p.budgets.find? (fun b => b.table == table && b.range == range))

/-- Unique rows and lookups of a range in a list (R157). -/
def rangeLoad (t : TableVer) (i : Nat) (es : List RowRef) : Nat × Nat :=
  let mine := es.filter (fun e => e.table == t.id && (t.rangeOf e.row).any (fun r => r.1 == i))
  (mine.length, mine.foldl (fun a e => a + e.count) 0)

/-- The check of one owned range at the end of phase 1 (R67), and the busiest range for the step record (R72). -/
def State.checkRange (s : State) (t : TableVer) (i : Nat) : State :=
  let l := rangeLoad t i s.emb.now.owned
  let s1 : State := if s.seq.stats.maxUnique < l.1 then
    { s with seq.stats.maxUnique := l.1, seq.stats.busyTable := t.id, seq.stats.busyRange := i } else s
  match s.budgetOf t.id i with
  | some b =>
    if b.rows < l.1 ∨ b.lookups < l.2 then
      (({ s1 with seq.stats.excessRanges := s1.seq.stats.excessRanges + 1, seq.stats.budget := true } : State).raise 0x1202 0 t.id
        i).declareExcess.uncover s.seq.step
    else s1
  | none => s1

/-- The owner's union and the budget checks of its ranges: the end of phase 1 (R67, R157). -/
def State.aggregateOwner (s : State) : State :=
  if s.emb.now.aggregated || !s.listsArrived then s
  else
    let owned := unionRows s.me (s.sendList s.me ++ (s.listsFor s.me).flatMap (·.2))
    let s1 : State := { s with
      emb.now.owned := owned, emb.now.aggregated := true, emb.served := if s.inEvaluation then s.emb.served else owned }
    if s.inEvaluation then s1
    else (s1.tableIds.filterMap s1.currentTable).foldl (fun (st : State) t => (st.ownedRanges t).foldl (fun (st : State) r =>
      st.checkRange t r.2) st) s1

/-- AGGREGATE: a proxy or owner forms the union of the received lists; the owner counts its ranges' unique rows and
lookups against their budgets (R157, R67). -/
def execAggregate (owner : BitVec 12) (s : State) : Host.Outcome State Fault Refusal :=
  .next (if owner.toNat = s.me then s.aggregateOwner else if s.proxyFor.contains owner.toNat then s.aggregateProxy owner.toNat else s)

end Sys2Proof.Machine
end

