-- ==== Sys2Proof/Machine/Rows.lean ====
section
/-! DEFINITION. Rows on their way to the requester (R158), the gather and pool stages (R159, R160), the row cache (R162,
R163), the row gradients (R161, R165) and their merge (R166, R167). -/

namespace Sys2Proof.Machine

/-! ## Rows returned (R158) -/

/-- What a segment record sends: 16 bytes and its code bytes, without moments and padding. -/
def segmentCore (t : TableVer) (g : Nat) (rec : Bytes) : Bytes := slice rec 0 (16 + codeLen t.code (segElems t.code t.layout t.dim g))

/-- A segment whose block failed its reads, as it reads: poisoned (R99, R311). -/
def failedSegment (t : TableVer) (g : Nat) : Bytes :=
  padTo t.rs (leBytes 2 0x7FC0 ++ leBytes 2 0x7FC0 ++ leBytes 6 0 ++ leBytes 2 (3 + 8 * g))

/-- The row cache's entry of a row. -/
def State.cached (s : State) (table row : Nat) : Option CacheEntry := s.mem.rowCache.find? (fun e => e.table == table && e.row == row)

/-- The record of a row's segment, from the row cache or from HBM (R25, R163), and its block if the read failed. -/
def State.readSegment (s : State) (t : TableVer) (row g : Nat) : State × Bytes × List Nat :=
  match (s.cached t.id row).bind (fun e => e.segs[g]?) with
  | some b => (s, b, [])
  | none =>
    let r := s.readRecord (t.recordAddr row g) t.rs 0
    (r.1, r.2.getD (failedSegment t g), if r.2.isSome then [] else [t.recordAddr row g / 512])

/-- The bytes of a row's segments, read once, and the blocks that failed. -/
def State.readRow (s : State) (t : TableVer) (row : Nat) : State × Bytes × List Nat :=
  (List.range t.segs).foldl (fun (acc : State × Bytes × List Nat) g =>
    let r := acc.1.readSegment t row g
    (r.1, acc.2.1 ++ segmentCore t g r.2.1, acc.2.2 ++ r.2.2)) (s, [], [])

/-- The rows of the owner's unique list, each read once, and the blocks that failed. -/
def State.readRows (s : State) : State × List Nat :=
  s.emb.now.owned.foldl (fun (st : State × List Nat) e =>
    match st.1.currentTable e.table with
    | some t =>
      let r := st.1.readRow t e.row
      ({ r.1 with emb.now.rowBytes := NMap.insert r.1.emb.now.rowBytes (rowKey e.table e.row) r.2.1 }, st.2 ++ r.2.2)
    | none => st) ({ s with emb.now.rowBytes := [] }, [])

/-- The owner reads each row of its unique list once (R157, R158); the blocks that failed are reported together (R311). -/
def State.readOwned (s : State) : State := s.readRows.1.readFaults s.readRows.2 none

/-- Rows in the order of a list as a message: a count of 8 bytes and the rows (log 6). -/
def rowsBody (m : NMap Bytes) (es : List RowRef) : Bytes :=
  leBytes 8 es.length ++ (es.map (fun e => NMap.getD m (rowKey e.table e.row) [])).flatten

/-- The owner returns each received list's rows in that list's order (R158). -/
def State.returnRows (s : State) : State :=
  (s.listsFor s.me).foldl (fun (st : State) l => st.exchange l.1 .rows st.me (rowsBody st.emb.now.rowBytes l.2)) s

/-- Bytes that a row sends. -/
def rowLength (t : TableVer) : Nat :=
  (List.range t.segs).foldl (fun a g => a + 16 + codeLen t.code (segElems t.code t.layout t.dim g)) 0

/-- The rows of a list cut from a rows message. -/
def State.cutRows (s : State) : List RowRef → Bytes → NMap Bytes → NMap Bytes
  | [], _, m => m
  | e :: r, b, m =>
    let n := ((s.currentTable e.table).map rowLength).getD 0
    State.cutRows s r (b.drop n) (NMap.insert m (rowKey e.table e.row) (b.take n))

/-- The rows that have arrived for an owner's list, by row key: from the owner itself, or from its proxy. -/
def State.arrivedRows (s : State) (owner : Nat) : NMap Bytes :=
  let asProxy := s.proxyFor.contains owner
  let list := if asProxy then ((s.emb.now.agg.find? (fun a => a.1 == owner)).map (·.2)).getD [] else s.sendList owner
  match s.received .rows (if asProxy then owner else s.firstHop owner) owner with
  | some m => s.cutRows list (m.data.drop 8) []
  | none => []

/-- A proxy forwards each member's rows in the order of that member's list (R158). -/
def State.forwardRows (s : State) : State :=
  s.proxyFor.foldl (fun (st : State) o =>
    match st.received .rows o o with
    | none => st
    | some _ =>
      let rows := st.arrivedRows o
      ((st.listsFor o).filter (fun l => l.1 / 8 == st.me / 8)).foldl (fun (st : State) l => st.exchange l.1 .rows o (rowsBody rows l.2)) st) s

/-! ## Gather (R95, R99, R159) -/

/-- The dequantised elements of a row in YF16, with the signals and how many segments are poisoned. -/
def dequantRow (t : TableVer) (b : Bytes) : List Half × List Flags × Nat :=
  let r := (List.range t.segs).foldl (fun (acc : Bytes × List (Nat × Flags) × Nat) g =>
    let n := 16 + codeLen t.code (segElems t.code t.layout t.dim g)
    let rec' := slice acc.1 0 n
    let bad := recordPoisoned rec'
    let vs := (recordCodes t g rec').map (fun c => if bad then (yf16.genNaN, Flags.none) else dequant yf16 (field rec' 0 2) (field rec' 2 2) c)
    (acc.1.drop n, acc.2.1 ++ vs, acc.2.2 + b2n bad)) (b, [], 0)
  (r.2.1.map (fun v => BitVec.ofNat 16 v.1), r.2.1.map (·.2), r.2.2)

/-- Dequantise a row into the step's values, with its counts. -/
def State.gatherRow (s : State) (t : TableVer) (row : Nat) (b : Bytes) : State :=
  let d := dequantRow t b
  let key := watchKey 2 t.id
  let s1 := (s.countExceptions key d.2.1).countPoison 0x2101 key d.2.2
  { s1 with emb.now.values := NMap.insert s1.emb.now.values (rowKey t.id row) d.1 }

/-- The default row of a table as dequantised elements (R153). -/
def TableVer.defaultValues (t : TableVer) : List Half :=
  (dequantRow t ((List.range t.segs).flatMap (fun g => segmentCore t g (t.defaultRecord g)))).1

/-- GATHER_ROWS on the state: every row of the unique list that is at hand and not yet gathered. -/
def State.gatherRows (s : State) : State :=
  let remote := (s.modules.filter (fun o => o != s.me)).flatMap s.arrivedRows
  s.emb.now.unique.foldl (fun (st : State) e =>
    if (NMap.find? st.emb.now.values (rowKey e.table e.row)).isSome then st
    else
      match st.currentTable e.table, (if e.owner = st.me then NMap.find? st.emb.now.rowBytes (rowKey e.table e.row)
          else List.lookup (rowKey e.table e.row) remote) with
      | some t, some b => st.gatherRow t e.row b
      | _, _ => st) s

/-- GATHER_ROWS: the gather stage dequantises each row of the unique list once to YF16, owned rows as read and remote
rows from the exchange buffers (R159). -/
def execGatherRows (_l : LineId) (s : State) : Host.Outcome State Fault Refusal := .next s.gatherRows

/-! ## Pool (R160) -/

/-- What the pool and merge stages know of a bag: its table, its mode and its lookups in ascending j with their values
widened to binary32. -/
structure Bag where
  table : TableVer
  mode : Nat
  items : List (Lookup × List Nat)
  deriving DecidableEq, Repr

/-- The table and mode of feature f of sample p. -/
def State.bagFeature (s : State) (p f : Nat) : Option (Nat × Nat) :=
  match (s.stepBatches.map (·.2)).find? (fun d => decide (d.sampleBase ≤ p ∧ p < d.sampleBase + dSamples d.bytes)) with
  | some d => ((featureBlocks d.data)[f]?).map (fun e => (field d.data e.off 2, field d.data (e.off + 2) 1))
  | none => none

/-- The values of a lookup in binary32: its row's, or the default row's. -/
def State.lookupValues (s : State) (t : TableVer) (l : Lookup) : List Nat :=
  let hs := match l.slot.bind (fun i => s.emb.now.unique[i]?) with
    | some e => NMap.getD s.emb.now.values (rowKey e.table e.row) (List.replicate t.dim (BitVec.ofNat 16 yf16.genNaN))
    | none => t.defaultValues
  hs.map (fun h => widen yf16 h.toNat)

/-- A bag of the step. -/
def State.bag (s : State) (p f : Nat) : Option Bag :=
  match s.bagFeature p f with
  | some x =>
    match s.currentTable x.1 with
    | some t => some ⟨t, x.2, (s.emb.now.lookups.filter (fun l => l.p == p && l.f == f)).map (fun l => (l, s.lookupValues t l))⟩
    | none => none
  | none => none

/-- One pooled element in binary32, with the signals of its operations (R160). -/
def poolElem (mode : Nat) (vs : List (Nat × Nat)) : Nat × List Flags :=
  match vs with
  | [] => (0, [])
  | v :: r =>
    let first := if mode = 3 then fMul binary32 .rne v.1 v.2 else (v.2, Flags.none)
    let acc := r.foldl (fun (a : Nat × List Flags) x =>
      let y := if mode = 2 then fMax binary32 a.1 x.2
               else if mode = 3 then fFma binary32 .rne x.1 x.2 a.1
               else fAdd binary32 .rne a.1 x.2
      (y.1, a.2 ++ [y.2])) (first.1, [first.2])
    if mode = 1 then
      let y := fDivInt binary32 .rne acc.1 vs.length
      (y.1, acc.2 ++ [y.2])
    else acc

/-- The weight and value of element e of each lookup of a bag. -/
def Bag.column (b : Bag) (e : Nat) : List (Nat × Nat) := b.items.map (fun i => (i.1.weight.toNat, i.2.getD e 0))

/-- The pooled vector of a bag in binary32. -/
def Bag.pool (b : Bag) : List (Nat × List Flags) := (List.range b.table.dim).map (fun e => poolElem b.mode (b.column e))

/-- Where the plan places a feature's pooled vectors and bag gradients. -/
def State.bagPlace (s : State) (f : Nat) : Option BagPlace :=
  match s.plan with
  | some p => p.layout.bags.find? (fun b => b.feature == f)
  | none => none

/-- The pool stage's result for a bag, which its accumulator holds before it is rounded (R25). -/
def State.poolBag (s0 : State) (l : LineId) (p f : Nat) (b : Bag) : State :=
  let rs := b.pool
  let s := s0.setLine l (fun y => { y with bag := rs.map (fun r => BitVec.ofNat 32 r.1) })
  let hs := rs.map (fun r => convert binary32 yf16 .rne false 0 r.1)
  let s1 := s.countExceptions (watchKey 2 b.table.id) (rs.flatMap (·.2) ++ hs.map (·.2))
  let vs := hs.map (fun h => BitVec.ofNat 16 h.1)
  let s2 : State := { s1 with emb.now.pooled := s1.emb.now.pooled.filter (fun x => x.1 != p || x.2.1 != f) ++ [(p, f, vs)] }
  match s2.bagPlace f with
  | some pl => s2.tileWrite pl.tile.val (pl.addr + p * b.table.dim * 2) (elementBytes 2 (hs.map (·.1)))
  | none => s2

/-- POOL: the pool stage combines a bag's dequantised elements and rounds the result to YF16 (R160). -/
def execPool (l : LineId) (p f : Nat) (s : State) : Host.Outcome State Fault Refusal :=
  match s.bag p f with
  | some b =>
    match s.bagPlace f with
    | some pl => if tileRange (pl.addr + p * b.table.dim * 2) (b.table.dim * 2) then .next (s.poolBag l p f b) else .fault .tileStoreRange
    | none => .next (s.poolBag l p f b)
  | none => .next s

/-! ## The row cache (R162, R163) -/

/-- Bytes of a tile's row-cache region. -/
def State.cacheBytes (s : State) (tile : Nat) : Nat :=
  ((s.plan.map (fun p => p.layout.regions)).getD []).foldl (fun a r =>
    if r.tile.val = tile ∧ r.kind = .rowCache then a + r.size * 2 ^ 20 else a) 0

/-- Bytes that the entries of a tile take. -/
def State.cacheUsed (s : State) (tile : Nat) : Nat :=
  (s.mem.rowCache.filter (fun e => e.tile == tile)).foldl (fun a e => a + ((s.currentTable e.table).map (fun t => t.segs * t.rs)).getD 0) 0

/-- The rows that may stay in the cache for the coming step: owned rows of its own batch, and owned rows served now. -/
def State.cacheKeeps (s : State) (table row : Nat) : Bool :=
  s.emb.next.unique.any (fun e => e.table == table && e.row == row && e.owner == s.me)
    || s.emb.served.any (fun e => e.table == table && e.row == row)

/-- Owned rows of the own coming batch that a tile is home to and does not hold yet: they fill first (R162). -/
def State.ownRowsLeft (s : State) (tile : Nat) : Bool :=
  s.emb.next.unique.any (fun e => e.owner == s.me && (s.cached e.table e.row).isNone
    && (match (s.currentTable e.table).bind (fun t => t.rangeOf e.row) with
      | some r => s.homeTile e.table r.1 == some tile
      | none => false))

/-- Whether a row's turn to fill has come: a row of the own coming batch at once, a row only served in this step after those
(R162). -/
def State.fillTurn (s : State) (tile table row : Nat) : Bool :=
  s.emb.next.unique.any (fun e => e.table == table && e.row == row && e.owner == s.me) || (s.emb.next.done && !s.ownRowsLeft tile)

/-- Every segment record of a row in HBM, and the blocks that failed. -/
def State.readSegments (s : State) (t : TableVer) (row : Nat) : State × List Bytes × List Nat :=
  (List.range t.segs).foldl (fun (acc : State × List Bytes × List Nat) g =>
    let r := acc.1.readRecord (t.recordAddr row g) t.rs 0
    (r.1, acc.2.1 ++ [r.2.getD []], acc.2.2 ++ (if r.2.isSome then [] else [t.recordAddr row g / 512]))) (s, [], [])

/-- A row enters a tile's cache as HBM holds it; a block that fails is a check fault and fills nothing. -/
def State.enterCache (s : State) (t : TableVer) (tile row : Nat) : State :=
  let r := s.readSegments t row
  if r.2.2 = [] then
    { r.1 with mem.rowCache := r.1.mem.rowCache.filter (fun e => e.tile != tile || e.table != t.id || e.row != row)
        ++ [⟨tile, t.id, row, BitVec.ofNat 16 (field (r.2.1.headD []) 8 2), r.2.1⟩] }
  else r.1.readFaults r.2.2 none

/-- ROW_CACHE_FILL on the state: an entry with the current step's tag is kept, and a full region takes no more. -/
def State.fillCache (s : State) (tile table row : Nat) : State :=
  match s.currentTable table with
  | none => s
  | some t =>
    match t.rangeOf row with
    | none => s
    | some r =>
      if r.2.owner ≠ s.me ∨ s.homeTile table r.1 ≠ some tile ∨ !s.cacheKeeps table row ∨ !s.fillTurn tile table row then s
      else
        let here := s.mem.rowCache.any (fun e => e.tile == tile && e.table == table && e.row == row && e.stepTag.toNat == s.stepTag)
        let rest : State := { s with mem.rowCache := s.mem.rowCache.filter (fun e => e.tile != tile || e.table != table || e.row != row) }
        if here ∨ s.cacheBytes tile < rest.cacheUsed tile + t.segs * t.rs then s else s.enterCache t tile row

/-- ROW_CACHE_FILL: the gather stage fills a home tile's cache with an owned row for the coming step (R162, R163). -/
def execRowCacheFill (tile : Fin 32) (table : Nat) (row : Nat) (s : State) : Host.Outcome State Fault Refusal :=
  .next (s.fillCache tile.val table row)

/-- At the tick that starts a step, entries in neither fill set are released (R162). -/
def State.releaseCache (s : State) : State :=
  { s with mem.rowCache := s.mem.rowCache.filter (fun e => s.cacheKeeps e.table e.row) }

/-! ## Row gradients (R161, R165) -/

/-- The gradient of a bag in binary32, as the stage programs left it. -/
def State.bagGradient (s : State) (p f dim : Nat) : List Nat :=
  match s.bagPlace f with
  | some pl => elements 4 dim (s.tileRead pl.tile.val (pl.gradAddr + p * dim * 4) (dim * 4))
  | none => List.replicate dim 0

/-- The contribution of lookup i of a bag of n to one element whose gradient is g (R161). -/
def contribution (mode g i : Nat) (vs : List (Nat × Nat)) : Nat × Flags :=
  match mode with
  | 0 => (g, Flags.none)
  | 1 => fDivInt binary32 .rne g vs.length
  | 3 => fMul binary32 .rne ((vs[i]?).getD (0, 0)).1 g
  | _ =>
    let best := (poolElem 2 vs).1
    (if vs.findIdx (fun v => v.2 == best) = i then g else 0, Flags.none)

/-- The contributions of a bag: for each valid lookup in ascending j, its slot and its element values. -/
def State.bagContributions (s : State) (p f : Nat) : List (Nat × Nat × List (Nat × Flags)) :=
  match s.bag p f with
  | none => []
  | some b =>
    let g := s.bagGradient p f b.table.dim
    (b.items.zipIdx).filterMap (fun it =>
      it.1.1.slot.map (fun sl => (b.table.id, sl, (List.range b.table.dim).map (fun e => contribution b.mode (g.getD e 0) it.2 (b.column e)))))

/-- The bags of the step in ascending (p, f). -/
def State.bags (s : State) : List (Nat × Nat) := (s.emb.now.lookups.map (fun l => (l.p, l.f))).eraseDups

/-- Element by element sum in binary32 by RNE; the first is loaded exactly. -/
def sumInto (acc : Option (List Nat)) (xs : List Nat) : List Nat × List Flags :=
  match acc with
  | none => (xs, [])
  | some a => let r := (a.zip xs).map (fun p => fAdd binary32 .rne p.1 p.2)
              (r.map (·.1), r.map (·.2))

/-- The exact partial of an element with one more contribution (R167). -/
def exactAdd (x : AccEntry) (c : Nat) : AccEntry :=
  (x.addChunk (match decodeNum binary32 c with
    | .nan _ => { nan := true }
    | .inf true => { ninf := true }
    | .inf false => { pinf := true }
    | y => { sum := y, loaded := true }) 0).1

/-- The flags of an entry as four bits (R120). -/
def AccEntry.flagBits (x : AccEntry) : BitVec 4 :=
  BitVec.ofNat 4 (b2n x.ovf + 2 * b2n x.nan + 4 * b2n x.pinf + 8 * b2n x.ninf)

/-- An entry from its integer and flags. -/
def AccEntry.ofBits (anchor : BitVec 10) (n : BitVec 160) (f : BitVec 4) : AccEntry :=
  { n := n, anchor := anchor, ovf := f.getLsbD 0, nan := f.getLsbD 1, pinf := f.getLsbD 2, ninf := f.getLsbD 3 }

/-- EXACT_MERGE of the plan. -/
def State.exactMerge (s : State) : Bool := (s.plan.map (fun p => bit 1 p.header.flags)).getD false

/-- This module's partials, one per unique row (R165, R167). -/
def State.formPartials (s : State) : State :=
  let cs := s.bags.flatMap (fun b => s.bagContributions b.1 b.2)
  let s0 := cs.foldl (fun (st : State) c => st.countExceptions (watchKey 2 c.1) (c.2.2.map (·.2))) s
  s.emb.now.unique.zipIdx.foldl (fun (st : State) e =>
    let mine := (cs.filter (fun c => c.2.1 == e.2)).map (fun c => c.2.2.map (·.1))
    if s.exactMerge then
      let anchor := ((s.currentTable e.1.table).map (·.anchor)).getD 0
      let dim := ((s.currentTable e.1.table).map (·.dim)).getD 0
      let zero : List AccEntry := List.replicate dim { anchor := anchor }
      let sum := mine.foldl (fun acc xs => (acc.zip xs).map (fun p => exactAdd p.1 p.2)) zero
      { st with emb.exact := st.emb.exact ++ [(s.me, e.1.table, e.1.row, sum.map (fun x => (x.n, x.flagBits)))] }
    else
      let r := mine.foldl (fun (acc : Option (List Nat) × List Flags) xs =>
        let y := sumInto acc.1 xs
        (some y.1, acc.2 ++ y.2)) (none, [])
      let st1 := st.countExceptions (watchKey 2 e.1.table) r.2
      { st1 with emb.partials := st1.emb.partials ++ [(s.me, e.1.table, e.1.row, (r.1.getD []).map (BitVec.ofNat 32))] })
    { s0 with emb.partials := [], emb.exact := [] }

/-- The body of a partials message for an owner: a count of 8 bytes, and for each row its list entry and its elements
(log 6). -/
def State.partialsBody (s : State) (owner : Nat) : Bytes :=
  let es := s.sendList owner
  leBytes 8 es.length ++ (es.map (fun e => e.encode ++
    (if s.exactMerge then
      ((s.emb.exact.find? (fun x => x.2.1 == e.table && x.2.2.1 == e.row)).map (fun x =>
        (x.2.2.2.map (fun v => leBytes 20 v.1.toNat ++ leBytes 1 v.2.toNat)).flatten)).getD []
    else
      ((s.emb.partials.find? (fun x => x.2.1 == e.table && x.2.2.1 == e.row)).map (fun x =>
        (x.2.2.2.map (fun v => leBytes 4 v.toNat)).flatten)).getD []))).flatten

/-- The partials on their way: to the owner in the pen, or to the proxy, which is this module itself at its own position
(R165). -/
def State.sendPartials (s : State) : State :=
  (s.modules.filter (fun o => o != s.me)).foldl (fun (st : State) o =>
    let dst := st.firstHop o
    if dst = st.me then st.exchange o .partials st.me (st.partialsBody o) else st.exchange dst .partials o (st.partialsBody o)) s

/-- MERGE_PARTIAL: the partials are formed and sent (R165). -/
def State.mergePartial (s : State) : State := s.formPartials.sendPartials

/-- A proxy forwards its members' partials unchanged (R165). -/
def State.forwardPartials (s : State) : State :=
  (s.proxyFor).foldl (fun (st : State) o =>
    ((st.inbox .partials).filter (fun m => m.src / 8 == st.me / 8 && m.num % 65536 == o)).foldl (fun (st : State) m =>
      st.exchange o .partials m.src m.data) st) s

/-- Where a module's partials come from: the module in this pen, or its proxy at this position (R165). -/
def State.partialSource (s : State) (m : Nat) : Nat × Nat := if m / 8 = s.me / 8 then (m, s.me) else (m / 8 * 8 + s.me % 8, m)

/-- Every remote row-gradient contribution owed to this module has arrived (R51). -/
def State.partialsArrived (s : State) : Bool :=
  (s.modules.filter (fun m => m != s.me)).all (fun m => (s.received .partials (s.partialSource m).1 (s.partialSource m).2).isSome)

/-! ## Merge (R166, R167) -/

/-- The rows of a partials message with their element bytes. -/
def State.cutPartials (s : State) : Nat → Bytes → List (Nat × Nat × Bytes)
  | 0, _ => []
  | n + 1, b =>
    let e := RowRef.decode s.me (slice b 0 16)
    let len := ((s.currentTable e.table).map (·.dim)).getD 0 * (if s.exactMerge then 21 else 4)
    (e.table, e.row, slice b 16 len) :: State.cutPartials s n (b.drop (16 + len))

/-- Every partial owed to this module, ascending by source, its own included: (table, row, element bytes). -/
def State.allPartials (s : State) : List (Nat × Nat × Bytes) :=
  (s.modules).flatMap (fun m =>
    if m = s.me then
      let b := s.partialsBody s.me
      s.cutPartials (field b 0 8) (b.drop 8)
    else
      match s.received .partials (s.partialSource m).1 (s.partialSource m).2 with
      | some x => s.cutPartials (field x.data 0 8) (x.data.drop 8)
      | none => [])

/-- The merged gradient of one owned row in binary32 (R166). -/
def mergeRow (dim : Nat) (ps : List Bytes) : List Nat × List Flags :=
  let r := ps.foldl (fun (acc : Option (List Nat) × List Flags) p =>
    let y := sumInto acc.1 (elements 4 dim p)
    (some y.1, acc.2 ++ y.2)) (none, [])
  (r.1.getD [], r.2)

/-- The exact merge of one owned row (R167), with what the readout signals and whether OVF is set. -/
def mergeExact (anchor : BitVec 10) (dim : Nat) (ps : List Bytes) : List Nat × List Flags × Bool :=
  let es := ps.foldl (fun (acc : List AccEntry) p =>
    (acc.zipIdx).map (fun x => (x.1.join (AccEntry.ofBits anchor (BitVec.ofNat 160 (field p (21 * x.2) 20)) (BitVec.ofNat 4 (field p (21 * x.2 + 20) 1)))).1))
    (List.replicate dim { anchor := anchor })
  let rs := es.map (fun x => readEntry x binary32 .rne false 0x3F80 0x3F80 0)
  (rs.map (·.1), rs.map (·.2), es.any (·.ovf))

/-- A row's merged gradient goes from the merge stage's buffer to the tile store for the sweep (R25, R166). -/
def State.putMerged (s : State) (e : RowRef) (xs : List Nat) : State :=
  { s with
    emb.mergeBuffer := xs.map (BitVec.ofNat 32)
    emb.merged := s.emb.merged ++ [(e.table, e.row, xs.map (BitVec.ofNat 32))] }

/-- MERGE_PHASE_START's merge: the owner sums the partials of each owned unique row. -/
def State.mergeRows (s : State) : State :=
  let all := s.allPartials
  s.emb.now.owned.foldl (fun (st : State) e =>
    match st.currentTable e.table with
    | none => st
    | some t =>
      let ps := (all.filter (fun p => p.1 == e.table && p.2.1 == e.row)).map (fun p => p.2.2)
      if st.exactMerge then
        let r := mergeExact t.anchor t.dim ps
        let st1 := st.countExceptions (watchKey 2 e.table) r.2.1
        (if r.2.2 then st1.raiseOnce e.table 0x3301 0 e.table e.row else st1).putMerged e r.1
      else
        let r := mergeRow t.dim ps
        (st.countExceptions (watchKey 2 e.table) r.2).putMerged e r.1) { s with emb.merged := [] }

end Sys2Proof.Machine
end

