-- ==== Sys2Proof/Machine/Exchange.lean ====
section
/-! DEFINITION. The exchange stage's operations (R286): SEND, ALL_TO_ALL, REDUCE and ALL_GATHER of dense gradients (R131,
R132, R288), GATHER of shards (R289), and RING_PASS of history blocks (R229, R230); and the appended positions on their
way to their holders (R226). -/

namespace Sys2Proof.Machine

/-! ## Messages that the plan orders -/

/-- Send the next message of a kind to a module: its identifier is its place among them in the step (log 6). -/
def State.sendNext (s : State) (dst : Nat) (k : MsgKind) (us : List (Bytes × Word)) : State :=
  let n := NMap.getD s.fab.sentNo (countKey dst k) 0
  ({ s with fab.sentNo := NMap.insert s.fab.sentNo (countKey dst k) (n + 1) } : State).exchangeUnits dst k n us

/-- The next message of a kind from a module, when it is visible. -/
def State.nextFrom (s : State) (src : Nat) (k : MsgKind) : Option Msg := s.received k src (NMap.getD s.fab.gotNo (countKey src k) 0)

/-- A message of a kind from a module has been consumed. -/
def State.consumed (s : State) (src : Nat) (k : MsgKind) : State :=
  { s with fab.gotNo := NMap.modify s.fab.gotNo (countKey src k) 0 (· + 1) }

/-- A byte string as block units without tags. -/
def plainUnits (b : Bytes) : List (Bytes × Word) := (units (b.length / 512 + 1) b).map (fun u => (u, 0))

/-! ## SEND -/

/-- SEND: DONE, READY, APPEND_DONE, digests and control, to a module (R286). -/
def execSend (dst : BitVec 12) (kind : Nat) (body : Bytes) (s : State) : Host.Outcome State Fault Refusal :=
  .next ((s.emit (.message dst.toNat kind body)).sendControl dst.toNat kind body)

/-! ## Appended positions (R226) -/

/-- Whether the module of a pen position holds the block of an append. -/
def Append.holder (n : Nat) (a : Append) : Nat := holderOf n a.user (a.position / 512)

/-- One append as bytes: set, layer, value, user, position, scales and elements (log 6). -/
def Append.encode (a : Append) : Bytes :=
  leBytes 2 a.set ++ leBytes 1 a.layer ++ leBytes 1 (b2n a.isValue) ++ leBytes 4 a.user ++ leBytes 8 a.position ++ a.scales ++ a.elems

/-- The appends of a received message: a count of 8 bytes and the appends. -/
def State.decodeAppends (s : State) : Nat → Bytes → List Append
  | 0, _ => []
  | n + 1, b =>
    let set := field b 0 2
    let w := ((s.histSet set).map hWidth).getD 0
    ⟨set, field b 4 4, field b 8 8, field b 2 1, bit 0 (field b 3 1), slice b 16 (w / 32), slice b (16 + w / 32) w⟩
      :: State.decodeAppends s n (b.drop (16 + w / 32 + w))

/-- The appends that this module's stage programs have produced in the step. -/
def State.ownAppends (s : State) : List Append :=
  ((s.plan.map (fun p => p.layout.appendAt)).getD []).flatMap (fun pl =>
    match s.histSet pl.set with
    | none => []
    | some h =>
      let w := hWidth h
      ((s.ownEvents h).zipIdx).map (fun e =>
        ⟨pl.set, e.1.1, e.1.2, pl.layer, pl.isValue, s.tileRead pl.tile.val (pl.scaleAddr + e.2 * (w / 32)) (w / 32),
          s.tileRead pl.tile.val (pl.addr + e.2 * w) w⟩))

/-- The body of an append message. -/
def appendsBody (as : List Append) : Bytes := leBytes 8 as.length ++ (as.map Append.encode).flatten

/-- Send each append to the module whose stretch holds its position; this module's own are kept. -/
def State.sendAppends (s : State) : State :=
  if s.histSets.isEmpty then s
  else
    let as := s.ownAppends
    let s1 : State := { s with hist.appends := as.filter (fun a => a.holder s.penSize == s.penPos) }
    s1.penPeers.foldl (fun (st : State) m =>
      st.exchange m .append 0 (appendsBody (as.filter (fun a => a.holder s.penSize == m % 8)))) s1

/-! ## ALL_TO_ALL -/

/-- What the end of phase 1 and phase 2 do with the lists: the user lists take effect and LENGTH_0 is read (R224), and the
owner reads each unique row once and returns it to each requester (R158). -/
def State.serveRows (s : State) : State :=
  (({ s with hist.users := s.allUsers } : State).readLengths).readOwned.returnRows

/-- ALL_TO_ALL on the state. Rows leave once phase 2 has read them, partials are forwarded as they arrive, and appends
leave in phase 5. -/
def State.allToAll (s : State) (k : A2AKind) : State :=
  match k with
  | .sendLists => if s.phase = 0 then s else s.sendLists
  | .userLists => if s.phase = 0 then s else s.sendUserLists
  | .rows => if s.inEvaluation then s.serveRows.forwardRows
             else if s.seq.phases.started.contains 2 then s.returnRows.forwardRows else s.forwardRows
  | .partials => s.forwardPartials
  | .appends => if s.seq.phases.started.contains 5 then s.sendAppends else s

/-- ALL_TO_ALL: the exchange stage sends each module its message (R286): send lists and user lists of phase 1 (R156, R228),
returned rows (R158), row-gradient partials (R165) or appends (R226). -/
def execAllToAll (k : A2AKind) (s : State) : Host.Outcome State Fault Refusal := .next (s.allToAll k)

/-! ## REDUCE and ALL_GATHER (R131, R132, R288) -/

/-- A slot as a stored tile holds it. -/
def storedSlot (b : Bytes) : Slot × Bool := (Slot.init (BitVec.ofNat 10 (field b 196608 2))).joinBytes b

/-- Mode of the plan's dense reductions: EXACT_REDUCE of its header (R57). -/
def State.exactReduce (s : State) : Bool := (s.plan.map (fun p => bit 2 p.header.flags)).getD false

/-- What the READ of a partial tile counts and raises (R130, R132, R243). -/
def State.readTile (s : State) (tensor tile : Nat) (x : Slot) : State :=
  let key := s.tensorKey tensor
  let rs := (List.range 8192).map (fun i => readEntry (x.entry i) binary32 .rne false 0x3F80 0x3F80 0)
  let s1 := (s.countExceptions key (rs.map (·.2))).setWatch key (fun v => { v with counts := { v.counts with
    accLoss := satAdd v.counts.accLoss x.loss.toNat, accChunks := satAdd v.counts.accChunks x.chunks.toNat } })
  let s2 := if x.ovf then
      ({ s1 with seq.stats.accOvf := s1.seq.stats.accOvf + 1 } : State).raiseOnce (8192 + tile) 0x2201 (unitExchange tile) tensor
    else s1
  if x.chunks.toNat < 1024 * x.loss.toNat then
    ({ s2 with seq.stats.accLoss := s2.seq.stats.accLoss + 1 } : State).raiseOnce (8192 + tile) 0x2202 (unitExchange tile) tensor
  else s2

/-- The replicas other than this module's, ascending. -/
def State.otherReplicas (s : State) : List Nat := (List.range s.replicas).filter (fun r => r != s.replica)

/-- The reduced tile takes its place: 32,768 bytes of binary32 at `addr`, and the gradient of its elements. -/
def State.placeTile (s : State) (tensor t tile addr : Nat) (vs : List Nat) : State :=
  let s1 := s.tileWrite tile addr (elementBytes 4 vs)
  { s1 with
    emb.denseGrad := vs.zipIdx.foldl (fun m v => NMap.insert m (tensor * 2 ^ 53 + t * 8192 + v.2) (BitVec.ofNat 32 v.1)) s1.emb.denseGrad
    fab.reducing := s1.fab.reducing.filter (fun e => e != (tensor, t)) }

/-- The fast combination (R132, R288): the first partial exactly, each other added in binary32 by RNE. -/
def fastSum (ps : List (List Nat)) : List Nat × List Flags :=
  let r := ps.foldl (fun (acc : Option (List Nat) × List Flags) p =>
    let y := sumInto acc.1 p
    (some y.1, acc.2 ++ y.2)) (none, [])
  (r.1.getD [], r.2)

/-- A sum of squares goes on over binary32 elements, each operation in binary64 by RNE (R248). -/
def addSquares (acc : Long) (vs : List Nat) : Long :=
  BitVec.ofNat 64 (vs.foldl (fun a v => let x := to64 (decodeNum binary32 v)
                                        add64 a (mul64 x x)) acc.toNat)

/-- The local gradient elements that a module contributes, read to binary32, enter L (R248). -/
def State.contribute (s : State) (vs : List Nat) : State := { s with watch.lLocal := addSquares s.watch.lLocal vs }

/-- The reduced elements of a root enter G (R248). -/
def State.rooted (s : State) (vs : List Nat) : State := { s with watch.gLocal := addSquares s.watch.gLocal vs }

/-- The root combines the partials of every replica (R288): its own first, then in ascending replica. R288 leaves the order open, and it
shows where OVF saturates (DESIGN CHOICE, log 48). -/
def State.reduceRoot (s : State) (tensor t tile addr : Nat) : State :=
  let own := s.tileRead tile addr 197120
  let others := s.otherReplicas.map (fun r => (r, s.nextFrom (s.replicaModule r) .reduce))
  if others.any (fun o => o.2.isNone) then { s with fab.reducing := (tensor, t) :: s.fab.reducing.filter (fun e => e != (tensor, t)) }
  else
    let got := others.map (fun o => (o.1, (o.2.map Msg.data).getD []))
    let s1 := (s.otherReplicas.foldl (fun (st : State) r => st.consumed (st.replicaModule r) .reduce) s).contribute
      (storedSlot own).1.binary32s
    if s.exactReduce then
      let r := got.foldl (fun (acc : Slot × Bool) p =>
        let j := acc.1.joinBytes (expandPartial p.2)
        (j.1, acc.2 || j.2)) (storedSlot own)
      let s2 := s1.readTile tensor tile r.1
      ((if r.2 then s2.raise 0x2203 (unitExchange tile) tensor else s2).rooted r.1.binary32s).placeTile tensor t tile addr r.1.binary32s
    else
      let mine := (storedSlot own).1
      let part := fun r => if r = s.replica then mine.binary32s
                           else elements 4 8192 (((got.find? (fun g => g.1 == r)).map (·.2)).getD [])
      let sum := fastSum ((List.range s.replicas).map part)
      (((s1.readTile tensor tile mine).countExceptions (s.tensorKey tensor) sum.2).rooted sum.1).placeTile tensor t tile addr sum.1

/-- A replica that is not the root sends its partial: the exact partial, or binary32 with the status block (R131, R132). -/
def State.reducePart (s : State) (tensor t tile addr root : Nat) : State :=
  let b := s.tileRead tile addr 197120
  let x := (storedSlot b).1
  let s1 := ({ s with fab.reducing := (tensor, t) :: s.fab.reducing } : State).contribute x.binary32s
  if s.exactReduce then s1.sendNext root .reduce (plainUnits x.partialBytes)
  else (s1.readTile tensor tile x).sendNext root .reduce (plainUnits (elementBytes 4 x.binary32s ++ slice b 196608 512))

/-- Whether the reduced gradient of a tile has its place. -/
def State.hasTile (s : State) (tensor t : Nat) : Bool := (NMap.find? s.emb.denseGrad (tensor * 2 ^ 53 + t * 8192)).isSome

/-- REDUCE on the state: tile t has its root at replica t mod n_rep. Each partial goes once. -/
def State.reduceTile (s : State) (tensor t tile addr : Nat) : State :=
  let root := s.replicaModule (t % s.replicas)
  if s.hasTile tensor t then s
  else if root = s.me then s.reduceRoot tensor t tile addr
  else if s.fab.reducing.contains (tensor, t) then s
  else s.reducePart tensor t tile addr root

/-- REDUCE: a dense gradient tile is reduced over the replicas (R288); the partial is the stored tile at `addr`, where the
root leaves the result. -/
def execReduce (tensor t : Nat) (tile : Fin 32) (addr : Nat) (s : State) : Host.Outcome State Fault Refusal :=
  if tileRange addr 197120 then .next (s.reduceTile tensor t tile.val addr) else .fault .tileStoreRange

/-- ALL_GATHER on the state: the root sends the reduced tile, every other replica places it. -/
def State.gatherTile (s : State) (tensor t tile addr : Nat) : State :=
  let root := s.replicaModule (t % s.replicas)
  if root = s.me then
    if s.fab.reducing.contains (tensor, t) then s
    else s.otherReplicas.foldl (fun (st : State) r =>
      st.sendNext (st.replicaModule r) .allGather (plainUnits (st.tileRead tile addr 32768))) s
  else
    match s.nextFrom root .allGather with
    | some m => (s.consumed root .allGather).placeTile tensor t tile addr (elements 4 8192 m.data)
    | none => s

/-- ALL_GATHER: the root's reduced tile goes to every replica (R286, R288). -/
def execAllGather (tensor t : Nat) (tile : Fin 32) (addr : Nat) (s : State) : Host.Outcome State Fault Refusal :=
  if tileRange addr 32768 then .next (s.gatherTile tensor t tile.val addr) else .fault .tileStoreRange

/-! ## Widening on arrival (R95, R102) -/

/-- YS8 blocks of one data check block as YF16, by the 16 scale bytes of its blocks; NaN when its tags do not stand. A value
that YF16 cannot hold is rounded to it by RNE and counted nowhere: the manual calls the widening exact and says nothing of
such values (DESIGN CHOICE, log 37). -/
def widenYs8 (good : Bool) (scales data : Bytes) : List Nat :=
  (List.range 512).map (fun i =>
    if good then ((ys8Elem (field scales (i / 32) 1) (field data i 1)).round yf16 .rne false).1 else yf16.genNaN)

/-- How many of a check block's 16 blocks are poisoned by their scale. -/
def poisonedScales (scales : Bytes) (n : Nat) : Nat := (List.range n).countP (fun i => field scales i 1 == 255)

/-- A data check block of YS8 enters the watch (R99, R102): of a good one its poisoned blocks, of one whose tags or reads fail
SCALE_SKEW and all `live` blocks. -/
def State.ys8Seen (s : State) (good : Bool) (u : Half) (stream key poisoned live : Nat) : State :=
  if good then s.countPoison 0x2101 key poisoned else (s.raise 0x2103 u stream).countPoison 0x2101 key live

/-! ## GATHER (R289) -/

/-- The contents of a failed block as a stage takes them: poisoned, so NaN of the format (R311). -/
def poisonedBlock (fmt : Nat) : Bytes :=
  if fmt = 4 then List.replicate 512 0x7F else if fmt = 5 then List.replicate 512 0x7E
  else (List.replicate 256 (leBytes 2 yf16.genNaN)).flatten

/-- A check block of the source: from HBM, or from a tile store. -/
def State.shardBlock (s : State) (c : ShardCopy) (addr : Nat) : State × BlockRead :=
  if c.fromHbm then s.readBlock (addr / 512) 0
  else (s, ⟨true, s.tileRead c.srcTile.val (addr / 512 * 512) 512, s.tileTag c.srcTile.val addr⟩)

/-- The block as a failed one. -/
def BlockRead.failedBlock (r : BlockRead) (addr : Nat) : List Nat := if r.ok then [] else [addr / 512]

/-- Bytes of the source from an address on, check block by check block, and the blocks that failed. -/
def State.shardBytes : Nat → State → ShardCopy → Nat → Nat → State × Bytes × List Nat
  | 0, s, _, _, _ => (s, [], [])
  | fuel + 1, s, c, addr, len =>
    if len = 0 then (s, [], [])
    else
      let n := min len (512 - addr % 512)
      let r := s.shardBlock c addr
      let rest := State.shardBytes fuel r.1 c (addr + n) (len - n)
      (rest.1, slice (if r.2.ok then r.2.data else poisonedBlock c.fmt) (addr % 512) n ++ rest.2.1, r.2.failedBlock addr ++ rest.2.2)

/-- The unit that a fault of a shard's source is charged to. -/
def State.shardUnit (s : State) (c : ShardCopy) : Half :=
  if c.fromHbm then unitChannel (s.place (c.src / 512)).1 else unitTileStore c.srcTile.val

/-- What the reading of a YS8 shard has come to: the YF16 elements, the blocks that failed, and whether a tag did not stand. -/
structure ShardRead where
  elems : List Nat := []
  failed : List Nat := []
  skew : Bool := false
  deriving DecidableEq, Repr

/-- One data check block of a YS8 shard with its scale check block, tags checked first (R102). -/
def State.shardPart (s : State) (c : ShardCopy) (a : ShardRead) (i : Nat) : State × ShardRead :=
  let t := ys8Tags c.stream (c.firstBlock + 16 * i)
  let d := s.shardBlock c (c.src + 512 * i)
  let sc := d.1.shardBlock c (c.srcScale + 16 * i)
  let skew := (d.2.ok && d.2.tag != t.1) || (sc.2.ok && sc.2.tag != t.2)
  let good := d.2.ok && sc.2.ok && !skew
  let scales := slice sc.2.data ((c.srcScale + 16 * i) % 512) 16
  let live := min 16 (ceilDiv (c.n - 512 * i) 32)
  (sc.1.ys8Seen good (s.shardUnit c) c.stream (s.tensorKey c.tensor) (poisonedScales scales live) live,
    { elems := a.elems ++ (widenYs8 good scales d.2.data).take (c.n - 512 * i)
      failed := a.failed ++ d.2.failedBlock (c.src + 512 * i) ++ sc.2.failedBlock (c.srcScale + 16 * i)
      skew := a.skew || skew })

/-- The YF16 elements of a YS8 shard. -/
def State.shardYs8 (s : State) (c : ShardCopy) : State × List Nat :=
  let r := (List.range (ceilDiv c.n 512)).foldl (fun (a : State × ShardRead) i => a.1.shardPart c a.2 i) (s, {})
  (r.1.readFaults r.2.failed (if r.2.skew then some (s.shardUnit c) else none), r.2.elems)

/-- The bytes that reach the destination: a YF16 shard unchanged, a narrower one widened to YF16. -/
def State.shardData (s : State) (c : ShardCopy) : State × Bytes :=
  if c.fmt = 6 then
    let r := s.shardYs8 c
    (r.1, elementBytes 2 r.2)
  else if c.fmt = 4 ∨ c.fmt = 5 then
    let r := s.shardBytes (c.n / 256 + 2) c c.src c.n
    (r.1.readFaults r.2.2 none,
      elementBytes 2 ((elements 1 c.n r.2.1).map (fun e => (convert (if c.fmt = 4 then yf8e4 else yf8e5) yf16 .rne false 0 e).1)))
  else
    let r := s.shardBytes (c.n / 128 + 2) c c.src (2 * c.n)
    (r.1.readFaults r.2.2 none, r.2.1)

/-- GATHER on the state: from the module's own memories to a tile store, or an activation to or from a module of the pen. -/
def State.gatherShard (s : State) (c : ShardCopy) : State :=
  match c.fromModule with
  | some m =>
    match s.nextFrom m.toNat .activation with
    | some x => (s.consumed m.toNat .activation).tileWrite c.dstTile.val c.dst (slice x.data 0 (2 * c.n))
    | none => s
  | none =>
    let r := s.shardData c
    match c.toModule with
    | some m => r.1.sendNext m.toNat .activation (plainUnits r.2)
    | none => r.1.tileWrite c.dstTile.val c.dst r.2

/-- Source bytes of a shard's data. -/
def shardLen (c : ShardCopy) : Nat := if c.fmt = 3 then 2 * c.n else c.n

/-- Whether a shard's source exists. -/
def State.shardSource (s : State) (c : ShardCopy) (limit : Nat) : Bool :=
  c.fromModule.isSome || (decide (c.src + shardLen c ≤ limit) && (c.fmt != 6 || decide (c.srcScale + c.n / 32 ≤ limit)))

/-- GATHER: the exchange stage copies a shard of a layer's working copy into a parameter region, widening a narrow one
(R289, R95, R102). -/
def execGather (c : ShardCopy) (s : State) : Host.Outcome State Fault Refusal :=
  if c.fromHbm && !s.shardSource c (s.blockCount * 512) then .fault .hbmRange
  else if (!c.fromHbm && !s.shardSource c tileBytes) || (c.toModule.isNone && !tileRange c.dst (2 * c.n)) then .fault .tileStoreRange
  else .next (s.gatherShard c)

/-! ## RING_PASS (R229, R230) -/

/-- Check blocks of each part that a block sends: the data check blocks with a window position, and their scale check
blocks. -/
def ringBlocks (h : Bytes) (positions part : Nat) : Nat :=
  let d := ceilDiv (positions * hWidth h) 512
  if part < 2 then d else ceilDiv d 32

/-- What the reading of a history block has come to: its check blocks with the tags they read, and the blocks that failed. -/
structure RingRead where
  units : List (Bytes × Word) := []
  failed : List Nat := []
  deriving DecidableEq, Repr

/-- One check block more. -/
def State.ringBlock (s : State) (a : RingRead) (b : Nat) : State × RingRead :=
  let r := s.readBlock b 0
  (r.1, { units := a.units ++ [if r.2.ok then (r.2.data, r.2.tag) else (List.replicate 512 0, 0)]
          failed := a.failed ++ (if r.2.ok then [] else [b]) })

/-- The check blocks of a history block in the order sent (R229): key data, value data, key scales, value scales. -/
def State.ringAddrs (s : State) (h : Bytes) (user layer b : Nat) : List Nat :=
  (List.range 4).flatMap (fun part => (List.range (ringBlocks h (s.windowPositions h user b) part)).map (fun i =>
    (blockAddr h s.penSize user b layer + partOffset h part) / 512 + i))

/-- The check blocks of a history block, each with the tag it reads; a block that fails its reads has none that fits, and is
reported. -/
def State.ringRead (s : State) (h : Bytes) (user layer b : Nat) : State × List (Bytes × Word) :=
  let r := (s.ringAddrs h user layer b).foldl (fun (a : State × RingRead) x => a.1.ringBlock a.2 x) (s, {})
  (r.1.readFaults r.2.failed none, r.2.units)

/-- A received or read unit of a history block: its data and its tag. -/
def ringUnit (us : List (Bytes × Word)) (i : Nat) : Bytes × Word := us.getD i ([], 0)

/-- Whether the tags of data check block i of keys or values stand, with those of its scales (R230). -/
def ringGood (h : Bytes) (n user layer b v nd ns i : Nat) (us : List (Bytes × Word)) : Bool :=
  decide ((ringUnit us (v * nd + i)).2 = partTag h n user b layer v i
    ∧ (ringUnit us (2 * nd + v * ns + i / 32)).2 = partTag h n user b layer (2 + v) (i / 32))

/-- A history block enters the exchange buffers as YF16: keys at `addr`, values behind a whole plane of keys. -/
def State.ringPlace (s : State) (h : Bytes) (user layer b tile addr : Nat) (u : Half) (us : List (Bytes × Word)) : State :=
  let np := s.windowPositions h user b
  let nd := ringBlocks h np 0
  let ns := ringBlocks h np 2
  let n := s.penSize
  (List.range 2).foldl (fun (st : State) v =>
    (List.range nd).foldl (fun (st : State) i =>
      let scales := slice (ringUnit us (2 * nd + v * ns + i / 32)).1 (16 * (i % 32)) 16
      let stream := field h 14 2 + 2 * layer + v
      let good := ringGood h n user layer b v nd ns i us
      (st.ys8Seen good u stream (st.tensorKey stream) (poisonedScales scales 16) 16).tileWrite tile
        (addr + v * 1024 * hWidth h + 1024 * i) (elementBytes 2 (widenYs8 good scales (ringUnit us (v * nd + i)).1))) st) s

/-- Whether a history block that arrives has a tag that does not stand (R230). -/
def State.ringSkew (s : State) (h : Bytes) (user layer b : Nat) (us : List (Bytes × Word)) : Bool :=
  let np := s.windowPositions h user b
  let nd := ringBlocks h np 0
  (List.range 2).any (fun v => (List.range nd).any (fun i => !ringGood h s.penSize user layer b v nd (ringBlocks h np 2) i us))

/-- Whether a check block of a history block fails its reads. -/
def State.ringFailed (s : State) (h : Bytes) (user layer b : Nat) : Bool := (s.ringAddrs h user layer b).any (fun x => (s.blockAt x).isNone)

/-- What a history block's reader reports: a failure of its tags as one check fault; one whose reads failed has reported
those. -/
def State.ringReport (s : State) (skew read : Bool) (u : Half) : State := if skew && !read then s.checkFault u else s

/-- Whether key a comes before key b, their entries compared in order. -/
def keyBefore : List Nat → List Nat → Bool
  | x :: xs, y :: ys => decide (x < y) || (x == y && keyBefore xs ys)
  | _, _ => false

/-- The micro-batches that a module's ring sends go through: those of phase 3 and again those of phase 4, or those of the evaluation
slot's forward pass (R229). -/
def State.ringTurns (s : State) : Nat := if s.inEvaluation then s.microBatches else 2 * s.microBatches

/-- The record of pass p's sends after one of (layer, set, user, block) (R229): a send that does not follow the last one in the nested
orders begins the next micro-batch; none when there is no further one. The samples of a micro-batch are the plan's, so that which users
it sends is the command's (log 45). -/
def State.ringNext (s : State) (p : Nat) (key : List Nat) : Option (List Nat) :=
  match NMap.find? s.hist.ringSent p with
  | some (turn :: last) =>
    if keyBefore last key then some (turn :: key) else if turn + 1 < s.ringTurns then some ((turn + 1) :: key) else none
  | _ => some (0 :: key)

/-- The holder reads a history block and sends it in pass p, when its turn has come (R229). -/
def State.ringSend (s : State) (p : Nat) (h : Bytes) (user layer b : Nat) : State :=
  match s.ringNext p [layer, field h 0 2, user, b] with
  | some k =>
    let r := s.ringRead h user layer b
    ({ r.1 with hist.ringSent := NMap.insert r.1.hist.ringSent p k } : State).sendNext (s.me / 8 * 8 + (s.penPos + p) % s.penSize) .ring r.2
  | none => s

/-- RING_PASS on the state: the holder reads its own block in pass 0 or sends it, the module p positions behind the
receiver being the holder. -/
def State.ringPass (s : State) (p : Nat) (h : Bytes) (user layer b tile addr : Nat) : State :=
  let n := s.penSize
  let holder := holderOf n user b
  let pen := s.me / 8 * 8
  if s.windowPositions h user b = 0 then s
  else if holder = s.penPos then
    let r := s.ringRead h user layer b
    let u := unitChannel (s.place (blockAddr h n user b layer / 512)).1
    if p = 0 then
      (r.1.ringPlace h user layer b tile addr u r.2).ringReport (s.ringSkew h user layer b r.2) (s.ringFailed h user layer b) u
    else s.ringSend p h user layer b
  else if (holder + p) % n = s.penPos then
    match s.nextFrom (pen + holder) .ring with
    | some m => ((s.consumed (pen + holder) .ring).ringPlace h user layer b tile addr (unitExchange tile) m.tagged).ringReport
        (s.ringSkew h user layer b m.tagged) false (unitExchange tile)
    | none => s
  else s

/-- RING_PASS: one history block of pass p is read, sent or received (R229); the receiver checks its tags and widens it to
YF16 (R230). -/
def execRingPass (p : Fin 8) (set user layer block : Nat) (tile : Fin 32) (addr : Nat) (s : State) : Host.Outcome State Fault Refusal :=
  match s.histSet set with
  | none => .next s
  | some h =>
    if tileRange addr (2048 * hWidth h) then .next (s.ringPass p.val h user layer block tile.val addr) else .fault .tileStoreRange

end Sys2Proof.Machine
end

