-- ==== Sys2Proof/Machine/Export.lean ====
section
/-! DEFINITION. The export stream (R396 to R403): arming and stopping it (R398), the items of the base pass, the entries
of the EXPORT ring (R399, R400, R402), and what the ends of sweeps and jobs do to it. -/

namespace Sys2Proof.Machine

/-! ## Items of the base pass (R396, R399) -/


/-- An export item without its payload. -/
def baseItem (kind id index : Nat) (part layer user sub : Nat) : ExportItem :=
  { kind := kind, id := id, part := part, layer := layer, index := index, user := user, sub := sub, payload := [] }

/-- Dense records, exported by replica 0. -/
def State.baseDense (s : State) : List ExportItem :=
  if s.replica = 0 then
    (((s.plan.map (fun p => p.layout.dense)).getD []).mergeSort (fun a b => decide (a.id ≤ b.id))).flatMap (fun d =>
      (List.range d.blocks).map (fun b => baseItem 1 d.id b 0 0 0 0))
  else []

/-- Table segment records of current versions that this module owns. -/
def State.baseRows (s : State) : List ExportItem :=
  (s.tableIds.filterMap s.currentTable).flatMap (fun t =>
    (s.ownedRanges t).flatMap (fun r => (List.range (r.1.last - r.1.first)).flatMap (fun x =>
      (List.range t.segs).map (fun g => baseItem 2 t.id (rowIndex (r.1.first + x) g) 0 0 0 0))))

/-- The window blocks that this module holds of a user, by the user record as it stands. -/
def State.heldBlocks (s : State) (h : Bytes) (user : Nat) : List Nat :=
  match s.peek (userAddr h user) 16 with
  | some r =>
    let l := field r 0 6
    let nb := ceilDiv l 512
    ((List.range (min nb (hCap h))).map (fun i => nb - min nb (hCap h) + i)).filter (fun b => holderOf s.penSize user b == s.penPos)
  | none => []

/-- History check blocks of a set that this module holds, data (parts 0 and 1) or scales (parts 2 and 3). -/
def State.baseHistory (s : State) (h : Bytes) (kind first : Nat) : List ExportItem :=
  ((List.range (hUsers h)).flatMap (fun u => (s.heldBlocks h u).flatMap (fun b =>
    (List.range (hLayers h)).flatMap (fun l => (List.range 2).flatMap (fun v =>
      (List.range (partBlocks h (first + v))).map (fun i => baseItem kind (field h 0 2) b (first + v) l u i)))))).mergeSort
    (fun a b => decide (a.index ≤ b.index))

/-- The history sets in ascending identifier. -/
def State.sortedSets (s : State) : List Bytes := s.histSets.mergeSort (fun a b => decide (field a 0 2 ≤ field b 0 2))

/-- Every exportable record once, in ascending KIND, ID and index. -/
def State.baseItems (s : State) : List ExportItem :=
  s.baseDense ++ s.baseRows ++ s.sortedSets.flatMap (fun h => s.baseHistory h 3 0)
    ++ s.sortedSets.flatMap (fun h => s.baseHistory h 4 2)
    ++ (if s.penPos = 0 then s.sortedSets.flatMap (fun h => (List.range (hUsers h)).map (fun u => baseItem 5 (field h 0 2) 0 0 0 u 0))
        else [])

/-- Where the record of a base item lies: address and length; none for one that the module no longer exports. -/
def State.itemPlace (s : State) (i : ExportItem) : Option (Nat × Nat) :=
  match i.kind with
  | 1 => (s.dense i.id).map (fun d => (denseAddr d i.index, denseSize d.planes))
  | 2 => (s.currentTable i.id).map (fun t => (t.recordAddr (i.index % 2 ^ 40) (i.index / 2 ^ 40), t.rs))
  | 5 => (s.histSet i.id).map (fun h => (userAddr h i.user, 16))
  | _ => (s.histSet i.id).bind (fun h =>
      if (s.heldBlocks h i.user).contains i.index then
        some (blockAddr h s.penSize i.user i.index i.layer + partOffset h i.part + 512 * i.sub, 512)
      else none)

/-- An item with its payload read from HBM; FAILED with a zero payload when its three reads fail (R401, R403). -/
def State.loadItem (s : State) (i : ExportItem) (fails : Bool) : State × Option ExportItem :=
  match s.itemPlace i with
  | none => (s, none)
  | some p =>
    let r := s.readRecord p.1 p.2 (if fails then 3 else 0)
    (r.1, some (match r.2 with
      | some b => { i with payload := b }
      | none => { i with failed := true, payload := List.replicate p.2 0 }))

/-! ## Entries (R400, R402) -/

/-- Items that fit in one entry: up to 4,032 bytes. -/
def fitItems : Nat → List ExportItem → List ExportItem
  | _, [] => []
  | room, i :: r => if i.size ≤ room then i :: fitItems (room - i.size) r else []

/-- An entry: its header and its items, sealed in confidential mode. -/
def State.exportEntry (s : State) (items : List ExportItem) (step flags stepItems : Nat) : Bytes :=
  let tag := (s.jobMap.map (·.jobTag)).getD 0
  let enc := s.confidential
  let ad := leBytes 4 0x50584559 ++ leBytes 2 1 ++ leBytes 2 items.length ++ leBytes 6 step ++ leBytes 2 s.me
    ++ leBytes 8 s.rel.exp.entrySeq ++ leBytes 4 (flags + 8 * b2n enc) ++ leBytes 4 tag ++ leBytes 8 stepItems
  let plain := padTo 4032 (items.map ExportItem.encode).flatten
  let nonce := leBytes 4 tag ++ leBytes 8 s.rel.exp.entrySeq
  let body := if enc then Config.gcmEncrypt s.exportKey nonce plain else plain
  let mac := if enc then leBytes 16 (Config.gcmTag s.exportKey nonce ad plain).toNat else List.replicate 16 0
  let head := ad ++ mac ++ List.replicate 4 0
  head ++ leBytes 4 (crc32c (head ++ body)) ++ body

/-- Write an entry into the export ring. -/
def State.putExport (s : State) (items : List ExportItem) (step flags stepItems : Nat) : State :=
  let s1 := s.writeEntry s.rel.exp.queue 4096 (s.exportEntry items step flags stepItems)
  { s1 with rel.exp.entrySeq := s1.rel.exp.entrySeq + 1 }

/-! ## Starting and stopping (R398) -/

/-- The stream starts: logging begins, and the base pass. -/
def State.startStream (s : State) : State :=
  let s1 : State := { s with rel.exp := { s.rel.exp with
    mode := .base, armPending := false, logging := true, stepValid := false, step := 0, stopAfter := none
    log := [], logUsed := 0, stepItems := [], openSteps := [], base := s.baseItems, entrySeq := 0, armWaiter := none } }
  match s.rel.exp.armWaiter with
  | some w => s1.finishDesc w.1 w.2 0 0
  | none => s1

/-- The stream ends: the STOPs that wait complete. -/
def State.endStream (s : State) : State :=
  let s1 := s.rel.exp.stopWaiters.foldl (fun (st : State) w => st.finishDesc w.1 w.2 0 0) s
  { s1 with rel.exp := { s1.rel.exp with
      mode := .off, armPending := false, logging := false, stopAfter := none, log := [], logUsed := 0, stepItems := []
      openSteps := [], base := [], stopWaiters := [], waiting := false } }

/-- A stream whose logging has ended ends once its entries are written. -/
def State.settleStream (s : State) : State :=
  let e := s.rel.exp
  if e.stopAfter.isSome && !e.logging && e.openSteps.isEmpty then s.endStream else s

/-- Whether a stream is armed or an arm is pending. -/
def State.streamArmed (s : State) : Bool := s.rel.exp.mode == .base || s.rel.exp.mode == .delta || s.rel.exp.armPending

/-- Whether a step is in progress whose sweep has not ended. -/
def State.sweepAhead (s : State) : Bool :=
  (s.seq.job == .running || s.seq.job == .stopping) && !s.seq.phases.ended.contains 7

/-- EXPORT_ARM without STOP on the state. -/
def State.armExport (s : State) (q : Nat) : State :=
  match s.readyDesc q 5 with
  | none => s
  | some d =>
    if dFlag d.bytes then s
    else
      let x := s.queue (dTable d.bytes)
      if x.cls ≠ 3 ∨ x.mode ≠ .armed then s.failDesc q d.pos 0x6103
      else if s.streamArmed then s.failDesc q d.pos 0x7404
      else if s.exportLog.isNone then s.failDesc q d.pos 0x7405
      else
        let s1 := (s.setDesc q d.pos (fun y => { y with stage := .taken }))
        let s2 : State := { s1 with rel.exp.queue := dTable d.bytes, rel.exp.armWaiter := some (q, d.pos), rel.exp.stopWaiters := [] }
        if s.jobRuns then { s2 with rel.exp.armPending := true } else s2.startStream

/-- EXPORT_ARM: starts delta logging and the base pass into an export queue (R349, R397, R398). -/
def execExportArm (q : Fin 8192) (s : State) : Host.Outcome State Fault Refusal := .next (s.armExport q.val)

/-- EXPORT_ARM with STOP on the state. -/
def State.stopExport (s : State) (q : Nat) : State :=
  match s.readyDesc q 5 with
  | none => s
  | some d =>
    if !dFlag d.bytes then s
    else if !s.streamArmed then s.finishDesc q d.pos 0 0
    else if s.rel.exp.armPending then
      let s1 := match s.rel.exp.armWaiter with
        | some w => s.finishDesc w.1 w.2 0 0
        | none => s
      ({ s1 with rel.exp.armWaiter := none } : State).endStream.finishDesc q d.pos 0 0
    else
      let s1 := s.setDesc q d.pos (fun y => { y with stage := .taken })
      let s2 : State := { s1 with rel.exp.stopWaiters := s1.rel.exp.stopWaiters ++ [(q, d.pos)] }
      if s2.rel.exp.stopAfter.isSome then s2
      else if s2.sweepAhead then { s2 with rel.exp.stopAfter := some s2.seq.step }
      else ({ s2 with rel.exp.stopAfter := some (s2.rel.exp.lastEnded.getD 0), rel.exp.logging := false } : State).settleStream

/-- EXPORT_ARM_STOP: ends delta logging after the sweep of the last step that began before it (R398). -/
def execExportArmStop (q : Fin 8192) (s : State) : Host.Outcome State Fault Refusal := .next (s.stopExport q.val)

/-- A sweep has ended: its step's entries may be written, and logging ends after the step that a STOP named. -/
def State.exportSweepEnded (s : State) : State :=
  let e := s.rel.exp
  let e1 := { e with lastEnded := some s.seq.step }
  if e.logging then
    ({ s with rel.exp := { e1 with
        openSteps := e.openSteps ++ [s.seq.step]
        stepItems := NMap.modify e.stepItems s.seq.step.toNat 0 (fun n => n)
        logging := e.stopAfter != some s.seq.step } } : State).settleStream
  else { s with rel.exp := e1 }

/-- A job halts or stops: a pending STOP takes the last step whose sweep has ended, and items of a sweep that did not end
leave the log (R398). -/
def State.exportJobEnded (s : State) : State :=
  let e := s.rel.exp
  if e.stopAfter.isSome then
    ({ s with rel.exp := { e with logging := false, log := e.log.filter (fun i => e.openSteps.contains i.1) } } : State).settleStream
  else s

/-! ## The drain (R399) -/

/-- Whether the export drain runs: in its tail slot, or while no job runs. -/
def State.drains (s : State) : Bool := !s.jobRuns || s.seq.tail.current == some 3

/-- One entry of delta items of the oldest step whose sweep has ended. -/
def State.deltaEntry (s : State) (n : BitVec 48) : State :=
  let e := s.rel.exp
  let mine := (e.log.filter (fun i => i.1 == n)).map (·.2)
  let now := fitItems 4032 mine
  let last := decide (now.length = mine.length)
  let count := NMap.getD e.stepItems n.toNat 0
  let s1 := s.putExport now n.toNat (2 * b2n last) (if last then count else 0)
  let rest := (mine.drop now.length).map (fun i => (n, i))
  let s2 : State := { s1 with rel.exp := { s1.rel.exp with
      log := rest ++ e.log.filter (fun i => i.1 != n), logUsed := e.logUsed - (now.map ExportItem.size).foldl (· + ·) 0
      openSteps := if last then e.openSteps.drop 1 else e.openSteps
      stepItems := if last then NMap.erase e.stepItems n.toNat else e.stepItems
      step := if last then n else e.step, stepValid := e.stepValid || last } }
  s2.settleStream

/-- Items of the base pass for one entry: read in order while they fit; the first read fails when `fails` is set. -/
def State.takeBase : List ExportItem → State → Nat → Bool → State × List ExportItem × List ExportItem
  | [], s, _, _ => (s, [], [])
  | i :: r, s, room, fails =>
    let x := s.loadItem i fails
    match x.2 with
    | none => State.takeBase r x.1 room fails
    | some it =>
      if it.size ≤ room then
        let y := State.takeBase r x.1 (room - it.size) false
        (y.1, it :: y.2.1, y.2.2)
      else (s, [], i :: r)

/-- One entry of base items; the last carries BASE_END. Its label is the step whose sweep last ended, a free value
before any sweep has ended (R399; log 4). -/
def State.baseEntry (s : State) (fails : Bool) : State :=
  let x := State.takeBase s.rel.exp.base s 4032 fails
  let done := x.2.2.isEmpty
  let f := x.1.free
  let label := match s.rel.exp.lastEnded with
    | some n => (n.toNat, x.1)
    | none => (f.1.toNat, f.2)
  let s1 := label.2.putExport x.2.1 label.1 (1 + 4 * b2n done) 0
  let s2 : State := { s1 with rel.exp.base := x.2.2 }
  if done then ({ s2 with rel.exp.mode := .delta } : State).raise 0x7401 else s2

/-- EXPORT_ENTRY on the state: delta items first, in step order, then base items. -/
def State.drainExport (s : State) (fails : Bool) : State :=
  let e := s.rel.exp
  let x := s.queue e.queue
  if !(e.mode == .base || e.mode == .delta) || !s.drains || x.mode != .armed || !x.free then s
  else
    match e.openSteps with
    | n :: _ => if fails then s.breakExport else s.deltaEntry n
    | [] => if e.mode = .base then s.baseEntry fails else s

/-- EXPORT_ENTRY: the export drain writes an entry into the EXPORT ring (R399, R400). `readFails`: three reads of the
log fail, which breaks the stream, or three reads of the first base record (R403). -/
def execExportEntry (readFails : Bool) (s : State) : Host.Outcome State Fault Refusal := .next (s.drainExport readFails)

end Sys2Proof.Machine
end

