-- ==== Sys2Proof/Machine/PlanOps.lean ====
section
/-! DEFINITION. Plan images: the header, the tables and the job map as bytes lay them out (R57 to R59, R290, R291), and
the checks that a load makes (R29, R30, R39, R60, R123, R124, R174, R175, R181, R186 to R190, R214, R215, R235 to R237,
R292, R295, R304, R306, R322, R427) and that a job start makes again (R488). -/

namespace Sys2Proof.Machine

/-! ## The header and the tables (R57 to R59) -/

/-- The header fields of an image. -/
def parseHeader (b : Bytes) : PlanHeader where
  flags := field b 6 2
  imageLen := field b 8 8
  microBatches := field b 16 2
  reservePct := field b 18 1
  maintUs := field b 20 4
  evalUs := field b 24 4
  exportUs := field b 28 4
  wcOffset := field b 32 8
  budgetOffset := field b 40 8
  budgetCount := field b 48 4
  maxBatches := field b 52 4
  maxSamples := field b 56 4
  maxEvents := field b 60 4
  maxIntakeBytes := field b 64 8

/-- TENANT_SIGNED. -/
def PlanHeader.signed (h : PlanHeader) : Bool := bit 0 h.flags

/-- A header field lies outside its range, or a reserved byte is not zero. -/
def headerBad (b : Bytes) (len : Nat) : Bool :=
  let h := parseHeader b
  field b 0 4 != 0x4E4C5059 || field b 4 2 != 1 || decide (8 ≤ h.flags) || h.imageLen % 512 != 0 || h.imageLen != len
    || h.microBatches == 0 || decide (64 < h.microBatches) || decide (50 < h.reservePct) || !zeroAt b 19 1
    || (h.maintUs != 0 && (decide (h.maintUs < 50) || decide (1000 < h.maintUs)))
    || h.budgetCount == 0 || decide (1048576 < h.budgetCount) || h.maxBatches == 0 || decide (65535 < h.maxBatches)
    || !zeroAt b 72 440

/-- MAP_LEN of the job map at byte 512. -/
def mapLength (b : Bytes) : Nat := field b 520 4

/-- A table or the job map does not lie wholly within the image, ahead of a signature trailer (R60). -/
def placesBad (b : Bytes) : Bool :=
  let h := parseHeader b
  let limit := if h.signed then b.length - 2560 else b.length
  decide (limit < h.wcOffset + 64) || decide (limit < h.budgetOffset + 16 * h.budgetCount) || decide (limit < 512 + mapLength b)

/-- The worst-case table W_0 to W_7. -/
def parseWc (b : Bytes) : List Nat := (List.range 8).map (fun i => field b ((parseHeader b).wcOffset + 8 * i) 8)

/-- The budget table. -/
def parseBudgets (b : Bytes) : List Budget :=
  (List.range (parseHeader b).budgetCount).map (fun i =>
    let o := (parseHeader b).budgetOffset + 16 * i
    ⟨field b o 2, field b (o + 2) 2, field b (o + 4) 4, field b (o + 8) 4⟩)

/-- A budget entry breaks R59, or a shard range is named twice. -/
def budgetsBad (b : Bytes) : Bool :=
  let bs := parseBudgets b
  bs.any (fun e => decide (4095 < e.range)) || (List.range bs.length).any (fun i => !zeroAt b ((parseHeader b).budgetOffset + 16 * i + 12) 4)
    || ((bs.map (fun e => (e.table, e.range))).eraseDups).length != bs.length

/-- The shard ranges of a table in the budget table: each once, and no other (R59). -/
def budgetsCover (bs : List Budget) (t : TableVer) : Bool :=
  (List.range t.ranges.length).all (fun i => bs.countP (fun e => e.table == t.id && e.range == i) == 1)
    && bs.all (fun e => e.table != t.id || decide (e.range < t.ranges.length))

/-- The held descriptor block of each table. -/
def State.heldTables (s : State) : List TableVer := s.tableIds.filterMap s.anyTable

/-! ## The job map (R290 to R292) -/

/-- The entries of a map. -/
def parseEntries (b : Bytes) : List MapEntry :=
  (List.range (field b 6 2)).map (fun i =>
    let o := 64 + 160 * i
    ⟨field b o 2, field b (o + 2) 2, field b (o + 4) 2, (List.range 8).map (fun k => slice b (o + 16 + 16 * k) 16)⟩)

/-- The job map that the bytes at 512 spell. -/
def parseMap (image : Bytes) : JobMap :=
  let b := slice image 512 (mapLength image)
  { jobTag := field b 12 4, jobSeed := field b 16 8, tickMaster := field b 24 2, penSize := field b 26 1
    herd := bit 0 (field b 27 1), pens := field b 28 2, udpPort := field b 30 2, modules := parseEntries b, bytes := b }

/-- A map field lies outside its range or a reserved byte is not zero. -/
def mapFieldsBad (b : Bytes) : Bool :=
  let n := field b 6 2
  field b 0 4 != 0x504D4A59 || field b 4 2 != 1 || n == 0 || decide (4096 < n)
    || field b 8 4 != roundUp (64 + 160 * n) 512 || field b 12 4 == 0 || field b 12 4 == 0xFFFFFFFF
    || !([1, 2, 4, 8] : List Nat).contains (field b 26 1) || decide (1 < field b 27 1) || field b 28 2 == 0 || decide (512 < field b 28 2)
    || decide (field b 30 2 < 1024) || !zeroAt b 32 32 || !zeroAt b (64 + 160 * n) (field b 8 4 - 64 - 160 * n)
    || (List.range n).any (fun i => decide (4095 < field b (64 + 160 * i) 2) || !zeroAt b (70 + 160 * i) 10 || !zeroAt b (208 + 160 * i) 16)

/-- The pens that a map names. -/
def JobMap.penIds (m : JobMap) : List Nat := (m.modules.map (fun e => e.module / 8)).eraseDups

/-- The members of a pen in a map. -/
def JobMap.pen (m : JobMap) (p : Nat) : List MapEntry := m.modules.filter (fun e => e.module / 8 == p)

/-- A map entry's witness is another module of its pen, or 0xFFFF in a pen of one. -/
def JobMap.witnessOk (m : JobMap) (e : MapEntry) : Bool :=
  if m.penSize = 1 then e.witness == 0xFFFF
  else e.witness != e.module && e.witness / 8 == e.module / 8 && m.modules.any (fun x => x.module == e.witness)

/-- The addresses of a map: with HERD each different and none reserved; without, one pen and all zeros. -/
def JobMap.addrsOk (m : JobMap) : Bool :=
  let as := m.modules.flatMap (·.addrs)
  if m.herd then as.all (fun a => !zeroAt a 0 16 && field a 0 1 != 0xFF) && as.eraseDups.length == as.length
  else m.pens == 1 && as.all (fun a => zeroAt a 0 16)

/-- A job map breaks R292, or names more than one module with SOURCE = TICK_IN (R47). -/
def State.mapBad (s : State) (image : Bytes) : Bool :=
  let m := parseMap image
  let h := parseHeader image
  mapFieldsBad m.bytes || m.modules.length != m.pens * m.penSize || !strictlyAscending (m.modules.map (·.module))
    || m.penIds.any (fun p => (m.pen p).map (fun e => e.module % 8) != List.range m.penSize)
    || m.penIds.any (fun p => ((m.pen p).map (·.replica)).eraseDups.length != 1)
    || ((m.penIds.map (fun p => ((m.pen p).map (·.replica)).headD 0)).eraseDups).length != m.penIds.length
    || m.modules.any (fun e => decide (m.pens ≤ e.replica) || !m.witnessOk e)
    || !m.modules.any (fun e => e.module == m.tickMaster) || !m.modules.any (fun e => e.module == s.me) || !m.addrsOk
    || decide (h.wcOffset < 512 + mapLength image) || decide (h.budgetOffset < 512 + mapLength image)
    || (s.active.tickSource == 2 && decide (1 < m.modules.length))

/-! ## The layout (R29, R30, R39, R235, R304, R306) -/

/-- Two spans (start, length) share a place; an empty one shares none. -/
def spansMeet (a b : Nat × Nat) : Bool := decide (0 < a.2 ∧ 0 < b.2 ∧ a.1 < b.1 + b.2 ∧ b.1 < a.1 + a.2)

/-- Whether any two spans of a list overlap. -/
def spansOverlap : List (Nat × Nat) → Bool
  | [] => false
  | a :: r => r.any (spansMeet a) || spansOverlap r

/-- The regions of a tile break R29. -/
def tileRegionsBad (l : PlanLayout) (tile : Nat) : Bool :=
  let rs := l.regions.filter (fun r => r.tile.val == tile)
  rs.any (fun r => decide (256 < r.start + r.size))
    || decide (128 < (rs.filter (fun r => r.kind == .rowCache)).foldl (fun a r => a + r.size) 0)
    || decide (256 < rs.foldl (fun a r => a + r.size) 0) || spansOverlap (rs.map (fun r => (r.start, r.size)))

/-- Two accesses of a tile are one stage's: the stages of its two lines are two, the exchange stage is one (R25, R36). -/
def sameStage (a b : ScheduledAccess) : Bool := a.stage == b.stage && (a.line == b.line || a.stage == 11)

/-- Two accesses break the rule of one writer per location and phase (R30). -/
def accessesClash (a b : ScheduledAccess) : Bool :=
  a.phase == b.phase && a.tile == b.tile && !sameStage a b && (a.isWrite || b.isWrite)
    && decide (a.first ≤ b.last ∧ b.first ≤ a.last)

/-- The schedule breaks R30. -/
def scheduleBad : List ScheduledAccess → Bool
  | [] => false
  | a :: r => r.any (accessesClash a) || scheduleBad r

/-- Bytes of a working-copy element. -/
def workWidth (code : Nat) : Nat := if code = 3 then 2 else 1

/-- The working format of a tensor in a layout. -/
def workCode (l : PlanLayout) (d : DenseTensor) : Nat :=
  ((l.sweep.find? (fun e => field e.2 2 1 == 1 && field e.2 0 2 == d.id)).map (fun e => field e.2 3 1)).getD 0

/-- Bytes of a tensor's working copy: its data, and its scale stream (R486). -/
def workBytes (l : PlanLayout) (d : DenseTensor) : Nat :=
  if workCode l d = 0 then 0
  else if workCode l d = 6 then scaleStreamOffset d.blocks + d.blocks
  else 32 * d.blocks * workWidth (workCode l d)

/-- The working copy of a tensor in HBM (R486). -/
def workSpans (l : PlanLayout) (d : DenseTensor) : List (Nat × Nat) :=
  if workCode l d = 0 ∨ d.workTile.isSome then [] else [(d.workBase, workBytes l d)]

/-- An access of a stage writes a working copy in a tile store, and the stage is no churn's (R181). -/
def writesCopy (l : PlanLayout) (a : ScheduledAccess) : Bool :=
  a.isWrite && a.stage != 10
    && l.dense.any (fun d => d.workTile == some a.tile && decide (a.first < d.workBase + workBytes l d ∧ d.workBase ≤ a.last))

/-- A dense tensor's records do not begin a check block, or its working copy's region does not (R179, R486): DESIGN CHOICE to refuse
the plan, log 46. -/
def denseMisplaced (l : PlanLayout) (d : DenseTensor) : Bool :=
  d.base % 512 != 0 || (workCode l d != 0 && d.workBase % 512 != 0)

/-- The HBM regions of a layout: scratch and other regions, the staging pool, dense records, working copies, history sets
and table ranges (R235). -/
def layoutSpans (l : PlanLayout) (penSize : Nat) : List (Nat × Nat) :=
  l.hbmRegions ++ l.staging ++ l.dense.map (fun d => (d.base, ceilDiv d.blocks (perBlock (denseSize d.planes)) * 512))
    ++ l.dense.flatMap (workSpans l) ++ l.history.map (fun h => (hBase h, histBytes h penSize))
    ++ l.ranges.map (fun r => (r.base, r.size))

/-- The lines that a layout puts work on. -/
def usedLines (l : PlanLayout) : List LineId :=
  let swept : List LineId := l.sweep.map (fun e => e.1)
  let bound : List LineId := l.dense.flatMap (fun d => d.binds.map (fun b => b.2.2))
  let staged : List LineId := l.matrix.map (fun m => { tile := m.1.tile, line := m.1.line })
  let owning : List LineId := l.slotOwners.map (fun o => { tile := o.2.1.tile, line := o.2.1.line })
  let accessing : List LineId := (l.schedule.filter (fun a => a.stage != 11)).map (fun a => { tile := a.tile, line := a.line })
  (l.lines ++ swept ++ bound ++ staged ++ owning ++ accessing).eraseDups

/-- The tiles whose exchange stage or tile store a layout puts work on, for the module: regions of its tile stores, its
exchanges, the places of appends, bags, dense outputs and working copies, and scheduled accesses. -/
def usedTiles (l : PlanLayout) (me : Nat) : List (Fin 32) :=
  ((l.regions.filter (fun r => r.size != 0)).map (·.tile) ++ (l.exchanges.filter (fun e => e.src.toNat == me)).map (·.tile)
    ++ l.appendAt.map (·.tile) ++ l.bags.map (·.tile) ++ (if l.outBytes = 0 then [] else [l.outTile])
    ++ l.dense.filterMap (·.workTile) ++ l.schedule.map (·.tile)).eraseDups

/-- A layout places work on an unavailable unit (R39): a line, or a tile's exchange stage or tile store. -/
def State.unavailableWork (s : State) (l : PlanLayout) : Bool :=
  (usedLines l).any (fun x => !s.lineAvailable x.tile.val x.line.val) || (usedTiles l s.me).any (fun t => !s.tileAvailable t.val)

/-- The exchange buffers do not hold a set's largest block from each other module of the pen (R229). -/
def buffersBad (l : PlanLayout) (penSize : Nat) : Bool :=
  l.history.any (fun h => decide (l.exchangeBuffer < (penSize - 1) * blockBytes h))

/-- The memory layout breaks R29, R30, R39, R60, R179, R181, R229, R235, R304, R306 or R486. -/
def State.layoutBad (s : State) (l : PlanLayout) (penSize : Nat) : Bool :=
  let spans := layoutSpans l penSize
  (List.range 32).any (tileRegionsBad l) || scheduleBad l.schedule || s.unavailableWork l
    || l.excluded.mergeSort (· ≤ ·) != s.excluded.mergeSort (· ≤ ·)
    || spansOverlap spans || spans.any (fun r => decide (s.blockCount * 512 < r.1 + r.2))
    || l.writes.any (fun w => decide (512 < w.1 % 512 + w.2))
    || l.stageWrites.any (fun w => (l.dense.flatMap (workSpans l)).any (fun r => decide (w.1 < r.1 + r.2 ∧ r.1 < w.1 + w.2)))
    || l.schedule.any (writesCopy l) || l.dense.any (denseMisplaced l) || buffersBad l penSize

/-! ## Sweep tables and bindings (R174, R175, R189) -/

/-- The line that a dense tensor's block is bound to, none when it has none or more than one. -/
def boundLine (d : DenseTensor) (b : Nat) : Option LineId :=
  match d.binds.filter (fun x => decide (x.1 ≤ b ∧ b ≤ x.2.1)) with
  | [x] => some x.2.2
  | _ => none

/-- A bound tensor gives a check block to two churns, or leaves a record out (R175). -/
def bindsBad (d : DenseTensor) : Bool :=
  let k := perBlock (denseSize d.planes)
  !d.binds.isEmpty && (List.range d.blocks).any (fun b => (boundLine d b).isNone || boundLine d b != boundLine d (b / k * k))

/-- A sweep-table entry breaks R189. -/
def State.entryBad (s : State) (l : PlanLayout) (e : LineId × Bytes) : Bool :=
  let b := e.2
  let work := field b 3 1
  match l.programs.find? (fun p => field p 0 2 == field b 4 2) with
  | none => true
  | some p =>
    field b 2 1 != field p 2 1 || !zeroAt b 8 8 || (work != 6 && !zeroAt b 6 2)
      || (if field b 2 1 = 1 then
            !(work == 0 || (decide (3 ≤ work) && decide (work ≤ 6)))
              || !l.dense.any (fun d => d.id == field b 0 2 && d.planes == field p 3 1)
          else if field b 2 1 = 2 then
            work != 0 || (match s.anyTable (field b 0 2) with
              | some t => field p 3 1 != t.code + 2 * t.layout
              | none => false)
          else true)

/-- Whether a line has a table's entry. -/
def lineHas (l : PlanLayout) (tile line table : Nat) : Bool :=
  l.sweep.any (fun e => e.1.tile.val == tile && e.1.line.val == line && field e.2 2 1 == 2 && field e.2 0 2 == table)

/-- A home tile breaks R174. -/
def State.homeBad (s : State) (l : PlanLayout) (r : RangePlace) : Bool :=
  let t := r.home.val
  let a := s.lineAvailable t 0
  let b := s.lineAvailable t 1
  (!a && !b) || (a && b && lineHas l t 0 r.table != lineHas l t 1 r.table)

/-! ## Churn programs (R186, R188, R190) -/

/-- The register that an instruction writes. -/
def writesRegister (w : Nat) : Option Nat :=
  let op := cOp w
  if (1 ≤ op ∧ op ≤ 20) ∨ op = 0x20 ∨ op = 0x21 ∨ op = 0x23 then some (bits 12 8 w) else none

/-- The sections of a program: the instructions before each SECT, and the SECT. -/
def programSections : List Nat → List (List Nat × Nat)
  | [] => []
  | w :: r =>
    if cOp w = 0x30 then ([], w) :: programSections r
    else match programSections r with
      | [] => []
      | x :: xs => (w :: x.1, x.2) :: xs

/-- Whether a program's records have a field that LDF names. -/
def loadField (kind shape f : Nat) : Bool :=
  f == 0 || f == 1 || f == 6 || f == 7 || f == 10
    || (if kind = 1 then (f == 2 && decide (2 ≤ shape)) || (f == 3 && shape == 3)
        else (f == 4 && bit 1 shape) || f == 5 || f == 8 || f == 9)

/-- Whether an STF may name a field. -/
def storeTarget (kind shape f : Nat) : Bool :=
  f == 1 || f == 6 || f == 7 || (if kind = 1 then (f == 2 && decide (2 ≤ shape)) || (f == 3 && shape == 3) else (f == 4 && bit 1 shape) || f == 5)

/-- A per-element field. -/
def perElement (f : Nat) : Bool := decide (f ≤ 4) || f == 6 || f == 7

/-- The field an LDF or STF names. -/
def fieldNamed (w : Nat) : Option Nat := if cOp w = 0x21 then some (bits 16 13 w) else if cOp w = 0x22 then some (bits 11 8 w) else none

/-- An instruction of a section breaks R188. -/
def sectionWordBad (kind shape : Nat) (once : Bool) (w : Nat) : Bool :=
  (cOp w == 0x21 && !loadField kind shape (bits 16 13 w))
    || (cOp w == 0x22 && (!storeTarget kind shape (bits 11 8 w) || decide (1 < bits 29 28 w)))
    || (match fieldNamed w with
        | some f => once && perElement f
        | none => false)
    || (cOp w == 0x25 && (kind == 1 || !once))

/-- An instruction that a prologue may hold (R188). -/
def prologueWord (w : Nat) : Bool := let op := cOp w
  (decide (1 ≤ op) && decide (op ≤ 20)) || op == 0x20 || op == 0x3F

/-- The index of the section with the last QPREP. -/
def lastQprep (ss : List (List Nat × Nat)) : Nat :=
  ss.zipIdx.foldl (fun a s => if s.1.1.any (fun w => cOp w == 0x25) then s.2 else a) 0

/-- A churn program's header breaks R186. -/
def programHeaderBad (b : Bytes) : Bool :=
  let kind := field b 2 1
  let shape := field b 3 1
  let n := field b 4 2
  !((kind == 1 && decide (1 ≤ shape ∧ shape ≤ 3)) || (kind == 2 && decide (shape < 4))) || n == 0 || decide (256 < n)
    || b.length != 288 + 4 * n || !zeroAt b 6 2 || !zeroAt b 14 2 || !zeroAt b 36 28

/-- A churn program breaks R188. -/
def programBad (b : Bytes) : Bool :=
  let kind := field b 2 1
  let shape := field b 3 1
  let ws := (List.range (field b 4 2)).map (fun i => field b (288 + 4 * i) 4)
  let ss := programSections ws
  let pro := match ss with
    | x :: _ => if bit 9 x.2 then x.1 else []
    | [] => []
  let main := match ss with
    | x :: xs => if bit 9 x.2 then xs else ss
    | [] => []
  let q := lastQprep ss
  programHeaderBad b || ws.any churnWordBad
    || !(match ws.getLast? with
        | some w => cOp w == 0x30 && bit 10 w
        | none => false)
    || ((ws.dropLast).any (fun w => cOp w == 0x30 && bit 10 w)) || ss.any (fun x => bit 8 x.2 && bit 9 x.2)
    || (ss.drop 1).any (fun x => bit 9 x.2) || pro.any (fun w => !prologueWord w)
    || main.any (fun x => x.1.any (fun w => match writesRegister w with
        | some r => pro.any (fun p => writesRegister p == some r)
        | none => false))
    || main.any (fun x => x.1.any (sectionWordBad kind shape (bit 8 x.2)))
    || ss.any (fun x => decide (1 < x.1.countP (fun w => cOp w == 0x25)))
    || (kind == 2 && (ss.take q).any (fun x => x.1.any (fun w => cOp w == 0x22 && bits 11 8 w == 1)))

/-! ## Matrix programs (R109, R123, R124) -/

/-- The bits of words 0 to 5 that a matrix operation uses (R123). -/
def matrixMask (w : Bytes) : Option (List Nat) :=
  let op := bits 7 0 (mWord w 0)
  let anchor := 0x3FF0000
  if op = 1 then some [0xFFFF + (if mInit w then anchor else 0), 0xFFFFFF, 0xFFFFFF, 0xFFFFFF, 0x3FFFFF, 0x3FFFFF]
  else if op = 2 ∨ op = 4 ∨ op = 6 then some [0x1FFF, 0, 0, 0, 0x3FFFFF, 0]
  else if op = 3 then some [0x1FFF, 0xFFFFFFFF, 0xFFFFFFFF, 0xFFFFFF, 0x3FFFFF, 0xFFFFFFFF]
  else if op = 5 then some [0x1FFF + anchor, 0, 0, 0, 0, 0]
  else none

/-- An operand code of R109. -/
def operandCode (c : Nat) : Bool := (matrixElemBytes c).isSome

/-- A matrix instruction that a load refuses. -/
def matrixBad (w : Bytes) : Bool :=
  let op := bits 7 0 (mWord w 0)
  match matrixMask w with
  | none => true
  | some ms =>
    w.length != 24 || ms.zipIdx.any (fun m => (mWord w m.2 &&& (0xFFFFFFFF ^^^ m.1)) != 0)
      || (op == 1 && (mKLen w == 0 || mPasses w == 0 || !operandCode (mFmtA w) || !operandCode (mFmtB w)
          || ((mFmtA w == 10) != (mFmtB w == 10))))
      || (op == 3 && (mFmtA w < 2 || decide (5 < mFmtA w) || decide (4 < bits 6 4 (mWord w 1))
          || (decide (2 ≤ bits 6 4 (mWord w 1)) && mFmtA w != 2)))

/-- Within a phase a slot has two owners (R124). -/
def ownersBad (os : List (Nat × StageId × Nat × Bool)) : Bool :=
  os.any (fun a => os.any (fun b => a.1 == b.1 && a.2.1 == b.2.1 && a.2.2.1 == b.2.2.1 && a.2.2.2 != b.2.2.2))

/-! ## History sets and the watch table (R215, R237) -/

/-- A history set entry breaks R214. -/
def histBad (h : Bytes) : Bool :=
  field h 0 2 == 0xFFFF || decide (1 < field h 2 1) || hLayers h == 0 || decide (16 < hLayers h) || field h 4 1 == 0
    || decide (16 < field h 4 1) || !zeroAt h 5 1 || decide (field h 6 2 < 32) || decide (256 < field h 6 2) || field h 6 2 % 32 != 0
    || hUsers h == 0 || decide (268435456 < hUsers h) || decide (hCap h < 8) || decide (4096 < hCap h) || hCap h % 8 != 0
    || field h 16 2 == 0 || decide (0x7F80 ≤ field h 16 2) || field h 18 2 == 0 || decide (512 < field h 18 2)
    || hBase h % 512 != 0 || !zeroAt h 28 4 || h.length != 32

/-- The YS8 streams of a set. -/
def histStreams (h : Bytes) : List Nat := (List.range (2 * hLayers h)).map (fun i => field h 14 2 + i)

/-- The history table breaks R214 or R215. -/
def historyBad (l : PlanLayout) (tables : List Nat) : Bool :=
  let ids := l.history.map (fun h => field h 0 2)
  let streams := l.history.flatMap histStreams ++ l.ys8Streams.eraseDups
  decide (16 < l.history.length) || l.history.any histBad || ids.eraseDups.length != ids.length || ids.any (fun i => tables.contains i)
    || streams.eraseDups.length != streams.length

/-- A watch-table entry breaks R236. -/
def watchBad (e : Bytes) : Bool :=
  let scaled := bit 1 (field e 3 1)
  let fmt := field e 4 1
  field e 2 1 == 0 || decide (3 < field e 2 1) || decide (31 < field e 3 1) || bits 3 2 (field e 3 1) == 3
    || (if scaled then decide (fmt < 3) || decide (5 < fmt) else fmt != 0) || decide (16 < field e 5 1) || decide (15 < field e 6 1)
    || decide (signedOf 8 (field e 7 1) < -126) || (field e 14 2 != 0 && field e 2 1 != 1)
    || decide (0x7F800000 ≤ field e 16 4) || decide (0x7F800000 ≤ field e 20 4) || !zeroAt e 24 8 || e.length != 32

/-- The watch table breaks R236 or R237. -/
def watchTableBad (l : PlanLayout) (tables : List Nat) : Bool :=
  let keys := l.watch.map (fun e => watchKey (field e 2 1) (field e 0 2))
  decide (4096 < l.watch.length) || l.watch.any watchBad || keys.eraseDups.length != keys.length
    || l.watch.any (fun e => field e 2 1 == 1 && keys.contains (watchKey 3 (field e 0 2)))
    || l.delayed.any (fun d => !l.watch.any (fun e => field e 2 1 != 2 && field e 0 2 == d.1 && bit 1 (field e 3 1) && field e 4 1 == d.2))
    || l.watch.any (fun e => field e 2 1 == 2 && !tables.contains (field e 0 2))

/-! ## The checks of a load and of a start -/

/-- The exchange schedule places a GATHER between pens or a REDUCE within one (R295). -/
def exchangesBad (es : List ScheduledExchange) : Bool :=
  es.any (fun e => (e.op == .gather && e.src.toNat / 8 != e.dst.toNat / 8) || (e.op == .reduce && e.src.toNat / 8 == e.dst.toNat / 8))

/-- The programs and tables of the plan's layout break a rule of a load. -/
def State.programsBad (s : State) (l : PlanLayout) (tables : List Nat) : Bool :=
  l.programs.any programBad || ((l.programs.map (fun p => field p 0 2)).eraseDups).length != l.programs.length
    || l.sweep.any (s.entryBad l) || l.dense.any bindsBad || l.ranges.any (s.homeBad l)
    || l.matrix.any (fun m => matrixBad m.2) || ownersBad l.slotOwners || historyBad l tables || watchTableBad l tables
    || exchangesBad l.exchanges

/-- The plan that an image and what it carries spell. -/
def parsePlan (image : Bytes) (l : PlanLayout) : Plan where
  header := parseHeader image
  wc := parseWc image
  budgets := parseBudgets image
  map := parseMap image
  layout := l
  measure := Config.sha3 image

/-- A signature trailer fails R427: in confidential mode any of its checks, in normal mode only MAGIC and FORMAT of a
trailer that is there. -/
def State.signatureBad (s : State) (image : Bytes) : Bool :=
  let n := image.length - 2560
  let t := image.drop n
  if s.confidential then
    !(parseHeader image).signed || field t 0 4 != 0x47535059 || field t 4 2 != 1 || !zeroAt t 6 2 || !zeroAt t 12 4 || !zeroAt t 2468 92
      || BitVec.ofNat 256 (field t 16 32) != s.sec.tenantKey || field t 8 4 != s.sec.jobTag.toNat || (parseMap image).jobTag != s.sec.jobTag.toNat
      || !Config.verify s.sec.tenantPub 1 (image.take (n + 48)) (slice t 48 2420)
  else (parseHeader image).signed && (field t 0 4 != 0x47535059 || field t 4 2 != 1)

/-- A load's checks apart from the signature's and the map's (R60). -/
def State.imageBad (s : State) (image : Bytes) (l : PlanLayout) (len : Nat) : Bool :=
  headerBad image len || image.length != len || placesBad image || budgetsBad image
    || s.heldTables.any (fun t => !budgetsCover (parseBudgets image) t)
    || s.layoutBad l (parseMap image).penSize || s.programsBad l ((parseBudgets image).map (·.table))
    || (s.active.retrainAuto && (parseHeader image).maintUs == 0)

/-- The checks of R488 at job start. -/
def State.planStartBad (s : State) (p : Plan) : Bool :=
  let held := s.heldTables
  held.any (fun t => !budgetsCover p.budgets t) || p.budgets.any (fun e => !held.any (fun t => t.id == e.table))
    || p.layout.sweep.any (fun e => field e.2 2 1 == 2 && !held.any (fun t => t.id == field e.2 0 2))
    || s.unavailableWork p.layout

end Sys2Proof.Machine
end

