-- ==== Sys2Proof/Machine/History.lean ====
section
/-! DEFINITION. The commit of appended history positions in phase 7 (R226), FRESH sets at job start (R227), and the
comparison of replica digests (R251). -/

namespace Sys2Proof.Machine

/-! ## Append writes (R226) -/

/-- Bytes of a piece that stay inside one check block. -/
def splitAt512 : Nat → Nat → Bytes → List (Nat × Bytes)
  | 0, _, _ => []
  | fuel + 1, addr, b =>
    match b with
    | [] => []
    | _ => let n := 512 - addr % 512
           (addr, b.take n) :: splitAt512 fuel (addr + n) (b.drop n)

/-- One write of an append: where its check block stands in the set, its address and bytes, and its tag word. -/
structure AppendWrite where
  part : Nat
  sub : Nat
  addr : Nat
  bytes : Bytes
  tag : Word
  deriving DecidableEq, Repr

/-- The writes of one part of an append: the bytes of position t begin at t × `len` of the part. -/
def appendPart (h : Bytes) (n : Nat) (a : Append) (part len : Nat) (bytes : Bytes) : List AppendWrite :=
  let b := a.position / 512
  let start := blockAddr h n a.user b a.layer + partOffset h part
  (splitAt512 (len / 512 + 2) (start + a.position % 512 * len) bytes).map (fun w =>
    let i := (w.1 - start) / 512
    ⟨part, i, w.1, w.2, partTag h n a.user b a.layer part i⟩)

/-- The writes of an append: its elements and their scale bytes. -/
def Append.writes (a : Append) (h : Bytes) (n : Nat) : List AppendWrite :=
  appendPart h n a (b2n a.isValue) (hWidth h) a.elems ++ appendPart h n a (2 + b2n a.isValue) (hWidth h / 32) a.scales

/-- A user record's write that is not verified is written once more (R226). -/
def State.writeTwice (s : State) (addr : Nat) (bytes : Bytes) (tag : Word) : State × Bool :=
  let r := s.writeVerified addr bytes (some tag)
  if r.2 then r else r.1.writeVerified addr bytes (some tag)

/-- The check blocks that an append touches, as items of the export stream (R396). -/
def Append.touched (a : Append) (ws : List AppendWrite) : List (ExportItem × Nat) :=
  ws.map (fun w => (baseItem (if w.part < 2 then 3 else 4) a.set (a.position / 512) w.part a.layer a.user w.sub, w.addr / 512 * 512))

/-- Every append message of the pen has arrived. -/
def State.appendsArrived (s : State) : Bool := s.histSets.isEmpty || s.penPeers.all (fun m => (s.received .append m 0).isSome)

/-- The appends that this module holds: its own and those received. -/
def State.heldAppends (s : State) : List Append :=
  s.hist.appends ++ (s.inbox .append).flatMap (fun m => s.decodeAppends (field m.data 0 8) (m.data.drop 8))

/-- The append writes of an append, and the export items of the check blocks that they touch. -/
def State.appendWrites (s : State) (a : Append) : List (AppendWrite × ExportItem × Nat) :=
  match s.histSet a.set with
  | none => []
  | some h => (a.writes h s.penSize).zip (a.touched (a.writes h s.penSize))

/-- The holder's append writes of phase 7 go to their memory ports (R226); a holder of none has them all verified. -/
def State.writeAppends (s : State) : State :=
  if s.histSets.isEmpty then s
  else
    let ws := s.heldAppends.flatMap s.appendWrites
    let out := ws.zipIdx.map (fun w => (⟨w.1.1.addr, w.1.1.bytes, some w.1.1.tag, appendSource w.2, false⟩ : WaitingWrite))
    let s1 : State := { s with hist.writing := out.map (fun w => (w, 0)), hist.touched := (ws.map (·.2)).eraseDups }
    if out.isEmpty then s1.appendsWritten else out.foldl State.portWrite s1

/-! ## User records (R218, R226) -/

/-- The users that gain events in the step, each once. -/
def State.touchedUsers (s : State) : List (Nat × Nat) :=
  ((s.hist.users.filter (fun e => decide (0 < e.appends))).map (fun e => (e.set, e.user))).eraseDups

/-- Write one touched user record, of which the first `fails` writes fail; a second failure halts the job with SWEEP_LOST.
A written record enters the export stream at pen position 0 (R396). -/
def State.writeUser (s : State) (u : Nat × Nat) (fails : Nat) : State :=
  match s.histSet u.1, s.length0 u.1 u.2 with
  | some h, some l =>
    let n := s.userAppends u.1 u.2
    let rec' := userRecord (l + n) (s.seq.step.toNat % 65536) n
    let r := if fails < 2 then s.writeTwice (userAddr h u.2) rec' 0 else (s, false)
    if r.2 then
      (if r.1.penPos = 0 then r.1.logItem { baseItem 5 u.1 0 0 0 u.2 0 with payload := rec' } else r.1)
    else r.1.raiseHalt 0x7303
  | _, _ => s

/-- Every touched user record is written. -/
def State.writeUsers (s : State) (fails : Nat) : State :=
  let s1 := s.touchedUsers.zipIdx.foldl (fun (st : State) u => st.writeUser u.1 (if u.2 = 0 then fails else 0)) s
  { s1 with hist.written := true }

/-- APPEND_DONE on the state: this module's own counts once its append writes are done. -/
def State.appendDone (s : State) (pos fails : Nat) : State :=
  if s.hist.written || s.hist.doneFrom.contains pos || decide (s.penSize ≤ pos) || (pos == s.penPos && !s.hist.doneSent) then s
  else
    let s1 : State := { s with hist.doneFrom := pos :: s.hist.doneFrom }
    if s1.hist.doneFrom.length = s1.penSize then s1.writeUsers fails else s1

/-- APPEND_DONE: a module of the pen has verified its append writes; with all N the touched user records are written
(R226). `userWriteFails` is how often the first record's write fails its checks. -/
def execAppendDone (pos : Fin 8) (userWriteFails : Nat) (s : State) : Host.Outcome State Fault Refusal :=
  .next (s.appendDone pos.val userWriteFails)

/-- At job start every user record of a FRESH set is written with all fields zero (R227), and with them the zeros that pad the records
to REC_BYTES (R217): whole check blocks of zeros. -/
def State.freshInit (s : State) : State :=
  (s.histSets.filter (fun h => bit 0 (field h 2 1))).foldl (fun (st : State) h =>
    (List.range (recBytes h / 512)).foldl (fun (st : State) b => (st.writeVerified (userAddr h (32 * b)) (List.replicate 512 0) (some 0)).1)
      st) s

/-! ## Replica digests (R251) -/

/-- The modules that hold the same records of a tensor in other replicas: those at this position. -/
def State.digestPeers (s : State) : List Nat := s.otherReplicas.map s.replicaModule

/-- The DIGEST field of a step record after a comparison (R254): [1] all matched, [2] DIVERGE. A redacted record has none. -/
def patchDigest (matched : Bool) (b : Bytes) : Bytes :=
  let x := field b 156 1
  if bit 8 (field b 6 2) then b
  else if matched then splice b 156 (leBytes 1 (if bit 2 x || bit 1 x then x else x + 2))
  else splice b 156 (leBytes 1 (x % 2 + 4))

/-- FLAGS[6] in the watch record of a tensor (R252). -/
def patchWatch (tensor : Nat) (w : Bytes) : Bytes :=
  if field w 0 2 = tensor ∧ field w 2 1 = 1 ∧ !bit 6 (field w 3 1) then splice w 3 (leBytes 1 (field w 3 1 + 64)) else w

/-- The records of the digests' step, which are not yet written, take the outcome of a comparison. -/
def State.patchDue (s : State) (step : BitVec 48) (tensor : Nat) (matched : Bool) : State :=
  { s with seq.due := s.seq.due.map (fun r =>
      if r.step = step then
        { r with body := patchDigest matched r.body, watch := if matched then r.watch else r.watch.map (patchWatch tensor) }
      else r) }

/-- Two digests of a group differ: DIVERGE, and a halt at the next tick. -/
def State.diverge (s : State) (tensor : Nat) : State :=
  (s.setWatch (watchKey 1 tensor) (fun w => { w with flags := w.flags ||| 0x40 })).raiseHalt 0x2306 0 tensor

/-- DIGEST_COMPARE on the state: a digest of the last digest step is held and compared with this module's and with those
received before. -/
def State.digestCompare (s : State) (m tensor : Nat) (d : BitVec 256) : State :=
  let w := s.watchOf (watchKey 1 tensor)
  match w.digest with
  | none => s
  | some own =>
    if !s.digestPeers.contains m || w.peers.any (fun p => p.1 == m) then s
    else
      let same := own.1 == d && w.peers.all (fun p => p.2 == d)
      let s1 := (s.setWatch (watchKey 1 tensor) (fun w => { w with peers := w.peers ++ [(m, d)] })).patchDue own.2 tensor same
      if !same && !bit 6 w.flags.toNat then s1.diverge tensor else s1

/-- DIGEST_COMPARE: a replica digest arrives in phase 1 and is compared with the group's (R251). -/
def execDigestCompare (module : BitVec 12) (tensor : Nat) (digest : BitVec 256) (s : State) : Host.Outcome State Fault Refusal :=
  .next (s.digestCompare module.toNat tensor digest)

end Sys2Proof.Machine
end

