-- ==== Sys2Proof/Machine/WatchStep.lean ====
section
/-! DEFINITION. The numerics watch at the ends of phases: the scales of the coming epoch (R239 to R242), the gradient-noise
estimate (R248, R249), the sweep statistics (R245 to R247), replica digests (R250), and the records that report them
(R252, R254). -/

namespace Sys2Proof.Machine

/-- The watch table of the plan. -/
def State.watchTable (s : State) : List Bytes := (s.plan.map (fun p => p.layout.watch)).getD []
/-- The key of an entry. -/
def entryKey (e : Bytes) : Nat := watchKey (field e 2 1) (field e 0 2)

/-! ## Scales (R239 to R242) -/

/-- FMAX of a target format as a magnitude (R239). -/
def fmaxOf (fmt : Nat) : Mag := if fmt = 3 then ⟨255, 1, 120⟩ else if fmt = 4 then ⟨448, 1, 0⟩ else ⟨57344, 1, 0⟩

/-- A magnitude in binary64; the values here are exact. -/
def mag64 (m : Mag) : Nat := (roundTo binary64 .rne false false m).1

/-- The largest integer k with a × 2^k ≤ fmax, for a binary64 value a above zero (R240). -/
def largestScale (a : Nat) (fmt : Nat) : Int :=
  let f := fmaxOf fmt
  match decodeNum binary64 a with
  | .fin _ m e => (⟨f.num, m, f.e - e⟩ : Mag).log2
  | _ => 0

/-- HIST_LEN of an entry, or HIST_DEFAULT (R236). -/
def State.histLen (s : State) (e : Bytes) : Nat := if field e 5 1 = 0 then s.active.histDefault.toNat else field e 5 1

/-- The scoped AMAX and SAT of an entry: this module's and those of its scope's other modules that converted the tensor
(R241); and whether any did. -/
def Watch.scoped (w : Watch) (peers : List (Word × Nat)) : Word × Nat × Bool :=
  (peers.foldl (fun a p => BitVec.ofNat 32 (fMax binary32 a.toNat p.1.toNat).1) w.amax,
   min 0xFFFFFFFF (peers.foldl (fun a p => a + p.2) w.sat), w.converted || !peers.isEmpty)

/-- The maximum of a history. -/
def histTop (h : List Long) : Long := h.foldl (fun a x => BitVec.ofNat 64 (fMax binary64 a.toNat x.toNat).1) 0

/-- next_scale of R240 with whether it clamps. -/
def nextScale (history : List Long) (kNow : Int) (fmt margin : Nat) : Int × Bool :=
  let a := histTop history
  if history.isEmpty || a == 0 then (kNow, false)
  else
    let k := largestScale a.toNat fmt - (margin : Int)
    if k < -126 then (-126, true) else if 127 < k then (127, true) else (k, false)

/-- The end of an epoch for a SCALED entry. -/
def State.scaleEntry (s : State) (e : Bytes) (peers : List (Word × Nat)) : State :=
  let key := entryKey e
  let w := s.watchOf key
  let sc := if bits 3 2 (field e 3 1) = 0 then w.scoped [] else w.scoped peers
  let a64 := (convert binary32 binary64 .rne true 0 sc.1.toNat).1
  let ceil := mag64 { fmaxOf (field e 4 1) with e := (fmaxOf (field e 4 1)).e - w.k }
  let entry : Long := BitVec.ofNat 64 (fMin binary64 a64 ceil).1
  let guard := decide (field e 8 4 ≠ 0xFFFFFFFF ∧ field e 8 4 < sc.2.1)
  let hist := if guard then [BitVec.ofNat 64 a64]
              else if sc.2.2 then (entry :: w.history).take (s.histLen e) else w.history
  let n := nextScale hist w.k (field e 4 1) (field e 6 1)
  let s1 := s.setWatch key (fun w => { w with
    history := hist, kNext := n.1, amaxScoped := sc.1, satScoped := sc.2.1, histMax := histTop hist
    flags := w.flags ||| BitVec.ofNat 8 (b2n guard + 128 * b2n n.2) })
  let s2 := if guard then s1.raiseOnce key 0x2301 0 (field e 0 2) sc.2.1 else s1
  if n.2 then s2.raiseOnce key 0x2302 0 (field e 0 2) 0 else s2

/-- The scales of every SCALED entry (R240 to R242). -/
def State.endEpoch (s : State) (peers : PeerStats) : State :=
  (s.watchTable.filter entryScaled).foldl (fun (st : State) e =>
    st.scaleEntry e ((peers.amax.filter (fun p => watchKey p.1 p.2.1 == entryKey e)).map (fun p => p.2.2))) s

/-- A new epoch begins with its step: conversions that phase 7 made for it stand already. The first step keeps what the
derive pass recorded (R238). -/
def Watch.newEpoch (w : Watch) (first : Bool) : Watch :=
  let a := if first then w else { w with
    k := w.kNext, amax := w.amaxNext, sat := w.satNext, converted := w.convertedNext, counts := w.countsNext }
  { a with
    kept := a.counts, countsNext := {}, historyStart := a.history
    amaxStart := a.amax, satStart := a.sat, convertedStart := a.converted, amaxNext := 0, satNext := 0, convertedNext := false
    amaxScoped := 0, satScoped := 0, upd := 0, wgt := 0, uwr := 0, nonzero := 0, swept := 0, flags := 0 }

/-- The watch at job start: every entry at K_INIT with its counters at zero, the average the canonical NaN (R240, R246,
R249). Digests stay shown. -/
def State.startWatch (s : State) : State :=
  { s with watch := { s.watch with
      entries := s.watchTable.foldl (fun m e => NMap.insert m (entryKey e)
        { k := entryKInit e, kNext := entryKInit e, digest := (s.watchOf (entryKey e)).digest }) []
      lLocal := 0, gLocal := 0, lSum := 0, gSum := 0, estimate := 0x7FF8000000000000, average := 0x7FF8000000000000
      averageStart := 0x7FF8000000000000 } }

/-! ## What the modules exchange at the end of phase 6 (R241, R248) -/

/-- The entries whose AMAX and SAT a module of the job takes from this one: those that it converted and whose SCOPE holds both. -/
def State.sharedEntries (s : State) (m : Nat) : List Bytes :=
  s.watchTable.filter (fun e =>
    let scope := bits 3 2 (field e 3 1)
    entryScaled e && (s.watchOf (entryKey e)).converted && (scope == 2 || (scope == 1 && m / 8 == s.me / 8)))

/-- The message that a module receives (log 6): L_i, G_i and S_i, then KIND, ID, AMAX and SAT of each shared entry. -/
def State.watchMessage (s : State) (m : Nat) : Bytes :=
  leBytes 8 s.watch.lLocal.toNat ++ leBytes 8 s.watch.gLocal.toNat ++ leBytes 8 s.seq.stats.samples
    ++ leBytes 8 (s.sharedEntries m).length ++ (s.sharedEntries m).flatMap (fun e =>
      let w := s.watchOf (entryKey e)
      leBytes 2 (field e 2 1) ++ leBytes 2 (field e 0 2) ++ leBytes 4 w.amax.toNat ++ leBytes 4 (min w.sat 0xFFFFFFFF))

/-- This module's AMAX and SAT go to the other modules of each entry's scope, and its L_i, G_i and S_i to every module (R241, R248). -/
def State.shareWatch (s : State) : State :=
  (s.modules.filter (fun m => m != s.me)).foldl (fun (st : State) m => st.exchange m .watch 0 (st.watchMessage m)) s

/-! ## Gradient noise (R248, R249) -/

/-- A binary64 difference. -/
def sub64 (a b : Nat) : Nat := (fSub binary64 .rne a b).1
/-- A binary64 quotient. -/
def div64 (a b : Nat) : Nat := (fDiv binary64 .rne a b).1
/-- The canonical NaN of binary64. -/
def nan64 : Nat := binary64.genNaN
/-- A natural number in binary64. -/
def nat64 (n : Nat) : Nat := to64 (Num.ofInt n)

/-- noise(l, g, s, r) of R248. -/
def noiseOf (l g s : Nat) (r : Nat) : Nat :=
  if r < 2 then nan64
  else
    let lm := div64 l (nat64 r)
    let b := div64 s (nat64 r)
    let g2 := div64 (sub64 (mul64 s g) (mul64 b lm)) (sub64 s b)
    let sv := div64 (sub64 lm g) (sub64 (div64 (one binary64) b) (div64 (one binary64) s))
    let x := decodeNum binary64 g2
    let y := decodeNum binary64 sv
    if (fCmp binary64 .le g2 0).1 || (fCmp binary64 .lt sv 0).1 || !x.isFin || !y.isFin then nan64 else div64 sv g2

/-- The sums over all modules in ascending identifier, the estimate, and the moving average. -/
def State.endNoise (s : State) (peers : PeerStats) : State :=
  let all := ((s.me, s.watch.lLocal, s.watch.gLocal, s.seq.stats.samples) :: peers.noise).mergeSort (fun a b => decide (a.1 ≤ b.1))
  let sum := fun (f : Nat × Long × Long × Nat → Nat) => (match all with
    | [] => 0
    | x :: xs => xs.foldl (fun a y => add64 a (f y)) (f x))
  let l := sum (fun x => x.2.1.toNat)
  let g := sum (fun x => x.2.2.1.toNat)
  let est := noiseOf l g (sum (fun x => nat64 x.2.2.2)) s.replicas
  let avg := s.watch.average.toNat
  let next := if (decodeNum binary64 est).isNaN then avg
    else if (decodeNum binary64 avg).isNaN then est
    else add64 avg (to64 ((decodeNum binary64 (sub64 est avg)).scale (-(s.active.noiseShift.toNat : Int))))
  { s with watch := { s.watch with
      lSum := BitVec.ofNat 64 l, gSum := BitVec.ofNat 64 g, estimate := BitVec.ofNat 64 est, average := BitVec.ofNat 64 next } }

/-! ## Sweep statistics (R245 to R247) -/

/-- The churns' sums of a key in ascending unit code: ΣΔ², Σw² and the count (R196, R245). -/
def State.sweptSums (s : State) (key : Nat) : Nat × Nat × Nat :=
  s.churns.foldl (fun a c =>
    match NMap.find? c.2.sums key with
    | some x => (add64 a.1 x.upd.toNat, add64 a.2.1 x.wgt.toNat, a.2.2 + x.nonzero)
    | none => a) (0, 0, 0)

/-- The update-to-weight ratio in binary32 (R245). -/
def updateRatio (u w : Nat) : Nat :=
  let x := decodeNum binary64 u
  let y := decodeNum binary64 w
  if x.isNaN || y.isNaN then binary32.genNaN
  else if x.isZero && y.isZero then 0
  else if y.isZero then encodeInf binary32 false
  else (convert binary64 binary32 .rne true 0 (fSqrt binary64 .rne (div64 u w)).1).1

/-- The checks of a complete entry's ratio: UWR_LOW and UWR_HIGH, FLAGS[1] and [2]. -/
def State.checkRatio (s : State) (e : Bytes) (u w r : Nat) : State :=
  let key := entryKey e
  let lo := field e 16 4
  let hi := field e 20 4
  if (decodeNum binary64 u).isZero && (decodeNum binary64 w).isZero then s
  else
    let low := decide (lo ≠ 0) && (fCmp binary32 .lt r lo).1
    let high := (decodeNum binary32 r).isNaN || (decide (hi ≠ 0) && (fCmp binary32 .lt hi r).1)
    let s1 := if low then (s.setWatch key (fun x => { x with flags := x.flags ||| 2 })).raise 0x2303 0 (field e 0 2) else s
    if high then (s1.setWatch key (fun x => { x with flags := x.flags ||| 4 })).raise 0x2304 0 (field e 0 2) else s1

/-- STALL_LIMIT of an entry, or STALL_DEFAULT. -/
def State.stallLimit (s : State) (e : Bytes) : Nat := if field e 12 2 = 0 then s.active.stallDefault.toNat else field e 12 2

/-- The stall counter of a complete entry with a swept record (R246). -/
def State.checkStall (s : State) (e : Bytes) : State :=
  let key := entryKey e
  let w := s.watchOf key
  if 0 < w.nonzero then s.setWatch key (fun x => { x with stall := 0, stallRaised := false })
  else
    let s1 := s.setWatch key (fun x => { x with stall := satAdd x.stall 1 })
    let n := (s1.watchOf key).stall.toNat
    if s.active.stallEn && !bit 4 (field e 3 1) && !w.stallRaised && decide (s.stallLimit e ≤ n) then
      (s1.setWatch key (fun x => { x with stallRaised := true, flags := x.flags ||| 8 })).raise 0x2305 0 (field e 0 2) n
    else s1

/-- The sweep statistics of one entry of KIND 0x01 or 0x02. -/
def State.sweepEntryStats (s : State) (e : Bytes) : State :=
  let key := entryKey e
  let x := s.sweptSums key
  let r := updateRatio x.1 x.2.1
  let s1 := s.setWatch key (fun w => { w with
    upd := BitVec.ofNat 64 x.1, wgt := BitVec.ofNat 64 x.2.1, nonzero := x.2.2, uwr := BitVec.ofNat 32 r })
  let w := s1.watchOf key
  if bit 4 w.flags.toNat then s1
  else
    let s2 := s1.checkRatio e x.1 x.2.1 r
    if 0 < w.swept then s2.checkStall e else s2

/-- The sweep statistics at the end of phase 7. -/
def State.sweepStats (s : State) : State :=
  (s.watchTable.filter (fun e => field e 2 1 == 1 || field e 2 1 == 2)).foldl (fun (st : State) e => st.sweepEntryStats e) s

/-! ## Replica digests (R250) -/

/-- The bytes that a record contributes to a leaf: header bytes 0 to 3 and its planes. -/
def digestRecord (planes : Nat) (rec : Bytes) : Bytes := slice rec 0 4 ++ slice rec 32 (64 * planes)

/-- The leaf of check block b of a tensor's records. -/
def State.digestLeaf (s : State) (d : DenseTensor) (b : Nat) : Bytes :=
  let size := denseSize d.planes
  let k := perBlock size
  let data := (s.peek (d.base + 512 * b) 512).getD []
  bytes256 (Config.sha3 (((List.range (min k (d.blocks - k * b))).map (fun i => digestRecord d.planes (slice data (i * size) size))).flatten))

/-- The digest of a tensor. -/
def State.digestOf (s : State) (d : DenseTensor) : BitVec 256 :=
  Config.sha3 (((List.range (ceilDiv d.blocks (perBlock (denseSize d.planes)))).map (s.digestLeaf d)).flatten)

/-- Whether the current step is a digest step of an entry. -/
def State.digestStep (s : State) (e : Bytes) : Bool :=
  field e 2 1 == 1 && decide (0 < field e 14 2) && (s.seq.step.toNat + 1) % field e 14 2 == 0

/-- The digests of the step; each opens a new comparison. -/
def State.formDigests (s : State) : State :=
  (s.watchTable.filter s.digestStep).foldl (fun (st : State) e =>
    match st.dense (field e 0 2) with
    | some d => st.setWatch (entryKey e) (fun w => { w with
        digest := some (s.digestOf d, s.seq.step), peers := [], flags := w.flags ||| 0x20 })
    | none => st) s

/-- In phase 1 each module sends the digests of the last step to the other holders (R251). -/
def State.sendDigests (s : State) : State :=
  s.watchTable.foldl (fun (st : State) e =>
    match (st.watchOf (entryKey e)).digest with
    | some d =>
      if field e 2 1 = 1 ∧ d.2 + 1 = st.seq.step then
        st.messages st.digestPeers .digest (leBytes 2 (field e 0 2) ++ leBytes 6 d.2.toNat ++ bytes256 d.1)
      else st
    | none => st) s

/-! ## Watch records (R252) -/

/-- ERR_SQ, SRC_SQ and MSE of an entry (R244). -/
def Counts.errors (c : Counts) : Nat × Nat × Nat :=
  let x := c.errs.foldl (fun (a : Nat × Nat × Nat) e => (add64 a.1 e.2.1.toNat, add64 a.2.1 e.2.2.1.toNat, a.2.2 + e.2.2.2)) (0, 0, 0)
  (x.1, x.2.1, if x.2.2 = 0 then 0 else (convert binary64 binary32 .rne true 0 (div64 x.1 (nat64 x.2.2))).1)

/-- A signed exponent as one byte. -/
def byteOf (k : Int) : Nat := (BitVec.ofInt 8 k).toNat

/-- A watch record before its CRC. -/
def State.watchRecord (s : State) (e : Bytes) : Bytes :=
  let w := s.watchOf (entryKey e)
  let c := w.counts
  let er := c.errors
  let scaled := entryScaled e
  leBytes 2 (field e 0 2) ++ leBytes 1 (field e 2 1) ++ leBytes 1 w.flags.toNat ++ leBytes 6 s.seq.step.toNat
    ++ leBytes 1 (if scaled then byteOf w.k else 0) ++ leBytes 1 (if scaled then byteOf w.kNext else 0)
    ++ leBytes 4 (if scaled then w.amaxScoped.toNat else 0) ++ leBytes 8 w.histMax.toNat ++ leBytes 4 c.conversions.toNat
    ++ leBytes 4 c.saturations.toNat ++ leBytes 4 w.satScoped ++ leBytes 4 c.crowded.toNat ++ leBytes 4 c.crowdedBlocks.toNat
    ++ leBytes 4 c.zeroBlocks.toNat ++ leBytes 8 er.1 ++ leBytes 8 er.2.1 ++ leBytes 4 er.2.2 ++ leBytes 4 c.invalid.toNat
    ++ leBytes 4 c.divZero.toNat ++ leBytes 4 c.overflow.toNat ++ leBytes 4 c.underflow.toNat ++ leBytes 4 c.poison.toNat
    ++ leBytes 4 c.accLoss.toNat ++ leBytes 4 c.accChunks.toNat ++ leBytes 8 w.upd.toNat ++ leBytes 8 w.wgt.toNat
    ++ leBytes 4 w.uwr.toNat ++ leBytes 4 (min w.nonzero 0xFFFFFFFF) ++ leBytes 2 w.stall.toNat ++ leBytes 2 0
    ++ leBytes 4 c.inexact.toNat ++ leBytes 4 (if field e 2 1 = 2 then c.invalidLookups.toNat else 0) ++ List.replicate 24 0

/-- The watch records of a step, in ascending KIND and then ID: with RECORDS_EN and outside confidential mode (R252). -/
def State.watchRecords (s : State) : List Bytes :=
  if s.active.recordsEn && !s.confidential then
    ((s.watchTable.filter (fun e => bit 0 (field e 3 1))).mergeSort (fun a b => decide (entryKey a ≤ entryKey b))).map s.watchRecord
  else []

/-! ## The WATCH field of the step record (R254) -/

/-- The largest ratio of the entries that have one, and the lowest ID with it (R254). -/
def topRatio (es : List (Nat × Nat)) : Nat × Nat :=
  match es with
  | [] => (0xFFFF, 0)
  | e :: r => r.foldl (fun a x => if a.2 < x.2 ∨ (a.2 = x.2 ∧ x.1 < a.1) then x else a) e

/-- The lowest ID with the largest value of a measure, and the value; none when every value is 0. -/
def topEntry (es : List (Nat × Nat)) : Nat × Nat :=
  es.foldl (fun a e => if a.2 < e.2 ∨ (a.2 = e.2 ∧ 0 < e.2 ∧ e.1 < a.1) then e else a) (0xFFFF, 0)

/-- A saturating total of a count over every tensor and table. -/
def State.watchTotal (s : State) (f : Counts → Word) : Nat := min 0xFFFFFFFF (s.watch.entries.foldl (fun a e => a + (f e.2.counts).toNat) 0)

/-- The listed entries with their ID. -/
def State.listed (s : State) : List (Nat × Watch) := s.watchTable.map (fun e => (field e 0 2, s.watchOf (entryKey e)))

/-- The complete entries of KIND 0x01 or 0x02 with their ratio, which is not a NaN: a finite or infinite non-negative binary32 orders
as its encoding. -/
def State.ratios (s : State) : List (Nat × Nat) :=
  (s.watchTable.filter (fun e => field e 2 1 == 1 || field e 2 1 == 2)).filterMap (fun e =>
    let w := s.watchOf (entryKey e)
    if bit 4 w.flags.toNat || (decodeNum binary32 w.uwr.toNat).isNaN then none else some (field e 0 2, w.uwr.toNat))

/-- Bytes 96 to 159 of the step record. -/
def State.watchSummary (s : State) : Bytes :=
  let l := s.listed
  let count := fun (p : Watch → Bool) => l.countP (fun e => p e.2)
  let uwr := topRatio s.ratios
  let sat := topEntry (l.map (fun e => (e.1, e.2.counts.saturations.toNat)))
  let stall := topEntry (l.map (fun e => (e.1, e.2.stall.toNat)))
  let digest := l.any (fun e => bit 5 e.2.flags.toNat)
  leBytes 4 (count (fun w => decide (0 < w.counts.conversions.toNat ∨ 0 < w.swept)))
    ++ leBytes 4 (count (fun w => bit 0 w.flags.toNat)) ++ leBytes 4 (count (fun w => bit 1 w.flags.toNat || bit 2 w.flags.toNat))
    ++ leBytes 4 (count (fun w => bit 3 w.flags.toNat)) ++ leBytes 4 (s.watchTotal (·.saturations)) ++ leBytes 4 (s.watchTotal (·.crowded))
    ++ leBytes 4 (s.watchTotal (·.zeroBlocks)) ++ leBytes 4 (s.watchTotal (·.poison)) ++ leBytes 4 (s.watchTotal (·.invalid))
    ++ leBytes 4 (s.watchTotal (·.overflow)) ++ leBytes 4 s.seq.stats.accOvf ++ leBytes 4 s.seq.stats.accLoss
    ++ leBytes 4 uwr.2 ++ leBytes 2 uwr.1 ++ leBytes 2 sat.1 ++ leBytes 2 stall.1 ++ leBytes 2 stall.2
    ++ leBytes 1 (b2n digest) ++ List.replicate 3 0

end Sys2Proof.Machine
end

