-- ==== Sys2Proof/Machine/Phases.lean ====
section
/-! DEFINITION. The eight phases of a step (R51): the start of each, the end of phase 6, the update sweep and its end
(R174, R389), the tail slots (R54 to R56), the close of the step (R53), the step record (R72 to R74), and how a job ends
(R49, R70, R150). -/

namespace Sys2Proof.Machine

/-! ## Time and phases -/

/-- The module's copy of the time base reads a time. -/
def State.timed (s : State) (now : Long) : State := { s with clk.time := now }

/-- A phase has started in the step. -/
def State.inPhase (s : State) (p : Nat) : Bool := s.seq.phases.started.contains p
/-- A phase has ended in the step. -/
def State.phaseOver (s : State) (p : Nat) : Bool := s.seq.phases.ended.contains p

/-- A phase has ended, at a time no later than now. -/
def State.endPhaseAt (s : State) (p : Nat) (at' : Long) : State :=
  { s with
    seq.phases.ended := p :: s.seq.phases.ended
    seq.phases.ends := NMap.insert s.seq.phases.ends p ((min at'.toNat s.clk.time.toNat - s.seq.tickTime.toNat) / 10) }

/-- A phase ends now. -/
def State.endPhase (s : State) (p : Nat) : State := s.endPhaseAt p s.clk.time

/-- A phase starts: a local replay ends when it has passed the phase in which its fault was found (R383). -/
def State.beginPhase (s : State) (p : Nat) : State :=
  let s1 := if s.seq.replay.phase < p then s.endReplay else s
  { s1 with seq.phases.started := p :: s1.seq.phases.started }

/-! ## Phases 2 to 6 (R51) -/

/-- GATHER_PHASE_START on the state: phase 1 has ended, with the owner's union and its budget checks, and phase 2 begins. -/
def State.startGather (s : State) (ended : Long) : State :=
  if s.jobRuns && s.inPhase 1 && !s.inPhase 2 && s.listsArrived then ((s.aggregateOwner.endPhaseAt 1 ended).beginPhase 2).serveRows else s

/-- GATHER_PHASE_START: phase 1 has ended and every awaited send list has arrived (R51); the owner reads each unique row
once and returns rows in each list's order (R158). `ended` is when phase 1 ended. -/
def execGatherPhaseStart (times : PhaseStart) (s : State) : Host.Outcome State Fault Refusal := .next ((s.timed times.now).startGather times.ended)

/-- Every bag of the step. -/
def State.everyBag (s : State) : List (Nat × Nat) :=
  s.stepBatches.flatMap (fun qd => (featureBlocks qd.2.data).zipIdx.flatMap (fun e =>
    (List.range (field qd.2.data (e.1.off + 4) 4)).map (fun p => (qd.2.sampleBase + p, e.2))))

/-- Phase 2 has ended: every unique row has its values and every bag is pooled. -/
def State.gathered (s : State) : Bool :=
  s.emb.now.unique.all (fun e => (NMap.find? s.emb.now.values (rowKey e.table e.row)).isSome)
    && s.everyBag.all (fun b => s.emb.now.pooled.any (fun x => x.1 == b.1 && x.2.1 == b.2))

/-- DENSE_FORWARD_START on the state. -/
def State.startForward (s : State) (mb : Nat) (ended : Long) : State :=
  if s.jobRuns && s.inPhase 2 && s.seq.phases.forwardStarted == mb && decide (mb < s.microBatches) && (mb != 0 || s.gathered) then
    let s1 := if mb = 0 then (s.endPhaseAt 2 ended).beginPhase 3 else s
    { s1 with seq.phases.forwardStarted := mb + 1 }
  else s

/-- DENSE_FORWARD_START: phase 3 starts for a micro-batch (R51). `ended` is when phase 2 ended. -/
def execDenseForwardStart (mb : Fin 64) (times : PhaseStart) (s : State) : Host.Outcome State Fault Refusal :=
  .next ((s.timed times.now).startForward mb.val times.ended)

/-- BACKWARD_START on the state: the last micro-batch's start ends phase 3. -/
def State.startBackward (s : State) (mb : Nat) (ended : Long) : State :=
  if s.jobRuns && decide (mb < s.seq.phases.forwardStarted) && s.seq.phases.backwardStarted == mb then
    let s1 := if mb = 0 then s.beginPhase 4 else s
    let s2 := if mb + 1 = s.microBatches then s1.endPhaseAt 3 ended else s1
    { s2 with seq.phases.backwardStarted := mb + 1 }
  else s

/-- BACKWARD_START: phase 4 starts for a micro-batch (R51). `ended` is when phase 3 of the micro-batch ended. -/
def execBackwardStart (mb : Fin 64) (times : PhaseStart) (s : State) : Host.Outcome State Fault Refusal :=
  .next ((s.timed times.now).startBackward mb.val times.ended)

/-- GRADIENT_EXCHANGE_START on the state: the first layer sends the step's appended positions, and the layer that the plan
gives the row gradients to forms and sends their partials. -/
def State.startExchange (s : State) (layer : Nat) : State :=
  if s.jobRuns && s.seq.phases.backwardStarted == s.microBatches && !s.seq.phases.layers.contains layer then
    let s1 := if s.seq.phases.layers.isEmpty then (s.beginPhase 5).sendAppends else s
    let s2 : State := { s1 with seq.phases.layers := layer :: s1.seq.phases.layers }
    if some layer = s.plan.map (fun p => p.layout.embeddingLayer) then s2.mergePartial else s2
  else s

/-- GRADIENT_EXCHANGE_START: a layer's gradients are final for all micro-batches on this module (R51, R165, R226). -/
def execGradientExchangeStart (layer : Nat) (now : Long) (s : State) : Host.Outcome State Fault Refusal :=
  .next ((s.timed now).startExchange layer)

/-- This module's own partials are formed. -/
def State.partialsFormed (s : State) : Bool :=
  s.emb.now.unique.isEmpty || ((s.plan.map (fun p => s.seq.phases.layers.contains p.layout.embeddingLayer)).getD false)

/-- MERGE_PHASE_START on the state. -/
def State.startMerge (s : State) (ended : Long) : State :=
  if s.jobRuns && s.seq.phases.backwardStarted == s.microBatches && !s.inPhase 6 && s.partialsArrived && s.partialsFormed then
    ((s.endPhaseAt 4 ended).beginPhase 6).mergeRows
  else s

/-- MERGE_PHASE_START: phase 4 has ended and every row-gradient contribution has arrived (R51, R166, R167). `ended` is when phase 4
ended. -/
def execMergePhaseStart (times : PhaseStart) (s : State) : Host.Outcome State Fault Refusal := .next ((s.timed times.now).startMerge times.ended)

/-- A channel holds a retraining request. -/
def State.retrainWaits (s : State) : Bool := s.mem.channels.any (fun e => e.2.pending.isSome)

/-- A slot is claimed for the tail of the step (R55). -/
def State.claimSlot (s : State) (k : Nat) : State :=
  if s.seq.tail.claimed.contains k then s else { s with seq.tail.claimed := (k :: s.seq.tail.claimed).mergeSort (· ≤ ·) }

/-- The memory system's claim on the maintenance slot; a claim that the slot already has, as one deferred from an earlier step, stays in
force, and the later one is refused with CONFLICT (R55). -/
def State.claimMaintenance (s : State) : State := if s.seq.tail.claimed.contains 1 then s.raise 0x9020 unitSequencer 0 1 else s.claimSlot 1

/-- PHASE_6_END on the state: this module's figures leave for the other modules, and theirs have arrived. -/
def State.endMerge (s : State) (peers : PeerStats) : State :=
  if s.jobRuns && s.inPhase 6 && !s.phaseOver 6 then
    let s1 := (((s.endPhase 6).endReplay).shareWatch.endEpoch peers).endNoise peers
    if s1.retrainWaits then s1.claimMaintenance else s1
  else s

/-- PHASE_6_END: the scales and the noise estimate of the step are formed (R240 to R242, R248, R249), and the memory
system claims the maintenance slot (R322). -/
def execPhase6End (now : Long) (peers : PeerStats) (s : State) : Host.Outcome State Fault Refusal :=
  .next ((s.timed now).endMerge peers)

/-! ## Phase 7 (R51, R174, R389) -/

/-- The dense records of a line's list. -/
def denseItems (l : PlanLayout) (line : Nat) : List SweepItem :=
  (l.dense.mergeSort (fun a b => decide (a.id ≤ b.id))).flatMap (fun d =>
    ((d.binds.filter (fun b => lineIx b.2.2 == line)).mergeSort (fun a b => decide (a.1 ≤ b.1))).flatMap (fun b =>
      (List.range (b.2.1 + 1 - b.1)).map (fun i => SweepItem.dense d.id (b.1 + i))))

/-- Whether a churn takes a segment record: an entry in its sweep table, its home tile, and the parity of its check block or
the other line unavailable (R174). -/
def State.takesRow (s : State) (line : Nat) (t : TableVer) (row g : Nat) : Bool :=
  (s.sweepEntry line 2 t.id).isSome
    && (match t.rangeOf row with
      | some r => s.homeTile t.id r.1 == some (line / 2)
      | none => false)
    && ((t.recordNo row g / perBlock t.rs) % 2 == line % 2 || !s.lineAvailable (line / 2) (otherLine line % 2))

/-- The segment records of a line's list: the owned unique rows in ascending table and row, then segment. -/
def State.rowItems (s : State) (line : Nat) : List SweepItem :=
  s.emb.now.owned.flatMap (fun e =>
    match s.currentTable e.table with
    | some t => ((List.range t.segs).filter (fun g => s.takesRow line t e.row g)).map (fun g => SweepItem.row t.id t.version e.row g)
    | none => [])

/-- The sweep list of a line (R174); a line that is not available has none. -/
def State.sweepList (s : State) (line : Nat) : List SweepItem :=
  if s.lineAvailable (line / 2) (line % 2) then ((s.plan.map (fun p => denseItems p.layout line)).getD []) ++ s.rowItems line else []

/-- The churn programs that a line's sweep table names. -/
def State.linePrograms (s : State) (line : Nat) : List Bytes :=
  match s.plan with
  | some p => p.layout.programs.filter (fun b => p.layout.sweep.any (fun e => lineIx e.1 == line && field e.2 4 2 == field b 0 2))
  | none => []

/-- C56 to C63 of a line's programs for the step (R187), keyed by 64 × program + constant. -/
def lineConstants (progs : List Bytes) (step : Nat) : NMap Word :=
  progs.foldl (fun m b => ((stepConstants b (updateCount b step)).zipIdx).foldl (fun m c =>
    NMap.insert m (64 * field b 0 2 + 56 + c.2) (BitVec.ofNat 32 c.1)) m) []

/-- The registers that the prologues of a line's programs leave (R185), keyed by 1,024 × program + 32 × register + lane. -/
def linePrologues (progs : List Bytes) (consts : NMap Word) : NMap Word :=
  progs.foldl (fun m b =>
    let id := field b 0 2
    let c := fun k => if k < 56 then field b (64 + 4 * k) 4 else (NMap.getD consts (64 * id + k) 0).toNat
    (prologueRegs c b).foldl (fun m r => NMap.insert m (1024 * id + r.1) r.2) m) []

/-- A line's churn as the sweep begins: its list, its constants, and its prologues run once. -/
def State.freshChurn (s : State) (line : Nat) : Churn :=
  let progs := s.linePrograms line
  let consts := lineConstants progs s.seq.step.toNat
  { list := s.sweepList line, consts := consts, prologue := linePrologues progs consts }

/-- Every churn begins its sweep. -/
def State.startChurns (s : State) : State :=
  { s with churns := (List.range 64).foldl (fun m line => NMap.insert m line (s.freshChurn line)) [] }

/-- The export log lacks room for a step's delta items (R397). -/
def State.logShort (s : State) : Bool :=
  s.rel.exp.logging && (match s.exportLog with
    | some l => decide (l.1 - s.rel.exp.logUsed < l.2)
    | none => false)

/-- Phase 7 waits for room in the export log: EXPORT_WAIT and an excess, once (R397). -/
def State.waitExport (s : State) : State :=
  if s.rel.exp.waiting then s else (({ s with rel.exp.waiting := true } : State).raise 0x7402).declareExcess

/-- How many messages of an operation from a module the plan's schedule brings this one in the step. -/
def State.scheduledFrom (s : State) (op : ExchangeOp) (src : Nat) : Nat :=
  ((s.plan.map (fun p => p.layout.exchanges)).getD []).countP (fun e => e.op == op && e.src.toNat == src && e.dst.toNat == s.me)

/-- Every dense reduction that this module receives has completed (R51): none that has begun is owed, and every REDUCE and ALL_GATHER
message that the schedule brings has been consumed; or the witness returned what they give (R386). -/
def State.reductionsDone (s : State) : Bool :=
  s.seq.replay.verdictOk || s.fab.reducing.isEmpty && s.modules.all (fun m =>
    decide (s.scheduledFrom .reduce m ≤ NMap.getD s.fab.gotNo (countKey m .reduce) 0)
      && decide (s.scheduledFrom .allGather m ≤ NMap.getD s.fab.gotNo (countKey m .allGather) 0))

/-- Every condition of R51 and R389 but the export log's. -/
def State.sweepMay (s : State) : Bool :=
  s.jobRuns && s.phaseOver 6 && !s.inPhase 7 && !s.seq.replay.running && (!s.seq.replay.suspect || s.seq.replay.verdictOk)
    && s.reductionsDone && s.appendsArrived

/-- UPDATE_SWEEP_START on the state. -/
def State.startSweep (s : State) (ended : Long) : State :=
  if !s.sweepMay then s
  else if s.logShort then s.waitExport
  else ((({ s with rel.exp.waiting := false } : State).endPhaseAt 5 ended).beginPhase 7).startChurns.writeAppends

/-- UPDATE_SWEEP_START: phase 7 begins once replays and witness verdicts allow and every dense reduction has completed
(R51, R389); the step constants and prologues are formed (R185, R187) and the appended positions written (R226). `ended` is when
phase 5 ended: the last dense reduction may complete after phase 6 has begun. -/
def execUpdateSweepStart (times : PhaseStart) (s : State) : Host.Outcome State Fault Refusal := .next ((s.timed times.now).startSweep times.ended)

/-- A churn has no record left. -/
def Churn.idle (k : Churn) : Bool := decide (k.list.length ≤ k.v) && k.resume.isNone

/-- The update sweep has ended: every churn's list is done and the user records are written. -/
def State.swept (s : State) : Bool := s.churns.all (fun e => e.2.idle) && (s.hist.written || s.histSets.isEmpty)

/-- A line's list cannot be continued: its churn faulted, and the tile's other one cannot take over (R211). -/
def State.listLost (s : State) (line : Nat) : Bool := (s.churn line).faulted && !(s.churn line).idle && !s.canTakeOver line

/-- An append write failed twice (R226). -/
def State.appendLost (s : State) : Bool := s.hist.writing.any (fun w => decide (2 ≤ w.2))

/-- Phase 7 has begun and cannot end: a list or an append is lost, and every other churn has completed its own (R177, R211, R226). -/
def State.sweepStuck (s : State) : Bool :=
  (s.appendLost || s.churns.any (fun e => s.listLost e.1)) && s.churns.all (fun e => e.2.idle || s.listLost e.1)

/-- Phase 7 is in progress, and a halt waits for it (R177). -/
def State.sweepRuns (s : State) : Bool := s.inPhase 7 && !s.phaseOver 7 && !s.sweepStuck

/-! ## The end of a job (R49, R70, R150, R393, R398) -/

/-- The job's connections close, and what the fabric holds for the job goes with it (R266, R277, R279, R280, R294). -/
def State.closeConnections (s : State) : State :=
  { s with
    seq.joined := false, seq.joinFrom := []
    fab := { s.fab with
      conns := [], mapDigests := [], mismatch := false
      pen := s.fab.pen.map (fun e => (e.1, { e.2 with sendGroup := [], group := [], groupsSent := 0, groupsGot := 0, tagFails := 0 })) } }

/-- The job ends and the device enters IDLE. -/
def State.toIdle (s : State) : State :=
  let s1 : State := { s with
    seq.job := .idle, seq.stopPending := false, seq.haltPending := false, seq.haltDue := false
    seq.periodAnn := none, seq.periodAsk := none, seq.next := {}
    clk.t0 := none, clk.decision := none, clk.tickLost := false
    rel.lifeWritten := s.rel.lifeSteps }
  s1.closeConnections.exportJobEnded.settleVersions

/-- The job halts (R70): its state stays in tile stores and HBM. -/
def State.enterHalted (s : State) : State :=
  ({ s with
    seq.job := .halted, seq.stopPending := false, seq.haltPending := false, seq.haltDue := false
    clk.decision := none, clk.tickLost := false } : State).exportJobEnded

/-! ## The step record (R72, R74) -/

/-- FLAGS of a step record. -/
def State.stepFlags (s : State) : Nat :=
  let t := s.seq.stats
  b2n t.slipped + 2 * b2n t.budget + 4 * b2n t.replayed + 8 * b2n t.witness + 16 * b2n t.reserveShort + 32 * b2n t.holdover
    + 64 * b2n t.voided + 128 * b2n t.deferred + 256 * b2n s.confidential

/-- TAIL_GRANT: the replay reserve is bit 0 of each half. -/
def State.tailGrant (s : State) : Nat :=
  let t := s.seq.tail
  let used := decide (0 < s.seq.replay.count)
  packFields ((0, b2n used) :: (4, b2n (used && !s.seq.stats.reserveShort))
    :: (t.claimed.map (fun k => (k, 1)) ++ t.granted.map (fun k => (4 + k, 1))))

/-- SLACK: the decision point after the step's tick less the moment of DONE, in 10 ns, as 32 bits. -/
def State.slack (s : State) : Nat :=
  (BitVec.ofInt 32 (((s.seq.tickTime.toNat + s.period * 1000 - 50000 : Nat) : Int) / 10 - ((s.clk.time.toNat : Int) / 10))).toNat

/-- Bytes 32 to 251 of a step record. -/
def State.stepDetail (s : State) : Bytes :=
  let t := s.seq.stats
  ((List.range 8).map (fun i => leBytes 4 (NMap.getD s.seq.phases.ends (i + 1) 0))).flatten ++ leBytes 4 s.tailGrant
    ++ leBytes 4 (s.seq.replay.reserveUsed * 100) ++ leBytes 4 s.seq.intake.endTime ++ leBytes 4 s.slack ++ leBytes 4 t.maxUnique
    ++ leBytes 2 t.busyTable ++ leBytes 2 t.busyRange ++ leBytes 4 t.excessRanges ++ leBytes 4 t.invalid ++ s.watchSummary
    ++ leBytes 8 s.watch.lLocal.toNat ++ leBytes 8 s.watch.gSum.toNat ++ leBytes 8 s.watch.estimate.toNat
    ++ leBytes 8 s.watch.average.toNat ++ leBytes 8 t.hbmBytes ++ leBytes 8 t.penBytes ++ leBytes 8 t.herdBytes
    ++ leBytes 2 t.tjMax.toNat ++ List.replicate 34 0

/-- The step record's 252 bytes before LOST, POWER_AVG and the CRC. -/
def State.stepBody (s : State) : Bytes :=
  let t := s.seq.stats
  leBytes 6 s.seq.step.toNat ++ leBytes 2 s.stepFlags ++ leBytes 8 s.seq.tickTime.toNat ++ leBytes 1 (min t.slips 255)
    ++ leBytes 1 s.seq.replay.count ++ leBytes 2 s.microBatches ++ leBytes 4 t.batches ++ leBytes 4 t.samples ++ leBytes 2 t.clockMin
    ++ leBytes 2 t.clockMax ++ (if s.confidential then List.replicate 220 0 else s.stepDetail)

/-- The record of the step is due. -/
def State.dueRecord (s : State) : DueRecord :=
  { step := s.seq.step, body := s.stepBody, watch := s.watchRecords, digest := s.watchTable.any s.digestStep }

/-! ## The tail (R54 to R56) -/

/-- The step closes: its record is due, the module reports DONE, and a stopped job with no further intake enters IDLE. -/
def State.closeStep (s : State) : State :=
  let s0 := ({ s with seq.tail.current := none } : State).endPhase 8
  let s1 := ({ s0 with seq.due := s0.seq.due ++ [s0.dueRecord] } : State).reportDone
  if s1.seq.job = .stopping ∧ !s1.seq.next.active then s1.toIdle else s1

/-- The declared budget of a slot in µs. -/
def State.slotBudget (s : State) (k : Nat) : Nat :=
  match s.plan with
  | some p => if k = 1 then p.header.maintUs else if k = 2 then p.header.evalUs else p.header.exportUs
  | none => 0

/-- The time of the next tick (R47, R56): the ticks go on while a step is held. -/
def State.nextTickTime (s : State) : Nat := s.clk.lastTick.toNat + s.period * 1000

/-- Whether a slot's whole budget fits before the step-close margin. -/
def State.slotFits (s : State) (k : Nat) : Bool :=
  decide (s.clk.time.toNat + s.slotBudget k * 1000 + 100000 ≤ s.nextTickTime)

/-- The channel that a stack retrains: its oldest request, the lower number among equals (R322). -/
def State.oldestRequest (s : State) (k : Nat) : Option Nat :=
  ((List.range 32).foldl (fun (best : Option (Nat × Nat)) i =>
    match (s.channel (32 * k + i)).pending with
    | none => best
    | some t =>
      match best with
      | some b => if t.toNat < b.2 then some (32 * k + i, t.toNat) else best
      | none => some (32 * k + i, t.toNat)) none).map (·.1)

/-- Each stack with a request holds one channel. -/
def State.holdChannels (s : State) : State :=
  (List.range 12).foldl (fun (st : State) k =>
    match st.oldestRequest k with
    | some c => st.setChannel c (fun x => { x with held := true })
    | none => st) s

/-- A slot is granted and begins. -/
def State.grantSlot (s : State) (k : Nat) : State :=
  let s1 : State := { s with seq.tail.granted := s.seq.tail.granted ++ [k], seq.tail.current := some k }
  if k = 1 then s1.holdChannels else if k = 2 then { s1.keepCounts with emb.now := {}, attn := [], hist.ringSent := [] } else s1

/-- The bound of every EVAL_BATCH whose slot is deferred moves by an interval (R66). -/
def State.deferEvals (s : State) : State :=
  { s with host.queues := s.host.queues.map (fun e => (e.1, { e.2 with descs := e.2.descs.map (fun d =>
      if dOp d.bytes = 2 ∧ d.stage = .taken ∧ d.step.toNat ≤ s.seq.step.toNat then { d with deferrals := d.deferrals + 1 } else d) })) }

/-- A claim passes to the next step's tail with TAIL_DEFER (R56). -/
def State.deferSlot (s : State) (k : Nat) : State :=
  ({ (if k = 2 then s.deferEvals else s) with
    seq.tail.deferred := s.seq.tail.deferred ++ [k], seq.stats.deferred := true } : State).raise 0x1204 0 k

/-- The sequencer grants the next claimed slot in priority order, or closes the step. -/
def State.grantNext : Nat → State → State
  | 0, s => s.closeStep
  | fuel + 1, s =>
    match s.seq.tail.claimed.find? (fun k => !s.seq.tail.granted.contains k && !s.seq.tail.deferred.contains k) with
    | none => s.closeStep
    | some k => if s.slotFits k then s.grantSlot k else State.grantNext fuel (s.deferSlot k)

/-- The batches of an opcode that the step has taken. -/
def State.takenBatches (s : State) (op : Nat) : List (Nat × Desc) :=
  s.host.queues.flatMap (fun e => (e.2.descs.filter (fun d =>
    dOp d.bytes == op && d.stage == .taken && d.intakeDone && decide (d.step.toNat ≤ s.seq.step.toNat))).map (fun d => (e.1, d)))

/-- The claims of the step on the evaluation slot and the export drain. -/
def State.claimTail (s : State) : State :=
  let s1 := if (s.takenBatches 2).isEmpty then s else s.claimSlot 2
  if s1.rel.exp.mode = .base ∨ s1.rel.exp.mode = .delta then s1.claimSlot 3 else s1

/-! ## The commit (R171, R389, R393) -/

/-- Swaps whose last old step this is take effect (R171). -/
def State.commitSwaps (s : State) : State :=
  (s.emb.swaps.filter (fun w => w.announced && w.lastOld == some s.seq.step)).foldl (fun (st : State) w =>
    st.commitSwap w.table w.version w.waiters) s

/-- One more step of the module's life; written to flash every 65,536 steps (R391, R393). -/
def State.countStep (s : State) : State :=
  let n := s.rel.lifeSteps + 1
  { s with rel.lifeSteps := n, rel.lifeWritten := if n.toNat % 65536 = 0 then n else s.rel.lifeWritten }

/-- The units of the step's messages are no longer needed: its logs are cleared (R380). -/
def State.clearMessages (s : State) : State :=
  { s with fab := { s.fab with
    msgs := [], sentNo := [], gotNo := [], sendLog := [], recvLog := [], asked := []
    pen := s.fab.pen.map (fun e => (e.1, { e.2 with msgsGot := 0, unitsGot := 0 })) } }

/-- Finish the taken batches of an opcode (R354, R389). -/
def State.finishBatches (s : State) (op : Nat) : State := (s.takenBatches op).foldl (fun (st : State) d => st.finishBatch d.1 d.2) s

/-- The vector files of the step's batches (R106). -/
def State.vectorFiles (s : State) : List Bytes := ((s.takenBatches 1).map (fun d => d.2.data)).filter isVectorFile

/-- The step commits on the module. -/
def State.commitStep (s : State) : State :=
  ((((((s.endPhase 7).sweepStats.formDigests).commitSwaps).countStep.clearMessages).runVectors s.vectorFiles).exportSweepEnded).finishBatches 1

/-- SWEEP_END on the state. -/
def State.endSweep (s : State) : State :=
  if s.inPhase 7 && !s.phaseOver 7 && s.jobRuns && s.swept then
    let s1 := s.commitStep
    if s1.seq.haltDue then ({ s1 with seq.due := s1.seq.due ++ [s1.dueRecord] } : State).enterHalted else State.grantNext 4 s1.claimTail
  else s

/-- SWEEP_END: the update sweep ends and the step commits (R389): sweep statistics (R245 to R247), digests (R250), swaps
(R171), completions may be written, and the tail slots are granted (R56). -/
def execSweepEnd (now : Long) (s : State) : Host.Outcome State Fault Refusal := .next (s.timed now).endSweep

/-- The evaluation slot's work is over: its batches finish. -/
def State.endEvaluation (s : State) : State :=
  let s1 := (s.finishBatches 2).clearMessages
  { s1 with emb.now := {}, attn := [], seq.evalFaults := 0 }

/-- TAIL_SLOT_END on the state. -/
def State.endSlot (s : State) : State :=
  match s.seq.tail.current with
  | none => s
  | some k =>
    let s1 := if k = 2 then s.endEvaluation else s
    State.grantNext 4 { s1 with seq.tail.current := none }

/-- TAIL_SLOT_END: a granted tail slot ends and the next granted slot begins; after the last the module reports DONE
(R53, R54). -/
def execTailSlotEnd (now : Long) (s : State) : Host.Outcome State Fault Refusal := .next (s.timed now).endSlot

/-! ## Writing the records (R72, R73, R252, R253) -/

/-- Every completion record of a step's batches has been written, also of an EVAL_BATCH whose slot was deferred (R72). -/
def State.completionsOut (s : State) (step : BitVec 48) : Bool :=
  !s.host.queues.any (fun e => e.2.descs.any (fun d =>
    d.step == step && (dOp d.bytes == 1 || dOp d.bytes == 2) && (d.stage == .taken || d.stage == .finished)))

/-- The digests of a step have been compared: phase 1 of the next step has ended, or none will run. -/
def State.compared (s : State) (r : DueRecord) : Bool :=
  !r.digest || !s.jobRuns || decide (r.step.toNat + 1 < s.seq.step.toNat) || (decide (r.step.toNat + 1 = s.seq.step.toNat) && s.phaseOver 1)

/-- A watch record goes to the ring when it has a free entry; else it is lost, with WATCH_DROP once per step (R253). -/
def State.offerWatch (s : State) (w : Bytes) : State :=
  if 0 < s.telemetryRoom then s.acceptRecord 2 (w ++ leBytes 4 (crc32c w))
  else ({ s with watch.lost := satAdd s.watch.lost 1 } : State).raiseOnce 0 0x2307

/-- STEP_RECORD on the state: the oldest due record with the mean input power over the step. A step that this module still
witnesses for another waits (R385). -/
def State.writeRecord (s : State) (power : Half) : State :=
  match s.seq.due with
  | [] => s
  | r :: rest =>
    if s.completionsOut r.step && s.compared r && !s.rel.witnessReqs.any (fun q => q.2 == r.step) then
      let body := if bit 8 (field r.body 6 2) then r.body else splice r.body 218 (leBytes 2 power.toNat)
      r.watch.foldl (fun (st : State) w => st.offerWatch w) (({ s with seq.due := rest } : State).offerStepRecord body)
    else s

/-- STEP_RECORD: the sequencer writes a step's record, and its watch records, after the step's completions (R72, R252).
`power` is the mean input power over the step. -/
def execStepRecord (now : Long) (power : Half) (s : State) : Host.Outcome State Fault Refusal :=
  .next ((s.timed now).writeRecord power)

end Sys2Proof.Machine
end

