-- ==== Sys2Proof/Machine/JobStart.lean ====
section
/-! DEFINITION. How a job starts: the write of SEQ_CTRL (R76), the checks of a START (R39, R150, R270, R308, R426, R488),
joining (R294), retiring units (R394), and the start tick T_0 with its derive pass (R49, R121, R182, R227). -/

namespace Sys2Proof.Machine

/-! ## The checks of a START -/

/-- A table of the job lacks a descriptor, or a complete current version of a range that the module owns (R150). -/
def State.tablesIncomplete (s : State) : Bool :=
  s.jobTables.any (fun id => match s.currentTable id with
    | some t => !s.tableComplete t
    | none => true)

/-- Every peer of the pen is reached by exactly one trained engine (R270). -/
def State.penComplete (s : State) : Bool :=
  s.penPeers.all (fun m => (List.range 8).countP (fun k => (s.pen k).up && (s.pen k).valid && (s.pen k).peer.toNat == m % 8) == 1)

/-- A unit whose loss makes the module refuse every job start (R39): a link of the mesh, a host port, the sequencer or the
tack room; or more than four channels (R308). -/
def State.beyondService (s : State) : Bool :=
  s.rel.ledger.any (fun e => decide (4 ≤ e.1 / 4096) && (e.2.state == 2 || e.2.state == 3))
    || decide (4 < (List.range 384).countP (fun c => s.unavailable (unitChannel c)))

/-- The events of the checks that fail (R150, R270, R308, R488), and of a job map that R47 refuses. With no plan loaded START is refused
with PLAN_BAD (DESIGN CHOICE: the manual does not say what it does; log 41). -/
def State.startFailures (s : State) : List Nat :=
  (match s.plan with
    | some p => if s.planStartBad p then [0x1302] else []
    | none => [0x1302])
    ++ (if s.tablesIncomplete then [0x3007] else []) ++ (if s.penComplete then [] else [0x5004])
    ++ (if s.retirePending then [0x4003] else []) ++ (if s.active.tickSource == 2 && s.multi then [0x5301] else [])

/-- Every permanent unit is retired when a job start is accepted (R394). -/
def State.retireUnits (s : State) : State :=
  (s.rel.ledger.filter (fun e => e.2.state == 2)).foldl (fun (st : State) e =>
    (st.setUnit (BitVec.ofNat 16 e.1) (fun u => { u with state := 3 })).raise 0x7203 (BitVec.ofNat 16 e.1)) s

/-! ## Joining (R294) -/

/-- The modules to which this one opens connections: its position in the other pens, the tree's, and those that the
exchange schedule names. -/
def State.connected (s : State) : List Nat :=
  let pos := s.modules.filter (fun m => m / 8 != s.me / 8 && m % 8 == s.me % 8)
  let tree := (match treeParent s.tickMaster s.me with
    | some p => [p]
    | none => []) ++ s.treeChildren
  let named := ((s.plan.map (fun p => p.layout.exchanges)).getD []).flatMap (fun e =>
    if e.src.toNat = s.me then [e.dst.toNat] else if e.dst.toNat = s.me then [e.src.toNat] else [])
  ((pos ++ tree ++ named).filter (fun m => m != s.me && m / 8 != s.me / 8)).eraseDups

/-- The digest of this module's job map. -/
def State.ownMapDigest (s : State) : BitVec 256 := s.mapDigestOf ((s.jobMap.map (·.bytes)).getD [])

/-- A module that received this digest and its own differ: MAP_MISMATCH, and it does not join. -/
def State.mapDiffers (s : State) : Bool := s.fab.mapDigests.any (fun d => d.2 != s.ownMapDigest)

/-- JOIN goes up the tree once this module and, at a lead module, every module below it has joined. -/
def State.sendJoin (s : State) : State :=
  if s.seq.joined && s.treeChildren.all (fun m => s.seq.joinFrom.any (fun j => j.toNat == m)) then
    s.upTree .join (leBytes 2 s.me)
  else s

/-- This module joins, unless a digest differs; then its connections close again, so that the next job's counts start at 0. -/
def State.join (s : State) : State :=
  if s.mapDiffers then ({ s.closeConnections with fab.mismatch := true, seq.startPending := false } : State).raise 0x5303
  else { s with seq.joined := true }

/-- The bytes of a decision message (log 6): GO, the period and its tick, T_0, and the swaps. -/
def decisionBody (d : Decision) : Bytes :=
  leBytes 1 (b2n d.go) ++ (match d.period with
    | some p => leBytes 4 p.1.toNat ++ leBytes 8 p.2
    | none => List.replicate 12 0) ++ leBytes 8 ((d.t0.getD 0).toNat) ++ leBytes 2 d.swaps.length
    ++ d.swaps.flatMap (fun w => leBytes 2 w.1 ++ leBytes 4 w.2)

/-- The tick master announces T_0 once every module has joined: the first tick at least two periods after the last JOIN. -/
def State.announceStart (s : State) : State :=
  if s.isMaster && s.seq.joined && s.seq.startPending && s.treeChildren.all (fun m => s.seq.joinFrom.any (fun j => j.toNat == m))
      && s.clk.t0.isNone then
    let p := s.period * 1000
    let t0 : Long := BitVec.ofNat 64 (s.clk.lastTick.toNat + ceilDiv (s.clk.time.toNat + 2 * p - s.clk.lastTick.toNat) p * p)
    let s1 : State := { s with clk.t0 := some t0 }
    s1.messages s1.treeChildren .decision (decisionBody { go := false, t0 := some t0 })
  else s

/-- A connection opens on each live plane to every connected module: its counts start at 0, unless packets of a peer that started
first stand on it (R277). -/
def State.openConnections (s : State) : State :=
  s.connected.foldl (fun (st : State) m => (st.planesTo m).foldl (fun (st : State) p => st.setConn m p (fun c => c)) st) s

/-- An accepted START of a job of more than one module. -/
def State.beginJoin (s : State) : State :=
  let s1 := (s.openConnections.messages (s.penPeers ++ s.connected) .mapDigest (bytes256 s.ownMapDigest)).join
  s1.sendJoin.announceStart

/-! ## SEQ_CTRL (R76) -/

/-- A START that is ignored whatever the checks find (R39, R76, R420): while STATE is not IDLE, in MODE 1, or with a unit lost whose
loss stops service. -/
def State.startBarred (s : State) : Bool := !s.idle || s.seq.startPending || s.sec.mode == 1 || s.beyondService

/-- START (R49) of a job that passes every check: it starts at the next tick. -/
def State.acceptStart (s : State) : State :=
  let s1 := { s.retireUnits with seq.startPending := true }
  if s1.multi then s1.beginJoin else s1

/-- STOP (R49): no intake begins at any later tick. A halted job ends at once. -/
def State.acceptStop (s : State) : State :=
  match s.seq.job with
  | .halted => s.toIdle
  | _ => { s with seq.job := .stopping, seq.stopPending := true }

/-- SLIP_LIMIT of SEQ_CTRL. -/
def State.setSlipLimit (s : State) (v : Nat) : State := s.setPending (fun b => { b with slipLimit := BitVec.ofNat 8 (v / 256) })

/-- SEQ_CTRL with START or STOP (R76): a START or STOP that is ignored, and a START that fails a check, is logged, and the write has no
other effect (R464). -/
def State.commandSeq (s : State) (v : Nat) : State :=
  if bit 0 v && s.startBarred then s.log 0x20014 0 .state
  else if bit 0 v && !s.startFailures.isEmpty then s.startFailures.foldl (fun (st : State) c => st.raise c) (s.log 0x20014 0 .state)
  else if bit 1 v && s.idle then s.log 0x20014 0 .state
  else
    let s1 := s.setSlipLimit v
    let s2 := if bit 0 v then s1.acceptStart else s1
    if bit 1 v then s2.acceptStop else s2

/-- SEQ_CTRL (R76): SLIP_LIMIT 0 is ignored and logged. -/
def State.writeSeqCtrl (s : State) (v : Nat) (guarded : Bool) : State :=
  if bits 15 8 v = 0 then s.outOfRange 0x20014 else if guarded then s.setSlipLimit v else s.commandSeq v

/-- START: a write to SEQ_CTRL checks the plan, tables, pen links and retired units and starts a job at the next tick
(R49, R76, R150, R270, R308, R394, R488). -/
def execStart (port : Fin 4) (value : Word) (s : State) : Host.Outcome State Fault Refusal :=
  .next (s.windowWrite port.val 0x20014 4 value.toNat (fun t => t.writeSeqCtrl value.toNat true) (fun t => t.writeSeqCtrl value.toNat false))

/-- STOP: a write to SEQ_CTRL stops intake from the next tick; steps already taken in finish (R49, R76). -/
def execStop (port : Fin 4) (value : Word) (s : State) : Host.Outcome State Fault Refusal :=
  .next (s.windowWrite port.val 0x20014 4 value.toNat (fun t => t.writeSeqCtrl value.toNat true) (fun t => t.writeSeqCtrl value.toNat false))

/-! ## The start tick (R49, R121, R182, R227) -/

/-- The working copy of a block of values is written at once, each part once more when its write fails; a second failure faults the churn
(R182, R204). -/
def State.deriveCopy (s : State) (line : Nat) (d : DenseTensor) (w : WorkCopy) : State :=
  let s1 := s.countTally (watchKey 1 d.id) (churnUnit line) w.tally
  w.parts.foldl (fun (st : State) p =>
    let r := st.writeWorking d p
    if r.2 then r.1
    else
      let q := r.1.writeWorking d p
      if q.2 then q.1 else q.1.faultChurn line) s1

/-- The working copy of an unreadable master (R182): NaN elements, or a poisoned block, counted under POISON. -/
def State.deriveUnreadable (s : State) (line : Nat) (d : DenseTensor) (block : Nat) : State :=
  match s.sweepEntry line 1 d.id with
  | none => s
  | some e =>
    let s1 := s.deriveCopy line d (s.workingCopy d e block (List.replicate 32 (.nan false)))
    if field e 3 1 = 6 then s1
    else s1.setWatch (watchKey 1 d.id) (fun w => { w with counts := { w.counts with poison := satAdd w.counts.poison 1 } })

/-- The derive pass over one record: a poisoned or malformed plane 0 is counted as it is read (R99, R182). -/
def State.deriveRecord (s : State) (line : Nat) (d : DenseTensor) (block : Nat) : State :=
  let r := s.readRecord (denseAddr d block) (denseSize d.planes) 0
  match r.2 with
  | some rec =>
    match r.1.recordCopy line (.dense d.id block) rec with
    | some w => (r.1.planePoison d.id rec).deriveCopy line d w.2
    | none => r.1
  | none => r.1.deriveUnreadable line d block

/-- The derive pass of every churn: each dense record of its list (R182). -/
def State.derivePass (s : State) : State :=
  (List.range 64).foldl (fun (st : State) line =>
    ((st.plan.map (fun p => denseItems p.layout line)).getD []).foldl (fun (st : State) it =>
      match it with
      | .dense t b => (match st.dense t with
        | some d => st.deriveRecord line d b
        | none => st)
      | .row _ _ _ _ => st) st) s

/-- A step's or interval's statistics as it begins. -/
def State.freshStats (s : State) (i : IntakeState) : StepStats where
  batches := i.batches
  samples := i.samples
  holdover := s.clk.holdover
  voided := s.seq.void.any
  clockMin := s.pwr.clock.toNat
  clockMax := s.pwr.clock.toNat
  tjMax := s.pwr.tj

/-- Descriptors whose time has come are eligible from tick 0 of the new job, the others from a later tick. -/
def Desc.restart (now : Nat) (d : Desc) : Desc :=
  { d with eligible := if d.readyAt ≤ now then some 0 else none, slips := 0
           step := if d.stage = .taken then 0 else d.step }

/-- The state of a job at T_0, before its intake begins. -/
def State.freshJob (s : State) : State :=
  { s with
    seq := { s.seq with
      job := .filling, startPending := false, stopPending := false, haltPending := false, haltDue := false, step := 0
      curSlips := 0, slipTotal := 0, excess := false, ownExcess := false, excessSpent := false, doneFrom := []
      doneSent := false, doneUp := false, periodAsk := none, periodAnn := none, periodOk := true, phases := {}, tail := {}, intake := {}
      next := { active := true, began := s.clk.time }, stats := s.freshStats {}, replay := {}, evalFaults := 0
      tickTime := s.clk.time }
    clk := { s.clk with t0 := some s.clk.time, tickNo := 0, holds := 0, decision := none, tickLost := false, held := false }
    acc := [], attn := [], churns := [], hist := {}
    emb := { s.emb with now := {}, next := {}, partials := [], exact := [], merged := [], denseGrad := [], served := [] }
    fab := { s.fab with msgs := [], sentNo := [], gotNo := [], reducing := [], sendLog := [], recvLog := [] }
    events.once := []
    rel.replays := 0, rel.suspects := 0, rel.served := 0
    host.queues := s.host.queues.map (fun e => (e.1, { e.2 with descs := e.2.descs.map (Desc.restart s.clk.time.toNat) })) }

/-- The job starts: T_0 (R49). -/
def State.startJob (s : State) : State :=
  (((s.freshJob.freshInit).startWatch).derivePass).takeEveryBatch.endIntake

end Sys2Proof.Machine
end

