-- ==== Sys2Proof/Machine/PenLinks.lean ====
section
/-! DEFINITION. The receiving side of the pen links: flits (R262 to R266), units and messages as they arrive (R287, R377,
R380, R388), time transfer (R46, R283), retraining (R265), link training and IDENT (R267 to R269), and the retransmissions
of a stitch link (R24, R391). -/

namespace Sys2Proof.Machine

/-! ## Units and messages (R287, R380, R388) -/

/-- A unit of a message takes its place; the message is visible when every unit of it has arrived (R287). -/
def Msg.put (m : Msg) (unit : Nat) (u : Bytes × Word × Word) (last : Bool) : Msg :=
  let us := NMap.insert m.units unit u
  let t := if last then some (unit + 1) else m.total
  { m with units := us, total := t, visible := decide (t = some us.length) }

/-- Change the message of a source and number. -/
def putMsg : List Msg → Nat → Nat → (Msg → Msg) → List Msg
  | [], src, num, f => [f { src := src, num := num, units := [] }]
  | m :: r, src, num, f => if m.src = src ∧ m.num = num then f m :: r else m :: putMsg r src num f

/-- Whether a unit of a message has arrived. -/
def State.hasUnit (s : State) (src num unit : Nat) : Bool :=
  s.fab.msgs.any (fun m => m.src == src && m.num == num && (NMap.find? m.units unit).isSome)

/-- A unit that has passed its checks is placed, and logged in phases 1 to 6 (R287, R380). -/
def State.placeUnit (s : State) (src num unit : Nat) (last : Bool) (data : Bytes) (check tag : Word) : State :=
  if s.hasUnit src num unit then s
  else
    { s with
      fab.msgs := putMsg s.fab.msgs src num (fun m => m.put unit (data, check, tag) last)
      fab.asked := s.fab.asked.filter (fun a => a != (src, num, unit))
      fab.recvLog := if s.jobRuns ∧ 1 ≤ s.phase ∧ s.phase ≤ 6 then s.fab.recvLog ++ [(src, num, data, tag)] else s.fab.recvLog }

/-- The exchange stage that sends a message, by the plan's schedule. -/
def State.sendingStage (s : State) (src dst num : Nat) : Half :=
  match (((s.plan.map (fun p => p.layout.exchanges)).getD []).find? (fun e =>
      e.src.toNat == src && e.dst.toNat == dst && msgNumber e.kind e.ident == num)) with
  | some e => unitExchange e.tile.val
  | none => unitNone

/-- A unit whose CHECK fails is discarded and its sender is asked for it (R381, R388); a second failure makes the step
suspect; in the evaluation slot the slot's rule applies (R381). -/
def State.badUnit (s : State) (src num unit : Nat) : State :=
  let s1 := s.raise 0x7101 (s.sendingStage src s.me num)
  if s.inEvaluation then s1.evalFault
  else if s.fab.asked.contains (src, num, unit) then s1.makeSuspect
  else
    (({ s1 with fab.asked := s1.fab.asked ++ [(src, num, unit)] } : State).message src .resend
      (leBytes 4 num ++ leBytes 4 unit)).raise 0x7107 0 num

/-- A block unit arrives with its check word and tag word: 520 bytes (R262, R275). -/
def State.arriveUnit (s : State) (src num unit : Nat) (last : Bool) (u : Bytes) : State :=
  let data := u.take 512
  let check : Word := BitVec.ofNat 32 (field u 512 4)
  let tag : Word := BitVec.ofNat 32 (field u 516 4)
  if checkWord data tag = check then s.placeUnit src num unit last data check tag else s.badUnit src num unit

/-- The offset that a child estimates: half the difference of the two one-way delays (R283). -/
def offsetOf (t1 t2 t3 t4 : Long) : Half := BitVec.ofInt 16 (((t4 - t3).toInt - (t2 - t1).toInt) / 2)

/-- Timestamps arrive from a node of the tree: the child estimates its offset from its parent; transfer locks (R46). A tick master
and a single-module job have no parent, so that TICK_STATUS.LOCKED stays 0 and TICK_LOCK is not raised there (DESIGN CHOICE: the
manual does not say whether their own time base counts as locked; log 41). -/
def State.takeTimes (s : State) (peer : Nat) (b : Bytes) : State :=
  let t3 : Long := BitVec.ofNat 64 (field b 0 8)
  let t2 : Long := BitVec.ofNat 64 (field b 8 8)
  let t1 : Long := BitVec.ofNat 64 (field b 16 8)
  let s1 : State := { s with clk.transfers := NMap.insert s.clk.transfers peer (t3, s.clk.time) }
  if treeParent s.tickMaster s.me = some peer ∧ t1 ≠ 0 then
    let s2 : State := { s1 with
      clk.offset := offsetOf t1 t2 t3 s.clk.time, clk.lastTransfer := s.clk.time, clk.locked := true, clk.holdover := false }
    if s.clk.locked then s2 else s2.raise 0x1101
  else s1

/-- A complete control message: the timestamps of a time transfer, the unit that a RESEND asked for, or one visible under its kind
(log 6). -/
def State.controlArrived (s : State) (src : Nat) (b : Bytes) : State :=
  let code := field b 0 2
  let body := slice b 4 (field b 2 2)
  if code = MsgKind.timeTransfer.code then s.takeTimes src body
  else if code = MsgKind.resent.code then s.arriveUnit src (field body 0 4) (field body 4 4) false (slice body 8 520)
  else
    let n := s.fab.msgs.countP (fun m => m.src == src && m.num / 65536 == code)
    { s with fab.msgs := putMsg s.fab.msgs src (msgNumber code n) (fun m => m.put 0 (body, 0, 0) true) }

/-! ## Flits (R262 to R264) -/

/-- Bytes 8 to 527 of a flit. -/
def flitBody (f : Bytes) : Bytes := slice f 8 520

/-- The number of the message that the n-th DATA message of the step from a module is: the plan's schedule names them in
the order sent; units beyond it are a witness's (log 6). -/
def State.penMessage (s : State) (src n : Nat) : Nat :=
  match (((s.plan.map (fun p => p.layout.exchanges)).getD []).filter (fun e => e.src.toNat == src && e.dst.toNat == s.me))[n]? with
  | some e => msgNumber e.kind e.ident
  | none => msgNumber MsgKind.witnessReq.code n

/-- A DATA unit in order on a link: placed, and its receive unit freed (R263). -/
def State.penUnit (s : State) (k : Nat) (last : Bool) (u : Bytes) : State :=
  let e := s.pen k
  let src := s.engineModule k
  (s.setPen k (fun x => { x with
    freed := x.freed + 1
    unitsGot := if last then 0 else x.unitsGot + 1
    msgsGot := if last then x.msgsGot + 1 else x.msgsGot })).arriveUnit src (s.penMessage src e.msgsGot) e.unitsGot last u

/-- A CONTROL flit's payload in order on a link: the message is complete with LAST. -/
def State.penControl (s : State) (k : Nat) (last : Bool) (b : Bytes) : State :=
  let all := (s.pen k).ctl ++ b.take 512
  if last then (s.setPen k (fun x => { x with ctl := [] })).controlArrived (s.engineModule k) all
  else s.setPen k (fun x => { x with ctl := all })

/-- A TIME flit's payload: the message is complete with LAST. -/
def State.penTime (s : State) (k : Nat) (last : Bool) (b : Bytes) : State :=
  let all := (s.pen k).timeCtl ++ b.take 512
  if last then (s.setPen k (fun x => { x with timeCtl := [] })).controlArrived (s.engineModule k) all
  else s.setPen k (fun x => { x with timeCtl := all })

/-- Deliver one flit's payload by its kind. -/
def State.penDeliver (s : State) (k kind : Nat) (last : Bool) (body : Bytes) : State :=
  if kind = 1 then s.penUnit k last body else s.penControl k last body

/-- A link sends IDLE when nothing else is ready: it acknowledges and grants credits (R262, R263). -/
def State.sendIdle (s : State) (k : Nat) : State :=
  let e := s.pen k
  (s.setPen k (fun x => { x with freed := 0 })).emit (.penFlit k (flitBytes 0 0 0 (e.expect - 1).toNat e.freed []))

/-- Ask the sender to go back to a flit, and discard until it comes (R264). -/
def State.requestRetry (s : State) (k : Nat) (seq : Half) : State :=
  let e := s.pen k
  (s.setPen k (fun x => { x with expect := seq, discarding := true, freed := 0 })).emit
    (.penFlit k (flitBytes 4 0 0 (seq - 1).toNat e.freed (leBytes 2 seq.toNat)))

/-- The CREDIT of a flit lets waiting DATA go (R262, R263). -/
def State.takeCredit (s : State) (k : Nat) (f : Bytes) : State :=
  let s1 := s.setPen k (fun x => { x with credits := x.credits + field f 6 2 })
  State.drainPen (s1.pen k).waiting.length s1 k

/-- Whether a flit's LINK_CRC holds (R262). -/
def flitGood (f : Bytes) : Bool := f.length == 536 && field f 528 4 == crc32c (f.take 528)

/-- A link goes down for good (R265): PEN_LINK_LOST, the engine in the ledger, the job halts. -/
def State.linkLost (s : State) (k : Nat) : State :=
  ((s.setPen k (fun x => { x with up := false, valid := false, retraining := false, attempts := 0 })).raiseHalt 0x5102
    (unitEngine k)).countedFault (unitEngine k)

/-- The flits of a group are delivered in order. -/
def State.deliverGroup (s : State) (k : Nat) (g : List Bytes) (plain : Bytes) : State :=
  g.zipIdx.foldl (fun (st : State) e => st.penDeliver k (field e.1 0 1) (bit 0 (field e.1 1 1)) (slice plain (520 * e.2) 520)) s

/-- The tag flit of a group (R266): the group is delivered when the tag verifies; else its first flit counts as failed, and
a group that fails four times takes the link down. -/
def State.tagFlit (s : State) (k : Nat) (f : Bytes) : State :=
  let e := s.pen k
  match gcmOpen s.penKey (penNonce (s.engineModule k) s.me e.groupsGot) [] (e.group.map flitBody).flatten (slice f 8 16) with
  | some plain =>
    ((s.setPen k (fun x => { x with expect := x.expect + 1, group := [], groupsGot := x.groupsGot + 1, tagFails := 0 })).deliverGroup
      k e.group plain).sendIdle k
  | none =>
    if 3 ≤ e.tagFails then ((s.setPen k (fun x => { x with group := [], tagFails := 0 })).linkLost k).raise 0x5103 (unitEngine k)
    else
      (s.setPen k (fun x => { x with group := [], tagFails := x.tagFails + 1 })).requestRetry k
        (e.expect - BitVec.ofNat 16 e.group.length)

/-- A DATA or CONTROL flit with a good LINK_CRC and the SEQ expected: in clear it is delivered; an encrypted one waits for
the tag of its group (R264, R266). -/
def State.flitInOrder (s : State) (k : Nat) (f : Bytes) : State :=
  let kind := field f 0 1
  let s1 := s.setPen k (fun x => { x with discarding := false })
  if !s.confidential then ((s1.setPen k (fun x => { x with expect := x.expect + 1 })).penDeliver k kind (bit 0 (field f 1 1)) (flitBody f)).sendIdle k
  else if kind = 2 ∧ !bit 1 (field f 1 1) then s1.tagFlit k f
  else (s1.setPen k (fun x => { x with expect := x.expect + 1, group := x.group ++ [f.take 528] })).sendIdle k

/-- A flit whose LINK_CRC fails is discarded and asked for, whatever it was: also a retry that fails, and a TIME, IDLE or RETRY_REQ flit,
since a flit that fails does not say what it is (R264; DEDUCED, log 41). -/
def State.flitFails (s : State) (k : Nat) : State :=
  if (s.pen k).up && !(s.pen k).retraining then s.requestRetry k (s.pen k).expect else s

/-- Whether a flit is taken: its link receives, its LINK_CRC holds and its KIND is as named. -/
def State.takesFlit (s : State) (k kind : Nat) (f : Bytes) : Bool :=
  (s.pen k).up && !(s.pen k).retraining && flitGood f && field f 0 1 == kind

/-- A DATA or CONTROL flit arrives (R262 to R264): a flit whose LINK_CRC or SEQ fails is discarded with all that follow
until the retry arrives. -/
def State.numberedFlit (s : State) (k kind : Nat) (f : Bytes) : State :=
  let e := s.pen k
  if !e.up ∨ e.retraining then s
  else if flitGood f ∧ field f 0 1 = kind ∧ field f 2 2 = e.expect.toNat then (s.takeCredit k f).flitInOrder k f
  else if e.discarding && flitGood f then s
  else s.requestRetry k e.expect

/-- DATA_FLIT: a DATA flit is checked, acknowledged and placed, credits being granted as units free (R262, R263, R264,
R287, R377, R388). -/
def execDataFlit (k : Fin 8) (flit : Bytes) (s : State) : Host.Outcome State Fault Refusal := .next (s.numberedFlit k.val 1 flit)

/-- CONTROL_FLIT: a CONTROL flit carries a message or the GCM tag of a group of encrypted flits (R262, R266). -/
def execControlFlit (k : Fin 8) (flit : Bytes) (s : State) : Host.Outcome State Fault Refusal := .next (s.numberedFlit k.val 2 flit)

/-- IDLE_FLIT on the state: its ACK and CREDIT are taken. -/
def State.idleFlit (s : State) (k : Nat) (f : Bytes) : State :=
  if s.takesFlit k 0 f then s.takeCredit k f else if flitGood f then s else s.flitFails k

/-- IDLE_FLIT: an IDLE flit acknowledges and grants credits (R262, R263). -/
def execIdleFlit (k : Fin 8) (flit : Bytes) (s : State) : Host.Outcome State Fault Refusal := .next (s.idleFlit k.val flit)

/-- Resend the kept flits from a SEQ on, in their original order (R264). -/
def State.resendFlits (s : State) (k seq : Nat) : State :=
  s.emits (((s.pen k).retry.dropWhile (fun e => e.1 != seq)).map (fun e => .penFlit k e.2))

/-- RETRY_REQ on the state: each retry is counted against the engine and logged in the ledger. -/
def State.retryReq (s : State) (k : Nat) (f : Bytes) : State :=
  if s.takesFlit k 4 f then
    (((s.takeCredit k f).setPen k (fun x => { x with retries := satAdd x.retries 1 })).logged (unitEngine k)).resendFlits k (field f 8 2)
  else if flitGood f then s
  else s.flitFails k

/-- RETRY_REQ: the peer asks for flits from a SEQ on (R264). -/
def execRetryReq (k : Fin 8) (flit : Bytes) (s : State) : Host.Outcome State Fault Refusal := .next (s.retryReq k.val flit)

/-! ## Time transfer (R46, R283) -/

/-- The timestamps that a time transfer carries: when it leaves, when the peer's last one arrived, and when that one left
(log 6). -/
def State.timeBody (s : State) (peer : Nat) : Bytes :=
  let t := NMap.getD s.clk.transfers peer (0, 0)
  leBytes 8 s.clk.time.toNat ++ leBytes 8 t.2.toNat ++ leBytes 8 t.1.toNat

/-- The nodes next to this one in the tree of R43. -/
def State.treeEdges (s : State) : List Nat :=
  (match treeParent s.tickMaster s.me with
    | some p => [p]
    | none => []) ++ s.treeChildren

/-- The content of a TIME flit or packet that carries timestamps (log 6). -/
def State.timeContent (s : State) (peer : Nat) : Bytes := leBytes 2 MsgKind.timeTransfer.code ++ leBytes 2 24 ++ s.timeBody peer

/-- TIME_TRANSFER on the state: a TIME flit within the pen; to another pen a TIME packet on the lowest-numbered plane, while a
connection is open to it (R277, R294). -/
def State.timeTransfer (s : State) (peer : Nat) : State :=
  let body := s.timeContent peer
  if !s.multi || !s.treeEdges.contains peer then s
  else if peer / 8 = s.me / 8 then
    match s.engineTo (peer % 8) with
    | some k => if (s.pen k).retraining then s
                else s.emit (.penFlit k (flitBytes 3 1 0 ((s.pen k).expect - 1).toNat 0 body))
    | none => s
  else
    match s.planesTo peer with
    | [] => s
    | p :: _ =>
      if s.connOpen peer p then
        s.toConn peer p { kind := 3, last := true, msg := msgNumber MsgKind.timeTransfer.code 0, step := s.seq.step.toNat, content := body }
      else s

/-- TIME_TRANSFER: parent and child of the tree exchange timestamps every 125 µs (R43, R283). -/
def execTimeTransfer (now : Long) (peer : BitVec 12) (s : State) : Host.Outcome State Fault Refusal :=
  .next ((s.timed now).timeTransfer peer.toNat)

/-- TIME_FLIT on the state. -/
def State.timeFlit (s : State) (k : Nat) (f : Bytes) : State :=
  if s.takesFlit k 3 f then (s.takeCredit k f).penTime k (bit 0 (field f 1 1)) (flitBody f) else if flitGood f then s else s.flitFails k

/-- TIME_FLIT: a TIME flit arrives; with timestamps the child updates its time-base offset (R46, R283), and a decision takes its
place as a message (R43). -/
def execTimeFlit (k : Fin 8) (flit : Bytes) (now : Long) (s : State) : Host.Outcome State Fault Refusal :=
  .next ((s.timed now).timeFlit k.val flit)

/-! ## Retraining (R265) -/

/-- LINK_RETRAIN on the state: both ends hold their flits. -/
def State.linkRetrain (s : State) (k : Nat) : State :=
  if (s.pen k).up then s.setPen k (fun x => { x with retraining := true, attempts := if x.retraining then x.attempts else 0 }) else s

/-- LINK_RETRAIN: a pen link meeting 32 retries within 1 ms or losing FEC lock begins to retrain (R265). -/
def execLinkRetrain (k : Fin 8) (s : State) : Host.Outcome State Fault Refusal := .next (s.linkRetrain k.val)

/-- The link resumes: the receiver asks for the flit it expects, and what waits goes. -/
def State.linkResumed (s : State) (k : Nat) : State :=
  let s1 := (s.setPen k (fun x => { x with retraining := false, attempts := 0 })).requestRetry k (s.pen k).expect
  let s2 := State.drainPen (s1.pen k).waiting.length s1 k
  if s.jobRuns then s2.raise 0x5101 (unitEngine k) else s2

/-- PEN_RETRAIN on the state: three failed attempts in a row take the link down. -/
def State.penRetrain (s : State) (k : Nat) (success : Bool) : State :=
  if !(s.pen k).retraining then s
  else if success then s.linkResumed k
  else if 2 ≤ (s.pen k).attempts then s.linkLost k
  else s.setPen k (fun x => { x with attempts := x.attempts + 1 })

/-- PEN_RETRAIN: a retraining attempt ends (R264, R265). -/
def execPenRetrain (k : Fin 8) (success : Bool) (s : State) : Host.Outcome State Fault Refusal := .next (s.penRetrain k.val success)

/-! ## Stitch links (R24, R391) -/

/-- STITCH_RETRANSMIT on the state: logged; a step's 1,025th is a counted fault. -/
def State.stitchRetransmit (s : State) (u : Half) : State :=
  let s1 := (s.logged u).setUnit u (fun e => { e with stepCount := e.stepCount + 1 })
  if (s1.unit u).stepCount = 1025 then s1.countedFault u else s1

/-- STITCH_RETRANSMIT: a stitch link retransmits a flit whose CRC failed (R24, R391); a branch port with nothing attached has
no link (R19). -/
def execStitchRetransmit (link : LinkEnd) (s : State) : Host.Outcome State Fault Refusal :=
  .next (if link.attached then s.stitchRetransmit (linkCode link) else s)

/-! ## Training (R267 to R269) -/

/-- Training begins: no engine carries a peer and no herd port is locked until it has trained. -/
def State.beginTraining (s : State) : State :=
  { s with fab := { s.fab with
      training := true
      pen := s.fab.pen.map (fun e => (e.1, { up := false, retries := e.2.retries }))
      herd := s.fab.herd.map (fun e => (e.1, { e.2 with pcsLock := false, xoff := false, paused := [], pauseSince := [] })) } }

/-- FAB_CTRL (R298): HERD_EN enters the pending view; TRAIN retrains while STATE is IDLE. -/
def State.writeFabCtrl (s : State) (v : Nat) : State :=
  let s1 := s.setPending (fun b => { b with herdEn := bit 1 v })
  if !bit 0 v then s1 else if s.idle then s1.beginTraining else s1.log 0xA0000 0 .state

/-- TRAIN: FAB_CTRL.TRAIN retrains every pen engine and herd port (R267, R298). -/
def execTrain (port : Fin 4) (value : Word) (s : State) : Host.Outcome State Fault Refusal :=
  .next (s.windowWrite port.val 0xA0000 4 value.toNat (fun t => t.writeFabCtrl value.toNat) (fun t => t.writeFabCtrl value.toNat))

/-- The 8-byte digest of the module's identity that IDENT carries (R267): the first 8 bytes of the identity digest. -/
def State.identDigest (s : State) : Nat := field (bytes256 s.sec.idDigest) 0 8

/-- Whether IDENT finds a peer that the engine may not use (R268). -/
def State.miscabled (s : State) (module : Nat) (digest : Long) : Bool :=
  module / 8 != s.me / 8 || module % 8 == s.me % 8 || digest.toNat == s.identDigest

/-- Whether an engine was formerly unused and its peer's cable was moved to it from another (R269). -/
def State.spareNow (s : State) (k pos : Nat) : Bool :=
  (NMap.find? s.boot.penPeers k).isNone && s.boot.penPeers.any (fun e => e.1 != k && e.2 == pos)

/-- An engine carries the link to a pen position. -/
def State.carryPeer (s : State) (k pos : Nat) : State :=
  let s1 : State := { s.setPen k (fun x => { up := true, valid := true, peer := BitVec.ofNat 3 pos, retries := x.retries }) with
    boot.penPeers := NMap.insert s.boot.penPeers k pos }
  if s.spareNow k pos then s1.raise 0x5003 (unitEngine k) else s1

/-- IDENT on the state: the own IDENT leaves, and the peer is entered or the engine refused; of two engines that reach one
peer the lower-numbered carries the link. -/
def State.ident (s : State) (k module : Nat) (digest : Long) : State :=
  if !s.fab.training || s.unavailable (unitEngine k) then s
  else
    let s1 := s.emit (.penFlit k (flitBytes 5 0 0 0 0 (leBytes 2 s.me ++ leBytes 8 s.identDigest)))
    if s.miscabled module digest then s1.raise 0x5002 (unitEngine k)
    else
      match s.engineTo (module % 8) with
      | none => s1.carryPeer k (module % 8)
      | some j =>
        if j = k then s1
        else if j < k then s1.raise 0x5002 (unitEngine k)
        else ((s1.setPen j (fun x => { x with up := false, valid := false })).carryPeer k (module % 8)).raise 0x5002 (unitEngine j)

/-- IDENT: an IDENT exchange arrives and the peer's position is entered in PEN_MAP or the engine is refused (R267 to
R269). -/
def execIdent (k : Fin 8) (module : BitVec 12) (digest : Long) (s : State) : Host.Outcome State Fault Refusal :=
  .next (s.ident k.val module.toNat digest)

/-- An engine that did not bring up all 8 lanes is not used (R267); one that the ledger marks permanent was not trained
(R269). -/
def State.trainFailed (s : State) (k : Nat) : State :=
  if s.unavailable (unitEngine k) then s
  else ((s.setPen k (fun x => { x with up := false, valid := false })).raise 0x5001 (unitEngine k)).countedFault (unitEngine k)

/-- One of an engine's 8 lanes is among those that did not come up: a pen link runs on 8 lanes or not at all (R267). -/
def laneFailed (failed : List OpticalLane) (k : Nat) : Bool := failed.any (fun o => o.engine.val == k)

/-- PEN_TRAINING_END on the state. -/
def State.endTraining (s : State) (failed : List OpticalLane) : State :=
  if s.fab.training then
    ((List.range 8).filter (laneFailed failed)).foldl (fun (st : State) k => st.trainFailed k)
      { s with fab.training := false, fab.lanesDown := failed }
  else s

/-- PEN_TRAINING_END: training of all engines completes (R267, R298). -/
def execPenTrainingEnd (failed : List OpticalLane) (s : State) : Host.Outcome State Fault Refusal :=
  .next (s.endTraining failed)

end Sys2Proof.Machine
end

