-- ==== Sys2Proof/Machine/HerdPorts.lean ====
section
/-! DEFINITION. The receiving side of the herd ports: packets (R276 to R281), acknowledgement, loss and retransmission
(R279), congestion (R280), priority flow control (R273), discarded frames (R271, R272), planes that go down (R282), and the
messages of joining (R294). -/

namespace Sys2Proof.Machine

/-- The engine that is the port of a herd plane (R258). -/
def portUnit (i : Nat) : Half := unitEngine (8 + i)

/-! ## Sending again (R279) -/

/-- A connection sends what waits on it. -/
def State.drainTo (s : State) (remote i : Nat) : State := State.drainConn (s.conn remote i).waiting.length s remote i

/-- A loss on a path: eight within 1 ms remove it for the job (R279). -/
def State.pathLoss (s : State) (remote i path : Nat) (now : Long) : State :=
  let ts := ((NMap.getD (s.conn remote i).lossAt path []).filter (fun t => decide (now.toNat < t.toNat + 1000000))) ++ [now]
  let s1 := s.setConn remote i (fun c => { c with lossAt := NMap.insert c.lossAt path ts })
  if 8 ≤ ts.length ∧ !(s.conn remote i).removed.contains path then
    (s1.setConn remote i (fun c => { c with removed := path :: c.removed })).raise 0x5202 (portUnit i) path
  else s1

/-- Send an unacknowledged packet again, with the same bytes, on the next path of the round robin (R279); after 16 times the
peer counts as lost. -/
def State.sendAgain (s : State) (remote i : Nat) (x : SentPacket) (now : Long) : State :=
  let s1 := s.pathLoss remote i x.path now
  let c := s1.conn remote i
  let path := nextPath c.removed c.nextPath
  let y := { x with path := path, retries := x.retries + 1, sentAt := now, held := false }
  let s2 := ((s1.setConn remote i (fun c => { c with nextPath := path + 1, sent := c.sent.map (fun p => if p.seq = x.seq then y else p) })).setHerd
    i (fun h => { h with retx := satAdd h.retx 1 })).emit
      (.herdPacket i path (s1.outerHeader remote i path (field x.header 0 1 / 16) (x.header ++ x.payload)) x.header x.payload)
  if y.retries = 16 then s2.raiseHalt 0x5203 (portUnit i) remote else s2

/-- An unacknowledged packet goes again, at once or when its class is no longer paused (R273, R279). -/
def State.resendPacket (s : State) (remote i : Nat) (x : SentPacket) (now : Long) : State :=
  if s.classPaused i (field x.header 0 1 / 16) then
    s.setConn remote i (fun c => { c with sent := c.sent.map (fun p => if p.seq = x.seq then { p with held := true } else p) })
  else s.sendAgain remote i x now

/-- The packets of a connection that a pause held go again. -/
def State.resendHeld (s : State) (remote i : Nat) : State :=
  ((s.conn remote i).sent.filter (·.held)).foldl (fun (st : State) x => st.resendPacket remote i x st.clk.time) s

/-- RETRANSMISSION on the state: the packet is outstanding and 64 µs have passed since its last send. -/
def State.retransmission (s : State) (i remote psn : Nat) : State :=
  match (s.conn remote i).sent.find? (fun p => p.seq % 2 ^ 32 == psn % 2 ^ 32) with
  | some x => if x.sentAt.toNat + 64000 ≤ s.clk.time.toNat then s.resendPacket remote i x s.clk.time else s
  | none => s

/-- RETRANSMISSION: a packet unacknowledged 64 µs after its last send goes again on the next path (R279). -/
def execRetransmission (i : Fin 8) (remote : BitVec 12) (psn : Nat) (now : Long) (s : State) : Host.Outcome State Fault Refusal :=
  .next ((s.timed now).retransmission i.val remote.toNat psn)

/-- ACK_PROGRESS_TIMEOUT on the state. -/
def State.ackTimeout (s : State) (i remote : Nat) : State :=
  if (s.conn remote i).sent.isEmpty then s else s.raiseHalt 0x5203 (portUnit i) remote

/-- ACK_PROGRESS_TIMEOUT: a connection's acknowledgements have not advanced for 10 ms while packets are outstanding
(R279). -/
def execAckProgressTimeout (i : Fin 8) (remote : BitVec 12) (s : State) : Host.Outcome State Fault Refusal :=
  .next (s.ackTimeout i.val remote.toNat)

/-! ## Acknowledgement and congestion (R279, R280) -/

/-- CE marks lower the rate at most once every 20 µs, and raise HERD_CE once per step (R280). -/
def State.lowerRate (s : State) (remote i ce : Nat) : State :=
  if ce = 0 then s
  else
    let c := s.conn remote i
    let due := match c.lowered with
      | some t => decide (t.toNat + 20000 ≤ s.clk.time.toNat)
      | none => true
    let s1 := if due then s.setConn remote i (fun c => { c with rate := max (c.rate * 7 / 8) 4194304, lowered := some s.clk.time }) else s
    s1.raiseOnce 0 0x5204 (portUnit i) remote

/-- The sequence count that the low 32 bits of a number stand for, at or beyond a base (R277). -/
def recoverSeq (base low : Nat) : Nat := base + (low + 2 ^ 32 - base % 2 ^ 32) % 2 ^ 32

/-- ACK_VALID: every packet below ACK_PSN has arrived (R276, R279), and CE_COUNT lowers the rate. -/
def State.takeAck (s : State) (remote i : Nat) (h : Bytes) : State :=
  if !bit 2 (field h 1 1) then s
  else
    let c := s.conn remote i
    let a := recoverSeq c.acked (field h 12 4)
    let s1 := if a ≤ c.nextSeq then
        s.setConn remote i (fun c => { c with acked := a, sent := c.sent.filter (fun p => decide (a ≤ p.seq)) })
      else s
    (s1.lowerRate remote i (field h 30 2)).drainTo remote i

/-- A received packet or frame is discarded and counted. -/
def State.discardFrame (s : State) (i : Nat) : State := s.setHerd i (fun h => { h with discarded := satAdd h.discarded 1 })

/-- A frame that a port does not take is discarded, and counted where the manual says so (R271, R272). -/
def State.dropFrame (s : State) (i : Nat) (f : Bytes) : State :=
  match s.frameFault i f with
  | some e => if e.counted then s.discardFrame i else s
  | none => s

/-- The source module of a packet. -/
def packetSource (h : Bytes) : Nat := bits 11 0 (field h 2 2)

/-- Whether a packet's STEP lies in the running job's window: the current step and its neighbours; any before T_0
(DEDUCED; log 6). -/
def State.stepWindow (s : State) (step : Nat) : Bool :=
  !s.jobRuns || (step + 65536 + 1 - s.seq.step.toNat % 65536) % 65536 ≤ 2

/-- A header that a port takes: version and TYPE, the plane, this module, the running job and the step window (R276,
R278). -/
def State.headerGood (s : State) (i kind : Nat) (h : Bytes) : Bool :=
  h.length == 32 && field h 0 1 == 1 + 16 * kind && bits 14 12 (field h 2 2) == i && field h 4 2 == s.me
    && some (field h 24 4) == (s.jobMap.map (·.jobTag)) && s.stepWindow (field h 28 2)

/-- Whether a port receives at all. -/
def State.herdOn (s : State) (i : Nat) : Bool := s.active.herdEn && (s.herdPort i).pcsLock

/-- A packet arrives at a port that receives: a frame that the port does not take is discarded (R271, R272). -/
def State.onFrame (s : State) (i : Nat) (p : HerdPacket) (f : State → State) : State :=
  if !s.herdOn i then s else if (s.frameFault i (packetBytes p)).isSome then s.dropFrame i (packetBytes p) else f s

/-- ACK_PACKET on the state. -/
def State.ackPacket (s : State) (i : Nat) (p : HerdPacket) : State :=
  s.onFrame i p fun s =>
  if s.headerGood i 1 p.header then s.takeAck (packetSource p.header) i p.header
  else s.discardFrame i

/-- ACK_PACKET: an acknowledgement covers outstanding packets; CE_COUNT may lower the send rate (R279, R280). -/
def execAckPacket (i : Fin 8) (p : HerdPacket) (now : Long) (s : State) : Host.Outcome State Fault Refusal :=
  .next ((s.timed now).ackPacket i.val p)

/-- NAK on the state: the missing packet goes again. -/
def State.nak (s : State) (i : Nat) (p : HerdPacket) : State :=
  s.onFrame i p fun s =>
  if s.headerGood i 2 p.header then
    let remote := packetSource p.header
    let s1 := s.takeAck remote i p.header
    match (s1.conn remote i).sent.find? (fun x => x.seq % 2 ^ 32 == field p.header 8 4) with
    | some x => s1.resendPacket remote i x s1.clk.time
    | none => s1
  else s.discardFrame i

/-- NAK: the receiver names a missing packet, which is sent again (R279). -/
def execNak (i : Fin 8) (p : HerdPacket) (now : Long) (s : State) : Host.Outcome State Fault Refusal :=
  .next ((s.timed now).nak i.val p)

/-- RATE_RECOVERY on the state: 1/64 of the line rate more, up to the line rate. -/
def State.rateRecovery (s : State) (i remote : Nat) : State :=
  s.setConn remote i (fun c => { c with rate := min 67108864 (c.rate + 1048576) })

/-- RATE_RECOVERY: 20 µs have passed without CE (R280). -/
def execRateRecovery (i : Fin 8) (remote : BitVec 12) (s : State) : Host.Outcome State Fault Refusal :=
  .next (s.rateRecovery i.val remote.toNat)

/-- Give a connection an ACK or a NAK, which a received pause of its class holds back (R273, R279). -/
def State.giveUnnumbered (s : State) (remote i kind psn : Nat) : State :=
  s.toConn remote i { kind := kind, last := true, unit := psn, content := [] }

/-- STANDALONE_ACK on the state: an acknowledgement is due and nothing else has carried it. -/
def State.standaloneAck (s : State) (i remote : Nat) : State :=
  if (s.conn remote i).ackDue && s.herdOn i then s.giveUnnumbered remote i 1 0 else s

/-- STANDALONE_ACK: nothing has been sent to the sender for 2 µs (R279). -/
def execStandaloneAck (i : Fin 8) (remote : BitVec 12) (s : State) : Host.Outcome State Fault Refusal :=
  .next (s.standaloneAck i.val remote.toNat)

/-- The packets missing below the lowest received beyond them. -/
def Conn.gap (c : Conn) : List Nat :=
  match c.got with
  | [] => []
  | g :: gs => (List.range (gs.foldl min g - c.below)).map (fun j => c.below + j)

/-- GAP_PERSISTS on the state: a NAK for each packet of the gap. -/
def State.gapPersists (s : State) (i remote : Nat) : State :=
  if s.herdOn i then (s.conn remote i).gap.foldl (fun (st : State) q => st.giveUnnumbered remote i 2 (q % 2 ^ 32)) s else s

/-- GAP_PERSISTS: a gap below the highest PSN received has persisted for 8 µs (R279). -/
def execGapPersists (i : Fin 8) (remote : BitVec 12) (s : State) : Host.Outcome State Fault Refusal :=
  .next (s.gapPersists i.val remote.toNat)

/-! ## Numbered packets (R277, R278, R281) -/

/-- Every count from a base on that has arrived moves the base. -/
def advance : Nat → Nat → List Nat → Nat × List Nat
  | 0, b, got => (b, got)
  | fuel + 1, b, got => if got.contains b then advance fuel (b + 1) (got.filter (· != b)) else (b, got)

/-- A packet of a connection has arrived: an acknowledgement is due, CE marks are counted (R279, R280). -/
def State.packetArrived (s : State) (remote i seq : Nat) (ce : Bool) : State :=
  let s1 := s.setConn remote i (fun c =>
    let a := advance (c.got.length + 1) c.below (c.got ++ [seq])
    { c with below := a.1, got := a.2, ackDue := true, ceSince := c.ceSince + b2n ce })
  if ce then (s1.setHerd i (fun h => { h with ce := satAdd h.ce 1 })).raiseOnce 0 0x5204 (portUnit i) remote else s1

/-- A packet whose tag fails: discarded and counted; four within 1 ms raise FABRIC_AUTH (R281). -/
def State.packetTagFailed (s : State) (remote i : Nat) : State :=
  let ts := ((s.conn remote i).tagFails.filter (fun t => decide (s.clk.time.toNat < t.toNat + 1000000))) ++ [s.clk.time]
  let s1 := (s.discardFrame i).setConn remote i (fun c => { c with tagFails := if 4 ≤ ts.length then [] else ts })
  if 4 ≤ ts.length then s1.raise 0x5103 (portUnit i) remote else s1

/-- The plaintext of a packet's payload (R281): the payload itself in normal mode; what it opens to in confidential mode. -/
def State.openPayload (s : State) (remote i seq : Nat) (p : HerdPacket) : Option Bytes :=
  if s.confidential then gcmOpen (s.herdKey i) (herdNonce remote i s.me seq) p.header p.payload p.tag else some p.payload

/-- A DATA, TIME or CONTROL packet in a frame that the port takes: its header, its duplicates, its tag and its length are checked,
and it is acknowledged; `f` takes the source and the plaintext. -/
def State.numberedFrame (s : State) (i kind : Nat) (p : HerdPacket) (f : State → Nat → Bytes → State) : State :=
  let h := p.header
  let remote := packetSource h
  let c := s.conn remote i
  let seq := recoverSeq c.below (field h 8 4)
  if !s.headerGood i kind h || !s.mayConnect remote i || bit 0 (field h 1 1) != s.confidential || field h 6 2 != p.payload.length then s.discardFrame i
  else if c.got.contains seq || decide (c.below + 1024 ≤ seq) then s.setConn remote i (fun c => { c with ackDue := true })
  else
    match s.openPayload remote i seq p with
    | none => s.packetTagFailed remote i
    | some b => f ((s.takeAck remote i h).packetArrived remote i seq (packetCe p)) remote b

/-- A DATA, TIME or CONTROL packet arrives at a port. -/
def State.numberedPacket (s : State) (i kind : Nat) (p : HerdPacket) (f : State → Nat → Bytes → State) : State :=
  s.onFrame i p fun s => s.numberedFrame i kind p f

/-- The units of a DATA packet take their places by MSG and UNIT (R278). -/
def State.placeUnits (s : State) (src num unit n : Nat) (last : Bool) (b : Bytes) : State :=
  (List.range n).foldl (fun (st : State) j => st.arriveUnit src num (unit + j) (last && j + 1 == n) (slice b (520 * j) 520)) s

/-- XOFF for the CONTROL and BULK priorities when the receive buffer has passed 1.5 MiB (R273). -/
def State.bufferFilled (s : State) (i fill : Nat) : State :=
  let s1 := s.setHerd i (fun h => { h with fill := fill })
  if 1572864 < fill ∧ !(s.herdPort i).xoff ∧ (NMap.getD s.active.herd i {}).pfcTx then
    (s1.setHerd i (fun h => { h with xoff := true })).emits [.pfc i s.active.pcpCtrl.toNat 0xFFFF, .pfc i s.active.pcpBulk.toNat 0xFFFF]
  else s1

/-- A DATA packet's LEN: 1 to 8 units (R276). -/
def dataLenGood (h : Bytes) : Bool := decide (520 ≤ field h 6 2 ∧ field h 6 2 ≤ 4160) && field h 6 2 % 520 == 0

/-- DATA_PACKET on the state; `fill` is what the receive buffer holds with it. -/
def State.dataPacket (s : State) (i : Nat) (p : HerdPacket) (fill : Nat) : State :=
  s.onFrame i p fun s =>
    let h := p.header
    let s1 := s.bufferFilled i fill
    if dataLenGood h then
      s1.numberedFrame i 0 p (fun st src b => st.placeUnits src (field h 16 4) (field h 20 4) (field h 6 2 / 520) (bit 1 (field h 1 1)) b)
    else s1.discardFrame i

/-- DATA_PACKET: a herd DATA packet arrives and its units are placed by MSG and UNIT (R273, R277, R278, R281, R287). -/
def execDataPacket (i : Fin 8) (p : HerdPacket) (fill : Nat) (now : Long) (s : State) : Host.Outcome State Fault Refusal :=
  .next ((s.timed now).dataPacket i.val p fill)

/-- The packet of a control message takes its place; with the last one the message is complete. -/
def State.controlPart (s : State) (src num unit : Nat) (last : Bool) (b : Bytes) : State :=
  let s1 : State := { s with fab.msgs := putMsg s.fab.msgs src num (fun m =>
    (if m.visible then { m with units := [], total := none, visible := false } else m).put unit (b, 0, 0) last) }
  match s1.fab.msgs.find? (fun m => m.src == src && m.num == num && m.visible) with
  | some m => ({ s1 with fab.msgs := s1.fab.msgs.filter (fun x => !(x.src == src && x.num == num && x.visible)) } : State).controlArrived src
      (m.units.map (fun u => u.2.1)).flatten
  | none => s1

/-- CONTROL_PACKET: a packet of a control message arrives (R276, R281). -/
def execControlPacket (i : Fin 8) (p : HerdPacket) (now : Long) (s : State) : Host.Outcome State Fault Refusal :=
  .next ((s.timed now).numberedPacket i.val 4 p (fun st src b =>
    st.controlPart src (65536 * 64 + field p.header 16 4) (field p.header 20 4) (bit 1 (field p.header 1 1)) b))

/-- TIME_PACKET: a message of the TIME class arrives on a herd edge of the tree: a time transfer (R46, R283), or a decision (R43). -/
def execTimePacket (i : Fin 8) (p : HerdPacket) (now : Long) (s : State) : Host.Outcome State Fault Refusal :=
  .next ((s.timed now).numberedPacket i.val 3 p (fun st src b =>
    st.controlPart src (65536 * 64 + field p.header 16 4) (field p.header 20 4) (bit 1 (field p.header 1 1)) b))

/-! ## Flow control and frames (R271 to R273) -/

/-- XON on the state: the receive buffer has fallen below 1 MiB. -/
def State.xon (s : State) (i fill : Nat) : State :=
  if fill < 1048576 ∧ (s.herdPort i).xoff then
    (s.setHerd i (fun h => { h with xoff := false, fill := fill })).emits [.pfc i s.active.pcpCtrl.toNat 0, .pfc i s.active.pcpBulk.toNat 0]
  else s

/-- XON: the receive buffer falls below 1 MiB and the port sends XON (R273). -/
def execXon (i : Fin 8) (fill : Nat) (s : State) : Host.Outcome State Fault Refusal := .next (s.xon i.val fill)

/-- The connections of a plane send what a pause held back. -/
def State.drainPlane (s : State) (i : Nat) : State :=
  ((s.fab.conns.map (·.1)).filter (fun e => e % 8 == i)).foldl (fun (st : State) e => (st.resendHeld (e / 8) i).drainTo (e / 8) i) s

/-- A priority is no longer paused. -/
def State.resume (s : State) (i priority : Nat) : State :=
  (s.setHerd i (fun h => { h with paused := NMap.erase h.paused priority, pauseSince := NMap.erase h.pauseSince priority })).drainPlane i

/-- PFC_FRAME on the state: a pause of some quanta, or its end with none. -/
def State.pfcFrame (s : State) (i priority quanta : Nat) : State :=
  if !(NMap.getD s.active.herd i {}).pfcRx then s
  else if quanta = 0 then s.resume i priority
  else s.setHerd i (fun h => { h with
    paused := NMap.insert h.paused priority quanta
    pauseSince := if (NMap.find? h.paused priority).isSome then h.pauseSince else NMap.insert h.pauseSince priority s.clk.time })

/-- PFC_FRAME: a received PFC frame is honoured on every priority (R273). -/
def execPfcFrame (i priority : Fin 8) (quanta : Half) (now : Long) (s : State) : Host.Outcome State Fault Refusal :=
  .next ((s.timed now).pfcFrame i.val priority.val quanta.toNat)

/-- PFC_PAUSE_EXPIRY: a received pause runs out (R273). -/
def execPfcPauseExpiry (i priority : Fin 8) (s : State) : Host.Outcome State Fault Refusal := .next (s.resume i.val priority.val)

/-- HERD_PFC_STORM on the state. -/
def State.pfcStorm (s : State) (i priority : Nat) : State :=
  if (NMap.find? (s.herdPort i).paused priority).isSome then s.raise 0x5205 (portUnit i) priority else s

/-- HERD_PFC_STORM: a priority has been paused for 10 ms without a break; the pause is still honoured (R273). -/
def execHerdPfcStorm (i priority : Fin 8) (s : State) : Host.Outcome State Fault Refusal := .next (s.pfcStorm i.val priority.val)

/-- PAUSE_FRAME: a received PAUSE frame is discarded and counted (R271). -/
def execPauseFrame (i : Fin 8) (s : State) : Host.Outcome State Fault Refusal :=
  .next (s.setHerd i.val (fun h => { h with pauseFrames := satAdd h.pauseFrames 1 }))

/-- RECEIVED_FRAME_DISCARDED: a frame that the port does not take is discarded, and counted where the manual says so (R271,
R272). -/
def execReceivedFrameDiscarded (i : Fin 8) (frame : Bytes) (s : State) : Host.Outcome State Fault Refusal :=
  .next (s.dropFrame i.val frame)

/-! ## Planes (R282, R298) -/

/-- A packet as the item it carried: its payload in clear. -/
def State.itemOf (s : State) (remote i : Nat) (x : SentPacket) : LinkItem where
  kind := field x.header 0 1 / 16
  last := bit 1 (field x.header 1 1)
  msg := field x.header 16 4
  unit := field x.header 20 4
  step := field x.header 28 2
  content :=
    if s.confidential then
      Config.gcmEncrypt (s.herdKey i) (herdNonce s.me i remote x.seq) (x.payload.take (x.payload.length - 16))
    else x.payload

/-- A connection of a plane that went down stops; what it had not delivered goes over the planes left, and waits where none
is left (R282). -/
def State.stopConn (s : State) (remote i : Nat) : State :=
  let c := s.conn remote i
  let s1 := s.setConn remote i (fun c => { c with stopped := true })
  match s1.planesTo remote with
  | [] => s1
  | _ => (s1.setConn remote i (fun c => { c with sent := [], waiting := [] })).stripe remote
      (c.sent.map (fun x => s.itemOf remote i x) ++ c.waiting.filter (fun x => x.kind != 1 && x.kind != 2))

/-- HERD_PORT_DOWN on the state. -/
def State.portDown (s : State) (i : Nat) : State :=
  if !(s.herdPort i).pcsLock then s
  else
    let s1 := (s.setHerd i (fun h => { h with pcsLock := false, localFault := true, paused := [], pauseSince := [], xoff := false })).raise 0x5201 (portUnit i)
    (((s1.fab.conns.map (·.1)).filter (fun e => e % 8 == i)).map (· / 8)).foldl (fun (st : State) m => st.stopConn m i) s1

/-- HERD_PORT_DOWN: a herd port loses PCS lock (R282). -/
def execHerdPortDown (i : Fin 8) (s : State) : Host.Outcome State Fault Refusal := .next (s.portDown i.val)

/-- PCS_LOCK: a herd port's PCS locks; the local fault ends, and the port shows whether the far end signals a remote fault (R271,
R298; PRESUMED as IEEE 802.3 has it: log 41). -/
def execPcsLock (p : PcsLock) (s : State) : Host.Outcome State Fault Refusal :=
  .next (s.setHerd p.port.val (fun h => { h with pcsLock := true, localFault := false, remoteFault := p.remoteFault }))

/-! ## Joining (R294) -/

/-- JOIN_MESSAGE on the state: a lead passes JOIN on when its pen has joined; the tick master announces T_0 after the last. -/
def State.joinMessage (s : State) (m : BitVec 12) : State :=
  if s.seq.joinFrom.contains m then s
  else
    let s1 : State := { s with seq.joinFrom := s.seq.joinFrom ++ [m] }
    s1.sendJoin.announceStart

/-- JOIN_MESSAGE: a JOIN arrives up the tree (R294). -/
def execJoinMessage (module : BitVec 12) (now : Long) (s : State) : Host.Outcome State Fault Refusal :=
  .next ((s.timed now).joinMessage module)

/-- MAP_DIGEST on the state: kept until the module starts; a difference keeps a starting module from joining. -/
def State.mapDigest (s : State) (m : Nat) (d : BitVec 256) : State :=
  let s1 : State := { s with fab.mapDigests := (s.fab.mapDigests.filter (fun e => e.1 != m)) ++ [(m, d)] }
  if s.idle && s.seq.startPending && d != s.ownMapDigest then
    ({ s1.closeConnections with fab.mismatch := true, seq.startPending := false } : State).raise 0x5303
  else s1

/-- MAP_DIGEST: a peer's job-map digest arrives and is compared with this module's (R294, R425). -/
def execMapDigest (module : BitVec 12) (digest : BitVec 256) (s : State) : Host.Outcome State Fault Refusal :=
  .next (s.mapDigest module.toNat digest)

/-- PEER_ABSENT on the state: the job start is abandoned; the tick master raises the event. -/
def State.peerAbsent (s : State) : State :=
  if s.idle && s.seq.startPending && s.clk.t0.isNone then
    let s1 := ({ s with seq.startPending := false } : State).closeConnections
    if s.isMaster then s1.raise 0x5304 else s1
  else s

/-- PEER_ABSENT: not every module has joined within 10 s of the START on the tick master (R294). -/
def execPeerAbsent (s : State) : Host.Outcome State Fault Refusal := .next s.peerAbsent

end Sys2Proof.Machine
end

