-- ==== Sys2Proof/Machine/HostQueues.lean ====
section
/-! DEFINITION. The commands of the host queues: polling (R338, R341), descriptors as they arrive (R344, R352,
R353), batches as intake takes them (R64, R55), fences (R350), completions (R355) and the telemetry ring (R358). -/

namespace Sys2Proof.Machine

/-! ## Doorbells (R338, R341, R357) -/

/-- GROUP_POLL on the state. -/
def State.pollGroup (s : State) (g : Nat) : State :=
  let x := s.group g
  if x.enable && !x.outstanding && !(s.port (g / 32)).orphaned then
    (s.setGroup g (fun y => { y with outstanding := true })).readHost (g / 32) x.db.toNat 512
  else s

/-- GROUP_POLL: a group's poll period expires and its 512-byte doorbell block is read (R338). -/
def execGroupPoll (g : Fin 128) (s : State) : Host.Outcome State Fault Refusal := .next (s.pollGroup g.val)

/-- A submission queue's doorbell entry: the new slots are posted, or the queue halts (R341). -/
def State.postTo (s : State) (q pi lap now : Nat) : State :=
  let x := s.queue q
  let d := lap * x.entries + pi
  if x.entries ≤ pi ∨ x.entries < x.ahead d x.f ∨ x.ahead d x.f < x.ahead x.c x.f then s.haltQueue q 0x6105
  else (s.setQueue q (fun y => { y with d := d % y.modulus, posted := BitVec.ofNat 64 now })).fetchNext q

/-- A device-written ring's doorbell entry: the host's consumer position, or the ring halts (R357). -/
def State.consumeTo (s : State) (q pi lap : Nat) : State :=
  let x := s.queue q
  let k := lap * x.entries + pi
  if x.entries ≤ pi ∨ x.ahead x.p x.k < x.ahead k x.k then s.haltQueue q 0x6105
  else
    let s1 := s.setQueue q (fun y => { y with k := k % y.modulus })
    if x.cls = 2 then State.refillHeld 64 s1 else s1

/-- One entry of a doorbell block. -/
def State.doorbell (s : State) (block : Bytes) (now q : Nat) : State :=
  let x := s.queue q
  let off := 8 * (q % 64)
  if x.mode = .armed then
    if deviceRing x.cls then s.consumeTo q (field block off 4) (field block (off + 4) 4)
    else s.postTo q (field block off 4) (field block (off + 4) 4) now
  else s

/-- A poll read that fails finds nothing new (R353): HOST_READ_ERR at most once per group per step. -/
def State.pollFailed (s : State) (g : Nat) : State :=
  (s.setGroup g (fun y => { y with outstanding := false })).raiseOnce (8192 + g) 0x6108 (unitPort (g / 32)) (g * 64)

/-- When a queue's new doorbell entry became visible in host memory (R64): as the command says, else when the read ends. -/
def visibleAt (visible : List (Fin 64 × Long)) (now : Long) (i : Nat) : Nat :=
  ((visible.find? (fun v => v.1.val == i)).map (fun v => min v.2.toNat now.toNat)).getD now.toNat

/-- DOORBELL_READ_COMPLETION on the state. -/
def State.doorbellRead (s : State) (g : Nat) (r : ReadResult) (visible : List (Fin 64 × Long)) (now : Long) : State :=
  let x := s.group g
  if !x.outstanding then s
  else
    let s0 := ({ s with clk.time := now } : State).readOver (g / 32) x.db.toNat 512
    match r with
    | .failed => s0.pollFailed g
    | .ok b => (List.range 64).foldl (fun (st : State) i => st.doorbell b (visibleAt visible now i) (g * 64 + i))
        (s0.setGroup g (fun y => { y with outstanding := false }))

/-- DOORBELL_READ_COMPLETION: the read of a group's doorbell block ends (R341, R353, R357). -/
def execDoorbellReadCompletion (g : Fin 128) (r : DoorbellRead) (now : Long) (s : State) :
    Host.Outcome State Fault Refusal :=
  .next (s.doorbellRead g.val r.result r.visible now)

/-! ## Descriptors as they arrive (R344, R352, R353) -/

/-- Append a descriptor at position C. -/
def State.pushDesc (s : State) (q : Nat) (d : Desc) : State :=
  s.setQueue q (fun x => { x with c := x.next x.c, descs := x.descs ++ [d], fetching := false, rereads := 0, stale := false })

/-- A descriptor whose 64 bytes could not be used: its completion carries TAG 0. -/
def blindDesc (pos : Nat) : Desc := { pos := pos, bytes := List.replicate 64 0, tagKnown := false }

/-- The LAP differs (R344): read again later, or halt after the eighth re-read. -/
def State.lapMismatch (s : State) (q : Nat) : State :=
  let x := s.queue q
  if x.rereads < 8 then s.setQueue q (fun y => { y with stale := true, fetching := false })
  else
    let s1 := ((s.pushDesc q (blindDesc x.c)).finishDesc q x.c 0x6104 0).haltQueue q 0x6104
    { s1 with host.descFail := satAdd s1.host.descFail 1 }

/-- A descriptor with the LAP of its position: the first round of R352, and the read of a load's source. -/
def State.acceptDesc (s : State) (q : Nat) (b : Bytes) : State :=
  let x := s.queue q
  let d : Desc := { pos := x.c, bytes := b, stage := if dOp b = 3 then .reading else .ready, readyAt := s.readyTime q x.posted.toNat }
  let s1 := s.pushDesc q d
  match s.round1 b (queuePort q) x.cls with
  | some code => s1.failDesc q x.c code
  | none =>
    if dOp b = 3 then State.readBuffer (dSrcLen b / 4096 + 1) s1 (queuePort q) (dSrcAddr b) (dSrcLen b) else s1

/-- DESCRIPTOR_FETCHED on the state. -/
def State.descriptorFetched (s : State) (q : Nat) (r : ReadResult) (now : Long) : State :=
  let x := s.queue q
  if !x.fetching then s
  else
    let s0 := ({ s with clk.time := now } : State).readOver (queuePort q) (x.ring.toNat + 64 * x.slot x.c) 64
    if x.mode ≠ .armed then s0.setQueue q (fun y => { y with fetching := false })
    else
      match r with
      | .failed => ((s0.pushDesc q (blindDesc x.c)).failDesc q x.c 0x6108).fetchNext q
      | .ok data =>
        let b := slice data 0 64
        if dLap b = x.c / x.entries % 2 ^ 32 then (s0.acceptDesc q b).fetchNext q else s0.lapMismatch q

/-- DESCRIPTOR_FETCHED: a descriptor read ends; its LAP is checked and its 64 bytes are validated (R344, R352). -/
def execDescriptorFetched (q : Fin 8192) (r : ReadResult) (now : Long) (s : State) : Host.Outcome State Fault Refusal :=
  .next (s.descriptorFetched q.val r now)

/-- LAP_REREAD on the state. -/
def State.lapReread (s : State) (q : Nat) : State :=
  let x := s.queue q
  if x.mode = .armed ∧ x.stale then
    (s.setQueue q (fun y => { y with stale := false, fetching := true, rereads := y.rereads + 1 })).readHost (queuePort q)
      (x.ring.toNat + 64 * x.slot x.c) 64
  else s

/-- LAP_REREAD: 1 µs after a mismatch the descriptor is read again, up to 8 times (R344). -/
def execLapReread (q : Fin 8192) (s : State) : Host.Outcome State Fault Refusal := .next (s.lapReread q.val)

/-- The descriptor whose buffers a queue is reading. -/
def Queue.awaiting (x : Queue) : Option Desc :=
  x.descs.find? (fun d => d.stage == .reading || (d.stage == .taken && !d.intakeDone && (dOp d.bytes == 1 || dOp d.bytes == 2)))

/-- Where a descriptor's buffer lies: address and length. -/
def descBuffer (d : Bytes) : Nat × Nat := if dOp d = 3 then (dSrcAddr d, dSrcLen d) else (dBufAddr d, dBufLen d)

/-- A check fault in the intake of a batch (R381): the buffers are read once more, a second fault is a host read
error. -/
def State.intakeFault (s : State) (q : Nat) (d : Desc) (u : Half) : State :=
  let s1 := (s.raise 0x7101 u).countedFault u
  if s1.seq.next.rereads.contains (q, d.pos) then s1.failDesc q d.pos 0x6108
  else
    let b := descBuffer d.bytes
    let s2 := ({ s1 with seq.next.rereads := (q, d.pos) :: s1.seq.next.rereads } : State).raise 0x7109 u q
    State.readBuffer (b.2 / 4096 + 1) s2 (queuePort q) b.1 b.2

/-- A load's source has been read: opened when it is sealed (R428), its BLOCK_LEN held against SRC_LEN (R348). -/
def State.loadRead (s : State) (q : Nat) (d : Desc) (src : Bytes) : State :=
  let p := s.openLoad d.bytes src
  if dKind d.bytes = 0 then
    if !p.2 then s.stopDesc q d.pos 0x8202 0
    else if field p.1 24 4 ≠ p.1.length then s.failDesc q d.pos 0x6102
    else s.setDesc q d.pos (fun x => { x with stage := .ready, data := p.1 })
  else s.setDesc q d.pos (fun x => { x with stage := .ready, data := p.1, status := if p.2 then 0 else 0x8202 })

/-- A batch's buffer has been read: the second round of R352, and the end of its intake. -/
def State.batchRead (s : State) (q : Nat) (d : Desc) (b : Bytes) : State :=
  match s.round2Batch d.bytes b with
  | some code => s.failDesc q d.pos code
  | none => (s.setDesc q d.pos (fun x => { x with intakeDone := true, data := b })).endIntake

/-- HOST_READ_COMPLETION on the state. -/
def State.bufferRead (s : State) (q : Nat) (r : ReadResult) (chk : Check) : State :=
  let x := s.queue q
  match x.awaiting with
  | none => s
  | some d =>
    if x.mute then s
    else
      let buf := descBuffer d.bytes
      let s0 := s.readOver (queuePort q) buf.1 buf.2
      match r, chk with
      | .failed, _ => s0.failDesc q d.pos 0x6108
      | .ok _, some u => s0.intakeFault q d (unitCode u)
      | .ok data, none =>
        let b := slice data 0 buf.2
        if dOp d.bytes = 3 then s0.loadRead q d b else s0.batchRead q d b

/-- HOST_READ_COMPLETION: the buffers that a queue's descriptor names have been read and are validated (R352,
R353, R381, R428). -/
def execHostReadCompletion (q : Fin 8192) (r : ReadResult) (chk : Check) (s : State) : Host.Outcome State Fault Refusal :=
  .next (s.bufferRead q.val r chk)

/-! ## Batches -/

/-- TRAIN_BATCH: the next TRAIN_BATCH of a queue is taken into the coming step's intake (R64, R345, R347). -/
def execTrainBatch (q : Fin 8192) (s : State) : Host.Outcome State Fault Refusal := .next (s.takeBatch q.val)

/-- EVAL_BATCH on the state: taken in for the coming step's evaluation slot. -/
def State.takeEval (s : State) (q : Nat) : State :=
  match s.readyDesc q 2 with
  | some d =>
    if s.plan.isSome && s.seq.next.active then
      let s1 := s.setDesc q d.pos (fun x => { x with stage := .taken, step := s.nextStep, covered := s.inTime x })
      State.readBuffer (dBufLen d.bytes / 4096 + 1) s1 (queuePort q) (dBufAddr d.bytes) (dBufLen d.bytes)
    else s
  | none => s

/-- EVAL_BATCH: an EVAL_BATCH is taken in; it runs forward only in its step's evaluation slot (R55). -/
def execEvalBatch (q : Fin 8192) (s : State) : Host.Outcome State Fault Refusal := .next (s.takeEval q.val)

/-! ## Fences and NOP (R350, R355) -/

/-- FENCE on the state. -/
def State.takeFence (s : State) (q : Nat) : State :=
  match s.readyDesc q 6 with
  | some d =>
    let wq := dTable d.bytes
    if dFlag d.bytes && (wq == q || (s.queue wq).mode != .armed) then s.failDesc q d.pos 0x6107
    else s.setDesc q d.pos (fun x => { x with stage := .waiting })
  | none => s

/-- FENCE: a FENCE is taken and holds its queue until its conditions hold (R350). -/
def execFence (q : Fin 8192) (s : State) : Host.Outcome State Fault Refusal := .next (s.takeFence q.val)

/-- Whether a queue's completion or producer position has reached a position (R350). -/
def Queue.reached (x : Queue) (pos : Nat) : Bool :=
  decide (2 * x.ahead (if deviceRing x.cls then x.p else x.f) pos < x.modulus)

/-- FENCE_COMPLETION on the state. -/
def State.endFence (s : State) (q : Nat) : State :=
  let x := s.queue q
  match x.descs.find? (fun d => d.pos == x.f && d.stage == .waiting && dOp d.bytes == 6) with
  | some d =>
    let w := s.queue (dTable d.bytes)
    if !dFlag d.bytes then s.finishDesc q d.pos 0 0
    else if w.mode = .orphaned ∨ w.mode = .unarmed then s.failDesc q d.pos 0x6107
    else if w.reached (dWaitPos d.bytes) then s.finishDesc q d.pos 0 0
    else s
  | none => s

/-- FENCE_COMPLETION: a waiting FENCE completes once every earlier descriptor has and the waited position is
reached (R350). -/
def execFenceCompletion (q : Fin 8192) (s : State) : Host.Outcome State Fault Refusal := .next (s.endFence q.val)

/-- NOP of a queue on the state. -/
def State.takeNop (s : State) (q : Nat) : State :=
  match s.readyDesc q 8 with
  | some d => s.finishDesc q d.pos 0 0
  | none => s

/-- NOP: a NOP descriptor completes at once, in its turn (R355). -/
def execNop (q : Fin 8192) (s : State) : Host.Outcome State Fault Refusal := .next (s.takeNop q.val)

/-! ## Completions, MSI-X, telemetry -/

/-- COMPLETION_RECORD: the completion at position F is written once its descriptor's work is done (R354, R355). -/
def execCompletionRecord (q : Fin 8192) (now : Long) (s : State) : Host.Outcome State Fault Refusal :=
  .next (({ s with clk.time := now } : State).complete q.val)

/-- MSIX_HOLDOFF_END on the state. -/
def State.holdoffEnd (s : State) (q : Nat) : State :=
  let x := s.queue q
  if !x.holding then s
  else if x.more then (s.msix (queuePort q) x.vector.toNat).setQueue q (fun y => { y with holding := decide (y.holdoff ≠ 0), more := false })
  else s.setQueue q (fun y => { y with holding := false })

/-- MSIX_HOLDOFF_END: a queue's holdoff ends; one message is sent when more was written meanwhile (R363). -/
def execMsixHoldoffEnd (q : Fin 8192) (s : State) : Host.Outcome State Fault Refusal := .next (s.holdoffEnd q.val)

/-- TELEMETRY_ENTRY on the state. -/
def State.writeTelemetry (s : State) : State :=
  match s.telemetryQueue, s.host.tel.accepted with
  | some q, r :: rest =>
    if (s.queue q).free then
      State.refillHeld 64 (({ s with host.tel.accepted := rest } : State).writeEntry q 512 (telemetryEntry (s.queue q).p r))
    else s
  | _, _ => s

/-- TELEMETRY_ENTRY: the next record is written into the TELEMETRY ring, then the producer word (R357, R358). -/
def execTelemetryEntry (s : State) : Host.Outcome State Fault Refusal := .next s.writeTelemetry

end Sys2Proof.Machine
end

