-- ==== Sys2Proof/Machine/HostPorts.lean ====
section
/-! DEFINITION. The host ports: links that go down and come back (R364 to R368), host resets and removals (R369 to
R371), requests outside the window (R332), reads that time out (R353), and the snapshot of the window (R351). -/

namespace Sys2Proof.Machine

/-! ## Reads that fail (R353, R370) -/

/-- A setup command that reads an image through P0 ends with a code (R472); one that has its image goes on. -/
def State.failSetupRead (s : State) (code : Nat) : State :=
  if s.setup.cmdRunning ≠ 0 ∧ !s.setup.flashBusy then (s.endCmd code).endOp 1 else s

/-- A read of a queue's descriptor fails (R353). -/
def State.descriptorTimeout (s : State) (q : Nat) : State :=
  let x := s.queue q
  if x.fetching ∧ x.mode = .armed then
    (((s.readOver (queuePort q) (x.ring.toNat + 64 * x.slot x.c) 64).pushDesc q (blindDesc x.c)).failDesc q x.c 0x6108).fetchNext q
  else s

/-- A read of a descriptor's buffers fails (R353): the descriptor fails unless its intake had ended. -/
def State.bufferTimeout (s : State) (q : Nat) : State :=
  match (s.queue q).awaiting with
  | some d =>
    if (s.queue q).mute then s
    else
      let b := descBuffer d.bytes
      (s.readOver (queuePort q) b.1 b.2).failDesc q d.pos 0x6108
  | none => s

/-- HOST_READ_TIMEOUT on the state. -/
def State.readTimeout (s : State) (r : HostRead) : State :=
  match r with
  | .doorbell g =>
    let x := s.group g.val
    if x.outstanding then (s.readOver (g.val / 32) x.db.toNat 512).pollFailed g.val else s
  | .descriptor q => s.descriptorTimeout q.val
  | .buffer q => s.bufferTimeout q.val
  | .setup => s.failSetupRead 0x6108

/-- HOST_READ_TIMEOUT: a read of host memory reaches 50 ms without completion and fails (R353). -/
def execHostReadTimeout (r : HostRead) (s : State) : Host.Outcome State Fault Refusal := .next (s.readTimeout r)

/-! ## Retrains (R364 to R366, R368) -/

/-- Whether an output is a write to a port's host memory. -/
def isWriteOf (p : Nat) : Output → Bool
  | .hostWrite q _ _ => q == p
  | .completion q _ _ _ => q == p
  | _ => false

/-- Whether an output is a read. -/
def isRead : Output → Bool
  | .hostRead _ _ _ => true
  | _ => false

/-- Whether a write covers the one before it: a completion with data, or a ring's producer word. -/
def State.covers (s : State) : Output → Bool
  | .completion _ _ _ i => i.hasData
  | .hostWrite p a d => d.length == 8 && s.host.queues.any (fun e => queuePort e.1 == p && deviceRing e.2.cls && e.2.aux.toNat == a)
  | _ => false

/-- The last n writes to a port's memory, with the data that the first of them covers (R366). -/
def State.unackedWrites (s : State) (p n : Nat) : List Output :=
  let ws := s.out.filter (isWriteOf p)
  let tail := ws.drop (ws.length - n)
  if ((tail.head?).map s.covers).getD false then ws.drop (ws.length - n - 1) else tail

/-- PORT_LINK_DOWN on the state. -/
def State.linkDown (s : State) (p n : Nat) : State :=
  if (s.port p).link = .up then s.setPort p (fun x => { x with link := .retraining, unacked := s.unackedWrites p n }) else s

/-- PORT_LINK_DOWN: a port's data link goes down; its traffic is held (R364, R365). `unacked` is how many of the last
writes through the port the link has not acknowledged. -/
def execPortLinkDown (p : Fin 4) (unacked : Nat) (s : State) : Host.Outcome State Fault Refusal := .next (s.linkDown p.val unacked)

/-- A completion record as it leaves now: its slips and LATE brought up to date, and REWRITTEN when its data is written
again (R65, R366, R368). -/
def State.refreshed (s : State) (again : Bool) (o : Output) : Output :=
  match o with
  | .completion p a r i =>
    let more := s.clk.holds - i.holds
    let late := match i.bound with
      | some b => decide (b + more ≤ s.clk.tickNo)
      | none => false
    let flags := field r 23 1
    let slips := if i.batch then min 255 (field r 22 1 + more) else field r 22 1
    .completion p a (splice r 22 (leBytes 1 slips ++ leBytes 1 (flags - flags % 4
      + b2n (bit 0 flags || (again && i.hasData)) + 2 * b2n (bit 1 flags || late)))) i
  | o => o

/-- The vectors that a port's queues use with messages enabled, each once (R363, R366). -/
def State.enabledVectors (s : State) (p : Nat) : List Nat :=
  ((s.host.queues.filter (fun e => queuePort e.1 == p && e.2.irqEn && e.2.mode != .unarmed)).map (fun e => e.2.vector.toNat)).eraseDups

/-- PORT_RETRAIN on the state: reads again, then the writes that were not acknowledged, then what was held, then one
message on every enabled vector (R366). A retrain of P0 re-arms the guard (R465). -/
def State.retrainPort (s : State) (p : Nat) : State :=
  let x := s.port p
  if x.link ≠ .retraining then s
  else
    let s1 := (s.setPort p (fun y => { y with link := .up, retrains := satAdd y.retrains 1, heldOut := [], unacked := [] })).raise 0x6002 (unitPort p)
    let s2 := s1.emits (x.outstanding ++ x.unacked.map (s1.refreshed true)
      ++ (x.heldOut.filter (fun o => !isRead o)).map (s1.refreshed false))
    let s3 := (s.enabledVectors p).foldl (fun (st : State) v => st.msix p v) s2
    if p = 0 then { s3 with setup.armed := true } else s3

/-- PORT_RETRAIN: the link returns within 100 ms (R364, R366). -/
def execPortRetrain (p : Fin 4) (s : State) : Host.Outcome State Fault Refusal := .next (s.retrainPort p.val)

/-! ## Host resets (R369 to R371) -/

/-- Whether a descriptor's work goes on after its port's host was reset (R370). -/
def Desc.survives (d : Desc) : Bool :=
  match dOp d.bytes with
  | 1 => d.stage == .taken && d.intakeDone
  | 2 => d.stage == .taken && d.intakeDone
  | 3 => d.stage == .waiting
  | 4 => d.stage == .taken
  | 5 => d.stage == .taken || d.stage == .waiting
  | _ => false

/-- A load of a new version whose fill has not begun is dropped with its version. -/
def State.dropWaitingLoad (s : State) (d : Desc) : State :=
  if d.stage = .waiting ∧ dOp d.bytes = 3 then s.dropVersions (fun t => t.id == dTable d.bytes && t.staged && !t.filling && !t.filled) else s

/-- A queue of a port whose host was reset (R369, R370): its batches still in intake are withdrawn. -/
def State.orphanQueue (s : State) (q : Nat) : State :=
  let x := s.queue q
  if x.mode = .unarmed then s
  else
    let gone := x.descs.filter (fun d => d.stage != .finished && !d.survives)
    let s1 := gone.foldl (fun (st : State) d => st.withdraw q d) s
    let s2 := x.descs.foldl State.dropWaitingLoad s1
    let s3 := s2.setQueue q (fun y => { y with
      mode := if y.mode = .armed ∨ y.mode = .halted then .orphaned else y.mode
      mute := true, stale := false, fetching := false
      descs := y.descs.filter (fun d => d.stage == .finished || (d.survives
        && (dOp d.bytes != 3 || s2.emb.tables.any (fun t => t.id == dTable d.bytes && t.filling)))) })
    if x.mode = .armed ∨ x.mode = .halted then s3.failFences q else s3

/-- The queues of a port. -/
def State.portQueues (s : State) (p : Nat) : List Nat := (s.host.queues.map (·.1)).filter (fun q => queuePort q == p)

/-- A host reset of a port (R369, R370). -/
def State.orphanPort (s : State) (p : Nat) : State :=
  let s1 := (s.portQueues p).foldl State.orphanQueue s
  let s2 := s1.setPort p (fun x => { x with link := .down, orphaned := true, heldOut := [], outstanding := [], unacked := [] })
  let s3 : State := { s2 with host.groups := s2.host.groups.map (fun e =>
    if e.1 / 32 = p then (e.1, { e.2 with enable := false, outstanding := false }) else e) }
  let s4 := (s3.endIntake).raise 0x6003 (unitPort p) p
  let s5 := if s4.rel.exp.mode ≠ .off ∧ queuePort s4.rel.exp.queue = p then s4.breakExport else s4
  if p = 0 then ({ s5 with setup.armed := true } : State).failSetupRead 0x6108 else s5

/-- A host reset while the port's link is up or not yet classified; a link that is down has been classified. -/
def State.resetPort (s : State) (p : Nat) : State := if (s.port p).link = .down then s else s.orphanPort p

/-- LINK_DOWN_TIMEOUT: a link down beyond 100 ms is a host reset (R364). -/
def execLinkDownTimeout (p : Fin 4) (s : State) : Host.Outcome State Fault Refusal :=
  .next (if (s.port p.val).link = .retraining then s.orphanPort p.val else s)

/-- HOST_RESET: PERST#, a hot reset or D3hot on a port (R364, R369); each cause has the same effect. -/
def execHostReset (p : Fin 4) (_cause : ResetCause) (s : State) : Host.Outcome State Fault Refusal := .next (s.resetPort p.val)

/-- SURPRISE_REMOVAL: a host reset that also clears PRESENT (R371). -/
def execSurpriseRemoval (p : Fin 4) (s : State) : Host.Outcome State Fault Refusal :=
  .next ((s.resetPort p.val).setPort p.val (fun x => { x with present := false }))

/-- PORT_UP on the state. -/
def State.portUp (s : State) (p : Nat) (speed : BitVec 4) (width : BitVec 5) : State :=
  if (s.port p).link ≠ .down then s
  else
    let s1 := (s.setPort p (fun x => { x with link := .up, present := true, speed := speed, width := width })).raise 0x6001 (unitPort p) p
    if speed.toNat < 6 ∨ width.toNat < 16 then s1.raise 0x6004 (unitPort p) p else s1

/-- PORT_UP: a port's link trains (R371); below 64 GT/s x16 it is degraded (R331). -/
def execPortUp (p : Fin 4) (speed : BitVec 4) (width : BitVec 5) (s : State) : Host.Outcome State Fault Refusal :=
  .next (s.portUp p.val speed width)

/-- UNSUPPORTED_REQUEST: a request outside BAR0 completes with Unsupported Request (R332). -/
def execUnsupportedRequest (p : Fin 4) (s : State) : Host.Outcome State Fault Refusal := .next (s.emit (.unsupported p.val))

/-! ## TELEMETRY_SNAPSHOT (R351) -/

/-- The words of the window from an offset as a port reads them. -/
def State.snapshot (s : State) (port off len : Nat) : Bytes :=
  ((List.range (len / 4)).map (fun i => leBytes 4 (s.windowRead port (off + 4 * i)).toNat)).flatten

/-- TELEMETRY_SNAPSHOT on the state. -/
def State.takeSnapshot (s : State) (q : Nat) : State :=
  match s.readyDesc q 7 with
  | some d => (s.setDesc q d.pos (fun x => { x with data := s.snapshot (queuePort q) (dWinOffset d.bytes) (dWinLen d.bytes) })).finishDesc q
      d.pos 0 (dWinLen d.bytes)
  | none => s

/-- TELEMETRY_SNAPSHOT: words of the window, as the queue's port reads them, go to host memory (R351). -/
def execTelemetrySnapshot (q : Fin 8192) (s : State) : Host.Outcome State Fault Refusal := .next (s.takeSnapshot q.val)

end Sys2Proof.Machine
end

