-- ==== Sys2Proof/Machine/Ticks.lean ====
section
/-! DEFINITION. Ticks and decisions (R42 to R50, R62, R68, R70, R77): the local tick with its apply point, the GO tick that
starts a step, the HOLD tick, halting, the decision point and its announcements (R170), and the step clock (R445, R446). -/

namespace Sys2Proof.Machine

/-! ## Announcements (R62, R170) -/

/-- A swap is announced: SWAP_ANNOUNCED, and the pending swap waits for its last old step (R170). -/
def State.announceSwap (s : State) (w : Nat × Nat) : State :=
  let s1 := s.mapTables (fun t => t.id == w.1 && t.version == w.2) (fun t => { t with announced := true })
  ({ s1 with emb.swaps := s1.emb.swaps.map (fun x => if x.table = w.1 ∧ x.version = w.2 then { x with announced := true } else x) } : State).raise
    0x3201 0 w.1 w.2

/-- A period is announced for a later tick: every module runs admission for it (R62). -/
def State.announcePeriod (s : State) (p : BitVec 24 × Nat) : State :=
  if p.2 ≤ s.clk.tickNo + 1 then s
  else
    let r := match s.plan with
      | some pl => s.runAdmission pl p.1.toNat
      | none => (s, false)
    { r.1 with seq.periodAnn := some p, seq.periodOk := r.2 }

/-- A decision takes its place for the coming tick with what it announces. -/
def State.acceptDecision (s : State) (d : Decision) : State :=
  let s1 := d.swaps.foldl (fun (st : State) w => st.announceSwap w) s
  let s2 := match d.period with
    | some p => s1.announcePeriod p
    | none => s1
  { s2 with clk.decision := some d }

/-- The announced period at its tick: it takes effect when the decision repeats it, else it is discarded, on the tick
master with ADMIT_REFUSE (R62, R77). -/
def State.settlePeriod (s : State) (d : Decision) : State :=
  match s.seq.periodAnn with
  | none => s
  | some p =>
    if p.2 ≠ s.clk.tickNo then s
    else
      let s1 : State := { s with seq.periodAnn := none, seq.periodAsk := none, seq.periodOk := true }
      if d.period = some p then { s1 with active.tickPeriod := p.1, pend.tickPeriod := if s.isMaster then p.1 else s1.pend.tickPeriod }
      else if s.isMaster then ({ s1 with pend.tickPeriod := s1.active.tickPeriod } : State).raise 0x1301
      else s1

/-! ## The decision point (R45, R68, R367) -/

/-- The intake of the coming step has not ended by the decision point: an excess for the current step (R367). -/
def State.checkIntake (s : State) : State :=
  if s.jobRuns && s.seq.next.active && !s.seq.next.ended then s.declareExcess else s

/-- GO when every module has reported DONE and no excess is left to cost its tick (R45, R68). -/
def State.mayGo (s : State) : Bool := s.allDone && (!s.seq.excess || s.seq.excessSpent)

/-- The step in progress began after an announcement for the coming tick, so its DONE reports carry the result. -/
def State.answersPeriod (s : State) : Bool := decide (s.clk.lastTick.toNat ≤ s.seq.tickTime.toNat + s.period * 1000)

/-- What the tick master announces about the period: a change that has reached a tick apply point (R77), two ticks ahead of the tick
decided; and at the
announced tick again, when every module admits it. -/
def State.periodNews (s : State) : Option (BitVec 24 × Nat) :=
  match s.seq.periodAnn with
  | some p => if p.2 = s.clk.tickNo + 1 ∧ s.allDone ∧ s.answersPeriod ∧ s.joinedDone.periodOk then some p else none
  | none =>
    if s.multi && s.pend.tickPeriod != s.active.tickPeriod && s.seq.periodAsk == some s.pend.tickPeriod then
      some (s.pend.tickPeriod, s.clk.tickNo + 3)
    else none

/-- The swaps for which every module's DONE carries READY and that are not yet announced (R170). -/
def State.swapNews (s : State) : List (Nat × Nat) :=
  if s.allDone then
    s.joinedDone.ready.filter (fun e => s.emb.swaps.any (fun w => w.table == e.1 && w.version == e.2 && !w.announced))
  else []

/-- The decision of the tick master, or of a module that is its own. -/
def State.ownDecision (s : State) : Decision := { go := s.mayGo, period := s.periodNews, swaps := s.swapNews }

/-- The tick master decides and sends the decision down the tree. -/
def State.makeDecision (s : State) : State :=
  let d := s.ownDecision
  (s.messages s.treeChildren .decision (decisionBody d)).acceptDecision d

/-- DECISION_POINT on the state: a module other than the tick master only looks at its own intake, and with SOURCE = TICK_IN the
decision falls at the edge (R47). -/
def State.decisionPoint (s : State) : State :=
  if !s.jobRuns then s
  else
    let s1 := s.checkIntake
    if s1.isMaster && s1.clk.decision.isNone && s1.active.tickSource != 2 then s1.makeDecision else s1

/-- DECISION_POINT: the tick master decides GO or HOLD for the coming tick and sends it down the tree, with the
announcements of R62 and R170 (R45). -/
def execDecisionPoint (now : Long) (s : State) : Host.Outcome State Fault Refusal := .next (s.timed now).decisionPoint

/-- DECISION_MESSAGE on the state: a lead module forwards it to its pen. T_0 is taken by a module that has joined. -/
def State.decisionMessage (s : State) (d : Decision) : State :=
  if s.isMaster || !s.multi then s
  else
    let s1 := s.messages s.treeChildren .decision (decisionBody d)
    match d.t0 with
    | some t => if s1.seq.startPending && s1.seq.joined then { s1 with clk.t0 := some t } else s1
    | none => if s1.jobRuns then s1.acceptDecision d else s1

/-- DECISION_MESSAGE: a module receives the decision for the coming tick with its announcements (R45, R294). -/
def execDecisionMessage (d : Decision) (s : State) : Host.Outcome State Fault Refusal := .next (s.decisionMessage d)

/-! ## The GO tick (R48 to R51) -/

/-- The swaps that were announced and not yet bound: the step that begins is their last old one (R170). -/
def State.bindSwaps (s : State) (n : BitVec 48) : State :=
  { s with emb.swaps := s.emb.swaps.map (fun w => if w.announced && w.lastOld.isNone then { w with lastOld := some n } else w) }

/-- The lookups of the step that begins are those separated for it. -/
def State.takeLookups (s : State) : State :=
  { s with
    attn := [], hist := {}
    emb := { s.emb with
      tables := s.emb.tables.map (fun t => { t with sweptNow := 0 }), now := s.emb.next, next := {}, partials := [], exact := [], merged := [], denseGrad := [], served := [] }
    fab := { s.fab with reducing := [] } }

/-- A new epoch of the watch. -/
def State.newEpoch (s : State) (first : Bool) : State :=
  { s with watch := { s.watch with
      lLocal := 0, gLocal := 0, averageStart := s.watch.average, entries := s.watch.entries.map (fun e => (e.1, e.2.newEpoch first)) } }

/-- The sequencer's state as a step begins: its intake is the one that ended, and deferred claims keep their place. -/
def State.freshStep (s : State) (n : BitVec 48) : State :=
  { s with
    seq := { s.seq with
      job := if s.seq.job = .stopping then .stopping else .running, step := n, curSlips := 0, excess := false, ownExcess := false
      excessSpent := false, doneFrom := [], doneSent := false, doneUp := false, phases := { started := [1] }
      tail := { claimed := s.seq.tail.deferred }, intake := s.seq.next, next := {}, stats := s.freshStats s.seq.next, replay := {}
      evalFaults := 0, tickTime := s.clk.time }
    clk.held := false
    rel.ledger := s.rel.ledger.map (fun e => (e.1, { e.2 with stepCount := 0 }))
    events.once := [] }

/-- Phase 1: the lists and the digests of the last step leave (R51, R156, R228, R251). -/
def State.startPhase1 (s : State) : State :=
  let s1 := (s.countInvalid s.emb.now.invalid).keepCounts
  let s2 : State := { s1 with seq.stats.invalid := s1.seq.stats.invalid + s1.invalidUsers }
  s2.sendLists.sendUserLists.sendDigests

/-- The intake of the step after the one that begins (R48, R49): none once a STOP was written. -/
def State.openIntake (s : State) : State :=
  if s.seq.job = .stopping then s
  else ({ s with seq.next := { active := true, tick := s.clk.tickNo, step := s.seq.step + 1, began := s.clk.time } } : State).takeEveryBatch.endIntake

/-- An excess of the intake counts for the step that takes the batch in (R67). -/
def State.intakeExcess (s : State) : State := if s.seq.intake.excess then s.declareExcess else s

/-- A GO tick starts a step (R48, R50). -/
def State.startStep (s : State) : State :=
  let n : BitVec 48 := if s.filling then 0 else s.seq.step + 1
  let s1 := s.separateNext.releaseCache
  let s2 := ((s1.takeLookups.newEpoch (n == 0)).freshStep n).bindSwaps n
  let s3 := if s2.rel.exp.armPending then s2.startStream else s2
  s3.startPhase1.intakeExcess.openIntake

/-! ## The HOLD tick (R70) -/

/-- A held tick counts in the slips of each batch that is eligible and not completed (R65). -/
def Desc.slip (d : Desc) : Desc :=
  if (dOp d.bytes = 1 ∨ dOp d.bytes = 2) ∧ d.eligible.isSome then { d with slips := d.slips + 1 } else d

/-- SLIPPED, SLIPS and the clock's range of a due record. -/
def slipRecord (clock : Nat) (r : DueRecord) : DueRecord :=
  let b := splice (splice r.body 6 (leBytes 2 (field r.body 6 2 ||| 1))) 16 (leBytes 1 (min 255 (field r.body 16 1 + 1)))
  { r with body := splice b 28 (leBytes 2 (min (field b 28 2) clock) ++ leBytes 2 (max (field b 30 2) clock)) }

/-- A HOLD tick: SLIP and its counts, and the clock that the tick has set counts for the step that goes on (R72); the step counter
holds. -/
def State.holdTick (s : State) : State :=
  ({ s with
    seq := { s.seq with
      slipTotal := satAdd s.seq.slipTotal 1, curSlips := satAdd s.seq.curSlips 1, excessSpent := true
      stats := { s.seq.stats with
        slips := s.seq.stats.slips + 1, slipped := true
        clockMin := min s.seq.stats.clockMin s.pwr.clock.toNat, clockMax := max s.seq.stats.clockMax s.pwr.clock.toNat }
      due := s.seq.due.map (fun r => if r.step = s.seq.step then slipRecord s.pwr.clock.toNat r else r) }
    clk := { s.clk with held := true, holds := s.clk.holds + 1 }
    host.queues := s.host.queues.map (fun e => (e.1, { e.2 with descs := e.2.descs.map Desc.slip })) } : State).raise 0x1201

/-! ## Halting at a tick -/

/-- The job halts at this tick, or when the phase 7 in progress has ended (R177). -/
def State.haltNow (s : State) : State := if s.sweepRuns then { s with seq.haltDue := true, seq.haltPending := true } else s.enterHalted

/-- No decision has arrived by the tick: TICK_LOST (R45). -/
def State.noDecision (s : State) : State := (s.raise 0x1103 0 0 0 true).haltNow

/-- What a tick of a running job does with its decision. -/
def State.obeyDecision (s : State) (d : Decision) : State :=
  let s1 := ({ s with clk.decision := none } : State).settlePeriod d
  if d.go then s1.startStep else s1.holdTick

/-- A module that decides alone: the tick master, or the only module of its job. -/
def State.decidesAlone (s : State) : Bool := s.isMaster || !s.multi || s.active.tickSource == 2

/-- A tick of a running job (R45, R46, R70). -/
def State.jobTick (s : State) : State :=
  if s.seq.haltPending || s.clk.tickLost then s.haltNow
  else if s.active.slipLimit.toNat ≤ s.seq.curSlips.toNat then (s.raise 0x1203 unitSequencer 0 s.seq.curSlips.toNat true).haltNow
  else
    match s.clk.decision with
    | some d => s.obeyDecision d
    | none =>
      if s.decidesAlone then
        let s1 := s.checkIntake
        s1.makeDecision.obeyDecision s1.ownDecision
      else s.noDecision

/-! ## The step clock (R445, R446, R327, R436) -/

/-- What the power stage has measured. -/
def State.measured (s : State) (p : PowerSample) : State :=
  { s with pwr := { s.pwr with vin := p.vin, iin := p.iin, pin1ms := p.pin1ms, pin1s := p.pin1s, peakUsed := p.peakUsed } }

/-- The step clock for what follows: lowered, raised or held (R445). Junction temperatures are in units of 0.0625 °C. -/
def PowerState.nextClock (p : PowerState) (limit : Nat) : Nat :=
  if p.clampActed || decide (1600 < p.tjMax.toInt) then max 3000 (p.stepClock.toNat - 200)
  else if decide (p.peakUsed.toNat < 125) && decide (p.pin1s.toNat * 100 ≤ 95 * limit) && decide (p.tjMax.toInt ≤ 1552) then
    min 3600 (p.stepClock.toNat + 100)
  else p.stepClock.toNat

/-- The clock at a tick; a clamp's clock held until here. -/
def State.setStepClock (s : State) : State :=
  let c := s.pwr.nextClock s.active.powerLimit.toNat
  let s1 : State := { s with pwr := { s.pwr with
      stepClock := BitVec.ofNat 16 c, clock := BitVec.ofNat 16 c, clampActed := false, clamped := false, tjMax := s.pwr.tj } }
  if c < s.pwr.stepClock.toNat then s1.raise 0x9102 0 0 c
  else if s.pwr.stepClock.toNat < c then s1.raise 0x9103 0 0 c
  else s1

/-- The causes of SPEC_VOID that remain at a tick (R327, R436, R446): 1,600 is 100 °C. -/
def State.causesLeft (s : State) : VoidCauses :=
  let v := s.seq.void
  let cool := s.stacksBelow 1600 && s.pwr.coolOk
  { stack := v.stack && !cool
    coolant := v.coolant && !cool
    vin := v.vin && !s.pwr.vinOk
    clamp := v.clamp && !(decide (3000 ≤ s.pwr.stepClock.toNat) && (match s.pwr.clampAt with
      | some t => decide (2000000000 ≤ s.clk.time.toNat - t.toNat)
      | none => true)) }

/-- SPEC_RESTORED at the first tick at which every cause has ended. -/
def State.restorePromise (s : State) : State :=
  if !s.seq.void.any then s
  else
    let v := s.causesLeft
    let s1 : State := { s with seq.void := v, mem.crit := s.mem.crit && (v.stack || v.coolant) }
    if v.any then s1 else s1.raise 0x9012

/-! ## The tick -/

/-- The pulse of R47 on TICK_OUT, and on an AUX pin that mirrors it (R457). -/
def State.tickPulse (s : State) : State :=
  let s1 := if s.active.tickOutEn then s.emit .tickOut else s
  let s2 := if s1.active.aux0 = 1 then s1.emit (.auxPulse 0) else s1
  if s2.active.aux1 = 1 then s2.emit (.auxPulse 1) else s2

/-- Whether this tick is the T_0 of a pending start. -/
def State.startsHere (s : State) : Bool :=
  s.idle && s.seq.startPending && (!s.multi || (match s.clk.t0 with
    | some t => decide (t.toNat ≤ s.clk.time.toNat)
    | none => false))

/-- The tick's number and time, and the descriptors that are eligible from it (R64). -/
def State.countTick (s : State) : State :=
  { s with
    clk.tickNo := s.clk.tickNo + 1, clk.lastTick := s.clk.time
    host.queues := s.host.queues.map (fun e => (e.1, { e.2 with
      descs := e.2.descs.map (Desc.atTick s.clk.time.toNat (s.clk.tickNo + 1)) })) }

/-- A local tick (R42): the apply point of R469 first, then the clock, then the job. -/
def State.tick (s : State) : State :=
  let begins := s.startsHere
  let s1 := if begins || !s.idle then s.applyPoint false else s
  let s2 := s1.tickPulse.countTick.setStepClock.restorePromise
  if begins then s2.startJob else if s2.jobRuns then s2.jobTick else s2

/-- LOCAL_TICK on the state: with SOURCE = TICK_IN the ticks are the edges. -/
def State.localTick (s : State) (now : Long) (p : PowerSample) : State :=
  if s.active.tickSource = 2 then s else ((s.timed now).measured p).tick

/-- LOCAL_TICK: the module's copy of the time base reaches T_k (R42); it takes the tick's apply point, acts on the decision
(R45 to R50, R70) and sets the step clock (R445). `p` is what the power stage has measured. -/
def execLocalTick (now : Long) (p : PowerSample) (s : State) : Host.Outcome State Fault Refusal := .next (s.localTick now p)

/-- TICK_IN_EDGE on the state: an edge less than 1,000 µs after the last accepted one is ignored and counted (R47). -/
def State.tickEdge (s : State) (now : Long) (p : PowerSample) : State :=
  if s.active.tickSource ≠ 2 then s
  else if s.clk.edgeSeen && decide (now.toNat < s.clk.lastEdge.toNat + 1000000) then
    ({ s with clk.glitch := satAdd s.clk.glitch 1, clk.time := now } : State).raise 0x1104
  else ({ (s.timed now).measured p with clk.edgeSeen := true, clk.lastEdge := now } : State).tick

/-- TICK_IN_EDGE: a rising edge on TICK_IN is a tick when the source is TICK_IN (R47). -/
def execTickInEdge (now : Long) (p : PowerSample) (s : State) : Host.Outcome State Fault Refusal := .next (s.tickEdge now p)

/-! ## Holdover (R46) -/

/-- TICK_HOLDOVER on the state: a module disciplined by another enters holdover. -/
def State.enterHoldover (s : State) : State :=
  if s.multi && !s.isMaster && !s.clk.holdover then
    ({ s with clk.holdover := true, clk.locked := false, seq.stats.holdover := true } : State).raise 0x1102
  else s

/-- TICK_HOLDOVER: 1 ms has passed without a time-transfer exchange (R46). -/
def execTickHoldover (now : Long) (s : State) : Host.Outcome State Fault Refusal := .next (s.timed now).enterHoldover

/-- TICK_LOST on the state: the job, when one runs, halts at the next tick. -/
def State.loseTick (s : State) : State :=
  if s.clk.holdover && !s.clk.tickLost then ({ s with clk.tickLost := s.jobRuns } : State).raise 0x1103 0 0 0 true else s

/-- TICK_LOST: holdover has lasted 50 ms (R46). -/
def execTickLost (now : Long) (s : State) : Host.Outcome State Fault Refusal := .next (s.timed now).loseTick

end Sys2Proof.Machine
end

