-- ==== Sys2Proof/Machine/Power.lean ====
section
/-! DEFINITION. The module controller (R436 to R442, R447, R449, R451), what the loss of the saddle's power leaves (R478), the
clamps (R444, R446), the temperatures (R448), the wear ledger (R452) and the sideband (R458, R459). -/

namespace Sys2Proof.Machine

/-! ## Power events (R461, R462) -/

/-- A power event of the module controller: an event record while the tack room is powered, held in the controller, which
keeps the newest 32, while it is not (R461); signalled by in-band interrupt (R458). -/
def State.powerEvent (s : State) (code : Nat) (qty : Nat := 0) : State :=
  let s1 := if s.pwr.tackRoom then s.raise code 0 0 qty
    else
      let all := s.pwr.events ++ [s.eventRec code 0 0 qty false]
      { s with pwr.events := all.drop (all.length - 32) }
  s1.emit .inBandInterrupt

/-! ## The saddle without power (R440, R478) -/

/-- The ledger as flash holds it: what a step or a job counted is gone. -/
def LedgerEntry.stored (e : LedgerEntry) : LedgerEntry := { e with countedIn := none, stepCount := 0 }

/-- What module flash holds of the boot state (R483). -/
def BootState.flash (b : BootState) : BootState :=
  { hyram := b.hyram, svnFloor := b.svnFloor, image := b.image, penPeers := b.penPeers }

/-- The saddle is off: its contents are lost, registers take their reset values, and fresh keys will be made (R417, R478).
Module flash, the controller and the queue of commands stay; the lifetime step count is the one last written (R393), and a
firmware image whose write ran is no valid image (R482). -/
def State.saddleLost (s : State) : State where
  pending := s.pending
  fresh := s.fresh
  out := s.out
  boot := { s.boot.flash with image := if s.boot.writing.isSome then some [] else s.boot.image }
  clk := { time := s.clk.time }
  mem := { keyGen := s.mem.keyGen + 1 }
  rel := { ledger := s.rel.ledger.map (fun e => (e.1, e.2.stored)), lifeSteps := s.rel.lifeWritten, lifeWritten := s.rel.lifeWritten }
  sec := { svnFloor := s.sec.svnFloor, certs := s.sec.certs, romId := s.sec.romId, draws := s.sec.draws }
  pwr := { s.pwr with
    saddle := false, tackRoom := false, bulk := false, pwrgd := false, clock := 3600, stepClock := 3600, clampActed := false
    clamped := false, clampAt := none, tj := 0, tjSensor := 0, tjMax := 0, peakUsed := 0 }

/-- The saddle is powered or is being powered. -/
def State.powered (s : State) : Bool := s.pwr.ctl == .on || s.pwr.ctl == .powering || s.pwr.ctl == .stopping

/-- The saddle's rails go off and the controller enters LOCKOUT with an event (R441). -/
def State.lockOut (s : State) (code : Nat) : State :=
  let s1 := if s.powered then s.saddleLost else s
  ({ s1 with pwr.ctl := .lockout, pwr.rearmed := false, pwr.cycleAt := none } : State).powerEvent code

/-! ## The power sequence (R437 to R442) -/

/-- The conditions under which STANDBY is left (R439). -/
def PowerState.mayPower (p : PowerState) : Bool := p.auxUp && p.inserted && p.pwrEn && p.sideband && p.vinOk && p.coolOk

/-- POWER_WAIT once while PWR_EN is high and a condition fails (R439). -/
def State.powerWait (s : State) : State :=
  if s.pwr.ctl == .standby && s.pwr.auxUp && s.pwr.pwrEn && !s.pwr.mayPower && !s.pwr.waitRaised then
    ({ s with pwr.waitRaised := true } : State).powerEvent 0x9501
  else s

/-- LOCKOUT is left for STANDBY; THERM_TRIP# is released (R441, R449). -/
def State.leaveLockout (s : State) : State := { s with pwr.ctl := .standby, pwr.thermTrip := false, pwr.rearmed := false }

/-- A rise of PWR_EN or POWER_CYCLE would end LOCKOUT: it does, once the wait after a thermal trip is over (R441). -/
def State.rearm (s : State) : State :=
  if s.pwr.tripWait then { s with pwr.rearmed := true } else s.leaveLockout

/-- AUX_POWER_UP: the controller becomes ready, in STANDBY with the sideband enable 1 (R438, R459). -/
def execAuxPowerUp (s : State) : Host.Outcome State Fault Refusal :=
  .next ({ s with pwr.auxUp := true, pwr.ctl := .standby, pwr.sideband := true } : State).powerWait

/-- MODULE_INSERTION: the module enters a live tray, in STANDBY (R442). -/
def execModuleInsertion (s : State) : Host.Outcome State Fault Refusal :=
  .next ({ s with pwr.inserted := true, pwr.auxUp := true, pwr.ctl := .standby, pwr.sideband := true } : State).powerWait

/-- MODULE_EXTRACTION: the contents of a powered saddle are lost; the flow sensor reads zero (R442). -/
def execModuleExtraction (s : State) : Host.Outcome State Fault Refusal :=
  let s1 := if s.powered then s.saddleLost else s
  .next { s1 with pwr.inserted := false, pwr.pwrEn := false, pwr.flow := 0, pwr.ctl := .standby, pwr.waitRaised := false }

/-- PWR_EN_RISE on the state. -/
def State.pwrEnRise (s : State) : State :=
  let s1 : State := { s with pwr.pwrEn := true, pwr.lowSince := none }
  if s.pwr.ctl ≠ .lockout then s1.powerWait
  else
    match s.pwr.lowSince with
    | some t => if t.toNat + 100000000 ≤ s.clk.time.toNat then s1.rearm.powerWait else s1
    | none => s1

/-- PWR_EN_RISE: the controller leaves LOCKOUT after 100 ms low, or waits for the power-on conditions (R439, R441). -/
def execPwrEnRise (now : Long) (s : State) : Host.Outcome State Fault Refusal := .next (s.timed now).pwrEnRise

/-- POWERING on the state: after POWER_CYCLE no sooner than 1 s later (R459). -/
def State.powering (s : State) : State :=
  let due := match s.pwr.cycleAt with
    | some t => decide (t.toNat + 1000000000 ≤ s.clk.time.toNat)
    | none => true
  if s.pwr.ctl == .standby && s.pwr.mayPower && due then
    { s with pwr.ctl := .powering, pwr.waitRaised := false, pwr.cycleAt := none }
  else s

/-- POWERING: every power-on condition holds and the bulk charge begins (R437, R439). -/
def execPowering (now : Long) (s : State) : Host.Outcome State Fault Refusal := .next (s.timed now).powering

/-- BULK_CHARGED: the bulk capacitance is charged and the tack room rails are enabled (R437, R439). -/
def execBulkCharged (s : State) : Host.Outcome State Fault Refusal :=
  .next (if s.pwr.ctl = .powering then { s with pwr.bulk := true, pwr.tackRoom := true } else s)

/-- PWRGD: every rail is in regulation and the state becomes ON (R439). -/
def execPwrgd (s : State) : Host.Outcome State Fault Refusal :=
  .next (if s.pwr.ctl = .powering ∧ s.pwr.tackRoom then { s with pwr.ctl := .on, pwr.saddle := true, pwr.pwrgd := true } else s)

/-- RAIL_REGULATION_TIMEOUT: a rail is not in regulation by 120 ms; every rail goes off (R439). -/
def execRailRegulationTimeout (s : State) : Host.Outcome State Fault Refusal :=
  .next (if s.pwr.ctl = .powering then { s.saddleLost with pwr.ctl := .lockout, pwr.rearmed := false } else s)

/-- STOPPING: PWRGD goes low at once (R440). -/
def State.enterStopping (s : State) : State :=
  if s.pwr.ctl = .on ∨ s.pwr.ctl = .powering then { s with pwr.ctl := .stopping, pwr.pwrgd := false } else s

/-- PWR_EN_FALL: PWR_EN falls and the controller enters STOPPING (R440, R441). -/
def execPwrEnFall (now : Long) (s : State) : Host.Outcome State Fault Refusal :=
  .next ({ s.timed now with pwr.pwrEn := false, pwr.lowSince := some now, pwr.waitRaised := false } : State).enterStopping

/-- Hours enter the hot count of the wear ledger (R452). -/
def State.hotHours (s : State) (n : Nat) : State :=
  let old := s.pwr.wearHot.toNat
  let s1 : State := { s with pwr.wearHot := satAdd s.pwr.wearHot n }
  let s2 := if old < 4000 ∧ 4000 ≤ s1.pwr.wearHot.toNat then s1.powerEvent 0x9401 else s1
  if old < 5000 ∧ 5000 ≤ s2.pwr.wearHot.toNat then s2.powerEvent 0x9402 else s2

/-- RAILS_OFF on the state. -/
def State.railsOff (s : State) (hours hot : Nat) : State :=
  if s.pwr.ctl ≠ .stopping then s
  else
    let s1 := ({ s with pwr.wearOn := satAdd s.pwr.wearOn hours } : State).hotHours hot
    ({ s1.saddleLost with pwr.ctl := .standby } : State).powerWait

/-- RAILS_OFF: the rails are off and the state becomes STANDBY; the wear ledger is written with the whole hours completed
(R440, R452). -/
def execRailsOff (hours hot : Nat) (s : State) : Host.Outcome State Fault Refusal := .next (s.railsOff hours hot)

/-- TRIP_WAIT_END: 10 s after a thermal trip LOCKOUT may be left (R441). -/
def execTripWaitEnd (s : State) : Host.Outcome State Fault Refusal :=
  let s1 : State := { s with pwr.tripWait := false }
  .next (if s.pwr.ctl = .lockout ∧ s.pwr.rearmed then s1.leaveLockout.powerWait else s1)

/-! ## Voltage and current (R436, R447) -/

/-- VIN_UV: VIN below 38.0 V for 1 ms (R436, R441). -/
def execVinUv (s : State) : Host.Outcome State Fault Refusal := .next (({ s with pwr.vinOk := false } : State).lockOut 0x9003)

/-- VIN_OV: VIN above 55.0 V for 10 µs (R436, R441). -/
def execVinOv (s : State) : Host.Outcome State Fault Refusal := .next (({ s with pwr.vinOk := false } : State).lockOut 0x9004)

/-- VIN outside the rated band: the clock stays, the promise of a powered saddle is suspended (R436). -/
def State.vinOut (s : State) (mv : Half) (code : Nat) : State :=
  let s1 := ({ s with pwr.vin := mv, pwr.vinOk := false } : State).powerEvent code mv.toNat
  if s.powered then s1.voidPromise (fun v => { v with vin := true }) else s1.powerWait

/-- VIN_LOW: VIN falls below 40.0 V (R436). -/
def execVinLow (mv : Half) (s : State) : Host.Outcome State Fault Refusal := .next (s.vinOut mv 0x9001)

/-- VIN_HIGH: VIN rises above 50.0 V (R436). -/
def execVinHigh (mv : Half) (s : State) : Host.Outcome State Fault Refusal := .next (s.vinOut mv 0x9002)

/-- VIN_RATED: VIN has been within the rated band for 100 ms; the promise returns at the next tick (R436). -/
def execVinRated (mv : Half) (s : State) : Host.Outcome State Fault Refusal :=
  .next { s with pwr.vin := mv, pwr.vinOk := true }

/-- PWR_OCP: input current above 80 A for 100 µs (R447). -/
def execPwrOcp (s : State) : Host.Outcome State Fault Refusal := .next (s.lockOut 0x9005)

/-! ## Clamps and temperatures (R444, R446, R448, R449) -/

/-- A clamp acts (R444): PWR_CLAMP at most once per step. -/
def State.clampActs (s : State) : State :=
  ({ s with pwr.clampActed := true, pwr.clamped := true, pwr.clampAt := some s.clk.time } : State).raiseOnce 0 0x9104

/-- One step of a clamp: 100 MHz down, to no lower than 3.0 GHz while the promise is in force and 2.0 GHz otherwise. -/
def State.clampStep (s : State) : State :=
  let floor := if s.seq.void.any then 2000 else 3000
  let c := max floor (s.pwr.clock.toNat - 100)
  let c := if s.pwr.clock.toNat < c then s.pwr.clock.toNat else c
  ({ s with pwr.clock := BitVec.ofNat 16 c, seq.stats.clockMin := min s.seq.stats.clockMin c } : State).clampActs

/-- CLAMP_STEP: a clamp lowers the clock by one step (R444); the junction clamp steps every 1 ms, the others every 20 µs. -/
def execClampStep (_junction : Bool) (s : State) : Host.Outcome State Fault Refusal := .next s.clampStep

/-- BUDGET_CLAMP: PEAK_USED reaches 250 ms and the budget clamp engages (R443, R444). -/
def execBudgetClamp (s : State) : Host.Outcome State Fault Refusal := .next ({ s with pwr.peakUsed := 250 } : State).clampActs

/-- SPEC_VOID: a clamp's target still fails after 1 ms at 3.0 GHz (R446). -/
def execSpecVoid (s : State) : Host.Outcome State Fault Refusal := .next (s.voidPromise (fun v => { v with clamp := true }))

/-- The higher of two temperatures. -/
def hotter (a b : Half) : Half := if a.toInt < b.toInt then b else a

/-- JUNCTION_SENSOR_READ: the junction sensors are read and TJ shows the hottest (R448). -/
def execJunctionSensorRead (temp : Half) (sensor : BitVec 7) (s : State) : Host.Outcome State Fault Refusal :=
  .next { s with
    pwr.tj := temp, pwr.tjSensor := sensor, pwr.tjMax := hotter s.pwr.tjMax temp, seq.stats.tjMax := hotter s.seq.stats.tjMax temp }

/-- THERM_TRIP: a sensor reads 115 °C; THERM_TRIP# is asserted until LOCKOUT is left (R441, R449). -/
def execThermTrip (s : State) : Host.Outcome State Fault Refusal :=
  .next { s.lockOut 0x9202 with pwr.thermTrip := true, pwr.tripWait := true }

/-! ## Coolant (R327, R451) -/

/-- COOL_SPEC on the state. -/
def State.coolSpec (s : State) (inlet flow : Half) (pin : Bool) : State :=
  let s1 : State := { s with pwr.inlet := inlet, pwr.flow := flow, pwr.coolPin := pin, pwr.coolOk := false }
  if !s.pwr.coolOk then s1
  else
    let s2 := s1.powerEvent 0x9301
    if s.powered then s2.stackCrit 0 (fun v => { v with coolant := true }) else s2.powerWait

/-- COOL_SPEC: the coolant goes out of specification (R451, R327). -/
def execCoolSpec (inlet flow : Half) (pin : Bool) (s : State) : Host.Outcome State Fault Refusal := .next (s.coolSpec inlet flow pin)

/-- COOL_OK: no condition has held for 1 s (R451). -/
def execCoolOk (inlet flow : Half) (s : State) : Host.Outcome State Fault Refusal :=
  let s1 : State := { s with pwr.inlet := inlet, pwr.flow := flow, pwr.coolPin := false, pwr.coolOk := true }
  .next (if s.pwr.coolOk then s1 else s1.powerEvent 0x9302)

/-- COOL_LOST: flow below 0.5 L/min for 2 s while the saddle is powered (R451). -/
def execCoolLost (s : State) : Host.Outcome State Fault Refusal := .next (if s.powered then s.lockOut 0x9303 else s)

/-- WEAR_HOUR: an hour of hot time, or of powered time, has accumulated and is written (R452). -/
def execWearHour (hot : Bool) (s : State) : Host.Outcome State Fault Refusal :=
  .next (if hot then s.hotHours 1 else { s with pwr.wearOn := satAdd s.pwr.wearOn 1 })

/-! ## The sideband (R458, R459) -/

/-- The controller state as GET_STATUS gives it (log 6). -/
def CtlState.code : CtlState → Nat
  | .standby => 0
  | .powering => 1
  | .on => 2
  | .stopping => 3
  | .lockout => 4

/-- What GET_STATUS returns, in the order the manual lists it (log 6). -/
def PowerState.status (p : PowerState) : Bytes :=
  leBytes 1 p.ctl.code ++ leBytes 2 p.vin.toNat ++ leBytes 2 p.iin.toNat ++ leBytes 2 p.pin1ms.toNat ++ leBytes 2 p.pin1s.toNat
    ++ leBytes 2 p.stepClock.toNat ++ leBytes 2 p.tj.toNat ++ leBytes 2 p.inlet.toNat ++ leBytes 2 p.flow.toNat
    ++ leBytes 4 p.wearHot.toNat ++ leBytes 4 p.wearOn.toNat

/-- GET_STATUS: the controller's status goes out on the sideband (R459). -/
def execGetStatus (s : State) : Host.Outcome State Fault Refusal := .next (s.emit (.sideband s.pwr.status))

/-- SET_ENABLE: the sideband enable; clearing it stops a powered module (R440, R459). -/
def execSetEnable (arg : Bool) (s : State) : Host.Outcome State Fault Refusal :=
  let s1 : State := { s with pwr.sideband := arg }
  .next (if arg then s1.powerWait else s1.enterStopping.powerWait)

/-- POWER_CYCLE on the state. -/
def State.powerCycle (s : State) : State :=
  match s.pwr.ctl with
  | .on => ({ s with pwr.cycleAt := some s.clk.time } : State).enterStopping
  | .lockout => s.rearm.powerWait
  | _ => s

/-- POWER_CYCLE: stops and powers on again no sooner than 1 s later; also leaves LOCKOUT (R441, R459). -/
def execPowerCycle (s : State) : Host.Outcome State Fault Refusal := .next s.powerCycle

/-- GET_EVENTS: the power event records held, which stay (R459, R461). -/
def execGetEvents (s : State) : Host.Outcome State Fault Refusal := .next (s.emit (.sideband (s.pwr.events.map EventRec.encode).flatten))

/-- MCTP_CONTROL_MESSAGE: an MCTP control message is answered (R459). -/
def execMctpControlMessage (body : Bytes) (s : State) : Host.Outcome State Fault Refusal := .next (s.emit (.sideband (Config.mctpReply body)))

/-- SETDASA: a dynamic address is assigned (R458). -/
def execSetdasa (addr : BitVec 7) (s : State) : Host.Outcome State Fault Refusal := .next { s with pwr.dynAddr := some addr }

/-- ENTDAA: a dynamic address is assigned (R458). -/
def execEntdaa (addr : BitVec 7) (s : State) : Host.Outcome State Fault Refusal := .next { s with pwr.dynAddr := some addr }

end Sys2Proof.Machine
end

