-- ==== Sys2Proof/Machine/Reliability.lean ====
section
/-! DEFINITION. Witness replay on both sides (R385 to R387), RESEND at the sender (R388), the lifetime step count (R393) and
the watchdog of the management cores (R395). -/

namespace Sys2Proof.Machine

/-! ## The witness (R385, R387) -/

/-- FLAGS[3] WITNESS in the record of a step, due or still to come (R385). -/
def State.flagWitness (s : State) (step : BitVec 48) : State :=
  { s with
    seq.stats.witness := s.seq.stats.witness || (decide (step = s.seq.step) && s.jobRuns)
    seq.due := s.seq.due.map (fun r =>
      if r.step = step ∧ !bit 3 (field r.body 6 1) then { r with body := splice r.body 6 (leBytes 1 (field r.body 6 1 + 8)) } else r) }

/-- A verdict for a module: 0 refused, 1 with results. -/
def State.sendVerdict (s : State) (m : Nat) (ok : Bool) (result : Bytes) : State :=
  let s1 := s.message m .witnessResult (leBytes 1 (b2n ok))
  if ok then s1.transmit m (dataItems MsgKind.witnessResult.code 0 ((units (result.length / 512 + 1) result).map (fun u => (u, 0)))) else s1

/-- WITNESS_REQ on the state: refused when the step is suspect here too; else it waits its turn, ascending by requester. -/
def State.witnessReq (s : State) (m : BitVec 12) (step : BitVec 48) : State :=
  if !s.jobRuns || step != s.seq.step || s.rel.witnessReqs.any (fun q => q.1 == m) then s
  else if s.seq.replay.suspect then s.sendVerdict m.toNat false []
  else
    ({ s with rel.witnessReqs := (s.rel.witnessReqs ++ [(m, step)]).mergeSort (fun a b => decide (a.1.toNat ≤ b.1.toNat)) } : State).flagWitness step

/-- WITNESS_REQ: a module of the pen asks this one to witness its suspect step (R385, R387). -/
def execWitnessReq (module : BitVec 12) (step : BitVec 48) (s : State) : Host.Outcome State Fault Refusal :=
  .next (s.witnessReq module step)

/-- WITNESS_WORK on the state: after its own sweep the module serves the lowest requester; a check fault found twice, or a
step that became suspect here, refuses it. -/
def State.witnessWork (s : State) (faults : List UnitId) (result : Bytes) : State :=
  match s.rel.witnessReqs with
  | [] => s
  | q :: rest =>
    let s0 : State := { s with rel.witnessReqs := rest }
    if s.seq.replay.suspect then s0.sendVerdict q.1.toNat false []
    else if !s.phaseOver 7 then s
    else
      let s1 := faults.foldl (fun (st : State) u => (st.raise 0x7101 (unitCode u)).countedFault (unitCode u)) s0
      if 2 ≤ faults.length then s1.sendVerdict q.1.toNat false []
      else ({ s1 with rel.served := satAdd s1.rel.served 1 } : State).sendVerdict q.1.toNat true result

/-- WITNESS_WORK: the witness runs the suspect step's programs in its own tail and returns what they give (R385, R387). -/
def execWitnessWork (faults : List UnitId) (result : Bytes) (s : State) : Host.Outcome State Fault Refusal :=
  .next (s.witnessWork faults result)

/-! ## The suspect module (R386, R387) -/

/-- The witness's check words for a unit that this module sent. -/
def WitnessReturn.check (r : WitnessReturn) (msg unit : Nat) : Option (Word × Word) :=
  match r.checks.find? (fun c => c.1.toNat * 2 ^ 32 + c.2.1 == msg) with
  | some c => c.2.2[unit]?
  | none => none

/-- Every unit already sent agrees with the witness's computation. -/
def State.sentAgrees (s : State) (r : WitnessReturn) : Bool :=
  s.fab.sendLog.all (fun e => WitnessReturn.check r e.1 e.2.1 == some (e.2.2.1, e.2.2.2))

/-- The witness's blocks become the inputs of the sweep. -/
def State.takeWitness (s : State) (r : WitnessReturn) : State :=
  let s1 := r.blocks.foldl (fun (st : State) b => st.tileWrite b.1.val b.2.1 b.2.2) s
  { s1 with
    emb.merged := r.merged
    emb.denseGrad := r.dense.foldl (fun m d => NMap.insert m (d.1 * 2 ^ 53 + d.2.1) d.2.2) s1.emb.denseGrad
    fab.reducing := [] }

/-- Send an outstanding unit that the witness returned. -/
def State.sendOutstanding (s : State) (u : OutUnit) : State :=
  let data := padTo 512 u.data
  ({ s with fab.sendLog := s.fab.sendLog ++ [(u.dst.toNat * 2 ^ 32 + u.num, u.unit, checkWord data u.tag, u.tag)] } : State).transmit
    u.dst.toNat [{ kind := 1, last := u.last, msg := u.num, unit := u.unit, content := carried (data, u.tag) }]

/-- WITNESS_OK: the step goes on to phase 7 with the witness's computation; this module's own attempts count in no statistic, and neither
does the witness's work (R238). -/
def State.witnessOk (s : State) (r : WitnessReturn) : State :=
  let s1 := (r.units.foldl (fun (st : State) u => st.sendOutstanding u) (s.takeWitness r)).dropEpoch.dropCounts
  ({ s1 with
    seq.replay.verdictOk := true, seq.replay.awaiting := false
    seq.phases := { s1.seq.phases with started := [1, 2, 3, 4, 5, 6], ended := [1, 2, 3, 4, 5] } } : State).raise 0x7104

/-- WITNESS_RESULT on the state. -/
def State.witnessResult (s : State) (ok : Bool) (r : WitnessReturn) : State :=
  if !s.seq.replay.awaiting then s
  else if !ok then s.witnessRefused
  else if s.sentAgrees r then s.witnessOk r
  else ({ s with seq.replay.awaiting := false } : State).raiseHalt 0x7105

/-- WITNESS_RESULT: the suspect module compares the witness's check words with its send log (R386, R387). -/
def execWitnessResult (ok : Bool) (r : WitnessReturn) (s : State) : Host.Outcome State Fault Refusal := .next (s.witnessResult ok r)

/-! ## RESEND (R388) -/

/-- RESEND on the state: counted against the sending stage, and a local replay during which the unit is sent again. -/
def State.resend (s : State) (m msg unit : Nat) : State :=
  let key := m * 2 ^ 32 + msg
  if !s.fab.sendLog.any (fun e => e.1 == key && e.2.1 == unit) then s
  else
    let s1 := ({ s with seq.replay.resend := s.seq.replay.resend ++ [(key, unit)] } : State).countedFault (s.sendingStage s.me m msg)
    if s1.jobRuns ∧ 1 ≤ s1.phase ∧ s1.phase ≤ 6 then s1.beginReplay else s1

/-- RESEND: a receiver names a unit whose CHECK failed; the sender replays the step and sends it again (R388, R391). -/
def execResend (module : BitVec 12) (msg unit : Nat) (s : State) : Host.Outcome State Fault Refusal :=
  .next (s.resend module.toNat msg unit)

/-! ## The tack room (R393, R395) -/

/-- LIFETIME_COUNT_WRITE: the lifetime step count is written to flash (R393). -/
def execLifetimeCountWrite (s : State) : Host.Outcome State Fault Refusal := .next { s with rel.lifeWritten := s.rel.lifeSteps }

/-- TR_WATCHDOG: the watchdog of the management cores expires, the job halts at the next tick, and the management firmware
restarts (R395, R475). -/
def execTrWatchdog (s : State) : Host.Outcome State Fault Refusal :=
  .next (({ s with boot.cause := 2 } : State).raiseHalt 0x7501 unitTackRoom)

end Sys2Proof.Machine
end

