-- ==== Sys2Proof/Machine/Security.lean ====
section
/-! DEFINITION. The tack room's commands (R420 to R426): certificates, attestation reports, key load and exit; the secure
erase (R473); and the JTAG instructions (R430). -/

namespace Sys2Proof.Machine

/-! ## The secure erase (R473) -/

/-- The secure erase: fresh per-boot keys, every block, tile store and accumulator zero, every write-buffer entry free, and
every plan and table version discarded. -/
def State.secureErase (s : State) : State :=
  let s1 : State := { s with
    acc := []
    mem := { s.mem with
      keyGen := s.mem.keyGen + 1, zeroed := some (s.mem.keyGen + 1, s.mem.epoch), hbm := [], units := [], waiting := []
      stackRecs := s.mem.stackRecs.map (fun e => (e.1, { e.2 with buffer := [] })), tiles := [], tileTags := [], rowCache := [] } }
  s1.dropPlan.discardTables

/-! ## Results of SEC_CMD (R420, R432) -/

/-- A security command ends with a code, 0 for success. -/
def State.endSec (s : State) (code : Nat) : State :=
  { s with sec.resultCode := BitVec.ofNat 16 code, sec.resultDone := true, sec.running := false }

/-- A refused command: logged, its code in SEC_RESULT, and its event (R420, R464); a refusal with ID_FAIL is the result of
the check at boot and raises nothing again. -/
def State.refuseSec (s : State) (code : Nat) : State :=
  let s1 := (s.log 0xD0004 0 (if code = 0x8004 then .range else .state)).endSec code
  if code = 0x8001 then s1 else s1.raise code unitTackRoom

/-- Why a command is refused (R420): its buffer, another command that runs, or its condition. -/
def State.secFail (s : State) (need : Nat) (needsId allowed : Bool) : Option Nat :=
  if s.win.secAddr.toNat % 64 ≠ 0 ∨ s.win.secLen.toNat < need then some 0x8004
  else if s.sec.running then some 0x8005
  else if needsId && !s.sec.idOk then some 0x8001
  else if !allowed then some 0x8102
  else none

/-- Run a command unless it is refused. -/
def State.secRun (s : State) (need : Nat) (needsId allowed : Bool) (f : State → State) : State :=
  match s.secFail need needsId allowed with
  | some c => s.refuseSec c
  | none => f { s with sec.resultDone := false }

/-! ## CERTS and REPORT (R414, R420 to R422) -/

/-- Write bytes to SEC_ADDR through P0. -/
def State.secWrite (s : State) (b : Bytes) : State := s.toHost 0 (.hostWrite 0 s.win.secAddr.toNat b)

/-- CERTS: the module certificate, then the intermediate certificate. -/
def State.certs (s : State) : State := (s.secWrite (padTo 7592 s.sec.certs)).endSec 0

/-- Bytes 0 to 1,471 of a report (R421). -/
def State.reportBody (s : State) (kem : Bool) : Bytes :=
  leBytes 4 0x54415959 ++ leBytes 2 1
    ++ leBytes 2 (packFields [(0, b2n s.confidential), (1, b2n kem), (2, b2n s.plan.isSome), (3, b2n s.active.debugEn), (4, b2n s.sec.svnLow)])
    ++ leBytes 2 s.me ++ leBytes 2 0 ++ leBytes 4 s.sec.svn.toNat ++ leBytes 4 s.sec.svnFloor.toNat ++ leBytes 4 0
    ++ leBytes 8 s.sec.reportSeq.toNat ++ ((List.range 8).map (fun k => leBytes 4 (NMap.getD s.win.secNonce k 0).toNat)).flatten
    ++ bytes256 s.sec.romId ++ bytes256 s.sec.fw ++ bytes256 s.sec.trim ++ bytes256 s.sec.plan
    ++ (if s.confidential then bytes256 s.sec.tenantKey ++ leBytes 4 s.sec.jobTag.toNat else List.replicate 36 0)
    ++ List.replicate 28 0 ++ (if kem then padTo 1184 (Config.kemPublic (s.sec.kem.getD 0)) else List.replicate 1184 0) ++ bytes256 s.sec.idDigest

/-- The signature of a message under the identity key, with the context "Y64-ATTEST". -/
def State.attest (s : State) (b : Bytes) : Bytes := Config.sign (identitySeed (s.sec.secret.getD 0)) 2 b

/-- A new KEM key pair; MODE 0 becomes 1 (R422). -/
def State.newKem (s : State) : State :=
  let r := s.random
  { r.2 with sec.kem := some r.1, sec.mode := if s.sec.mode = 0 then 1 else s.sec.mode }

/-- REPORT: a signed report is written; its hash binds the next session (R423). -/
def State.report (s : State) (kem : Bool) : State :=
  let s1 := if kem then s.newKem else s
  let s2 : State := { s1 with sec.reportSeq := s1.sec.reportSeq + 1 }
  let b := s2.reportBody kem
  let r := b ++ padTo 2420 (s2.attest b)
  (({ s2 with sec.lastReport := if kem then r else s2.sec.lastReport } : State).secWrite r).endSec 0

/-! ## KEY_LOAD (R422 to R424) -/

/-- What a key blob seals (R423). -/
structure KeyBlob where
  jobTag : Word
  secret : BitVec 256
  tenant : Bytes
  deriving DecidableEq, Repr

/-- SK of a session (R423). -/
def State.sessionKey (s : State) (c : Bytes) : BitVec 256 :=
  Config.kmac256 (Config.kemDecaps (s.sec.kem.getD 0) c) (bytes256 (Config.sha3 s.sec.lastReport) ++ c) KeyUse.session.code

/-- Open a key blob (R423, R424): none when its tag fails or a field is out of its range. -/
def State.openBlob (s : State) (b : Bytes) : Option KeyBlob :=
  if field b 0 4 ≠ 0x424B5959 ∨ field b 4 2 ≠ 1 ∨ !zeroAt b 6 2 ∨ !zeroAt b 1108 4 then none
  else
    match gcmOpen (s.sessionKey (slice b 8 1088)) (slice b 1096 12) (b.take 1112) (slice b 1112 1352) (slice b 2464 16) with
    | none => none
    | some p =>
      if field p 0 4 = 0 ∨ field p 0 4 = 0xFFFFFFFF ∨ !zeroAt p 4 4 then none
      else some ⟨BitVec.ofNat 32 (field p 0 4), BitVec.ofNat 256 (field p 8 32), slice p 40 1312⟩

/-- A KEY_LOAD fails: the KEM key pair is discarded and MODE returns from 1 to 0 (R422). -/
def State.keyFailed (s : State) : State := { s with sec.kem := none, sec.mode := if s.sec.mode = 1 then 0 else s.sec.mode }

/-- The performance counters as they stand (R429). -/
def State.counters (s : State) : Frozen where
  penRetry := s.fab.pen.map (fun e => (e.1, e.2.retries))
  herdRetx := s.fab.herd.map (fun e => (e.1, e.2.retx))
  herdCe := s.fab.herd.map (fun e => (e.1, e.2.ce))
  chErrors := s.mem.channels.map (fun e => (e.1, e.2.errors))
  replays := BitVec.ofNat 32 (s.rel.replays.toNat + 65536 * s.rel.suspects.toNat)
  served := s.rel.served
  watchLost := s.watch.lost
  evtLost := s.events.lost

/-- Confidential mode is entered (R424, R425): the session's keys are in force, and plans and tables are discarded. -/
def State.enterConfidential (s : State) (k : KeyBlob) : State :=
  let s1 : State := { s with
    mem.keyGen := s.mem.keyGen + 1
    sec := { s.sec with
      kem := none, jobTag := k.jobTag, jobSecret := k.secret, tenantPub := k.tenant, tenantKey := Config.sha3 k.tenant
      keyMid := s.active.moduleId, frozen := s.counters } }
  let s2 := s1.dropPlan.discardTables
  ({ s2 with
    active.debugEn := false, pend.debugEn := false
    sec.mode := 2, sec.jtag := if s2.sec.jtag = .debug then .bypass else s2.sec.jtag } : State).raise 0x8103 unitTackRoom

/-- KEY_LOAD: the blob is read, opened and takes effect, or fails with KEY_AUTH or with its read. -/
def State.keyLoad (s : State) (r : ReadResult) : State :=
  let s1 := s.emit (.hostRead 0 s.win.secAddr.toNat 2480)
  match r with
  | .failed => s1.keyFailed.endSec 0x6108
  | .ok b =>
    match s1.openBlob b with
    | none => (s1.keyFailed.raise 0x8101 unitTackRoom).endSec 0x8101
    | some k => (s1.enterConfidential k).endSec 0

/-! ## EXIT (R426, R429) -/

/-- What EXIT leaves of the counters: they were erased (R429). -/
def State.clearCounters (s : State) : State :=
  { s with
    fab.pen := s.fab.pen.map (fun e => (e.1, { e.2 with retries := 0 }))
    fab.herd := s.fab.herd.map (fun e => (e.1, { e.2 with retx := 0, ce := 0 }))
    mem.channels := s.mem.channels.map (fun e => (e.1, { e.2 with errors := 0 }))
    rel.replays := 0, rel.suspects := 0, rel.served := 0
    watch.lost := 0, events.lost := 0 }

/-- EXIT in MODE 2 completes: the erase has run, fresh per-boot keys are made and the session is cleared. -/
def State.exitDone (s : State) : State :=
  let s1 := s.secureErase
  let s2 : State := { s1 with
    mem.keyGen := s1.mem.keyGen + 1
    sec := { s1.sec with
      mode := 0, kem := none, jobTag := 0, jobSecret := 0, tenantPub := [], tenantKey := 0, keyMid := 0, frozen := {} } }
  (((s2.clearCounters).raise 0x8104 unitTackRoom).endSec 0).endOp 2

/-- EXIT: in MODE 2 the secure erase begins; in MODE 1 the KEM key pair is discarded. -/
def State.exitConfidential (s : State) : State :=
  if s.confidential then { s.startOp 2 with sec.running := true }
  else (({ s with sec.kem := none, sec.mode := 0 } : State).raise 0x8104 unitTackRoom).endSec 0

/-! ## SEC_CMD (R420, R432) -/

/-- A write to SEC_CMD; `r` is how a KEY_LOAD's read ends. -/
def State.writeSecCmd (s : State) (v : Nat) (r : ReadResult) : State :=
  match v % 8 with
  | 1 => s.secRun 7592 false true State.certs
  | 2 => s.secRun 3892 true true (fun t => t.report (bit 3 v))
  | 3 => s.secRun 2480 true (s.idle && s.sec.mode == 1) (fun t => t.keyLoad r)
  | 4 => s.secRun 0 false (s.idle && s.sec.mode != 0) State.exitConfidential
  | _ => s.outOfRange 0xD0004

/-- A write to SEC_CMD through the window. -/
def State.secCommand (s : State) (port v : Nat) (r : ReadResult) : State :=
  s.windowWrite port 0xD0004 4 v (fun t => t) (fun t => t.writeSecCmd v r)

/-- CERTS: SEC_CMD CERTS writes the certificates to host memory (R414, R420). -/
def execCerts (port : Fin 4) (value : Word) (s : State) : Host.Outcome State Fault Refusal := .next (s.secCommand port.val value.toNat .failed)

/-- REPORT: SEC_CMD REPORT writes a signed attestation report (R420, R421). -/
def execReport (port : Fin 4) (value : Word) (s : State) : Host.Outcome State Fault Refusal := .next (s.secCommand port.val value.toNat .failed)

/-- REPORT_KEM: REPORT with KEM 1 first makes a new KEM key pair and sets MODE 1 (R420 to R422). -/
def execReportKem (port : Fin 4) (value : Word) (s : State) : Host.Outcome State Fault Refusal := .next (s.secCommand port.val value.toNat .failed)

/-- KEY_LOAD: SEC_CMD KEY_LOAD opens a key blob and enters confidential mode (R420, R422 to R425). -/
def execKeyLoad (port : Fin 4) (value : Word) (r : ReadResult) (s : State) : Host.Outcome State Fault Refusal :=
  .next (s.secCommand port.val value.toNat r)

/-- EXIT: SEC_CMD EXIT leaves confidential mode with a secure erase, or discards the KEM key pair in MODE 1 (R420, R426). -/
def execExit (port : Fin 4) (value : Word) (s : State) : Host.Outcome State Fault Refusal := .next (s.secCommand port.val value.toNat .failed)

/-- The secure erase ends, for SETUP_CMD ERASE or for EXIT. -/
def State.eraseEnd (s : State) : State :=
  if s.setup.op = 5 then ((s.secureErase).endCmd 0).endOp 5
  else if s.setup.op = 2 ∧ s.sec.running then s.exitDone
  else s

/-- ERASE_END: the secure erase ends (R426, R473). -/
def execEraseEnd (s : State) : Host.Outcome State Fault Refusal := .next s.eraseEnd

/-! ## JTAG (R430) -/

/-- Select a JTAG instruction. -/
def State.setJtag (s : State) (j : JtagInstr) : State := { s with sec.jtag := j }

/-- BYPASS is accepted (R430). -/
def execBypass (s : State) : Host.Outcome State Fault Refusal := .next (s.setJtag .bypass)
/-- IDCODE is accepted (R430). -/
def execIdcode (s : State) : Host.Outcome State Fault Refusal := .next (s.setJtag .idcode)
/-- SAMPLE/PRELOAD is accepted (R430). -/
def execSamplePreload (s : State) : Host.Outcome State Fault Refusal := .next (s.setJtag .samplePreload)
/-- EXTEST is accepted (R430). -/
def execExtest (s : State) : Host.Outcome State Fault Refusal := .next (s.setJtag .extest)
/-- DEBUG is accepted when DEBUG_EN is 1 outside confidential mode, else it selects BYPASS (R430). -/
def execDebug (s : State) : Host.Outcome State Fault Refusal :=
  .next (s.setJtag (if s.active.debugEn && !s.confidential then .debug else .bypass))

end Sys2Proof.Machine
end

