-- ==== Sys2Proof/Machine/Setup.lean ====
section
/-! DEFINITION. Setup commands (R472): plan load (R60 to R62, R291, R320, R427), firmware update and recovery (R480 to R482),
secure erase, module reset (R478); boot and die release (R412, R415, R418, R419, R479 to R483); and the write of any register
(R8, R464). -/

namespace Sys2Proof.Machine

/-! ## Firmware images (R480) -/

/-- A used entry of the section table. -/
structure FwSection where
  kind : Nat
  first : Nat
  last : Nat
  pad : Nat
  len : Nat
  offset : Nat
  hash : BitVec 256
  deriving DecidableEq, Repr

/-- Entry i of the section table. -/
def fwSection (b : Bytes) (i : Nat) : FwSection :=
  let o := 64 + 48 * i
  ⟨field b o 1, field b (o + 1) 1, field b (o + 2) 1, field b (o + 3) 1, field b (o + 4) 4, field b (o + 8) 8, BitVec.ofNat 256 (field b (o + 16) 32)⟩

/-- SECTIONS of an image. -/
def fwSections (b : Bytes) : List FwSection := (List.range (field b 6 2)).map (fwSection b)

/-- The dies of each KIND: tack room, host ports, sequencer, memory ports, optical engines, tiles (R14, R480). -/
def fwDies : List (Nat × Nat) := [(1, 1), (2, 2), (3, 1), (4, 12), (5, 16), (6, 32)]

/-- The sections whose range holds a die. -/
def fwServing (ss : List FwSection) (kind die : Nat) : List FwSection :=
  ss.filter (fun x => decide (x.kind = kind ∧ x.first ≤ die ∧ die ≤ x.last))

/-- An entry breaks the table of R480: its KIND, its reserved byte, its place, or a range beyond the dies of its kind. -/
def fwSectionBad (x : FwSection) : Bool :=
  x.pad != 0 || x.offset % 4096 != 0 || decide (x.offset < 8192)
    || !fwDies.any (fun d => decide (d.1 = x.kind ∧ x.first ≤ x.last ∧ x.last < d.2))

/-- The header breaks a rule of R480, or its signature fails: FAIL 1. -/
def fwHeaderBad (b : Bytes) : Bool :=
  let n := field b 6 2
  let ss := fwSections b
  decide (b.length < 8192) || field b 0 4 != 0x57465959 || field b 4 2 != 1 || decide (n < 6) || decide (64 < n)
    || decide (251658240 < field b 16 8) || !zeroAt b 24 40 || !zeroAt b (64 + 48 * n) (3136 - (64 + 48 * n)) || !zeroAt b 6868 1324
    || ss.any fwSectionBad || fwDies.any (fun d => (List.range d.2).any (fun i => (fwServing ss d.1 i).length != 1))
    || Config.sha3 (slice b 3136 1312) != Config.fwKeyDigest
    || !Config.verify (slice b 3136 1312) 3 (b.take 4448) (slice b 4448 2420)

/-- A section's hash differs: FAIL 2. A section that the image does not hold whole has no bytes to compare. -/
def fwHashBad (b : Bytes) : Bool :=
  (fwSections b).any (fun x => decide (b.length < x.offset + x.len) || Config.sha3 (slice b x.offset x.len) != x.hash)

/-- SVN of an image. -/
def fwSvn (b : Bytes) : Word := BitVec.ofNat 32 (field b 8 4)
/-- VERSION of an image. -/
def fwVersionOf (b : Bytes) : Word := BitVec.ofNat 32 (field b 12 4)

/-- Every die by KIND and number in the order of its release (R479). -/
def releaseOrder : List (Nat × Nat) :=
  [(1, 0), (2, 0), (2, 1), (3, 0)] ++ (List.range 12).map (fun i => (4, i)) ++ (List.range 16).map (fun i => (5, i))
    ++ (List.range 32).map (fun i => (6, i))

/-- FW: every die's section extends the measurement in the order of release (R418). -/
def fwMeasure (b : Bytes) : BitVec 256 :=
  releaseOrder.foldl (fun fw d =>
    Config.sha3 (bytes256 fw ++ bytes256 (((fwServing (fwSections b) d.1 d.2).map (·.hash)).headD 0))) 0

/-- The event code of a failed check of an image (R480): 0 when it passes. -/
def fwFailure (b : Bytes) : Nat := if fwHeaderBad b then 0x8301 else if fwHashBad b then 0x8302 else 0

/-! ## Module reset (R478) -/

/-- What a module reset keeps of a memory port: its write buffer, without BUILT entries (R314, R317). -/
def Stack.kept (x : Stack) : Stack :=
  { buffer := x.buffer.filter (fun e => match e.2 with
      | .committed _ _ _ _ => true
      | _ => false) }

/-- What a module reset keeps of a channel. -/
def Channel.kept (c : Channel) : Channel := { spares := c.spares, down := c.down, trained := c.trained, trainedTemp := c.trainedTemp }

/-- The table versions at a module reset: as at a job stop, and no descriptor is left to complete (R150, R478). -/
def State.resetTables (s : State) : State :=
  let s1 : State := { s with host := {}, emb.swaps := s.emb.swaps.map (fun w => { w with waiters := [] }) }
  s1.settleVersions

/-- The module resets: HBM contents, keys, session and current versions stay, setup registers take their reset values, and boot
runs again from the firmware in flash (R417, R478). -/
def State.moduleReset (s : State) : State :=
  let t := s.resetTables
  { pending := s.pending
    fresh := s.fresh
    out := s.out
    active := { excl := s.active.excl }
    pend := { excl := s.active.excl }
    boot := { s.boot.flash with cause := 1 }
    clk := { time := s.clk.time }
    seq := { void := { vin := s.seq.void.vin, coolant := s.seq.void.coolant } }
    mem := { hbm := s.mem.hbm, units := s.mem.units, epoch := s.mem.epoch, keyGen := s.mem.keyGen, zeroed := s.mem.zeroed
             channels := s.mem.channels.map (fun e => (e.1, e.2.kept)), stackRecs := s.mem.stackRecs.map (fun e => (e.1, e.2.kept)) }
    emb := { tables := t.emb.tables, pool := t.emb.pool, regions := s.emb.regions }
    rel := { ledger := s.rel.ledger.map (fun e => (e.1, e.2.stored)), lifeSteps := s.rel.lifeWritten, lifeWritten := s.rel.lifeWritten }
    sec := { s.sec with
      mode := if s.sec.mode = 1 then 0 else s.sec.mode
      kem := none, running := false, resultCode := 0, resultDone := false, lastReport := [], plan := 0, fw := 0, trim := 0
      idOk := false, svnLow := false, svn := 0, idDigest := 0, jtag := .bypass }
    pwr := { s.pwr with clock := 3600, stepClock := 3600, clampActed := false, clamped := false, clampAt := none } }

/-! ## SETUP_CMD (R472) -/

/-- A command starts: SETUP_RESULT shows it as running. -/
def State.beginCmd (s : State) (c : Nat) : State :=
  { s with setup.cmdRunning := BitVec.ofNat 4 c, setup.resultCmd := BitVec.ofNat 3 c, setup.resultCode := 0, setup.resultDone := false }

/-- A command's condition fails: logged, and the code the table names is its result. -/
def State.refuseCmd (s : State) (c code : Nat) : State :=
  (({ s with setup.resultCmd := BitVec.ofNat 3 c } : State).endCmd code).log 0x1000C 0 .state

/-- The read of an image at SETUP_ADDR through P0 begins. -/
def State.readImage (s : State) : State := s.emit (.hostRead 0 s.setup.addr.toNat s.setup.len.toNat)

/-- The read of a plan image begins with its header of 512 bytes (R57, R60). -/
def State.readPlanHeader (s : State) : State := s.emit (.hostRead 0 s.setup.addr.toNat (min 512 s.setup.len.toNat))

/-- The rest of a plan image is read when the header's IMAGE_LEN is SETUP_LEN (R60). -/
def State.readPlanRest (s : State) (b : Bytes) : State :=
  if field b 8 8 = s.setup.len.toNat ∧ 512 < s.setup.len.toNat then
    s.emit (.hostRead 0 (s.setup.addr.toNat + 512) (s.setup.len.toNat - 512))
  else s

/-- SETUP_CMD PLAN_LOAD (R293, R472). -/
def State.cmdPlanLoad (s : State) : State :=
  if !s.idle then (s.refuseCmd 1 0x5302).raise 0x5302
  else if s.boot.stage ≠ .ready then s.refuseCmd 1 0
  else ((s.beginCmd 1).startOp 1).readPlanHeader

/-- SETUP_CMD FW_UPDATE (R472, R482): the loaded plan is discarded at once. -/
def State.cmdFwUpdate (s : State) : State :=
  if s.confidential then s.refuseCmd 2 0x8203
  else if !s.idle || s.boot.stage != .ready then s.refuseCmd 2 0
  else ((s.beginCmd 2).dropPlan).readImage

/-- SETUP_CMD ERASE (R472, R473). -/
def State.cmdErase (s : State) : State :=
  if !s.idle || s.confidential || s.boot.stage != .ready then s.refuseCmd 3 0
  else (s.beginCmd 3).startOp 5

/-- SETUP_CMD MODULE_RESET (R472, R478). -/
def State.cmdModuleReset (s : State) : State := if s.setup.flashBusy then s.refuseCmd 4 0 else s.moduleReset

/-- SETUP_CMD RECOVER (R472, R481): the header is verified, each section is written and compared, and the module boots as after
a module reset. A section that differs leaves no valid image in flash. -/
def State.cmdRecover (s : State) (img : FwImage) : State :=
  if s.boot.stage ≠ .recovery then s.refuseCmd 5 0
  else
    let s1 := (s.beginCmd 5).readImage
    match img.read with
    | .failed => s1.endCmd 0x6108
    | .ok b =>
      if fwHeaderBad b then (s1.raise 0x8301 unitTackRoom).endCmd 0x8301
      else if fwHashBad b then (({ s1 with boot.image := some [] } : State).raise 0x8302 unitTackRoom).endCmd 0x8302
      else if !img.flashOk then (({ s1 with boot.image := some [] } : State).raise 0x8303 unitTackRoom).endCmd 0x8303
      else ({ s1 with boot.image := some b } : State).moduleReset

/-- A write to SETUP_CMD (R472, R477); `img` is what RECOVER reads. -/
def State.writeSetupCmd (s : State) (v : Nat) (img : FwImage) : State :=
  match v % 16 with
  | 1 => s.cmdPlanLoad
  | 2 => s.cmdFwUpdate
  | 3 => s.cmdErase
  | 4 => s.cmdModuleReset
  | 5 => s.cmdRecover img
  | _ => s.outOfRange 0x1000C

/-- A write to SETUP_CMD through the window. -/
def State.setupCommand (s : State) (port v : Nat) (img : FwImage) : State :=
  s.windowWrite port 0x1000C 4 v (fun t => t) (fun t => t.writeSetupCmd v img)

/-- PLAN_LOAD: SETUP_CMD PLAN_LOAD begins to read a plan image (R472). -/
def execPlanLoad (port : Fin 4) (value : Word) (s : State) : Host.Outcome State Fault Refusal :=
  .next (s.setupCommand port.val value.toNat { read := .failed })

/-- FW_UPDATE: SETUP_CMD FW_UPDATE discards the plan and begins to read a firmware image (R482). -/
def execFwUpdate (port : Fin 4) (value : Word) (s : State) : Host.Outcome State Fault Refusal :=
  .next (s.setupCommand port.val value.toNat { read := .failed })

/-- ERASE: SETUP_CMD ERASE begins the secure erase (R473). -/
def execErase (port : Fin 4) (value : Word) (s : State) : Host.Outcome State Fault Refusal :=
  .next (s.setupCommand port.val value.toNat { read := .failed })

/-- MODULE_RESET: SETUP_CMD MODULE_RESET resets the module (R478). -/
def execModuleReset (port : Fin 4) (value : Word) (s : State) : Host.Outcome State Fault Refusal :=
  .next (s.setupCommand port.val value.toNat { read := .failed })

/-- RECOVER: SETUP_CMD RECOVER writes a recovery image (R481). -/
def execRecover (port : Fin 4) (value : Word) (img : FwImage) (s : State) : Host.Outcome State Fault Refusal :=
  .next (s.setupCommand port.val value.toNat img)

/-! ## Plan load (R60 to R62) -/

/-- The plan load ends with a code. -/
def State.endPlanLoad (s : State) (code : Nat) : State := (s.endCmd code).endOp 1

/-- The regulators of both views take the plan's maxima (R320). -/
def Buffered.regulate (b : Buffered) (l : PlanLayout) : Buffered :=
  { b with
    regRate := l.rateMax.zipIdx.foldl (fun m e => NMap.insert m e.2 (BitVec.ofNat 20 e.1)) b.regRate
    regBurst := l.burstMax.zipIdx.foldl (fun m e => NMap.insert m e.2 (BitVec.ofNat 16 e.1)) b.regBurst }

/-- The table regions and the staging pool that a layout names (R146). -/
def layoutRegions (l : PlanLayout) : List RangePlace × List (Nat × Nat) :=
  (l.ranges.map (fun r => { r with home := 0 }), l.staging)

/-- The versions held under a new layout (R146): kept where they lie when the regions and the pool are the same, else
discarded. -/
def State.placeTables (s : State) (l : PlanLayout) : State :=
  if s.emb.regions = some (layoutRegions l) then s
  else
    let s1 := if s.emb.regions.isSome then s.discardTables else s
    { s1 with emb.pool := poolOf l.staging, emb.regions := some (layoutRegions l) }

/-- A checked and admitted plan is loaded. -/
def State.installPlan (s : State) (p : Plan) : State :=
  let s1 := s.placeTables p.layout
  let s2 : State := { s1 with
    plan := some p, sec.plan := p.measure, active := s1.active.regulate p.layout, pend := s1.pend.regulate p.layout }
  if p.layout.exportLog.isNone then s2.breakExport else s2

/-- Raise PLAN_BAD after the other codes of a refused image; the result names the most particular. -/
def State.refusePlan (s : State) (map sig : Bool) : State :=
  let s1 := if map then s.raise 0x5301 else s
  let s2 := if sig then s1.raise 0x8201 unitTackRoom else s1
  (s2.raise 0x1302).endPlanLoad (if map then 0x5301 else if sig then 0x8201 else 0x1302)

/-- A plan image that has been read is checked, admitted and loaded (R60, R61, R292, R427, R472). -/
def State.loadImage (s : State) (b : Bytes) (l : PlanLayout) : State :=
  if headerBad b s.setup.len.toNat || b.length != s.setup.len.toNat || placesBad b then s.refusePlan false false
  else
    let map := s.mapBad b
    let sig := s.signatureBad b
    if map || sig || s.imageBad b l s.setup.len.toNat then s.refusePlan map (sig && s.confidential)
    else
      let p := parsePlan b l
      let r := s.runAdmission p s.active.tickPeriod.toNat
      if r.2 then (r.1.installPlan p).endPlanLoad 0 else r.1.endPlanLoad 0x1301

/-- PLAN_IMAGE_READ on the state. -/
def State.planImageRead (s : State) (r : ReadResult) (l : PlanLayout) : State :=
  if s.setup.op ≠ 1 then s
  else
    match r with
    | .failed => s.failSetupRead 0x6108
    | .ok b => (s.readPlanRest b).loadImage b l

/-- PLAN_IMAGE_READ: the read of a plan image ends; the plan is checked, admitted and loaded, or refused (R60 to R62, R292). -/
def execPlanImageRead (r : ReadResult) (layout : PlanLayout) (s : State) : Host.Outcome State Fault Refusal :=
  .next (s.planImageRead r layout)

/-! ## Firmware update (R482) -/

/-- A firmware update fails with an event. -/
def State.fwFailed (s : State) (code : Nat) : State := (s.raise code unitTackRoom).endCmd code

/-- FW_IMAGE_READ on the state: the image is in the tile stores and verified; its write to flash begins. -/
def State.fwImageRead (s : State) (img : FwImage) : State :=
  if s.setup.cmdRunning ≠ 2 ∨ s.setup.flashBusy then s
  else
    match img.read with
    | .failed => s.failSetupRead 0x6108
    | .ok b =>
      let s1 := s.tileWrite 0 0 b
      if fwFailure b ≠ 0 then s1.fwFailed (fwFailure b)
      else if !img.flashOk then s1.fwFailed 0x8303
      else { s1 with setup.flashBusy := true, boot.writing := some b }

/-- FW_IMAGE_READ: the read of a firmware image ends (R480, R482). -/
def execFwImageRead (img : FwImage) (s : State) : Host.Outcome State Fault Refusal := .next (s.fwImageRead img)

/-- FLASH_WRITE_END on the state. -/
def State.flashWriteEnd (s : State) : State :=
  match s.boot.writing with
  | some b => ({ s with boot.image := some b, boot.writing := none, boot.fwNewer := true, setup.flashBusy := false } : State).endCmd 0
  | none => s

/-- FLASH_WRITE_END: the firmware image is in flash; it runs from the next boot (R482). -/
def execFlashWriteEnd (s : State) : Host.Outcome State Fault Refusal := .next s.flashWriteEnd

/-! ## Boot (R412 to R419, R479 to R483) -/

/-- What the boot ROM reads of module flash (R13, R483): at the first boot what the command brings, as Hyram left it; then what
flash holds. -/
def State.readFlash (s : State) (b : BootInput) : BootInput :=
  let h := s.boot.hyram.getD ⟨b.certs, b.trim, b.vendor, b.stepping⟩
  { b with
    certs := h.certs, trim := h.trim, vendor := h.vendor, stepping := h.stepping
    image := s.boot.image.getD b.image, svnFloor := s.boot.svnFloor.orElse fun _ => b.svnFloor }

/-- Module flash holds what was read of it. -/
def State.keepFlash (s : State) (b : BootInput) : State :=
  { s with boot.hyram := some ⟨b.certs, b.trim, b.vendor, b.stepping⟩, boot.image := some b.image }

/-- The identity: the key that DS gives, compared with the module certificate (R413 to R415). -/
def State.bootIdentity (s : State) (b : BootInput) : State :=
  let key := (b.secret.map (fun ds => Config.identityKey (identitySeed ds))).getD []
  let ok := b.secret.isSome && key == slice b.certs 64 1312
  let s1 : State := { s with sec := { s.sec with
    secret := b.secret, certs := b.certs, romId := b.romId, idOk := ok, idDigest := if b.secret.isSome then Config.sha3 key else 0 } }
  let s2 : State := { s1 with boot.serial := BitVec.ofNat 64 (field b.certs 8 8) }
  if ok then s2 else s2.raise 0x8001 unitTackRoom

/-- RECOVERY: the key store is cleared (R481). -/
def State.enterRecovery (s : State) (fail : Nat) : State :=
  { s with
    boot.stage := .recovery, boot.fail := BitVec.ofNat 8 fail
    mem.keyGen := s.mem.keyGen + 1
    sec := { s.sec with mode := 0, kem := none, jobTag := 0, jobSecret := 0, tenantPub := [], tenantKey := 0, keyMid := 0, frozen := {} } }

/-- A boot that cannot go on. -/
def State.bootFailed (s : State) (fail : Nat) : State := { s with boot.stage := .failed, boot.fail := BitVec.ofNat 8 fail }

/-- SVN and its floor (R419). -/
def State.bootSvn (s : State) (image : Bytes) (floor : Option Word) : State :=
  let svn := fwSvn image
  let f := floor.getD svn
  let low := decide (svn.toNat < f.toNat)
  let s1 : State := { s with
    boot.version := fwVersionOf image, boot.svnFloor := some (if low then f else svn)
    sec.svn := svn, sec.svnFloor := (if low then f else svn), sec.svnLow := low }
  if low then s1.raise 0x8003 unitTackRoom else s1

/-- A COMMITTED entry is rewritten (R317). -/
def State.replayEntry (s : State) (e : WriteEntry) : State :=
  match e with
  | .committed b data tag _ =>
    let ch := (s.place b).1
    if (s.channel ch).down then s.raise 0x4104 (unitChannel ch) 0 (s.channelByte b) else s.putUnit b data tag
  | _ => s

/-- A memory port leaves reset: it rewrites its COMMITTED entries and frees all (R317). -/
def State.replayPort (s : State) (k : Nat) : State :=
  let es := (s.stack k).buffer.map (·.2)
  let n := es.countP (fun e => match e with
    | .committed _ _ _ _ => true
    | _ => false)
  let s1 := (es.foldl State.replayEntry s).setStack k (fun x => { x with buffer := [] })
  if n = 0 then s1 else s1.raise 0x4103 0 k n

/-- A channel is trained at power-on: failing lanes are spared, more than two take it down (R301). -/
def State.trainChannel (s : State) (ch fails : Nat) : State :=
  if 2 < fails then s.channelDown ch else (s.spareLanes ch fails).channelTrained ch s.clk.time

/-- What only a power-on does: every channel is trained, and the power events held are handed over (R301, R461). -/
def State.powerOn (s : State) (b : BootInput) : State :=
  let s1 := (List.range 384).foldl (fun (st : State) ch =>
    if st.unavailable (unitChannel ch) && (st.channel ch).down then st else st.trainChannel ch (NMap.getD b.laneFails ch 0)) s
  s1.pwr.events.foldl (fun (st : State) e => { st with events := st.events.push { e with step := 0xFFFFFFFFFFFF } })
    { s1 with pwr.events := [] }

/-- The dies are measured and released; the memory ports replay their buffers and the links train (R418, R479, R317, R267). -/
def State.releaseDies (s : State) (b : BootInput) : State :=
  let s1 := ({ s with sec.fw := fwMeasure b.image } : State).bootSvn b.image b.svnFloor
  let s2 := if s1.boot.cause = 0 then s1.powerOn b else s1
  let s3 := ((List.range 12).foldl State.replayPort s2).beginTraining
  { s3 with boot.stage := .releasing, boot.released := List.range 64, boot.started := [] }

/-- BOOT on the state. -/
def State.bootRom (s : State) (input : BootInput) : State :=
  if s.boot.stage ≠ .rom ∨ !s.pwr.tackRoom then s
  else
    let b := s.readFlash input
    let s1 := (s.keepFlash b).bootIdentity b
    if !b.trimOk then s1.bootFailed 4
    else
      let s2 : State := { s1 with boot.vendor := b.vendor, boot.stepping := b.stepping, sec.trim := Config.sha3 b.trim }
      if !b.flashReadOk then s2.enterRecovery 3
      else if fwHeaderBad b.image then s2.enterRecovery 1
      else if fwHashBad b.image then s2.enterRecovery 2
      else s2.releaseDies b

/-- BOOT: the tack room leaves reset and boots (R412 to R419, R479 to R483). -/
def execBoot (b : BootInput) (s : State) : Host.Outcome State Fault Refusal := .next (s.bootRom b)

/-- DIE_STARTED on the state; at READY the window is served. -/
def State.dieStarted (s : State) (d : Nat) : State :=
  if s.boot.stage ≠ .releasing ∨ s.boot.started.contains d then s
  else
    let s1 : State := { s with boot.started := d :: s.boot.started }
    if s1.boot.started.length = 64 then { s1 with boot.stage := .ready } else s1

/-- DIE_STARTED: a released die reports started; with the last the module is READY (R479). -/
def execDieStarted (die : Fin 64) (s : State) : Host.Outcome State Fault Refusal := .next (s.dieStarted die.val)

/-- DIE_START_TIMEOUT on the state. -/
def State.dieStartTimeout (s : State) (d : Nat) : State :=
  if s.boot.stage = .releasing ∧ !s.boot.started.contains d then s.bootFailed 5 else s

/-- DIE_START_TIMEOUT: a die has not reported started within 100 ms of its release; boot stops at FAILED with FAIL 5 (R479). -/
def execDieStartTimeout (die : Fin 64) (s : State) : Host.Outcome State Fault Refusal := .next (s.dieStartTimeout die.val)

/-! ## A write of any register (R8, R10, R464) -/

/-- The effect of a write on a register; `guarded` leaves its RK fields unchanged. A command register starts its command, whose
read of host memory, where the write alone cannot carry it, fails. -/
def State.writeReg (s : State) (r : Reg) (v : Nat) (guarded : Bool) : State :=
  match r with
  | .tickCtrl => s.writeTickCtrl v guarded
  | .tickPeriod => s.writeTickPeriod v
  | .seqCtrl => s.writeSeqCtrl v guarded
  | .memCtrl => s.writeMemCtrl v guarded
  | .regRate c => s.writeRegulator c false v
  | .regBurst c => s.writeRegulator c true v
  | .setupUnlock => s.writeUnlock v
  | .setupApply => s.writeApply v
  | .setupCmd => if guarded then s else s.writeSetupCmd v { read := .failed }
  | .secCmd => if guarded then s else s.writeSecCmd v .failed
  | .qCmd => s.writeQCmd v
  | .groupCfg => s.writeGroupCfg v
  | .auxCfg => s.writeAux v
  | .fabCtrl => s.writeFabCtrl v
  | .moduleId => if guarded then s else s.writeBuffered r v
  | .memExcl _ => if guarded then s else s.writeBuffered r v
  | .debugCtrl => if guarded then s else s.writeBuffered r v
  | .powerLimit => if guarded then s else s.writeBuffered r v
  | _ => s.writeBuffered r v

/-- The register at an offset takes a write, if there is one. -/
def State.writeAt (s : State) (off v : Nat) (guarded : Bool) : State :=
  match regAt off with
  | some r => s.writeReg r v guarded
  | none => s

/-- REGISTER_WRITE: a write to any offset of the setup window (R8, R10, R335, R463 to R471). -/
def execRegisterWrite (port : Fin 4) (offset width : Nat) (value : Word) (s : State) : Host.Outcome State Fault Refusal :=
  .next (s.windowWrite port.val offset width value.toNat (fun t => t.writeAt offset value.toNat true) (fun t => t.writeAt offset value.toNat false))

end Sys2Proof.Machine
end

