-- ==== Sys2Proof/Machine/Dispatch.lean ====
section
/-! DEFINITION. Every command of spec/opcode_table.json and its meaning. -/

namespace Sys2Proof.Machine

def exec (i : Instr) (s : State) : Host.Outcome State Fault Refusal :=
  match i with
  -- ticks and decisions
  | .localTick now p => Sys2Proof.Machine.execLocalTick now p s
  | .decisionPoint now => Sys2Proof.Machine.execDecisionPoint now s
  | .decisionMessage d => Sys2Proof.Machine.execDecisionMessage d s
  | .timeTransfer now peer => Sys2Proof.Machine.execTimeTransfer now peer s
  | .tickHoldover now => Sys2Proof.Machine.execTickHoldover now s
  | .tickLost now => Sys2Proof.Machine.execTickLost now s
  | .tickInEdge now p => Sys2Proof.Machine.execTickInEdge now p s
  | .done r => Sys2Proof.Machine.execDone r s
  | .excessDeclaration module step => Sys2Proof.Machine.execExcessDeclaration module step s
  | .start port value => Sys2Proof.Machine.execStart port value s
  | .stop port value => Sys2Proof.Machine.execStop port value s
  -- phases
  | .gatherPhaseStart times => Sys2Proof.Machine.execGatherPhaseStart times s
  | .denseForwardStart mb times => Sys2Proof.Machine.execDenseForwardStart mb times s
  | .backwardStart mb times => Sys2Proof.Machine.execBackwardStart mb times s
  | .gradientExchangeStart layer now => Sys2Proof.Machine.execGradientExchangeStart layer now s
  | .mergePhaseStart times => Sys2Proof.Machine.execMergePhaseStart times s
  | .phase6End now peers => Sys2Proof.Machine.execPhase6End now peers s
  | .updateSweepStart times => Sys2Proof.Machine.execUpdateSweepStart times s
  | .sweepEnd now => Sys2Proof.Machine.execSweepEnd now s
  | .tailSlotEnd now => Sys2Proof.Machine.execTailSlotEnd now s
  | .stepRecord now power => Sys2Proof.Machine.execStepRecord now power s
  -- sequencer registers and latching reads
  | .tickPeriod port value => Sys2Proof.Machine.execTickPeriod port value s
  | .tickCtrl port value => Sys2Proof.Machine.execTickCtrl port value s
  | .stepLoRead read => Sys2Proof.Machine.execStepLoRead read s
  | .evtTailLoRead read => Sys2Proof.Machine.execEvtTailLoRead read s
  | .lifeStepsLoRead read => Sys2Proof.Machine.execLifeStepsLoRead read s
  -- host queues and descriptors
  | .groupPoll g => Sys2Proof.Machine.execGroupPoll g s
  | .descriptorFetched q r now => Sys2Proof.Machine.execDescriptorFetched q r now s
  | .lapReread q => Sys2Proof.Machine.execLapReread q s
  | .hostReadCompletion q r chk => Sys2Proof.Machine.execHostReadCompletion q r chk s
  | .hostReadTimeout r => Sys2Proof.Machine.execHostReadTimeout r s
  | .trainBatch q => Sys2Proof.Machine.execTrainBatch q s
  | .evalBatch q => Sys2Proof.Machine.execEvalBatch q s
  | .tableLoadDescriptor q => Sys2Proof.Machine.execTableLoadDescriptor q s
  | .tableLoadRecords q writeFails => Sys2Proof.Machine.execTableLoadRecords q writeFails s
  | .tableLoadBinary32 q writeFails => Sys2Proof.Machine.execTableLoadBinary32 q writeFails s
  | .tableStaging q => Sys2Proof.Machine.execTableStaging q s
  | .stagingFillEnd => Sys2Proof.Machine.execStagingFillEnd s
  | .tableSwap q => Sys2Proof.Machine.execTableSwap q s
  | .tableSwapDiscard q => Sys2Proof.Machine.execTableSwapDiscard q s
  | .exportArm q => Sys2Proof.Machine.execExportArm q s
  | .exportArmStop q => Sys2Proof.Machine.execExportArmStop q s
  | .fence q => Sys2Proof.Machine.execFence q s
  | .fenceCompletion q => Sys2Proof.Machine.execFenceCompletion q s
  | .telemetrySnapshot q => Sys2Proof.Machine.execTelemetrySnapshot q s
  | .nop q => Sys2Proof.Machine.execNop q s
  | .completionRecord q now => Sys2Proof.Machine.execCompletionRecord q now s
  | .msixHoldoffEnd q => Sys2Proof.Machine.execMsixHoldoffEnd q s
  | .telemetryEntry => Sys2Proof.Machine.execTelemetryEntry s
  | .exportEntry readFails => Sys2Proof.Machine.execExportEntry readFails s
  | .arm port value => Sys2Proof.Machine.execArm port value s
  | .disarm port value => Sys2Proof.Machine.execDisarm port value s
  | .disarmEnd q => Sys2Proof.Machine.execDisarmEnd q s
  | .groupCfg port value => Sys2Proof.Machine.execGroupCfg port value s
  -- host ports
  | .portLinkDown p unacked => Sys2Proof.Machine.execPortLinkDown p unacked s
  | .portRetrain p => Sys2Proof.Machine.execPortRetrain p s
  | .linkDownTimeout p => Sys2Proof.Machine.execLinkDownTimeout p s
  | .hostReset p cause => Sys2Proof.Machine.execHostReset p cause s
  | .surpriseRemoval p => Sys2Proof.Machine.execSurpriseRemoval p s
  | .portUp p speed width => Sys2Proof.Machine.execPortUp p speed width s
  | .unsupportedRequest p => Sys2Proof.Machine.execUnsupportedRequest p s
  -- embedding path
  | .separate chk => Sys2Proof.Machine.execSeparate chk s
  | .aggregate owner => Sys2Proof.Machine.execAggregate owner s
  | .gatherRows l => Sys2Proof.Machine.execGatherRows l s
  | .pool l p f => Sys2Proof.Machine.execPool l p f s
  | .rowCacheFill tile table row => Sys2Proof.Machine.execRowCacheFill tile table row s
  -- matrix, vector and attention stages
  | .mma m w chk => Sys2Proof.Machine.execMma m w chk s
  | .join m w => Sys2Proof.Machine.execJoin m w s
  | .read m w => Sys2Proof.Machine.execRead m w s
  | .store m w => Sys2Proof.Machine.execStore m w s
  | .clear m w => Sys2Proof.Machine.execClear m w s
  | .status m w => Sys2Proof.Machine.execStatus m w s
  | .vectorOperation l ix chk => Sys2Proof.Machine.execVectorOperation l ix chk s
  | .rowOperation l ix => Sys2Proof.Machine.execRowOperation l ix s
  | .attend l ix => Sys2Proof.Machine.execAttend l ix s
  | .attendBack l ix => Sys2Proof.Machine.execAttendBack l ix s
  -- exchange stage
  | .send dst kind body => Sys2Proof.Machine.execSend dst kind body s
  | .allToAll k => Sys2Proof.Machine.execAllToAll k s
  | .reduce tensor t tile addr => Sys2Proof.Machine.execReduce tensor t tile addr s
  | .allGather tensor t tile addr => Sys2Proof.Machine.execAllGather tensor t tile addr s
  | .gather c => Sys2Proof.Machine.execGather c s
  | .ringPass p set user layer block tile addr => Sys2Proof.Machine.execRingPass p set user layer block tile addr s
  -- update unit
  | .firstRead c ix readsFailed => Sys2Proof.Machine.execFirstRead c ix readsFailed s
  | .add c d a b rm => Sys2Proof.Machine.execAdd c d a b rm s
  | .sub c d a b rm => Sys2Proof.Machine.execSub c d a b rm s
  | .mul c d a b rm => Sys2Proof.Machine.execMul c d a b rm s
  | .fma c d a b e rm => Sys2Proof.Machine.execFma c d a b e rm s
  | .fms c d a b e rm => Sys2Proof.Machine.execFms c d a b e rm s
  | .rcp c d a rm => Sys2Proof.Machine.execRcp c d a rm s
  | .rsq c d a rm => Sys2Proof.Machine.execRsq c d a rm s
  | .max c d a b => Sys2Proof.Machine.execMax c d a b s
  | .min c d a b => Sys2Proof.Machine.execMin c d a b s
  | .neg c d a => Sys2Proof.Machine.execNeg c d a s
  | .abs c d a => Sys2Proof.Machine.execAbs c d a s
  | .mov c d a => Sys2Proof.Machine.execMov c d a s
  | .ceq c d a b => Sys2Proof.Machine.execCeq c d a b s
  | .clt c d a b => Sys2Proof.Machine.execClt c d a b s
  | .cle c d a b => Sys2Proof.Machine.execCle c d a b s
  | .cun c d a b => Sys2Proof.Machine.execCun c d a b s
  | .sel c d a b e => Sys2Proof.Machine.execSel c d a b e s
  | .ldc c d k => Sys2Proof.Machine.execLdc c d k s
  | .ldf c d f mfmt => Sys2Proof.Machine.execLdf c d f mfmt s
  | .stf c f mfmt a rm => Sys2Proof.Machine.execStf c f mfmt a rm s
  | .lds c d k => Sys2Proof.Machine.execLds c d k s
  | .red c kind a k rm => Sys2Proof.Machine.execRed c kind a k rm s
  | .qprep c kmin kmax => Sys2Proof.Machine.execQprep c kmin kmax s
  | .wacc c a b => Sys2Proof.Machine.execWacc c a b s
  | .wcopy c => Sys2Proof.Machine.execWcopy c s
  | .sect c once prologue last chk => Sys2Proof.Machine.execSect c once prologue last chk s
  | .churnNop c => Sys2Proof.Machine.execChurnNop c s
  | .recordWriteVerified l ix => Sys2Proof.Machine.execRecordWriteVerified l ix s
  | .sweepTakeover l => Sys2Proof.Machine.execSweepTakeover l s
  -- history, watch and digests
  | .appendDone pos userWriteFails => Sys2Proof.Machine.execAppendDone pos userWriteFails s
  | .digestCompare module tensor digest => Sys2Proof.Machine.execDigestCompare module tensor digest s
  -- pen links
  | .dataFlit k flit => Sys2Proof.Machine.execDataFlit k flit s
  | .controlFlit k flit => Sys2Proof.Machine.execControlFlit k flit s
  | .timeFlit k flit now => Sys2Proof.Machine.execTimeFlit k flit now s
  | .retryReq k flit => Sys2Proof.Machine.execRetryReq k flit s
  | .linkRetrain k => Sys2Proof.Machine.execLinkRetrain k s
  | .penRetrain k success => Sys2Proof.Machine.execPenRetrain k success s
  | .stitchRetransmit link => Sys2Proof.Machine.execStitchRetransmit link s
  | .train port value => Sys2Proof.Machine.execTrain port value s
  | .ident k module digest => Sys2Proof.Machine.execIdent k module digest s
  -- herd ports
  | .dataPacket ix p fill now => Sys2Proof.Machine.execDataPacket ix p fill now s
  | .xon ix fill => Sys2Proof.Machine.execXon ix fill s
  | .ackPacket ix p now => Sys2Proof.Machine.execAckPacket ix p now s
  | .nak ix p now => Sys2Proof.Machine.execNak ix p now s
  | .timePacket ix p now => Sys2Proof.Machine.execTimePacket ix p now s
  | .controlPacket ix p now => Sys2Proof.Machine.execControlPacket ix p now s
  | .standaloneAck ix remote => Sys2Proof.Machine.execStandaloneAck ix remote s
  | .gapPersists ix remote => Sys2Proof.Machine.execGapPersists ix remote s
  | .retransmission ix remote psn now => Sys2Proof.Machine.execRetransmission ix remote psn now s
  | .ackProgressTimeout ix remote => Sys2Proof.Machine.execAckProgressTimeout ix remote s
  | .rateRecovery ix remote => Sys2Proof.Machine.execRateRecovery ix remote s
  | .pfcFrame ix priority quanta now => Sys2Proof.Machine.execPfcFrame ix priority quanta now s
  | .herdPfcStorm ix priority => Sys2Proof.Machine.execHerdPfcStorm ix priority s
  | .pauseFrame ix => Sys2Proof.Machine.execPauseFrame ix s
  | .herdPortDown ix => Sys2Proof.Machine.execHerdPortDown ix s
  | .pcsLock p => Sys2Proof.Machine.execPcsLock p s
  | .joinMessage module now => Sys2Proof.Machine.execJoinMessage module now s
  | .mapDigest module digest => Sys2Proof.Machine.execMapDigest module digest s
  | .peerAbsent => Sys2Proof.Machine.execPeerAbsent s
  -- memory system
  | .blockRead addr readsFailed => Sys2Proof.Machine.execBlockRead addr readsFailed s
  | .recordWrite addr data tag mergeReadsFailed => Sys2Proof.Machine.execRecordWrite addr data tag mergeReadsFailed s
  | .stackWriteAck stack entry ok => Sys2Proof.Machine.execStackWriteAck stack entry ok s
  | .regulatedIssue stack cls now => Sys2Proof.Machine.execRegulatedIssue stack cls now s
  | .retrainRequest ch cause now => Sys2Proof.Machine.execRetrainRequest ch cause now s
  | .retrainOverdue ch => Sys2Proof.Machine.execRetrainOverdue ch s
  | .retrainDone ch o now => Sys2Proof.Machine.execRetrainDone ch o now s
  | .retrainNow port value => Sys2Proof.Machine.execRetrainNow port value s
  | .stackTempSample stack temp => Sys2Proof.Machine.execStackTempSample stack temp s
  | .regRate port cls burst value => Sys2Proof.Machine.execRegRate port cls burst value s
  -- reliability
  | .witnessReq module step => Sys2Proof.Machine.execWitnessReq module step s
  | .witnessWork faults result => Sys2Proof.Machine.execWitnessWork faults result s
  | .witnessResult ok r => Sys2Proof.Machine.execWitnessResult ok r s
  | .resend module msg unit => Sys2Proof.Machine.execResend module msg unit s
  | .lifetimeCountWrite => Sys2Proof.Machine.execLifetimeCountWrite s
  | .trWatchdog => Sys2Proof.Machine.execTrWatchdog s
  -- security
  | .certs port value => Sys2Proof.Machine.execCerts port value s
  | .report port value => Sys2Proof.Machine.execReport port value s
  | .reportKem port value => Sys2Proof.Machine.execReportKem port value s
  | .keyLoad port value r => Sys2Proof.Machine.execKeyLoad port value r s
  | .exit port value => Sys2Proof.Machine.execExit port value s
  | .bypass => Sys2Proof.Machine.execBypass s
  | .idcode => Sys2Proof.Machine.execIdcode s
  | .samplePreload => Sys2Proof.Machine.execSamplePreload s
  | .extest => Sys2Proof.Machine.execExtest s
  | .debug => Sys2Proof.Machine.execDebug s
  -- power
  | .auxPowerUp => Sys2Proof.Machine.execAuxPowerUp s
  | .moduleInsertion => Sys2Proof.Machine.execModuleInsertion s
  | .moduleExtraction => Sys2Proof.Machine.execModuleExtraction s
  | .pwrEnRise now => Sys2Proof.Machine.execPwrEnRise now s
  | .powering now => Sys2Proof.Machine.execPowering now s
  | .bulkCharged => Sys2Proof.Machine.execBulkCharged s
  | .pwrgd => Sys2Proof.Machine.execPwrgd s
  | .railRegulationTimeout => Sys2Proof.Machine.execRailRegulationTimeout s
  | .pwrEnFall now => Sys2Proof.Machine.execPwrEnFall now s
  | .railsOff hours hot => Sys2Proof.Machine.execRailsOff hours hot s
  | .tripWaitEnd => Sys2Proof.Machine.execTripWaitEnd s
  | .vinUv => Sys2Proof.Machine.execVinUv s
  | .vinOv => Sys2Proof.Machine.execVinOv s
  | .vinLow mv => Sys2Proof.Machine.execVinLow mv s
  | .vinHigh mv => Sys2Proof.Machine.execVinHigh mv s
  | .vinRated mv => Sys2Proof.Machine.execVinRated mv s
  | .pwrOcp => Sys2Proof.Machine.execPwrOcp s
  | .clampStep junction => Sys2Proof.Machine.execClampStep junction s
  | .budgetClamp => Sys2Proof.Machine.execBudgetClamp s
  | .specVoid => Sys2Proof.Machine.execSpecVoid s
  | .junctionSensorRead temp sensor => Sys2Proof.Machine.execJunctionSensorRead temp sensor s
  | .thermTrip => Sys2Proof.Machine.execThermTrip s
  | .coolSpec inlet flow pin => Sys2Proof.Machine.execCoolSpec inlet flow pin s
  | .coolOk inlet flow => Sys2Proof.Machine.execCoolOk inlet flow s
  | .coolLost => Sys2Proof.Machine.execCoolLost s
  | .wearHour hot => Sys2Proof.Machine.execWearHour hot s
  | .auxCfg port value => Sys2Proof.Machine.execAuxCfg port value s
  | .getStatus => Sys2Proof.Machine.execGetStatus s
  | .setEnable arg => Sys2Proof.Machine.execSetEnable arg s
  | .powerCycle => Sys2Proof.Machine.execPowerCycle s
  | .getEvents => Sys2Proof.Machine.execGetEvents s
  | .mctpControlMessage body => Sys2Proof.Machine.execMctpControlMessage body s
  | .setdasa addr => Sys2Proof.Machine.execSetdasa addr s
  | .entdaa addr => Sys2Proof.Machine.execEntdaa addr s
  -- setup and boot
  | .setupUnlock port value => Sys2Proof.Machine.execSetupUnlock port value s
  | .apply port value => Sys2Proof.Machine.execApply port value s
  | .discard port value => Sys2Proof.Machine.execDiscard port value s
  | .planLoad port value => Sys2Proof.Machine.execPlanLoad port value s
  | .planImageRead r layout => Sys2Proof.Machine.execPlanImageRead r layout s
  | .fwUpdate port value => Sys2Proof.Machine.execFwUpdate port value s
  | .flashWriteEnd => Sys2Proof.Machine.execFlashWriteEnd s
  | .erase port value => Sys2Proof.Machine.execErase port value s
  | .eraseEnd => Sys2Proof.Machine.execEraseEnd s
  | .moduleReset port value => Sys2Proof.Machine.execModuleReset port value s
  | .recover port value img => Sys2Proof.Machine.execRecover port value img s
  | .boot b => Sys2Proof.Machine.execBoot b s
  | .dieStarted die => Sys2Proof.Machine.execDieStarted die s
  | .dieStartTimeout die => Sys2Proof.Machine.execDieStartTimeout die s
  | .registerWrite port offset width value => Sys2Proof.Machine.execRegisterWrite port offset width value s
  | .doorbellReadCompletion g r now => Sys2Proof.Machine.execDoorbellReadCompletion g r now s
  | .idleFlit k flit => Sys2Proof.Machine.execIdleFlit k flit s
  | .penTrainingEnd failed => Sys2Proof.Machine.execPenTrainingEnd failed s
  | .receivedFrameDiscarded ix frame => Sys2Proof.Machine.execReceivedFrameDiscarded ix frame s
  | .pfcPauseExpiry ix priority => Sys2Proof.Machine.execPfcPauseExpiry ix priority s
  | .fwImageRead img => Sys2Proof.Machine.execFwImageRead img s

end Sys2Proof.Machine
end

