-- ==== Sys2Proof/Safety.lean ====
section
/-! DEFINITION. What every run keeps, in the terms that claims use: canonical memory, bounded event buffers, register views in the
ranges their registers accept, no debug access in confidential mode, and units that stay unavailable; and the parts of the state, for what a command leaves alone. -/

namespace Sys2Proof.Machine

/-- HBM and the tile stores are in canonical form (log 7). -/
def State.memoryCanonical (s : State) : Prop := Memory.wf s.mem.hbm = true ∧ Memory.wf s.mem.tiles = true

/-- The events block keeps at most the 256 newest records (R407), the module controller at most 32 (R461). -/
def State.eventsBounded (s : State) : Prop := s.events.buffer.length ≤ 256 ∧ s.pwr.events.length ≤ 32

/-- One view of the buffered fields lies in the ranges that its registers accept: SLIP_LIMIT (R76), HIST_DEFAULT and
STALL_DEFAULT (R256), POWER_LIMIT (R461), and AUX functions of which at most one holds the pulse timer (R457). -/
def Buffered.inRange (b : Buffered) : Prop :=
  b.slipLimit ≠ 0 ∧ (1 ≤ b.histDefault.toNat ∧ b.histDefault.toNat ≤ 16) ∧ b.stallDefault ≠ 0
    ∧ (1800 ≤ b.powerLimit.toNat ∧ b.powerLimit.toNat ≤ 2400) ∧ b.aux0 ≠ 3 ∧ b.aux1 ≠ 3 ∧ ¬(b.aux0 = 1 ∧ b.aux1 = 1)

/-- Both views lie in their ranges. -/
def State.viewsInRange (s : State) : Prop := s.active.inRange ∧ s.pend.inRange

/-- In confidential mode DEBUG_EN is 0 in both views and the JTAG port gives no debug access (R425, R430). -/
def State.debugClosed (s : State) : Prop :=
  s.sec.mode = 2 → s.active.debugEn = false ∧ s.pend.debugEn = false ∧ s.sec.jtag ≠ .debug

/-- What the module keeps over every step, whatever is commanded. -/
structure State.Sound (s : State) : Prop where
  memory : s.memoryCanonical
  events : s.eventsBounded
  views : s.viewsInRange
  debug : s.debugClosed

/-- What one command makes of a state: the queue of waiting commands is left as it is, a sound state stays sound, and a unit that
is PERMANENT or RETIRED stays unavailable (R39, R391, R394). -/
structure Keeps (s t : State) : Prop where
  queue : t.pending = s.pending
  sound : s.Sound → t.Sound
  gone : ∀ u, s.unavailable u = true → t.unavailable u = true

/-! ## Frames -/

/-- The parts of the state. -/
inductive Part where
  | fresh
  | out
  | active
  | pend
  | setup
  | win
  | boot
  | time
  | clk
  | job
  | halt
  | step
  | slips
  | phases
  | stats
  | intake
  | tail
  | replay
  | reports
  | void
  | seq
  | plan
  | ports
  | groups
  | queues
  | tel
  | hbm
  | tiles
  | channels
  | mem
  | tables
  | emb
  | acc
  | churns
  | hist
  | attn
  | lines
  | watch
  | pen
  | herd
  | conns
  | msgs
  | events
  | ledger
  | life
  | exp
  | rel
  | jtag
  | sec
  | powerEvents
  | pwr
  deriving DecidableEq, Repr

/-- A part is the same in two states. -/
def Part.same (p : Part) (s t : State) : Prop :=
  match p with
  | .fresh => t.fresh = s.fresh
  | .out => t.out = s.out
  | .active => t.active = s.active
  | .pend => t.pend = s.pend
  | .setup => t.setup = s.setup
  | .win => t.win = s.win
  | .boot => t.boot = s.boot
  | .time => t.clk.time = s.clk.time
  | .clk => t.clk = { s.clk with time := t.clk.time }
  | .job => t.seq.job = s.seq.job ∧ t.seq.startPending = s.seq.startPending ∧ t.seq.stopPending = s.seq.stopPending
  | .halt => t.seq.haltPending = s.seq.haltPending ∧ t.seq.haltDue = s.seq.haltDue
  | .step => t.seq.step = s.seq.step
  | .slips => t.seq.curSlips = s.seq.curSlips ∧ t.seq.slipTotal = s.seq.slipTotal
  | .phases => t.seq.phases = s.seq.phases
  | .stats => t.seq.stats = s.seq.stats
  | .intake => t.seq.intake = s.seq.intake ∧ t.seq.next = s.seq.next
  | .tail => t.seq.tail = s.seq.tail
  | .replay => t.seq.replay = s.seq.replay
  | .reports => t.seq.doneFrom = s.seq.doneFrom ∧ t.seq.doneSent = s.seq.doneSent ∧ t.seq.doneUp = s.seq.doneUp
      ∧ t.seq.doneTime = s.seq.doneTime ∧ t.seq.excess = s.seq.excess ∧ t.seq.ownExcess = s.seq.ownExcess
      ∧ t.seq.excessSpent = s.seq.excessSpent
  | .void => t.seq.void = s.seq.void
  | .seq => t.seq.stepHi = s.seq.stepHi ∧ t.seq.admitNeed = s.seq.admitNeed ∧ t.seq.admitHave = s.seq.admitHave
      ∧ t.seq.periodAsk = s.seq.periodAsk ∧ t.seq.periodAnn = s.seq.periodAnn ∧ t.seq.periodOk = s.seq.periodOk
      ∧ t.seq.joined = s.seq.joined ∧ t.seq.joinFrom = s.seq.joinFrom ∧ t.seq.evalFaults = s.seq.evalFaults
      ∧ t.seq.due = s.seq.due ∧ t.seq.tickTime = s.seq.tickTime
  | .plan => t.plan = s.plan
  | .ports => t.host.ports = s.host.ports
  | .groups => t.host.groups = s.host.groups
  | .queues => t.host.queues = s.host.queues ∧ t.host.descFail = s.host.descFail
  | .tel => t.host.tel = s.host.tel
  | .hbm => t.mem.hbm = s.mem.hbm ∧ t.mem.units = s.mem.units
  | .tiles => t.mem.tiles = s.mem.tiles ∧ t.mem.tileTags = s.mem.tileTags
  | .channels => t.mem.channels = s.mem.channels ∧ t.mem.stackRecs = s.mem.stackRecs ∧ t.mem.waiting = s.mem.waiting
      ∧ t.mem.throttled = s.mem.throttled ∧ t.mem.crit = s.mem.crit
  | .mem => t.mem.epoch = s.mem.epoch ∧ t.mem.keyGen = s.mem.keyGen ∧ t.mem.zeroed = s.mem.zeroed
      ∧ t.mem.blockErr = s.mem.blockErr ∧ t.mem.rowCache = s.mem.rowCache
  | .tables => t.emb.tables = s.emb.tables ∧ t.emb.pool = s.emb.pool ∧ t.emb.swaps = s.emb.swaps ∧ t.emb.regions = s.emb.regions
  | .emb => t.emb = { s.emb with tables := t.emb.tables, pool := t.emb.pool, swaps := t.emb.swaps, regions := t.emb.regions }
  | .acc => t.acc = s.acc
  | .churns => t.churns = s.churns
  | .hist => t.hist = s.hist
  | .attn => t.attn = s.attn
  | .lines => t.lines = s.lines
  | .watch => t.watch = s.watch
  | .pen => t.fab.pen = s.fab.pen
  | .herd => t.fab.herd = s.fab.herd
  | .conns => t.fab.conns = s.fab.conns
  | .msgs => t.fab = { s.fab with pen := t.fab.pen, herd := t.fab.herd, conns := t.fab.conns }
  | .events => t.events = s.events
  | .ledger => t.rel.ledger = s.rel.ledger
  | .life => t.rel.lifeSteps = s.rel.lifeSteps ∧ t.rel.lifeHi = s.rel.lifeHi ∧ t.rel.lifeWritten = s.rel.lifeWritten
  | .exp => t.rel.exp = s.rel.exp
  | .rel => t.rel.replays = s.rel.replays ∧ t.rel.suspects = s.rel.suspects ∧ t.rel.served = s.rel.served
      ∧ t.rel.witnessReqs = s.rel.witnessReqs
  | .jtag => t.sec.jtag = s.sec.jtag
  | .sec => t.sec = { s.sec with jtag := t.sec.jtag }
  | .powerEvents => t.pwr.events = s.pwr.events
  | .pwr => t.pwr = { s.pwr with events := t.pwr.events }

/-- Nothing but the named parts differs between two states, and no command waits that did not wait before. -/
def Only (ps : List Part) (s t : State) : Prop := t.pending = s.pending ∧ ∀ p, p ∈ ps ∨ p.same s t

/-! ## What statements say of a command -/

/-- One event has been raised between two states: its record is the newest, and SEQ has advanced by 1 (R406, R407). -/
def Raised (code unit : Half) (s t : State) : Prop :=
  t.events.seq = s.events.seq + 1 ∧ ∃ r, t.events.buffer.getLast? = some r ∧ r.code = code ∧ r.unit = unit

/-- The code of the event record raised last. -/
def State.lastEvent (s : State) : Option Half := s.events.buffer.getLast?.map (·.code)

/-- An access was logged with a reason and a source (R464). -/
def Logged (offset : Nat) (source : Nat) (r : LogReason) (t : State) : Prop :=
  t.setup.logOffset = BitVec.ofNat 20 offset ∧ t.setup.logReason = r.code ∧ t.setup.logSource = BitVec.ofNat 3 source

/-- P0 may write the setup window: the boot has reached READY, no long setup operation and no setup command runs, and MODE is
not confidential (R425, R471, R472, R481). -/
def State.takesWrite (s : State) : Prop :=
  s.boot.stage = .ready ∧ s.setup.op = 0 ∧ s.setup.cmdRunning = 0 ∧ s.confidential = false

/-- A host port issues what the device asks of it: its link is up and its host has not been reset (R365, R369). -/
def State.portOpen (s : State) (p : Nat) : Prop := (s.port p).link = .up ∧ (s.port p).orphaned = false

/-- A queue whose descriptor at a position is finished with a status and a result (R354). -/
def Queue.withDone (x : Queue) (pos status result : Nat) : Queue :=
  { x with descs := x.descs.map (fun d =>
      if d.pos = pos then { d with stage := .finished, status := BitVec.ofNat 16 status, result := result } else d) }

/-- A queue whose descriptor at a position has moved to a stage. -/
def Queue.withStage (x : Queue) (pos : Nat) (g : DescStage) : Queue :=
  { x with descs := x.descs.map (fun d => if d.pos = pos then { d with stage := g } else d) }

/-- Every byte of the tile stores outside a range of one of them is the same in two states. -/
def State.tilesKept (s t : State) (tile addr n : Nat) : Prop :=
  ∀ a, a < tileAddr tile addr ∨ tileAddr tile addr + n ≤ a → Memory.read t.mem.tiles a = Memory.read s.mem.tiles a

/-- What the send log of the step gains for a message: one entry a unit, with CHECK and TAG (R375, R380). -/
def sendEntries (dst : Nat) (k : MsgKind) (ident : Nat) (us : List (Bytes × Word)) : List (Nat × Nat × Word × Word) :=
  us.zipIdx.map (fun u => (logKey dst k ident, u.2, checkWord (padTo 512 u.1.1) u.1.2, u.1.2))

/-- No unit of a message has left in the step. -/
def State.unsent (s : State) (dst : Nat) (k : MsgKind) (ident : Nat) : Prop := ∀ e ∈ s.fab.sendLog, e.1 ≠ logKey dst k ident

/-- One message has left between two states as the newest: its units stand in the send log, and what carries it is all that moved. -/
def SentMessage (dst : Nat) (k : MsgKind) (ident : Nat) (body : Bytes) (s t : State) : Prop :=
  Only [.out, .stats, .pen, .conns, .msgs] s t ∧ t.out.getLast? = some (.message dst k.code body)
    ∧ t.fab.sendLog = s.fab.sendLog ++ sendEntries dst k ident (plainUnits body)

/-- A churn command has given the lanes of one register of a record context, and has changed nothing else of the churns (R183, R191). -/
structure LaneResult (c : CtxId) (d : Fin 32) (f : Nat → Nat) (s t : State) : Prop where
  only : Only [.churns] s t
  lanes : ∀ l, l < 32 → (t.ctx c).reg d.val l = (BitVec.ofNat 32 (f l)).toNat
  others : ∀ r l, r ≠ d.val → l < 32 → (t.ctx c).reg r l = (s.ctx c).reg r l
  fields : t.ctx c = { s.ctx c with v := (t.ctx c).v, tally := (t.ctx c).tally }
  contexts : ∀ e, e ≠ c → t.ctx e = s.ctx e

/-- A pen link takes flits: it is up and not retraining, and nothing waits to be sent on it. -/
def State.linkOpen (s : State) (k : Nat) : Prop :=
  (s.pen k).up = true ∧ (s.pen k).retraining = false ∧ (s.pen k).waiting = []

/-- A pen engine has only sent between two states: what it receives by is the same. -/
def PenEngine.sentFrom (a b : PenEngine) : Prop :=
  b = { a with
    nextSeq := b.nextSeq, freed := b.freed, retry := b.retry, credits := b.credits, waiting := b.waiting
    sendGroup := b.sendGroup, groupsSent := b.groupsSent }

/-- A connection has only sent between two states: what it has received, its base of acknowledgement, its rate and its paths are the same. -/
def Conn.sentFrom (a b : Conn) : Prop :=
  b = { a with
    nextSeq := b.nextSeq, sent := b.sent, nextPath := b.nextPath, ackDue := b.ackDue, ceSince := b.ceSince, waiting := b.waiting
    ctlStep := b.ctlStep, ctlMsgs := b.ctlMsgs }

/-- A numbered packet in clear that a herd port takes: the port receives, its frame and header hold, the connection may be open, the payload has the length LEN, and the
packet has not arrived before (R276 to R278). -/
def State.packetOpen (s : State) (i kind : Nat) (p : HerdPacket) : Prop :=
  s.herdOn i = true ∧ s.frameFault i (packetBytes p) = none ∧ s.mayConnect (packetSource p.header) i = true
    ∧ s.headerGood i kind p.header = true ∧ s.confidential = false ∧ bit 0 (field p.header 1 1) = false
    ∧ field p.header 6 2 = p.payload.length
    ∧ (s.conn (packetSource p.header) i).got.contains (recoverSeq (s.conn (packetSource p.header) i).below (field p.header 8 4)) = false
    ∧ recoverSeq (s.conn (packetSource p.header) i).below (field p.header 8 4) < (s.conn (packetSource p.header) i).below + 1024

/-- What a connection has received once a packet has arrived on it, with the acknowledgement that is due. -/
def PacketTaken (i : Nat) (p : HerdPacket) (s t : State) : Prop :=
  let r := packetSource p.header
  let c := s.conn r i
  let a := advance (c.got.length + 1) c.below (c.got ++ [recoverSeq c.below (field p.header 8 4)])
  (t.conn r i).below = a.1 ∧ (t.conn r i).got = a.2 ∧ (t.conn r i).ackDue = true

/-- A power event that the module controller holds, as it does while the tack room is unpowered: it keeps the newest 32, and signals
each by in-band interrupt (R458, R461). -/
def HeldEvent (code : Half) (s t : State) : Prop :=
  t.out.getLast? = some .inBandInterrupt
    ∧ ∃ r, r.code = code ∧ t.pwr.events = (s.pwr.events ++ [r]).drop (s.pwr.events.length + 1 - 32)

/-- The module controller has raised one power event between two states, in the tack room's events block or held (R461). -/
def PowerEvent (code : Half) (s t : State) : Prop :=
  (s.pwr.tackRoom = true → Raised code 0 s t ∧ t.out.getLast? = some .inBandInterrupt ∧ t.pwr.events = s.pwr.events)
    ∧ (s.pwr.tackRoom = false → HeldEvent code s t ∧ t.events = s.events)

/-- The saddle has lost power between two states: its rails are off, registers and memories are as after reset and no job runs; module
flash keeps its images and records, the ledgers without what a step had counted, the step count last written, the certificates and the
SVN floor (R13, R393, R417, R440, R478). -/
structure SaddleLost (s t : State) : Prop where
  rails : t.pwr.saddle = false ∧ t.pwr.tackRoom = false ∧ t.pwr.bulk = false ∧ t.pwr.pwrgd = false
  registers : t.active = {} ∧ t.pend = {} ∧ t.setup = {} ∧ t.win = {}
  memory : t.mem = { keyGen := s.mem.keyGen + 1 }
  job : t.seq = {} ∧ t.plan = none ∧ t.host = {} ∧ t.emb = {} ∧ t.acc = [] ∧ t.churns = [] ∧ t.lines = [] ∧ t.watch = {} ∧ t.fab = {}
  events : t.events = {}
  boot : t.boot = { s.boot.flash with image := if s.boot.writing.isSome then some [] else s.boot.image }
  flash : t.rel.ledger = s.rel.ledger.map (fun e => (e.1, e.2.stored)) ∧ t.rel.lifeSteps = s.rel.lifeWritten
    ∧ t.sec.certs = s.sec.certs ∧ t.sec.svnFloor = s.sec.svnFloor
  wear : t.pwr.wearHot = s.pwr.wearHot ∧ t.pwr.wearOn = s.pwr.wearOn

/-- The module controller has entered LOCKOUT with an event: a powered saddle has lost its contents, nothing else of another module
has changed (R441). -/
structure LockedOut (code : Half) (s t : State) : Prop where
  state : t.pwr.ctl = .lockout
  lost : s.powered = true → SaddleLost s t
  kept : s.powered = false → Only [.out, .tel, .events, .powerEvents, .pwr] s t
  held : s.powered = true ∨ s.pwr.tackRoom = false → HeldEvent code s t
  raised : s.powered = false → s.pwr.tackRoom = true → Raised code 0 s t

end Sys2Proof.Machine
end

