-- ==== Sys2Proof/Certificates/Slice0/Obligations.lean ====
section
/-! DEFINITION. The statements for the provers, one definition each: what the commands do, what they leave alone, where they complete, and what
every step keeps. A statement that rests on a choice of the model, rather than on a rule, says so. -/

open Sys2Proof Sys2Proof.Machine

/-- R41: a write of TICK_PERIOD from 1,000 to 10,000,000 µs enters the pending view and nothing else; any other value is refused, with
TICK_RANGE, and both views keep their period.
Completion: tickPeriod. -/
def Obligations.TickPeriodWrite : Prop :=
  ∀ (s : State) (v : Word), s.takesWrite →
    (1000 ≤ v.toNat % 2 ^ 24 ∧ v.toNat % 2 ^ 24 ≤ 10000000 →
      exec (.tickPeriod 0 v) s = .next { s with setup.armed := true, pend.tickPeriod := BitVec.ofNat 24 v.toNat })
    ∧ (v.toNat % 2 ^ 24 < 1000 ∨ 10000000 < v.toNat % 2 ^ 24 →
      ∃ t : State, exec (.tickPeriod 0 v) s = .next t ∧ t.active = s.active ∧ t.pend = s.pend ∧ Raised 0x1001 0 s t
        ∧ Logged 0x20004 0 .range t)

/-- R76, R457, R320, R465, R470: the writes of the registers that take effect on one view or on the guard, with everything that they
leave alone. TICK_CTRL holds an RK field, so its write needs the guard disarmed; every write but SETUP_UNLOCK's arms it.
Completion: tickCtrl, regRate, auxCfg, setupUnlock, apply, discard. -/
def Obligations.BufferedRegisterWrites : Prop :=
  ∀ (s : State) (v : Word), s.takesWrite →
    (s.setup.armed = false → v.toNat % 4 ≠ 3 →
      exec (.tickCtrl 0 v) s = .next { s with
        setup.armed := true, pend.tickSource := BitVec.ofNat 2 v.toNat, pend.tickOutEn := v.toNat / 4 % 2 == 1 })
    ∧ (s.setup.armed = false → v.toNat % 4 = 3 →
      ∃ t : State, exec (.tickCtrl 0 v) s = .next t ∧ t.pend = s.pend ∧ Raised 0x1001 0 s t ∧ Logged 0x20000 0 .range t)
    ∧ (∀ c : Fin 5, s.plan = none →
      exec (.regRate 0 c false v) s = .next { s with
        setup.armed := true, pend.regRate := NMap.insert s.pend.regRate c.val (BitVec.ofNat 20 v.toNat) })
    ∧ (∀ c : Fin 5, s.plan = none → v.toNat % 2 ^ 16 ≠ 0 →
      exec (.regRate 0 c true v) s = .next { s with
        setup.armed := true, pend.regBurst := NMap.insert s.pend.regBurst c.val (BitVec.ofNat 16 v.toNat) })
    ∧ (∀ c : Fin 5, v.toNat % 2 ^ 16 = 0 →
      ∃ t : State, exec (.regRate 0 c true v) s = .next t ∧ t.pend = s.pend ∧ Logged (0x800A0 + 4 * c.val) 0 .range t)
    ∧ (∀ (c : Fin 5) (p : Plan), s.plan = some p →
      ∃ t : State, exec (.regRate 0 c false v) s = .next t
        ∧ (NMap.getD t.pend.regRate c.val 0).toNat = min (v.toNat % 2 ^ 20) (p.layout.rateMax.getD c.val (v.toNat % 2 ^ 20)))
    ∧ (s.pend.aux0 = 0 → s.pend.aux1 = 0 → v.toNat % 4 ≠ 3 → v.toNat / 4 % 4 ≠ 3 → ¬(v.toNat % 4 = 1 ∧ v.toNat / 4 % 4 = 1) →
      exec (.auxCfg 0 v) s = .next { s with
        setup.armed := true, pend.aux0 := BitVec.ofNat 2 v.toNat, pend.aux1 := BitVec.ofNat 2 (v.toNat / 4) })
    ∧ (s.pend.aux0 ≠ 0 → s.pend.aux0.toNat ≠ v.toNat % 4 → v.toNat % 4 ≠ 0 → v.toNat % 4 ≠ 3 → v.toNat / 4 % 4 ≠ 3 →
      ∃ t : State, exec (.auxCfg 0 v) s = .next t ∧ t.pend = s.pend ∧ Raised 0x9020 0 s t ∧ Logged 0xE0020 0 .state t)
    ∧ exec (.setupUnlock 0 0x7A910E5D) s = .next { s with setup.armed := false }
    ∧ (v ≠ 0x7A910E5D → ∃ t : State, exec (.setupUnlock 0 v) s = .next t ∧ t.setup.armed = true ∧ Logged 0x10000 0 .key t)
    ∧ (v.toNat % 4 = 2 → exec (.discard 0 v) s = .next { s with setup.armed := true, pend := s.active })
    ∧ (v.toNat % 4 = 1 → s.idle = true → s.plan = none → s.pend.excl = s.active.excl →
      exec (.apply 0 v) s = .next { s with setup.armed := true, active := s.pend })
    ∧ (v.toNat % 4 = 1 → s.idle = false → ∃ t : State, exec (.apply 0 v) s = .next t ∧ t.active = s.active ∧ t.pend = s.pend
        ∧ Logged 0x10008 0 .state t)

/-- R338, R339: the writes that configure a group, arm a queue and disarm it.
Completion: arm, disarm, disarmEnd, groupCfg. -/
def Obligations.QueueRegisterWrites : Prop :=
  ∀ (s : State) (v : Word), s.takesWrite →
    (v.toNat % 16 ≤ 8 → v.toNat / 16 % 2 = 1 → s.pollUnits s.win.groupSel.toNat + 2 ^ (8 - v.toNat % 16) ≤ 1024 →
      exec (.groupCfg 0 v) s = .next { s with
        setup.armed := true
        host.groups := NMap.modify s.host.groups s.win.groupSel.toNat {} (fun g => { g with poll := BitVec.ofNat 4 v.toNat, enable := true }) })
    ∧ (v.toNat % 16 ≤ 8 → v.toNat / 16 % 2 = 1 → 1024 < s.pollUnits s.win.groupSel.toNat + 2 ^ (8 - v.toNat % 16) →
      ∃ t : State, exec (.groupCfg 0 v) s = .next t ∧ t.host.groups = s.host.groups
        ∧ Raised 0x6201 (unitPort (s.win.groupSel.toNat / 32)) s t ∧ Logged 0x40014 0 .state t)
    ∧ (v.toNat % 4 = 1 → s.armBad s.win.qSel.toNat = false →
      ∃ t : State, exec (.arm 0 v) s = .next t ∧ (t.port (queuePort s.win.qSel.toNat)).orphaned = false
        ∧ t.queue s.win.qSel.toNat = { s.queue s.win.qSel.toNat with
            mode := .armed, armErr := false, code := 0, cls := s.win.qClass, log2 := s.win.qLog2, ring := s.win.qRing, aux := s.win.qAux
            startLap := s.win.qStartLap
            c := s.win.qStartLap.toNat * 2 ^ s.win.qLog2.toNat, f := s.win.qStartLap.toNat * 2 ^ s.win.qLog2.toNat
            d := s.win.qStartLap.toNat * 2 ^ s.win.qLog2.toNat, p := s.win.qStartLap.toNat * 2 ^ s.win.qLog2.toNat
            k := s.win.qStartLap.toNat * 2 ^ s.win.qLog2.toNat
            holding := false, more := false, rereads := 0, stale := false, fetching := false, posted := 0, mute := false, descs := [] })
    ∧ (v.toNat % 4 = 1 → s.armBad s.win.qSel.toNat = true →
      ∃ t : State, exec (.arm 0 v) s = .next t ∧ (t.queue s.win.qSel.toNat).armErr = true
        ∧ (t.queue s.win.qSel.toNat).mode = (s.queue s.win.qSel.toNat).mode
        ∧ Raised 0x6202 (unitPort (queuePort s.win.qSel.toNat)) s t ∧ Logged 0x40040 0 .state t)
    ∧ (v.toNat % 4 = 2 → (s.queue s.win.qSel.toNat).mode = .armed →
      ∃ t : State, exec (.disarm 0 v) s = .next t ∧ (t.queue s.win.qSel.toNat).mode = .disarming
        ∧ (t.queue s.win.qSel.toNat).descs = (s.queue s.win.qSel.toNat).descs.filter
            (fun d => d.stage == .taken || d.stage == .waiting || d.stage == .finished)
        ∧ ∀ q, q ≠ s.win.qSel.toNat → t.queue q = s.queue q)
    ∧ (∀ q : Fin 8192, (s.queue q.val).mode = .disarming → (s.queue q.val).descs = [] →
      ∃ u : State, exec (.disarmEnd q) s = .next (u.failFences q.val) ∧ (u.queue q.val).mode = .unarmed)

/-- R335, R464, R466, R471: a write of the window that is not taken changes nothing but the guard and the access log: through a data port
(DENIED, with PORT_DENIED), while a long setup operation runs (BUSY), or to an RK field while the guard is armed (LOCKED).
Completion: registerWrite. -/
def Obligations.RefusedWindowWrites : Prop :=
  ∀ (s : State) (v : Word), s.boot.stage = .ready →
    (∀ p : Fin 4, p ≠ 0 → s.events.once.contains (0x6005, p.val) = false →
      ∃ t : State, exec (.tickPeriod p v) s = .next t ∧ t.active = s.active ∧ t.pend = s.pend ∧ t.seq = s.seq ∧ Raised 0x6005 (unitPort p.val) s t
        ∧ Logged 0x20004 p.val .denied t)
    ∧ (s.confidential = false → s.setup.op ≠ 0 →
      ∃ t : State, exec (.tickPeriod 0 v) s = .next t ∧ t.active = s.active ∧ t.pend = s.pend ∧ t.seq = s.seq ∧ t.events = s.events
        ∧ Logged 0x20004 0 .busy t)
    ∧ (s.takesWrite → s.setup.armed = true → v.toNat % 4 ≠ s.pend.tickSource.toNat →
      ∃ t : State, exec (.tickCtrl 0 v) s = .next t ∧ t.active = s.active ∧ t.pend.tickSource = s.pend.tickSource
        ∧ t.pend.tickOutEn = (v.toNat / 4 % 2 == 1) ∧ t.seq = s.seq ∧ t.events = s.events ∧ Logged 0x20000 0 .locked t)
    ∧ (∀ off width : Nat, off < 0x100000 → width ≠ 4 ∨ off % 4 ≠ 0 →
      ∃ t : State, exec (.registerWrite 0 off width v) s = .next t ∧ t.active = s.active ∧ t.pend = s.pend ∧ t.seq = s.seq ∧ t.events = s.events
        ∧ Logged off 0 .width t)
    ∧ (s.setup.op = 0 → ∀ off : Nat, off < 0x100000 → off % 4 = 0 → regAt off = none →
      ∃ t : State, exec (.registerWrite 0 off 4 v) s = .next t ∧ t.active = s.active ∧ t.pend = s.pend ∧ t.seq = s.seq ∧ t.events = s.events
        ∧ Logged off 0 .reserved t)
    ∧ (s.takesWrite → s.setup.armed = false →
      exec (.registerWrite 0 0xA0008 4 v) s = .next { s with setup.armed := true, pend.moduleId := BitVec.ofNat 12 v.toNat })

/-- R8, R76, R409: a read of the low half of a pair through P0 answers it and latches the high half; through a data port it answers ones
and latches nothing; and a read of another width or alignment answers ones, is logged with WIDTH and latches nothing.
Completion: stepLoRead, evtTailLoRead, lifeStepsLoRead. -/
def Obligations.LatchingReads : Prop :=
  ∀ s : State, s.boot.stage = .ready →
    exec (.stepLoRead ⟨0, 0, 4⟩) s = .next { s with
      out := s.out ++ [.windowData 0 (BitVec.ofNat 32 s.seq.step.toNat)], seq.stepHi := BitVec.ofNat 16 (s.seq.step.toNat / 2 ^ 32) }
    ∧ exec (.evtTailLoRead ⟨0, 0, 4⟩) s = .next { s with
      out := s.out ++ [.windowData 0 (BitVec.ofNat 32 s.events.seq.toNat)]
      events.tailHi := BitVec.ofNat 32 (s.events.seq.toNat / 2 ^ 32) }
    ∧ exec (.lifeStepsLoRead ⟨0, 0, 4⟩) s = .next { s with
      out := s.out ++ [.windowData 0 (BitVec.ofNat 32 s.rel.lifeSteps.toNat)]
      rel.lifeHi := BitVec.ofNat 32 (s.rel.lifeSteps.toNat / 2 ^ 32) }
    ∧ (∀ p : Fin 4, p ≠ 0 → ∀ c ∈ [Instr.stepLoRead ⟨p, 0, 4⟩, .evtTailLoRead ⟨p, 0, 4⟩, .lifeStepsLoRead ⟨p, 0, 4⟩],
      exec c s = .next { s with out := s.out ++ [.windowData p.val 0xFFFFFFFF] })
    ∧ (∀ (p k : Fin 4) (w : Nat), w ≠ 4 ∨ k ≠ 0 →
      ∀ e ∈ [(Instr.stepLoRead ⟨p, k, w⟩, 0x2000C), (.evtTailLoRead ⟨p, k, w⟩, 0xF0004), (.lifeStepsLoRead ⟨p, k, w⟩, 0xF0028)],
      ∃ t : State, exec e.1 s = .next t ∧ Only [.out, .setup] s t ∧ t.out = s.out ++ [.windowData p.val 0xFFFFFFFF]
        ∧ t.setup.armed = s.setup.armed ∧ Logged (e.2 + k.val) p.val .width t)

/-- R42, R47, R457: a tick while no job runs and none is about to start is counted, and gives its pulses.
Completion: localTick. -/
def Obligations.TickWithoutAJob : Prop :=
  ∀ (s : State) (now : Long) (p : PowerSample), s.active.tickSource ≠ 2 → s.idle = true → s.seq.startPending = false →
    ∃ t : State, exec (.localTick now p) s = .next t
      ∧ t.clk = { s.clk with time := now, lastTick := now, tickNo := s.clk.tickNo + 1 }
      ∧ t.out = s.out ++ (if s.active.tickOutEn then [.tickOut] else []) ++ (if s.active.aux0 = 1 then [.auxPulse 0] else [])
          ++ (if s.active.aux1 = 1 then [.auxPulse 1] else [])
      ∧ t.seq.job = .idle ∧ t.active = s.active ∧ t.pend = s.pend

/-- R47: with SOURCE = TICK_IN the edges are the ticks and the local ticks are none; an edge less than 1,000 µs after the last accepted
one is ignored, counted, and raises TICK_GLITCH; with another source an edge does nothing.
Completion: tickInEdge. -/
def Obligations.TickInEdges : Prop :=
  ∀ (s : State) (now : Long) (p : PowerSample),
    (s.active.tickSource = 2 → exec (.localTick now p) s = .next s)
    ∧ (s.active.tickSource ≠ 2 → exec (.tickInEdge now p) s = .next s)
    ∧ (s.active.tickSource = 2 → s.clk.edgeSeen = true → now.toNat < s.clk.lastEdge.toNat + 1000000 →
      ∃ t : State, exec (.tickInEdge now p) s = .next t ∧ t.seq = s.seq ∧ t.active = s.active ∧ Raised 0x1104 0 s t
        ∧ t.clk = { s.clk with glitch := satAdd s.clk.glitch 1, time := now })
    ∧ (s.active.tickSource = 2 → s.clk.edgeSeen = false → s.idle = true → s.seq.startPending = false →
      ∃ t : State, exec (.tickInEdge now p) s = .next t
        ∧ t.clk = { s.clk with time := now, lastTick := now, tickNo := s.clk.tickNo + 1, edgeSeen := true, lastEdge := now })

/-- R47, R48, R50, R70: at a tick of a running job (a local tick, or with SOURCE = TICK_IN an accepted edge) with GO a step starts: the step
counter reads 0 in step 0 and advances by 1 at every later GO tick, the slips of the step are 0 and phase 1 has started; with HOLD the
counter and the phases stay, and the slips count. Without a decision, a module that decides alone holds while not every DONE is there.
Completion: localTick, tickInEdge. -/
def Obligations.GoAndHoldTicks : Prop :=
  ∀ (s : State) (now : Long) (p : PowerSample) (d : Decision) (c : Instr),
    (c = .localTick now p ∧ s.active.tickSource ≠ 2)
      ∨ (c = .tickInEdge now p ∧ s.active.tickSource = 2 ∧ (s.clk.edgeSeen = false ∨ s.clk.lastEdge.toNat + 1000000 ≤ now.toNat)) →
    s.jobRuns = true → s.seq.haltPending = false → s.clk.tickLost = false → s.seq.curSlips.toNat < s.pend.slipLimit.toNat →
    s.clk.decision = some d ∨ (s.clk.decision = none ∧ s.decidesAlone = true ∧ s.allDone = false ∧ d.go = false) →
    (d.go = true → ∃ t : State, exec c s = .next t
      ∧ t.seq.step = (if s.seq.phases.started = [] then 0 else s.seq.step + 1)
      ∧ t.seq.job = (if s.seq.job = .stopping then .stopping else .running)
      ∧ t.seq.curSlips = 0 ∧ t.seq.phases = { started := [1] } ∧ t.clk.held = false ∧ t.clk.decision = none)
    ∧ (d.go = false → ∃ t : State, exec c s = .next t ∧ t.seq.step = s.seq.step ∧ t.seq.job = s.seq.job
      ∧ t.seq.phases = s.seq.phases ∧ t.seq.curSlips = satAdd s.seq.curSlips 1 ∧ t.seq.slipTotal = satAdd s.seq.slipTotal 1
      ∧ t.clk.held = true ∧ t.clk.decision = none ∧ t.lastEvent = some 0x1201)

/-- R45, R46, R70: a tick at which a halt is pending, at which the step has slipped SLIP_LIMIT times, or to which no decision has come
down the tree, halts the job once no update sweep is in progress.
Completion: localTick, tickInEdge. -/
def Obligations.TicksThatHalt : Prop :=
  ∀ (s : State) (now : Long) (p : PowerSample) (c : Instr),
    (c = .localTick now p ∧ s.active.tickSource ≠ 2)
      ∨ (c = .tickInEdge now p ∧ s.active.tickSource = 2 ∧ (s.clk.edgeSeen = false ∨ s.clk.lastEdge.toNat + 1000000 ≤ now.toNat)) →
    s.jobRuns = true → s.sweepRuns = false →
    (s.seq.haltPending = true ∨ s.clk.tickLost = true →
      ∃ t : State, exec c s = .next t ∧ t.seq.job = .halted ∧ t.seq.step = s.seq.step)
    ∧ (s.seq.haltPending = false → s.clk.tickLost = false → s.pend.slipLimit.toNat ≤ s.seq.curSlips.toNat →
      ∃ t : State, exec c s = .next t ∧ t.seq.job = .halted ∧ t.seq.step = s.seq.step ∧ t.lastEvent = some 0x1203)
    ∧ (s.seq.haltPending = false → s.clk.tickLost = false → s.seq.curSlips.toNat < s.pend.slipLimit.toNat → s.clk.decision = none →
      s.active.tickSource ≠ 2 → s.isMaster = false → s.multi = true →
      ∃ t : State, exec c s = .next t ∧ t.seq.job = .halted ∧ t.seq.step = s.seq.step ∧ t.lastEvent = some 0x1103)

/-- R49: at the first tick after an accepted START of a job of one module the job starts: the filling interval, with the step counter
and every count of the job at 0.
Completion: localTick, tickInEdge. -/
def Obligations.JobStarts : Prop :=
  ∀ (s : State) (now : Long) (p : PowerSample) (c : Instr),
    (c = .localTick now p ∧ s.active.tickSource ≠ 2)
      ∨ (c = .tickInEdge now p ∧ s.active.tickSource = 2 ∧ (s.clk.edgeSeen = false ∨ s.clk.lastEdge.toNat + 1000000 ≤ now.toNat)) →
    s.idle = true → s.seq.startPending = true → s.multi = false →
    ∃ t : State, exec c s = .next t ∧ t.seq.job = .filling ∧ t.seq.startPending = false ∧ t.seq.step = 0
      ∧ t.seq.curSlips = 0 ∧ t.seq.slipTotal = 0 ∧ t.seq.phases = {} ∧ t.clk.t0 = some now ∧ t.clk.tickNo = 0
      ∧ t.acc = [] ∧ t.attn = [] ∧ t.hist = {}

/-- R445: at a tick the step clock falls by 200 MHz, not below 3.0 GHz, after a clamp or above 100 °C; rises by 100 MHz, not above
3.6 GHz, when the peak budget, the input power and the temperature leave room; and else stays.
Completion: localTick. -/
def Obligations.StepClock : Prop :=
  ∀ (s : State) (now : Long) (p : PowerSample), s.active.tickSource ≠ 2 → s.idle = true → s.seq.startPending = false →
    ∃ t : State, exec (.localTick now p) s = .next t ∧ t.pwr.clock = t.pwr.stepClock ∧ t.pwr.clampActed = false
      ∧ t.pwr.vin = p.vin ∧ t.pwr.iin = p.iin ∧ t.pwr.pin1ms = p.pin1ms ∧ t.pwr.pin1s = p.pin1s ∧ t.pwr.peakUsed = p.peakUsed
      ∧ (s.pwr.clampActed = true ∨ 1600 < s.pwr.tjMax.toInt →
          t.pwr.stepClock = BitVec.ofNat 16 (max 3000 (s.pwr.stepClock.toNat - 200)))
      ∧ (s.pwr.clampActed = false → p.peakUsed.toNat < 125 → p.pin1s.toNat * 100 ≤ 95 * s.active.powerLimit.toNat →
          s.pwr.tjMax.toInt ≤ 1552 → t.pwr.stepClock = BitVec.ofNat 16 (min 3600 (s.pwr.stepClock.toNat + 100)))
      ∧ (s.pwr.clampActed = false → 1552 < s.pwr.tjMax.toInt → s.pwr.tjMax.toInt ≤ 1600 → t.pwr.stepClock = s.pwr.stepClock)

/-- R43, R45, R46, R53, R67, R68: decisions, holdover, and the reports that travel up the tree.
Completion: decisionPoint, decisionMessage, timeTransfer, tickHoldover, tickLost, done, excessDeclaration. -/
def Obligations.DecisionsAndReports : Prop :=
  ∀ (s : State) (now : Long),
    (s.jobRuns = true → s.isMaster = true → s.active.tickSource ≠ 2 → s.clk.decision = none → ¬(s.seq.next.active = true ∧ s.seq.next.ended = false) →
      ∃ (t : State) (d : Decision), exec (.decisionPoint now) s = .next t ∧ t.clk.decision = some d
        ∧ (d.go = true ↔ s.allDone = true ∧ (s.seq.excess = false ∨ s.seq.excessSpent = true)))
    ∧ (s.jobRuns = true → s.isMaster = false → s.seq.next.active = true → s.seq.next.ended = false →
      ∃ t : State, exec (.decisionPoint now) s = .next t ∧ t.seq.excess = true ∧ t.seq.ownExcess = true ∧ t.seq.excessSpent = false
        ∧ t.clk.decision = s.clk.decision)
    ∧ (∀ d : Decision, s.jobRuns = true → s.isMaster = false → s.multi = true → d.t0 = none →
      ∃ t : State, exec (.decisionMessage d) s = .next t ∧ t.clk.decision = some d)
    ∧ (∀ (d : Decision) (z : Long), s.isMaster = false → s.multi = true → d.t0 = some z → s.seq.startPending = true → s.seq.joined = true →
      ∃ t : State, exec (.decisionMessage d) s = .next t ∧ t.clk = { s.clk with t0 := some z })
    ∧ (s.multi = true → s.isMaster = false → s.clk.holdover = false →
      ∃ t : State, exec (.tickHoldover now) s = .next t ∧ Raised 0x1102 0 s t ∧ t.seq.stats.holdover = true
        ∧ t.clk = { s.clk with time := now, holdover := true, locked := false })
    ∧ (s.clk.holdover = true → s.clk.tickLost = false →
      ∃ t : State, exec (.tickLost now) s = .next t ∧ Raised 0x1103 0 s t ∧ t.clk = { s.clk with time := now, tickLost := s.jobRuns })
    ∧ (∀ r : DoneReport, s.jobRuns = true → r.step = s.seq.step → s.treeChildren.contains r.module.toNat = true →
      s.seq.doneFrom.any (fun x => x.module == r.module) = false →
      ∃ t : State, exec (.done r) s = .next t ∧ t.seq.doneFrom = s.seq.doneFrom ++ [r] ∧ t.seq.step = s.seq.step)
    ∧ (∀ (m : BitVec 12), s.jobRuns = true → s.treeChildren.contains m.toNat = true →
      ∃ t : State, exec (.excessDeclaration m s.seq.step) s = .next t ∧ t.seq.excess = true ∧ t.seq.excessSpent = false)
    ∧ (∀ (peer : BitVec 12) (k : Nat), s.multi = true → s.treeEdges.contains peer.toNat = true → peer.toNat / 8 = s.me / 8 →
      s.engineTo (peer.toNat % 8) = some k → (s.pen k).retraining = false →
      exec (.timeTransfer now peer) s = .next { s with
        clk.time := now
        out := s.out ++ [.penFlit k (flitBytes 3 1 0 ((s.pen k).expect - 1).toNat 0
          (leBytes 2 21 ++ leBytes 2 24 ++ (s.timed now).timeBody peer.toNat))] })

/-- R49, R76, R150, R464, R488: START and STOP; one that is ignored, and a START that fails a check, has no effect but the log's and the
events of the failed checks.
Completion: start, stop. -/
def Obligations.StartAndStop : Prop :=
  ∀ (s : State) (v : Word), s.takesWrite → s.setup.armed = false → v.toNat / 256 % 256 ≠ 0 →
    (v.toNat % 4 = 1 → s.idle = true → s.seq.startPending = false → s.sec.mode ≠ 1 → s.beyondService = false → s.startFailures = [] →
      s.multi = false →
      ∃ t : State, exec (.start 0 v) s = .next t ∧ t.seq.startPending = true ∧ t.seq.job = .idle
        ∧ t.pend.slipLimit = BitVec.ofNat 8 (v.toNat / 256) ∧ t.active = s.active)
    ∧ (v.toNat % 4 = 1 → (s.idle = false ∨ s.seq.startPending = true ∨ s.sec.mode = 1 ∨ s.beyondService = true) →
      ∃ t : State, exec (.start 0 v) s = .next t ∧ t.seq = s.seq ∧ t.pend = s.pend ∧ t.active = s.active ∧ t.events = s.events
        ∧ Logged 0x20014 0 .state t)
    ∧ (v.toNat % 4 = 1 → s.startFailures ≠ [] →
      ∃ t : State, exec (.start 0 v) s = .next t ∧ t.seq = s.seq ∧ t.pend = s.pend ∧ t.active = s.active ∧ Logged 0x20014 0 .state t)
    ∧ (v.toNat % 4 = 2 → s.idle = true →
      ∃ t : State, exec (.stop 0 v) s = .next t ∧ t.seq = s.seq ∧ t.pend = s.pend ∧ t.active = s.active ∧ t.events = s.events
        ∧ Logged 0x20014 0 .state t)
    ∧ (v.toNat % 4 = 2 → s.jobRuns = true →
      exec (.stop 0 v) s = .next { s with
        setup.armed := true, pend.slipLimit := BitVec.ofNat 8 (v.toNat / 256), seq.job := .stopping, seq.stopPending := true })
    ∧ (v.toNat % 4 = 2 → s.seq.job = .halted → ∃ t : State, exec (.stop 0 v) s = .next t ∧ t.seq.job = .idle)

/-- R51, R53, R54, R72, R389: what each phase waits for and what its start does, the end of the sweep, and the record of the step.
Completion: gatherPhaseStart, denseForwardStart, backwardStart, gradientExchangeStart, mergePhaseStart, phase6End, updateSweepStart,
sweepEnd, tailSlotEnd, stepRecord. -/
def Obligations.Phases : Prop :=
  ∀ (s : State) (now e : Long),
    (s.jobRuns = true → s.inPhase 1 = true → s.inPhase 2 = false → s.listsArrived = true →
      ∃ t : State, exec (.gatherPhaseStart ⟨e, now⟩) s = .next t.serveRows ∧ t.seq.phases.started = 2 :: s.seq.phases.started
        ∧ t.seq.phases.ended = 1 :: s.seq.phases.ended ∧ t.seq.job = s.seq.job ∧ t.seq.step = s.seq.step
        ∧ NMap.find? t.seq.phases.ends 1 = some ((min e.toNat now.toNat - s.seq.tickTime.toNat) / 10))
    ∧ (∀ mb : Fin 64, s.jobRuns = true → s.inPhase 2 = true → s.seq.phases.forwardStarted = mb.val → mb.val < s.microBatches →
      mb.val ≠ 0 → exec (.denseForwardStart mb ⟨e, now⟩) s = .next { s with clk.time := now, seq.phases.forwardStarted := mb.val + 1 })
    ∧ (s.jobRuns = true → s.inPhase 2 = true → s.seq.phases.forwardStarted = 0 → 0 < s.microBatches → s.gathered = true →
      ∃ t : State, exec (.denseForwardStart 0 ⟨e, now⟩) s = .next t ∧ t.seq.phases.started = 3 :: s.seq.phases.started
        ∧ t.seq.phases.ended = 2 :: s.seq.phases.ended ∧ t.seq.phases.forwardStarted = 1)
    ∧ (∀ mb : Fin 64, s.jobRuns = true → mb.val < s.seq.phases.forwardStarted → s.seq.phases.backwardStarted = mb.val →
      ∃ t : State, exec (.backwardStart mb ⟨e, now⟩) s = .next t ∧ t.seq.phases.backwardStarted = mb.val + 1
        ∧ t.seq.phases.started = (if mb.val = 0 then 4 :: s.seq.phases.started else s.seq.phases.started)
        ∧ t.seq.phases.ended = (if mb.val + 1 = s.microBatches then 3 :: s.seq.phases.ended else s.seq.phases.ended))
    ∧ (∀ layer : Nat, s.jobRuns = true → s.seq.phases.backwardStarted = s.microBatches → s.seq.phases.layers.contains layer = false →
      ∃ t : State, exec (.gradientExchangeStart layer now) s = .next t ∧ t.seq.phases.layers = layer :: s.seq.phases.layers)
    ∧ (s.jobRuns = true → s.seq.phases.backwardStarted = s.microBatches → s.inPhase 6 = false → s.partialsArrived = true →
      s.partialsFormed = true →
      ∃ t : State, exec (.mergePhaseStart ⟨e, now⟩) s = .next t ∧ t.seq.phases.started = 6 :: s.seq.phases.started
        ∧ t.seq.phases.ended = 4 :: s.seq.phases.ended)
    ∧ (∀ peers : PeerStats, s.jobRuns = true → s.inPhase 6 = true → s.phaseOver 6 = false →
      ∃ t : State, exec (.phase6End now peers) s = .next t ∧ t.seq.phases.ended = 6 :: s.seq.phases.ended)
    ∧ (s.sweepMay = true → s.logShort = false →
      ∃ t : State, exec (.updateSweepStart ⟨e, now⟩) s = .next t ∧ t.seq.phases.started = 7 :: s.seq.phases.started
        ∧ t.seq.phases.ended = 5 :: s.seq.phases.ended)
    ∧ (s.sweepMay = true → s.logShort = true → s.rel.exp.waiting = false →
      ∃ t : State, exec (.updateSweepStart ⟨e, now⟩) s = .next t ∧ t.seq.phases = s.seq.phases ∧ t.rel.exp.waiting = true
        ∧ t.seq.excess = true ∧ Raised 0x7402 0 s t)
    ∧ (s.inPhase 7 = true → s.phaseOver 7 = false → s.jobRuns = true → s.swept = true →
      ∃ t : State, exec (.sweepEnd now) s = .next t ∧ t.seq.phases.ended.contains 7 = true ∧ t.rel.lifeSteps = s.rel.lifeSteps + 1)
    ∧ (∀ k : Nat, s.seq.tail.current = some k → s.seq.tail.claimed = [k] → s.seq.tail.granted = [k] → s.seq.job = .running →
      ∃ t : State, exec (.tailSlotEnd now) s = .next t ∧ t.seq.tail.current = none ∧ t.seq.doneSent = true
        ∧ t.seq.phases.ended = 8 :: s.seq.phases.ended)
    ∧ (∀ (r : DueRecord) (rest : List DueRecord) (power : Half), s.seq.due = r :: rest → s.completionsOut r.step = true →
      s.compared r = true → s.rel.witnessReqs.any (fun q => q.2 == r.step) = false →
      ∃ t : State, exec (.stepRecord now power) s = .next t ∧ t.seq.due = rest)

/-- R64, R338, R341, R353, R357: the poll of a group, and what a doorbell entry does: it posts descriptors, visible since the time given, moves the host's position of a ring,
or halts its queue.
Completion: groupPoll, doorbellReadCompletion. -/
def Obligations.PollsAndDoorbells : Prop :=
  ∀ (s : State) (g : Fin 128) (now : Long) (seen : List (Fin 64 × Long)),
    ((s.group g.val).enable = true → (s.group g.val).outstanding = false → s.portOpen (g.val / 32) →
      exec (.groupPoll g) s = .next { s with
        out := s.out ++ [.hostRead (g.val / 32) (s.group g.val).db.toNat 512]
        host.groups := NMap.modify s.host.groups g.val {} (fun y => { y with outstanding := true })
        host.ports := NMap.modify s.host.ports (g.val / 32) {} (fun x => { x with
          outstanding := x.outstanding ++ [.hostRead (g.val / 32) (s.group g.val).db.toNat 512] }) })
    ∧ ((s.group g.val).outstanding = true →
      ∃ t : State, exec (.doorbellReadCompletion g ⟨.failed, seen⟩ now) s = .next t ∧ Only [.time, .ports, .groups, .tel, .events] s t
        ∧ t.group g.val = { s.group g.val with outstanding := false })
    ∧ (∀ (i : Fin 64) (b : Bytes) (x : Queue), (s.group g.val).outstanding = true → s.queue (g.val * 64 + i.val) = x → x.mode = .armed →
      (∀ j : Nat, j < 64 → j ≠ i.val → (s.queue (g.val * 64 + j)).mode ≠ .armed) →
      (x.cls = 0 → x.fetching = true → field b (8 * i.val) 4 < x.entries →
        x.ahead (field b (8 * i.val + 4) 4 * x.entries + field b (8 * i.val) 4) x.f ≤ x.entries →
        x.ahead x.c x.f ≤ x.ahead (field b (8 * i.val + 4) 4 * x.entries + field b (8 * i.val) 4) x.f →
        ∃ t : State, exec (.doorbellReadCompletion g ⟨.ok b, seen⟩ now) s = .next t ∧ Only [.time, .ports, .groups, .queues] s t
          ∧ t.queue (g.val * 64 + i.val) = { x with
              d := (field b (8 * i.val + 4) 4 * x.entries + field b (8 * i.val) 4) % x.modulus
              posted := BitVec.ofNat 64 (visibleAt seen now i.val) })
      ∧ (x.cls = 3 → field b (8 * i.val) 4 < x.entries →
        x.ahead (field b (8 * i.val + 4) 4 * x.entries + field b (8 * i.val) 4) x.k ≤ x.ahead x.p x.k →
        ∃ t : State, exec (.doorbellReadCompletion g ⟨.ok b, seen⟩ now) s = .next t ∧ Only [.time, .ports, .groups, .queues] s t
          ∧ t.queue (g.val * 64 + i.val) = { x with
              k := (field b (8 * i.val + 4) 4 * x.entries + field b (8 * i.val) 4) % x.modulus })
      ∧ (x.cls = 0 → x.entries ≤ field b (8 * i.val) 4 →
        ∃ t : State, exec (.doorbellReadCompletion g ⟨.ok b, seen⟩ now) s = .next t ∧ Only [.time, .ports, .groups, .queues, .tel, .events] s t
          ∧ t.queue (g.val * 64 + i.val) = { x with mode := .halted, code := 0x6105 }
          ∧ Raised 0x6105 (unitPort (queuePort (g.val * 64 + i.val))) s t))

/-- R64, R344, R352, R353: a descriptor as it is read: accepted with the LAP of its position, and eligible from Q + 20 µs after it was seen; left for another read with another LAP, its queue
halted after the eighth re-read, and failed when the read fails.
Completion: descriptorFetched, lapReread. -/
def Obligations.DescriptorReads : Prop :=
  ∀ (s : State) (q : Fin 8192) (x : Queue) (now : Long) (data : Bytes), s.queue q.val = x → x.mode = .armed →
    (x.fetching = true → x.next x.c = x.d → dLap (slice data 0 64) = x.c / x.entries % 2 ^ 32 → dOp (slice data 0 64) ≠ 3 →
      s.round1 (slice data 0 64) (queuePort q.val) x.cls = none →
      ∃ t : State, exec (.descriptorFetched q (.ok data) now) s = .next t ∧ Only [.time, .ports, .queues] s t
        ∧ t.queue q.val = { x with
            c := x.d, fetching := false, rereads := 0, stale := false
            descs := x.descs ++ [{
              pos := x.c, bytes := slice data 0 64, stage := .ready
              readyAt := x.posted.toNat + 250 * 2 ^ (s.group (queueGroup q.val)).poll.toNat + 20000 }] })
    ∧ (x.fetching = true → x.rereads < 8 → dLap (slice data 0 64) ≠ x.c / x.entries % 2 ^ 32 →
      ∃ t : State, exec (.descriptorFetched q (.ok data) now) s = .next t ∧ Only [.time, .ports, .queues] s t
        ∧ t.queue q.val = { x with stale := true, fetching := false })
    ∧ (x.fetching = true → 8 ≤ x.rereads → x.cls ≠ 3 → dLap (slice data 0 64) ≠ x.c / x.entries % 2 ^ 32 →
      ∃ t : State, exec (.descriptorFetched q (.ok data) now) s = .next t ∧ (t.queue q.val).mode = .halted
        ∧ (t.queue q.val).code = 0x6104 ∧ Raised 0x6104 (unitPort (queuePort q.val)) s t
        ∧ t.host.descFail = satAdd s.host.descFail 1)
    ∧ (x.fetching = true → (∀ d ∈ x.descs, d.pos ≠ x.c) →
      ∃ t : State, exec (.descriptorFetched q .failed now) s = .next t ∧ (t.queue q.val).c = x.next x.c
        ∧ (t.queue q.val).code = 0x6108 ∧ t.host.descFail = satAdd s.host.descFail 1
        ∧ (t.queue q.val).descs = x.descs ++ [{
            pos := x.c, bytes := List.replicate 64 0, tagKnown := false, stage := .finished, status := 0x6108 }])
    ∧ (x.stale = true → s.portOpen (queuePort q.val) →
      exec (.lapReread q) s = .next { s with
        out := s.out ++ [.hostRead (queuePort q.val) (x.ring.toNat + 64 * x.slot x.c) 64]
        host.ports := NMap.modify s.host.ports (queuePort q.val) {} (fun y => { y with
          outstanding := y.outstanding ++ [.hostRead (queuePort q.val) (x.ring.toNat + 64 * x.slot x.c) 64] })
        host.queues := NMap.modify s.host.queues q.val {} (fun y => { y with
          stale := false, fetching := true, rereads := y.rereads + 1 }) })

/-- R352, R353, R381: the buffers of a batch as they are read: validated and taken in, or failed; and a read that reaches 50 ms.
Completion: hostReadCompletion, hostReadTimeout. -/
def Obligations.BufferReads : Prop :=
  ∀ (s : State) (q : Fin 8192) (d : Desc) (data : Bytes), (s.queue q.val).awaiting = some d → (s.queue q.val).mute = false →
    (dOp d.bytes ≠ 3 → s.round2Batch d.bytes (slice data 0 (dBufLen d.bytes)) = none →
      ∃ t : State, exec (.hostReadCompletion q (.ok data) none) s = .next t
        ∧ (t.queue q.val).descs = (s.queue q.val).descs.map (fun e =>
            if e.pos = d.pos then { e with intakeDone := true, data := slice data 0 (dBufLen d.bytes) } else e))
    ∧ (∀ chk : Check, ∃ t : State, exec (.hostReadCompletion q .failed chk) s = .next t
        ∧ t.queue q.val = { (s.queue q.val).withDone d.pos 0x6108 0 with code := 0x6108 }
        ∧ t.host.descFail = satAdd s.host.descFail 1)
    ∧ (∃ t : State, exec (.hostReadTimeout (.buffer q)) s = .next t
        ∧ t.queue q.val = { (s.queue q.val).withDone d.pos 0x6108 0 with code := 0x6108 }
        ∧ t.host.descFail = satAdd s.host.descFail 1)

/-- R55, R64, R345, R350, R351, R355: batches, fences, NOP and snapshots as a queue takes them in their turn.
Completion: trainBatch, evalBatch, fence, fenceCompletion, telemetrySnapshot, nop. -/
def Obligations.QueueOperations : Prop :=
  ∀ (s : State) (q : Fin 8192) (d : Desc),
    (∀ p : Plan, s.readyDesc q.val 1 = some d → s.plan = some p → s.seq.next.active = true → s.seq.next.closed = false →
      s.emb.next.done = false → s.filling = false → overMaxima p.header d.bytes = [] → fitsStep p.header s.seq.next d.bytes = true →
      ∃ t : State, exec (.trainBatch q) s = .next t ∧ Only [.out, .ports, .queues, .intake] s t
        ∧ t.seq.next.order = s.seq.next.order ++ [(q.val, d.pos)] ∧ t.seq.next.batches = s.seq.next.batches + 1
        ∧ t.seq.next.samples = s.seq.next.samples + dSamples d.bytes ∧ t.seq.next.events = s.seq.next.events + dEvents d.bytes
        ∧ t.seq.next.bytes = s.seq.next.bytes + dBufLen d.bytes
        ∧ (t.queue q.val).descs.map (fun e => (e.pos, e.stage, e.step)) = (s.queue q.val).descs.map (fun e =>
            (e.pos, if e.pos = d.pos then .taken else e.stage, if e.pos = d.pos then s.nextStep else e.step)))
    ∧ (s.readyDesc q.val 1 = some d → (s.seq.next.active = false ∨ s.seq.next.closed = true) → exec (.trainBatch q) s = .next s)
    ∧ (s.readyDesc q.val 2 = some d → s.plan.isSome = true → s.seq.next.active = true →
      ∃ t : State, exec (.evalBatch q) s = .next t ∧ Only [.out, .ports, .queues] s t
        ∧ (t.queue q.val).descs.map (fun e => (e.pos, e.stage, e.step)) = (s.queue q.val).descs.map (fun e =>
            (e.pos, if e.pos = d.pos then .taken else e.stage, if e.pos = d.pos then s.nextStep else e.step)))
    ∧ (s.readyDesc q.val 6 = some d → (dFlag d.bytes = false ∨ (dTable d.bytes ≠ q.val ∧ (s.queue (dTable d.bytes)).mode = .armed)) →
      exec (.fence q) s = .next (s.setQueue q.val (fun x => x.withStage d.pos .waiting)))
    ∧ (s.readyDesc q.val 6 = some d → dFlag d.bytes = true → (dTable d.bytes = q.val ∨ (s.queue (dTable d.bytes)).mode ≠ .armed) →
      ∃ t : State, exec (.fence q) s = .next t ∧ t.queue q.val = { (s.queue q.val).withDone d.pos 0x6107 0 with code := 0x6107 })
    ∧ ((s.queue q.val).descs.find? (fun e => e.pos == (s.queue q.val).f && e.stage == .waiting && dOp e.bytes == 6) = some d →
      (dFlag d.bytes = false ∨ ((s.queue (dTable d.bytes)).mode = .armed ∧ (s.queue (dTable d.bytes)).reached (dWaitPos d.bytes) = true)) →
      exec (.fenceCompletion q) s = .next (s.setQueue q.val (fun x => x.withDone d.pos 0 0)))
    ∧ (s.readyDesc q.val 8 = some d → exec (.nop q) s = .next (s.setQueue q.val (fun x => x.withDone d.pos 0 0)))
    ∧ (s.readyDesc q.val 7 = some d →
      ∃ t : State, exec (.telemetrySnapshot q) s = .next t ∧ Only [.queues] s t
        ∧ (t.queue q.val).descs = (s.queue q.val).descs.map (fun e => if e.pos = d.pos then
            { e with
              stage := .finished, status := 0, result := dWinLen d.bytes
              data := s.snapshot (queuePort q.val) (dWinOffset d.bytes) (dWinLen d.bytes) }
            else e))

/-- R354, R355, R357, R358, R363: a completion record, the messages of a vector, and an entry of the TELEMETRY ring.
Completion: completionRecord, msixHoldoffEnd, telemetryEntry. -/
def Obligations.QueueRecords : Prop :=
  ∀ (s : State) (q : Fin 8192) (x : Queue) (now : Long), s.queue q.val = x →
    (∀ d : Desc, x.mute = false → x.irqEn = false → s.portOpen (queuePort q.val) →
      x.descs.find? (fun e => e.pos == x.f) = some d → d.stage = .finished → d.hasData = false →
      exec (.completionRecord q now) s = .next { s.setQueue q.val (fun y => { y with
          f := x.next x.f, descs := x.descs.filter (fun e => e.pos != d.pos) }) with
        clk.time := now
        out := s.out ++ [.completion (queuePort q.val) (x.aux.toNat + 32 * x.slot d.pos)
            (completionRecord q.val x d s.stepOrNone (s.late d)) (s.completionInfo d)] })
    ∧ (x.holding = true → x.more = false →
      exec (.msixHoldoffEnd q) s = .next (s.setQueue q.val (fun y => { y with holding := false })))
    ∧ (x.holding = true → x.more = true → s.portOpen (queuePort q.val) →
      (NMap.getD (s.port (queuePort q.val)).msix x.vector.toNat {}).masked = false →
      exec (.msixHoldoffEnd q) s = .next { s.setQueue q.val (fun y => { y with holding := decide (y.holdoff ≠ 0), more := false }) with
        out := s.out ++ [.msix (queuePort q.val) x.vector.toNat] })
    ∧ (∀ (r : TelRecord) (rest : List TelRecord), s.telemetryQueue = some q.val → s.host.tel.accepted = r :: rest → s.host.tel.held = [] →
      x.free = true → x.irqEn = false → s.portOpen (queuePort q.val) →
      exec .telemetryEntry s = .next { s.setQueue q.val (fun y => { y with p := x.next x.p }) with
        host.tel.accepted := rest
        out := s.out ++ [
            .hostWrite (queuePort q.val) (x.ring.toNat + 512 * x.slot x.p) (padTo 512 (telemetryEntry x.p r)),
            .hostWrite (queuePort q.val) x.aux.toNat (leBytes 8 (x.next x.p))] })

/-- R332, R364 to R366, R369 to R371: a port's link goes down and comes back, its host is reset or removed, and a new link trains.
Completion: portLinkDown, portRetrain, linkDownTimeout, hostReset, surpriseRemoval, portUp, unsupportedRequest. -/
def Obligations.HostPorts : Prop :=
  ∀ (s : State) (p : Fin 4),
    (∀ n : Nat, (s.port p.val).link = .up → exec (.portLinkDown p n) s = .next { s with
      host.ports := NMap.modify s.host.ports p.val {} (fun x => { x with link := .retraining, unacked := s.unackedWrites p.val n }) })
    ∧ ((s.port p.val).link = .retraining → ∃ t : State, exec (.portRetrain p) s = .next t ∧ Only [.out, .ports, .setup, .tel, .events] s t
        ∧ (t.port p.val).link = .up ∧ (t.port p.val).retrains = satAdd (s.port p.val).retrains 1 ∧ Raised 0x6002 (unitPort p.val) s t
        ∧ (p = 0 → t.setup.armed = true)
        ∧ (s.enabledVectors p.val = [] → t.out = s.out ++ ((s.port p.val).outstanding ++ (s.port p.val).unacked.map (s.refreshed true)
            ++ ((s.port p.val).heldOut.filter (fun o => !isRead o)).map (s.refreshed false))))
    ∧ (∀ c : Instr, (c = .linkDownTimeout p ∨ ∃ k : ResetCause, c = .hostReset p k) → (s.port p.val).link = .retraining →
      ∃ t : State, exec c s = .next t ∧ (t.port p.val).link = .down ∧ (t.port p.val).orphaned = true ∧ (t.port p.val).heldOut = []
        ∧ (t.port p.val).outstanding = [] ∧ (t.port p.val).unacked = []
        ∧ (∀ g, g / 32 = p.val → (t.group g).enable = false)
        ∧ (∀ q, queuePort q = p.val → (s.queue q).mode = .armed ∨ (s.queue q).mode = .halted → (t.queue q).mode = .orphaned)
        ∧ (s.rel.exp.mode = .off → t.lastEvent = some 0x6003))
    ∧ ((s.port p.val).link = .down → (∀ k : ResetCause, exec (.hostReset p k) s = .next s)
        ∧ exec (.surpriseRemoval p) s = .next (s.setPort p.val (fun x => { x with present := false })))
    ∧ ((s.port p.val).link = .up → ∃ t : State, exec (.surpriseRemoval p) s = .next t ∧ (t.port p.val).link = .down
        ∧ (t.port p.val).orphaned = true ∧ (t.port p.val).present = false)
    ∧ (∀ (speed : BitVec 4) (width : BitVec 5), (s.port p.val).link = .down →
      ∃ t : State, exec (.portUp p speed width) s = .next t ∧ Only [.ports, .tel, .events] s t
        ∧ t.port p.val = { s.port p.val with link := .up, present := true, speed := speed, width := width }
        ∧ (6 ≤ speed.toNat → 16 ≤ width.toNat → Raised 0x6001 (unitPort p.val) s t)
        ∧ (speed.toNat < 6 ∨ width.toNat < 16 → t.lastEvent = some 0x6004))
    ∧ exec (.unsupportedRequest p) s = .next { s with out := s.out ++ [.unsupported p.val] }

/-- R141, R147, R148, R352: a table load: a descriptor block that fails its checks, the first version of a table, a new version that waits
for its staging fill, and the rows of a load written in order.
Completion: tableLoadDescriptor, tableLoadRecords, tableLoadBinary32. -/
def Obligations.TableLoads : Prop :=
  ∀ (s : State) (q : Fin 8192) (d : Desc), s.readyDesc q.val 3 = some d →
    (∀ code : Nat, dKind d.bytes = 0 → s.blockFail d.bytes d.data = some code →
      ∃ t : State, exec (.tableLoadDescriptor q) s = .next t ∧ t.emb = s.emb
        ∧ t.queue q.val = { (s.queue q.val).withDone d.pos code 0 with code := BitVec.ofNat 16 code })
    ∧ (dKind d.bytes = 0 → s.blockFail d.bytes d.data = none → s.idle = true → s.currentTable (parseBlock d.data).id = none →
      s.tableVersion (parseBlock d.data).id (parseBlock d.data).version = none →
      exec (.tableLoadDescriptor q) s = .next { s.setQueue q.val (fun x => x.withDone d.pos 0 0) with
        emb.tables := s.emb.tables.filter (fun u => u.id != (parseBlock d.data).id || u.version != (parseBlock d.data).version)
          ++ [{ parseBlock d.data with current := true, bases := s.layoutBases (parseBlock d.data).id }] })
    ∧ (dKind d.bytes = 0 → s.blockFail d.bytes d.data = none → s.idle = false → s.currentTable (parseBlock d.data).id = none →
      ∃ t : State, exec (.tableLoadDescriptor q) s = .next t ∧ t.emb = s.emb
        ∧ t.queue q.val = { (s.queue q.val).withDone d.pos 0x3001 0 with code := 0x3001 })
    ∧ (∀ c : TableVer, dKind d.bytes = 0 → s.blockFail d.bytes d.data = none → s.currentTable (parseBlock d.data).id = some c →
      c.version ≠ (parseBlock d.data).version → c.sameShape (parseBlock d.data) = true → s.stagedTable (parseBlock d.data).id = none →
      exec (.tableLoadDescriptor q) s = .next { s.setQueue q.val (fun x => x.withStage d.pos .waiting) with
        emb.tables := s.emb.tables.filter (fun u => u.id != (parseBlock d.data).id || u.version != (parseBlock d.data).version)
          ++ [{ parseBlock d.data with staged := true }] })
    ∧ (∀ (t : TableVer) (fails : List Nat), dKind d.bytes = 1 → s.rowLoadFail d.bytes = none →
      s.tableVersion (dTable d.bytes) (dVersion d.bytes) = some t → s.badExtent d.bytes = false →
      (∀ code, s.loadTarget t.id t.version ≠ .fails code) → (s.loadTarget t.id t.version = .staged → t.filled = true) →
      recordsBad t d.data = false → d.status = 0 → (State.loadWrites (s.loadRecords t d.bytes d.data) fails s 0).2.2 = true →
      exec (.tableLoadRecords q fails) s = .next
        ((State.loadWrites (s.loadRecords t d.bytes d.data) fails s 0).1.setQueue q.val
          (fun x => x.withDone d.pos 0 (State.loadWrites (s.loadRecords t d.bytes d.data) fails s 0).2.1)))
    ∧ (∀ (t : TableVer) (fails : List Nat), dKind d.bytes = 2 → s.rowLoadFail d.bytes = none →
      s.tableVersion (dTable d.bytes) (dVersion d.bytes) = some t → s.badExtent d.bytes = false →
      (∀ code, s.loadTarget t.id t.version ≠ .fails code) → (s.loadTarget t.id t.version = .staged → t.filled = true) →
      d.status = 0 → (State.loadWrites (s.loadRecords t d.bytes d.data) fails (s.countLoad t d.data) 0).2.2 = true →
      exec (.tableLoadBinary32 q fails) s = .next
        ((State.loadWrites (s.loadRecords t d.bytes d.data) fails (s.countLoad t d.data) 0).1.setQueue q.val
          (fun x => x.withDone d.pos 0 (State.loadWrites (s.loadRecords t d.bytes d.data) fails (s.countLoad t d.data) 0).2.1)))

/-- R149, R169, R171, R471: the staging fill of a new version, and swaps.
Completion: tableStaging, stagingFillEnd, tableSwap, tableSwapDiscard. -/
def Obligations.StagingAndSwaps : Prop :=
  ∀ (s : State) (q : Fin 8192) (d : Desc),
    (∀ (t : TableVer) (p : NMap Nat × List (Nat × Nat)), (s.queue q.val).stagingLoad = some d →
      s.stagedTable (dTable d.bytes) = some t → s.setup.op = 0 → t.filled = false → t.filling = false →
      placeRanges t (s.ownedRanges t) s.emb.pool = some p →
      ∃ u : State, exec (.tableStaging q) s = .next u ∧ u.setup.op = 3 ∧ u.setup.armed = true ∧ u.emb.pool = poolOf p.2
        ∧ u.emb.tables = (s.emb.tables.map (fun v => if v.id == t.id && v.staged then { v with bases := p.1, filling := true } else v)).map
            (fun v => if v.id == t.id && v.current then { v with dropped := v.sweptNow } else v))
    ∧ (∀ t : TableVer, (s.queue q.val).stagingLoad = some d → s.stagedTable (dTable d.bytes) = some t → s.setup.op = 0 →
      t.filled = false → t.filling = false → placeRanges t (s.ownedRanges t) s.emb.pool = none →
      ∃ u : State, exec (.tableStaging q) s = .next u ∧ u.emb.tables = s.emb.tables.filter (fun v => !(v.id == t.id && v.staged))
        ∧ u.queue q.val = { (s.queue q.val).withDone d.pos 0x3004 0 with code := 0x3004 })
    ∧ (s.setup.op = 3 → ∃ u : State, exec .stagingFillEnd s = .next u ∧ Only [.setup, .queues, .tables] s u ∧ u.setup.op = 0
        ∧ u.emb.tables = s.emb.tables.map (fun t => if t.filling then { t with filling := false, filled := true } else t))
    ∧ (∀ t : TableVer, s.readyDesc q.val 4 = some d → dFlag d.bytes = false → s.tableVersion (dTable d.bytes) (dVersion d.bytes) = some t →
      t.staged = true → t.filled = true → s.tableComplete t = true → s.idle = true →
      ∃ u : State, exec (.tableSwap q) s = .next u
        ∧ u.emb.tables = (s.emb.tables.filter (fun v => !(v.id == dTable d.bytes && v.current))).map (fun v =>
            if v.id == dTable d.bytes && v.version == dVersion d.bytes then
              { v with current := true, staged := false, announced := false, dropped := 0 } else v)
        ∧ u.emb.swaps = s.emb.swaps.filter (fun w => w.table != dTable d.bytes)
        ∧ u.queue q.val = (s.queue q.val).withDone d.pos 0 (((s.currentTable (dTable d.bytes)).map (·.dropped)).getD 0)
        ∧ (((s.currentTable (dTable d.bytes)).map (·.dropped)).getD 0 = 0 → u.lastEvent = some 0x3202)
        ∧ (((s.currentTable (dTable d.bytes)).map (·.dropped)).getD 0 ≠ 0 → u.lastEvent = some 0x3204))
    ∧ (∀ t : TableVer, s.readyDesc q.val 4 = some d → dFlag d.bytes = false → s.tableVersion (dTable d.bytes) (dVersion d.bytes) = some t →
      t.staged = true → t.filled = true → s.tableComplete t = true → s.idle = false →
      s.emb.swaps.any (fun w => w.table == dTable d.bytes && w.version == dVersion d.bytes) = false →
      exec (.tableSwap q) s = .next { s.setQueue q.val (fun x => x.withStage d.pos .taken) with
        emb.swaps := s.emb.swaps ++ [{ table := dTable d.bytes, version := dVersion d.bytes, waiters := [(q.val, d.pos)] }] })
    ∧ (s.readyDesc q.val 4 = some d → dFlag d.bytes = false → s.tableVersion (dTable d.bytes) (dVersion d.bytes) = none →
      ∃ u : State, exec (.tableSwap q) s = .next u ∧ u.emb = s.emb
        ∧ u.queue q.val = { (s.queue q.val).withDone d.pos 0x3203 0 with code := 0x3203 })
    ∧ (∀ t : TableVer, s.readyDesc q.val 4 = some d → dFlag d.bytes = true → s.stagedTable (dTable d.bytes) = some t →
      t.version = dVersion d.bytes → t.announced = false → t.filled = true → s.emb.swaps = [] →
      ∃ u : State, exec (.tableSwapDiscard q) s = .next u ∧ Only [.queues, .mem, .tables] s u
        ∧ u.emb.tables = s.emb.tables.filter (fun v => !(v.id == dTable d.bytes && v.staged))
        ∧ u.queue q.val = (s.queue q.val).withDone d.pos 0 0)
    ∧ (s.readyDesc q.val 4 = some d → dFlag d.bytes = true → s.stagedTable (dTable d.bytes) = none →
      exec (.tableSwapDiscard q) s = .next (s.setQueue q.val (fun x => x.withDone d.pos 0 0)))

/-- R67, R153, R154, R157, R162: the separation of the coming step's lookups, the unions of the lists, the gather stage's rows, and the
row cache.
Completion: separate, aggregate, gatherRows, pool, rowCacheFill. -/
def Obligations.Lookups : Prop :=
  ∀ s : State,
    (s.inEvaluation = false → s.seq.next.ended = true → s.emb.next.done = false →
      (separateLookups (s.boundTable s.nextStep) (batchLookups s.nextBatches)).invalid = [] →
      exec (.separate none) s = .next { s with
        emb.next := separateLookups (s.boundTable s.nextStep) (batchLookups s.nextBatches)
        emb.sortScratch := sortedLookups (batchLookups s.nextBatches) })
    ∧ (s.inEvaluation = false → (s.seq.next.ended = false ∨ s.emb.next.done = true) → exec (.separate none) s = .next s)
    ∧ (∀ owner : BitVec 12, owner.toNat = s.me → s.emb.now.aggregated = false → s.listsArrived = true → s.inEvaluation = false →
      ∃ t : State, exec (.aggregate owner) s = .next t ∧ t.emb.now.aggregated = true
        ∧ t.emb.now.owned = unionRows s.me (s.sendList s.me ++ (s.listsFor s.me).flatMap (·.2)) ∧ t.emb.served = t.emb.now.owned)
    ∧ (∀ owner : BitVec 12, owner.toNat ≠ s.me → s.proxyFor.contains owner.toNat = true → s.proxyReady owner.toNat = true →
      s.emb.now.agg.any (fun a => a.1 == owner.toNat) = false →
      ∃ t : State, exec (.aggregate owner) s = .next t
        ∧ t.emb.now.agg = s.emb.now.agg ++ [(owner.toNat,
            unionRows owner.toNat (s.sendList owner.toNat ++ (s.listsFor owner.toNat).flatMap (·.2)))])
    ∧ (∀ (l : LineId) (e : RowRef) (t : TableVer) (b : Bytes), s.emb.now.unique = [e] → e.owner = s.me → s.currentTable e.table = some t →
      NMap.find? s.emb.now.values (rowKey e.table e.row) = none → NMap.find? s.emb.now.rowBytes (rowKey e.table e.row) = some b →
      ∃ u : State, exec (.gatherRows l) s = .next u ∧ Only [.tel, .watch, .events, .emb] s u
        ∧ u.emb.now.values = NMap.insert s.emb.now.values (rowKey t.id e.row) (dequantRow t b).1)
    ∧ (∀ (l : LineId) (p f : Nat) (b : Bag), s.bag p f = some b → s.bagPlace f = none →
      ∃ u : State, exec (.pool l p f) s = .next u
        ∧ u.emb.now.pooled = s.emb.now.pooled.filter (fun x => x.1 != p || x.2.1 != f)
          ++ [(p, f, b.pool.map (fun r => BitVec.ofNat 16 (convert binary32 yf16 .rne false 0 r.1).1))])
    ∧ (∀ (l : LineId) (p f : Nat) (b : Bag) (pl : BagPlace), s.bag p f = some b → s.bagPlace f = some pl →
      tileRange (pl.addr + p * b.table.dim * 2) (b.table.dim * 2) = true →
      ∃ u : State, exec (.pool l p f) s = .next u
        ∧ u.emb.now.pooled = s.emb.now.pooled.filter (fun x => x.1 != p || x.2.1 != f)
          ++ [(p, f, b.pool.map (fun r => BitVec.ofNat 16 (convert binary32 yf16 .rne false 0 r.1).1))]
        ∧ u.mem.tiles = Memory.writeBytes s.mem.tiles (tileAddr pl.tile.val (pl.addr + p * b.table.dim * 2))
            (elementBytes 2 (b.pool.map (fun r => (convert binary32 yf16 .rne false 0 r.1).1))))
    ∧ (∀ (tile : Fin 32) (table row : Nat), s.cacheKeeps table row = false → exec (.rowCacheFill tile table row) s = .next s)
    ∧ (∀ (tile : Fin 32) (table row : Nat), s.fillTurn tile.val table row = false → exec (.rowCacheFill tile table row) s = .next s)
    ∧ (∀ (tile : Fin 32) (table row : Nat) (t : TableVer) (r : Nat × ShardRange), s.currentTable table = some t → t.rangeOf row = some r →
      r.2.owner = s.me → s.homeTile table r.1 = some tile.val → s.cacheKeeps table row = true → s.fillTurn tile.val table row = true →
      s.mem.rowCache = [] → t.segs * t.rs ≤ s.cacheBytes tile.val → (s.readSegments t row).2.2 = [] →
      ∃ u : State, exec (.rowCacheFill tile table row) s = .next u ∧ u.emb = s.emb ∧ u.mem.hbm = s.mem.hbm
        ∧ u.mem.rowCache = [⟨tile.val, table, row, BitVec.ofNat 16 (field ((s.readSegments t row).2.1.headD []) 8 2),
            (s.readSegments t row).2.1⟩])

/-- R349, R397 to R400, R403: the export stream is armed, refused, stopped and broken, and an entry of delta items is written.
Completion: exportArm, exportArmStop, exportEntry. -/
def Obligations.ExportStream : Prop :=
  ∀ (s : State) (q : Fin 8192) (d : Desc),
    (s.readyDesc q.val 5 = some d → dFlag d.bytes = false → (s.queue (dTable d.bytes)).cls = 3 → (s.queue (dTable d.bytes)).mode = .armed →
      s.streamArmed = false → s.exportLog.isNone = false → s.jobRuns = true →
      exec (.exportArm q) s = .next { s.setQueue q.val (fun x => x.withStage d.pos .taken) with
        rel.exp.queue := dTable d.bytes, rel.exp.armWaiter := some (q.val, d.pos), rel.exp.stopWaiters := [], rel.exp.armPending := true })
    ∧ (s.readyDesc q.val 5 = some d → dFlag d.bytes = false → (s.queue (dTable d.bytes)).cls = 3 → (s.queue (dTable d.bytes)).mode = .armed →
      s.streamArmed = false → s.exportLog.isNone = false → s.jobRuns = false →
      ∃ t : State, exec (.exportArm q) s = .next t ∧ Only [.queues, .exp] s t ∧ t.rel.exp.mode = .base ∧ t.rel.exp.logging = true
        ∧ t.rel.exp.stepValid = false ∧ t.rel.exp.entrySeq = 0 ∧ t.rel.exp.log = [] ∧ t.rel.exp.queue = dTable d.bytes
        ∧ t.queue q.val = (s.queue q.val).withDone d.pos 0 0)
    ∧ (s.readyDesc q.val 5 = some d → dFlag d.bytes = false → ((s.queue (dTable d.bytes)).cls ≠ 3 ∨ (s.queue (dTable d.bytes)).mode ≠ .armed) →
      ∃ t : State, exec (.exportArm q) s = .next t ∧ t.rel = s.rel
        ∧ t.queue q.val = { (s.queue q.val).withDone d.pos 0x6103 0 with code := 0x6103 })
    ∧ (s.readyDesc q.val 5 = some d → dFlag d.bytes = false → (s.queue (dTable d.bytes)).cls = 3 → (s.queue (dTable d.bytes)).mode = .armed →
      s.streamArmed = true → ∃ t : State, exec (.exportArm q) s = .next t ∧ t.rel = s.rel
        ∧ t.queue q.val = { (s.queue q.val).withDone d.pos 0x7404 0 with code := 0x7404 })
    ∧ (s.readyDesc q.val 5 = some d → dFlag d.bytes = true → s.streamArmed = false →
      exec (.exportArmStop q) s = .next (s.setQueue q.val (fun x => x.withDone d.pos 0 0)))
    ∧ (s.readyDesc q.val 5 = some d → dFlag d.bytes = true → s.streamArmed = true → s.rel.exp.armPending = false →
      s.rel.exp.stopAfter = none → s.sweepAhead = true →
      exec (.exportArmStop q) s = .next { s.setQueue q.val (fun x => x.withStage d.pos .taken) with
        rel.exp.stopWaiters := s.rel.exp.stopWaiters ++ [(q.val, d.pos)], rel.exp.stopAfter := some s.seq.step })
    ∧ (∀ (n : BitVec 48) (rest : List (BitVec 48)), (s.rel.exp.mode = .base ∨ s.rel.exp.mode = .delta) → s.drains = true →
      s.rel.exp.queue = q.val → (s.queue q.val).mode = .armed → (s.queue q.val).free = true → (s.queue q.val).irqEn = false →
      s.portOpen (queuePort q.val) → s.rel.exp.openSteps = n :: rest → s.rel.exp.stopAfter = none →
      fitItems 4032 ((s.rel.exp.log.filter (fun i => i.1 == n)).map (·.2)) = (s.rel.exp.log.filter (fun i => i.1 == n)).map (·.2) →
      ∃ t : State, exec (.exportEntry false) s = .next t ∧ Only [.out, .queues, .exp] s t
        ∧ t.rel.exp.entrySeq = s.rel.exp.entrySeq + 1 ∧ t.rel.exp.openSteps = rest ∧ t.rel.exp.step = n ∧ t.rel.exp.stepValid = true
        ∧ t.rel.exp.log = s.rel.exp.log.filter (fun i => i.1 != n)
        ∧ t.out = s.out ++ [
            .hostWrite (queuePort q.val) ((s.queue q.val).ring.toNat + 4096 * (s.queue q.val).slot (s.queue q.val).p)
              (padTo 4096 (s.exportEntry ((s.rel.exp.log.filter (fun i => i.1 == n)).map (·.2)) n.toNat 2
                (NMap.getD s.rel.exp.stepItems n.toNat 0))),
            .hostWrite (queuePort q.val) (s.queue q.val).aux.toNat (leBytes 8 ((s.queue q.val).next (s.queue q.val).p))])
    ∧ (∀ (n : BitVec 48) (rest : List (BitVec 48)), (s.rel.exp.mode = .base ∨ s.rel.exp.mode = .delta) → s.drains = true →
      (s.queue s.rel.exp.queue).mode = .armed → (s.queue s.rel.exp.queue).free = true → s.rel.exp.openSteps = n :: rest →
      ∃ t : State, exec (.exportEntry true) s = .next t ∧ Only [.queues, .tel, .events, .exp] s t ∧ t.rel.exp.mode = .broken
        ∧ t.rel.exp.log = [] ∧ t.rel.exp.logging = false ∧ Raised 0x7403 0 s t)

/-- R108, R113, R114, R118, R119, R121, R127: an MMA initialises its slot or goes on in it, takes every pass and chunk into each
entry, counts its saturated splits, and leaves every other slot; CLEAR initialises a slot.
Completion: mma, clear. -/
def Obligations.MatrixSlots : Prop :=
  ∀ (s : State) (m : StageId) (w : Bytes) (k : Nat),
    exec (.clear m w) s = .next { s with acc := NMap.insert s.acc (stageIx m * 32 + mSlot w) { anchor := mAnchor w } }
    ∧ (mmaInRange w = true → mInit w = true ∨ (s.slot m (mSlot w)).anchor = mAnchor w →
      ∃ t : State, exec (.mma m w none) s = .next t ∧ Only [.acc, .watch] s t ∧ t.events = s.events
        ∧ (∀ n : StageId, k < 32 → n ≠ m ∨ k ≠ mSlot w → t.slot n k = s.slot n k)
        ∧ (t.slot m (mSlot w)).anchor = mAnchor w
        ∧ (t.slot m (mSlot w)).chunks.toNat = min (2 ^ 32 - 1)
            ((if mInit w then 0 else (s.slot m (mSlot w)).chunks.toNat) + 8192 * mPasses w * (mChunks w).length)
        ∧ ∀ i, i < 8192 → (t.slot m (mSlot w)).entry i =
            (List.range (mPasses w)).foldl (fun x pass => (mChunks w).foldl (fun x ch =>
              (x.addChunk (s.mmaChunk m w pass (i / 64) (i % 64) ch.1 ch.2) (mAdjust w)).1) x)
              (if mInit w then { anchor := mAnchor w } else (s.slot m (mSlot w)).entry i))
    ∧ (mmaInRange w = true → mInit w = false → (s.slot m (mSlot w)).anchor ≠ mAnchor w →
      ∃ t : State, exec (.mma m w none) s = .next t ∧ Only [.acc, .watch, .tel, .events] s t ∧ Raised 0x2203 (stageUnit m) s t
        ∧ (t.slot m (mSlot w)).anchor = (s.slot m (mSlot w)).anchor
        ∧ ∀ i, i < 8192 → ((t.slot m (mSlot w)).entry i).nan = true)
    ∧ (∀ u : UnitId, mmaInRange w = true →
      ∃ t : State, exec (.mma m w none) s = .next t ∧ exec (.mma m w (some u)) s = .next (t.checkFault (unitCode u)))

/-- R126, R127: STORE and STATUS write the slot to the tile store and nothing else; JOIN adds a stored tile into its slot.
Completion: join, store, status. -/
def Obligations.StoreAndJoin : Prop :=
  ∀ (s : State) (m : StageId) (w : Bytes) (k : Nat), s.Sound →
    (tileRange (mAddr w) 197120 = true →
      ∃ t : State, exec (.store m w) s = .next t ∧ Only [.tiles] s t
        ∧ t.tileRead m.tile.val (mAddr w) 197120 = (s.slot m (mSlot w)).stored
        ∧ s.tilesKept t m.tile.val (mAddr w) 197120)
    ∧ (tileRange (mAddr w) 16 = true →
      ∃ t : State, exec (.status m w) s = .next t ∧ Only [.tiles] s t
        ∧ t.tileRead m.tile.val (mAddr w) 16 = leBytes 2 (s.slot m (mSlot w)).anchor.toNat
            ++ leBytes 2 (b2n (s.slot m (mSlot w)).ovf) ++ leBytes 4 (s.slot m (mSlot w)).loss.toNat
            ++ leBytes 4 (s.slot m (mSlot w)).chunks.toNat ++ leBytes 4 0
        ∧ s.tilesKept t m.tile.val (mAddr w) 16)
    ∧ (tileRange (mAddr w) 197120 = true →
      ∃ t : State, exec (.join m w) s = .next t ∧ Only [.acc, .tel, .events] s t
        ∧ (∀ n : StageId, k < 32 → n ≠ m ∨ k ≠ mSlot w → t.slot n k = s.slot n k)
        ∧ (∀ i, i < 8192 → (t.slot m (mSlot w)).entry i =
            (((s.slot m (mSlot w)).entry i).join (AccEntry.decode (s.tileRead m.tile.val (mAddr w + 24 * i) 24))).1)
        ∧ (t.slot m (mSlot w)).loss = satAdd (s.slot m (mSlot w)).loss (leNat (s.tileRead m.tile.val (mAddr w + 196612) 4))
        ∧ (t.slot m (mSlot w)).chunks = satAdd (s.slot m (mSlot w)).chunks (leNat (s.tileRead m.tile.val (mAddr w + 196616) 4))
        ∧ ((∀ i, i < 8192 → ((s.slot m (mSlot w)).entry i).anchor =
              (AccEntry.decode (s.tileRead m.tile.val (mAddr w + 24 * i) 24)).anchor) → t.events = s.events)
        ∧ ((∃ i, i < 8192 ∧ ((s.slot m (mSlot w)).entry i).anchor ≠
              (AccEntry.decode (s.tileRead m.tile.val (mAddr w + 24 * i) 24)).anchor) → Raised 0x2203 (stageUnit m) s t))

/-- R130: READ writes the 8,192 results contiguously from ADDR, reports LOSS and CHUNKS to the watch, and raises ACC_OVF or ACC_LOSS
once per slot per step; the slot is not changed.
Completion: read. -/
def Obligations.ReadSlot : Prop :=
  ∀ (s : State) (m : StageId) (w : Bytes), s.Sound → tileRange (mAddr w) (8192 * ((readFmt w).width / 8)) = true →
    ∃ t : State, exec (.read m w) s = .next t ∧ Only [.stats, .tel, .tiles, .watch, .events] s t
      ∧ t.tileRead m.tile.val (mAddr w) (8192 * ((readFmt w).width / 8)) = elementBytes ((readFmt w).width / 8)
          ((List.range 8192).map (fun i => (readEntry ((s.slot m (mSlot w)).entry i) (readFmt w)
            (s.roundingOf (bits 6 4 (mWord w 1)) (bits 31 16 (mWord w 1)) (mWord w 2 + i / 64 * mKLen w + i % 64) 0 false)
            (bit 7 (mWord w 1)) (bits 15 0 (mWord w 5)) (bits 31 16 (mWord w 5)) (signedOf 8 (bits 15 8 (mWord w 1)))).1))
      ∧ s.tilesKept t m.tile.val (mAddr w) (8192 * ((readFmt w).width / 8))
      ∧ (t.watchOf (s.tensorKey (bits 31 16 (mWord w 1)))).counts.accLoss =
          satAdd (s.watchOf (s.tensorKey (bits 31 16 (mWord w 1)))).counts.accLoss (s.slot m (mSlot w)).loss.toNat
      ∧ (t.watchOf (s.tensorKey (bits 31 16 (mWord w 1)))).counts.accChunks =
          satAdd (s.watchOf (s.tensorKey (bits 31 16 (mWord w 1)))).counts.accChunks (s.slot m (mSlot w)).chunks.toNat
      ∧ ((s.slot m (mSlot w)).ovf = false → (s.slot m (mSlot w)).chunks.toNat ≥ 1024 * (s.slot m (mSlot w)).loss.toNat →
          t.events = s.events)
      ∧ ((s.slot m (mSlot w)).ovf = true → (s.slot m (mSlot w)).chunks.toNat ≥ 1024 * (s.slot m (mSlot w)).loss.toNat →
          s.events.once.contains (0x2201, stageIx m * 32 + mSlot w) = false → Raised 0x2201 (stageUnit m) s t)
      ∧ ((s.slot m (mSlot w)).ovf = false → (s.slot m (mSlot w)).chunks.toNat < 1024 * (s.slot m (mSlot w)).loss.toNat →
          s.events.once.contains (0x2202, stageIx m * 32 + mSlot w) = false → Raised 0x2202 (stageUnit m) s t)

/-- R120, R126, R131: 24 bytes spell an entry and are read back as it; a stored tile joined into a slot initialised with its anchor
gives back the slot; an exact partial expands to the stored tile. -/
def Obligations.StoredForms : Prop :=
  (∀ x : AccEntry, x.encode.length = 24 ∧ AccEntry.decode x.encode = x)
  ∧ (∀ x : Slot, x.stored.length = 197120 ∧ ∀ i, i < 8192 → slice x.stored (24 * i) 24 = (x.entry i).encode)
  ∧ (∀ x : Slot, (∀ i, i < 8192 → (x.entry i).anchor = x.anchor) →
      (storedSlot x.stored).2 = false ∧ (storedSlot x.stored).1.anchor = x.anchor
      ∧ (storedSlot x.stored).1.loss = x.loss ∧ (storedSlot x.stored).1.chunks = x.chunks
      ∧ ∀ i, i < 8192 → (storedSlot x.stored).1.entry i = x.entry i)
  ∧ (∀ x : Slot, x.partialBytes.length = 168448
      ∧ ((∀ i, i < 8192 → (x.entry i).anchor = x.anchor) → expandPartial x.partialBytes = x.stored))

/-- R128: a reduction split at chunk boundaries and joined in any order gives the entry of the unsplit reduction, when OVF is clear in
every part and in both results. -/
def Obligations.SplitGuarantee : Prop :=
  ∀ (a : BitVec 10) (parts order : List (List (Chunk × Int))), order.Perm parts →
    (∀ p ∈ parts, (p.foldl (fun x c => (x.addChunk c.1 c.2).1) ({ anchor := a } : AccEntry)).ovf = false) →
    (parts.flatten.foldl (fun x c => (x.addChunk c.1 c.2).1) ({ anchor := a } : AccEntry)).ovf = false →
    ((order.map (fun p => p.foldl (fun x c => (x.addChunk c.1 c.2).1) ({ anchor := a } : AccEntry))).foldl
      (fun x y => (x.join y).1) ({ anchor := a } : AccEntry)).ovf = false →
    (order.map (fun p => p.foldl (fun x c => (x.addChunk c.1 c.2).1) ({ anchor := a } : AccEntry))).foldl
      (fun x y => (x.join y).1) ({ anchor := a } : AccEntry)
    = parts.flatten.foldl (fun x c => (x.addChunk c.1 c.2).1) ({ anchor := a } : AccEntry)

/-- R79, R82, R95, R133, R134, R135: an elementwise operation, a conversion and a row operation write their results at the destination, binary64
in the stage's registers and every other format in the tile store, and nothing else there; what the stage does not provide has no meaning;
the special inputs of the functions, and the canonical NaN for a NaN.
Completion: vectorOperation, rowOperation. -/
def Obligations.VectorStage : Prop :=
  (∀ (s : State) (l : LineId), s.Sound →
      (∀ i : VecInstr, vecProvided i = true → vecInRange i = true → i.op ≠ .convert → i.src = 2 →
        ∃ t : State, exec (.vectorOperation l i none) s = .next t ∧ Only [.tiles, .watch] s t
          ∧ t.tileRead l.tile.val i.d (4 * i.n) = elementBytes 4
              ((List.range i.n).map (fun j => (vecElem i.op binary32 (Rounding.ofField i.rm)
                ((elements 4 i.n (s.tileRead l.tile.val i.a (4 * i.n))).getD j 0)
                ((elements 4 i.n (s.tileRead l.tile.val i.b (4 * i.n))).getD j 0)
                ((elements 4 i.n (s.tileRead l.tile.val i.c (4 * i.n))).getD j 0)).1))
          ∧ s.tilesKept t l.tile.val i.d (4 * i.n))
      ∧ (∀ i : VecInstr, vecProvided i = true → vecInRange i = true → i.op ≠ .convert → i.src = 1 →
        ∃ t : State, exec (.vectorOperation l i none) s = .next t ∧ Only [.lines, .watch] s t
          ∧ (∀ j, j < i.n → t.vecReg l (i.d + j) = (vecElem i.op binary64 (Rounding.ofField i.rm)
                (s.vecReg l (i.a + j)) (s.vecReg l (i.b + j)) (s.vecReg l (i.c + j))).1 % 2 ^ 64)
          ∧ (∀ r, r < i.d ∨ i.d + i.n ≤ r → t.vecReg l r = s.vecReg l r))
      ∧ (∀ (i : VecInstr) (f g : Fmt), vecProvided i = true → vecInRange i = true → i.op = .convert → Fmt.ofCode i.src = some f →
        Fmt.ofCode i.dst = some g → i.src ≠ 1 → i.dst ≠ 1 →
        ∃ t : State, exec (.vectorOperation l i none) s = .next t ∧ Only [.tiles, .watch] s t
          ∧ t.tileRead l.tile.val i.d (g.width / 8 * i.n) = elementBytes (g.width / 8)
              (((elements (f.width / 8) i.n (s.tileRead l.tile.val i.a (f.width / 8 * i.n))).zipIdx).map (fun p =>
                (((decodeNum f p.1).scale (s.vecScale i)).round g (s.vecRounding i p.2) i.ovfInf).1))
          ∧ s.tilesKept t l.tile.val i.d (g.width / 8 * i.n))
      ∧ (∀ i : VecInstr, vecProvided i = true → vecInRange i = true → i.op = .convert → i.src = 1 →
        ∃ t : State, exec (.vectorOperation l i none) s = .next t ∧ Only [.tiles, .watch] s t
          ∧ t.tileRead l.tile.val i.d (4 * i.n) = elementBytes 4 ((List.range i.n).map (fun j =>
              ((decodeNum binary64 (s.vecReg l (i.a + j))).round binary32 (Rounding.ofField i.rm) i.ovfInf).1))
          ∧ s.tilesKept t l.tile.val i.d (4 * i.n))
      ∧ (∀ i : VecInstr, vecProvided i = true → vecInRange i = true → i.op = .convert → i.dst = 1 →
        ∃ t : State, exec (.vectorOperation l i none) s = .next t ∧ Only [.lines, .watch] s t
          ∧ ∀ j, j < i.n → t.vecReg l (i.d + j) =
              ((decodeNum binary32 ((elements 4 i.n (s.tileRead l.tile.val i.a (4 * i.n))).getD j 0)).round binary64 (s.vecRounding i j) i.ovfInf).1 % 2 ^ 64)
      ∧ (∀ (i : VecInstr) (x : Loaded) (w : Written), vecProvided i = true → vecInRange i = true → i.op = .convert →
        s.loadValues l i.src i.a i.aux i.stream i.elemBase i.n = x → x.skew = false →
        writeValues i.dst 0 i.aux (s.vecScale i) i.ovfInf x.values (s.vecRounding i) = w →
        (7 ≤ i.dst ∨ 6 ≤ i.src →
          ∃ t : State, exec (.vectorOperation l i none) s = .next t ∧ Only [.tiles, .watch, .tel, .events] s t
            ∧ t.tileRead l.tile.val i.d w.bytes.length = w.bytes ∧ s.tilesKept t l.tile.val i.d w.bytes.length)
        ∧ (i.dst = 6 → i.lastBlocks = false → i.d + w.bytes.length ≤ i.aux ∨ i.aux + w.scales.length ≤ i.d →
          ∃ t : State, exec (.vectorOperation l i none) s = .next t ∧ Only [.tiles, .watch, .tel, .events] s t
            ∧ t.tileRead l.tile.val i.d w.bytes.length = w.bytes ∧ t.tileRead l.tile.val i.aux w.scales.length = w.scales))
      ∧ (∀ i : VecInstr, vecProvided i = false → ∀ c : Check, exec (.vectorOperation l i c) s = .refused .notProvided)
      ∧ (∀ i : RowInstr, rowInRange i = true → i.wide = false →
        ∃ t : State, exec (.rowOperation l i) s = .next t ∧ Only [.tiles, .watch] s t
          ∧ t.tileRead l.tile.val i.d 4 = leBytes 4
              (rowFold i.kind binary32 (Rounding.ofField i.rm)
                (elements 4 i.n (s.tileRead l.tile.val i.a (4 * i.n))) (elements 4 i.n (s.tileRead l.tile.val i.b (4 * i.n)))).1
          ∧ s.tilesKept t l.tile.val i.d 4)
      ∧ (∀ i : RowInstr, i.wide = true →
        ∃ t : State, exec (.rowOperation l i) s = .next t ∧ Only [.lines, .watch] s t
          ∧ t.vecReg l i.d = (rowFold i.kind binary64 (Rounding.ofField i.rm) ((List.range i.n).map (fun j => s.vecReg l (i.a + j)))
              ((List.range i.n).map (fun j => s.vecReg l (i.b + j)))).1 % 2 ^ 64
          ∧ ∀ r, r ≠ i.d → t.vecReg l r = s.vecReg l r)
      ∧ (∀ (i : VecInstr) (u : UnitId), vecProvided i = true → vecInRange i = true →
        ∃ t : State, exec (.vectorOperation l i none) s = .next t ∧ exec (.vectorOperation l i (some u)) s = .next (t.checkFault (unitCode u))))
  ∧ (∀ f : VecFn, (vecFn f 0x7FC00000).1 = 0x7FC00000 ∧ (vecFn f 0xFF800001).1 = 0x7FC00000)
  ∧ (vecFn .exp2 0xFF800000).1 = 0 ∧ (vecFn .exp2 0x7F800000).1 = 0x7F800000
  ∧ (vecFn .exp 0xFF800000).1 = 0 ∧ (vecFn .exp 0x7F800000).1 = 0x7F800000
  ∧ (∀ f : VecFn, f = .log2 ∨ f = .log → ∀ z : Nat, z = 0 ∨ z = 0x80000000 →
      (vecFn f z).1 = 0xFF800000 ∧ (vecFn f z).2.divZero = true)
  ∧ (∀ f : VecFn, f = .log2 ∨ f = .log → (vecFn f 0xC0000000).1 = 0x7FC00000 ∧ (vecFn f 0xC0000000).2.invalid = true
      ∧ (vecFn f 0x7F800000).1 = 0x7F800000)
  ∧ (∀ f : VecFn, f = .tanh ∨ f = .erf → (vecFn f 0x7F800000).1 = 0x3F800000 ∧ (vecFn f 0xFF800000).1 = 0xBF800000
      ∧ (vecFn f 0).1 = 0 ∧ (vecFn f 0x80000000).1 = 0x80000000)
  ∧ (vecFn .sigmoid 0xFF800000).1 = 0 ∧ (vecFn .sigmoid 0x7F800000).1 = 0x3F800000

/-- R224, R231, R232, R233: a query row's running state over its sub-blocks in combine order, its outputs, what it keeps for phase 4, and
its query gradient; the slots that the command names hold its products and no other slot changes. The part of a binary32 operand that the
backward pass multiplies is the model's choice (log 40).
Completion: attend, attendBack. -/
def Obligations.AttentionRows : Prop :=
  ∀ (s : State) (l : LineId) (i : AttendInstr), s.Sound →
    (attendInRange i false = true →
      ∃ t : State, exec (.attend l i) s = .next t ∧ Only [.acc, .tiles, .attn, .stats, .tel, .watch, .events] s t
        ∧ NMap.getD t.attn i.row {} = (combineOrder i).foldl (fun r b => (s.attendSub l.tile.val i r b).1)
            { m := 0xFF800000, l := 0, o := List.replicate i.dh 0 }
        ∧ (∀ r, r ≠ i.row → NMap.getD t.attn r {} = NMap.getD s.attn r {})
        ∧ (∀ (n : StageId) (k : Nat), k < 32 → n ≠ attendStage l i ∨ k ≠ i.slot.val → t.slot n k = s.slot n k)
        ∧ t.tileRead l.tile.val i.out (4 * i.dh) = elementBytes 4 ((NMap.getD t.attn i.row {}).o.map (fun x =>
            (fDiv binary32 .rne x.toNat (NMap.getD t.attn i.row {}).l.toNat).1))
        ∧ (i.kept + 8 ≤ i.out ∨ i.out + 4 * i.dh ≤ i.kept → t.tileRead l.tile.val i.kept 8 =
            leBytes 4 (NMap.getD t.attn i.row {}).m.toNat ++ leBytes 4 (NMap.getD t.attn i.row {}).l.toNat)
        ∧ ∀ a, (a < tileAddr l.tile.val i.out ∨ tileAddr l.tile.val i.out + 4 * i.dh ≤ a) →
            (a < tileAddr l.tile.val i.kept ∨ tileAddr l.tile.val i.kept + 8 ≤ a) → Memory.read t.mem.tiles a = Memory.read s.mem.tiles a)
    ∧ (attendInRange i true = true →
      ∃ t : State, exec (.attendBack l i) s = .next t ∧ Only [.acc, .tiles, .stats, .tel, .watch, .events] s t
        ∧ t.tileRead l.tile.val i.dq (4 * i.dh) = elementBytes 4
            ((readRows (s.dqOf l.tile.val i (s.attnGrads l.tile.val i).1) i.dh i.smScale.toNat).map (·.1))
        ∧ t.slot (attendStage l i) i.dqSlot.val = s.dqOf l.tile.val i (s.attnGrads l.tile.val i).1
        ∧ (∀ (n : StageId) (k : Nat), k < 32 → n ≠ attendStage l i ∨ (k ≠ i.slot.val ∧ k ≠ i.dqSlot.val) → t.slot n k = s.slot n k)
        ∧ ((∀ b ∈ i.subs, b.block.isSome = true) → s.tilesKept t l.tile.val i.dq (4 * i.dh)))

/-- R377, R381 to R384: a check fault raises CHECK_FAULT and is counted against its unit; the first of a step in phases 1 to 6 starts
the local replay, a second one makes the step suspect, in phase 7 the job goes on, and a second one of the evaluation slot fails its work. -/
def Obligations.CheckFaults : Prop :=
  ∀ (s : State) (u : Half),
    (s.jobRuns = true → s.inEvaluation = false → 1 ≤ s.phase → s.phase ≤ 6 → s.seq.replay.running = false → s.seq.replay.count = 0 →
      s.replayNeed s.phase ≤ s.reserveLeft → (s.unit u).countedIn = some s.seq.step →
      (s.checkFault u).seq.replay.running = true ∧ (s.checkFault u).seq.replay.count = 1
      ∧ (s.checkFault u).seq.replay.phase = s.phase ∧ (s.checkFault u).seq.phases = { started := [1], ended := [] }
      ∧ (s.checkFault u).acc = [] ∧ (s.checkFault u).rel.replays = satAdd s.rel.replays 1
      ∧ (s.checkFault u).seq.excess = s.seq.excess
      ∧ (s.checkFault u).lastEvent = some 0x7102)
    ∧ (s.jobRuns = true → s.inEvaluation = false → 1 ≤ s.phase → s.phase ≤ 6 → 0 < s.seq.replay.count → s.seq.replay.suspect = false →
      (s.checkFault u).seq.replay.suspect = true ∧ (s.checkFault u).seq.replay.running = false
      ∧ (s.checkFault u).rel.suspects = satAdd s.rel.suspects 1)
    ∧ (s.inEvaluation = false → 7 ≤ s.phase →
      (s.checkFault u).seq = s.seq ∧ Only [.tel, .events, .ledger] s (s.checkFault u))
    ∧ (s.inEvaluation = true → s.seq.evalFaults = 0 → (s.checkFault u).seq.evalFaults = 1)
    ∧ (s.inEvaluation = true → 0 < s.seq.evalFaults → (s.checkFault u).lastEvent = some 0x7108)
    ∧ (s.jobRuns = true → (s.unit u).countedIn = some s.seq.step → 7 ≤ s.phase → s.inEvaluation = false →
      Raised 0x7101 u s (s.checkFault u) ∧ (s.checkFault u).rel = s.rel)

/-- R286, R156, R158, R165, R226, R228: SEND puts its message on the way, and ALL_TO_ALL sends each list, row message, partial or
append to its module once.
Completion: send, allToAll. -/
def Obligations.MessagesSent : Prop :=
  ∀ (s : State),
    (∀ (dst : BitVec 12) (kind : Nat) (body : Bytes),
      (∃ t : State, exec (.send dst kind body) s = .next t ∧ Only [.out, .stats, .pen, .conns] s t
        ∧ (s.out ++ [.message dst.toNat kind body]) <+: t.out)
      ∧ (dst.toNat / 8 ≠ s.me / 8 → s.planesTo dst.toNat = [] →
        exec (.send dst kind body) s = .next { s with out := s.out ++ [.message dst.toNat kind body] })
      ∧ (∀ k, dst.toNat / 8 = s.me / 8 → s.engineTo (dst.toNat % 8) = some k → (s.pen k).retraining = false → (s.pen k).waiting = [] →
        s.confidential = false → body.length ≤ 508 → kind ≠ MsgKind.decision.code → kind ≠ MsgKind.timeTransfer.code →
        ∃ t : State, exec (.send dst kind body) s = .next t ∧ t.out = s.out ++ [.message dst.toNat kind body,
          .penFlit k (flitBytes 2 1 (s.pen k).nextSeq.toNat ((s.pen k).expect - 1).toNat (s.pen k).freed
            (leBytes 2 kind ++ leBytes 2 body.length ++ body))]))
    ∧ (s.phase = 0 → exec (.allToAll .sendLists) s = .next s ∧ exec (.allToAll .userLists) s = .next s)
    ∧ (∀ o, s.phase ≠ 0 → s.modules.filter (fun o => s.firstHop o != s.me) = [o] → s.unsent (s.firstHop o) .sendList o →
      ∃ t : State, exec (.allToAll .sendLists) s = .next t
        ∧ SentMessage (s.firstHop o) .sendList o (listBody (s.sendList o)) s t)
    ∧ (∀ h m, s.phase ≠ 0 → s.histSets = [h] → s.penPeers = [m] → s.unsent m .userList (field h 0 2) →
      ∃ t : State, exec (.allToAll .userLists) s = .next t
        ∧ SentMessage m .userList (field h 0 2) (userListBody (s.userList h)) s t)
    ∧ (∀ l, s.inEvaluation = false → 2 ∈ s.seq.phases.started → s.proxyFor = [] → s.listsFor s.me = [l] → s.unsent l.1 .rows s.me →
      ∃ t : State, exec (.allToAll .rows) s = .next t ∧ SentMessage l.1 .rows s.me (rowsBody s.emb.now.rowBytes l.2) s t)
    ∧ (∀ o m, s.proxyFor = [o] → (s.inbox .partials).filter (fun m => m.src / 8 == s.me / 8 && m.num % 65536 == o) = [m] →
      s.unsent o .partials m.src → m.data ≠ [] →
      ∃ t : State, exec (.allToAll .partials) s = .next t ∧ SentMessage o .partials m.src m.data s t)
    ∧ (∀ m, 5 ∈ s.seq.phases.started → s.histSets ≠ [] → s.penPeers = [m] → s.unsent m .append 0 →
      ∃ t : State, exec (.allToAll .appends) s = .next t
        ∧ t.hist = { s.hist with appends := s.ownAppends.filter (fun a => a.holder s.penSize == s.penPos) }
        ∧ SentMessage m .append 0 (appendsBody (s.ownAppends.filter (fun a => a.holder s.penSize == m % 8))) { s with hist := t.hist } t)

/-- R131, R132, R288: the root of a dense tile waits for every partial and then leaves the reduced tile, read to binary32, in place; a
replica that is not the root sends its partial once, exactly or in binary32; ALL_GATHER places the root's tile.
Completion: reduce, allGather. -/
def Obligations.DenseReduction : Prop :=
  ∀ (s : State) (tensor t : Nat) (tile : Fin 32) (addr : Nat), s.Sound →
    (tileRange addr 197120 = true → s.hasTile tensor t = true → exec (.reduce tensor t tile addr) s = .next s)
    ∧ (tileRange addr 197120 = true → s.hasTile tensor t = false → s.replicaModule (t % s.replicas) = s.me → s.otherReplicas = [] →
      s.replica < s.replicas →
      ∃ u : State, exec (.reduce tensor t tile addr) s = .next u
        ∧ u.tileRead tile.val addr 32768 = elementBytes 4 (storedSlot (s.tileRead tile.val addr 197120)).1.binary32s
        ∧ s.tilesKept u tile.val addr 32768
        ∧ (∀ i, i < 8192 → NMap.find? u.emb.denseGrad (tensor * 2 ^ 53 + t * 8192 + i) =
            some (BitVec.ofNat 32 ((storedSlot (s.tileRead tile.val addr 197120)).1.binary32s.getD i 0))))
    ∧ (tileRange addr 197120 = true → s.hasTile tensor t = false → s.replicaModule (t % s.replicas) = s.me →
      (∃ r ∈ s.otherReplicas, s.nextFrom (s.replicaModule r) .reduce = none) →
      exec (.reduce tensor t tile addr) s = .next { s with fab.reducing := (tensor, t) :: s.fab.reducing.filter (fun e => e != (tensor, t)) })
    ∧ (∀ n, tileRange addr 197120 = true → s.hasTile tensor t = false → s.replicaModule (t % s.replicas) ≠ s.me →
      s.fab.reducing.contains (tensor, t) = false →
      NMap.getD s.fab.sentNo (countKey (s.replicaModule (t % s.replicas)) .reduce) 0 = n →
      s.unsent (s.replicaModule (t % s.replicas)) .reduce n →
      ∃ u : State, exec (.reduce tensor t tile addr) s = .next u
        ∧ u.fab.sendLog = s.fab.sendLog ++ sendEntries (s.replicaModule (t % s.replicas)) .reduce n
            (if s.exactReduce then plainUnits (storedSlot (s.tileRead tile.val addr 197120)).1.partialBytes
             else plainUnits (elementBytes 4 (storedSlot (s.tileRead tile.val addr 197120)).1.binary32s
               ++ slice (s.tileRead tile.val addr 197120) 196608 512))
        ∧ u.fab.sendLog.length = s.fab.sendLog.length + (if s.exactReduce then 329 else 65)
        ∧ u.mem = s.mem)
    ∧ (∀ m, tileRange addr 32768 = true → s.replicaModule (t % s.replicas) ≠ s.me →
      s.nextFrom (s.replicaModule (t % s.replicas)) .allGather = some m → m.data.length = 32768 →
      ∃ u : State, exec (.allGather tensor t tile addr) s = .next u ∧ Only [.tiles, .emb, .msgs] s u
        ∧ u.tileRead tile.val addr 32768 = elementBytes 4 (elements 4 8192 m.data)
        ∧ s.tilesKept u tile.val addr 32768
        ∧ NMap.getD u.fab.gotNo (countKey (s.replicaModule (t % s.replicas)) .allGather) 0 =
            NMap.getD s.fab.gotNo (countKey (s.replicaModule (t % s.replicas)) .allGather) 0 + 1)
    ∧ (tileRange addr 32768 = true → s.replicaModule (t % s.replicas) ≠ s.me →
      s.nextFrom (s.replicaModule (t % s.replicas)) .allGather = none → exec (.allGather tensor t tile addr) s = .next s)
    ∧ (∀ r n, tileRange addr 32768 = true → s.replicaModule (t % s.replicas) = s.me → s.fab.reducing.contains (tensor, t) = false →
      s.otherReplicas = [r] → NMap.getD s.fab.sentNo (countKey (s.replicaModule r) .allGather) 0 = n →
      s.unsent (s.replicaModule r) .allGather n →
      ∃ u : State, exec (.allGather tensor t tile addr) s = .next u ∧ Only [.out, .stats, .pen, .conns, .msgs] s u
        ∧ u.fab.sendLog = s.fab.sendLog ++ sendEntries (s.replicaModule r) .allGather n (plainUnits (s.tileRead tile.val addr 32768))
        ∧ NMap.getD u.fab.sentNo (countKey (s.replicaModule r) .allGather) 0 = n + 1)

/-- R95, R102, R286, R289: GATHER copies a YF16 shard unchanged, widens an 8-bit one to YF16, and places an activation that arrives.
Completion: gather. -/
def Obligations.ShardCopies : Prop :=
  ∀ (s : State) (c : ShardCopy), s.Sound → c.fromHbm = false → tileRange c.dst (2 * c.n) = true → c.toModule = none →
    (c.fromModule = none → c.fmt = 3 → c.src + 2 * c.n ≤ tileBytes →
      ∃ t : State, exec (.gather c) s = .next t ∧ Only [.tiles] s t
        ∧ t.tileRead c.dstTile.val c.dst (2 * c.n) = s.tileRead c.srcTile.val c.src (2 * c.n)
        ∧ s.tilesKept t c.dstTile.val c.dst (2 * c.n))
    ∧ (c.fromModule = none → c.fmt = 4 ∨ c.fmt = 5 → c.src + c.n ≤ tileBytes →
      ∃ t : State, exec (.gather c) s = .next t ∧ Only [.tiles] s t
        ∧ t.tileRead c.dstTile.val c.dst (2 * c.n) = elementBytes 2 ((elements 1 c.n (s.tileRead c.srcTile.val c.src c.n)).map (fun e =>
            (convert (if c.fmt = 4 then yf8e4 else yf8e5) yf16 .rne false 0 e).1))
        ∧ s.tilesKept t c.dstTile.val c.dst (2 * c.n))
    ∧ (c.fromModule = none → c.fmt = 6 → c.src + c.n ≤ tileBytes → c.srcScale + c.n / 32 ≤ tileBytes → c.n ≤ 512 →
      s.tileTag c.srcTile.val c.src = (ys8Tags c.stream c.firstBlock).1 → s.tileTag c.srcTile.val c.srcScale = (ys8Tags c.stream c.firstBlock).2 →
      c.src % 512 = 0 → c.srcScale % 512 = 0 → poisonedScales (s.tileRead c.srcTile.val c.srcScale 16) (ceilDiv c.n 32) = 0 →
      ∃ t : State, exec (.gather c) s = .next t ∧ Only [.tiles] s t
        ∧ t.tileRead c.dstTile.val c.dst (2 * c.n) = elementBytes 2 ((widenYs8 true (s.tileRead c.srcTile.val c.srcScale 16)
            (s.tileRead c.srcTile.val c.src 512)).take c.n))
    ∧ (∀ m x, c.fromModule = some m → s.nextFrom m.toNat .activation = some x →
      ∃ t : State, exec (.gather c) s = .next t ∧ Only [.tiles, .msgs] s t
        ∧ t.tileRead c.dstTile.val c.dst (2 * c.n) = slice x.data 0 (2 * c.n)
        ∧ s.tilesKept t c.dstTile.val c.dst (2 * c.n)
        ∧ NMap.getD t.fab.gotNo (countKey m.toNat .activation) 0 = NMap.getD s.fab.gotNo (countKey m.toNat .activation) 0 + 1)
    ∧ (∀ m, c.fromModule = some m → s.nextFrom m.toNat .activation = none → exec (.gather c) s = .next s)

/-- R216, R229, R230: a block without window positions moves nothing; its holder sends it p positions on when its turn has come; the receiver consumes it and
widens each check block whose tags stand.
Completion: ringPass. -/
def Obligations.HistoryPasses : Prop :=
  ∀ (s : State) (p : Fin 8) (set user layer block : Nat) (tile : Fin 32) (addr : Nat) (h : Bytes), s.Sound →
    s.histSet set = some h → tileRange addr (2048 * hWidth h) = true →
    (s.windowPositions h user block = 0 → exec (.ringPass p set user layer block tile addr) s = .next s)
    ∧ (s.windowPositions h user block ≠ 0 → holderOf s.penSize user block = s.penPos → p.val ≠ 0 →
      s.ringNext p.val [layer, field h 0 2, user, block] = none → exec (.ringPass p set user layer block tile addr) s = .next s)
    ∧ (∀ n k, s.windowPositions h user block ≠ 0 → holderOf s.penSize user block = s.penPos → p.val ≠ 0 →
      s.ringNext p.val [layer, field h 0 2, user, block] = some k →
      (s.ringRead h user layer block).1.fab = s.fab → (s.ringRead h user layer block).2 ≠ [] →
      (s.ringRead h user layer block).1.active = s.active →
      NMap.getD s.fab.sentNo (countKey (s.me / 8 * 8 + (s.penPos + p.val) % s.penSize) .ring) 0 = n →
      s.unsent (s.me / 8 * 8 + (s.penPos + p.val) % s.penSize) .ring n →
      ∃ t : State, exec (.ringPass p set user layer block tile addr) s = .next t
        ∧ t.fab.sendLog = s.fab.sendLog ++ sendEntries (s.me / 8 * 8 + (s.penPos + p.val) % s.penSize) .ring n
            (s.ringRead h user layer block).2
        ∧ NMap.getD t.fab.sentNo (countKey (s.me / 8 * 8 + (s.penPos + p.val) % s.penSize) .ring) 0 = n + 1
        ∧ t.hist.ringSent = NMap.insert (s.ringRead h user layer block).1.hist.ringSent p.val k
        ∧ t.mem.tiles = s.mem.tiles)
    ∧ (∀ m, s.windowPositions h user block ≠ 0 → holderOf s.penSize user block ≠ s.penPos →
      (holderOf s.penSize user block + p.val) % s.penSize = s.penPos →
      s.nextFrom (s.me / 8 * 8 + holderOf s.penSize user block) .ring = some m →
      (∀ v, v < 2 → ∀ i, i < ringBlocks h (s.windowPositions h user block) 0 →
        (m.tagged.getD (v * ringBlocks h (s.windowPositions h user block) 0 + i) ([], 0)).2 = partTag h s.penSize user block layer v i
        ∧ (m.tagged.getD (2 * ringBlocks h (s.windowPositions h user block) 0 + v * ringBlocks h (s.windowPositions h user block) 2 + i / 32) ([], 0)).2
            = partTag h s.penSize user block layer (2 + v) (i / 32)) →
      ∃ t : State, exec (.ringPass p set user layer block tile addr) s = .next t
        ∧ Only [.tel, .tiles, .watch, .msgs, .events] s t
        ∧ s.tilesKept t tile.val addr (2048 * hWidth h)
        ∧ NMap.getD t.fab.gotNo (countKey (s.me / 8 * 8 + holderOf s.penSize user block) .ring) 0 =
            NMap.getD s.fab.gotNo (countKey (s.me / 8 * 8 + holderOf s.penSize user block) .ring) 0 + 1
        ∧ ∀ v, v < 2 → ∀ i, i < ringBlocks h (s.windowPositions h user block) 0 →
            t.tileRead tile.val (addr + v * 1024 * hWidth h + 1024 * i) 1024 = elementBytes 2 (widenYs8 true
              (slice (m.tagged.getD (2 * ringBlocks h (s.windowPositions h user block) 0 + v * ringBlocks h (s.windowPositions h user block) 2 + i / 32)
                ([], 0)).1 (16 * (i % 32)) 16)
              (m.tagged.getD (v * ringBlocks h (s.windowPositions h user block) 0 + i) ([], 0)).1))
    ∧ (s.windowPositions h user block ≠ 0 → holderOf s.penSize user block ≠ s.penPos →
      (holderOf s.penSize user block + p.val) % s.penSize ≠ s.penPos →
      exec (.ringPass p set user layer block tile addr) s = .next s)

/-- R183, R191, R192, R194: a register operation of a churn gives the 32 lanes of D and nothing else.
Completion: add, sub, mul, fma, fms, rcp, rsq, max, min, neg, abs, mov, ceq, clt, cle, cun, sel, ldc, ldf, lds. -/
def Obligations.ChurnArithmetic : Prop :=
  ∀ (s : State) (c : CtxId) (d a b e : Fin 32) (rm : BitVec 2) (k : Fin 64) (j : Fin 4) (f : BitVec 4) (mf : Bool),
    (∃ t, exec (.add c d a b rm) s = .next t ∧
      LaneResult c d (fun l => (fAdd binary32 (Rounding.ofField rm) ((s.ctx c).reg a l) ((s.ctx c).reg b l)).1) s t)
    ∧ (∃ t, exec (.sub c d a b rm) s = .next t ∧
      LaneResult c d (fun l => (fSub binary32 (Rounding.ofField rm) ((s.ctx c).reg a l) ((s.ctx c).reg b l)).1) s t)
    ∧ (∃ t, exec (.mul c d a b rm) s = .next t ∧
      LaneResult c d (fun l => (fMul binary32 (Rounding.ofField rm) ((s.ctx c).reg a l) ((s.ctx c).reg b l)).1) s t)
    ∧ (∃ t, exec (.fma c d a b e rm) s = .next t ∧ LaneResult c d (fun l =>
      (fFma binary32 (Rounding.ofField rm) ((s.ctx c).reg a l) ((s.ctx c).reg b l) ((s.ctx c).reg e l)).1) s t)
    ∧ (∃ t, exec (.fms c d a b e rm) s = .next t ∧ LaneResult c d (fun l =>
      (fFms binary32 (Rounding.ofField rm) ((s.ctx c).reg a l) ((s.ctx c).reg b l) ((s.ctx c).reg e l)).1) s t)
    ∧ (∃ t, exec (.rcp c d a rm) s = .next t ∧
      LaneResult c d (fun l => (fDiv binary32 (Rounding.ofField rm) 0x3F800000 ((s.ctx c).reg a l)).1) s t)
    ∧ (∃ t, exec (.rsq c d a rm) s = .next t ∧
      LaneResult c d (fun l => (fRsqrt binary32 (Rounding.ofField rm) ((s.ctx c).reg a l)).1) s t)
    ∧ (∃ t, exec (.max c d a b) s = .next t ∧ LaneResult c d (fun l => (fMax binary32 ((s.ctx c).reg a l) ((s.ctx c).reg b l)).1) s t)
    ∧ (∃ t, exec (.min c d a b) s = .next t ∧ LaneResult c d (fun l => (fMin binary32 ((s.ctx c).reg a l) ((s.ctx c).reg b l)).1) s t)
    ∧ (∃ t, exec (.neg c d a) s = .next t ∧ LaneResult c d (fun l =>
        if (decodeNum binary32 ((s.ctx c).reg a l)).isNaN then 0x7FC00000
        else (s.ctx c).reg a l ^^^ 2 ^ 31) s t)
    ∧ (∃ t, exec (.abs c d a) s = .next t ∧ LaneResult c d (fun l =>
        if (decodeNum binary32 ((s.ctx c).reg a l)).isNaN then 0x7FC00000 else (s.ctx c).reg a l % 2 ^ 31) s t)
    ∧ (∃ t, exec (.mov c d a) s = .next t ∧ LaneResult c d (fun l => (s.ctx c).reg a l) s t)
    ∧ (∃ t, exec (.ceq c d a b) s = .next t ∧ LaneResult c d (fun l =>
        if (fCmp binary32 .eq ((s.ctx c).reg a l) ((s.ctx c).reg b l)).1 then 0x3F800000 else 0) s t)
    ∧ (∃ t, exec (.clt c d a b) s = .next t ∧ LaneResult c d (fun l =>
        if (fCmp binary32 .lt ((s.ctx c).reg a l) ((s.ctx c).reg b l)).1 then 0x3F800000 else 0) s t)
    ∧ (∃ t, exec (.cle c d a b) s = .next t ∧ LaneResult c d (fun l =>
        if (fCmp binary32 .le ((s.ctx c).reg a l) ((s.ctx c).reg b l)).1 then 0x3F800000 else 0) s t)
    ∧ (∃ t, exec (.cun c d a b) s = .next t ∧ LaneResult c d (fun l =>
        if (decodeNum binary32 ((s.ctx c).reg a l)).isNaN || (decodeNum binary32 ((s.ctx c).reg b l)).isNaN then 0x3F800000 else 0) s t)
    ∧ (∃ t, exec (.sel c d a b e) s = .next t ∧ LaneResult c d (fun l =>
        if (s.ctx c).reg e l ≠ 0 then (s.ctx c).reg a l else (s.ctx c).reg b l) s t)
    ∧ (∃ t, exec (.ldc c d k) s = .next t ∧ LaneResult c d (fun _ => s.constant (lineIx (ctxLine c)) (s.ctxProgram c) k) s t)
    ∧ (∃ t, exec (.lds c d j) s = .next t ∧ LaneResult c d (fun _ => (NMap.getD (s.ctx c).acc j 0).toNat) s t)
    ∧ (∀ it, (s.ctx c).item = some it → ∃ t, exec (.ldf c d f mf) s = .next t ∧ LaneResult c d (fun l =>
        if l < (s.ctx c).activeLanes then (s.fieldLane (s.ctx c) it f.toNat mf l).1 else 0) s t)

/-- R180, R192 to R196, R202: stores to a stage or a record field, reductions, the scale pair, the lanes for the watch sums and the
working copy, which leaves with the record as it will be stored.
Completion: stf, red, qprep, wacc, wcopy, sect, churnNop. -/
def Obligations.ChurnStores : Prop :=
  ∀ (s : State) (c : CtxId) (it : SweepItem), (s.ctx c).item = some it →
    exec (.churnNop c) s = .next s
    ∧ (∀ (f : BitVec 4) (mf : Bool) (a : Fin 32) (rm : BitVec 2), f = 6 ∨ f = 7 →
      ∃ t : State, exec (.stf c f mf a rm) s = .next t ∧ Only [.churns] s t
        ∧ (∀ l, l < (s.ctx c).activeLanes → NMap.find? (if f = 6 then (t.ctx c).stage0 else (t.ctx c).stage1) (32 * (s.ctx c).block + l) =
            some (BitVec.ofNat 32 ((s.ctx c).reg a l)))
        ∧ (t.ctx c).v = (s.ctx c).v ∧ (t.ctx c).new = (s.ctx c).new)
    ∧ (∀ (mf : Bool) (a : Fin 32) (rm : BitVec 2) (tv : TableVer), s.itemTable it = some tv →
      ∃ t : State, exec (.stf c 5 mf a rm) s = .next t ∧ Only [.churns] s t
        ∧ (t.ctx c).new = splice (s.ctx c).new 4 (leBytes 4 ((s.ctx c).reg a 0)) ∧ (t.ctx c).v = (s.ctx c).v)
    ∧ (∀ (f : BitVec 4) (mf : Bool) (a : Fin 32) (rm : BitVec 2) (r : Stored), f ≠ 6 → f ≠ 7 →
      s.storeField (s.ctx c) it f.toNat mf ((s.ctx c).lanes a) rm = some r →
      ∃ t : State, exec (.stf c f mf a rm) s = .next t ∧ Only [.churns] s t
        ∧ t.ctx c = { s.ctx c with new := r.new, poison := (s.ctx c).poison || r.poison, tally := (s.ctx c).tally ++ [r.tally it] })
    ∧ (∀ (kind : BitVec 2) (a : Fin 32) (k : Fin 4) (rm : BitVec 2), 0 < (s.ctx c).activeLanes →
      ∃ (t : State) (v : Word), exec (.red c kind a k rm) s = .next t ∧ Only [.churns] s t
        ∧ NMap.find? (t.ctx c).acc k = some v
        ∧ (∀ j, j ≠ k.val → NMap.find? (t.ctx c).acc j = NMap.find? (s.ctx c).acc j)
        ∧ (kind = 0 → NMap.find? (s.ctx c).acc k = none → (s.ctx c).activeLanes = 2 →
            v = BitVec.ofNat 32 (fAdd binary32 (Rounding.ofField rm) ((s.ctx c).reg a 0) ((s.ctx c).reg a 1)).1)
        ∧ (kind = 3 → NMap.find? (s.ctx c).acc k = none → (s.ctx c).activeLanes = 2 →
            v = BitVec.ofNat 32 (fFma binary32 (Rounding.ofField rm) ((s.ctx c).reg a 1) ((s.ctx c).reg a 1)
              (fMul binary32 (Rounding.ofField rm) ((s.ctx c).reg a 0) ((s.ctx c).reg a 0)).1).1))
    ∧ (∀ (i j : Fin 4), ∃ t : State, exec (.qprep c i j) s = .next t ∧ Only [.churns] s t ∧ (t.ctx c).qprep = true
        ∧ (∀ p, qprepPair (((s.itemTable it).map (·.codeBits)).getD 8) (NMap.find? (s.ctx c).acc i) (NMap.find? (s.ctx c).acc j) = some p →
            (t.ctx c).new = splice (s.ctx c).new 0 (leBytes 2 p.1 ++ leBytes 2 p.2.1) ∧ (t.ctx c).poison = (s.ctx c).poison)
        ∧ (NMap.find? (s.ctx c).acc i = none ∨ NMap.find? (s.ctx c).acc j = none →
            (t.ctx c).poison = true ∧ (t.ctx c).new = splice (s.ctx c).new 0 (leBytes 2 0x7FC0 ++ leBytes 2 0x7FC0)))
    ∧ (∀ (a b : Fin 32), ∃ t : State, exec (.wacc c a b) s = .next t ∧ Only [.churns] s t
        ∧ (t.churn (lineIx (ctxLine c))).sums = (s.churn (lineIx (ctxLine c))).sums
        ∧ t.ctx c = { s.ctx c with wacc := (s.ctx c).wacc ++ (List.range (s.ctx c).activeLanes).map (fun l =>
            (BitVec.ofNat 32 ((s.ctx c).reg a l), BitVec.ofNat 32 ((s.ctx c).reg b l))) })
    ∧ (∃ t : State, exec (.wcopy c) s = .next t ∧ Only [.churns] s t ∧ t.ctx c = { s.ctx c with wcopy := true })
    ∧ (∀ (n b : Nat) (dt : DenseTensor) (e : Bytes) (w : Fin 32), s.Sound → it = .dense n b → s.dense n = some dt → b + 1 ≠ dt.blocks →
      s.sweepEntry (s.listLine (lineIx (ctxLine c))) 1 n = some e → field e 3 1 = 3 → dt.workTile = some w →
      (s.ctx c).wcopy = true → (s.ctx c).sent = false → (s.ctx c).retag = none →
      ∃ t : State, exec (.sect c true false true none) s = .next t
        ∧ t.tileRead w.val (dt.workBase + 64 * b) 64 = elementBytes 2 ((List.range 32).map (fun i =>
            (((densePlane (s.completeRecord (s.ctx c) it) 0).elem i).round yf16 .rne false).1))
        ∧ s.tilesKept t w.val (dt.workBase + 64 * b) 64)

/-- R176, R184, R185, R201 to R211: a record enters a context, its sections run over its blocks, its write is issued once H has passed
it and is verified, a failed check starts it again, and a faulted churn's list is taken over or lost.
Completion: firstRead, sect, recordWriteVerified, sweepTakeover. -/
def Obligations.ChurnRecords : Prop :=
  ∀ (s : State) (c : CtxId) (i : Nat) (it : SweepItem),
    (∀ rec d, (s.churn (lineIx (ctxLine c))).list[i]? = some it → s.mayRead c i = true → (s.churn (lineIx (ctxLine c))).resumeH ≤ i →
      s.readRecord (s.itemInfo it).addr (s.itemInfo it).size 0 = (d, some rec) →
      tagOf (s.itemInfo it).kind rec ≠ s.stepTag → s.poisonedInput (lineIx (ctxLine c)) it rec = false →
      ∃ t : State, exec (.firstRead c i 0) s = .next t ∧ Only [.churns, .stats, .channels, .mem, .tel, .events, .ledger] s t
        ∧ (t.ctx c).index = i ∧ (t.ctx c).item = some it ∧ (t.ctx c).active = true ∧ (t.ctx c).old = rec ∧ (t.ctx c).new = rec
        ∧ (t.ctx c).nAct = (s.itemInfo it).elems ∧ (t.ctx c).block = 0 ∧ (t.ctx c).acc = [])
    ∧ (∀ d, (s.churn (lineIx (ctxLine c))).list[i]? = some it → s.mayRead c i = true →
      s.readRecord (s.itemInfo it).addr (s.itemInfo it).size 3 = (d, none) →
      ∃ t u : State, exec (.firstRead c i 3) s = .next t ∧ Raised 0x7304 (churnUnit (lineIx (ctxLine c))) d u
        ∧ Only [.churns, .channels, .mem, .tel, .events, .ledger] u t
        ∧ (t.ctx c).item = some it ∧ (t.ctx c).new = s.unreadable it)
    ∧ (s.mayRead c i = false → exec (.firstRead c i 0) s = .next s)
    ∧ ((s.ctx c).sent = false → (s.ctx c).retag = none →
      (∀ last : Bool, (s.ctx c).item = some it → (s.ctx c).block + 1 < ceilDiv (s.ctx c).nAct 32 →
        exec (.sect c false false last none) s = .next (s.setCtx c (fun y => { y with block := y.block + 1 })))
      ∧ (∀ once : Bool, once = true ∨ ceilDiv (s.ctx c).nAct 32 ≤ (s.ctx c).block + 1 →
        exec (.sect c once false false none) s = .next (s.setCtx c (fun y => { y with block := 0 })))
      ∧ (∀ once last : Bool, ∃ t : State, exec (.sect c once true last none) s = .next t ∧ Only [.churns] s t
        ∧ (t.churn (lineIx (ctxLine c))).prologue =
            (s.ctx c).v.foldl (fun m e => NMap.insert m (1024 * s.ctxProgram c + e.1) e.2) (s.churn (lineIx (ctxLine c))).prologue)
      ∧ (∀ once : Bool, (s.ctx c).item = some it → (s.ctx c).wcopy = false → once = true ∨ ceilDiv (s.ctx c).nAct 32 ≤ (s.ctx c).block + 1 →
        (∃ t : State, exec (.sect c once false true none) s = .next t
          ∧ (t.ctx c).new = s.completeRecord (s.ctx c) it ∧ (t.ctx c).sent = true
          ∧ ((s.churn (lineIx (ctxLine c))).h ≤ (s.ctx c).index → (t.ctx c).held = true))
        ∧ ((s.churn (lineIx (ctxLine c))).ctxs = [(c.ctx.val, s.ctx c)] → (s.churn (lineIx (ctxLine c))).faulted = false →
          (s.ctx c).index < (s.churn (lineIx (ctxLine c))).h →
          ∃ t u : State, exec (.sect c once false true none) s = .next t ∧ Only [.churns] s u
            ∧ t = u.portWrite ⟨(s.itemInfo it).addr, s.recordBytes it (s.completeRecord (s.ctx c) it), none,
                churnSource (lineIx (ctxLine c)) (s.ctx c).index, false⟩))
      ∧ (∀ (once prologue last : Bool) (u : UnitId), s.inEvaluation = false → 7 ≤ s.phase → (s.ctx c).failures = 0 →
        ∃ t : State, exec (.sect c once prologue last (some u)) s = .next t ∧ t.lastEvent = some 0x7301
          ∧ (t.ctx c).new = (s.ctx c).old ∧ (t.ctx c).block = 0 ∧ (t.ctx c).acc = [] ∧ (t.ctx c).failures = 1
          ∧ (t.ctx c).item = (s.ctx c).item ∧ (t.ctx c).wacc = []))
    ∧ (∀ (x : Ctx), x.poison = false → 10 ≤ x.new.length → tagOf (s.itemInfo it).kind (s.completeRecord x it) = s.stepTag)
    ∧ (∀ (l : LineId) (n : Nat) (x : Ctx), (s.churn (lineIx l)).faulted = false → i ∈ (s.churn (lineIx l)).verified →
      (s.churn (lineIx l)).holding i = some (n, x) → x.item = some it → x.skip = false → (s.churn (lineIx l)).resume = none →
      ∃ t : State, exec (.recordWriteVerified l i) s = .next t ∧ Only [.churns, .watch, .tables, .mem, .exp, .tel, .events] s t
        ∧ NMap.find? (t.churn (lineIx l)).ctxs n = NMap.find? (NMap.erase (s.churn (lineIx l)).ctxs n) n
        ∧ ((s.churn (lineIx l)).v = i → i < (t.churn (lineIx l)).v)
        ∧ ((s.churn (lineIx l)).v = i → (s.churn (lineIx l)).writeDone = [] →
          NMap.getD (t.churn (lineIx l)).sums (s.itemKey it) {} =
            x.wacc.foldl WatchSum.add (NMap.getD (s.churn (lineIx l)).sums (s.itemKey it) {}))
        ∧ (t.watchOf (s.itemKey it)).swept = (s.watchOf (s.itemKey it)).swept + 1)
    ∧ (∀ l : LineId, (s.churn (lineIx l)).faulted = false → exec (.sweepTakeover l) s = .next s)
    ∧ (∀ l : LineId, (s.churn (lineIx l)).faulted = true → (s.churn (lineIx l)).v < (s.churn (lineIx l)).list.length →
      (s.countedFault (churnUnit (lineIx l))).canTakeOver (lineIx l) = true →
      (s.churn (otherLine (lineIx l))).v < (s.churn (otherLine (lineIx l))).list.length →
      ∃ t : State, exec (.sweepTakeover l) s = .next t ∧ t.lastEvent = some 0x7302
        ∧ (t.churn (otherLine (lineIx l))).resume = some ((s.churn (lineIx l)).list, (s.churn (lineIx l)).v, (s.churn (lineIx l)).h)
        ∧ (t.churn (lineIx l)).list = [] ∧ (t.churn (lineIx l)).faulted = true)
    ∧ (∀ l : LineId, (s.churn (lineIx l)).faulted = true → (s.churn (lineIx l)).v < (s.churn (lineIx l)).list.length →
      (s.countedFault (churnUnit (lineIx l))).canTakeOver (lineIx l) = false →
      s.jobRuns = true → s.events.once.contains (0x7303, lineIx l) = false →
      ∃ t : State, exec (.sweepTakeover l) s = .next t ∧ t.lastEvent = some 0x7303 ∧ t.seq.haltPending = true)

/-- R262 to R264, R266, R287, R388: a DATA or CONTROL flit in order is acknowledged by an IDLE and delivered, a unit being placed when its
check word holds and asked for again when not; one out of order makes the receiver ask once for the flit it expects and discard until it
comes, and one that fails LINK_CRC, whatever its kind, always ask; IDLE grants credits; RETRY_REQ is counted and the kept flits leave again; a link that is down or retraining takes nothing.
Completion: dataFlit, controlFlit, retryReq, idleFlit. -/
def Obligations.PenFlits : Prop :=
  ∀ (s : State) (k : Fin 8) (f : Bytes),
    ((s.pen k).up = false ∨ (s.pen k).retraining = true → exec (.dataFlit k f) s = .next s ∧ exec (.controlFlit k f) s = .next s
      ∧ exec (.idleFlit k f) s = .next s ∧ exec (.retryReq k f) s = .next s)
    ∧ (s.linkOpen k → ¬(flitGood f ∧ field f 0 1 = 1 ∧ field f 2 2 = (s.pen k).expect.toNat) →
      ((s.pen k).discarding = true → flitGood f = true → exec (.dataFlit k f) s = .next s)
      ∧ ((s.pen k).discarding = false ∨ flitGood f = false → ∃ t : State, exec (.dataFlit k f) s = .next t ∧ Only [.out, .pen] s t
        ∧ t.pen k = { s.pen k with discarding := true, freed := 0 }
        ∧ t.out = s.out ++ [.penFlit k (flitBytes 4 0 0 ((s.pen k).expect - 1).toNat (s.pen k).freed (leBytes 2 (s.pen k).expect.toNat))]))
    ∧ (s.linkOpen k → flitGood f = false → ∀ c, c = .controlFlit k f ∨ c = .idleFlit k f ∨ c = .retryReq k f →
      ∃ t : State, exec c s = .next t ∧ Only [.out, .pen] s t ∧ t.pen k = { s.pen k with discarding := true, freed := 0 }
        ∧ t.out = s.out ++ [.penFlit k (flitBytes 4 0 0 ((s.pen k).expect - 1).toNat (s.pen k).freed (leBytes 2 (s.pen k).expect.toNat))])
    ∧ (s.linkOpen k → flitGood f → field f 0 1 = 1 → field f 2 2 = (s.pen k).expect.toNat → s.confidential = false →
      (checkWord ((flitBody f).take 512) (BitVec.ofNat 32 (field (flitBody f) 516 4)) = BitVec.ofNat 32 (field (flitBody f) 512 4) →
        ∃ t : State, exec (.dataFlit k f) s = .next t ∧ Only [.out, .pen, .msgs] s t
          ∧ t.pen k = { s.pen k with
              expect := (s.pen k).expect + 1, discarding := false, credits := (s.pen k).credits + field f 6 2, freed := 0
              unitsGot := if bit 0 (field f 1 1) then 0 else (s.pen k).unitsGot + 1
              msgsGot := if bit 0 (field f 1 1) then (s.pen k).msgsGot + 1 else (s.pen k).msgsGot }
          ∧ t.out = s.out ++ [.penFlit k (flitBytes 0 0 0 (s.pen k).expect.toNat ((s.pen k).freed + 1) [])]
          ∧ t.hasUnit (s.engineModule k) (s.penMessage (s.engineModule k) (s.pen k).msgsGot) (s.pen k).unitsGot = true)
      ∧ (checkWord ((flitBody f).take 512) (BitVec.ofNat 32 (field (flitBody f) 516 4)) ≠ BitVec.ofNat 32 (field (flitBody f) 512 4) →
        s.inEvaluation = false →
        s.fab.asked.contains (s.engineModule k, s.penMessage (s.engineModule k) (s.pen k).msgsGot, (s.pen k).unitsGot) = false →
        ∃ t : State, exec (.dataFlit k f) s = .next t ∧ (t.pen k).expect = (s.pen k).expect + 1 ∧ t.lastEvent = some 0x7107
          ∧ t.fab.msgs = s.fab.msgs
          ∧ Output.message (s.engineModule k) MsgKind.resend.code
              (leBytes 4 (s.penMessage (s.engineModule k) (s.pen k).msgsGot) ++ leBytes 4 (s.pen k).unitsGot) ∈ t.out))
    ∧ (s.linkOpen k → flitGood f → field f 0 1 = 2 → field f 2 2 = (s.pen k).expect.toNat → s.confidential = false →
      bit 0 (field f 1 1) = false →
      ∃ t : State, exec (.controlFlit k f) s = .next t ∧ Only [.out, .pen] s t
        ∧ t.pen k = { s.pen k with
            expect := (s.pen k).expect + 1, discarding := false, credits := (s.pen k).credits + field f 6 2, freed := 0
            ctl := (s.pen k).ctl ++ (flitBody f).take 512 }
        ∧ t.out = s.out ++ [.penFlit k (flitBytes 0 0 0 (s.pen k).expect.toNat (s.pen k).freed [])])
    ∧ (∀ b, s.linkOpen k → flitGood f → field f 0 1 = 2 → field f 2 2 = (s.pen k).expect.toNat → s.confidential = false →
      bit 0 (field f 1 1) = true → (s.pen k).ctl ++ (flitBody f).take 512 = b → field b 0 2 ≠ MsgKind.resent.code →
      field b 0 2 ≠ MsgKind.timeTransfer.code →
      ∃ t : State, exec (.controlFlit k f) s = .next t ∧ Only [.out, .pen, .msgs] s t ∧ (t.pen k).ctl = []
        ∧ (t.pen k).expect = (s.pen k).expect + 1
        ∧ t.fab.msgs = putMsg s.fab.msgs (s.engineModule k) (msgNumber (field b 0 2)
            (s.fab.msgs.countP (fun m => m.src == s.engineModule k && m.num / 65536 == field b 0 2)))
            (fun m => m.put 0 (slice b 4 (field b 2 2), 0, 0) true))
    ∧ (s.linkOpen k → flitGood f → field f 0 1 = 1 → field f 2 2 = (s.pen k).expect.toNat → s.confidential = true →
      ∃ t : State, exec (.dataFlit k f) s = .next t ∧ Only [.out, .pen] s t
        ∧ (t.pen k).expect = (s.pen k).expect + 1 ∧ (t.pen k).group = (s.pen k).group ++ [f.take 528]
        ∧ t.out = s.out ++ [.penFlit k (flitBytes 0 0 0 (s.pen k).expect.toNat (s.pen k).freed [])])
    ∧ (s.linkOpen k → flitGood f → field f 0 1 = 2 → field f 2 2 = (s.pen k).expect.toNat → s.confidential = true →
      bit 1 (field f 1 1) = false →
      gcmOpen s.penKey (penNonce (s.engineModule k) s.me (s.pen k).groupsGot) [] ((s.pen k).group.map flitBody).flatten (slice f 8 16) = none →
      ((s.pen k).tagFails < 3 → ∃ t : State, exec (.controlFlit k f) s = .next t ∧ Only [.out, .pen] s t
        ∧ (t.pen k).expect = (s.pen k).expect - BitVec.ofNat 16 (s.pen k).group.length ∧ (t.pen k).group = []
        ∧ (t.pen k).tagFails = (s.pen k).tagFails + 1 ∧ (t.pen k).discarding = true)
      ∧ (3 ≤ (s.pen k).tagFails → ∃ t : State, exec (.controlFlit k f) s = .next t ∧ (t.pen k).up = false ∧ t.lastEvent = some 0x5103))
    ∧ (s.linkOpen k → flitGood f → field f 0 1 = 0 →
      ∃ t : State, exec (.idleFlit k f) s = .next t ∧ Only [.pen] s t
        ∧ t.pen k = { s.pen k with credits := (s.pen k).credits + field f 6 2 })
    ∧ (s.linkOpen k → flitGood f → field f 0 1 = 4 →
      ∃ t : State, exec (.retryReq k f) s = .next t ∧ Only [.out, .pen, .ledger] s t
        ∧ t.pen k = { s.pen k with credits := (s.pen k).credits + field f 6 2, retries := satAdd (s.pen k).retries 1 }
        ∧ t.unit (unitEngine k) = { s.unit (unitEngine k) with logged := satAdd (s.unit (unitEngine k)).logged 1 }
        ∧ t.out = s.out ++ (((s.pen k).retry.dropWhile (fun e => e.1 != field f 8 2)).map (fun e => Output.penFlit k e.2)))

/-- R24, R46, R265, R267 to R269, R283, R298, R391: a link retrains, resumes, or is lost at its third failed attempt; TRAIN begins training
while the controller is idle; IDENT enters a peer or refuses the engine; timestamps from the parent lock the time base
and a decision in a TIME flit takes its place as a message; a stitch link's
retransmissions are logged and a step's 1,025th is a counted fault.
Completion: timeFlit, linkRetrain, penRetrain, stitchRetransmit, train, ident, penTrainingEnd. -/
def Obligations.PenLinkChanges : Prop :=
  ∀ (s : State) (k : Fin 8),
    ((s.pen k).up = true → exec (.linkRetrain k) s = .next (s.setPen k (fun x =>
      { x with retraining := true, attempts := if (s.pen k).retraining then (s.pen k).attempts else 0 })))
    ∧ ((s.pen k).up = false → exec (.linkRetrain k) s = .next s)
    ∧ ((s.pen k).retraining = false → ∀ ok, exec (.penRetrain k ok) s = .next s)
    ∧ ((s.pen k).retraining = true → (s.pen k).attempts < 2 →
      exec (.penRetrain k false) s = .next (s.setPen k (fun x => { x with attempts := (s.pen k).attempts + 1 })))
    ∧ ((s.pen k).retraining = true → 2 ≤ (s.pen k).attempts → s.jobRuns = true →
      ∃ t u : State, exec (.penRetrain k false) s = .next t ∧ Raised 0x5102 (unitEngine k) s u ∧ Only [.tel, .events, .ledger] u t
        ∧ (t.pen k).up = false ∧ (t.pen k).valid = false ∧ t.seq.haltPending = true)
    ∧ ((s.pen k).retraining = true → (s.pen k).waiting = [] →
      ∃ t : State, exec (.penRetrain k true) s = .next t ∧ Only [.out, .pen, .tel, .events] s t
        ∧ t.pen k = { s.pen k with retraining := false, attempts := 0, discarding := true, freed := 0 }
        ∧ t.out = s.out ++ [.penFlit k (flitBytes 4 0 0 ((s.pen k).expect - 1).toNat (s.pen k).freed (leBytes 2 (s.pen k).expect.toNat))]
        ∧ (s.jobRuns = true → Raised 0x5101 (unitEngine k) s t) ∧ (s.jobRuns = false → t.events = s.events))
    ∧ (∀ f now b m, s.linkOpen k → flitGood f → field f 0 1 = 3 → bit 0 (field f 1 1) = true →
      (s.pen k).timeCtl ++ (flitBody f).take 512 = m → slice m 4 (field m 2 2) = b → field m 0 2 = MsgKind.timeTransfer.code →
      ∃ t : State, exec (.timeFlit k f now) s = .next t ∧ Only [.pen, .clk, .time, .tel, .events] s t ∧ t.clk.time = now
        ∧ (t.pen k).timeCtl = []
        ∧ NMap.find? t.clk.transfers (s.engineModule k) = some (BitVec.ofNat 64 (field b 0 8), now)
        ∧ (treeParent s.tickMaster s.me = some (s.engineModule k) → BitVec.ofNat 64 (field b 16 8) ≠ (0 : Long) →
          t.clk.locked = true ∧ t.clk.holdover = false ∧ t.clk.lastTransfer = now
          ∧ t.clk.offset = offsetOf (BitVec.ofNat 64 (field b 16 8)) (BitVec.ofNat 64 (field b 8 8)) (BitVec.ofNat 64 (field b 0 8)) now
          ∧ (s.clk.locked = false → Raised 0x1101 unitNone s t) ∧ (s.clk.locked = true → t.events = s.events)))
    ∧ (∀ f now m, s.linkOpen k → flitGood f → field f 0 1 = 3 → bit 0 (field f 1 1) = true →
      (s.pen k).timeCtl ++ (flitBody f).take 512 = m → field m 0 2 = MsgKind.decision.code →
      ∃ t : State, exec (.timeFlit k f now) s = .next t ∧ Only [.pen, .time, .msgs] s t ∧ t.clk.time = now ∧ (t.pen k).timeCtl = []
        ∧ t.fab.msgs = putMsg s.fab.msgs (s.engineModule k) (msgNumber MsgKind.decision.code
            (s.fab.msgs.countP (fun x => x.src == s.engineModule k && x.num / 65536 == MsgKind.decision.code)))
            (fun x => x.put 0 (slice m 4 (field m 2 2), 0, 0) true))
    ∧ (∀ l : LinkEnd, l.attached = false → exec (.stitchRetransmit l) s = .next s)
    ∧ (∀ l : LinkEnd, l.attached = true → (s.unit (linkCode l)).stepCount ≠ 1024 →
      ∃ t : State, exec (.stitchRetransmit l) s = .next t ∧ Only [.ledger] s t
        ∧ t.unit (linkCode l) = { s.unit (linkCode l) with
            logged := satAdd (s.unit (linkCode l)).logged 1, stepCount := (s.unit (linkCode l)).stepCount + 1 }
        ∧ (∀ v, v ≠ linkCode l → t.unit v = s.unit v))
    ∧ (∀ l : LinkEnd, l.attached = true → (s.unit (linkCode l)).stepCount = 1024 → (s.unit (linkCode l)).countedIn = none →
      ∃ t a b : State, exec (.stitchRetransmit l) s = .next t ∧ Only [.ledger] s a ∧ Raised 0x7201 (linkCode l) a b
        ∧ Only [.tel, .events] b t ∧ (t.unit (linkCode l)).counted = satAdd (s.unit (linkCode l)).counted 1)
    ∧ (∀ v : Word, s.takesWrite → s.idle = true → bit 0 v.toNat = true →
      ∃ t : State, exec (.train 0 v) s = .next t ∧ Only [.pend, .setup, .pen, .herd, .msgs] s t ∧ t.fab.training = true
        ∧ t.pend = { s.pend with herdEn := bit 1 v.toNat } ∧ (∀ p, p ∈ t.fab.pen → p.2.up = false)
        ∧ (∀ p, p ∈ t.fab.herd → p.2.pcsLock = false))
    ∧ (∀ v : Word, s.takesWrite → s.idle = false → bit 0 v.toNat = true →
      ∃ t : State, exec (.train 0 v) s = .next t ∧ Only [.pend, .setup] s t ∧ Logged 0xA0000 0 .state t)
    ∧ (∀ v : Word, s.takesWrite → bit 0 v.toNat = false →
      exec (.train 0 v) s = .next { s with setup.armed := true, pend.herdEn := bit 1 v.toNat })
    ∧ (∀ m d, s.fab.training = false ∨ s.unavailable (unitEngine k) = true → exec (.ident k m d) s = .next s)
    ∧ (∀ (m : BitVec 12) d, s.fab.training = true → s.unavailable (unitEngine k) = false → s.miscabled m.toNat d = true →
      ∃ t : State, exec (.ident k m d) s = .next t ∧ Raised 0x5002 (unitEngine k) s t ∧ Only [.out, .tel, .events] s t)
    ∧ (∀ (m : BitVec 12) d, s.fab.training = true → s.unavailable (unitEngine k) = false → s.miscabled m.toNat d = false →
      s.engineTo (m.toNat % 8) = none →
      ∃ t : State, exec (.ident k m d) s = .next t ∧ Only [.out, .pen, .boot, .tel, .events] s t ∧ (t.pen k).up = true ∧ (t.pen k).valid = true
        ∧ t.boot = { s.boot with penPeers := NMap.insert s.boot.penPeers k (m.toNat % 8) }
        ∧ (t.pen k).peer = BitVec.ofNat 3 (m.toNat % 8) ∧ (s.spareNow k (m.toNat % 8) = true → t.lastEvent = some 0x5003)
        ∧ t.out = s.out ++ [.penFlit k (flitBytes 5 0 0 0 0 (leBytes 2 s.me ++ leBytes 8 s.identDigest))])
    ∧ (∀ (m : BitVec 12) d j, s.fab.training = true → s.unavailable (unitEngine k) = false → s.miscabled m.toNat d = false →
      s.engineTo (m.toNat % 8) = some j → j ≠ k.val →
      ∃ t : State, exec (.ident k m d) s = .next t ∧ t.lastEvent = some 0x5002 ∧ (j < k.val → t.pen k = s.pen k ∧ t.pen j = s.pen j)
        ∧ (k.val < j → (t.pen k).up = true ∧ (t.pen j).up = false ∧ (t.pen j).valid = false))
    ∧ (∀ fs, s.fab.training = false → exec (.penTrainingEnd fs) s = .next s)
    ∧ (∀ fs : List OpticalLane, s.fab.training = true →
      ∃ t : State, exec (.penTrainingEnd fs) s = .next t ∧ Only [.pen, .msgs, .tel, .events, .ledger] s t ∧ t.fab.training = false
        ∧ t.fab.lanesDown = fs
        ∧ (∀ o ∈ fs, o.engine.val < 8 → s.unavailable (unitEngine o.engine) = false →
          (t.pen o.engine).up = false ∧ (t.pen o.engine).valid = false))

/-- R273, R276 to R278, R281, R287: a packet that a herd port takes is to be acknowledged, and its units, message or timestamps take their
places; one whose frame or header fails is discarded and counted, and a duplicate is
acknowledged only.
Completion: dataPacket, ackPacket, nak, timePacket, controlPacket. -/
def Obligations.HerdPackets : Prop :=
  ∀ (s : State) (i : Fin 8) (p : HerdPacket) (now : Long),
    (s.herdOn i = false → (∀ fill, exec (.dataPacket i p fill now) s = .next { s with clk.time := now })
      ∧ exec (.controlPacket i p now) s = .next { s with clk.time := now } ∧ exec (.timePacket i p now) s = .next { s with clk.time := now }
      ∧ exec (.ackPacket i p now) s = .next { s with clk.time := now } ∧ exec (.nak i p now) s = .next { s with clk.time := now })
    ∧ (s.herdOn i = true → (∃ e, s.frameFault i (packetBytes p) = some e ∧ e.counted = false) →
      (∀ fill, exec (.dataPacket i p fill now) s = .next { s with clk.time := now })
      ∧ exec (.controlPacket i p now) s = .next { s with clk.time := now } ∧ exec (.timePacket i p now) s = .next { s with clk.time := now }
      ∧ exec (.ackPacket i p now) s = .next { s with clk.time := now } ∧ exec (.nak i p now) s = .next { s with clk.time := now })
    ∧ (∀ kind c, (kind, c) ∈ [(1, Instr.ackPacket i p now), (2, .nak i p now), (3, .timePacket i p now), (4, .controlPacket i p now)] →
      s.herdOn i = true → (s.frameFault i (packetBytes p) = none ∧ s.headerGood i kind p.header = false)
        ∨ (∃ e, s.frameFault i (packetBytes p) = some e ∧ e.counted = true) →
      ∃ t : State, exec c s = .next t ∧ Only [.time, .herd] s t
        ∧ t.herdPort i = { s.herdPort i with discarded := satAdd (s.herdPort i).discarded 1 })
    ∧ (∀ fill n, s.packetOpen i 0 p → fill ≤ 1572864 → field p.header 6 2 = 520 * n → 1 ≤ n → n ≤ 8 →
      (∀ j, j < n → checkWord ((slice p.payload (520 * j) 520).take 512) (BitVec.ofNat 32 (field (slice p.payload (520 * j) 520) 516 4)) =
        BitVec.ofNat 32 (field (slice p.payload (520 * j) 520) 512 4)) →
      ∃ t : State, exec (.dataPacket i p fill now) s = .next t
        ∧ Only [.time, .herd, .out, .stats, .conns, .msgs, .tel, .events] s t ∧ PacketTaken i p s t ∧ (t.herdPort i).fill = fill
        ∧ (∀ j, j < n → t.hasUnit (packetSource p.header) (field p.header 16 4) (field p.header 20 4 + j) = true))
    ∧ (∀ fill, s.herdOn i = true → s.frameFault i (packetBytes p) = none → dataLenGood p.header = false → 1572864 < fill → (s.herdPort i).xoff = false →
      (NMap.getD s.active.herd i {}).pfcTx = true →
      ∃ t : State, exec (.dataPacket i p fill now) s = .next t ∧ Only [.time, .herd, .out] s t
        ∧ t.herdPort i = { s.herdPort i with discarded := satAdd (s.herdPort i).discarded 1, fill := fill, xoff := true }
        ∧ t.out = s.out ++ [.pfc i s.active.pcpCtrl.toNat 0xFFFF, .pfc i s.active.pcpBulk.toNat 0xFFFF])
    ∧ (∀ kind, kind = 3 ∨ kind = 4 → s.packetOpen i kind p → field p.payload 0 2 ≠ MsgKind.resent.code →
      field p.payload 0 2 ≠ MsgKind.timeTransfer.code → bit 1 (field p.header 1 1) = true → field p.header 20 4 = 0 →
      (∀ m ∈ s.fab.msgs, ¬(m.src = packetSource p.header ∧ m.num = 65536 * 64 + field p.header 16 4)) →
      ∃ t : State, exec (if kind = 3 then .timePacket i p now else .controlPacket i p now) s = .next t
        ∧ Only [.time, .herd, .out, .stats, .conns, .msgs, .tel, .events] s t ∧ PacketTaken i p s t
        ∧ t.fab.msgs = putMsg s.fab.msgs (packetSource p.header) (msgNumber (field p.payload 0 2)
            (s.fab.msgs.countP (fun m => m.src == packetSource p.header && m.num / 65536 == field p.payload 0 2)))
            (fun m => m.put 0 (slice p.payload 4 (field p.payload 2 2), 0, 0) true))
    ∧ (s.packetOpen i 3 p → field p.payload 0 2 = MsgKind.timeTransfer.code → bit 1 (field p.header 1 1) = true → field p.header 20 4 = 0 →
      (∀ m ∈ s.fab.msgs, ¬(m.src = packetSource p.header ∧ m.num = 65536 * 64 + field p.header 16 4)) →
      ∃ t : State, exec (.timePacket i p now) s = .next t
        ∧ Only [.time, .clk, .herd, .out, .stats, .conns, .msgs, .tel, .events] s t ∧ PacketTaken i p s t
        ∧ NMap.find? t.clk.transfers (packetSource p.header) =
            some (BitVec.ofNat 64 (field (slice p.payload 4 (field p.payload 2 2)) 0 8), now))
    ∧ (∀ kind, kind = 3 ∨ kind = 4 → s.herdOn i = true → s.frameFault i (packetBytes p) = none → s.headerGood i kind p.header = true →
      s.mayConnect (packetSource p.header) i = true → s.confidential = false →
      bit 0 (field p.header 1 1) = false → field p.header 6 2 = p.payload.length →
      (s.conn (packetSource p.header) i).got.contains (recoverSeq (s.conn (packetSource p.header) i).below (field p.header 8 4)) = true →
      exec (if kind = 3 then .timePacket i p now else .controlPacket i p now) s =
        .next (State.setConn { s with clk.time := now } (packetSource p.header) i (fun c => { c with ackDue := true })))

/-- R276, R279, R280: an acknowledgement frees what it covers, and CE marks lower the rate; what stays unacknowledged leaves again with the
same bytes on the next path; eight losses remove a path and sixteen lose the peer; gaps are named by NAKs; a paused class sends nothing.
Completion: ackPacket, nak, standaloneAck, gapPersists, retransmission, ackProgressTimeout, rateRecovery. -/
def Obligations.HerdAcknowledgement : Prop :=
  ∀ (s : State) (i : Fin 8) (p : HerdPacket) (now : Long) (r : BitVec 12),
    (∀ a, s.herdOn i = true → s.frameFault i (packetBytes p) = none → s.headerGood i 1 p.header = true → bit 2 (field p.header 1 1) = true → field p.header 30 2 = 0 →
      (s.conn (packetSource p.header) i).waiting = [] →
      recoverSeq (s.conn (packetSource p.header) i).acked (field p.header 12 4) = a → a ≤ (s.conn (packetSource p.header) i).nextSeq →
      ∃ t : State, exec (.ackPacket i p now) s = .next t ∧ Only [.time, .conns] s t
        ∧ t.conn (packetSource p.header) i = { s.conn (packetSource p.header) i with
            acked := a, sent := (s.conn (packetSource p.header) i).sent.filter (fun x => decide (a ≤ x.seq)) })
    ∧ (s.herdOn i = true → s.frameFault i (packetBytes p) = none → s.headerGood i 1 p.header = true → bit 2 (field p.header 1 1) = true → field p.header 30 2 ≠ 0 →
      (s.conn (packetSource p.header) i).lowered = none →
      ∃ t : State, exec (.ackPacket i p now) s = .next t
        ∧ (t.conn (packetSource p.header) i).rate = max ((s.conn (packetSource p.header) i).rate * 7 / 8) 4194304
        ∧ (t.conn (packetSource p.header) i).lowered = some now
        ∧ (s.events.once.contains (0x5204, 0) = false → t.lastEvent = some 0x5204))
    ∧ (∀ x, s.herdOn i = true → s.frameFault i (packetBytes p) = none → s.headerGood i 2 p.header = true → bit 2 (field p.header 1 1) = false →
      (s.conn (packetSource p.header) i).sent.find? (fun x => x.seq % 2 ^ 32 == field p.header 8 4) = some x →
      s.classPaused i (field x.header 0 1 / 16) = false →
      ∃ t q, exec (.nak i p now) s = .next t
        ∧ Output.herdPacket i q (s.outerHeader (packetSource p.header) i q (field x.header 0 1 / 16) (x.header ++ x.payload)) x.header x.payload ∈ t.out
        ∧ (t.herdPort i).retx = satAdd (s.herdPort i).retx 1)
    ∧ (∀ x psn, (s.conn r.toNat i).sent.find? (fun x => x.seq % 2 ^ 32 == psn % 2 ^ 32) = some x →
      (now.toNat < x.sentAt.toNat + 64000 → exec (.retransmission i r psn now) s = .next { s with clk.time := now })
      ∧ (x.sentAt.toNat + 64000 ≤ now.toNat → s.classPaused i (field x.header 0 1 / 16) = true →
        exec (.retransmission i r psn now) s = .next (State.setConn { s with clk.time := now } r.toNat i (fun c =>
          { c with sent := c.sent.map (fun y => if y.seq = x.seq then { y with held := true } else y) })))
      ∧ (x.sentAt.toNat + 64000 ≤ now.toNat → s.classPaused i (field x.header 0 1 / 16) = false →
        NMap.find? (s.conn r.toNat i).lossAt x.path = none →
        ∃ t q, exec (.retransmission i r psn now) s = .next t ∧ q = nextPath (s.conn r.toNat i).removed (s.conn r.toNat i).nextPath
          ∧ t.out = s.out ++ [.herdPacket i q (s.outerHeader r.toNat i q (field x.header 0 1 / 16) (x.header ++ x.payload)) x.header x.payload]
          ∧ (t.herdPort i).retx = satAdd (s.herdPort i).retx 1
          ∧ (t.conn r.toNat i).nextPath = q + 1
          ∧ (t.conn r.toNat i).sent = (s.conn r.toNat i).sent.map (fun y =>
              if y.seq = x.seq then { x with path := q, retries := x.retries + 1, sentAt := now, held := false } else y)
          ∧ (x.retries ≠ 15 → t.events = s.events) ∧ (x.retries = 15 → Raised 0x5203 (portUnit i) s t ∧ (s.jobRuns = true → t.seq.haltPending = true)))
      ∧ (∀ ts, x.sentAt.toNat + 64000 ≤ now.toNat → s.classPaused i (field x.header 0 1 / 16) = false → NMap.find? (s.conn r.toNat i).lossAt x.path = some ts → ts.length = 7 →
        (∀ t ∈ ts, now.toNat < t.toNat + 1000000) → (s.conn r.toNat i).removed.contains x.path = false → x.retries ≠ 15 →
        ∃ t, exec (.retransmission i r psn now) s = .next t ∧ Raised 0x5202 (portUnit i) s t
          ∧ (t.conn r.toNat i).removed = x.path :: (s.conn r.toNat i).removed))
    ∧ ((s.conn r.toNat i).sent = [] → exec (.ackProgressTimeout i r) s = .next s)
    ∧ ((s.conn r.toNat i).sent ≠ [] → ∃ t : State, exec (.ackProgressTimeout i r) s = .next t ∧ Raised 0x5203 (portUnit i) s t
        ∧ Only [.halt, .tel, .events] s t ∧ (s.jobRuns = true → t.seq.haltPending = true))
    ∧ exec (.rateRecovery i r) s = .next (s.setConn r.toNat i (fun c => { c with rate := min 67108864 (c.rate + 1048576) }))
    ∧ ((s.conn r.toNat i).ackDue = false → exec (.standaloneAck i r) s = .next s)
    ∧ (∀ h, (s.conn r.toNat i).ackDue = true → s.herdOn i = true → (s.conn r.toNat i).waiting = [] → (s.conn r.toNat i).stopped = false →
      s.classPaused i 1 = false → s.packetHeader 1 4 r.toNat i 0 0 (s.conn r.toNat i).below 0 0 s.seq.step.toNat (s.conn r.toNat i).ceSince = h →
      ∃ t q, exec (.standaloneAck i r) s = .next t ∧ Only [.out, .stats, .conns] s t
        ∧ t.out = s.out ++ [.herdPacket i q (s.outerHeader r.toNat i q 1 h) h []]
        ∧ t.conn r.toNat i = { s.conn r.toNat i with ackDue := false, ceSince := 0 })
    ∧ ((s.conn r.toNat i).ackDue = true → s.herdOn i = true → (s.conn r.toNat i).waiting = [] → s.classPaused i 1 = true →
      exec (.standaloneAck i r) s = .next (s.setConn r.toNat i (fun c =>
        { c with waiting := [{ kind := 1, last := true, unit := 0, content := [] }] })))
    ∧ ((s.conn r.toNat i).got = [] → exec (.gapPersists i r) s = .next s)
    ∧ (∀ g h, s.herdOn i = true → (s.conn r.toNat i).got = [g] → g = (s.conn r.toNat i).below + 1 → (s.conn r.toNat i).waiting = [] →
      (s.conn r.toNat i).stopped = false → s.classPaused i 2 = false →
      s.packetHeader 2 4 r.toNat i 0 ((s.conn r.toNat i).below % 2 ^ 32) (s.conn r.toNat i).below 0 0 s.seq.step.toNat
        (s.conn r.toNat i).ceSince = h →
      ∃ t q, exec (.gapPersists i r) s = .next t ∧ Only [.out, .stats, .conns] s t
        ∧ t.out = s.out ++ [.herdPacket i q (s.outerHeader r.toNat i q 2 h) h []])

/-- R271 to R273, R282, R294, R298, R425: flow control in both directions, frames that are discarded, planes that lock and go down with their
connections, and the messages of joining.
Completion: xon, pfcFrame, herdPfcStorm, pauseFrame, herdPortDown, pcsLock, joinMessage, mapDigest, peerAbsent, receivedFrameDiscarded,
pfcPauseExpiry. -/
def Obligations.HerdFlowAndJoining : Prop :=
  ∀ (s : State) (i q : Fin 8) (now : Long),
    (∀ fill, fill < 1048576 → (s.herdPort i).xoff = true → ∃ t : State, exec (.xon i fill) s = .next t ∧ Only [.herd, .out] s t
        ∧ t.herdPort i = { s.herdPort i with xoff := false, fill := fill }
        ∧ t.out = s.out ++ [.pfc i s.active.pcpCtrl.toNat 0, .pfc i s.active.pcpBulk.toNat 0])
    ∧ (∀ fill, 1048576 ≤ fill ∨ (s.herdPort i).xoff = false → exec (.xon i fill) s = .next s)
    ∧ (∀ quanta, (NMap.getD s.active.herd i {}).pfcRx = false → exec (.pfcFrame i q quanta now) s = .next { s with clk.time := now })
    ∧ (∀ quanta : Half, (NMap.getD s.active.herd i {}).pfcRx = true → quanta ≠ 0 →
      ∃ t : State, exec (.pfcFrame i q quanta now) s = .next t ∧ Only [.time, .herd] s t
        ∧ NMap.find? (t.herdPort i).paused q = some quanta.toNat
        ∧ (∀ a, a ≠ q.val → NMap.find? (t.herdPort i).paused a = NMap.find? (s.herdPort i).paused a)
        ∧ (NMap.find? (s.herdPort i).paused q = none → NMap.find? (t.herdPort i).pauseSince q = some now))
    ∧ ((NMap.getD s.active.herd i {}).pfcRx = true →
      ∃ t : State, exec (.pfcFrame i q 0 now) s = .next t ∧ Only [.time, .herd, .out, .stats, .conns, .halt, .tel, .events] s t
        ∧ (t.herdPort i).paused = NMap.erase (s.herdPort i).paused q)
    ∧ (∃ t : State, exec (.pfcPauseExpiry i q) s = .next t ∧ Only [.herd, .out, .stats, .conns, .halt, .tel, .events] s t
        ∧ (t.herdPort i).paused = NMap.erase (s.herdPort i).paused q ∧ (t.herdPort i).pauseSince = NMap.erase (s.herdPort i).pauseSince q)
    ∧ (NMap.find? (s.herdPort i).paused q = none → exec (.herdPfcStorm i q) s = .next s)
    ∧ (NMap.find? (s.herdPort i).paused q ≠ none → ∃ t : State, exec (.herdPfcStorm i q) s = .next t ∧ Only [.tel, .events] s t
        ∧ Raised 0x5205 (portUnit i) s t)
    ∧ (∃ t : State, exec (.pauseFrame i) s = .next t ∧ Only [.herd] s t
        ∧ t.herdPort i = { s.herdPort i with pauseFrames := satAdd (s.herdPort i).pauseFrames 1 })
    ∧ (∀ f : Bytes, s.frameFault i f = none ∨ s.frameFault i f = some .lldp ∨ s.frameFault i f = some .extension →
      exec (.receivedFrameDiscarded i f) s = .next s)
    ∧ (∀ (f : Bytes) e, s.frameFault i f = some e → e ≠ .lldp → e ≠ .extension →
      ∃ t : State, exec (.receivedFrameDiscarded i f) s = .next t ∧ Only [.herd] s t
        ∧ t.herdPort i = { s.herdPort i with discarded := satAdd (s.herdPort i).discarded 1 })
    ∧ (∀ f : Bytes, 4352 < f.length + 4 → s.frameFault i f = some .oversize)
    ∧ (∀ f : Bytes, f.length + 4 ≤ 4352 → beField f 12 2 ≠ 0x88CC →
      (beField f 0 6 ≠ (NMap.getD s.active.herd i {}).srcMac.toNat → s.frameFault i f = some .wrongMac)
      ∧ (beField f 0 6 = (NMap.getD s.active.herd i {}).srcMac.toNat → beField f 12 2 = 0x8100 → beField f 16 2 = 0x86DD →
        beField f 24 1 = 17 → slice f 42 16 ≠ s.planeAddress s.me i → s.frameFault i f = some .wrongAddress))
    ∧ ((s.herdPort i).pcsLock = false → exec (.herdPortDown i) s = .next s)
    ∧ ((s.herdPort i).pcsLock = true → ∃ t u : State, exec (.herdPortDown i) s = .next t ∧ Raised 0x5201 (portUnit i) s u
        ∧ Only [.out, .stats, .conns] u t
        ∧ t.herdPort i = { s.herdPort i with pcsLock := false, localFault := true, paused := [], pauseSince := [], xoff := false }
        ∧ (∀ e ∈ s.fab.conns, e.1 % 8 = i.val → (t.conn (e.1 / 8) i).stopped = true))
    ∧ (∀ rf : Bool, ∃ t : State, exec (.pcsLock ⟨i, rf⟩) s = .next t ∧ Only [.herd] s t
        ∧ t.herdPort i = { s.herdPort i with pcsLock := true, localFault := false, remoteFault := rf })
    ∧ (∀ m, s.seq.joinFrom.contains m = true → exec (.joinMessage m now) s = .next { s with clk.time := now })
    ∧ (∀ m, s.seq.joinFrom.contains m = false → ∃ t : State, exec (.joinMessage m now) s = .next t
        ∧ Only [.time, .clk, .out, .stats, .pen, .conns, .seq] s t ∧ t.seq.joinFrom = s.seq.joinFrom ++ [m]
        ∧ (s.seq.joined = false → t = { s with clk.time := now, seq.joinFrom := s.seq.joinFrom ++ [m] })
        ∧ (s.isMaster = true → s.seq.joined = true → s.seq.startPending = true → s.clk.t0 = none →
            (∀ c ∈ s.treeChildren, ∃ j ∈ s.seq.joinFrom ++ [m], j.toNat = c) →
            ∃ t0 : Long, t.clk.t0 = some t0 ∧ (now.toNat + 2 * (s.period * 1000) < 2 ^ 63 → s.clk.lastTick.toNat ≤ now.toNat → 0 < s.period →
              now.toNat + 2 * (s.period * 1000) ≤ t0.toNat ∧ (t0.toNat - s.clk.lastTick.toNat) % (s.period * 1000) = 0)))
    ∧ (∀ (m : BitVec 12) d, (s.idle = true → s.seq.startPending = true → d = s.ownMapDigest) → ∃ t : State, exec (.mapDigest m d) s = .next t
        ∧ Only [.msgs] s t ∧ t.fab.mapDigests = (s.fab.mapDigests.filter (fun e => e.1 != m.toNat)) ++ [(m.toNat, d)])
    ∧ (∀ (m : BitVec 12) d, s.idle = true → s.seq.startPending = true → d ≠ s.ownMapDigest → ∃ t : State, exec (.mapDigest m d) s = .next t
        ∧ Only [.msgs, .pen, .conns, .job, .seq, .tel, .events] s t ∧ Raised 0x5303 0 s t ∧ t.seq.startPending = false ∧ t.fab.mismatch = true
        ∧ t.fab.conns = [])
    ∧ ((s.idle = false ∨ s.seq.startPending = false ∨ s.clk.t0 ≠ none) → exec .peerAbsent s = .next s)
    ∧ (s.idle = true → s.seq.startPending = true → s.clk.t0 = none → ∃ t : State, exec .peerAbsent s = .next t
        ∧ Only [.job, .seq, .pen, .conns, .msgs, .tel, .events] s t ∧ t.seq.startPending = false ∧ t.seq.joined = false ∧ t.fab.conns = []
        ∧ (s.isMaster = true → Raised 0x5304 0 s t) ∧ (s.isMaster = false → t.events = s.events))

/-- R304, R311 to R316, R319, R322: a memory port delivers a block and counts its faults, takes a write into its write buffer with the merge it
needs or lets it wait, stores it when the stack acknowledges it, and takes a block's tokens from a class's bucket.
Completion: blockRead, recordWrite, stackWriteAck, regulatedIssue. -/
def Obligations.MemoryAccess : Prop :=
  ∀ (s : State) (addr b ch : Nat), addr / 512 = b → (s.place b).1 = ch →
    (s.blockCount * 512 ≤ addr → (∀ r, exec (.blockRead addr r) s = .fault .hbmRange)
      ∧ ∀ d g r, exec (.recordWrite addr d g r) s = .fault .hbmRange)
    ∧ (∀ r, addr < s.blockCount * 512 → s.accessible b = false → exec (.blockRead addr r) s = .next s)
    ∧ (∀ x, addr < s.blockCount * 512 → s.accessible b = true → s.blockAt b = some x →
      exec (.blockRead addr 0) s = .next { s with seq.stats.hbmBytes := s.seq.stats.hbmBytes + 512 })
    ∧ (∀ x (r : Fin 4), addr < s.blockCount * 512 → s.accessible b = true → s.blockAt b = some x → r = 1 ∨ r = 2 →
      (s.unit (unitChannel ch)).countedIn = none → ∃ t c d : State, exec (.blockRead addr r) s = .next t
        ∧ Only [.stats, .ledger] s c ∧ Raised 0x7201 (unitChannel ch) c d ∧ Only [.tel, .events] d t
        ∧ (t.unit (unitChannel ch)).counted = satAdd (s.unit (unitChannel ch)).counted 1)
    ∧ (∀ r : Fin 4, addr < s.blockCount * 512 → s.accessible b = true → r = 3 ∨ s.blockAt b = none → s.stageReads = false →
      ∃ t u : State, exec (.blockRead addr r) s = .next t ∧ Only [.stats, .tel, .mem, .events, .ledger] s t
        ∧ Raised 0x4101 (unitChannel ch) u t ∧ t.mem.blockErr = satAdd s.mem.blockErr 1)
    ∧ (∀ d g r, addr < s.blockCount * 512 → d.length = 0 ∨ 512 < addr % 512 + d.length → exec (.recordWrite addr d g r) s = .next s)
    ∧ (∀ (d : Bytes), s.plan = none ∨ d.length = 512 → s.denseTail addr d = d)
    ∧ (∀ (d z : Bytes) (g : Word) (e : Nat), addr < s.blockCount * 512 → 0 < d.length → addr % 512 + d.length ≤ 512 → s.denseTail addr d = z →
      (s.stack (ch / 32)).busyBlock b = false → (s.stack (ch / 32)).freeEntry = some e →
      (z.length = 512 → ∃ t : State, exec (.recordWrite addr d g 0) s = .next t ∧ Only [.channels] s t
        ∧ NMap.find? (t.stack (ch / 32)).buffer e = some (.committed b z g 0)
        ∧ ∀ j, j ≠ e → NMap.find? (t.stack (ch / 32)).buffer j = NMap.find? (s.stack (ch / 32)).buffer j)
      ∧ (∀ old, z.length < 512 → s.blockAt b = some old → ∃ t : State, exec (.recordWrite addr d g 0) s = .next t ∧ Only [.channels] s t
        ∧ NMap.find? (t.stack (ch / 32)).buffer e = some (.committed b (splice old.1 (addr % 512) z) g 0))
      ∧ (d.length < 512 → z.length < 512 → ∃ t : State, exec (.recordWrite addr d g 3) s = .next t
        ∧ t.mem.blockErr = satAdd s.mem.blockErr 1 ∧ t.lastEvent = some 0x4102
        ∧ NMap.find? (t.stack (ch / 32)).buffer e = some (.committed b (splice (List.replicate 512 0xFF) (addr % 512) z) g 0)))
    ∧ (∀ (d : Bytes) (g : Word), addr < s.blockCount * 512 → 0 < d.length → addr % 512 + d.length ≤ 512 →
      (s.stack (ch / 32)).busyBlock b = true ∨ (s.stack (ch / 32)).freeEntry = none →
      exec (.recordWrite addr d g 0) s = .next { s with mem.waiting := s.mem.waiting ++ [⟨addr, s.denseTail addr d, some g, 0, false⟩] })
    ∧ (∀ (k : Fin 12) (e : Fin 64) (d : Bytes) (g : Word) (src : Nat), s.Sound →
      NMap.getD (s.stack k).buffer e .free = .committed b d g src → src < 2 ^ 40 → s.mem.waiting = [] →
      ((s.channel ch).held = true → ∀ ok, exec (.stackWriteAck k e ok) s = .next s)
      ∧ ((s.channel ch).held = false → (s.channel ch).down = false → d.length = 512 →
        ∃ t : State, exec (.stackWriteAck k e true) s = .next t ∧ Only [.channels, .hbm, .stats] s t
          ∧ Memory.readBytes t.mem.hbm (granuleKey (s.place b) * 512) 512 = d
          ∧ (∀ a, a < granuleKey (s.place b) * 512 ∨ granuleKey (s.place b) * 512 + 512 ≤ a → Memory.read t.mem.hbm a = Memory.read s.mem.hbm a)
          ∧ NMap.find? t.mem.units (granuleKey (s.place b)) = some ⟨s.coord b, s.mem.keyGen, g⟩
          ∧ (t.stack k).buffer = NMap.erase (s.stack k).buffer e)
      ∧ (∀ ok, (s.channel ch).held = false → ok = false ∨ (s.channel ch).down = true →
        ∃ t : State, exec (.stackWriteAck k e ok) s = .next t ∧ Only [.channels, .tel, .events] s t ∧ Raised 0x4104 (unitChannel ch) s t
          ∧ (t.stack k).buffer = NMap.erase (s.stack k).buffer e))
    ∧ (∀ (k : Fin 12) (e : Fin 64) (d : Bytes) (g : Word) (line i n : Nat) (x : Ctx), s.Sound →
      NMap.getD (s.stack k).buffer e .free = .committed b d g (churnSource line i) → line < 64 → i < 2 ^ 38 → s.mem.waiting = [] →
      (s.channel ch).held = false → (s.churn line).faulted = false → (s.churn line).ctxs = [(n, x)] → n < 8 → x.active = true →
      x.index = i → x.copies = [] →
      ((s.channel ch).down = false → ∃ t : State, exec (.stackWriteAck k e true) s = .next t ∧ Only [.channels, .hbm, .stats, .churns] s t
        ∧ i ∈ (t.churn line).verified ∧ (t.churn line).ctxs = [(n, { x with stored := true })])
      ∧ (x.failures = 0 → ∃ t u : State, exec (.stackWriteAck k e false) s = .next t ∧ Raised 0x4104 (unitChannel ch) s u
        ∧ (t.churn line).ctxs = [(n, { x with failures := 1 })] ∧ (t.churn line).verified = (s.churn line).verified))
    ∧ (∀ (k : Fin 12) (e : Fin 64) ok, (∀ b d g c, NMap.getD (s.stack k).buffer e .free ≠ .committed b d g c) →
      exec (.stackWriteAck k e ok) s = .next s)
    ∧ (∀ (k : Fin 12) (c : Fin 5) (now : Long), ∃ t : State, exec (.regulatedIssue k c now) s = .next t ∧ Only [.time, .channels] s t
        ∧ NMap.find? (t.stack k).refilled c = some now
        ∧ NMap.find? (t.stack k).buckets c = some (if 512000 ≤ s.bucket k c now ∧ NMap.getD s.active.regRate c 0 ≠ 0 then
            s.bucket k c now - 512000 else s.bucket k c now)
        ∧ s.bucket k c now ≤ (NMap.getD s.active.regBurst c 0).toNat * 1024000)

/-- R301, R321 to R327, R329: a channel asks for retraining and is overdue once, ends its retraining trained, with its old settings or down,
and is held by RETRAIN_NOW outside a job; a stack's temperature throttles, suspends the promise and lets the ports run again.
Completion: retrainRequest, retrainOverdue, retrainDone, retrainNow, stackTempSample. -/
def Obligations.ChannelsAndStacks : Prop :=
  ∀ (s : State) (ch : Fin 384) (now : Long) (k : Fin 12) (temp : Half),
    (∀ cause n, (n = match cause with | .errors m => m | _ => 0) →
      ∃ t : State, exec (.retrainRequest ch cause now) s = .next t ∧ Only [.time, .channels] s t
        ∧ (t.channel ch).errors = satAdd (s.channel ch).errors n
        ∧ (t.channel ch).pending = (if s.active.retrainAuto = true ∧ s.retrainCaused ch cause now = true ∧ (s.channel ch).down = false
            ∧ (s.channel ch).pending = none then some now else (s.channel ch).pending)
        ∧ (∀ c, c ≠ ch.val → t.channel c = s.channel c))
    ∧ ((s.channel ch).pending = none ∨ (s.channel ch).overdue = true → exec (.retrainOverdue ch) s = .next s)
    ∧ (∀ p, (s.channel ch).pending = some p → (s.channel ch).overdue = false →
      ∃ t : State, exec (.retrainOverdue ch) s = .next t ∧ Only [.channels, .tel, .events] s t ∧ Raised 0x4203 (unitChannel ch) s t
        ∧ t.channel ch = { s.channel ch with overdue := true })
    ∧ (∀ o, (s.channel ch).held = false → exec (.retrainDone ch o now) s = .next s)
    ∧ ((s.channel ch).held = true → ∃ t : State, exec (.retrainDone ch .oldSettings now) s = .next t ∧ Only [.time, .channels, .setup] s t
        ∧ t.channel ch = { s.channel ch with held := false } ∧ (s.setup.op = 4 → t.setup.op = 0))
    ∧ (∀ n, (s.channel ch).held = true → (s.channel ch).spares + n ≤ 2 →
      ∃ t : State, exec (.retrainDone ch (.trained n) now) s = .next t ∧ Only [.time, .channels, .setup, .ledger, .tel, .events] s t
        ∧ t.channel ch = { s.channel ch with
            held := false, pending := none, overdue := false, errors := 0, trained := now, spares := (s.channel ch).spares + n
            trainedTemp := (s.stack (ch / 32)).temp }
        ∧ t.lastEvent = some 0x4201 ∧ t.events.seq = s.events.seq + BitVec.ofNat 64 n + 1)
    ∧ (∀ o, (s.channel ch).held = true → (o = .down ∨ ∃ n, o = .trained n ∧ 2 < (s.channel ch).spares + n) →
      ∃ t : State, exec (.retrainDone ch o now) s = .next t ∧ Only [.time, .channels, .setup, .ledger, .tel, .events, .halt] s t
        ∧ (t.channel ch).down = true ∧ (t.channel ch).held = false ∧ (t.channel ch).pending = none ∧ Raised 0x4204 (unitChannel ch) s t
        ∧ ((s.unit (unitChannel ch)).state ≠ 3 → (t.unit (unitChannel ch)).state = 2) ∧ (s.jobRuns = true → t.seq.haltPending = true))
    ∧ (∀ v : Word, s.takesWrite → s.setup.armed = false → bit 1 v.toNat = true → s.idle = true → s.win.chSel.toNat ≤ 383 →
      ∃ t : State, exec (.retrainNow 0 v) s = .next t ∧ Only [.setup, .pend, .channels] s t ∧ t.setup.op = 4
        ∧ t.pend = { s.pend with retrainAuto := bit 0 v.toNat }
        ∧ t.channel s.win.chSel.toNat = { s.channel s.win.chSel.toNat with held := true })
    ∧ (∀ v : Word, s.takesWrite → s.setup.armed = false → bit 1 v.toNat = true → s.idle = false ∨ 383 < s.win.chSel.toNat →
      ∃ t : State, exec (.retrainNow 0 v) s = .next t ∧ Only [.setup] s t
        ∧ Logged offMemCtrl 0 (if s.idle then .range else .state) t)
    ∧ (∀ v : Word, s.takesWrite → s.setup.armed = false → bit 1 v.toNat = false →
      exec (.retrainNow 0 v) s = .next { s with setup.armed := true, pend.retrainAuto := bit 0 v.toNat })
    ∧ (temp.toInt ≤ 1520 → s.mem.throttled = false → exec (.stackTempSample k temp) s = .next (s.setStack k (fun x =>
        { x with temp := temp, peak := if x.peak.toInt < temp.toInt then temp else x.peak, crit := false })))
    ∧ (1520 < temp.toInt → temp.toInt ≤ 1680 → (s.stack k).hot = false →
      ∃ t : State, exec (.stackTempSample k temp) s = .next t ∧ Only [.channels, .tel, .events] s t ∧ t.mem.throttled = true
        ∧ Raised 0x4301 0 s t ∧ (t.stack k).hot = true ∧ (t.stack k).temp = temp ∧ t.mem.crit = s.mem.crit)
    ∧ (1680 < temp.toInt → (s.stack k).crit = false → s.seq.void.any = true →
      ∃ t : State, exec (.stackTempSample k temp) s = .next t ∧ t.mem.crit = true ∧ t.seq.void.stack = true ∧ t.seq.stats.voided = true
        ∧ t.lastEvent = some 0x4303 ∧ (t.stack k).crit = true)
    ∧ (temp.toInt ≤ 1472 → s.mem.throttled = true → (∀ j, j < 12 → j ≠ k.val → (s.stack j).temp.toInt ≤ 1472) →
      ∃ t : State, exec (.stackTempSample k temp) s = .next t ∧ Only [.channels, .tel, .events] s t ∧ t.mem.throttled = false
        ∧ Raised 0x4302 0 s t ∧ ∀ j, j < 12 → (t.stack j).hot = false)

/-- R226, R251, R385 to R388, R391, R393, R395: APPEND_DONE of every module of a pen lets the user records be written; replica digests are
compared with the group's; a witness request waits its turn or is refused, and is served after the own sweep; the suspect module takes the
witness's computation or halts the job; RESEND makes the sender replay the step; the step count is written to flash; the watchdog halts
the job.
Completion: appendDone, digestCompare, witnessReq, witnessWork, witnessResult, resend, lifetimeCountWrite, trWatchdog. -/
def Obligations.DigestsAndWitness : Prop :=
  ∀ (s : State),
    (∀ (pos : Fin 8) (n : Nat), s.hist.written = true ∨ s.hist.doneFrom.contains pos.val = true ∨ s.penSize ≤ pos ∨
        (pos.val = s.penPos ∧ s.hist.doneSent = false) → exec (.appendDone pos n) s = .next s)
    ∧ (∀ (pos : Fin 8) (n : Nat), s.hist.written = false → s.hist.doneFrom.contains pos.val = false → pos.val < s.penSize →
        (pos.val ≠ s.penPos ∨ s.hist.doneSent = true) → s.hist.doneFrom.length + 1 ≠ s.penSize →
        exec (.appendDone pos n) s = .next { s with hist.doneFrom := pos.val :: s.hist.doneFrom })
    ∧ (∀ (pos : Fin 8) (n : Nat), s.hist.written = false → s.hist.doneFrom.contains pos.val = false → pos.val < s.penSize →
        (pos.val ≠ s.penPos ∨ s.hist.doneSent = true) → s.hist.doneFrom.length + 1 = s.penSize →
        ∃ t : State, exec (.appendDone pos n) s = .next t ∧ Only [.halt, .stats, .tel, .hbm, .mem, .hist, .events, .ledger, .exp] s t
          ∧ t.hist = { s.hist with written := true, doneFrom := pos.val :: s.hist.doneFrom })
    ∧ (∀ (m : BitVec 12) (tensor : Nat) (d : BitVec 256), (s.watchOf (watchKey 1 tensor)).digest = none ∨ s.digestPeers.contains m.toNat = false ∨
        (s.watchOf (watchKey 1 tensor)).peers.any (fun p => p.1 == m.toNat) = true → exec (.digestCompare m tensor d) s = .next s)
    ∧ (∀ (m : BitVec 12) (tensor : Nat) (own : BitVec 256 × BitVec 48) (d : BitVec 256), (s.watchOf (watchKey 1 tensor)).digest = some own →
        s.digestPeers.contains m.toNat = true → (s.watchOf (watchKey 1 tensor)).peers.any (fun p => p.1 == m.toNat) = false →
        ∃ t : State, exec (.digestCompare m tensor d) s = .next t ∧ Only [.halt, .seq, .tel, .watch, .events] s t
          ∧ (t.watchOf (watchKey 1 tensor)).peers = (s.watchOf (watchKey 1 tensor)).peers ++ [(m.toNat, d)]
          ∧ (own.1 = d → (∀ p ∈ (s.watchOf (watchKey 1 tensor)).peers, p.2 = d) → t.events = s.events ∧ t.seq.haltPending = s.seq.haltPending)
          ∧ (own.1 ≠ d → bit 6 (s.watchOf (watchKey 1 tensor)).flags.toNat = false →
              t.lastEvent = some 0x2306 ∧ bit 6 (t.watchOf (watchKey 1 tensor)).flags.toNat = true
              ∧ t.seq.haltPending = (s.seq.haltPending || s.jobRuns)))
    ∧ (∀ (m : BitVec 12) (n : BitVec 48), s.jobRuns = false ∨ n ≠ s.seq.step ∨ s.rel.witnessReqs.any (fun q => q.1 == m) = true →
        exec (.witnessReq m n) s = .next s)
    ∧ (∀ m : BitVec 12, s.jobRuns = true → s.rel.witnessReqs.any (fun q => q.1 == m) = false →
        (s.seq.replay.suspect = true → ∃ t : State, exec (.witnessReq m s.seq.step) s = .next t ∧ Only [.out, .stats, .pen, .conns] s t
          ∧ s.out ++ [.message m.toNat MsgKind.witnessResult.code (leBytes 1 0)] <+: t.out)
        ∧ (s.seq.replay.suspect = false → ∃ t : State, exec (.witnessReq m s.seq.step) s = .next t ∧ Only [.stats, .seq, .rel] s t
          ∧ t.rel.witnessReqs.Perm (s.rel.witnessReqs ++ [(m, s.seq.step)])
          ∧ t.rel.witnessReqs.Pairwise (fun a b => a.1.toNat ≤ b.1.toNat) ∧ t.seq.stats.witness = true))
    ∧ (∀ (fs : List UnitId) (b : Bytes), s.rel.witnessReqs = [] → exec (.witnessWork fs b) s = .next s)
    ∧ (∀ (fs : List UnitId) (b : Bytes) (q : BitVec 12 × BitVec 48) (rest : List (BitVec 12 × BitVec 48)), s.rel.witnessReqs = q :: rest →
        (s.seq.replay.suspect = true → ∃ t : State, exec (.witnessWork fs b) s = .next t ∧ Only [.out, .stats, .pen, .conns, .rel] s t
          ∧ t.rel.witnessReqs = rest ∧ t.rel.served = s.rel.served
          ∧ s.out ++ [.message q.1.toNat MsgKind.witnessResult.code (leBytes 1 0)] <+: t.out)
        ∧ (s.seq.replay.suspect = false → s.phaseOver 7 = false → exec (.witnessWork fs b) s = .next s)
        ∧ (s.seq.replay.suspect = false → s.phaseOver 7 = true → fs.length < 2 → ∃ t : State, exec (.witnessWork fs b) s = .next t
          ∧ Only [.out, .stats, .tel, .pen, .conns, .events, .ledger, .rel] s t
          ∧ t.rel.witnessReqs = rest ∧ t.rel.served = satAdd s.rel.served 1
          ∧ s.out ++ [.message q.1.toNat MsgKind.witnessResult.code (leBytes 1 1)] <+: t.out)
        ∧ (s.seq.replay.suspect = false → s.phaseOver 7 = true → 2 ≤ fs.length → ∃ t : State, exec (.witnessWork fs b) s = .next t
          ∧ Only [.out, .stats, .tel, .pen, .conns, .events, .ledger, .rel] s t
          ∧ t.rel.witnessReqs = rest ∧ t.rel.served = s.rel.served
          ∧ s.out ++ [.message q.1.toNat MsgKind.witnessResult.code (leBytes 1 0)] <+: t.out))
    ∧ (∀ (ok : Bool) (r : WitnessReturn), s.seq.replay.awaiting = false → exec (.witnessResult ok r) s = .next s)
    ∧ (∀ r : WitnessReturn, s.seq.replay.awaiting = true →
        (∃ t : State, exec (.witnessResult false r) s = .next t ∧ Only [.halt, .replay, .tel, .events] s t ∧ Raised 0x7106 0 s t
          ∧ t.seq.replay = { s.seq.replay with awaiting := false } ∧ t.seq.haltPending = (s.seq.haltPending || s.jobRuns))
        ∧ (s.sentAgrees r = false → ∃ t : State, exec (.witnessResult true r) s = .next t ∧ Only [.halt, .replay, .tel, .events] s t
          ∧ Raised 0x7105 0 s t ∧ t.seq.replay = { s.seq.replay with awaiting := false }
          ∧ t.seq.haltPending = (s.seq.haltPending || s.jobRuns))
        ∧ (s.sentAgrees r = true → ∃ t : State, exec (.witnessResult true r) s = .next t
          ∧ Only [.out, .phases, .stats, .replay, .tel, .tiles, .emb, .watch, .pen, .conns, .msgs, .events] s t ∧ Raised 0x7104 0 s t
          ∧ t.seq.replay = { s.seq.replay with awaiting := false, verdictOk := true } ∧ t.emb.merged = r.merged
          ∧ t.seq.phases.started = [1, 2, 3, 4, 5, 6] ∧ t.seq.phases.ended = [1, 2, 3, 4, 5]
          ∧ t.fab.sendLog = s.fab.sendLog ++ r.units.map (fun u =>
              (u.dst.toNat * 2 ^ 32 + u.num, u.unit, checkWord (padTo 512 u.data) u.tag, u.tag))))
    ∧ (∀ (m : BitVec 12) (msg unit : Nat),
        s.fab.sendLog.any (fun e => e.1 == m.toNat * 2 ^ 32 + msg && e.2.1 == unit) = false → exec (.resend m msg unit) s = .next s)
    ∧ (∀ (m : BitVec 12) (msg unit : Nat), s.fab.sendLog.any (fun e => e.1 == m.toNat * 2 ^ 32 + msg && e.2.1 == unit) = true →
        s.jobRuns = true → 1 ≤ s.phase → s.phase ≤ 6 → s.seq.replay.running = false → s.seq.replay.count = 0 →
        ∃ t : State, exec (.resend m msg unit) s = .next t
          ∧ t.seq.replay.resend = s.seq.replay.resend ++ [(m.toNat * 2 ^ 32 + msg, unit)] ∧ t.seq.replay.running = true
          ∧ t.seq.replay.count = 1 ∧ t.seq.phases.started = [1] ∧ t.rel.replays = satAdd s.rel.replays 1 ∧ t.acc = []
          ∧ t.fab.sendLog = s.fab.sendLog)
    ∧ exec .lifetimeCountWrite s = .next { s with rel.lifeWritten := s.rel.lifeSteps }
    ∧ (∃ t : State, exec .trWatchdog s = .next t ∧ Only [.boot, .halt, .tel, .events] s t ∧ Raised 0x7501 unitTackRoom s t
        ∧ t.boot = { s.boot with cause := 2 } ∧ t.seq.haltPending = (s.seq.haltPending || s.jobRuns))

/-- R414, R416, R420 to R426, R432, R473: the security commands, each refused or carried out whole: certificates and reports go to the host; a
key blob enters confidential mode or fails and ends MODE 1; EXIT ends MODE 1 at once and MODE 2 with the secure erase.
Completion: certs, report, reportKem, keyLoad, exit. -/
def Obligations.SecurityCommands : Prop :=
  ∀ (s : State) (v : Word), s.boot.stage = .ready → s.setup.op = 0 → s.setup.cmdRunning = 0 → s.setup.armed = false →
    (∀ c ∈ [Instr.certs 0 v, .report 0 v, .reportKem 0 v, .keyLoad 0 v .failed, .exit 0 v], 1 ≤ v.toNat % 8 → v.toNat % 8 ≤ 4 →
      s.win.secAddr.toNat % 64 ≠ 0 → ∃ t : State, exec c s = .next t ∧ Only [.setup, .tel, .events, .sec] s t
        ∧ t.sec = { s.sec with resultCode := 0x8004, resultDone := true, running := false } ∧ Raised 0x8004 unitTackRoom s t
        ∧ Logged 0xD0004 0 .range t)
    ∧ (v.toNat % 8 = 1 → s.win.secAddr.toNat % 64 = 0 → 7592 ≤ s.win.secLen.toNat → s.sec.running = false → s.portOpen 0 →
      ∃ t : State, exec (.certs 0 v) s = .next t ∧ Only [.out, .setup, .sec] s t
        ∧ t.out = s.out ++ [.hostWrite 0 s.win.secAddr.toNat (padTo 7592 s.sec.certs)]
        ∧ t.sec = { s.sec with resultCode := 0, resultDone := true })
    ∧ (v.toNat % 8 = 2 → s.win.secAddr.toNat % 64 = 0 → 3892 ≤ s.win.secLen.toNat → s.sec.running = false → s.sec.idOk = false →
      ∃ t : State, exec (.report 0 v) s = .next t ∧ Only [.setup, .sec] s t
        ∧ t.sec = { s.sec with resultCode := 0x8001, resultDone := true } ∧ Logged 0xD0004 0 .state t)
    ∧ (v.toNat % 8 = 2 → bit 3 v.toNat = false → s.win.secAddr.toNat % 64 = 0 → 3892 ≤ s.win.secLen.toNat → s.sec.running = false →
      s.sec.idOk = true → s.portOpen 0 →
      ∃ t : State, exec (.report 0 v) s = .next t ∧ Only [.out, .setup, .sec] s t
        ∧ t.sec = { s.sec with resultCode := 0, resultDone := true, reportSeq := s.sec.reportSeq + 1 }
        ∧ ∃ b, t.out = s.out ++ [.hostWrite 0 s.win.secAddr.toNat b]
          ∧ slice b 24 8 = leBytes 8 (s.sec.reportSeq + 1).toNat)
    ∧ (v.toNat % 8 = 2 → bit 3 v.toNat = true → s.win.secAddr.toNat % 64 = 0 → 3892 ≤ s.win.secLen.toNat → s.sec.running = false →
      s.sec.idOk = true → s.portOpen 0 →
      ∃ t : State, exec (.reportKem 0 v) s = .next t ∧ Only [.out, .setup, .sec] s t ∧ t.sec.kem = some (Config.randomBits s.sec.draws)
        ∧ t.sec.mode = (if s.sec.mode = 0 then 1 else s.sec.mode) ∧ t.sec.reportSeq = s.sec.reportSeq + 1 ∧ t.sec.resultCode = 0
        ∧ t.sec.resultDone = true ∧ t.out = s.out ++ [.hostWrite 0 s.win.secAddr.toNat t.sec.lastReport])
    ∧ (∀ r, v.toNat % 8 = 3 → s.win.secAddr.toNat % 64 = 0 → 2480 ≤ s.win.secLen.toNat → s.sec.running = false → s.sec.idOk = true →
      s.idle = false ∨ s.sec.mode ≠ 1 → ∃ t : State, exec (.keyLoad 0 v r) s = .next t ∧ Only [.setup, .tel, .events, .sec] s t
        ∧ t.sec = { s.sec with resultCode := 0x8102, resultDone := true } ∧ Raised 0x8102 unitTackRoom s t)
    ∧ (∀ r, v.toNat % 8 = 3 → s.win.secAddr.toNat % 64 = 0 → 2480 ≤ s.win.secLen.toNat → s.sec.running = false → s.sec.idOk = true →
      s.idle = true → s.sec.mode = 1 →
      (r = .failed → ∃ t : State, exec (.keyLoad 0 v r) s = .next t ∧ Only [.out, .setup, .sec] s t ∧ t.sec.mode = 0 ∧ t.sec.kem = none
        ∧ t.sec.resultCode = 0x6108 ∧ t.sec.jobSecret = s.sec.jobSecret)
      ∧ (∀ b, r = .ok b → s.openBlob b = none → ∃ t : State, exec (.keyLoad 0 v r) s = .next t
        ∧ Only [.out, .setup, .tel, .events, .sec] s t ∧ t.sec.mode = 0 ∧ t.sec.kem = none ∧ t.sec.resultCode = 0x8101
        ∧ Raised 0x8101 unitTackRoom s t ∧ t.sec.jobSecret = s.sec.jobSecret)
      ∧ (∀ b k, r = .ok b → s.openBlob b = some k → ∃ t : State, exec (.keyLoad 0 v r) s = .next t ∧ t.sec.mode = 2 ∧ t.sec.kem = none
        ∧ t.sec.jobTag = k.jobTag ∧ t.sec.jobSecret = k.secret ∧ t.sec.tenantKey = Config.sha3 k.tenant ∧ t.sec.resultCode = 0
        ∧ t.plan = none ∧ t.emb.tables = [] ∧ t.mem.keyGen = s.mem.keyGen + 1 ∧ t.active.debugEn = false ∧ t.pend.debugEn = false
        ∧ t.sec.jtag ≠ .debug ∧ t.lastEvent = some 0x8103))
    ∧ (v.toNat % 8 = 4 → s.win.secAddr.toNat % 64 = 0 → s.sec.running = false → s.idle = true → s.sec.mode = 1 →
      ∃ t : State, exec (.exit 0 v) s = .next t ∧ Only [.setup, .tel, .events, .sec] s t ∧ Raised 0x8104 unitTackRoom s t
        ∧ t.sec = { s.sec with kem := none, mode := 0, resultCode := 0, resultDone := true, running := false })
    ∧ (v.toNat % 8 = 4 → s.win.secAddr.toNat % 64 = 0 → s.sec.running = false → s.idle = true → s.sec.mode = 2 →
      ∃ t : State, exec (.exit 0 v) s = .next t ∧ Only [.setup, .sec] s t ∧ t.setup.op = 2
        ∧ t.sec = { s.sec with resultDone := false, running := true })
    ∧ (v.toNat % 8 = 4 → s.win.secAddr.toNat % 64 = 0 → s.sec.running = false → s.idle = false ∨ s.sec.mode = 0 →
      ∃ t : State, exec (.exit 0 v) s = .next t ∧ Only [.setup, .tel, .events, .sec] s t ∧ Raised 0x8102 unitTackRoom s t
        ∧ t.sec = { s.sec with resultCode := 0x8102, resultDone := true })

/-- R426, R430, R458, R459, R461, R473: the end of the secure erase for ERASE and for EXIT; the JTAG instructions; the sideband answers GET_STATUS,
GET_EVENTS (which removes nothing) and MCTP control messages, and takes a dynamic address. The layout of GET_STATUS and the answers to
control messages are the model's choices (log 6).
Completion: bypass, idcode, samplePreload, extest, debug, getStatus, getEvents, mctpControlMessage, setdasa, entdaa, eraseEnd. -/
def Obligations.EraseJtagAndSideband : Prop :=
  ∀ s : State,
    (s.setup.op = 5 → ∃ t : State, exec .eraseEnd s = .next t ∧ t.mem.hbm = [] ∧ t.mem.tiles = [] ∧ t.acc = [] ∧ t.plan = none
      ∧ t.emb.tables = [] ∧ t.mem.keyGen = s.mem.keyGen + 1 ∧ (∀ k, k < 12 → (t.stack k).buffer = []) ∧ t.mem.waiting = []
      ∧ t.setup.op = 0 ∧ t.setup.cmdRunning = 0 ∧ t.setup.resultCode = 0 ∧ t.setup.resultDone = true
      ∧ t.sec = { s.sec with plan := 0 })
    ∧ (s.setup.op = 2 → s.sec.running = true → ∃ t : State, exec .eraseEnd s = .next t ∧ t.mem.hbm = [] ∧ t.mem.tiles = [] ∧ t.acc = []
      ∧ t.plan = none ∧ t.emb.tables = [] ∧ t.mem.keyGen = s.mem.keyGen + 2 ∧ t.setup.op = 0 ∧ t.sec.mode = 0 ∧ t.sec.kem = none
      ∧ t.sec.jobTag = 0 ∧ t.sec.jobSecret = 0 ∧ t.sec.tenantKey = 0 ∧ t.sec.running = false ∧ t.sec.resultCode = 0
      ∧ t.sec.resultDone = true ∧ t.lastEvent = some 0x8104 ∧ t.rel.replays = 0 ∧ t.watch.lost = 0)
    ∧ (s.setup.op ≠ 5 → s.setup.op ≠ 2 ∨ s.sec.running = false → exec .eraseEnd s = .next s)
    ∧ (∀ p ∈ [(Instr.bypass, JtagInstr.bypass), (.idcode, .idcode), (.samplePreload, .samplePreload), (.extest, .extest),
        (.debug, if s.active.debugEn = true ∧ s.sec.mode ≠ 2 then .debug else .bypass)],
      exec p.1 s = .next { s with sec.jtag := p.2 })
    ∧ (∃ t : State, exec .getStatus s = .next t ∧ Only [.out] s t ∧ ∃ b : Bytes, t.out = s.out ++ [.sideband b] ∧ b.length = 25
      ∧ slice b 3 2 = leBytes 2 s.pwr.iin.toNat ∧ slice b 17 4 = leBytes 4 s.pwr.wearHot.toNat ∧ slice b 21 4 = leBytes 4 s.pwr.wearOn.toNat)
    ∧ (∃ t : State, exec .getEvents s = .next t ∧ Only [.out] s t
      ∧ t.out = s.out ++ [.sideband (s.pwr.events.map EventRec.encode).flatten])
    ∧ (∀ body : Bytes, ∃ t : State, exec (.mctpControlMessage body) s = .next t ∧ Only [.out] s t
      ∧ t.out = s.out ++ [.sideband (Config.mctpReply body)])
    ∧ (∀ a : BitVec 7, ∀ c ∈ [Instr.setdasa a, .entdaa a], exec c s = .next { s with pwr.dynAddr := some a })

/-- R447: an input current above 80 A for 100 µs switches the saddle off; the controller enters LOCKOUT and raises PWR_OCP.
Completion: pwrOcp. -/
def Obligations.OverCurrent : Prop :=
  ∀ s : State, ∃ t : State, exec .pwrOcp s = .next t ∧ LockedOut 0x9005 s t ∧ t.powered = false

/-- R436, R439, R441, R449, R451, R459: VIN_UV, VIN_OV, THERM_TRIP, COOL_LOST of a powered saddle, and a rail that is not in regulation by 120 ms
put the module in LOCKOUT; it ends when PWR_EN rises after 100 ms low or by POWER_CYCLE, while the 10 s after a thermal trip run only with
them, and leaving it releases THERM_TRIP#.
Completion: pwrEnRise, railRegulationTimeout, tripWaitEnd, vinUv, vinOv, thermTrip, coolLost, powerCycle. -/
def Obligations.PowerLockouts : Prop :=
  ∀ s : State,
    (∃ t : State, exec .vinUv s = .next t ∧ LockedOut 0x9003 s t ∧ t.pwr.vinOk = false ∧ t.pwr.thermTrip = s.pwr.thermTrip)
    ∧ (∃ t : State, exec .vinOv s = .next t ∧ LockedOut 0x9004 s t ∧ t.pwr.vinOk = false ∧ t.pwr.thermTrip = s.pwr.thermTrip)
    ∧ (∃ t : State, exec .thermTrip s = .next t ∧ LockedOut 0x9202 s t ∧ t.pwr.thermTrip = true ∧ t.pwr.tripWait = true)
    ∧ (s.powered = true → ∃ t : State, exec .coolLost s = .next t ∧ LockedOut 0x9303 s t)
    ∧ (s.powered = false → exec .coolLost s = .next s)
    ∧ (s.pwr.ctl = .powering → ∃ t : State, exec .railRegulationTimeout s = .next t ∧ SaddleLost s t ∧ t.pwr.ctl = .lockout
        ∧ t.out = s.out ∧ t.pwr.events = s.pwr.events)
    ∧ (s.pwr.ctl ≠ .powering → exec .railRegulationTimeout s = .next s)
    ∧ (s.pwr.ctl = .lockout →
      (∀ (now a : Long), s.pwr.lowSince = some a →
        ∃ t : State, exec (.pwrEnRise now) s = .next t ∧ Only [.out, .time, .tel, .events, .powerEvents, .pwr] s t
          ∧ t.clk.time = now ∧ t.pwr.pwrEn = true ∧ t.pwr.lowSince = none
          ∧ (a.toNat + 100000000 ≤ now.toNat → s.pwr.tripWait = false → t.pwr.ctl = .standby ∧ t.pwr.thermTrip = false)
          ∧ (a.toNat + 100000000 ≤ now.toNat → s.pwr.tripWait = true → t.pwr.ctl = .lockout ∧ t.pwr.rearmed = true
              ∧ t.pwr.thermTrip = s.pwr.thermTrip)
          ∧ (now.toNat < a.toNat + 100000000 → t.pwr.ctl = .lockout ∧ t.pwr.rearmed = s.pwr.rearmed ∧ t.pwr.thermTrip = s.pwr.thermTrip))
      ∧ (∃ t : State, exec .powerCycle s = .next t ∧ Only [.out, .tel, .events, .powerEvents, .pwr] s t
          ∧ (s.pwr.tripWait = false → t.pwr.ctl = .standby ∧ t.pwr.thermTrip = false)
          ∧ (s.pwr.tripWait = true → t.pwr.ctl = .lockout ∧ t.pwr.rearmed = true ∧ t.pwr.thermTrip = s.pwr.thermTrip))
      ∧ (∃ t : State, exec .tripWaitEnd s = .next t ∧ Only [.out, .tel, .events, .powerEvents, .pwr] s t ∧ t.pwr.tripWait = false
          ∧ (s.pwr.rearmed = true → t.pwr.ctl = .standby ∧ t.pwr.thermTrip = false)
          ∧ (s.pwr.rearmed = false → t.pwr.ctl = .lockout ∧ t.pwr.thermTrip = s.pwr.thermTrip)))

/-- R437 to R440, R442, R452, R459, R461: the way from STANDBY through POWERING to ON and through STOPPING back; POWER_WAIT once while a
condition of power-on fails; what insertion and extraction leave.
Completion: auxPowerUp, moduleInsertion, moduleExtraction, pwrEnRise, powering, bulkCharged, pwrgd, pwrEnFall, railsOff, setEnable,
powerCycle. -/
def Obligations.PowerSequence : Prop :=
  ∀ s : State,
    (∃ t : State, exec .auxPowerUp s = .next t ∧ Only [.out, .tel, .events, .powerEvents, .pwr] s t
      ∧ t.pwr.auxUp = true ∧ t.pwr.ctl = .standby ∧ t.pwr.sideband = true
      ∧ (s.pwr.pwrEn = true → s.pwr.waitRaised = false → s.pwr.vinOk = false → PowerEvent 0x9501 s t)
      ∧ (s.pwr.pwrEn = false → t.events = s.events ∧ t.pwr.events = s.pwr.events ∧ t.out = s.out))
    ∧ (∃ t : State, exec .moduleInsertion s = .next t ∧ Only [.out, .tel, .events, .powerEvents, .pwr] s t
      ∧ t.pwr.inserted = true ∧ t.pwr.auxUp = true ∧ t.pwr.ctl = .standby ∧ t.pwr.sideband = true)
    ∧ (∃ t : State, exec .moduleExtraction s = .next t ∧ (s.powered = true → SaddleLost s t)
      ∧ (s.powered = false → Only [.pwr] s t)
      ∧ t.pwr.inserted = false ∧ t.pwr.flow = 0 ∧ t.powered = false ∧ t.pwr.ctl = .standby)
    ∧ (∀ now : Long, s.pwr.ctl = .standby → ∃ t : State, exec (.pwrEnRise now) s = .next t
      ∧ Only [.out, .time, .tel, .events, .powerEvents, .pwr] s t ∧ t.pwr.pwrEn = true ∧ t.pwr.ctl = .standby
      ∧ (s.pwr.auxUp = true → s.pwr.waitRaised = false →
          (s.pwr.inserted && s.pwr.sideband && s.pwr.vinOk && s.pwr.coolOk) = false → PowerEvent 0x9501 s t ∧ t.pwr.waitRaised = true)
      ∧ ((s.pwr.inserted && s.pwr.sideband && s.pwr.vinOk && s.pwr.coolOk) = true ∨ s.pwr.waitRaised = true → t.events = s.events ∧ t.out = s.out))
    ∧ (∀ now : Long, s.pwr.ctl = .standby → ∃ t : State, exec (.powering now) s = .next t ∧ Only [.time, .pwr] s t
      ∧ (s.pwr.mayPower = true → s.pwr.cycleAt = none → t.pwr.ctl = .powering ∧ t.pwr.waitRaised = false)
      ∧ (∀ a : Long, s.pwr.mayPower = true → s.pwr.cycleAt = some a →
          (t.pwr.ctl = .powering ↔ a.toNat + 1000000000 ≤ now.toNat))
      ∧ (s.pwr.mayPower = false → t.pwr.ctl = .standby))
    ∧ (s.pwr.ctl = .powering → ∃ t : State, exec .bulkCharged s = .next t ∧ Only [.pwr] s t ∧ t.pwr.bulk = true ∧ t.pwr.tackRoom = true
      ∧ t.pwr.ctl = .powering)
    ∧ (s.pwr.ctl = .powering → s.pwr.tackRoom = true → ∃ t : State, exec .pwrgd s = .next t ∧ Only [.pwr] s t
      ∧ t.pwr.ctl = .on ∧ t.pwr.saddle = true ∧ t.pwr.pwrgd = true)
    ∧ (∀ now : Long, s.pwr.ctl = .on ∨ s.pwr.ctl = .powering → ∃ t : State, exec (.pwrEnFall now) s = .next t ∧ Only [.time, .pwr] s t
      ∧ t.pwr.pwrEn = false ∧ t.pwr.lowSince = some now ∧ t.pwr.ctl = .stopping ∧ t.pwr.pwrgd = false ∧ t.pwr.saddle = s.pwr.saddle)
    ∧ (s.pwr.ctl = .on → ∃ t : State, exec .powerCycle s = .next t ∧ Only [.pwr] s t ∧ t.pwr.ctl = .stopping ∧ t.pwr.pwrgd = false
      ∧ t.pwr.cycleAt = some s.clk.time)
    ∧ (∀ hours : Nat, s.pwr.ctl = .stopping → ∃ t : State, exec (.railsOff hours 0) s = .next t ∧ t.pwr.ctl = .standby
      ∧ t.pwr.saddle = false ∧ t.pwr.tackRoom = false ∧ t.active = {} ∧ t.mem = { keyGen := s.mem.keyGen + 1 } ∧ t.seq = {}
      ∧ t.pwr.wearOn = satAdd s.pwr.wearOn hours ∧ t.pwr.wearHot = s.pwr.wearHot)
    ∧ (∃ t : State, exec (.setEnable true) s = .next t ∧ Only [.out, .tel, .events, .powerEvents, .pwr] s t
      ∧ t.pwr.sideband = true ∧ t.pwr.ctl = s.pwr.ctl ∧ t.pwr.pwrgd = s.pwr.pwrgd)
    ∧ (∃ t : State, exec (.setEnable false) s = .next t ∧ Only [.out, .tel, .events, .powerEvents, .pwr] s t
      ∧ t.pwr.sideband = false ∧ (s.pwr.ctl = .on ∨ s.pwr.ctl = .powering → t.pwr.ctl = .stopping ∧ t.pwr.pwrgd = false)
      ∧ (s.pwr.ctl ≠ .on → s.pwr.ctl ≠ .powering → t.pwr.ctl = s.pwr.ctl))

/-- R63, R327, R436, R444, R446, R448, R451, R452: VIN outside the rated band and a clamp that cannot hold its target suspend the time promise of a powered
saddle; SPEC_VOID is raised when the promise was in force; the clock steps down by 100 MHz to the floor in force. The hottest junction; the coolant out of specification
and back; the wear ledger's hours and its two thresholds.
Completion: vinLow, vinHigh, vinRated, clampStep, budgetClamp, specVoid, junctionSensorRead, coolSpec, coolOk, wearHour. -/
def Obligations.PromiseAndClamps : Prop :=
  ∀ s : State,
    (∀ (mv : Half) (c : Instr) (code : Half), (c, code) ∈ [(Instr.vinLow mv, 0x9001#16), (.vinHigh mv, 0x9002#16)] →
      ∃ t : State, exec c s = .next t ∧ Only [.out, .stats, .void, .tel, .events, .powerEvents, .pwr] s t
        ∧ t.pwr.vin = mv ∧ t.pwr.vinOk = false ∧ t.pwr.clock = s.pwr.clock ∧ t.pwr.ctl = s.pwr.ctl
        ∧ (s.powered = true → t.seq.void = { s.seq.void with vin := true } ∧ t.seq.stats.voided = true)
        ∧ (s.powered = true → s.seq.void.any = false → t.lastEvent = some 0x9010)
        ∧ (s.powered = true → s.seq.void.any = true → PowerEvent code s t)
        ∧ (s.powered = false → t.seq = s.seq))
    ∧ (∀ mv : Half, ∃ t : State, exec (.vinRated mv) s = .next t ∧ Only [.pwr] s t ∧ t.pwr.vin = mv ∧ t.pwr.vinOk = true
        ∧ t.pwr = { s.pwr with vin := mv, vinOk := true })
    ∧ (∃ t : State, exec .specVoid s = .next t ∧ Only [.stats, .void, .tel, .events] s t ∧ t.seq.void = { s.seq.void with clamp := true }
        ∧ (s.seq.void.any = false → Raised 0x9010 0 s t) ∧ (s.seq.void.any = true → t.events = s.events))
    ∧ (∀ j : Bool, ∃ t : State, exec (.clampStep j) s = .next t ∧ Only [.stats, .tel, .events, .pwr] s t
        ∧ t.pwr.clampActed = true ∧ t.pwr.clamped = true ∧ t.pwr.clampAt = some s.clk.time ∧ t.pwr.stepClock = s.pwr.stepClock
        ∧ (s.seq.void.any = false → 3100 ≤ s.pwr.clock.toNat → t.pwr.clock.toNat = s.pwr.clock.toNat - 100)
        ∧ (s.seq.void.any = false → 3000 ≤ s.pwr.clock.toNat → s.pwr.clock.toNat < 3100 → t.pwr.clock.toNat = 3000)
        ∧ (s.seq.void.any = true → 2100 ≤ s.pwr.clock.toNat → t.pwr.clock.toNat = s.pwr.clock.toNat - 100)
        ∧ (s.seq.void.any = true → 2000 ≤ s.pwr.clock.toNat → s.pwr.clock.toNat < 2100 → t.pwr.clock.toNat = 2000)
        ∧ t.pwr.clock.toNat ≤ s.pwr.clock.toNat ∧ t.seq.stats.clockMin = min s.seq.stats.clockMin t.pwr.clock.toNat
        ∧ (s.events.once.contains (0x9104, 0) = false → Raised 0x9104 0 s t)
        ∧ (s.events.once.contains (0x9104, 0) = true → t.events = s.events))
    ∧ (∃ t : State, exec .budgetClamp s = .next t ∧ Only [.tel, .events, .pwr] s t ∧ t.pwr.peakUsed = 250 ∧ t.pwr.clampActed = true
        ∧ t.pwr.clamped = true ∧ t.pwr.clock = s.pwr.clock
        ∧ (s.events.once.contains (0x9104, 0) = false → Raised 0x9104 0 s t)
        ∧ (s.events.once.contains (0x9104, 0) = true → t.events = s.events))
    ∧ (∀ (temp : Half) (n : BitVec 7), ∃ t : State, exec (.junctionSensorRead temp n) s = .next t ∧ Only [.stats, .pwr] s t
      ∧ t.pwr.tj = temp ∧ t.pwr.tjSensor = n
      ∧ t.seq.stats.tjMax.toInt = max s.seq.stats.tjMax.toInt temp.toInt ∧ t.pwr.tjMax.toInt = max s.pwr.tjMax.toInt temp.toInt)
    ∧ (∀ (inlet flow : Half) (pin : Bool), ∃ t : State, exec (.coolSpec inlet flow pin) s = .next t
      ∧ Only [.out, .stats, .void, .tel, .channels, .events, .powerEvents, .pwr] s t
      ∧ t.pwr.inlet = inlet ∧ t.pwr.flow = flow ∧ t.pwr.coolPin = pin ∧ t.pwr.coolOk = false ∧ t.pwr.ctl = s.pwr.ctl
      ∧ (s.pwr.coolOk = true → s.powered = true → t.mem.crit = true ∧ t.seq.void = { s.seq.void with coolant := true })
      ∧ (s.pwr.coolOk = true → s.powered = true → s.seq.void.any = false → t.lastEvent = some 0x9010)
      ∧ (s.pwr.coolOk = true → s.powered = true → s.seq.void.any = true → t.lastEvent = some 0x4303)
      ∧ (s.pwr.coolOk = false → Only [.pwr] s t))
    ∧ (∀ inlet flow : Half, ∃ t : State, exec (.coolOk inlet flow) s = .next t ∧ Only [.out, .tel, .events, .powerEvents, .pwr] s t
      ∧ t.pwr.inlet = inlet ∧ t.pwr.flow = flow ∧ t.pwr.coolPin = false ∧ t.pwr.coolOk = true
      ∧ (s.pwr.coolOk = false → PowerEvent 0x9302 s t) ∧ (s.pwr.coolOk = true → t.events = s.events ∧ t.out = s.out))
    ∧ (∃ t : State, exec (.wearHour false) s = .next t ∧ Only [.pwr] s t ∧ t.pwr = { s.pwr with wearOn := satAdd s.pwr.wearOn 1 })
    ∧ (∃ t : State, exec (.wearHour true) s = .next t ∧ Only [.out, .tel, .events, .powerEvents, .pwr] s t
      ∧ t.pwr.wearHot = satAdd s.pwr.wearHot 1 ∧ t.pwr.wearOn = s.pwr.wearOn
      ∧ (s.pwr.wearHot.toNat = 3999 → PowerEvent 0x9401 s t) ∧ (s.pwr.wearHot.toNat = 4999 → PowerEvent 0x9402 s t)
      ∧ (s.pwr.wearHot.toNat ≠ 3999 → s.pwr.wearHot.toNat ≠ 4999 → t.events = s.events ∧ t.out = s.out))

/-- R441: whatever is commanded, LOCKOUT is left only by a rise of PWR_EN, POWER_CYCLE, the end of the wait after a thermal trip, or by
taking the module's standby power away. -/
def Obligations.LockoutHolds : Prop :=
  ∀ (c : Instr) (s t : State), s.pwr.ctl = .lockout → exec c s = .next t →
    t.pwr.ctl = .lockout ∨ c = .powerCycle ∨ c = .tripWaitEnd ∨ c = .auxPowerUp ∨ c = .moduleInsertion ∨ c = .moduleExtraction
      ∨ ∃ now a : Long, c = .pwrEnRise now ∧ s.pwr.lowSince = some a ∧ a.toNat + 100000000 ≤ now.toNat

/-- R60, R292, R472, R478, R480 to R482: the setup commands begin, or are refused with the code the table names; a plan image is
read header first, and the rest when its length agrees, and is loaded or leaves the previous plan; a firmware image goes to flash only when it is verified; a module reset keeps HBM contents, keys and the ledger and
loses the plan and the job.
Completion: planLoad, planImageRead, fwUpdate, flashWriteEnd, erase, moduleReset, recover, fwImageRead. -/
def Obligations.SetupCommands : Prop :=
  ∀ (s : State),
    (∀ v : Word, s.takesWrite → s.setup.armed = false →
      (v.toNat % 16 = 1 → s.idle = true → ∃ t : State, exec (.planLoad 0 v) s = .next t ∧ Only [.out, .setup] s t
        ∧ t.setup.op = 1 ∧ t.setup.cmdRunning = 1 ∧ t.setup.resultCmd = 1 ∧ t.setup.resultDone = false
        ∧ t.out = s.out ++ [.hostRead 0 s.setup.addr.toNat (min 512 s.setup.len.toNat)])
      ∧ (v.toNat % 16 = 1 → s.idle = false → ∃ t : State, exec (.planLoad 0 v) s = .next t ∧ Only [.setup, .tel, .events] s t
        ∧ t.setup.resultCmd = 1 ∧ t.setup.resultCode = 0x5302 ∧ t.setup.resultDone = true ∧ Logged 0x1000C 0 .state t ∧ Raised 0x5302 0 s t)
      ∧ (v.toNat % 16 = 2 → s.idle = true → ∃ t : State, exec (.fwUpdate 0 v) s = .next t
        ∧ Only [.out, .setup, .plan, .queues, .tel, .events, .exp, .sec] s t ∧ t.setup.cmdRunning = 2 ∧ t.setup.op = 0 ∧ t.plan = none
        ∧ t.setup.resultDone = false ∧ t.out = s.out ++ [.hostRead 0 s.setup.addr.toNat s.setup.len.toNat])
      ∧ (v.toNat % 16 = 3 → s.idle = true → ∃ t : State, exec (.erase 0 v) s = .next t ∧ Only [.setup] s t
        ∧ t.setup.op = 5 ∧ t.setup.cmdRunning = 3 ∧ t.setup.resultCmd = 3 ∧ t.setup.resultDone = false)
      ∧ (∀ c ∈ [Instr.fwUpdate 0 v, .erase 0 v], v.toNat % 16 = 2 ∨ v.toNat % 16 = 3 → s.idle = false →
        ∃ t : State, exec c s = .next t ∧ Only [.setup] s t ∧ t.setup.resultDone = true ∧ t.setup.op = 0 ∧ Logged 0x1000C 0 .state t)
      ∧ (v.toNat % 16 = 4 → s.setup.flashBusy = true → ∃ t : State, exec (.moduleReset 0 v) s = .next t ∧ Only [.setup] s t
        ∧ Logged 0x1000C 0 .state t)
      ∧ (v.toNat % 16 = 4 → s.setup.flashBusy = false → ∃ t : State, exec (.moduleReset 0 v) s = .next t
        ∧ t.mem.hbm = s.mem.hbm ∧ t.mem.units = s.mem.units ∧ t.mem.epoch = s.mem.epoch ∧ t.mem.keyGen = s.mem.keyGen
        ∧ t.mem.tiles = [] ∧ t.acc = [] ∧ t.plan = none ∧ t.seq.job = .idle ∧ t.host = {} ∧ t.setup = {} ∧ t.win = {}
        ∧ t.active = { excl := s.active.excl } ∧ t.pend = { excl := s.active.excl } ∧ t.boot = { s.boot.flash with cause := 1 }
        ∧ t.sec.jobTag = s.sec.jobTag ∧ t.sec.jobSecret = s.sec.jobSecret ∧ t.sec.mode = (if s.sec.mode = 1 then 0 else s.sec.mode)
        ∧ (∀ u, (t.unit u).state = (s.unit u).state ∧ (t.unit u).counted = (s.unit u).counted) ∧ t.pwr.ctl = s.pwr.ctl ∧ t.out = s.out))
    ∧ (∀ (v : Word) (img : FwImage), s.boot.stage = .recovery → s.setup.op = 0 → s.setup.cmdRunning = 0 → s.setup.armed = false →
      s.confidential = false → v.toNat % 16 = 5 →
      (img.read = .failed → ∃ t : State, exec (.recover 0 v img) s = .next t ∧ Only [.out, .setup] s t ∧ t.setup.resultCode = 0x6108
        ∧ t.setup.resultDone = true)
      ∧ (∀ b, img.read = .ok b → fwHeaderBad b = true → ∃ t : State, exec (.recover 0 v img) s = .next t
        ∧ Only [.out, .setup, .tel, .events] s t ∧ t.setup.resultCode = 0x8301 ∧ Raised 0x8301 unitTackRoom s t)
      ∧ (∀ b, img.read = .ok b → fwHeaderBad b = false → fwHashBad b = true → ∃ t : State, exec (.recover 0 v img) s = .next t
        ∧ t.boot.stage = .recovery ∧ t.setup.resultCode = 0x8302 ∧ Raised 0x8302 unitTackRoom s t)
      ∧ (∀ b, img.read = .ok b → fwHeaderBad b = false → fwHashBad b = false → img.flashOk = true →
        ∃ t : State, exec (.recover 0 v img) s = .next t ∧ t.boot = { s.boot.flash with cause := 1, image := some b }))
    ∧ (∀ (v : Word) (img : FwImage), s.takesWrite → s.setup.armed = false → v.toNat % 16 = 5 →
      ∃ t : State, exec (.recover 0 v img) s = .next t ∧ Only [.setup] s t ∧ Logged 0x1000C 0 .state t)
    ∧ (∀ r l, s.setup.op ≠ 1 → exec (.planImageRead r l) s = .next s)
    ∧ (∀ l, s.setup.op = 1 → s.setup.cmdRunning = 1 → s.setup.flashBusy = false →
      (∃ t : State, exec (.planImageRead .failed l) s = .next t ∧ Only [.setup] s t ∧ t.setup.op = 0 ∧ t.setup.cmdRunning = 0
        ∧ t.setup.resultCode = 0x6108 ∧ t.setup.resultDone = true)
      ∧ (∀ b, headerBad b s.setup.len.toNat = true ∨ b.length ≠ s.setup.len.toNat → ∃ t : State, exec (.planImageRead (.ok b) l) s = .next t
        ∧ Only [.out, .setup, .tel, .events] s t ∧ t.setup.op = 0 ∧ t.setup.resultCode = 0x1302 ∧ t.setup.resultDone = true ∧ Raised 0x1302 0 s t
        ∧ (field b 8 8 ≠ s.setup.len.toNat → t.out = s.out))
      ∧ (∀ b, headerBad b s.setup.len.toNat = false → b.length = s.setup.len.toNat → placesBad b = false → s.mapBad b = false →
        s.signatureBad b = false → s.imageBad b l s.setup.len.toNat = false →
        ((s.runAdmission (parsePlan b l) s.active.tickPeriod.toNat).2 = true → ∃ t : State, exec (.planImageRead (.ok b) l) s = .next t
          ∧ t.plan = some (parsePlan b l) ∧ t.sec.plan = (parsePlan b l).measure ∧ t.setup.resultCode = 0 ∧ t.setup.resultDone = true
          ∧ t.setup.op = 0 ∧ (512 < s.setup.len.toNat → .hostRead 0 (s.setup.addr.toNat + 512) (s.setup.len.toNat - 512) ∈ t.out))
        ∧ ((s.runAdmission (parsePlan b l) s.active.tickPeriod.toNat).2 = false → ∃ t : State, exec (.planImageRead (.ok b) l) s = .next t
          ∧ Only [.out, .setup, .seq, .tel, .events] s t ∧ t.setup.resultCode = 0x1301 ∧ t.setup.resultDone = true ∧ t.setup.op = 0)))
    ∧ (∀ img : FwImage, s.setup.cmdRunning ≠ 2 ∨ s.setup.flashBusy = true → exec (.fwImageRead img) s = .next s)
    ∧ (∀ (img : FwImage) (b : Bytes), s.setup.cmdRunning = 2 → s.setup.flashBusy = false → img.read = .ok b →
      (fwFailure b ≠ 0 → ∃ t : State, exec (.fwImageRead img) s = .next t ∧ Only [.setup, .tel, .tiles, .events] s t
        ∧ t.setup.resultCode.toNat = fwFailure b ∧ t.setup.cmdRunning = 0 ∧ t.lastEvent = some (BitVec.ofNat 16 (fwFailure b)))
      ∧ (fwFailure b = 0 → img.flashOk = true → ∃ t : State, exec (.fwImageRead img) s = .next t ∧ Only [.setup, .boot, .tiles] s t
        ∧ t.setup.flashBusy = true ∧ t.boot = { s.boot with writing := some b }))
    ∧ (∀ b, s.boot.writing = some b → ∃ t : State, exec .flashWriteEnd s = .next t ∧ Only [.setup, .boot] s t
      ∧ t.boot = { s.boot with image := some b, writing := none, fwNewer := true }
      ∧ t.setup = { s.setup with flashBusy := false, cmdRunning := 0, resultCode := 0, resultDone := true })
    ∧ (s.boot.writing = none → exec .flashWriteEnd s = .next s)

/-- R13, R412, R415, R418, R419, R479, R481, R483: boot from what module flash holds: FAILED with FAIL 4 on bad trim, RECOVERY with FAIL 1 to 3, else
every die is measured and released; READY when all 64 have started; FAIL 5 when one does not. What flash holds before the first boot comes
with that command (the model's choice, log 41).
Completion: boot, dieStarted, dieStartTimeout. -/
def Obligations.BootSequence : Prop :=
  ∀ (s : State) (b r : BootInput), s.readFlash b = r →
    (∀ i, s.boot.image = some i → r.image = i) ∧ (s.boot.image = none → r.image = b.image)
    ∧ (∀ h, s.boot.hyram = some h → r.certs = h.certs ∧ r.trim = h.trim ∧ r.vendor = h.vendor ∧ r.stepping = h.stepping)
    ∧ (∀ f, s.boot.svnFloor = some f → r.svnFloor = some f)
    ∧ (s.boot.stage ≠ .rom ∨ s.pwr.tackRoom = false → exec (.boot b) s = .next s)
    ∧ (s.boot.stage = .rom → s.pwr.tackRoom = true →
      (r.trimOk = false → ∃ t : State, exec (.boot b) s = .next t ∧ Only [.boot, .sec, .tel, .events] s t
        ∧ t.boot.stage = .failed ∧ t.boot.fail = 4 ∧ t.boot.image = some r.image
        ∧ t.boot.hyram = some ⟨r.certs, r.trim, r.vendor, r.stepping⟩)
      ∧ (r.trimOk = true → ∀ f : Nat, (f = 3 ∧ r.flashReadOk = false) ∨ (f = 1 ∧ r.flashReadOk = true ∧ fwHeaderBad r.image = true)
          ∨ (f = 2 ∧ r.flashReadOk = true ∧ fwHeaderBad r.image = false ∧ fwHashBad r.image = true) →
        ∃ t : State, exec (.boot b) s = .next t ∧ Only [.boot, .sec, .mem, .tel, .events] s t ∧ t.boot.stage = .recovery
          ∧ t.boot.fail.toNat = f ∧ t.sec.mode = 0 ∧ t.sec.kem = none ∧ t.sec.jobSecret = 0 ∧ t.sec.jobTag = 0
          ∧ t.mem.keyGen = s.mem.keyGen + 1)
      ∧ (r.trimOk = true → r.flashReadOk = true → fwHeaderBad r.image = false → fwHashBad r.image = false →
        ∃ t : State, exec (.boot b) s = .next t ∧ t.boot.stage = .releasing ∧ t.boot.released = List.range 64 ∧ t.boot.started = []
          ∧ t.sec.fw = fwMeasure r.image ∧ t.sec.trim = Config.sha3 r.trim
          ∧ t.sec.svn = fwSvn r.image ∧ t.boot.version = fwVersionOf r.image ∧ t.boot.image = some r.image
          ∧ t.sec.svnLow = decide ((fwSvn r.image).toNat < (r.svnFloor.getD (fwSvn r.image)).toNat)
          ∧ t.sec.mode = s.sec.mode ∧ t.mem.keyGen = s.mem.keyGen ∧ (∀ k, k < 12 → (t.stack k).buffer = [])
          ∧ (r.secret = none → t.sec.idOk = false)
          ∧ (∀ ds, r.secret = some ds → t.sec.idOk = (Config.identityKey (identitySeed ds) == slice r.certs 64 1312))))
    ∧ (∀ d : Fin 64, s.boot.stage ≠ .releasing ∨ s.boot.started.contains d.val = true →
      exec (.dieStarted d) s = .next s ∧ exec (.dieStartTimeout d) s = .next s)
    ∧ (∀ d : Fin 64, s.boot.stage = .releasing → s.boot.started.contains d.val = false →
      (s.boot.started.length ≠ 63 → exec (.dieStarted d) s = .next { s with boot.started := d.val :: s.boot.started })
      ∧ (s.boot.started.length = 63 → exec (.dieStarted d) s = .next { s with boot.started := d.val :: s.boot.started, boot.stage := .ready })
      ∧ exec (.dieStartTimeout d) s = .next { s with boot.stage := .failed, boot.fail := 5 })

/-- R76, R256, R407, R425, R457, R461: after reset the memories are canonical, the event buffers empty, both register views in their ranges and
debug closed; no command waits; the module is in STANDBY and no job runs. The registers for which the manual gives no reset value hold the
model's choices (log 2, log 3); the queue of waiting commands is the model's own field. -/
def Obligations.ResetIsSound : Prop :=
  State.reset.Sound ∧ State.reset.pending = [] ∧ State.reset.pwr.ctl = .standby ∧ State.reset.seq.job = .idle
    ∧ State.reset.active.tickPeriod = 100000 ∧ State.reset.active.powerLimit = 2400 ∧ State.reset.pwr.clock = 3600
    ∧ ∀ u, State.reset.unavailable u = false

/-- R464, R469: a step takes the command at the front of the queue and runs it with the rest of the queue waiting; with an empty queue the
module idles (the queue and the idling are the model's own, log 1). -/
def Obligations.StepRunsTheFrontCommand : Prop :=
  (∀ (c : Instr) (q : List Instr) (s : State), s.pending = c :: q → step s = exec c { s with pending := q })
  ∧ (∀ s : State, s.pending = [] → step s = .next s)
  ∧ (∀ (c : Instr) (s t : State), exec c s = .next t → t.pending = s.pending)
  ∧ (∀ (s t : State) (c : Instr) (q : List Instr), s.pending = c :: q → step s = .next t → t.pending = q)

/-- R39, R76, R256, R391, R394, R407, R425, R430, R457, R461: whatever is commanded, a step keeps the memories canonical, the event buffers within
their bounds, both register views in the ranges their registers accept and debug closed in confidential mode; and a unit that is PERMANENT
or RETIRED stays unavailable. -/
def Obligations.SoundIsKept : Prop :=
  ∀ s t : State, step s = .next t → (s.Sound → t.Sound) ∧ ∀ u, s.unavailable u = true → t.unavailable u = true

/-- R50: the step counter reads 0 from the tick at which a job starts; it holds at every HOLD tick and at the GO tick that starts step 0, and
advances by 1 at every later GO tick; no other command moves it but to 0, as a reset does.
Completion: localTick, tickInEdge. -/
def Obligations.StepCounter : Prop :=
  (∀ (s t : State) (c : Instr), exec c s = .next t → (∀ now p, c ≠ .localTick now p ∧ c ≠ .tickInEdge now p) →
    t.seq.step = s.seq.step ∨ t.seq.step = 0)
  ∧ (∀ (s t : State) (now : Long) (p : PowerSample) (c : Instr), c = .localTick now p ∨ c = .tickInEdge now p → exec c s = .next t →
    t.seq.step = s.seq.step ∨ (t.seq.step = 0 ∧ (s.filling = true ∨ s.seq.startPending = true))
      ∨ (s.jobRuns = true ∧ t.seq.step = s.seq.step + 1))
  ∧ (∀ (s : State) (now : Long) (p : PowerSample), s.active.tickSource ≠ 2 → s.idle = true → s.seq.startPending = true →
    (s.multi = false ∨ ∃ t0, s.clk.t0 = some t0 ∧ t0.toNat ≤ now.toNat) →
    ∃ t : State, exec (.localTick now p) s = .next t ∧ t.seq.step = 0)
  ∧ (∀ (s : State) (now : Long) (p : PowerSample) (d : Decision), s.active.tickSource ≠ 2 → s.jobRuns = true →
    s.seq.haltPending = false → s.clk.tickLost = false → s.seq.curSlips.toNat < s.pend.slipLimit.toNat → s.clk.decision = some d →
    ∃ t : State, exec (.localTick now p) s = .next t
      ∧ t.seq.step = (if d.go = false then s.seq.step else if s.filling = true then 0 else s.seq.step + 1))
end

