-- ==== Sys2Proof/Laws/Memory.lean ====
section
/-! SUPPORT. What the sparse maps and byte memory do: a lookup after an insertion, an erasure or a map; read after write; and
every memory operation keeps the canonical form. -/

namespace Sys2Proof.Machine

/-! ## Lookups -/

variable {α β : Type}

theorem NMap.find?_insert (m : NMap α) (i j : Nat) (v : α) :
    NMap.find? (NMap.insert m i v) j = if i = j then some v else NMap.find? m j := by
  induction m with
  | nil => simp [NMap.insert, NMap.find?]
  | cons e r ih =>
    obtain ⟨k, w⟩ := e
    simp only [NMap.insert]
    split
    · simp only [NMap.find?, ih]
      split_ifs <;> first | rfl | omega
    · split
      · subst_vars
        simp only [NMap.find?]
        split_ifs <;> rfl
      · simp [NMap.find?]

@[simp] theorem NMap.find?_insert_self (m : NMap α) (i : Nat) (v : α) : NMap.find? (NMap.insert m i v) i = some v := by
  simp [NMap.find?_insert]

theorem NMap.find?_insert_of_ne (m : NMap α) {i j : Nat} (v : α) (h : i ≠ j) :
    NMap.find? (NMap.insert m i v) j = NMap.find? m j := by simp [NMap.find?_insert, h]

theorem NMap.getD_insert (m : NMap α) (i j : Nat) (v d : α) :
    NMap.getD (NMap.insert m i v) j d = if i = j then v else NMap.getD m j d := by
  simp only [NMap.getD, NMap.find?_insert]
  split_ifs <;> rfl

theorem NMap.getD_modify (m : NMap α) (i j : Nat) (d : α) (f : α → α) :
    NMap.getD (NMap.modify m i d f) j d = if i = j then f (NMap.getD m i d) else NMap.getD m j d := by
  simp [NMap.modify, NMap.getD_insert]

theorem NMap.find?_map (m : NMap α) (f : α → β) (j : Nat) :
    NMap.find? (m.map (fun e => (e.1, f e.2))) j = (NMap.find? m j).map f := by
  induction m with
  | nil => rfl
  | cons e r ih =>
    simp only [List.map_cons, NMap.find?, ih]
    split_ifs <;> rfl

theorem NMap.getD_map (m : NMap α) (f : α → α) (j : Nat) (d : α) (h : f d = d) :
    NMap.getD (m.map (fun e => (e.1, f e.2))) j d = f (NMap.getD m j d) := by
  simp only [NMap.getD, NMap.find?_map]
  cases NMap.find? m j <;> simp [h]

/-! ## Keys stay in order -/

theorem NMap.sortedFrom_mono {lo lo' : Nat} (h : lo' ≤ lo) (m : NMap α) (hm : NMap.sortedFrom lo m = true) :
    NMap.sortedFrom lo' m = true := by
  cases m with
  | nil => rfl
  | cons e r =>
    simp only [NMap.sortedFrom, Bool.and_eq_true, decide_eq_true_eq] at hm ⊢
    exact ⟨by omega, hm.2⟩

theorem NMap.sortedFrom_insert {lo i : Nat} (h : lo ≤ i) (m : NMap α) (v : α) (hm : NMap.sortedFrom lo m = true) :
    NMap.sortedFrom lo (NMap.insert m i v) = true := by
  induction m generalizing lo with
  | nil => simp [NMap.insert, NMap.sortedFrom, h]
  | cons e r ih =>
    simp only [NMap.sortedFrom, Bool.and_eq_true, decide_eq_true_eq] at hm
    simp only [NMap.insert]
    split
    · simp only [NMap.sortedFrom, Bool.and_eq_true, decide_eq_true_eq]
      exact ⟨hm.1, ih (by omega) hm.2⟩
    · split
      · subst_vars
        simp only [NMap.sortedFrom, Bool.and_eq_true, decide_eq_true_eq]
        exact ⟨h, hm.2⟩
      · simp only [NMap.sortedFrom, Bool.and_eq_true, decide_eq_true_eq]
        exact ⟨h, by omega, hm.2⟩

theorem NMap.sortedFrom_erase {lo : Nat} (m : NMap α) (i : Nat) (hm : NMap.sortedFrom lo m = true) :
    NMap.sortedFrom lo (NMap.erase m i) = true := by
  induction m generalizing lo with
  | nil => rfl
  | cons e r ih =>
    simp only [NMap.sortedFrom, Bool.and_eq_true, decide_eq_true_eq] at hm
    simp only [NMap.erase]
    split
    · exact NMap.sortedFrom_mono (by omega) r hm.2
    · simp only [NMap.sortedFrom, Bool.and_eq_true, decide_eq_true_eq]
      exact ⟨hm.1, ih hm.2⟩

theorem NMap.sorted_insert (m : NMap α) (i : Nat) (v : α) (hm : NMap.sorted m = true) : NMap.sorted (NMap.insert m i v) = true :=
  NMap.sortedFrom_insert (Nat.zero_le i) m v hm

theorem NMap.find?_none_of_sortedFrom {lo i : Nat} (m : NMap α) (hm : NMap.sortedFrom lo m = true) (h : i < lo) :
    NMap.find? m i = none := by
  induction m generalizing lo with
  | nil => rfl
  | cons e r ih =>
    simp only [NMap.sortedFrom, Bool.and_eq_true, decide_eq_true_eq] at hm
    simp only [NMap.find?]
    rw [if_neg (by omega)]
    exact ih hm.2 (by omega)

theorem NMap.find?_erase {lo : Nat} (m : NMap α) (i j : Nat) (hm : NMap.sortedFrom lo m = true) :
    NMap.find? (NMap.erase m i) j = if i = j then none else NMap.find? m j := by
  induction m generalizing lo with
  | nil => simp [NMap.erase, NMap.find?]
  | cons e r ih =>
    obtain ⟨k, w⟩ := e
    simp only [NMap.sortedFrom, Bool.and_eq_true, decide_eq_true_eq] at hm
    simp only [NMap.erase]
    split
    · subst_vars
      simp only [NMap.find?]
      split_ifs with h
      · subst h; exact NMap.find?_none_of_sortedFrom r hm.2 (by omega)
      · rfl
    · simp only [NMap.find?, ih hm.2]
      split_ifs <;> first | rfl | omega

/-! ## Byte memory -/

theorem NMap.mem_insert {m : NMap α} {i : Nat} {v : α} {e : Nat × α} (h : e ∈ NMap.insert m i v) : e = (i, v) ∨ e ∈ m := by
  induction m with
  | nil => simpa [NMap.insert] using h
  | cons x r ih =>
    simp only [NMap.insert] at h
    split at h
    · rcases List.mem_cons.mp h with h | h
      · simp [h]
      · rcases ih h with h | h <;> simp [h]
    · split at h
      · rcases List.mem_cons.mp h with h | h <;> simp [h]
      · rcases List.mem_cons.mp h with h | h
        · simp [h]
        · exact Or.inr h

theorem NMap.mem_erase {m : NMap α} {i : Nat} {e : Nat × α} (h : e ∈ NMap.erase m i) : e ∈ m := by
  induction m with
  | nil => simpa [NMap.erase] using h
  | cons x r ih =>
    simp only [NMap.erase] at h
    split at h
    · exact List.mem_cons_of_mem _ h
    · rcases List.mem_cons.mp h with h | h
      · simp [h]
      · exact List.mem_cons_of_mem _ (ih h)

/-- A write keeps the canonical form. -/
theorem Memory.wf_write (m : Memory) (a : Nat) (b : Byte) (h : Memory.wf m = true) : Memory.wf (Memory.write m a b) = true := by
  simp only [Memory.wf, Bool.and_eq_true, List.all_eq_true] at h ⊢
  unfold Memory.write
  split
  · exact ⟨NMap.sortedFrom_erase m a h.1, fun e he => h.2 e (NMap.mem_erase he)⟩
  · refine ⟨NMap.sorted_insert m a b h.1, fun e he => ?_⟩
    rcases NMap.mem_insert he with rfl | he
    · simpa using ‹¬ b = Memory.blank›
    · exact h.2 e he

/-- A write of a string of bytes keeps the canonical form. -/
theorem Memory.wf_writeBytes (bs : Bytes) (m : Memory) (a : Nat) (h : Memory.wf m = true) :
    Memory.wf (Memory.writeBytes m a bs) = true := by
  induction bs generalizing m a with
  | nil => exact h
  | cons b bs ih => exact ih _ _ (Memory.wf_write m a b h)

/-- A byte read after a write of one byte. -/
theorem Memory.read_write (m : Memory) (a x : Nat) (b : Byte) (h : Memory.wf m = true) :
    Memory.read (Memory.write m a b) x = if a = x then b else Memory.read m x := by
  simp only [Memory.wf, Bool.and_eq_true] at h
  unfold Memory.read Memory.write NMap.getD
  split
  · rw [NMap.find?_erase m a x h.1]
    split_ifs <;> simp_all
  · rw [NMap.find?_insert]
    split_ifs <;> rfl

/-- A byte outside the bytes written reads as before. -/
theorem Memory.read_writeBytes_of_outside (bs : Bytes) (m : Memory) (a x : Nat) (h : Memory.wf m = true)
    (hx : x < a ∨ a + bs.length ≤ x) : Memory.read (Memory.writeBytes m a bs) x = Memory.read m x := by
  induction bs generalizing m a with
  | nil => rfl
  | cons b bs ih =>
    simp only [List.length_cons] at hx
    simp only [Memory.writeBytes]
    rw [ih _ _ (Memory.wf_write m a b h) (by omega), Memory.read_write m a x b h, if_neg (by omega)]

/-- The byte written at an offset is what is read there. -/
theorem Memory.read_writeBytes_inside (bs : Bytes) (m : Memory) (a i : Nat) (h : Memory.wf m = true) (hi : i < bs.length) :
    Memory.read (Memory.writeBytes m a bs) (a + i) = bs[i] := by
  induction bs generalizing m a i with
  | nil => simp at hi
  | cons b bs ih =>
    simp only [Memory.writeBytes]
    cases i with
    | zero =>
      rw [Memory.read_writeBytes_of_outside bs _ _ _ (Memory.wf_write m a b h) (by omega), Memory.read_write m a _ b h]
      simp
    | succ i =>
      have := ih (Memory.write m a b) (a + 1) i (Memory.wf_write m a b h) (by simpa using hi)
      rw [show a + (i + 1) = a + 1 + i by omega, this]
      rfl

/-- Reading back what was written. -/
theorem Memory.readBytes_writeBytes (bs : Bytes) (m : Memory) (a : Nat) (h : Memory.wf m = true) :
    Memory.readBytes (Memory.writeBytes m a bs) a bs.length = bs := by
  induction bs generalizing m a with
  | nil => rfl
  | cons b bs ih =>
    simp only [List.length_cons, Memory.readBytes, Memory.writeBytes]
    rw [ih _ _ (Memory.wf_write m a b h), Memory.read_writeBytes_of_outside bs _ _ _ (Memory.wf_write m a b h) (by omega),
      Memory.read_write m a a b h, if_pos rfl]

end Sys2Proof.Machine
end

