-- ==== Sys2Proof/Laws/Keeps.lean ====
section
/-! SUPPORT. The relation that every command keeps (Keeps): it is reflexive and transitive, an update of fields that it does not
look at keeps it, and so do the updates of the fields that it does look at. -/

-- Checked one theorem at a time: the package as one text then needs less memory.
set_option Elab.async false

namespace Sys2Proof.Machine

namespace Keeps

theorem refl (s : State) : Keeps s s := ⟨rfl, id, fun _ => id⟩

theorem trans {s t u : State} (h : Keeps s t) (k : Keeps t u) : Keeps s u :=
  ⟨k.queue.trans h.queue, fun x => k.sound (h.sound x), fun v x => k.gone v (h.gone v x)⟩

/-- An update that leaves alone the queue, the memories, the ledger, the event buffers, the views, MODE and JTAG. -/
theorem upd {s a t : State} (h : Keeps s a) (h1 : t.pending = a.pending) (h2 : t.mem.hbm = a.mem.hbm)
    (h3 : t.mem.tiles = a.mem.tiles) (h4 : t.rel.ledger = a.rel.ledger) (h5 : t.events.buffer = a.events.buffer)
    (h6 : t.pwr.events = a.pwr.events) (h7 : t.sec.mode = a.sec.mode) (h8 : t.sec.jtag = a.sec.jtag)
    (h9 : t.active = a.active) (h10 : t.pend = a.pend) : Keeps s t := by
  refine h.trans ⟨h1, fun x => ?_, fun u hu => ?_⟩
  · obtain ⟨m, e, v, d⟩ := x
    refine ⟨?_, ?_, ?_, ?_⟩
    · unfold State.memoryCanonical at m ⊢; rw [h2, h3]; exact m
    · unfold State.eventsBounded at e ⊢; rw [h5, h6]; exact e
    · unfold State.viewsInRange at v ⊢; rw [h9, h10]; exact v
    · unfold State.debugClosed at d ⊢; rw [h7, h8, h9, h10]; exact d
  · unfold State.unavailable State.unit at hu ⊢; rw [h4]; exact hu

theorem ite {s a b : State} {c : Prop} [Decidable c] (h : c → Keeps s a) (k : ¬c → Keeps s b) : Keeps s (if c then a else b) := by
  split
  · exact h ‹_›
  · exact k ‹_›

theorem foldl {α : Type} {f : State → α → State} (h : ∀ t x, Keeps t (f t x)) (l : List α) (s : State) : Keeps s (l.foldl f s) := by
  induction l generalizing s with
  | nil => exact refl s
  | cons x r ih => exact (h s x).trans (ih _)

theorem foldl_fst {α β : Type} {f : State × β → α → State × β} (h : ∀ p x, Keeps p.1 (f p x).1) (l : List α) (p : State × β) :
    Keeps p.1 (l.foldl f p).1 := by
  induction l generalizing p with
  | nil => exact refl p.1
  | cons x r ih => exact (h p x).trans (ih _)

/-- A write to the tile stores. -/
theorem tiles {s a t : State} (h : Keeps s a) {i : Nat} {bs : Bytes} (h3 : t.mem.tiles = Memory.writeBytes a.mem.tiles i bs)
    (h1 : t.pending = a.pending) (h2 : t.mem.hbm = a.mem.hbm) (h4 : t.rel.ledger = a.rel.ledger)
    (h5 : t.events.buffer = a.events.buffer) (h6 : t.pwr.events = a.pwr.events) (h7 : t.sec.mode = a.sec.mode)
    (h8 : t.sec.jtag = a.sec.jtag) (h9 : t.active = a.active) (h10 : t.pend = a.pend) : Keeps s t := by
  refine h.trans ⟨h1, fun x => ?_, fun u hu => ?_⟩
  · obtain ⟨m, e, v, d⟩ := x
    refine ⟨⟨?_, ?_⟩, ?_, ?_, ?_⟩
    · rw [h2]; exact m.1
    · rw [h3]; exact Memory.wf_writeBytes _ _ _ m.2
    · unfold State.eventsBounded at e ⊢; rw [h5, h6]; exact e
    · unfold State.viewsInRange at v ⊢; rw [h9, h10]; exact v
    · unfold State.debugClosed at d ⊢; rw [h7, h8, h9, h10]; exact d
  · unfold State.unavailable State.unit at hu ⊢; rw [h4]; exact hu

/-- A write to HBM. -/
theorem hbm {s a t : State} (h : Keeps s a) {i : Nat} {bs : Bytes} (h2 : t.mem.hbm = Memory.writeBytes a.mem.hbm i bs)
    (h1 : t.pending = a.pending) (h3 : t.mem.tiles = a.mem.tiles) (h4 : t.rel.ledger = a.rel.ledger)
    (h5 : t.events.buffer = a.events.buffer) (h6 : t.pwr.events = a.pwr.events) (h7 : t.sec.mode = a.sec.mode)
    (h8 : t.sec.jtag = a.sec.jtag) (h9 : t.active = a.active) (h10 : t.pend = a.pend) : Keeps s t := by
  refine h.trans ⟨h1, fun x => ?_, fun u hu => ?_⟩
  · obtain ⟨m, e, v, d⟩ := x
    refine ⟨⟨?_, ?_⟩, ?_, ?_, ?_⟩
    · rw [h2]; exact Memory.wf_writeBytes _ _ _ m.1
    · rw [h3]; exact m.2
    · unfold State.eventsBounded at e ⊢; rw [h5, h6]; exact e
    · unfold State.viewsInRange at v ⊢; rw [h9, h10]; exact v
    · unfold State.debugClosed at d ⊢; rw [h7, h8, h9, h10]; exact d
  · unfold State.unavailable State.unit at hu ⊢; rw [h4]; exact hu

/-- A change of the buffered views whose ranges and DEBUG_EN stay. -/
theorem views {s a t : State} (h : Keeps s a) (h9 : a.viewsInRange → t.viewsInRange)
    (h10 : a.sec.mode = 2 → a.active.debugEn = false → a.pend.debugEn = false → t.active.debugEn = false ∧ t.pend.debugEn = false)
    (h1 : t.pending = a.pending) (h2 : t.mem.hbm = a.mem.hbm) (h3 : t.mem.tiles = a.mem.tiles) (h4 : t.rel.ledger = a.rel.ledger)
    (h5 : t.events.buffer = a.events.buffer) (h6 : t.pwr.events = a.pwr.events) (h7 : t.sec.mode = a.sec.mode)
    (h8 : t.sec.jtag = a.sec.jtag) : Keeps s t := by
  refine h.trans ⟨h1, fun x => ?_, fun u hu => ?_⟩
  · obtain ⟨m, e, v, d⟩ := x
    refine ⟨?_, ?_, h9 v, fun k => ?_⟩
    · unfold State.memoryCanonical at m ⊢; rw [h2, h3]; exact m
    · unfold State.eventsBounded at e ⊢; rw [h5, h6]; exact e
    · rw [h7] at k
      obtain ⟨d1, d2, d3⟩ := d k
      obtain ⟨e1, e2⟩ := h10 k d1 d2
      exact ⟨e1, e2, by rw [h8]; exact d3⟩
  · unfold State.unavailable State.unit at hu ⊢; rw [h4]; exact hu

/-- A change of the unit ledger that takes no unit back into service. -/
theorem ledger {s a t : State} (h : Keeps s a) (h4 : ∀ u, a.unavailable u = true → t.unavailable u = true)
    (h1 : t.pending = a.pending) (h2 : t.mem.hbm = a.mem.hbm) (h3 : t.mem.tiles = a.mem.tiles)
    (h5 : t.events.buffer = a.events.buffer) (h6 : t.pwr.events = a.pwr.events) (h7 : t.sec.mode = a.sec.mode)
    (h8 : t.sec.jtag = a.sec.jtag) (h9 : t.active = a.active) (h10 : t.pend = a.pend) : Keeps s t := by
  refine h.trans ⟨h1, fun x => ?_, h4⟩
  obtain ⟨m, e, v, d⟩ := x
  refine ⟨?_, ?_, ?_, ?_⟩
  · unfold State.memoryCanonical at m ⊢; rw [h2, h3]; exact m
  · unfold State.eventsBounded at e ⊢; rw [h5, h6]; exact e
  · unfold State.viewsInRange at v ⊢; rw [h9, h10]; exact v
  · unfold State.debugClosed at d ⊢; rw [h7, h8, h9, h10]; exact d

/-- A change of the event buffers that keeps their bounds. -/
theorem buffers {s a t : State} (h : Keeps s a) (h5 : a.eventsBounded → t.eventsBounded) (h1 : t.pending = a.pending)
    (h2 : t.mem.hbm = a.mem.hbm) (h3 : t.mem.tiles = a.mem.tiles) (h4 : t.rel.ledger = a.rel.ledger)
    (h7 : t.sec.mode = a.sec.mode) (h8 : t.sec.jtag = a.sec.jtag) (h9 : t.active = a.active) (h10 : t.pend = a.pend) :
    Keeps s t := by
  refine h.trans ⟨h1, fun x => ?_, fun u hu => ?_⟩
  · obtain ⟨m, e, v, d⟩ := x
    refine ⟨?_, h5 e, ?_, ?_⟩
    · unfold State.memoryCanonical at m ⊢; rw [h2, h3]; exact m
    · unfold State.viewsInRange at v ⊢; rw [h9, h10]; exact v
    · unfold State.debugClosed at d ⊢; rw [h7, h8, h9, h10]; exact d
  · unfold State.unavailable State.unit at hu ⊢; rw [h4]; exact hu

end Keeps

/-- A ledger entry that a change of the entries leaves PERMANENT or RETIRED. -/
theorem State.unavailable_of_entry {s t : State} {u : Half} (h : s.unavailable u = true)
    (k : ((t.unit u).state = (s.unit u).state) ∨ (t.unit u).state = 2 ∨ (t.unit u).state = 3) : t.unavailable u = true := by
  unfold State.unavailable at h ⊢
  rcases k with k | k | k
  · rw [k]; exact h
  · simp [k]
  · simp [k]

/-! ## For single operations -/

/-- Keeps from its parts. -/
theorem Keeps.parts {s t : State} (q : t.pending = s.pending) (m : s.memoryCanonical → t.memoryCanonical)
    (e : s.eventsBounded → t.eventsBounded) (v : s.viewsInRange → t.viewsInRange) (d : s.debugClosed → t.debugClosed)
    (g : ∀ u, s.unavailable u = true → t.unavailable u = true) : Keeps s t :=
  ⟨q, fun x => ⟨m x.memory, e x.events, v x.views, d x.debug⟩, g⟩

/-- MODE leaves confidential mode. -/
theorem Keeps.leave {s a t : State} (h : Keeps s a) (hm : t.sec.mode ≠ 2) (h1 : t.pending = a.pending) (h2 : t.mem.hbm = a.mem.hbm)
    (h3 : t.mem.tiles = a.mem.tiles) (h4 : t.rel.ledger = a.rel.ledger) (h5 : t.events.buffer = a.events.buffer)
    (h6 : t.pwr.events = a.pwr.events) (h9 : t.active = a.active) (h10 : t.pend = a.pend) : Keeps s t := by
  refine h.trans (Keeps.parts h1 (fun m => ?_) (fun e => ?_) (fun v => ?_) (fun _ k => absurd k hm) (fun u hu => ?_))
  · unfold State.memoryCanonical at m ⊢; rw [h2, h3]; exact m
  · unfold State.eventsBounded at e ⊢; rw [h5, h6]; exact e
  · unfold State.viewsInRange at v ⊢; rw [h9, h10]; exact v
  · unfold State.unavailable State.unit at hu ⊢; rw [h4]; exact hu

/-- A state written out that leaves alone what Keeps looks at. -/
theorem Keeps.lit {s a : State} {fresh out setup win boot clk seq plan host mem emb acc churns hist attn lines watch fab events rel sec pwr} (h : Keeps s a) (h2 : mem.hbm = a.mem.hbm)
    (h3 : mem.tiles = a.mem.tiles) (h4 : rel.ledger = a.rel.ledger) (h5 : events.buffer = a.events.buffer)
    (h6 : pwr.events = a.pwr.events) (h7 : sec.mode = a.sec.mode) (h8 : sec.jtag = a.sec.jtag) :
    Keeps s ⟨a.pending, fresh, out, a.active, a.pend, setup, win, boot, clk, seq, plan, host, mem, emb, acc, churns, hist, attn, lines, watch, fab, events, rel, sec, pwr⟩ :=
  Keeps.upd h rfl h2 h3 h4 h5 h6 h7 h8 rfl rfl

/-- What an operation keeps, after what came before it. -/
theorem Keeps.of {s a b : State} (k : Keeps a b) (h : Keeps s a) : Keeps s b := h.trans k

/-- A named state that occurs further on. -/
theorem Keeps.gen {s x v t : State} (h : x = v) (k : Keeps s v) (f : Keeps s x → Keeps s t) : Keeps s t := f (h ▸ k)

/-- The same for a state that an operation answers with a value. -/
theorem Keeps.gen1 {β : Type} {s t : State} {x v : State × β} (h : x = v) (k : Keeps s v.1) (f : Keeps s x.1 → Keeps s t) : Keeps s t := f (h ▸ k)

/-- The state of a pair. -/
theorem Keeps.of_fst {β : Type} {s a : State} {b : β} {p : State × β} (h : p = (a, b)) (k : Keeps s p.1) : Keeps s a := by subst h; exact k

/-- The buffered fields at reset lie in their ranges (R10). -/
theorem Buffered.inRange_reset (x : NMap (BitVec 10)) : ({ excl := x } : Buffered).inRange := by
  refine ⟨?_, ⟨?_, ?_⟩, ?_, ⟨?_, ?_⟩, ?_, ?_, ?_⟩ <;> simp

/-- The events block keeps at most 256 records (R407). -/
theorem EventState.push_length (e : EventState) (r : EventRec) : (e.push r).buffer.length ≤ 256 := by
  simp only [EventState.push, List.length_drop]; omega

/-- An event record placed in the buffer. -/
theorem State.pushEvent_keeps (s : State) (r : EventRec) : Keeps s { s with events := s.events.push r } :=
  Keeps.buffers (Keeps.refl s) (fun e => ⟨EventState.push_length _ _, e.2⟩) rfl rfl rfl rfl rfl rfl rfl rfl

/-- What a command keeps that answers a next state. -/
theorem Keeps.next {s a t : State} (k : Keeps s a) (h : (.next a : Host.Outcome State Fault Refusal) = .next t) : Keeps s t := by
  cases h; exact k

/-- The same for a command that faults on a condition. -/
theorem Keeps.nextIf {s a t : State} {c : Prop} [Decidable c] {f : Fault} (k : Keeps s a)
    (h : (if c then .next a else .fault f : Host.Outcome State Fault Refusal) = .next t) : Keeps s t := by
  split at h
  · exact Keeps.next k h
  · cases h

end Sys2Proof.Machine
end

