-- ==== Sys2Proof/Laws/KeepsOps.lean ====
section
/-! SUPPORT. Every operation of links, the shared operations, memory, replay and the stages keeps what the module keeps
(Keeps): one lemma per operation, cited instead of its text. -/

-- Checked one theorem at a time: the package as one text then needs less memory.
set_option Elab.async false

namespace Sys2Proof.Machine

/-! ## Links -/

theorem State.setConn_keeps (s x0 x1 x2) : Keeps s (State.setConn s x0 x1 x2) :=
  Keeps.lit (Keeps.refl _) rfl rfl rfl rfl rfl rfl rfl

theorem State.countControl_keeps (s x0) : Keeps s (State.countControl s x0) := by
  unfold State.countControl
  split
  · exact Keeps.refl s
  · split
    · exact Keeps.refl s
    · exact State.setConn_keeps _ _ _ _

theorem State.setPen_keeps (s x0 x1) : Keeps s (State.setPen s x0 x1) :=
  Keeps.lit (Keeps.refl _) rfl rfl rfl rfl rfl rfl rfl

theorem State.emit_keeps (s x0) : Keeps s (State.emit s x0) :=
  Keeps.lit (Keeps.refl _) rfl rfl rfl rfl rfl rfl rfl

theorem State.sendTime_keeps (s x0 x1 x2) : Keeps s (State.sendTime s x0 x1 x2) := (State.setPen_keeps _ _ _).trans (State.emit_keeps _ _)

theorem State.emitFlit_keeps (s x0 x1 x2 x3) : Keeps s (State.emitFlit s x0 x1 x2 x3) := by
  unfold State.emitFlit
  repeat' first
    | with_reducible exact Keeps.refl _
    | with_reducible apply Keeps.of (State.setPen_keeps _ _ _)
    | with_reducible apply Keeps.of (State.emit_keeps _ _)
    | (fail_if_no_progress (with_reducible refine Keeps.lit ?_ rfl rfl rfl rfl rfl rfl rfl))

theorem State.sendFlit_keeps (s x0 x1) : Keeps s (State.sendFlit s x0 x1) := by
  unfold State.sendFlit
  repeat' first
    | with_reducible exact Keeps.refl _
    | (with_reducible apply Keeps.ite) <;> intro _
    | with_reducible apply Keeps.of (State.setPen_keeps _ _ _)
    | with_reducible apply Keeps.of (State.sendTime_keeps _ _ _ _)
    | with_reducible apply Keeps.of (State.emitFlit_keeps _ _ _ _ _)

theorem State.drainPen_keeps (x0 s x1) : Keeps s (State.drainPen x0 s x1) := by
  induction x0 generalizing s with
  | zero => exact Keeps.refl s
  | succ n ih =>
    unfold State.drainPen
    split
    · exact Keeps.refl s
    · exact ((State.setPen_keeps _ _ _).trans (State.sendFlit_keeps _ _ _)).trans (ih _)

theorem State.toPen_keeps (s x0 x1) : Keeps s (State.toPen s x0 x1) := by
  unfold State.toPen
  repeat' first
    | with_reducible exact Keeps.refl _
    | with_reducible apply Keeps.of (State.setPen_keeps _ _ _)
    | with_reducible apply Keeps.of (State.drainPen_keeps _ _ _)

theorem State.sendPacket_keeps (s x0 x1 x2) : Keeps s (State.sendPacket s x0 x1 x2) := by
  unfold State.sendPacket
  repeat' first
    | with_reducible exact Keeps.refl _
    | with_reducible apply Keeps.of (State.emit_keeps _ _)
    | with_reducible apply Keeps.of (State.setConn_keeps _ _ _ _)
    | (fail_if_no_progress (with_reducible refine Keeps.lit ?_ rfl rfl rfl rfl rfl rfl rfl))

theorem State.sendUnnumbered_keeps (s x0 x1 x2 x3) : Keeps s (State.sendUnnumbered s x0 x1 x2 x3) := by
  unfold State.sendUnnumbered
  repeat' first
    | with_reducible exact Keeps.refl _
    | with_reducible apply Keeps.of (State.emit_keeps _ _)
    | with_reducible apply Keeps.of (State.setConn_keeps _ _ _ _)

theorem State.sendItem_keeps (s x0 x1 x2) : Keeps s (State.sendItem s x0 x1 x2) := by
  unfold State.sendItem
  repeat' first
    | with_reducible exact Keeps.refl _
    | (with_reducible apply Keeps.ite) <;> intro _
    | with_reducible apply Keeps.of (State.sendPacket_keeps _ _ _ _)
    | with_reducible apply Keeps.of (State.sendUnnumbered_keeps _ _ _ _ _)

theorem State.drainConn_keeps (x0 s x1 x2) : Keeps s (State.drainConn x0 s x1 x2) := by
  induction x0 generalizing s with
  | zero => exact Keeps.refl s
  | succ n ih =>
    unfold State.drainConn
    split
    · exact Keeps.refl s
    · exact ((State.setConn_keeps _ _ _ _).trans (State.sendItem_keeps _ _ _ _)).trans (ih _)

theorem State.toConn_keeps (s x0 x1 x2) : Keeps s (State.toConn s x0 x1 x2) := by
  unfold State.toConn
  repeat' first
    | with_reducible exact Keeps.refl _
    | with_reducible apply Keeps.of (State.setConn_keeps _ _ _ _)
    | with_reducible apply Keeps.of (State.drainConn_keeps _ _ _ _)

theorem State.stripe_keeps (s x0 x1) : Keeps s (State.stripe s x0 x1) := by
  unfold State.stripe
  repeat' first
    | with_reducible exact Keeps.refl _
    | with_reducible apply Keeps.of (State.toConn_keeps _ _ _ _)
    | (with_reducible apply Keeps.of (Keeps.foldl (fun t x => ?_) _ _))
    | split

theorem State.transmit_keeps (s x0 x1) : Keeps s (State.transmit s x0 x1) := by
  unfold State.transmit
  repeat' first
    | with_reducible exact Keeps.refl _
    | (with_reducible apply Keeps.ite) <;> intro _
    | with_reducible apply Keeps.of (State.toPen_keeps _ _ _)
    | with_reducible apply Keeps.of (State.stripe_keeps _ _ _)
    | split

theorem State.sendControl_keeps (s x0 x1 x2) : Keeps s (State.sendControl s x0 x1 x2) := (State.countControl_keeps _ _).trans (State.transmit_keeps _ _ _)

theorem State.setHerd_keeps (s x0 x1) : Keeps s (State.setHerd s x0 x1) :=
  Keeps.lit (Keeps.refl _) rfl rfl rfl rfl rfl rfl rfl

theorem State.emits_keeps (s x0) : Keeps s (State.emits s x0) :=
  Keeps.lit (Keeps.refl _) rfl rfl rfl rfl rfl rfl rfl

/-! ## Ops -/

theorem State.acceptRecord_keeps (s x0 x1) : Keeps s (State.acceptRecord s x0 x1) :=
  Keeps.lit (Keeps.refl _) rfl rfl rfl rfl rfl rfl rfl

theorem State.raise_keeps (s x0 x1 x2 x3 x4) : Keeps s (State.raise s x0 x1 x2 x3 x4) := by
  unfold State.raise
  extract_lets r s1
  have h : Keeps s s1 := State.pushEvent_keeps s r
  split
  · exact h.trans (State.acceptRecord_keeps _ _ _)
  · exact h

theorem State.voidPromise_keeps (s x0) : Keeps s (State.voidPromise s x0) := by
  unfold State.voidPromise
  repeat' first
    | with_reducible exact Keeps.refl _
    | (with_reducible apply Keeps.ite) <;> intro _
    | with_reducible apply Keeps.of (State.raise_keeps _ _ _ _ _ _)
    | (fail_if_no_progress (with_reducible refine Keeps.lit ?_ rfl rfl rfl rfl rfl rfl rfl))

theorem State.setQueue_keeps (s x0 x1) : Keeps s (State.setQueue s x0 x1) :=
  Keeps.lit (Keeps.refl _) rfl rfl rfl rfl rfl rfl rfl

theorem State.setUnit_keeps (s x0 x1)
    (h : (s.unit x0).state = 2 ∨ (s.unit x0).state = 3 → (x1 (s.unit x0)).state = 2 ∨ (x1 (s.unit x0)).state = 3) :
    Keeps s (State.setUnit s x0 x1) := by
  refine Keeps.ledger (Keeps.refl s) (fun u hu => ?_) rfl rfl rfl rfl rfl rfl rfl rfl rfl
  have k : (s.setUnit x0 x1).unit u = if x0 = u then x1 (s.unit x0) else s.unit u := by
    simp only [State.unit, State.setUnit, NMap.getD_modify, BitVec.toNat_inj]
  by_cases hx : x0 = u
  · subst hx
    unfold State.unavailable at hu ⊢
    rw [k, if_pos rfl]
    simpa using h (by simpa using hu)
  · exact State.unavailable_of_entry hu (Or.inl (by rw [k, if_neg hx]))

theorem State.logged_keeps (s x0) : Keeps s (State.logged s x0) := State.setUnit_keeps _ _ _ id

theorem State.haltNext_keeps (s) : Keeps s (State.haltNext s) :=
  Keeps.lit (Keeps.refl _) rfl rfl rfl rfl rfl rfl rfl

theorem State.raiseHalt_keeps (s x0 x1 x2 x3) : Keeps s (State.raiseHalt s x0 x1 x2 x3) := by
  unfold State.raiseHalt
  repeat' first
    | with_reducible exact Keeps.refl _
    | with_reducible apply Keeps.of (State.raise_keeps _ _ _ _ _ _)
    | with_reducible apply Keeps.of (State.haltNext_keeps _)

theorem State.permanentNow_keeps (s x0) : Keeps s (State.permanentNow s x0) := by
  refine State.setUnit_keeps _ _ _ (fun k => ?_)
  split
  · exact Or.inr ‹_›
  · exact Or.inl rfl

theorem State.message_keeps (s x0 x1 x2) : Keeps s (State.message s x0 x1 x2) := (State.emit_keeps _ _).trans (State.sendControl_keeps _ _ _ _)

theorem State.upTree_keeps (s x0 x1) : Keeps s (State.upTree s x0 x1) := by
  unfold State.upTree
  repeat' first
    | with_reducible exact Keeps.refl _
    | (with_reducible apply Keeps.ite) <;> intro _
    | with_reducible apply Keeps.of (State.message_keeps _ _ _ _)
    | split

theorem State.declareExcess_keeps (s) : Keeps s (State.declareExcess s) := by
  refine Keeps.trans ?_ (State.upTree_keeps _ _ _)
  exact Keeps.lit (Keeps.refl _) rfl rfl rfl rfl rfl rfl rfl

theorem State.log_keeps (s x0 x1 x2) : Keeps s (State.log s x0 x1 x2) :=
  Keeps.lit (Keeps.refl _) rfl rfl rfl rfl rfl rfl rfl

theorem State.raiseOnce_keeps (s x0 x1 x2 x3 x4 x5) : Keeps s (State.raiseOnce s x0 x1 x2 x3 x4 x5) := by
  unfold State.raiseOnce
  repeat' first
    | with_reducible assumption
    | with_reducible exact Keeps.refl _
    | (with_reducible apply Keeps.ite) <;> intro _
    | with_reducible apply Keeps.of (State.raise_keeps _ _ _ _ _ _)
    | (fail_if_no_progress (with_reducible refine Keeps.lit ?_ rfl rfl rfl rfl rfl rfl rfl))

theorem LedgerEntry.count_gone (e : LedgerEntry) (t) (h : e.state = 2 ∨ e.state = 3) :
    (e.count t).state = 2 ∨ (e.count t).state = 3 := by
  unfold LedgerEntry.count; simp only []; rw [if_pos h]; exact h

theorem State.countedFault_keeps (s x0) : Keeps s (State.countedFault s x0) := by
  unfold State.countedFault
  extract_lets e e' s1
  split
  · exact Keeps.refl _
  · have h : Keeps s s1 := (State.setUnit_keeps _ _ _ (fun k => LedgerEntry.count_gone _ _ k)).trans (State.raise_keeps _ _ _ _ _ _)
    split
    · exact h.trans (State.raise_keeps _ _ _ _ _ _)
    · exact h

theorem State.setPort_keeps (s x0 x1) : Keeps s (State.setPort s x0 x1) :=
  Keeps.lit (Keeps.refl _) rfl rfl rfl rfl rfl rfl rfl

theorem State.toHost_keeps (s x0 x1) : Keeps s (State.toHost s x0 x1) := by
  unfold State.toHost
  repeat' first
    | with_reducible exact Keeps.refl _
    | (with_reducible apply Keeps.ite) <;> intro _
    | with_reducible apply Keeps.of (State.emit_keeps _ _)
    | with_reducible apply Keeps.of (State.setPort_keeps _ _ _)

theorem State.random_keeps (s) : Keeps s (State.random s).2 :=
  Keeps.lit (Keeps.refl _) rfl rfl rfl rfl rfl rfl rfl

theorem State.messages_keeps (s x0 x1 x2) : Keeps s (State.messages s x0 x1 x2) := by
  unfold State.messages
  repeat' first
    | with_reducible exact Keeps.refl _
    | with_reducible apply Keeps.of (State.message_keeps _ _ _ _)
    | (with_reducible apply Keeps.of (Keeps.foldl (fun t x => ?_) _ _))

theorem State.endOp_keeps (s x0) : Keeps s (State.endOp s x0) := by
  unfold State.endOp
  repeat' first
    | with_reducible exact Keeps.refl _
    | (with_reducible apply Keeps.ite) <;> intro _
    | (fail_if_no_progress (with_reducible refine Keeps.lit ?_ rfl rfl rfl rfl rfl rfl rfl))

theorem State.endCmd_keeps (s x0) : Keeps s (State.endCmd s x0) :=
  Keeps.lit (Keeps.refl _) rfl rfl rfl rfl rfl rfl rfl

theorem State.startOp_keeps (s x0) : Keeps s (State.startOp s x0) :=
  Keeps.lit (Keeps.refl _) rfl rfl rfl rfl rfl rfl rfl

theorem State.free_keeps (s) : Keeps s (State.free s).2 :=
  Keeps.lit (Keeps.refl _) rfl rfl rfl rfl rfl rfl rfl

/-! ## Hbm -/

theorem State.setChannel_keeps (s x0 x1) : Keeps s (State.setChannel s x0 x1) :=
  Keeps.lit (Keeps.refl _) rfl rfl rfl rfl rfl rfl rfl

theorem State.setStack_keeps (s x0 x1) : Keeps s (State.setStack s x0 x1) :=
  Keeps.lit (Keeps.refl _) rfl rfl rfl rfl rfl rfl rfl

theorem State.blockBad_keeps (s x0) : Keeps s (State.blockBad s x0) := by
  unfold State.blockBad
  repeat' first
    | with_reducible exact Keeps.refl _
    | with_reducible apply Keeps.of (State.raise_keeps _ _ _ _ _ _)
    | with_reducible apply Keeps.of (State.countedFault_keeps _ _)
    | (fail_if_no_progress (with_reducible refine Keeps.lit ?_ rfl rfl rfl rfl rfl rfl rfl))

theorem State.enterWrite_keeps (s w t) (h : State.enterWrite s w = some t) : Keeps s t := by
  unfold State.enterWrite at h
  extract_lets b ch k at h
  split at h
  · cases h
  · split at h
    · cases h
    · obtain rfl := Option.some.inj h
      exact (Keeps.ite (fun _ => (State.blockBad_keeps _ _).trans (State.raise_keeps _ _ _ _ _ _)) (fun _ => Keeps.refl s)).trans
        (State.setStack_keeps _ _ _)

theorem State.portWrite_keeps (s x0) : Keeps s (State.portWrite s x0) := by
  unfold State.portWrite
  split
  · exact State.enterWrite_keeps _ _ _ ‹_›
  · exact Keeps.lit (Keeps.refl s) rfl rfl rfl rfl rfl rfl rfl

theorem State.tileWrite_keeps (s x0 x1 x2) : Keeps s (State.tileWrite s x0 x1 x2) :=
  Keeps.tiles (Keeps.refl s) rfl rfl rfl rfl rfl rfl rfl rfl rfl rfl

theorem State.readBlock_keeps (s x0 x1) : Keeps s (State.readBlock s x0 x1).1 := by
  unfold State.readBlock
  repeat' first
    | with_reducible assumption
    | with_reducible exact Keeps.refl _
    | with_reducible apply Keeps.of (State.countedFault_keeps _ _)
    | with_reducible apply Keeps.of (State.blockBad_keeps _ _)
    | (fail_if_no_progress (with_reducible refine Keeps.lit ?_ rfl rfl rfl rfl rfl rfl rfl))
    | split

theorem State.readRecord_keeps (s x0 x1 x2) : Keeps s (State.readRecord s x0 x1 x2).1 := State.readBlock_keeps _ _ _

theorem State.putUnit_keeps (s x0 x1 x2) : Keeps s (State.putUnit s x0 x1 x2) :=
  Keeps.hbm (Keeps.refl s) rfl rfl rfl rfl rfl rfl rfl rfl rfl rfl

theorem State.retryWaiting_keeps (s) : Keeps s (State.retryWaiting s) := by
  unfold State.retryWaiting
  repeat' first
    | with_reducible exact Keeps.refl _
    | with_reducible apply Keeps.of (State.portWrite_keeps _ _)
    | (with_reducible apply Keeps.of (Keeps.foldl (fun t x => ?_) _ _))
    | (fail_if_no_progress (with_reducible refine Keeps.lit ?_ rfl rfl rfl rfl rfl rfl rfl))

theorem State.writeVerified_keeps (s x0 x1 x2) : Keeps s (State.writeVerified s x0 x1 x2).1 := by
  unfold State.writeVerified
  repeat' first
    | with_reducible assumption
    | with_reducible exact Keeps.refl _
    | (with_reducible apply Keeps.ite) <;> intro _
    | with_reducible apply Keeps.of (State.raise_keeps _ _ _ _ _ _)
    | with_reducible apply Keeps.of (State.blockBad_keeps _ _)
    | with_reducible apply Keeps.of (State.putUnit_keeps _ _ _ _)
    | extract_lets +onlyGivenNames x
    | split

theorem State.setTileTag_keeps (s x0 x1 x2) : Keeps s (State.setTileTag s x0 x1 x2) :=
  Keeps.lit (Keeps.refl _) rfl rfl rfl rfl rfl rfl rfl

theorem State.writeRange_keeps (x0 s x1 x2) : Keeps s (State.writeRange x0 s x1 x2) := by
  induction x0 generalizing s x1 x2 with
  | zero => exact Keeps.refl s
  | succ n ih =>
    unfold State.writeRange
    split
    · exact Keeps.refl s
    · exact (State.writeVerified_keeps _ _ _ _).trans (ih _ _ _)

/-! ## WatchOps -/

theorem State.setWatch_keeps (s x0 x1) : Keeps s (State.setWatch s x0 x1) :=
  Keeps.lit (Keeps.refl _) rfl rfl rfl rfl rfl rfl rfl

theorem State.dropCounts_keeps (s) : Keeps s (State.dropCounts s) :=
  Keeps.lit (Keeps.refl _) rfl rfl rfl rfl rfl rfl rfl

theorem State.dropEpoch_keeps (s) : Keeps s (State.dropEpoch s) :=
  Keeps.lit (Keeps.refl _) rfl rfl rfl rfl rfl rfl rfl

theorem State.countPoison_keeps (s x0 x1 x2) : Keeps s (State.countPoison s x0 x1 x2) := by
  unfold State.countPoison
  repeat' first
    | with_reducible exact Keeps.refl _
    | (with_reducible apply Keeps.ite) <;> intro _
    | with_reducible apply Keeps.of (State.setWatch_keeps _ _ _)
    | with_reducible apply Keeps.of (State.raiseOnce_keeps _ _ _ _ _ _ _)

theorem State.countExceptions_keeps (s x0 x1) : Keeps s (State.countExceptions s x0 x1) := State.setWatch_keeps _ _ _

theorem State.countConversions_keeps (s x0 x1 x2 x3 x4 x5 x6 x7) : Keeps s (State.countConversions s x0 x1 x2 x3 x4 x5 x6 x7) := State.setWatch_keeps _ _ _

theorem State.countKept_keeps (s x0 x1) : Keeps s (State.countKept s x0 x1) := State.setWatch_keeps _ _ _

theorem State.keepCounts_keeps (s) : Keeps s (State.keepCounts s) :=
  Keeps.lit (Keeps.refl _) rfl rfl rfl rfl rfl rfl rfl

/-! ## Replay -/

theorem State.evalFault_keeps (s) : Keeps s (State.evalFault s) := by
  unfold State.evalFault
  repeat' first
    | with_reducible assumption
    | with_reducible exact Keeps.refl _
    | (with_reducible apply Keeps.ite) <;> intro _
    | with_reducible apply Keeps.of (State.raise_keeps _ _ _ _ _ _)
    | with_reducible apply Keeps.of (State.dropCounts_keeps _)
    | (fail_if_no_progress (with_reducible refine Keeps.lit ?_ rfl rfl rfl rfl rfl rfl rfl))

theorem State.witnessRefused_keeps (s) : Keeps s (State.witnessRefused s) := by
  refine Keeps.trans ?_ (State.raiseHalt_keeps _ _ _ _ _)
  exact Keeps.lit (Keeps.refl _) rfl rfl rfl rfl rfl rfl rfl

theorem State.makeSuspect_keeps (s) : Keeps s (State.makeSuspect s) := by
  unfold State.makeSuspect
  repeat' first
    | with_reducible assumption
    | with_reducible exact Keeps.refl _
    | (with_reducible apply Keeps.ite) <;> intro _
    | with_reducible apply Keeps.of (State.raise_keeps _ _ _ _ _ _)
    | with_reducible apply Keeps.of (State.transmit_keeps _ _ _)
    | with_reducible apply Keeps.of (State.message_keeps _ _ _ _)
    | with_reducible apply Keeps.of (State.witnessRefused_keeps _)
    | with_reducible apply Keeps.of (State.declareExcess_keeps _)
    | (fail_if_no_progress (with_reducible refine Keeps.lit ?_ rfl rfl rfl rfl rfl rfl rfl))
    | extract_lets +onlyGivenNames x
    | split

theorem State.sendUnit_keeps (s x0 x1 x2 x3) : Keeps s (State.sendUnit s x0 x1 x2 x3) := by
  unfold State.sendUnit
  repeat' first
    | with_reducible exact Keeps.refl _
    | (with_reducible apply Keeps.ite) <;> intro _
    | with_reducible apply Keeps.of (State.makeSuspect_keeps _)
    | (fail_if_no_progress (with_reducible refine Keeps.lit ?_ rfl rfl rfl rfl rfl rfl rfl))
    | split

theorem State.transmitAgain_keeps (s x0 x1) : Keeps s (State.transmitAgain s x0 x1) := by
  unfold State.transmitAgain
  repeat' first
    | with_reducible exact Keeps.refl _
    | (with_reducible apply Keeps.ite) <;> intro _
    | with_reducible apply Keeps.of (State.transmit_keeps _ _ _)
    | with_reducible apply Keeps.of (State.sendControl_keeps _ _ _ _)

theorem State.exchangeUnits_keeps (s x0 x1 x2 x3) : Keeps s (State.exchangeUnits s x0 x1 x2 x3) := by
  unfold State.exchangeUnits
  repeat' first
    | with_reducible exact Keeps.refl _
    | (with_reducible apply Keeps.ite) <;> intro _
    | with_reducible apply Keeps.of (State.transmit_keeps _ _ _)
    | with_reducible apply Keeps.of (State.sendUnit_keeps _ _ _ _ _)
    | with_reducible apply Keeps.of (State.transmitAgain_keeps _ _ _)
    | (with_reducible apply Keeps.of (Keeps.foldl (fun t x => ?_) _ _))
    | (fail_if_no_progress (with_reducible refine Keeps.lit ?_ rfl rfl rfl rfl rfl rfl rfl))

theorem State.exchange_keeps (s x0 x1 x2 x3) : Keeps s (State.exchange s x0 x1 x2 x3) := by
  unfold State.exchange
  repeat' first
    | with_reducible exact Keeps.refl _
    | (with_reducible apply Keeps.ite) <;> intro _
    | with_reducible apply Keeps.of (State.emit_keeps _ _)
    | with_reducible apply Keeps.of (State.exchangeUnits_keeps _ _ _ _ _)

theorem State.discardAttempt_keeps (s) : Keeps s (State.discardAttempt s) := by
  unfold State.discardAttempt
  repeat' first
    | with_reducible exact Keeps.refl _
    | with_reducible apply Keeps.of (State.dropCounts_keeps _)
    | with_reducible apply Keeps.of (State.dropEpoch_keeps _)
    | (fail_if_no_progress (with_reducible refine Keeps.lit ?_ rfl rfl rfl rfl rfl rfl rfl))

theorem State.beginReplay_keeps (s) : Keeps s (State.beginReplay s) := by
  unfold State.beginReplay
  repeat' first
    | with_reducible exact Keeps.refl _
    | (with_reducible apply Keeps.ite) <;> intro _
    | with_reducible apply Keeps.of (State.raise_keeps _ _ _ _ _ _)
    | with_reducible apply Keeps.of (State.declareExcess_keeps _)
    | with_reducible apply Keeps.of (State.makeSuspect_keeps _)
    | with_reducible apply Keeps.of (State.discardAttempt_keeps _)
    | (fail_if_no_progress (with_reducible refine Keeps.lit ?_ rfl rfl rfl rfl rfl rfl rfl))

theorem State.checkFault_keeps (s x0) : Keeps s (State.checkFault s x0) := by
  unfold State.checkFault
  repeat' first
    | with_reducible exact Keeps.refl _
    | (with_reducible apply Keeps.ite) <;> intro _
    | with_reducible apply Keeps.of (State.raise_keeps _ _ _ _ _ _)
    | with_reducible apply Keeps.of (State.countedFault_keeps _ _)
    | with_reducible apply Keeps.of (State.evalFault_keeps _)
    | with_reducible apply Keeps.of (State.beginReplay_keeps _)

theorem State.endReplay_keeps (s) : Keeps s (State.endReplay s) := by
  unfold State.endReplay
  repeat' first
    | with_reducible exact Keeps.refl _
    | (with_reducible apply Keeps.ite) <;> intro _
    | (fail_if_no_progress (with_reducible refine Keeps.lit ?_ rfl rfl rfl rfl rfl rfl rfl))

theorem State.checked_keeps (s x0) : Keeps s (State.checked s x0) := by
  unfold State.checked
  repeat' first
    | with_reducible exact Keeps.refl _
    | with_reducible apply Keeps.of (State.checkFault_keeps _ _)
    | split

/-! ## Matrix -/

theorem State.setSlot_keeps (s x0 x1 x2) : Keeps s (State.setSlot s x0 x1 x2) :=
  Keeps.lit (Keeps.refl _) rfl rfl rfl rfl rfl rfl rfl

theorem State.joinTile_keeps (s x0 x1) : Keeps s (State.joinTile s x0 x1) := by
  unfold State.joinTile
  repeat' first
    | with_reducible exact Keeps.refl _
    | (with_reducible apply Keeps.ite) <;> intro _
    | with_reducible apply Keeps.of (State.raise_keeps _ _ _ _ _ _)
    | with_reducible apply Keeps.of (State.setSlot_keeps _ _ _ _)

theorem State.slotEvents_keeps (s x0 x1 x2) : Keeps s (State.slotEvents s x0 x1 x2) := by
  unfold State.slotEvents
  repeat' first
    | with_reducible exact Keeps.refl _
    | (with_reducible apply Keeps.ite) <;> intro _
    | with_reducible apply Keeps.of (State.raiseOnce_keeps _ _ _ _ _ _ _)
    | (fail_if_no_progress (with_reducible refine Keeps.lit ?_ rfl rfl rfl rfl rfl rfl rfl))

theorem State.slotCounts_keeps (s x0 x1) : Keeps s (State.slotCounts s x0 x1) := State.setWatch_keeps _ _ _

theorem State.readCounts_keeps (s x0 x1 x2 x3) : Keeps s (State.readCounts s x0 x1 x2 x3) := by
  unfold State.readCounts
  repeat' first
    | with_reducible exact Keeps.refl _
    | (with_reducible apply Keeps.ite) <;> intro _
    | with_reducible apply Keeps.of (State.countExceptions_keeps _ _ _)
    | with_reducible apply Keeps.of (State.slotCounts_keeps _ _ _)
    | with_reducible apply Keeps.of (State.countConversions_keeps _ _ _ _ _ _ _ _ _)

theorem State.readSlot_keeps (s x0 x1 x2) : Keeps s (State.readSlot s x0 x1 x2) := by
  unfold State.readSlot
  repeat' first
    | with_reducible exact Keeps.refl _
    | with_reducible apply Keeps.of (State.tileWrite_keeps _ _ _ _)
    | with_reducible apply Keeps.of (State.slotEvents_keeps _ _ _ _)
    | with_reducible apply Keeps.of (State.readCounts_keeps _ _ _ _ _)

theorem State.countSaturations_keeps (s x0 x1) : Keeps s (State.countSaturations s x0 x1) := by
  unfold State.countSaturations
  repeat' first
    | with_reducible exact Keeps.refl _
    | with_reducible apply Keeps.of (State.setWatch_keeps _ _ _)
    | split

theorem State.countSplits_keeps (s x0 x1) : Keeps s (State.countSplits s x0 x1) := by
  unfold State.countSplits
  repeat' first
    | with_reducible exact Keeps.refl _
    | with_reducible apply Keeps.of (State.countSaturations_keeps _ _ _)

theorem State.mma_keeps (s x0 x1) : Keeps s (State.mma s x0 x1) := by
  unfold State.mma
  repeat' first
    | with_reducible exact Keeps.refl _
    | (with_reducible apply Keeps.ite) <;> intro _
    | with_reducible apply Keeps.of (State.raise_keeps _ _ _ _ _ _)
    | with_reducible apply Keeps.of (State.setSlot_keeps _ _ _ _)
    | with_reducible apply Keeps.of (State.countSplits_keeps _ _ _)

/-! ## VectorStage -/

theorem State.ys8Tail_keeps (s x0 x1) : Keeps s (State.ys8Tail s x0 x1) := by
  unfold State.ys8Tail
  repeat' first
    | with_reducible exact Keeps.refl _
    | (with_reducible apply Keeps.ite) <;> intro _
    | with_reducible apply Keeps.of (State.tileWrite_keeps _ _ _ _)

theorem State.setLine_keeps (s x0 x1) : Keeps s (State.setLine s x0 x1) :=
  Keeps.lit (Keeps.refl _) rfl rfl rfl rfl rfl rfl rfl

theorem State.setVecRegs_keeps (s x0 x1 x2) : Keeps s (State.setVecRegs s x0 x1 x2) := State.setLine_keeps _ _ _

theorem State.putLong_keeps (s x0 x1 x2 x3) : Keeps s (State.putLong s x0 x1 x2 x3) := by
  unfold State.putLong
  repeat' first
    | with_reducible exact Keeps.refl _
    | (with_reducible apply Keeps.ite) <;> intro _
    | with_reducible apply Keeps.of (State.tileWrite_keeps _ _ _ _)
    | with_reducible apply Keeps.of (State.setVecRegs_keeps _ _ _ _)

theorem State.rowOp_keeps (s x0 x1) : Keeps s (State.rowOp s x0 x1) := (State.countExceptions_keeps _ _ _).trans (State.putLong_keeps _ _ _ _ _)

theorem State.tagYs8_keeps (s x0 x1 x2 x3 x4 x5) : Keeps s (State.tagYs8 s x0 x1 x2 x3 x4 x5) := by
  unfold State.tagYs8
  repeat' first
    | with_reducible exact Keeps.refl _
    | with_reducible apply Keeps.of (State.setTileTag_keeps _ _ _ _)
    | (with_reducible apply Keeps.of (Keeps.foldl (fun t x => ?_) _ _))

theorem State.putConverted_keeps (s x0 x1 x2) : Keeps s (State.putConverted s x0 x1 x2) := by
  unfold State.putConverted
  repeat' first
    | with_reducible exact Keeps.refl _
    | (with_reducible apply Keeps.ite) <;> intro _
    | with_reducible apply Keeps.of (State.tileWrite_keeps _ _ _ _)
    | with_reducible apply Keeps.of (State.ys8Tail_keeps _ _ _)
    | with_reducible apply Keeps.of (State.setVecRegs_keeps _ _ _ _)
    | with_reducible apply Keeps.of (State.tagYs8_keeps _ _ _ _ _ _ _)

theorem State.vecConvert_keeps (s x0 x1) : Keeps s (State.vecConvert s x0 x1) := by
  unfold State.vecConvert
  repeat' first
    | with_reducible exact Keeps.refl _
    | (with_reducible apply Keeps.ite) <;> intro _
    | with_reducible apply Keeps.of (State.raise_keeps _ _ _ _ _ _)
    | with_reducible apply Keeps.of (State.checkFault_keeps _ _)
    | with_reducible apply Keeps.of (State.countPoison_keeps _ _ _ _)
    | with_reducible apply Keeps.of (State.countExceptions_keeps _ _ _)
    | with_reducible apply Keeps.of (State.countConversions_keeps _ _ _ _ _ _ _ _ _)
    | with_reducible apply Keeps.of (State.putConverted_keeps _ _ _ _)

theorem State.vecArith_keeps (s x0 x1) : Keeps s (State.vecArith s x0 x1) := (State.countExceptions_keeps _ _ _).trans (State.putLong_keeps _ _ _ _ _)

theorem State.vector_keeps (s x0 x1) : Keeps s (State.vector s x0 x1) := by
  unfold State.vector
  repeat' first
    | with_reducible exact Keeps.refl _
    | (with_reducible apply Keeps.ite) <;> intro _
    | with_reducible apply Keeps.of (State.vecConvert_keeps _ _ _)
    | with_reducible apply Keeps.of (State.vecArith_keeps _ _ _)

/-! ## TableOps -/

theorem State.mapTables_keeps (s x0 x1) : Keeps s (State.mapTables s x0 x1) :=
  Keeps.lit (Keeps.refl _) rfl rfl rfl rfl rfl rfl rfl

end Sys2Proof.Machine
end

