-- ==== Sys2Proof/Laws/KeepsChurn.lean ====
section
/-! SUPPORT. Every operation of churns, the sequencer's reports, the host's shared operations and the tables keeps what the module keeps
(Keeps): one lemma per operation, cited instead of its text. -/

-- Checked one theorem at a time: the package as one text then needs less memory.
set_option Elab.async false

namespace Sys2Proof.Machine

/-! ## ExportOps -/

theorem State.finishWaiter_keeps (s x0 x1) : Keeps s (State.finishWaiter s x0 x1) := State.setQueue_keeps _ _ _

theorem State.breakExport_keeps (s) : Keeps s (State.breakExport s) := by
  unfold State.breakExport
  repeat' first
    | with_reducible exact Keeps.refl _
    | (with_reducible apply Keeps.ite) <;> intro _
    | with_reducible apply Keeps.of (State.raise_keeps _ _ _ _ _ _)
    | with_reducible apply Keeps.of (State.finishWaiter_keeps _ _ _)
    | (with_reducible apply Keeps.of (Keeps.foldl (fun t x => ?_) _ _))
    | (fail_if_no_progress (with_reducible refine Keeps.lit ?_ rfl rfl rfl rfl rfl rfl rfl))
    | split

theorem State.logItem_keeps (s x0) : Keeps s (State.logItem s x0) := by
  unfold State.logItem
  repeat' first
    | with_reducible exact Keeps.refl _
    | (with_reducible apply Keeps.ite) <;> intro _
    | (fail_if_no_progress (with_reducible refine Keeps.lit ?_ rfl rfl rfl rfl rfl rfl rfl))

/-! ## Vectors -/

theorem State.runVectors_keeps (s x0) : Keeps s (State.runVectors s x0) := by
  unfold State.runVectors
  repeat' first
    | with_reducible exact Keeps.refl _
    | with_reducible apply Keeps.of (State.logItem_keeps _ _)
    | (with_reducible apply Keeps.of (Keeps.foldl (fun t x => ?_) _ _))

/-! ## ChurnOps -/

theorem State.setChurn_keeps (s x0 x1) : Keeps s (State.setChurn s x0 x1) :=
  Keeps.lit (Keeps.refl _) rfl rfl rfl rfl rfl rfl rfl

theorem State.setCtx_keeps (s x0 x1) : Keeps s (State.setCtx s x0 x1) := State.setChurn_keeps _ _ _

theorem State.addTally_keeps (s x0 x1) : Keeps s (State.addTally s x0 x1) := State.setCtx_keeps _ _ _

theorem State.addSignals_keeps (s x0 x1) : Keeps s (State.addSignals s x0 x1) := by
  unfold State.addSignals
  repeat' first
    | with_reducible exact Keeps.refl _
    | (with_reducible apply Keeps.ite) <;> intro _
    | with_reducible apply Keeps.of (State.addTally_keeps _ _ _)

theorem State.logSwept_keeps (s x0 x1) : Keeps s (State.logSwept s x0 x1) := by
  unfold State.logSwept
  repeat' first
    | with_reducible exact Keeps.refl _
    | with_reducible apply Keeps.of (State.logItem_keeps _ _)
    | split

theorem State.cacheSwept_keeps (s x0 x1) : Keeps s (State.cacheSwept s x0 x1) := by
  unfold State.cacheSwept
  repeat' first
    | with_reducible exact Keeps.refl _
    | (fail_if_no_progress (with_reducible refine Keeps.lit ?_ rfl rfl rfl rfl rfl rfl rfl))
    | split

theorem State.countDropped_keeps (s x0) : Keeps s (State.countDropped s x0) := by
  unfold State.countDropped
  repeat' first
    | with_reducible exact Keeps.refl _
    | with_reducible apply Keeps.of (State.mapTables_keeps _ _ _)
    | split

theorem State.recordKept_keeps (s x0 x1) : Keeps s (State.recordKept s x0 x1) := by
  unfold State.recordKept
  repeat' first
    | with_reducible exact Keeps.refl _
    | with_reducible apply Keeps.of (State.setWatch_keeps _ _ _)
    | with_reducible apply Keeps.of (State.setChurn_keeps _ _ _)
    | with_reducible apply Keeps.of (State.logSwept_keeps _ _ _)
    | with_reducible apply Keeps.of (State.cacheSwept_keeps _ _ _)
    | with_reducible apply Keeps.of (State.countDropped_keeps _ _)
    | split

theorem State.countTally_keeps (s x0 x1 x2) : Keeps s (State.countTally s x0 x1 x2) := by
  unfold State.countTally
  repeat' first
    | with_reducible exact Keeps.refl _
    | (with_reducible apply Keeps.ite) <;> intro _
    | with_reducible apply Keeps.of (State.countPoison_keeps _ _ _ _)
    | with_reducible apply Keeps.of (State.countExceptions_keeps _ _ _)
    | with_reducible apply Keeps.of (State.countConversions_keeps _ _ _ _ _ _ _ _ _)

theorem State.flushTally_keeps (s x0 x1) : Keeps s (State.flushTally s x0 x1) := by
  unfold State.flushTally
  repeat' first
    | with_reducible exact Keeps.refl _
    | with_reducible apply Keeps.of (State.countTally_keeps _ _ _ _)
    | (with_reducible apply Keeps.of (Keeps.foldl (fun t x => ?_) _ _))
    | split

theorem State.sweepLost_keeps (s x0) : Keeps s (State.sweepLost s x0) := by
  unfold State.sweepLost
  repeat' first
    | with_reducible exact Keeps.refl _
    | with_reducible apply Keeps.of (State.raiseOnce_keeps _ _ _ _ _ _ _)
    | with_reducible apply Keeps.of (State.haltNext_keeps _)

theorem State.faultChurn_keeps (s x0) : Keeps s (State.faultChurn s x0) := by
  unfold State.faultChurn
  repeat' first
    | with_reducible exact Keeps.refl _
    | (with_reducible apply Keeps.ite) <;> intro _
    | with_reducible apply Keeps.of (State.setChurn_keeps _ _ _)
    | with_reducible apply Keeps.of (State.recordKept_keeps _ _ _)
    | with_reducible apply Keeps.of (State.flushTally_keeps _ _ _)
    | with_reducible apply Keeps.of (State.sweepLost_keeps _ _)
    | (with_reducible apply Keeps.of (Keeps.foldl (fun t x => ?_) _ _))

theorem State.issueRecord_keeps (s x0 x1 x2 x3) : Keeps s (State.issueRecord s x0 x1 x2 x3) := by
  unfold State.issueRecord
  repeat' first
    | with_reducible exact Keeps.refl _
    | with_reducible apply Keeps.of (State.portWrite_keeps _ _)

theorem State.writeWorking_keeps (s x0 x1) : Keeps s (State.writeWorking s x0 x1).1 := by
  unfold State.writeWorking
  repeat' first
    | with_reducible exact Keeps.refl _
    | with_reducible apply Keeps.of (State.tileWrite_keeps _ _ _ _)
    | with_reducible apply Keeps.of (State.writeVerified_keeps _ _ _ _)
    | with_reducible apply Keeps.of (State.setTileTag_keeps _ _ _ _)
    | split

theorem State.issueCopy_keeps (s x0 x1 x2 x3 x4) : Keeps s (State.issueCopy s x0 x1 x2 x3 x4) := by
  unfold State.issueCopy
  repeat' first
    | with_reducible exact Keeps.refl _
    | with_reducible apply Keeps.of (State.portWrite_keeps _ _)
    | with_reducible apply Keeps.of (State.writeWorking_keeps _ _ _)
    | split

theorem State.issueRetag_keeps (s x0 x1 x2 x3) : Keeps s (State.issueRetag s x0 x1 x2 x3) := State.portWrite_keeps _ _

theorem State.readPoison_keeps (s x0 x1 x2) : Keeps s (State.readPoison s x0 x1 x2) := by
  unfold State.readPoison
  repeat' first
    | with_reducible exact Keeps.refl _
    | with_reducible apply Keeps.of (State.countPoison_keeps _ _ _ _)

theorem State.settleSums_keeps (s x0 x1) : Keeps s (State.settleSums s x0 x1) := by
  unfold State.settleSums
  repeat' first
    | with_reducible exact Keeps.refl _
    | with_reducible apply Keeps.of (State.setChurn_keeps _ _ _)
    | with_reducible apply Keeps.of (State.flushTally_keeps _ _ _)
    | (with_reducible apply Keeps.of (Keeps.foldl (fun t x => ?_) _ _))

theorem State.issueCopies_keeps (s x0 x1 x2 x3) : Keeps s (State.issueCopies s x0 x1 x2 x3) := by
  unfold State.issueCopies
  repeat' first
    | with_reducible exact Keeps.refl _
    | with_reducible apply Keeps.of (State.issueCopy_keeps _ _ _ _ _ _)
    | (with_reducible apply Keeps.of (Keeps.foldl (fun t x => ?_) _ _))

theorem State.planePoison_keeps (s x0 x1) : Keeps s (State.planePoison s x0 x1) := State.readPoison_keeps _ _ _ _

theorem State.laneOp1_keeps (s x0 x1 x2 x3) : Keeps s (State.laneOp1 s x0 x1 x2 x3) := (State.addSignals_keeps _ _ _).trans (State.setCtx_keeps _ _ _)

theorem State.laneOp3_keeps (s x0 x1 x2 x3 x4 x5) : Keeps s (State.laneOp3 s x0 x1 x2 x3 x4 x5) := (State.addSignals_keeps _ _ _).trans (State.setCtx_keeps _ _ _)

theorem State.laneOp2_keeps (s x0 x1 x2 x3 x4) : Keeps s (State.laneOp2 s x0 x1 x2 x3 x4) := (State.addSignals_keeps _ _ _).trans (State.setCtx_keeps _ _ _)

/-! ## ChurnSweep -/

theorem State.reportVerified_keeps (s x0 x1) : Keeps s (State.reportVerified s x0 x1) := by
  unfold State.reportVerified
  repeat' first
    | with_reducible exact Keeps.refl _
    | with_reducible apply Keeps.of (State.setChurn_keeps _ _ _)
    | split

theorem State.releaseHeld_keeps (s x0) : Keeps s (State.releaseHeld s x0) := by
  unfold State.releaseHeld
  repeat' first
    | with_reducible exact Keeps.refl _
    | (with_reducible apply Keeps.ite) <;> intro _
    | with_reducible apply Keeps.of (State.setChurn_keeps _ _ _)
    | with_reducible apply Keeps.of (State.issueRecord_keeps _ _ _ _ _)
    | (with_reducible apply Keeps.of (Keeps.foldl (fun t x => ?_) _ _))
    | split

theorem State.readComplete_keeps (s x0 x1) : Keeps s (State.readComplete s x0 x1) := (State.setChurn_keeps _ _ _).trans (State.releaseHeld_keeps _ _)

theorem State.writeWithout_keeps (s x0 x1 x2 x3 x4) : Keeps s (State.writeWithout s x0 x1 x2 x3 x4) := (State.setCtx_keeps _ _ _).trans (State.readComplete_keeps _ _ _)

theorem State.skipPoisoned_keeps (s x0 x1 x2 x3) : Keeps s (State.skipPoisoned s x0 x1 x2 x3) := by
  unfold State.skipPoisoned
  repeat' first
    | with_reducible exact Keeps.refl _
    | with_reducible apply Keeps.of (State.setWatch_keeps _ _ _)
    | with_reducible apply Keeps.of (State.raiseOnce_keeps _ _ _ _ _ _ _)
    | with_reducible apply Keeps.of (State.writeWithout_keeps _ _ _ _ _ _)
    | with_reducible apply Keeps.of (State.readPoison_keeps _ _ _ _)

theorem State.enterRecord_keeps (s x0 x1 x2 x3) : Keeps s (State.enterRecord s x0 x1 x2 x3) := by
  unfold State.enterRecord
  repeat' first
    | with_reducible exact Keeps.refl _
    | (with_reducible apply Keeps.ite) <;> intro _
    | with_reducible apply Keeps.of (State.setCtx_keeps _ _ _)
    | with_reducible apply Keeps.of (State.readComplete_keeps _ _ _)
    | with_reducible apply Keeps.of (State.skipPoisoned_keeps _ _ _ _ _)

theorem State.incomplete_keeps (s x0) : Keeps s (State.incomplete s x0) := by
  unfold State.incomplete
  repeat' first
    | with_reducible exact Keeps.refl _
    | with_reducible apply Keeps.of (State.setWatch_keeps _ _ _)
    | (with_reducible apply Keeps.of (Keeps.foldl (fun t x => ?_) _ _))

theorem State.takeover_keeps (s x0) : Keeps s (State.takeover s x0) := by
  unfold State.takeover
  repeat' first
    | with_reducible exact Keeps.refl _
    | (with_reducible apply Keeps.ite) <;> intro _
    | with_reducible apply Keeps.of (State.raise_keeps _ _ _ _ _ _)
    | with_reducible apply Keeps.of (State.countedFault_keeps _ _)
    | with_reducible apply Keeps.of (State.setChurn_keeps _ _ _)
    | with_reducible apply Keeps.of (State.incomplete_keeps _ _)
    | with_reducible apply Keeps.of (State.sweepLost_keeps _ _)

theorem State.watchAccumulate_keeps (s x0 x1 x2) : Keeps s (State.watchAccumulate s x0 x1 x2) := State.setCtx_keeps _ _ _

theorem State.lostRecord_keeps (s x0 x1 x2) : Keeps s (State.lostRecord s x0 x1 x2) := by
  unfold State.lostRecord
  repeat' first
    | with_reducible exact Keeps.refl _
    | with_reducible apply Keeps.of (State.raise_keeps _ _ _ _ _ _)
    | with_reducible apply Keeps.of (State.writeWithout_keeps _ _ _ _ _ _)

theorem State.retagStale_keeps (s x0 x1 x2 x3) : Keeps s (State.retagStale s x0 x1 x2 x3) := by
  unfold State.retagStale
  repeat' first
    | with_reducible exact Keeps.refl _
    | with_reducible apply Keeps.of (State.setWatch_keeps _ _ _)
    | with_reducible apply Keeps.of (State.raiseOnce_keeps _ _ _ _ _ _ _)
    | with_reducible apply Keeps.of (State.setCtx_keeps _ _ _)
    | with_reducible apply Keeps.of (State.issueRetag_keeps _ _ _ _ _)

theorem State.startRecord_keeps (s x0 x1 x2 x3) : Keeps s (State.startRecord s x0 x1 x2 x3) := by
  unfold State.startRecord
  repeat' first
    | with_reducible exact Keeps.refl _
    | (with_reducible apply Keeps.ite) <;> intro _
    | with_reducible apply Keeps.of (State.enterRecord_keeps _ _ _ _ _)
    | with_reducible apply Keeps.of (State.retagStale_keeps _ _ _ _ _)

theorem State.skipWritten_keeps (s x0 x1 x2 x3) : Keeps s (State.skipWritten s x0 x1 x2 x3) := by
  unfold State.skipWritten
  repeat' first
    | with_reducible exact Keeps.refl _
    | with_reducible apply Keeps.of (State.reportVerified_keeps _ _ _)
    | with_reducible apply Keeps.of (State.setCtx_keeps _ _ _)
    | with_reducible apply Keeps.of (State.readComplete_keeps _ _ _)
    | with_reducible apply Keeps.of (State.issueCopies_keeps _ _ _ _ _)
    | with_reducible apply Keeps.of (State.planePoison_keeps _ _ _)
    | split

theorem State.firstRead_keeps (s x0 x1 x2) : Keeps s (State.firstRead s x0 x1 x2) := by
  unfold State.firstRead
  repeat' first
    | with_reducible assumption
    | with_reducible exact Keeps.refl _
    | (with_reducible apply Keeps.ite) <;> intro _
    | with_reducible apply Keeps.of (State.readRecord_keeps _ _ _ _)
    | with_reducible apply Keeps.of (State.skipWritten_keeps _ _ _ _ _)
    | with_reducible apply Keeps.of (State.startRecord_keeps _ _ _ _ _)
    | with_reducible apply Keeps.of (State.lostRecord_keeps _ _ _ _)
    | extract_lets +onlyGivenNames x
    | split

theorem State.endPrologue_keeps (s x0) : Keeps s (State.endPrologue s x0) := State.setChurn_keeps _ _ _

theorem State.storeRecord_keeps (s x0 x1 x2 x3 x4) : Keeps s (State.storeRecord s x0 x1 x2 x3 x4) := by
  unfold State.storeRecord
  repeat' first
    | with_reducible exact Keeps.refl _
    | with_reducible apply Keeps.of (State.setCtx_keeps _ _ _)
    | with_reducible apply Keeps.of (State.addTally_keeps _ _ _)
    | extract_lets +onlyGivenNames x
    | split

theorem State.recordVerified_keeps (s x0 x1) : Keeps s (State.recordVerified s x0 x1) := by
  unfold State.recordVerified
  repeat' first
    | with_reducible exact Keeps.refl _
    | (with_reducible apply Keeps.ite) <;> intro _
    | with_reducible apply Keeps.of (State.setChurn_keeps _ _ _)
    | with_reducible apply Keeps.of (State.recordKept_keeps _ _ _)
    | with_reducible apply Keeps.of (State.settleSums_keeps _ _ _)
    | split

theorem State.storeStage_keeps (s x0 x1 x2) : Keeps s (State.storeStage s x0 x1 x2) := State.setCtx_keeps _ _ _

theorem State.recompute_keeps (s x0 x1) : Keeps s (State.recompute s x0 x1) := by
  unfold State.recompute
  repeat' first
    | with_reducible exact Keeps.refl _
    | (with_reducible apply Keeps.ite) <;> intro _
    | with_reducible apply Keeps.of (State.raise_keeps _ _ _ _ _ _)
    | with_reducible apply Keeps.of (State.checkFault_keeps _ _)
    | with_reducible apply Keeps.of (State.setCtx_keeps _ _ _)
    | with_reducible apply Keeps.of (State.faultChurn_keeps _ _)

theorem State.finishRecord_keeps (s x0) : Keeps s (State.finishRecord s x0) := by
  unfold State.finishRecord
  repeat' first
    | with_reducible exact Keeps.refl _
    | with_reducible apply Keeps.of (State.setCtx_keeps _ _ _)
    | with_reducible apply Keeps.of (State.releaseHeld_keeps _ _)
    | with_reducible apply Keeps.of (State.issueCopies_keeps _ _ _ _ _)
    | extract_lets +onlyGivenNames x
    | split

theorem State.qprepare_keeps (s x0 x1 x2) : Keeps s (State.qprepare s x0 x1 x2) := by
  unfold State.qprepare
  repeat' first
    | with_reducible exact Keeps.refl _
    | with_reducible apply Keeps.of (State.setCtx_keeps _ _ _)
    | with_reducible apply Keeps.of (State.addSignals_keeps _ _ _)
    | extract_lets +onlyGivenNames x
    | split

theorem State.loadField_keeps (s x0 x1 x2 x3) : Keeps s (State.loadField s x0 x1 x2 x3) := (State.addSignals_keeps _ _ _).trans (State.setCtx_keeps _ _ _)

theorem State.endSection_keeps (s x0 x1 x2 x3 x4) : Keeps s (State.endSection s x0 x1 x2 x3 x4) := by
  unfold State.endSection
  repeat' first
    | with_reducible assumption
    | with_reducible exact Keeps.refl _
    | (with_reducible apply Keeps.ite) <;> intro _
    | with_reducible apply Keeps.of (State.setCtx_keeps _ _ _)
    | with_reducible apply Keeps.of (State.endPrologue_keeps _ _)
    | with_reducible apply Keeps.of (State.recompute_keeps _ _ _)
    | with_reducible apply Keeps.of (State.finishRecord_keeps _ _)
    | split

theorem State.reduceLanes_keeps (s x0 x1 x2 x3 x4) : Keeps s (State.reduceLanes s x0 x1 x2 x3 x4) := by
  unfold State.reduceLanes
  repeat' first
    | with_reducible assumption
    | with_reducible exact Keeps.refl _
    | with_reducible apply Keeps.of (State.setCtx_keeps _ _ _)
    | with_reducible apply Keeps.of (State.addSignals_keeps _ _ _)
    | extract_lets +onlyGivenNames x
    | split

/-! ## StepOps -/

theorem State.forwardDone_keeps (s) : Keeps s (State.forwardDone s) := by
  unfold State.forwardDone
  repeat' first
    | with_reducible exact Keeps.refl _
    | (with_reducible apply Keeps.ite) <;> intro _
    | with_reducible apply Keeps.of (State.upTree_keeps _ _ _)
    | (fail_if_no_progress (with_reducible refine Keeps.lit ?_ rfl rfl rfl rfl rfl rfl rfl))

theorem State.reportDone_keeps (s) : Keeps s (State.reportDone s) := by
  unfold State.reportDone
  repeat' first
    | with_reducible exact Keeps.refl _
    | (with_reducible apply Keeps.ite) <;> intro _
    | with_reducible apply Keeps.of (State.forwardDone_keeps _)
    | (fail_if_no_progress (with_reducible refine Keeps.lit ?_ rfl rfl rfl rfl rfl rfl rfl))

theorem State.takeExcess_keeps (s x0 x1) : Keeps s (State.takeExcess s x0 x1) := by
  unfold State.takeExcess
  repeat' first
    | with_reducible exact Keeps.refl _
    | (with_reducible apply Keeps.ite) <;> intro _
    | with_reducible apply Keeps.of (State.upTree_keeps _ _ _)
    | (fail_if_no_progress (with_reducible refine Keeps.lit ?_ rfl rfl rfl rfl rfl rfl rfl))

theorem State.takeDone_keeps (s x0) : Keeps s (State.takeDone s x0) := by
  unfold State.takeDone
  repeat' first
    | with_reducible exact Keeps.refl _
    | (with_reducible apply Keeps.ite) <;> intro _
    | with_reducible apply Keeps.of (State.forwardDone_keeps _)
    | (fail_if_no_progress (with_reducible refine Keeps.lit ?_ rfl rfl rfl rfl rfl rfl rfl))

/-! ## HostOps -/

theorem State.setGroup_keeps (s x0 x1) : Keeps s (State.setGroup s x0 x1) :=
  Keeps.lit (Keeps.refl _) rfl rfl rfl rfl rfl rfl rfl

theorem State.setDesc_keeps (s x0 x1 x2) : Keeps s (State.setDesc s x0 x1 x2) := State.setQueue_keeps _ _ _

theorem State.finishDesc_keeps (s x0 x1 x2 x3) : Keeps s (State.finishDesc s x0 x1 x2 x3) := State.setDesc_keeps _ _ _ _

theorem State.withdraw_keeps (s x0 x1) : Keeps s (State.withdraw s x0 x1) := by
  unfold State.withdraw
  repeat' first
    | with_reducible exact Keeps.refl _
    | (with_reducible apply Keeps.ite) <;> intro _
    | (fail_if_no_progress (with_reducible refine Keeps.lit ?_ rfl rfl rfl rfl rfl rfl rfl))

theorem State.endIntake_keeps (s) : Keeps s (State.endIntake s) := by
  unfold State.endIntake
  repeat' first
    | with_reducible exact Keeps.refl _
    | (with_reducible apply Keeps.ite) <;> intro _
    | with_reducible apply Keeps.of (State.reportDone_keeps _)
    | (fail_if_no_progress (with_reducible refine Keeps.lit ?_ rfl rfl rfl rfl rfl rfl rfl))

theorem State.failDesc_keeps (s x0 x1 x2) : Keeps s (State.failDesc s x0 x1 x2) := by
  unfold State.failDesc
  repeat' first
    | with_reducible assumption
    | with_reducible exact Keeps.refl _
    | with_reducible apply Keeps.of (State.setQueue_keeps _ _ _)
    | with_reducible apply Keeps.of (State.raiseOnce_keeps _ _ _ _ _ _ _)
    | with_reducible apply Keeps.of (State.finishDesc_keeps _ _ _ _ _)
    | with_reducible apply Keeps.of (State.withdraw_keeps _ _ _)
    | with_reducible apply Keeps.of (State.endIntake_keeps _)
    | (fail_if_no_progress (with_reducible refine Keeps.lit ?_ rfl rfl rfl rfl rfl rfl rfl))
    | split

theorem State.stopDesc_keeps (s x0 x1 x2 x3) : Keeps s (State.stopDesc s x0 x1 x2 x3) := by
  unfold State.stopDesc
  repeat' first
    | with_reducible exact Keeps.refl _
    | with_reducible apply Keeps.of (State.setQueue_keeps _ _ _)
    | with_reducible apply Keeps.of (State.raiseOnce_keeps _ _ _ _ _ _ _)
    | with_reducible apply Keeps.of (State.finishDesc_keeps _ _ _ _ _)

theorem State.failFences_keeps (s x0) : Keeps s (State.failFences s x0) := by
  unfold State.failFences
  repeat' first
    | with_reducible exact Keeps.refl _
    | (with_reducible apply Keeps.ite) <;> intro _
    | with_reducible apply Keeps.of (State.failDesc_keeps _ _ _ _)
    | (with_reducible apply Keeps.of (Keeps.foldl (fun t x => ?_) _ _))

theorem State.msix_keeps (s x0 x1) : Keeps s (State.msix s x0 x1) := by
  unfold State.msix
  repeat' first
    | with_reducible exact Keeps.refl _
    | (with_reducible apply Keeps.ite) <;> intro _
    | with_reducible apply Keeps.of (State.setPort_keeps _ _ _)
    | with_reducible apply Keeps.of (State.toHost_keeps _ _ _)

theorem State.readHost_keeps (s x0 x1 x2) : Keeps s (State.readHost s x0 x1 x2) := by
  unfold State.readHost
  repeat' first
    | with_reducible exact Keeps.refl _
    | (with_reducible apply Keeps.ite) <;> intro _
    | with_reducible apply Keeps.of (State.setPort_keeps _ _ _)
    | with_reducible apply Keeps.of (State.toHost_keeps _ _ _)

theorem State.readBuffer_keeps (x0 s x1 x2 x3) : Keeps s (State.readBuffer x0 s x1 x2 x3) := by
  induction x0 generalizing s x2 x3 with
  | zero => exact Keeps.refl s
  | succ n ih =>
    unfold State.readBuffer
    exact Keeps.ite (fun _ => Keeps.refl s) (fun _ => (State.readHost_keeps _ _ _ _).trans (ih _ _ _))

theorem State.enterBatch_keeps (s x0 x1) : Keeps s (State.enterBatch s x0 x1) := by
  unfold State.enterBatch
  repeat' first
    | with_reducible exact Keeps.refl _
    | with_reducible apply Keeps.of (State.setDesc_keeps _ _ _ _)
    | with_reducible apply Keeps.of (State.readBuffer_keeps _ _ _ _ _)
    | (fail_if_no_progress (with_reducible refine Keeps.lit ?_ rfl rfl rfl rfl rfl rfl rfl))

theorem State.uncover_keeps (s x0) : Keeps s (State.uncover s x0) :=
  Keeps.lit (Keeps.refl _) rfl rfl rfl rfl rfl rfl rfl

theorem State.overBudget_keeps (s x0 x1) : Keeps s (State.overBudget s x0 x1) := by
  unfold State.overBudget
  repeat' first
    | with_reducible exact Keeps.refl _
    | with_reducible apply Keeps.of (State.raise_keeps _ _ _ _ _ _)
    | with_reducible apply Keeps.of (State.uncover_keeps _ _)
    | (with_reducible apply Keeps.of (Keeps.foldl (fun t x => ?_) _ _))
    | (fail_if_no_progress (with_reducible refine Keeps.lit ?_ rfl rfl rfl rfl rfl rfl rfl))

theorem State.takeBatch_keeps (s x0) : Keeps s (State.takeBatch s x0) := by
  unfold State.takeBatch
  repeat' first
    | with_reducible exact Keeps.refl _
    | (with_reducible apply Keeps.ite) <;> intro _
    | with_reducible apply Keeps.of (State.enterBatch_keeps _ _ _)
    | with_reducible apply Keeps.of (State.overBudget_keeps _ _ _)
    | split

theorem State.takeAll_keeps (x0 s x1) : Keeps s (State.takeAll x0 s x1) := by
  induction x0 generalizing s with
  | zero => exact Keeps.refl s
  | succ n ih =>
    unfold State.takeAll
    exact Keeps.ite (fun _ => Keeps.refl s) (fun _ => (State.takeBatch_keeps _ _).trans (ih _))

theorem State.takeEveryBatch_keeps (s) : Keeps s (State.takeEveryBatch s) := by
  unfold State.takeEveryBatch
  repeat' first
    | with_reducible exact Keeps.refl _
    | with_reducible apply Keeps.of (State.takeAll_keeps _ _ _)
    | (with_reducible apply Keeps.of (Keeps.foldl (fun t x => ?_) _ _))

theorem State.refillHeld_keeps (x0 s) : Keeps s (State.refillHeld x0 s) := by
  induction x0 generalizing s with
  | zero => exact Keeps.refl s
  | succ n ih =>
    unfold State.refillHeld
    split
    · exact Keeps.refl s
    · refine Keeps.ite (fun _ => ?_) (fun _ => Keeps.refl s)
      exact (Keeps.trans (Keeps.lit (Keeps.refl s) rfl rfl rfl rfl rfl rfl rfl) (State.acceptRecord_keeps _ _ _)).trans (ih _)

theorem State.offerStepRecord_keeps (s x0) : Keeps s (State.offerStepRecord s x0) := by
  refine Keeps.trans ?_ (State.refillHeld_keeps _ _)
  exact Keeps.lit (Keeps.refl _) rfl rfl rfl rfl rfl rfl rfl

theorem State.notify_keeps (s x0) : Keeps s (State.notify s x0) := by
  unfold State.notify
  repeat' first
    | with_reducible exact Keeps.refl _
    | (with_reducible apply Keeps.ite) <;> intro _
    | with_reducible apply Keeps.of (State.setQueue_keeps _ _ _)
    | with_reducible apply Keeps.of (State.msix_keeps _ _ _)

theorem State.writeOutputs_keeps (s x0 x1) : Keeps s (State.writeOutputs s x0 x1) := by
  unfold State.writeOutputs
  repeat' first
    | with_reducible exact Keeps.refl _
    | (with_reducible apply Keeps.ite) <;> intro _
    | with_reducible apply Keeps.of (State.toHost_keeps _ _ _)

theorem State.complete_keeps (s x0) : Keeps s (State.complete s x0) := by
  unfold State.complete
  repeat' first
    | with_reducible exact Keeps.refl _
    | (with_reducible apply Keeps.ite) <;> intro _
    | with_reducible apply Keeps.of (State.setQueue_keeps _ _ _)
    | with_reducible apply Keeps.of (State.toHost_keeps _ _ _)
    | with_reducible apply Keeps.of (State.notify_keeps _ _)
    | with_reducible apply Keeps.of (State.writeOutputs_keeps _ _ _)
    | extract_lets +onlyGivenNames x
    | split

theorem State.writeEntry_keeps (s x0 x1 x2) : Keeps s (State.writeEntry s x0 x1 x2) := by
  unfold State.writeEntry
  repeat' first
    | with_reducible exact Keeps.refl _
    | with_reducible apply Keeps.of (State.setQueue_keeps _ _ _)
    | with_reducible apply Keeps.of (State.toHost_keeps _ _ _)
    | with_reducible apply Keeps.of (State.notify_keeps _ _)

theorem State.haltQueue_keeps (s x0 x1) : Keeps s (State.haltQueue s x0 x1) := by
  unfold State.haltQueue
  repeat' first
    | with_reducible exact Keeps.refl _
    | (with_reducible apply Keeps.ite) <;> intro _
    | with_reducible apply Keeps.of (State.raise_keeps _ _ _ _ _ _)
    | with_reducible apply Keeps.of (State.setQueue_keeps _ _ _)
    | with_reducible apply Keeps.of (State.breakExport_keeps _)

theorem State.finishBatch_keeps (s x0 x1) : Keeps s (State.finishBatch s x0 x1) := State.setDesc_keeps _ _ _ _

theorem State.fetchNext_keeps (s x0) : Keeps s (State.fetchNext s x0) := by
  unfold State.fetchNext
  repeat' first
    | with_reducible exact Keeps.refl _
    | (with_reducible apply Keeps.ite) <;> intro _
    | with_reducible apply Keeps.of (State.setQueue_keeps _ _ _)
    | with_reducible apply Keeps.of (State.readHost_keeps _ _ _ _)

theorem State.readOver_keeps (s x0 x1 x2) : Keeps s (State.readOver s x0 x1 x2) := State.setPort_keeps _ _ _

/-! ## Tables -/

theorem State.holdVersion_keeps (s x0) : Keeps s (State.holdVersion s x0) :=
  Keeps.lit (Keeps.refl _) rfl rfl rfl rfl rfl rfl rfl

theorem State.holdCurrent_keeps (s x0) : Keeps s (State.holdCurrent s x0) := State.holdVersion_keeps _ _

theorem State.loadBlock_keeps (s x0) : Keeps s (State.loadBlock s x0) := by
  unfold State.loadBlock
  repeat' first
    | with_reducible exact Keeps.refl _
    | (with_reducible apply Keeps.ite) <;> intro _
    | with_reducible apply Keeps.of (State.setDesc_keeps _ _ _ _)
    | with_reducible apply Keeps.of (State.finishDesc_keeps _ _ _ _ _)
    | with_reducible apply Keeps.of (State.failDesc_keeps _ _ _ _)
    | with_reducible apply Keeps.of (State.holdVersion_keeps _ _)
    | with_reducible apply Keeps.of (State.holdCurrent_keeps _ _)
    | extract_lets +onlyGivenNames x
    | split

theorem State.failSwaps_keeps (s x0) : Keeps s (State.failSwaps s x0) := by
  unfold State.failSwaps
  repeat' first
    | with_reducible exact Keeps.refl _
    | with_reducible apply Keeps.of (State.stopDesc_keeps _ _ _ _ _)
    | (with_reducible apply Keeps.of (Keeps.foldl (fun t x => ?_) _ _))

theorem State.dropStaging_keeps (s) : Keeps s (State.dropStaging s) := by
  unfold State.dropStaging
  repeat' first
    | with_reducible exact Keeps.refl _
    | (with_reducible apply Keeps.ite) <;> intro _
    | with_reducible apply Keeps.of (State.stopDesc_keeps _ _ _ _ _)
    | with_reducible apply Keeps.of (State.endOp_keeps _ _)
    | (with_reducible apply Keeps.of (Keeps.foldl (fun t x => ?_) _ _))

theorem State.discardTables_keeps (s) : Keeps s (State.discardTables s) := by
  unfold State.discardTables
  repeat' first
    | with_reducible assumption
    | with_reducible exact Keeps.refl _
    | with_reducible apply Keeps.of (State.raise_keeps _ _ _ _ _ _)
    | with_reducible apply Keeps.of (State.failSwaps_keeps _ _)
    | with_reducible apply Keeps.of (State.dropStaging_keeps _)
    | (with_reducible apply Keeps.of (Keeps.foldl (fun t x => ?_) _ _))
    | (fail_if_no_progress (with_reducible refine Keeps.lit ?_ rfl rfl rfl rfl rfl rfl rfl))

theorem State.dropVersions_keeps (s x0) : Keeps s (State.dropVersions s x0) :=
  Keeps.lit (Keeps.refl _) rfl rfl rfl rfl rfl rfl rfl

theorem State.commitSwap_keeps (s x0 x1 x2) : Keeps s (State.commitSwap s x0 x1 x2) := by
  unfold State.commitSwap
  repeat' first
    | with_reducible exact Keeps.refl _
    | (with_reducible apply Keeps.ite) <;> intro _
    | with_reducible apply Keeps.of (State.raise_keeps _ _ _ _ _ _)
    | with_reducible apply Keeps.of (State.finishDesc_keeps _ _ _ _ _)
    | with_reducible apply Keeps.of (State.mapTables_keeps _ _ _)
    | with_reducible apply Keeps.of (State.dropVersions_keeps _ _)
    | (with_reducible apply Keeps.of (Keeps.foldl (fun t x => ?_) _ _))
    | (fail_if_no_progress (with_reducible refine Keeps.lit ?_ rfl rfl rfl rfl rfl rfl rfl))

theorem State.settleVersions_keeps (s) : Keeps s (State.settleVersions s) := by
  unfold State.settleVersions
  repeat' first
    | with_reducible exact Keeps.refl _
    | with_reducible apply Keeps.of (State.failSwaps_keeps _ _)
    | with_reducible apply Keeps.of (State.dropStaging_keeps _)
    | with_reducible apply Keeps.of (State.mapTables_keeps _ _ _)
    | with_reducible apply Keeps.of (State.dropVersions_keeps _ _)
    | with_reducible apply Keeps.of (State.commitSwap_keeps _ _ _ _)
    | (with_reducible apply Keeps.of (Keeps.foldl (fun t x => ?_) _ _))
    | (fail_if_no_progress (with_reducible refine Keeps.lit ?_ rfl rfl rfl rfl rfl rfl rfl))

theorem State.dropPlan_keeps (s) : Keeps s (State.dropPlan s) := by
  refine Keeps.trans ?_ (State.breakExport_keeps _)
  exact Keeps.lit (Keeps.refl _) rfl rfl rfl rfl rfl rfl rfl

theorem State.takeSwap_keeps (s x0) : Keeps s (State.takeSwap s x0) := by
  unfold State.takeSwap
  repeat' first
    | with_reducible assumption
    | with_reducible exact Keeps.refl _
    | (with_reducible apply Keeps.ite) <;> intro _
    | with_reducible apply Keeps.of (State.setDesc_keeps _ _ _ _)
    | with_reducible apply Keeps.of (State.stopDesc_keeps _ _ _ _ _)
    | with_reducible apply Keeps.of (State.commitSwap_keeps _ _ _ _)
    | (fail_if_no_progress (with_reducible refine Keeps.lit ?_ rfl rfl rfl rfl rfl rfl rfl))
    | extract_lets +onlyGivenNames x
    | split

theorem State.countLoad_keeps (s x0 x1) : Keeps s (State.countLoad s x0 x1) := by
  unfold State.countLoad
  repeat' first
    | with_reducible exact Keeps.refl _
    | (with_reducible apply Keeps.ite) <;> intro _
    | with_reducible apply Keeps.of (State.raiseOnce_keeps _ _ _ _ _ _ _)
    | with_reducible apply Keeps.of (State.countKept_keeps _ _ _)

theorem State.loadWrite_keeps (s x0 x1) : Keeps s (State.loadWrite s x0 x1).1 := by
  unfold State.loadWrite
  repeat' first
    | with_reducible assumption
    | with_reducible exact Keeps.refl _
    | with_reducible apply Keeps.of (State.raise_keeps _ _ _ _ _ _)
    | with_reducible apply Keeps.of (State.writeVerified_keeps _ _ _ _)
    | extract_lets +onlyGivenNames x
    | split

theorem State.loadWrites_keeps (x0 x1 s x2) : Keeps s (State.loadWrites x0 x1 s x2).1 := by
  induction x0 generalizing s x1 x2 with
  | nil => exact Keeps.refl s
  | cons w ws ih =>
    unfold State.loadWrites
    simp only []
    split
    · exact (State.loadWrite_keeps _ _ _).trans (ih _ _ _)
    · exact State.loadWrite_keeps _ _ _

theorem State.loadRows_keeps (s x0 x1 x2) : Keeps s (State.loadRows s x0 x1 x2) := by
  unfold State.loadRows
  repeat' first
    | with_reducible assumption
    | with_reducible exact Keeps.refl _
    | (with_reducible apply Keeps.ite) <;> intro _
    | with_reducible apply Keeps.of (State.finishDesc_keeps _ _ _ _ _)
    | with_reducible apply Keeps.of (State.failDesc_keeps _ _ _ _)
    | with_reducible apply Keeps.of (State.stopDesc_keeps _ _ _ _ _)
    | with_reducible apply Keeps.of (State.countLoad_keeps _ _ _)
    | with_reducible apply Keeps.of (State.loadWrites_keeps _ _ _ _)
    | split

theorem State.zeroRegion_keeps (x0 s x1) : Keeps s (State.zeroRegion x0 s x1) := by
  induction x0 generalizing s x1 with
  | zero => exact Keeps.refl s
  | succ n ih =>
    unfold State.zeroRegion
    exact (State.writeVerified_keeps _ _ _ _).trans (ih _ _)

theorem State.beginStaging_keeps (s x0) : Keeps s (State.beginStaging s x0) := by
  unfold State.beginStaging
  repeat' first
    | with_reducible assumption
    | with_reducible exact Keeps.refl _
    | with_reducible apply Keeps.of (State.failDesc_keeps _ _ _ _)
    | with_reducible apply Keeps.of (State.mapTables_keeps _ _ _)
    | with_reducible apply Keeps.of (State.dropVersions_keeps _ _)
    | with_reducible apply Keeps.of (State.startOp_keeps _ _)
    | with_reducible apply Keeps.of (State.zeroRegion_keeps _ _ _)
    | (with_reducible apply Keeps.of (Keeps.foldl (fun t x => ?_) _ _))
    | (fail_if_no_progress (with_reducible refine Keeps.lit ?_ rfl rfl rfl rfl rfl rfl rfl))
    | split

theorem State.endStaging_keeps (s) : Keeps s (State.endStaging s) := by
  unfold State.endStaging
  repeat' first
    | with_reducible exact Keeps.refl _
    | (with_reducible apply Keeps.ite) <;> intro _
    | with_reducible apply Keeps.of (State.finishDesc_keeps _ _ _ _ _)
    | with_reducible apply Keeps.of (State.endOp_keeps _ _)
    | with_reducible apply Keeps.of (State.mapTables_keeps _ _ _)
    | (with_reducible apply Keeps.of (Keeps.foldl (fun t x => ?_) _ _))

theorem State.takeDiscard_keeps (s x0) : Keeps s (State.takeDiscard s x0) := by
  unfold State.takeDiscard
  repeat' first
    | with_reducible assumption
    | with_reducible exact Keeps.refl _
    | (with_reducible apply Keeps.ite) <;> intro _
    | with_reducible apply Keeps.of (State.finishDesc_keeps _ _ _ _ _)
    | with_reducible apply Keeps.of (State.stopDesc_keeps _ _ _ _ _)
    | with_reducible apply Keeps.of (State.failSwaps_keeps _ _)
    | with_reducible apply Keeps.of (State.dropVersions_keeps _ _)
    | (fail_if_no_progress (with_reducible refine Keeps.lit ?_ rfl rfl rfl rfl rfl rfl rfl))
    | extract_lets +onlyGivenNames x
    | split

end Sys2Proof.Machine
end

