-- ==== Sys2Proof/Laws/KeepsWindow.lean ====
section
/-! SUPPORT. Every operation of the setup window, the memory ports, lookup and rows, the exchange stage, export, history and the watch keeps what the module keeps
(Keeps): one lemma per operation, cited instead of its text. -/

-- Checked one theorem at a time: the package as one text then needs less memory.
set_option Elab.async false

namespace Sys2Proof.Machine

/-! ## Window -/

theorem State.outOfRange_keeps (s x0) : Keeps s (State.outOfRange s x0) := State.log_keeps _ _ _ _

theorem State.writeGroupCfg_keeps (s x0) : Keeps s (State.writeGroupCfg s x0) := by
  unfold State.writeGroupCfg
  repeat' first
    | with_reducible exact Keeps.refl _
    | (with_reducible apply Keeps.ite) <;> intro _
    | with_reducible apply Keeps.of (State.raise_keeps _ _ _ _ _ _)
    | with_reducible apply Keeps.of (State.setGroup_keeps _ _ _)
    | with_reducible apply Keeps.of (State.log_keeps _ _ _ _)
    | with_reducible apply Keeps.of (State.outOfRange_keeps _ _)

theorem State.busyWrite_keeps (s x0) : Keeps s (State.busyWrite s x0) := by
  unfold State.busyWrite
  repeat' first
    | with_reducible exact Keeps.refl _
    | (with_reducible apply Keeps.ite) <;> intro _
    | with_reducible apply Keeps.of (State.raise_keeps _ _ _ _ _ _)
    | with_reducible apply Keeps.of (State.log_keeps _ _ _ _)

theorem State.denied_keeps (s x0 x1) : Keeps s (State.denied s x0 x1) := by
  unfold State.denied
  repeat' first
    | with_reducible exact Keeps.refl _
    | (with_reducible apply Keeps.ite) <;> intro _
    | with_reducible apply Keeps.of (State.log_keeps _ _ _ _)
    | with_reducible apply Keeps.of (State.raiseOnce_keeps _ _ _ _ _ _ _)

theorem State.guardedWrite_keeps (s x0 x1 x2 x3 l u) (h1 : s.confRefused x3 = false → Keeps s (l s)) (h2 : s.confRefused x3 = false → Keeps s (u s)) :
    Keeps s (State.guardedWrite s x0 x1 x2 x3 l u) := by
  unfold State.guardedWrite
  split
  · exact State.denied_keeps _ _ _
  · split
    · exact State.busyWrite_keeps _ _
    · split
      · exact State.log_keeps _ _ _ _
      · split
        · exact (h1 (by simpa using ‹¬s.confRefused x3 = true›)).trans (State.log_keeps _ _ _ _)
        · exact h2 (by simpa using ‹¬s.confRefused x3 = true›)

theorem State.setPending_keeps (s f) (h : s.pend.inRange → (f s.pend).inRange)
    (d : s.sec.mode = 2 → s.pend.debugEn = false → (f s.pend).debugEn = false) : Keeps s (State.setPending s f) :=
  Keeps.views (Keeps.refl s) (fun v => ⟨v.1, h v.2⟩) (fun m a p => ⟨a, d m p⟩) rfl rfl rfl rfl rfl rfl rfl rfl

theorem State.writeAux_keeps (s x0) : Keeps s (State.writeAux s x0) := by
  unfold State.writeAux
  extract_lets n0 n1 p
  refine Keeps.ite (fun _ => State.outOfRange_keeps _ _) (fun h3 => Keeps.ite (fun _ => (State.log_keeps _ _ _ _).trans
    (State.raise_keeps _ _ _ _ _ _)) (fun hc => State.setPending_keeps _ _ (fun h => ?_) (fun _ d => d)))
  obtain ⟨a, b, c, d, e0, e1, e⟩ := h
  refine ⟨a, b, c, d, fun k => h3 (Or.inl k), fun k => h3 (Or.inr k), fun k => hc ?_⟩
  have k0 : n0 = 1 := k.1
  have k1 : n1 = 1 := k.2
  have k2 : ¬(p.aux0 = 1 ∧ p.aux1 = 1) := e
  rw [k0, k1]
  clear_value p
  generalize p.aux0 = x at k2
  generalize p.aux1 = y at k2
  revert k2
  revert x y
  decide

theorem State.writeMsix_keeps (s x0 x1 x2) : Keeps s (State.writeMsix s x0 x1 x2) := by
  unfold State.writeMsix
  repeat' first
    | with_reducible exact Keeps.refl _
    | (with_reducible apply Keeps.ite) <;> intro _
    | with_reducible apply Keeps.of (State.setPort_keeps _ _ _)
    | with_reducible apply Keeps.of (State.toHost_keeps _ _ _)

theorem State.windowWrite_keeps (s x0 x1 x2 x3 l u) (h1 : ∀ t r, regAt x1 = some r → t.confRefused r = false → Keeps t (l t))
    (h2 : ∀ t r, regAt x1 = some r → t.confRefused r = false → Keeps t (u t)) :
    Keeps s (State.windowWrite s x0 x1 x2 x3 l u) := by
  unfold State.windowWrite
  extract_lets armed _ s0
  have h0 : Keeps s s0 := Keeps.ite (fun _ => Keeps.lit (Keeps.refl s) rfl rfl rfl rfl rfl rfl rfl) (fun _ => Keeps.refl s)
  clear_value s0
  refine Keeps.ite (fun _ => Keeps.refl s) (fun _ => Keeps.ite (fun _ => h0.trans (State.log_keeps _ _ _ _)) (fun _ => ?_))
  split
  · exact h0.trans (State.writeMsix_keeps _ _ _ _)
  · exact h0
  · refine Keeps.ite (fun _ => h0.trans (State.denied_keeps _ _ _)) (fun _ => Keeps.ite (fun _ => h0.trans (State.log_keeps _ _ _ _)) (fun _ => ?_))
    split
    · exact Keeps.ite (fun _ => h0.trans (State.busyWrite_keeps _ _)) (fun _ => h0.trans (State.log_keeps _ _ _ _))
    · exact h0.trans (State.guardedWrite_keeps _ _ _ _ _ _ _ (fun k => h1 _ _ ‹_› k) (fun k => h2 _ _ ‹_› k))

theorem State.endDisarm_keeps (s x0) : Keeps s (State.endDisarm s x0) := by
  unfold State.endDisarm
  repeat' first
    | with_reducible exact Keeps.refl _
    | (with_reducible apply Keeps.ite) <;> intro _
    | with_reducible apply Keeps.of (State.setQueue_keeps _ _ _)
    | with_reducible apply Keeps.of (State.failFences_keeps _ _)

theorem State.runAdmission_keeps (s x0 x1) : Keeps s (State.runAdmission s x0 x1).1 := by
  unfold State.runAdmission
  repeat' first
    | with_reducible assumption
    | with_reducible exact Keeps.refl _
    | with_reducible apply Keeps.of (State.raise_keeps _ _ _ _ _ _)
    | (fail_if_no_progress (with_reducible refine Keeps.lit ?_ rfl rfl rfl rfl rfl rfl rfl))
    | split

theorem State.writePlain_keeps (s x0 x1) : Keeps s (State.writePlain s x0 x1) := by
  unfold State.writePlain
  repeat' first
    | with_reducible exact Keeps.refl _
    | (with_reducible apply Keeps.ite) <;> intro _
    | with_reducible apply Keeps.of (State.setQueue_keeps _ _ _)
    | with_reducible apply Keeps.of (State.setGroup_keeps _ _ _)
    | with_reducible apply Keeps.of (State.log_keeps _ _ _ _)
    | with_reducible apply Keeps.of (State.outOfRange_keeps _ _)
    | (fail_if_no_progress (with_reducible refine Keeps.lit ?_ rfl rfl rfl rfl rfl rfl rfl))
    | split

theorem State.writeExcl_keeps (s x0 x1) : Keeps s (State.writeExcl s x0 x1) := by
  unfold State.writeExcl
  repeat' first
    | with_reducible exact Keeps.refl _
    | exact State.setPending_keeps _ _ (fun h => h) (fun _ h => h)
    | (with_reducible apply Keeps.ite) <;> intro _
    | with_reducible apply Keeps.of (State.outOfRange_keeps _ _)

theorem State.writeTickCtrl_keeps (s x0 x1) : Keeps s (State.writeTickCtrl s x0 x1) := by
  unfold State.writeTickCtrl
  repeat' first
    | with_reducible exact Keeps.refl _
    | exact State.setPending_keeps _ _ (fun h => h) (fun _ h => h)
    | (with_reducible apply Keeps.ite) <;> intro _
    | with_reducible apply Keeps.of (State.raise_keeps _ _ _ _ _ _)
    | with_reducible apply Keeps.of (State.outOfRange_keeps _ _)

theorem State.writeTickPeriod_keeps (s x0) : Keeps s (State.writeTickPeriod s x0) := by
  unfold State.writeTickPeriod
  repeat' first
    | with_reducible exact Keeps.refl _
    | exact State.setPending_keeps _ _ (fun h => h) (fun _ h => h)
    | (with_reducible apply Keeps.ite) <;> intro _
    | with_reducible apply Keeps.of (State.raise_keeps _ _ _ _ _ _)
    | with_reducible apply Keeps.of (State.outOfRange_keeps _ _)

theorem State.writeTcMap_keeps (s x0) : Keeps s (State.writeTcMap s x0) := by
  unfold State.writeTcMap
  repeat' first
    | exact State.setPending_keeps _ _ (fun h => h) (fun _ h => h)

theorem State.writePowerLimit_keeps (s x0) : Keeps s (State.writePowerLimit s x0) := by
  unfold State.writePowerLimit
  extract_lets w
  refine Keeps.ite (fun _ => State.outOfRange_keeps _ _) (fun k => State.setPending_keeps _ _ (fun h => ?_) (fun _ d => d))
  obtain ⟨a, b, c, d, e⟩ := h
  refine ⟨a, b, c, ?_, e⟩
  simp only [BitVec.toNat_ofNat]
  omega

theorem State.writeWatchCtrl_keeps (s x0) : Keeps s (State.writeWatchCtrl s x0) := by
  unfold State.writeWatchCtrl
  refine Keeps.ite (fun _ => State.outOfRange_keeps _ _) (fun k => State.setPending_keeps _ _ (fun h => ?_) (fun _ d => d))
  obtain ⟨a, b, c, d⟩ := h
  have hb : bits 6 2 x0 < 2 ^ 5 := Nat.mod_lt _ (by decide)
  have hd : bits 31 16 x0 < 2 ^ 16 := Nat.mod_lt _ (by decide)
  refine ⟨a, ?_, fun z => ?_, d⟩
  · simp only [BitVec.toNat_ofNat]; omega
  · have := congrArg BitVec.toNat z
    simp only [BitVec.toNat_ofNat] at this
    simp at this
    omega

theorem State.writeHerd_keeps (s x0 x1) : Keeps s (State.writeHerd s x0 x1) := by
  unfold State.writeHerd
  repeat' first
    | exact State.setPending_keeps _ _ (fun h => h) (fun _ h => h)

theorem State.confRefused_debug {s : State} (h : s.confRefused .debugCtrl = false) : s.sec.mode ≠ 2 := by
  simpa [State.confRefused, State.confidential] using h

theorem State.writeBuffered_keeps (s x0 x1) (h : s.confRefused x0 = false) : Keeps s (State.writeBuffered s x0 x1) := by
  unfold State.writeBuffered
  split
  · exact State.writeWatchCtrl_keeps _ _
  · exact State.setPending_keeps _ _ (fun h => h) (fun _ d => d)
  · exact State.writeTcMap_keeps _ _
  · exact State.writeHerd_keeps _ _ _
  · exact State.writeHerd_keeps _ _ _
  · exact State.writeHerd_keeps _ _ _
  · exact State.writeHerd_keeps _ _ _
  · exact State.writeHerd_keeps _ _ _
  · exact State.writeExcl_keeps _ _ _
  · exact State.setPending_keeps _ _ (fun h => h) (fun m _ => absurd m (State.confRefused_debug h))
  · exact State.writePowerLimit_keeps _ _
  · exact State.writePlain_keeps _ _ _

theorem State.disarmQueue_keeps (s) : Keeps s (State.disarmQueue s) := by
  unfold State.disarmQueue
  repeat' first
    | with_reducible exact Keeps.refl _
    | (with_reducible apply Keeps.ite) <;> intro _
    | with_reducible apply Keeps.of (State.setQueue_keeps _ _ _)

theorem State.armQueue_keeps (s) : Keeps s (State.armQueue s) := by
  unfold State.armQueue
  repeat' first
    | with_reducible exact Keeps.refl _
    | (with_reducible apply Keeps.ite) <;> intro _
    | with_reducible apply Keeps.of (State.raise_keeps _ _ _ _ _ _)
    | with_reducible apply Keeps.of (State.setQueue_keeps _ _ _)
    | with_reducible apply Keeps.of (State.log_keeps _ _ _ _)
    | with_reducible apply Keeps.of (State.setPort_keeps _ _ _)
    | with_reducible apply Keeps.of (State.refillHeld_keeps _ _)

theorem State.writeQCmd_keeps (s x0) : Keeps s (State.writeQCmd s x0) := by
  unfold State.writeQCmd
  repeat' first
    | with_reducible exact Keeps.refl _
    | with_reducible apply Keeps.of (State.outOfRange_keeps _ _)
    | with_reducible apply Keeps.of (State.disarmQueue_keeps _)
    | with_reducible apply Keeps.of (State.armQueue_keeps _)
    | split

theorem State.clampRegulators_keeps (s) : Keeps s (State.clampRegulators s) := by
  unfold State.clampRegulators
  split
  · exact Keeps.refl s
  · extract_lets r b
    refine Keeps.ite (fun _ => Keeps.refl s) (fun _ => Keeps.trans ?_ (State.raise_keeps _ _ _ _ _ _))
    exact Keeps.views (Keeps.refl s) id (fun _ a p => ⟨a, p⟩) rfl rfl rfl rfl rfl rfl rfl rfl

theorem State.writeRegulator_keeps (s x0 x1 x2) : Keeps s (State.writeRegulator s x0 x1 x2) := by
  unfold State.writeRegulator
  repeat' first
    | with_reducible exact Keeps.refl _
    | exact State.setPending_keeps _ _ (fun h => h) (fun _ h => h)
    | (with_reducible apply Keeps.ite) <;> intro _
    | with_reducible apply Keeps.of (State.outOfRange_keeps _ _)
    | with_reducible apply Keeps.of (State.setPending_keeps _ _)
    | with_reducible apply Keeps.of (State.clampRegulators_keeps _)

theorem State.writeUnlock_keeps (s x0) : Keeps s (State.writeUnlock s x0) := by
  unfold State.writeUnlock
  repeat' first
    | with_reducible exact Keeps.refl _
    | (with_reducible apply Keeps.ite) <;> intro _
    | with_reducible apply Keeps.of (State.log_keeps _ _ _ _)
    | (fail_if_no_progress (with_reducible refine Keeps.lit ?_ rfl rfl rfl rfl rfl rfl rfl))

theorem State.applyRetrain_keeps (s) : Keeps s (State.applyRetrain s) := by
  unfold State.applyRetrain
  refine Keeps.ite (fun _ => Keeps.trans ?_ (State.log_keeps _ _ _ _)) (fun _ => Keeps.refl s)
  exact Keeps.views (Keeps.refl s) id (fun _ a p => ⟨a, p⟩) rfl rfl rfl rfl rfl rfl rfl rfl

theorem State.applyPeriod_keeps (s x0) : Keeps s (State.applyPeriod s x0) := by
  unfold State.applyPeriod
  have k (t : State) (n m) : Keeps t { t with active.tickPeriod := n, pend.tickPeriod := m } :=
    Keeps.views (Keeps.refl t) id (fun _ a p => ⟨a, p⟩) rfl rfl rfl rfl rfl rfl rfl rfl
  extract_lets keep
  refine Keeps.ite (fun _ => Keeps.refl s) (fun _ => Keeps.ite (fun _ => Keeps.ite
    (fun _ => Keeps.lit (Keeps.refl _) rfl rfl rfl rfl rfl rfl rfl) (fun _ =>
    Keeps.trans (k s s.active.tickPeriod s.active.tickPeriod) (State.log_keeps _ _ _ _))) (fun _ => ?_))
  split
  · exact k s s.pend.tickPeriod s.pend.tickPeriod
  · extract_lets r
    have h : Keeps s r.1 := State.runAdmission_keeps _ _ _
    clear_value r
    exact Keeps.ite (fun _ => h.trans (k r.1 r.1.pend.tickPeriod r.1.pend.tickPeriod))
      (fun _ => h.trans (k r.1 r.1.active.tickPeriod r.1.active.tickPeriod))

theorem State.applyExclusion_keeps (s) : Keeps s (State.applyExclusion s) := by
  unfold State.applyExclusion
  have k (t : State) (x n) : Keeps t { t with active.excl := x, mem.epoch := n } :=
    Keeps.views (Keeps.refl t) id (fun _ a p => ⟨a, p⟩) rfl rfl rfl rfl rfl rfl rfl rfl
  refine Keeps.ite (fun _ => k s s.pend.excl s.mem.epoch) (fun _ => ?_)
  exact (((k s s.pend.excl (s.mem.epoch + 1)).trans (State.dropPlan_keeps _)).trans (State.discardTables_keeps _)).trans
    (State.raise_keeps _ _ _ _ _ _)

theorem State.trimHistories_keeps (s) : Keeps s (State.trimHistories s) := by
  unfold State.trimHistories
  repeat' first
    | with_reducible exact Keeps.refl _
    | with_reducible apply Keeps.of (State.setWatch_keeps _ _ _)
    | (with_reducible apply Keeps.of (Keeps.foldl (fun t x => ?_) _ _))
    | split

theorem State.applyPoint_keeps (s x0) : Keeps s (State.applyPoint s x0) := by
  unfold State.applyPoint
  extract_lets s1 h s2 _ s3 s4 s5
  have h1 : Keeps s s1 := (State.clampRegulators_keeps s).trans (State.applyRetrain_keeps _)
  have h2 : Keeps s s2 := h1.trans (Keeps.views (Keeps.refl s1) (fun v => ⟨v.2, v.2⟩) (fun _ _ p => ⟨p, p⟩) rfl rfl rfl rfl rfl rfl rfl rfl)
  have h3 : Keeps s s3 := Keeps.ite (fun _ => h2.trans (Keeps.views (Keeps.refl s2) id (fun _ a p => ⟨a, p⟩) rfl rfl rfl rfl rfl rfl rfl rfl)) (fun _ => h2)
  have h4 : Keeps s s4 := h3.trans (State.applyPeriod_keeps _ _)
  have h5 : Keeps s s5 := Keeps.ite (fun _ => h4.trans (State.applyExclusion_keeps _)) (fun _ => h4)
  exact Keeps.ite (fun _ => h5) (fun _ => h5.trans (State.trimHistories_keeps _))

theorem State.writeApply_keeps (s x0) : Keeps s (State.writeApply s x0) := by
  unfold State.writeApply
  extract_lets s1
  have h1 : Keeps s s1 := Keeps.ite (fun _ => Keeps.views (Keeps.refl s) (fun v => ⟨v.1, v.1⟩) (fun _ a _ => ⟨a, a⟩) rfl rfl rfl rfl rfl rfl rfl rfl)
    (fun _ => Keeps.refl s)
  exact Keeps.ite (fun _ => State.log_keeps _ _ _ _) (fun _ => Keeps.ite (fun _ => h1.trans (State.applyPoint_keeps _ _)) (fun _ => h1))

theorem State.latchRead_keeps (s x0 x1 x2 x3 f) (h : ∀ t, Keeps t (f t)) : Keeps s (State.latchRead s x0 x1 x2 x3 f) := by
  unfold State.latchRead
  exact Keeps.ite (fun _ => Keeps.refl s) (fun _ => Keeps.ite (fun _ => (State.emit_keeps _ _).trans (State.log_keeps _ _ _ _))
    (fun _ => Keeps.ite (fun _ => (State.emit_keeps _ _).trans (h _)) (fun _ => State.emit_keeps _ _)))

/-! ## MemPorts -/

theorem State.stackCrit_keeps (s x0 x1) : Keeps s (State.stackCrit s x0 x1) := by
  unfold State.stackCrit
  repeat' first
    | with_reducible exact Keeps.refl _
    | with_reducible apply Keeps.of (State.raise_keeps _ _ _ _ _ _)
    | with_reducible apply Keeps.of (State.voidPromise_keeps _ _)
    | (fail_if_no_progress (with_reducible refine Keeps.lit ?_ rfl rfl rfl rfl rfl rfl rfl))

theorem State.channelTrained_keeps (s x0 x1) : Keeps s (State.channelTrained s x0 x1) := State.setChannel_keeps _ _ _

theorem State.spareLanes_keeps (s x0 x1) : Keeps s (State.spareLanes s x0 x1) := by
  unfold State.spareLanes
  repeat' first
    | with_reducible exact Keeps.refl _
    | with_reducible apply Keeps.of (State.raise_keeps _ _ _ _ _ _)
    | with_reducible apply Keeps.of (State.logged_keeps _ _)
    | with_reducible apply Keeps.of (State.setChannel_keeps _ _ _)
    | (with_reducible apply Keeps.of (Keeps.foldl (fun t x => ?_) _ _))

theorem State.channelDown_keeps (s x0) : Keeps s (State.channelDown s x0) := by
  unfold State.channelDown
  repeat' first
    | with_reducible exact Keeps.refl _
    | with_reducible apply Keeps.of (State.raiseHalt_keeps _ _ _ _ _)
    | with_reducible apply Keeps.of (State.setChannel_keeps _ _ _)
    | with_reducible apply Keeps.of (State.permanentNow_keeps _ _)

theorem State.appendFailed_keeps (s x0 x1) : Keeps s (State.appendFailed s x0 x1) := by
  unfold State.appendFailed
  repeat' first
    | with_reducible exact Keeps.refl _
    | (with_reducible apply Keeps.ite) <;> intro _
    | with_reducible apply Keeps.of (State.raiseHalt_keeps _ _ _ _ _)
    | with_reducible apply Keeps.of (State.portWrite_keeps _ _)
    | (fail_if_no_progress (with_reducible refine Keeps.lit ?_ rfl rfl rfl rfl rfl rfl rfl))

theorem State.readFaults_keeps (s x0 x1) : Keeps s (State.readFaults s x0 x1) := by
  unfold State.readFaults
  refine Keeps.ite (fun _ => Keeps.refl _) (fun _ => ?_)
  extract_lets new _ _ s1
  have h : Keeps s s1 := Keeps.lit (Keeps.refl _) rfl rfl rfl rfl rfl rfl rfl
  clear_value s1 new
  split
  · exact h.trans (State.checkFault_keeps _ _)
  · exact h.trans (State.checkFault_keeps _ _)
  · exact h

theorem State.stageBlock_keeps (s x0 x1) : Keeps s (State.stageBlock s x0 x1).1 := by
  unfold State.stageBlock
  repeat' first
    | with_reducible assumption
    | with_reducible exact Keeps.refl _
    | with_reducible apply Keeps.of (State.readFaults_keeps _ _ _)
    | with_reducible apply Keeps.of (State.readBlock_keeps _ _ _)
    | extract_lets +onlyGivenNames x
    | split

theorem State.logTouched_keeps (s x0) : Keeps s (State.logTouched s x0) := State.logItem_keeps _ _

theorem State.appendsWritten_keeps (s) : Keeps s (State.appendsWritten s) := by
  unfold State.appendsWritten
  repeat' first
    | with_reducible exact Keeps.refl _
    | with_reducible apply Keeps.of (State.messages_keeps _ _ _ _)
    | with_reducible apply Keeps.of (State.logTouched_keeps _ _)
    | (with_reducible apply Keeps.of (Keeps.foldl (fun t x => ?_) _ _))
    | (fail_if_no_progress (with_reducible refine Keeps.lit ?_ rfl rfl rfl rfl rfl rfl rfl))

theorem State.writeMemCtrl_keeps (s x0 x1) : Keeps s (State.writeMemCtrl s x0 x1) := by
  unfold State.writeMemCtrl
  repeat' first
    | with_reducible exact Keeps.refl _
    | exact State.setPending_keeps _ _ (fun h => h) (fun _ h => h)
    | (with_reducible apply Keeps.ite) <;> intro _
    | with_reducible apply Keeps.of (State.log_keeps _ _ _ _)
    | with_reducible apply Keeps.of (State.setPending_keeps _ _)
    | with_reducible apply Keeps.of (State.startOp_keeps _ _)
    | with_reducible apply Keeps.of (State.setChannel_keeps _ _ _)

theorem State.failedOnce_keeps (s x0 x1 x2 f) (h : ∀ t, Keeps t (f t)) : Keeps s (State.failedOnce s x0 x1 x2 f) := by
  unfold State.failedOnce
  exact Keeps.ite (fun _ => (State.setCtx_keeps _ _ _).trans (h _)) (fun _ => State.faultChurn_keeps _ _)

theorem State.recordEnded_keeps (s x0 x1 x2) : Keeps s (State.recordEnded s x0 x1 x2) := by
  unfold State.recordEnded
  split
  · exact Keeps.refl _
  · split
    · exact (State.setCtx_keeps _ _ _).trans (State.reportVerified_keeps _ _ _)
    · exact ((State.recordKept_keeps _ _ _).trans (State.flushTally_keeps _ _ _)).trans (State.setChurn_keeps _ _ _)
    · refine State.failedOnce_keeps _ _ _ _ _ (fun t => ?_)
      rename_i x _ _ _ _
      cases x.item with
      | none => exact Keeps.refl _
      | some it => exact State.issueRecord_keeps _ _ _ _ _
    · exact Keeps.refl _

theorem State.copyEnded_keeps (s x0 x1 x2 x3) : Keeps s (State.copyEnded s x0 x1 x2 x3) := by
  unfold State.copyEnded
  split
  · refine Keeps.ite (fun _ => (State.setCtx_keeps _ _ _).trans (State.reportVerified_keeps _ _ _)) (fun _ =>
      State.failedOnce_keeps _ _ _ _ _ (fun t => ?_))
    split
    next w _ => cases (w.2.parts[x2]?) with
      | none => exact Keeps.refl _
      | some p => exact State.issueCopy_keeps _ _ _ _ _ _
    next => exact Keeps.refl _
  · exact Keeps.refl _

theorem State.appendEnded_keeps (s x0 x1) : Keeps s (State.appendEnded s x0 x1) := by
  unfold State.appendEnded
  repeat' first
    | with_reducible assumption
    | with_reducible exact Keeps.refl _
    | (with_reducible apply Keeps.ite) <;> intro _
    | with_reducible apply Keeps.of (State.appendFailed_keeps _ _ _)
    | with_reducible apply Keeps.of (State.appendsWritten_keeps _)
    | (fail_if_no_progress (with_reducible refine Keeps.lit ?_ rfl rfl rfl rfl rfl rfl rfl))
    | split

theorem State.retagEnded_keeps (s x0 x1 x2) : Keeps s (State.retagEnded s x0 x1 x2) := by
  unfold State.retagEnded
  repeat' first
    | with_reducible exact Keeps.refl _
    | with_reducible apply Keeps.of (State.setCtx_keeps _ _ _)
    | with_reducible apply Keeps.of (State.faultChurn_keeps _ _)
    | with_reducible apply Keeps.of (State.issueRetag_keeps _ _ _ _ _)
    | with_reducible apply Keeps.of (State.enterRecord_keeps _ _ _ _ _)
    | split

theorem State.tellWriter_keeps (s x0 x1) : Keeps s (State.tellWriter s x0 x1) := by
  unfold State.tellWriter
  repeat' first
    | with_reducible exact Keeps.refl _
    | with_reducible apply Keeps.of (State.recordEnded_keeps _ _ _ _)
    | with_reducible apply Keeps.of (State.copyEnded_keeps _ _ _ _ _)
    | with_reducible apply Keeps.of (State.appendEnded_keeps _ _ _)
    | with_reducible apply Keeps.of (State.retagEnded_keeps _ _ _ _)
    | split

theorem State.writeAck_keeps (s x0 x1 x2) : Keeps s (State.writeAck s x0 x1 x2) := by
  unfold State.writeAck
  repeat' first
    | with_reducible assumption
    | with_reducible exact Keeps.refl _
    | (with_reducible apply Keeps.ite) <;> intro _
    | with_reducible apply Keeps.of (State.raise_keeps _ _ _ _ _ _)
    | with_reducible apply Keeps.of (State.putUnit_keeps _ _ _ _)
    | with_reducible apply Keeps.of (State.setStack_keeps _ _ _)
    | with_reducible apply Keeps.of (State.retryWaiting_keeps _)
    | with_reducible apply Keeps.of (State.tellWriter_keeps _ _ _)
    | split

theorem State.stageRecord_keeps (s x0 x1) : Keeps s (State.stageRecord s x0 x1).1 := State.stageBlock_keeps _ _ _

theorem State.regulatedIssue_keeps (s x0 x1 x2) : Keeps s (State.regulatedIssue s x0 x1 x2) := by
  unfold State.regulatedIssue
  repeat' first
    | with_reducible exact Keeps.refl _
    | with_reducible apply Keeps.of (State.setStack_keeps _ _ _)
    | (fail_if_no_progress (with_reducible refine Keeps.lit ?_ rfl rfl rfl rfl rfl rfl rfl))

theorem State.retrainDone_keeps (s x0 x1 x2) : Keeps s (State.retrainDone s x0 x1 x2) := by
  unfold State.retrainDone
  repeat' first
    | with_reducible assumption
    | with_reducible exact Keeps.refl _
    | (with_reducible apply Keeps.ite) <;> intro _
    | with_reducible apply Keeps.of (State.raise_keeps _ _ _ _ _ _)
    | with_reducible apply Keeps.of (State.endOp_keeps _ _)
    | with_reducible apply Keeps.of (State.setChannel_keeps _ _ _)
    | with_reducible apply Keeps.of (State.channelTrained_keeps _ _ _)
    | with_reducible apply Keeps.of (State.spareLanes_keeps _ _ _)
    | with_reducible apply Keeps.of (State.channelDown_keeps _ _)
    | (fail_if_no_progress (with_reducible refine Keeps.lit ?_ rfl rfl rfl rfl rfl rfl rfl))
    | split

theorem State.retrainOverdue_keeps (s x0) : Keeps s (State.retrainOverdue s x0) := by
  unfold State.retrainOverdue
  repeat' first
    | with_reducible exact Keeps.refl _
    | (with_reducible apply Keeps.ite) <;> intro _
    | with_reducible apply Keeps.of (State.raise_keeps _ _ _ _ _ _)
    | with_reducible apply Keeps.of (State.setChannel_keeps _ _ _)

theorem State.recordWrite_keeps (s x0 x1 x2 x3) : Keeps s (State.recordWrite s x0 x1 x2 x3) := by
  unfold State.recordWrite
  repeat' first
    | with_reducible exact Keeps.refl _
    | (with_reducible apply Keeps.ite) <;> intro _
    | with_reducible apply Keeps.of (State.countedFault_keeps _ _)
    | with_reducible apply Keeps.of (State.portWrite_keeps _ _)

theorem State.retrainRequest_keeps (s x0 x1 x2) : Keeps s (State.retrainRequest s x0 x1 x2) := by
  unfold State.retrainRequest
  repeat' first
    | with_reducible exact Keeps.refl _
    | (with_reducible apply Keeps.ite) <;> intro _
    | with_reducible apply Keeps.of (State.setChannel_keeps _ _ _)
    | (fail_if_no_progress (with_reducible refine Keeps.lit ?_ rfl rfl rfl rfl rfl rfl rfl))

theorem State.stackTemp_keeps (s x0 x1) : Keeps s (State.stackTemp s x0 x1) := by
  unfold State.stackTemp
  repeat' first
    | with_reducible exact Keeps.refl _
    | (with_reducible apply Keeps.ite) <;> intro _
    | with_reducible apply Keeps.of (State.raise_keeps _ _ _ _ _ _)
    | with_reducible apply Keeps.of (State.stackCrit_keeps _ _ _)
    | with_reducible apply Keeps.of (State.setStack_keeps _ _ _)
    | (fail_if_no_progress (with_reducible refine Keeps.lit ?_ rfl rfl rfl rfl rfl rfl rfl))

/-! ## HistOps -/

theorem State.readUsers_keeps (s) : Keeps s (State.readUsers s).1 := by
  unfold State.readUsers
  repeat' first
    | with_reducible assumption
    | with_reducible exact Keeps.refl _
    | with_reducible apply Keeps.of (State.readRecord_keeps _ _ _ _)
    | (with_reducible apply Keeps.of (Keeps.foldl_fst (fun t x => ?_) _ _))
    | (fail_if_no_progress (with_reducible refine Keeps.lit ?_ rfl rfl rfl rfl rfl rfl rfl))
    | extract_lets +onlyGivenNames x
    | split

theorem State.readLengths_keeps (s) : Keeps s (State.readLengths s) := by
  unfold State.readLengths
  repeat' first
    | with_reducible exact Keeps.refl _
    | (with_reducible apply Keeps.ite) <;> intro _
    | with_reducible apply Keeps.of (State.makeSuspect_keeps _)
    | with_reducible apply Keeps.of (State.readFaults_keeps _ _ _)
    | with_reducible apply Keeps.of (State.readUsers_keeps _)

/-! ## Attention -/

theorem State.addEntry_keeps (s x0 x1 x2 x3) : Keeps s (State.addEntry s x0 x1 x2 x3) := by
  unfold State.addEntry
  repeat' first
    | with_reducible exact Keeps.refl _
    | with_reducible apply Keeps.of (State.tileWrite_keeps _ _ _ _)

theorem State.ownGrad_keeps (s x0 x1 x2 x3 x4) : Keeps s (State.ownGrad s x0 x1 x2 x3 x4) := by
  unfold State.ownGrad
  repeat' first
    | with_reducible exact Keeps.refl _
    | with_reducible apply Keeps.of (State.addEntry_keeps _ _ _ _ _)
    | (with_reducible apply Keeps.of (Keeps.foldl (fun t x => ?_) _ _))

theorem State.leaveSlot_keeps (s x0 x1 x2) : Keeps s (State.leaveSlot s x0 x1 x2) := by
  unfold State.leaveSlot
  repeat' first
    | with_reducible exact Keeps.refl _
    | with_reducible apply Keeps.of (State.setSlot_keeps _ _ _ _)
    | split

theorem State.tally_keeps (s x0 x1 x2) : Keeps s (State.tally s x0 x1 x2) := by
  unfold State.tally
  repeat' first
    | with_reducible exact Keeps.refl _
    | with_reducible apply Keeps.of (State.slotEvents_keeps _ _ _ _)
    | with_reducible apply Keeps.of (State.countExceptions_keeps _ _ _)
    | with_reducible apply Keeps.of (State.slotCounts_keeps _ _ _)
    | (with_reducible apply Keeps.of (Keeps.foldl (fun t x => ?_) _ _))

theorem State.attend_keeps (s x0 x1) : Keeps s (State.attend s x0 x1) := by
  unfold State.attend
  repeat' first
    | with_reducible exact Keeps.refl _
    | with_reducible apply Keeps.of (State.tileWrite_keeps _ _ _ _)
    | with_reducible apply Keeps.of (State.leaveSlot_keeps _ _ _ _)
    | with_reducible apply Keeps.of (State.tally_keeps _ _ _ _)
    | (fail_if_no_progress (with_reducible refine Keeps.lit ?_ rfl rfl rfl rfl rfl rfl rfl))

theorem State.attendBack_keeps (s x0 x1) : Keeps s (State.attendBack s x0 x1) := by
  unfold State.attendBack
  repeat' first
    | with_reducible exact Keeps.refl _
    | (with_reducible apply Keeps.ite) <;> intro _
    | with_reducible apply Keeps.of (State.setSlot_keeps _ _ _ _)
    | with_reducible apply Keeps.of (State.tileWrite_keeps _ _ _ _)
    | with_reducible apply Keeps.of (State.ownGrad_keeps _ _ _ _ _ _)
    | with_reducible apply Keeps.of (State.leaveSlot_keeps _ _ _ _)
    | with_reducible apply Keeps.of (State.tally_keeps _ _ _ _)
    | (with_reducible apply Keeps.of (Keeps.foldl (fun t x => ?_) _ _))

/-! ## Lookup -/

theorem State.sendUserLists_keeps (s) : Keeps s (State.sendUserLists s) := by
  unfold State.sendUserLists
  repeat' first
    | with_reducible exact Keeps.refl _
    | with_reducible apply Keeps.of (State.exchange_keeps _ _ _ _ _)
    | (with_reducible apply Keeps.of (Keeps.foldl (fun t x => ?_) _ _))

theorem State.sendLists_keeps (s) : Keeps s (State.sendLists s) := by
  unfold State.sendLists
  repeat' first
    | with_reducible exact Keeps.refl _
    | with_reducible apply Keeps.of (State.exchange_keeps _ _ _ _ _)
    | (with_reducible apply Keeps.of (Keeps.foldl (fun t x => ?_) _ _))

theorem State.countInvalid_keeps (s x0) : Keeps s (State.countInvalid s x0) := by
  unfold State.countInvalid
  repeat' first
    | with_reducible assumption
    | with_reducible exact Keeps.refl _
    | with_reducible apply Keeps.of (State.setWatch_keeps _ _ _)
    | (with_reducible apply Keeps.of (Keeps.foldl (fun t x => ?_) _ _))
    | (fail_if_no_progress (with_reducible refine Keeps.lit ?_ rfl rfl rfl rfl rfl rfl rfl))

theorem State.raiseInvalid_keeps (s x0) : Keeps s (State.raiseInvalid s x0) := by
  unfold State.raiseInvalid
  repeat' first
    | with_reducible exact Keeps.refl _
    | with_reducible apply Keeps.of (State.raiseOnce_keeps _ _ _ _ _ _ _)
    | (with_reducible apply Keeps.of (Keeps.foldl (fun t x => ?_) _ _))

theorem State.separateNext_keeps (s) : Keeps s (State.separateNext s) := by
  unfold State.separateNext
  repeat' first
    | with_reducible exact Keeps.refl _
    | (with_reducible apply Keeps.ite) <;> intro _
    | with_reducible apply Keeps.of (State.raiseInvalid_keeps _ _)
    | (fail_if_no_progress (with_reducible refine Keeps.lit ?_ rfl rfl rfl rfl rfl rfl rfl))

theorem State.checkRange_keeps (s x0 x1) : Keeps s (State.checkRange s x0 x1) := by
  unfold State.checkRange
  repeat' first
    | with_reducible assumption
    | with_reducible exact Keeps.refl _
    | (with_reducible apply Keeps.ite) <;> intro _
    | with_reducible apply Keeps.of (State.raise_keeps _ _ _ _ _ _)
    | with_reducible apply Keeps.of (State.declareExcess_keeps _)
    | with_reducible apply Keeps.of (State.uncover_keeps _ _)
    | (fail_if_no_progress (with_reducible refine Keeps.lit ?_ rfl rfl rfl rfl rfl rfl rfl))
    | split

theorem State.separateEval_keeps (s) : Keeps s (State.separateEval s) := by
  unfold State.separateEval
  repeat' first
    | with_reducible exact Keeps.refl _
    | with_reducible apply Keeps.of (State.countInvalid_keeps _ _)
    | with_reducible apply Keeps.of (State.raiseInvalid_keeps _ _)
    | (fail_if_no_progress (with_reducible refine Keeps.lit ?_ rfl rfl rfl rfl rfl rfl rfl))

theorem State.aggregateOwner_keeps (s) : Keeps s (State.aggregateOwner s) := by
  unfold State.aggregateOwner
  repeat' first
    | with_reducible exact Keeps.refl _
    | (with_reducible apply Keeps.ite) <;> intro _
    | with_reducible apply Keeps.of (State.checkRange_keeps _ _ _)
    | (with_reducible apply Keeps.of (Keeps.foldl (fun t x => ?_) _ _))
    | (fail_if_no_progress (with_reducible refine Keeps.lit ?_ rfl rfl rfl rfl rfl rfl rfl))

theorem State.aggregateProxy_keeps (s x0) : Keeps s (State.aggregateProxy s x0) := by
  unfold State.aggregateProxy
  repeat' first
    | with_reducible exact Keeps.refl _
    | (with_reducible apply Keeps.ite) <;> intro _
    | with_reducible apply Keeps.of (State.exchange_keeps _ _ _ _ _)
    | (fail_if_no_progress (with_reducible refine Keeps.lit ?_ rfl rfl rfl rfl rfl rfl rfl))

/-! ## Rows -/

theorem State.returnRows_keeps (s) : Keeps s (State.returnRows s) := by
  unfold State.returnRows
  repeat' first
    | with_reducible exact Keeps.refl _
    | with_reducible apply Keeps.of (State.exchange_keeps _ _ _ _ _)
    | (with_reducible apply Keeps.of (Keeps.foldl (fun t x => ?_) _ _))

theorem State.readSegment_keeps (s x0 x1 x2) : Keeps s (State.readSegment s x0 x1 x2).1 := by
  unfold State.readSegment
  repeat' first
    | with_reducible assumption
    | with_reducible exact Keeps.refl _
    | with_reducible apply Keeps.of (State.readRecord_keeps _ _ _ _)
    | split

theorem State.readRow_keeps (s x0 x1) : Keeps s (State.readRow s x0 x1).1 := by
  unfold State.readRow
  repeat' first
    | with_reducible exact Keeps.refl _
    | with_reducible apply Keeps.of (State.readSegment_keeps _ _ _ _)
    | (with_reducible apply Keeps.of (Keeps.foldl_fst (fun t x => ?_) _ _))

theorem State.readRows_keeps (s) : Keeps s (State.readRows s).1 := by
  unfold State.readRows
  repeat' first
    | with_reducible assumption
    | with_reducible exact Keeps.refl _
    | with_reducible apply Keeps.of (State.readRow_keeps _ _ _)
    | (with_reducible apply Keeps.of (Keeps.foldl_fst (fun t x => ?_) _ _))
    | (fail_if_no_progress (with_reducible refine Keeps.lit ?_ rfl rfl rfl rfl rfl rfl rfl))
    | split

theorem State.readOwned_keeps (s) : Keeps s (State.readOwned s) := (State.readRows_keeps _).trans (State.readFaults_keeps _ _ _)

theorem State.forwardRows_keeps (s) : Keeps s (State.forwardRows s) := by
  unfold State.forwardRows
  repeat' first
    | with_reducible exact Keeps.refl _
    | with_reducible apply Keeps.of (State.exchange_keeps _ _ _ _ _)
    | (with_reducible apply Keeps.of (Keeps.foldl (fun t x => ?_) _ _))
    | split

theorem State.forwardPartials_keeps (s) : Keeps s (State.forwardPartials s) := by
  unfold State.forwardPartials
  repeat' first
    | with_reducible exact Keeps.refl _
    | with_reducible apply Keeps.of (State.exchange_keeps _ _ _ _ _)
    | (with_reducible apply Keeps.of (Keeps.foldl (fun t x => ?_) _ _))

theorem State.poolBag_keeps (s x0 x1 x2 x3) : Keeps s (State.poolBag s x0 x1 x2 x3) := by
  unfold State.poolBag
  repeat' first
    | with_reducible assumption
    | with_reducible exact Keeps.refl _
    | with_reducible apply Keeps.of (State.tileWrite_keeps _ _ _ _)
    | with_reducible apply Keeps.of (State.countExceptions_keeps _ _ _)
    | with_reducible apply Keeps.of (State.setLine_keeps _ _ _)
    | (fail_if_no_progress (with_reducible refine Keeps.lit ?_ rfl rfl rfl rfl rfl rfl rfl))
    | extract_lets +onlyGivenNames x
    | split

theorem State.putMerged_keeps (s x0 x1) : Keeps s (State.putMerged s x0 x1) :=
  Keeps.lit (Keeps.refl _) rfl rfl rfl rfl rfl rfl rfl

theorem State.gatherRow_keeps (s x0 x1 x2) : Keeps s (State.gatherRow s x0 x1 x2) := by
  unfold State.gatherRow
  repeat' first
    | with_reducible exact Keeps.refl _
    | with_reducible apply Keeps.of (State.countExceptions_keeps _ _ _)
    | with_reducible apply Keeps.of (State.countPoison_keeps _ _ _ _)
    | (fail_if_no_progress (with_reducible refine Keeps.lit ?_ rfl rfl rfl rfl rfl rfl rfl))

theorem State.releaseCache_keeps (s) : Keeps s (State.releaseCache s) :=
  Keeps.lit (Keeps.refl _) rfl rfl rfl rfl rfl rfl rfl

theorem State.gatherRows_keeps (s) : Keeps s (State.gatherRows s) := by
  unfold State.gatherRows
  repeat' first
    | with_reducible exact Keeps.refl _
    | (with_reducible apply Keeps.ite) <;> intro _
    | with_reducible apply Keeps.of (State.gatherRow_keeps _ _ _ _)
    | (with_reducible apply Keeps.of (Keeps.foldl (fun t x => ?_) _ _))
    | split

theorem State.sendPartials_keeps (s) : Keeps s (State.sendPartials s) := by
  unfold State.sendPartials
  repeat' first
    | with_reducible exact Keeps.refl _
    | (with_reducible apply Keeps.ite) <;> intro _
    | with_reducible apply Keeps.of (State.exchange_keeps _ _ _ _ _)
    | (with_reducible apply Keeps.of (Keeps.foldl (fun t x => ?_) _ _))

theorem State.formPartials_keeps (s) : Keeps s (State.formPartials s) := by
  unfold State.formPartials
  repeat' first
    | with_reducible exact Keeps.refl _
    | (with_reducible apply Keeps.ite) <;> intro _
    | with_reducible apply Keeps.of (State.countExceptions_keeps _ _ _)
    | (with_reducible apply Keeps.of (Keeps.foldl (fun t x => ?_) _ _))
    | (fail_if_no_progress (with_reducible refine Keeps.lit ?_ rfl rfl rfl rfl rfl rfl rfl))

theorem State.mergePartial_keeps (s) : Keeps s (State.mergePartial s) := by
  unfold State.mergePartial
  repeat' first
    | with_reducible exact Keeps.refl _
    | with_reducible apply Keeps.of (State.sendPartials_keeps _)
    | with_reducible apply Keeps.of (State.formPartials_keeps _)

theorem State.mergeRows_keeps (s) : Keeps s (State.mergeRows s) := by
  unfold State.mergeRows
  repeat' first
    | with_reducible exact Keeps.refl _
    | with_reducible apply Keeps.of (State.raiseOnce_keeps _ _ _ _ _ _ _)
    | with_reducible apply Keeps.of (State.countExceptions_keeps _ _ _)
    | with_reducible apply Keeps.of (State.putMerged_keeps _ _ _)
    | (with_reducible apply Keeps.of (Keeps.foldl (fun t x => ?_) _ _))
    | (fail_if_no_progress (with_reducible refine Keeps.lit ?_ rfl rfl rfl rfl rfl rfl rfl))
    | split

theorem State.readSegments_keeps (s x0 x1) : Keeps s (State.readSegments s x0 x1).1 := by
  unfold State.readSegments
  repeat' first
    | with_reducible exact Keeps.refl _
    | with_reducible apply Keeps.of (State.readRecord_keeps _ _ _ _)
    | (with_reducible apply Keeps.of (Keeps.foldl_fst (fun t x => ?_) _ _))

theorem State.enterCache_keeps (s x0 x1 x2) : Keeps s (State.enterCache s x0 x1 x2) := by
  unfold State.enterCache
  repeat' first
    | with_reducible assumption
    | with_reducible exact Keeps.refl _
    | (with_reducible apply Keeps.ite) <;> intro _
    | with_reducible apply Keeps.of (State.readFaults_keeps _ _ _)
    | with_reducible apply Keeps.of (State.readSegments_keeps _ _ _)
    | (fail_if_no_progress (with_reducible refine Keeps.lit ?_ rfl rfl rfl rfl rfl rfl rfl))

theorem State.fillCache_keeps (s x0 x1 x2) : Keeps s (State.fillCache s x0 x1 x2) := by
  unfold State.fillCache
  repeat' first
    | with_reducible exact Keeps.refl _
    | (with_reducible apply Keeps.ite) <;> intro _
    | with_reducible apply Keeps.of (State.enterCache_keeps _ _ _ _)
    | split

/-! ## Exchange -/

theorem State.serveRows_keeps (s) : Keeps s (State.serveRows s) := by
  unfold State.serveRows
  repeat' first
    | with_reducible exact Keeps.refl _
    | with_reducible apply Keeps.of (State.returnRows_keeps _)
    | with_reducible apply Keeps.of (State.readLengths_keeps _)
    | with_reducible apply Keeps.of (State.readOwned_keeps _)
    | (fail_if_no_progress (with_reducible refine Keeps.lit ?_ rfl rfl rfl rfl rfl rfl rfl))

theorem State.sendAppends_keeps (s) : Keeps s (State.sendAppends s) := by
  unfold State.sendAppends
  repeat' first
    | with_reducible exact Keeps.refl _
    | (with_reducible apply Keeps.ite) <;> intro _
    | with_reducible apply Keeps.of (State.exchange_keeps _ _ _ _ _)
    | (with_reducible apply Keeps.of (Keeps.foldl (fun t x => ?_) _ _))
    | (fail_if_no_progress (with_reducible refine Keeps.lit ?_ rfl rfl rfl rfl rfl rfl rfl))

theorem State.allToAll_keeps (s x0) : Keeps s (State.allToAll s x0) := by
  unfold State.allToAll
  repeat' first
    | with_reducible exact Keeps.refl _
    | (with_reducible apply Keeps.ite) <;> intro _
    | with_reducible apply Keeps.of (State.sendUserLists_keeps _)
    | with_reducible apply Keeps.of (State.returnRows_keeps _)
    | with_reducible apply Keeps.of (State.serveRows_keeps _)
    | with_reducible apply Keeps.of (State.forwardRows_keeps _)
    | with_reducible apply Keeps.of (State.sendAppends_keeps _)
    | with_reducible apply Keeps.of (State.forwardPartials_keeps _)
    | with_reducible apply Keeps.of (State.sendLists_keeps _)
    | split

theorem State.sendNext_keeps (s x0 x1 x2) : Keeps s (State.sendNext s x0 x1 x2) := by
  refine Keeps.trans ?_ (State.exchangeUnits_keeps _ _ _ _ _)
  exact Keeps.lit (Keeps.refl _) rfl rfl rfl rfl rfl rfl rfl

theorem State.ringBlock_keeps (s x0 x1) : Keeps s (State.ringBlock s x0 x1).1 := State.readBlock_keeps _ _ _

theorem State.ringRead_keeps (s x0 x1 x2 x3) : Keeps s (State.ringRead s x0 x1 x2 x3).1 := by
  unfold State.ringRead
  repeat' first
    | with_reducible exact Keeps.refl _
    | with_reducible apply Keeps.of (State.readFaults_keeps _ _ _)
    | with_reducible apply Keeps.of (State.ringBlock_keeps _ _ _)
    | (with_reducible apply Keeps.of (Keeps.foldl_fst (fun t x => ?_) _ _))

theorem State.ringSend_keeps (s x0 x1 x2 x3 x4) : Keeps s (State.ringSend s x0 x1 x2 x3 x4) := by
  unfold State.ringSend
  repeat' first
    | with_reducible assumption
    | with_reducible exact Keeps.refl _
    | with_reducible apply Keeps.of (State.sendNext_keeps _ _ _ _)
    | with_reducible apply Keeps.of (State.ringRead_keeps _ _ _ _ _)
    | (fail_if_no_progress (with_reducible refine Keeps.lit ?_ rfl rfl rfl rfl rfl rfl rfl))
    | split

theorem State.ys8Seen_keeps (s x0 x1 x2 x3 x4 x5) : Keeps s (State.ys8Seen s x0 x1 x2 x3 x4 x5) := by
  unfold State.ys8Seen
  repeat' first
    | with_reducible exact Keeps.refl _
    | (with_reducible apply Keeps.ite) <;> intro _
    | with_reducible apply Keeps.of (State.raise_keeps _ _ _ _ _ _)
    | with_reducible apply Keeps.of (State.countPoison_keeps _ _ _ _)

theorem State.ringPlace_keeps (s x0 x1 x2 x3 x4 x5 x6 x7) : Keeps s (State.ringPlace s x0 x1 x2 x3 x4 x5 x6 x7) := by
  unfold State.ringPlace
  repeat' first
    | with_reducible exact Keeps.refl _
    | with_reducible apply Keeps.of (State.tileWrite_keeps _ _ _ _)
    | with_reducible apply Keeps.of (State.ys8Seen_keeps _ _ _ _ _ _ _)
    | (with_reducible apply Keeps.of (Keeps.foldl (fun t x => ?_) _ _))

theorem State.consumed_keeps (s x0 x1) : Keeps s (State.consumed s x0 x1) :=
  Keeps.lit (Keeps.refl _) rfl rfl rfl rfl rfl rfl rfl

theorem State.ringReport_keeps (s x0 x1 x2) : Keeps s (State.ringReport s x0 x1 x2) := by
  unfold State.ringReport
  repeat' first
    | with_reducible exact Keeps.refl _
    | (with_reducible apply Keeps.ite) <;> intro _
    | with_reducible apply Keeps.of (State.checkFault_keeps _ _)

theorem State.ringPass_keeps (s x0 x1 x2 x3 x4 x5 x6) : Keeps s (State.ringPass s x0 x1 x2 x3 x4 x5 x6) := by
  unfold State.ringPass
  repeat' first
    | with_reducible exact Keeps.refl _
    | (with_reducible apply Keeps.ite) <;> intro _
    | with_reducible apply Keeps.of (State.ringRead_keeps _ _ _ _ _)
    | with_reducible apply Keeps.of (State.ringSend_keeps _ _ _ _ _ _)
    | with_reducible apply Keeps.of (State.ringPlace_keeps _ _ _ _ _ _ _ _ _)
    | with_reducible apply Keeps.of (State.consumed_keeps _ _ _)
    | with_reducible apply Keeps.of (State.ringReport_keeps _ _ _ _)
    | split

theorem State.rooted_keeps (s x0) : Keeps s (State.rooted s x0) :=
  Keeps.lit (Keeps.refl _) rfl rfl rfl rfl rfl rfl rfl

theorem State.placeTile_keeps (s x0 x1 x2 x3 x4) : Keeps s (State.placeTile s x0 x1 x2 x3 x4) := by
  unfold State.placeTile
  repeat' first
    | with_reducible assumption
    | with_reducible exact Keeps.refl _
    | with_reducible apply Keeps.of (State.tileWrite_keeps _ _ _ _)
    | (fail_if_no_progress (with_reducible refine Keeps.lit ?_ rfl rfl rfl rfl rfl rfl rfl))

theorem State.readTile_keeps (s x0 x1 x2) : Keeps s (State.readTile s x0 x1 x2) := by
  unfold State.readTile
  repeat' first
    | with_reducible exact Keeps.refl _
    | (with_reducible apply Keeps.ite) <;> intro _
    | with_reducible apply Keeps.of (State.setWatch_keeps _ _ _)
    | with_reducible apply Keeps.of (State.raiseOnce_keeps _ _ _ _ _ _ _)
    | with_reducible apply Keeps.of (State.countExceptions_keeps _ _ _)
    | (fail_if_no_progress (with_reducible refine Keeps.lit ?_ rfl rfl rfl rfl rfl rfl rfl))

theorem State.contribute_keeps (s x0) : Keeps s (State.contribute s x0) :=
  Keeps.lit (Keeps.refl _) rfl rfl rfl rfl rfl rfl rfl

theorem State.reduceRoot_keeps (s x0 x1 x2 x3) : Keeps s (State.reduceRoot s x0 x1 x2 x3) := by
  unfold State.reduceRoot
  repeat' first
    | with_reducible exact Keeps.refl _
    | (with_reducible apply Keeps.ite) <;> intro _
    | with_reducible apply Keeps.of (State.raise_keeps _ _ _ _ _ _)
    | with_reducible apply Keeps.of (State.rooted_keeps _ _)
    | with_reducible apply Keeps.of (State.countExceptions_keeps _ _ _)
    | with_reducible apply Keeps.of (State.placeTile_keeps _ _ _ _ _ _)
    | with_reducible apply Keeps.of (State.readTile_keeps _ _ _ _)
    | with_reducible apply Keeps.of (State.consumed_keeps _ _ _)
    | with_reducible apply Keeps.of (State.contribute_keeps _ _)
    | (with_reducible apply Keeps.of (Keeps.foldl (fun t x => ?_) _ _))
    | (fail_if_no_progress (with_reducible refine Keeps.lit ?_ rfl rfl rfl rfl rfl rfl rfl))

theorem State.reducePart_keeps (s x0 x1 x2 x3 x4) : Keeps s (State.reducePart s x0 x1 x2 x3 x4) := by
  unfold State.reducePart
  repeat' first
    | with_reducible exact Keeps.refl _
    | (with_reducible apply Keeps.ite) <;> intro _
    | with_reducible apply Keeps.of (State.readTile_keeps _ _ _ _)
    | with_reducible apply Keeps.of (State.contribute_keeps _ _)
    | with_reducible apply Keeps.of (State.sendNext_keeps _ _ _ _)
    | (fail_if_no_progress (with_reducible refine Keeps.lit ?_ rfl rfl rfl rfl rfl rfl rfl))

theorem State.reduceTile_keeps (s x0 x1 x2 x3) : Keeps s (State.reduceTile s x0 x1 x2 x3) := by
  unfold State.reduceTile
  repeat' first
    | with_reducible exact Keeps.refl _
    | (with_reducible apply Keeps.ite) <;> intro _
    | with_reducible apply Keeps.of (State.reduceRoot_keeps _ _ _ _ _)
    | with_reducible apply Keeps.of (State.reducePart_keeps _ _ _ _ _ _)

theorem State.shardBlock_keeps (s x0 x1) : Keeps s (State.shardBlock s x0 x1).1 := by
  unfold State.shardBlock
  repeat' first
    | with_reducible exact Keeps.refl _
    | with_reducible apply Keeps.of (State.readBlock_keeps _ _ _)
    | split

theorem State.shardPart_keeps (s x0 x1 x2) : Keeps s (State.shardPart s x0 x1 x2).1 := by
  unfold State.shardPart
  repeat' first
    | with_reducible exact Keeps.refl _
    | with_reducible apply Keeps.of (State.ys8Seen_keeps _ _ _ _ _ _ _)
    | with_reducible apply Keeps.of (State.shardBlock_keeps _ _ _)

theorem State.shardYs8_keeps (s x0) : Keeps s (State.shardYs8 s x0).1 := by
  unfold State.shardYs8
  repeat' first
    | with_reducible exact Keeps.refl _
    | with_reducible apply Keeps.of (State.readFaults_keeps _ _ _)
    | with_reducible apply Keeps.of (State.shardPart_keeps _ _ _ _)
    | (with_reducible apply Keeps.of (Keeps.foldl_fst (fun t x => ?_) _ _))

theorem State.shardBytes_keeps (x0 s x1 x2 x3) : Keeps s (State.shardBytes x0 s x1 x2 x3).1 := by
  induction x0 generalizing s x2 x3 with
  | zero => exact Keeps.refl s
  | succ n ih =>
    unfold State.shardBytes
    split
    · exact Keeps.refl s
    · exact (State.shardBlock_keeps _ _ _).trans (ih _ _ _)

theorem State.shardData_keeps (s x0) : Keeps s (State.shardData s x0).1 := by
  unfold State.shardData
  repeat' first
    | with_reducible assumption
    | with_reducible exact Keeps.refl _
    | with_reducible apply Keeps.of (State.readFaults_keeps _ _ _)
    | with_reducible apply Keeps.of (State.shardYs8_keeps _ _)
    | with_reducible apply Keeps.of (State.shardBytes_keeps _ _ _ _ _)
    | split

theorem State.gatherShard_keeps (s x0) : Keeps s (State.gatherShard s x0) := by
  unfold State.gatherShard
  repeat' first
    | with_reducible assumption
    | with_reducible exact Keeps.refl _
    | with_reducible apply Keeps.of (State.tileWrite_keeps _ _ _ _)
    | with_reducible apply Keeps.of (State.consumed_keeps _ _ _)
    | with_reducible apply Keeps.of (State.sendNext_keeps _ _ _ _)
    | with_reducible apply Keeps.of (State.shardData_keeps _ _)
    | split

theorem State.gatherTile_keeps (s x0 x1 x2 x3) : Keeps s (State.gatherTile s x0 x1 x2 x3) := by
  unfold State.gatherTile
  repeat' first
    | with_reducible exact Keeps.refl _
    | (with_reducible apply Keeps.ite) <;> intro _
    | with_reducible apply Keeps.of (State.placeTile_keeps _ _ _ _ _ _)
    | with_reducible apply Keeps.of (State.consumed_keeps _ _ _)
    | with_reducible apply Keeps.of (State.sendNext_keeps _ _ _ _)
    | (with_reducible apply Keeps.of (Keeps.foldl (fun t x => ?_) _ _))
    | split

/-! ## Export -/

theorem State.loadItem_keeps (s x0 x1) : Keeps s (State.loadItem s x0 x1).1 := by
  unfold State.loadItem
  repeat' first
    | with_reducible exact Keeps.refl _
    | with_reducible apply Keeps.of (State.readRecord_keeps _ _ _ _)
    | split

theorem State.takeBase_keeps (x0 s x1 x2) : Keeps s (State.takeBase x0 s x1 x2).1 := by
  induction x0 generalizing s x1 x2 with
  | nil => exact Keeps.refl s
  | cons i r ih =>
    unfold State.takeBase
    simp only []
    split
    · exact (State.loadItem_keeps _ _ _).trans (ih _ _ _)
    · split
      · exact (State.loadItem_keeps _ _ _).trans (ih _ _ _)
      · exact Keeps.refl s

theorem State.endStream_keeps (s) : Keeps s (State.endStream s) := by
  unfold State.endStream
  repeat' first
    | with_reducible assumption
    | with_reducible exact Keeps.refl _
    | with_reducible apply Keeps.of (State.finishDesc_keeps _ _ _ _ _)
    | (with_reducible apply Keeps.of (Keeps.foldl (fun t x => ?_) _ _))
    | (fail_if_no_progress (with_reducible refine Keeps.lit ?_ rfl rfl rfl rfl rfl rfl rfl))

theorem State.settleStream_keeps (s) : Keeps s (State.settleStream s) := by
  unfold State.settleStream
  repeat' first
    | with_reducible exact Keeps.refl _
    | (with_reducible apply Keeps.ite) <;> intro _
    | with_reducible apply Keeps.of (State.endStream_keeps _)

theorem State.exportJobEnded_keeps (s) : Keeps s (State.exportJobEnded s) := by
  unfold State.exportJobEnded
  repeat' first
    | with_reducible exact Keeps.refl _
    | (with_reducible apply Keeps.ite) <;> intro _
    | with_reducible apply Keeps.of (State.settleStream_keeps _)
    | (fail_if_no_progress (with_reducible refine Keeps.lit ?_ rfl rfl rfl rfl rfl rfl rfl))

theorem State.startStream_keeps (s) : Keeps s (State.startStream s) := by
  unfold State.startStream
  repeat' first
    | with_reducible assumption
    | with_reducible exact Keeps.refl _
    | with_reducible apply Keeps.of (State.finishDesc_keeps _ _ _ _ _)
    | (fail_if_no_progress (with_reducible refine Keeps.lit ?_ rfl rfl rfl rfl rfl rfl rfl))
    | split

theorem State.armExport_keeps (s x0) : Keeps s (State.armExport s x0) := by
  unfold State.armExport
  repeat' first
    | with_reducible exact Keeps.refl _
    | (with_reducible apply Keeps.ite) <;> intro _
    | with_reducible apply Keeps.of (State.setDesc_keeps _ _ _ _)
    | with_reducible apply Keeps.of (State.failDesc_keeps _ _ _ _)
    | with_reducible apply Keeps.of (State.startStream_keeps _)
    | (fail_if_no_progress (with_reducible refine Keeps.lit ?_ rfl rfl rfl rfl rfl rfl rfl))
    | split

theorem State.putExport_keeps (s x0 x1 x2 x3) : Keeps s (State.putExport s x0 x1 x2 x3) := by
  unfold State.putExport
  repeat' first
    | with_reducible assumption
    | with_reducible exact Keeps.refl _
    | with_reducible apply Keeps.of (State.writeEntry_keeps _ _ _ _)
    | (fail_if_no_progress (with_reducible refine Keeps.lit ?_ rfl rfl rfl rfl rfl rfl rfl))

theorem State.deltaEntry_keeps (s x0) : Keeps s (State.deltaEntry s x0) := by
  unfold State.deltaEntry
  repeat' first
    | with_reducible exact Keeps.refl _
    | with_reducible apply Keeps.of (State.settleStream_keeps _)
    | with_reducible apply Keeps.of (State.putExport_keeps _ _ _ _ _)
    | (fail_if_no_progress (with_reducible refine Keeps.lit ?_ rfl rfl rfl rfl rfl rfl rfl))

theorem State.exportSweepEnded_keeps (s) : Keeps s (State.exportSweepEnded s) := by
  unfold State.exportSweepEnded
  repeat' first
    | with_reducible exact Keeps.refl _
    | (with_reducible apply Keeps.ite) <;> intro _
    | with_reducible apply Keeps.of (State.settleStream_keeps _)
    | (fail_if_no_progress (with_reducible refine Keeps.lit ?_ rfl rfl rfl rfl rfl rfl rfl))

theorem State.baseEntry_keeps (s x0) : Keeps s (State.baseEntry s x0) := by
  unfold State.baseEntry
  repeat' first
    | with_reducible exact Keeps.refl _
    | (with_reducible apply Keeps.ite) <;> intro _
    | with_reducible apply Keeps.of (State.raise_keeps _ _ _ _ _ _)
    | with_reducible apply Keeps.of (State.takeBase_keeps _ _ _ _)
    | with_reducible apply Keeps.of (State.putExport_keeps _ _ _ _ _)
    | with_reducible apply Keeps.of (State.free_keeps _)
    | (fail_if_no_progress (with_reducible refine Keeps.lit ?_ rfl rfl rfl rfl rfl rfl rfl))
    | split

theorem State.drainExport_keeps (s x0) : Keeps s (State.drainExport s x0) := by
  unfold State.drainExport
  repeat' first
    | with_reducible exact Keeps.refl _
    | (with_reducible apply Keeps.ite) <;> intro _
    | with_reducible apply Keeps.of (State.breakExport_keeps _)
    | with_reducible apply Keeps.of (State.deltaEntry_keeps _ _)
    | with_reducible apply Keeps.of (State.baseEntry_keeps _ _)
    | split

theorem State.stopExport_keeps (s x0) : Keeps s (State.stopExport s x0) := by
  unfold State.stopExport
  repeat' first
    | with_reducible assumption
    | with_reducible exact Keeps.refl _
    | (with_reducible apply Keeps.ite) <;> intro _
    | with_reducible apply Keeps.of (State.setDesc_keeps _ _ _ _)
    | with_reducible apply Keeps.of (State.finishDesc_keeps _ _ _ _ _)
    | with_reducible apply Keeps.of (State.endStream_keeps _)
    | with_reducible apply Keeps.of (State.settleStream_keeps _)
    | (extract_lets +onlyGivenNames x; clear_value (hq : x = _); with_reducible refine Keeps.gen hq ?_ fun hx => ?_ <;> clear hq)
    | (fail_if_no_progress (with_reducible refine Keeps.lit ?_ rfl rfl rfl rfl rfl rfl rfl))
    | split

/-! ## History -/

theorem State.diverge_keeps (s x0) : Keeps s (State.diverge s x0) := by
  unfold State.diverge
  repeat' first
    | with_reducible exact Keeps.refl _
    | with_reducible apply Keeps.of (State.setWatch_keeps _ _ _)
    | with_reducible apply Keeps.of (State.raiseHalt_keeps _ _ _ _ _)

theorem State.patchDue_keeps (s x0 x1 x2) : Keeps s (State.patchDue s x0 x1 x2) :=
  Keeps.lit (Keeps.refl _) rfl rfl rfl rfl rfl rfl rfl

theorem State.digestCompare_keeps (s x0 x1 x2) : Keeps s (State.digestCompare s x0 x1 x2) := by
  unfold State.digestCompare
  repeat' first
    | with_reducible exact Keeps.refl _
    | (with_reducible apply Keeps.ite) <;> intro _
    | with_reducible apply Keeps.of (State.setWatch_keeps _ _ _)
    | with_reducible apply Keeps.of (State.diverge_keeps _ _)
    | with_reducible apply Keeps.of (State.patchDue_keeps _ _ _ _)
    | extract_lets +onlyGivenNames x
    | split

theorem State.writeTwice_keeps (s x0 x1 x2) : Keeps s (State.writeTwice s x0 x1 x2).1 := by
  unfold State.writeTwice
  repeat' first
    | with_reducible assumption
    | with_reducible exact Keeps.refl _
    | with_reducible apply Keeps.of (State.writeVerified_keeps _ _ _ _)
    | extract_lets +onlyGivenNames x
    | split

theorem State.writeUser_keeps (s x0 x1) : Keeps s (State.writeUser s x0 x1) := by
  unfold State.writeUser
  repeat' first
    | with_reducible exact Keeps.refl _
    | (with_reducible apply Keeps.ite) <;> intro _
    | with_reducible apply Keeps.of (State.raiseHalt_keeps _ _ _ _ _)
    | with_reducible apply Keeps.of (State.writeTwice_keeps _ _ _ _)
    | with_reducible apply Keeps.of (State.logItem_keeps _ _)
    | split

theorem State.writeUsers_keeps (s x0) : Keeps s (State.writeUsers s x0) := by
  unfold State.writeUsers
  repeat' first
    | with_reducible assumption
    | with_reducible exact Keeps.refl _
    | with_reducible apply Keeps.of (State.writeUser_keeps _ _ _)
    | (with_reducible apply Keeps.of (Keeps.foldl (fun t x => ?_) _ _))
    | (fail_if_no_progress (with_reducible refine Keeps.lit ?_ rfl rfl rfl rfl rfl rfl rfl))

theorem State.appendDone_keeps (s x0 x1) : Keeps s (State.appendDone s x0 x1) := by
  unfold State.appendDone
  repeat' first
    | with_reducible exact Keeps.refl _
    | (with_reducible apply Keeps.ite) <;> intro _
    | with_reducible apply Keeps.of (State.writeUsers_keeps _ _)
    | (fail_if_no_progress (with_reducible refine Keeps.lit ?_ rfl rfl rfl rfl rfl rfl rfl))

theorem State.freshInit_keeps (s) : Keeps s (State.freshInit s) := by
  unfold State.freshInit
  repeat' first
    | with_reducible exact Keeps.refl _
    | with_reducible apply Keeps.of (State.writeVerified_keeps _ _ _ _)
    | (with_reducible apply Keeps.of (Keeps.foldl (fun t x => ?_) _ _))

theorem State.writeAppends_keeps (s) : Keeps s (State.writeAppends s) := by
  unfold State.writeAppends
  repeat' first
    | with_reducible exact Keeps.refl _
    | (with_reducible apply Keeps.ite) <;> intro _
    | with_reducible apply Keeps.of (State.portWrite_keeps _ _)
    | with_reducible apply Keeps.of (State.appendsWritten_keeps _)
    | (with_reducible apply Keeps.of (Keeps.foldl (fun t x => ?_) _ _))
    | (fail_if_no_progress (with_reducible refine Keeps.lit ?_ rfl rfl rfl rfl rfl rfl rfl))

/-! ## WatchStep -/

theorem State.scaleEntry_keeps (s x0 x1) : Keeps s (State.scaleEntry s x0 x1) := by
  unfold State.scaleEntry
  repeat' first
    | with_reducible exact Keeps.refl _
    | (with_reducible apply Keeps.ite) <;> intro _
    | with_reducible apply Keeps.of (State.setWatch_keeps _ _ _)
    | with_reducible apply Keeps.of (State.raiseOnce_keeps _ _ _ _ _ _ _)

theorem State.endEpoch_keeps (s x0) : Keeps s (State.endEpoch s x0) := by
  unfold State.endEpoch
  repeat' first
    | with_reducible exact Keeps.refl _
    | with_reducible apply Keeps.of (State.scaleEntry_keeps _ _ _)
    | (with_reducible apply Keeps.of (Keeps.foldl (fun t x => ?_) _ _))

theorem State.formDigests_keeps (s) : Keeps s (State.formDigests s) := by
  unfold State.formDigests
  repeat' first
    | with_reducible exact Keeps.refl _
    | with_reducible apply Keeps.of (State.setWatch_keeps _ _ _)
    | (with_reducible apply Keeps.of (Keeps.foldl (fun t x => ?_) _ _))
    | split

theorem State.shareWatch_keeps (s) : Keeps s (State.shareWatch s) := by
  unfold State.shareWatch
  repeat' first
    | with_reducible exact Keeps.refl _
    | with_reducible apply Keeps.of (State.exchange_keeps _ _ _ _ _)
    | (with_reducible apply Keeps.of (Keeps.foldl (fun t x => ?_) _ _))

theorem State.sendDigests_keeps (s) : Keeps s (State.sendDigests s) := by
  unfold State.sendDigests
  repeat' first
    | with_reducible exact Keeps.refl _
    | (with_reducible apply Keeps.ite) <;> intro _
    | with_reducible apply Keeps.of (State.messages_keeps _ _ _ _)
    | (with_reducible apply Keeps.of (Keeps.foldl (fun t x => ?_) _ _))
    | split

theorem State.checkRatio_keeps (s x0 x1 x2 x3) : Keeps s (State.checkRatio s x0 x1 x2 x3) := by
  unfold State.checkRatio
  repeat' first
    | with_reducible exact Keeps.refl _
    | (with_reducible apply Keeps.ite) <;> intro _
    | with_reducible apply Keeps.of (State.raise_keeps _ _ _ _ _ _)
    | with_reducible apply Keeps.of (State.setWatch_keeps _ _ _)

theorem State.checkStall_keeps (s x0) : Keeps s (State.checkStall s x0) := by
  unfold State.checkStall
  repeat' first
    | with_reducible exact Keeps.refl _
    | (with_reducible apply Keeps.ite) <;> intro _
    | with_reducible apply Keeps.of (State.raise_keeps _ _ _ _ _ _)
    | with_reducible apply Keeps.of (State.setWatch_keeps _ _ _)

theorem State.sweepEntryStats_keeps (s x0) : Keeps s (State.sweepEntryStats s x0) := by
  unfold State.sweepEntryStats
  repeat' first
    | with_reducible exact Keeps.refl _
    | (with_reducible apply Keeps.ite) <;> intro _
    | with_reducible apply Keeps.of (State.setWatch_keeps _ _ _)
    | with_reducible apply Keeps.of (State.checkRatio_keeps _ _ _ _ _)
    | with_reducible apply Keeps.of (State.checkStall_keeps _ _)

theorem State.sweepStats_keeps (s) : Keeps s (State.sweepStats s) := by
  unfold State.sweepStats
  repeat' first
    | with_reducible exact Keeps.refl _
    | with_reducible apply Keeps.of (State.sweepEntryStats_keeps _ _)
    | (with_reducible apply Keeps.of (Keeps.foldl (fun t x => ?_) _ _))

theorem State.endNoise_keeps (s x0) : Keeps s (State.endNoise s x0) :=
  Keeps.lit (Keeps.refl _) rfl rfl rfl rfl rfl rfl rfl

theorem State.startWatch_keeps (s) : Keeps s (State.startWatch s) :=
  Keeps.lit (Keeps.refl _) rfl rfl rfl rfl rfl rfl rfl

end Sys2Proof.Machine
end

