-- ==== Sys2Proof/Laws/KeepsStep.lean ====
section
/-! SUPPORT. Every operation of the phases of a step, job start, pen links and herd ports keeps what the module keeps
(Keeps): one lemma per operation, cited instead of its text. -/

-- Checked one theorem at a time: the package as one text then needs less memory.
set_option Elab.async false

namespace Sys2Proof.Machine

/-! ## Phases -/

theorem State.clearMessages_keeps (s) : Keeps s (State.clearMessages s) :=
  Keeps.lit (Keeps.refl _) rfl rfl rfl rfl rfl rfl rfl

theorem State.closeConnections_keeps (s) : Keeps s (State.closeConnections s) :=
  Keeps.lit (Keeps.refl _) rfl rfl rfl rfl rfl rfl rfl

theorem State.toIdle_keeps (s) : Keeps s (State.toIdle s) := by
  unfold State.toIdle
  repeat' first
    | with_reducible exact Keeps.refl _
    | with_reducible apply Keeps.of (State.closeConnections_keeps _)
    | with_reducible apply Keeps.of (State.exportJobEnded_keeps _)
    | with_reducible apply Keeps.of (State.settleVersions_keeps _)
    | (fail_if_no_progress (with_reducible refine Keeps.lit ?_ rfl rfl rfl rfl rfl rfl rfl))

theorem State.claimSlot_keeps (s x0) : Keeps s (State.claimSlot s x0) := by
  unfold State.claimSlot
  repeat' first
    | with_reducible exact Keeps.refl _
    | (with_reducible apply Keeps.ite) <;> intro _
    | (fail_if_no_progress (with_reducible refine Keeps.lit ?_ rfl rfl rfl rfl rfl rfl rfl))

theorem State.enterHalted_keeps (s) : Keeps s (State.enterHalted s) := by
  refine Keeps.trans ?_ (State.exportJobEnded_keeps _)
  exact Keeps.lit (Keeps.refl _) rfl rfl rfl rfl rfl rfl rfl

theorem State.holdChannels_keeps (s) : Keeps s (State.holdChannels s) := by
  unfold State.holdChannels
  repeat' first
    | with_reducible exact Keeps.refl _
    | with_reducible apply Keeps.of (State.setChannel_keeps _ _ _)
    | (with_reducible apply Keeps.of (Keeps.foldl (fun t x => ?_) _ _))
    | split

theorem State.offerWatch_keeps (s x0) : Keeps s (State.offerWatch s x0) := by
  unfold State.offerWatch
  repeat' first
    | with_reducible exact Keeps.refl _
    | (with_reducible apply Keeps.ite) <;> intro _
    | with_reducible apply Keeps.of (State.acceptRecord_keeps _ _ _)
    | with_reducible apply Keeps.of (State.raiseOnce_keeps _ _ _ _ _ _ _)
    | (fail_if_no_progress (with_reducible refine Keeps.lit ?_ rfl rfl rfl rfl rfl rfl rfl))

theorem State.endPhaseAt_keeps (s x0 x1) : Keeps s (State.endPhaseAt s x0 x1) :=
  Keeps.lit (Keeps.refl _) rfl rfl rfl rfl rfl rfl rfl

theorem State.endPhase_keeps (s x0) : Keeps s (State.endPhase s x0) :=
  Keeps.lit (Keeps.refl _) rfl rfl rfl rfl rfl rfl rfl

theorem State.closeStep_keeps (s) : Keeps s (State.closeStep s) := by
  unfold State.closeStep
  repeat' first
    | with_reducible exact Keeps.refl _
    | (with_reducible apply Keeps.ite) <;> intro _
    | with_reducible apply Keeps.of (State.reportDone_keeps _)
    | with_reducible apply Keeps.of (State.endPhase_keeps _ _)
    | with_reducible apply Keeps.of (State.toIdle_keeps _)
    | (fail_if_no_progress (with_reducible refine Keeps.lit ?_ rfl rfl rfl rfl rfl rfl rfl))

theorem State.deferEvals_keeps (s) : Keeps s (State.deferEvals s) :=
  Keeps.lit (Keeps.refl _) rfl rfl rfl rfl rfl rfl rfl

theorem State.deferSlot_keeps (s x0) : Keeps s (State.deferSlot s x0) := by
  unfold State.deferSlot
  repeat' first
    | with_reducible assumption
    | with_reducible exact Keeps.refl _
    | (with_reducible apply Keeps.ite) <;> intro _
    | with_reducible apply Keeps.of (State.raise_keeps _ _ _ _ _ _)
    | with_reducible apply Keeps.of (State.deferEvals_keeps _)
    | (fail_if_no_progress (with_reducible refine Keeps.lit ?_ rfl rfl rfl rfl rfl rfl rfl))

theorem State.grantSlot_keeps (s x0) : Keeps s (State.grantSlot s x0) := by
  unfold State.grantSlot
  repeat' first
    | with_reducible exact Keeps.refl _
    | (with_reducible apply Keeps.ite) <;> intro _
    | with_reducible apply Keeps.of (State.keepCounts_keeps _)
    | with_reducible apply Keeps.of (State.holdChannels_keeps _)
    | (fail_if_no_progress (with_reducible refine Keeps.lit ?_ rfl rfl rfl rfl rfl rfl rfl))

theorem State.grantNext_keeps (x0 s) : Keeps s (State.grantNext x0 s) := by
  induction x0 generalizing s with
  | zero => exact State.closeStep_keeps s
  | succ n ih =>
    unfold State.grantNext
    split
    · exact State.closeStep_keeps s
    · exact Keeps.ite (fun _ => State.grantSlot_keeps _ _) (fun _ => (State.deferSlot_keeps _ _).trans (ih _))

theorem State.beginPhase_keeps (s x0) : Keeps s (State.beginPhase s x0) := by
  unfold State.beginPhase
  repeat' first
    | with_reducible assumption
    | with_reducible exact Keeps.refl _
    | (with_reducible apply Keeps.ite) <;> intro _
    | with_reducible apply Keeps.of (State.endReplay_keeps _)
    | (fail_if_no_progress (with_reducible refine Keeps.lit ?_ rfl rfl rfl rfl rfl rfl rfl))

theorem State.startBackward_keeps (s x0 x1) : Keeps s (State.startBackward s x0 x1) := by
  unfold State.startBackward
  repeat' first
    | with_reducible assumption
    | with_reducible exact Keeps.refl _
    | (with_reducible apply Keeps.ite) <;> intro _
    | with_reducible apply Keeps.of (State.endPhaseAt_keeps _ _ _)
    | with_reducible apply Keeps.of (State.beginPhase_keeps _ _)
    | (fail_if_no_progress (with_reducible refine Keeps.lit ?_ rfl rfl rfl rfl rfl rfl rfl))

theorem State.startChurns_keeps (s) : Keeps s (State.startChurns s) :=
  Keeps.lit (Keeps.refl _) rfl rfl rfl rfl rfl rfl rfl

theorem State.finishBatches_keeps (s x0) : Keeps s (State.finishBatches s x0) := by
  unfold State.finishBatches
  repeat' first
    | with_reducible exact Keeps.refl _
    | with_reducible apply Keeps.of (State.finishBatch_keeps _ _ _)
    | (with_reducible apply Keeps.of (Keeps.foldl (fun t x => ?_) _ _))

theorem State.countStep_keeps (s) : Keeps s (State.countStep s) :=
  Keeps.lit (Keeps.refl _) rfl rfl rfl rfl rfl rfl rfl

theorem State.commitSwaps_keeps (s) : Keeps s (State.commitSwaps s) := by
  unfold State.commitSwaps
  repeat' first
    | with_reducible exact Keeps.refl _
    | with_reducible apply Keeps.of (State.commitSwap_keeps _ _ _ _)
    | (with_reducible apply Keeps.of (Keeps.foldl (fun t x => ?_) _ _))

theorem State.commitStep_keeps (s) : Keeps s (State.commitStep s) := by
  unfold State.commitStep
  repeat' first
    | with_reducible exact Keeps.refl _
    | with_reducible apply Keeps.of (State.runVectors_keeps _ _)
    | with_reducible apply Keeps.of (State.formDigests_keeps _)
    | with_reducible apply Keeps.of (State.clearMessages_keeps _)
    | with_reducible apply Keeps.of (State.endPhase_keeps _ _)
    | with_reducible apply Keeps.of (State.exportSweepEnded_keeps _)
    | with_reducible apply Keeps.of (State.finishBatches_keeps _ _)
    | with_reducible apply Keeps.of (State.sweepStats_keeps _)
    | with_reducible apply Keeps.of (State.countStep_keeps _)
    | with_reducible apply Keeps.of (State.commitSwaps_keeps _)

theorem State.startExchange_keeps (s x0) : Keeps s (State.startExchange s x0) := by
  unfold State.startExchange
  repeat' first
    | with_reducible exact Keeps.refl _
    | (with_reducible apply Keeps.ite) <;> intro _
    | with_reducible apply Keeps.of (State.sendAppends_keeps _)
    | with_reducible apply Keeps.of (State.beginPhase_keeps _ _)
    | with_reducible apply Keeps.of (State.mergePartial_keeps _)
    | (fail_if_no_progress (with_reducible refine Keeps.lit ?_ rfl rfl rfl rfl rfl rfl rfl))

theorem State.startForward_keeps (s x0 x1) : Keeps s (State.startForward s x0 x1) := by
  unfold State.startForward
  repeat' first
    | with_reducible assumption
    | with_reducible exact Keeps.refl _
    | (with_reducible apply Keeps.ite) <;> intro _
    | with_reducible apply Keeps.of (State.endPhaseAt_keeps _ _ _)
    | with_reducible apply Keeps.of (State.beginPhase_keeps _ _)
    | (fail_if_no_progress (with_reducible refine Keeps.lit ?_ rfl rfl rfl rfl rfl rfl rfl))

theorem State.waitExport_keeps (s) : Keeps s (State.waitExport s) := by
  unfold State.waitExport
  repeat' first
    | with_reducible exact Keeps.refl _
    | (with_reducible apply Keeps.ite) <;> intro _
    | with_reducible apply Keeps.of (State.raise_keeps _ _ _ _ _ _)
    | with_reducible apply Keeps.of (State.declareExcess_keeps _)
    | (fail_if_no_progress (with_reducible refine Keeps.lit ?_ rfl rfl rfl rfl rfl rfl rfl))

theorem State.claimMaintenance_keeps (s) : Keeps s (State.claimMaintenance s) := by
  unfold State.claimMaintenance
  repeat' first
    | with_reducible exact Keeps.refl _
    | (with_reducible apply Keeps.ite) <;> intro _
    | with_reducible apply Keeps.of (State.raise_keeps _ _ _ _ _ _)
    | with_reducible apply Keeps.of (State.claimSlot_keeps _ _)

theorem State.endMerge_keeps (s x0) : Keeps s (State.endMerge s x0) := by
  unfold State.endMerge
  repeat' first
    | with_reducible exact Keeps.refl _
    | (with_reducible apply Keeps.ite) <;> intro _
    | with_reducible apply Keeps.of (State.endEpoch_keeps _ _)
    | with_reducible apply Keeps.of (State.shareWatch_keeps _)
    | with_reducible apply Keeps.of (State.endPhase_keeps _ _)
    | with_reducible apply Keeps.of (State.endReplay_keeps _)
    | with_reducible apply Keeps.of (State.claimMaintenance_keeps _)
    | with_reducible apply Keeps.of (State.endNoise_keeps _ _)

theorem State.endEvaluation_keeps (s) : Keeps s (State.endEvaluation s) := by
  unfold State.endEvaluation
  repeat' first
    | with_reducible assumption
    | with_reducible exact Keeps.refl _
    | with_reducible apply Keeps.of (State.finishBatches_keeps _ _)
    | with_reducible apply Keeps.of (State.clearMessages_keeps _)
    | (fail_if_no_progress (with_reducible refine Keeps.lit ?_ rfl rfl rfl rfl rfl rfl rfl))

theorem State.endSlot_keeps (s) : Keeps s (State.endSlot s) := by
  unfold State.endSlot
  repeat' first
    | with_reducible exact Keeps.refl _
    | (with_reducible apply Keeps.ite) <;> intro _
    | with_reducible apply Keeps.of (State.grantNext_keeps _ _)
    | with_reducible apply Keeps.of (State.endEvaluation_keeps _)
    | (fail_if_no_progress (with_reducible refine Keeps.lit ?_ rfl rfl rfl rfl rfl rfl rfl))
    | split

theorem State.timed_keeps (s x0) : Keeps s (State.timed s x0) :=
  Keeps.lit (Keeps.refl _) rfl rfl rfl rfl rfl rfl rfl

theorem State.startMerge_keeps (s x0) : Keeps s (State.startMerge s x0) := by
  unfold State.startMerge
  repeat' first
    | with_reducible exact Keeps.refl _
    | (with_reducible apply Keeps.ite) <;> intro _
    | with_reducible apply Keeps.of (State.endPhaseAt_keeps _ _ _)
    | with_reducible apply Keeps.of (State.beginPhase_keeps _ _)
    | with_reducible apply Keeps.of (State.mergeRows_keeps _)

theorem State.startSweep_keeps (s x0) : Keeps s (State.startSweep s x0) := by
  unfold State.startSweep
  repeat' first
    | with_reducible exact Keeps.refl _
    | (with_reducible apply Keeps.ite) <;> intro _
    | with_reducible apply Keeps.of (State.endPhaseAt_keeps _ _ _)
    | with_reducible apply Keeps.of (State.beginPhase_keeps _ _)
    | with_reducible apply Keeps.of (State.startChurns_keeps _)
    | with_reducible apply Keeps.of (State.waitExport_keeps _)
    | with_reducible apply Keeps.of (State.writeAppends_keeps _)
    | (fail_if_no_progress (with_reducible refine Keeps.lit ?_ rfl rfl rfl rfl rfl rfl rfl))

theorem State.writeRecord_keeps (s x0) : Keeps s (State.writeRecord s x0) := by
  unfold State.writeRecord
  repeat' first
    | with_reducible exact Keeps.refl _
    | (with_reducible apply Keeps.ite) <;> intro _
    | with_reducible apply Keeps.of (State.offerStepRecord_keeps _ _)
    | with_reducible apply Keeps.of (State.offerWatch_keeps _ _)
    | (with_reducible apply Keeps.of (Keeps.foldl (fun t x => ?_) _ _))
    | (fail_if_no_progress (with_reducible refine Keeps.lit ?_ rfl rfl rfl rfl rfl rfl rfl))
    | split

theorem State.startGather_keeps (s x0) : Keeps s (State.startGather s x0) := by
  unfold State.startGather
  repeat' first
    | with_reducible exact Keeps.refl _
    | (with_reducible apply Keeps.ite) <;> intro _
    | with_reducible apply Keeps.of (State.serveRows_keeps _)
    | with_reducible apply Keeps.of (State.endPhaseAt_keeps _ _ _)
    | with_reducible apply Keeps.of (State.beginPhase_keeps _ _)
    | with_reducible apply Keeps.of (State.aggregateOwner_keeps _)

theorem State.claimTail_keeps (s) : Keeps s (State.claimTail s) := by
  unfold State.claimTail
  repeat' first
    | with_reducible exact Keeps.refl _
    | (with_reducible apply Keeps.ite) <;> intro _
    | with_reducible apply Keeps.of (State.claimSlot_keeps _ _)

theorem State.endSweep_keeps (s) : Keeps s (State.endSweep s) := by
  unfold State.endSweep
  repeat' first
    | with_reducible exact Keeps.refl _
    | (with_reducible apply Keeps.ite) <;> intro _
    | with_reducible apply Keeps.of (State.enterHalted_keeps _)
    | with_reducible apply Keeps.of (State.commitStep_keeps _)
    | with_reducible apply Keeps.of (State.grantNext_keeps _ _)
    | with_reducible apply Keeps.of (State.claimTail_keeps _)
    | (fail_if_no_progress (with_reducible refine Keeps.lit ?_ rfl rfl rfl rfl rfl rfl rfl))

/-! ## JobStart -/

theorem State.retireUnits_keeps (s) : Keeps s (State.retireUnits s) := by
  unfold State.retireUnits
  exact Keeps.foldl (fun t e => (State.setUnit_keeps _ _ _ (fun _ => Or.inr rfl)).trans (State.raise_keeps _ _ _ _ _ _)) _ _

theorem State.freshJob_keeps (s) : Keeps s (State.freshJob s) :=
  Keeps.lit (Keeps.refl _) rfl rfl rfl rfl rfl rfl rfl

theorem State.announceStart_keeps (s) : Keeps s (State.announceStart s) := by
  unfold State.announceStart
  repeat' first
    | with_reducible exact Keeps.refl _
    | (with_reducible apply Keeps.ite) <;> intro _
    | with_reducible apply Keeps.of (State.messages_keeps _ _ _ _)
    | (fail_if_no_progress (with_reducible refine Keeps.lit ?_ rfl rfl rfl rfl rfl rfl rfl))

theorem State.setSlipLimit_keeps (s v) (h : bits 15 8 v ≠ 0) : Keeps s (State.setSlipLimit s v) := by
  refine State.setPending_keeps _ _ (fun k => ⟨fun z => h ?_, k.2⟩) (fun _ d => d)
  simpa [bits] using congrArg BitVec.toNat z

theorem State.openConnections_keeps (s) : Keeps s (State.openConnections s) := by
  unfold State.openConnections
  repeat' first
    | with_reducible exact Keeps.refl _
    | with_reducible apply Keeps.of (State.setConn_keeps _ _ _ _)
    | (with_reducible apply Keeps.of (Keeps.foldl (fun t x => ?_) _ _))

theorem State.join_keeps (s) : Keeps s (State.join s) := by
  unfold State.join
  repeat' first
    | with_reducible assumption
    | with_reducible exact Keeps.refl _
    | (with_reducible apply Keeps.ite) <;> intro _
    | with_reducible apply Keeps.of (State.raise_keeps _ _ _ _ _ _)
    | with_reducible apply Keeps.of (State.closeConnections_keeps _)
    | (fail_if_no_progress (with_reducible refine Keeps.lit ?_ rfl rfl rfl rfl rfl rfl rfl))

theorem State.sendJoin_keeps (s) : Keeps s (State.sendJoin s) := by
  unfold State.sendJoin
  repeat' first
    | with_reducible exact Keeps.refl _
    | (with_reducible apply Keeps.ite) <;> intro _
    | with_reducible apply Keeps.of (State.upTree_keeps _ _ _)

theorem State.beginJoin_keeps (s) : Keeps s (State.beginJoin s) := by
  unfold State.beginJoin
  repeat' first
    | with_reducible exact Keeps.refl _
    | with_reducible apply Keeps.of (State.messages_keeps _ _ _ _)
    | with_reducible apply Keeps.of (State.announceStart_keeps _)
    | with_reducible apply Keeps.of (State.sendJoin_keeps _)
    | with_reducible apply Keeps.of (State.openConnections_keeps _)
    | with_reducible apply Keeps.of (State.join_keeps _)

theorem State.acceptStart_keeps (s) : Keeps s (State.acceptStart s) := by
  unfold State.acceptStart
  repeat' first
    | with_reducible assumption
    | with_reducible exact Keeps.refl _
    | (with_reducible apply Keeps.ite) <;> intro _
    | with_reducible apply Keeps.of (State.retireUnits_keeps _)
    | with_reducible apply Keeps.of (State.beginJoin_keeps _)
    | (fail_if_no_progress (with_reducible refine Keeps.lit ?_ rfl rfl rfl rfl rfl rfl rfl))

theorem State.acceptStop_keeps (s) : Keeps s (State.acceptStop s) := by
  unfold State.acceptStop
  repeat' first
    | with_reducible exact Keeps.refl _
    | with_reducible apply Keeps.of (State.toIdle_keeps _)
    | (fail_if_no_progress (with_reducible refine Keeps.lit ?_ rfl rfl rfl rfl rfl rfl rfl))
    | split

theorem State.commandSeq_keeps (s v) (h : bits 15 8 v ≠ 0) : Keeps s (State.commandSeq s v) := by
  unfold State.commandSeq
  refine Keeps.ite (fun _ => State.log_keeps _ _ _ _) (fun _ => Keeps.ite (fun _ => ?_) (fun _ =>
    Keeps.ite (fun _ => State.log_keeps _ _ _ _) (fun _ => ?_)))
  · exact (State.log_keeps _ _ _ _).trans (Keeps.foldl (fun _ _ => State.raise_keeps _ _ _ _ _ _) _ _)
  · extract_lets s1 s2
    have h1 : Keeps s s1 := State.setSlipLimit_keeps s v h
    have h2 : Keeps s s2 := Keeps.ite (fun _ => h1.trans (State.acceptStart_keeps _)) (fun _ => h1)
    exact Keeps.ite (fun _ => h2.trans (State.acceptStop_keeps _)) (fun _ => h2)

theorem State.writeSeqCtrl_keeps (s x0 x1) : Keeps s (State.writeSeqCtrl s x0 x1) := by
  unfold State.writeSeqCtrl
  exact Keeps.ite (fun _ => State.outOfRange_keeps _ _) (fun h => Keeps.ite (fun _ => State.setSlipLimit_keeps _ _ h)
    (fun _ => State.commandSeq_keeps _ _ h))

theorem State.deriveCopy_keeps (s x0 x1 x2) : Keeps s (State.deriveCopy s x0 x1 x2) := by
  unfold State.deriveCopy
  repeat' first
    | with_reducible assumption
    | with_reducible exact Keeps.refl _
    | (with_reducible apply Keeps.ite) <;> intro _
    | with_reducible apply Keeps.of (State.countTally_keeps _ _ _ _)
    | with_reducible apply Keeps.of (State.faultChurn_keeps _ _)
    | with_reducible apply Keeps.of (State.writeWorking_keeps _ _ _)
    | (with_reducible apply Keeps.of (Keeps.foldl (fun t x => ?_) _ _))

theorem State.deriveUnreadable_keeps (s x0 x1 x2) : Keeps s (State.deriveUnreadable s x0 x1 x2) := by
  unfold State.deriveUnreadable
  repeat' first
    | with_reducible exact Keeps.refl _
    | with_reducible apply Keeps.of (State.setWatch_keeps _ _ _)
    | with_reducible apply Keeps.of (State.deriveCopy_keeps _ _ _ _)
    | split

theorem State.deriveRecord_keeps (s x0 x1 x2) : Keeps s (State.deriveRecord s x0 x1 x2) := by
  unfold State.deriveRecord
  repeat' first
    | with_reducible assumption
    | with_reducible exact Keeps.refl _
    | with_reducible apply Keeps.of (State.readRecord_keeps _ _ _ _)
    | with_reducible apply Keeps.of (State.planePoison_keeps _ _ _)
    | with_reducible apply Keeps.of (State.deriveCopy_keeps _ _ _ _)
    | with_reducible apply Keeps.of (State.deriveUnreadable_keeps _ _ _ _)
    | extract_lets +onlyGivenNames x
    | split

theorem State.derivePass_keeps (s) : Keeps s (State.derivePass s) := by
  unfold State.derivePass
  repeat' first
    | with_reducible exact Keeps.refl _
    | with_reducible apply Keeps.of (State.deriveRecord_keeps _ _ _ _)
    | (with_reducible apply Keeps.of (Keeps.foldl (fun t x => ?_) _ _))
    | split

theorem State.startJob_keeps (s) : Keeps s (State.startJob s) := by
  unfold State.startJob
  repeat' first
    | with_reducible exact Keeps.refl _
    | with_reducible apply Keeps.of (State.freshJob_keeps _)
    | with_reducible apply Keeps.of (State.endIntake_keeps _)
    | with_reducible apply Keeps.of (State.takeEveryBatch_keeps _)
    | with_reducible apply Keeps.of (State.derivePass_keeps _)
    | with_reducible apply Keeps.of (State.startWatch_keeps _)
    | with_reducible apply Keeps.of (State.freshInit_keeps _)

/-! ## PenLinks -/

theorem State.requestRetry_keeps (s x0 x1) : Keeps s (State.requestRetry s x0 x1) := by
  unfold State.requestRetry
  repeat' first
    | with_reducible exact Keeps.refl _
    | with_reducible apply Keeps.of (State.setPen_keeps _ _ _)
    | with_reducible apply Keeps.of (State.emit_keeps _ _)

theorem State.linkResumed_keeps (s x0) : Keeps s (State.linkResumed s x0) := by
  unfold State.linkResumed
  repeat' first
    | with_reducible exact Keeps.refl _
    | (with_reducible apply Keeps.ite) <;> intro _
    | with_reducible apply Keeps.of (State.raise_keeps _ _ _ _ _ _)
    | with_reducible apply Keeps.of (State.setPen_keeps _ _ _)
    | with_reducible apply Keeps.of (State.drainPen_keeps _ _ _)
    | with_reducible apply Keeps.of (State.requestRetry_keeps _ _ _)

theorem State.timeTransfer_keeps (s x0) : Keeps s (State.timeTransfer s x0) := by
  unfold State.timeTransfer
  repeat' first
    | with_reducible exact Keeps.refl _
    | (with_reducible apply Keeps.ite) <;> intro _
    | with_reducible apply Keeps.of (State.emit_keeps _ _)
    | with_reducible apply Keeps.of (State.toConn_keeps _ _ _ _)
    | split

theorem State.badUnit_keeps (s x0 x1 x2) : Keeps s (State.badUnit s x0 x1 x2) := by
  unfold State.badUnit
  repeat' first
    | with_reducible exact Keeps.refl _
    | (with_reducible apply Keeps.ite) <;> intro _
    | with_reducible apply Keeps.of (State.raise_keeps _ _ _ _ _ _)
    | with_reducible apply Keeps.of (State.message_keeps _ _ _ _)
    | with_reducible apply Keeps.of (State.makeSuspect_keeps _)
    | with_reducible apply Keeps.of (State.evalFault_keeps _)
    | (fail_if_no_progress (with_reducible refine Keeps.lit ?_ rfl rfl rfl rfl rfl rfl rfl))

theorem State.placeUnit_keeps (s x0 x1 x2 x3 x4 x5 x6) : Keeps s (State.placeUnit s x0 x1 x2 x3 x4 x5 x6) := by
  unfold State.placeUnit
  repeat' first
    | with_reducible exact Keeps.refl _
    | (with_reducible apply Keeps.ite) <;> intro _
    | (fail_if_no_progress (with_reducible refine Keeps.lit ?_ rfl rfl rfl rfl rfl rfl rfl))

theorem State.arriveUnit_keeps (s x0 x1 x2 x3 x4) : Keeps s (State.arriveUnit s x0 x1 x2 x3 x4) := by
  unfold State.arriveUnit
  repeat' first
    | with_reducible exact Keeps.refl _
    | (with_reducible apply Keeps.ite) <;> intro _
    | with_reducible apply Keeps.of (State.badUnit_keeps _ _ _ _)
    | with_reducible apply Keeps.of (State.placeUnit_keeps _ _ _ _ _ _ _ _)

theorem State.takeTimes_keeps (s x0 x1) : Keeps s (State.takeTimes s x0 x1) := by
  unfold State.takeTimes
  repeat' first
    | with_reducible exact Keeps.refl _
    | (with_reducible apply Keeps.ite) <;> intro _
    | with_reducible apply Keeps.of (State.raise_keeps _ _ _ _ _ _)
    | (fail_if_no_progress (with_reducible refine Keeps.lit ?_ rfl rfl rfl rfl rfl rfl rfl))

theorem State.controlArrived_keeps (s x0 x1) : Keeps s (State.controlArrived s x0 x1) := by
  unfold State.controlArrived
  repeat' first
    | with_reducible exact Keeps.refl _
    | (with_reducible apply Keeps.ite) <;> intro _
    | with_reducible apply Keeps.of (State.arriveUnit_keeps _ _ _ _ _ _)
    | with_reducible apply Keeps.of (State.takeTimes_keeps _ _ _)
    | (fail_if_no_progress (with_reducible refine Keeps.lit ?_ rfl rfl rfl rfl rfl rfl rfl))

theorem State.penTime_keeps (s x0 x1 x2) : Keeps s (State.penTime s x0 x1 x2) := by
  unfold State.penTime
  repeat' first
    | with_reducible exact Keeps.refl _
    | (with_reducible apply Keeps.ite) <;> intro _
    | with_reducible apply Keeps.of (State.setPen_keeps _ _ _)
    | with_reducible apply Keeps.of (State.controlArrived_keeps _ _ _)

theorem State.penControl_keeps (s x0 x1 x2) : Keeps s (State.penControl s x0 x1 x2) := by
  unfold State.penControl
  repeat' first
    | with_reducible exact Keeps.refl _
    | (with_reducible apply Keeps.ite) <;> intro _
    | with_reducible apply Keeps.of (State.setPen_keeps _ _ _)
    | with_reducible apply Keeps.of (State.controlArrived_keeps _ _ _)

theorem State.penUnit_keeps (s x0 x1 x2) : Keeps s (State.penUnit s x0 x1 x2) := by
  unfold State.penUnit
  repeat' first
    | with_reducible exact Keeps.refl _
    | with_reducible apply Keeps.of (State.setPen_keeps _ _ _)
    | with_reducible apply Keeps.of (State.arriveUnit_keeps _ _ _ _ _ _)

theorem State.penDeliver_keeps (s x0 x1 x2 x3) : Keeps s (State.penDeliver s x0 x1 x2 x3) := by
  unfold State.penDeliver
  repeat' first
    | with_reducible exact Keeps.refl _
    | (with_reducible apply Keeps.ite) <;> intro _
    | with_reducible apply Keeps.of (State.penControl_keeps _ _ _ _)
    | with_reducible apply Keeps.of (State.penUnit_keeps _ _ _ _)

theorem State.carryPeer_keeps (s x0 x1) : Keeps s (State.carryPeer s x0 x1) := by
  unfold State.carryPeer
  repeat' first
    | with_reducible assumption
    | with_reducible exact Keeps.refl _
    | (with_reducible apply Keeps.ite) <;> intro _
    | with_reducible apply Keeps.of (State.raise_keeps _ _ _ _ _ _)
    | with_reducible apply Keeps.of (State.setPen_keeps _ _ _)
    | (fail_if_no_progress (with_reducible refine Keeps.lit ?_ rfl rfl rfl rfl rfl rfl rfl))

theorem State.ident_keeps (s x0 x1 x2) : Keeps s (State.ident s x0 x1 x2) := by
  unfold State.ident
  repeat' first
    | with_reducible exact Keeps.refl _
    | (with_reducible apply Keeps.ite) <;> intro _
    | with_reducible apply Keeps.of (State.raise_keeps _ _ _ _ _ _)
    | with_reducible apply Keeps.of (State.setPen_keeps _ _ _)
    | with_reducible apply Keeps.of (State.emit_keeps _ _)
    | with_reducible apply Keeps.of (State.carryPeer_keeps _ _ _)
    | split

theorem State.beginTraining_keeps (s) : Keeps s (State.beginTraining s) :=
  Keeps.lit (Keeps.refl _) rfl rfl rfl rfl rfl rfl rfl

theorem State.writeFabCtrl_keeps (s x0) : Keeps s (State.writeFabCtrl s x0) := by
  unfold State.writeFabCtrl
  repeat' first
    | exact State.setPending_keeps _ _ (fun h => h) (fun _ h => h)
    | (with_reducible apply Keeps.ite) <;> intro _
    | with_reducible apply Keeps.of (State.log_keeps _ _ _ _)
    | with_reducible apply Keeps.of (State.setPending_keeps _ _)
    | with_reducible apply Keeps.of (State.beginTraining_keeps _)

theorem State.trainFailed_keeps (s x0) : Keeps s (State.trainFailed s x0) := by
  unfold State.trainFailed
  repeat' first
    | with_reducible exact Keeps.refl _
    | (with_reducible apply Keeps.ite) <;> intro _
    | with_reducible apply Keeps.of (State.raise_keeps _ _ _ _ _ _)
    | with_reducible apply Keeps.of (State.setPen_keeps _ _ _)
    | with_reducible apply Keeps.of (State.countedFault_keeps _ _)

theorem State.endTraining_keeps (s x0) : Keeps s (State.endTraining s x0) := by
  unfold State.endTraining
  repeat' first
    | with_reducible exact Keeps.refl _
    | (with_reducible apply Keeps.ite) <;> intro _
    | with_reducible apply Keeps.of (State.trainFailed_keeps _ _)
    | (with_reducible apply Keeps.of (Keeps.foldl (fun t x => ?_) _ _))
    | (fail_if_no_progress (with_reducible refine Keeps.lit ?_ rfl rfl rfl rfl rfl rfl rfl))

theorem State.sendIdle_keeps (s x0) : Keeps s (State.sendIdle s x0) := by
  unfold State.sendIdle
  repeat' first
    | with_reducible exact Keeps.refl _
    | with_reducible apply Keeps.of (State.setPen_keeps _ _ _)
    | with_reducible apply Keeps.of (State.emit_keeps _ _)

theorem State.linkLost_keeps (s x0) : Keeps s (State.linkLost s x0) := by
  unfold State.linkLost
  repeat' first
    | with_reducible exact Keeps.refl _
    | with_reducible apply Keeps.of (State.setPen_keeps _ _ _)
    | with_reducible apply Keeps.of (State.raiseHalt_keeps _ _ _ _ _)
    | with_reducible apply Keeps.of (State.countedFault_keeps _ _)

theorem State.deliverGroup_keeps (s x0 x1 x2) : Keeps s (State.deliverGroup s x0 x1 x2) := by
  unfold State.deliverGroup
  repeat' first
    | with_reducible exact Keeps.refl _
    | with_reducible apply Keeps.of (State.penDeliver_keeps _ _ _ _ _)
    | (with_reducible apply Keeps.of (Keeps.foldl (fun t x => ?_) _ _))

theorem State.tagFlit_keeps (s x0 x1) : Keeps s (State.tagFlit s x0 x1) := by
  unfold State.tagFlit
  repeat' first
    | with_reducible exact Keeps.refl _
    | (with_reducible apply Keeps.ite) <;> intro _
    | with_reducible apply Keeps.of (State.raise_keeps _ _ _ _ _ _)
    | with_reducible apply Keeps.of (State.setPen_keeps _ _ _)
    | with_reducible apply Keeps.of (State.requestRetry_keeps _ _ _)
    | with_reducible apply Keeps.of (State.linkLost_keeps _ _)
    | with_reducible apply Keeps.of (State.sendIdle_keeps _ _)
    | with_reducible apply Keeps.of (State.deliverGroup_keeps _ _ _ _)
    | extract_lets +onlyGivenNames x
    | split

theorem State.flitInOrder_keeps (s x0 x1) : Keeps s (State.flitInOrder s x0 x1) := by
  unfold State.flitInOrder
  repeat' first
    | with_reducible exact Keeps.refl _
    | (with_reducible apply Keeps.ite) <;> intro _
    | with_reducible apply Keeps.of (State.setPen_keeps _ _ _)
    | with_reducible apply Keeps.of (State.penDeliver_keeps _ _ _ _ _)
    | with_reducible apply Keeps.of (State.sendIdle_keeps _ _)
    | with_reducible apply Keeps.of (State.tagFlit_keeps _ _ _)

theorem State.stitchRetransmit_keeps (s x0) : Keeps s (State.stitchRetransmit s x0) := by
  unfold State.stitchRetransmit
  extract_lets s1
  have h1 : Keeps s s1 := (State.logged_keeps _ _).trans (State.setUnit_keeps _ _ _ (fun k => k))
  exact Keeps.ite (fun _ => h1.trans (State.countedFault_keeps _ _)) (fun _ => h1)

theorem State.resendFlits_keeps (s x0 x1) : Keeps s (State.resendFlits s x0 x1) := State.emits_keeps _ _

theorem State.takeCredit_keeps (s x0 x1) : Keeps s (State.takeCredit s x0 x1) := by
  unfold State.takeCredit
  repeat' first
    | with_reducible exact Keeps.refl _
    | with_reducible apply Keeps.of (State.setPen_keeps _ _ _)
    | with_reducible apply Keeps.of (State.drainPen_keeps _ _ _)

theorem State.flitFails_keeps (s x0) : Keeps s (State.flitFails s x0) := by
  unfold State.flitFails
  repeat' first
    | with_reducible exact Keeps.refl _
    | (with_reducible apply Keeps.ite) <;> intro _
    | with_reducible apply Keeps.of (State.requestRetry_keeps _ _ _)

theorem State.timeFlit_keeps (s x0 x1) : Keeps s (State.timeFlit s x0 x1) := by
  unfold State.timeFlit
  repeat' first
    | with_reducible exact Keeps.refl _
    | (with_reducible apply Keeps.ite) <;> intro _
    | with_reducible apply Keeps.of (State.penTime_keeps _ _ _ _)
    | with_reducible apply Keeps.of (State.takeCredit_keeps _ _ _)
    | with_reducible apply Keeps.of (State.flitFails_keeps _ _)

theorem State.numberedFlit_keeps (s x0 x1 x2) : Keeps s (State.numberedFlit s x0 x1 x2) := by
  unfold State.numberedFlit
  repeat' first
    | with_reducible exact Keeps.refl _
    | (with_reducible apply Keeps.ite) <;> intro _
    | with_reducible apply Keeps.of (State.requestRetry_keeps _ _ _)
    | with_reducible apply Keeps.of (State.takeCredit_keeps _ _ _)
    | with_reducible apply Keeps.of (State.flitInOrder_keeps _ _ _)

theorem State.idleFlit_keeps (s x0 x1) : Keeps s (State.idleFlit s x0 x1) := by
  unfold State.idleFlit
  repeat' first
    | with_reducible exact Keeps.refl _
    | (with_reducible apply Keeps.ite) <;> intro _
    | with_reducible apply Keeps.of (State.takeCredit_keeps _ _ _)
    | with_reducible apply Keeps.of (State.flitFails_keeps _ _)

theorem State.penRetrain_keeps (s x0 x1) : Keeps s (State.penRetrain s x0 x1) := by
  unfold State.penRetrain
  repeat' first
    | with_reducible exact Keeps.refl _
    | (with_reducible apply Keeps.ite) <;> intro _
    | with_reducible apply Keeps.of (State.setPen_keeps _ _ _)
    | with_reducible apply Keeps.of (State.linkResumed_keeps _ _)
    | with_reducible apply Keeps.of (State.linkLost_keeps _ _)

theorem State.linkRetrain_keeps (s x0) : Keeps s (State.linkRetrain s x0) := by
  unfold State.linkRetrain
  repeat' first
    | with_reducible exact Keeps.refl _
    | (with_reducible apply Keeps.ite) <;> intro _
    | with_reducible apply Keeps.of (State.setPen_keeps _ _ _)

theorem State.retryReq_keeps (s x0 x1) : Keeps s (State.retryReq s x0 x1) := by
  unfold State.retryReq
  repeat' first
    | with_reducible exact Keeps.refl _
    | (with_reducible apply Keeps.ite) <;> intro _
    | with_reducible apply Keeps.of (State.logged_keeps _ _)
    | with_reducible apply Keeps.of (State.setPen_keeps _ _ _)
    | with_reducible apply Keeps.of (State.resendFlits_keeps _ _ _)
    | with_reducible apply Keeps.of (State.takeCredit_keeps _ _ _)
    | with_reducible apply Keeps.of (State.flitFails_keeps _ _)

/-! ## HerdPorts -/

theorem State.discardFrame_keeps (s x0) : Keeps s (State.discardFrame s x0) := State.setHerd_keeps _ _ _

theorem State.stopConn_keeps (s x0 x1) : Keeps s (State.stopConn s x0 x1) := by
  unfold State.stopConn
  repeat' first
    | with_reducible assumption
    | with_reducible exact Keeps.refl _
    | with_reducible apply Keeps.of (State.setConn_keeps _ _ _ _)
    | with_reducible apply Keeps.of (State.stripe_keeps _ _ _)
    | extract_lets +onlyGivenNames x
    | split

theorem State.drainTo_keeps (s x0 x1) : Keeps s (State.drainTo s x0 x1) := State.drainConn_keeps _ _ _ _

theorem State.lowerRate_keeps (s x0 x1 x2) : Keeps s (State.lowerRate s x0 x1 x2) := by
  unfold State.lowerRate
  repeat' first
    | with_reducible exact Keeps.refl _
    | (with_reducible apply Keeps.ite) <;> intro _
    | with_reducible apply Keeps.of (State.setConn_keeps _ _ _ _)
    | with_reducible apply Keeps.of (State.raiseOnce_keeps _ _ _ _ _ _ _)

theorem State.takeAck_keeps (s x0 x1 x2) : Keeps s (State.takeAck s x0 x1 x2) := by
  unfold State.takeAck
  repeat' first
    | with_reducible exact Keeps.refl _
    | (with_reducible apply Keeps.ite) <;> intro _
    | with_reducible apply Keeps.of (State.setConn_keeps _ _ _ _)
    | with_reducible apply Keeps.of (State.drainTo_keeps _ _ _)
    | with_reducible apply Keeps.of (State.lowerRate_keeps _ _ _ _)

theorem State.dropFrame_keeps (s x0 x1) : Keeps s (State.dropFrame s x0 x1) := by
  unfold State.dropFrame
  repeat' first
    | with_reducible exact Keeps.refl _
    | with_reducible apply Keeps.of (State.discardFrame_keeps _ _)
    | split

theorem State.onFrame_keeps (s x0 x1 f) (h : ∀ t, Keeps t (f t)) : Keeps s (State.onFrame s x0 x1 f) := by
  unfold State.onFrame
  exact Keeps.ite (fun _ => Keeps.refl _) (fun _ => Keeps.ite (fun _ => State.dropFrame_keeps _ _ _) (fun _ => h s))

theorem State.packetArrived_keeps (s x0 x1 x2 x3) : Keeps s (State.packetArrived s x0 x1 x2 x3) := by
  unfold State.packetArrived
  repeat' first
    | with_reducible exact Keeps.refl _
    | (with_reducible apply Keeps.ite) <;> intro _
    | with_reducible apply Keeps.of (State.setConn_keeps _ _ _ _)
    | with_reducible apply Keeps.of (State.raiseOnce_keeps _ _ _ _ _ _ _)
    | with_reducible apply Keeps.of (State.setHerd_keeps _ _ _)

theorem State.peerAbsent_keeps (s) : Keeps s (State.peerAbsent s) := by
  unfold State.peerAbsent
  repeat' first
    | with_reducible exact Keeps.refl _
    | (with_reducible apply Keeps.ite) <;> intro _
    | with_reducible apply Keeps.of (State.raise_keeps _ _ _ _ _ _)
    | with_reducible apply Keeps.of (State.closeConnections_keeps _)
    | (fail_if_no_progress (with_reducible refine Keeps.lit ?_ rfl rfl rfl rfl rfl rfl rfl))

theorem State.pathLoss_keeps (s x0 x1 x2 x3) : Keeps s (State.pathLoss s x0 x1 x2 x3) := by
  unfold State.pathLoss
  repeat' first
    | with_reducible exact Keeps.refl _
    | (with_reducible apply Keeps.ite) <;> intro _
    | with_reducible apply Keeps.of (State.raise_keeps _ _ _ _ _ _)
    | with_reducible apply Keeps.of (State.setConn_keeps _ _ _ _)

theorem State.sendAgain_keeps (s x0 x1 x2 x3) : Keeps s (State.sendAgain s x0 x1 x2 x3) := by
  unfold State.sendAgain
  repeat' first
    | with_reducible exact Keeps.refl _
    | (with_reducible apply Keeps.ite) <;> intro _
    | with_reducible apply Keeps.of (State.raiseHalt_keeps _ _ _ _ _)
    | with_reducible apply Keeps.of (State.setConn_keeps _ _ _ _)
    | with_reducible apply Keeps.of (State.emit_keeps _ _)
    | with_reducible apply Keeps.of (State.setHerd_keeps _ _ _)
    | with_reducible apply Keeps.of (State.pathLoss_keeps _ _ _ _ _)

theorem State.resendPacket_keeps (s x0 x1 x2 x3) : Keeps s (State.resendPacket s x0 x1 x2 x3) := by
  unfold State.resendPacket
  repeat' first
    | with_reducible exact Keeps.refl _
    | (with_reducible apply Keeps.ite) <;> intro _
    | with_reducible apply Keeps.of (State.setConn_keeps _ _ _ _)
    | with_reducible apply Keeps.of (State.sendAgain_keeps _ _ _ _ _)

theorem State.resendHeld_keeps (s x0 x1) : Keeps s (State.resendHeld s x0 x1) := by
  unfold State.resendHeld
  repeat' first
    | with_reducible exact Keeps.refl _
    | with_reducible apply Keeps.of (State.resendPacket_keeps _ _ _ _ _)
    | (with_reducible apply Keeps.of (Keeps.foldl (fun t x => ?_) _ _))

theorem State.drainPlane_keeps (s x0) : Keeps s (State.drainPlane s x0) := by
  unfold State.drainPlane
  repeat' first
    | with_reducible exact Keeps.refl _
    | with_reducible apply Keeps.of (State.drainTo_keeps _ _ _)
    | with_reducible apply Keeps.of (State.resendHeld_keeps _ _ _)
    | (with_reducible apply Keeps.of (Keeps.foldl (fun t x => ?_) _ _))

theorem State.ackPacket_keeps (s x0 x1) : Keeps s (State.ackPacket s x0 x1) := by
  unfold State.ackPacket
  exact State.onFrame_keeps _ _ _ _ (fun t => Keeps.ite (fun _ => State.takeAck_keeps _ _ _ _) (fun _ => State.discardFrame_keeps _ _))

theorem State.bufferFilled_keeps (s x0 x1) : Keeps s (State.bufferFilled s x0 x1) := by
  unfold State.bufferFilled
  repeat' first
    | with_reducible exact Keeps.refl _
    | (with_reducible apply Keeps.ite) <;> intro _
    | with_reducible apply Keeps.of (State.setHerd_keeps _ _ _)
    | with_reducible apply Keeps.of (State.emits_keeps _ _)

theorem State.packetTagFailed_keeps (s x0 x1) : Keeps s (State.packetTagFailed s x0 x1) := by
  unfold State.packetTagFailed
  repeat' first
    | with_reducible exact Keeps.refl _
    | (with_reducible apply Keeps.ite) <;> intro _
    | with_reducible apply Keeps.of (State.raise_keeps _ _ _ _ _ _)
    | with_reducible apply Keeps.of (State.setConn_keeps _ _ _ _)
    | with_reducible apply Keeps.of (State.discardFrame_keeps _ _)

theorem State.numberedFrame_keeps (s x0 x1 x2 f) (h : ∀ t a b, Keeps t (f t a b)) : Keeps s (State.numberedFrame s x0 x1 x2 f) := by
  unfold State.numberedFrame
  extract_lets hd remote c seq
  refine Keeps.ite (fun _ => State.discardFrame_keeps _ _) (fun _ => Keeps.ite (fun _ => State.setConn_keeps _ _ _ _) (fun _ => ?_))
  split
  · exact State.packetTagFailed_keeps _ _ _
  · exact ((State.takeAck_keeps _ _ _ _).trans (State.packetArrived_keeps _ _ _ _ _)).trans (h _ _ _)

theorem State.numberedPacket_keeps (s x0 x1 x2 f) (h : ∀ t a b, Keeps t (f t a b)) : Keeps s (State.numberedPacket s x0 x1 x2 f) :=
  State.onFrame_keeps _ _ _ _ (fun _ => State.numberedFrame_keeps _ _ _ _ _ h)

theorem State.controlPart_keeps (s x0 x1 x2 x3 x4) : Keeps s (State.controlPart s x0 x1 x2 x3 x4) := by
  unfold State.controlPart
  repeat' first
    | with_reducible assumption
    | with_reducible exact Keeps.refl _
    | with_reducible apply Keeps.of (State.controlArrived_keeps _ _ _)
    | (fail_if_no_progress (with_reducible refine Keeps.lit ?_ rfl rfl rfl rfl rfl rfl rfl))
    | extract_lets +onlyGivenNames x
    | split

theorem State.retransmission_keeps (s x0 x1 x2) : Keeps s (State.retransmission s x0 x1 x2) := by
  unfold State.retransmission
  repeat' first
    | with_reducible exact Keeps.refl _
    | (with_reducible apply Keeps.ite) <;> intro _
    | with_reducible apply Keeps.of (State.resendPacket_keeps _ _ _ _ _)
    | split

theorem State.ackTimeout_keeps (s x0 x1) : Keeps s (State.ackTimeout s x0 x1) := by
  unfold State.ackTimeout
  repeat' first
    | with_reducible exact Keeps.refl _
    | (with_reducible apply Keeps.ite) <;> intro _
    | with_reducible apply Keeps.of (State.raiseHalt_keeps _ _ _ _ _)

theorem State.placeUnits_keeps (s x0 x1 x2 x3 x4 x5) : Keeps s (State.placeUnits s x0 x1 x2 x3 x4 x5) := by
  unfold State.placeUnits
  repeat' first
    | with_reducible exact Keeps.refl _
    | with_reducible apply Keeps.of (State.arriveUnit_keeps _ _ _ _ _ _)
    | (with_reducible apply Keeps.of (Keeps.foldl (fun t x => ?_) _ _))

theorem State.joinMessage_keeps (s x0) : Keeps s (State.joinMessage s x0) := by
  unfold State.joinMessage
  repeat' first
    | with_reducible exact Keeps.refl _
    | (with_reducible apply Keeps.ite) <;> intro _
    | with_reducible apply Keeps.of (State.announceStart_keeps _)
    | with_reducible apply Keeps.of (State.sendJoin_keeps _)
    | (fail_if_no_progress (with_reducible refine Keeps.lit ?_ rfl rfl rfl rfl rfl rfl rfl))

theorem State.portDown_keeps (s x0) : Keeps s (State.portDown s x0) := by
  unfold State.portDown
  repeat' first
    | with_reducible assumption
    | with_reducible exact Keeps.refl _
    | (with_reducible apply Keeps.ite) <;> intro _
    | with_reducible apply Keeps.of (State.raise_keeps _ _ _ _ _ _)
    | with_reducible apply Keeps.of (State.setHerd_keeps _ _ _)
    | with_reducible apply Keeps.of (State.stopConn_keeps _ _ _)
    | (with_reducible apply Keeps.of (Keeps.foldl (fun t x => ?_) _ _))

theorem State.nak_keeps (s x0 x1) : Keeps s (State.nak s x0 x1) := by
  unfold State.nak
  refine State.onFrame_keeps _ _ _ _ (fun t => Keeps.ite (fun _ => ?_) (fun _ => State.discardFrame_keeps _ _))
  extract_lets r s1
  have h : Keeps t s1 := State.takeAck_keeps _ _ _ _
  clear_value s1
  split
  · exact h.trans (State.resendPacket_keeps _ _ _ _ _)
  · exact h

theorem State.resume_keeps (s x0 x1) : Keeps s (State.resume s x0 x1) := by
  unfold State.resume
  repeat' first
    | with_reducible exact Keeps.refl _
    | with_reducible apply Keeps.of (State.setHerd_keeps _ _ _)
    | with_reducible apply Keeps.of (State.drainPlane_keeps _ _)

theorem State.giveUnnumbered_keeps (s x0 x1 x2 x3) : Keeps s (State.giveUnnumbered s x0 x1 x2 x3) := State.toConn_keeps _ _ _ _

theorem State.standaloneAck_keeps (s x0 x1) : Keeps s (State.standaloneAck s x0 x1) := by
  unfold State.standaloneAck
  repeat' first
    | with_reducible exact Keeps.refl _
    | (with_reducible apply Keeps.ite) <;> intro _
    | with_reducible apply Keeps.of (State.giveUnnumbered_keeps _ _ _ _ _)

theorem State.xon_keeps (s x0 x1) : Keeps s (State.xon s x0 x1) := by
  unfold State.xon
  repeat' first
    | with_reducible exact Keeps.refl _
    | (with_reducible apply Keeps.ite) <;> intro _
    | with_reducible apply Keeps.of (State.setHerd_keeps _ _ _)
    | with_reducible apply Keeps.of (State.emits_keeps _ _)

theorem State.pfcFrame_keeps (s x0 x1 x2) : Keeps s (State.pfcFrame s x0 x1 x2) := by
  unfold State.pfcFrame
  repeat' first
    | with_reducible exact Keeps.refl _
    | (with_reducible apply Keeps.ite) <;> intro _
    | with_reducible apply Keeps.of (State.setHerd_keeps _ _ _)
    | with_reducible apply Keeps.of (State.resume_keeps _ _ _)

theorem State.mapDigest_keeps (s x0 x1) : Keeps s (State.mapDigest s x0 x1) := by
  unfold State.mapDigest
  repeat' first
    | with_reducible exact Keeps.refl _
    | (with_reducible apply Keeps.ite) <;> intro _
    | with_reducible apply Keeps.of (State.raise_keeps _ _ _ _ _ _)
    | with_reducible apply Keeps.of (State.closeConnections_keeps _)
    | (fail_if_no_progress (with_reducible refine Keeps.lit ?_ rfl rfl rfl rfl rfl rfl rfl))

theorem State.rateRecovery_keeps (s x0 x1) : Keeps s (State.rateRecovery s x0 x1) := State.setConn_keeps _ _ _ _

theorem State.pfcStorm_keeps (s x0 x1) : Keeps s (State.pfcStorm s x0 x1) := by
  unfold State.pfcStorm
  repeat' first
    | with_reducible exact Keeps.refl _
    | (with_reducible apply Keeps.ite) <;> intro _
    | with_reducible apply Keeps.of (State.raise_keeps _ _ _ _ _ _)

theorem State.dataPacket_keeps (s x0 x1 x2) : Keeps s (State.dataPacket s x0 x1 x2) := by
  unfold State.dataPacket
  refine State.onFrame_keeps _ _ _ _ (fun t => ?_)
  exact Keeps.ite (fun _ => (State.bufferFilled_keeps _ _ _).trans (State.numberedFrame_keeps _ _ _ _ _ (fun _ _ _ => State.placeUnits_keeps _ _ _ _ _ _ _)))
    (fun _ => (State.bufferFilled_keeps _ _ _).trans (State.discardFrame_keeps _ _))

theorem State.gapPersists_keeps (s x0 x1) : Keeps s (State.gapPersists s x0 x1) := by
  unfold State.gapPersists
  repeat' first
    | with_reducible exact Keeps.refl _
    | (with_reducible apply Keeps.ite) <;> intro _
    | with_reducible apply Keeps.of (State.giveUnnumbered_keeps _ _ _ _ _)
    | (with_reducible apply Keeps.of (Keeps.foldl (fun t x => ?_) _ _))

end Sys2Proof.Machine
end

