-- ==== Sys2Proof/Laws/KeepsHost.lean ====
section
/-! SUPPORT. Every operation of queues, host ports, ticks, power, reliability, security and setup keeps what the module keeps
(Keeps): one lemma per operation, cited instead of its text. -/

-- Checked one theorem at a time: the package as one text then needs less memory.
set_option Elab.async false

namespace Sys2Proof.Machine

/-! ## HostQueues -/

theorem State.takeFence_keeps (s x0) : Keeps s (State.takeFence s x0) := by
  unfold State.takeFence
  repeat' first
    | with_reducible exact Keeps.refl _
    | (with_reducible apply Keeps.ite) <;> intro _
    | with_reducible apply Keeps.of (State.setDesc_keeps _ _ _ _)
    | with_reducible apply Keeps.of (State.failDesc_keeps _ _ _ _)
    | split

theorem State.pollFailed_keeps (s x0) : Keeps s (State.pollFailed s x0) := by
  unfold State.pollFailed
  repeat' first
    | with_reducible exact Keeps.refl _
    | with_reducible apply Keeps.of (State.setGroup_keeps _ _ _)
    | with_reducible apply Keeps.of (State.raiseOnce_keeps _ _ _ _ _ _ _)

theorem State.consumeTo_keeps (s x0 x1 x2) : Keeps s (State.consumeTo s x0 x1 x2) := by
  unfold State.consumeTo
  repeat' first
    | with_reducible exact Keeps.refl _
    | (with_reducible apply Keeps.ite) <;> intro _
    | with_reducible apply Keeps.of (State.setQueue_keeps _ _ _)
    | with_reducible apply Keeps.of (State.refillHeld_keeps _ _)
    | with_reducible apply Keeps.of (State.haltQueue_keeps _ _ _)

theorem State.pollGroup_keeps (s x0) : Keeps s (State.pollGroup s x0) := by
  unfold State.pollGroup
  repeat' first
    | with_reducible exact Keeps.refl _
    | (with_reducible apply Keeps.ite) <;> intro _
    | with_reducible apply Keeps.of (State.setGroup_keeps _ _ _)
    | with_reducible apply Keeps.of (State.readHost_keeps _ _ _ _)

theorem State.takeNop_keeps (s x0) : Keeps s (State.takeNop s x0) := by
  unfold State.takeNop
  repeat' first
    | with_reducible exact Keeps.refl _
    | with_reducible apply Keeps.of (State.finishDesc_keeps _ _ _ _ _)
    | split

theorem State.holdoffEnd_keeps (s x0) : Keeps s (State.holdoffEnd s x0) := by
  unfold State.holdoffEnd
  repeat' first
    | with_reducible exact Keeps.refl _
    | (with_reducible apply Keeps.ite) <;> intro _
    | with_reducible apply Keeps.of (State.setQueue_keeps _ _ _)
    | with_reducible apply Keeps.of (State.msix_keeps _ _ _)

theorem State.pushDesc_keeps (s x0 x1) : Keeps s (State.pushDesc s x0 x1) := State.setQueue_keeps _ _ _

theorem State.intakeFault_keeps (s x0 x1 x2) : Keeps s (State.intakeFault s x0 x1 x2) := by
  unfold State.intakeFault
  repeat' first
    | with_reducible exact Keeps.refl _
    | (with_reducible apply Keeps.ite) <;> intro _
    | with_reducible apply Keeps.of (State.raise_keeps _ _ _ _ _ _)
    | with_reducible apply Keeps.of (State.countedFault_keeps _ _)
    | with_reducible apply Keeps.of (State.failDesc_keeps _ _ _ _)
    | with_reducible apply Keeps.of (State.readBuffer_keeps _ _ _ _ _)
    | (fail_if_no_progress (with_reducible refine Keeps.lit ?_ rfl rfl rfl rfl rfl rfl rfl))

theorem State.acceptDesc_keeps (s x0 x1) : Keeps s (State.acceptDesc s x0 x1) := by
  unfold State.acceptDesc
  repeat' first
    | with_reducible assumption
    | with_reducible exact Keeps.refl _
    | (with_reducible apply Keeps.ite) <;> intro _
    | with_reducible apply Keeps.of (State.failDesc_keeps _ _ _ _)
    | with_reducible apply Keeps.of (State.readBuffer_keeps _ _ _ _ _)
    | with_reducible apply Keeps.of (State.pushDesc_keeps _ _ _)
    | extract_lets +onlyGivenNames x
    | split

theorem State.lapMismatch_keeps (s x0) : Keeps s (State.lapMismatch s x0) := by
  unfold State.lapMismatch
  repeat' first
    | with_reducible assumption
    | with_reducible exact Keeps.refl _
    | (with_reducible apply Keeps.ite) <;> intro _
    | with_reducible apply Keeps.of (State.setQueue_keeps _ _ _)
    | with_reducible apply Keeps.of (State.finishDesc_keeps _ _ _ _ _)
    | with_reducible apply Keeps.of (State.pushDesc_keeps _ _ _)
    | with_reducible apply Keeps.of (State.haltQueue_keeps _ _ _)
    | (fail_if_no_progress (with_reducible refine Keeps.lit ?_ rfl rfl rfl rfl rfl rfl rfl))

theorem State.descriptorFetched_keeps (s x0 x1 x2) : Keeps s (State.descriptorFetched s x0 x1 x2) := by
  unfold State.descriptorFetched
  repeat' first
    | with_reducible exact Keeps.refl _
    | (with_reducible apply Keeps.ite) <;> intro _
    | with_reducible apply Keeps.of (State.setQueue_keeps _ _ _)
    | with_reducible apply Keeps.of (State.failDesc_keeps _ _ _ _)
    | with_reducible apply Keeps.of (State.fetchNext_keeps _ _)
    | with_reducible apply Keeps.of (State.readOver_keeps _ _ _ _)
    | with_reducible apply Keeps.of (State.pushDesc_keeps _ _ _)
    | with_reducible apply Keeps.of (State.acceptDesc_keeps _ _ _)
    | with_reducible apply Keeps.of (State.lapMismatch_keeps _ _)
    | (fail_if_no_progress (with_reducible refine Keeps.lit ?_ rfl rfl rfl rfl rfl rfl rfl))
    | split

theorem State.batchRead_keeps (s x0 x1 x2) : Keeps s (State.batchRead s x0 x1 x2) := by
  unfold State.batchRead
  repeat' first
    | with_reducible exact Keeps.refl _
    | with_reducible apply Keeps.of (State.setDesc_keeps _ _ _ _)
    | with_reducible apply Keeps.of (State.endIntake_keeps _)
    | with_reducible apply Keeps.of (State.failDesc_keeps _ _ _ _)
    | split

theorem State.postTo_keeps (s x0 x1 x2 x3) : Keeps s (State.postTo s x0 x1 x2 x3) := by
  unfold State.postTo
  repeat' first
    | with_reducible exact Keeps.refl _
    | (with_reducible apply Keeps.ite) <;> intro _
    | with_reducible apply Keeps.of (State.setQueue_keeps _ _ _)
    | with_reducible apply Keeps.of (State.fetchNext_keeps _ _)
    | with_reducible apply Keeps.of (State.haltQueue_keeps _ _ _)

theorem State.doorbell_keeps (s x0 x1 x2) : Keeps s (State.doorbell s x0 x1 x2) := by
  unfold State.doorbell
  repeat' first
    | with_reducible exact Keeps.refl _
    | (with_reducible apply Keeps.ite) <;> intro _
    | with_reducible apply Keeps.of (State.consumeTo_keeps _ _ _ _)
    | with_reducible apply Keeps.of (State.postTo_keeps _ _ _ _ _)

theorem State.loadRead_keeps (s x0 x1 x2) : Keeps s (State.loadRead s x0 x1 x2) := by
  unfold State.loadRead
  repeat' first
    | with_reducible exact Keeps.refl _
    | (with_reducible apply Keeps.ite) <;> intro _
    | with_reducible apply Keeps.of (State.setDesc_keeps _ _ _ _)
    | with_reducible apply Keeps.of (State.failDesc_keeps _ _ _ _)
    | with_reducible apply Keeps.of (State.stopDesc_keeps _ _ _ _ _)

theorem State.doorbellRead_keeps (s x0 x1 x2 x3) : Keeps s (State.doorbellRead s x0 x1 x2 x3) := by
  unfold State.doorbellRead
  repeat' first
    | with_reducible assumption
    | with_reducible exact Keeps.refl _
    | (with_reducible apply Keeps.ite) <;> intro _
    | with_reducible apply Keeps.of (State.setGroup_keeps _ _ _)
    | with_reducible apply Keeps.of (State.pollFailed_keeps _ _)
    | with_reducible apply Keeps.of (State.readOver_keeps _ _ _ _)
    | with_reducible apply Keeps.of (State.doorbell_keeps _ _ _ _)
    | (with_reducible apply Keeps.of (Keeps.foldl (fun t x => ?_) _ _))
    | (fail_if_no_progress (with_reducible refine Keeps.lit ?_ rfl rfl rfl rfl rfl rfl rfl))
    | split

theorem State.takeEval_keeps (s x0) : Keeps s (State.takeEval s x0) := by
  unfold State.takeEval
  repeat' first
    | with_reducible exact Keeps.refl _
    | (with_reducible apply Keeps.ite) <;> intro _
    | with_reducible apply Keeps.of (State.setDesc_keeps _ _ _ _)
    | with_reducible apply Keeps.of (State.readBuffer_keeps _ _ _ _ _)
    | split

theorem State.bufferRead_keeps (s x0 x1 x2) : Keeps s (State.bufferRead s x0 x1 x2) := by
  unfold State.bufferRead
  repeat' first
    | with_reducible assumption
    | with_reducible exact Keeps.refl _
    | (with_reducible apply Keeps.ite) <;> intro _
    | with_reducible apply Keeps.of (State.failDesc_keeps _ _ _ _)
    | with_reducible apply Keeps.of (State.intakeFault_keeps _ _ _ _)
    | with_reducible apply Keeps.of (State.readOver_keeps _ _ _ _)
    | with_reducible apply Keeps.of (State.batchRead_keeps _ _ _ _)
    | with_reducible apply Keeps.of (State.loadRead_keeps _ _ _ _)
    | extract_lets +onlyGivenNames x
    | split

theorem State.writeTelemetry_keeps (s) : Keeps s (State.writeTelemetry s) := by
  unfold State.writeTelemetry
  repeat' first
    | with_reducible exact Keeps.refl _
    | (with_reducible apply Keeps.ite) <;> intro _
    | with_reducible apply Keeps.of (State.refillHeld_keeps _ _)
    | with_reducible apply Keeps.of (State.writeEntry_keeps _ _ _ _)
    | (fail_if_no_progress (with_reducible refine Keeps.lit ?_ rfl rfl rfl rfl rfl rfl rfl))
    | split

theorem State.lapReread_keeps (s x0) : Keeps s (State.lapReread s x0) := by
  unfold State.lapReread
  repeat' first
    | with_reducible exact Keeps.refl _
    | (with_reducible apply Keeps.ite) <;> intro _
    | with_reducible apply Keeps.of (State.setQueue_keeps _ _ _)
    | with_reducible apply Keeps.of (State.readHost_keeps _ _ _ _)

theorem State.endFence_keeps (s x0) : Keeps s (State.endFence s x0) := by
  unfold State.endFence
  repeat' first
    | with_reducible exact Keeps.refl _
    | (with_reducible apply Keeps.ite) <;> intro _
    | with_reducible apply Keeps.of (State.finishDesc_keeps _ _ _ _ _)
    | with_reducible apply Keeps.of (State.failDesc_keeps _ _ _ _)
    | extract_lets +onlyGivenNames x
    | split

/-! ## HostPorts -/

theorem State.portUp_keeps (s x0 x1 x2) : Keeps s (State.portUp s x0 x1 x2) := by
  unfold State.portUp
  repeat' first
    | with_reducible exact Keeps.refl _
    | (with_reducible apply Keeps.ite) <;> intro _
    | with_reducible apply Keeps.of (State.raise_keeps _ _ _ _ _ _)
    | with_reducible apply Keeps.of (State.setPort_keeps _ _ _)

theorem State.takeSnapshot_keeps (s x0) : Keeps s (State.takeSnapshot s x0) := by
  unfold State.takeSnapshot
  repeat' first
    | with_reducible exact Keeps.refl _
    | with_reducible apply Keeps.of (State.setDesc_keeps _ _ _ _)
    | with_reducible apply Keeps.of (State.finishDesc_keeps _ _ _ _ _)
    | split

theorem State.retrainPort_keeps (s x0) : Keeps s (State.retrainPort s x0) := by
  unfold State.retrainPort
  repeat' first
    | with_reducible exact Keeps.refl _
    | (with_reducible apply Keeps.ite) <;> intro _
    | with_reducible apply Keeps.of (State.raise_keeps _ _ _ _ _ _)
    | with_reducible apply Keeps.of (State.setPort_keeps _ _ _)
    | with_reducible apply Keeps.of (State.msix_keeps _ _ _)
    | with_reducible apply Keeps.of (State.emits_keeps _ _)
    | (with_reducible apply Keeps.of (Keeps.foldl (fun t x => ?_) _ _))
    | (fail_if_no_progress (with_reducible refine Keeps.lit ?_ rfl rfl rfl rfl rfl rfl rfl))

theorem State.linkDown_keeps (s x0 x1) : Keeps s (State.linkDown s x0 x1) := by
  unfold State.linkDown
  repeat' first
    | with_reducible exact Keeps.refl _
    | (with_reducible apply Keeps.ite) <;> intro _
    | with_reducible apply Keeps.of (State.setPort_keeps _ _ _)

theorem State.descriptorTimeout_keeps (s x0) : Keeps s (State.descriptorTimeout s x0) := by
  unfold State.descriptorTimeout
  repeat' first
    | with_reducible exact Keeps.refl _
    | (with_reducible apply Keeps.ite) <;> intro _
    | with_reducible apply Keeps.of (State.failDesc_keeps _ _ _ _)
    | with_reducible apply Keeps.of (State.fetchNext_keeps _ _)
    | with_reducible apply Keeps.of (State.readOver_keeps _ _ _ _)
    | with_reducible apply Keeps.of (State.pushDesc_keeps _ _ _)

theorem State.failSetupRead_keeps (s x0) : Keeps s (State.failSetupRead s x0) := by
  unfold State.failSetupRead
  repeat' first
    | with_reducible exact Keeps.refl _
    | (with_reducible apply Keeps.ite) <;> intro _
    | with_reducible apply Keeps.of (State.endOp_keeps _ _)
    | with_reducible apply Keeps.of (State.endCmd_keeps _ _)

theorem State.bufferTimeout_keeps (s x0) : Keeps s (State.bufferTimeout s x0) := by
  unfold State.bufferTimeout
  repeat' first
    | with_reducible exact Keeps.refl _
    | (with_reducible apply Keeps.ite) <;> intro _
    | with_reducible apply Keeps.of (State.failDesc_keeps _ _ _ _)
    | with_reducible apply Keeps.of (State.readOver_keeps _ _ _ _)
    | split

theorem State.readTimeout_keeps (s x0) : Keeps s (State.readTimeout s x0) := by
  unfold State.readTimeout
  repeat' first
    | with_reducible exact Keeps.refl _
    | (with_reducible apply Keeps.ite) <;> intro _
    | with_reducible apply Keeps.of (State.pollFailed_keeps _ _)
    | with_reducible apply Keeps.of (State.readOver_keeps _ _ _ _)
    | with_reducible apply Keeps.of (State.bufferTimeout_keeps _ _)
    | with_reducible apply Keeps.of (State.failSetupRead_keeps _ _)
    | with_reducible apply Keeps.of (State.descriptorTimeout_keeps _ _)
    | split

theorem State.dropWaitingLoad_keeps (s x0) : Keeps s (State.dropWaitingLoad s x0) := by
  unfold State.dropWaitingLoad
  repeat' first
    | with_reducible exact Keeps.refl _
    | (with_reducible apply Keeps.ite) <;> intro _
    | with_reducible apply Keeps.of (State.dropVersions_keeps _ _)

theorem State.orphanQueue_keeps (s x0) : Keeps s (State.orphanQueue s x0) := by
  unfold State.orphanQueue
  repeat' first
    | with_reducible exact Keeps.refl _
    | (with_reducible apply Keeps.ite) <;> intro _
    | with_reducible apply Keeps.of (State.setQueue_keeps _ _ _)
    | with_reducible apply Keeps.of (State.withdraw_keeps _ _ _)
    | with_reducible apply Keeps.of (State.failFences_keeps _ _)
    | with_reducible apply Keeps.of (State.dropWaitingLoad_keeps _ _)
    | (with_reducible apply Keeps.of (Keeps.foldl (fun t x => ?_) _ _))

theorem State.orphanPort_keeps (s x0) : Keeps s (State.orphanPort s x0) := by
  unfold State.orphanPort
  repeat' first
    | with_reducible exact Keeps.refl _
    | (with_reducible apply Keeps.ite) <;> intro _
    | with_reducible apply Keeps.of (State.raise_keeps _ _ _ _ _ _)
    | with_reducible apply Keeps.of (State.breakExport_keeps _)
    | with_reducible apply Keeps.of (State.endIntake_keeps _)
    | with_reducible apply Keeps.of (State.setPort_keeps _ _ _)
    | with_reducible apply Keeps.of (State.orphanQueue_keeps _ _)
    | with_reducible apply Keeps.of (State.failSetupRead_keeps _ _)
    | (with_reducible apply Keeps.of (Keeps.foldl (fun t x => ?_) _ _))
    | (fail_if_no_progress (with_reducible refine Keeps.lit ?_ rfl rfl rfl rfl rfl rfl rfl))

theorem State.resetPort_keeps (s x0) : Keeps s (State.resetPort s x0) := by
  unfold State.resetPort
  repeat' first
    | with_reducible exact Keeps.refl _
    | (with_reducible apply Keeps.ite) <;> intro _
    | with_reducible apply Keeps.of (State.orphanPort_keeps _ _)

/-! ## Ticks -/

theorem State.intakeExcess_keeps (s) : Keeps s (State.intakeExcess s) := by
  unfold State.intakeExcess
  repeat' first
    | with_reducible exact Keeps.refl _
    | (with_reducible apply Keeps.ite) <;> intro _
    | with_reducible apply Keeps.of (State.declareExcess_keeps _)

theorem State.announcePeriod_keeps (s x0) : Keeps s (State.announcePeriod s x0) := by
  unfold State.announcePeriod
  repeat' first
    | with_reducible assumption
    | with_reducible exact Keeps.refl _
    | (with_reducible apply Keeps.ite) <;> intro _
    | with_reducible apply Keeps.of (State.runAdmission_keeps _ _ _)
    | (fail_if_no_progress (with_reducible refine Keeps.lit ?_ rfl rfl rfl rfl rfl rfl rfl))
    | split

theorem State.newEpoch_keeps (s x0) : Keeps s (State.newEpoch s x0) :=
  Keeps.lit (Keeps.refl _) rfl rfl rfl rfl rfl rfl rfl

theorem State.checkIntake_keeps (s) : Keeps s (State.checkIntake s) := by
  unfold State.checkIntake
  repeat' first
    | with_reducible exact Keeps.refl _
    | (with_reducible apply Keeps.ite) <;> intro _
    | with_reducible apply Keeps.of (State.declareExcess_keeps _)

theorem State.takeLookups_keeps (s) : Keeps s (State.takeLookups s) :=
  Keeps.lit (Keeps.refl _) rfl rfl rfl rfl rfl rfl rfl

theorem State.startPhase1_keeps (s) : Keeps s (State.startPhase1 s) := by
  unfold State.startPhase1
  repeat' first
    | with_reducible exact Keeps.refl _
    | with_reducible apply Keeps.of (State.sendUserLists_keeps _)
    | with_reducible apply Keeps.of (State.sendLists_keeps _)
    | with_reducible apply Keeps.of (State.sendDigests_keeps _)
    | with_reducible apply Keeps.of (State.countInvalid_keeps _ _)
    | with_reducible apply Keeps.of (State.keepCounts_keeps _)
    | (fail_if_no_progress (with_reducible refine Keeps.lit ?_ rfl rfl rfl rfl rfl rfl rfl))

theorem State.openIntake_keeps (s) : Keeps s (State.openIntake s) := by
  unfold State.openIntake
  repeat' first
    | with_reducible exact Keeps.refl _
    | (with_reducible apply Keeps.ite) <;> intro _
    | with_reducible apply Keeps.of (State.endIntake_keeps _)
    | with_reducible apply Keeps.of (State.takeEveryBatch_keeps _)
    | (fail_if_no_progress (with_reducible refine Keeps.lit ?_ rfl rfl rfl rfl rfl rfl rfl))

theorem State.bindSwaps_keeps (s x0) : Keeps s (State.bindSwaps s x0) :=
  Keeps.lit (Keeps.refl _) rfl rfl rfl rfl rfl rfl rfl

theorem State.freshStep_keeps (s x0) : Keeps s (State.freshStep s x0) := by
  refine Keeps.ledger (Keeps.refl s) (fun u hu => State.unavailable_of_entry hu (Or.inl ?_)) rfl rfl rfl rfl rfl rfl rfl rfl rfl
  simp only [State.unit, State.freshStep]
  rw [NMap.getD_map s.rel.ledger (fun e => { e with stepCount := 0 }) _ _ rfl]

theorem State.startStep_keeps (s) : Keeps s (State.startStep s) := by
  unfold State.startStep
  repeat' first
    | with_reducible exact Keeps.refl _
    | (with_reducible apply Keeps.ite) <;> intro _
    | with_reducible apply Keeps.of (State.takeLookups_keeps _)
    | with_reducible apply Keeps.of (State.separateNext_keeps _)
    | with_reducible apply Keeps.of (State.intakeExcess_keeps _)
    | with_reducible apply Keeps.of (State.startPhase1_keeps _)
    | with_reducible apply Keeps.of (State.openIntake_keeps _)
    | with_reducible apply Keeps.of (State.releaseCache_keeps _)
    | with_reducible apply Keeps.of (State.startStream_keeps _)
    | with_reducible apply Keeps.of (State.bindSwaps_keeps _ _)
    | with_reducible apply Keeps.of (State.newEpoch_keeps _ _)
    | with_reducible apply Keeps.of (State.freshStep_keeps _ _)

theorem State.announceSwap_keeps (s x0) : Keeps s (State.announceSwap s x0) := by
  unfold State.announceSwap
  repeat' first
    | with_reducible exact Keeps.refl _
    | with_reducible apply Keeps.of (State.raise_keeps _ _ _ _ _ _)
    | with_reducible apply Keeps.of (State.mapTables_keeps _ _ _)
    | (fail_if_no_progress (with_reducible refine Keeps.lit ?_ rfl rfl rfl rfl rfl rfl rfl))

theorem State.haltNow_keeps (s) : Keeps s (State.haltNow s) := by
  unfold State.haltNow
  repeat' first
    | with_reducible exact Keeps.refl _
    | (with_reducible apply Keeps.ite) <;> intro _
    | with_reducible apply Keeps.of (State.enterHalted_keeps _)
    | (fail_if_no_progress (with_reducible refine Keeps.lit ?_ rfl rfl rfl rfl rfl rfl rfl))

theorem State.noDecision_keeps (s) : Keeps s (State.noDecision s) := by
  unfold State.noDecision
  repeat' first
    | with_reducible exact Keeps.refl _
    | with_reducible apply Keeps.of (State.raise_keeps _ _ _ _ _ _)
    | with_reducible apply Keeps.of (State.haltNow_keeps _)

theorem State.setStepClock_keeps (s) : Keeps s (State.setStepClock s) := by
  unfold State.setStepClock
  repeat' first
    | with_reducible exact Keeps.refl _
    | (with_reducible apply Keeps.ite) <;> intro _
    | with_reducible apply Keeps.of (State.raise_keeps _ _ _ _ _ _)
    | (fail_if_no_progress (with_reducible refine Keeps.lit ?_ rfl rfl rfl rfl rfl rfl rfl))

theorem State.measured_keeps (s x0) : Keeps s (State.measured s x0) :=
  Keeps.lit (Keeps.refl _) rfl rfl rfl rfl rfl rfl rfl

theorem State.acceptDecision_keeps (s x0) : Keeps s (State.acceptDecision s x0) := by
  unfold State.acceptDecision
  repeat' first
    | with_reducible assumption
    | with_reducible exact Keeps.refl _
    | with_reducible apply Keeps.of (State.announcePeriod_keeps _ _)
    | with_reducible apply Keeps.of (State.announceSwap_keeps _ _)
    | (with_reducible apply Keeps.of (Keeps.foldl (fun t x => ?_) _ _))
    | (fail_if_no_progress (with_reducible refine Keeps.lit ?_ rfl rfl rfl rfl rfl rfl rfl))
    | split

theorem State.decisionMessage_keeps (s x0) : Keeps s (State.decisionMessage s x0) := by
  unfold State.decisionMessage
  repeat' first
    | with_reducible assumption
    | with_reducible exact Keeps.refl _
    | (with_reducible apply Keeps.ite) <;> intro _
    | with_reducible apply Keeps.of (State.messages_keeps _ _ _ _)
    | with_reducible apply Keeps.of (State.acceptDecision_keeps _ _)
    | (fail_if_no_progress (with_reducible refine Keeps.lit ?_ rfl rfl rfl rfl rfl rfl rfl))
    | split

theorem State.countTick_keeps (s) : Keeps s (State.countTick s) :=
  Keeps.lit (Keeps.refl _) rfl rfl rfl rfl rfl rfl rfl

theorem State.tickPulse_keeps (s) : Keeps s (State.tickPulse s) := by
  unfold State.tickPulse
  repeat' first
    | with_reducible exact Keeps.refl _
    | (with_reducible apply Keeps.ite) <;> intro _
    | with_reducible apply Keeps.of (State.emit_keeps _ _)

theorem State.restorePromise_keeps (s) : Keeps s (State.restorePromise s) := by
  unfold State.restorePromise
  repeat' first
    | with_reducible exact Keeps.refl _
    | (with_reducible apply Keeps.ite) <;> intro _
    | with_reducible apply Keeps.of (State.raise_keeps _ _ _ _ _ _)
    | (fail_if_no_progress (with_reducible refine Keeps.lit ?_ rfl rfl rfl rfl rfl rfl rfl))

theorem State.makeDecision_keeps (s) : Keeps s (State.makeDecision s) := by
  unfold State.makeDecision
  repeat' first
    | with_reducible exact Keeps.refl _
    | with_reducible apply Keeps.of (State.messages_keeps _ _ _ _)
    | with_reducible apply Keeps.of (State.acceptDecision_keeps _ _)

theorem State.holdTick_keeps (s) : Keeps s (State.holdTick s) := by
  refine Keeps.trans ?_ (State.raise_keeps _ _ _ _ _ _)
  exact Keeps.lit (Keeps.refl _) rfl rfl rfl rfl rfl rfl rfl

theorem State.settlePeriod_keeps (s x0) : Keeps s (State.settlePeriod s x0) := by
  unfold State.settlePeriod
  have k (t : State) (n m) : Keeps t { t with active.tickPeriod := n, pend.tickPeriod := m } :=
    Keeps.views (Keeps.refl t) id (fun _ a p => ⟨a, p⟩) rfl rfl rfl rfl rfl rfl rfl rfl
  split
  · exact Keeps.refl s
  · refine Keeps.ite (fun _ => Keeps.refl s) (fun _ => ?_)
    extract_lets _ s1
    have h1 : Keeps s s1 := Keeps.lit (Keeps.refl s) rfl rfl rfl rfl rfl rfl rfl
    clear_value s1
    refine Keeps.ite (fun _ => h1.trans (k s1 _ _)) (fun _ => Keeps.ite (fun _ => ?_) (fun _ => h1))
    exact (h1.trans (k s1 s1.active.tickPeriod s1.active.tickPeriod)).trans (State.raise_keeps _ _ _ _ _ _)

theorem State.obeyDecision_keeps (s x0) : Keeps s (State.obeyDecision s x0) := by
  unfold State.obeyDecision
  repeat' first
    | with_reducible exact Keeps.refl _
    | (with_reducible apply Keeps.ite) <;> intro _
    | with_reducible apply Keeps.of (State.settlePeriod_keeps _ _)
    | with_reducible apply Keeps.of (State.holdTick_keeps _)
    | with_reducible apply Keeps.of (State.startStep_keeps _)
    | (fail_if_no_progress (with_reducible refine Keeps.lit ?_ rfl rfl rfl rfl rfl rfl rfl))

theorem State.jobTick_keeps (s) : Keeps s (State.jobTick s) := by
  unfold State.jobTick
  repeat' first
    | with_reducible assumption
    | with_reducible exact Keeps.refl _
    | (with_reducible apply Keeps.ite) <;> intro _
    | with_reducible apply Keeps.of (State.raise_keeps _ _ _ _ _ _)
    | with_reducible apply Keeps.of (State.haltNow_keeps _)
    | with_reducible apply Keeps.of (State.noDecision_keeps _)
    | with_reducible apply Keeps.of (State.makeDecision_keeps _)
    | with_reducible apply Keeps.of (State.checkIntake_keeps _)
    | with_reducible apply Keeps.of (State.obeyDecision_keeps _ _)
    | split

theorem State.tick_keeps (s) : Keeps s (State.tick s) := by
  unfold State.tick
  repeat' first
    | with_reducible exact Keeps.refl _
    | (with_reducible apply Keeps.ite) <;> intro _
    | with_reducible apply Keeps.of (State.applyPoint_keeps _ _)
    | with_reducible apply Keeps.of (State.setStepClock_keeps _)
    | with_reducible apply Keeps.of (State.countTick_keeps _)
    | with_reducible apply Keeps.of (State.startJob_keeps _)
    | with_reducible apply Keeps.of (State.restorePromise_keeps _)
    | with_reducible apply Keeps.of (State.jobTick_keeps _)
    | with_reducible apply Keeps.of (State.tickPulse_keeps _)

theorem State.localTick_keeps (s x0 x1) : Keeps s (State.localTick s x0 x1) := by
  unfold State.localTick
  repeat' first
    | with_reducible exact Keeps.refl _
    | (with_reducible apply Keeps.ite) <;> intro _
    | with_reducible apply Keeps.of (State.measured_keeps _ _)
    | with_reducible apply Keeps.of (State.tick_keeps _)
    | with_reducible apply Keeps.of (State.timed_keeps _ _)

theorem State.enterHoldover_keeps (s) : Keeps s (State.enterHoldover s) := by
  unfold State.enterHoldover
  repeat' first
    | with_reducible exact Keeps.refl _
    | (with_reducible apply Keeps.ite) <;> intro _
    | with_reducible apply Keeps.of (State.raise_keeps _ _ _ _ _ _)
    | (fail_if_no_progress (with_reducible refine Keeps.lit ?_ rfl rfl rfl rfl rfl rfl rfl))

theorem State.tickEdge_keeps (s x0 x1) : Keeps s (State.tickEdge s x0 x1) := by
  unfold State.tickEdge
  repeat' first
    | with_reducible assumption
    | with_reducible exact Keeps.refl _
    | (with_reducible apply Keeps.ite) <;> intro _
    | with_reducible apply Keeps.of (State.raise_keeps _ _ _ _ _ _)
    | with_reducible apply Keeps.of (State.measured_keeps _ _)
    | with_reducible apply Keeps.of (State.tick_keeps _)
    | with_reducible apply Keeps.of (State.timed_keeps _ _)
    | (fail_if_no_progress (with_reducible refine Keeps.lit ?_ rfl rfl rfl rfl rfl rfl rfl))

theorem State.loseTick_keeps (s) : Keeps s (State.loseTick s) := by
  unfold State.loseTick
  repeat' first
    | with_reducible exact Keeps.refl _
    | (with_reducible apply Keeps.ite) <;> intro _
    | with_reducible apply Keeps.of (State.raise_keeps _ _ _ _ _ _)
    | (fail_if_no_progress (with_reducible refine Keeps.lit ?_ rfl rfl rfl rfl rfl rfl rfl))

theorem State.decisionPoint_keeps (s) : Keeps s (State.decisionPoint s) := by
  unfold State.decisionPoint
  repeat' first
    | with_reducible exact Keeps.refl _
    | (with_reducible apply Keeps.ite) <;> intro _
    | with_reducible apply Keeps.of (State.makeDecision_keeps _)
    | with_reducible apply Keeps.of (State.checkIntake_keeps _)

/-! ## Power -/

theorem State.powerEvent_keeps (s x0 x1) : Keeps s (State.powerEvent s x0 x1) := by
  unfold State.powerEvent
  refine Keeps.trans (Keeps.ite (fun _ => State.raise_keeps _ _ _ _ _ _) (fun _ => ?_)) (State.emit_keeps _ _)
  refine Keeps.buffers (Keeps.refl s) (fun e => ⟨e.1, ?_⟩) rfl rfl rfl rfl rfl rfl rfl rfl
  simp only [List.length_drop]; omega

theorem State.powerWait_keeps (s) : Keeps s (State.powerWait s) := by
  unfold State.powerWait
  repeat' first
    | with_reducible exact Keeps.refl _
    | (with_reducible apply Keeps.ite) <;> intro _
    | with_reducible apply Keeps.of (State.powerEvent_keeps _ _ _)
    | (fail_if_no_progress (with_reducible refine Keeps.lit ?_ rfl rfl rfl rfl rfl rfl rfl))

theorem State.coolSpec_keeps (s x0 x1 x2) : Keeps s (State.coolSpec s x0 x1 x2) := by
  unfold State.coolSpec
  repeat' first
    | with_reducible exact Keeps.refl _
    | (with_reducible apply Keeps.ite) <;> intro _
    | with_reducible apply Keeps.of (State.stackCrit_keeps _ _ _)
    | with_reducible apply Keeps.of (State.powerEvent_keeps _ _ _)
    | with_reducible apply Keeps.of (State.powerWait_keeps _)
    | (fail_if_no_progress (with_reducible refine Keeps.lit ?_ rfl rfl rfl rfl rfl rfl rfl))

theorem State.enterStopping_keeps (s) : Keeps s (State.enterStopping s) := by
  unfold State.enterStopping
  repeat' first
    | with_reducible exact Keeps.refl _
    | (with_reducible apply Keeps.ite) <;> intro _
    | (fail_if_no_progress (with_reducible refine Keeps.lit ?_ rfl rfl rfl rfl rfl rfl rfl))

theorem State.leaveLockout_keeps (s) : Keeps s (State.leaveLockout s) :=
  Keeps.lit (Keeps.refl _) rfl rfl rfl rfl rfl rfl rfl

theorem State.rearm_keeps (s) : Keeps s (State.rearm s) := by
  unfold State.rearm
  repeat' first
    | with_reducible exact Keeps.refl _
    | (with_reducible apply Keeps.ite) <;> intro _
    | with_reducible apply Keeps.of (State.leaveLockout_keeps _)
    | (fail_if_no_progress (with_reducible refine Keeps.lit ?_ rfl rfl rfl rfl rfl rfl rfl))

theorem State.powerCycle_keeps (s) : Keeps s (State.powerCycle s) := by
  unfold State.powerCycle
  repeat' first
    | with_reducible exact Keeps.refl _
    | with_reducible apply Keeps.of (State.powerWait_keeps _)
    | with_reducible apply Keeps.of (State.enterStopping_keeps _)
    | with_reducible apply Keeps.of (State.rearm_keeps _)
    | (fail_if_no_progress (with_reducible refine Keeps.lit ?_ rfl rfl rfl rfl rfl rfl rfl))
    | split

theorem State.hotHours_keeps (s x0) : Keeps s (State.hotHours s x0) := by
  unfold State.hotHours
  repeat' first
    | with_reducible exact Keeps.refl _
    | (with_reducible apply Keeps.ite) <;> intro _
    | with_reducible apply Keeps.of (State.powerEvent_keeps _ _ _)
    | (fail_if_no_progress (with_reducible refine Keeps.lit ?_ rfl rfl rfl rfl rfl rfl rfl))

theorem State.pwrEnRise_keeps (s) : Keeps s (State.pwrEnRise s) := by
  unfold State.pwrEnRise
  repeat' first
    | with_reducible exact Keeps.refl _
    | (with_reducible apply Keeps.ite) <;> intro _
    | with_reducible apply Keeps.of (State.powerWait_keeps _)
    | with_reducible apply Keeps.of (State.rearm_keeps _)
    | (fail_if_no_progress (with_reducible refine Keeps.lit ?_ rfl rfl rfl rfl rfl rfl rfl))
    | split

theorem State.clampActs_keeps (s) : Keeps s (State.clampActs s) := by
  refine Keeps.trans ?_ (State.raiseOnce_keeps _ _ _ _ _ _ _)
  exact Keeps.lit (Keeps.refl _) rfl rfl rfl rfl rfl rfl rfl

theorem State.clampStep_keeps (s) : Keeps s (State.clampStep s) := by
  refine Keeps.trans ?_ (State.clampActs_keeps _)
  exact Keeps.lit (Keeps.refl _) rfl rfl rfl rfl rfl rfl rfl

theorem State.saddleLost_keeps (s) : Keeps s (State.saddleLost s) := by
  refine Keeps.parts rfl (fun _ => ⟨rfl, rfl⟩) (fun e => ⟨Nat.zero_le _, e.2⟩) (fun _ => ⟨Buffered.inRange_reset [], Buffered.inRange_reset []⟩)
    (fun _ k => absurd k (by simp [State.saddleLost]))
    (fun u hu => State.unavailable_of_entry hu (Or.inl ?_))
  simp only [State.unit, State.saddleLost]
  rw [NMap.getD_map _ _ _ _ rfl]
  rfl

theorem State.railsOff_keeps (s x0 x1) : Keeps s (State.railsOff s x0 x1) := by
  unfold State.railsOff
  repeat' first
    | with_reducible exact Keeps.refl _
    | (with_reducible apply Keeps.ite) <;> intro _
    | with_reducible apply Keeps.of (State.powerWait_keeps _)
    | with_reducible apply Keeps.of (State.hotHours_keeps _ _)
    | with_reducible apply Keeps.of (State.saddleLost_keeps _)
    | (fail_if_no_progress (with_reducible refine Keeps.lit ?_ rfl rfl rfl rfl rfl rfl rfl))

theorem State.powering_keeps (s) : Keeps s (State.powering s) := by
  unfold State.powering
  repeat' first
    | with_reducible exact Keeps.refl _
    | (with_reducible apply Keeps.ite) <;> intro _
    | (fail_if_no_progress (with_reducible refine Keeps.lit ?_ rfl rfl rfl rfl rfl rfl rfl))

theorem State.lockOut_keeps (s x0) : Keeps s (State.lockOut s x0) := by
  unfold State.lockOut
  repeat' first
    | with_reducible exact Keeps.refl _
    | (with_reducible apply Keeps.ite) <;> intro _
    | with_reducible apply Keeps.of (State.powerEvent_keeps _ _ _)
    | with_reducible apply Keeps.of (State.saddleLost_keeps _)
    | (fail_if_no_progress (with_reducible refine Keeps.lit ?_ rfl rfl rfl rfl rfl rfl rfl))

theorem State.vinOut_keeps (s x0 x1) : Keeps s (State.vinOut s x0 x1) := by
  unfold State.vinOut
  repeat' first
    | with_reducible exact Keeps.refl _
    | (with_reducible apply Keeps.ite) <;> intro _
    | with_reducible apply Keeps.of (State.voidPromise_keeps _ _)
    | with_reducible apply Keeps.of (State.powerEvent_keeps _ _ _)
    | with_reducible apply Keeps.of (State.powerWait_keeps _)
    | (fail_if_no_progress (with_reducible refine Keeps.lit ?_ rfl rfl rfl rfl rfl rfl rfl))

/-! ## Reliability -/

theorem State.sendVerdict_keeps (s x0 x1 x2) : Keeps s (State.sendVerdict s x0 x1 x2) := by
  unfold State.sendVerdict
  repeat' first
    | with_reducible exact Keeps.refl _
    | (with_reducible apply Keeps.ite) <;> intro _
    | with_reducible apply Keeps.of (State.transmit_keeps _ _ _)
    | with_reducible apply Keeps.of (State.message_keeps _ _ _ _)

theorem State.flagWitness_keeps (s x0) : Keeps s (State.flagWitness s x0) :=
  Keeps.lit (Keeps.refl _) rfl rfl rfl rfl rfl rfl rfl

theorem State.resend_keeps (s x0 x1 x2) : Keeps s (State.resend s x0 x1 x2) := by
  unfold State.resend
  repeat' first
    | with_reducible exact Keeps.refl _
    | (with_reducible apply Keeps.ite) <;> intro _
    | with_reducible apply Keeps.of (State.countedFault_keeps _ _)
    | with_reducible apply Keeps.of (State.beginReplay_keeps _)
    | (fail_if_no_progress (with_reducible refine Keeps.lit ?_ rfl rfl rfl rfl rfl rfl rfl))

theorem State.witnessReq_keeps (s x0 x1) : Keeps s (State.witnessReq s x0 x1) := by
  unfold State.witnessReq
  repeat' first
    | with_reducible exact Keeps.refl _
    | (with_reducible apply Keeps.ite) <;> intro _
    | with_reducible apply Keeps.of (State.sendVerdict_keeps _ _ _ _)
    | with_reducible apply Keeps.of (State.flagWitness_keeps _ _)
    | (fail_if_no_progress (with_reducible refine Keeps.lit ?_ rfl rfl rfl rfl rfl rfl rfl))

theorem State.takeWitness_keeps (s x0) : Keeps s (State.takeWitness s x0) := by
  unfold State.takeWitness
  repeat' first
    | with_reducible assumption
    | with_reducible exact Keeps.refl _
    | with_reducible apply Keeps.of (State.tileWrite_keeps _ _ _ _)
    | (with_reducible apply Keeps.of (Keeps.foldl (fun t x => ?_) _ _))
    | (fail_if_no_progress (with_reducible refine Keeps.lit ?_ rfl rfl rfl rfl rfl rfl rfl))

theorem State.sendOutstanding_keeps (s x0) : Keeps s (State.sendOutstanding s x0) := by
  refine Keeps.trans ?_ (State.transmit_keeps _ _ _)
  exact Keeps.lit (Keeps.refl _) rfl rfl rfl rfl rfl rfl rfl

theorem State.witnessOk_keeps (s x0) : Keeps s (State.witnessOk s x0) := by
  unfold State.witnessOk
  repeat' first
    | with_reducible exact Keeps.refl _
    | with_reducible apply Keeps.of (State.raise_keeps _ _ _ _ _ _)
    | with_reducible apply Keeps.of (State.dropCounts_keeps _)
    | with_reducible apply Keeps.of (State.dropEpoch_keeps _)
    | with_reducible apply Keeps.of (State.takeWitness_keeps _ _)
    | with_reducible apply Keeps.of (State.sendOutstanding_keeps _ _)
    | (with_reducible apply Keeps.of (Keeps.foldl (fun t x => ?_) _ _))
    | (fail_if_no_progress (with_reducible refine Keeps.lit ?_ rfl rfl rfl rfl rfl rfl rfl))

theorem State.witnessWork_keeps (s x0 x1) : Keeps s (State.witnessWork s x0 x1) := by
  unfold State.witnessWork
  repeat' first
    | with_reducible exact Keeps.refl _
    | (with_reducible apply Keeps.ite) <;> intro _
    | with_reducible apply Keeps.of (State.raise_keeps _ _ _ _ _ _)
    | with_reducible apply Keeps.of (State.countedFault_keeps _ _)
    | with_reducible apply Keeps.of (State.sendVerdict_keeps _ _ _ _)
    | (with_reducible apply Keeps.of (Keeps.foldl (fun t x => ?_) _ _))
    | (fail_if_no_progress (with_reducible refine Keeps.lit ?_ rfl rfl rfl rfl rfl rfl rfl))
    | split

theorem State.witnessResult_keeps (s x0 x1) : Keeps s (State.witnessResult s x0 x1) := by
  unfold State.witnessResult
  repeat' first
    | with_reducible exact Keeps.refl _
    | (with_reducible apply Keeps.ite) <;> intro _
    | with_reducible apply Keeps.of (State.raiseHalt_keeps _ _ _ _ _)
    | with_reducible apply Keeps.of (State.witnessRefused_keeps _)
    | with_reducible apply Keeps.of (State.witnessOk_keeps _ _)
    | (fail_if_no_progress (with_reducible refine Keeps.lit ?_ rfl rfl rfl rfl rfl rfl rfl))

/-! ## Security -/

theorem State.endSec_keeps (s x0) : Keeps s (State.endSec s x0) :=
  Keeps.lit (Keeps.refl _) rfl rfl rfl rfl rfl rfl rfl

theorem State.secWrite_keeps (s x0) : Keeps s (State.secWrite s x0) := State.toHost_keeps _ _ _

theorem State.newKem_keeps (s) : Keeps s (State.newKem s) := by
  have h : Keeps s s.random.2 := State.random_keeps s
  by_cases m : s.sec.mode = 2
  · exact h.trans (Keeps.parts rfl id id id (fun d _ => d m) (fun _ => id))
  · refine Keeps.leave h ?_ rfl rfl rfl rfl rfl rfl rfl rfl
    simp only [State.newKem]
    split
    · simp
    · exact m

theorem State.report_keeps (s x0) : Keeps s (State.report s x0) := by
  unfold State.report
  repeat' first
    | with_reducible exact Keeps.refl _
    | (with_reducible apply Keeps.ite) <;> intro _
    | with_reducible apply Keeps.of (State.endSec_keeps _ _)
    | with_reducible apply Keeps.of (State.secWrite_keeps _ _)
    | with_reducible apply Keeps.of (State.newKem_keeps _)
    | (fail_if_no_progress (with_reducible refine Keeps.lit ?_ rfl rfl rfl rfl rfl rfl rfl))

theorem State.refuseSec_keeps (s x0) : Keeps s (State.refuseSec s x0) := by
  unfold State.refuseSec
  repeat' first
    | with_reducible exact Keeps.refl _
    | (with_reducible apply Keeps.ite) <;> intro _
    | with_reducible apply Keeps.of (State.raise_keeps _ _ _ _ _ _)
    | with_reducible apply Keeps.of (State.log_keeps _ _ _ _)
    | with_reducible apply Keeps.of (State.endSec_keeps _ _)

theorem State.secRun_keeps (s x0 x1 x2 f) (h : ∀ t, Keeps t (f t)) : Keeps s (State.secRun s x0 x1 x2 f) := by
  unfold State.secRun
  split
  · exact State.refuseSec_keeps _ _
  · refine Keeps.trans ?_ (h _)
    exact Keeps.lit (Keeps.refl s) rfl rfl rfl rfl rfl rfl rfl

theorem State.enterConfidential_keeps (s x0) : Keeps s (State.enterConfidential s x0) := by
  unfold State.enterConfidential
  extract_lets _ _ s1 s2
  have h1 : Keeps s s1 := Keeps.lit (Keeps.refl s) rfl rfl rfl rfl rfl rfl rfl
  have h2 : Keeps s s2 := (h1.trans (State.dropPlan_keeps _)).trans (State.discardTables_keeps _)
  clear_value s2
  refine Keeps.trans ?_ (State.raise_keeps _ _ _ _ _ _)
  refine h2.trans (Keeps.parts rfl id id ?_ (fun _ _ => ⟨rfl, rfl, ?_⟩) (fun _ => id))
  · exact id
  · simp only []
    split
    · simp
    · exact ‹_›

theorem State.keyFailed_keeps (s) : Keeps s (State.keyFailed s) := by
  by_cases h : s.sec.mode = 2
  · exact Keeps.parts rfl id id id (fun d _ => d h) (fun _ => id)
  · refine Keeps.leave (Keeps.refl s) ?_ rfl rfl rfl rfl rfl rfl rfl rfl
    simp only [State.keyFailed]
    split
    · simp
    · exact h

theorem State.keyLoad_keeps (s x0) : Keeps s (State.keyLoad s x0) := by
  unfold State.keyLoad
  repeat' first
    | with_reducible assumption
    | with_reducible exact Keeps.refl _
    | with_reducible apply Keeps.of (State.raise_keeps _ _ _ _ _ _)
    | with_reducible apply Keeps.of (State.emit_keeps _ _)
    | with_reducible apply Keeps.of (State.endSec_keeps _ _)
    | with_reducible apply Keeps.of (State.enterConfidential_keeps _ _)
    | with_reducible apply Keeps.of (State.keyFailed_keeps _)
    | extract_lets +onlyGivenNames x
    | split

theorem State.exitConfidential_keeps (s) : Keeps s (State.exitConfidential s) := by
  unfold State.exitConfidential
  refine Keeps.ite (fun _ => (State.startOp_keeps s 2).trans (Keeps.lit (Keeps.refl _) rfl rfl rfl rfl rfl rfl rfl)) (fun _ => ?_)
  refine Keeps.trans (Keeps.trans ?_ (State.raise_keeps _ _ _ _ _ _)) (State.endSec_keeps _ _)
  exact Keeps.leave (Keeps.refl s) (by simp) rfl rfl rfl rfl rfl rfl rfl rfl

theorem State.certs_keeps (s) : Keeps s (State.certs s) := by
  unfold State.certs
  repeat' first
    | with_reducible exact Keeps.refl _
    | with_reducible apply Keeps.of (State.endSec_keeps _ _)
    | with_reducible apply Keeps.of (State.secWrite_keeps _ _)

theorem State.writeSecCmd_keeps (s x0 x1) : Keeps s (State.writeSecCmd s x0 x1) := by
  unfold State.writeSecCmd
  split
  · exact State.secRun_keeps _ _ _ _ _ State.certs_keeps
  · exact State.secRun_keeps _ _ _ _ _ (fun _ => State.report_keeps _ _)
  · exact State.secRun_keeps _ _ _ _ _ (fun _ => State.keyLoad_keeps _ _)
  · exact State.secRun_keeps _ _ _ _ _ State.exitConfidential_keeps
  · exact State.outOfRange_keeps _ _

theorem State.secureErase_keeps (s) : Keeps s (State.secureErase s) := by
  unfold State.secureErase
  refine Keeps.trans (Keeps.trans ?_ (State.dropPlan_keeps _)) (State.discardTables_keeps _)
  exact Keeps.parts rfl (fun _ => ⟨rfl, rfl⟩) id id id (fun _ => id)

theorem State.clearCounters_keeps (s) : Keeps s (State.clearCounters s) :=
  Keeps.lit (Keeps.refl _) rfl rfl rfl rfl rfl rfl rfl

theorem State.exitDone_keeps (s) : Keeps s (State.exitDone s) := by
  unfold State.exitDone
  extract_lets s1 _ _ s2
  have h1 : Keeps s s1 := State.secureErase_keeps s
  have h2 : Keeps s s2 := Keeps.leave h1 (by simp [s2]) rfl rfl rfl rfl rfl rfl rfl rfl
  exact (((h2.trans (State.clearCounters_keeps _)).trans (State.raise_keeps _ _ _ _ _ _)).trans (State.endSec_keeps _ _)).trans (State.endOp_keeps _ _)

theorem State.setJtag_keeps (s j) (h : s.sec.mode = 2 → j ≠ .debug) : Keeps s (State.setJtag s j) :=
  Keeps.parts rfl id id id (fun d m => ⟨(d m).1, (d m).2.1, h m⟩) (fun _ => id)

theorem State.eraseEnd_keeps (s) : Keeps s (State.eraseEnd s) := by
  unfold State.eraseEnd
  repeat' first
    | with_reducible exact Keeps.refl _
    | (with_reducible apply Keeps.ite) <;> intro _
    | with_reducible apply Keeps.of (State.endOp_keeps _ _)
    | with_reducible apply Keeps.of (State.secureErase_keeps _)
    | with_reducible apply Keeps.of (State.exitDone_keeps _)
    | with_reducible apply Keeps.of (State.endCmd_keeps _ _)

theorem State.secCommand_keeps (s x0 x1 x2) : Keeps s (State.secCommand s x0 x1 x2) :=
  State.windowWrite_keeps _ _ _ _ _ _ _ (fun _ _ _ _ => Keeps.refl _) (fun _ _ _ _ => State.writeSecCmd_keeps _ _ _)

/-! ## Setup -/

theorem State.trainChannel_keeps (s x0 x1) : Keeps s (State.trainChannel s x0 x1) := by
  unfold State.trainChannel
  repeat' first
    | with_reducible exact Keeps.refl _
    | (with_reducible apply Keeps.ite) <;> intro _
    | with_reducible apply Keeps.of (State.channelTrained_keeps _ _ _)
    | with_reducible apply Keeps.of (State.spareLanes_keeps _ _ _)
    | with_reducible apply Keeps.of (State.channelDown_keeps _ _)

theorem State.placeTables_keeps (s x0) : Keeps s (State.placeTables s x0) := by
  unfold State.placeTables
  repeat' first
    | with_reducible assumption
    | with_reducible exact Keeps.refl _
    | (with_reducible apply Keeps.ite) <;> intro _
    | with_reducible apply Keeps.of (State.discardTables_keeps _)
    | (fail_if_no_progress (with_reducible refine Keeps.lit ?_ rfl rfl rfl rfl rfl rfl rfl))

theorem State.installPlan_keeps (s x0) : Keeps s (State.installPlan s x0) := by
  unfold State.installPlan
  extract_lets s1 _ s2
  have h1 : Keeps s s1 := State.placeTables_keeps _ _
  have h2 : Keeps s s2 := h1.trans (Keeps.views (Keeps.refl s1) id (fun _ a p => ⟨a, p⟩) rfl rfl rfl rfl rfl rfl rfl rfl)
  exact Keeps.ite (fun _ => h2.trans (State.breakExport_keeps _)) (fun _ => h2)

theorem State.resetTables_keeps (s) : Keeps s (State.resetTables s) := by
  refine Keeps.trans ?_ (State.settleVersions_keeps _)
  exact Keeps.lit (Keeps.refl _) rfl rfl rfl rfl rfl rfl rfl

theorem State.moduleReset_keeps (s) : Keeps s (State.moduleReset s) := by
  refine Keeps.parts rfl (fun m => ⟨m.1, rfl⟩) (fun e => ⟨Nat.zero_le _, e.2⟩) (fun _ => ?_) (fun _ _ => ⟨rfl, rfl, by intro h; cases h⟩)
    (fun u hu => State.unavailable_of_entry hu (Or.inl ?_))
  · exact ⟨Buffered.inRange_reset _, Buffered.inRange_reset _⟩
  · simp only [State.unit, State.moduleReset]
    rw [NMap.getD_map _ _ _ _ rfl]
    rfl

theorem State.refuseCmd_keeps (s x0 x1) : Keeps s (State.refuseCmd s x0 x1) := by
  unfold State.refuseCmd
  repeat' first
    | with_reducible exact Keeps.refl _
    | with_reducible apply Keeps.of (State.log_keeps _ _ _ _)
    | with_reducible apply Keeps.of (State.endCmd_keeps _ _)
    | (fail_if_no_progress (with_reducible refine Keeps.lit ?_ rfl rfl rfl rfl rfl rfl rfl))

theorem State.beginCmd_keeps (s x0) : Keeps s (State.beginCmd s x0) :=
  Keeps.lit (Keeps.refl _) rfl rfl rfl rfl rfl rfl rfl

theorem State.readImage_keeps (s) : Keeps s (State.readImage s) := State.emit_keeps _ _

theorem State.cmdRecover_keeps (s x0) : Keeps s (State.cmdRecover s x0) := by
  unfold State.cmdRecover
  repeat' first
    | with_reducible assumption
    | with_reducible exact Keeps.refl _
    | (with_reducible apply Keeps.ite) <;> intro _
    | with_reducible apply Keeps.of (State.raise_keeps _ _ _ _ _ _)
    | with_reducible apply Keeps.of (State.endCmd_keeps _ _)
    | with_reducible apply Keeps.of (State.refuseCmd_keeps _ _ _)
    | with_reducible apply Keeps.of (State.beginCmd_keeps _ _)
    | with_reducible apply Keeps.of (State.readImage_keeps _)
    | with_reducible apply Keeps.of (State.moduleReset_keeps _)
    | (fail_if_no_progress (with_reducible refine Keeps.lit ?_ rfl rfl rfl rfl rfl rfl rfl))
    | split

theorem State.readPlanHeader_keeps (s) : Keeps s (State.readPlanHeader s) := State.emit_keeps _ _

theorem State.cmdPlanLoad_keeps (s) : Keeps s (State.cmdPlanLoad s) := by
  unfold State.cmdPlanLoad
  repeat' first
    | with_reducible exact Keeps.refl _
    | (with_reducible apply Keeps.ite) <;> intro _
    | with_reducible apply Keeps.of (State.raise_keeps _ _ _ _ _ _)
    | with_reducible apply Keeps.of (State.refuseCmd_keeps _ _ _)
    | with_reducible apply Keeps.of (State.beginCmd_keeps _ _)
    | with_reducible apply Keeps.of (State.readPlanHeader_keeps _)
    | with_reducible apply Keeps.of (State.startOp_keeps _ _)

theorem State.cmdErase_keeps (s) : Keeps s (State.cmdErase s) := by
  unfold State.cmdErase
  repeat' first
    | with_reducible exact Keeps.refl _
    | (with_reducible apply Keeps.ite) <;> intro _
    | with_reducible apply Keeps.of (State.startOp_keeps _ _)
    | with_reducible apply Keeps.of (State.refuseCmd_keeps _ _ _)
    | with_reducible apply Keeps.of (State.beginCmd_keeps _ _)

theorem State.cmdModuleReset_keeps (s) : Keeps s (State.cmdModuleReset s) := by
  unfold State.cmdModuleReset
  repeat' first
    | with_reducible exact Keeps.refl _
    | (with_reducible apply Keeps.ite) <;> intro _
    | with_reducible apply Keeps.of (State.refuseCmd_keeps _ _ _)
    | with_reducible apply Keeps.of (State.moduleReset_keeps _)

theorem State.cmdFwUpdate_keeps (s) : Keeps s (State.cmdFwUpdate s) := by
  unfold State.cmdFwUpdate
  repeat' first
    | with_reducible exact Keeps.refl _
    | (with_reducible apply Keeps.ite) <;> intro _
    | with_reducible apply Keeps.of (State.dropPlan_keeps _)
    | with_reducible apply Keeps.of (State.refuseCmd_keeps _ _ _)
    | with_reducible apply Keeps.of (State.beginCmd_keeps _ _)
    | with_reducible apply Keeps.of (State.readImage_keeps _)

theorem State.writeSetupCmd_keeps (s x0 x1) : Keeps s (State.writeSetupCmd s x0 x1) := by
  unfold State.writeSetupCmd
  repeat' first
    | with_reducible exact Keeps.refl _
    | with_reducible apply Keeps.of (State.outOfRange_keeps _ _)
    | with_reducible apply Keeps.of (State.cmdPlanLoad_keeps _)
    | with_reducible apply Keeps.of (State.cmdRecover_keeps _ _)
    | with_reducible apply Keeps.of (State.cmdErase_keeps _)
    | with_reducible apply Keeps.of (State.cmdModuleReset_keeps _)
    | with_reducible apply Keeps.of (State.cmdFwUpdate_keeps _)
    | split

theorem State.setupCommand_keeps (s x0 x1 x2) : Keeps s (State.setupCommand s x0 x1 x2) :=
  State.windowWrite_keeps _ _ _ _ _ _ _ (fun _ _ _ _ => Keeps.refl _) (fun _ _ _ _ => State.writeSetupCmd_keeps _ _ _)

theorem State.replayEntry_keeps (s x0) : Keeps s (State.replayEntry s x0) := by
  unfold State.replayEntry
  repeat' first
    | with_reducible exact Keeps.refl _
    | (with_reducible apply Keeps.ite) <;> intro _
    | with_reducible apply Keeps.of (State.raise_keeps _ _ _ _ _ _)
    | with_reducible apply Keeps.of (State.putUnit_keeps _ _ _ _)
    | split

theorem State.replayPort_keeps (s x0) : Keeps s (State.replayPort s x0) := by
  unfold State.replayPort
  repeat' first
    | with_reducible exact Keeps.refl _
    | (with_reducible apply Keeps.ite) <;> intro _
    | with_reducible apply Keeps.of (State.raise_keeps _ _ _ _ _ _)
    | with_reducible apply Keeps.of (State.replayEntry_keeps _ _)
    | with_reducible apply Keeps.of (State.setStack_keeps _ _ _)
    | (with_reducible apply Keeps.of (Keeps.foldl (fun t x => ?_) _ _))

theorem State.writeReg_keeps (s x0 x1 x2) (h : s.confRefused x0 = false) : Keeps s (State.writeReg s x0 x1 x2) := by
  unfold State.writeReg
  split
  · exact State.writeTickCtrl_keeps _ _ _
  · exact State.writeTickPeriod_keeps _ _
  · exact State.writeSeqCtrl_keeps _ _ _
  · exact State.writeMemCtrl_keeps _ _ _
  · exact State.writeRegulator_keeps _ _ _ _
  · exact State.writeRegulator_keeps _ _ _ _
  · exact State.writeUnlock_keeps _ _
  · exact State.writeApply_keeps _ _
  · exact Keeps.ite (fun _ => Keeps.refl s) (fun _ => State.writeSetupCmd_keeps _ _ _)
  · exact Keeps.ite (fun _ => Keeps.refl s) (fun _ => State.writeSecCmd_keeps _ _ _)
  · exact State.writeQCmd_keeps _ _
  · exact State.writeGroupCfg_keeps _ _
  · exact State.writeAux_keeps _ _
  · exact State.writeFabCtrl_keeps _ _
  · exact Keeps.ite (fun _ => Keeps.refl s) (fun _ => State.writeBuffered_keeps _ _ _ h)
  · exact Keeps.ite (fun _ => Keeps.refl s) (fun _ => State.writeBuffered_keeps _ _ _ h)
  · exact Keeps.ite (fun _ => Keeps.refl s) (fun _ => State.writeBuffered_keeps _ _ _ h)
  · exact Keeps.ite (fun _ => Keeps.refl s) (fun _ => State.writeBuffered_keeps _ _ _ h)
  · exact State.writeBuffered_keeps _ _ _ h

theorem State.writeAt_keeps (s x0 x1 x2) (h : ∀ r, regAt x0 = some r → s.confRefused r = false) : Keeps s (State.writeAt s x0 x1 x2) := by
  unfold State.writeAt
  split
  · exact State.writeReg_keeps _ _ _ _ (h _ ‹_›)
  · exact Keeps.refl s

theorem State.bootSvn_keeps (s x0 x1) : Keeps s (State.bootSvn s x0 x1) := by
  unfold State.bootSvn
  repeat' first
    | with_reducible exact Keeps.refl _
    | (with_reducible apply Keeps.ite) <;> intro _
    | with_reducible apply Keeps.of (State.raise_keeps _ _ _ _ _ _)
    | (fail_if_no_progress (with_reducible refine Keeps.lit ?_ rfl rfl rfl rfl rfl rfl rfl))

theorem State.trainChannels_keeps (s : State) (l : List Nat) (b : BootInput) : Keeps s (l.foldl (fun (st : State) ch =>
    if st.unavailable (unitChannel ch) && (st.channel ch).down then st else st.trainChannel ch (NMap.getD b.laneFails ch 0)) s) :=
  Keeps.foldl (fun _ _ => Keeps.ite (fun _ => Keeps.refl _) (fun _ => State.trainChannel_keeps _ _ _)) _ _

theorem State.pushEvents_keeps (s : State) (l : List EventRec) :
    Keeps s (l.foldl (fun (st : State) e => { st with events := st.events.push { e with step := 0xFFFFFFFFFFFF } }) s) :=
  Keeps.foldl (fun _ _ => State.pushEvent_keeps _ _) _ _

theorem State.clearHeld_keeps (s : State) : Keeps s { s with pwr.events := [] } :=
  Keeps.buffers (Keeps.refl s) (fun e => ⟨e.1, Nat.zero_le _⟩) rfl rfl rfl rfl rfl rfl rfl rfl

theorem State.powerOn_keeps (s x0) : Keeps s (State.powerOn s x0) := by
  unfold State.powerOn
  extract_lets s1
  have h1 : Keeps s s1 := State.trainChannels_keeps _ _ _
  have h2 := h1.trans (State.clearHeld_keeps s1)
  clear_value s1
  exact h2.trans (State.pushEvents_keeps _ _)

theorem State.releaseDies_keeps (s x0) : Keeps s (State.releaseDies s x0) := by
  unfold State.releaseDies
  extract_lets _ s1 s2 s3
  have h0 : Keeps s { s with sec.fw := fwMeasure x0.image } := Keeps.upd (Keeps.refl s) rfl rfl rfl rfl rfl rfl rfl rfl rfl rfl
  have h1 : Keeps s s1 := h0.trans (State.bootSvn_keeps _ _ _)
  have h2 : Keeps s s2 := Keeps.ite (fun _ => h1.trans (State.powerOn_keeps _ _)) (fun _ => h1)
  clear_value s2
  have h3 : Keeps s s3 := (h2.trans (Keeps.foldl (fun t k => State.replayPort_keeps t k) (List.range 12) s2)).trans (State.beginTraining_keeps _)
  clear_value s3
  exact Keeps.upd h3 rfl rfl rfl rfl rfl rfl rfl rfl rfl rfl

theorem State.enterRecovery_keeps (s x0) : Keeps s (State.enterRecovery s x0) :=
  Keeps.leave (Keeps.refl s) (by simp [State.enterRecovery]) rfl rfl rfl rfl rfl rfl rfl rfl

theorem State.keepFlash_keeps (s x0) : Keeps s (State.keepFlash s x0) :=
  Keeps.lit (Keeps.refl _) rfl rfl rfl rfl rfl rfl rfl

theorem State.bootIdentity_keeps (s x0) : Keeps s (State.bootIdentity s x0) := by
  unfold State.bootIdentity
  repeat' first
    | with_reducible exact Keeps.refl _
    | (with_reducible apply Keeps.ite) <;> intro _
    | with_reducible apply Keeps.of (State.raise_keeps _ _ _ _ _ _)
    | (fail_if_no_progress (with_reducible refine Keeps.lit ?_ rfl rfl rfl rfl rfl rfl rfl))

theorem State.bootFailed_keeps (s x0) : Keeps s (State.bootFailed s x0) :=
  Keeps.lit (Keeps.refl _) rfl rfl rfl rfl rfl rfl rfl

theorem State.bootRom_keeps (s x0) : Keeps s (State.bootRom s x0) := by
  unfold State.bootRom
  repeat' first
    | with_reducible exact Keeps.refl _
    | (with_reducible apply Keeps.ite) <;> intro _
    | with_reducible apply Keeps.of (State.releaseDies_keeps _ _)
    | with_reducible apply Keeps.of (State.enterRecovery_keeps _ _)
    | with_reducible apply Keeps.of (State.keepFlash_keeps _ _)
    | with_reducible apply Keeps.of (State.bootIdentity_keeps _ _)
    | with_reducible apply Keeps.of (State.bootFailed_keeps _ _)
    | (fail_if_no_progress (with_reducible refine Keeps.lit ?_ rfl rfl rfl rfl rfl rfl rfl))

theorem State.endPlanLoad_keeps (s x0) : Keeps s (State.endPlanLoad s x0) := by
  unfold State.endPlanLoad
  repeat' first
    | with_reducible exact Keeps.refl _
    | with_reducible apply Keeps.of (State.endOp_keeps _ _)
    | with_reducible apply Keeps.of (State.endCmd_keeps _ _)

theorem State.refusePlan_keeps (s x0 x1) : Keeps s (State.refusePlan s x0 x1) := by
  unfold State.refusePlan
  repeat' first
    | with_reducible exact Keeps.refl _
    | (with_reducible apply Keeps.ite) <;> intro _
    | with_reducible apply Keeps.of (State.raise_keeps _ _ _ _ _ _)
    | with_reducible apply Keeps.of (State.endPlanLoad_keeps _ _)

theorem State.loadImage_keeps (s x0 x1) : Keeps s (State.loadImage s x0 x1) := by
  unfold State.loadImage
  repeat' first
    | with_reducible exact Keeps.refl _
    | (with_reducible apply Keeps.ite) <;> intro _
    | with_reducible apply Keeps.of (State.installPlan_keeps _ _)
    | with_reducible apply Keeps.of (State.runAdmission_keeps _ _ _)
    | with_reducible apply Keeps.of (State.endPlanLoad_keeps _ _)
    | with_reducible apply Keeps.of (State.refusePlan_keeps _ _ _)

theorem State.fwFailed_keeps (s x0) : Keeps s (State.fwFailed s x0) := by
  unfold State.fwFailed
  repeat' first
    | with_reducible exact Keeps.refl _
    | with_reducible apply Keeps.of (State.raise_keeps _ _ _ _ _ _)
    | with_reducible apply Keeps.of (State.endCmd_keeps _ _)

theorem State.readPlanRest_keeps (s x0) : Keeps s (State.readPlanRest s x0) := by
  unfold State.readPlanRest
  repeat' first
    | with_reducible exact Keeps.refl _
    | (with_reducible apply Keeps.ite) <;> intro _
    | with_reducible apply Keeps.of (State.emit_keeps _ _)

theorem State.dieStartTimeout_keeps (s x0) : Keeps s (State.dieStartTimeout s x0) := by
  unfold State.dieStartTimeout
  repeat' first
    | with_reducible exact Keeps.refl _
    | (with_reducible apply Keeps.ite) <;> intro _
    | with_reducible apply Keeps.of (State.bootFailed_keeps _ _)

theorem State.dieStarted_keeps (s x0) : Keeps s (State.dieStarted s x0) := by
  unfold State.dieStarted
  repeat' first
    | with_reducible exact Keeps.refl _
    | (with_reducible apply Keeps.ite) <;> intro _
    | (fail_if_no_progress (with_reducible refine Keeps.lit ?_ rfl rfl rfl rfl rfl rfl rfl))

theorem State.flashWriteEnd_keeps (s) : Keeps s (State.flashWriteEnd s) := by
  unfold State.flashWriteEnd
  repeat' first
    | with_reducible exact Keeps.refl _
    | with_reducible apply Keeps.of (State.endCmd_keeps _ _)
    | (fail_if_no_progress (with_reducible refine Keeps.lit ?_ rfl rfl rfl rfl rfl rfl rfl))
    | split

theorem State.planImageRead_keeps (s x0 x1) : Keeps s (State.planImageRead s x0 x1) := by
  unfold State.planImageRead
  repeat' first
    | with_reducible exact Keeps.refl _
    | with_reducible apply Keeps.of (State.loadImage_keeps _ _ _)
    | with_reducible apply Keeps.of (State.failSetupRead_keeps _ _)
    | with_reducible apply Keeps.of (State.readPlanRest_keeps _ _)
    | split

theorem State.fwImageRead_keeps (s x0) : Keeps s (State.fwImageRead s x0) := by
  unfold State.fwImageRead
  repeat' first
    | with_reducible exact Keeps.refl _
    | (with_reducible apply Keeps.ite) <;> intro _
    | with_reducible apply Keeps.of (State.tileWrite_keeps _ _ _ _)
    | with_reducible apply Keeps.of (State.fwFailed_keeps _ _)
    | with_reducible apply Keeps.of (State.failSetupRead_keeps _ _)
    | (fail_if_no_progress (with_reducible refine Keeps.lit ?_ rfl rfl rfl rfl rfl rfl rfl))
    | split

end Sys2Proof.Machine
end

