-- ==== Sys2Proof/Laws/KeepsExec.lean ====
section
/-! SUPPORT. Every command that answers a next state keeps what the module keeps (Keeps): one lemma per command, in the order of
the table. -/

-- Checked one theorem at a time: the package as one text then needs less memory.
set_option Elab.async false

namespace Sys2Proof.Machine

theorem execLocalTick_keeps {x0 x1 s t} (h : execLocalTick x0 x1 s = .next t) : Keeps s t :=
  Keeps.next (State.localTick_keeps _ _ _) h

theorem execDecisionPoint_keeps {x0 s t} (h : execDecisionPoint x0 s = .next t) : Keeps s t :=
  Keeps.next ((State.timed_keeps _ _).trans (State.decisionPoint_keeps _)) h

theorem execDecisionMessage_keeps {x0 s t} (h : execDecisionMessage x0 s = .next t) : Keeps s t :=
  Keeps.next (State.decisionMessage_keeps _ _) h

theorem execTimeTransfer_keeps {x0 x1 s t} (h : execTimeTransfer x0 x1 s = .next t) : Keeps s t :=
  Keeps.next ((State.timed_keeps _ _).trans (State.timeTransfer_keeps _ _)) h

theorem execTickHoldover_keeps {x0 s t} (h : execTickHoldover x0 s = .next t) : Keeps s t :=
  Keeps.next ((State.timed_keeps _ _).trans (State.enterHoldover_keeps _)) h

theorem execTickLost_keeps {x0 s t} (h : execTickLost x0 s = .next t) : Keeps s t :=
  Keeps.next ((State.timed_keeps _ _).trans (State.loseTick_keeps _)) h

theorem execTickInEdge_keeps {x0 x1 s t} (h : execTickInEdge x0 x1 s = .next t) : Keeps s t :=
  Keeps.next (State.tickEdge_keeps _ _ _) h

theorem execDone_keeps {x0 s t} (h : execDone x0 s = .next t) : Keeps s t :=
  Keeps.next (State.takeDone_keeps _ _) h

theorem execExcessDeclaration_keeps {x0 x1 s t} (h : execExcessDeclaration x0 x1 s = .next t) : Keeps s t :=
  Keeps.next (State.takeExcess_keeps _ _ _) h

theorem execStart_keeps {x0 x1 s t} (h : execStart x0 x1 s = .next t) : Keeps s t :=
  Keeps.next (State.windowWrite_keeps _ _ _ _ _ _ _ (fun _ _ _ _ => State.writeSeqCtrl_keeps _ _ _) (fun _ _ _ _ => State.writeSeqCtrl_keeps _ _ _)) h

theorem execStop_keeps {x0 x1 s t} (h : execStop x0 x1 s = .next t) : Keeps s t :=
  Keeps.next (State.windowWrite_keeps _ _ _ _ _ _ _ (fun _ _ _ _ => State.writeSeqCtrl_keeps _ _ _) (fun _ _ _ _ => State.writeSeqCtrl_keeps _ _ _)) h

theorem execGatherPhaseStart_keeps {x0 s t} (h : execGatherPhaseStart x0 s = .next t) : Keeps s t :=
  Keeps.next ((State.timed_keeps _ _).trans (State.startGather_keeps _ _)) h

theorem execDenseForwardStart_keeps {x0 x1 s t} (h : execDenseForwardStart x0 x1 s = .next t) : Keeps s t :=
  Keeps.next ((State.timed_keeps _ _).trans (State.startForward_keeps _ _ _)) h

theorem execBackwardStart_keeps {x0 x1 s t} (h : execBackwardStart x0 x1 s = .next t) : Keeps s t :=
  Keeps.next ((State.timed_keeps _ _).trans (State.startBackward_keeps _ _ _)) h

theorem execGradientExchangeStart_keeps {x0 x1 s t} (h : execGradientExchangeStart x0 x1 s = .next t) : Keeps s t :=
  Keeps.next ((State.timed_keeps _ _).trans (State.startExchange_keeps _ _)) h

theorem execMergePhaseStart_keeps {x0 s t} (h : execMergePhaseStart x0 s = .next t) : Keeps s t :=
  Keeps.next ((State.timed_keeps _ _).trans (State.startMerge_keeps _ _)) h

theorem execPhase6End_keeps {x0 x1 s t} (h : execPhase6End x0 x1 s = .next t) : Keeps s t :=
  Keeps.next ((State.timed_keeps _ _).trans (State.endMerge_keeps _ _)) h

theorem execUpdateSweepStart_keeps {x0 s t} (h : execUpdateSweepStart x0 s = .next t) : Keeps s t :=
  Keeps.next ((State.timed_keeps _ _).trans (State.startSweep_keeps _ _)) h

theorem execSweepEnd_keeps {x0 s t} (h : execSweepEnd x0 s = .next t) : Keeps s t :=
  Keeps.next ((State.timed_keeps _ _).trans (State.endSweep_keeps _)) h

theorem execTailSlotEnd_keeps {x0 s t} (h : execTailSlotEnd x0 s = .next t) : Keeps s t :=
  Keeps.next ((State.timed_keeps _ _).trans (State.endSlot_keeps _)) h

theorem execStepRecord_keeps {x0 x1 s t} (h : execStepRecord x0 x1 s = .next t) : Keeps s t :=
  Keeps.next ((State.timed_keeps _ _).trans (State.writeRecord_keeps _ _)) h

theorem execTickPeriod_keeps {x0 x1 s t} (h : execTickPeriod x0 x1 s = .next t) : Keeps s t :=
  Keeps.next (State.windowWrite_keeps _ _ _ _ _ _ _ (fun _ _ _ _ => Keeps.refl _) (fun _ _ _ _ => State.writeTickPeriod_keeps _ _)) h

theorem execTickCtrl_keeps {x0 x1 s t} (h : execTickCtrl x0 x1 s = .next t) : Keeps s t :=
  Keeps.next (State.windowWrite_keeps _ _ _ _ _ _ _ (fun _ _ _ _ => State.writeTickCtrl_keeps _ _ _) (fun _ _ _ _ => State.writeTickCtrl_keeps _ _ _)) h

theorem execStepLoRead_keeps {x0 s t} (h : execStepLoRead x0 s = .next t) : Keeps s t := by
  refine Keeps.next (State.latchRead_keeps _ _ _ _ _ _ (fun u => ?_)) h
  exact Keeps.upd (Keeps.refl u) rfl rfl rfl rfl rfl rfl rfl rfl rfl rfl

theorem execEvtTailLoRead_keeps {x0 s t} (h : execEvtTailLoRead x0 s = .next t) : Keeps s t := by
  refine Keeps.next (State.latchRead_keeps _ _ _ _ _ _ (fun u => ?_)) h
  exact Keeps.upd (Keeps.refl u) rfl rfl rfl rfl rfl rfl rfl rfl rfl rfl

theorem execLifeStepsLoRead_keeps {x0 s t} (h : execLifeStepsLoRead x0 s = .next t) : Keeps s t := by
  refine Keeps.next (State.latchRead_keeps _ _ _ _ _ _ (fun u => ?_)) h
  exact Keeps.upd (Keeps.refl u) rfl rfl rfl rfl rfl rfl rfl rfl rfl rfl

theorem execGroupPoll_keeps {x0 s t} (h : execGroupPoll x0 s = .next t) : Keeps s t :=
  Keeps.next (State.pollGroup_keeps _ _) h

theorem execDescriptorFetched_keeps {x0 x1 x2 s t} (h : execDescriptorFetched x0 x1 x2 s = .next t) : Keeps s t :=
  Keeps.next (State.descriptorFetched_keeps _ _ _ _) h

theorem execLapReread_keeps {x0 s t} (h : execLapReread x0 s = .next t) : Keeps s t :=
  Keeps.next (State.lapReread_keeps _ _) h

theorem execHostReadCompletion_keeps {x0 x1 x2 s t} (h : execHostReadCompletion x0 x1 x2 s = .next t) : Keeps s t :=
  Keeps.next (State.bufferRead_keeps _ _ _ _) h

theorem execHostReadTimeout_keeps {x0 s t} (h : execHostReadTimeout x0 s = .next t) : Keeps s t :=
  Keeps.next (State.readTimeout_keeps _ _) h

theorem execTrainBatch_keeps {x0 s t} (h : execTrainBatch x0 s = .next t) : Keeps s t :=
  Keeps.next (State.takeBatch_keeps _ _) h

theorem execEvalBatch_keeps {x0 s t} (h : execEvalBatch x0 s = .next t) : Keeps s t :=
  Keeps.next (State.takeEval_keeps _ _) h

theorem execTableLoadDescriptor_keeps {x0 s t} (h : execTableLoadDescriptor x0 s = .next t) : Keeps s t :=
  Keeps.next (State.loadBlock_keeps _ _) h

theorem execTableLoadRecords_keeps {x0 x1 s t} (h : execTableLoadRecords x0 x1 s = .next t) : Keeps s t :=
  Keeps.next (State.loadRows_keeps _ _ _ _) h

theorem execTableLoadBinary32_keeps {x0 x1 s t} (h : execTableLoadBinary32 x0 x1 s = .next t) : Keeps s t :=
  Keeps.next (State.loadRows_keeps _ _ _ _) h

theorem execTableStaging_keeps {x0 s t} (h : execTableStaging x0 s = .next t) : Keeps s t :=
  Keeps.next (State.beginStaging_keeps _ _) h

theorem execStagingFillEnd_keeps {s t} (h : execStagingFillEnd s = .next t) : Keeps s t :=
  Keeps.next (State.endStaging_keeps _) h

theorem execTableSwap_keeps {x0 s t} (h : execTableSwap x0 s = .next t) : Keeps s t :=
  Keeps.next (State.takeSwap_keeps _ _) h

theorem execTableSwapDiscard_keeps {x0 s t} (h : execTableSwapDiscard x0 s = .next t) : Keeps s t :=
  Keeps.next (State.takeDiscard_keeps _ _) h

theorem execExportArm_keeps {x0 s t} (h : execExportArm x0 s = .next t) : Keeps s t :=
  Keeps.next (State.armExport_keeps _ _) h

theorem execExportArmStop_keeps {x0 s t} (h : execExportArmStop x0 s = .next t) : Keeps s t :=
  Keeps.next (State.stopExport_keeps _ _) h

theorem execFence_keeps {x0 s t} (h : execFence x0 s = .next t) : Keeps s t :=
  Keeps.next (State.takeFence_keeps _ _) h

theorem execFenceCompletion_keeps {x0 s t} (h : execFenceCompletion x0 s = .next t) : Keeps s t :=
  Keeps.next (State.endFence_keeps _ _) h

theorem execTelemetrySnapshot_keeps {x0 s t} (h : execTelemetrySnapshot x0 s = .next t) : Keeps s t :=
  Keeps.next (State.takeSnapshot_keeps _ _) h

theorem execNop_keeps {x0 s t} (h : execNop x0 s = .next t) : Keeps s t :=
  Keeps.next (State.takeNop_keeps _ _) h

theorem execCompletionRecord_keeps {x0 x1 s t} (h : execCompletionRecord x0 x1 s = .next t) : Keeps s t := by
  refine Keeps.next ?_ h
  repeat' first
    | with_reducible exact Keeps.refl _
    | with_reducible apply Keeps.of (State.complete_keeps _ _)
    | (fail_if_no_progress (with_reducible refine Keeps.lit ?_ rfl rfl rfl rfl rfl rfl rfl))

theorem execMsixHoldoffEnd_keeps {x0 s t} (h : execMsixHoldoffEnd x0 s = .next t) : Keeps s t :=
  Keeps.next (State.holdoffEnd_keeps _ _) h

theorem execTelemetryEntry_keeps {s t} (h : execTelemetryEntry s = .next t) : Keeps s t :=
  Keeps.next (State.writeTelemetry_keeps _) h

theorem execExportEntry_keeps {x0 s t} (h : execExportEntry x0 s = .next t) : Keeps s t :=
  Keeps.next (State.drainExport_keeps _ _) h

theorem execArm_keeps {x0 x1 s t} (h : execArm x0 x1 s = .next t) : Keeps s t :=
  Keeps.next (State.windowWrite_keeps _ _ _ _ _ _ _ (fun _ _ _ _ => Keeps.refl _) (fun _ _ _ _ => State.writeQCmd_keeps _ _)) h

theorem execDisarm_keeps {x0 x1 s t} (h : execDisarm x0 x1 s = .next t) : Keeps s t :=
  Keeps.next (State.windowWrite_keeps _ _ _ _ _ _ _ (fun _ _ _ _ => Keeps.refl _) (fun _ _ _ _ => State.writeQCmd_keeps _ _)) h

theorem execDisarmEnd_keeps {x0 s t} (h : execDisarmEnd x0 s = .next t) : Keeps s t :=
  Keeps.next (State.endDisarm_keeps _ _) h

theorem execGroupCfg_keeps {x0 x1 s t} (h : execGroupCfg x0 x1 s = .next t) : Keeps s t :=
  Keeps.next (State.windowWrite_keeps _ _ _ _ _ _ _ (fun _ _ _ _ => Keeps.refl _) (fun _ _ _ _ => State.writeGroupCfg_keeps _ _)) h

theorem execPortLinkDown_keeps {x0 x1 s t} (h : execPortLinkDown x0 x1 s = .next t) : Keeps s t :=
  Keeps.next (State.linkDown_keeps _ _ _) h

theorem execPortRetrain_keeps {x0 s t} (h : execPortRetrain x0 s = .next t) : Keeps s t :=
  Keeps.next (State.retrainPort_keeps _ _) h

theorem execLinkDownTimeout_keeps {x0 s t} (h : execLinkDownTimeout x0 s = .next t) : Keeps s t := by
  refine Keeps.next ?_ h
  repeat' first
    | with_reducible exact Keeps.refl _
    | (with_reducible apply Keeps.ite) <;> intro _
    | with_reducible apply Keeps.of (State.orphanPort_keeps _ _)

theorem execHostReset_keeps {x0 x1 s t} (h : execHostReset x0 x1 s = .next t) : Keeps s t :=
  Keeps.next (State.resetPort_keeps _ _) h

theorem execSurpriseRemoval_keeps {x0 s t} (h : execSurpriseRemoval x0 s = .next t) : Keeps s t :=
  Keeps.next ((State.resetPort_keeps _ _).trans (State.setPort_keeps _ _ _)) h

theorem execPortUp_keeps {x0 x1 x2 s t} (h : execPortUp x0 x1 x2 s = .next t) : Keeps s t :=
  Keeps.next (State.portUp_keeps _ _ _ _) h

theorem execUnsupportedRequest_keeps {x0 s t} (h : execUnsupportedRequest x0 s = .next t) : Keeps s t :=
  Keeps.next (Keeps.lit (Keeps.refl _) rfl rfl rfl rfl rfl rfl rfl) h

theorem execSeparate_keeps {x0 s t} (h : execSeparate x0 s = .next t) : Keeps s t := by
  unfold execSeparate at h
  split at h
  · exact Keeps.next (State.checkFault_keeps _ _) h
  · exact Keeps.next (Keeps.ite (fun _ => State.separateEval_keeps _) (fun _ => State.separateNext_keeps _)) h

theorem execAggregate_keeps {x0 s t} (h : execAggregate x0 s = .next t) : Keeps s t := by
  refine Keeps.next ?_ h
  repeat' first
    | with_reducible exact Keeps.refl _
    | (with_reducible apply Keeps.ite) <;> intro _
    | with_reducible apply Keeps.of (State.aggregateOwner_keeps _)
    | with_reducible apply Keeps.of (State.aggregateProxy_keeps _ _)

theorem execGatherRows_keeps {x0 s t} (h : execGatherRows x0 s = .next t) : Keeps s t :=
  Keeps.next (State.gatherRows_keeps _) h

theorem execPool_keeps {x0 x1 x2 s t} (h : execPool x0 x1 x2 s = .next t) : Keeps s t := by
  unfold execPool at h
  split at h
  · split at h
    · exact Keeps.nextIf (State.poolBag_keeps _ _ _ _ _) h
    · exact Keeps.next (State.poolBag_keeps _ _ _ _ _) h
  · exact Keeps.next (Keeps.refl _) h

theorem execRowCacheFill_keeps {x0 x1 x2 s t} (h : execRowCacheFill x0 x1 x2 s = .next t) : Keeps s t :=
  Keeps.next (State.fillCache_keeps _ _ _ _) h

theorem execMma_keeps {x0 x1 x2 s t} (h : execMma x0 x1 x2 s = .next t) : Keeps s t :=
  Keeps.nextIf ((State.mma_keeps _ _ _).trans (State.checked_keeps _ _)) h

theorem execJoin_keeps {x0 x1 s t} (h : execJoin x0 x1 s = .next t) : Keeps s t :=
  Keeps.nextIf (State.joinTile_keeps _ _ _) h

theorem execRead_keeps {x0 x1 s t} (h : execRead x0 x1 s = .next t) : Keeps s t :=
  Keeps.nextIf (State.readSlot_keeps _ _ _ _) h

theorem execStore_keeps {x0 x1 s t} (h : execStore x0 x1 s = .next t) : Keeps s t :=
  Keeps.nextIf (State.tileWrite_keeps _ _ _ _) h

theorem execClear_keeps {x0 x1 s t} (h : execClear x0 x1 s = .next t) : Keeps s t :=
  Keeps.next (Keeps.lit (Keeps.refl _) rfl rfl rfl rfl rfl rfl rfl) h

theorem execStatus_keeps {x0 x1 s t} (h : execStatus x0 x1 s = .next t) : Keeps s t :=
  Keeps.nextIf (State.tileWrite_keeps _ _ _ _) h

theorem execVectorOperation_keeps {x0 x1 x2 s t} (h : execVectorOperation x0 x1 x2 s = .next t) : Keeps s t := by
  unfold execVectorOperation at h
  split at h
  · cases h
  · exact Keeps.nextIf ((State.vector_keeps _ _ _).trans (State.checked_keeps _ _)) h

theorem execRowOperation_keeps {x0 x1 s t} (h : execRowOperation x0 x1 s = .next t) : Keeps s t :=
  Keeps.nextIf (State.rowOp_keeps _ _ _) h

theorem execAttend_keeps {x0 x1 s t} (h : execAttend x0 x1 s = .next t) : Keeps s t :=
  Keeps.nextIf (State.attend_keeps _ _ _) h

theorem execAttendBack_keeps {x0 x1 s t} (h : execAttendBack x0 x1 s = .next t) : Keeps s t :=
  Keeps.nextIf (State.attendBack_keeps _ _ _) h

theorem execSend_keeps {x0 x1 x2 s t} (h : execSend x0 x1 x2 s = .next t) : Keeps s t :=
  Keeps.next ((State.emit_keeps _ _).trans (State.sendControl_keeps _ _ _ _)) h

theorem execAllToAll_keeps {x0 s t} (h : execAllToAll x0 s = .next t) : Keeps s t :=
  Keeps.next (State.allToAll_keeps _ _) h

theorem execReduce_keeps {x0 x1 x2 x3 s t} (h : execReduce x0 x1 x2 x3 s = .next t) : Keeps s t :=
  Keeps.nextIf (State.reduceTile_keeps _ _ _ _ _) h

theorem execAllGather_keeps {x0 x1 x2 x3 s t} (h : execAllGather x0 x1 x2 x3 s = .next t) : Keeps s t :=
  Keeps.nextIf (State.gatherTile_keeps _ _ _ _ _) h

theorem execGather_keeps {x0 s t} (h : execGather x0 s = .next t) : Keeps s t := by
  unfold execGather at h
  split at h
  · cases h
  · split at h
    · cases h
    · exact Keeps.next (State.gatherShard_keeps _ _) h

theorem execRingPass_keeps {x0 x1 x2 x3 x4 x5 x6 s t} (h : execRingPass x0 x1 x2 x3 x4 x5 x6 s = .next t) : Keeps s t := by
  unfold execRingPass at h
  split at h
  · exact Keeps.next (Keeps.refl _) h
  · exact Keeps.nextIf (State.ringPass_keeps _ _ _ _ _ _ _ _) h

theorem execFirstRead_keeps {x0 x1 x2 s t} (h : execFirstRead x0 x1 x2 s = .next t) : Keeps s t :=
  Keeps.next (State.firstRead_keeps _ _ _ _) h

theorem execAdd_keeps {x0 x1 x2 x3 x4 s t} (h : execAdd x0 x1 x2 x3 x4 s = .next t) : Keeps s t :=
  Keeps.next (State.laneOp2_keeps _ _ _ _ _ _) h

theorem execSub_keeps {x0 x1 x2 x3 x4 s t} (h : execSub x0 x1 x2 x3 x4 s = .next t) : Keeps s t :=
  Keeps.next (State.laneOp2_keeps _ _ _ _ _ _) h

theorem execMul_keeps {x0 x1 x2 x3 x4 s t} (h : execMul x0 x1 x2 x3 x4 s = .next t) : Keeps s t :=
  Keeps.next (State.laneOp2_keeps _ _ _ _ _ _) h

theorem execFma_keeps {x0 x1 x2 x3 x4 x5 s t} (h : execFma x0 x1 x2 x3 x4 x5 s = .next t) : Keeps s t :=
  Keeps.next (State.laneOp3_keeps _ _ _ _ _ _ _) h

theorem execFms_keeps {x0 x1 x2 x3 x4 x5 s t} (h : execFms x0 x1 x2 x3 x4 x5 s = .next t) : Keeps s t :=
  Keeps.next (State.laneOp3_keeps _ _ _ _ _ _ _) h

theorem execRcp_keeps {x0 x1 x2 x3 s t} (h : execRcp x0 x1 x2 x3 s = .next t) : Keeps s t :=
  Keeps.next (State.laneOp1_keeps _ _ _ _ _) h

theorem execRsq_keeps {x0 x1 x2 x3 s t} (h : execRsq x0 x1 x2 x3 s = .next t) : Keeps s t :=
  Keeps.next (State.laneOp1_keeps _ _ _ _ _) h

theorem execMax_keeps {x0 x1 x2 x3 s t} (h : execMax x0 x1 x2 x3 s = .next t) : Keeps s t :=
  Keeps.next (State.laneOp2_keeps _ _ _ _ _ _) h

theorem execMin_keeps {x0 x1 x2 x3 s t} (h : execMin x0 x1 x2 x3 s = .next t) : Keeps s t :=
  Keeps.next (State.laneOp2_keeps _ _ _ _ _ _) h

theorem execNeg_keeps {x0 x1 x2 s t} (h : execNeg x0 x1 x2 s = .next t) : Keeps s t :=
  Keeps.next (State.laneOp1_keeps _ _ _ _ _) h

theorem execAbs_keeps {x0 x1 x2 s t} (h : execAbs x0 x1 x2 s = .next t) : Keeps s t :=
  Keeps.next (State.laneOp1_keeps _ _ _ _ _) h

theorem execMov_keeps {x0 x1 x2 s t} (h : execMov x0 x1 x2 s = .next t) : Keeps s t :=
  Keeps.next (State.laneOp1_keeps _ _ _ _ _) h

theorem execCeq_keeps {x0 x1 x2 x3 s t} (h : execCeq x0 x1 x2 x3 s = .next t) : Keeps s t :=
  Keeps.next (State.laneOp2_keeps _ _ _ _ _ _) h

theorem execClt_keeps {x0 x1 x2 x3 s t} (h : execClt x0 x1 x2 x3 s = .next t) : Keeps s t :=
  Keeps.next (State.laneOp2_keeps _ _ _ _ _ _) h

theorem execCle_keeps {x0 x1 x2 x3 s t} (h : execCle x0 x1 x2 x3 s = .next t) : Keeps s t :=
  Keeps.next (State.laneOp2_keeps _ _ _ _ _ _) h

theorem execCun_keeps {x0 x1 x2 x3 s t} (h : execCun x0 x1 x2 x3 s = .next t) : Keeps s t :=
  Keeps.next (State.laneOp2_keeps _ _ _ _ _ _) h

theorem execSel_keeps {x0 x1 x2 x3 x4 s t} (h : execSel x0 x1 x2 x3 x4 s = .next t) : Keeps s t :=
  Keeps.next (State.laneOp3_keeps _ _ _ _ _ _ _) h

theorem execLdc_keeps {x0 x1 x2 s t} (h : execLdc x0 x1 x2 s = .next t) : Keeps s t :=
  Keeps.next (Keeps.lit (Keeps.refl _) rfl rfl rfl rfl rfl rfl rfl) h

theorem execLdf_keeps {x0 x1 x2 x3 s t} (h : execLdf x0 x1 x2 x3 s = .next t) : Keeps s t :=
  Keeps.next (State.loadField_keeps _ _ _ _ _) h

theorem execStf_keeps {x0 x1 x2 x3 x4 s t} (h : execStf x0 x1 x2 x3 x4 s = .next t) : Keeps s t := by
  refine Keeps.next ?_ h
  repeat' first
    | with_reducible exact Keeps.refl _
    | (with_reducible apply Keeps.ite) <;> intro _
    | with_reducible apply Keeps.of (State.storeStage_keeps _ _ _ _)
    | with_reducible apply Keeps.of (State.storeRecord_keeps _ _ _ _ _ _)

theorem execLds_keeps {x0 x1 x2 s t} (h : execLds x0 x1 x2 s = .next t) : Keeps s t :=
  Keeps.next (Keeps.lit (Keeps.refl _) rfl rfl rfl rfl rfl rfl rfl) h

theorem execRed_keeps {x0 x1 x2 x3 x4 s t} (h : execRed x0 x1 x2 x3 x4 s = .next t) : Keeps s t :=
  Keeps.next (State.reduceLanes_keeps _ _ _ _ _ _) h

theorem execQprep_keeps {x0 x1 x2 s t} (h : execQprep x0 x1 x2 s = .next t) : Keeps s t :=
  Keeps.next (State.qprepare_keeps _ _ _ _) h

theorem execWacc_keeps {x0 x1 x2 s t} (h : execWacc x0 x1 x2 s = .next t) : Keeps s t :=
  Keeps.next (State.watchAccumulate_keeps _ _ _ _) h

theorem execWcopy_keeps {x0 s t} (h : execWcopy x0 s = .next t) : Keeps s t :=
  Keeps.next (Keeps.lit (Keeps.refl _) rfl rfl rfl rfl rfl rfl rfl) h

theorem execSect_keeps {x0 x1 x2 x3 x4 s t} (h : execSect x0 x1 x2 x3 x4 s = .next t) : Keeps s t :=
  Keeps.next (State.endSection_keeps _ _ _ _ _ _) h

theorem execChurnNop_keeps {x0 s t} (h : execChurnNop x0 s = .next t) : Keeps s t :=
  Keeps.next (Keeps.refl _) h

theorem execRecordWriteVerified_keeps {x0 x1 s t} (h : execRecordWriteVerified x0 x1 s = .next t) : Keeps s t :=
  Keeps.next (State.recordVerified_keeps _ _ _) h

theorem execSweepTakeover_keeps {x0 s t} (h : execSweepTakeover x0 s = .next t) : Keeps s t :=
  Keeps.next (State.takeover_keeps _ _) h

theorem execAppendDone_keeps {x0 x1 s t} (h : execAppendDone x0 x1 s = .next t) : Keeps s t :=
  Keeps.next (State.appendDone_keeps _ _ _) h

theorem execDigestCompare_keeps {x0 x1 x2 s t} (h : execDigestCompare x0 x1 x2 s = .next t) : Keeps s t :=
  Keeps.next (State.digestCompare_keeps _ _ _ _) h

theorem execDataFlit_keeps {x0 x1 s t} (h : execDataFlit x0 x1 s = .next t) : Keeps s t :=
  Keeps.next (State.numberedFlit_keeps _ _ _ _) h

theorem execControlFlit_keeps {x0 x1 s t} (h : execControlFlit x0 x1 s = .next t) : Keeps s t :=
  Keeps.next (State.numberedFlit_keeps _ _ _ _) h

theorem execTimeFlit_keeps {x0 x1 x2 s t} (h : execTimeFlit x0 x1 x2 s = .next t) : Keeps s t :=
  Keeps.next ((State.timed_keeps _ _).trans (State.timeFlit_keeps _ _ _)) h

theorem execRetryReq_keeps {x0 x1 s t} (h : execRetryReq x0 x1 s = .next t) : Keeps s t :=
  Keeps.next (State.retryReq_keeps _ _ _) h

theorem execLinkRetrain_keeps {x0 s t} (h : execLinkRetrain x0 s = .next t) : Keeps s t :=
  Keeps.next (State.linkRetrain_keeps _ _) h

theorem execPenRetrain_keeps {x0 x1 s t} (h : execPenRetrain x0 x1 s = .next t) : Keeps s t :=
  Keeps.next (State.penRetrain_keeps _ _ _) h

theorem execStitchRetransmit_keeps {x0 s t} (h : execStitchRetransmit x0 s = .next t) : Keeps s t := by
  refine Keeps.next ?_ h
  repeat' first
    | with_reducible exact Keeps.refl _
    | with_reducible apply Keeps.of (State.stitchRetransmit_keeps _ _)
    | split

theorem execTrain_keeps {x0 x1 s t} (h : execTrain x0 x1 s = .next t) : Keeps s t :=
  Keeps.next (State.windowWrite_keeps _ _ _ _ _ _ _ (fun _ _ _ _ => State.writeFabCtrl_keeps _ _) (fun _ _ _ _ => State.writeFabCtrl_keeps _ _)) h

theorem execIdent_keeps {x0 x1 x2 s t} (h : execIdent x0 x1 x2 s = .next t) : Keeps s t :=
  Keeps.next (State.ident_keeps _ _ _ _) h

theorem execDataPacket_keeps {x0 x1 x2 x3 s t} (h : execDataPacket x0 x1 x2 x3 s = .next t) : Keeps s t :=
  Keeps.next ((State.timed_keeps _ _).trans (State.dataPacket_keeps _ _ _ _)) h

theorem execXon_keeps {x0 x1 s t} (h : execXon x0 x1 s = .next t) : Keeps s t :=
  Keeps.next (State.xon_keeps _ _ _) h

theorem execAckPacket_keeps {x0 x1 x2 s t} (h : execAckPacket x0 x1 x2 s = .next t) : Keeps s t :=
  Keeps.next ((State.timed_keeps _ _).trans (State.ackPacket_keeps _ _ _)) h

theorem execNak_keeps {x0 x1 x2 s t} (h : execNak x0 x1 x2 s = .next t) : Keeps s t :=
  Keeps.next ((State.timed_keeps _ _).trans (State.nak_keeps _ _ _)) h

theorem execTimePacket_keeps {x0 x1 x2 s t} (h : execTimePacket x0 x1 x2 s = .next t) : Keeps s t :=
  Keeps.next ((State.timed_keeps _ _).trans (State.numberedPacket_keeps _ _ _ _ _ (fun _ _ _ => State.controlPart_keeps _ _ _ _ _ _))) h

theorem execControlPacket_keeps {x0 x1 x2 s t} (h : execControlPacket x0 x1 x2 s = .next t) : Keeps s t :=
  Keeps.next ((State.timed_keeps _ _).trans (State.numberedPacket_keeps _ _ _ _ _ (fun _ _ _ => State.controlPart_keeps _ _ _ _ _ _))) h

theorem execStandaloneAck_keeps {x0 x1 s t} (h : execStandaloneAck x0 x1 s = .next t) : Keeps s t :=
  Keeps.next (State.standaloneAck_keeps _ _ _) h

theorem execGapPersists_keeps {x0 x1 s t} (h : execGapPersists x0 x1 s = .next t) : Keeps s t :=
  Keeps.next (State.gapPersists_keeps _ _ _) h

theorem execRetransmission_keeps {x0 x1 x2 x3 s t} (h : execRetransmission x0 x1 x2 x3 s = .next t) : Keeps s t :=
  Keeps.next ((State.timed_keeps _ _).trans (State.retransmission_keeps _ _ _ _)) h

theorem execAckProgressTimeout_keeps {x0 x1 s t} (h : execAckProgressTimeout x0 x1 s = .next t) : Keeps s t :=
  Keeps.next (State.ackTimeout_keeps _ _ _) h

theorem execRateRecovery_keeps {x0 x1 s t} (h : execRateRecovery x0 x1 s = .next t) : Keeps s t :=
  Keeps.next (Keeps.lit (Keeps.refl _) rfl rfl rfl rfl rfl rfl rfl) h

theorem execPfcFrame_keeps {x0 x1 x2 x3 s t} (h : execPfcFrame x0 x1 x2 x3 s = .next t) : Keeps s t :=
  Keeps.next ((State.timed_keeps _ _).trans (State.pfcFrame_keeps _ _ _ _)) h

theorem execHerdPfcStorm_keeps {x0 x1 s t} (h : execHerdPfcStorm x0 x1 s = .next t) : Keeps s t :=
  Keeps.next (State.pfcStorm_keeps _ _ _) h

theorem execPauseFrame_keeps {x0 s t} (h : execPauseFrame x0 s = .next t) : Keeps s t :=
  Keeps.next (Keeps.lit (Keeps.refl _) rfl rfl rfl rfl rfl rfl rfl) h

theorem execHerdPortDown_keeps {x0 s t} (h : execHerdPortDown x0 s = .next t) : Keeps s t :=
  Keeps.next (State.portDown_keeps _ _) h

theorem execPcsLock_keeps {x0 s t} (h : execPcsLock x0 s = .next t) : Keeps s t :=
  Keeps.next (Keeps.lit (Keeps.refl _) rfl rfl rfl rfl rfl rfl rfl) h

theorem execJoinMessage_keeps {x0 x1 s t} (h : execJoinMessage x0 x1 s = .next t) : Keeps s t :=
  Keeps.next ((State.timed_keeps _ _).trans (State.joinMessage_keeps _ _)) h

theorem execMapDigest_keeps {x0 x1 s t} (h : execMapDigest x0 x1 s = .next t) : Keeps s t :=
  Keeps.next (State.mapDigest_keeps _ _ _) h

theorem execPeerAbsent_keeps {s t} (h : execPeerAbsent s = .next t) : Keeps s t :=
  Keeps.next (State.peerAbsent_keeps _) h

theorem execBlockRead_keeps {x0 x1 s t} (h : execBlockRead x0 x1 s = .next t) : Keeps s t := by
  unfold execBlockRead at h
  split at h
  · cases h
  · split at h
    · exact Keeps.next (State.stageBlock_keeps _ _ _) h
    · exact Keeps.next (Keeps.refl _) h

theorem execRecordWrite_keeps {x0 x1 x2 x3 s t} (h : execRecordWrite x0 x1 x2 x3 s = .next t) : Keeps s t := by
  unfold execRecordWrite at h
  split at h
  · cases h
  · exact Keeps.next (State.recordWrite_keeps _ _ _ _ _) h

theorem execStackWriteAck_keeps {x0 x1 x2 s t} (h : execStackWriteAck x0 x1 x2 s = .next t) : Keeps s t :=
  Keeps.next (State.writeAck_keeps _ _ _ _) h

theorem execRegulatedIssue_keeps {x0 x1 x2 s t} (h : execRegulatedIssue x0 x1 x2 s = .next t) : Keeps s t :=
  Keeps.next (State.regulatedIssue_keeps _ _ _ _) h

theorem execRetrainRequest_keeps {x0 x1 x2 s t} (h : execRetrainRequest x0 x1 x2 s = .next t) : Keeps s t :=
  Keeps.next (State.retrainRequest_keeps _ _ _ _) h

theorem execRetrainOverdue_keeps {x0 s t} (h : execRetrainOverdue x0 s = .next t) : Keeps s t :=
  Keeps.next (State.retrainOverdue_keeps _ _) h

theorem execRetrainDone_keeps {x0 x1 x2 s t} (h : execRetrainDone x0 x1 x2 s = .next t) : Keeps s t :=
  Keeps.next (State.retrainDone_keeps _ _ _ _) h

theorem execRetrainNow_keeps {x0 x1 s t} (h : execRetrainNow x0 x1 s = .next t) : Keeps s t :=
  Keeps.next (State.windowWrite_keeps _ _ _ _ _ _ _ (fun _ _ _ _ => State.writeMemCtrl_keeps _ _ _) (fun _ _ _ _ => State.writeMemCtrl_keeps _ _ _)) h

theorem execStackTempSample_keeps {x0 x1 s t} (h : execStackTempSample x0 x1 s = .next t) : Keeps s t :=
  Keeps.next (State.stackTemp_keeps _ _ _) h

theorem execRegRate_keeps {x0 x1 x2 x3 s t} (h : execRegRate x0 x1 x2 x3 s = .next t) : Keeps s t :=
  Keeps.next (State.windowWrite_keeps _ _ _ _ _ _ _ (fun _ _ _ _ => Keeps.refl _) (fun _ _ _ _ => State.writeRegulator_keeps _ _ _ _)) h

theorem execWitnessReq_keeps {x0 x1 s t} (h : execWitnessReq x0 x1 s = .next t) : Keeps s t :=
  Keeps.next (State.witnessReq_keeps _ _ _) h

theorem execWitnessWork_keeps {x0 x1 s t} (h : execWitnessWork x0 x1 s = .next t) : Keeps s t :=
  Keeps.next (State.witnessWork_keeps _ _ _) h

theorem execWitnessResult_keeps {x0 x1 s t} (h : execWitnessResult x0 x1 s = .next t) : Keeps s t :=
  Keeps.next (State.witnessResult_keeps _ _ _) h

theorem execResend_keeps {x0 x1 x2 s t} (h : execResend x0 x1 x2 s = .next t) : Keeps s t :=
  Keeps.next (State.resend_keeps _ _ _ _) h

theorem execLifetimeCountWrite_keeps {s t} (h : execLifetimeCountWrite s = .next t) : Keeps s t := by
  refine Keeps.next ?_ h
  repeat' first
    | with_reducible exact Keeps.refl _
    | (fail_if_no_progress (with_reducible refine Keeps.lit ?_ rfl rfl rfl rfl rfl rfl rfl))

theorem execTrWatchdog_keeps {s t} (h : execTrWatchdog s = .next t) : Keeps s t := by
  refine Keeps.next ?_ h
  repeat' first
    | with_reducible exact Keeps.refl _
    | with_reducible apply Keeps.of (State.raiseHalt_keeps _ _ _ _ _)
    | (fail_if_no_progress (with_reducible refine Keeps.lit ?_ rfl rfl rfl rfl rfl rfl rfl))

theorem execCerts_keeps {x0 x1 s t} (h : execCerts x0 x1 s = .next t) : Keeps s t :=
  Keeps.next (State.secCommand_keeps _ _ _ _) h

theorem execReport_keeps {x0 x1 s t} (h : execReport x0 x1 s = .next t) : Keeps s t :=
  Keeps.next (State.secCommand_keeps _ _ _ _) h

theorem execReportKem_keeps {x0 x1 s t} (h : execReportKem x0 x1 s = .next t) : Keeps s t :=
  Keeps.next (State.secCommand_keeps _ _ _ _) h

theorem execKeyLoad_keeps {x0 x1 x2 s t} (h : execKeyLoad x0 x1 x2 s = .next t) : Keeps s t :=
  Keeps.next (State.secCommand_keeps _ _ _ _) h

theorem execExit_keeps {x0 x1 s t} (h : execExit x0 x1 s = .next t) : Keeps s t :=
  Keeps.next (State.secCommand_keeps _ _ _ _) h

theorem execBypass_keeps {s t} (h : execBypass s = .next t) : Keeps s t := Keeps.next (State.setJtag_keeps _ _ (fun _ => by simp)) h

theorem execIdcode_keeps {s t} (h : execIdcode s = .next t) : Keeps s t := Keeps.next (State.setJtag_keeps _ _ (fun _ => by simp)) h

theorem execSamplePreload_keeps {s t} (h : execSamplePreload s = .next t) : Keeps s t := Keeps.next (State.setJtag_keeps _ _ (fun _ => by simp)) h

theorem execExtest_keeps {s t} (h : execExtest s = .next t) : Keeps s t := Keeps.next (State.setJtag_keeps _ _ (fun _ => by simp)) h

theorem execDebug_keeps {s t} (h : execDebug s = .next t) : Keeps s t := by
  refine Keeps.next (State.setJtag_keeps _ _ (fun m => ?_)) h
  simp [State.confidential, m]

theorem execAuxPowerUp_keeps {s t} (h : execAuxPowerUp s = .next t) : Keeps s t := by
  refine Keeps.next ?_ h
  repeat' first
    | with_reducible exact Keeps.refl _
    | with_reducible apply Keeps.of (State.powerWait_keeps _)
    | (fail_if_no_progress (with_reducible refine Keeps.lit ?_ rfl rfl rfl rfl rfl rfl rfl))

theorem execModuleInsertion_keeps {s t} (h : execModuleInsertion s = .next t) : Keeps s t := by
  refine Keeps.next ?_ h
  repeat' first
    | with_reducible exact Keeps.refl _
    | with_reducible apply Keeps.of (State.powerWait_keeps _)
    | (fail_if_no_progress (with_reducible refine Keeps.lit ?_ rfl rfl rfl rfl rfl rfl rfl))

theorem execModuleExtraction_keeps {s t} (h : execModuleExtraction s = .next t) : Keeps s t := by
  refine Keeps.next ?_ h
  repeat' first
    | with_reducible exact Keeps.refl _
    | (with_reducible apply Keeps.ite) <;> intro _
    | with_reducible apply Keeps.of (State.saddleLost_keeps _)
    | (fail_if_no_progress (with_reducible refine Keeps.lit ?_ rfl rfl rfl rfl rfl rfl rfl))

theorem execPwrEnRise_keeps {x0 s t} (h : execPwrEnRise x0 s = .next t) : Keeps s t :=
  Keeps.next ((State.timed_keeps _ _).trans (State.pwrEnRise_keeps _)) h

theorem execPowering_keeps {x0 s t} (h : execPowering x0 s = .next t) : Keeps s t :=
  Keeps.next ((State.timed_keeps _ _).trans (State.powering_keeps _)) h

theorem execBulkCharged_keeps {s t} (h : execBulkCharged s = .next t) : Keeps s t := by
  refine Keeps.next ?_ h
  repeat' first
    | with_reducible exact Keeps.refl _
    | (with_reducible apply Keeps.ite) <;> intro _
    | (fail_if_no_progress (with_reducible refine Keeps.lit ?_ rfl rfl rfl rfl rfl rfl rfl))

theorem execPwrgd_keeps {s t} (h : execPwrgd s = .next t) : Keeps s t := by
  refine Keeps.next ?_ h
  repeat' first
    | with_reducible exact Keeps.refl _
    | (with_reducible apply Keeps.ite) <;> intro _
    | (fail_if_no_progress (with_reducible refine Keeps.lit ?_ rfl rfl rfl rfl rfl rfl rfl))

theorem execRailRegulationTimeout_keeps {s t} (h : execRailRegulationTimeout s = .next t) : Keeps s t := by
  refine Keeps.next ?_ h
  repeat' first
    | with_reducible assumption
    | with_reducible exact Keeps.refl _
    | (with_reducible apply Keeps.ite) <;> intro _
    | with_reducible apply Keeps.of (State.saddleLost_keeps _)
    | (extract_lets +onlyGivenNames x; clear_value (hq : x = _); with_reducible refine Keeps.gen hq ?_ fun hx => ?_ <;> clear hq)
    | (fail_if_no_progress (with_reducible refine Keeps.lit ?_ rfl rfl rfl rfl rfl rfl rfl))

theorem execPwrEnFall_keeps {x0 s t} (h : execPwrEnFall x0 s = .next t) : Keeps s t := by
  refine Keeps.next ?_ h
  repeat' first
    | with_reducible assumption
    | with_reducible exact Keeps.refl _
    | with_reducible apply Keeps.of (State.enterStopping_keeps _)
    | with_reducible apply Keeps.of (State.timed_keeps _ _)
    | (extract_lets +onlyGivenNames x; clear_value (hq : x = _); with_reducible refine Keeps.gen hq ?_ fun hx => ?_ <;> clear hq)
    | (fail_if_no_progress (with_reducible refine Keeps.lit ?_ rfl rfl rfl rfl rfl rfl rfl))

theorem execRailsOff_keeps {x0 x1 s t} (h : execRailsOff x0 x1 s = .next t) : Keeps s t :=
  Keeps.next (State.railsOff_keeps _ _ _) h

theorem execTripWaitEnd_keeps {s t} (h : execTripWaitEnd s = .next t) : Keeps s t := by
  refine Keeps.next ?_ h
  repeat' first
    | with_reducible exact Keeps.refl _
    | (with_reducible apply Keeps.ite) <;> intro _
    | with_reducible apply Keeps.of (State.powerWait_keeps _)
    | with_reducible apply Keeps.of (State.leaveLockout_keeps _)
    | (fail_if_no_progress (with_reducible refine Keeps.lit ?_ rfl rfl rfl rfl rfl rfl rfl))

theorem execVinUv_keeps {s t} (h : execVinUv s = .next t) : Keeps s t := by
  refine Keeps.next ?_ h
  repeat' first
    | with_reducible exact Keeps.refl _
    | with_reducible apply Keeps.of (State.lockOut_keeps _ _)
    | (fail_if_no_progress (with_reducible refine Keeps.lit ?_ rfl rfl rfl rfl rfl rfl rfl))

theorem execVinOv_keeps {s t} (h : execVinOv s = .next t) : Keeps s t := by
  refine Keeps.next ?_ h
  repeat' first
    | with_reducible exact Keeps.refl _
    | with_reducible apply Keeps.of (State.lockOut_keeps _ _)
    | (fail_if_no_progress (with_reducible refine Keeps.lit ?_ rfl rfl rfl rfl rfl rfl rfl))

theorem execVinLow_keeps {x0 s t} (h : execVinLow x0 s = .next t) : Keeps s t :=
  Keeps.next (State.vinOut_keeps _ _ _) h

theorem execVinHigh_keeps {x0 s t} (h : execVinHigh x0 s = .next t) : Keeps s t :=
  Keeps.next (State.vinOut_keeps _ _ _) h

theorem execVinRated_keeps {x0 s t} (h : execVinRated x0 s = .next t) : Keeps s t := by
  refine Keeps.next ?_ h
  repeat' first
    | with_reducible exact Keeps.refl _
    | (fail_if_no_progress (with_reducible refine Keeps.lit ?_ rfl rfl rfl rfl rfl rfl rfl))

theorem execPwrOcp_keeps {s t} (h : execPwrOcp s = .next t) : Keeps s t :=
  Keeps.next (State.lockOut_keeps _ _) h

theorem execClampStep_keeps {x0 s t} (h : execClampStep x0 s = .next t) : Keeps s t :=
  Keeps.next (State.clampStep_keeps _) h

theorem execBudgetClamp_keeps {s t} (h : execBudgetClamp s = .next t) : Keeps s t := by
  refine Keeps.next ?_ h
  repeat' first
    | with_reducible exact Keeps.refl _
    | with_reducible apply Keeps.of (State.clampActs_keeps _)
    | (fail_if_no_progress (with_reducible refine Keeps.lit ?_ rfl rfl rfl rfl rfl rfl rfl))

theorem execSpecVoid_keeps {s t} (h : execSpecVoid s = .next t) : Keeps s t :=
  Keeps.next (State.voidPromise_keeps _ _) h

theorem execJunctionSensorRead_keeps {x0 x1 s t} (h : execJunctionSensorRead x0 x1 s = .next t) : Keeps s t := by
  refine Keeps.next ?_ h
  repeat' first
    | with_reducible exact Keeps.refl _
    | (fail_if_no_progress (with_reducible refine Keeps.lit ?_ rfl rfl rfl rfl rfl rfl rfl))

theorem execThermTrip_keeps {s t} (h : execThermTrip s = .next t) : Keeps s t := by
  refine Keeps.next ?_ h
  repeat' first
    | with_reducible assumption
    | with_reducible exact Keeps.refl _
    | with_reducible apply Keeps.of (State.lockOut_keeps _ _)
    | (extract_lets +onlyGivenNames x; clear_value (hq : x = _); with_reducible refine Keeps.gen hq ?_ fun hx => ?_ <;> clear hq)
    | (fail_if_no_progress (with_reducible refine Keeps.lit ?_ rfl rfl rfl rfl rfl rfl rfl))

theorem execCoolSpec_keeps {x0 x1 x2 s t} (h : execCoolSpec x0 x1 x2 s = .next t) : Keeps s t :=
  Keeps.next (State.coolSpec_keeps _ _ _ _) h

theorem execCoolOk_keeps {x0 x1 s t} (h : execCoolOk x0 x1 s = .next t) : Keeps s t := by
  refine Keeps.next ?_ h
  repeat' first
    | with_reducible exact Keeps.refl _
    | (with_reducible apply Keeps.ite) <;> intro _
    | with_reducible apply Keeps.of (State.powerEvent_keeps _ _ _)
    | (fail_if_no_progress (with_reducible refine Keeps.lit ?_ rfl rfl rfl rfl rfl rfl rfl))

theorem execCoolLost_keeps {s t} (h : execCoolLost s = .next t) : Keeps s t := by
  refine Keeps.next ?_ h
  repeat' first
    | with_reducible exact Keeps.refl _
    | (with_reducible apply Keeps.ite) <;> intro _
    | with_reducible apply Keeps.of (State.lockOut_keeps _ _)

theorem execWearHour_keeps {x0 s t} (h : execWearHour x0 s = .next t) : Keeps s t := by
  refine Keeps.next ?_ h
  repeat' first
    | with_reducible exact Keeps.refl _
    | (with_reducible apply Keeps.ite) <;> intro _
    | with_reducible apply Keeps.of (State.hotHours_keeps _ _)
    | (fail_if_no_progress (with_reducible refine Keeps.lit ?_ rfl rfl rfl rfl rfl rfl rfl))

theorem execAuxCfg_keeps {x0 x1 s t} (h : execAuxCfg x0 x1 s = .next t) : Keeps s t :=
  Keeps.next (State.windowWrite_keeps _ _ _ _ _ _ _ (fun _ _ _ _ => Keeps.refl _) (fun _ _ _ _ => State.writeAux_keeps _ _)) h

theorem execGetStatus_keeps {s t} (h : execGetStatus s = .next t) : Keeps s t :=
  Keeps.next (Keeps.lit (Keeps.refl _) rfl rfl rfl rfl rfl rfl rfl) h

theorem execSetEnable_keeps {x0 s t} (h : execSetEnable x0 s = .next t) : Keeps s t := by
  refine Keeps.next ?_ h
  repeat' first
    | with_reducible exact Keeps.refl _
    | (with_reducible apply Keeps.ite) <;> intro _
    | with_reducible apply Keeps.of (State.powerWait_keeps _)
    | with_reducible apply Keeps.of (State.enterStopping_keeps _)
    | (fail_if_no_progress (with_reducible refine Keeps.lit ?_ rfl rfl rfl rfl rfl rfl rfl))

theorem execPowerCycle_keeps {s t} (h : execPowerCycle s = .next t) : Keeps s t :=
  Keeps.next (State.powerCycle_keeps _) h

theorem execGetEvents_keeps {s t} (h : execGetEvents s = .next t) : Keeps s t :=
  Keeps.next (Keeps.lit (Keeps.refl _) rfl rfl rfl rfl rfl rfl rfl) h

theorem execMctpControlMessage_keeps {x0 s t} (h : execMctpControlMessage x0 s = .next t) : Keeps s t :=
  Keeps.next (Keeps.lit (Keeps.refl _) rfl rfl rfl rfl rfl rfl rfl) h

theorem execSetdasa_keeps {x0 s t} (h : execSetdasa x0 s = .next t) : Keeps s t := by
  refine Keeps.next ?_ h
  repeat' first
    | with_reducible exact Keeps.refl _
    | (fail_if_no_progress (with_reducible refine Keeps.lit ?_ rfl rfl rfl rfl rfl rfl rfl))

theorem execEntdaa_keeps {x0 s t} (h : execEntdaa x0 s = .next t) : Keeps s t := by
  refine Keeps.next ?_ h
  repeat' first
    | with_reducible exact Keeps.refl _
    | (fail_if_no_progress (with_reducible refine Keeps.lit ?_ rfl rfl rfl rfl rfl rfl rfl))

theorem execSetupUnlock_keeps {x0 x1 s t} (h : execSetupUnlock x0 x1 s = .next t) : Keeps s t :=
  Keeps.next (State.windowWrite_keeps _ _ _ _ _ _ _ (fun _ _ _ _ => Keeps.refl _) (fun _ _ _ _ => State.writeUnlock_keeps _ _)) h

theorem execApply_keeps {x0 x1 s t} (h : execApply x0 x1 s = .next t) : Keeps s t :=
  Keeps.next (State.windowWrite_keeps _ _ _ _ _ _ _ (fun _ _ _ _ => Keeps.refl _) (fun _ _ _ _ => State.writeApply_keeps _ _)) h

theorem execDiscard_keeps {x0 x1 s t} (h : execDiscard x0 x1 s = .next t) : Keeps s t :=
  Keeps.next (State.windowWrite_keeps _ _ _ _ _ _ _ (fun _ _ _ _ => Keeps.refl _) (fun _ _ _ _ => State.writeApply_keeps _ _)) h

theorem execPlanLoad_keeps {x0 x1 s t} (h : execPlanLoad x0 x1 s = .next t) : Keeps s t :=
  Keeps.next (State.setupCommand_keeps _ _ _ _) h

theorem execPlanImageRead_keeps {x0 x1 s t} (h : execPlanImageRead x0 x1 s = .next t) : Keeps s t :=
  Keeps.next (State.planImageRead_keeps _ _ _) h

theorem execFwUpdate_keeps {x0 x1 s t} (h : execFwUpdate x0 x1 s = .next t) : Keeps s t :=
  Keeps.next (State.setupCommand_keeps _ _ _ _) h

theorem execFlashWriteEnd_keeps {s t} (h : execFlashWriteEnd s = .next t) : Keeps s t :=
  Keeps.next (State.flashWriteEnd_keeps _) h

theorem execErase_keeps {x0 x1 s t} (h : execErase x0 x1 s = .next t) : Keeps s t :=
  Keeps.next (State.setupCommand_keeps _ _ _ _) h

theorem execEraseEnd_keeps {s t} (h : execEraseEnd s = .next t) : Keeps s t :=
  Keeps.next (State.eraseEnd_keeps _) h

theorem execModuleReset_keeps {x0 x1 s t} (h : execModuleReset x0 x1 s = .next t) : Keeps s t :=
  Keeps.next (State.setupCommand_keeps _ _ _ _) h

theorem execRecover_keeps {x0 x1 x2 s t} (h : execRecover x0 x1 x2 s = .next t) : Keeps s t :=
  Keeps.next (State.setupCommand_keeps _ _ _ _) h

theorem execBoot_keeps {x0 s t} (h : execBoot x0 s = .next t) : Keeps s t :=
  Keeps.next (State.bootRom_keeps _ _) h

theorem execDieStarted_keeps {x0 s t} (h : execDieStarted x0 s = .next t) : Keeps s t :=
  Keeps.next (State.dieStarted_keeps _ _) h

theorem execDieStartTimeout_keeps {x0 s t} (h : execDieStartTimeout x0 s = .next t) : Keeps s t :=
  Keeps.next (State.dieStartTimeout_keeps _ _) h

theorem execRegisterWrite_keeps {x0 x1 x2 x3 s t} (h : execRegisterWrite x0 x1 x2 x3 s = .next t) : Keeps s t :=
  Keeps.next (State.windowWrite_keeps _ _ _ _ _ _ _
    (fun _ _ hr hc => State.writeAt_keeps _ _ _ _ (fun _ k => by rw [hr] at k; cases k; exact hc))
    (fun _ _ hr hc => State.writeAt_keeps _ _ _ _ (fun _ k => by rw [hr] at k; cases k; exact hc))) h

theorem execDoorbellReadCompletion_keeps {x0 x1 x2 s t} (h : execDoorbellReadCompletion x0 x1 x2 s = .next t) : Keeps s t :=
  Keeps.next (State.doorbellRead_keeps _ _ _ _ _) h

theorem execIdleFlit_keeps {x0 x1 s t} (h : execIdleFlit x0 x1 s = .next t) : Keeps s t :=
  Keeps.next (State.idleFlit_keeps _ _ _) h

theorem execPenTrainingEnd_keeps {x0 s t} (h : execPenTrainingEnd x0 s = .next t) : Keeps s t :=
  Keeps.next (State.endTraining_keeps _ _) h

theorem execReceivedFrameDiscarded_keeps {x0 x1 s t} (h : execReceivedFrameDiscarded x0 x1 s = .next t) : Keeps s t :=
  Keeps.next (State.dropFrame_keeps _ _ _) h

theorem execPfcPauseExpiry_keeps {x0 x1 s t} (h : execPfcPauseExpiry x0 x1 s = .next t) : Keeps s t :=
  Keeps.next (State.resume_keeps _ _ _) h

theorem execFwImageRead_keeps {x0 s t} (h : execFwImageRead x0 s = .next t) : Keeps s t :=
  Keeps.next (State.fwImageRead_keeps _ _) h

end Sys2Proof.Machine
end

