-- ==== Sys2Proof/Laws/Only.lean ====
section
/-! SUPPORT. The parts of the state that an operation may change (Only): the laws that put operations together. -/

-- Checked one theorem at a time: the package as one text then needs less memory.
set_option Elab.async false

namespace Sys2Proof.Machine

/-- A part is the same in one state. -/
theorem Part.same_refl (p : Part) (s : State) : p.same s s := by cases p <;> simp [Part.same]

/-- Sameness of a part goes on. -/
theorem Part.same_trans {p : Part} {s t u : State} (h : p.same s t) (k : p.same t u) : p.same s u := by
  cases p
  case clk => simp only [Part.same] at *; rw [k, h]
  case emb => simp only [Part.same] at *; rw [k, h]
  case sec => simp only [Part.same] at *; rw [k, h]
  case pwr => simp only [Part.same] at *; rw [k, h]
  case msgs => simp only [Part.same] at *; rw [k, h]
  all_goals
    simp only [Part.same] at *
    simp_all

/-- Nothing differs in one state. -/
theorem Only.refl {m : List Part} (s : State) : Only m s s := ⟨rfl, fun p => .inr (p.same_refl s)⟩

/-- What two operations change, one after the other. -/
theorem Only.trans {m : List Part} {s t u : State} (h : Only m s t) (k : Only m t u) : Only m s u :=
  ⟨k.1.trans h.1, fun p => (h.2 p).elim .inl fun a => (k.2 p).elim .inl fun b => .inr (Part.same_trans a b)⟩

/-- More parts may be named. -/
theorem Only.mono {m n : List Part} {s t : State} (h : Only m s t) (k : m.all n.contains = true) : Only n s t :=
  ⟨h.1, fun p => (h.2 p).imp (fun a => by simpa using List.all_eq_true.mp k p a) id⟩

/-- A conditional operation. -/
theorem Only.ite {m : List Part} {s a b : State} {c : Prop} [Decidable c] (h : c → Only m s a) (k : ¬c → Only m s b) :
    Only m s (if c then a else b) := by
  split
  · exact h ‹_›
  · exact k ‹_›

/-- An operation for each of a list. -/
theorem Only.foldl {m : List Part} {α : Type} {f : State → α → State} (h : ∀ t x, Only m t (f t x)) (l : List α) (s : State) :
    Only m s (l.foldl f s) := by
  induction l generalizing s with
  | nil => exact refl s
  | cons x r ih => exact (h s x).trans (ih _)

/-- The same for operations that answer a state with a value. -/
theorem Only.foldl_fst {m : List Part} {α β : Type} {f : State × β → α → State × β} (h : ∀ p x, Only m p.1 (f p x).1) (l : List α)
    (p : State × β) : Only m p.1 (l.foldl f p).1 := by
  induction l generalizing p with
  | nil => exact refl p.1
  | cons x r ih => exact (h p x).trans (ih _)

/-- An operation for each of a list, after what came before it. -/
theorem Only.thenFold {m : List Part} {α : Type} {f : State → α → State} {l : List α} {s a : State} (h : Only m s a)
    (k : ∀ t x, Only m t (f t x)) : Only m s (l.foldl f a) :=
  h.trans (Only.foldl k l a)

/-- The same for operations that answer a state with a value. -/
theorem Only.thenFold_fst {m : List Part} {α β : Type} {f : State × β → α → State × β} {l : List α} {s : State} {p : State × β}
    (h : Only m s p.1) (k : ∀ p x, Only m p.1 (f p x).1) : Only m s (l.foldl f p).1 :=
  h.trans (Only.foldl_fst k l p)

/-- A state written out. -/
theorem Only.lit {m : List Part} {s a : State}
    {fresh out active pend setup win boot clk seq plan host mem emb acc churns hist attn lines watch fab events rel sec pwr} (h : Only m s a)
    (k : ∀ p, p ∈ m ∨ Part.same p a ⟨a.pending, fresh, out, active, pend, setup, win, boot, clk, seq, plan, host, mem, emb, acc, churns, hist, attn, lines, watch, fab, events, rel, sec, pwr⟩) :
    Only m s ⟨a.pending, fresh, out, active, pend, setup, win, boot, clk, seq, plan, host, mem, emb, acc, churns, hist, attn, lines, watch, fab, events, rel, sec, pwr⟩ :=
  h.trans ⟨rfl, k⟩

/-- What an operation changes, after what came before it. -/
theorem Only.of {m n : List Part} {s a b : State} (k : Only m a b) (l : m.all n.contains = true) (h : Only n s a) : Only n s b := h.trans (k.mono l)

/-- A named state that occurs further on. -/
theorem Only.gen {m : List Part} {s x v t : State} (h : x = v) (k : Only m s v) (f : Only m s x → Only m s t) : Only m s t := f (h ▸ k)

/-- The same for a state that an operation answers with a value. -/
theorem Only.gen1 {m : List Part} {β : Type} {s t : State} {x v : State × β} (h : x = v) (k : Only m s v.1)
    (f : Only m s x.1 → Only m s t) : Only m s t := f (h ▸ k)

/-- The state of a pair. -/
theorem Only.of_fst {m : List Part} {β : Type} {s a : State} {b : β} {p : State × β} (h : p = (a, b)) (k : Only m s p.1) : Only m s a := by
  subst h; exact k

/-- Named parts among named parts. -/
theorem Part.sub_trans {a b c : List Part} (h : a.all b.contains = true) (k : b.all c.contains = true) : a.all c.contains = true := by
  simp only [List.all_eq_true, List.contains_iff_mem] at *
  exact fun p hp => k p (h p hp)

end Sys2Proof.Machine
end

