-- ==== Sys2Proof/Laws/OnlyOps.lean ====
section
/-! SUPPORT. The parts of the state that each operation of links, the shared operations, memory, replay and the stages
may change (Only): one lemma per operation, cited instead of its text. -/

-- Checked one theorem at a time: the package as one text then needs less memory.
set_option Elab.async false

namespace Sys2Proof.Machine

/-! ## Links -/

theorem State.setConn_only (s x0 x1 x2) : Only [.conns] s (State.setConn s x0 x1 x2) := by
  refine Only.lit (Only.refl _) ?_
  intro p; cases p <;> first | exact .inl (by decide) | exact .inr (by (repeat' apply And.intro) <;> rfl)

theorem State.countControl_only (s x0) : Only [.conns] s (State.countControl s x0) := by
  unfold State.countControl
  split
  · exact Only.refl s
  · split
    · exact Only.refl s
    · exact State.setConn_only _ _ _ _

theorem State.setPen_only (s x0 x1) : Only [.pen] s (State.setPen s x0 x1) := by
  refine Only.lit (Only.refl _) ?_
  intro p; cases p <;> first | exact .inl (by decide) | exact .inr (by (repeat' apply And.intro) <;> rfl)

theorem State.emit_only (s x0) : Only [.out] s (State.emit s x0) := by
  refine Only.lit (Only.refl _) ?_
  intro p; cases p <;> first | exact .inl (by decide) | exact .inr (by (repeat' apply And.intro) <;> rfl)

theorem State.sendTime_only (s x0 x1 x2) : Only [.out, .pen] s (State.sendTime s x0 x1 x2) := by
  unfold State.sendTime
  repeat' first
    | with_reducible exact Only.refl _
    | decide
    | with_reducible apply Only.of (State.setPen_only _ _ _)
    | with_reducible apply Only.of (State.emit_only _ _)

theorem State.emitFlit_only (s x0 x1 x2 x3) : Only [.out, .stats, .pen] s (State.emitFlit s x0 x1 x2 x3) := by
  unfold State.emitFlit
  repeat' first
    | with_reducible exact Only.refl _
    | decide
    | with_reducible apply Only.of (State.setPen_only _ _ _)
    | with_reducible apply Only.of (State.emit_only _ _)
    | (fail_if_no_progress ((with_reducible refine Only.lit ?_ ?_) <;> [skip; (intro p; cases p <;> first | exact .inl (by decide) | exact .inr (by (repeat' apply And.intro) <;> rfl))]))

theorem State.sendFlit_only (s x0 x1) : Only [.out, .stats, .pen] s (State.sendFlit s x0 x1) := by
  unfold State.sendFlit
  repeat' first
    | with_reducible exact Only.refl _
    | decide
    | (with_reducible apply Only.ite) <;> intro _
    | with_reducible apply Only.of (State.setPen_only _ _ _)
    | with_reducible apply Only.of (State.sendTime_only _ _ _ _)
    | with_reducible apply Only.of (State.emitFlit_only _ _ _ _ _)

theorem State.drainPen_only (x0 s x1) : Only [.out, .stats, .pen] s (State.drainPen x0 s x1) := by
  induction x0 generalizing s with
  | zero =>
    unfold State.drainPen
    repeat' first
      | with_reducible exact Only.refl _
  | succ n ih =>
    unfold State.drainPen
    repeat' first
      | with_reducible apply Only.of (ih _)
      | with_reducible apply Only.of (ih _ _)
      | with_reducible apply Only.of (ih _ _ _)
      | with_reducible apply Only.of (ih _ _ _ _)
      | with_reducible exact Only.refl _
      | decide
      | with_reducible apply Only.of (State.setPen_only _ _ _)
      | with_reducible apply Only.of (State.sendFlit_only _ _ _)
      | split

theorem State.toPen_only (s x0 x1) : Only [.out, .stats, .pen] s (State.toPen s x0 x1) := by
  unfold State.toPen
  repeat' first
    | with_reducible exact Only.refl _
    | decide
    | with_reducible apply Only.of (State.setPen_only _ _ _)
    | with_reducible apply Only.of (State.drainPen_only _ _ _)

theorem State.sendPacket_only (s x0 x1 x2) : Only [.out, .stats, .conns] s (State.sendPacket s x0 x1 x2) := by
  unfold State.sendPacket
  repeat' first
    | with_reducible exact Only.refl _
    | decide
    | with_reducible apply Only.of (State.emit_only _ _)
    | with_reducible apply Only.of (State.setConn_only _ _ _ _)
    | (fail_if_no_progress ((with_reducible refine Only.lit ?_ ?_) <;> [skip; (intro p; cases p <;> first | exact .inl (by decide) | exact .inr (by (repeat' apply And.intro) <;> rfl))]))

theorem State.sendUnnumbered_only (s x0 x1 x2 x3) : Only [.out, .conns] s (State.sendUnnumbered s x0 x1 x2 x3) := by
  unfold State.sendUnnumbered
  repeat' first
    | with_reducible exact Only.refl _
    | decide
    | with_reducible apply Only.of (State.emit_only _ _)
    | with_reducible apply Only.of (State.setConn_only _ _ _ _)

theorem State.sendItem_only (s x0 x1 x2) : Only [.out, .stats, .conns] s (State.sendItem s x0 x1 x2) := by
  unfold State.sendItem
  repeat' first
    | with_reducible exact Only.refl _
    | decide
    | (with_reducible apply Only.ite) <;> intro _
    | with_reducible apply Only.of (State.sendPacket_only _ _ _ _)
    | with_reducible apply Only.of (State.sendUnnumbered_only _ _ _ _ _)

theorem State.drainConn_only (x0 s x1 x2) : Only [.out, .stats, .conns] s (State.drainConn x0 s x1 x2) := by
  induction x0 generalizing s with
  | zero =>
    unfold State.drainConn
    repeat' first
      | with_reducible exact Only.refl _
  | succ n ih =>
    unfold State.drainConn
    repeat' first
      | with_reducible apply Only.of (ih _)
      | with_reducible apply Only.of (ih _ _)
      | with_reducible apply Only.of (ih _ _ _)
      | with_reducible apply Only.of (ih _ _ _ _)
      | with_reducible exact Only.refl _
      | decide
      | with_reducible apply Only.of (State.setConn_only _ _ _ _)
      | with_reducible apply Only.of (State.sendItem_only _ _ _ _)
      | extract_lets +onlyGivenNames x
      | split

theorem State.toConn_only (s x0 x1 x2) : Only [.out, .stats, .conns] s (State.toConn s x0 x1 x2) := by
  unfold State.toConn
  repeat' first
    | with_reducible exact Only.refl _
    | decide
    | with_reducible apply Only.of (State.setConn_only _ _ _ _)
    | with_reducible apply Only.of (State.drainConn_only _ _ _ _)

theorem State.stripe_only (s x0 x1) : Only [.out, .stats, .conns] s (State.stripe s x0 x1) := by
  unfold State.stripe
  repeat' first
    | with_reducible exact Only.refl _
    | decide
    | with_reducible apply Only.of (State.toConn_only _ _ _ _)
    | with_reducible refine Only.thenFold ?_ (fun t x => ?_)
    | split

theorem State.transmit_only (s x0 x1) : Only [.out, .stats, .pen, .conns] s (State.transmit s x0 x1) := by
  unfold State.transmit
  repeat' first
    | with_reducible exact Only.refl _
    | decide
    | (with_reducible apply Only.ite) <;> intro _
    | with_reducible apply Only.of (State.toPen_only _ _ _)
    | with_reducible apply Only.of (State.stripe_only _ _ _)
    | split

theorem State.sendControl_only (s x0 x1 x2) : Only [.out, .stats, .pen, .conns] s (State.sendControl s x0 x1 x2) := by
  unfold State.sendControl
  repeat' first
    | with_reducible exact Only.refl _
    | decide
    | with_reducible apply Only.of (State.countControl_only _ _)
    | with_reducible apply Only.of (State.transmit_only _ _ _)

theorem State.setHerd_only (s x0 x1) : Only [.herd] s (State.setHerd s x0 x1) := by
  refine Only.lit (Only.refl _) ?_
  intro p; cases p <;> first | exact .inl (by decide) | exact .inr (by (repeat' apply And.intro) <;> rfl)

theorem State.emits_only (s x0) : Only [.out] s (State.emits s x0) := by
  refine Only.lit (Only.refl _) ?_
  intro p; cases p <;> first | exact .inl (by decide) | exact .inr (by (repeat' apply And.intro) <;> rfl)

/-! ## Ops -/

theorem State.acceptRecord_only (s x0 x1) : Only [.tel] s (State.acceptRecord s x0 x1) := by
  refine Only.lit (Only.refl _) ?_
  intro p; cases p <;> first | exact .inl (by decide) | exact .inr (by (repeat' apply And.intro) <;> rfl)

theorem State.raise_only (s x0 x1 x2 x3 x4) : Only [.tel, .events] s (State.raise s x0 x1 x2 x3 x4) := by
  unfold State.raise
  repeat' first
    | with_reducible exact Only.refl _
    | decide
    | (with_reducible apply Only.ite) <;> intro _
    | with_reducible apply Only.of (State.acceptRecord_only _ _ _)
    | (fail_if_no_progress ((with_reducible refine Only.lit ?_ ?_) <;> [skip; (intro p; cases p <;> first | exact .inl (by decide) | exact .inr (by (repeat' apply And.intro) <;> rfl))]))

theorem State.voidPromise_only (s x0) : Only [.stats, .void, .tel, .events] s (State.voidPromise s x0) := by
  unfold State.voidPromise
  repeat' first
    | with_reducible exact Only.refl _
    | decide
    | (with_reducible apply Only.ite) <;> intro _
    | with_reducible apply Only.of (State.raise_only _ _ _ _ _ _)
    | (fail_if_no_progress ((with_reducible refine Only.lit ?_ ?_) <;> [skip; (intro p; cases p <;> first | exact .inl (by decide) | exact .inr (by (repeat' apply And.intro) <;> rfl))]))

theorem State.setQueue_only (s x0 x1) : Only [.queues] s (State.setQueue s x0 x1) := by
  refine Only.lit (Only.refl _) ?_
  intro p; cases p <;> first | exact .inl (by decide) | exact .inr (by (repeat' apply And.intro) <;> rfl)

theorem State.setUnit_only (s x0 x1) : Only [.ledger] s (State.setUnit s x0 x1) := by
  refine Only.lit (Only.refl _) ?_
  intro p; cases p <;> first | exact .inl (by decide) | exact .inr (by (repeat' apply And.intro) <;> rfl)

theorem State.logged_only (s x0) : Only [.ledger] s (State.logged s x0) :=
  State.setUnit_only _ _ _

theorem State.haltNext_only (s) : Only [.halt] s (State.haltNext s) := by
  refine Only.lit (Only.refl _) ?_
  intro p; cases p <;> first | exact .inl (by decide) | exact .inr (by (repeat' apply And.intro) <;> rfl)

theorem State.raiseHalt_only (s x0 x1 x2 x3) : Only [.halt, .tel, .events] s (State.raiseHalt s x0 x1 x2 x3) := by
  unfold State.raiseHalt
  repeat' first
    | with_reducible exact Only.refl _
    | decide
    | with_reducible apply Only.of (State.raise_only _ _ _ _ _ _)
    | with_reducible apply Only.of (State.haltNext_only _)

theorem State.permanentNow_only (s x0) : Only [.ledger] s (State.permanentNow s x0) :=
  State.setUnit_only _ _ _

theorem State.message_only (s x0 x1 x2) : Only [.out, .stats, .pen, .conns] s (State.message s x0 x1 x2) := by
  unfold State.message
  repeat' first
    | with_reducible exact Only.refl _
    | decide
    | with_reducible apply Only.of (State.emit_only _ _)
    | with_reducible apply Only.of (State.sendControl_only _ _ _ _)

theorem State.upTree_only (s x0 x1) : Only [.out, .stats, .pen, .conns] s (State.upTree s x0 x1) := by
  unfold State.upTree
  repeat' first
    | with_reducible exact Only.refl _
    | decide
    | (with_reducible apply Only.ite) <;> intro _
    | with_reducible apply Only.of (State.message_only _ _ _ _)
    | split

theorem State.declareExcess_only (s) : Only [.out, .stats, .reports, .pen, .conns] s (State.declareExcess s) := by
  refine Only.of (State.upTree_only _ _ _) rfl (Only.lit (Only.refl _) ?_)
  intro p; cases p <;> first | exact .inl (by decide) | exact .inr (by (repeat' apply And.intro) <;> rfl)

theorem State.log_only (s x0 x1 x2) : Only [.setup] s (State.log s x0 x1 x2) := by
  refine Only.lit (Only.refl _) ?_
  intro p; cases p <;> first | exact .inl (by decide) | exact .inr (by (repeat' apply And.intro) <;> rfl)

theorem State.raiseOnce_only (s x0 x1 x2 x3 x4 x5) : Only [.tel, .events] s (State.raiseOnce s x0 x1 x2 x3 x4 x5) := by
  unfold State.raiseOnce
  repeat' first
    | with_reducible exact Only.refl _
    | decide
    | (with_reducible apply Only.ite) <;> intro _
    | with_reducible apply Only.of (State.raise_only _ _ _ _ _ _)
    | (fail_if_no_progress ((with_reducible refine Only.lit ?_ ?_) <;> [skip; (intro p; cases p <;> first | exact .inl (by decide) | exact .inr (by (repeat' apply And.intro) <;> rfl))]))

theorem State.countedFault_only (s x0) : Only [.tel, .events, .ledger] s (State.countedFault s x0) := by
  unfold State.countedFault
  repeat' first
    | with_reducible exact Only.refl _
    | decide
    | (with_reducible apply Only.ite) <;> intro _
    | with_reducible apply Only.of (State.raise_only _ _ _ _ _ _)
    | with_reducible apply Only.of (State.setUnit_only _ _ _)

theorem State.setPort_only (s x0 x1) : Only [.ports] s (State.setPort s x0 x1) := by
  refine Only.lit (Only.refl _) ?_
  intro p; cases p <;> first | exact .inl (by decide) | exact .inr (by (repeat' apply And.intro) <;> rfl)

theorem State.toHost_only (s x0 x1) : Only [.out, .ports] s (State.toHost s x0 x1) := by
  unfold State.toHost
  repeat' first
    | with_reducible exact Only.refl _
    | decide
    | (with_reducible apply Only.ite) <;> intro _
    | with_reducible apply Only.of (State.emit_only _ _)
    | with_reducible apply Only.of (State.setPort_only _ _ _)

theorem State.random_only (s) : Only [.sec] s (State.random s).2 := by
  refine Only.lit (Only.refl _) ?_
  intro p; cases p <;> first | exact .inl (by decide) | exact .inr (by (repeat' apply And.intro) <;> rfl)

theorem State.messages_only (s x0 x1 x2) : Only [.out, .stats, .pen, .conns] s (State.messages s x0 x1 x2) := by
  unfold State.messages
  repeat' first
    | with_reducible exact Only.refl _
    | decide
    | with_reducible apply Only.of (State.message_only _ _ _ _)
    | with_reducible refine Only.thenFold ?_ (fun t x => ?_)

theorem State.endOp_only (s x0) : Only [.setup] s (State.endOp s x0) := by
  unfold State.endOp
  repeat' first
    | with_reducible exact Only.refl _
    | (with_reducible apply Only.ite) <;> intro _
    | (fail_if_no_progress ((with_reducible refine Only.lit ?_ ?_) <;> [skip; (intro p; cases p <;> first | exact .inl (by decide) | exact .inr (by (repeat' apply And.intro) <;> rfl))]))

theorem State.endCmd_only (s x0) : Only [.setup] s (State.endCmd s x0) := by
  refine Only.lit (Only.refl _) ?_
  intro p; cases p <;> first | exact .inl (by decide) | exact .inr (by (repeat' apply And.intro) <;> rfl)

theorem State.startOp_only (s x0) : Only [.setup] s (State.startOp s x0) := by
  refine Only.lit (Only.refl _) ?_
  intro p; cases p <;> first | exact .inl (by decide) | exact .inr (by (repeat' apply And.intro) <;> rfl)

theorem State.free_only (s) : Only [.fresh] s (State.free s).2 := by
  refine Only.lit (Only.refl _) ?_
  intro p; cases p <;> first | exact .inl (by decide) | exact .inr (by (repeat' apply And.intro) <;> rfl)

/-! ## Hbm -/

theorem State.setChannel_only (s x0 x1) : Only [.channels] s (State.setChannel s x0 x1) := by
  refine Only.lit (Only.refl _) ?_
  intro p; cases p <;> first | exact .inl (by decide) | exact .inr (by (repeat' apply And.intro) <;> rfl)

theorem State.setStack_only (s x0 x1) : Only [.channels] s (State.setStack s x0 x1) := by
  refine Only.lit (Only.refl _) ?_
  intro p; cases p <;> first | exact .inl (by decide) | exact .inr (by (repeat' apply And.intro) <;> rfl)

theorem State.blockBad_only (s x0) : Only [.tel, .mem, .events, .ledger] s (State.blockBad s x0) := by
  unfold State.blockBad
  repeat' first
    | with_reducible exact Only.refl _
    | decide
    | with_reducible apply Only.of (State.raise_only _ _ _ _ _ _)
    | with_reducible apply Only.of (State.countedFault_only _ _)
    | (fail_if_no_progress ((with_reducible refine Only.lit ?_ ?_) <;> [skip; (intro p; cases p <;> first | exact .inl (by decide) | exact .inr (by (repeat' apply And.intro) <;> rfl))]))

theorem State.enterWrite_only (s w t) (h : State.enterWrite s w = some t) : Only [.tel, .channels, .mem, .events, .ledger] s t := by
  unfold State.enterWrite at h
  extract_lets b ch k at h
  split at h
  · cases h
  · split at h
    · cases h
    · obtain rfl := Option.some.inj h
      refine Only.of (State.setStack_only _ _ _) (by decide) (Only.ite (fun _ => ?_) (fun _ => Only.refl s))
      exact Only.of (State.raise_only _ _ _ _ _ _) (by decide) ((State.blockBad_only _ _).mono (by decide))

theorem State.portWrite_only (s x0) : Only [.tel, .channels, .mem, .events, .ledger] s (State.portWrite s x0) := by
  unfold State.portWrite
  split
  · exact (State.enterWrite_only _ _ _ ‹_›).mono (by decide)
  · exact Only.lit (Only.refl s) (by (intro p; cases p <;> first | exact .inl (by decide) | exact .inr (by (repeat' apply And.intro) <;> rfl)))

theorem State.tileWrite_only (s x0 x1 x2) : Only [.tiles] s (State.tileWrite s x0 x1 x2) := by
  refine Only.lit (Only.refl _) ?_
  intro p; cases p <;> first | exact .inl (by decide) | exact .inr (by (repeat' apply And.intro) <;> rfl)

theorem State.readBlock_only (s x0 x1) : Only [.stats, .tel, .mem, .events, .ledger] s (State.readBlock s x0 x1).1 := by
  unfold State.readBlock
  repeat' first
    | with_reducible exact Only.refl _
    | decide
    | with_reducible apply Only.of (State.countedFault_only _ _)
    | with_reducible apply Only.of (State.blockBad_only _ _)
    | (fail_if_no_progress ((with_reducible refine Only.lit ?_ ?_) <;> [skip; (intro p; cases p <;> first | exact .inl (by decide) | exact .inr (by (repeat' apply And.intro) <;> rfl))]))
    | split

theorem State.readRecord_only (s x0 x1 x2) : Only [.stats, .tel, .mem, .events, .ledger] s (State.readRecord s x0 x1 x2).1 :=
  State.readBlock_only _ _ _

theorem State.putUnit_only (s x0 x1 x2) : Only [.stats, .hbm] s (State.putUnit s x0 x1 x2) := by
  refine Only.lit (Only.refl _) ?_
  intro p; cases p <;> first | exact .inl (by decide) | exact .inr (by (repeat' apply And.intro) <;> rfl)

theorem State.retryWaiting_only (s) : Only [.tel, .channels, .mem, .events, .ledger] s (State.retryWaiting s) := by
  unfold State.retryWaiting
  repeat' first
    | with_reducible exact Only.refl _
    | decide
    | with_reducible apply Only.of (State.portWrite_only _ _)
    | with_reducible refine Only.thenFold ?_ (fun t x => ?_)
    | (fail_if_no_progress ((with_reducible refine Only.lit ?_ ?_) <;> [skip; (intro p; cases p <;> first | exact .inl (by decide) | exact .inr (by (repeat' apply And.intro) <;> rfl))]))

theorem State.writeVerified_only (s x0 x1 x2) : Only [.stats, .tel, .hbm, .mem, .events, .ledger] s (State.writeVerified s x0 x1 x2).1 := by
  unfold State.writeVerified
  repeat' first
    | with_reducible exact Only.refl _
    | decide
    | (with_reducible apply Only.ite) <;> intro _
    | with_reducible apply Only.of (State.raise_only _ _ _ _ _ _)
    | with_reducible apply Only.of (State.blockBad_only _ _)
    | with_reducible apply Only.of (State.putUnit_only _ _ _ _)
    | extract_lets +onlyGivenNames x
    | split

theorem State.setTileTag_only (s x0 x1 x2) : Only [.tiles] s (State.setTileTag s x0 x1 x2) := by
  refine Only.lit (Only.refl _) ?_
  intro p; cases p <;> first | exact .inl (by decide) | exact .inr (by (repeat' apply And.intro) <;> rfl)

theorem State.writeRange_only (x0 s x1 x2) : Only [.stats, .tel, .hbm, .mem, .events, .ledger] s (State.writeRange x0 s x1 x2) := by
  induction x0 generalizing s x1 x2 with
  | zero =>
    unfold State.writeRange
    repeat' first
      | with_reducible exact Only.refl _
  | succ n ih =>
    unfold State.writeRange
    repeat' first
      | with_reducible apply Only.of (ih _)
      | with_reducible apply Only.of (ih _ _)
      | with_reducible apply Only.of (ih _ _ _)
      | with_reducible apply Only.of (ih _ _ _ _)
      | with_reducible exact Only.refl _
      | decide
      | with_reducible apply Only.of (State.writeVerified_only _ _ _ _)
      | split

/-! ## WatchOps -/

theorem State.setWatch_only (s x0 x1) : Only [.watch] s (State.setWatch s x0 x1) := by
  refine Only.lit (Only.refl _) ?_
  intro p; cases p <;> first | exact .inl (by decide) | exact .inr (by (repeat' apply And.intro) <;> rfl)

theorem State.dropCounts_only (s) : Only [.stats, .watch] s (State.dropCounts s) :=
  Only.lit (Only.refl s) (by intro p; cases p <;> first | exact .inl (by decide) | exact .inr (by (repeat' apply And.intro) <;> rfl))

theorem State.dropEpoch_only (s) : Only [.watch] s (State.dropEpoch s) :=
  Only.lit (Only.refl s) (by intro p; cases p <;> first | exact .inl (by decide) | exact .inr (by (repeat' apply And.intro) <;> rfl))

theorem State.countPoison_only (s x0 x1 x2) : Only [.tel, .watch, .events] s (State.countPoison s x0 x1 x2) := by
  unfold State.countPoison
  repeat' first
    | with_reducible exact Only.refl _
    | decide
    | (with_reducible apply Only.ite) <;> intro _
    | with_reducible apply Only.of (State.setWatch_only _ _ _)
    | with_reducible apply Only.of (State.raiseOnce_only _ _ _ _ _ _ _)

theorem State.countExceptions_only (s x0 x1) : Only [.watch] s (State.countExceptions s x0 x1) :=
  State.setWatch_only _ _ _

theorem State.countConversions_only (s x0 x1 x2 x3 x4 x5 x6 x7) : Only [.watch] s (State.countConversions s x0 x1 x2 x3 x4 x5 x6 x7) :=
  State.setWatch_only _ _ _

theorem State.countKept_only (s x0 x1) : Only [.watch] s (State.countKept s x0 x1) :=
  (State.setWatch_only _ _ _).mono (by decide)

theorem State.keepCounts_only (s) : Only [.stats, .watch] s (State.keepCounts s) :=
  Only.lit (Only.refl s) (by intro p; cases p <;> first | exact .inl (by decide) | exact .inr (by (repeat' apply And.intro) <;> rfl))

/-! ## Replay -/

theorem State.evalFault_only (s) : Only [.stats, .seq, .queues, .tel, .watch, .events] s (State.evalFault s) := by
  unfold State.evalFault
  repeat' first
    | with_reducible assumption
    | with_reducible exact Only.refl _
    | decide
    | (with_reducible apply Only.ite) <;> intro _
    | with_reducible apply Only.of (State.raise_only _ _ _ _ _ _)
    | with_reducible apply Only.of (State.dropCounts_only _)
    | (fail_if_no_progress ((with_reducible refine Only.lit ?_ ?_) <;> [skip; (intro p; cases p <;> first | exact .inl (by decide) | exact .inr (by (repeat' apply And.intro) <;> rfl))]))

theorem State.witnessRefused_only (s) : Only [.halt, .replay, .tel, .events] s (State.witnessRefused s) := by
  refine Only.of (State.raiseHalt_only _ _ _ _ _) rfl (Only.lit (Only.refl _) ?_)
  intro p; cases p <;> first | exact .inl (by decide) | exact .inr (by (repeat' apply And.intro) <;> rfl)

theorem State.makeSuspect_only (s) : Only [.out, .halt, .stats, .replay, .reports, .tel, .pen, .conns, .events, .rel] s (State.makeSuspect s) := by
  unfold State.makeSuspect
  repeat' first
    | with_reducible exact Only.refl _
    | decide
    | (with_reducible apply Only.ite) <;> intro _
    | with_reducible apply Only.of (State.raise_only _ _ _ _ _ _)
    | with_reducible apply Only.of (State.transmit_only _ _ _)
    | with_reducible apply Only.of (State.message_only _ _ _ _)
    | with_reducible apply Only.of (State.witnessRefused_only _)
    | with_reducible apply Only.of (State.declareExcess_only _)
    | (fail_if_no_progress ((with_reducible refine Only.lit ?_ ?_) <;> [skip; (intro p; cases p <;> first | exact .inl (by decide) | exact .inr (by (repeat' apply And.intro) <;> rfl))]))
    | extract_lets +onlyGivenNames x
    | split

theorem State.sendUnit_only (s x0 x1 x2 x3) : Only [.out, .halt, .stats, .replay, .reports, .tel, .pen, .conns, .msgs, .events, .rel] s (State.sendUnit s x0 x1 x2 x3) := by
  unfold State.sendUnit
  repeat' first
    | with_reducible exact Only.refl _
    | decide
    | (with_reducible apply Only.ite) <;> intro _
    | with_reducible apply Only.of (State.makeSuspect_only _)
    | (fail_if_no_progress ((with_reducible refine Only.lit ?_ ?_) <;> [skip; (intro p; cases p <;> first | exact .inl (by decide) | exact .inr (by (repeat' apply And.intro) <;> rfl))]))
    | split

theorem State.transmitAgain_only (s x0 x1) : Only [.out, .stats, .pen, .conns] s (State.transmitAgain s x0 x1) := by
  unfold State.transmitAgain
  repeat' first
    | with_reducible exact Only.refl _
    | decide
    | (with_reducible apply Only.ite) <;> intro _
    | with_reducible apply Only.of (State.transmit_only _ _ _)
    | with_reducible apply Only.of (State.sendControl_only _ _ _ _)

theorem State.exchangeUnits_only (s x0 x1 x2 x3) : Only [.out, .halt, .stats, .replay, .reports, .tel, .pen, .conns, .msgs, .events, .rel] s (State.exchangeUnits s x0 x1 x2 x3) := by
  unfold State.exchangeUnits
  repeat' first
    | with_reducible exact Only.refl _
    | decide
    | (with_reducible apply Only.ite) <;> intro _
    | with_reducible apply Only.of (State.transmit_only _ _ _)
    | with_reducible apply Only.of (State.sendUnit_only _ _ _ _ _)
    | with_reducible apply Only.of (State.transmitAgain_only _ _ _)
    | with_reducible refine Only.thenFold ?_ (fun t x => ?_)
    | (fail_if_no_progress ((with_reducible refine Only.lit ?_ ?_) <;> [skip; (intro p; cases p <;> first | exact .inl (by decide) | exact .inr (by (repeat' apply And.intro) <;> rfl))]))

theorem State.exchange_only (s x0 x1 x2 x3) : Only [.out, .halt, .stats, .replay, .reports, .tel, .pen, .conns, .msgs, .events, .rel] s (State.exchange s x0 x1 x2 x3) := by
  unfold State.exchange
  repeat' first
    | with_reducible exact Only.refl _
    | decide
    | (with_reducible apply Only.ite) <;> intro _
    | with_reducible apply Only.of (State.emit_only _ _)
    | with_reducible apply Only.of (State.exchangeUnits_only _ _ _ _ _)

theorem State.discardAttempt_only (s) : Only [.phases, .stats, .emb, .acc, .hist, .attn, .watch, .msgs] s (State.discardAttempt s) := by
  unfold State.discardAttempt
  repeat' first
    | with_reducible exact Only.refl _
    | decide
    | with_reducible apply Only.of (State.dropCounts_only _)
    | with_reducible apply Only.of (State.dropEpoch_only _)
    | (fail_if_no_progress ((with_reducible refine Only.lit ?_ ?_) <;> [skip; (intro p; cases p <;> first | exact .inl (by decide) | exact .inr (by (repeat' apply And.intro) <;> rfl))]))

theorem State.beginReplay_only (s) : Only [.out, .halt, .phases, .stats, .replay, .reports, .tel, .emb, .acc, .hist, .attn, .watch, .pen, .conns, .msgs, .events, .rel] s (State.beginReplay s) := by
  unfold State.beginReplay
  repeat' first
    | with_reducible exact Only.refl _
    | decide
    | (with_reducible apply Only.ite) <;> intro _
    | with_reducible apply Only.of (State.raise_only _ _ _ _ _ _)
    | with_reducible apply Only.of (State.declareExcess_only _)
    | with_reducible apply Only.of (State.makeSuspect_only _)
    | with_reducible apply Only.of (State.discardAttempt_only _)
    | (fail_if_no_progress ((with_reducible refine Only.lit ?_ ?_) <;> [skip; (intro p; cases p <;> first | exact .inl (by decide) | exact .inr (by (repeat' apply And.intro) <;> rfl))]))

theorem State.checkFault_only (s x0) : Only [.out, .halt, .phases, .stats, .replay, .reports, .seq, .queues, .tel, .emb, .acc, .hist, .attn, .watch, .pen, .conns, .msgs, .events, .ledger, .rel] s (State.checkFault s x0) := by
  unfold State.checkFault
  repeat' first
    | with_reducible exact Only.refl _
    | decide
    | (with_reducible apply Only.ite) <;> intro _
    | with_reducible apply Only.of (State.raise_only _ _ _ _ _ _)
    | with_reducible apply Only.of (State.evalFault_only _)
    | with_reducible apply Only.of (State.countedFault_only _ _)
    | with_reducible apply Only.of (State.beginReplay_only _)

theorem State.endReplay_only (s) : Only [.replay] s (State.endReplay s) := by
  unfold State.endReplay
  repeat' first
    | with_reducible exact Only.refl _
    | (with_reducible apply Only.ite) <;> intro _
    | (fail_if_no_progress ((with_reducible refine Only.lit ?_ ?_) <;> [skip; (intro p; cases p <;> first | exact .inl (by decide) | exact .inr (by (repeat' apply And.intro) <;> rfl))]))

theorem State.checked_only (s x0) : Only [.out, .halt, .phases, .stats, .replay, .reports, .seq, .queues, .tel, .emb, .acc, .hist, .attn, .watch, .pen, .conns, .msgs, .events, .ledger, .rel] s (State.checked s x0) := by
  unfold State.checked
  repeat' first
    | with_reducible exact Only.refl _
    | decide
    | with_reducible apply Only.of (State.checkFault_only _ _)
    | extract_lets +onlyGivenNames x
    | split

/-! ## Matrix -/

theorem State.setSlot_only (s x0 x1 x2) : Only [.acc] s (State.setSlot s x0 x1 x2) := by
  refine Only.lit (Only.refl _) ?_
  intro p; cases p <;> first | exact .inl (by decide) | exact .inr (by (repeat' apply And.intro) <;> rfl)

theorem State.joinTile_only (s x0 x1) : Only [.tel, .acc, .events] s (State.joinTile s x0 x1) := by
  unfold State.joinTile
  repeat' first
    | with_reducible exact Only.refl _
    | decide
    | (with_reducible apply Only.ite) <;> intro _
    | with_reducible apply Only.of (State.raise_only _ _ _ _ _ _)
    | with_reducible apply Only.of (State.setSlot_only _ _ _ _)

theorem State.slotEvents_only (s x0 x1 x2) : Only [.stats, .tel, .events] s (State.slotEvents s x0 x1 x2) := by
  unfold State.slotEvents
  repeat' first
    | with_reducible exact Only.refl _
    | decide
    | (with_reducible apply Only.ite) <;> intro _
    | with_reducible apply Only.of (State.raiseOnce_only _ _ _ _ _ _ _)
    | (fail_if_no_progress ((with_reducible refine Only.lit ?_ ?_) <;> [skip; (intro p; cases p <;> first | exact .inl (by decide) | exact .inr (by (repeat' apply And.intro) <;> rfl))]))

theorem State.slotCounts_only (s x0 x1) : Only [.watch] s (State.slotCounts s x0 x1) :=
  (State.setWatch_only _ _ _).mono (by decide)

theorem State.readCounts_only (s x0 x1 x2 x3) : Only [.watch] s (State.readCounts s x0 x1 x2 x3) := by
  unfold State.readCounts
  repeat' first
    | with_reducible exact Only.refl _
    | decide
    | (with_reducible apply Only.ite) <;> intro _
    | with_reducible apply Only.of (State.countExceptions_only _ _ _)
    | with_reducible apply Only.of (State.slotCounts_only _ _ _)
    | with_reducible apply Only.of (State.countConversions_only _ _ _ _ _ _ _ _ _)

theorem State.readSlot_only (s x0 x1 x2) : Only [.stats, .tel, .tiles, .watch, .events] s (State.readSlot s x0 x1 x2) := by
  unfold State.readSlot
  repeat' first
    | with_reducible exact Only.refl _
    | decide
    | with_reducible apply Only.of (State.tileWrite_only _ _ _ _)
    | with_reducible apply Only.of (State.slotEvents_only _ _ _ _)
    | with_reducible apply Only.of (State.readCounts_only _ _ _ _ _)

theorem State.countSaturations_only (s x0 x1) : Only [.watch] s (State.countSaturations s x0 x1) := by
  unfold State.countSaturations
  repeat' first
    | with_reducible exact Only.refl _
    | decide
    | with_reducible apply Only.of (State.setWatch_only _ _ _)
    | extract_lets +onlyGivenNames x
    | split

theorem State.countSplits_only (s x0 x1) : Only [.watch] s (State.countSplits s x0 x1) := by
  unfold State.countSplits
  repeat' first
    | with_reducible exact Only.refl _
    | decide
    | with_reducible apply Only.of (State.countSaturations_only _ _ _)

theorem State.mma_only (s x0 x1) : Only [.tel, .acc, .watch, .events] s (State.mma s x0 x1) := by
  unfold State.mma
  repeat' first
    | with_reducible exact Only.refl _
    | decide
    | (with_reducible apply Only.ite) <;> intro _
    | with_reducible apply Only.of (State.raise_only _ _ _ _ _ _)
    | with_reducible apply Only.of (State.setSlot_only _ _ _ _)
    | with_reducible apply Only.of (State.countSplits_only _ _ _)

/-! ## VectorStage -/

theorem State.ys8Tail_only (s x0 x1) : Only [.tiles] s (State.ys8Tail s x0 x1) := by
  unfold State.ys8Tail
  repeat' first
    | with_reducible exact Only.refl _
    | decide
    | (with_reducible apply Only.ite) <;> intro _
    | with_reducible apply Only.of (State.tileWrite_only _ _ _ _)

theorem State.setLine_only (s x0 x1) : Only [.lines] s (State.setLine s x0 x1) :=
  Only.lit (Only.refl s) (by intro p; cases p <;> first | exact .inl (by decide) | exact .inr (by (repeat' apply And.intro) <;> rfl))

theorem State.setVecRegs_only (s x0 x1 x2) : Only [.lines] s (State.setVecRegs s x0 x1 x2) :=
  (State.setLine_only _ _ _).mono (by decide)

theorem State.putLong_only (s x0 x1 x2 x3) : Only [.tiles, .lines] s (State.putLong s x0 x1 x2 x3) := by
  unfold State.putLong
  repeat' first
    | with_reducible exact Only.refl _
    | decide
    | (with_reducible apply Only.ite) <;> intro _
    | with_reducible apply Only.of (State.tileWrite_only _ _ _ _)
    | with_reducible apply Only.of (State.setVecRegs_only _ _ _ _)

theorem State.rowOp_only (s x0 x1) : Only [.tiles, .lines, .watch] s (State.rowOp s x0 x1) := by
  unfold State.rowOp
  repeat' first
    | with_reducible exact Only.refl _
    | decide
    | with_reducible apply Only.of (State.countExceptions_only _ _ _)
    | with_reducible apply Only.of (State.putLong_only _ _ _ _ _)

theorem State.tagYs8_only (s x0 x1 x2 x3 x4 x5) : Only [.tiles] s (State.tagYs8 s x0 x1 x2 x3 x4 x5) := by
  unfold State.tagYs8
  repeat' first
    | with_reducible exact Only.refl _
    | decide
    | with_reducible apply Only.of (State.setTileTag_only _ _ _ _)
    | with_reducible refine Only.thenFold ?_ (fun t x => ?_)

theorem State.putConverted_only (s x0 x1 x2) : Only [.tiles, .lines] s (State.putConverted s x0 x1 x2) := by
  unfold State.putConverted
  repeat' first
    | with_reducible exact Only.refl _
    | decide
    | (with_reducible apply Only.ite) <;> intro _
    | with_reducible apply Only.of (State.tileWrite_only _ _ _ _)
    | with_reducible apply Only.of (State.ys8Tail_only _ _ _)
    | with_reducible apply Only.of (State.setVecRegs_only _ _ _ _)
    | with_reducible apply Only.of (State.tagYs8_only _ _ _ _ _ _ _)

theorem State.vecConvert_only (s x0 x1) : Only [.out, .halt, .phases, .stats, .replay, .reports, .seq, .queues, .tel, .tiles, .emb, .acc, .hist, .attn, .lines, .watch, .pen, .conns, .msgs, .events, .ledger, .rel] s (State.vecConvert s x0 x1) := by
  unfold State.vecConvert
  repeat' first
    | with_reducible exact Only.refl _
    | decide
    | (with_reducible apply Only.ite) <;> intro _
    | with_reducible apply Only.of (State.raise_only _ _ _ _ _ _)
    | with_reducible apply Only.of (State.checkFault_only _ _)
    | with_reducible apply Only.of (State.countPoison_only _ _ _ _)
    | with_reducible apply Only.of (State.countExceptions_only _ _ _)
    | with_reducible apply Only.of (State.countConversions_only _ _ _ _ _ _ _ _ _)
    | with_reducible apply Only.of (State.putConverted_only _ _ _ _)

theorem State.vecArith_only (s x0 x1) : Only [.tiles, .lines, .watch] s (State.vecArith s x0 x1) := by
  unfold State.vecArith
  repeat' first
    | with_reducible exact Only.refl _
    | decide
    | with_reducible apply Only.of (State.countExceptions_only _ _ _)
    | with_reducible apply Only.of (State.putLong_only _ _ _ _ _)

theorem State.vector_only (s x0 x1) : Only [.out, .halt, .phases, .stats, .replay, .reports, .seq, .queues, .tel, .tiles, .emb, .acc, .hist, .attn, .lines, .watch, .pen, .conns, .msgs, .events, .ledger, .rel] s (State.vector s x0 x1) := by
  unfold State.vector
  repeat' first
    | with_reducible exact Only.refl _
    | decide
    | (with_reducible apply Only.ite) <;> intro _
    | with_reducible apply Only.of (State.vecConvert_only _ _ _)
    | with_reducible apply Only.of (State.vecArith_only _ _ _)

/-! ## TableOps -/

theorem State.mapTables_only (s x0 x1) : Only [.tables] s (State.mapTables s x0 x1) := by
  refine Only.lit (Only.refl _) ?_
  intro p; cases p <;> first | exact .inl (by decide) | exact .inr (by (repeat' apply And.intro) <;> rfl)

end Sys2Proof.Machine
end

