-- ==== Sys2Proof/Laws/OnlyChurn.lean ====
section
/-! SUPPORT. The parts of the state that each operation of churns, the sequencer's reports, the host's shared operations and the tables
may change (Only): one lemma per operation, cited instead of its text. -/

-- Checked one theorem at a time: the package as one text then needs less memory.
set_option Elab.async false

namespace Sys2Proof.Machine

/-! ## ExportOps -/

theorem State.finishWaiter_only (s x0 x1) : Only [.queues] s (State.finishWaiter s x0 x1) :=
  State.setQueue_only _ _ _

theorem State.breakExport_only (s) : Only [.queues, .tel, .events, .exp] s (State.breakExport s) := by
  unfold State.breakExport
  repeat' first
    | with_reducible exact Only.refl _
    | decide
    | (with_reducible apply Only.ite) <;> intro _
    | with_reducible apply Only.of (State.raise_only _ _ _ _ _ _)
    | with_reducible apply Only.of (State.finishWaiter_only _ _ _)
    | with_reducible refine Only.thenFold ?_ (fun t x => ?_)
    | (fail_if_no_progress ((with_reducible refine Only.lit ?_ ?_) <;> [skip; (intro p; cases p <;> first | exact .inl (by decide) | exact .inr (by (repeat' apply And.intro) <;> rfl))]))
    | split

theorem State.logItem_only (s x0) : Only [.exp] s (State.logItem s x0) := by
  unfold State.logItem
  repeat' first
    | with_reducible exact Only.refl _
    | (with_reducible apply Only.ite) <;> intro _
    | (fail_if_no_progress ((with_reducible refine Only.lit ?_ ?_) <;> [skip; (intro p; cases p <;> first | exact .inl (by decide) | exact .inr (by (repeat' apply And.intro) <;> rfl))]))

/-! ## Vectors -/

theorem State.runVectors_only (s x0) : Only [.exp] s (State.runVectors s x0) := by
  unfold State.runVectors
  repeat' first
    | with_reducible exact Only.refl _
    | decide
    | with_reducible apply Only.of (State.logItem_only _ _)
    | with_reducible refine Only.thenFold ?_ (fun t x => ?_)

/-! ## ChurnOps -/

theorem State.setChurn_only (s x0 x1) : Only [.churns] s (State.setChurn s x0 x1) := by
  refine Only.lit (Only.refl _) ?_
  intro p; cases p <;> first | exact .inl (by decide) | exact .inr (by (repeat' apply And.intro) <;> rfl)

theorem State.setCtx_only (s x0 x1) : Only [.churns] s (State.setCtx s x0 x1) :=
  State.setChurn_only _ _ _

theorem State.addTally_only (s x0 x1) : Only [.churns] s (State.addTally s x0 x1) :=
  (State.setCtx_only _ _ _).mono (by decide)

theorem State.addSignals_only (s x0 x1) : Only [.churns] s (State.addSignals s x0 x1) := by
  unfold State.addSignals
  repeat' first
    | with_reducible exact Only.refl _
    | decide
    | (with_reducible apply Only.ite) <;> intro _
    | with_reducible apply Only.of (State.addTally_only _ _ _)

theorem State.logSwept_only (s x0 x1) : Only [.exp] s (State.logSwept s x0 x1) := by
  unfold State.logSwept
  repeat' first
    | with_reducible exact Only.refl _
    | decide
    | with_reducible apply Only.of (State.logItem_only _ _)
    | split

theorem State.cacheSwept_only (s x0 x1) : Only [.mem] s (State.cacheSwept s x0 x1) := by
  unfold State.cacheSwept
  repeat' first
    | with_reducible exact Only.refl _
    | decide
    | (fail_if_no_progress ((with_reducible refine Only.lit ?_ ?_) <;> [skip; (intro p; cases p <;> first | exact .inl (by decide) | exact .inr (by (repeat' apply And.intro) <;> rfl))]))
    | extract_lets +onlyGivenNames x
    | split

theorem State.countDropped_only (s x0) : Only [.tables] s (State.countDropped s x0) := by
  unfold State.countDropped
  repeat' first
    | with_reducible exact Only.refl _
    | decide
    | with_reducible apply Only.of (State.mapTables_only _ _ _)
    | split

theorem State.recordKept_only (s x0 x1) : Only [.mem, .tables, .churns, .watch, .exp] s (State.recordKept s x0 x1) := by
  unfold State.recordKept
  repeat' first
    | with_reducible exact Only.refl _
    | decide
    | with_reducible apply Only.of (State.setWatch_only _ _ _)
    | with_reducible apply Only.of (State.setChurn_only _ _ _)
    | with_reducible apply Only.of (State.logSwept_only _ _ _)
    | with_reducible apply Only.of (State.cacheSwept_only _ _ _)
    | with_reducible apply Only.of (State.countDropped_only _ _)
    | extract_lets +onlyGivenNames x
    | split

theorem State.countTally_only (s x0 x1 x2) : Only [.tel, .watch, .events] s (State.countTally s x0 x1 x2) := by
  unfold State.countTally
  repeat' first
    | with_reducible exact Only.refl _
    | decide
    | (with_reducible apply Only.ite) <;> intro _
    | with_reducible apply Only.of (State.countPoison_only _ _ _ _)
    | with_reducible apply Only.of (State.countExceptions_only _ _ _)
    | with_reducible apply Only.of (State.countConversions_only _ _ _ _ _ _ _ _ _)

theorem State.flushTally_only (s x0 x1) : Only [.tel, .watch, .events] s (State.flushTally s x0 x1) := by
  unfold State.flushTally
  repeat' first
    | with_reducible exact Only.refl _
    | decide
    | with_reducible apply Only.of (State.countTally_only _ _ _ _)
    | with_reducible refine Only.thenFold ?_ (fun t x => ?_)
    | extract_lets +onlyGivenNames x
    | split

theorem State.sweepLost_only (s x0) : Only [.halt, .tel, .events] s (State.sweepLost s x0) := by
  unfold State.sweepLost
  repeat' first
    | with_reducible exact Only.refl _
    | decide
    | with_reducible apply Only.of (State.raiseOnce_only _ _ _ _ _ _ _)
    | with_reducible apply Only.of (State.haltNext_only _)

theorem State.faultChurn_only (s x0) : Only [.halt, .tel, .mem, .tables, .churns, .watch, .events, .exp] s (State.faultChurn s x0) := by
  unfold State.faultChurn
  repeat' first
    | with_reducible exact Only.refl _
    | decide
    | (with_reducible apply Only.ite) <;> intro _
    | with_reducible apply Only.of (State.setChurn_only _ _ _)
    | with_reducible apply Only.of (State.recordKept_only _ _ _)
    | with_reducible apply Only.of (State.flushTally_only _ _ _)
    | with_reducible apply Only.of (State.sweepLost_only _ _)
    | with_reducible refine Only.thenFold ?_ (fun t x => ?_)

theorem State.issueRecord_only (s x0 x1 x2 x3) : Only [.tel, .channels, .mem, .events, .ledger] s (State.issueRecord s x0 x1 x2 x3) :=
  State.portWrite_only _ _

theorem State.writeWorking_only (s x0 x1) : Only [.stats, .tel, .hbm, .tiles, .mem, .events, .ledger] s (State.writeWorking s x0 x1).1 := by
  unfold State.writeWorking
  repeat' first
    | with_reducible exact Only.refl _
    | decide
    | with_reducible apply Only.of (State.tileWrite_only _ _ _ _)
    | with_reducible apply Only.of (State.writeVerified_only _ _ _ _)
    | with_reducible apply Only.of (State.setTileTag_only _ _ _ _)
    | extract_lets +onlyGivenNames x
    | split

theorem State.issueCopy_only (s x0 x1 x2 x3 x4) : Only [.stats, .tel, .hbm, .tiles, .channels, .mem, .events, .ledger] s (State.issueCopy s x0 x1 x2 x3 x4) := by
  unfold State.issueCopy
  repeat' first
    | with_reducible exact Only.refl _
    | decide
    | with_reducible apply Only.of (State.portWrite_only _ _)
    | with_reducible apply Only.of (State.writeWorking_only _ _ _)
    | extract_lets +onlyGivenNames x
    | split

theorem State.issueRetag_only (s x0 x1 x2 x3) : Only [.tel, .channels, .mem, .events, .ledger] s (State.issueRetag s x0 x1 x2 x3) :=
  (State.portWrite_only _ _).mono (by decide)

theorem State.readPoison_only (s x0 x1 x2) : Only [.tel, .watch, .events] s (State.readPoison s x0 x1 x2) := by
  unfold State.readPoison
  repeat' first
    | with_reducible exact Only.refl _
    | decide
    | with_reducible apply Only.of (State.countPoison_only _ _ _ _)

theorem State.settleSums_only (s x0 x1) : Only [.tel, .churns, .watch, .events] s (State.settleSums s x0 x1) := by
  unfold State.settleSums
  repeat' first
    | with_reducible exact Only.refl _
    | decide
    | with_reducible apply Only.of (State.setChurn_only _ _ _)
    | with_reducible apply Only.of (State.flushTally_only _ _ _)
    | with_reducible refine Only.thenFold ?_ (fun t x => ?_)

theorem State.issueCopies_only (s x0 x1 x2 x3) : Only [.stats, .tel, .hbm, .tiles, .channels, .mem, .events, .ledger] s (State.issueCopies s x0 x1 x2 x3) := by
  unfold State.issueCopies
  repeat' first
    | with_reducible exact Only.refl _
    | decide
    | with_reducible apply Only.of (State.issueCopy_only _ _ _ _ _ _)
    | with_reducible refine Only.thenFold ?_ (fun t x => ?_)

theorem State.planePoison_only (s x0 x1) : Only [.tel, .watch, .events] s (State.planePoison s x0 x1) :=
  (State.readPoison_only _ _ _ _).mono (by decide)

theorem State.laneOp1_only (s x0 x1 x2 x3) : Only [.churns] s (State.laneOp1 s x0 x1 x2 x3) := by
  unfold State.laneOp1
  repeat' first
    | with_reducible exact Only.refl _
    | decide
    | with_reducible apply Only.of (State.setCtx_only _ _ _)
    | with_reducible apply Only.of (State.addSignals_only _ _ _)

theorem State.laneOp3_only (s x0 x1 x2 x3 x4 x5) : Only [.churns] s (State.laneOp3 s x0 x1 x2 x3 x4 x5) := by
  unfold State.laneOp3
  repeat' first
    | with_reducible exact Only.refl _
    | decide
    | with_reducible apply Only.of (State.setCtx_only _ _ _)
    | with_reducible apply Only.of (State.addSignals_only _ _ _)

theorem State.laneOp2_only (s x0 x1 x2 x3 x4) : Only [.churns] s (State.laneOp2 s x0 x1 x2 x3 x4) := by
  unfold State.laneOp2
  repeat' first
    | with_reducible exact Only.refl _
    | decide
    | with_reducible apply Only.of (State.setCtx_only _ _ _)
    | with_reducible apply Only.of (State.addSignals_only _ _ _)

/-! ## ChurnSweep -/

theorem State.reportVerified_only (s x0 x1) : Only [.churns] s (State.reportVerified s x0 x1) := by
  unfold State.reportVerified
  repeat' first
    | with_reducible exact Only.refl _
    | decide
    | with_reducible apply Only.of (State.setChurn_only _ _ _)
    | extract_lets +onlyGivenNames x
    | split

theorem State.releaseHeld_only (s x0) : Only [.tel, .channels, .mem, .churns, .events, .ledger] s (State.releaseHeld s x0) := by
  unfold State.releaseHeld
  repeat' first
    | with_reducible exact Only.refl _
    | decide
    | with_reducible apply Only.of (State.setChurn_only _ _ _)
    | with_reducible apply Only.of (State.issueRecord_only _ _ _ _ _)
    | with_reducible refine Only.thenFold ?_ (fun t x => ?_)
    | extract_lets +onlyGivenNames x
    | split

theorem State.readComplete_only (s x0 x1) : Only [.tel, .channels, .mem, .churns, .events, .ledger] s (State.readComplete s x0 x1) := by
  unfold State.readComplete
  repeat' first
    | with_reducible exact Only.refl _
    | decide
    | with_reducible apply Only.of (State.setChurn_only _ _ _)
    | with_reducible apply Only.of (State.releaseHeld_only _ _)

theorem State.writeWithout_only (s x0 x1 x2 x3 x4) : Only [.tel, .channels, .mem, .churns, .events, .ledger] s (State.writeWithout s x0 x1 x2 x3 x4) := by
  unfold State.writeWithout
  repeat' first
    | with_reducible exact Only.refl _
    | decide
    | with_reducible apply Only.of (State.setCtx_only _ _ _)
    | with_reducible apply Only.of (State.readComplete_only _ _ _)

theorem State.skipPoisoned_only (s x0 x1 x2 x3) : Only [.tel, .channels, .mem, .churns, .watch, .events, .ledger] s (State.skipPoisoned s x0 x1 x2 x3) := by
  unfold State.skipPoisoned
  repeat' first
    | with_reducible exact Only.refl _
    | decide
    | with_reducible apply Only.of (State.setWatch_only _ _ _)
    | with_reducible apply Only.of (State.raiseOnce_only _ _ _ _ _ _ _)
    | with_reducible apply Only.of (State.writeWithout_only _ _ _ _ _ _)
    | with_reducible apply Only.of (State.readPoison_only _ _ _ _)

theorem State.enterRecord_only (s x0 x1 x2 x3) : Only [.tel, .channels, .mem, .churns, .watch, .events, .ledger] s (State.enterRecord s x0 x1 x2 x3) := by
  unfold State.enterRecord
  repeat' first
    | with_reducible exact Only.refl _
    | decide
    | (with_reducible apply Only.ite) <;> intro _
    | with_reducible apply Only.of (State.setCtx_only _ _ _)
    | with_reducible apply Only.of (State.readComplete_only _ _ _)
    | with_reducible apply Only.of (State.skipPoisoned_only _ _ _ _ _)

theorem State.incomplete_only (s x0) : Only [.watch] s (State.incomplete s x0) := by
  unfold State.incomplete
  repeat' first
    | with_reducible exact Only.refl _
    | decide
    | with_reducible apply Only.of (State.setWatch_only _ _ _)
    | with_reducible refine Only.thenFold ?_ (fun t x => ?_)

theorem State.takeover_only (s x0) : Only [.halt, .tel, .churns, .watch, .events, .ledger] s (State.takeover s x0) := by
  unfold State.takeover
  repeat' first
    | with_reducible exact Only.refl _
    | decide
    | (with_reducible apply Only.ite) <;> intro _
    | with_reducible apply Only.of (State.raise_only _ _ _ _ _ _)
    | with_reducible apply Only.of (State.countedFault_only _ _)
    | with_reducible apply Only.of (State.setChurn_only _ _ _)
    | with_reducible apply Only.of (State.incomplete_only _ _)
    | with_reducible apply Only.of (State.sweepLost_only _ _)

theorem State.watchAccumulate_only (s x0 x1 x2) : Only [.churns] s (State.watchAccumulate s x0 x1 x2) :=
  (State.setCtx_only _ _ _).mono (by decide)

theorem State.lostRecord_only (s x0 x1 x2) : Only [.tel, .channels, .mem, .churns, .events, .ledger] s (State.lostRecord s x0 x1 x2) := by
  unfold State.lostRecord
  repeat' first
    | with_reducible exact Only.refl _
    | decide
    | with_reducible apply Only.of (State.raise_only _ _ _ _ _ _)
    | with_reducible apply Only.of (State.writeWithout_only _ _ _ _ _ _)

theorem State.retagStale_only (s x0 x1 x2 x3) : Only [.tel, .channels, .mem, .churns, .watch, .events, .ledger] s (State.retagStale s x0 x1 x2 x3) := by
  unfold State.retagStale
  repeat' first
    | with_reducible exact Only.refl _
    | decide
    | with_reducible apply Only.of (State.setWatch_only _ _ _)
    | with_reducible apply Only.of (State.raiseOnce_only _ _ _ _ _ _ _)
    | with_reducible apply Only.of (State.setCtx_only _ _ _)
    | with_reducible apply Only.of (State.issueRetag_only _ _ _ _ _)

theorem State.startRecord_only (s x0 x1 x2 x3) : Only [.tel, .channels, .mem, .churns, .watch, .events, .ledger] s (State.startRecord s x0 x1 x2 x3) := by
  unfold State.startRecord
  repeat' first
    | with_reducible exact Only.refl _
    | decide
    | (with_reducible apply Only.ite) <;> intro _
    | with_reducible apply Only.of (State.enterRecord_only _ _ _ _ _)
    | with_reducible apply Only.of (State.retagStale_only _ _ _ _ _)

theorem State.skipWritten_only (s x0 x1 x2 x3) : Only [.stats, .tel, .hbm, .tiles, .channels, .mem, .churns, .watch, .events, .ledger] s (State.skipWritten s x0 x1 x2 x3) := by
  unfold State.skipWritten
  repeat' first
    | with_reducible exact Only.refl _
    | decide
    | with_reducible apply Only.of (State.reportVerified_only _ _ _)
    | with_reducible apply Only.of (State.setCtx_only _ _ _)
    | with_reducible apply Only.of (State.readComplete_only _ _ _)
    | with_reducible apply Only.of (State.issueCopies_only _ _ _ _ _)
    | with_reducible apply Only.of (State.planePoison_only _ _ _)
    | extract_lets +onlyGivenNames x
    | split

theorem State.firstRead_only (s x0 x1 x2) : Only [.halt, .stats, .tel, .hbm, .tiles, .channels, .mem, .churns, .watch, .events, .ledger] s (State.firstRead s x0 x1 x2) := by
  unfold State.firstRead
  repeat' first
    | with_reducible exact Only.refl _
    | decide
    | (with_reducible apply Only.ite) <;> intro _
    | with_reducible apply Only.of (State.readRecord_only _ _ _ _)
    | with_reducible apply Only.of (State.skipWritten_only _ _ _ _ _)
    | with_reducible apply Only.of (State.startRecord_only _ _ _ _ _)
    | with_reducible apply Only.of (State.lostRecord_only _ _ _ _)
    | extract_lets +onlyGivenNames x
    | split

theorem State.endPrologue_only (s x0) : Only [.churns] s (State.endPrologue s x0) :=
  State.setChurn_only _ _ _

theorem State.storeRecord_only (s x0 x1 x2 x3 x4) : Only [.churns] s (State.storeRecord s x0 x1 x2 x3 x4) := by
  unfold State.storeRecord
  repeat' first
    | with_reducible exact Only.refl _
    | decide
    | with_reducible apply Only.of (State.setCtx_only _ _ _)
    | with_reducible apply Only.of (State.addTally_only _ _ _)
    | extract_lets +onlyGivenNames x
    | split

theorem State.recordVerified_only (s x0 x1) : Only [.tel, .mem, .tables, .churns, .watch, .events, .exp] s (State.recordVerified s x0 x1) := by
  unfold State.recordVerified
  repeat' first
    | with_reducible exact Only.refl _
    | decide
    | with_reducible apply Only.of (State.setChurn_only _ _ _)
    | with_reducible apply Only.of (State.recordKept_only _ _ _)
    | with_reducible apply Only.of (State.settleSums_only _ _ _)
    | extract_lets +onlyGivenNames x
    | split

theorem State.storeStage_only (s x0 x1 x2) : Only [.churns] s (State.storeStage s x0 x1 x2) :=
  State.setCtx_only _ _ _

theorem State.recompute_only (s x0 x1) : Only [.out, .halt, .phases, .stats, .replay, .reports, .seq, .queues, .tel, .mem, .tables, .emb, .acc, .churns, .hist, .attn, .watch, .pen, .conns, .msgs, .events, .ledger, .exp, .rel] s (State.recompute s x0 x1) := by
  unfold State.recompute
  repeat' first
    | with_reducible exact Only.refl _
    | decide
    | (with_reducible apply Only.ite) <;> intro _
    | with_reducible apply Only.of (State.raise_only _ _ _ _ _ _)
    | with_reducible apply Only.of (State.checkFault_only _ _)
    | with_reducible apply Only.of (State.setCtx_only _ _ _)
    | with_reducible apply Only.of (State.faultChurn_only _ _)

theorem State.finishRecord_only (s x0) : Only [.stats, .tel, .hbm, .tiles, .channels, .mem, .churns, .events, .ledger] s (State.finishRecord s x0) := by
  unfold State.finishRecord
  repeat' first
    | with_reducible exact Only.refl _
    | decide
    | with_reducible apply Only.of (State.setCtx_only _ _ _)
    | with_reducible apply Only.of (State.releaseHeld_only _ _)
    | with_reducible apply Only.of (State.issueCopies_only _ _ _ _ _)
    | extract_lets +onlyGivenNames x
    | split

theorem State.qprepare_only (s x0 x1 x2) : Only [.churns] s (State.qprepare s x0 x1 x2) := by
  unfold State.qprepare
  repeat' first
    | with_reducible exact Only.refl _
    | decide
    | with_reducible apply Only.of (State.setCtx_only _ _ _)
    | with_reducible apply Only.of (State.addSignals_only _ _ _)
    | extract_lets +onlyGivenNames x
    | split

theorem State.loadField_only (s x0 x1 x2 x3) : Only [.churns] s (State.loadField s x0 x1 x2 x3) := by
  unfold State.loadField
  repeat' first
    | with_reducible exact Only.refl _
    | decide
    | with_reducible apply Only.of (State.setCtx_only _ _ _)
    | with_reducible apply Only.of (State.addSignals_only _ _ _)

theorem State.endSection_only (s x0 x1 x2 x3 x4) : Only [.out, .halt, .phases, .stats, .replay, .reports, .seq, .queues, .tel, .hbm, .tiles, .channels, .mem, .tables, .emb, .acc, .churns, .hist, .attn, .watch, .pen, .conns, .msgs, .events, .ledger, .exp, .rel] s (State.endSection s x0 x1 x2 x3 x4) := by
  unfold State.endSection
  repeat' first
    | with_reducible assumption
    | with_reducible exact Only.refl _
    | decide
    | with_reducible apply Only.of (State.setCtx_only _ _ _)
    | with_reducible apply Only.of (State.endPrologue_only _ _)
    | with_reducible apply Only.of (State.recompute_only _ _ _)
    | with_reducible apply Only.of (State.finishRecord_only _ _)
    | extract_lets +onlyGivenNames x
    | split

theorem State.reduceLanes_only (s x0 x1 x2 x3 x4) : Only [.churns] s (State.reduceLanes s x0 x1 x2 x3 x4) := by
  unfold State.reduceLanes
  extract_lets x r s1
  have h : Only [.churns] s s1 := (State.addSignals_only _ _ _).mono (by decide)
  clear_value s1 r
  split
  · exact Only.of (State.setCtx_only _ _ _) (by decide) h
  · exact h

/-! ## StepOps -/

theorem State.forwardDone_only (s) : Only [.out, .stats, .reports, .pen, .conns] s (State.forwardDone s) := by
  unfold State.forwardDone
  repeat' first
    | with_reducible exact Only.refl _
    | decide
    | (with_reducible apply Only.ite) <;> intro _
    | with_reducible apply Only.of (State.upTree_only _ _ _)
    | (fail_if_no_progress ((with_reducible refine Only.lit ?_ ?_) <;> [skip; (intro p; cases p <;> first | exact .inl (by decide) | exact .inr (by (repeat' apply And.intro) <;> rfl))]))

theorem State.reportDone_only (s) : Only [.out, .stats, .reports, .pen, .conns] s (State.reportDone s) := by
  unfold State.reportDone
  repeat' first
    | with_reducible exact Only.refl _
    | decide
    | (with_reducible apply Only.ite) <;> intro _
    | with_reducible apply Only.of (State.forwardDone_only _)
    | (fail_if_no_progress ((with_reducible refine Only.lit ?_ ?_) <;> [skip; (intro p; cases p <;> first | exact .inl (by decide) | exact .inr (by (repeat' apply And.intro) <;> rfl))]))

theorem State.takeExcess_only (s x0 x1) : Only [.out, .stats, .reports, .pen, .conns] s (State.takeExcess s x0 x1) := by
  unfold State.takeExcess
  repeat' first
    | with_reducible exact Only.refl _
    | decide
    | (with_reducible apply Only.ite) <;> intro _
    | with_reducible apply Only.of (State.upTree_only _ _ _)
    | (fail_if_no_progress ((with_reducible refine Only.lit ?_ ?_) <;> [skip; (intro p; cases p <;> first | exact .inl (by decide) | exact .inr (by (repeat' apply And.intro) <;> rfl))]))

theorem State.takeDone_only (s x0) : Only [.out, .stats, .reports, .pen, .conns] s (State.takeDone s x0) := by
  unfold State.takeDone
  repeat' first
    | with_reducible exact Only.refl _
    | decide
    | (with_reducible apply Only.ite) <;> intro _
    | with_reducible apply Only.of (State.forwardDone_only _)
    | (fail_if_no_progress ((with_reducible refine Only.lit ?_ ?_) <;> [skip; (intro p; cases p <;> first | exact .inl (by decide) | exact .inr (by (repeat' apply And.intro) <;> rfl))]))

/-! ## HostOps -/

theorem State.setGroup_only (s x0 x1) : Only [.groups] s (State.setGroup s x0 x1) := by
  refine Only.lit (Only.refl _) ?_
  intro p; cases p <;> first | exact .inl (by decide) | exact .inr (by (repeat' apply And.intro) <;> rfl)

theorem State.setDesc_only (s x0 x1 x2) : Only [.queues] s (State.setDesc s x0 x1 x2) :=
  State.setQueue_only _ _ _

theorem State.finishDesc_only (s x0 x1 x2 x3) : Only [.queues] s (State.finishDesc s x0 x1 x2 x3) :=
  State.setDesc_only _ _ _ _

theorem State.withdraw_only (s x0 x1) : Only [.intake] s (State.withdraw s x0 x1) := by
  unfold State.withdraw
  repeat' first
    | with_reducible exact Only.refl _
    | (with_reducible apply Only.ite) <;> intro _
    | (fail_if_no_progress ((with_reducible refine Only.lit ?_ ?_) <;> [skip; (intro p; cases p <;> first | exact .inl (by decide) | exact .inr (by (repeat' apply And.intro) <;> rfl))]))

theorem State.endIntake_only (s) : Only [.out, .stats, .intake, .reports, .pen, .conns] s (State.endIntake s) := by
  unfold State.endIntake
  repeat' first
    | with_reducible exact Only.refl _
    | decide
    | (with_reducible apply Only.ite) <;> intro _
    | with_reducible apply Only.of (State.reportDone_only _)
    | (fail_if_no_progress ((with_reducible refine Only.lit ?_ ?_) <;> [skip; (intro p; cases p <;> first | exact .inl (by decide) | exact .inr (by (repeat' apply And.intro) <;> rfl))]))

theorem State.failDesc_only (s x0 x1 x2) : Only [.out, .stats, .intake, .reports, .queues, .tel, .pen, .conns, .events] s (State.failDesc s x0 x1 x2) := by
  unfold State.failDesc
  repeat' first
    | with_reducible exact Only.refl _
    | decide
    | with_reducible apply Only.of (State.setQueue_only _ _ _)
    | with_reducible apply Only.of (State.raiseOnce_only _ _ _ _ _ _ _)
    | with_reducible apply Only.of (State.finishDesc_only _ _ _ _ _)
    | with_reducible apply Only.of (State.withdraw_only _ _ _)
    | with_reducible apply Only.of (State.endIntake_only _)
    | (fail_if_no_progress ((with_reducible refine Only.lit ?_ ?_) <;> [skip; (intro p; cases p <;> first | exact .inl (by decide) | exact .inr (by (repeat' apply And.intro) <;> rfl))]))
    | split

theorem State.stopDesc_only (s x0 x1 x2 x3) : Only [.queues, .tel, .events] s (State.stopDesc s x0 x1 x2 x3) := by
  unfold State.stopDesc
  repeat' first
    | with_reducible exact Only.refl _
    | decide
    | with_reducible apply Only.of (State.setQueue_only _ _ _)
    | with_reducible apply Only.of (State.raiseOnce_only _ _ _ _ _ _ _)
    | with_reducible apply Only.of (State.finishDesc_only _ _ _ _ _)

theorem State.failFences_only (s x0) : Only [.out, .stats, .intake, .reports, .queues, .tel, .pen, .conns, .events] s (State.failFences s x0) := by
  unfold State.failFences
  repeat' first
    | with_reducible exact Only.refl _
    | decide
    | (with_reducible apply Only.ite) <;> intro _
    | with_reducible apply Only.of (State.failDesc_only _ _ _ _)
    | with_reducible refine Only.thenFold ?_ (fun t x => ?_)

theorem State.msix_only (s x0 x1) : Only [.out, .ports] s (State.msix s x0 x1) := by
  unfold State.msix
  repeat' first
    | with_reducible exact Only.refl _
    | decide
    | (with_reducible apply Only.ite) <;> intro _
    | with_reducible apply Only.of (State.setPort_only _ _ _)
    | with_reducible apply Only.of (State.toHost_only _ _ _)

theorem State.readHost_only (s x0 x1 x2) : Only [.out, .ports] s (State.readHost s x0 x1 x2) := by
  unfold State.readHost
  repeat' first
    | with_reducible exact Only.refl _
    | decide
    | (with_reducible apply Only.ite) <;> intro _
    | with_reducible apply Only.of (State.setPort_only _ _ _)
    | with_reducible apply Only.of (State.toHost_only _ _ _)

theorem State.readBuffer_only (x0 s x1 x2 x3) : Only [.out, .ports] s (State.readBuffer x0 s x1 x2 x3) := by
  induction x0 generalizing s x1 x2 x3 with
  | zero =>
    unfold State.readBuffer
    repeat' first
      | with_reducible exact Only.refl _
  | succ n ih =>
    unfold State.readBuffer
    repeat' first
      | with_reducible apply Only.of (ih _)
      | with_reducible apply Only.of (ih _ _)
      | with_reducible apply Only.of (ih _ _ _)
      | with_reducible apply Only.of (ih _ _ _ _)
      | with_reducible exact Only.refl _
      | decide
      | (with_reducible apply Only.ite) <;> intro _
      | with_reducible apply Only.of (State.readHost_only _ _ _ _)

theorem State.enterBatch_only (s x0 x1) : Only [.out, .intake, .ports, .queues] s (State.enterBatch s x0 x1) := by
  unfold State.enterBatch
  repeat' first
    | with_reducible exact Only.refl _
    | decide
    | with_reducible apply Only.of (State.setDesc_only _ _ _ _)
    | with_reducible apply Only.of (State.readBuffer_only _ _ _ _ _)
    | (fail_if_no_progress ((with_reducible refine Only.lit ?_ ?_) <;> [skip; (intro p; cases p <;> first | exact .inl (by decide) | exact .inr (by (repeat' apply And.intro) <;> rfl))]))

theorem State.uncover_only (s x0) : Only [.queues] s (State.uncover s x0) :=
  Only.lit (Only.refl s) (by intro p; cases p <;> first | exact .inl (by decide) | exact .inr (by (repeat' apply And.intro) <;> rfl))

theorem State.overBudget_only (s x0 x1) : Only [.intake, .queues, .tel, .events] s (State.overBudget s x0 x1) := by
  unfold State.overBudget
  repeat' first
    | with_reducible exact Only.refl _
    | decide
    | with_reducible apply Only.of (State.raise_only _ _ _ _ _ _)
    | with_reducible apply Only.of (State.uncover_only _ _)
    | with_reducible refine Only.thenFold ?_ (fun t x => ?_)
    | (fail_if_no_progress ((with_reducible refine Only.lit ?_ ?_) <;> [skip; (intro p; cases p <;> first | exact .inl (by decide) | exact .inr (by (repeat' apply And.intro) <;> rfl))]))

theorem State.takeBatch_only (s x0) : Only [.out, .intake, .ports, .queues, .tel, .events] s (State.takeBatch s x0) := by
  unfold State.takeBatch
  repeat' first
    | with_reducible exact Only.refl _
    | decide
    | (with_reducible apply Only.ite) <;> intro _
    | with_reducible apply Only.of (State.enterBatch_only _ _ _)
    | with_reducible apply Only.of (State.overBudget_only _ _ _)
    | split

theorem State.takeAll_only (x0 s x1) : Only [.out, .intake, .ports, .queues, .tel, .events] s (State.takeAll x0 s x1) := by
  induction x0 generalizing s with
  | zero =>
    unfold State.takeAll
    repeat' first
      | with_reducible exact Only.refl _
  | succ n ih =>
    unfold State.takeAll
    repeat' first
      | with_reducible apply Only.of (ih _)
      | with_reducible apply Only.of (ih _ _)
      | with_reducible apply Only.of (ih _ _ _)
      | with_reducible apply Only.of (ih _ _ _ _)
      | with_reducible exact Only.refl _
      | decide
      | (with_reducible apply Only.ite) <;> intro _
      | with_reducible apply Only.of (State.takeBatch_only _ _)

theorem State.takeEveryBatch_only (s) : Only [.out, .intake, .ports, .queues, .tel, .events] s (State.takeEveryBatch s) := by
  unfold State.takeEveryBatch
  repeat' first
    | with_reducible exact Only.refl _
    | decide
    | with_reducible apply Only.of (State.takeAll_only _ _ _)
    | with_reducible refine Only.thenFold ?_ (fun t x => ?_)

theorem State.refillHeld_only (x0 s) : Only [.tel] s (State.refillHeld x0 s) := by
  induction x0 generalizing s with
  | zero =>
    unfold State.refillHeld
    repeat' first
      | with_reducible exact Only.refl _
  | succ n ih =>
    unfold State.refillHeld
    repeat' first
      | with_reducible apply Only.of (ih _)
      | with_reducible apply Only.of (ih _ _)
      | with_reducible apply Only.of (ih _ _ _)
      | with_reducible apply Only.of (ih _ _ _ _)
      | with_reducible exact Only.refl _
      | decide
      | (with_reducible apply Only.ite) <;> intro _
      | with_reducible apply Only.of (State.acceptRecord_only _ _ _)
      | (fail_if_no_progress ((with_reducible refine Only.lit ?_ ?_) <;> [skip; (intro p; cases p <;> first | exact .inl (by decide) | exact .inr (by (repeat' apply And.intro) <;> rfl))]))
      | split

theorem State.offerStepRecord_only (s x0) : Only [.tel] s (State.offerStepRecord s x0) := by
  refine Only.of (State.refillHeld_only _ _) rfl (Only.lit (Only.refl _) ?_)
  intro p; cases p <;> first | exact .inl (by decide) | exact .inr (by (repeat' apply And.intro) <;> rfl)

theorem State.notify_only (s x0) : Only [.out, .ports, .queues] s (State.notify s x0) := by
  unfold State.notify
  repeat' first
    | with_reducible exact Only.refl _
    | decide
    | (with_reducible apply Only.ite) <;> intro _
    | with_reducible apply Only.of (State.setQueue_only _ _ _)
    | with_reducible apply Only.of (State.msix_only _ _ _)

theorem State.writeOutputs_only (s x0 x1) : Only [.out, .ports] s (State.writeOutputs s x0 x1) := by
  unfold State.writeOutputs
  repeat' first
    | with_reducible exact Only.refl _
    | decide
    | (with_reducible apply Only.ite) <;> intro _
    | with_reducible apply Only.of (State.toHost_only _ _ _)

theorem State.complete_only (s x0) : Only [.out, .ports, .queues] s (State.complete s x0) := by
  unfold State.complete
  repeat' first
    | with_reducible exact Only.refl _
    | decide
    | (with_reducible apply Only.ite) <;> intro _
    | with_reducible apply Only.of (State.setQueue_only _ _ _)
    | with_reducible apply Only.of (State.toHost_only _ _ _)
    | with_reducible apply Only.of (State.notify_only _ _)
    | with_reducible apply Only.of (State.writeOutputs_only _ _ _)
    | extract_lets +onlyGivenNames x
    | split

theorem State.writeEntry_only (s x0 x1 x2) : Only [.out, .ports, .queues] s (State.writeEntry s x0 x1 x2) := by
  unfold State.writeEntry
  repeat' first
    | with_reducible exact Only.refl _
    | decide
    | with_reducible apply Only.of (State.setQueue_only _ _ _)
    | with_reducible apply Only.of (State.toHost_only _ _ _)
    | with_reducible apply Only.of (State.notify_only _ _)

theorem State.haltQueue_only (s x0 x1) : Only [.queues, .tel, .events, .exp] s (State.haltQueue s x0 x1) := by
  unfold State.haltQueue
  repeat' first
    | with_reducible exact Only.refl _
    | decide
    | (with_reducible apply Only.ite) <;> intro _
    | with_reducible apply Only.of (State.raise_only _ _ _ _ _ _)
    | with_reducible apply Only.of (State.setQueue_only _ _ _)
    | with_reducible apply Only.of (State.breakExport_only _)

theorem State.finishBatch_only (s x0 x1) : Only [.queues] s (State.finishBatch s x0 x1) :=
  State.setDesc_only _ _ _ _

theorem State.fetchNext_only (s x0) : Only [.out, .ports, .queues] s (State.fetchNext s x0) := by
  unfold State.fetchNext
  repeat' first
    | with_reducible exact Only.refl _
    | decide
    | (with_reducible apply Only.ite) <;> intro _
    | with_reducible apply Only.of (State.setQueue_only _ _ _)
    | with_reducible apply Only.of (State.readHost_only _ _ _ _)

theorem State.readOver_only (s x0 x1 x2) : Only [.ports] s (State.readOver s x0 x1 x2) :=
  State.setPort_only _ _ _

/-! ## Tables -/

theorem State.holdVersion_only (s x0) : Only [.tables] s (State.holdVersion s x0) := by
  refine Only.lit (Only.refl _) ?_
  intro p; cases p <;> first | exact .inl (by decide) | exact .inr (by (repeat' apply And.intro) <;> rfl)

theorem State.holdCurrent_only (s x0) : Only [.tables] s (State.holdCurrent s x0) :=
  State.holdVersion_only _ _

theorem State.loadBlock_only (s x0) : Only [.out, .stats, .intake, .reports, .queues, .tel, .tables, .pen, .conns, .events] s (State.loadBlock s x0) := by
  unfold State.loadBlock
  repeat' first
    | with_reducible exact Only.refl _
    | decide
    | (with_reducible apply Only.ite) <;> intro _
    | with_reducible apply Only.of (State.setDesc_only _ _ _ _)
    | with_reducible apply Only.of (State.finishDesc_only _ _ _ _ _)
    | with_reducible apply Only.of (State.failDesc_only _ _ _ _)
    | with_reducible apply Only.of (State.holdVersion_only _ _)
    | with_reducible apply Only.of (State.holdCurrent_only _ _)
    | extract_lets +onlyGivenNames x
    | split

theorem State.failSwaps_only (s x0) : Only [.queues, .tel, .events] s (State.failSwaps s x0) := by
  unfold State.failSwaps
  repeat' first
    | with_reducible exact Only.refl _
    | decide
    | with_reducible apply Only.of (State.stopDesc_only _ _ _ _ _)
    | with_reducible refine Only.thenFold ?_ (fun t x => ?_)

theorem State.dropStaging_only (s) : Only [.setup, .queues, .tel, .events] s (State.dropStaging s) := by
  unfold State.dropStaging
  repeat' first
    | with_reducible exact Only.refl _
    | decide
    | (with_reducible apply Only.ite) <;> intro _
    | with_reducible apply Only.of (State.stopDesc_only _ _ _ _ _)
    | with_reducible apply Only.of (State.endOp_only _ _)
    | with_reducible refine Only.thenFold ?_ (fun t x => ?_)

theorem State.discardTables_only (s) : Only [.setup, .queues, .tel, .mem, .tables, .events] s (State.discardTables s) := by
  unfold State.discardTables
  repeat' first
    | with_reducible assumption
    | with_reducible exact Only.refl _
    | decide
    | with_reducible apply Only.of (State.raise_only _ _ _ _ _ _)
    | with_reducible apply Only.of (State.failSwaps_only _ _)
    | with_reducible apply Only.of (State.dropStaging_only _)
    | with_reducible refine Only.thenFold ?_ (fun t x => ?_)
    | (fail_if_no_progress ((with_reducible refine Only.lit ?_ ?_) <;> [skip; (intro p; cases p <;> first | exact .inl (by decide) | exact .inr (by (repeat' apply And.intro) <;> rfl))]))

theorem State.dropVersions_only (s x0) : Only [.mem, .tables] s (State.dropVersions s x0) := by
  refine Only.lit (Only.refl _) ?_
  intro p; cases p <;> first | exact .inl (by decide) | exact .inr (by (repeat' apply And.intro) <;> rfl)

theorem State.commitSwap_only (s x0 x1 x2) : Only [.queues, .tel, .mem, .tables, .events] s (State.commitSwap s x0 x1 x2) := by
  unfold State.commitSwap
  repeat' first
    | with_reducible exact Only.refl _
    | decide
    | (with_reducible apply Only.ite) <;> intro _
    | with_reducible apply Only.of (State.raise_only _ _ _ _ _ _)
    | with_reducible apply Only.of (State.finishDesc_only _ _ _ _ _)
    | with_reducible apply Only.of (State.mapTables_only _ _ _)
    | with_reducible apply Only.of (State.dropVersions_only _ _)
    | with_reducible refine Only.thenFold ?_ (fun t x => ?_)
    | (fail_if_no_progress ((with_reducible refine Only.lit ?_ ?_) <;> [skip; (intro p; cases p <;> first | exact .inl (by decide) | exact .inr (by (repeat' apply And.intro) <;> rfl))]))

theorem State.settleVersions_only (s) : Only [.setup, .queues, .tel, .mem, .tables, .events] s (State.settleVersions s) := by
  unfold State.settleVersions
  repeat' first
    | with_reducible exact Only.refl _
    | decide
    | with_reducible apply Only.of (State.failSwaps_only _ _)
    | with_reducible apply Only.of (State.dropStaging_only _)
    | with_reducible apply Only.of (State.mapTables_only _ _ _)
    | with_reducible apply Only.of (State.dropVersions_only _ _)
    | with_reducible apply Only.of (State.commitSwap_only _ _ _ _)
    | with_reducible refine Only.thenFold ?_ (fun t x => ?_)
    | (fail_if_no_progress ((with_reducible refine Only.lit ?_ ?_) <;> [skip; (intro p; cases p <;> first | exact .inl (by decide) | exact .inr (by (repeat' apply And.intro) <;> rfl))]))

theorem State.dropPlan_only (s) : Only [.plan, .queues, .tel, .events, .exp, .sec] s (State.dropPlan s) := by
  refine Only.of (State.breakExport_only _) rfl (Only.lit (Only.refl _) ?_)
  intro p; cases p <;> first | exact .inl (by decide) | exact .inr (by (repeat' apply And.intro) <;> rfl)

theorem State.takeSwap_only (s x0) : Only [.queues, .tel, .mem, .tables, .events] s (State.takeSwap s x0) := by
  unfold State.takeSwap
  repeat' first
    | with_reducible exact Only.refl _
    | decide
    | (with_reducible apply Only.ite) <;> intro _
    | with_reducible apply Only.of (State.setDesc_only _ _ _ _)
    | with_reducible apply Only.of (State.stopDesc_only _ _ _ _ _)
    | with_reducible apply Only.of (State.commitSwap_only _ _ _ _)
    | (fail_if_no_progress ((with_reducible refine Only.lit ?_ ?_) <;> [skip; (intro p; cases p <;> first | exact .inl (by decide) | exact .inr (by (repeat' apply And.intro) <;> rfl))]))
    | extract_lets +onlyGivenNames x
    | split

theorem State.countLoad_only (s x0 x1) : Only [.tel, .watch, .events] s (State.countLoad s x0 x1) := by
  unfold State.countLoad
  repeat' first
    | with_reducible exact Only.refl _
    | decide
    | (with_reducible apply Only.ite) <;> intro _
    | with_reducible apply Only.of (State.raiseOnce_only _ _ _ _ _ _ _)
    | with_reducible apply Only.of (State.countKept_only _ _ _)

theorem State.loadWrite_only (s x0 x1) : Only [.stats, .tel, .hbm, .mem, .events, .ledger] s (State.loadWrite s x0 x1).1 := by
  unfold State.loadWrite
  repeat' first
    | with_reducible exact Only.refl _
    | decide
    | with_reducible apply Only.of (State.raise_only _ _ _ _ _ _)
    | with_reducible apply Only.of (State.writeVerified_only _ _ _ _)
    | extract_lets +onlyGivenNames x
    | split

theorem State.loadWrites_only (x0 x1 s x2) : Only [.stats, .tel, .hbm, .mem, .events, .ledger] s (State.loadWrites x0 x1 s x2).1 := by
  induction x0 generalizing s x1 x2 with
  | nil =>
    unfold State.loadWrites
    repeat' first
      | with_reducible exact Only.refl _
  | cons w ws ih =>
    unfold State.loadWrites
    repeat' first
      | with_reducible apply Only.of (ih _)
      | with_reducible apply Only.of (ih _ _)
      | with_reducible apply Only.of (ih _ _ _)
      | with_reducible apply Only.of (ih _ _ _ _)
      | with_reducible exact Only.refl _
      | decide
      | with_reducible apply Only.of (State.loadWrite_only _ _ _)
      | extract_lets +onlyGivenNames x
      | split

theorem State.loadRows_only (s x0 x1 x2) : Only [.out, .stats, .intake, .reports, .queues, .tel, .hbm, .mem, .watch, .pen, .conns, .events, .ledger] s (State.loadRows s x0 x1 x2) := by
  unfold State.loadRows
  repeat' first
    | with_reducible exact Only.refl _
    | decide
    | (with_reducible apply Only.ite) <;> intro _
    | with_reducible apply Only.of (State.finishDesc_only _ _ _ _ _)
    | with_reducible apply Only.of (State.failDesc_only _ _ _ _)
    | with_reducible apply Only.of (State.stopDesc_only _ _ _ _ _)
    | with_reducible apply Only.of (State.countLoad_only _ _ _)
    | with_reducible apply Only.of (State.loadWrites_only _ _ _ _)
    | split

theorem State.zeroRegion_only (x0 s x1) : Only [.stats, .tel, .hbm, .mem, .events, .ledger] s (State.zeroRegion x0 s x1) := by
  induction x0 generalizing s x1 with
  | zero =>
    unfold State.zeroRegion
    repeat' first
      | with_reducible exact Only.refl _
  | succ n ih =>
    unfold State.zeroRegion
    repeat' first
      | with_reducible apply Only.of (ih _)
      | with_reducible apply Only.of (ih _ _)
      | with_reducible apply Only.of (ih _ _ _)
      | with_reducible apply Only.of (ih _ _ _ _)
      | with_reducible exact Only.refl _
      | decide
      | with_reducible apply Only.of (State.writeVerified_only _ _ _ _)

theorem State.beginStaging_only (s x0) : Only [.out, .setup, .stats, .intake, .reports, .queues, .tel, .hbm, .mem, .tables, .pen, .conns, .events, .ledger] s (State.beginStaging s x0) := by
  unfold State.beginStaging
  repeat' first
    | with_reducible assumption
    | with_reducible exact Only.refl _
    | decide
    | with_reducible apply Only.of (State.failDesc_only _ _ _ _)
    | with_reducible apply Only.of (State.mapTables_only _ _ _)
    | with_reducible apply Only.of (State.dropVersions_only _ _)
    | with_reducible apply Only.of (State.startOp_only _ _)
    | with_reducible apply Only.of (State.zeroRegion_only _ _ _)
    | with_reducible refine Only.thenFold ?_ (fun t x => ?_)
    | (fail_if_no_progress ((with_reducible refine Only.lit ?_ ?_) <;> [skip; (intro p; cases p <;> first | exact .inl (by decide) | exact .inr (by (repeat' apply And.intro) <;> rfl))]))
    | extract_lets +onlyGivenNames x
    | split

theorem State.endStaging_only (s) : Only [.setup, .queues, .tables] s (State.endStaging s) := by
  unfold State.endStaging
  repeat' first
    | with_reducible exact Only.refl _
    | decide
    | (with_reducible apply Only.ite) <;> intro _
    | with_reducible apply Only.of (State.finishDesc_only _ _ _ _ _)
    | with_reducible apply Only.of (State.endOp_only _ _)
    | with_reducible apply Only.of (State.mapTables_only _ _ _)
    | with_reducible refine Only.thenFold ?_ (fun t x => ?_)

theorem State.takeDiscard_only (s x0) : Only [.queues, .tel, .mem, .tables, .events] s (State.takeDiscard s x0) := by
  unfold State.takeDiscard
  repeat' first
    | with_reducible exact Only.refl _
    | decide
    | (with_reducible apply Only.ite) <;> intro _
    | with_reducible apply Only.of (State.finishDesc_only _ _ _ _ _)
    | with_reducible apply Only.of (State.stopDesc_only _ _ _ _ _)
    | with_reducible apply Only.of (State.failSwaps_only _ _)
    | with_reducible apply Only.of (State.dropVersions_only _ _)
    | (fail_if_no_progress ((with_reducible refine Only.lit ?_ ?_) <;> [skip; (intro p; cases p <;> first | exact .inl (by decide) | exact .inr (by (repeat' apply And.intro) <;> rfl))]))
    | extract_lets +onlyGivenNames x
    | split

end Sys2Proof.Machine
end

