-- ==== Sys2Proof/Laws/OnlyWindow.lean ====
section
/-! SUPPORT. The parts of the state that each operation of the setup window, the memory ports, lookup and rows, the exchange stage, export, history and the watch
may change (Only): one lemma per operation, cited instead of its text. -/

-- Checked one theorem at a time: the package as one text then needs less memory.
set_option Elab.async false

namespace Sys2Proof.Machine

/-! ## Window -/

theorem State.outOfRange_only (s x0) : Only [.setup] s (State.outOfRange s x0) :=
  State.log_only _ _ _ _

theorem State.writeGroupCfg_only (s x0) : Only [.setup, .groups, .tel, .events] s (State.writeGroupCfg s x0) := by
  unfold State.writeGroupCfg
  repeat' first
    | with_reducible exact Only.refl _
    | decide
    | (with_reducible apply Only.ite) <;> intro _
    | with_reducible apply Only.of (State.raise_only _ _ _ _ _ _)
    | with_reducible apply Only.of (State.setGroup_only _ _ _)
    | with_reducible apply Only.of (State.log_only _ _ _ _)
    | with_reducible apply Only.of (State.outOfRange_only _ _)

theorem State.busyWrite_only (s x0) : Only [.setup, .tel, .events] s (State.busyWrite s x0) := by
  unfold State.busyWrite
  repeat' first
    | with_reducible exact Only.refl _
    | decide
    | (with_reducible apply Only.ite) <;> intro _
    | with_reducible apply Only.of (State.raise_only _ _ _ _ _ _)
    | with_reducible apply Only.of (State.log_only _ _ _ _)

theorem State.denied_only (s x0 x1) : Only [.setup, .tel, .events] s (State.denied s x0 x1) := by
  unfold State.denied
  repeat' first
    | with_reducible exact Only.refl _
    | decide
    | (with_reducible apply Only.ite) <;> intro _
    | with_reducible apply Only.of (State.log_only _ _ _ _)
    | with_reducible apply Only.of (State.raiseOnce_only _ _ _ _ _ _ _)

theorem State.guardedWrite_only {m : List Part} (s x0 x1 x2 x3 l u) (k : [Part.setup, .tel, .events].all m.contains = true)
    (h1 : Only m s (l s)) (h2 : Only m s (u s)) : Only m s (State.guardedWrite s x0 x1 x2 x3 l u) := by
  unfold State.guardedWrite
  exact Only.ite (fun _ => (State.denied_only _ _ _).mono (Part.sub_trans (by decide) k)) fun _ =>
    Only.ite (fun _ => (State.busyWrite_only _ _).mono (Part.sub_trans (by decide) k)) fun _ =>
    Only.ite (fun _ => (State.log_only _ _ _ _).mono (Part.sub_trans (by decide) k)) fun _ =>
    Only.ite (fun _ => h1.trans ((State.log_only _ _ _ _).mono (Part.sub_trans (by decide) k))) fun _ => h2

theorem State.setPending_only (s x0) : Only [.pend] s (State.setPending s x0) := by
  refine Only.lit (Only.refl _) ?_
  intro p; cases p <;> first | exact .inl (by decide) | exact .inr (by (repeat' apply And.intro) <;> rfl)

theorem State.writeAux_only (s x0) : Only [.pend, .setup, .tel, .events] s (State.writeAux s x0) := by
  unfold State.writeAux
  repeat' first
    | with_reducible exact Only.refl _
    | decide
    | (with_reducible apply Only.ite) <;> intro _
    | with_reducible apply Only.of (State.raise_only _ _ _ _ _ _)
    | with_reducible apply Only.of (State.log_only _ _ _ _)
    | with_reducible apply Only.of (State.outOfRange_only _ _)
    | with_reducible apply Only.of (State.setPending_only _ _)

theorem State.writeMsix_only (s x0 x1 x2) : Only [.out, .ports] s (State.writeMsix s x0 x1 x2) := by
  unfold State.writeMsix
  repeat' first
    | with_reducible exact Only.refl _
    | decide
    | (with_reducible apply Only.ite) <;> intro _
    | with_reducible apply Only.of (State.setPort_only _ _ _)
    | with_reducible apply Only.of (State.toHost_only _ _ _)

theorem State.windowWrite_only {m : List Part} (s x0 x1 x2 x3 l u) (k : [Part.out, .setup, .ports, .tel, .events].all m.contains = true)
    (h1 : ∀ t, Only m t (l t)) (h2 : ∀ t, Only m t (u t)) : Only m s (State.windowWrite s x0 x1 x2 x3 l u) := by
  unfold State.windowWrite
  extract_lets armed _ s0
  have hs : [Part.setup].all m.contains = true := Part.sub_trans (by decide) k
  have h0 : Only m s s0 := Only.ite (fun _ => Only.mono (m := [.setup]) (Only.lit (Only.refl s) (by (intro p; cases p <;> first | exact .inl (by decide) | exact .inr (by (repeat' apply And.intro) <;> rfl)))) hs) (fun _ => Only.refl s)
  clear_value s0
  refine Only.ite (fun _ => Only.refl s) (fun _ => Only.ite (fun _ => h0.trans ((State.log_only _ _ _ _).mono (Part.sub_trans (by decide) k))) (fun _ => ?_))
  split
  · exact h0.trans ((State.writeMsix_only _ _ _ _).mono (Part.sub_trans (by decide) k))
  · exact h0
  · refine Only.ite (fun _ => h0.trans ((State.denied_only _ _ _).mono (Part.sub_trans (by decide) k))) (fun _ =>
      Only.ite (fun _ => h0.trans ((State.log_only _ _ _ _).mono (Part.sub_trans (by decide) k))) (fun _ => ?_))
    split
    · exact Only.ite (fun _ => h0.trans ((State.busyWrite_only _ _).mono (Part.sub_trans (by decide) k)))
        (fun _ => h0.trans ((State.log_only _ _ _ _).mono (Part.sub_trans (by decide) k)))
    · exact h0.trans (State.guardedWrite_only _ _ _ _ _ _ _ (Part.sub_trans (by decide) k) (h1 _) (h2 _))

theorem State.endDisarm_only (s x0) : Only [.out, .stats, .intake, .reports, .queues, .tel, .pen, .conns, .events] s (State.endDisarm s x0) := by
  unfold State.endDisarm
  repeat' first
    | with_reducible exact Only.refl _
    | decide
    | (with_reducible apply Only.ite) <;> intro _
    | with_reducible apply Only.of (State.setQueue_only _ _ _)
    | with_reducible apply Only.of (State.failFences_only _ _)

theorem State.setAdmit_only (s : State) (a b : Word) : Only [.seq] s { s with seq.admitNeed := a, seq.admitHave := b } := by
  refine Only.lit (Only.refl s) ?_
  (intro p; cases p <;> first | exact .inl (by decide) | exact .inr (by (repeat' apply And.intro) <;> rfl))

theorem State.runAdmission_only (s x0 x1) : Only [.seq, .tel, .events] s (State.runAdmission s x0 x1).1 := by
  unfold State.runAdmission
  extract_lets _ s1
  have h : Only [.seq] s s1 := State.setAdmit_only _ _ _
  clear_value s1
  split
  · exact h.mono (by decide)
  · exact Only.of (State.raise_only _ _ _ _ _ _) (by decide) (h.mono (by decide))

theorem State.writePlain_only (s x0 x1) : Only [.setup, .win, .groups, .queues, .mem, .watch, .pen, .herd, .events] s (State.writePlain s x0 x1) := by
  unfold State.writePlain
  repeat' first
    | with_reducible exact Only.refl _
    | decide
    | (with_reducible apply Only.ite) <;> intro _
    | with_reducible apply Only.of (State.setQueue_only _ _ _)
    | with_reducible apply Only.of (State.setGroup_only _ _ _)
    | with_reducible apply Only.of (State.log_only _ _ _ _)
    | with_reducible apply Only.of (State.outOfRange_only _ _)
    | (fail_if_no_progress ((with_reducible refine Only.lit ?_ ?_) <;> [skip; (intro p; cases p <;> first | exact .inl (by decide) | exact .inr (by (repeat' apply And.intro) <;> rfl))]))
    | split

theorem State.writeExcl_only (s x0 x1) : Only [.pend, .setup] s (State.writeExcl s x0 x1) := by
  unfold State.writeExcl
  repeat' first
    | with_reducible exact Only.refl _
    | decide
    | (with_reducible apply Only.ite) <;> intro _
    | with_reducible apply Only.of (State.outOfRange_only _ _)
    | with_reducible apply Only.of (State.setPending_only _ _)

theorem State.writeTickCtrl_only (s x0 x1) : Only [.pend, .setup, .tel, .events] s (State.writeTickCtrl s x0 x1) := by
  unfold State.writeTickCtrl
  repeat' first
    | with_reducible exact Only.refl _
    | decide
    | (with_reducible apply Only.ite) <;> intro _
    | with_reducible apply Only.of (State.raise_only _ _ _ _ _ _)
    | with_reducible apply Only.of (State.outOfRange_only _ _)
    | with_reducible apply Only.of (State.setPending_only _ _)

theorem State.writeTickPeriod_only (s x0) : Only [.pend, .setup, .tel, .events] s (State.writeTickPeriod s x0) := by
  unfold State.writeTickPeriod
  repeat' first
    | with_reducible exact Only.refl _
    | decide
    | (with_reducible apply Only.ite) <;> intro _
    | with_reducible apply Only.of (State.raise_only _ _ _ _ _ _)
    | with_reducible apply Only.of (State.outOfRange_only _ _)
    | with_reducible apply Only.of (State.setPending_only _ _)

theorem State.writeTcMap_only (s x0) : Only [.pend] s (State.writeTcMap s x0) :=
  State.setPending_only _ _

theorem State.writePowerLimit_only (s x0) : Only [.pend, .setup] s (State.writePowerLimit s x0) := by
  unfold State.writePowerLimit
  repeat' first
    | with_reducible exact Only.refl _
    | decide
    | (with_reducible apply Only.ite) <;> intro _
    | with_reducible apply Only.of (State.outOfRange_only _ _)
    | with_reducible apply Only.of (State.setPending_only _ _)

theorem State.writeWatchCtrl_only (s x0) : Only [.pend, .setup] s (State.writeWatchCtrl s x0) := by
  unfold State.writeWatchCtrl
  repeat' first
    | with_reducible exact Only.refl _
    | decide
    | (with_reducible apply Only.ite) <;> intro _
    | with_reducible apply Only.of (State.outOfRange_only _ _)
    | with_reducible apply Only.of (State.setPending_only _ _)

theorem State.writeHerd_only (s x0 x1) : Only [.pend] s (State.writeHerd s x0 x1) :=
  State.setPending_only _ _

theorem State.writeBuffered_only (s x0 x1) : Only [.pend, .setup, .win, .groups, .queues, .mem, .watch, .pen, .herd, .events] s (State.writeBuffered s x0 x1) := by
  unfold State.writeBuffered
  repeat' first
    | with_reducible exact Only.refl _
    | decide
    | with_reducible apply Only.of (State.setPending_only _ _)
    | with_reducible apply Only.of (State.writeTcMap_only _ _)
    | with_reducible apply Only.of (State.writeExcl_only _ _ _)
    | with_reducible apply Only.of (State.writePowerLimit_only _ _)
    | with_reducible apply Only.of (State.writeWatchCtrl_only _ _)
    | with_reducible apply Only.of (State.writePlain_only _ _ _)
    | with_reducible apply Only.of (State.writeHerd_only _ _ _)
    | split

theorem State.disarmQueue_only (s) : Only [.queues] s (State.disarmQueue s) := by
  unfold State.disarmQueue
  repeat' first
    | with_reducible exact Only.refl _
    | decide
    | (with_reducible apply Only.ite) <;> intro _
    | with_reducible apply Only.of (State.setQueue_only _ _ _)

theorem State.armQueue_only (s) : Only [.setup, .ports, .queues, .tel, .events] s (State.armQueue s) := by
  unfold State.armQueue
  repeat' first
    | with_reducible exact Only.refl _
    | decide
    | (with_reducible apply Only.ite) <;> intro _
    | with_reducible apply Only.of (State.raise_only _ _ _ _ _ _)
    | with_reducible apply Only.of (State.setQueue_only _ _ _)
    | with_reducible apply Only.of (State.log_only _ _ _ _)
    | with_reducible apply Only.of (State.setPort_only _ _ _)
    | with_reducible apply Only.of (State.refillHeld_only _ _)

theorem State.writeQCmd_only (s x0) : Only [.setup, .ports, .queues, .tel, .events] s (State.writeQCmd s x0) := by
  unfold State.writeQCmd
  repeat' first
    | with_reducible exact Only.refl _
    | decide
    | with_reducible apply Only.of (State.outOfRange_only _ _)
    | with_reducible apply Only.of (State.disarmQueue_only _)
    | with_reducible apply Only.of (State.armQueue_only _)
    | split

theorem State.clampRegulators_only (s) : Only [.pend, .tel, .events] s (State.clampRegulators s) := by
  unfold State.clampRegulators
  repeat' first
    | with_reducible exact Only.refl _
    | decide
    | (with_reducible apply Only.ite) <;> intro _
    | with_reducible apply Only.of (State.raise_only _ _ _ _ _ _)
    | (fail_if_no_progress ((with_reducible refine Only.lit ?_ ?_) <;> [skip; (intro p; cases p <;> first | exact .inl (by decide) | exact .inr (by (repeat' apply And.intro) <;> rfl))]))
    | split

theorem State.writeRegulator_only (s x0 x1 x2) : Only [.pend, .setup, .tel, .events] s (State.writeRegulator s x0 x1 x2) := by
  unfold State.writeRegulator
  repeat' first
    | with_reducible exact Only.refl _
    | decide
    | (with_reducible apply Only.ite) <;> intro _
    | with_reducible apply Only.of (State.outOfRange_only _ _)
    | with_reducible apply Only.of (State.setPending_only _ _)
    | with_reducible apply Only.of (State.clampRegulators_only _)

theorem State.writeUnlock_only (s x0) : Only [.setup] s (State.writeUnlock s x0) := by
  unfold State.writeUnlock
  repeat' first
    | with_reducible exact Only.refl _
    | decide
    | (with_reducible apply Only.ite) <;> intro _
    | with_reducible apply Only.of (State.log_only _ _ _ _)
    | (fail_if_no_progress ((with_reducible refine Only.lit ?_ ?_) <;> [skip; (intro p; cases p <;> first | exact .inl (by decide) | exact .inr (by (repeat' apply And.intro) <;> rfl))]))

theorem State.applyRetrain_only (s) : Only [.pend, .setup] s (State.applyRetrain s) := by
  unfold State.applyRetrain
  repeat' first
    | with_reducible exact Only.refl _
    | decide
    | (with_reducible apply Only.ite) <;> intro _
    | with_reducible apply Only.of (State.log_only _ _ _ _)
    | (fail_if_no_progress ((with_reducible refine Only.lit ?_ ?_) <;> [skip; (intro p; cases p <;> first | exact .inl (by decide) | exact .inr (by (repeat' apply And.intro) <;> rfl))]))

theorem State.applyPeriod_only (s x0) : Only [.active, .pend, .setup, .seq, .tel, .events] s (State.applyPeriod s x0) := by
  unfold State.applyPeriod
  repeat' first
    | with_reducible exact Only.refl _
    | decide
    | (with_reducible apply Only.ite) <;> intro _
    | with_reducible apply Only.of (State.log_only _ _ _ _)
    | with_reducible apply Only.of (State.runAdmission_only _ _ _)
    | (fail_if_no_progress ((with_reducible refine Only.lit ?_ ?_) <;> [skip; (intro p; cases p <;> first | exact .inl (by decide) | exact .inr (by (repeat' apply And.intro) <;> rfl))]))
    | split

theorem State.applyExclusion_only (s) : Only [.active, .setup, .plan, .queues, .tel, .mem, .tables, .events, .exp, .sec] s (State.applyExclusion s) := by
  unfold State.applyExclusion
  repeat' first
    | with_reducible exact Only.refl _
    | decide
    | (with_reducible apply Only.ite) <;> intro _
    | with_reducible apply Only.of (State.raise_only _ _ _ _ _ _)
    | with_reducible apply Only.of (State.discardTables_only _)
    | with_reducible apply Only.of (State.dropPlan_only _)
    | (fail_if_no_progress ((with_reducible refine Only.lit ?_ ?_) <;> [skip; (intro p; cases p <;> first | exact .inl (by decide) | exact .inr (by (repeat' apply And.intro) <;> rfl))]))

theorem State.trimHistories_only (s) : Only [.watch] s (State.trimHistories s) := by
  unfold State.trimHistories
  repeat' first
    | with_reducible exact Only.refl _
    | decide
    | with_reducible apply Only.of (State.setWatch_only _ _ _)
    | with_reducible refine Only.thenFold ?_ (fun t x => ?_)
    | split

theorem State.applyPoint_only (s x0) : Only [.active, .pend, .setup, .seq, .plan, .queues, .tel, .mem, .tables, .watch, .events, .exp, .sec] s (State.applyPoint s x0) := by
  unfold State.applyPoint
  repeat' first
    | with_reducible exact Only.refl _
    | decide
    | (with_reducible apply Only.ite) <;> intro _
    | with_reducible apply Only.of (State.clampRegulators_only _)
    | with_reducible apply Only.of (State.applyRetrain_only _)
    | with_reducible apply Only.of (State.applyPeriod_only _ _)
    | with_reducible apply Only.of (State.applyExclusion_only _)
    | with_reducible apply Only.of (State.trimHistories_only _)
    | (fail_if_no_progress ((with_reducible refine Only.lit ?_ ?_) <;> [skip; (intro p; cases p <;> first | exact .inl (by decide) | exact .inr (by (repeat' apply And.intro) <;> rfl))]))

theorem State.writeApply_only (s x0) : Only [.active, .pend, .setup, .seq, .plan, .queues, .tel, .mem, .tables, .watch, .events, .exp, .sec] s (State.writeApply s x0) := by
  unfold State.writeApply
  repeat' first
    | with_reducible exact Only.refl _
    | decide
    | (with_reducible apply Only.ite) <;> intro _
    | with_reducible apply Only.of (State.log_only _ _ _ _)
    | with_reducible apply Only.of (State.applyPoint_only _ _)
    | (fail_if_no_progress ((with_reducible refine Only.lit ?_ ?_) <;> [skip; (intro p; cases p <;> first | exact .inl (by decide) | exact .inr (by (repeat' apply And.intro) <;> rfl))]))

theorem State.latchRead_only {m : List Part} (s x0 x1 x2 x3 f) (k : [Part.out, .setup].all m.contains = true) (h : ∀ t, Only m t (f t)) :
    Only m s (State.latchRead s x0 x1 x2 x3 f) := by
  unfold State.latchRead
  have e (o : Output) : Only m s (s.emit o) := (State.emit_only _ _).mono (Part.sub_trans (by decide) k)
  exact Only.ite (fun _ => Only.refl s) (fun _ => Only.ite (fun _ => (e _).trans ((State.log_only _ _ _ _).mono (Part.sub_trans (by decide) k)))
    (fun _ => Only.ite (fun _ => (e _).trans (h _)) (fun _ => e _)))

/-! ## MemPorts -/

theorem State.stackCrit_only (s x0 x1) : Only [.stats, .void, .tel, .channels, .events] s (State.stackCrit s x0 x1) := by
  unfold State.stackCrit
  repeat' first
    | with_reducible exact Only.refl _
    | decide
    | with_reducible apply Only.of (State.raise_only _ _ _ _ _ _)
    | with_reducible apply Only.of (State.voidPromise_only _ _)
    | (fail_if_no_progress ((with_reducible refine Only.lit ?_ ?_) <;> [skip; (intro p; cases p <;> first | exact .inl (by decide) | exact .inr (by (repeat' apply And.intro) <;> rfl))]))

theorem State.channelTrained_only (s x0 x1) : Only [.channels] s (State.channelTrained s x0 x1) :=
  State.setChannel_only _ _ _

theorem State.spareLanes_only (s x0 x1) : Only [.tel, .channels, .events, .ledger] s (State.spareLanes s x0 x1) := by
  unfold State.spareLanes
  repeat' first
    | with_reducible exact Only.refl _
    | decide
    | with_reducible apply Only.of (State.raise_only _ _ _ _ _ _)
    | with_reducible apply Only.of (State.logged_only _ _)
    | with_reducible apply Only.of (State.setChannel_only _ _ _)
    | with_reducible refine Only.thenFold ?_ (fun t x => ?_)

theorem State.channelDown_only (s x0) : Only [.halt, .tel, .channels, .events, .ledger] s (State.channelDown s x0) := by
  unfold State.channelDown
  repeat' first
    | with_reducible exact Only.refl _
    | decide
    | with_reducible apply Only.of (State.raiseHalt_only _ _ _ _ _)
    | with_reducible apply Only.of (State.setChannel_only _ _ _)
    | with_reducible apply Only.of (State.permanentNow_only _ _)

theorem State.appendFailed_only (s x0 x1) : Only [.halt, .tel, .channels, .mem, .hist, .events, .ledger] s (State.appendFailed s x0 x1) := by
  unfold State.appendFailed
  repeat' first
    | with_reducible exact Only.refl _
    | decide
    | (with_reducible apply Only.ite) <;> intro _
    | with_reducible apply Only.of (State.raiseHalt_only _ _ _ _ _)
    | with_reducible apply Only.of (State.portWrite_only _ _)
    | (fail_if_no_progress ((with_reducible refine Only.lit ?_ ?_) <;> [skip; (intro p; cases p <;> first | exact .inl (by decide) | exact .inr (by (repeat' apply And.intro) <;> rfl))]))

theorem State.readFaults_only (s x0 x1) : Only [.out, .halt, .phases, .stats, .replay, .reports, .seq, .queues, .tel, .emb, .acc, .hist, .attn, .watch, .pen, .conns, .msgs, .events, .ledger, .rel] s (State.readFaults s x0 x1) := by
  unfold State.readFaults
  refine Only.ite (fun _ => Only.refl _) (fun _ => ?_)
  extract_lets new _ _ s1
  have h : Only [.out, .halt, .phases, .stats, .replay, .reports, .seq, .queues, .tel, .emb, .acc, .hist, .attn, .watch, .pen, .conns, .msgs, .events, .ledger, .rel] s s1 := Only.lit (Only.refl s) (by (intro p; cases p <;> first | exact .inl (by decide) | exact .inr (by (repeat' apply And.intro) <;> rfl)))
  clear_value s1 new
  split
  · exact Only.of (State.checkFault_only _ _) (by decide) h
  · exact Only.of (State.checkFault_only _ _) (by decide) h
  · exact h

theorem State.stageBlock_only (s x0 x1) : Only [.out, .halt, .phases, .stats, .replay, .reports, .seq, .queues, .tel, .mem, .emb, .acc, .hist, .attn, .watch, .pen, .conns, .msgs, .events, .ledger, .rel] s (State.stageBlock s x0 x1).1 := by
  unfold State.stageBlock
  repeat' first
    | with_reducible assumption
    | with_reducible exact Only.refl _
    | decide
    | with_reducible apply Only.of (State.readFaults_only _ _ _)
    | with_reducible apply Only.of (State.readBlock_only _ _ _)
    | extract_lets +onlyGivenNames x
    | split

theorem State.logTouched_only (s x0) : Only [.exp] s (State.logTouched s x0) :=
  State.logItem_only _ _

theorem State.appendsWritten_only (s) : Only [.out, .stats, .hist, .pen, .conns, .exp] s (State.appendsWritten s) := by
  unfold State.appendsWritten
  repeat' first
    | with_reducible exact Only.refl _
    | decide
    | with_reducible apply Only.of (State.messages_only _ _ _ _)
    | with_reducible apply Only.of (State.logTouched_only _ _)
    | with_reducible refine Only.thenFold ?_ (fun t x => ?_)
    | (fail_if_no_progress ((with_reducible refine Only.lit ?_ ?_) <;> [skip; (intro p; cases p <;> first | exact .inl (by decide) | exact .inr (by (repeat' apply And.intro) <;> rfl))]))

theorem State.writeMemCtrl_only (s x0 x1) : Only [.pend, .setup, .channels] s (State.writeMemCtrl s x0 x1) := by
  unfold State.writeMemCtrl
  repeat' first
    | with_reducible exact Only.refl _
    | decide
    | (with_reducible apply Only.ite) <;> intro _
    | with_reducible apply Only.of (State.log_only _ _ _ _)
    | with_reducible apply Only.of (State.setPending_only _ _)
    | with_reducible apply Only.of (State.startOp_only _ _)
    | with_reducible apply Only.of (State.setChannel_only _ _ _)

theorem State.failedOnce_only {m : List Part} (s x0 x1 x2 f) (k : [Part.halt, .tel, .mem, .tables, .churns, .watch, .events, .exp].all m.contains = true) (h : ∀ t, Only m t (f t)) :
    Only m s (State.failedOnce s x0 x1 x2 f) := by
  unfold State.failedOnce
  exact Only.ite (fun _ => ((State.setCtx_only _ _ _).mono (Part.sub_trans (by decide) k)).trans (h _)) (fun _ => (State.faultChurn_only _ _).mono k)

theorem State.recordEnded_only (s x0 x1 x2) : Only [.halt, .tel, .channels, .mem, .tables, .churns, .watch, .events, .ledger, .exp] s (State.recordEnded s x0 x1 x2) := by
  unfold State.recordEnded
  split
  · exact Only.refl _
  · split
    · exact Only.of (State.reportVerified_only _ _ _) (by decide) ((State.setCtx_only _ _ _).mono (by decide))
    · exact Only.of (State.setChurn_only _ _ _) (by decide) (Only.of (State.flushTally_only _ _ _) (by decide) ((State.recordKept_only _ _ _).mono (by decide)))
    · refine State.failedOnce_only _ _ _ _ _ (by decide) (fun t => ?_)
      rename_i x _ _ _ _
      cases x.item with
      | none => exact Only.refl _
      | some it => exact (State.issueRecord_only _ _ _ _ _).mono (by decide)
    · exact Only.refl _

theorem State.copyEnded_only (s x0 x1 x2 x3) : Only [.halt, .stats, .tel, .hbm, .tiles, .channels, .mem, .tables, .churns, .watch, .events, .ledger, .exp] s (State.copyEnded s x0 x1 x2 x3) := by
  unfold State.copyEnded
  split
  · refine Only.ite (fun _ => Only.of (State.reportVerified_only _ _ _) (by decide) ((State.setCtx_only _ _ _).mono (by decide))) (fun _ =>
      State.failedOnce_only _ _ _ _ _ (by decide) (fun t => ?_))
    split
    next w _ => cases (w.2.parts[x2]?) with
      | none => exact Only.refl _
      | some p => exact (State.issueCopy_only _ _ _ _ _ _).mono (by decide)
    next => exact Only.refl _
  · exact Only.refl _

theorem State.appendEnded_only (s x0 x1) : Only [.out, .halt, .stats, .tel, .channels, .mem, .hist, .pen, .conns, .events, .ledger, .exp] s (State.appendEnded s x0 x1) := by
  unfold State.appendEnded
  repeat' first
    | with_reducible assumption
    | with_reducible exact Only.refl _
    | decide
    | with_reducible apply Only.of (State.appendFailed_only _ _ _)
    | with_reducible apply Only.of (State.appendsWritten_only _)
    | (fail_if_no_progress ((with_reducible refine Only.lit ?_ ?_) <;> [skip; (intro p; cases p <;> first | exact .inl (by decide) | exact .inr (by (repeat' apply And.intro) <;> rfl))]))
    | extract_lets +onlyGivenNames x
    | split

theorem State.retagEnded_only (s x0 x1 x2) : Only [.halt, .tel, .channels, .mem, .tables, .churns, .watch, .events, .ledger, .exp] s (State.retagEnded s x0 x1 x2) := by
  unfold State.retagEnded
  repeat' first
    | with_reducible exact Only.refl _
    | decide
    | with_reducible apply Only.of (State.setCtx_only _ _ _)
    | with_reducible apply Only.of (State.faultChurn_only _ _)
    | with_reducible apply Only.of (State.issueRetag_only _ _ _ _ _)
    | with_reducible apply Only.of (State.enterRecord_only _ _ _ _ _)
    | extract_lets +onlyGivenNames x
    | split

theorem State.tellWriter_only (s x0 x1) : Only [.out, .halt, .stats, .tel, .hbm, .tiles, .channels, .mem, .tables, .churns, .hist, .watch, .pen, .conns, .events, .ledger, .exp] s (State.tellWriter s x0 x1) := by
  unfold State.tellWriter
  repeat' first
    | with_reducible exact Only.refl _
    | decide
    | with_reducible apply Only.of (State.recordEnded_only _ _ _ _)
    | with_reducible apply Only.of (State.copyEnded_only _ _ _ _ _)
    | with_reducible apply Only.of (State.appendEnded_only _ _ _)
    | with_reducible apply Only.of (State.retagEnded_only _ _ _ _)
    | extract_lets +onlyGivenNames x
    | split

theorem State.writeAck_only (s x0 x1 x2) : Only [.out, .halt, .stats, .tel, .hbm, .tiles, .channels, .mem, .tables, .churns, .hist, .watch, .pen, .conns, .events, .ledger, .exp] s (State.writeAck s x0 x1 x2) := by
  unfold State.writeAck
  repeat' first
    | with_reducible assumption
    | with_reducible exact Only.refl _
    | decide
    | (with_reducible apply Only.ite) <;> intro _
    | with_reducible apply Only.of (State.raise_only _ _ _ _ _ _)
    | with_reducible apply Only.of (State.setStack_only _ _ _)
    | with_reducible apply Only.of (State.putUnit_only _ _ _ _)
    | with_reducible apply Only.of (State.retryWaiting_only _)
    | with_reducible apply Only.of (State.tellWriter_only _ _ _)
    | extract_lets +onlyGivenNames x
    | split

theorem State.stageRecord_only (s x0 x1) : Only [.out, .halt, .phases, .stats, .replay, .reports, .seq, .queues, .tel, .mem, .emb, .acc, .hist, .attn, .watch, .pen, .conns, .msgs, .events, .ledger, .rel] s (State.stageRecord s x0 x1).1 :=
  (State.stageBlock_only _ _ _).mono (by decide)

theorem State.regulatedIssue_only (s x0 x1 x2) : Only [.time, .channels] s (State.regulatedIssue s x0 x1 x2) := by
  unfold State.regulatedIssue
  repeat' first
    | with_reducible exact Only.refl _
    | decide
    | with_reducible apply Only.of (State.setStack_only _ _ _)
    | (fail_if_no_progress ((with_reducible refine Only.lit ?_ ?_) <;> [skip; (intro p; cases p <;> first | exact .inl (by decide) | exact .inr (by (repeat' apply And.intro) <;> rfl))]))

theorem State.retrainDone_only (s x0 x1 x2) : Only [.setup, .time, .halt, .tel, .channels, .events, .ledger] s (State.retrainDone s x0 x1 x2) := by
  unfold State.retrainDone
  repeat' first
    | with_reducible exact Only.refl _
    | decide
    | (with_reducible apply Only.ite) <;> intro _
    | with_reducible apply Only.of (State.raise_only _ _ _ _ _ _)
    | with_reducible apply Only.of (State.endOp_only _ _)
    | with_reducible apply Only.of (State.setChannel_only _ _ _)
    | with_reducible apply Only.of (State.channelTrained_only _ _ _)
    | with_reducible apply Only.of (State.spareLanes_only _ _ _)
    | with_reducible apply Only.of (State.channelDown_only _ _)
    | (fail_if_no_progress ((with_reducible refine Only.lit ?_ ?_) <;> [skip; (intro p; cases p <;> first | exact .inl (by decide) | exact .inr (by (repeat' apply And.intro) <;> rfl))]))
    | split

theorem State.retrainOverdue_only (s x0) : Only [.tel, .channels, .events] s (State.retrainOverdue s x0) := by
  unfold State.retrainOverdue
  repeat' first
    | with_reducible exact Only.refl _
    | decide
    | (with_reducible apply Only.ite) <;> intro _
    | with_reducible apply Only.of (State.raise_only _ _ _ _ _ _)
    | with_reducible apply Only.of (State.setChannel_only _ _ _)

theorem State.recordWrite_only (s x0 x1 x2 x3) : Only [.tel, .channels, .mem, .events, .ledger] s (State.recordWrite s x0 x1 x2 x3) := by
  unfold State.recordWrite
  repeat' first
    | with_reducible exact Only.refl _
    | decide
    | (with_reducible apply Only.ite) <;> intro _
    | with_reducible apply Only.of (State.countedFault_only _ _)
    | with_reducible apply Only.of (State.portWrite_only _ _)

theorem State.retrainRequest_only (s x0 x1 x2) : Only [.time, .channels] s (State.retrainRequest s x0 x1 x2) := by
  unfold State.retrainRequest
  repeat' first
    | with_reducible exact Only.refl _
    | decide
    | (with_reducible apply Only.ite) <;> intro _
    | with_reducible apply Only.of (State.setChannel_only _ _ _)
    | (fail_if_no_progress ((with_reducible refine Only.lit ?_ ?_) <;> [skip; (intro p; cases p <;> first | exact .inl (by decide) | exact .inr (by (repeat' apply And.intro) <;> rfl))]))

theorem State.stackTemp_only (s x0 x1) : Only [.stats, .void, .tel, .channels, .events] s (State.stackTemp s x0 x1) := by
  unfold State.stackTemp
  repeat' first
    | with_reducible exact Only.refl _
    | decide
    | (with_reducible apply Only.ite) <;> intro _
    | with_reducible apply Only.of (State.raise_only _ _ _ _ _ _)
    | with_reducible apply Only.of (State.stackCrit_only _ _ _)
    | with_reducible apply Only.of (State.setStack_only _ _ _)
    | (fail_if_no_progress ((with_reducible refine Only.lit ?_ ?_) <;> [skip; (intro p; cases p <;> first | exact .inl (by decide) | exact .inr (by (repeat' apply And.intro) <;> rfl))]))

/-! ## HistOps -/

theorem State.readUsers_only (s) : Only [.stats, .tel, .mem, .hist, .events, .ledger] s (State.readUsers s).1 := by
  unfold State.readUsers
  repeat' first
    | with_reducible assumption
    | with_reducible exact Only.refl _
    | decide
    | with_reducible apply Only.of (State.readRecord_only _ _ _ _)
    | with_reducible refine Only.thenFold_fst ?_ (fun t x => ?_)
    | (fail_if_no_progress ((with_reducible refine Only.lit ?_ ?_) <;> [skip; (intro p; cases p <;> first | exact .inl (by decide) | exact .inr (by (repeat' apply And.intro) <;> rfl))]))
    | extract_lets +onlyGivenNames x
    | split

theorem State.readLengths_only (s) : Only [.out, .halt, .phases, .stats, .replay, .reports, .seq, .queues, .tel, .mem, .emb, .acc, .hist, .attn, .watch, .pen, .conns, .msgs, .events, .ledger, .rel] s (State.readLengths s) := by
  unfold State.readLengths
  repeat' first
    | with_reducible exact Only.refl _
    | decide
    | (with_reducible apply Only.ite) <;> intro _
    | with_reducible apply Only.of (State.makeSuspect_only _)
    | with_reducible apply Only.of (State.readFaults_only _ _ _)
    | with_reducible apply Only.of (State.readUsers_only _)

/-! ## Attention -/

theorem State.addEntry_only (s x0 x1 x2 x3) : Only [.tiles] s (State.addEntry s x0 x1 x2 x3) :=
  State.tileWrite_only _ _ _ _

theorem State.ownGrad_only (s x0 x1 x2 x3 x4) : Only [.tiles] s (State.ownGrad s x0 x1 x2 x3 x4) := by
  unfold State.ownGrad
  repeat' first
    | with_reducible exact Only.refl _
    | decide
    | with_reducible apply Only.of (State.addEntry_only _ _ _ _ _)
    | with_reducible refine Only.thenFold ?_ (fun t x => ?_)

theorem State.leaveSlot_only (s x0 x1 x2) : Only [.acc] s (State.leaveSlot s x0 x1 x2) := by
  unfold State.leaveSlot
  repeat' first
    | with_reducible exact Only.refl _
    | decide
    | with_reducible apply Only.of (State.setSlot_only _ _ _ _)
    | extract_lets +onlyGivenNames x
    | split

theorem State.tally_only (s x0 x1 x2) : Only [.stats, .tel, .watch, .events] s (State.tally s x0 x1 x2) := by
  unfold State.tally
  repeat' first
    | with_reducible exact Only.refl _
    | decide
    | with_reducible apply Only.of (State.slotEvents_only _ _ _ _)
    | with_reducible apply Only.of (State.countExceptions_only _ _ _)
    | with_reducible apply Only.of (State.slotCounts_only _ _ _)
    | with_reducible refine Only.thenFold ?_ (fun t x => ?_)

theorem State.attend_only (s x0 x1) : Only [.stats, .tel, .tiles, .acc, .attn, .watch, .events] s (State.attend s x0 x1) := by
  unfold State.attend
  repeat' first
    | with_reducible exact Only.refl _
    | decide
    | with_reducible apply Only.of (State.tileWrite_only _ _ _ _)
    | with_reducible apply Only.of (State.leaveSlot_only _ _ _ _)
    | with_reducible apply Only.of (State.tally_only _ _ _ _)
    | (fail_if_no_progress ((with_reducible refine Only.lit ?_ ?_) <;> [skip; (intro p; cases p <;> first | exact .inl (by decide) | exact .inr (by (repeat' apply And.intro) <;> rfl))]))

theorem State.attendBack_only (s x0 x1) : Only [.stats, .tel, .tiles, .acc, .watch, .events] s (State.attendBack s x0 x1) := by
  unfold State.attendBack
  repeat' first
    | with_reducible exact Only.refl _
    | decide
    | (with_reducible apply Only.ite) <;> intro _
    | with_reducible apply Only.of (State.setSlot_only _ _ _ _)
    | with_reducible apply Only.of (State.tileWrite_only _ _ _ _)
    | with_reducible apply Only.of (State.ownGrad_only _ _ _ _ _ _)
    | with_reducible apply Only.of (State.leaveSlot_only _ _ _ _)
    | with_reducible apply Only.of (State.tally_only _ _ _ _)
    | with_reducible refine Only.thenFold ?_ (fun t x => ?_)

/-! ## Lookup -/

theorem State.sendUserLists_only (s) : Only [.out, .halt, .stats, .replay, .reports, .tel, .pen, .conns, .msgs, .events, .rel] s (State.sendUserLists s) := by
  unfold State.sendUserLists
  repeat' first
    | with_reducible exact Only.refl _
    | decide
    | with_reducible apply Only.of (State.exchange_only _ _ _ _ _)
    | with_reducible refine Only.thenFold ?_ (fun t x => ?_)

theorem State.sendLists_only (s) : Only [.out, .halt, .stats, .replay, .reports, .tel, .pen, .conns, .msgs, .events, .rel] s (State.sendLists s) := by
  unfold State.sendLists
  repeat' first
    | with_reducible exact Only.refl _
    | decide
    | with_reducible apply Only.of (State.exchange_only _ _ _ _ _)
    | with_reducible refine Only.thenFold ?_ (fun t x => ?_)

theorem State.countInvalid_only (s x0) : Only [.stats, .watch] s (State.countInvalid s x0) := by
  unfold State.countInvalid
  repeat' first
    | with_reducible exact Only.refl _
    | decide
    | with_reducible apply Only.of (State.setWatch_only _ _ _)
    | with_reducible refine Only.thenFold ?_ (fun t x => ?_)
    | (fail_if_no_progress ((with_reducible refine Only.lit ?_ ?_) <;> [skip; (intro p; cases p <;> first | exact .inl (by decide) | exact .inr (by (repeat' apply And.intro) <;> rfl))]))

theorem State.raiseInvalid_only (s x0) : Only [.tel, .events] s (State.raiseInvalid s x0) := by
  unfold State.raiseInvalid
  repeat' first
    | with_reducible exact Only.refl _
    | decide
    | with_reducible apply Only.of (State.raiseOnce_only _ _ _ _ _ _ _)
    | with_reducible refine Only.thenFold ?_ (fun t x => ?_)

theorem State.separateNext_only (s) : Only [.tel, .emb, .events] s (State.separateNext s) := by
  unfold State.separateNext
  repeat' first
    | with_reducible exact Only.refl _
    | decide
    | (with_reducible apply Only.ite) <;> intro _
    | with_reducible apply Only.of (State.raiseInvalid_only _ _)
    | (fail_if_no_progress ((with_reducible refine Only.lit ?_ ?_) <;> [skip; (intro p; cases p <;> first | exact .inl (by decide) | exact .inr (by (repeat' apply And.intro) <;> rfl))]))

theorem State.checkRange_only (s x0 x1) : Only [.out, .stats, .reports, .queues, .tel, .pen, .conns, .events] s (State.checkRange s x0 x1) := by
  unfold State.checkRange
  repeat' first
    | with_reducible assumption
    | with_reducible exact Only.refl _
    | decide
    | (with_reducible apply Only.ite) <;> intro _
    | with_reducible apply Only.of (State.raise_only _ _ _ _ _ _)
    | with_reducible apply Only.of (State.declareExcess_only _)
    | with_reducible apply Only.of (State.uncover_only _ _)
    | (fail_if_no_progress ((with_reducible refine Only.lit ?_ ?_) <;> [skip; (intro p; cases p <;> first | exact .inl (by decide) | exact .inr (by (repeat' apply And.intro) <;> rfl))]))
    | extract_lets +onlyGivenNames x
    | split

theorem State.separateEval_only (s) : Only [.stats, .tel, .emb, .watch, .events] s (State.separateEval s) := by
  unfold State.separateEval
  repeat' first
    | with_reducible exact Only.refl _
    | decide
    | with_reducible apply Only.of (State.countInvalid_only _ _)
    | with_reducible apply Only.of (State.raiseInvalid_only _ _)
    | (fail_if_no_progress ((with_reducible refine Only.lit ?_ ?_) <;> [skip; (intro p; cases p <;> first | exact .inl (by decide) | exact .inr (by (repeat' apply And.intro) <;> rfl))]))

theorem State.aggregateOwner_only (s) : Only [.out, .stats, .reports, .queues, .tel, .emb, .pen, .conns, .events] s (State.aggregateOwner s) := by
  unfold State.aggregateOwner
  repeat' first
    | with_reducible exact Only.refl _
    | decide
    | (with_reducible apply Only.ite) <;> intro _
    | with_reducible apply Only.of (State.checkRange_only _ _ _)
    | with_reducible refine Only.thenFold ?_ (fun t x => ?_)
    | (fail_if_no_progress ((with_reducible refine Only.lit ?_ ?_) <;> [skip; (intro p; cases p <;> first | exact .inl (by decide) | exact .inr (by (repeat' apply And.intro) <;> rfl))]))

theorem State.aggregateProxy_only (s x0) : Only [.out, .halt, .stats, .replay, .reports, .tel, .emb, .pen, .conns, .msgs, .events, .rel] s (State.aggregateProxy s x0) := by
  unfold State.aggregateProxy
  repeat' first
    | with_reducible exact Only.refl _
    | decide
    | (with_reducible apply Only.ite) <;> intro _
    | with_reducible apply Only.of (State.exchange_only _ _ _ _ _)
    | (fail_if_no_progress ((with_reducible refine Only.lit ?_ ?_) <;> [skip; (intro p; cases p <;> first | exact .inl (by decide) | exact .inr (by (repeat' apply And.intro) <;> rfl))]))

/-! ## Rows -/

theorem State.returnRows_only (s) : Only [.out, .halt, .stats, .replay, .reports, .tel, .pen, .conns, .msgs, .events, .rel] s (State.returnRows s) := by
  unfold State.returnRows
  repeat' first
    | with_reducible exact Only.refl _
    | decide
    | with_reducible apply Only.of (State.exchange_only _ _ _ _ _)
    | with_reducible refine Only.thenFold ?_ (fun t x => ?_)

theorem State.readSegment_only (s x0 x1 x2) : Only [.stats, .tel, .mem, .events, .ledger] s (State.readSegment s x0 x1 x2).1 := by
  unfold State.readSegment
  repeat' first
    | with_reducible assumption
    | with_reducible exact Only.refl _
    | decide
    | with_reducible apply Only.of (State.readRecord_only _ _ _ _)
    | extract_lets +onlyGivenNames x
    | split

theorem State.readRow_only (s x0 x1) : Only [.stats, .tel, .mem, .events, .ledger] s (State.readRow s x0 x1).1 := by
  unfold State.readRow
  repeat' first
    | with_reducible exact Only.refl _
    | decide
    | with_reducible apply Only.of (State.readSegment_only _ _ _ _)
    | with_reducible refine Only.thenFold_fst ?_ (fun t x => ?_)

theorem State.readRows_only (s) : Only [.stats, .tel, .mem, .emb, .events, .ledger] s (State.readRows s).1 := by
  unfold State.readRows
  repeat' first
    | with_reducible assumption
    | with_reducible exact Only.refl _
    | decide
    | with_reducible apply Only.of (State.readRow_only _ _ _)
    | with_reducible refine Only.thenFold_fst ?_ (fun t x => ?_)
    | (fail_if_no_progress ((with_reducible refine Only.lit ?_ ?_) <;> [skip; (intro p; cases p <;> first | exact .inl (by decide) | exact .inr (by (repeat' apply And.intro) <;> rfl))]))
    | extract_lets +onlyGivenNames x
    | split

theorem State.readOwned_only (s) : Only [.out, .halt, .phases, .stats, .replay, .reports, .seq, .queues, .tel, .mem, .emb, .acc, .hist, .attn, .watch, .pen, .conns, .msgs, .events, .ledger, .rel] s (State.readOwned s) := by
  unfold State.readOwned
  repeat' first
    | with_reducible exact Only.refl _
    | decide
    | with_reducible apply Only.of (State.readFaults_only _ _ _)
    | with_reducible apply Only.of (State.readRows_only _)

theorem State.forwardRows_only (s) : Only [.out, .halt, .stats, .replay, .reports, .tel, .pen, .conns, .msgs, .events, .rel] s (State.forwardRows s) := by
  unfold State.forwardRows
  repeat' first
    | with_reducible exact Only.refl _
    | decide
    | with_reducible apply Only.of (State.exchange_only _ _ _ _ _)
    | with_reducible refine Only.thenFold ?_ (fun t x => ?_)
    | split

theorem State.forwardPartials_only (s) : Only [.out, .halt, .stats, .replay, .reports, .tel, .pen, .conns, .msgs, .events, .rel] s (State.forwardPartials s) := by
  unfold State.forwardPartials
  repeat' first
    | with_reducible exact Only.refl _
    | decide
    | with_reducible apply Only.of (State.exchange_only _ _ _ _ _)
    | with_reducible refine Only.thenFold ?_ (fun t x => ?_)

theorem State.poolBag_only (s x0 x1 x2 x3) : Only [.tiles, .emb, .lines, .watch] s (State.poolBag s x0 x1 x2 x3) := by
  unfold State.poolBag
  repeat' first
    | with_reducible assumption
    | with_reducible exact Only.refl _
    | decide
    | with_reducible apply Only.of (State.tileWrite_only _ _ _ _)
    | with_reducible apply Only.of (State.countExceptions_only _ _ _)
    | with_reducible apply Only.of (State.setLine_only _ _ _)
    | (fail_if_no_progress ((with_reducible refine Only.lit ?_ ?_) <;> [skip; (intro p; cases p <;> first | exact .inl (by decide) | exact .inr (by (repeat' apply And.intro) <;> rfl))]))
    | extract_lets +onlyGivenNames x
    | split

theorem State.putMerged_only (s x0 x1) : Only [.emb] s (State.putMerged s x0 x1) :=
  Only.lit (Only.refl s) (by intro p; cases p <;> first | exact .inl (by decide) | exact .inr (by (repeat' apply And.intro) <;> rfl))

theorem State.gatherRow_only (s x0 x1 x2) : Only [.tel, .emb, .watch, .events] s (State.gatherRow s x0 x1 x2) := by
  unfold State.gatherRow
  repeat' first
    | with_reducible exact Only.refl _
    | decide
    | with_reducible apply Only.of (State.countExceptions_only _ _ _)
    | with_reducible apply Only.of (State.countPoison_only _ _ _ _)
    | (fail_if_no_progress ((with_reducible refine Only.lit ?_ ?_) <;> [skip; (intro p; cases p <;> first | exact .inl (by decide) | exact .inr (by (repeat' apply And.intro) <;> rfl))]))

theorem State.releaseCache_only (s) : Only [.mem] s (State.releaseCache s) := by
  refine Only.lit (Only.refl _) ?_
  intro p; cases p <;> first | exact .inl (by decide) | exact .inr (by (repeat' apply And.intro) <;> rfl)

theorem State.gatherRows_only (s) : Only [.tel, .emb, .watch, .events] s (State.gatherRows s) := by
  unfold State.gatherRows
  repeat' first
    | with_reducible exact Only.refl _
    | decide
    | (with_reducible apply Only.ite) <;> intro _
    | with_reducible apply Only.of (State.gatherRow_only _ _ _ _)
    | with_reducible refine Only.thenFold ?_ (fun t x => ?_)
    | split

theorem State.sendPartials_only (s) : Only [.out, .halt, .stats, .replay, .reports, .tel, .pen, .conns, .msgs, .events, .rel] s (State.sendPartials s) := by
  unfold State.sendPartials
  repeat' first
    | with_reducible exact Only.refl _
    | decide
    | (with_reducible apply Only.ite) <;> intro _
    | with_reducible apply Only.of (State.exchange_only _ _ _ _ _)
    | with_reducible refine Only.thenFold ?_ (fun t x => ?_)

theorem State.formPartials_only (s) : Only [.emb, .watch] s (State.formPartials s) := by
  unfold State.formPartials
  repeat' first
    | with_reducible exact Only.refl _
    | decide
    | (with_reducible apply Only.ite) <;> intro _
    | with_reducible apply Only.of (State.countExceptions_only _ _ _)
    | with_reducible refine Only.thenFold ?_ (fun t x => ?_)
    | (fail_if_no_progress ((with_reducible refine Only.lit ?_ ?_) <;> [skip; (intro p; cases p <;> first | exact .inl (by decide) | exact .inr (by (repeat' apply And.intro) <;> rfl))]))

theorem State.mergePartial_only (s) : Only [.out, .halt, .stats, .replay, .reports, .tel, .emb, .watch, .pen, .conns, .msgs, .events, .rel] s (State.mergePartial s) := by
  unfold State.mergePartial
  repeat' first
    | with_reducible exact Only.refl _
    | decide
    | with_reducible apply Only.of (State.sendPartials_only _)
    | with_reducible apply Only.of (State.formPartials_only _)

theorem State.mergeRows_only (s) : Only [.tel, .emb, .watch, .events] s (State.mergeRows s) := by
  unfold State.mergeRows
  repeat' first
    | with_reducible exact Only.refl _
    | decide
    | with_reducible apply Only.of (State.raiseOnce_only _ _ _ _ _ _ _)
    | with_reducible apply Only.of (State.countExceptions_only _ _ _)
    | with_reducible apply Only.of (State.putMerged_only _ _ _)
    | with_reducible refine Only.thenFold ?_ (fun t x => ?_)
    | (fail_if_no_progress ((with_reducible refine Only.lit ?_ ?_) <;> [skip; (intro p; cases p <;> first | exact .inl (by decide) | exact .inr (by (repeat' apply And.intro) <;> rfl))]))
    | extract_lets +onlyGivenNames x
    | split

theorem State.readSegments_only (s x0 x1) : Only [.stats, .tel, .mem, .events, .ledger] s (State.readSegments s x0 x1).1 := by
  unfold State.readSegments
  repeat' first
    | with_reducible exact Only.refl _
    | decide
    | with_reducible apply Only.of (State.readRecord_only _ _ _ _)
    | with_reducible refine Only.thenFold_fst ?_ (fun t x => ?_)

theorem State.enterCache_only (s x0 x1 x2) : Only [.out, .halt, .phases, .stats, .replay, .reports, .seq, .queues, .tel, .mem, .emb, .acc, .hist, .attn, .watch, .pen, .conns, .msgs, .events, .ledger, .rel] s (State.enterCache s x0 x1 x2) := by
  unfold State.enterCache
  repeat' first
    | with_reducible assumption
    | with_reducible exact Only.refl _
    | decide
    | (with_reducible apply Only.ite) <;> intro _
    | with_reducible apply Only.of (State.readFaults_only _ _ _)
    | with_reducible apply Only.of (State.readSegments_only _ _ _)
    | (fail_if_no_progress ((with_reducible refine Only.lit ?_ ?_) <;> [skip; (intro p; cases p <;> first | exact .inl (by decide) | exact .inr (by (repeat' apply And.intro) <;> rfl))]))

theorem State.fillCache_only (s x0 x1 x2) : Only [.out, .halt, .phases, .stats, .replay, .reports, .seq, .queues, .tel, .mem, .emb, .acc, .hist, .attn, .watch, .pen, .conns, .msgs, .events, .ledger, .rel] s (State.fillCache s x0 x1 x2) := by
  unfold State.fillCache
  repeat' first
    | with_reducible exact Only.refl _
    | decide
    | with_reducible apply Only.of (State.enterCache_only _ _ _ _)
    | extract_lets +onlyGivenNames x
    | split

/-! ## Exchange -/

theorem State.serveRows_only (s) : Only [.out, .halt, .phases, .stats, .replay, .reports, .seq, .queues, .tel, .mem, .emb, .acc, .hist, .attn, .watch, .pen, .conns, .msgs, .events, .ledger, .rel] s (State.serveRows s) := by
  unfold State.serveRows
  repeat' first
    | with_reducible exact Only.refl _
    | decide
    | with_reducible apply Only.of (State.returnRows_only _)
    | with_reducible apply Only.of (State.readLengths_only _)
    | with_reducible apply Only.of (State.readOwned_only _)
    | (fail_if_no_progress ((with_reducible refine Only.lit ?_ ?_) <;> [skip; (intro p; cases p <;> first | exact .inl (by decide) | exact .inr (by (repeat' apply And.intro) <;> rfl))]))

theorem State.sendAppends_only (s) : Only [.out, .halt, .stats, .replay, .reports, .tel, .hist, .pen, .conns, .msgs, .events, .rel] s (State.sendAppends s) := by
  unfold State.sendAppends
  repeat' first
    | with_reducible exact Only.refl _
    | decide
    | (with_reducible apply Only.ite) <;> intro _
    | with_reducible apply Only.of (State.exchange_only _ _ _ _ _)
    | with_reducible refine Only.thenFold ?_ (fun t x => ?_)
    | (fail_if_no_progress ((with_reducible refine Only.lit ?_ ?_) <;> [skip; (intro p; cases p <;> first | exact .inl (by decide) | exact .inr (by (repeat' apply And.intro) <;> rfl))]))

theorem State.allToAll_only (s x0) : Only [.out, .halt, .phases, .stats, .replay, .reports, .seq, .queues, .tel, .mem, .emb, .acc, .hist, .attn, .watch, .pen, .conns, .msgs, .events, .ledger, .rel] s (State.allToAll s x0) := by
  unfold State.allToAll
  repeat' first
    | with_reducible exact Only.refl _
    | decide
    | (with_reducible apply Only.ite) <;> intro _
    | with_reducible apply Only.of (State.sendUserLists_only _)
    | with_reducible apply Only.of (State.returnRows_only _)
    | with_reducible apply Only.of (State.serveRows_only _)
    | with_reducible apply Only.of (State.forwardRows_only _)
    | with_reducible apply Only.of (State.sendAppends_only _)
    | with_reducible apply Only.of (State.forwardPartials_only _)
    | with_reducible apply Only.of (State.sendLists_only _)
    | split

theorem State.sendNext_only (s x0 x1 x2) : Only [.out, .halt, .stats, .replay, .reports, .tel, .pen, .conns, .msgs, .events, .rel] s (State.sendNext s x0 x1 x2) := by
  refine Only.of (State.exchangeUnits_only _ _ _ _ _) rfl (Only.lit (Only.refl _) ?_)
  intro p; cases p <;> first | exact .inl (by decide) | exact .inr (by (repeat' apply And.intro) <;> rfl)

theorem State.ringBlock_only (s x0 x1) : Only [.stats, .tel, .mem, .events, .ledger] s (State.ringBlock s x0 x1).1 :=
  (State.readBlock_only _ _ _).mono (by decide)

theorem State.ringRead_only (s x0 x1 x2 x3) : Only [.out, .halt, .phases, .stats, .replay, .reports, .seq, .queues, .tel, .mem, .emb, .acc, .hist, .attn, .watch, .pen, .conns, .msgs, .events, .ledger, .rel] s (State.ringRead s x0 x1 x2 x3).1 := by
  unfold State.ringRead
  repeat' first
    | with_reducible exact Only.refl _
    | decide
    | with_reducible apply Only.of (State.readFaults_only _ _ _)
    | with_reducible apply Only.of (State.ringBlock_only _ _ _)
    | with_reducible refine Only.thenFold_fst ?_ (fun t x => ?_)

theorem State.ringSend_only (s x0 x1 x2 x3 x4) : Only [.out, .halt, .phases, .stats, .replay, .reports, .seq, .queues, .tel, .mem, .emb, .acc, .hist, .attn, .watch, .pen, .conns, .msgs, .events, .ledger, .rel] s (State.ringSend s x0 x1 x2 x3 x4) := by
  unfold State.ringSend
  repeat' first
    | with_reducible assumption
    | with_reducible exact Only.refl _
    | decide
    | with_reducible apply Only.of (State.sendNext_only _ _ _ _)
    | with_reducible apply Only.of (State.ringRead_only _ _ _ _ _)
    | (fail_if_no_progress ((with_reducible refine Only.lit ?_ ?_) <;> [skip; (intro p; cases p <;> first | exact .inl (by decide) | exact .inr (by (repeat' apply And.intro) <;> rfl))]))
    | extract_lets +onlyGivenNames x
    | split

theorem State.ys8Seen_only (s x0 x1 x2 x3 x4 x5) : Only [.tel, .watch, .events] s (State.ys8Seen s x0 x1 x2 x3 x4 x5) := by
  unfold State.ys8Seen
  repeat' first
    | with_reducible exact Only.refl _
    | decide
    | (with_reducible apply Only.ite) <;> intro _
    | with_reducible apply Only.of (State.raise_only _ _ _ _ _ _)
    | with_reducible apply Only.of (State.countPoison_only _ _ _ _)

theorem State.ringPlace_only (s x0 x1 x2 x3 x4 x5 x6 x7) : Only [.tel, .tiles, .watch, .events] s (State.ringPlace s x0 x1 x2 x3 x4 x5 x6 x7) := by
  unfold State.ringPlace
  repeat' first
    | with_reducible exact Only.refl _
    | decide
    | with_reducible apply Only.of (State.tileWrite_only _ _ _ _)
    | with_reducible apply Only.of (State.ys8Seen_only _ _ _ _ _ _ _)
    | with_reducible refine Only.thenFold ?_ (fun t x => ?_)

theorem State.consumed_only (s x0 x1) : Only [.msgs] s (State.consumed s x0 x1) := by
  refine Only.lit (Only.refl _) ?_
  intro p; cases p <;> first | exact .inl (by decide) | exact .inr (by (repeat' apply And.intro) <;> rfl)

theorem State.ringReport_only (s x0 x1 x2) : Only [.out, .halt, .phases, .stats, .replay, .reports, .seq, .queues, .tel, .emb, .acc, .hist, .attn, .watch, .pen, .conns, .msgs, .events, .ledger, .rel] s (State.ringReport s x0 x1 x2) := by
  unfold State.ringReport
  repeat' first
    | with_reducible exact Only.refl _
    | decide
    | (with_reducible apply Only.ite) <;> intro _
    | with_reducible apply Only.of (State.checkFault_only _ _)

theorem State.ringPass_only (s x0 x1 x2 x3 x4 x5 x6) : Only [.out, .halt, .phases, .stats, .replay, .reports, .seq, .queues, .tel, .tiles, .mem, .emb, .acc, .hist, .attn, .watch, .pen, .conns, .msgs, .events, .ledger, .rel] s (State.ringPass s x0 x1 x2 x3 x4 x5 x6) := by
  unfold State.ringPass
  repeat' first
    | with_reducible exact Only.refl _
    | decide
    | with_reducible apply Only.of (State.ringRead_only _ _ _ _ _)
    | with_reducible apply Only.of (State.ringSend_only _ _ _ _ _ _)
    | with_reducible apply Only.of (State.ringPlace_only _ _ _ _ _ _ _ _ _)
    | with_reducible apply Only.of (State.consumed_only _ _ _)
    | with_reducible apply Only.of (State.ringReport_only _ _ _ _)
    | extract_lets +onlyGivenNames x
    | split

theorem State.rooted_only (s x0) : Only [.watch] s (State.rooted s x0) := by
  refine Only.lit (Only.refl _) ?_
  intro p; cases p <;> first | exact .inl (by decide) | exact .inr (by (repeat' apply And.intro) <;> rfl)

theorem State.placeTile_only (s x0 x1 x2 x3 x4) : Only [.tiles, .emb, .msgs] s (State.placeTile s x0 x1 x2 x3 x4) := by
  unfold State.placeTile
  repeat' first
    | with_reducible exact Only.refl _
    | decide
    | with_reducible apply Only.of (State.tileWrite_only _ _ _ _)
    | (fail_if_no_progress ((with_reducible refine Only.lit ?_ ?_) <;> [skip; (intro p; cases p <;> first | exact .inl (by decide) | exact .inr (by (repeat' apply And.intro) <;> rfl))]))

theorem State.readTile_only (s x0 x1 x2) : Only [.stats, .tel, .watch, .events] s (State.readTile s x0 x1 x2) := by
  unfold State.readTile
  repeat' first
    | with_reducible exact Only.refl _
    | decide
    | (with_reducible apply Only.ite) <;> intro _
    | with_reducible apply Only.of (State.setWatch_only _ _ _)
    | with_reducible apply Only.of (State.raiseOnce_only _ _ _ _ _ _ _)
    | with_reducible apply Only.of (State.countExceptions_only _ _ _)
    | (fail_if_no_progress ((with_reducible refine Only.lit ?_ ?_) <;> [skip; (intro p; cases p <;> first | exact .inl (by decide) | exact .inr (by (repeat' apply And.intro) <;> rfl))]))

theorem State.contribute_only (s x0) : Only [.watch] s (State.contribute s x0) := by
  refine Only.lit (Only.refl _) ?_
  intro p; cases p <;> first | exact .inl (by decide) | exact .inr (by (repeat' apply And.intro) <;> rfl)

theorem State.reduceRoot_only (s x0 x1 x2 x3) : Only [.stats, .tel, .tiles, .emb, .watch, .msgs, .events] s (State.reduceRoot s x0 x1 x2 x3) := by
  unfold State.reduceRoot
  repeat' first
    | with_reducible exact Only.refl _
    | decide
    | (with_reducible apply Only.ite) <;> intro _
    | with_reducible apply Only.of (State.raise_only _ _ _ _ _ _)
    | with_reducible apply Only.of (State.rooted_only _ _)
    | with_reducible apply Only.of (State.countExceptions_only _ _ _)
    | with_reducible apply Only.of (State.placeTile_only _ _ _ _ _ _)
    | with_reducible apply Only.of (State.readTile_only _ _ _ _)
    | with_reducible apply Only.of (State.consumed_only _ _ _)
    | with_reducible apply Only.of (State.contribute_only _ _)
    | with_reducible refine Only.thenFold ?_ (fun t x => ?_)
    | (fail_if_no_progress ((with_reducible refine Only.lit ?_ ?_) <;> [skip; (intro p; cases p <;> first | exact .inl (by decide) | exact .inr (by (repeat' apply And.intro) <;> rfl))]))

theorem State.reducePart_only (s x0 x1 x2 x3 x4) : Only [.out, .halt, .stats, .replay, .reports, .tel, .watch, .pen, .conns, .msgs, .events, .rel] s (State.reducePart s x0 x1 x2 x3 x4) := by
  unfold State.reducePart
  repeat' first
    | with_reducible exact Only.refl _
    | decide
    | (with_reducible apply Only.ite) <;> intro _
    | with_reducible apply Only.of (State.readTile_only _ _ _ _)
    | with_reducible apply Only.of (State.contribute_only _ _)
    | with_reducible apply Only.of (State.sendNext_only _ _ _ _)
    | (fail_if_no_progress ((with_reducible refine Only.lit ?_ ?_) <;> [skip; (intro p; cases p <;> first | exact .inl (by decide) | exact .inr (by (repeat' apply And.intro) <;> rfl))]))

theorem State.reduceTile_only (s x0 x1 x2 x3) : Only [.out, .halt, .stats, .replay, .reports, .tel, .tiles, .emb, .watch, .pen, .conns, .msgs, .events, .rel] s (State.reduceTile s x0 x1 x2 x3) := by
  unfold State.reduceTile
  repeat' first
    | with_reducible exact Only.refl _
    | decide
    | (with_reducible apply Only.ite) <;> intro _
    | with_reducible apply Only.of (State.reduceRoot_only _ _ _ _ _)
    | with_reducible apply Only.of (State.reducePart_only _ _ _ _ _ _)

theorem State.shardBlock_only (s x0 x1) : Only [.stats, .tel, .mem, .events, .ledger] s (State.shardBlock s x0 x1).1 := by
  unfold State.shardBlock
  repeat' first
    | with_reducible exact Only.refl _
    | decide
    | with_reducible apply Only.of (State.readBlock_only _ _ _)
    | extract_lets +onlyGivenNames x
    | split

theorem State.shardPart_only (s x0 x1 x2) : Only [.stats, .tel, .mem, .watch, .events, .ledger] s (State.shardPart s x0 x1 x2).1 := by
  unfold State.shardPart
  repeat' first
    | with_reducible exact Only.refl _
    | decide
    | with_reducible apply Only.of (State.ys8Seen_only _ _ _ _ _ _ _)
    | with_reducible apply Only.of (State.shardBlock_only _ _ _)

theorem State.shardYs8_only (s x0) : Only [.out, .halt, .phases, .stats, .replay, .reports, .seq, .queues, .tel, .mem, .emb, .acc, .hist, .attn, .watch, .pen, .conns, .msgs, .events, .ledger, .rel] s (State.shardYs8 s x0).1 := by
  unfold State.shardYs8
  repeat' first
    | with_reducible exact Only.refl _
    | decide
    | with_reducible apply Only.of (State.readFaults_only _ _ _)
    | with_reducible apply Only.of (State.shardPart_only _ _ _ _)
    | with_reducible refine Only.thenFold_fst ?_ (fun t x => ?_)

theorem State.shardBytes_only (x0 s x1 x2 x3) : Only [.out, .halt, .phases, .stats, .replay, .reports, .seq, .queues, .tel, .mem, .emb, .acc, .attn, .watch, .pen, .conns, .msgs, .events, .ledger, .rel] s (State.shardBytes x0 s x1 x2 x3).1 := by
  induction x0 generalizing s x2 x3 with
  | zero =>
    unfold State.shardBytes
    repeat' first
      | with_reducible exact Only.refl _
  | succ n ih =>
    unfold State.shardBytes
    repeat' first
      | with_reducible apply Only.of (ih _)
      | with_reducible apply Only.of (ih _ _)
      | with_reducible apply Only.of (ih _ _ _)
      | with_reducible apply Only.of (ih _ _ _ _)
      | with_reducible exact Only.refl _
      | decide
      | with_reducible apply Only.of (State.shardBlock_only _ _ _)
      | split

theorem State.shardData_only (s x0) : Only [.out, .halt, .phases, .stats, .replay, .reports, .seq, .queues, .tel, .mem, .emb, .acc, .hist, .attn, .watch, .pen, .conns, .msgs, .events, .ledger, .rel] s (State.shardData s x0).1 := by
  unfold State.shardData
  repeat' first
    | with_reducible assumption
    | with_reducible exact Only.refl _
    | decide
    | with_reducible apply Only.of (State.readFaults_only _ _ _)
    | with_reducible apply Only.of (State.shardYs8_only _ _)
    | with_reducible apply Only.of (State.shardBytes_only _ _ _ _ _)
    | extract_lets +onlyGivenNames x
    | split

theorem State.gatherShard_only (s x0) : Only [.out, .halt, .phases, .stats, .replay, .reports, .seq, .queues, .tel, .tiles, .mem, .emb, .acc, .hist, .attn, .watch, .pen, .conns, .msgs, .events, .ledger, .rel] s (State.gatherShard s x0) := by
  unfold State.gatherShard
  repeat' first
    | with_reducible assumption
    | with_reducible exact Only.refl _
    | decide
    | with_reducible apply Only.of (State.tileWrite_only _ _ _ _)
    | with_reducible apply Only.of (State.sendNext_only _ _ _ _)
    | with_reducible apply Only.of (State.consumed_only _ _ _)
    | with_reducible apply Only.of (State.shardData_only _ _)
    | extract_lets +onlyGivenNames x
    | split

theorem State.gatherTile_only (s x0 x1 x2 x3) : Only [.out, .halt, .stats, .replay, .reports, .tel, .tiles, .emb, .pen, .conns, .msgs, .events, .rel] s (State.gatherTile s x0 x1 x2 x3) := by
  unfold State.gatherTile
  repeat' first
    | with_reducible exact Only.refl _
    | decide
    | (with_reducible apply Only.ite) <;> intro _
    | with_reducible apply Only.of (State.placeTile_only _ _ _ _ _ _)
    | with_reducible apply Only.of (State.consumed_only _ _ _)
    | with_reducible apply Only.of (State.sendNext_only _ _ _ _)
    | with_reducible refine Only.thenFold ?_ (fun t x => ?_)
    | split

/-! ## Export -/

theorem State.loadItem_only (s x0 x1) : Only [.stats, .tel, .mem, .events, .ledger] s (State.loadItem s x0 x1).1 := by
  unfold State.loadItem
  repeat' first
    | with_reducible exact Only.refl _
    | decide
    | with_reducible apply Only.of (State.readRecord_only _ _ _ _)
    | split

theorem State.takeBase_only (x0 s x1 x2) : Only [.stats, .tel, .mem, .events, .ledger] s (State.takeBase x0 s x1 x2).1 := by
  induction x0 generalizing s x1 x2 with
  | nil =>
    unfold State.takeBase
    repeat' first
      | with_reducible exact Only.refl _
  | cons w ws ih =>
    unfold State.takeBase
    repeat' first
      | with_reducible apply Only.of (ih _)
      | with_reducible apply Only.of (ih _ _)
      | with_reducible apply Only.of (ih _ _ _)
      | with_reducible apply Only.of (ih _ _ _ _)
      | with_reducible exact Only.refl _
      | decide
      | with_reducible apply Only.of (State.loadItem_only _ _ _)
      | extract_lets +onlyGivenNames x
      | split

theorem State.endStream_only (s) : Only [.queues, .exp] s (State.endStream s) := by
  unfold State.endStream
  repeat' first
    | with_reducible exact Only.refl _
    | decide
    | with_reducible apply Only.of (State.finishDesc_only _ _ _ _ _)
    | with_reducible refine Only.thenFold ?_ (fun t x => ?_)
    | (fail_if_no_progress ((with_reducible refine Only.lit ?_ ?_) <;> [skip; (intro p; cases p <;> first | exact .inl (by decide) | exact .inr (by (repeat' apply And.intro) <;> rfl))]))

theorem State.settleStream_only (s) : Only [.queues, .exp] s (State.settleStream s) := by
  unfold State.settleStream
  repeat' first
    | with_reducible exact Only.refl _
    | decide
    | (with_reducible apply Only.ite) <;> intro _
    | with_reducible apply Only.of (State.endStream_only _)

theorem State.exportJobEnded_only (s) : Only [.queues, .exp] s (State.exportJobEnded s) := by
  unfold State.exportJobEnded
  repeat' first
    | with_reducible exact Only.refl _
    | decide
    | (with_reducible apply Only.ite) <;> intro _
    | with_reducible apply Only.of (State.settleStream_only _)
    | (fail_if_no_progress ((with_reducible refine Only.lit ?_ ?_) <;> [skip; (intro p; cases p <;> first | exact .inl (by decide) | exact .inr (by (repeat' apply And.intro) <;> rfl))]))

theorem State.startStream_only (s) : Only [.queues, .exp] s (State.startStream s) := by
  unfold State.startStream
  repeat' first
    | with_reducible exact Only.refl _
    | decide
    | with_reducible apply Only.of (State.finishDesc_only _ _ _ _ _)
    | (fail_if_no_progress ((with_reducible refine Only.lit ?_ ?_) <;> [skip; (intro p; cases p <;> first | exact .inl (by decide) | exact .inr (by (repeat' apply And.intro) <;> rfl))]))
    | split

theorem State.armExport_only (s x0) : Only [.out, .stats, .intake, .reports, .queues, .tel, .pen, .conns, .events, .exp] s (State.armExport s x0) := by
  unfold State.armExport
  repeat' first
    | with_reducible exact Only.refl _
    | decide
    | (with_reducible apply Only.ite) <;> intro _
    | with_reducible apply Only.of (State.setDesc_only _ _ _ _)
    | with_reducible apply Only.of (State.failDesc_only _ _ _ _)
    | with_reducible apply Only.of (State.startStream_only _)
    | (fail_if_no_progress ((with_reducible refine Only.lit ?_ ?_) <;> [skip; (intro p; cases p <;> first | exact .inl (by decide) | exact .inr (by (repeat' apply And.intro) <;> rfl))]))
    | split

theorem State.putExport_only (s x0 x1 x2 x3) : Only [.out, .ports, .queues, .exp] s (State.putExport s x0 x1 x2 x3) := by
  unfold State.putExport
  repeat' first
    | with_reducible exact Only.refl _
    | decide
    | with_reducible apply Only.of (State.writeEntry_only _ _ _ _)
    | (fail_if_no_progress ((with_reducible refine Only.lit ?_ ?_) <;> [skip; (intro p; cases p <;> first | exact .inl (by decide) | exact .inr (by (repeat' apply And.intro) <;> rfl))]))

theorem State.setExport_only (s : State) (x : ExportState) : Only [.exp] s { s with rel.exp := x } := by
  refine Only.lit (Only.refl _) ?_
  intro p; cases p <;> first | exact .inl (by decide) | exact .inr (by (repeat' apply And.intro) <;> rfl)

theorem State.deltaEntry_only (s x0) : Only [.out, .ports, .queues, .exp] s (State.deltaEntry s x0) := by
  unfold State.deltaEntry
  extract_lets e mine now last count s1
  have h1 : Only [.out, .ports, .queues, .exp] s s1 := State.putExport_only _ _ _ _ _
  clear_value s1
  exact Only.of (State.settleStream_only _) (by decide) (Only.of (State.setExport_only _ _) (by decide) h1)

theorem State.exportSweepEnded_only (s) : Only [.queues, .exp] s (State.exportSweepEnded s) := by
  unfold State.exportSweepEnded
  repeat' first
    | with_reducible exact Only.refl _
    | decide
    | (with_reducible apply Only.ite) <;> intro _
    | with_reducible apply Only.of (State.settleStream_only _)
    | (fail_if_no_progress ((with_reducible refine Only.lit ?_ ?_) <;> [skip; (intro p; cases p <;> first | exact .inl (by decide) | exact .inr (by (repeat' apply And.intro) <;> rfl))]))

theorem State.baseEntry_only (s x0) : Only [.fresh, .out, .stats, .ports, .queues, .tel, .mem, .events, .ledger, .exp] s (State.baseEntry s x0) := by
  unfold State.baseEntry
  extract_lets x done f label s1 _ _ s2
  have h1 : Only [.fresh, .out, .stats, .ports, .queues, .tel, .mem, .events, .ledger, .exp] s x.1 := (State.takeBase_only _ _ _ _).mono (by decide)
  have h2 : Only [.fresh, .out, .stats, .ports, .queues, .tel, .mem, .events, .ledger, .exp] s f.2 := Only.of (State.free_only _) (by decide) h1
  have h3 : Only [.fresh, .out, .stats, .ports, .queues, .tel, .mem, .events, .ledger, .exp] s label.2 := by
    clear_value x f
    simp only [label]
    split
    · exact h1
    · exact h2
  clear_value label
  have h4 : Only [.fresh, .out, .stats, .ports, .queues, .tel, .mem, .events, .ledger, .exp] s s1 := Only.of (State.putExport_only _ _ _ _ _) (by decide) h3
  clear_value s1
  have h5 : Only [.fresh, .out, .stats, .ports, .queues, .tel, .mem, .events, .ledger, .exp] s s2 := Only.lit h4 (by (intro p; cases p <;> first | exact .inl (by decide) | exact .inr (by (repeat' apply And.intro) <;> rfl)))
  exact Only.ite (fun _ => Only.of (State.raise_only _ _ _ _ _ _) (by decide) (Only.lit h5 (by (intro p; cases p <;> first | exact .inl (by decide) | exact .inr (by (repeat' apply And.intro) <;> rfl))))) (fun _ => h5)

theorem State.drainExport_only (s x0) : Only [.fresh, .out, .stats, .ports, .queues, .tel, .mem, .events, .ledger, .exp] s (State.drainExport s x0) := by
  unfold State.drainExport
  repeat' first
    | with_reducible exact Only.refl _
    | decide
    | (with_reducible apply Only.ite) <;> intro _
    | with_reducible apply Only.of (State.breakExport_only _)
    | with_reducible apply Only.of (State.deltaEntry_only _ _)
    | with_reducible apply Only.of (State.baseEntry_only _ _)
    | split

theorem State.stopExport_only (s x0) : Only [.queues, .exp] s (State.stopExport s x0) := by
  unfold State.stopExport
  repeat' first
    | with_reducible assumption
    | with_reducible exact Only.refl _
    | decide
    | (with_reducible apply Only.ite) <;> intro _
    | with_reducible apply Only.of (State.setDesc_only _ _ _ _)
    | with_reducible apply Only.of (State.finishDesc_only _ _ _ _ _)
    | with_reducible apply Only.of (State.endStream_only _)
    | with_reducible apply Only.of (State.settleStream_only _)
    | (extract_lets +onlyGivenNames x; clear_value (hq : x = _); with_reducible refine Only.gen hq ?_ fun hx => ?_ <;> clear hq)
    | (fail_if_no_progress ((with_reducible refine Only.lit ?_ ?_) <;> [skip; (intro p; cases p <;> first | exact .inl (by decide) | exact .inr (by (repeat' apply And.intro) <;> rfl))]))
    | split

/-! ## History -/

theorem State.diverge_only (s x0) : Only [.halt, .tel, .watch, .events] s (State.diverge s x0) := by
  unfold State.diverge
  repeat' first
    | with_reducible exact Only.refl _
    | decide
    | with_reducible apply Only.of (State.setWatch_only _ _ _)
    | with_reducible apply Only.of (State.raiseHalt_only _ _ _ _ _)

theorem State.patchDue_only (s x0 x1 x2) : Only [.seq] s (State.patchDue s x0 x1 x2) := by
  refine Only.lit (Only.refl _) ?_
  intro p; cases p <;> first | exact .inl (by decide) | exact .inr (by (repeat' apply And.intro) <;> rfl)

theorem State.digestCompare_only (s x0 x1 x2) : Only [.halt, .seq, .tel, .watch, .events] s (State.digestCompare s x0 x1 x2) := by
  unfold State.digestCompare
  repeat' first
    | with_reducible exact Only.refl _
    | decide
    | (with_reducible apply Only.ite) <;> intro _
    | with_reducible apply Only.of (State.setWatch_only _ _ _)
    | with_reducible apply Only.of (State.diverge_only _ _)
    | with_reducible apply Only.of (State.patchDue_only _ _ _ _)
    | extract_lets +onlyGivenNames x
    | split

theorem State.writeTwice_only (s x0 x1 x2) : Only [.stats, .tel, .hbm, .mem, .events, .ledger] s (State.writeTwice s x0 x1 x2).1 := by
  unfold State.writeTwice
  repeat' first
    | with_reducible exact Only.refl _
    | decide
    | with_reducible apply Only.of (State.writeVerified_only _ _ _ _)
    | extract_lets +onlyGivenNames x
    | split

theorem State.writeUser_only (s x0 x1) : Only [.halt, .stats, .tel, .hbm, .mem, .events, .ledger, .exp] s (State.writeUser s x0 x1) := by
  unfold State.writeUser
  repeat' first
    | with_reducible exact Only.refl _
    | decide
    | (with_reducible apply Only.ite) <;> intro _
    | with_reducible apply Only.of (State.raiseHalt_only _ _ _ _ _)
    | with_reducible apply Only.of (State.writeTwice_only _ _ _ _)
    | with_reducible apply Only.of (State.logItem_only _ _)
    | split

theorem State.writeUsers_only (s x0) : Only [.halt, .stats, .tel, .hbm, .mem, .hist, .events, .ledger, .exp] s (State.writeUsers s x0) := by
  unfold State.writeUsers
  repeat' first
    | with_reducible exact Only.refl _
    | decide
    | with_reducible apply Only.of (State.writeUser_only _ _ _)
    | with_reducible refine Only.thenFold ?_ (fun t x => ?_)
    | (fail_if_no_progress ((with_reducible refine Only.lit ?_ ?_) <;> [skip; (intro p; cases p <;> first | exact .inl (by decide) | exact .inr (by (repeat' apply And.intro) <;> rfl))]))

theorem State.appendDone_only (s x0 x1) : Only [.halt, .stats, .tel, .hbm, .mem, .hist, .events, .ledger, .exp] s (State.appendDone s x0 x1) := by
  unfold State.appendDone
  repeat' first
    | with_reducible exact Only.refl _
    | decide
    | (with_reducible apply Only.ite) <;> intro _
    | with_reducible apply Only.of (State.writeUsers_only _ _)
    | (fail_if_no_progress ((with_reducible refine Only.lit ?_ ?_) <;> [skip; (intro p; cases p <;> first | exact .inl (by decide) | exact .inr (by (repeat' apply And.intro) <;> rfl))]))

theorem State.freshInit_only (s) : Only [.stats, .tel, .hbm, .mem, .events, .ledger] s (State.freshInit s) := by
  unfold State.freshInit
  repeat' first
    | with_reducible exact Only.refl _
    | decide
    | with_reducible apply Only.of (State.writeVerified_only _ _ _ _)
    | with_reducible refine Only.thenFold ?_ (fun t x => ?_)

theorem State.writeAppends_only (s) : Only [.out, .stats, .tel, .channels, .mem, .hist, .pen, .conns, .events, .ledger, .exp] s (State.writeAppends s) := by
  unfold State.writeAppends
  repeat' first
    | with_reducible exact Only.refl _
    | decide
    | (with_reducible apply Only.ite) <;> intro _
    | with_reducible apply Only.of (State.portWrite_only _ _)
    | with_reducible apply Only.of (State.appendsWritten_only _)
    | with_reducible refine Only.thenFold ?_ (fun t x => ?_)
    | (fail_if_no_progress ((with_reducible refine Only.lit ?_ ?_) <;> [skip; (intro p; cases p <;> first | exact .inl (by decide) | exact .inr (by (repeat' apply And.intro) <;> rfl))]))

/-! ## WatchStep -/

theorem State.scaleEntry_only (s x0 x1) : Only [.tel, .watch, .events] s (State.scaleEntry s x0 x1) := by
  unfold State.scaleEntry
  repeat' first
    | with_reducible exact Only.refl _
    | decide
    | (with_reducible apply Only.ite) <;> intro _
    | with_reducible apply Only.of (State.setWatch_only _ _ _)
    | with_reducible apply Only.of (State.raiseOnce_only _ _ _ _ _ _ _)

theorem State.endEpoch_only (s x0) : Only [.tel, .watch, .events] s (State.endEpoch s x0) := by
  unfold State.endEpoch
  repeat' first
    | with_reducible exact Only.refl _
    | decide
    | with_reducible apply Only.of (State.scaleEntry_only _ _ _)
    | with_reducible refine Only.thenFold ?_ (fun t x => ?_)

theorem State.formDigests_only (s) : Only [.watch] s (State.formDigests s) := by
  unfold State.formDigests
  repeat' first
    | with_reducible exact Only.refl _
    | decide
    | with_reducible apply Only.of (State.setWatch_only _ _ _)
    | with_reducible refine Only.thenFold ?_ (fun t x => ?_)
    | split

theorem State.shareWatch_only (s) : Only [.out, .halt, .stats, .replay, .reports, .tel, .pen, .conns, .msgs, .events, .rel] s (State.shareWatch s) := by
  unfold State.shareWatch
  repeat' first
    | with_reducible exact Only.refl _
    | decide
    | with_reducible apply Only.of (State.exchange_only _ _ _ _ _)
    | with_reducible refine Only.thenFold ?_ (fun t x => ?_)

theorem State.sendDigests_only (s) : Only [.out, .stats, .pen, .conns] s (State.sendDigests s) := by
  unfold State.sendDigests
  repeat' first
    | with_reducible exact Only.refl _
    | decide
    | (with_reducible apply Only.ite) <;> intro _
    | with_reducible apply Only.of (State.messages_only _ _ _ _)
    | with_reducible refine Only.thenFold ?_ (fun t x => ?_)
    | split

theorem State.checkRatio_only (s x0 x1 x2 x3) : Only [.tel, .watch, .events] s (State.checkRatio s x0 x1 x2 x3) := by
  unfold State.checkRatio
  repeat' first
    | with_reducible exact Only.refl _
    | decide
    | (with_reducible apply Only.ite) <;> intro _
    | with_reducible apply Only.of (State.raise_only _ _ _ _ _ _)
    | with_reducible apply Only.of (State.setWatch_only _ _ _)

theorem State.checkStall_only (s x0) : Only [.tel, .watch, .events] s (State.checkStall s x0) := by
  unfold State.checkStall
  repeat' first
    | with_reducible exact Only.refl _
    | decide
    | (with_reducible apply Only.ite) <;> intro _
    | with_reducible apply Only.of (State.raise_only _ _ _ _ _ _)
    | with_reducible apply Only.of (State.setWatch_only _ _ _)

theorem State.sweepEntryStats_only (s x0) : Only [.tel, .watch, .events] s (State.sweepEntryStats s x0) := by
  unfold State.sweepEntryStats
  repeat' first
    | with_reducible exact Only.refl _
    | decide
    | (with_reducible apply Only.ite) <;> intro _
    | with_reducible apply Only.of (State.setWatch_only _ _ _)
    | with_reducible apply Only.of (State.checkRatio_only _ _ _ _ _)
    | with_reducible apply Only.of (State.checkStall_only _ _)

theorem State.sweepStats_only (s) : Only [.tel, .watch, .events] s (State.sweepStats s) := by
  unfold State.sweepStats
  repeat' first
    | with_reducible exact Only.refl _
    | decide
    | with_reducible apply Only.of (State.sweepEntryStats_only _ _)
    | with_reducible refine Only.thenFold ?_ (fun t x => ?_)

theorem State.endNoise_only (s x0) : Only [.watch] s (State.endNoise s x0) := by
  refine Only.lit (Only.refl _) ?_
  intro p; cases p <;> first | exact .inl (by decide) | exact .inr (by (repeat' apply And.intro) <;> rfl)

theorem State.startWatch_only (s) : Only [.watch] s (State.startWatch s) := by
  refine Only.lit (Only.refl _) ?_
  intro p; cases p <;> first | exact .inl (by decide) | exact .inr (by (repeat' apply And.intro) <;> rfl)

end Sys2Proof.Machine
end

