-- ==== Sys2Proof/Laws/OnlyStep.lean ====
section
/-! SUPPORT. The parts of the state that each operation of the phases of a step, job start, pen links and herd ports
may change (Only): one lemma per operation, cited instead of its text. -/

-- Checked one theorem at a time: the package as one text then needs less memory.
set_option Elab.async false

namespace Sys2Proof.Machine

/-! ## Phases -/

theorem State.clearMessages_only (s) : Only [.pen, .msgs] s (State.clearMessages s) := by
  refine Only.lit (Only.refl _) ?_
  intro p; cases p <;> first | exact .inl (by decide) | exact .inr (by (repeat' apply And.intro) <;> rfl)

theorem State.closeConnections_only (s) : Only [.seq, .pen, .conns, .msgs] s (State.closeConnections s) := by
  refine Only.lit (Only.refl _) ?_
  intro p; cases p <;> first | exact .inl (by decide) | exact .inr (by (repeat' apply And.intro) <;> rfl)

theorem State.toIdle_only (s) : Only [.setup, .clk, .job, .halt, .intake, .seq, .queues, .tel, .mem, .tables, .pen, .conns, .msgs, .events, .life, .exp] s (State.toIdle s) := by
  unfold State.toIdle
  repeat' first
    | with_reducible exact Only.refl _
    | decide
    | with_reducible apply Only.of (State.settleVersions_only _)
    | with_reducible apply Only.of (State.closeConnections_only _)
    | with_reducible apply Only.of (State.exportJobEnded_only _)
    | (fail_if_no_progress ((with_reducible refine Only.lit ?_ ?_) <;> [skip; (intro p; cases p <;> first | exact .inl (by decide) | exact .inr (by (repeat' apply And.intro) <;> rfl))]))

theorem State.claimSlot_only (s x0) : Only [.tail] s (State.claimSlot s x0) := by
  unfold State.claimSlot
  repeat' first
    | with_reducible exact Only.refl _
    | (with_reducible apply Only.ite) <;> intro _
    | (fail_if_no_progress ((with_reducible refine Only.lit ?_ ?_) <;> [skip; (intro p; cases p <;> first | exact .inl (by decide) | exact .inr (by (repeat' apply And.intro) <;> rfl))]))

theorem State.enterHalted_only (s) : Only [.clk, .job, .halt, .queues, .exp] s (State.enterHalted s) := by
  refine Only.of (State.exportJobEnded_only _) rfl (Only.lit (Only.refl _) ?_)
  intro p; cases p <;> first | exact .inl (by decide) | exact .inr (by (repeat' apply And.intro) <;> rfl)

theorem State.holdChannels_only (s) : Only [.channels] s (State.holdChannels s) := by
  unfold State.holdChannels
  repeat' first
    | with_reducible exact Only.refl _
    | decide
    | with_reducible apply Only.of (State.setChannel_only _ _ _)
    | with_reducible refine Only.thenFold ?_ (fun t x => ?_)
    | split

theorem State.offerWatch_only (s x0) : Only [.tel, .watch, .events] s (State.offerWatch s x0) := by
  unfold State.offerWatch
  repeat' first
    | with_reducible exact Only.refl _
    | decide
    | (with_reducible apply Only.ite) <;> intro _
    | with_reducible apply Only.of (State.acceptRecord_only _ _ _)
    | with_reducible apply Only.of (State.raiseOnce_only _ _ _ _ _ _ _)
    | (fail_if_no_progress ((with_reducible refine Only.lit ?_ ?_) <;> [skip; (intro p; cases p <;> first | exact .inl (by decide) | exact .inr (by (repeat' apply And.intro) <;> rfl))]))

theorem State.endPhaseAt_only (s x0 x1) : Only [.phases] s (State.endPhaseAt s x0 x1) :=
  Only.lit (Only.refl s) (by intro p; cases p <;> first | exact .inl (by decide) | exact .inr (by (repeat' apply And.intro) <;> rfl))

theorem State.endPhase_only (s x0) : Only [.phases] s (State.endPhase s x0) := by
  refine Only.lit (Only.refl _) ?_
  intro p; cases p <;> first | exact .inl (by decide) | exact .inr (by (repeat' apply And.intro) <;> rfl)

theorem State.closeStep_only (s) : Only [.out, .setup, .clk, .job, .halt, .phases, .stats, .intake, .tail, .reports, .seq, .queues, .tel, .mem, .tables, .pen, .conns, .msgs, .events, .life, .exp] s (State.closeStep s) := by
  unfold State.closeStep
  repeat' first
    | with_reducible exact Only.refl _
    | decide
    | (with_reducible apply Only.ite) <;> intro _
    | with_reducible apply Only.of (State.reportDone_only _)
    | with_reducible apply Only.of (State.toIdle_only _)
    | with_reducible apply Only.of (State.endPhase_only _ _)
    | (fail_if_no_progress ((with_reducible refine Only.lit ?_ ?_) <;> [skip; (intro p; cases p <;> first | exact .inl (by decide) | exact .inr (by (repeat' apply And.intro) <;> rfl))]))

theorem State.deferEvals_only (s) : Only [.queues] s (State.deferEvals s) :=
  Only.lit (Only.refl s) (by intro p; cases p <;> first | exact .inl (by decide) | exact .inr (by (repeat' apply And.intro) <;> rfl))

theorem State.deferSlot_only (s x0) : Only [.stats, .tail, .queues, .tel, .events] s (State.deferSlot s x0) := by
  unfold State.deferSlot
  repeat' first
    | with_reducible assumption
    | with_reducible exact Only.refl _
    | decide
    | (with_reducible apply Only.ite) <;> intro _
    | with_reducible apply Only.of (State.raise_only _ _ _ _ _ _)
    | with_reducible apply Only.of (State.deferEvals_only _)
    | (fail_if_no_progress ((with_reducible refine Only.lit ?_ ?_) <;> [skip; (intro p; cases p <;> first | exact .inl (by decide) | exact .inr (by (repeat' apply And.intro) <;> rfl))]))

theorem State.grantSlot_only (s x0) : Only [.stats, .tail, .channels, .emb, .hist, .attn, .watch] s (State.grantSlot s x0) := by
  unfold State.grantSlot
  repeat' first
    | with_reducible exact Only.refl _
    | decide
    | (with_reducible apply Only.ite) <;> intro _
    | with_reducible apply Only.of (State.keepCounts_only _)
    | with_reducible apply Only.of (State.holdChannels_only _)
    | (fail_if_no_progress ((with_reducible refine Only.lit ?_ ?_) <;> [skip; (intro p; cases p <;> first | exact .inl (by decide) | exact .inr (by (repeat' apply And.intro) <;> rfl))]))

theorem State.grantNext_only (x0 s) : Only [.out, .setup, .clk, .job, .halt, .phases, .stats, .intake, .tail, .reports, .seq, .queues, .tel, .channels, .mem, .tables, .emb, .hist, .attn, .watch, .pen, .conns, .msgs, .events, .life, .exp] s (State.grantNext x0 s) := by
  induction x0 generalizing s with
  | zero =>
    unfold State.grantNext
    repeat' first
      | with_reducible exact Only.refl _
      | decide
      | with_reducible apply Only.of (State.closeStep_only _)
  | succ n ih =>
    unfold State.grantNext
    repeat' first
      | with_reducible apply Only.of (ih _)
      | with_reducible apply Only.of (ih _ _)
      | with_reducible apply Only.of (ih _ _ _)
      | with_reducible apply Only.of (ih _ _ _ _)
      | with_reducible exact Only.refl _
      | decide
      | with_reducible apply Only.of (State.closeStep_only _)
      | with_reducible apply Only.of (State.deferSlot_only _ _)
      | with_reducible apply Only.of (State.grantSlot_only _ _)
      | extract_lets +onlyGivenNames x
      | split

theorem State.beginPhase_only (s x0) : Only [.phases, .replay] s (State.beginPhase s x0) := by
  unfold State.beginPhase
  repeat' first
    | with_reducible exact Only.refl _
    | decide
    | (with_reducible apply Only.ite) <;> intro _
    | with_reducible apply Only.of (State.endReplay_only _)
    | (fail_if_no_progress ((with_reducible refine Only.lit ?_ ?_) <;> [skip; (intro p; cases p <;> first | exact .inl (by decide) | exact .inr (by (repeat' apply And.intro) <;> rfl))]))

theorem State.startBackward_only (s x0 x1) : Only [.phases, .replay] s (State.startBackward s x0 x1) := by
  unfold State.startBackward
  repeat' first
    | with_reducible assumption
    | with_reducible exact Only.refl _
    | decide
    | (with_reducible apply Only.ite) <;> intro _
    | with_reducible apply Only.of (State.endPhaseAt_only _ _ _)
    | with_reducible apply Only.of (State.beginPhase_only _ _)
    | (fail_if_no_progress ((with_reducible refine Only.lit ?_ ?_) <;> [skip; (intro p; cases p <;> first | exact .inl (by decide) | exact .inr (by (repeat' apply And.intro) <;> rfl))]))

theorem State.startChurns_only (s) : Only [.churns] s (State.startChurns s) := by
  refine Only.lit (Only.refl _) ?_
  intro p; cases p <;> first | exact .inl (by decide) | exact .inr (by (repeat' apply And.intro) <;> rfl)

theorem State.finishBatches_only (s x0) : Only [.queues] s (State.finishBatches s x0) := by
  unfold State.finishBatches
  repeat' first
    | with_reducible exact Only.refl _
    | decide
    | with_reducible apply Only.of (State.finishBatch_only _ _ _)
    | with_reducible refine Only.thenFold ?_ (fun t x => ?_)

theorem State.countStep_only (s) : Only [.life] s (State.countStep s) := by
  refine Only.lit (Only.refl _) ?_
  intro p; cases p <;> first | exact .inl (by decide) | exact .inr (by (repeat' apply And.intro) <;> rfl)

theorem State.commitSwaps_only (s) : Only [.queues, .tel, .mem, .tables, .events] s (State.commitSwaps s) := by
  unfold State.commitSwaps
  repeat' first
    | with_reducible exact Only.refl _
    | decide
    | with_reducible apply Only.of (State.commitSwap_only _ _ _ _)
    | with_reducible refine Only.thenFold ?_ (fun t x => ?_)

theorem State.commitStep_only (s) : Only [.phases, .queues, .tel, .mem, .tables, .watch, .pen, .msgs, .events, .life, .exp] s (State.commitStep s) := by
  unfold State.commitStep
  repeat' first
    | with_reducible exact Only.refl _
    | decide
    | with_reducible apply Only.of (State.runVectors_only _ _)
    | with_reducible apply Only.of (State.formDigests_only _)
    | with_reducible apply Only.of (State.clearMessages_only _)
    | with_reducible apply Only.of (State.endPhase_only _ _)
    | with_reducible apply Only.of (State.exportSweepEnded_only _)
    | with_reducible apply Only.of (State.finishBatches_only _ _)
    | with_reducible apply Only.of (State.sweepStats_only _)
    | with_reducible apply Only.of (State.countStep_only _)
    | with_reducible apply Only.of (State.commitSwaps_only _)

theorem State.startExchange_only (s x0) : Only [.out, .halt, .phases, .stats, .replay, .reports, .tel, .emb, .hist, .watch, .pen, .conns, .msgs, .events, .rel] s (State.startExchange s x0) := by
  unfold State.startExchange
  repeat' first
    | with_reducible exact Only.refl _
    | decide
    | (with_reducible apply Only.ite) <;> intro _
    | with_reducible apply Only.of (State.sendAppends_only _)
    | with_reducible apply Only.of (State.beginPhase_only _ _)
    | with_reducible apply Only.of (State.mergePartial_only _)
    | (fail_if_no_progress ((with_reducible refine Only.lit ?_ ?_) <;> [skip; (intro p; cases p <;> first | exact .inl (by decide) | exact .inr (by (repeat' apply And.intro) <;> rfl))]))

theorem State.startForward_only (s x0 x1) : Only [.phases, .replay] s (State.startForward s x0 x1) := by
  unfold State.startForward
  repeat' first
    | with_reducible assumption
    | with_reducible exact Only.refl _
    | decide
    | (with_reducible apply Only.ite) <;> intro _
    | with_reducible apply Only.of (State.endPhaseAt_only _ _ _)
    | with_reducible apply Only.of (State.beginPhase_only _ _)
    | (fail_if_no_progress ((with_reducible refine Only.lit ?_ ?_) <;> [skip; (intro p; cases p <;> first | exact .inl (by decide) | exact .inr (by (repeat' apply And.intro) <;> rfl))]))

theorem State.waitExport_only (s) : Only [.out, .stats, .reports, .tel, .pen, .conns, .events, .exp] s (State.waitExport s) := by
  unfold State.waitExport
  repeat' first
    | with_reducible exact Only.refl _
    | decide
    | (with_reducible apply Only.ite) <;> intro _
    | with_reducible apply Only.of (State.raise_only _ _ _ _ _ _)
    | with_reducible apply Only.of (State.declareExcess_only _)
    | (fail_if_no_progress ((with_reducible refine Only.lit ?_ ?_) <;> [skip; (intro p; cases p <;> first | exact .inl (by decide) | exact .inr (by (repeat' apply And.intro) <;> rfl))]))

theorem State.claimMaintenance_only (s) : Only [.tail, .tel, .events] s (State.claimMaintenance s) := by
  unfold State.claimMaintenance
  repeat' first
    | with_reducible exact Only.refl _
    | decide
    | (with_reducible apply Only.ite) <;> intro _
    | with_reducible apply Only.of (State.raise_only _ _ _ _ _ _)
    | with_reducible apply Only.of (State.claimSlot_only _ _)

theorem State.endMerge_only (s x0) : Only [.out, .halt, .phases, .stats, .tail, .replay, .reports, .tel, .watch, .pen, .conns, .msgs, .events, .rel] s (State.endMerge s x0) := by
  unfold State.endMerge
  repeat' first
    | with_reducible exact Only.refl _
    | decide
    | (with_reducible apply Only.ite) <;> intro _
    | with_reducible apply Only.of (State.endEpoch_only _ _)
    | with_reducible apply Only.of (State.shareWatch_only _)
    | with_reducible apply Only.of (State.endPhase_only _ _)
    | with_reducible apply Only.of (State.endReplay_only _)
    | with_reducible apply Only.of (State.claimMaintenance_only _)
    | with_reducible apply Only.of (State.endNoise_only _ _)

theorem State.endEvaluation_only (s) : Only [.seq, .queues, .emb, .attn, .pen, .msgs] s (State.endEvaluation s) := by
  unfold State.endEvaluation
  repeat' first
    | with_reducible exact Only.refl _
    | decide
    | with_reducible apply Only.of (State.finishBatches_only _ _)
    | with_reducible apply Only.of (State.clearMessages_only _)
    | (fail_if_no_progress ((with_reducible refine Only.lit ?_ ?_) <;> [skip; (intro p; cases p <;> first | exact .inl (by decide) | exact .inr (by (repeat' apply And.intro) <;> rfl))]))

theorem State.endSlot_only (s) : Only [.out, .setup, .clk, .job, .halt, .phases, .stats, .intake, .tail, .reports, .seq, .queues, .tel, .channels, .mem, .tables, .emb, .hist, .attn, .watch, .pen, .conns, .msgs, .events, .life, .exp] s (State.endSlot s) := by
  unfold State.endSlot
  repeat' first
    | with_reducible exact Only.refl _
    | decide
    | with_reducible apply Only.of (State.grantNext_only _ _)
    | with_reducible apply Only.of (State.endEvaluation_only _)
    | (fail_if_no_progress ((with_reducible refine Only.lit ?_ ?_) <;> [skip; (intro p; cases p <;> first | exact .inl (by decide) | exact .inr (by (repeat' apply And.intro) <;> rfl))]))
    | extract_lets +onlyGivenNames x
    | split

theorem State.timed_only (s x0) : Only [.time] s (State.timed s x0) := by
  refine Only.lit (Only.refl _) ?_
  intro p; cases p <;> first | exact .inl (by decide) | exact .inr (by (repeat' apply And.intro) <;> rfl)

theorem State.startMerge_only (s x0) : Only [.phases, .replay, .tel, .emb, .watch, .events] s (State.startMerge s x0) := by
  unfold State.startMerge
  repeat' first
    | with_reducible exact Only.refl _
    | decide
    | (with_reducible apply Only.ite) <;> intro _
    | with_reducible apply Only.of (State.endPhaseAt_only _ _ _)
    | with_reducible apply Only.of (State.beginPhase_only _ _)
    | with_reducible apply Only.of (State.mergeRows_only _)

theorem State.startSweep_only (s x0) : Only [.out, .phases, .stats, .replay, .reports, .tel, .channels, .mem, .churns, .hist, .pen, .conns, .events, .ledger, .exp] s (State.startSweep s x0) := by
  unfold State.startSweep
  repeat' first
    | with_reducible exact Only.refl _
    | decide
    | (with_reducible apply Only.ite) <;> intro _
    | with_reducible apply Only.of (State.endPhaseAt_only _ _ _)
    | with_reducible apply Only.of (State.beginPhase_only _ _)
    | with_reducible apply Only.of (State.startChurns_only _)
    | with_reducible apply Only.of (State.waitExport_only _)
    | with_reducible apply Only.of (State.writeAppends_only _)
    | (fail_if_no_progress ((with_reducible refine Only.lit ?_ ?_) <;> [skip; (intro p; cases p <;> first | exact .inl (by decide) | exact .inr (by (repeat' apply And.intro) <;> rfl))]))

theorem State.writeRecord_only (s x0) : Only [.seq, .tel, .watch, .events] s (State.writeRecord s x0) := by
  unfold State.writeRecord
  repeat' first
    | with_reducible exact Only.refl _
    | decide
    | (with_reducible apply Only.ite) <;> intro _
    | with_reducible apply Only.of (State.offerStepRecord_only _ _)
    | with_reducible apply Only.of (State.offerWatch_only _ _)
    | with_reducible refine Only.thenFold ?_ (fun t x => ?_)
    | (fail_if_no_progress ((with_reducible refine Only.lit ?_ ?_) <;> [skip; (intro p; cases p <;> first | exact .inl (by decide) | exact .inr (by (repeat' apply And.intro) <;> rfl))]))
    | split

theorem State.startGather_only (s x0) : Only [.out, .halt, .phases, .stats, .replay, .reports, .seq, .queues, .tel, .mem, .emb, .acc, .hist, .attn, .watch, .pen, .conns, .msgs, .events, .ledger, .rel] s (State.startGather s x0) := by
  unfold State.startGather
  repeat' first
    | with_reducible exact Only.refl _
    | decide
    | (with_reducible apply Only.ite) <;> intro _
    | with_reducible apply Only.of (State.serveRows_only _)
    | with_reducible apply Only.of (State.endPhaseAt_only _ _ _)
    | with_reducible apply Only.of (State.beginPhase_only _ _)
    | with_reducible apply Only.of (State.aggregateOwner_only _)

theorem State.claimTail_only (s) : Only [.tail] s (State.claimTail s) := by
  unfold State.claimTail
  repeat' first
    | with_reducible exact Only.refl _
    | decide
    | (with_reducible apply Only.ite) <;> intro _
    | with_reducible apply Only.of (State.claimSlot_only _ _)

theorem State.endSweep_only (s) : Only [.out, .setup, .clk, .job, .halt, .phases, .stats, .intake, .tail, .reports, .seq, .queues, .tel, .channels, .mem, .tables, .emb, .hist, .attn, .watch, .pen, .conns, .msgs, .events, .life, .exp] s (State.endSweep s) := by
  unfold State.endSweep
  refine Only.ite (fun _ => ?_) (fun _ => Only.refl s)
  extract_lets s1
  have h : Only [.out, .setup, .clk, .job, .halt, .phases, .stats, .intake, .tail, .reports, .seq, .queues, .tel, .channels, .mem, .tables, .emb, .hist, .attn, .watch, .pen, .conns, .msgs, .events, .life, .exp] s s1 := (State.commitStep_only s).mono (by decide)
  clear_value s1
  refine Only.ite (fun _ => ?_) (fun _ => ?_)
  · exact Only.of (State.enterHalted_only _) (by decide) (Only.lit h (by (intro p; cases p <;> first | exact .inl (by decide) | exact .inr (by (repeat' apply And.intro) <;> rfl))))
  · exact Only.of (State.grantNext_only _ _) (by decide) (Only.of (State.claimTail_only _) (by decide) h)

/-! ## JobStart -/

theorem State.retireUnits_only (s) : Only [.tel, .events, .ledger] s (State.retireUnits s) := by
  unfold State.retireUnits
  repeat' first
    | with_reducible exact Only.refl _
    | decide
    | with_reducible apply Only.of (State.raise_only _ _ _ _ _ _)
    | with_reducible apply Only.of (State.setUnit_only _ _ _)
    | with_reducible refine Only.thenFold ?_ (fun t x => ?_)

theorem State.freshJob_only (s) : Only [.clk, .job, .halt, .step, .slips, .phases, .stats, .intake, .tail, .replay, .reports, .seq, .queues, .emb, .acc, .churns, .hist, .attn, .msgs, .events, .rel] s (State.freshJob s) := by
  refine Only.lit (Only.refl _) ?_
  intro p; cases p <;> first | exact .inl (by decide) | exact .inr (by (repeat' apply And.intro) <;> rfl)

theorem State.announceStart_only (s) : Only [.out, .clk, .stats, .pen, .conns] s (State.announceStart s) := by
  unfold State.announceStart
  repeat' first
    | with_reducible exact Only.refl _
    | decide
    | (with_reducible apply Only.ite) <;> intro _
    | with_reducible apply Only.of (State.messages_only _ _ _ _)
    | (fail_if_no_progress ((with_reducible refine Only.lit ?_ ?_) <;> [skip; (intro p; cases p <;> first | exact .inl (by decide) | exact .inr (by (repeat' apply And.intro) <;> rfl))]))

theorem State.setSlipLimit_only (s x0) : Only [.pend] s (State.setSlipLimit s x0) :=
  (State.setPending_only _ _).mono (by decide)

theorem State.openConnections_only (s) : Only [.conns] s (State.openConnections s) := by
  unfold State.openConnections
  repeat' first
    | with_reducible exact Only.refl _
    | decide
    | with_reducible apply Only.of (State.setConn_only _ _ _ _)
    | with_reducible refine Only.thenFold ?_ (fun t x => ?_)

theorem State.join_only (s) : Only [.job, .seq, .tel, .pen, .conns, .msgs, .events] s (State.join s) := by
  unfold State.join
  repeat' first
    | with_reducible assumption
    | with_reducible exact Only.refl _
    | decide
    | (with_reducible apply Only.ite) <;> intro _
    | with_reducible apply Only.of (State.raise_only _ _ _ _ _ _)
    | with_reducible apply Only.of (State.closeConnections_only _)
    | (fail_if_no_progress ((with_reducible refine Only.lit ?_ ?_) <;> [skip; (intro p; cases p <;> first | exact .inl (by decide) | exact .inr (by (repeat' apply And.intro) <;> rfl))]))

theorem State.sendJoin_only (s) : Only [.out, .stats, .pen, .conns] s (State.sendJoin s) := by
  unfold State.sendJoin
  repeat' first
    | with_reducible exact Only.refl _
    | decide
    | (with_reducible apply Only.ite) <;> intro _
    | with_reducible apply Only.of (State.upTree_only _ _ _)

theorem State.beginJoin_only (s) : Only [.out, .clk, .job, .stats, .seq, .tel, .pen, .conns, .msgs, .events] s (State.beginJoin s) := by
  unfold State.beginJoin
  repeat' first
    | with_reducible exact Only.refl _
    | decide
    | with_reducible apply Only.of (State.messages_only _ _ _ _)
    | with_reducible apply Only.of (State.announceStart_only _)
    | with_reducible apply Only.of (State.sendJoin_only _)
    | with_reducible apply Only.of (State.openConnections_only _)
    | with_reducible apply Only.of (State.join_only _)

theorem State.acceptStart_only (s) : Only [.out, .clk, .job, .stats, .seq, .tel, .pen, .conns, .msgs, .events, .ledger] s (State.acceptStart s) := by
  unfold State.acceptStart
  repeat' first
    | with_reducible assumption
    | with_reducible exact Only.refl _
    | decide
    | (with_reducible apply Only.ite) <;> intro _
    | with_reducible apply Only.of (State.retireUnits_only _)
    | with_reducible apply Only.of (State.beginJoin_only _)
    | (fail_if_no_progress ((with_reducible refine Only.lit ?_ ?_) <;> [skip; (intro p; cases p <;> first | exact .inl (by decide) | exact .inr (by (repeat' apply And.intro) <;> rfl))]))

theorem State.acceptStop_only (s) : Only [.setup, .clk, .job, .halt, .intake, .seq, .queues, .tel, .mem, .tables, .pen, .conns, .msgs, .events, .life, .exp] s (State.acceptStop s) := by
  unfold State.acceptStop
  repeat' first
    | with_reducible exact Only.refl _
    | decide
    | with_reducible apply Only.of (State.toIdle_only _)
    | (fail_if_no_progress ((with_reducible refine Only.lit ?_ ?_) <;> [skip; (intro p; cases p <;> first | exact .inl (by decide) | exact .inr (by (repeat' apply And.intro) <;> rfl))]))
    | extract_lets +onlyGivenNames x
    | split

theorem State.commandSeq_only (s x0) : Only [.out, .pend, .setup, .clk, .job, .halt, .stats, .intake, .seq, .queues, .tel, .mem, .tables, .pen, .conns, .msgs, .events, .ledger, .life, .exp] s (State.commandSeq s x0) := by
  unfold State.commandSeq
  repeat' first
    | with_reducible exact Only.refl _
    | decide
    | (with_reducible apply Only.ite) <;> intro _
    | with_reducible apply Only.of (State.raise_only _ _ _ _ _ _)
    | with_reducible apply Only.of (State.log_only _ _ _ _)
    | with_reducible apply Only.of (State.setSlipLimit_only _ _)
    | with_reducible apply Only.of (State.acceptStart_only _)
    | with_reducible apply Only.of (State.acceptStop_only _)
    | with_reducible refine Only.thenFold ?_ (fun t x => ?_)

theorem State.writeSeqCtrl_only (s x0 x1) : Only [.out, .pend, .setup, .clk, .job, .halt, .stats, .intake, .seq, .queues, .tel, .mem, .tables, .pen, .conns, .msgs, .events, .ledger, .life, .exp] s (State.writeSeqCtrl s x0 x1) := by
  unfold State.writeSeqCtrl
  repeat' first
    | with_reducible exact Only.refl _
    | decide
    | (with_reducible apply Only.ite) <;> intro _
    | with_reducible apply Only.of (State.outOfRange_only _ _)
    | with_reducible apply Only.of (State.setSlipLimit_only _ _)
    | with_reducible apply Only.of (State.commandSeq_only _ _)

theorem State.deriveCopy_only (s x0 x1 x2) : Only [.halt, .stats, .tel, .hbm, .tiles, .mem, .tables, .churns, .watch, .events, .ledger, .exp] s (State.deriveCopy s x0 x1 x2) := by
  unfold State.deriveCopy
  repeat' first
    | with_reducible assumption
    | with_reducible exact Only.refl _
    | decide
    | (with_reducible apply Only.ite) <;> intro _
    | with_reducible apply Only.of (State.countTally_only _ _ _ _)
    | with_reducible apply Only.of (State.faultChurn_only _ _)
    | with_reducible apply Only.of (State.writeWorking_only _ _ _)
    | with_reducible refine Only.thenFold ?_ (fun t x => ?_)

theorem State.deriveUnreadable_only (s x0 x1 x2) : Only [.halt, .stats, .tel, .hbm, .tiles, .mem, .tables, .churns, .watch, .events, .ledger, .exp] s (State.deriveUnreadable s x0 x1 x2) := by
  unfold State.deriveUnreadable
  repeat' first
    | with_reducible exact Only.refl _
    | decide
    | with_reducible apply Only.of (State.setWatch_only _ _ _)
    | with_reducible apply Only.of (State.deriveCopy_only _ _ _ _)
    | extract_lets +onlyGivenNames x
    | split

theorem State.deriveRecord_only (s x0 x1 x2) : Only [.halt, .stats, .tel, .hbm, .tiles, .mem, .tables, .churns, .watch, .events, .ledger, .exp] s (State.deriveRecord s x0 x1 x2) := by
  unfold State.deriveRecord
  repeat' first
    | with_reducible assumption
    | with_reducible exact Only.refl _
    | decide
    | with_reducible apply Only.of (State.readRecord_only _ _ _ _)
    | with_reducible apply Only.of (State.planePoison_only _ _ _)
    | with_reducible apply Only.of (State.deriveCopy_only _ _ _ _)
    | with_reducible apply Only.of (State.deriveUnreadable_only _ _ _ _)
    | extract_lets +onlyGivenNames x
    | split

theorem State.derivePass_only (s) : Only [.halt, .stats, .tel, .hbm, .tiles, .mem, .tables, .churns, .watch, .events, .ledger, .exp] s (State.derivePass s) := by
  unfold State.derivePass
  repeat' first
    | with_reducible exact Only.refl _
    | decide
    | with_reducible apply Only.of (State.deriveRecord_only _ _ _ _)
    | with_reducible refine Only.thenFold ?_ (fun t x => ?_)
    | extract_lets +onlyGivenNames x
    | split

theorem State.startJob_only (s) : Only [.out, .clk, .job, .halt, .step, .slips, .phases, .stats, .intake, .tail, .replay, .reports, .seq, .ports, .queues, .tel, .hbm, .tiles, .mem, .tables, .emb, .acc, .churns, .hist, .attn, .watch, .pen, .conns, .msgs, .events, .ledger, .exp, .rel] s (State.startJob s) := by
  unfold State.startJob
  repeat' first
    | with_reducible exact Only.refl _
    | decide
    | with_reducible apply Only.of (State.freshJob_only _)
    | with_reducible apply Only.of (State.endIntake_only _)
    | with_reducible apply Only.of (State.takeEveryBatch_only _)
    | with_reducible apply Only.of (State.derivePass_only _)
    | with_reducible apply Only.of (State.startWatch_only _)
    | with_reducible apply Only.of (State.freshInit_only _)

/-! ## PenLinks -/

theorem State.requestRetry_only (s x0 x1) : Only [.out, .pen] s (State.requestRetry s x0 x1) := by
  unfold State.requestRetry
  repeat' first
    | with_reducible exact Only.refl _
    | decide
    | with_reducible apply Only.of (State.setPen_only _ _ _)
    | with_reducible apply Only.of (State.emit_only _ _)

theorem State.linkResumed_only (s x0) : Only [.out, .stats, .tel, .pen, .events] s (State.linkResumed s x0) := by
  unfold State.linkResumed
  repeat' first
    | with_reducible exact Only.refl _
    | decide
    | (with_reducible apply Only.ite) <;> intro _
    | with_reducible apply Only.of (State.raise_only _ _ _ _ _ _)
    | with_reducible apply Only.of (State.setPen_only _ _ _)
    | with_reducible apply Only.of (State.drainPen_only _ _ _)
    | with_reducible apply Only.of (State.requestRetry_only _ _ _)

theorem State.timeTransfer_only (s x0) : Only [.out, .stats, .conns] s (State.timeTransfer s x0) := by
  unfold State.timeTransfer
  repeat' first
    | with_reducible exact Only.refl _
    | decide
    | (with_reducible apply Only.ite) <;> intro _
    | with_reducible apply Only.of (State.emit_only _ _)
    | with_reducible apply Only.of (State.toConn_only _ _ _ _)
    | split

theorem State.badUnit_only (s x0 x1 x2) : Only [.out, .halt, .stats, .replay, .reports, .seq, .queues, .tel, .watch, .pen, .conns, .msgs, .events, .rel] s (State.badUnit s x0 x1 x2) := by
  unfold State.badUnit
  repeat' first
    | with_reducible exact Only.refl _
    | decide
    | (with_reducible apply Only.ite) <;> intro _
    | with_reducible apply Only.of (State.raise_only _ _ _ _ _ _)
    | with_reducible apply Only.of (State.message_only _ _ _ _)
    | with_reducible apply Only.of (State.evalFault_only _)
    | with_reducible apply Only.of (State.makeSuspect_only _)
    | (fail_if_no_progress ((with_reducible refine Only.lit ?_ ?_) <;> [skip; (intro p; cases p <;> first | exact .inl (by decide) | exact .inr (by (repeat' apply And.intro) <;> rfl))]))

theorem State.placeUnit_only (s x0 x1 x2 x3 x4 x5 x6) : Only [.msgs] s (State.placeUnit s x0 x1 x2 x3 x4 x5 x6) := by
  unfold State.placeUnit
  repeat' first
    | with_reducible exact Only.refl _
    | (with_reducible apply Only.ite) <;> intro _
    | (fail_if_no_progress ((with_reducible refine Only.lit ?_ ?_) <;> [skip; (intro p; cases p <;> first | exact .inl (by decide) | exact .inr (by (repeat' apply And.intro) <;> rfl))]))

theorem State.arriveUnit_only (s x0 x1 x2 x3 x4) : Only [.out, .halt, .stats, .replay, .reports, .seq, .queues, .tel, .watch, .pen, .conns, .msgs, .events, .rel] s (State.arriveUnit s x0 x1 x2 x3 x4) := by
  unfold State.arriveUnit
  repeat' first
    | with_reducible exact Only.refl _
    | decide
    | (with_reducible apply Only.ite) <;> intro _
    | with_reducible apply Only.of (State.badUnit_only _ _ _ _)
    | with_reducible apply Only.of (State.placeUnit_only _ _ _ _ _ _ _ _)

theorem State.takeTimes_only (s x0 x1) : Only [.clk, .tel, .events] s (State.takeTimes s x0 x1) := by
  unfold State.takeTimes
  repeat' first
    | with_reducible exact Only.refl _
    | decide
    | (with_reducible apply Only.ite) <;> intro _
    | with_reducible apply Only.of (State.raise_only _ _ _ _ _ _)
    | (fail_if_no_progress ((with_reducible refine Only.lit ?_ ?_) <;> [skip; (intro p; cases p <;> first | exact .inl (by decide) | exact .inr (by (repeat' apply And.intro) <;> rfl))]))

theorem State.controlArrived_only (s x0 x1) : Only [.out, .clk, .halt, .stats, .replay, .reports, .seq, .queues, .tel, .watch, .pen, .conns, .msgs, .events, .rel] s (State.controlArrived s x0 x1) := by
  unfold State.controlArrived
  repeat' first
    | with_reducible exact Only.refl _
    | decide
    | (with_reducible apply Only.ite) <;> intro _
    | with_reducible apply Only.of (State.arriveUnit_only _ _ _ _ _ _)
    | with_reducible apply Only.of (State.takeTimes_only _ _ _)
    | (fail_if_no_progress ((with_reducible refine Only.lit ?_ ?_) <;> [skip; (intro p; cases p <;> first | exact .inl (by decide) | exact .inr (by (repeat' apply And.intro) <;> rfl))]))

theorem State.penTime_only (s x0 x1 x2) : Only [.out, .clk, .halt, .stats, .replay, .reports, .seq, .queues, .tel, .watch, .pen, .conns, .msgs, .events, .rel] s (State.penTime s x0 x1 x2) := by
  unfold State.penTime
  repeat' first
    | with_reducible exact Only.refl _
    | decide
    | (with_reducible apply Only.ite) <;> intro _
    | with_reducible apply Only.of (State.setPen_only _ _ _)
    | with_reducible apply Only.of (State.controlArrived_only _ _ _)

theorem State.penControl_only (s x0 x1 x2) : Only [.out, .clk, .halt, .stats, .replay, .reports, .seq, .queues, .tel, .watch, .pen, .conns, .msgs, .events, .rel] s (State.penControl s x0 x1 x2) := by
  unfold State.penControl
  repeat' first
    | with_reducible exact Only.refl _
    | decide
    | (with_reducible apply Only.ite) <;> intro _
    | with_reducible apply Only.of (State.setPen_only _ _ _)
    | with_reducible apply Only.of (State.controlArrived_only _ _ _)

theorem State.penUnit_only (s x0 x1 x2) : Only [.out, .halt, .stats, .replay, .reports, .seq, .queues, .tel, .watch, .pen, .conns, .msgs, .events, .rel] s (State.penUnit s x0 x1 x2) := by
  unfold State.penUnit
  repeat' first
    | with_reducible exact Only.refl _
    | decide
    | with_reducible apply Only.of (State.setPen_only _ _ _)
    | with_reducible apply Only.of (State.arriveUnit_only _ _ _ _ _ _)

theorem State.penDeliver_only (s x0 x1 x2 x3) : Only [.out, .clk, .halt, .stats, .replay, .reports, .seq, .queues, .tel, .watch, .pen, .conns, .msgs, .events, .rel] s (State.penDeliver s x0 x1 x2 x3) := by
  unfold State.penDeliver
  repeat' first
    | with_reducible exact Only.refl _
    | decide
    | (with_reducible apply Only.ite) <;> intro _
    | with_reducible apply Only.of (State.penControl_only _ _ _ _)
    | with_reducible apply Only.of (State.penUnit_only _ _ _ _)

theorem State.carryPeer_only (s x0 x1) : Only [.boot, .tel, .pen, .events] s (State.carryPeer s x0 x1) := by
  unfold State.carryPeer
  repeat' first
    | with_reducible assumption
    | with_reducible exact Only.refl _
    | decide
    | (with_reducible apply Only.ite) <;> intro _
    | with_reducible apply Only.of (State.raise_only _ _ _ _ _ _)
    | with_reducible apply Only.of (State.setPen_only _ _ _)
    | (fail_if_no_progress ((with_reducible refine Only.lit ?_ ?_) <;> [skip; (intro p; cases p <;> first | exact .inl (by decide) | exact .inr (by (repeat' apply And.intro) <;> rfl))]))

theorem State.ident_only (s x0 x1 x2) : Only [.out, .boot, .tel, .pen, .events] s (State.ident s x0 x1 x2) := by
  unfold State.ident
  repeat' first
    | with_reducible exact Only.refl _
    | decide
    | with_reducible apply Only.of (State.raise_only _ _ _ _ _ _)
    | with_reducible apply Only.of (State.setPen_only _ _ _)
    | with_reducible apply Only.of (State.emit_only _ _)
    | with_reducible apply Only.of (State.carryPeer_only _ _ _)
    | extract_lets +onlyGivenNames x
    | split

theorem State.beginTraining_only (s) : Only [.pen, .herd, .msgs] s (State.beginTraining s) := by
  refine Only.lit (Only.refl _) ?_
  intro p; cases p <;> first | exact .inl (by decide) | exact .inr (by (repeat' apply And.intro) <;> rfl)

theorem State.writeFabCtrl_only (s x0) : Only [.pend, .setup, .pen, .herd, .msgs] s (State.writeFabCtrl s x0) := by
  unfold State.writeFabCtrl
  repeat' first
    | with_reducible exact Only.refl _
    | decide
    | (with_reducible apply Only.ite) <;> intro _
    | with_reducible apply Only.of (State.log_only _ _ _ _)
    | with_reducible apply Only.of (State.setPending_only _ _)
    | with_reducible apply Only.of (State.beginTraining_only _)

theorem State.trainFailed_only (s x0) : Only [.tel, .pen, .events, .ledger] s (State.trainFailed s x0) := by
  unfold State.trainFailed
  repeat' first
    | with_reducible exact Only.refl _
    | decide
    | (with_reducible apply Only.ite) <;> intro _
    | with_reducible apply Only.of (State.raise_only _ _ _ _ _ _)
    | with_reducible apply Only.of (State.setPen_only _ _ _)
    | with_reducible apply Only.of (State.countedFault_only _ _)

theorem State.endTraining_only (s x0) : Only [.tel, .pen, .msgs, .events, .ledger] s (State.endTraining s x0) := by
  unfold State.endTraining
  repeat' first
    | with_reducible exact Only.refl _
    | decide
    | (with_reducible apply Only.ite) <;> intro _
    | with_reducible apply Only.of (State.trainFailed_only _ _)
    | with_reducible refine Only.thenFold ?_ (fun t x => ?_)
    | (fail_if_no_progress ((with_reducible refine Only.lit ?_ ?_) <;> [skip; (intro p; cases p <;> first | exact .inl (by decide) | exact .inr (by (repeat' apply And.intro) <;> rfl))]))

theorem State.sendIdle_only (s x0) : Only [.out, .pen] s (State.sendIdle s x0) := by
  unfold State.sendIdle
  repeat' first
    | with_reducible exact Only.refl _
    | decide
    | with_reducible apply Only.of (State.setPen_only _ _ _)
    | with_reducible apply Only.of (State.emit_only _ _)

theorem State.linkLost_only (s x0) : Only [.halt, .tel, .pen, .events, .ledger] s (State.linkLost s x0) := by
  unfold State.linkLost
  repeat' first
    | with_reducible exact Only.refl _
    | decide
    | with_reducible apply Only.of (State.setPen_only _ _ _)
    | with_reducible apply Only.of (State.raiseHalt_only _ _ _ _ _)
    | with_reducible apply Only.of (State.countedFault_only _ _)

theorem State.deliverGroup_only (s x0 x1 x2) : Only [.out, .clk, .halt, .stats, .replay, .reports, .seq, .queues, .tel, .watch, .pen, .conns, .msgs, .events, .rel] s (State.deliverGroup s x0 x1 x2) := by
  unfold State.deliverGroup
  repeat' first
    | with_reducible exact Only.refl _
    | decide
    | with_reducible apply Only.of (State.penDeliver_only _ _ _ _ _)
    | with_reducible refine Only.thenFold ?_ (fun t x => ?_)

theorem State.tagFlit_only (s x0 x1) : Only [.out, .clk, .halt, .stats, .replay, .reports, .seq, .queues, .tel, .watch, .pen, .conns, .msgs, .events, .ledger, .rel] s (State.tagFlit s x0 x1) := by
  unfold State.tagFlit
  repeat' first
    | with_reducible exact Only.refl _
    | decide
    | with_reducible apply Only.of (State.raise_only _ _ _ _ _ _)
    | with_reducible apply Only.of (State.setPen_only _ _ _)
    | with_reducible apply Only.of (State.requestRetry_only _ _ _)
    | with_reducible apply Only.of (State.sendIdle_only _ _)
    | with_reducible apply Only.of (State.linkLost_only _ _)
    | with_reducible apply Only.of (State.deliverGroup_only _ _ _ _)
    | extract_lets +onlyGivenNames x
    | split

theorem State.flitInOrder_only (s x0 x1) : Only [.out, .clk, .halt, .stats, .replay, .reports, .seq, .queues, .tel, .watch, .pen, .conns, .msgs, .events, .ledger, .rel] s (State.flitInOrder s x0 x1) := by
  unfold State.flitInOrder
  repeat' first
    | with_reducible exact Only.refl _
    | decide
    | (with_reducible apply Only.ite) <;> intro _
    | with_reducible apply Only.of (State.setPen_only _ _ _)
    | with_reducible apply Only.of (State.penDeliver_only _ _ _ _ _)
    | with_reducible apply Only.of (State.sendIdle_only _ _)
    | with_reducible apply Only.of (State.tagFlit_only _ _ _)

theorem State.stitchRetransmit_only (s x0) : Only [.tel, .events, .ledger] s (State.stitchRetransmit s x0) := by
  unfold State.stitchRetransmit
  repeat' first
    | with_reducible exact Only.refl _
    | decide
    | (with_reducible apply Only.ite) <;> intro _
    | with_reducible apply Only.of (State.setUnit_only _ _ _)
    | with_reducible apply Only.of (State.countedFault_only _ _)
    | with_reducible apply Only.of (State.logged_only _ _)

theorem State.resendFlits_only (s x0 x1) : Only [.out] s (State.resendFlits s x0 x1) :=
  State.emits_only _ _

theorem State.takeCredit_only (s x0 x1) : Only [.out, .stats, .pen] s (State.takeCredit s x0 x1) := by
  unfold State.takeCredit
  repeat' first
    | with_reducible exact Only.refl _
    | decide
    | with_reducible apply Only.of (State.setPen_only _ _ _)
    | with_reducible apply Only.of (State.drainPen_only _ _ _)

theorem State.flitFails_only (s x0) : Only [.out, .pen] s (State.flitFails s x0) := by
  unfold State.flitFails
  repeat' first
    | with_reducible exact Only.refl _
    | decide
    | (with_reducible apply Only.ite) <;> intro _
    | with_reducible apply Only.of (State.requestRetry_only _ _ _)

theorem State.timeFlit_only (s x0 x1) : Only [.out, .clk, .halt, .stats, .replay, .reports, .seq, .queues, .tel, .watch, .pen, .conns, .msgs, .events, .rel] s (State.timeFlit s x0 x1) := by
  unfold State.timeFlit
  repeat' first
    | with_reducible exact Only.refl _
    | decide
    | (with_reducible apply Only.ite) <;> intro _
    | with_reducible apply Only.of (State.penTime_only _ _ _ _)
    | with_reducible apply Only.of (State.takeCredit_only _ _ _)
    | with_reducible apply Only.of (State.flitFails_only _ _)

theorem State.numberedFlit_only (s x0 x1 x2) : Only [.out, .clk, .halt, .stats, .replay, .reports, .seq, .queues, .tel, .watch, .pen, .conns, .msgs, .events, .ledger, .rel] s (State.numberedFlit s x0 x1 x2) := by
  unfold State.numberedFlit
  repeat' first
    | with_reducible exact Only.refl _
    | decide
    | (with_reducible apply Only.ite) <;> intro _
    | with_reducible apply Only.of (State.requestRetry_only _ _ _)
    | with_reducible apply Only.of (State.flitInOrder_only _ _ _)
    | with_reducible apply Only.of (State.takeCredit_only _ _ _)

theorem State.idleFlit_only (s x0 x1) : Only [.out, .stats, .pen] s (State.idleFlit s x0 x1) := by
  unfold State.idleFlit
  repeat' first
    | with_reducible exact Only.refl _
    | decide
    | (with_reducible apply Only.ite) <;> intro _
    | with_reducible apply Only.of (State.takeCredit_only _ _ _)
    | with_reducible apply Only.of (State.flitFails_only _ _)

theorem State.penRetrain_only (s x0 x1) : Only [.out, .halt, .stats, .tel, .pen, .events, .ledger] s (State.penRetrain s x0 x1) := by
  unfold State.penRetrain
  repeat' first
    | with_reducible exact Only.refl _
    | decide
    | (with_reducible apply Only.ite) <;> intro _
    | with_reducible apply Only.of (State.setPen_only _ _ _)
    | with_reducible apply Only.of (State.linkResumed_only _ _)
    | with_reducible apply Only.of (State.linkLost_only _ _)

theorem State.linkRetrain_only (s x0) : Only [.pen] s (State.linkRetrain s x0) := by
  unfold State.linkRetrain
  repeat' first
    | with_reducible exact Only.refl _
    | decide
    | (with_reducible apply Only.ite) <;> intro _
    | with_reducible apply Only.of (State.setPen_only _ _ _)

theorem State.retryReq_only (s x0 x1) : Only [.out, .stats, .pen, .ledger] s (State.retryReq s x0 x1) := by
  unfold State.retryReq
  repeat' first
    | with_reducible exact Only.refl _
    | decide
    | (with_reducible apply Only.ite) <;> intro _
    | with_reducible apply Only.of (State.logged_only _ _)
    | with_reducible apply Only.of (State.setPen_only _ _ _)
    | with_reducible apply Only.of (State.resendFlits_only _ _ _)
    | with_reducible apply Only.of (State.takeCredit_only _ _ _)
    | with_reducible apply Only.of (State.flitFails_only _ _)

/-! ## HerdPorts -/

theorem State.discardFrame_only (s x0) : Only [.herd] s (State.discardFrame s x0) :=
  State.setHerd_only _ _ _

theorem State.stopConn_only (s x0 x1) : Only [.out, .stats, .conns] s (State.stopConn s x0 x1) := by
  unfold State.stopConn
  repeat' first
    | with_reducible exact Only.refl _
    | decide
    | with_reducible apply Only.of (State.setConn_only _ _ _ _)
    | with_reducible apply Only.of (State.stripe_only _ _ _)
    | extract_lets +onlyGivenNames x
    | split

theorem State.drainTo_only (s x0 x1) : Only [.out, .stats, .conns] s (State.drainTo s x0 x1) :=
  State.drainConn_only _ _ _ _

theorem State.lowerRate_only (s x0 x1 x2) : Only [.tel, .conns, .events] s (State.lowerRate s x0 x1 x2) := by
  unfold State.lowerRate
  repeat' first
    | with_reducible exact Only.refl _
    | decide
    | (with_reducible apply Only.ite) <;> intro _
    | with_reducible apply Only.of (State.setConn_only _ _ _ _)
    | with_reducible apply Only.of (State.raiseOnce_only _ _ _ _ _ _ _)

theorem State.takeAck_only (s x0 x1 x2) : Only [.out, .stats, .tel, .conns, .events] s (State.takeAck s x0 x1 x2) := by
  unfold State.takeAck
  repeat' first
    | with_reducible exact Only.refl _
    | decide
    | (with_reducible apply Only.ite) <;> intro _
    | with_reducible apply Only.of (State.setConn_only _ _ _ _)
    | with_reducible apply Only.of (State.drainTo_only _ _ _)
    | with_reducible apply Only.of (State.lowerRate_only _ _ _ _)

theorem State.dropFrame_only (s x0 x1) : Only [.herd] s (State.dropFrame s x0 x1) := by
  unfold State.dropFrame
  repeat' first
    | with_reducible exact Only.refl _
    | decide
    | with_reducible apply Only.of (State.discardFrame_only _ _)
    | extract_lets +onlyGivenNames x
    | split

theorem State.onFrame_only {m : List Part} (s x0 x1 f) (k : [Part.herd].all m.contains = true) (h : Only m s (f s)) :
    Only m s (State.onFrame s x0 x1 f) := by
  unfold State.onFrame
  exact Only.ite (fun _ => Only.refl _) (fun _ => Only.ite (fun _ => (State.dropFrame_only _ _ _).mono k) (fun _ => h))

theorem State.packetArrived_only (s x0 x1 x2 x3) : Only [.tel, .herd, .conns, .events] s (State.packetArrived s x0 x1 x2 x3) := by
  unfold State.packetArrived
  repeat' first
    | with_reducible exact Only.refl _
    | decide
    | (with_reducible apply Only.ite) <;> intro _
    | with_reducible apply Only.of (State.setConn_only _ _ _ _)
    | with_reducible apply Only.of (State.raiseOnce_only _ _ _ _ _ _ _)
    | with_reducible apply Only.of (State.setHerd_only _ _ _)

theorem State.peerAbsent_only (s) : Only [.job, .seq, .tel, .pen, .conns, .msgs, .events] s (State.peerAbsent s) := by
  unfold State.peerAbsent
  repeat' first
    | with_reducible exact Only.refl _
    | decide
    | (with_reducible apply Only.ite) <;> intro _
    | with_reducible apply Only.of (State.raise_only _ _ _ _ _ _)
    | with_reducible apply Only.of (State.closeConnections_only _)
    | (fail_if_no_progress ((with_reducible refine Only.lit ?_ ?_) <;> [skip; (intro p; cases p <;> first | exact .inl (by decide) | exact .inr (by (repeat' apply And.intro) <;> rfl))]))

theorem State.pathLoss_only (s x0 x1 x2 x3) : Only [.tel, .conns, .events] s (State.pathLoss s x0 x1 x2 x3) := by
  unfold State.pathLoss
  repeat' first
    | with_reducible exact Only.refl _
    | decide
    | (with_reducible apply Only.ite) <;> intro _
    | with_reducible apply Only.of (State.raise_only _ _ _ _ _ _)
    | with_reducible apply Only.of (State.setConn_only _ _ _ _)

theorem State.sendAgain_only (s x0 x1 x2 x3) : Only [.out, .halt, .tel, .herd, .conns, .events] s (State.sendAgain s x0 x1 x2 x3) := by
  unfold State.sendAgain
  repeat' first
    | with_reducible exact Only.refl _
    | decide
    | (with_reducible apply Only.ite) <;> intro _
    | with_reducible apply Only.of (State.raiseHalt_only _ _ _ _ _)
    | with_reducible apply Only.of (State.setConn_only _ _ _ _)
    | with_reducible apply Only.of (State.emit_only _ _)
    | with_reducible apply Only.of (State.setHerd_only _ _ _)
    | with_reducible apply Only.of (State.pathLoss_only _ _ _ _ _)

theorem State.resendPacket_only (s x0 x1 x2 x3) : Only [.out, .halt, .tel, .herd, .conns, .events] s (State.resendPacket s x0 x1 x2 x3) := by
  unfold State.resendPacket
  repeat' first
    | with_reducible exact Only.refl _
    | decide
    | (with_reducible apply Only.ite) <;> intro _
    | with_reducible apply Only.of (State.setConn_only _ _ _ _)
    | with_reducible apply Only.of (State.sendAgain_only _ _ _ _ _)

theorem State.resendHeld_only (s x0 x1) : Only [.out, .halt, .tel, .herd, .conns, .events] s (State.resendHeld s x0 x1) := by
  unfold State.resendHeld
  repeat' first
    | with_reducible exact Only.refl _
    | decide
    | with_reducible apply Only.of (State.resendPacket_only _ _ _ _ _)
    | with_reducible refine Only.thenFold ?_ (fun t x => ?_)

theorem State.drainPlane_only (s x0) : Only [.out, .halt, .stats, .tel, .herd, .conns, .events] s (State.drainPlane s x0) := by
  unfold State.drainPlane
  repeat' first
    | with_reducible exact Only.refl _
    | decide
    | with_reducible apply Only.of (State.drainTo_only _ _ _)
    | with_reducible apply Only.of (State.resendHeld_only _ _ _)
    | with_reducible refine Only.thenFold ?_ (fun t x => ?_)

theorem State.ackPacket_only (s x0 x1) : Only [.out, .stats, .tel, .herd, .conns, .events] s (State.ackPacket s x0 x1) := by
  unfold State.ackPacket
  exact State.onFrame_only _ _ _ _ (by decide) (Only.ite (fun _ => (State.takeAck_only _ _ _ _).mono (by decide))
    (fun _ => (State.discardFrame_only _ _).mono (by decide)))

theorem State.bufferFilled_only (s x0 x1) : Only [.out, .herd] s (State.bufferFilled s x0 x1) := by
  unfold State.bufferFilled
  repeat' first
    | with_reducible exact Only.refl _
    | decide
    | (with_reducible apply Only.ite) <;> intro _
    | with_reducible apply Only.of (State.setHerd_only _ _ _)
    | with_reducible apply Only.of (State.emits_only _ _)

theorem State.packetTagFailed_only (s x0 x1) : Only [.tel, .herd, .conns, .events] s (State.packetTagFailed s x0 x1) := by
  unfold State.packetTagFailed
  repeat' first
    | with_reducible exact Only.refl _
    | decide
    | (with_reducible apply Only.ite) <;> intro _
    | with_reducible apply Only.of (State.raise_only _ _ _ _ _ _)
    | with_reducible apply Only.of (State.setConn_only _ _ _ _)
    | with_reducible apply Only.of (State.discardFrame_only _ _)

theorem State.numberedFrame_only {m : List Part} (s x0 x1 x2 f) (k : [Part.out, .stats, .tel, .herd, .conns, .events].all m.contains = true)
    (h : ∀ t a b, Only m t (f t a b)) : Only m s (State.numberedFrame s x0 x1 x2 f) := by
  unfold State.numberedFrame
  extract_lets hd remote c seq
  refine Only.ite (fun _ => (State.discardFrame_only _ _).mono (Part.sub_trans (by decide) k)) (fun _ =>
    Only.ite (fun _ => (State.setConn_only _ _ _ _).mono (Part.sub_trans (by decide) k)) (fun _ => ?_))
  split
  · exact (State.packetTagFailed_only _ _ _).mono (Part.sub_trans (by decide) k)
  · exact (((State.takeAck_only _ _ _ _).mono (Part.sub_trans (by decide) k)).trans
      ((State.packetArrived_only _ _ _ _ _).mono (Part.sub_trans (by decide) k))).trans (h _ _ _)

theorem State.numberedPacket_only {m : List Part} (s x0 x1 x2 f) (k : [Part.out, .stats, .tel, .herd, .conns, .events].all m.contains = true)
    (h : ∀ t a b, Only m t (f t a b)) : Only m s (State.numberedPacket s x0 x1 x2 f) :=
  State.onFrame_only _ _ _ _ (Part.sub_trans (by decide) k) (State.numberedFrame_only _ _ _ _ _ (Part.sub_trans (by decide) k) h)

theorem State.controlPart_only (s x0 x1 x2 x3 x4) : Only [.out, .clk, .halt, .stats, .replay, .reports, .seq, .queues, .tel, .watch, .pen, .conns, .msgs, .events, .rel] s (State.controlPart s x0 x1 x2 x3 x4) := by
  unfold State.controlPart
  repeat' first
    | with_reducible assumption
    | with_reducible exact Only.refl _
    | decide
    | with_reducible apply Only.of (State.controlArrived_only _ _ _)
    | (fail_if_no_progress ((with_reducible refine Only.lit ?_ ?_) <;> [skip; (intro p; cases p <;> first | exact .inl (by decide) | exact .inr (by (repeat' apply And.intro) <;> rfl))]))
    | extract_lets +onlyGivenNames x
    | split

theorem State.retransmission_only (s x0 x1 x2) : Only [.out, .halt, .tel, .herd, .conns, .events] s (State.retransmission s x0 x1 x2) := by
  unfold State.retransmission
  repeat' first
    | with_reducible exact Only.refl _
    | decide
    | (with_reducible apply Only.ite) <;> intro _
    | with_reducible apply Only.of (State.resendPacket_only _ _ _ _ _)
    | split

theorem State.ackTimeout_only (s x0 x1) : Only [.halt, .tel, .events] s (State.ackTimeout s x0 x1) := by
  unfold State.ackTimeout
  repeat' first
    | with_reducible exact Only.refl _
    | decide
    | (with_reducible apply Only.ite) <;> intro _
    | with_reducible apply Only.of (State.raiseHalt_only _ _ _ _ _)

theorem State.placeUnits_only (s x0 x1 x2 x3 x4 x5) : Only [.out, .halt, .stats, .replay, .reports, .seq, .queues, .tel, .watch, .pen, .conns, .msgs, .events, .rel] s (State.placeUnits s x0 x1 x2 x3 x4 x5) := by
  unfold State.placeUnits
  repeat' first
    | with_reducible exact Only.refl _
    | decide
    | with_reducible apply Only.of (State.arriveUnit_only _ _ _ _ _ _)
    | with_reducible refine Only.thenFold ?_ (fun t x => ?_)

theorem State.joinMessage_only (s x0) : Only [.out, .clk, .stats, .seq, .pen, .conns] s (State.joinMessage s x0) := by
  unfold State.joinMessage
  repeat' first
    | with_reducible exact Only.refl _
    | decide
    | (with_reducible apply Only.ite) <;> intro _
    | with_reducible apply Only.of (State.announceStart_only _)
    | with_reducible apply Only.of (State.sendJoin_only _)
    | (fail_if_no_progress ((with_reducible refine Only.lit ?_ ?_) <;> [skip; (intro p; cases p <;> first | exact .inl (by decide) | exact .inr (by (repeat' apply And.intro) <;> rfl))]))

theorem State.portDown_only (s x0) : Only [.out, .stats, .tel, .herd, .conns, .events] s (State.portDown s x0) := by
  unfold State.portDown
  repeat' first
    | with_reducible exact Only.refl _
    | decide
    | (with_reducible apply Only.ite) <;> intro _
    | with_reducible apply Only.of (State.raise_only _ _ _ _ _ _)
    | with_reducible apply Only.of (State.setHerd_only _ _ _)
    | with_reducible apply Only.of (State.stopConn_only _ _ _)
    | with_reducible refine Only.thenFold ?_ (fun t x => ?_)

theorem State.nak_only (s x0 x1) : Only [.out, .halt, .stats, .tel, .herd, .conns, .events] s (State.nak s x0 x1) := by
  unfold State.nak
  refine State.onFrame_only _ _ _ _ (by decide) (Only.ite (fun _ => ?_) (fun _ => (State.discardFrame_only _ _).mono (by decide)))
  extract_lets r s1
  have h : Only [.out, .halt, .stats, .tel, .herd, .conns, .events] s s1 := (State.takeAck_only _ _ _ _).mono (by decide)
  clear_value s1
  split
  · exact Only.of (State.resendPacket_only _ _ _ _ _) (by decide) h
  · exact h

theorem State.resume_only (s x0 x1) : Only [.out, .halt, .stats, .tel, .herd, .conns, .events] s (State.resume s x0 x1) := by
  unfold State.resume
  repeat' first
    | with_reducible exact Only.refl _
    | decide
    | with_reducible apply Only.of (State.setHerd_only _ _ _)
    | with_reducible apply Only.of (State.drainPlane_only _ _)

theorem State.giveUnnumbered_only (s x0 x1 x2 x3) : Only [.out, .stats, .conns] s (State.giveUnnumbered s x0 x1 x2 x3) :=
  (State.toConn_only _ _ _ _).mono (by decide)

theorem State.standaloneAck_only (s x0 x1) : Only [.out, .stats, .conns] s (State.standaloneAck s x0 x1) := by
  unfold State.standaloneAck
  repeat' first
    | with_reducible exact Only.refl _
    | decide
    | (with_reducible apply Only.ite) <;> intro _
    | with_reducible apply Only.of (State.giveUnnumbered_only _ _ _ _ _)

theorem State.xon_only (s x0 x1) : Only [.out, .herd] s (State.xon s x0 x1) := by
  unfold State.xon
  repeat' first
    | with_reducible exact Only.refl _
    | decide
    | (with_reducible apply Only.ite) <;> intro _
    | with_reducible apply Only.of (State.setHerd_only _ _ _)
    | with_reducible apply Only.of (State.emits_only _ _)

theorem State.pfcFrame_only (s x0 x1 x2) : Only [.out, .halt, .stats, .tel, .herd, .conns, .events] s (State.pfcFrame s x0 x1 x2) := by
  unfold State.pfcFrame
  repeat' first
    | with_reducible exact Only.refl _
    | decide
    | (with_reducible apply Only.ite) <;> intro _
    | with_reducible apply Only.of (State.setHerd_only _ _ _)
    | with_reducible apply Only.of (State.resume_only _ _ _)

theorem State.mapDigest_only (s x0 x1) : Only [.job, .seq, .tel, .pen, .conns, .msgs, .events] s (State.mapDigest s x0 x1) := by
  unfold State.mapDigest
  repeat' first
    | with_reducible exact Only.refl _
    | decide
    | (with_reducible apply Only.ite) <;> intro _
    | with_reducible apply Only.of (State.raise_only _ _ _ _ _ _)
    | with_reducible apply Only.of (State.closeConnections_only _)
    | (fail_if_no_progress ((with_reducible refine Only.lit ?_ ?_) <;> [skip; (intro p; cases p <;> first | exact .inl (by decide) | exact .inr (by (repeat' apply And.intro) <;> rfl))]))

theorem State.rateRecovery_only (s x0 x1) : Only [.conns] s (State.rateRecovery s x0 x1) :=
  State.setConn_only _ _ _ _

theorem State.pfcStorm_only (s x0 x1) : Only [.tel, .events] s (State.pfcStorm s x0 x1) := by
  unfold State.pfcStorm
  repeat' first
    | with_reducible exact Only.refl _
    | decide
    | (with_reducible apply Only.ite) <;> intro _
    | with_reducible apply Only.of (State.raise_only _ _ _ _ _ _)

theorem State.dataPacket_only (s x0 x1 x2) : Only [.out, .halt, .stats, .replay, .reports, .seq, .queues, .tel, .watch, .pen, .herd, .conns, .msgs, .events, .rel] s (State.dataPacket s x0 x1 x2) := by
  unfold State.dataPacket
  refine State.onFrame_only _ _ _ _ (by decide) (Only.ite (fun _ => ?_) (fun _ => ?_))
  · exact Only.trans ((State.bufferFilled_only _ _ _).mono (by decide))
      (State.numberedFrame_only _ _ _ _ _ (by decide) (fun _ _ _ => (State.placeUnits_only _ _ _ _ _ _ _).mono (by decide)))
  · exact Only.of (State.discardFrame_only _ _) (by decide) ((State.bufferFilled_only _ _ _).mono (by decide))

theorem State.gapPersists_only (s x0 x1) : Only [.out, .stats, .conns] s (State.gapPersists s x0 x1) := by
  unfold State.gapPersists
  repeat' first
    | with_reducible exact Only.refl _
    | decide
    | (with_reducible apply Only.ite) <;> intro _
    | with_reducible apply Only.of (State.giveUnnumbered_only _ _ _ _ _)
    | with_reducible refine Only.thenFold ?_ (fun t x => ?_)

end Sys2Proof.Machine
end

