-- ==== Sys2Proof/Laws/OnlyHost.lean ====
section
/-! SUPPORT. The parts of the state that each operation of queues, host ports, ticks, power, reliability, security and setup
may change (Only): one lemma per operation, cited instead of its text. -/

-- Checked one theorem at a time: the package as one text then needs less memory.
set_option Elab.async false

namespace Sys2Proof.Machine

/-! ## HostQueues -/

theorem State.takeFence_only (s x0) : Only [.out, .stats, .intake, .reports, .queues, .tel, .pen, .conns, .events] s (State.takeFence s x0) := by
  unfold State.takeFence
  repeat' first
    | with_reducible exact Only.refl _
    | decide
    | (with_reducible apply Only.ite) <;> intro _
    | with_reducible apply Only.of (State.setDesc_only _ _ _ _)
    | with_reducible apply Only.of (State.failDesc_only _ _ _ _)
    | split

theorem State.pollFailed_only (s x0) : Only [.groups, .tel, .events] s (State.pollFailed s x0) := by
  unfold State.pollFailed
  repeat' first
    | with_reducible exact Only.refl _
    | decide
    | with_reducible apply Only.of (State.setGroup_only _ _ _)
    | with_reducible apply Only.of (State.raiseOnce_only _ _ _ _ _ _ _)

theorem State.consumeTo_only (s x0 x1 x2) : Only [.queues, .tel, .events, .exp] s (State.consumeTo s x0 x1 x2) := by
  unfold State.consumeTo
  repeat' first
    | with_reducible exact Only.refl _
    | decide
    | (with_reducible apply Only.ite) <;> intro _
    | with_reducible apply Only.of (State.setQueue_only _ _ _)
    | with_reducible apply Only.of (State.refillHeld_only _ _)
    | with_reducible apply Only.of (State.haltQueue_only _ _ _)

theorem State.pollGroup_only (s x0) : Only [.out, .ports, .groups] s (State.pollGroup s x0) := by
  unfold State.pollGroup
  repeat' first
    | with_reducible exact Only.refl _
    | decide
    | (with_reducible apply Only.ite) <;> intro _
    | with_reducible apply Only.of (State.setGroup_only _ _ _)
    | with_reducible apply Only.of (State.readHost_only _ _ _ _)

theorem State.takeNop_only (s x0) : Only [.queues] s (State.takeNop s x0) := by
  unfold State.takeNop
  repeat' first
    | with_reducible exact Only.refl _
    | decide
    | with_reducible apply Only.of (State.finishDesc_only _ _ _ _ _)
    | split

theorem State.holdoffEnd_only (s x0) : Only [.out, .ports, .queues] s (State.holdoffEnd s x0) := by
  unfold State.holdoffEnd
  repeat' first
    | with_reducible exact Only.refl _
    | decide
    | (with_reducible apply Only.ite) <;> intro _
    | with_reducible apply Only.of (State.setQueue_only _ _ _)
    | with_reducible apply Only.of (State.msix_only _ _ _)

theorem State.pushDesc_only (s x0 x1) : Only [.queues] s (State.pushDesc s x0 x1) :=
  State.setQueue_only _ _ _

theorem State.intakeFault_only (s x0 x1 x2) : Only [.out, .stats, .intake, .reports, .ports, .queues, .tel, .pen, .conns, .events, .ledger] s (State.intakeFault s x0 x1 x2) := by
  unfold State.intakeFault
  repeat' first
    | with_reducible exact Only.refl _
    | decide
    | (with_reducible apply Only.ite) <;> intro _
    | with_reducible apply Only.of (State.raise_only _ _ _ _ _ _)
    | with_reducible apply Only.of (State.countedFault_only _ _)
    | with_reducible apply Only.of (State.failDesc_only _ _ _ _)
    | with_reducible apply Only.of (State.readBuffer_only _ _ _ _ _)
    | (fail_if_no_progress ((with_reducible refine Only.lit ?_ ?_) <;> [skip; (intro p; cases p <;> first | exact .inl (by decide) | exact .inr (by (repeat' apply And.intro) <;> rfl))]))

theorem State.acceptDesc_only (s x0 x1) : Only [.out, .stats, .intake, .reports, .ports, .queues, .tel, .pen, .conns, .events] s (State.acceptDesc s x0 x1) := by
  unfold State.acceptDesc
  repeat' first
    | with_reducible exact Only.refl _
    | decide
    | (with_reducible apply Only.ite) <;> intro _
    | with_reducible apply Only.of (State.failDesc_only _ _ _ _)
    | with_reducible apply Only.of (State.readBuffer_only _ _ _ _ _)
    | with_reducible apply Only.of (State.pushDesc_only _ _ _)
    | extract_lets +onlyGivenNames x
    | split

theorem State.lapMismatch_only (s x0) : Only [.queues, .tel, .events, .exp] s (State.lapMismatch s x0) := by
  unfold State.lapMismatch
  repeat' first
    | with_reducible exact Only.refl _
    | decide
    | (with_reducible apply Only.ite) <;> intro _
    | with_reducible apply Only.of (State.setQueue_only _ _ _)
    | with_reducible apply Only.of (State.finishDesc_only _ _ _ _ _)
    | with_reducible apply Only.of (State.pushDesc_only _ _ _)
    | with_reducible apply Only.of (State.haltQueue_only _ _ _)
    | (fail_if_no_progress ((with_reducible refine Only.lit ?_ ?_) <;> [skip; (intro p; cases p <;> first | exact .inl (by decide) | exact .inr (by (repeat' apply And.intro) <;> rfl))]))

theorem State.descriptorFetched_only (s x0 x1 x2) : Only [.out, .time, .stats, .intake, .reports, .ports, .queues, .tel, .pen, .conns, .events, .exp] s (State.descriptorFetched s x0 x1 x2) := by
  unfold State.descriptorFetched
  repeat' first
    | with_reducible exact Only.refl _
    | decide
    | (with_reducible apply Only.ite) <;> intro _
    | with_reducible apply Only.of (State.setQueue_only _ _ _)
    | with_reducible apply Only.of (State.failDesc_only _ _ _ _)
    | with_reducible apply Only.of (State.fetchNext_only _ _)
    | with_reducible apply Only.of (State.readOver_only _ _ _ _)
    | with_reducible apply Only.of (State.pushDesc_only _ _ _)
    | with_reducible apply Only.of (State.acceptDesc_only _ _ _)
    | with_reducible apply Only.of (State.lapMismatch_only _ _)
    | (fail_if_no_progress ((with_reducible refine Only.lit ?_ ?_) <;> [skip; (intro p; cases p <;> first | exact .inl (by decide) | exact .inr (by (repeat' apply And.intro) <;> rfl))]))
    | split

theorem State.batchRead_only (s x0 x1 x2) : Only [.out, .stats, .intake, .reports, .queues, .tel, .pen, .conns, .events] s (State.batchRead s x0 x1 x2) := by
  unfold State.batchRead
  repeat' first
    | with_reducible exact Only.refl _
    | decide
    | with_reducible apply Only.of (State.setDesc_only _ _ _ _)
    | with_reducible apply Only.of (State.endIntake_only _)
    | with_reducible apply Only.of (State.failDesc_only _ _ _ _)
    | split

theorem State.postTo_only (s x0 x1 x2 x3) : Only [.out, .ports, .queues, .tel, .events, .exp] s (State.postTo s x0 x1 x2 x3) := by
  unfold State.postTo
  repeat' first
    | with_reducible exact Only.refl _
    | decide
    | (with_reducible apply Only.ite) <;> intro _
    | with_reducible apply Only.of (State.setQueue_only _ _ _)
    | with_reducible apply Only.of (State.fetchNext_only _ _)
    | with_reducible apply Only.of (State.haltQueue_only _ _ _)

theorem State.doorbell_only (s x0 x1 x2) : Only [.out, .ports, .queues, .tel, .events, .exp] s (State.doorbell s x0 x1 x2) := by
  unfold State.doorbell
  repeat' first
    | with_reducible exact Only.refl _
    | decide
    | (with_reducible apply Only.ite) <;> intro _
    | with_reducible apply Only.of (State.consumeTo_only _ _ _ _)
    | with_reducible apply Only.of (State.postTo_only _ _ _ _ _)

theorem State.loadRead_only (s x0 x1 x2) : Only [.out, .stats, .intake, .reports, .queues, .tel, .pen, .conns, .events] s (State.loadRead s x0 x1 x2) := by
  unfold State.loadRead
  repeat' first
    | with_reducible exact Only.refl _
    | decide
    | (with_reducible apply Only.ite) <;> intro _
    | with_reducible apply Only.of (State.setDesc_only _ _ _ _)
    | with_reducible apply Only.of (State.failDesc_only _ _ _ _)
    | with_reducible apply Only.of (State.stopDesc_only _ _ _ _ _)

theorem State.doorbellRead_only (s x0 x1 x2 x3) : Only [.out, .time, .ports, .groups, .queues, .tel, .events, .exp] s (State.doorbellRead s x0 x1 x2 x3) := by
  unfold State.doorbellRead
  repeat' first
    | with_reducible assumption
    | with_reducible exact Only.refl _
    | decide
    | with_reducible apply Only.of (State.setGroup_only _ _ _)
    | with_reducible apply Only.of (State.pollFailed_only _ _)
    | with_reducible apply Only.of (State.readOver_only _ _ _ _)
    | with_reducible apply Only.of (State.doorbell_only _ _ _ _)
    | with_reducible refine Only.thenFold ?_ (fun t x => ?_)
    | (fail_if_no_progress ((with_reducible refine Only.lit ?_ ?_) <;> [skip; (intro p; cases p <;> first | exact .inl (by decide) | exact .inr (by (repeat' apply And.intro) <;> rfl))]))
    | extract_lets +onlyGivenNames x
    | split

theorem State.takeEval_only (s x0) : Only [.out, .ports, .queues] s (State.takeEval s x0) := by
  unfold State.takeEval
  repeat' first
    | with_reducible exact Only.refl _
    | decide
    | (with_reducible apply Only.ite) <;> intro _
    | with_reducible apply Only.of (State.setDesc_only _ _ _ _)
    | with_reducible apply Only.of (State.readBuffer_only _ _ _ _ _)
    | split

theorem State.bufferRead_only (s x0 x1 x2) : Only [.out, .stats, .intake, .reports, .ports, .queues, .tel, .pen, .conns, .events, .ledger] s (State.bufferRead s x0 x1 x2) := by
  unfold State.bufferRead
  repeat' first
    | with_reducible exact Only.refl _
    | decide
    | (with_reducible apply Only.ite) <;> intro _
    | with_reducible apply Only.of (State.failDesc_only _ _ _ _)
    | with_reducible apply Only.of (State.intakeFault_only _ _ _ _)
    | with_reducible apply Only.of (State.readOver_only _ _ _ _)
    | with_reducible apply Only.of (State.batchRead_only _ _ _ _)
    | with_reducible apply Only.of (State.loadRead_only _ _ _ _)
    | extract_lets +onlyGivenNames x
    | split

theorem State.writeTelemetry_only (s) : Only [.out, .ports, .queues, .tel] s (State.writeTelemetry s) := by
  unfold State.writeTelemetry
  repeat' first
    | with_reducible exact Only.refl _
    | decide
    | (with_reducible apply Only.ite) <;> intro _
    | with_reducible apply Only.of (State.refillHeld_only _ _)
    | with_reducible apply Only.of (State.writeEntry_only _ _ _ _)
    | (fail_if_no_progress ((with_reducible refine Only.lit ?_ ?_) <;> [skip; (intro p; cases p <;> first | exact .inl (by decide) | exact .inr (by (repeat' apply And.intro) <;> rfl))]))
    | split

theorem State.lapReread_only (s x0) : Only [.out, .ports, .queues] s (State.lapReread s x0) := by
  unfold State.lapReread
  repeat' first
    | with_reducible exact Only.refl _
    | decide
    | (with_reducible apply Only.ite) <;> intro _
    | with_reducible apply Only.of (State.setQueue_only _ _ _)
    | with_reducible apply Only.of (State.readHost_only _ _ _ _)

theorem State.endFence_only (s x0) : Only [.out, .stats, .intake, .reports, .queues, .tel, .pen, .conns, .events] s (State.endFence s x0) := by
  unfold State.endFence
  repeat' first
    | with_reducible exact Only.refl _
    | decide
    | (with_reducible apply Only.ite) <;> intro _
    | with_reducible apply Only.of (State.finishDesc_only _ _ _ _ _)
    | with_reducible apply Only.of (State.failDesc_only _ _ _ _)
    | extract_lets +onlyGivenNames x
    | split

/-! ## HostPorts -/

theorem State.portUp_only (s x0 x1 x2) : Only [.ports, .tel, .events] s (State.portUp s x0 x1 x2) := by
  unfold State.portUp
  repeat' first
    | with_reducible exact Only.refl _
    | decide
    | (with_reducible apply Only.ite) <;> intro _
    | with_reducible apply Only.of (State.raise_only _ _ _ _ _ _)
    | with_reducible apply Only.of (State.setPort_only _ _ _)

theorem State.takeSnapshot_only (s x0) : Only [.queues] s (State.takeSnapshot s x0) := by
  unfold State.takeSnapshot
  repeat' first
    | with_reducible exact Only.refl _
    | decide
    | with_reducible apply Only.of (State.setDesc_only _ _ _ _)
    | with_reducible apply Only.of (State.finishDesc_only _ _ _ _ _)
    | split

theorem State.retrainPort_only (s x0) : Only [.out, .setup, .ports, .tel, .events] s (State.retrainPort s x0) := by
  unfold State.retrainPort
  repeat' first
    | with_reducible exact Only.refl _
    | decide
    | (with_reducible apply Only.ite) <;> intro _
    | with_reducible apply Only.of (State.raise_only _ _ _ _ _ _)
    | with_reducible apply Only.of (State.setPort_only _ _ _)
    | with_reducible apply Only.of (State.msix_only _ _ _)
    | with_reducible apply Only.of (State.emits_only _ _)
    | with_reducible refine Only.thenFold ?_ (fun t x => ?_)
    | (fail_if_no_progress ((with_reducible refine Only.lit ?_ ?_) <;> [skip; (intro p; cases p <;> first | exact .inl (by decide) | exact .inr (by (repeat' apply And.intro) <;> rfl))]))

theorem State.linkDown_only (s x0 x1) : Only [.ports] s (State.linkDown s x0 x1) := by
  unfold State.linkDown
  repeat' first
    | with_reducible exact Only.refl _
    | decide
    | (with_reducible apply Only.ite) <;> intro _
    | with_reducible apply Only.of (State.setPort_only _ _ _)

theorem State.descriptorTimeout_only (s x0) : Only [.out, .stats, .intake, .reports, .ports, .queues, .tel, .pen, .conns, .events] s (State.descriptorTimeout s x0) := by
  unfold State.descriptorTimeout
  repeat' first
    | with_reducible exact Only.refl _
    | decide
    | (with_reducible apply Only.ite) <;> intro _
    | with_reducible apply Only.of (State.failDesc_only _ _ _ _)
    | with_reducible apply Only.of (State.fetchNext_only _ _)
    | with_reducible apply Only.of (State.readOver_only _ _ _ _)
    | with_reducible apply Only.of (State.pushDesc_only _ _ _)

theorem State.failSetupRead_only (s x0) : Only [.setup] s (State.failSetupRead s x0) := by
  unfold State.failSetupRead
  repeat' first
    | with_reducible exact Only.refl _
    | decide
    | (with_reducible apply Only.ite) <;> intro _
    | with_reducible apply Only.of (State.endOp_only _ _)
    | with_reducible apply Only.of (State.endCmd_only _ _)

theorem State.bufferTimeout_only (s x0) : Only [.out, .stats, .intake, .reports, .ports, .queues, .tel, .pen, .conns, .events] s (State.bufferTimeout s x0) := by
  unfold State.bufferTimeout
  repeat' first
    | with_reducible exact Only.refl _
    | decide
    | (with_reducible apply Only.ite) <;> intro _
    | with_reducible apply Only.of (State.failDesc_only _ _ _ _)
    | with_reducible apply Only.of (State.readOver_only _ _ _ _)
    | split

theorem State.readTimeout_only (s x0) : Only [.out, .setup, .stats, .intake, .reports, .ports, .groups, .queues, .tel, .pen, .conns, .events] s (State.readTimeout s x0) := by
  unfold State.readTimeout
  repeat' first
    | with_reducible exact Only.refl _
    | decide
    | (with_reducible apply Only.ite) <;> intro _
    | with_reducible apply Only.of (State.pollFailed_only _ _)
    | with_reducible apply Only.of (State.readOver_only _ _ _ _)
    | with_reducible apply Only.of (State.bufferTimeout_only _ _)
    | with_reducible apply Only.of (State.failSetupRead_only _ _)
    | with_reducible apply Only.of (State.descriptorTimeout_only _ _)
    | split

theorem State.dropWaitingLoad_only (s x0) : Only [.mem, .tables] s (State.dropWaitingLoad s x0) := by
  unfold State.dropWaitingLoad
  repeat' first
    | with_reducible exact Only.refl _
    | decide
    | (with_reducible apply Only.ite) <;> intro _
    | with_reducible apply Only.of (State.dropVersions_only _ _)

theorem State.orphanQueue_only (s x0) : Only [.out, .stats, .intake, .reports, .queues, .tel, .mem, .tables, .pen, .conns, .events] s (State.orphanQueue s x0) := by
  unfold State.orphanQueue
  repeat' first
    | with_reducible exact Only.refl _
    | decide
    | (with_reducible apply Only.ite) <;> intro _
    | with_reducible apply Only.of (State.setQueue_only _ _ _)
    | with_reducible apply Only.of (State.withdraw_only _ _ _)
    | with_reducible apply Only.of (State.failFences_only _ _)
    | with_reducible apply Only.of (State.dropWaitingLoad_only _ _)
    | with_reducible refine Only.thenFold ?_ (fun t x => ?_)

theorem State.orphanPort_only (s x0) : Only [.out, .setup, .stats, .intake, .reports, .ports, .groups, .queues, .tel, .mem, .tables, .pen, .conns, .events, .exp] s (State.orphanPort s x0) := by
  unfold State.orphanPort
  repeat' first
    | with_reducible exact Only.refl _
    | decide
    | (with_reducible apply Only.ite) <;> intro _
    | with_reducible apply Only.of (State.raise_only _ _ _ _ _ _)
    | with_reducible apply Only.of (State.breakExport_only _)
    | with_reducible apply Only.of (State.endIntake_only _)
    | with_reducible apply Only.of (State.setPort_only _ _ _)
    | with_reducible apply Only.of (State.orphanQueue_only _ _)
    | with_reducible apply Only.of (State.failSetupRead_only _ _)
    | with_reducible refine Only.thenFold ?_ (fun t x => ?_)
    | (fail_if_no_progress ((with_reducible refine Only.lit ?_ ?_) <;> [skip; (intro p; cases p <;> first | exact .inl (by decide) | exact .inr (by (repeat' apply And.intro) <;> rfl))]))

theorem State.resetPort_only (s x0) : Only [.out, .setup, .stats, .intake, .reports, .ports, .groups, .queues, .tel, .mem, .tables, .pen, .conns, .events, .exp] s (State.resetPort s x0) := by
  unfold State.resetPort
  repeat' first
    | with_reducible exact Only.refl _
    | decide
    | (with_reducible apply Only.ite) <;> intro _
    | with_reducible apply Only.of (State.orphanPort_only _ _)

/-! ## Ticks -/

theorem State.intakeExcess_only (s) : Only [.out, .stats, .reports, .pen, .conns] s (State.intakeExcess s) := by
  unfold State.intakeExcess
  repeat' first
    | with_reducible exact Only.refl _
    | decide
    | (with_reducible apply Only.ite) <;> intro _
    | with_reducible apply Only.of (State.declareExcess_only _)

theorem State.announcePeriod_only (s x0) : Only [.seq, .tel, .events] s (State.announcePeriod s x0) := by
  unfold State.announcePeriod
  repeat' first
    | with_reducible exact Only.refl _
    | decide
    | (with_reducible apply Only.ite) <;> intro _
    | with_reducible apply Only.of (State.runAdmission_only _ _ _)
    | (fail_if_no_progress ((with_reducible refine Only.lit ?_ ?_) <;> [skip; (intro p; cases p <;> first | exact .inl (by decide) | exact .inr (by (repeat' apply And.intro) <;> rfl))]))
    | split

theorem State.newEpoch_only (s x0) : Only [.watch] s (State.newEpoch s x0) := by
  refine Only.lit (Only.refl _) ?_
  intro p; cases p <;> first | exact .inl (by decide) | exact .inr (by (repeat' apply And.intro) <;> rfl)

theorem State.checkIntake_only (s) : Only [.out, .stats, .reports, .pen, .conns] s (State.checkIntake s) := by
  unfold State.checkIntake
  repeat' first
    | with_reducible exact Only.refl _
    | decide
    | (with_reducible apply Only.ite) <;> intro _
    | with_reducible apply Only.of (State.declareExcess_only _)

theorem State.takeLookups_only (s) : Only [.tables, .emb, .hist, .attn, .msgs] s (State.takeLookups s) :=
  Only.lit (Only.refl s) (by intro p; cases p <;> first | exact .inl (by decide) | exact .inr (by (repeat' apply And.intro) <;> rfl))

theorem State.startPhase1_only (s) : Only [.out, .halt, .stats, .replay, .reports, .tel, .watch, .pen, .conns, .msgs, .events, .rel] s (State.startPhase1 s) := by
  unfold State.startPhase1
  repeat' first
    | with_reducible exact Only.refl _
    | decide
    | with_reducible apply Only.of (State.sendUserLists_only _)
    | with_reducible apply Only.of (State.sendLists_only _)
    | with_reducible apply Only.of (State.sendDigests_only _)
    | with_reducible apply Only.of (State.countInvalid_only _ _)
    | with_reducible apply Only.of (State.keepCounts_only _)
    | (fail_if_no_progress ((with_reducible refine Only.lit ?_ ?_) <;> [skip; (intro p; cases p <;> first | exact .inl (by decide) | exact .inr (by (repeat' apply And.intro) <;> rfl))]))

theorem State.openIntake_only (s) : Only [.out, .stats, .intake, .reports, .ports, .queues, .tel, .pen, .conns, .events] s (State.openIntake s) := by
  unfold State.openIntake
  repeat' first
    | with_reducible exact Only.refl _
    | decide
    | (with_reducible apply Only.ite) <;> intro _
    | with_reducible apply Only.of (State.endIntake_only _)
    | with_reducible apply Only.of (State.takeEveryBatch_only _)
    | (fail_if_no_progress ((with_reducible refine Only.lit ?_ ?_) <;> [skip; (intro p; cases p <;> first | exact .inl (by decide) | exact .inr (by (repeat' apply And.intro) <;> rfl))]))

theorem State.bindSwaps_only (s x0) : Only [.tables] s (State.bindSwaps s x0) := by
  refine Only.lit (Only.refl _) ?_
  intro p; cases p <;> first | exact .inl (by decide) | exact .inr (by (repeat' apply And.intro) <;> rfl)

theorem State.freshStep_only (s x0) : Only [.clk, .job, .step, .slips, .phases, .stats, .intake, .tail, .replay, .reports, .seq, .events, .ledger] s (State.freshStep s x0) := by
  refine Only.lit (Only.refl _) ?_
  intro p; cases p <;> first | exact .inl (by decide) | exact .inr (by (repeat' apply And.intro) <;> rfl)

theorem State.startStep_only (s) : Only [.out, .clk, .job, .halt, .step, .slips, .phases, .stats, .intake, .tail, .replay, .reports, .seq, .ports, .queues, .tel, .mem, .tables, .emb, .hist, .attn, .watch, .pen, .conns, .msgs, .events, .ledger, .exp, .rel] s (State.startStep s) := by
  unfold State.startStep
  repeat' first
    | with_reducible exact Only.refl _
    | decide
    | (with_reducible apply Only.ite) <;> intro _
    | with_reducible apply Only.of (State.takeLookups_only _)
    | with_reducible apply Only.of (State.separateNext_only _)
    | with_reducible apply Only.of (State.intakeExcess_only _)
    | with_reducible apply Only.of (State.startPhase1_only _)
    | with_reducible apply Only.of (State.openIntake_only _)
    | with_reducible apply Only.of (State.releaseCache_only _)
    | with_reducible apply Only.of (State.startStream_only _)
    | with_reducible apply Only.of (State.bindSwaps_only _ _)
    | with_reducible apply Only.of (State.newEpoch_only _ _)
    | with_reducible apply Only.of (State.freshStep_only _ _)

theorem State.announceSwap_only (s x0) : Only [.tel, .tables, .events] s (State.announceSwap s x0) := by
  unfold State.announceSwap
  repeat' first
    | with_reducible exact Only.refl _
    | decide
    | with_reducible apply Only.of (State.raise_only _ _ _ _ _ _)
    | with_reducible apply Only.of (State.mapTables_only _ _ _)
    | (fail_if_no_progress ((with_reducible refine Only.lit ?_ ?_) <;> [skip; (intro p; cases p <;> first | exact .inl (by decide) | exact .inr (by (repeat' apply And.intro) <;> rfl))]))

theorem State.haltNow_only (s) : Only [.clk, .job, .halt, .queues, .exp] s (State.haltNow s) := by
  unfold State.haltNow
  repeat' first
    | with_reducible exact Only.refl _
    | decide
    | (with_reducible apply Only.ite) <;> intro _
    | with_reducible apply Only.of (State.enterHalted_only _)
    | (fail_if_no_progress ((with_reducible refine Only.lit ?_ ?_) <;> [skip; (intro p; cases p <;> first | exact .inl (by decide) | exact .inr (by (repeat' apply And.intro) <;> rfl))]))

theorem State.noDecision_only (s) : Only [.clk, .job, .halt, .queues, .tel, .events, .exp] s (State.noDecision s) := by
  unfold State.noDecision
  repeat' first
    | with_reducible exact Only.refl _
    | decide
    | with_reducible apply Only.of (State.raise_only _ _ _ _ _ _)
    | with_reducible apply Only.of (State.haltNow_only _)

theorem State.setStepClock_only (s) : Only [.tel, .events, .pwr] s (State.setStepClock s) := by
  unfold State.setStepClock
  repeat' first
    | with_reducible exact Only.refl _
    | decide
    | (with_reducible apply Only.ite) <;> intro _
    | with_reducible apply Only.of (State.raise_only _ _ _ _ _ _)
    | (fail_if_no_progress ((with_reducible refine Only.lit ?_ ?_) <;> [skip; (intro p; cases p <;> first | exact .inl (by decide) | exact .inr (by (repeat' apply And.intro) <;> rfl))]))

theorem State.measured_only (s x0) : Only [.pwr] s (State.measured s x0) := by
  refine Only.lit (Only.refl _) ?_
  intro p; cases p <;> first | exact .inl (by decide) | exact .inr (by (repeat' apply And.intro) <;> rfl)

theorem State.acceptDecision_only (s x0) : Only [.clk, .seq, .tel, .tables, .events] s (State.acceptDecision s x0) := by
  unfold State.acceptDecision
  repeat' first
    | with_reducible assumption
    | with_reducible exact Only.refl _
    | decide
    | with_reducible apply Only.of (State.announcePeriod_only _ _)
    | with_reducible apply Only.of (State.announceSwap_only _ _)
    | with_reducible refine Only.thenFold ?_ (fun t x => ?_)
    | (fail_if_no_progress ((with_reducible refine Only.lit ?_ ?_) <;> [skip; (intro p; cases p <;> first | exact .inl (by decide) | exact .inr (by (repeat' apply And.intro) <;> rfl))]))
    | extract_lets +onlyGivenNames x
    | split

theorem State.decisionMessage_only (s x0) : Only [.out, .clk, .stats, .seq, .tel, .tables, .pen, .conns, .events] s (State.decisionMessage s x0) := by
  unfold State.decisionMessage
  repeat' first
    | with_reducible exact Only.refl _
    | decide
    | (with_reducible apply Only.ite) <;> intro _
    | with_reducible apply Only.of (State.messages_only _ _ _ _)
    | with_reducible apply Only.of (State.acceptDecision_only _ _)
    | (fail_if_no_progress ((with_reducible refine Only.lit ?_ ?_) <;> [skip; (intro p; cases p <;> first | exact .inl (by decide) | exact .inr (by (repeat' apply And.intro) <;> rfl))]))
    | split

theorem State.countTick_only (s) : Only [.clk, .queues] s (State.countTick s) :=
  Only.lit (Only.refl s) (by intro p; cases p <;> first | exact .inl (by decide) | exact .inr (by (repeat' apply And.intro) <;> rfl))

theorem State.tickPulse_only (s) : Only [.out] s (State.tickPulse s) := by
  unfold State.tickPulse
  repeat' first
    | with_reducible exact Only.refl _
    | decide
    | (with_reducible apply Only.ite) <;> intro _
    | with_reducible apply Only.of (State.emit_only _ _)

theorem State.restorePromise_only (s) : Only [.void, .tel, .channels, .events] s (State.restorePromise s) := by
  unfold State.restorePromise
  repeat' first
    | with_reducible exact Only.refl _
    | decide
    | (with_reducible apply Only.ite) <;> intro _
    | with_reducible apply Only.of (State.raise_only _ _ _ _ _ _)
    | (fail_if_no_progress ((with_reducible refine Only.lit ?_ ?_) <;> [skip; (intro p; cases p <;> first | exact .inl (by decide) | exact .inr (by (repeat' apply And.intro) <;> rfl))]))

theorem State.makeDecision_only (s) : Only [.out, .clk, .stats, .seq, .tel, .tables, .pen, .conns, .events] s (State.makeDecision s) := by
  unfold State.makeDecision
  repeat' first
    | with_reducible exact Only.refl _
    | decide
    | with_reducible apply Only.of (State.messages_only _ _ _ _)
    | with_reducible apply Only.of (State.acceptDecision_only _ _)

theorem State.holdTick_only (s) : Only [.clk, .slips, .stats, .reports, .seq, .queues, .tel, .events] s (State.holdTick s) := by
  refine Only.of (State.raise_only _ _ _ _ _ _) rfl (Only.lit (Only.refl _) ?_)
  intro p; cases p <;> first | exact .inl (by decide) | exact .inr (by (repeat' apply And.intro) <;> rfl)

theorem State.settlePeriod_only (s x0) : Only [.active, .pend, .seq, .tel, .events] s (State.settlePeriod s x0) := by
  unfold State.settlePeriod
  repeat' first
    | with_reducible exact Only.refl _
    | decide
    | (with_reducible apply Only.ite) <;> intro _
    | with_reducible apply Only.of (State.raise_only _ _ _ _ _ _)
    | (fail_if_no_progress ((with_reducible refine Only.lit ?_ ?_) <;> [skip; (intro p; cases p <;> first | exact .inl (by decide) | exact .inr (by (repeat' apply And.intro) <;> rfl))]))
    | split

theorem State.obeyDecision_only (s x0) : Only [.out, .active, .pend, .clk, .job, .halt, .step, .slips, .phases, .stats, .intake, .tail, .replay, .reports, .seq, .ports, .queues, .tel, .mem, .tables, .emb, .hist, .attn, .watch, .pen, .conns, .msgs, .events, .ledger, .exp, .rel] s (State.obeyDecision s x0) := by
  unfold State.obeyDecision
  repeat' first
    | with_reducible exact Only.refl _
    | decide
    | (with_reducible apply Only.ite) <;> intro _
    | with_reducible apply Only.of (State.settlePeriod_only _ _)
    | with_reducible apply Only.of (State.holdTick_only _)
    | with_reducible apply Only.of (State.startStep_only _)
    | (fail_if_no_progress ((with_reducible refine Only.lit ?_ ?_) <;> [skip; (intro p; cases p <;> first | exact .inl (by decide) | exact .inr (by (repeat' apply And.intro) <;> rfl))]))

theorem State.jobTick_only (s) : Only [.out, .active, .pend, .clk, .job, .halt, .step, .slips, .phases, .stats, .intake, .tail, .replay, .reports, .seq, .ports, .queues, .tel, .mem, .tables, .emb, .hist, .attn, .watch, .pen, .conns, .msgs, .events, .ledger, .exp, .rel] s (State.jobTick s) := by
  unfold State.jobTick
  repeat' first
    | with_reducible exact Only.refl _
    | decide
    | (with_reducible apply Only.ite) <;> intro _
    | with_reducible apply Only.of (State.raise_only _ _ _ _ _ _)
    | with_reducible apply Only.of (State.haltNow_only _)
    | with_reducible apply Only.of (State.noDecision_only _)
    | with_reducible apply Only.of (State.makeDecision_only _)
    | with_reducible apply Only.of (State.checkIntake_only _)
    | with_reducible apply Only.of (State.obeyDecision_only _ _)
    | split

theorem State.tick_only (s) : Only [.out, .active, .pend, .setup, .clk, .job, .halt, .step, .slips, .phases, .stats, .intake, .tail, .replay, .reports, .void, .seq, .plan, .ports, .queues, .tel, .hbm, .tiles, .channels, .mem, .tables, .emb, .acc, .churns, .hist, .attn, .watch, .pen, .conns, .msgs, .events, .ledger, .exp, .rel, .sec, .pwr] s (State.tick s) := by
  unfold State.tick
  repeat' first
    | with_reducible exact Only.refl _
    | decide
    | (with_reducible apply Only.ite) <;> intro _
    | with_reducible apply Only.of (State.applyPoint_only _ _)
    | with_reducible apply Only.of (State.setStepClock_only _)
    | with_reducible apply Only.of (State.countTick_only _)
    | with_reducible apply Only.of (State.startJob_only _)
    | with_reducible apply Only.of (State.restorePromise_only _)
    | with_reducible apply Only.of (State.jobTick_only _)
    | with_reducible apply Only.of (State.tickPulse_only _)

theorem State.localTick_only (s x0 x1) : Only [.out, .active, .pend, .setup, .time, .clk, .job, .halt, .step, .slips, .phases, .stats, .intake, .tail, .replay, .reports, .void, .seq, .plan, .ports, .queues, .tel, .hbm, .tiles, .channels, .mem, .tables, .emb, .acc, .churns, .hist, .attn, .watch, .pen, .conns, .msgs, .events, .ledger, .exp, .rel, .sec, .pwr] s (State.localTick s x0 x1) := by
  unfold State.localTick
  repeat' first
    | with_reducible exact Only.refl _
    | decide
    | (with_reducible apply Only.ite) <;> intro _
    | with_reducible apply Only.of (State.measured_only _ _)
    | with_reducible apply Only.of (State.tick_only _)
    | with_reducible apply Only.of (State.timed_only _ _)

theorem State.enterHoldover_only (s) : Only [.clk, .stats, .tel, .events] s (State.enterHoldover s) := by
  unfold State.enterHoldover
  repeat' first
    | with_reducible exact Only.refl _
    | decide
    | (with_reducible apply Only.ite) <;> intro _
    | with_reducible apply Only.of (State.raise_only _ _ _ _ _ _)
    | (fail_if_no_progress ((with_reducible refine Only.lit ?_ ?_) <;> [skip; (intro p; cases p <;> first | exact .inl (by decide) | exact .inr (by (repeat' apply And.intro) <;> rfl))]))

theorem State.tickEdge_only (s x0 x1) : Only [.out, .active, .pend, .setup, .time, .clk, .job, .halt, .step, .slips, .phases, .stats, .intake, .tail, .replay, .reports, .void, .seq, .plan, .ports, .queues, .tel, .hbm, .tiles, .channels, .mem, .tables, .emb, .acc, .churns, .hist, .attn, .watch, .pen, .conns, .msgs, .events, .ledger, .exp, .rel, .sec, .pwr] s (State.tickEdge s x0 x1) := by
  unfold State.tickEdge
  repeat' first
    | with_reducible exact Only.refl _
    | decide
    | (with_reducible apply Only.ite) <;> intro _
    | with_reducible apply Only.of (State.raise_only _ _ _ _ _ _)
    | with_reducible apply Only.of (State.measured_only _ _)
    | with_reducible apply Only.of (State.tick_only _)
    | with_reducible apply Only.of (State.timed_only _ _)
    | (fail_if_no_progress ((with_reducible refine Only.lit ?_ ?_) <;> [skip; (intro p; cases p <;> first | exact .inl (by decide) | exact .inr (by (repeat' apply And.intro) <;> rfl))]))

theorem State.loseTick_only (s) : Only [.clk, .tel, .events] s (State.loseTick s) := by
  unfold State.loseTick
  repeat' first
    | with_reducible exact Only.refl _
    | decide
    | (with_reducible apply Only.ite) <;> intro _
    | with_reducible apply Only.of (State.raise_only _ _ _ _ _ _)
    | (fail_if_no_progress ((with_reducible refine Only.lit ?_ ?_) <;> [skip; (intro p; cases p <;> first | exact .inl (by decide) | exact .inr (by (repeat' apply And.intro) <;> rfl))]))

theorem State.decisionPoint_only (s) : Only [.out, .clk, .stats, .reports, .seq, .tel, .tables, .pen, .conns, .events] s (State.decisionPoint s) := by
  unfold State.decisionPoint
  repeat' first
    | with_reducible exact Only.refl _
    | decide
    | (with_reducible apply Only.ite) <;> intro _
    | with_reducible apply Only.of (State.makeDecision_only _)
    | with_reducible apply Only.of (State.checkIntake_only _)

/-! ## Power -/

theorem State.powerEvent_only (s x0 x1) : Only [.out, .tel, .events, .powerEvents] s (State.powerEvent s x0 x1) := by
  unfold State.powerEvent
  repeat' first
    | with_reducible exact Only.refl _
    | decide
    | (with_reducible apply Only.ite) <;> intro _
    | with_reducible apply Only.of (State.raise_only _ _ _ _ _ _)
    | with_reducible apply Only.of (State.emit_only _ _)
    | (fail_if_no_progress ((with_reducible refine Only.lit ?_ ?_) <;> [skip; (intro p; cases p <;> first | exact .inl (by decide) | exact .inr (by (repeat' apply And.intro) <;> rfl))]))

theorem State.powerWait_only (s) : Only [.out, .tel, .events, .powerEvents, .pwr] s (State.powerWait s) := by
  unfold State.powerWait
  repeat' first
    | with_reducible exact Only.refl _
    | decide
    | (with_reducible apply Only.ite) <;> intro _
    | with_reducible apply Only.of (State.powerEvent_only _ _ _)
    | (fail_if_no_progress ((with_reducible refine Only.lit ?_ ?_) <;> [skip; (intro p; cases p <;> first | exact .inl (by decide) | exact .inr (by (repeat' apply And.intro) <;> rfl))]))

theorem State.coolSpec_only (s x0 x1 x2) : Only [.out, .stats, .void, .tel, .channels, .events, .powerEvents, .pwr] s (State.coolSpec s x0 x1 x2) := by
  unfold State.coolSpec
  repeat' first
    | with_reducible exact Only.refl _
    | decide
    | (with_reducible apply Only.ite) <;> intro _
    | with_reducible apply Only.of (State.stackCrit_only _ _ _)
    | with_reducible apply Only.of (State.powerEvent_only _ _ _)
    | with_reducible apply Only.of (State.powerWait_only _)
    | (fail_if_no_progress ((with_reducible refine Only.lit ?_ ?_) <;> [skip; (intro p; cases p <;> first | exact .inl (by decide) | exact .inr (by (repeat' apply And.intro) <;> rfl))]))

theorem State.enterStopping_only (s) : Only [.pwr] s (State.enterStopping s) := by
  unfold State.enterStopping
  repeat' first
    | with_reducible exact Only.refl _
    | (with_reducible apply Only.ite) <;> intro _
    | (fail_if_no_progress ((with_reducible refine Only.lit ?_ ?_) <;> [skip; (intro p; cases p <;> first | exact .inl (by decide) | exact .inr (by (repeat' apply And.intro) <;> rfl))]))

theorem State.leaveLockout_only (s) : Only [.pwr] s (State.leaveLockout s) := by
  refine Only.lit (Only.refl _) ?_
  intro p; cases p <;> first | exact .inl (by decide) | exact .inr (by (repeat' apply And.intro) <;> rfl)

theorem State.rearm_only (s) : Only [.pwr] s (State.rearm s) := by
  unfold State.rearm
  repeat' first
    | with_reducible exact Only.refl _
    | decide
    | (with_reducible apply Only.ite) <;> intro _
    | with_reducible apply Only.of (State.leaveLockout_only _)
    | (fail_if_no_progress ((with_reducible refine Only.lit ?_ ?_) <;> [skip; (intro p; cases p <;> first | exact .inl (by decide) | exact .inr (by (repeat' apply And.intro) <;> rfl))]))

theorem State.powerCycle_only (s) : Only [.out, .tel, .events, .powerEvents, .pwr] s (State.powerCycle s) := by
  unfold State.powerCycle
  repeat' first
    | with_reducible exact Only.refl _
    | decide
    | with_reducible apply Only.of (State.powerWait_only _)
    | with_reducible apply Only.of (State.enterStopping_only _)
    | with_reducible apply Only.of (State.rearm_only _)
    | (fail_if_no_progress ((with_reducible refine Only.lit ?_ ?_) <;> [skip; (intro p; cases p <;> first | exact .inl (by decide) | exact .inr (by (repeat' apply And.intro) <;> rfl))]))
    | split

theorem State.hotHours_only (s x0) : Only [.out, .tel, .events, .powerEvents, .pwr] s (State.hotHours s x0) := by
  unfold State.hotHours
  repeat' first
    | with_reducible exact Only.refl _
    | decide
    | (with_reducible apply Only.ite) <;> intro _
    | with_reducible apply Only.of (State.powerEvent_only _ _ _)
    | (fail_if_no_progress ((with_reducible refine Only.lit ?_ ?_) <;> [skip; (intro p; cases p <;> first | exact .inl (by decide) | exact .inr (by (repeat' apply And.intro) <;> rfl))]))

theorem State.pwrEnRise_only (s) : Only [.out, .tel, .events, .powerEvents, .pwr] s (State.pwrEnRise s) := by
  unfold State.pwrEnRise
  repeat' first
    | with_reducible exact Only.refl _
    | decide
    | (with_reducible apply Only.ite) <;> intro _
    | with_reducible apply Only.of (State.powerWait_only _)
    | with_reducible apply Only.of (State.rearm_only _)
    | (fail_if_no_progress ((with_reducible refine Only.lit ?_ ?_) <;> [skip; (intro p; cases p <;> first | exact .inl (by decide) | exact .inr (by (repeat' apply And.intro) <;> rfl))]))
    | split

theorem State.clampActs_only (s) : Only [.tel, .events, .pwr] s (State.clampActs s) := by
  refine Only.of (State.raiseOnce_only _ _ _ _ _ _ _) rfl (Only.lit (Only.refl _) ?_)
  intro p; cases p <;> first | exact .inl (by decide) | exact .inr (by (repeat' apply And.intro) <;> rfl)

theorem State.clampStep_only (s) : Only [.stats, .tel, .events, .pwr] s (State.clampStep s) := by
  refine Only.of (State.clampActs_only _) rfl (Only.lit (Only.refl _) ?_)
  intro p; cases p <;> first | exact .inl (by decide) | exact .inr (by (repeat' apply And.intro) <;> rfl)

theorem State.saddleLost_only (s) : Only [.active, .pend, .setup, .win, .boot, .time, .clk, .job, .halt, .step, .slips, .phases, .stats, .intake, .tail, .replay, .reports, .void, .seq, .plan, .ports, .groups, .queues, .tel, .hbm, .tiles, .channels, .mem, .tables, .emb, .acc, .churns, .hist, .attn, .lines, .watch, .pen, .herd, .conns, .msgs, .events, .ledger, .life, .exp, .rel, .jtag, .sec, .powerEvents, .pwr] s (State.saddleLost s) :=
  Only.lit (Only.refl s) (by intro p; cases p <;> first | exact .inl (by decide) | exact .inr (by (repeat' apply And.intro) <;> rfl))

theorem State.railsOff_only (s x0 x1) : Only [.out, .active, .pend, .setup, .win, .boot, .time, .clk, .job, .halt, .step, .slips, .phases, .stats, .intake, .tail, .replay, .reports, .void, .seq, .plan, .ports, .groups, .queues, .tel, .hbm, .tiles, .channels, .mem, .tables, .emb, .acc, .churns, .hist, .attn, .lines, .watch, .pen, .herd, .conns, .msgs, .events, .ledger, .life, .exp, .rel, .jtag, .sec, .powerEvents, .pwr] s (State.railsOff s x0 x1) := by
  unfold State.railsOff
  repeat' first
    | with_reducible exact Only.refl _
    | decide
    | (with_reducible apply Only.ite) <;> intro _
    | with_reducible apply Only.of (State.powerWait_only _)
    | with_reducible apply Only.of (State.hotHours_only _ _)
    | with_reducible apply Only.of (State.saddleLost_only _)
    | (fail_if_no_progress ((with_reducible refine Only.lit ?_ ?_) <;> [skip; (intro p; cases p <;> first | exact .inl (by decide) | exact .inr (by (repeat' apply And.intro) <;> rfl))]))

theorem State.powering_only (s) : Only [.pwr] s (State.powering s) := by
  unfold State.powering
  repeat' first
    | with_reducible exact Only.refl _
    | (with_reducible apply Only.ite) <;> intro _
    | (fail_if_no_progress ((with_reducible refine Only.lit ?_ ?_) <;> [skip; (intro p; cases p <;> first | exact .inl (by decide) | exact .inr (by (repeat' apply And.intro) <;> rfl))]))

theorem State.lockOut_only (s x0) : Only [.out, .active, .pend, .setup, .win, .boot, .time, .clk, .job, .halt, .step, .slips, .phases, .stats, .intake, .tail, .replay, .reports, .void, .seq, .plan, .ports, .groups, .queues, .tel, .hbm, .tiles, .channels, .mem, .tables, .emb, .acc, .churns, .hist, .attn, .lines, .watch, .pen, .herd, .conns, .msgs, .events, .ledger, .life, .exp, .rel, .jtag, .sec, .powerEvents, .pwr] s (State.lockOut s x0) := by
  unfold State.lockOut
  repeat' first
    | with_reducible exact Only.refl _
    | decide
    | (with_reducible apply Only.ite) <;> intro _
    | with_reducible apply Only.of (State.powerEvent_only _ _ _)
    | with_reducible apply Only.of (State.saddleLost_only _)
    | (fail_if_no_progress ((with_reducible refine Only.lit ?_ ?_) <;> [skip; (intro p; cases p <;> first | exact .inl (by decide) | exact .inr (by (repeat' apply And.intro) <;> rfl))]))

theorem State.vinOut_only (s x0 x1) : Only [.out, .stats, .void, .tel, .events, .powerEvents, .pwr] s (State.vinOut s x0 x1) := by
  unfold State.vinOut
  repeat' first
    | with_reducible exact Only.refl _
    | decide
    | (with_reducible apply Only.ite) <;> intro _
    | with_reducible apply Only.of (State.voidPromise_only _ _)
    | with_reducible apply Only.of (State.powerEvent_only _ _ _)
    | with_reducible apply Only.of (State.powerWait_only _)
    | (fail_if_no_progress ((with_reducible refine Only.lit ?_ ?_) <;> [skip; (intro p; cases p <;> first | exact .inl (by decide) | exact .inr (by (repeat' apply And.intro) <;> rfl))]))

/-! ## Reliability -/

theorem State.sendVerdict_only (s x0 x1 x2) : Only [.out, .stats, .pen, .conns] s (State.sendVerdict s x0 x1 x2) := by
  unfold State.sendVerdict
  repeat' first
    | with_reducible exact Only.refl _
    | decide
    | (with_reducible apply Only.ite) <;> intro _
    | with_reducible apply Only.of (State.transmit_only _ _ _)
    | with_reducible apply Only.of (State.message_only _ _ _ _)

theorem State.flagWitness_only (s x0) : Only [.stats, .seq] s (State.flagWitness s x0) := by
  refine Only.lit (Only.refl _) ?_
  intro p; cases p <;> first | exact .inl (by decide) | exact .inr (by (repeat' apply And.intro) <;> rfl)

theorem State.resend_only (s x0 x1 x2) : Only [.out, .halt, .phases, .stats, .replay, .reports, .tel, .emb, .acc, .hist, .attn, .watch, .pen, .conns, .msgs, .events, .ledger, .rel] s (State.resend s x0 x1 x2) := by
  unfold State.resend
  repeat' first
    | with_reducible exact Only.refl _
    | decide
    | (with_reducible apply Only.ite) <;> intro _
    | with_reducible apply Only.of (State.countedFault_only _ _)
    | with_reducible apply Only.of (State.beginReplay_only _)
    | (fail_if_no_progress ((with_reducible refine Only.lit ?_ ?_) <;> [skip; (intro p; cases p <;> first | exact .inl (by decide) | exact .inr (by (repeat' apply And.intro) <;> rfl))]))

theorem State.witnessReq_only (s x0 x1) : Only [.out, .stats, .seq, .pen, .conns, .rel] s (State.witnessReq s x0 x1) := by
  unfold State.witnessReq
  repeat' first
    | with_reducible exact Only.refl _
    | decide
    | (with_reducible apply Only.ite) <;> intro _
    | with_reducible apply Only.of (State.sendVerdict_only _ _ _ _)
    | with_reducible apply Only.of (State.flagWitness_only _ _)
    | (fail_if_no_progress ((with_reducible refine Only.lit ?_ ?_) <;> [skip; (intro p; cases p <;> first | exact .inl (by decide) | exact .inr (by (repeat' apply And.intro) <;> rfl))]))

theorem State.takeWitness_only (s x0) : Only [.tiles, .emb, .msgs] s (State.takeWitness s x0) := by
  unfold State.takeWitness
  repeat' first
    | with_reducible exact Only.refl _
    | decide
    | with_reducible apply Only.of (State.tileWrite_only _ _ _ _)
    | with_reducible refine Only.thenFold ?_ (fun t x => ?_)
    | (fail_if_no_progress ((with_reducible refine Only.lit ?_ ?_) <;> [skip; (intro p; cases p <;> first | exact .inl (by decide) | exact .inr (by (repeat' apply And.intro) <;> rfl))]))

theorem State.sendOutstanding_only (s x0) : Only [.out, .stats, .pen, .conns, .msgs] s (State.sendOutstanding s x0) := by
  refine Only.of (State.transmit_only _ _ _) rfl (Only.lit (Only.refl _) ?_)
  intro p; cases p <;> first | exact .inl (by decide) | exact .inr (by (repeat' apply And.intro) <;> rfl)

theorem State.witnessOk_only (s x0) : Only [.out, .phases, .stats, .replay, .tel, .tiles, .emb, .watch, .pen, .conns, .msgs, .events] s (State.witnessOk s x0) := by
  unfold State.witnessOk
  repeat' first
    | with_reducible exact Only.refl _
    | decide
    | with_reducible apply Only.of (State.raise_only _ _ _ _ _ _)
    | with_reducible apply Only.of (State.dropCounts_only _)
    | with_reducible apply Only.of (State.dropEpoch_only _)
    | with_reducible apply Only.of (State.takeWitness_only _ _)
    | with_reducible apply Only.of (State.sendOutstanding_only _ _)
    | with_reducible refine Only.thenFold ?_ (fun t x => ?_)
    | (fail_if_no_progress ((with_reducible refine Only.lit ?_ ?_) <;> [skip; (intro p; cases p <;> first | exact .inl (by decide) | exact .inr (by (repeat' apply And.intro) <;> rfl))]))

theorem State.witnessWork_only (s x0 x1) : Only [.out, .stats, .tel, .pen, .conns, .events, .ledger, .rel] s (State.witnessWork s x0 x1) := by
  unfold State.witnessWork
  repeat' first
    | with_reducible exact Only.refl _
    | decide
    | (with_reducible apply Only.ite) <;> intro _
    | with_reducible apply Only.of (State.raise_only _ _ _ _ _ _)
    | with_reducible apply Only.of (State.countedFault_only _ _)
    | with_reducible apply Only.of (State.sendVerdict_only _ _ _ _)
    | with_reducible refine Only.thenFold ?_ (fun t x => ?_)
    | (fail_if_no_progress ((with_reducible refine Only.lit ?_ ?_) <;> [skip; (intro p; cases p <;> first | exact .inl (by decide) | exact .inr (by (repeat' apply And.intro) <;> rfl))]))
    | split

theorem State.witnessResult_only (s x0 x1) : Only [.out, .halt, .phases, .stats, .replay, .tel, .tiles, .emb, .watch, .pen, .conns, .msgs, .events] s (State.witnessResult s x0 x1) := by
  unfold State.witnessResult
  repeat' first
    | with_reducible exact Only.refl _
    | decide
    | (with_reducible apply Only.ite) <;> intro _
    | with_reducible apply Only.of (State.raiseHalt_only _ _ _ _ _)
    | with_reducible apply Only.of (State.witnessRefused_only _)
    | with_reducible apply Only.of (State.witnessOk_only _ _)
    | (fail_if_no_progress ((with_reducible refine Only.lit ?_ ?_) <;> [skip; (intro p; cases p <;> first | exact .inl (by decide) | exact .inr (by (repeat' apply And.intro) <;> rfl))]))

/-! ## Security -/

theorem State.endSec_only (s x0) : Only [.sec] s (State.endSec s x0) := by
  refine Only.lit (Only.refl _) ?_
  intro p; cases p <;> first | exact .inl (by decide) | exact .inr (by (repeat' apply And.intro) <;> rfl)

theorem State.secWrite_only (s x0) : Only [.out, .ports] s (State.secWrite s x0) :=
  State.toHost_only _ _ _

theorem State.newKem_only (s) : Only [.sec] s (State.newKem s) := by
  unfold State.newKem
  repeat' first
    | with_reducible exact Only.refl _
    | decide
    | with_reducible apply Only.of (State.random_only _)
    | (fail_if_no_progress ((with_reducible refine Only.lit ?_ ?_) <;> [skip; (intro p; cases p <;> first | exact .inl (by decide) | exact .inr (by (repeat' apply And.intro) <;> rfl))]))

theorem State.report_only (s x0) : Only [.out, .ports, .sec] s (State.report s x0) := by
  unfold State.report
  repeat' first
    | with_reducible exact Only.refl _
    | decide
    | (with_reducible apply Only.ite) <;> intro _
    | with_reducible apply Only.of (State.endSec_only _ _)
    | with_reducible apply Only.of (State.secWrite_only _ _)
    | with_reducible apply Only.of (State.newKem_only _)
    | (fail_if_no_progress ((with_reducible refine Only.lit ?_ ?_) <;> [skip; (intro p; cases p <;> first | exact .inl (by decide) | exact .inr (by (repeat' apply And.intro) <;> rfl))]))

theorem State.refuseSec_only (s x0) : Only [.setup, .tel, .events, .sec] s (State.refuseSec s x0) := by
  unfold State.refuseSec
  repeat' first
    | with_reducible exact Only.refl _
    | decide
    | (with_reducible apply Only.ite) <;> intro _
    | with_reducible apply Only.of (State.raise_only _ _ _ _ _ _)
    | with_reducible apply Only.of (State.log_only _ _ _ _)
    | with_reducible apply Only.of (State.endSec_only _ _)

theorem State.secRun_only {m : List Part} (s x0 x1 x2 f) (k : [Part.setup, .tel, .events, .sec].all m.contains = true)
    (h : ∀ t, Only m t (f t)) : Only m s (State.secRun s x0 x1 x2 f) := by
  unfold State.secRun
  split
  · exact (State.refuseSec_only _ _).mono k
  · exact (Only.mono (m := [.sec]) (Only.lit (Only.refl s) (by (intro p; cases p <;> first | exact .inl (by decide) | exact .inr (by (repeat' apply And.intro) <;> rfl)))) (Part.sub_trans (by decide) k)).trans (h _)

theorem State.enterConfidential_only (s x0) : Only [.active, .pend, .setup, .plan, .queues, .tel, .mem, .tables, .events, .exp, .jtag, .sec] s (State.enterConfidential s x0) := by
  unfold State.enterConfidential
  extract_lets _ _ s1 s2
  have h1 : Only [.active, .pend, .setup, .plan, .queues, .tel, .mem, .tables, .events, .exp, .jtag, .sec] s s1 := Only.lit (Only.refl s) (by (intro p; cases p <;> first | exact .inl (by decide) | exact .inr (by (repeat' apply And.intro) <;> rfl)))
  clear_value s1
  have h2 : Only [.active, .pend, .setup, .plan, .queues, .tel, .mem, .tables, .events, .exp, .jtag, .sec] s s2 := Only.of (State.discardTables_only _) (by decide) (Only.of (State.dropPlan_only _) (by decide) h1)
  clear_value s2
  exact Only.of (State.raise_only _ _ _ _ _ _) (by decide) (Only.lit h2 (by (intro p; cases p <;> first | exact .inl (by decide) | exact .inr (by (repeat' apply And.intro) <;> rfl))))

theorem State.keyFailed_only (s) : Only [.sec] s (State.keyFailed s) := by
  refine Only.lit (Only.refl _) ?_
  intro p; cases p <;> first | exact .inl (by decide) | exact .inr (by (repeat' apply And.intro) <;> rfl)

theorem State.keyLoad_only (s x0) : Only [.out, .active, .pend, .setup, .plan, .queues, .tel, .mem, .tables, .events, .exp, .jtag, .sec] s (State.keyLoad s x0) := by
  unfold State.keyLoad
  repeat' first
    | with_reducible exact Only.refl _
    | decide
    | with_reducible apply Only.of (State.raise_only _ _ _ _ _ _)
    | with_reducible apply Only.of (State.emit_only _ _)
    | with_reducible apply Only.of (State.endSec_only _ _)
    | with_reducible apply Only.of (State.enterConfidential_only _ _)
    | with_reducible apply Only.of (State.keyFailed_only _)
    | extract_lets +onlyGivenNames x
    | split

theorem State.exitConfidential_only (s) : Only [.setup, .tel, .events, .sec] s (State.exitConfidential s) := by
  unfold State.exitConfidential
  repeat' first
    | with_reducible exact Only.refl _
    | decide
    | (with_reducible apply Only.ite) <;> intro _
    | with_reducible apply Only.of (State.raise_only _ _ _ _ _ _)
    | with_reducible apply Only.of (State.endSec_only _ _)
    | with_reducible apply Only.of (State.startOp_only _ _)
    | (fail_if_no_progress ((with_reducible refine Only.lit ?_ ?_) <;> [skip; (intro p; cases p <;> first | exact .inl (by decide) | exact .inr (by (repeat' apply And.intro) <;> rfl))]))

theorem State.certs_only (s) : Only [.out, .ports, .sec] s (State.certs s) := by
  unfold State.certs
  repeat' first
    | with_reducible exact Only.refl _
    | decide
    | with_reducible apply Only.of (State.endSec_only _ _)
    | with_reducible apply Only.of (State.secWrite_only _ _)

theorem State.writeSecCmd_only (s x0 x1) : Only [.out, .active, .pend, .setup, .plan, .ports, .queues, .tel, .mem, .tables, .events, .exp, .jtag, .sec] s (State.writeSecCmd s x0 x1) := by
  unfold State.writeSecCmd
  split
  · exact State.secRun_only _ _ _ _ _ (by decide) fun _ => (State.certs_only _).mono (by decide)
  · exact State.secRun_only _ _ _ _ _ (by decide) fun _ => (State.report_only _ _).mono (by decide)
  · exact State.secRun_only _ _ _ _ _ (by decide) fun _ => (State.keyLoad_only _ _).mono (by decide)
  · exact State.secRun_only _ _ _ _ _ (by decide) fun _ => (State.exitConfidential_only _).mono (by decide)
  · exact (State.outOfRange_only _ _).mono (by decide)

theorem State.secureErase_only (s) : Only [.setup, .plan, .queues, .tel, .hbm, .tiles, .channels, .mem, .tables, .acc, .events, .exp, .sec] s (State.secureErase s) := by
  unfold State.secureErase
  repeat' first
    | with_reducible exact Only.refl _
    | decide
    | with_reducible apply Only.of (State.discardTables_only _)
    | with_reducible apply Only.of (State.dropPlan_only _)
    | (fail_if_no_progress ((with_reducible refine Only.lit ?_ ?_) <;> [skip; (intro p; cases p <;> first | exact .inl (by decide) | exact .inr (by (repeat' apply And.intro) <;> rfl))]))

theorem State.clearCounters_only (s) : Only [.channels, .watch, .pen, .herd, .events, .rel] s (State.clearCounters s) := by
  refine Only.lit (Only.refl _) ?_
  intro p; cases p <;> first | exact .inl (by decide) | exact .inr (by (repeat' apply And.intro) <;> rfl)

theorem State.exitDone_only (s) : Only [.setup, .plan, .queues, .tel, .hbm, .tiles, .channels, .mem, .tables, .acc, .watch, .pen, .herd, .events, .exp, .rel, .sec] s (State.exitDone s) := by
  unfold State.exitDone
  extract_lets s1 _ _ s2
  have h1 : Only [.setup, .plan, .queues, .tel, .hbm, .tiles, .channels, .mem, .tables, .acc, .watch, .pen, .herd, .events, .exp, .rel, .sec] s s1 := (State.secureErase_only s).mono (by decide)
  clear_value s1
  have h2 : Only [.setup, .plan, .queues, .tel, .hbm, .tiles, .channels, .mem, .tables, .acc, .watch, .pen, .herd, .events, .exp, .rel, .sec] s s2 := Only.lit h1 (by (intro p; cases p <;> first | exact .inl (by decide) | exact .inr (by (repeat' apply And.intro) <;> rfl)))
  clear_value s2
  exact Only.of (State.endOp_only _ _) (by decide) (Only.of (State.endSec_only _ _) (by decide) (Only.of (State.raise_only _ _ _ _ _ _) (by decide)
    (Only.of (State.clearCounters_only _) (by decide) h2)))

theorem State.setJtag_only (s x0) : Only [.jtag] s (State.setJtag s x0) := by
  refine Only.lit (Only.refl _) ?_
  intro p; cases p <;> first | exact .inl (by decide) | exact .inr (by (repeat' apply And.intro) <;> rfl)

theorem State.eraseEnd_only (s) : Only [.setup, .plan, .queues, .tel, .hbm, .tiles, .channels, .mem, .tables, .acc, .watch, .pen, .herd, .events, .exp, .rel, .sec] s (State.eraseEnd s) := by
  unfold State.eraseEnd
  repeat' first
    | with_reducible exact Only.refl _
    | decide
    | (with_reducible apply Only.ite) <;> intro _
    | with_reducible apply Only.of (State.endOp_only _ _)
    | with_reducible apply Only.of (State.secureErase_only _)
    | with_reducible apply Only.of (State.exitDone_only _)
    | with_reducible apply Only.of (State.endCmd_only _ _)

theorem State.secCommand_only (s x0 x1 x2) : Only [.out, .active, .pend, .setup, .plan, .ports, .queues, .tel, .mem, .tables, .events, .exp, .jtag, .sec] s (State.secCommand s x0 x1 x2) :=
  State.windowWrite_only _ _ _ _ _ _ _ (by decide) (fun _ => Only.refl _) (fun _ => (State.writeSecCmd_only _ _ _).mono (by decide))

/-! ## Setup -/

theorem State.trainChannel_only (s x0 x1) : Only [.halt, .tel, .channels, .events, .ledger] s (State.trainChannel s x0 x1) := by
  unfold State.trainChannel
  repeat' first
    | with_reducible exact Only.refl _
    | decide
    | (with_reducible apply Only.ite) <;> intro _
    | with_reducible apply Only.of (State.channelTrained_only _ _ _)
    | with_reducible apply Only.of (State.spareLanes_only _ _ _)
    | with_reducible apply Only.of (State.channelDown_only _ _)

theorem State.placeTables_only (s x0) : Only [.setup, .queues, .tel, .mem, .tables, .events] s (State.placeTables s x0) := by
  unfold State.placeTables
  repeat' first
    | with_reducible exact Only.refl _
    | decide
    | (with_reducible apply Only.ite) <;> intro _
    | with_reducible apply Only.of (State.discardTables_only _)
    | (fail_if_no_progress ((with_reducible refine Only.lit ?_ ?_) <;> [skip; (intro p; cases p <;> first | exact .inl (by decide) | exact .inr (by (repeat' apply And.intro) <;> rfl))]))

theorem State.installPlan_only (s x0) : Only [.active, .pend, .setup, .plan, .queues, .tel, .mem, .tables, .events, .exp, .sec] s (State.installPlan s x0) := by
  unfold State.installPlan
  repeat' first
    | with_reducible exact Only.refl _
    | decide
    | (with_reducible apply Only.ite) <;> intro _
    | with_reducible apply Only.of (State.breakExport_only _)
    | with_reducible apply Only.of (State.placeTables_only _ _)
    | (fail_if_no_progress ((with_reducible refine Only.lit ?_ ?_) <;> [skip; (intro p; cases p <;> first | exact .inl (by decide) | exact .inr (by (repeat' apply And.intro) <;> rfl))]))

theorem State.resetTables_only (s) : Only [.setup, .ports, .groups, .queues, .tel, .mem, .tables, .events] s (State.resetTables s) := by
  unfold State.resetTables
  repeat' first
    | with_reducible exact Only.refl _
    | decide
    | with_reducible apply Only.of (State.settleVersions_only _)
    | (fail_if_no_progress ((with_reducible refine Only.lit ?_ ?_) <;> [skip; (intro p; cases p <;> first | exact .inl (by decide) | exact .inr (by (repeat' apply And.intro) <;> rfl))]))

theorem State.moduleReset_only (s) : Only [.active, .pend, .setup, .win, .boot, .time, .clk, .job, .halt, .step, .slips, .phases, .stats, .intake, .tail, .replay, .reports, .void, .seq, .plan, .ports, .groups, .queues, .tel, .hbm, .tiles, .channels, .mem, .tables, .emb, .acc, .churns, .hist, .attn, .lines, .watch, .pen, .herd, .conns, .msgs, .events, .ledger, .life, .exp, .rel, .jtag, .sec, .powerEvents, .pwr] s (State.moduleReset s) := by
  unfold State.moduleReset
  repeat' first
    | with_reducible exact Only.refl _
    | decide
    | with_reducible apply Only.of (State.resetTables_only _)
    | (fail_if_no_progress ((with_reducible refine Only.lit ?_ ?_) <;> [skip; (intro p; cases p <;> first | exact .inl (by decide) | exact .inr (by (repeat' apply And.intro) <;> rfl))]))

theorem State.refuseCmd_only (s x0 x1) : Only [.setup] s (State.refuseCmd s x0 x1) := by
  unfold State.refuseCmd
  repeat' first
    | with_reducible exact Only.refl _
    | decide
    | with_reducible apply Only.of (State.log_only _ _ _ _)
    | with_reducible apply Only.of (State.endCmd_only _ _)
    | (fail_if_no_progress ((with_reducible refine Only.lit ?_ ?_) <;> [skip; (intro p; cases p <;> first | exact .inl (by decide) | exact .inr (by (repeat' apply And.intro) <;> rfl))]))

theorem State.beginCmd_only (s x0) : Only [.setup] s (State.beginCmd s x0) := by
  refine Only.lit (Only.refl _) ?_
  intro p; cases p <;> first | exact .inl (by decide) | exact .inr (by (repeat' apply And.intro) <;> rfl)

theorem State.readImage_only (s) : Only [.out] s (State.readImage s) :=
  State.emit_only _ _

theorem State.cmdRecover_only (s x0) : Only [.out, .active, .pend, .setup, .win, .boot, .time, .clk, .job, .halt, .step, .slips, .phases, .stats, .intake, .tail, .replay, .reports, .void, .seq, .plan, .ports, .groups, .queues, .tel, .hbm, .tiles, .channels, .mem, .tables, .emb, .acc, .churns, .hist, .attn, .lines, .watch, .pen, .herd, .conns, .msgs, .events, .ledger, .life, .exp, .rel, .jtag, .sec, .powerEvents, .pwr] s (State.cmdRecover s x0) := by
  unfold State.cmdRecover
  repeat' first
    | with_reducible assumption
    | with_reducible exact Only.refl _
    | decide
    | with_reducible apply Only.of (State.raise_only _ _ _ _ _ _)
    | with_reducible apply Only.of (State.moduleReset_only _)
    | with_reducible apply Only.of (State.endCmd_only _ _)
    | with_reducible apply Only.of (State.refuseCmd_only _ _ _)
    | with_reducible apply Only.of (State.beginCmd_only _ _)
    | with_reducible apply Only.of (State.readImage_only _)
    | (fail_if_no_progress ((with_reducible refine Only.lit ?_ ?_) <;> [skip; (intro p; cases p <;> first | exact .inl (by decide) | exact .inr (by (repeat' apply And.intro) <;> rfl))]))
    | extract_lets +onlyGivenNames x
    | split

theorem State.readPlanHeader_only (s) : Only [.out] s (State.readPlanHeader s) :=
  (State.emit_only _ _).mono (by decide)

theorem State.cmdPlanLoad_only (s) : Only [.out, .setup, .tel, .events] s (State.cmdPlanLoad s) := by
  unfold State.cmdPlanLoad
  repeat' first
    | with_reducible exact Only.refl _
    | decide
    | (with_reducible apply Only.ite) <;> intro _
    | with_reducible apply Only.of (State.raise_only _ _ _ _ _ _)
    | with_reducible apply Only.of (State.refuseCmd_only _ _ _)
    | with_reducible apply Only.of (State.beginCmd_only _ _)
    | with_reducible apply Only.of (State.readPlanHeader_only _)
    | with_reducible apply Only.of (State.startOp_only _ _)

theorem State.cmdErase_only (s) : Only [.setup] s (State.cmdErase s) := by
  unfold State.cmdErase
  repeat' first
    | with_reducible exact Only.refl _
    | decide
    | (with_reducible apply Only.ite) <;> intro _
    | with_reducible apply Only.of (State.startOp_only _ _)
    | with_reducible apply Only.of (State.refuseCmd_only _ _ _)
    | with_reducible apply Only.of (State.beginCmd_only _ _)

theorem State.cmdModuleReset_only (s) : Only [.active, .pend, .setup, .win, .boot, .time, .clk, .job, .halt, .step, .slips, .phases, .stats, .intake, .tail, .replay, .reports, .void, .seq, .plan, .ports, .groups, .queues, .tel, .hbm, .tiles, .channels, .mem, .tables, .emb, .acc, .churns, .hist, .attn, .lines, .watch, .pen, .herd, .conns, .msgs, .events, .ledger, .life, .exp, .rel, .jtag, .sec, .powerEvents, .pwr] s (State.cmdModuleReset s) := by
  unfold State.cmdModuleReset
  repeat' first
    | with_reducible exact Only.refl _
    | decide
    | (with_reducible apply Only.ite) <;> intro _
    | with_reducible apply Only.of (State.moduleReset_only _)
    | with_reducible apply Only.of (State.refuseCmd_only _ _ _)

theorem State.cmdFwUpdate_only (s) : Only [.out, .setup, .plan, .queues, .tel, .events, .exp, .sec] s (State.cmdFwUpdate s) := by
  unfold State.cmdFwUpdate
  repeat' first
    | with_reducible exact Only.refl _
    | decide
    | (with_reducible apply Only.ite) <;> intro _
    | with_reducible apply Only.of (State.dropPlan_only _)
    | with_reducible apply Only.of (State.refuseCmd_only _ _ _)
    | with_reducible apply Only.of (State.beginCmd_only _ _)
    | with_reducible apply Only.of (State.readImage_only _)

theorem State.writeSetupCmd_only (s x0 x1) : Only [.out, .active, .pend, .setup, .win, .boot, .time, .clk, .job, .halt, .step, .slips, .phases, .stats, .intake, .tail, .replay, .reports, .void, .seq, .plan, .ports, .groups, .queues, .tel, .hbm, .tiles, .channels, .mem, .tables, .emb, .acc, .churns, .hist, .attn, .lines, .watch, .pen, .herd, .conns, .msgs, .events, .ledger, .life, .exp, .rel, .jtag, .sec, .powerEvents, .pwr] s (State.writeSetupCmd s x0 x1) := by
  unfold State.writeSetupCmd
  repeat' first
    | with_reducible exact Only.refl _
    | decide
    | with_reducible apply Only.of (State.outOfRange_only _ _)
    | with_reducible apply Only.of (State.cmdRecover_only _ _)
    | with_reducible apply Only.of (State.cmdPlanLoad_only _)
    | with_reducible apply Only.of (State.cmdErase_only _)
    | with_reducible apply Only.of (State.cmdModuleReset_only _)
    | with_reducible apply Only.of (State.cmdFwUpdate_only _)
    | extract_lets +onlyGivenNames x
    | split

theorem State.setupCommand_only (s x0 x1 x2) : Only [.out, .active, .pend, .setup, .win, .boot, .time, .clk, .job, .halt, .step, .slips, .phases, .stats, .intake, .tail, .replay, .reports, .void, .seq, .plan, .ports, .groups, .queues, .tel, .hbm, .tiles, .channels, .mem, .tables, .emb, .acc, .churns, .hist, .attn, .lines, .watch, .pen, .herd, .conns, .msgs, .events, .ledger, .life, .exp, .rel, .jtag, .sec, .powerEvents, .pwr] s (State.setupCommand s x0 x1 x2) :=
  State.windowWrite_only _ _ _ _ _ _ _ (by decide) (fun _ => Only.refl _) (fun _ => (State.writeSetupCmd_only _ _ _).mono (by decide))

theorem State.replayEntry_only (s x0) : Only [.stats, .tel, .hbm, .events] s (State.replayEntry s x0) := by
  unfold State.replayEntry
  repeat' first
    | with_reducible exact Only.refl _
    | decide
    | (with_reducible apply Only.ite) <;> intro _
    | with_reducible apply Only.of (State.raise_only _ _ _ _ _ _)
    | with_reducible apply Only.of (State.putUnit_only _ _ _ _)
    | split

theorem State.replayPort_only (s x0) : Only [.stats, .tel, .hbm, .channels, .events] s (State.replayPort s x0) := by
  unfold State.replayPort
  repeat' first
    | with_reducible exact Only.refl _
    | decide
    | (with_reducible apply Only.ite) <;> intro _
    | with_reducible apply Only.of (State.raise_only _ _ _ _ _ _)
    | with_reducible apply Only.of (State.replayEntry_only _ _)
    | with_reducible apply Only.of (State.setStack_only _ _ _)
    | with_reducible refine Only.thenFold ?_ (fun t x => ?_)

theorem State.writeReg_only (s x0 x1 x2) : Only [.out, .active, .pend, .setup, .win, .boot, .time, .clk, .job, .halt, .step, .slips, .phases, .stats, .intake, .tail, .replay, .reports, .void, .seq, .plan, .ports, .groups, .queues, .tel, .hbm, .tiles, .channels, .mem, .tables, .emb, .acc, .churns, .hist, .attn, .lines, .watch, .pen, .herd, .conns, .msgs, .events, .ledger, .life, .exp, .rel, .jtag, .sec, .powerEvents, .pwr] s (State.writeReg s x0 x1 x2) := by
  unfold State.writeReg
  repeat' first
    | with_reducible exact Only.refl _
    | decide
    | with_reducible apply Only.of (State.writeGroupCfg_only _ _)
    | with_reducible apply Only.of (State.writeAux_only _ _)
    | with_reducible apply Only.of (State.writeSetupCmd_only _ _ _)
    | with_reducible apply Only.of (State.writeSecCmd_only _ _ _)
    | with_reducible apply Only.of (State.writeTickCtrl_only _ _ _)
    | with_reducible apply Only.of (State.writeTickPeriod_only _ _)
    | with_reducible apply Only.of (State.writeBuffered_only _ _ _)
    | with_reducible apply Only.of (State.writeSeqCtrl_only _ _ _)
    | with_reducible apply Only.of (State.writeFabCtrl_only _ _)
    | with_reducible apply Only.of (State.writeQCmd_only _ _)
    | with_reducible apply Only.of (State.writeRegulator_only _ _ _ _)
    | with_reducible apply Only.of (State.writeUnlock_only _ _)
    | with_reducible apply Only.of (State.writeApply_only _ _)
    | with_reducible apply Only.of (State.writeMemCtrl_only _ _ _)
    | extract_lets +onlyGivenNames x
    | split

theorem State.writeAt_only (s x0 x1 x2) : Only [.out, .active, .pend, .setup, .win, .boot, .time, .clk, .job, .halt, .step, .slips, .phases, .stats, .intake, .tail, .replay, .reports, .void, .seq, .plan, .ports, .groups, .queues, .tel, .hbm, .tiles, .channels, .mem, .tables, .emb, .acc, .churns, .hist, .attn, .lines, .watch, .pen, .herd, .conns, .msgs, .events, .ledger, .life, .exp, .rel, .jtag, .sec, .powerEvents, .pwr] s (State.writeAt s x0 x1 x2) := by
  unfold State.writeAt
  repeat' first
    | with_reducible exact Only.refl _
    | decide
    | with_reducible apply Only.of (State.writeReg_only _ _ _ _)
    | extract_lets +onlyGivenNames x
    | split

theorem State.bootSvn_only (s x0 x1) : Only [.boot, .tel, .events, .sec] s (State.bootSvn s x0 x1) := by
  unfold State.bootSvn
  repeat' first
    | with_reducible exact Only.refl _
    | decide
    | (with_reducible apply Only.ite) <;> intro _
    | with_reducible apply Only.of (State.raise_only _ _ _ _ _ _)
    | (fail_if_no_progress ((with_reducible refine Only.lit ?_ ?_) <;> [skip; (intro p; cases p <;> first | exact .inl (by decide) | exact .inr (by (repeat' apply And.intro) <;> rfl))]))

theorem State.pushEvents_only (s : State) (l : List EventRec) :
    Only [.halt, .tel, .channels, .events, .ledger, .powerEvents] s (l.foldl (fun (st : State) e => { st with events := st.events.push { e with step := 0xFFFFFFFFFFFF } }) s) :=
  Only.foldl (fun t _ => Only.lit (Only.refl t) (by (intro p; cases p <;> first | exact .inl (by decide) | exact .inr (by (repeat' apply And.intro) <;> rfl)))) _ _

theorem State.clearHeld_only (s : State) : Only [.halt, .tel, .channels, .events, .ledger, .powerEvents] s { s with pwr.events := [] } := Only.lit (Only.refl s) (by (intro p; cases p <;> first | exact .inl (by decide) | exact .inr (by (repeat' apply And.intro) <;> rfl)))

theorem State.trainChannels_only (l : List Nat) (s : State) (m : NMap Nat) : Only [.halt, .tel, .channels, .events, .ledger, .powerEvents] s (l.foldl (fun (st : State) ch =>
    if st.unavailable (unitChannel ch) && (st.channel ch).down then st else st.trainChannel ch (NMap.getD m ch 0)) s) :=
  Only.foldl (fun t k => Only.ite (fun _ => Only.refl t) (fun _ => (State.trainChannel_only _ _ _).mono (by decide))) l s

theorem State.powerOn_only (s x0) : Only [.halt, .tel, .channels, .events, .ledger, .powerEvents] s (State.powerOn s x0) := by
  unfold State.powerOn
  extract_lets s1
  have h1 : Only [.halt, .tel, .channels, .events, .ledger, .powerEvents] s s1 := State.trainChannels_only _ _ _
  have h2 := h1.trans (State.clearHeld_only s1)
  clear_value s1
  exact h2.trans (State.pushEvents_only _ _)

theorem State.releaseDies_only (s x0) : Only [.boot, .halt, .stats, .tel, .hbm, .channels, .pen, .herd, .msgs, .events, .ledger, .sec, .powerEvents] s (State.releaseDies s x0) := by
  unfold State.releaseDies
  extract_lets _ s1 s2 s3
  have h0 : Only [.boot, .halt, .stats, .tel, .hbm, .channels, .pen, .herd, .msgs, .events, .ledger, .sec, .powerEvents] s { s with sec.fw := fwMeasure x0.image } := Only.lit (Only.refl s) (by (intro p; cases p <;> first | exact .inl (by decide) | exact .inr (by (repeat' apply And.intro) <;> rfl)))
  have h1 : Only [.boot, .halt, .stats, .tel, .hbm, .channels, .pen, .herd, .msgs, .events, .ledger, .sec, .powerEvents] s s1 := Only.of (State.bootSvn_only _ _ _) (by decide) h0
  have h2 : Only [.boot, .halt, .stats, .tel, .hbm, .channels, .pen, .herd, .msgs, .events, .ledger, .sec, .powerEvents] s s2 := Only.ite (fun _ => Only.of (State.powerOn_only _ _) (by decide) h1) (fun _ => h1)
  clear_value s2
  have h3 : Only [.boot, .halt, .stats, .tel, .hbm, .channels, .pen, .herd, .msgs, .events, .ledger, .sec, .powerEvents] s s3 := Only.of (State.beginTraining_only _) (by decide) (Only.thenFold h2 fun t k => (State.replayPort_only t k).mono (by decide))
  clear_value s3
  exact Only.lit h3 (by (intro p; cases p <;> first | exact .inl (by decide) | exact .inr (by (repeat' apply And.intro) <;> rfl)))

theorem State.enterRecovery_only (s x0) : Only [.boot, .mem, .sec] s (State.enterRecovery s x0) := by
  refine Only.lit (Only.refl _) ?_
  intro p; cases p <;> first | exact .inl (by decide) | exact .inr (by (repeat' apply And.intro) <;> rfl)

theorem State.keepFlash_only (s x0) : Only [.boot] s (State.keepFlash s x0) :=
  Only.lit (Only.refl s) (by intro p; cases p <;> first | exact .inl (by decide) | exact .inr (by (repeat' apply And.intro) <;> rfl))

theorem State.bootIdentity_only (s x0) : Only [.boot, .tel, .events, .sec] s (State.bootIdentity s x0) := by
  unfold State.bootIdentity
  repeat' first
    | with_reducible exact Only.refl _
    | decide
    | (with_reducible apply Only.ite) <;> intro _
    | with_reducible apply Only.of (State.raise_only _ _ _ _ _ _)
    | (fail_if_no_progress ((with_reducible refine Only.lit ?_ ?_) <;> [skip; (intro p; cases p <;> first | exact .inl (by decide) | exact .inr (by (repeat' apply And.intro) <;> rfl))]))

theorem State.bootFailed_only (s x0) : Only [.boot] s (State.bootFailed s x0) := by
  refine Only.lit (Only.refl _) ?_
  intro p; cases p <;> first | exact .inl (by decide) | exact .inr (by (repeat' apply And.intro) <;> rfl)

theorem State.bootRom_only (s x0) : Only [.boot, .halt, .stats, .tel, .hbm, .channels, .mem, .pen, .herd, .msgs, .events, .ledger, .sec, .powerEvents] s (State.bootRom s x0) := by
  unfold State.bootRom
  repeat' first
    | with_reducible exact Only.refl _
    | decide
    | (with_reducible apply Only.ite) <;> intro _
    | with_reducible apply Only.of (State.releaseDies_only _ _)
    | with_reducible apply Only.of (State.enterRecovery_only _ _)
    | with_reducible apply Only.of (State.keepFlash_only _ _)
    | with_reducible apply Only.of (State.bootIdentity_only _ _)
    | with_reducible apply Only.of (State.bootFailed_only _ _)
    | (fail_if_no_progress ((with_reducible refine Only.lit ?_ ?_) <;> [skip; (intro p; cases p <;> first | exact .inl (by decide) | exact .inr (by (repeat' apply And.intro) <;> rfl))]))

theorem State.endPlanLoad_only (s x0) : Only [.setup] s (State.endPlanLoad s x0) := by
  unfold State.endPlanLoad
  repeat' first
    | with_reducible exact Only.refl _
    | decide
    | with_reducible apply Only.of (State.endOp_only _ _)
    | with_reducible apply Only.of (State.endCmd_only _ _)

theorem State.refusePlan_only (s x0 x1) : Only [.setup, .tel, .events] s (State.refusePlan s x0 x1) := by
  unfold State.refusePlan
  repeat' first
    | with_reducible exact Only.refl _
    | decide
    | (with_reducible apply Only.ite) <;> intro _
    | with_reducible apply Only.of (State.raise_only _ _ _ _ _ _)
    | with_reducible apply Only.of (State.endPlanLoad_only _ _)

theorem State.loadImage_only (s x0 x1) : Only [.active, .pend, .setup, .seq, .plan, .queues, .tel, .mem, .tables, .events, .exp, .sec] s (State.loadImage s x0 x1) := by
  unfold State.loadImage
  repeat' first
    | with_reducible exact Only.refl _
    | decide
    | (with_reducible apply Only.ite) <;> intro _
    | with_reducible apply Only.of (State.installPlan_only _ _)
    | with_reducible apply Only.of (State.runAdmission_only _ _ _)
    | with_reducible apply Only.of (State.endPlanLoad_only _ _)
    | with_reducible apply Only.of (State.refusePlan_only _ _ _)

theorem State.fwFailed_only (s x0) : Only [.setup, .tel, .events] s (State.fwFailed s x0) := by
  unfold State.fwFailed
  repeat' first
    | with_reducible exact Only.refl _
    | decide
    | with_reducible apply Only.of (State.raise_only _ _ _ _ _ _)
    | with_reducible apply Only.of (State.endCmd_only _ _)

theorem State.readPlanRest_only (s x0) : Only [.out] s (State.readPlanRest s x0) := by
  unfold State.readPlanRest
  repeat' first
    | with_reducible exact Only.refl _
    | decide
    | (with_reducible apply Only.ite) <;> intro _
    | with_reducible apply Only.of (State.emit_only _ _)

theorem State.dieStartTimeout_only (s x0) : Only [.boot] s (State.dieStartTimeout s x0) := by
  unfold State.dieStartTimeout
  repeat' first
    | with_reducible exact Only.refl _
    | decide
    | (with_reducible apply Only.ite) <;> intro _
    | with_reducible apply Only.of (State.bootFailed_only _ _)

theorem State.dieStarted_only (s x0) : Only [.boot] s (State.dieStarted s x0) := by
  unfold State.dieStarted
  repeat' first
    | with_reducible exact Only.refl _
    | (with_reducible apply Only.ite) <;> intro _
    | (fail_if_no_progress ((with_reducible refine Only.lit ?_ ?_) <;> [skip; (intro p; cases p <;> first | exact .inl (by decide) | exact .inr (by (repeat' apply And.intro) <;> rfl))]))

theorem State.flashWriteEnd_only (s) : Only [.setup, .boot] s (State.flashWriteEnd s) := by
  unfold State.flashWriteEnd
  repeat' first
    | with_reducible exact Only.refl _
    | decide
    | with_reducible apply Only.of (State.endCmd_only _ _)
    | (fail_if_no_progress ((with_reducible refine Only.lit ?_ ?_) <;> [skip; (intro p; cases p <;> first | exact .inl (by decide) | exact .inr (by (repeat' apply And.intro) <;> rfl))]))
    | split

theorem State.planImageRead_only (s x0 x1) : Only [.out, .active, .pend, .setup, .seq, .plan, .queues, .tel, .mem, .tables, .events, .exp, .sec] s (State.planImageRead s x0 x1) := by
  unfold State.planImageRead
  repeat' first
    | with_reducible exact Only.refl _
    | decide
    | with_reducible apply Only.of (State.loadImage_only _ _ _)
    | with_reducible apply Only.of (State.failSetupRead_only _ _)
    | with_reducible apply Only.of (State.readPlanRest_only _ _)
    | extract_lets +onlyGivenNames x
    | split

theorem State.fwImageRead_only (s x0) : Only [.setup, .boot, .tel, .tiles, .events] s (State.fwImageRead s x0) := by
  unfold State.fwImageRead
  repeat' first
    | with_reducible exact Only.refl _
    | decide
    | (with_reducible apply Only.ite) <;> intro _
    | with_reducible apply Only.of (State.tileWrite_only _ _ _ _)
    | with_reducible apply Only.of (State.fwFailed_only _ _)
    | with_reducible apply Only.of (State.failSetupRead_only _ _)
    | (fail_if_no_progress ((with_reducible refine Only.lit ?_ ?_) <;> [skip; (intro p; cases p <;> first | exact .inl (by decide) | exact .inr (by (repeat' apply And.intro) <;> rfl))]))
    | split

end Sys2Proof.Machine
end

