-- ==== Sys2Proof/Laws/State.lean ====
section
/-! SUPPORT. What the small updates of the state leave alone, one simplification lemma per update: each says field by field what it does
not touch. The text of an update need not be unfolded in a proof. -/

namespace Sys2Proof.Machine

@[simp] theorem State.emit_rest (s : State) (o) :
    (s.emit o).pending = s.pending ∧ (s.emit o).fresh = s.fresh ∧ (s.emit o).active = s.active ∧ (s.emit o).pend = s.pend ∧
    (s.emit o).setup = s.setup ∧ (s.emit o).win = s.win ∧ (s.emit o).boot = s.boot ∧ (s.emit o).clk = s.clk ∧ (s.emit o).seq = s.seq ∧
    (s.emit o).plan = s.plan ∧ (s.emit o).host = s.host ∧ (s.emit o).mem = s.mem ∧ (s.emit o).emb = s.emb ∧ (s.emit o).acc = s.acc ∧
    (s.emit o).churns = s.churns ∧ (s.emit o).hist = s.hist ∧ (s.emit o).attn = s.attn ∧ (s.emit o).watch = s.watch ∧
    (s.emit o).fab = s.fab ∧ (s.emit o).events = s.events ∧ (s.emit o).rel = s.rel ∧ (s.emit o).sec = s.sec ∧ (s.emit o).pwr = s.pwr :=
  ⟨rfl, rfl, rfl, rfl, rfl, rfl, rfl, rfl, rfl, rfl, rfl, rfl, rfl, rfl, rfl, rfl, rfl, rfl, rfl, rfl, rfl, rfl, rfl⟩

@[simp] theorem State.emits_rest (s : State) (os) :
    (s.emits os).pending = s.pending ∧ (s.emits os).fresh = s.fresh ∧ (s.emits os).active = s.active ∧ (s.emits os).pend = s.pend ∧
    (s.emits os).setup = s.setup ∧ (s.emits os).win = s.win ∧ (s.emits os).boot = s.boot ∧ (s.emits os).clk = s.clk ∧
    (s.emits os).seq = s.seq ∧ (s.emits os).plan = s.plan ∧ (s.emits os).host = s.host ∧ (s.emits os).mem = s.mem ∧
    (s.emits os).emb = s.emb ∧ (s.emits os).acc = s.acc ∧ (s.emits os).churns = s.churns ∧ (s.emits os).hist = s.hist ∧
    (s.emits os).attn = s.attn ∧ (s.emits os).watch = s.watch ∧ (s.emits os).fab = s.fab ∧ (s.emits os).events = s.events ∧
    (s.emits os).rel = s.rel ∧ (s.emits os).sec = s.sec ∧ (s.emits os).pwr = s.pwr := by
  induction os generalizing s with
  | nil => exact ⟨rfl, rfl, rfl, rfl, rfl, rfl, rfl, rfl, rfl, rfl, rfl, rfl, rfl, rfl, rfl, rfl, rfl, rfl, rfl, rfl, rfl, rfl, rfl⟩
  | cons o r ih => exact ih (s.emit o)

@[simp] theorem State.setPort_rest (s : State) (p f) :
    (s.setPort p f).pending = s.pending ∧ (s.setPort p f).fresh = s.fresh ∧ (s.setPort p f).out = s.out ∧
    (s.setPort p f).active = s.active ∧ (s.setPort p f).pend = s.pend ∧ (s.setPort p f).setup = s.setup ∧ (s.setPort p f).win = s.win ∧
    (s.setPort p f).boot = s.boot ∧ (s.setPort p f).clk = s.clk ∧ (s.setPort p f).seq = s.seq ∧ (s.setPort p f).plan = s.plan ∧
    (s.setPort p f).mem = s.mem ∧ (s.setPort p f).emb = s.emb ∧ (s.setPort p f).acc = s.acc ∧ (s.setPort p f).churns = s.churns ∧
    (s.setPort p f).hist = s.hist ∧ (s.setPort p f).attn = s.attn ∧ (s.setPort p f).watch = s.watch ∧ (s.setPort p f).fab = s.fab ∧
    (s.setPort p f).events = s.events ∧ (s.setPort p f).rel = s.rel ∧ (s.setPort p f).sec = s.sec ∧ (s.setPort p f).pwr = s.pwr :=
  ⟨rfl, rfl, rfl, rfl, rfl, rfl, rfl, rfl, rfl, rfl, rfl, rfl, rfl, rfl, rfl, rfl, rfl, rfl, rfl, rfl, rfl, rfl, rfl⟩

@[simp] theorem State.setQueue_rest (s : State) (q f) :
    (s.setQueue q f).pending = s.pending ∧ (s.setQueue q f).fresh = s.fresh ∧ (s.setQueue q f).out = s.out ∧
    (s.setQueue q f).active = s.active ∧ (s.setQueue q f).pend = s.pend ∧ (s.setQueue q f).setup = s.setup ∧
    (s.setQueue q f).win = s.win ∧ (s.setQueue q f).boot = s.boot ∧ (s.setQueue q f).clk = s.clk ∧ (s.setQueue q f).seq = s.seq ∧
    (s.setQueue q f).plan = s.plan ∧ (s.setQueue q f).mem = s.mem ∧ (s.setQueue q f).emb = s.emb ∧ (s.setQueue q f).acc = s.acc ∧
    (s.setQueue q f).churns = s.churns ∧ (s.setQueue q f).hist = s.hist ∧ (s.setQueue q f).attn = s.attn ∧
    (s.setQueue q f).watch = s.watch ∧ (s.setQueue q f).fab = s.fab ∧ (s.setQueue q f).events = s.events ∧
    (s.setQueue q f).rel = s.rel ∧ (s.setQueue q f).sec = s.sec ∧ (s.setQueue q f).pwr = s.pwr :=
  ⟨rfl, rfl, rfl, rfl, rfl, rfl, rfl, rfl, rfl, rfl, rfl, rfl, rfl, rfl, rfl, rfl, rfl, rfl, rfl, rfl, rfl, rfl, rfl⟩

@[simp] theorem State.setGroup_rest (s : State) (g f) :
    (s.setGroup g f).pending = s.pending ∧ (s.setGroup g f).fresh = s.fresh ∧ (s.setGroup g f).out = s.out ∧
    (s.setGroup g f).active = s.active ∧ (s.setGroup g f).pend = s.pend ∧ (s.setGroup g f).setup = s.setup ∧
    (s.setGroup g f).win = s.win ∧ (s.setGroup g f).boot = s.boot ∧ (s.setGroup g f).clk = s.clk ∧ (s.setGroup g f).seq = s.seq ∧
    (s.setGroup g f).plan = s.plan ∧ (s.setGroup g f).mem = s.mem ∧ (s.setGroup g f).emb = s.emb ∧ (s.setGroup g f).acc = s.acc ∧
    (s.setGroup g f).churns = s.churns ∧ (s.setGroup g f).hist = s.hist ∧ (s.setGroup g f).attn = s.attn ∧
    (s.setGroup g f).watch = s.watch ∧ (s.setGroup g f).fab = s.fab ∧ (s.setGroup g f).events = s.events ∧
    (s.setGroup g f).rel = s.rel ∧ (s.setGroup g f).sec = s.sec ∧ (s.setGroup g f).pwr = s.pwr :=
  ⟨rfl, rfl, rfl, rfl, rfl, rfl, rfl, rfl, rfl, rfl, rfl, rfl, rfl, rfl, rfl, rfl, rfl, rfl, rfl, rfl, rfl, rfl, rfl⟩

@[simp] theorem State.acceptRecord_rest (s : State) (k b) :
    (s.acceptRecord k b).pending = s.pending ∧ (s.acceptRecord k b).fresh = s.fresh ∧ (s.acceptRecord k b).out = s.out ∧
    (s.acceptRecord k b).active = s.active ∧ (s.acceptRecord k b).pend = s.pend ∧ (s.acceptRecord k b).setup = s.setup ∧
    (s.acceptRecord k b).win = s.win ∧ (s.acceptRecord k b).boot = s.boot ∧ (s.acceptRecord k b).clk = s.clk ∧
    (s.acceptRecord k b).seq = s.seq ∧ (s.acceptRecord k b).plan = s.plan ∧ (s.acceptRecord k b).mem = s.mem ∧
    (s.acceptRecord k b).emb = s.emb ∧ (s.acceptRecord k b).acc = s.acc ∧ (s.acceptRecord k b).churns = s.churns ∧
    (s.acceptRecord k b).hist = s.hist ∧ (s.acceptRecord k b).attn = s.attn ∧ (s.acceptRecord k b).watch = s.watch ∧
    (s.acceptRecord k b).fab = s.fab ∧ (s.acceptRecord k b).events = s.events ∧ (s.acceptRecord k b).rel = s.rel ∧
    (s.acceptRecord k b).sec = s.sec ∧ (s.acceptRecord k b).pwr = s.pwr :=
  ⟨rfl, rfl, rfl, rfl, rfl, rfl, rfl, rfl, rfl, rfl, rfl, rfl, rfl, rfl, rfl, rfl, rfl, rfl, rfl, rfl, rfl, rfl, rfl⟩

@[simp] theorem State.setUnit_rest (s : State) (u f) :
    (s.setUnit u f).pending = s.pending ∧ (s.setUnit u f).fresh = s.fresh ∧ (s.setUnit u f).out = s.out ∧
    (s.setUnit u f).active = s.active ∧ (s.setUnit u f).pend = s.pend ∧ (s.setUnit u f).setup = s.setup ∧ (s.setUnit u f).win = s.win ∧
    (s.setUnit u f).boot = s.boot ∧ (s.setUnit u f).clk = s.clk ∧ (s.setUnit u f).seq = s.seq ∧ (s.setUnit u f).plan = s.plan ∧
    (s.setUnit u f).host = s.host ∧ (s.setUnit u f).mem = s.mem ∧ (s.setUnit u f).emb = s.emb ∧ (s.setUnit u f).acc = s.acc ∧
    (s.setUnit u f).churns = s.churns ∧ (s.setUnit u f).hist = s.hist ∧ (s.setUnit u f).attn = s.attn ∧
    (s.setUnit u f).watch = s.watch ∧ (s.setUnit u f).fab = s.fab ∧ (s.setUnit u f).events = s.events ∧ (s.setUnit u f).sec = s.sec ∧
    (s.setUnit u f).pwr = s.pwr :=
  ⟨rfl, rfl, rfl, rfl, rfl, rfl, rfl, rfl, rfl, rfl, rfl, rfl, rfl, rfl, rfl, rfl, rfl, rfl, rfl, rfl, rfl, rfl, rfl⟩

@[simp] theorem State.logged_rest (s : State) (u) :
    (s.logged u).pending = s.pending ∧ (s.logged u).fresh = s.fresh ∧ (s.logged u).out = s.out ∧ (s.logged u).active = s.active ∧
    (s.logged u).pend = s.pend ∧ (s.logged u).setup = s.setup ∧ (s.logged u).win = s.win ∧ (s.logged u).boot = s.boot ∧
    (s.logged u).clk = s.clk ∧ (s.logged u).seq = s.seq ∧ (s.logged u).plan = s.plan ∧ (s.logged u).host = s.host ∧
    (s.logged u).mem = s.mem ∧ (s.logged u).emb = s.emb ∧ (s.logged u).acc = s.acc ∧ (s.logged u).churns = s.churns ∧
    (s.logged u).hist = s.hist ∧ (s.logged u).attn = s.attn ∧ (s.logged u).watch = s.watch ∧ (s.logged u).fab = s.fab ∧
    (s.logged u).events = s.events ∧ (s.logged u).sec = s.sec ∧ (s.logged u).pwr = s.pwr :=
  ⟨rfl, rfl, rfl, rfl, rfl, rfl, rfl, rfl, rfl, rfl, rfl, rfl, rfl, rfl, rfl, rfl, rfl, rfl, rfl, rfl, rfl, rfl, rfl⟩

@[simp] theorem State.permanentNow_rest (s : State) (u) :
    (s.permanentNow u).pending = s.pending ∧ (s.permanentNow u).fresh = s.fresh ∧ (s.permanentNow u).out = s.out ∧
    (s.permanentNow u).active = s.active ∧ (s.permanentNow u).pend = s.pend ∧ (s.permanentNow u).setup = s.setup ∧
    (s.permanentNow u).win = s.win ∧ (s.permanentNow u).boot = s.boot ∧ (s.permanentNow u).clk = s.clk ∧
    (s.permanentNow u).seq = s.seq ∧ (s.permanentNow u).plan = s.plan ∧ (s.permanentNow u).host = s.host ∧
    (s.permanentNow u).mem = s.mem ∧ (s.permanentNow u).emb = s.emb ∧ (s.permanentNow u).acc = s.acc ∧
    (s.permanentNow u).churns = s.churns ∧ (s.permanentNow u).hist = s.hist ∧ (s.permanentNow u).attn = s.attn ∧
    (s.permanentNow u).watch = s.watch ∧ (s.permanentNow u).fab = s.fab ∧ (s.permanentNow u).events = s.events ∧
    (s.permanentNow u).sec = s.sec ∧ (s.permanentNow u).pwr = s.pwr :=
  ⟨rfl, rfl, rfl, rfl, rfl, rfl, rfl, rfl, rfl, rfl, rfl, rfl, rfl, rfl, rfl, rfl, rfl, rfl, rfl, rfl, rfl, rfl, rfl⟩

@[simp] theorem State.haltNext_rest (s : State) :
    (s.haltNext).pending = s.pending ∧ (s.haltNext).fresh = s.fresh ∧ (s.haltNext).out = s.out ∧ (s.haltNext).active = s.active ∧
    (s.haltNext).pend = s.pend ∧ (s.haltNext).setup = s.setup ∧ (s.haltNext).win = s.win ∧ (s.haltNext).boot = s.boot ∧
    (s.haltNext).clk = s.clk ∧ (s.haltNext).plan = s.plan ∧ (s.haltNext).host = s.host ∧ (s.haltNext).mem = s.mem ∧
    (s.haltNext).emb = s.emb ∧ (s.haltNext).acc = s.acc ∧ (s.haltNext).churns = s.churns ∧ (s.haltNext).hist = s.hist ∧
    (s.haltNext).attn = s.attn ∧ (s.haltNext).watch = s.watch ∧ (s.haltNext).fab = s.fab ∧ (s.haltNext).events = s.events ∧
    (s.haltNext).rel = s.rel ∧ (s.haltNext).sec = s.sec ∧ (s.haltNext).pwr = s.pwr :=
  ⟨rfl, rfl, rfl, rfl, rfl, rfl, rfl, rfl, rfl, rfl, rfl, rfl, rfl, rfl, rfl, rfl, rfl, rfl, rfl, rfl, rfl, rfl, rfl⟩

@[simp] theorem State.log_rest (s : State) (a b r) :
    (s.log a b r).pending = s.pending ∧ (s.log a b r).fresh = s.fresh ∧ (s.log a b r).out = s.out ∧ (s.log a b r).active = s.active ∧
    (s.log a b r).pend = s.pend ∧ (s.log a b r).win = s.win ∧ (s.log a b r).boot = s.boot ∧ (s.log a b r).clk = s.clk ∧
    (s.log a b r).seq = s.seq ∧ (s.log a b r).plan = s.plan ∧ (s.log a b r).host = s.host ∧ (s.log a b r).mem = s.mem ∧
    (s.log a b r).emb = s.emb ∧ (s.log a b r).acc = s.acc ∧ (s.log a b r).churns = s.churns ∧ (s.log a b r).hist = s.hist ∧
    (s.log a b r).attn = s.attn ∧ (s.log a b r).watch = s.watch ∧ (s.log a b r).fab = s.fab ∧ (s.log a b r).events = s.events ∧
    (s.log a b r).rel = s.rel ∧ (s.log a b r).sec = s.sec ∧ (s.log a b r).pwr = s.pwr :=
  ⟨rfl, rfl, rfl, rfl, rfl, rfl, rfl, rfl, rfl, rfl, rfl, rfl, rfl, rfl, rfl, rfl, rfl, rfl, rfl, rfl, rfl, rfl, rfl⟩

@[simp] theorem State.startOp_rest (s : State) (n) :
    (s.startOp n).pending = s.pending ∧ (s.startOp n).fresh = s.fresh ∧ (s.startOp n).out = s.out ∧ (s.startOp n).active = s.active ∧
    (s.startOp n).pend = s.pend ∧ (s.startOp n).win = s.win ∧ (s.startOp n).boot = s.boot ∧ (s.startOp n).clk = s.clk ∧
    (s.startOp n).seq = s.seq ∧ (s.startOp n).plan = s.plan ∧ (s.startOp n).host = s.host ∧ (s.startOp n).mem = s.mem ∧
    (s.startOp n).emb = s.emb ∧ (s.startOp n).acc = s.acc ∧ (s.startOp n).churns = s.churns ∧ (s.startOp n).hist = s.hist ∧
    (s.startOp n).attn = s.attn ∧ (s.startOp n).watch = s.watch ∧ (s.startOp n).fab = s.fab ∧ (s.startOp n).events = s.events ∧
    (s.startOp n).rel = s.rel ∧ (s.startOp n).sec = s.sec ∧ (s.startOp n).pwr = s.pwr :=
  ⟨rfl, rfl, rfl, rfl, rfl, rfl, rfl, rfl, rfl, rfl, rfl, rfl, rfl, rfl, rfl, rfl, rfl, rfl, rfl, rfl, rfl, rfl, rfl⟩

@[simp] theorem State.endOp_rest (s : State) (n) :
    (s.endOp n).pending = s.pending ∧ (s.endOp n).fresh = s.fresh ∧ (s.endOp n).out = s.out ∧ (s.endOp n).active = s.active ∧
    (s.endOp n).pend = s.pend ∧ (s.endOp n).win = s.win ∧ (s.endOp n).boot = s.boot ∧ (s.endOp n).clk = s.clk ∧
    (s.endOp n).seq = s.seq ∧ (s.endOp n).plan = s.plan ∧ (s.endOp n).host = s.host ∧ (s.endOp n).mem = s.mem ∧
    (s.endOp n).emb = s.emb ∧ (s.endOp n).acc = s.acc ∧ (s.endOp n).churns = s.churns ∧ (s.endOp n).hist = s.hist ∧
    (s.endOp n).attn = s.attn ∧ (s.endOp n).watch = s.watch ∧ (s.endOp n).fab = s.fab ∧ (s.endOp n).events = s.events ∧
    (s.endOp n).rel = s.rel ∧ (s.endOp n).sec = s.sec ∧ (s.endOp n).pwr = s.pwr := by
  unfold State.endOp; split <;> exact ⟨rfl, rfl, rfl, rfl, rfl, rfl, rfl, rfl, rfl, rfl, rfl, rfl, rfl, rfl, rfl, rfl, rfl, rfl, rfl, rfl, rfl, rfl, rfl⟩

@[simp] theorem State.endCmd_rest (s : State) (c) :
    (s.endCmd c).pending = s.pending ∧ (s.endCmd c).fresh = s.fresh ∧ (s.endCmd c).out = s.out ∧ (s.endCmd c).active = s.active ∧
    (s.endCmd c).pend = s.pend ∧ (s.endCmd c).win = s.win ∧ (s.endCmd c).boot = s.boot ∧ (s.endCmd c).clk = s.clk ∧
    (s.endCmd c).seq = s.seq ∧ (s.endCmd c).plan = s.plan ∧ (s.endCmd c).host = s.host ∧ (s.endCmd c).mem = s.mem ∧
    (s.endCmd c).emb = s.emb ∧ (s.endCmd c).acc = s.acc ∧ (s.endCmd c).churns = s.churns ∧ (s.endCmd c).hist = s.hist ∧
    (s.endCmd c).attn = s.attn ∧ (s.endCmd c).watch = s.watch ∧ (s.endCmd c).fab = s.fab ∧ (s.endCmd c).events = s.events ∧
    (s.endCmd c).rel = s.rel ∧ (s.endCmd c).sec = s.sec ∧ (s.endCmd c).pwr = s.pwr :=
  ⟨rfl, rfl, rfl, rfl, rfl, rfl, rfl, rfl, rfl, rfl, rfl, rfl, rfl, rfl, rfl, rfl, rfl, rfl, rfl, rfl, rfl, rfl, rfl⟩

@[simp] theorem State.setPen_rest (s : State) (k f) :
    (s.setPen k f).pending = s.pending ∧ (s.setPen k f).fresh = s.fresh ∧ (s.setPen k f).out = s.out ∧
    (s.setPen k f).active = s.active ∧ (s.setPen k f).pend = s.pend ∧ (s.setPen k f).setup = s.setup ∧ (s.setPen k f).win = s.win ∧
    (s.setPen k f).boot = s.boot ∧ (s.setPen k f).clk = s.clk ∧ (s.setPen k f).seq = s.seq ∧ (s.setPen k f).plan = s.plan ∧
    (s.setPen k f).host = s.host ∧ (s.setPen k f).mem = s.mem ∧ (s.setPen k f).emb = s.emb ∧ (s.setPen k f).acc = s.acc ∧
    (s.setPen k f).churns = s.churns ∧ (s.setPen k f).hist = s.hist ∧ (s.setPen k f).attn = s.attn ∧ (s.setPen k f).watch = s.watch ∧
    (s.setPen k f).events = s.events ∧ (s.setPen k f).rel = s.rel ∧ (s.setPen k f).sec = s.sec ∧ (s.setPen k f).pwr = s.pwr :=
  ⟨rfl, rfl, rfl, rfl, rfl, rfl, rfl, rfl, rfl, rfl, rfl, rfl, rfl, rfl, rfl, rfl, rfl, rfl, rfl, rfl, rfl, rfl, rfl⟩

@[simp] theorem State.setHerd_rest (s : State) (i f) :
    (s.setHerd i f).pending = s.pending ∧ (s.setHerd i f).fresh = s.fresh ∧ (s.setHerd i f).out = s.out ∧
    (s.setHerd i f).active = s.active ∧ (s.setHerd i f).pend = s.pend ∧ (s.setHerd i f).setup = s.setup ∧ (s.setHerd i f).win = s.win ∧
    (s.setHerd i f).boot = s.boot ∧ (s.setHerd i f).clk = s.clk ∧ (s.setHerd i f).seq = s.seq ∧ (s.setHerd i f).plan = s.plan ∧
    (s.setHerd i f).host = s.host ∧ (s.setHerd i f).mem = s.mem ∧ (s.setHerd i f).emb = s.emb ∧ (s.setHerd i f).acc = s.acc ∧
    (s.setHerd i f).churns = s.churns ∧ (s.setHerd i f).hist = s.hist ∧ (s.setHerd i f).attn = s.attn ∧
    (s.setHerd i f).watch = s.watch ∧ (s.setHerd i f).events = s.events ∧ (s.setHerd i f).rel = s.rel ∧ (s.setHerd i f).sec = s.sec ∧
    (s.setHerd i f).pwr = s.pwr :=
  ⟨rfl, rfl, rfl, rfl, rfl, rfl, rfl, rfl, rfl, rfl, rfl, rfl, rfl, rfl, rfl, rfl, rfl, rfl, rfl, rfl, rfl, rfl, rfl⟩

@[simp] theorem State.setConn_rest (s : State) (a b f) :
    (s.setConn a b f).pending = s.pending ∧ (s.setConn a b f).fresh = s.fresh ∧ (s.setConn a b f).out = s.out ∧
    (s.setConn a b f).active = s.active ∧ (s.setConn a b f).pend = s.pend ∧ (s.setConn a b f).setup = s.setup ∧
    (s.setConn a b f).win = s.win ∧ (s.setConn a b f).boot = s.boot ∧ (s.setConn a b f).clk = s.clk ∧ (s.setConn a b f).seq = s.seq ∧
    (s.setConn a b f).plan = s.plan ∧ (s.setConn a b f).host = s.host ∧ (s.setConn a b f).mem = s.mem ∧ (s.setConn a b f).emb = s.emb ∧
    (s.setConn a b f).acc = s.acc ∧ (s.setConn a b f).churns = s.churns ∧ (s.setConn a b f).hist = s.hist ∧
    (s.setConn a b f).attn = s.attn ∧ (s.setConn a b f).watch = s.watch ∧ (s.setConn a b f).events = s.events ∧
    (s.setConn a b f).rel = s.rel ∧ (s.setConn a b f).sec = s.sec ∧ (s.setConn a b f).pwr = s.pwr :=
  ⟨rfl, rfl, rfl, rfl, rfl, rfl, rfl, rfl, rfl, rfl, rfl, rfl, rfl, rfl, rfl, rfl, rfl, rfl, rfl, rfl, rfl, rfl, rfl⟩

@[simp] theorem State.setChannel_rest (s : State) (c f) :
    (s.setChannel c f).pending = s.pending ∧ (s.setChannel c f).fresh = s.fresh ∧ (s.setChannel c f).out = s.out ∧
    (s.setChannel c f).active = s.active ∧ (s.setChannel c f).pend = s.pend ∧ (s.setChannel c f).setup = s.setup ∧
    (s.setChannel c f).win = s.win ∧ (s.setChannel c f).boot = s.boot ∧ (s.setChannel c f).clk = s.clk ∧
    (s.setChannel c f).seq = s.seq ∧ (s.setChannel c f).plan = s.plan ∧ (s.setChannel c f).host = s.host ∧
    (s.setChannel c f).emb = s.emb ∧ (s.setChannel c f).acc = s.acc ∧ (s.setChannel c f).churns = s.churns ∧
    (s.setChannel c f).hist = s.hist ∧ (s.setChannel c f).attn = s.attn ∧ (s.setChannel c f).watch = s.watch ∧
    (s.setChannel c f).fab = s.fab ∧ (s.setChannel c f).events = s.events ∧ (s.setChannel c f).rel = s.rel ∧
    (s.setChannel c f).sec = s.sec ∧ (s.setChannel c f).pwr = s.pwr :=
  ⟨rfl, rfl, rfl, rfl, rfl, rfl, rfl, rfl, rfl, rfl, rfl, rfl, rfl, rfl, rfl, rfl, rfl, rfl, rfl, rfl, rfl, rfl, rfl⟩

@[simp] theorem State.setStack_rest (s : State) (k f) :
    (s.setStack k f).pending = s.pending ∧ (s.setStack k f).fresh = s.fresh ∧ (s.setStack k f).out = s.out ∧
    (s.setStack k f).active = s.active ∧ (s.setStack k f).pend = s.pend ∧ (s.setStack k f).setup = s.setup ∧
    (s.setStack k f).win = s.win ∧ (s.setStack k f).boot = s.boot ∧ (s.setStack k f).clk = s.clk ∧ (s.setStack k f).seq = s.seq ∧
    (s.setStack k f).plan = s.plan ∧ (s.setStack k f).host = s.host ∧ (s.setStack k f).emb = s.emb ∧ (s.setStack k f).acc = s.acc ∧
    (s.setStack k f).churns = s.churns ∧ (s.setStack k f).hist = s.hist ∧ (s.setStack k f).attn = s.attn ∧
    (s.setStack k f).watch = s.watch ∧ (s.setStack k f).fab = s.fab ∧ (s.setStack k f).events = s.events ∧
    (s.setStack k f).rel = s.rel ∧ (s.setStack k f).sec = s.sec ∧ (s.setStack k f).pwr = s.pwr :=
  ⟨rfl, rfl, rfl, rfl, rfl, rfl, rfl, rfl, rfl, rfl, rfl, rfl, rfl, rfl, rfl, rfl, rfl, rfl, rfl, rfl, rfl, rfl, rfl⟩

@[simp] theorem State.tileWrite_rest (s : State) (a b c) :
    (s.tileWrite a b c).pending = s.pending ∧ (s.tileWrite a b c).fresh = s.fresh ∧ (s.tileWrite a b c).out = s.out ∧
    (s.tileWrite a b c).active = s.active ∧ (s.tileWrite a b c).pend = s.pend ∧ (s.tileWrite a b c).setup = s.setup ∧
    (s.tileWrite a b c).win = s.win ∧ (s.tileWrite a b c).boot = s.boot ∧ (s.tileWrite a b c).clk = s.clk ∧
    (s.tileWrite a b c).seq = s.seq ∧ (s.tileWrite a b c).plan = s.plan ∧ (s.tileWrite a b c).host = s.host ∧
    (s.tileWrite a b c).emb = s.emb ∧ (s.tileWrite a b c).acc = s.acc ∧ (s.tileWrite a b c).churns = s.churns ∧
    (s.tileWrite a b c).hist = s.hist ∧ (s.tileWrite a b c).attn = s.attn ∧ (s.tileWrite a b c).watch = s.watch ∧
    (s.tileWrite a b c).fab = s.fab ∧ (s.tileWrite a b c).events = s.events ∧ (s.tileWrite a b c).rel = s.rel ∧
    (s.tileWrite a b c).sec = s.sec ∧ (s.tileWrite a b c).pwr = s.pwr :=
  ⟨rfl, rfl, rfl, rfl, rfl, rfl, rfl, rfl, rfl, rfl, rfl, rfl, rfl, rfl, rfl, rfl, rfl, rfl, rfl, rfl, rfl, rfl, rfl⟩

@[simp] theorem State.putUnit_rest (s : State) (b d t) :
    (s.putUnit b d t).pending = s.pending ∧ (s.putUnit b d t).fresh = s.fresh ∧ (s.putUnit b d t).out = s.out ∧
    (s.putUnit b d t).active = s.active ∧ (s.putUnit b d t).pend = s.pend ∧ (s.putUnit b d t).setup = s.setup ∧
    (s.putUnit b d t).win = s.win ∧ (s.putUnit b d t).boot = s.boot ∧ (s.putUnit b d t).clk = s.clk ∧ (s.putUnit b d t).plan = s.plan ∧
    (s.putUnit b d t).host = s.host ∧ (s.putUnit b d t).emb = s.emb ∧ (s.putUnit b d t).acc = s.acc ∧
    (s.putUnit b d t).churns = s.churns ∧ (s.putUnit b d t).hist = s.hist ∧ (s.putUnit b d t).attn = s.attn ∧
    (s.putUnit b d t).watch = s.watch ∧ (s.putUnit b d t).fab = s.fab ∧ (s.putUnit b d t).events = s.events ∧
    (s.putUnit b d t).rel = s.rel ∧ (s.putUnit b d t).sec = s.sec ∧ (s.putUnit b d t).pwr = s.pwr :=
  ⟨rfl, rfl, rfl, rfl, rfl, rfl, rfl, rfl, rfl, rfl, rfl, rfl, rfl, rfl, rfl, rfl, rfl, rfl, rfl, rfl, rfl, rfl⟩

@[simp] theorem State.setWatch_rest (s : State) (k f) :
    (s.setWatch k f).pending = s.pending ∧ (s.setWatch k f).fresh = s.fresh ∧ (s.setWatch k f).out = s.out ∧
    (s.setWatch k f).active = s.active ∧ (s.setWatch k f).pend = s.pend ∧ (s.setWatch k f).setup = s.setup ∧
    (s.setWatch k f).win = s.win ∧ (s.setWatch k f).boot = s.boot ∧ (s.setWatch k f).clk = s.clk ∧ (s.setWatch k f).seq = s.seq ∧
    (s.setWatch k f).plan = s.plan ∧ (s.setWatch k f).host = s.host ∧ (s.setWatch k f).mem = s.mem ∧ (s.setWatch k f).emb = s.emb ∧
    (s.setWatch k f).acc = s.acc ∧ (s.setWatch k f).churns = s.churns ∧ (s.setWatch k f).hist = s.hist ∧
    (s.setWatch k f).attn = s.attn ∧ (s.setWatch k f).fab = s.fab ∧ (s.setWatch k f).events = s.events ∧ (s.setWatch k f).rel = s.rel ∧
    (s.setWatch k f).sec = s.sec ∧ (s.setWatch k f).pwr = s.pwr :=
  ⟨rfl, rfl, rfl, rfl, rfl, rfl, rfl, rfl, rfl, rfl, rfl, rfl, rfl, rfl, rfl, rfl, rfl, rfl, rfl, rfl, rfl, rfl, rfl⟩

@[simp] theorem State.setPending_rest (s : State) (f) :
    (s.setPending f).pending = s.pending ∧ (s.setPending f).fresh = s.fresh ∧ (s.setPending f).out = s.out ∧
    (s.setPending f).active = s.active ∧ (s.setPending f).setup = s.setup ∧ (s.setPending f).win = s.win ∧
    (s.setPending f).boot = s.boot ∧ (s.setPending f).clk = s.clk ∧ (s.setPending f).seq = s.seq ∧ (s.setPending f).plan = s.plan ∧
    (s.setPending f).host = s.host ∧ (s.setPending f).mem = s.mem ∧ (s.setPending f).emb = s.emb ∧ (s.setPending f).acc = s.acc ∧
    (s.setPending f).churns = s.churns ∧ (s.setPending f).hist = s.hist ∧ (s.setPending f).attn = s.attn ∧
    (s.setPending f).watch = s.watch ∧ (s.setPending f).fab = s.fab ∧ (s.setPending f).events = s.events ∧
    (s.setPending f).rel = s.rel ∧ (s.setPending f).sec = s.sec ∧ (s.setPending f).pwr = s.pwr :=
  ⟨rfl, rfl, rfl, rfl, rfl, rfl, rfl, rfl, rfl, rfl, rfl, rfl, rfl, rfl, rfl, rfl, rfl, rfl, rfl, rfl, rfl, rfl, rfl⟩

@[simp] theorem State.timed_rest (s : State) (now) :
    (s.timed now).pending = s.pending ∧ (s.timed now).fresh = s.fresh ∧ (s.timed now).out = s.out ∧ (s.timed now).active = s.active ∧
    (s.timed now).pend = s.pend ∧ (s.timed now).setup = s.setup ∧ (s.timed now).win = s.win ∧ (s.timed now).boot = s.boot ∧
    (s.timed now).seq = s.seq ∧ (s.timed now).plan = s.plan ∧ (s.timed now).host = s.host ∧ (s.timed now).mem = s.mem ∧
    (s.timed now).emb = s.emb ∧ (s.timed now).acc = s.acc ∧ (s.timed now).churns = s.churns ∧ (s.timed now).hist = s.hist ∧
    (s.timed now).attn = s.attn ∧ (s.timed now).watch = s.watch ∧ (s.timed now).fab = s.fab ∧ (s.timed now).events = s.events ∧
    (s.timed now).rel = s.rel ∧ (s.timed now).sec = s.sec ∧ (s.timed now).pwr = s.pwr :=
  ⟨rfl, rfl, rfl, rfl, rfl, rfl, rfl, rfl, rfl, rfl, rfl, rfl, rfl, rfl, rfl, rfl, rfl, rfl, rfl, rfl, rfl, rfl, rfl⟩

@[simp] theorem State.setSlot_rest (s : State) (m k v) :
    (s.setSlot m k v).pending = s.pending ∧ (s.setSlot m k v).fresh = s.fresh ∧ (s.setSlot m k v).out = s.out ∧
    (s.setSlot m k v).active = s.active ∧ (s.setSlot m k v).pend = s.pend ∧ (s.setSlot m k v).setup = s.setup ∧
    (s.setSlot m k v).win = s.win ∧ (s.setSlot m k v).boot = s.boot ∧ (s.setSlot m k v).clk = s.clk ∧ (s.setSlot m k v).seq = s.seq ∧
    (s.setSlot m k v).plan = s.plan ∧ (s.setSlot m k v).host = s.host ∧ (s.setSlot m k v).mem = s.mem ∧ (s.setSlot m k v).emb = s.emb ∧
    (s.setSlot m k v).churns = s.churns ∧ (s.setSlot m k v).hist = s.hist ∧ (s.setSlot m k v).attn = s.attn ∧
    (s.setSlot m k v).watch = s.watch ∧ (s.setSlot m k v).fab = s.fab ∧ (s.setSlot m k v).events = s.events ∧
    (s.setSlot m k v).rel = s.rel ∧ (s.setSlot m k v).sec = s.sec ∧ (s.setSlot m k v).pwr = s.pwr :=
  ⟨rfl, rfl, rfl, rfl, rfl, rfl, rfl, rfl, rfl, rfl, rfl, rfl, rfl, rfl, rfl, rfl, rfl, rfl, rfl, rfl, rfl, rfl, rfl⟩

@[simp] theorem State.setChurn_rest (s : State) (l f) :
    (s.setChurn l f).pending = s.pending ∧ (s.setChurn l f).fresh = s.fresh ∧ (s.setChurn l f).out = s.out ∧
    (s.setChurn l f).active = s.active ∧ (s.setChurn l f).pend = s.pend ∧ (s.setChurn l f).setup = s.setup ∧
    (s.setChurn l f).win = s.win ∧ (s.setChurn l f).boot = s.boot ∧ (s.setChurn l f).clk = s.clk ∧ (s.setChurn l f).seq = s.seq ∧
    (s.setChurn l f).plan = s.plan ∧ (s.setChurn l f).host = s.host ∧ (s.setChurn l f).mem = s.mem ∧ (s.setChurn l f).emb = s.emb ∧
    (s.setChurn l f).acc = s.acc ∧ (s.setChurn l f).hist = s.hist ∧ (s.setChurn l f).attn = s.attn ∧ (s.setChurn l f).watch = s.watch ∧
    (s.setChurn l f).fab = s.fab ∧ (s.setChurn l f).events = s.events ∧ (s.setChurn l f).rel = s.rel ∧ (s.setChurn l f).sec = s.sec ∧
    (s.setChurn l f).pwr = s.pwr :=
  ⟨rfl, rfl, rfl, rfl, rfl, rfl, rfl, rfl, rfl, rfl, rfl, rfl, rfl, rfl, rfl, rfl, rfl, rfl, rfl, rfl, rfl, rfl, rfl⟩

@[simp] theorem State.setCtx_rest (s : State) (c f) :
    (s.setCtx c f).pending = s.pending ∧ (s.setCtx c f).fresh = s.fresh ∧ (s.setCtx c f).out = s.out ∧
    (s.setCtx c f).active = s.active ∧ (s.setCtx c f).pend = s.pend ∧ (s.setCtx c f).setup = s.setup ∧ (s.setCtx c f).win = s.win ∧
    (s.setCtx c f).boot = s.boot ∧ (s.setCtx c f).clk = s.clk ∧ (s.setCtx c f).seq = s.seq ∧ (s.setCtx c f).plan = s.plan ∧
    (s.setCtx c f).host = s.host ∧ (s.setCtx c f).mem = s.mem ∧ (s.setCtx c f).emb = s.emb ∧ (s.setCtx c f).acc = s.acc ∧
    (s.setCtx c f).hist = s.hist ∧ (s.setCtx c f).attn = s.attn ∧ (s.setCtx c f).watch = s.watch ∧ (s.setCtx c f).fab = s.fab ∧
    (s.setCtx c f).events = s.events ∧ (s.setCtx c f).rel = s.rel ∧ (s.setCtx c f).sec = s.sec ∧ (s.setCtx c f).pwr = s.pwr :=
  ⟨rfl, rfl, rfl, rfl, rfl, rfl, rfl, rfl, rfl, rfl, rfl, rfl, rfl, rfl, rfl, rfl, rfl, rfl, rfl, rfl, rfl, rfl, rfl⟩

@[simp] theorem State.raise_rest (s : State) (c u i q h) :
    (s.raise c u i q h).pending = s.pending ∧ (s.raise c u i q h).fresh = s.fresh ∧ (s.raise c u i q h).out = s.out ∧
    (s.raise c u i q h).active = s.active ∧ (s.raise c u i q h).pend = s.pend ∧ (s.raise c u i q h).setup = s.setup ∧
    (s.raise c u i q h).win = s.win ∧ (s.raise c u i q h).boot = s.boot ∧ (s.raise c u i q h).clk = s.clk ∧
    (s.raise c u i q h).seq = s.seq ∧ (s.raise c u i q h).plan = s.plan ∧ (s.raise c u i q h).mem = s.mem ∧
    (s.raise c u i q h).emb = s.emb ∧ (s.raise c u i q h).acc = s.acc ∧ (s.raise c u i q h).churns = s.churns ∧
    (s.raise c u i q h).hist = s.hist ∧ (s.raise c u i q h).attn = s.attn ∧ (s.raise c u i q h).watch = s.watch ∧
    (s.raise c u i q h).fab = s.fab ∧ (s.raise c u i q h).rel = s.rel ∧ (s.raise c u i q h).sec = s.sec ∧
    (s.raise c u i q h).pwr = s.pwr := by
  unfold State.raise; extract_lets r s1; split <;> exact ⟨rfl, rfl, rfl, rfl, rfl, rfl, rfl, rfl, rfl, rfl, rfl, rfl, rfl, rfl, rfl, rfl, rfl, rfl, rfl, rfl, rfl, rfl⟩

@[simp] theorem State.endPhase_rest (s : State) (p) :
    (s.endPhase p).pending = s.pending ∧ (s.endPhase p).fresh = s.fresh ∧ (s.endPhase p).out = s.out ∧
    (s.endPhase p).active = s.active ∧ (s.endPhase p).pend = s.pend ∧ (s.endPhase p).setup = s.setup ∧ (s.endPhase p).win = s.win ∧
    (s.endPhase p).boot = s.boot ∧ (s.endPhase p).clk = s.clk ∧ (s.endPhase p).plan = s.plan ∧ (s.endPhase p).host = s.host ∧
    (s.endPhase p).mem = s.mem ∧ (s.endPhase p).emb = s.emb ∧ (s.endPhase p).acc = s.acc ∧ (s.endPhase p).churns = s.churns ∧
    (s.endPhase p).hist = s.hist ∧ (s.endPhase p).attn = s.attn ∧ (s.endPhase p).watch = s.watch ∧ (s.endPhase p).fab = s.fab ∧
    (s.endPhase p).events = s.events ∧ (s.endPhase p).rel = s.rel ∧ (s.endPhase p).sec = s.sec ∧ (s.endPhase p).pwr = s.pwr :=
  ⟨rfl, rfl, rfl, rfl, rfl, rfl, rfl, rfl, rfl, rfl, rfl, rfl, rfl, rfl, rfl, rfl, rfl, rfl, rfl, rfl, rfl, rfl, rfl⟩

@[simp] theorem State.outOfRange_rest (s : State) (o) :
    (s.outOfRange o).pending = s.pending ∧ (s.outOfRange o).fresh = s.fresh ∧ (s.outOfRange o).out = s.out ∧
    (s.outOfRange o).active = s.active ∧ (s.outOfRange o).pend = s.pend ∧ (s.outOfRange o).win = s.win ∧
    (s.outOfRange o).boot = s.boot ∧ (s.outOfRange o).clk = s.clk ∧ (s.outOfRange o).seq = s.seq ∧ (s.outOfRange o).plan = s.plan ∧
    (s.outOfRange o).host = s.host ∧ (s.outOfRange o).mem = s.mem ∧ (s.outOfRange o).emb = s.emb ∧ (s.outOfRange o).acc = s.acc ∧
    (s.outOfRange o).churns = s.churns ∧ (s.outOfRange o).hist = s.hist ∧ (s.outOfRange o).attn = s.attn ∧
    (s.outOfRange o).watch = s.watch ∧ (s.outOfRange o).fab = s.fab ∧ (s.outOfRange o).events = s.events ∧
    (s.outOfRange o).rel = s.rel ∧ (s.outOfRange o).sec = s.sec ∧ (s.outOfRange o).pwr = s.pwr :=
  ⟨rfl, rfl, rfl, rfl, rfl, rfl, rfl, rfl, rfl, rfl, rfl, rfl, rfl, rfl, rfl, rfl, rfl, rfl, rfl, rfl, rfl, rfl, rfl⟩

/-! ## What a raised event leaves (R406, R407) -/

theorem EventState.push_newest (e : EventState) (r : EventRec) : (e.push r).buffer.getLast? = some r := by
  simp only [EventState.push, List.length_append, List.length_cons, List.length_nil]
  rw [List.getLast?_drop]
  simp

@[simp] theorem State.acceptRecord_host (s : State) (k b) : (s.acceptRecord k b).host.ports = s.host.ports ∧
    (s.acceptRecord k b).host.groups = s.host.groups ∧ (s.acceptRecord k b).host.queues = s.host.queues ∧
    (s.acceptRecord k b).host.descFail = s.host.descFail := ⟨rfl, rfl, rfl, rfl⟩

@[simp] theorem State.raise_host (s : State) (c u i q h) : (s.raise c u i q h).host.ports = s.host.ports ∧
    (s.raise c u i q h).host.groups = s.host.groups ∧ (s.raise c u i q h).host.queues = s.host.queues ∧
    (s.raise c u i q h).host.descFail = s.host.descFail := by
  unfold State.raise; extract_lets r s1; split <;> exact ⟨rfl, rfl, rfl, rfl⟩

@[simp] theorem State.raise_events (s : State) (c u i q h) : (s.raise c u i q h).events = s.events.push (s.eventRec c u i q h) := by
  unfold State.raise; extract_lets r s1; split <;> rfl

end Sys2Proof.Machine
end

