-- ==== Sys2Proof/Laws/Facts.lean ====
section
/-! SUPPORT. Laws of the shared operations in the terms of the statements: writes of the window, events, ticks, queues and ports. -/

namespace Sys2Proof.Machine

/-- A write through P0 that the window takes: the guard is armed, and the write's own effect follows, or, on a guarded field, the
effect that leaves such fields. -/
theorem State.windowWrite_open {s : State} {off v : Nat} {r : Reg} {l u : State → State} (h : s.takesWrite) (hr : regAt off = some r)
    (ho : off < 0x100000) (h4 : off % 4 = 0) (hu : off ≠ 0x10000) (hm : ∀ w, r ≠ .msixTable w) (hp : ∀ w, r ≠ .msixPba w) :
    s.windowWrite 0 off 4 v l u =
      if s.setup.armed ∧ s.lockedHit r v then (l { s with setup.armed := true }).log off 0 .locked else u { s with setup.armed := true } := by
  obtain ⟨h1, h2, h3, h5⟩ := h
  have hs : s.serves = true := by simp [State.serves, h1]
  unfold State.windowWrite
  rw [if_neg (by simp [hs]; omega)]
  simp only [hr, h4, hu, ne_eq, not_true_eq_false, or_self, if_false, and_self, not_false_eq_true, if_true]
  have hc : State.confRefused { s with setup.armed := true } r = false := by
    have : State.confidential { s with setup.armed := true } = false := h5
    simp [State.confRefused, this]
  have hk : State.commandRuns { s with setup.armed := true } r v = false := by simp [State.commandRuns, h3]
  cases r <;> simp_all [State.guardedWrite] <;> rfl

/-- Raising an event raises it. -/
theorem Raised.of_raise (s : State) (code : Nat) (unit : Half) (ident qty : Nat) (h : Bool) :
    Raised (BitVec.ofNat 16 code) unit s (s.raise code unit ident qty h) := by
  unfold Raised State.raise
  simp only []
  split <;> exact ⟨rfl, _, EventState.push_newest _ _, rfl, rfl⟩

/-- An event raised after operations that raise none. -/
theorem Raised.from {s s' t : State} {c u} (h : Raised c u s' t) (e : s'.events = s.events) : Raised c u s t := by
  unfold Raised at *; rw [← e]; exact h

/-- An access that is logged. -/
theorem logged_log (s : State) (o p : Nat) (r : LogReason) : Logged o p r (s.log o p r) := ⟨rfl, rfl, rfl⟩

/-- An event leaves the active view. -/
@[simp] theorem raise_active (s : State) (c u i q h) : (s.raise c u i q h).active = s.active := by unfold State.raise; simp only []; split <;> rfl

/-- An event leaves the pending view. -/
@[simp] theorem raise_pend (s : State) (c u i q h) : (s.raise c u i q h).pend = s.pend := by unfold State.raise; simp only []; split <;> rfl

/-- An event leaves the setup block. -/
@[simp] theorem raise_setup (s : State) (c u i q h) : (s.raise c u i q h).setup = s.setup := by unfold State.raise; simp only []; split <;> rfl

/-- An event leaves the sequencer. -/
@[simp] theorem raise_seq (s : State) (c u i q h) : (s.raise c u i q h).seq = s.seq := by unfold State.raise; simp only []; split <;> rfl

/-- A register without guarded bits is never refused by the guard. -/
theorem lockedHit_zero (s : State) (r : Reg) (v : Nat) (h : r.guarded = 0) : s.lockedHit r v = false := by
  simp [State.lockedHit, h]

/-- A write of a register without guarded fields, as the window takes it. -/
theorem window_free {s : State} {off v : Nat} {r : Reg} {l u : State → State} (h : s.takesWrite) (hr : regAt off = some r)
    (ho : off < 0x100000) (h4 : off % 4 = 0) (hu : off ≠ 0x10000) (hm : ∀ w, r ≠ .msixTable w) (hp : ∀ w, r ≠ .msixPba w)
    (hg : r.guarded = 0) : s.windowWrite 0 off 4 v l u = u { s with setup.armed := true } := by
  rw [State.windowWrite_open h hr ho h4 hu hm hp, lockedHit_zero _ _ _ hg]; simp

/-- A write through the disarmed guard, as the window takes it. -/
theorem window_unlocked {s : State} {off v : Nat} {r : Reg} {l u : State → State} (h : s.takesWrite) (hr : regAt off = some r)
    (ho : off < 0x100000) (h4 : off % 4 = 0) (hu : off ≠ 0x10000) (hm : ∀ w, r ≠ .msixTable w) (hp : ∀ w, r ≠ .msixPba w)
    (hg : s.setup.armed = false) : s.windowWrite 0 off 4 v l u = u { s with setup.armed := true } := by
  rw [State.windowWrite_open h hr ho h4 hu hm hp, hg]; simp

/-- A part that is not named is the same. -/
theorem Only.get {m : List Part} {s t : State} (h : Only m s t) (p : Part) (hm : m.contains p = false := by rfl) : p.same s t :=
  (h.2 p).resolve_left (by simpa using hm)

/-- The event raised is the last one. -/
theorem raised_last {c u} {s t : State} (h : Raised c u s t) : t.lastEvent = some c := by
  obtain ⟨_, r, h1, h2, _⟩ := h
  simp [State.lastEvent, h1, h2]

/-- The clocks are the same. -/
theorem Only.clk {m : List Part} {s t : State} (h : Only m s t) (hm : m.contains .clk = false := by rfl) (hn : m.contains .time = false := by rfl) : t.clk = s.clk := by
  have a := h.get .clk hm
  have b := h.get .time hn
  simp only [Part.same] at a b
  rw [b] at a; exact a

/-- The power controller is the same. -/
theorem Only.pwr {m : List Part} {s t : State} (h : Only m s t) (hm : m.contains .pwr = false := by rfl) (hn : m.contains .powerEvents = false := by rfl) : t.pwr = s.pwr := by
  have a := h.get .pwr hm
  have b := h.get .powerEvents hn
  simp only [Part.same] at a b
  rw [b] at a; exact a

/-- The embedding state is the same. -/
theorem Only.emb {m : List Part} {s t : State} (h : Only m s t) (hm : m.contains .emb = false := by rfl) (hn : m.contains .tables = false := by rfl) : t.emb = s.emb := by
  have a := h.get .emb hm
  have b := h.get .tables hn
  simp only [Part.same] at a b
  obtain ⟨b1, b2, b3, b4⟩ := b
  rw [b1, b2, b3, b4] at a; exact a

/-- The part of a tick before the job's: the apply point, the pulses, the count, the step clock and the promise. -/
def State.prelude (s : State) : State := (s.applyPoint false).tickPulse.countTick.setStepClock.restorePromise

/-- Adopting a period leaves the other fields of the active view. -/
theorem applyPeriod_slip (s : State) (b) : (s.applyPeriod b).active.slipLimit = s.active.slipLimit ∧ (s.applyPeriod b).active.moduleId = s.active.moduleId ∧ (s.applyPeriod b).active.tickSource = s.active.tickSource := by
  unfold State.applyPeriod
  simp only []
  have ra : ∀ (p : Plan) n, (s.runAdmission p n).1.active = s.active := fun p n => (State.runAdmission_only s p n).get .active
  split
  · exact ⟨rfl, rfl, rfl⟩
  · split
    · split <;> exact ⟨rfl, rfl, rfl⟩
    · split
      · exact ⟨rfl, rfl, rfl⟩
      · rename_i p _
        split <;> simp [ra]

/-- What the apply point of a tick leaves in the active view. -/
theorem applyPoint_facts (s : State) : (s.applyPoint false).active.slipLimit = s.pend.slipLimit ∧ (s.applyPoint false).active.moduleId = s.active.moduleId
    ∧ (s.applyPoint false).active.tickSource = s.active.tickSource ∧ (s.applyPoint false).plan = s.plan := by
  have h1 : s.clampRegulators.applyRetrain.pend.slipLimit = s.pend.slipLimit := by
    have a : s.clampRegulators.pend.slipLimit = s.pend.slipLimit := by
      unfold State.clampRegulators; split
      · rfl
      · simp only []; split
        · rfl
        · rw [raise_pend]
    have b : s.clampRegulators.applyRetrain.pend.slipLimit = s.clampRegulators.pend.slipLimit := by
      unfold State.applyRetrain; split <;> rfl
    rw [b, a]
  have h2 : s.clampRegulators.applyRetrain.active = s.active := by
    rw [(State.applyRetrain_only _).get .active, (State.clampRegulators_only _).get .active]
  have h3 : s.clampRegulators.applyRetrain.plan = s.plan := by
    rw [(State.applyRetrain_only _).get .plan, (State.clampRegulators_only _).get .plan]
  unfold State.applyPoint
  simp only [Bool.false_eq_true, if_false]
  generalize hs2 : ({ s.clampRegulators.applyRetrain with active := s.clampRegulators.applyRetrain.active.adopt s.clampRegulators.applyRetrain.pend } : State) = s2
  have e1 : s2.active.slipLimit = s.pend.slipLimit := by rw [← hs2, ← h1]; rfl
  have e2 : s2.active.moduleId = s.active.moduleId := by rw [← hs2, ← h2]; rfl
  have e3 : s2.active.tickSource = s.active.tickSource := by rw [← hs2, ← h2]; rfl
  have e4 : s2.plan = s.plan := by rw [← hs2, ← h3]
  have f := applyPeriod_slip s2 false
  have g : (s2.applyPeriod false).plan = s2.plan := (State.applyPeriod_only s2 false).get .plan
  split
  · exact ⟨f.1.trans e1, f.2.1.trans e2, f.2.2.trans e3, g.trans e4⟩
  · have a := (State.trimHistories_only (s2.applyPeriod false)).get .active
    have b := (State.trimHistories_only (s2.applyPeriod false)).get .plan
    simp only [Part.same] at a b
    rw [a, b]
    exact ⟨f.1.trans e1, f.2.1.trans e2, f.2.2.trans e3, g.trans e4⟩

/-- What the part of a tick before the job's may change. -/
theorem prelude_only (s : State) : Only [.out, .active, .pend, .setup, .clk, .void, .stats, .seq, .plan, .queues, .tel, .channels, .mem, .tables, .emb, .watch, .events, .exp, .sec, .powerEvents, .pwr] s s.prelude := by
  unfold State.prelude
  refine Only.of (State.restorePromise_only _) rfl (Only.of (State.setStepClock_only _) rfl (Only.of (State.countTick_only _) rfl (Only.of (State.tickPulse_only _) rfl ((State.applyPoint_only _ _).mono rfl))))

/-- That part counts the tick. -/
theorem prelude_clk (s : State) : s.prelude.clk = { s.clk with tickNo := s.clk.tickNo + 1, lastTick := s.clk.time } := by
  unfold State.prelude
  rw [(State.restorePromise_only _).clk, (State.setStepClock_only _).clk]
  unfold State.countTick
  simp only [(State.tickPulse_only _).clk, (State.applyPoint_only _ _).clk]

/-- What that part leaves in the active view. -/
theorem prelude_act (s : State) : s.prelude.active.slipLimit = s.pend.slipLimit ∧ s.prelude.active.moduleId = s.active.moduleId
    ∧ s.prelude.active.tickSource = s.active.tickSource ∧ s.prelude.plan = s.plan := by
  obtain ⟨h1, h2, h3, h4⟩ := applyPoint_facts s
  unfold State.prelude
  have a := (State.restorePromise_only ((s.applyPoint false).tickPulse.countTick.setStepClock))
  have b := (State.setStepClock_only ((s.applyPoint false).tickPulse.countTick))
  have c := (State.tickPulse_only (s.applyPoint false))
  have d := (State.countTick_only (s.applyPoint false).tickPulse)
  have a1 := a.get .active; have b1 := b.get .active; have c1 := c.get .active; have d1 := d.get .active
  have a2 := a.get .plan; have b2 := b.get .plan; have c2 := c.get .plan; have d2 := d.get .plan
  simp only [Part.same] at a1 b1 c1 d1 a2 b2 c2 d2
  rw [a1, b1, d1, c1, a2, b2, d2, c2]
  exact ⟨h1, h2, h3, h4⟩

/-- A tick while a job runs. -/
theorem tick_job {s : State} (h : s.jobRuns = true) : s.tick = s.prelude.jobTick := by
  have hi : s.idle = false := by
    unfold State.jobRuns at h; unfold State.idle
    cases hj : s.seq.job <;> simp_all
  have hb : s.startsHere = false := by simp [State.startsHere, hi]
  unfold State.tick
  simp only [hb, hi, Bool.not_false, Bool.false_or, if_true, Bool.false_eq_true, if_false]
  rw [if_pos]
  · rfl
  · have := (prelude_only s).get .job
    simp only [Part.same] at this
    have e := this.1
    unfold State.prelude at e
    unfold State.jobRuns at h ⊢
    rw [e]; exact h

/-- A queue after a change of one. -/
theorem queue_setQueue (s : State) (q j : Nat) (f : Queue → Queue) : (s.setQueue q f).queue j = if q = j then f (s.queue q) else s.queue j := by
  unfold State.setQueue State.queue
  rw [NMap.getD_modify]

/-- The queue that is changed. -/
@[simp] theorem queue_setQueue_self (s : State) (q : Nat) (f : Queue → Queue) : (s.setQueue q f).queue q = f (s.queue q) := by
  rw [queue_setQueue, if_pos rfl]

/-- A port after a change of one. -/
theorem port_setPort (s : State) (q j : Nat) (f : Port → Port) : (s.setPort q f).port j = if q = j then f (s.port q) else s.port j := by
  unfold State.setPort State.port
  rw [NMap.getD_modify]

/-- A group after a change of one. -/
theorem group_setGroup (s : State) (q j : Nat) (f : Group → Group) : (s.setGroup q f).group j = if q = j then f (s.group q) else s.group j := by
  unfold State.setGroup State.group
  rw [NMap.getD_modify]

/-- A queue is the same. -/
theorem Only.queue {m : List Part} {s t : State} (h : Only m s t) (q : Nat) (hm : m.contains .queues = false := by rfl) : t.queue q = s.queue q := by
  have a := h.get .queues hm
  simp only [Part.same] at a
  unfold State.queue; rw [a.1]

/-- A port is the same. -/
theorem Only.port {m : List Part} {s t : State} (h : Only m s t) (q : Nat) (hm : m.contains .ports = false := by rfl) : t.port q = s.port q := by
  have a := h.get .ports hm
  simp only [Part.same] at a
  unfold State.port; rw [a]

/-- A group is the same. -/
theorem Only.group {m : List Part} {s t : State} (h : Only m s t) (q : Nat) (hm : m.contains .groups = false := by rfl) : t.group q = s.group q := by
  have a := h.get .groups hm
  simp only [Part.same] at a
  unfold State.group; rw [a]

/-- An open port issues what it is asked. -/
theorem toHost_open {s : State} {p : Nat} {o : Output} (h : s.portOpen p) : s.toHost p o = { s with out := s.out ++ [o] } := by
  unfold State.toHost
  simp only [h.2, Bool.false_eq_true, if_false, h.1, if_true]
  rfl

/-- An open port issues a read, which stays outstanding. -/
theorem readHost_open {s : State} {p a n : Nat} (h : s.portOpen p) :
    s.readHost p a n = { s.setPort p (fun x => { x with outstanding := x.outstanding ++ [.hostRead p a n] }) with out := s.out ++ [.hostRead p a n] } := by
  unfold State.readHost
  rw [if_neg (by simp [h.2]), toHost_open]
  · rfl
  · have : (s.setPort p (fun x => { x with outstanding := x.outstanding ++ [.hostRead p a n] })).port p = { s.port p with outstanding := (s.port p).outstanding ++ [.hostRead p a n] } := by
      rw [port_setPort, if_pos rfl]
    unfold State.portOpen; rw [this]; exact h

/-- A port that is the same is open. -/
theorem portOpen_of {s t : State} {p : Nat} (h : s.portOpen p) (e : t.port p = s.port p) : t.portOpen p := by
  unfold State.portOpen at *; rw [e]; exact h

/-- What the reads of a buffer may change. -/
theorem readBuffer_only' (n : Nat) (s : State) (p a l : Nat) : Only [.out, .ports] s (State.readBuffer n s p a l) := by
  exact (State.readBuffer_only _ _ _ _ _).mono rfl

/-- An operation over a range that does something at one place. -/
theorem foldl_one {f : State → Nat → State} {n : Nat} (i : Nat) (hi : i < n) (s : State) (h1 : ∀ j, j < n → j ≠ i → f s j = s)
    (h2 : ∀ j, j < n → j ≠ i → f (f s i) j = f s i) : (List.range n).foldl f s = f s i := by
  have fix : ∀ (l : List Nat) (t : State), (∀ j ∈ l, f t j = t) → l.foldl f t = t := by
    intro l
    induction l with
    | nil => intro t _; rfl
    | cons a r ih => intro t h; simp only [List.foldl_cons]; rw [h a (by simp)]; exact ih t (fun j hj => h j (by simp [hj]))
  have e : List.range n = List.range i ++ (i :: (List.range (n - (i + 1))).map (· + (i + 1))) := by
    have : n = (i + 1) + (n - (i + 1)) := by omega
    conv => lhs; rw [this, List.range_add, List.range_succ]
    simp [Nat.add_comm]
  rw [e, List.foldl_append, fix _ s]
  · simp only [List.foldl_cons]
    apply fix
    intro j hj
    simp only [List.mem_map, List.mem_range] at hj
    obtain ⟨k, hk, rfl⟩ := hj
    exact h2 _ (by omega) (by omega)
  · intro j hj
    simp only [List.mem_range] at hj
    exact h1 j (by omega) (by omega)

/-- A descriptor is changed. -/
theorem setDesc_queue (s : State) (q pos : Nat) (f : Desc → Desc) : (s.setDesc q pos f).queue q = { s.queue q with descs := (s.queue q).descs.map (fun d => if d.pos = pos then f d else d) } := by
  unfold State.setDesc; rw [queue_setQueue_self]

/-- A descriptor is finished. -/
theorem finishDesc_queue (s : State) (q pos a b : Nat) : (s.finishDesc q pos a b).queue q = (s.queue q).withDone pos a b := by
  unfold State.finishDesc; rw [setDesc_queue]; rfl

/-- Another queue stays. -/
theorem setDesc_other (s : State) (q pos : Nat) (f : Desc → Desc) {j : Nat} (h : j ≠ q) : (s.setDesc q pos f).queue j = s.queue j := by
  unfold State.setDesc; rw [queue_setQueue, if_neg (fun e => h e.symm)]

/-- A descriptor fails. -/
theorem failDesc_facts (s : State) (q pos c : Nat) :
    (s.failDesc q pos c).queue q = { (s.queue q).withDone pos c 0 with code := BitVec.ofNat 16 c }
    ∧ (s.failDesc q pos c).host.descFail = satAdd s.host.descFail 1 := by
  unfold State.failDesc
  extract_lets -merge s0 s1 a b s2
  have h : s0.queue q = s.queue q ∧ s0.host.descFail = s.host.descFail := by
    unfold s0
    split
    · rename_i d _
      have o := State.withdraw_only s q d
      exact ⟨o.queue q, (o.get .queues).2⟩
    · exact ⟨rfl, rfl⟩
  have o1 := State.endIntake_only (s2.raiseOnce q c (unitPort (queuePort q)) q pos)
  have o2 := State.raiseOnce_only s2 q c (unitPort (queuePort q)) q pos false
  refine ⟨?_, ?_⟩
  · rw [o1.queue q, o2.queue q]
    have k : s2.queue q = (s1.setQueue q (fun x => { x with code := BitVec.ofNat 16 c })).queue q := rfl
    rw [k, queue_setQueue_self, finishDesc_queue, h.1]
  · rw [(o1.get .queues).2, (o2.get .queues).2]
    show satAdd s0.host.descFail 1 = _
    rw [h.2]

end Sys2Proof.Machine
end

