-- ==== Sys2Proof/Laws/Slots.lean ====
section
/-! SUPPORT. Laws of the matrix stages' slots, of stored tiles and of the tile stores (R118 to R131). -/

-- Checked one theorem at a time: the package as one text then needs less memory.
set_option Elab.async false

namespace Sys2Proof.Machine

/-- Bytes written to a tile store are read back, and every other byte stays. -/
theorem tileWrite_facts (s : State) (h : s.memoryCanonical) (tile addr : Nat) (bs : Bytes) :
    (s.tileWrite tile addr bs).tileRead tile addr bs.length = bs ∧ s.tilesKept (s.tileWrite tile addr bs) tile addr bs.length := by
  refine ⟨Memory.readBytes_writeBytes bs _ _ h.2, fun a ha => ?_⟩
  exact Memory.read_writeBytes_of_outside bs _ _ _ h.2 ha

/-- A slot after a change of one. -/
theorem slot_setSlot (s : State) (m n : StageId) (k j : Nat) (x : Slot) (hk : k < 32) (hj : j < 32) :
    (s.setSlot m k x).slot n j = if n = m ∧ j = k then x else s.slot n j := by
  unfold State.setSlot State.slot
  simp only [NMap.getD_insert]
  have : (stageIx m * 32 + k = stageIx n * 32 + j) ↔ (n = m ∧ j = k) := by
    constructor
    · intro h
      have e : stageIx m = stageIx n := by omega
      refine ⟨?_, by omega⟩
      obtain ⟨⟨t, ht⟩, ⟨l, hl⟩, b⟩ := m
      obtain ⟨⟨t', ht'⟩, ⟨l', hl'⟩, b'⟩ := n
      simp only [stageIx] at e
      have hb : b2n b < 2 := by cases b <;> simp [b2n]
      have hb' : b2n b' < 2 := by cases b' <;> simp [b2n]
      have e1 : t = t' := by omega
      have e2 : l = l' := by omega
      have e3 : b2n b = b2n b' := by omega
      have e4 : b = b' := by revert e3; cases b <;> cases b' <;> simp [b2n]
      subst e1 e2 e4; rfl
    · rintro ⟨rfl, rfl⟩; rfl
  simp only [this]

/-- SLOT has five bits. -/
theorem mSlot_lt (w : Bytes) : mSlot w < 32 := by
  unfold mSlot bits
  exact Nat.mod_lt _ (by decide)

/-- An entry after a change of one. -/
theorem put_entry (x : Slot) (i j : Nat) (e : AccEntry) : (x.put i e).entry j = if i = j then e else x.entry j := by
  unfold Slot.put Slot.entry
  simp only [NMap.getD_insert]
  rfl

/-- An entry after a chunk into one. -/
theorem addChunk_entry (x : Slot) (i j : Nat) (c : Chunk) (a : Int) :
    (x.addChunk i c a).entry j = if i = j then ((x.entry i).addChunk c a).1 else x.entry j := by
  have : (x.addChunk i c a).entry j = (x.put i ((x.entry i).addChunk c a).1).entry j := rfl
  rw [this, put_entry]

/-- A chunk leaves the anchor. -/
theorem addChunk_anchor (x : Slot) (i : Nat) (c : Chunk) (a : Int) : (x.addChunk i c a).anchor = x.anchor := rfl

/-- A saturating count as a number. -/
theorem satAdd_toNat {n : Nat} (c : BitVec n) (k : Nat) : (satAdd c k).toNat = min (2 ^ n - 1) (c.toNat + k) := by
  unfold satAdd
  rw [BitVec.toNat_ofNat, Nat.mod_eq_of_lt]
  have : 0 < 2 ^ n := Nat.pos_of_ne_zero (by simp)
  omega

/-- A chunk is counted. -/
theorem addChunk_chunks (x : Slot) (i : Nat) (c : Chunk) (a : Int) :
    (x.addChunk i c a).chunks.toNat = min (2 ^ 32 - 1) (x.chunks.toNat + 1) := by
  show (satAdd x.chunks 1).toNat = _
  rw [satAdd_toNat]

/-- One chunk into each of the first n entries. -/
theorem fold_entry {f : Nat → Chunk} {a : Int} (x : Slot) (n : Nat) :
    let y := (List.range n).foldl (fun x i => x.addChunk i (f i) a) x
    (∀ j, y.entry j = if j < n then ((x.entry j).addChunk (f j) a).1 else x.entry j) ∧ y.anchor = x.anchor
      ∧ y.chunks.toNat = min (2 ^ 32 - 1) (x.chunks.toNat + n) := by
  induction n with
  | zero =>
    refine ⟨fun j => by simp, rfl, ?_⟩
    have := x.chunks.isLt
    simp; omega
  | succ n ih =>
    simp only [List.range_succ, List.foldl_append, List.foldl_cons, List.foldl_nil] at *
    obtain ⟨h1, h2, h3⟩ := ih
    refine ⟨fun j => ?_, by rw [addChunk_anchor, h2], by rw [addChunk_chunks, h3]; omega⟩
    rw [addChunk_entry, h1, h1]
    by_cases hj : n = j
    · subst hj; simp
    · rw [if_neg hj]
      by_cases h : j < n
      · rw [if_pos h, if_pos (by omega)]
      · rw [if_neg h, if_neg (by omega)]

/-- What an MMA makes of a slot, entry by entry. -/
theorem mmaSlot_facts (s : State) (m : StageId) (w : Bytes) (x : Slot) :
    (s.mmaSlot m w x).anchor = x.anchor
    ∧ (s.mmaSlot m w x).chunks.toNat = min (2 ^ 32 - 1) (x.chunks.toNat + 8192 * mPasses w * (mChunks w).length)
    ∧ ∀ i, i < 8192 → (s.mmaSlot m w x).entry i = (List.range (mPasses w)).foldl (fun x pass => (mChunks w).foldl (fun x ch =>
        (x.addChunk (s.mmaChunk m w pass (i / 64) (i % 64) ch.1 ch.2) (mAdjust w)).1) x) (x.entry i) := by
  have A : ∀ (pass : Nat) (cs : List (Nat × Nat)) (x : Slot),
      let y := cs.foldl (fun x ch => (List.range 8192).foldl (fun x i =>
        x.addChunk i (s.mmaChunk m w pass (i / 64) (i % 64) ch.1 ch.2) (mAdjust w)) x) x
      y.anchor = x.anchor ∧ y.chunks.toNat = min (2 ^ 32 - 1) (x.chunks.toNat + 8192 * cs.length)
      ∧ ∀ i, i < 8192 → y.entry i = cs.foldl (fun x ch =>
        (x.addChunk (s.mmaChunk m w pass (i / 64) (i % 64) ch.1 ch.2) (mAdjust w)).1) (x.entry i) := by
    intro pass cs
    induction cs with
    | nil => intro x; exact ⟨rfl, by have := x.chunks.isLt; simp; omega, fun i _ => rfl⟩
    | cons c cs ih =>
      intro x
      simp only [List.foldl_cons, List.length_cons]
      have f := fold_entry (f := fun i => s.mmaChunk m w pass (i / 64) (i % 64) c.1 c.2) (a := mAdjust w) x 8192
      simp only [] at f
      obtain ⟨f1, f2, f3⟩ := f
      obtain ⟨g1, g2, g3⟩ := ih ((List.range 8192).foldl (fun x i =>
        x.addChunk i (s.mmaChunk m w pass (i / 64) (i % 64) c.1 c.2) (mAdjust w)) x)
      refine ⟨g1.trans f2, by rw [g2, f3]; omega, fun i hi => ?_⟩
      rw [g3 i hi, f1 i, if_pos hi]
  have B : ∀ (ps : List Nat) (x : Slot),
      let y := ps.foldl (fun x pass => (mChunks w).foldl (fun x ch => (List.range 8192).foldl (fun x i =>
        x.addChunk i (s.mmaChunk m w pass (i / 64) (i % 64) ch.1 ch.2) (mAdjust w)) x) x) x
      y.anchor = x.anchor ∧ y.chunks.toNat = min (2 ^ 32 - 1) (x.chunks.toNat + 8192 * ps.length * (mChunks w).length)
      ∧ ∀ i, i < 8192 → y.entry i = ps.foldl (fun x pass => (mChunks w).foldl (fun x ch =>
        (x.addChunk (s.mmaChunk m w pass (i / 64) (i % 64) ch.1 ch.2) (mAdjust w)).1) x) (x.entry i) := by
    intro ps
    induction ps with
    | nil => intro x; exact ⟨rfl, by have := x.chunks.isLt; simp; omega, fun i _ => rfl⟩
    | cons p ps ih =>
      intro x
      simp only [List.foldl_cons, List.length_cons]
      obtain ⟨f1, f2, f3⟩ := A p (mChunks w) x
      obtain ⟨g1, g2, g3⟩ := ih ((mChunks w).foldl (fun x ch => (List.range 8192).foldl (fun x i =>
        x.addChunk i (s.mmaChunk m w p (i / 64) (i % 64) ch.1 ch.2) (mAdjust w)) x) x)
      refine ⟨g1.trans f1, ?_, fun i hi => ?_⟩
      · rw [g2, f2]
        have : 8192 * (ps.length + 1) * (mChunks w).length = 8192 * ps.length * (mChunks w).length + 8192 * (mChunks w).length := by ring
        rw [this]; omega
      · rw [g3 i hi, f3 i hi]
  have := B (List.range (mPasses w)) x
  rw [List.length_range] at this
  exact this

/-- NAN stays set over a chunk. -/
theorem nan_sticky (x : AccEntry) (c : Chunk) (a : Int) (h : x.nan = true) : (x.addChunk c a).1.nan = true := by
  unfold AccEntry.addChunk AccEntry.addInt; simp [h]

/-- Every entry has NAN set. -/
theorem allNaN_facts (x : Slot) : x.allNaN.anchor = x.anchor ∧ ∀ i, i < 8192 → (x.allNaN.entry i).nan = true := by
  unfold Slot.allNaN
  have : ∀ n, ((List.range n).foldl (fun x i => x.put i { x.entry i with nan := true }) x).anchor = x.anchor
      ∧ ∀ i, i < n → (((List.range n).foldl (fun x i => x.put i { x.entry i with nan := true }) x).entry i).nan = true := by
    intro n
    induction n with
    | zero => exact ⟨rfl, fun i h => absurd h (by omega)⟩
    | succ n ih =>
      simp only [List.range_succ, List.foldl_append, List.foldl_cons, List.foldl_nil]
      refine ⟨ih.1, fun i hi => ?_⟩
      rw [put_entry]
      split
      · rfl
      · exact ih.2 i (by omega)
  exact this 8192

/-- As many bytes as asked. -/
theorem readBytes_length (m : Memory) (a n : Nat) : (Memory.readBytes m a n).length = n := by
  induction n generalizing a with
  | zero => rfl
  | succ n ih => simp [Memory.readBytes, ih]

/-- The bytes behind the first k. -/
theorem readBytes_drop (m : Memory) (a n k : Nat) (h : k ≤ n) : (Memory.readBytes m a n).drop k = Memory.readBytes m (a + k) (n - k) := by
  induction k generalizing a n with
  | zero => simp
  | succ k ih =>
    obtain ⟨n, rfl⟩ : ∃ j, n = j + 1 := ⟨n - 1, by omega⟩
    simp only [Memory.readBytes, List.drop_succ_cons]
    rw [ih (a + 1) n (by omega), show a + 1 + k = a + (k + 1) by omega, show n + 1 - (k + 1) = n - k by omega]

/-- The first k bytes. -/
theorem readBytes_take (m : Memory) (a n k : Nat) (h : k ≤ n) : (Memory.readBytes m a n).take k = Memory.readBytes m a k := by
  induction k generalizing a n with
  | zero => simp [Memory.readBytes]
  | succ k ih =>
    obtain ⟨n, rfl⟩ : ∃ j, n = j + 1 := ⟨n - 1, by omega⟩
    simp only [Memory.readBytes, List.take_succ_cons]
    rw [ih (a + 1) n (by omega)]

/-- A slice of bytes read. -/
theorem slice_readBytes (m : Memory) (a n off len : Nat) (h : off + len ≤ n) :
    slice (Memory.readBytes m a n) off len = Memory.readBytes m (a + off) len := by
  unfold slice
  simp only []
  rw [readBytes_drop _ _ _ _ (by omega), readBytes_take _ _ _ _ (by omega), readBytes_length]
  simp

/-- A slice of tile store bytes. -/
theorem slice_tileRead (s : State) (t a n off len : Nat) (h : off + len ≤ n) : slice (s.tileRead t a n) off len = s.tileRead t (a + off) len := by
  unfold State.tileRead
  rw [slice_readBytes _ _ _ _ _ h]
  unfold tileAddr; rw [show t * tileBytes + a + off = t * tileBytes + (a + off) by omega]

/-- An entry takes 24 bytes (R120). -/
theorem encode_length (x : AccEntry) : x.encode.length = 24 := by
  have : ∀ n k, (leBytes n k).length = n := by
    intro n; induction n with
    | zero => intro k; rfl
    | succ n ih => intro k; simp [leBytes, ih]
  simp [AccEntry.encode, this]

/-- A number takes the bytes it is given. -/
theorem leBytes_length (n k : Nat) : (leBytes n k).length = n := by
  induction n generalizing k with
  | zero => rfl
  | succ n ih => simp [leBytes, ih]

/-- A status takes 16 bytes (R126). -/
theorem statusBytes_length (x : Slot) : x.statusBytes.length = 16 := by simp [Slot.statusBytes, leBytes_length]

/-- The length of padded bytes. -/
theorem padTo_length (n : Nat) (b : Bytes) : (padTo n b).length = max n b.length := by
  simp [padTo]; omega

/-- The length of pieces of one length. -/
theorem flatten_const {α : Type} (l : List (List α)) (k : Nat) (h : ∀ x ∈ l, x.length = k) : l.flatten.length = k * l.length := by
  induction l with
  | nil => simp
  | cons a l ih =>
    simp only [List.flatten_cons, List.length_append, List.length_cons]
    rw [ih (fun x hx => h x (by simp [hx])), h a (by simp)]; ring

/-- A stored tile takes 197,120 bytes (R126). -/
theorem stored_length (x : Slot) : x.stored.length = 197120 := by
  unfold Slot.stored
  rw [List.length_append, padTo_length, statusBytes_length, flatten_const _ 24]
  · simp
  · intro y hy
    simp only [List.mem_map] at hy
    obtain ⟨i, _, rfl⟩ := hy
    exact encode_length _

/-- The fold of a JOIN. -/
theorem joinFold (tile : Bytes) (n : Nat) (x : Slot) :
    let r := (List.range n).foldl (fun (acc : Slot × Bool) i =>
      let j := (acc.1.entry i).join (AccEntry.decode (slice tile (24 * i) 24))
      (acc.1.put i j.1, acc.2 || j.2)) (x, false)
    (∀ j, r.1.entry j = if j < n then ((x.entry j).join (AccEntry.decode (slice tile (24 * j) 24))).1 else x.entry j)
    ∧ r.1.anchor = x.anchor ∧ r.1.loss = x.loss ∧ r.1.chunks = x.chunks
    ∧ (r.2 = true ↔ ∃ i, i < n ∧ (x.entry i).anchor ≠ (AccEntry.decode (slice tile (24 * i) 24)).anchor) := by
  induction n with
  | zero => exact ⟨fun j => by simp, rfl, rfl, rfl, by simp⟩
  | succ n ih =>
    simp only [List.range_succ, List.foldl_append, List.foldl_cons, List.foldl_nil] at *
    obtain ⟨h1, h2, h3, h4, h5⟩ := ih
    have hn : (x.entry n) = ((List.range n).foldl (fun (acc : Slot × Bool) i =>
      ((acc.1.put i ((acc.1.entry i).join (AccEntry.decode (slice tile (24 * i) 24))).1), acc.2 || ((acc.1.entry i).join (AccEntry.decode (slice tile (24 * i) 24))).2)) (x, false)).1.entry n := by
      rw [h1 n, if_neg (by omega)]
    rw [← hn]
    refine ⟨fun j => ?_, h2, h3, h4, ?_⟩
    · rw [put_entry, h1]
      by_cases hj : n = j
      · subst hj; simp
      · rw [if_neg hj]
        by_cases h : j < n
        · rw [if_pos h, if_pos (by omega)]
        · rw [if_neg h, if_neg (by omega)]
    · rw [Bool.or_eq_true, h5]
      have jn : ((x.entry n).join (AccEntry.decode (slice tile (24 * n) 24))).2 = true ↔ (x.entry n).anchor ≠ (AccEntry.decode (slice tile (24 * n) 24)).anchor := by
        unfold AccEntry.join
        split
        · simp_all
        · simp_all
      rw [jn]
      constructor
      · rintro (⟨i, hi, h⟩ | h)
        · exact ⟨i, by omega, h⟩
        · exact ⟨n, by omega, h⟩
      · rintro ⟨i, hi, h⟩
        by_cases hin : i = n
        · subst hin; exact .inr h
        · exact .inl ⟨i, by omega, h⟩

/-- JOIN as a fold over a number of entries. -/
theorem joinBytes_eq (x : Slot) (tile : Bytes) : ∃ N, N = 8192 ∧ x.joinBytes tile =
    ((fun (r : Slot × Bool) => ({ r.1 with
      ovf := r.1.ovf || bit 0 (field (slice tile 196608 16) 2 2)
      loss := satAdd r.1.loss (field (slice tile 196608 16) 4 4)
      chunks := satAdd r.1.chunks (field (slice tile 196608 16) 8 4) }, r.2))
    ((List.range N).foldl (fun (acc : Slot × Bool) i =>
      let j := (acc.1.entry i).join (AccEntry.decode (slice tile (24 * i) 24))
      (acc.1.put i j.1, acc.2 || j.2)) (x, false)) : Slot × Bool) := by
  refine ⟨8192, rfl, ?_⟩
  unfold Slot.joinBytes
  simp only []

/-- What a JOIN makes of a slot, entry by entry (R127). -/
theorem joinBytes_facts (x : Slot) (tile : Bytes) :
    (∀ j, j < 8192 → (x.joinBytes tile).1.entry j = ((x.entry j).join (AccEntry.decode (slice tile (24 * j) 24))).1)
    ∧ (x.joinBytes tile).1.anchor = x.anchor
    ∧ (x.joinBytes tile).1.loss = satAdd x.loss (field (slice tile 196608 16) 4 4)
    ∧ (x.joinBytes tile).1.chunks = satAdd x.chunks (field (slice tile 196608 16) 8 4)
    ∧ ((x.joinBytes tile).2 = true ↔ ∃ i, i < 8192 ∧ (x.entry i).anchor ≠ (AccEntry.decode (slice tile (24 * i) 24)).anchor) := by
  obtain ⟨N, hN, e⟩ := joinBytes_eq x tile
  have h := joinFold tile N x
  rw [e, ← hN]
  simp only [] at h ⊢
  obtain ⟨h1, h2, h3, h4, h5⟩ := h
  exact ⟨fun j hj => ((h1 j).trans (if_pos hj)), h2, congrArg (fun z => satAdd z _) h3, congrArg (fun z => satAdd z _) h4, h5⟩

/-- STORE, by its range. -/
theorem exec_store (m : StageId) (w : Bytes) (s : State) : exec (.store m w) s =
    if tileRange (mAddr w) 197120 then .next (s.tileWrite m.tile.val (mAddr w) (s.slot m (mSlot w)).stored) else .fault .tileStoreRange := by
  unfold exec execStore; rfl

/-- JOIN, by its range. -/
theorem exec_join (m : StageId) (w : Bytes) (s : State) : exec (.join m w) s =
    if tileRange (mAddr w) 197120 then .next (s.joinTile m w) else .fault .tileStoreRange := by
  unfold exec execJoin; rfl

/-- The bytes of elements. -/
theorem elementBytes_length (w : Nat) (xs : List Nat) : (elementBytes w xs).length = w * xs.length := by
  unfold elementBytes
  rw [flatten_const _ w]
  · simp
  · intro y hy
    simp only [List.mem_map] at hy
    obtain ⟨i, _, rfl⟩ := hy
    exact leBytes_length _ _

/-- A watch record after a change of one. -/
theorem watchOf_setWatch (s : State) (k j : Nat) (f : Watch → Watch) : (s.setWatch k f).watchOf j = if k = j then f (s.watchOf k) else s.watchOf j := by
  unfold State.setWatch State.watchOf
  rw [NMap.getD_modify]

/-- Exceptions leave LOSS and CHUNKS of a watch record. -/
theorem countExceptions_acc (s : State) (k : Nat) (fs : List Flags) : ((s.countExceptions k fs).watchOf k).counts.accLoss = (s.watchOf k).counts.accLoss
    ∧ ((s.countExceptions k fs).watchOf k).counts.accChunks = (s.watchOf k).counts.accChunks := by
  unfold State.countExceptions
  rw [watchOf_setWatch, if_pos rfl]
  exact ⟨rfl, rfl⟩

/-- Conversions leave LOSS and CHUNKS of a watch record. -/
theorem countConversions_acc (s : State) (k : Nat) (u : Half) (e : Int) (cs : List Converted) (a b c d : Nat) :
    ((s.countConversions k u e cs a b c d).watchOf k).counts.accLoss = (s.watchOf k).counts.accLoss
    ∧ ((s.countConversions k u e cs a b c d).watchOf k).counts.accChunks = (s.watchOf k).counts.accChunks := by
  unfold State.countConversions
  rw [watchOf_setWatch, if_pos rfl]
  simp only []
  split
  · exact ⟨rfl, rfl⟩
  · unfold Watch.observe
    simp only []
    split <;> exact ⟨rfl, rfl⟩

/-- READ, by its range. -/
theorem exec_read (m : StageId) (w : Bytes) (s : State) : exec (.read m w) s =
    if tileRange (mAddr w) (8192 * ((readFmt w).width / 8)) then .next (s.readSlot m w (readFmt w)) else .fault .tileStoreRange := by
  unfold exec execRead; rfl

/-- A READ adds its slot's LOSS and CHUNKS (R130). -/
theorem readCounts_acc (s : State) (m : StageId) (w : Bytes) (f : Fmt) (rs : List (Nat × Flags)) :
    ((s.readCounts m w f rs).watchOf (s.tensorKey (bits 31 16 (mWord w 1)))).counts.accLoss = satAdd (s.watchOf (s.tensorKey (bits 31 16 (mWord w 1)))).counts.accLoss (s.slot m (mSlot w)).loss.toNat
    ∧ ((s.readCounts m w f rs).watchOf (s.tensorKey (bits 31 16 (mWord w 1)))).counts.accChunks = satAdd (s.watchOf (s.tensorKey (bits 31 16 (mWord w 1)))).counts.accChunks (s.slot m (mSlot w)).chunks.toNat := by
  unfold State.readCounts
  extract_lets -merge x key srcs s1
  unfold State.slotCounts
  rw [watchOf_setWatch, if_pos rfl]
  have : (s1.watchOf key).counts.accLoss = (s.watchOf key).counts.accLoss ∧ (s1.watchOf key).counts.accChunks = (s.watchOf key).counts.accChunks := by
    unfold s1
    split
    · exact countExceptions_acc _ _ _
    · exact countConversions_acc _ _ _ _ _ _ _ _ _
  exact ⟨congrArg (fun z => satAdd z _) this.1, congrArg (fun z => satAdd z _) this.2⟩

/-- An event that the step has not raised for the mark is raised. -/
theorem raised_once {s : State} {c mark : Nat} {u : Half} {i q : Nat} (h : s.events.once.contains (c, mark) = false) :
    Raised (BitVec.ofNat 16 c) u s (s.raiseOnce mark c u i q) := by
  unfold State.raiseOnce
  rw [if_neg (by simpa using h)]
  have := Raised.of_raise s c u i q false
  exact this

/-- An event raised before operations that raise none. -/
theorem Raised.to {s t' t : State} {c u} (h : Raised c u s t') (e : t.events = t'.events) : Raised c u s t := by
  unfold Raised at *; rw [e]; exact h

/-- The number that bytes of a number spell. -/
theorem leNat_leBytes (n k : Nat) : leNat (leBytes n k) = k % 256 ^ n := by
  induction n generalizing k with
  | zero => simp [leBytes, leNat, Nat.mod_one]
  | succ n ih =>
    simp only [leBytes, leNat, ih, BitVec.toNat_ofNat]
    have : k % 256 ^ (n + 1) = k % 256 + 256 * (k / 256 % 256 ^ n) := by rw [Nat.pow_succ', Nat.mod_mul]
    omega

/-- A slice inside the first of two strings. -/
theorem slice_append_left (a b : Bytes) (o n : Nat) (h : o + n ≤ a.length) : slice (a ++ b) o n = slice a o n := by
  unfold slice
  simp only [List.drop_append_of_le_length (show o ≤ a.length by omega)]
  rw [List.take_append_of_le_length (by simp; omega)]

/-- A slice behind the first of two strings. -/
theorem slice_append_right (a b : Bytes) (o n : Nat) (h : a.length ≤ o) : slice (a ++ b) o n = slice b (o - a.length) n := by
  unfold slice
  have : (a ++ b).drop o = b.drop (o - a.length) := by
    rw [List.drop_append, List.drop_eq_nil_of_le h]; simp
  rw [this]

/-- The whole string. -/
theorem slice_all (a : Bytes) (n : Nat) (h : a.length = n) : slice a 0 n = a := by
  unfold slice; subst h; simp

/-- A field written and read. -/
theorem field_leBytes (n k : Nat) : field (leBytes n k) 0 n = k % 256 ^ n := by
  unfold field; rw [slice_all _ _ (leBytes_length _ _), leNat_leBytes]

/-- A field inside the first of two strings. -/
theorem field_left (a b : Bytes) (o n : Nat) (h : o + n ≤ a.length) : field (a ++ b) o n = field a o n := by
  unfold field; rw [slice_append_left _ _ _ _ h]

/-- A field behind the first of two strings. -/
theorem field_right (a b : Bytes) (o n : Nat) (h : a.length ≤ o) : field (a ++ b) o n = field b (o - a.length) n := by
  unfold field; rw [slice_append_right _ _ _ _ h]

/-- 24 bytes spell an entry (R120). -/
theorem decode_encode (x : AccEntry) : AccEntry.decode x.encode = x := by
  have f1 : field x.encode 0 20 = x.n.toNat := by
    unfold AccEntry.encode
    rw [List.append_assoc, field_left _ _ _ _ (by simp [leBytes_length]), field_leBytes]
    exact Nat.mod_eq_of_lt (by have := x.n.isLt; norm_num at *; omega)
  have f2 : field x.encode 20 2 = x.anchor.toNat := by
    unfold AccEntry.encode
    rw [List.append_assoc, field_right _ _ _ _ (by simp [leBytes_length]), leBytes_length,
      field_left _ _ _ _ (by simp [leBytes_length]), field_leBytes]
    exact Nat.mod_eq_of_lt (by have := x.anchor.isLt; norm_num at *; omega)
  have f3 : field x.encode 22 2 = b2n x.ovf + 2 * b2n x.nan + 4 * b2n x.pinf + 8 * b2n x.ninf := by
    unfold AccEntry.encode
    rw [field_right _ _ _ _ (by simp [leBytes_length]), List.length_append, leBytes_length, leBytes_length, field_leBytes]
    cases x.ovf <;> cases x.nan <;> cases x.pinf <;> cases x.ninf <;> rfl
  unfold AccEntry.decode
  simp only [f1, f2, f3, BitVec.ofNat_toNat, BitVec.setWidth_eq]
  obtain ⟨n, a, o, na, p, q⟩ := x
  cases o <;> cases na <;> cases p <;> cases q <;> simp [bit, b2n]

/-- A piece of pieces of one length. -/
theorem slice_flatten (l : List Bytes) (k i : Nat) (h : ∀ x ∈ l, x.length = k) (hi : i < l.length) : slice l.flatten (k * i) k = l[i] := by
  induction l generalizing i with
  | nil => simp at hi
  | cons a l ih =>
    have ha := h a (by simp)
    simp only [List.flatten_cons]
    cases i with
    | zero =>
      rw [Nat.mul_zero, slice_append_left _ _ _ _ (by omega), slice_all _ _ ha]; rfl
    | succ i =>
      rw [slice_append_right _ _ _ _ (by rw [ha]; exact Nat.le_mul_of_pos_right _ (by omega)), ha,
        show k * (i + 1) - k = k * i by rw [Nat.mul_add]; omega, ih i (fun x hx => h x (by simp [hx])) (by simpa using hi)]
      rfl

/-- The bytes of entries. -/
theorem encodes_length (x : Slot) (N : Nat) : ((List.range N).map (fun i => (x.entry i).encode)).flatten.length = 24 * N := by
  rw [flatten_const _ 24]
  · rw [List.length_map, List.length_range]
  · intro y hy
    simp only [List.mem_map] at hy
    obtain ⟨i, _, rfl⟩ := hy
    exact encode_length _

/-- The bytes of one of them. -/
theorem encodes_slice (x : Slot) (N i : Nat) (r : Bytes) (hi : i < N) :
    slice (((List.range N).map (fun i => (x.entry i).encode)).flatten ++ r) (24 * i) 24 = (x.entry i).encode := by
  rw [slice_append_left _ _ _ _ (by rw [encodes_length]; omega), slice_flatten _ 24 i]
  · rw [List.getElem_map, List.getElem_range]
  · intro y hy
    simp only [List.mem_map] at hy
    obtain ⟨i, _, rfl⟩ := hy
    exact encode_length _
  · simpa using hi

/-- The status of a stored tile (R126). -/
theorem stored_status (x : Slot) : slice x.stored 196608 16 = x.statusBytes := by
  unfold Slot.stored
  rw [slice_append_right _ _ _ _ (by rw [encodes_length])]
  rw [encodes_length, show 196608 - 24 * 8192 = 0 from rfl]
  unfold padTo
  rw [slice_append_left _ _ _ _ (by rw [statusBytes_length]), slice_all _ _ (statusBytes_length x)]

/-- An entry of a stored tile (R126). -/
theorem stored_entry (x : Slot) (i : Nat) (hi : i < 8192) : slice x.stored (24 * i) 24 = (x.entry i).encode := by
  unfold Slot.stored
  exact encodes_slice x 8192 i _ hi

/-- An integer in range is kept. -/
theorem clamp_in {q : Int} (h1 : l160Min ≤ q) (h2 : q ≤ l160Max) : clamp160 q = (q, false) := by
  unfold clamp160
  rw [if_neg (by omega), if_neg (by omega)]

/-- An L160 integer is in range. -/
theorem toInt_range (n : BitVec 160) : l160Min ≤ n.toInt ∧ n.toInt ≤ l160Max := by
  have h1 := BitVec.toInt_lt (x := n)
  have h2 := BitVec.le_toInt (x := n)
  unfold l160Min l160Max
  norm_num at *
  omega

/-- An entry joined into an initialised one (R127). -/
theorem join_blank (a : BitVec 10) (y : AccEntry) (h : y.anchor = a) : (({ anchor := a } : AccEntry).join y) = (y, false) := by
  unfold AccEntry.join
  rw [if_pos h.symm]
  unfold AccEntry.addInt
  have z : (({ anchor := a } : AccEntry).n).toInt = 0 := rfl
  simp only [z, Int.zero_add]
  rw [clamp_in (toInt_range y.n).1 (toInt_range y.n).2]
  obtain ⟨n, b, o, na, p, q⟩ := y
  simp only at h
  subst h
  simp

/-- A stored tile read back (R126, R127). -/
theorem storedSlot_facts (x : Slot) (h : ∀ i, i < 8192 → (x.entry i).anchor = x.anchor) :
    (storedSlot x.stored).2 = false ∧ (storedSlot x.stored).1.anchor = x.anchor
      ∧ (storedSlot x.stored).1.loss = x.loss ∧ (storedSlot x.stored).1.chunks = x.chunks
      ∧ ∀ i, i < 8192 → (storedSlot x.stored).1.entry i = x.entry i := by
  have fa : field x.stored 196608 2 = x.anchor.toNat := by
    have : slice x.stored 196608 2 = slice (slice x.stored 196608 16) 0 2 := by
      have e : ∀ (b : Bytes) o, o + 16 ≤ b.length → slice b o 2 = slice (slice b o 16) 0 2 := by
        intro b o hb
        unfold slice; simp [Nat.min_eq_left (show 16 ≤ b.length - o by omega), List.take_take]
      exact e _ _ (by rw [stored_length]; omega)
    unfold field
    rw [this, stored_status]
    unfold Slot.statusBytes
    simp only [List.append_assoc]
    rw [slice_append_left _ _ _ _ (by rw [leBytes_length]), slice_all _ _ (leBytes_length _ _), leNat_leBytes]
    exact Nat.mod_eq_of_lt (by have := x.anchor.isLt; norm_num at *; omega)
  have hb : BitVec.ofNat 10 (field x.stored 196608 2) = x.anchor := by rw [fa]; simp
  unfold storedSlot
  rw [hb]
  obtain ⟨h1, h2, h3, h4, h5⟩ := joinBytes_facts (Slot.init x.anchor) x.stored
  have en : ∀ i, (Slot.init x.anchor).entry i = { anchor := x.anchor } := fun i => rfl
  refine ⟨?_, h2, ?_, ?_, ?_⟩
  · rw [Bool.eq_false_iff, ne_eq, h5]
    rintro ⟨i, hi, hne⟩
    rw [stored_entry x i hi, decode_encode, en] at hne
    exact hne (h i hi).symm
  · rw [h3, stored_status]
    have : field x.statusBytes 4 4 = x.loss.toNat := by
      unfold Slot.statusBytes
      simp only [List.append_assoc]
      rw [field_right _ _ _ _ (by rw [leBytes_length]; omega), leBytes_length, field_right _ _ _ _ (by rw [leBytes_length]), leBytes_length,
        field_left _ _ _ _ (by rw [leBytes_length]), field_leBytes]
      exact Nat.mod_eq_of_lt (by have := x.loss.isLt; norm_num at *; omega)
    rw [this]
    apply BitVec.eq_of_toNat_eq
    rw [satAdd_toNat]
    have := x.loss.isLt
    simp [Slot.init]; omega
  · rw [h4, stored_status]
    have : field x.statusBytes 8 4 = x.chunks.toNat := by
      unfold Slot.statusBytes
      simp only [List.append_assoc]
      rw [field_right _ _ _ _ (by rw [leBytes_length]; omega), leBytes_length, field_right _ _ _ _ (by rw [leBytes_length]; omega), leBytes_length,
        field_right _ _ _ _ (by rw [leBytes_length]), leBytes_length, field_left _ _ _ _ (by rw [leBytes_length]), field_leBytes]
      exact Nat.mod_eq_of_lt (by have := x.chunks.isLt; norm_num at *; omega)
    rw [this]
    apply BitVec.eq_of_toNat_eq
    rw [satAdd_toNat]
    have := x.chunks.isLt
    simp [Slot.init]; omega
  · intro i hi
    rw [h1 i hi, stored_entry x i hi, decode_encode, en, join_blank _ _ (h i hi)]

/-- The flags of an entry as four bits in a number. -/
theorem nibble_lt (x : AccEntry) : b2n x.ovf + 2 * b2n x.nan + 4 * b2n x.pinf + 8 * b2n x.ninf < 16 := by
  cases x.ovf <;> cases x.nan <;> cases x.pinf <;> cases x.ninf <;> decide

/-- A slice of a slice. -/
theorem slice_slice (b : Bytes) (o n k : Nat) (hk : k ≤ n) (hb : o + n ≤ b.length) : slice b o k = slice (slice b o n) 0 k := by
  unfold slice; simp [Nat.min_eq_left (show n ≤ b.length - o by omega), List.take_take, Nat.min_eq_left hk]

/-- ANCHOR of a status block. -/
theorem statusBytes_anchor (x : Slot) : slice (padTo 512 x.statusBytes) 0 2 = leBytes 2 x.anchor.toNat := by
  unfold padTo
  rw [slice_append_left _ _ _ _ (by rw [statusBytes_length]; omega)]
  unfold Slot.statusBytes
  simp only [List.append_assoc]
  rw [slice_append_left _ _ _ _ (by rw [leBytes_length]), slice_all _ _ (leBytes_length _ _)]

/-- The integers of an exact partial. -/
theorem values_length (x : Slot) (N : Nat) : ((List.range N).map (fun i => leBytes 20 (x.entry i).n.toNat)).flatten.length = 20 * N := by
  rw [flatten_const _ 20]
  · rw [List.length_map, List.length_range]
  · intro y hy
    simp only [List.mem_map] at hy
    obtain ⟨i, _, rfl⟩ := hy
    exact leBytes_length _ _

/-- The entries of an expanded partial. -/
theorem expand_partial (x : Slot) (V F : Bytes) (N : Nat) (h : ∀ i, i < N → (x.entry i).anchor = x.anchor)
    (hV : V.length = 163840) (hF : F.length = 4096) (hN : N ≤ 8192)
    (eV : ∀ i, i < N → slice V (20 * i) 20 = leBytes 20 (x.entry i).n.toNat)
    (eF : ∀ j, j < 4096 → field F j 1 = (b2n (x.entry (2 * j)).ovf + 2 * b2n (x.entry (2 * j)).nan + 4 * b2n (x.entry (2 * j)).pinf + 8 * b2n (x.entry (2 * j)).ninf)
      + 16 * (b2n (x.entry (2 * j + 1)).ovf + 2 * b2n (x.entry (2 * j + 1)).nan + 4 * b2n (x.entry (2 * j + 1)).pinf + 8 * b2n (x.entry (2 * j + 1)).ninf)) :
    (List.range N).map (fun i =>
      slice (V ++ F ++ padTo 512 x.statusBytes) (20 * i) 20 ++ slice (slice (V ++ F ++ padTo 512 x.statusBytes) 167936 512) 0 2
        ++ leBytes 2 (if i % 2 = 0 then field (V ++ F ++ padTo 512 x.statusBytes) (163840 + i / 2) 1 % 16
          else field (V ++ F ++ padTo 512 x.statusBytes) (163840 + i / 2) 1 / 16))
    = (List.range N).map (fun i => (x.entry i).encode) := by
  apply List.map_congr_left
  intro i hi
  simp only [List.mem_range] at hi
  have st : slice (V ++ F ++ padTo 512 x.statusBytes) 167936 512 = padTo 512 x.statusBytes := by
    rw [slice_append_right _ _ _ _ (by simp [hV, hF]), List.length_append, hV, hF]
    rw [slice_all _ _ (by rw [padTo_length, statusBytes_length]; rfl)]
  have fl : field (V ++ F ++ padTo 512 x.statusBytes) (163840 + i / 2) 1 = field F (i / 2) 1 := by
    rw [field_left _ _ _ _ (by simp [hV, hF]; omega), field_right _ _ _ _ (by omega), hV,
      Nat.add_sub_cancel_left]
  rw [st, statusBytes_anchor, fl, eF _ (by omega), List.append_assoc V, slice_append_left _ _ _ _ (by omega), eV i hi]
  unfold AccEntry.encode
  rw [h i hi]
  have n1 := nibble_lt (x.entry (2 * (i / 2)))
  have n2 := nibble_lt (x.entry (2 * (i / 2) + 1))
  have key : ∀ (P : Bytes) (u v : Nat), u = v → P ++ leBytes 2 u = P ++ leBytes 2 v := fun P u v h => by rw [h]
  apply key
  split
  · have e : x.entry (2 * (i / 2)) = x.entry i := by rw [show 2 * (i / 2) = i by omega]
    rw [e] at n1 ⊢
    omega
  · have e : x.entry (2 * (i / 2) + 1) = x.entry i := by rw [show 2 * (i / 2) + 1 = i by omega]
    rw [e] at n2 ⊢
    omega

/-- The parts of an exact partial (R131). -/
theorem partial_parts (x : Slot) : ∃ V F, x.partialBytes = V ++ F ++ padTo 512 x.statusBytes ∧ V.length = 163840 ∧ F.length = 4096
    ∧ (∀ i, i < 8192 → slice V (20 * i) 20 = leBytes 20 (x.entry i).n.toNat)
    ∧ (∀ j, j < 4096 → field F j 1 = (b2n (x.entry (2 * j)).ovf + 2 * b2n (x.entry (2 * j)).nan + 4 * b2n (x.entry (2 * j)).pinf + 8 * b2n (x.entry (2 * j)).ninf)
      + 16 * (b2n (x.entry (2 * j + 1)).ovf + 2 * b2n (x.entry (2 * j + 1)).nan + 4 * b2n (x.entry (2 * j + 1)).pinf + 8 * b2n (x.entry (2 * j + 1)).ninf)) := by
  unfold Slot.partialBytes
  simp only []
  refine ⟨_, _, rfl, ?_, ?_, ?_, ?_⟩
  · rw [values_length]
  · rw [List.length_map, List.length_range]
  · intro i hi
    rw [slice_flatten _ 20 i]
    · rw [List.getElem_map, List.getElem_range]
    · intro y hy
      simp only [List.mem_map] at hy
      obtain ⟨i, _, rfl⟩ := hy
      exact leBytes_length _ _
    · rw [List.length_map, List.length_range]; exact hi
  · intro j hj
    have n1 := nibble_lt (x.entry (2 * j))
    have n2 := nibble_lt (x.entry (2 * j + 1))
    have g : ∀ (f : Nat → Byte) (N : Nat), j < N → field ((List.range N).map f) j 1 = (f j).toNat := by
      intro f N hN
      unfold field slice
      have : (((List.range N).map f).drop j).take 1 = [f j] := by
        rw [List.drop_eq_getElem_cons (by simpa using hN)]
        simp
      rw [this]; simp [leNat]
    rw [g _ _ hj]
    rw [BitVec.toNat_ofNat, Nat.mod_eq_of_lt]
    omega

/-- The integer of a chunk at an anchor. -/
theorem addInt_noOvf (x : AccEntry) (q : Int) (o : Bool) (h : (x.addInt q o).ovf = false) :
    x.ovf = false ∧ (x.addInt q o).n.toInt = x.n.toInt + q ∧ o = false := by
  unfold AccEntry.addInt clamp160 at *
  simp only [] at *
  split at h
  · simp at h
  · split at h
    · simp at h
    · rename_i h1 h2
      simp only [Bool.or_false, Bool.or_eq_false_iff] at h
      refine ⟨h.1, ?_, h.2⟩
      rw [if_neg h1, if_neg h2]
      simp only []
      unfold l160Max at h1
      unfold l160Min at h2
      rw [BitVec.toInt_ofInt, Int.bmod_eq_of_le]
      · norm_num at *; omega
      · norm_num at *; omega

/-- A chunk into an entry that does not saturate. -/
theorem addChunk_noOvf (x : AccEntry) (c : Chunk) (a : Int) (h : (x.addChunk c a).1.ovf = false) :
    x.ovf = false ∧ (x.addChunk c a).1.n.toInt = x.n.toInt + (convert160 c.sum a x.anchor.toInt).1 := by
  unfold AccEntry.addChunk at *
  simp only [] at *
  obtain ⟨h1, h2, _⟩ := addInt_noOvf x _ _ h
  exact ⟨h1, h2⟩

/-- What chunks add to an entry while nothing saturates. -/
theorem fold_noOvf (l : List (Chunk × Int)) (x : AccEntry) (h : (l.foldl (fun x c => (x.addChunk c.1 c.2).1) x).ovf = false) :
    let y := l.foldl (fun x c => (x.addChunk c.1 c.2).1) x
    x.ovf = false ∧ y.n.toInt = x.n.toInt + (l.map (fun c => (convert160 c.1.sum c.2 x.anchor.toInt).1)).sum
    ∧ y.anchor = x.anchor ∧ y.nan = (x.nan || l.any (fun c => c.1.nan)) ∧ y.pinf = (x.pinf || l.any (fun c => c.1.pinf))
    ∧ y.ninf = (x.ninf || l.any (fun c => c.1.ninf)) := by
  induction l generalizing x with
  | nil => simpa using h
  | cons c l ih =>
    simp only [List.foldl_cons] at *
    obtain ⟨h1, h2, h3, h4, h5, h6⟩ := ih _ h
    obtain ⟨k1, k2⟩ := addChunk_noOvf x c.1 c.2 h1
    have ka : (x.addChunk c.1 c.2).1.anchor = x.anchor := rfl
    refine ⟨k1, ?_, h3, ?_, ?_, ?_⟩
    · rw [h2, k2, ka]; simp only [List.map_cons, List.sum_cons]; ring
    · rw [h4]; simp only [List.any_cons, ← Bool.or_assoc]; rfl
    · rw [h5]; simp only [List.any_cons, ← Bool.or_assoc]; rfl
    · rw [h6]; simp only [List.any_cons, ← Bool.or_assoc]; rfl

/-- What joined entries of one anchor add while nothing saturates. -/
theorem join_noOvf (l : List AccEntry) (x : AccEntry) (ha : ∀ y ∈ l, y.anchor = x.anchor)
    (h : (l.foldl (fun x y => (x.join y).1) x).ovf = false) :
    let z := l.foldl (fun x y => (x.join y).1) x
    x.ovf = false ∧ z.n.toInt = x.n.toInt + (l.map (fun y => y.n.toInt)).sum ∧ z.anchor = x.anchor
    ∧ z.nan = (x.nan || l.any (·.nan)) ∧ z.pinf = (x.pinf || l.any (·.pinf)) ∧ z.ninf = (x.ninf || l.any (·.ninf)) := by
  induction l generalizing x with
  | nil => simpa using h
  | cons c l ih =>
    simp only [List.foldl_cons] at *
    have hc : c.anchor = x.anchor := ha c (by simp)
    have ka : (x.join c).1.anchor = x.anchor := by unfold AccEntry.join; split <;> rfl
    obtain ⟨h1, h2, h3, h4, h5, h6⟩ := ih (x.join c).1 (fun y hy => by rw [ka]; exact ha y (by simp [hy])) h
    have kj : x.join c = (let z := x.addInt c.n.toInt c.ovf
      ({ z with nan := z.nan || c.nan, pinf := z.pinf || c.pinf, ninf := z.ninf || c.ninf }, false)) := by
      unfold AccEntry.join; rw [if_pos hc.symm]
    rw [kj] at h1 h2 h4 h5 h6
    simp only [] at h1 h2 h4 h5 h6
    obtain ⟨k1, k2, _⟩ := addInt_noOvf x _ _ h1
    rw [kj]
    refine ⟨k1, ?_, ?_, ?_, ?_, ?_⟩
    · rw [h2, k2]; simp only [List.map_cons, List.sum_cons]; ring
    · rw [← kj, h3, ka]
    · rw [h4]; simp only [List.any_cons, ← Bool.or_assoc]; rfl
    · rw [h5]; simp only [List.any_cons, ← Bool.or_assoc]; rfl
    · rw [h6]; simp only [List.any_cons, ← Bool.or_assoc]; rfl

/-- VECTOR_OPERATION, by the operations provided and its range. -/
theorem exec_vec (l : LineId) (i : VecInstr) (c : Check) (s : State) : exec (.vectorOperation l i c) s =
    if !vecProvided i then .refused .notProvided else if vecInRange i then .next ((s.vector l i).checked c) else .fault .tileStoreRange := by
  unfold exec execVectorOperation; rfl

/-- ROW_OPERATION, by its range. -/
theorem exec_row (l : LineId) (i : RowInstr) (s : State) : exec (.rowOperation l i) s =
    if rowInRange i then .next (s.rowOp l i) else .fault .tileStoreRange := by
  unfold exec execRowOperation; rfl

/-- Counting in the watch leaves memory. -/
theorem watch_canonical {s t : State} (o : Only [.watch] s t) (h : s.memoryCanonical) : t.memoryCanonical ∧ t.mem.tiles = s.mem.tiles := by
  have e1 := o.get .hbm; have e2 := o.get .tiles
  simp only [Part.same] at e1 e2
  unfold State.memoryCanonical
  rw [e1.1, e2.1]; exact ⟨h, rfl⟩

/-- Bytes written after counting in the watch. -/
theorem tileWrite_of {s A : State} (o : Only [.watch] s A) (h : s.memoryCanonical) (tile addr : Nat) (bs : Bytes) (n : Nat) (hn : bs.length = n) :
    (A.tileWrite tile addr bs).tileRead tile addr n = bs ∧ s.tilesKept (A.tileWrite tile addr bs) tile addr n := by
  obtain ⟨h1, h2⟩ := watch_canonical o h
  subst hn
  obtain ⟨f1, f2⟩ := tileWrite_facts A h1 tile addr bs
  refine ⟨f1, fun a ha => ?_⟩
  rw [f2 a ha, h2]

/-- The element formats by code (R104). -/
theorem ofCode_bytes {c : Nat} {f : Fmt} (h : Fmt.ofCode c = some f) : (c = 1 ∧ f = binary64) ∨ (c = 2 ∧ f = binary32) ∨ (c = 3 ∧ f = yf16) ∨ (c = 4 ∧ f = yf8e4) ∨ (c = 5 ∧ f = yf8e5) := by
  unfold Fmt.ofCode at h
  split_ifs at h <;> simp_all

/-- As many elements as asked. -/
theorem elements_length (w n : Nat) (b : Bytes) : (elements w n b).length = n := by
  induction n generalizing b with
  | zero => rfl
  | succ n ih => simp [elements, ih]

/-- ATTEND, by its range. -/
theorem exec_attend (l : LineId) (i : AttendInstr) (s : State) : exec (.attend l i) s =
    if attendInRange i false then .next (s.attend l i) else .fault .tileStoreRange := by
  unfold exec execAttend; rfl

/-- ATTEND_BACK, by its range. -/
theorem exec_attendBack (l : LineId) (i : AttendInstr) (s : State) : exec (.attendBack l i) s =
    if attendInRange i true then .next (s.attendBack l i) else .fault .tileStoreRange := by
  unfold exec execAttendBack; rfl

/-- A sub-block keeps the number of accumulators. -/
theorem attendSub_length (s : State) (tile : Nat) (i : AttendInstr) (r : AttnState) (b : SubBlock) (h : r.o.length = i.dh) :
    (s.attendSub tile i r b).1.o.length = i.dh := by
  unfold State.attendSub
  split
  · exact h
  · simp [h, readRows]

/-- The running state of a row after its sub-blocks, and its accumulators. -/
theorem attendRow_facts (s : State) (tile : Nat) (i : AttendInstr) :
    (s.attendRow tile i).1 = (combineOrder i).foldl (fun r b => (s.attendSub tile i r b).1) (attnStart i.dh)
    ∧ (s.attendRow tile i).1.o.length = i.dh := by
  unfold State.attendRow
  suffices k : ∀ (bs : List SubBlock) (r : AttnState × Tally), r.1.o.length = i.dh →
      (bs.foldl (fun (a : AttnState × Tally) b => let y := s.attendSub tile i a.1 b
                                                  (y.1, a.2.append y.2)) r).1 = bs.foldl (fun r b => (s.attendSub tile i r b).1) r.1
      ∧ (bs.foldl (fun r b => (s.attendSub tile i r b).1) r.1).o.length = i.dh by
    have := k (combineOrder i) (attnStart i.dh, {}) (by simp [attnStart])
    exact ⟨this.1, this.1 ▸ this.2⟩
  intro bs
  induction bs with
  | nil => exact fun r h => ⟨rfl, h⟩
  | cons b bs ih => exact fun r h => ih _ (attendSub_length s tile i r.1 b h)

/-- As many reads as asked. -/
theorem readRows_length (x : Slot) (n a : Nat) : (readRows x n a).length = n := by simp [readRows]

/-- Every gradient is of a sub-block of the command. -/
theorem attnGrads_subs (s : State) (tile : Nat) (i : AttendInstr) : ∀ g ∈ (s.attnGrads tile i).1, g.sub ∈ combineOrder i := by
  unfold State.attnGrads
  suffices k : ∀ (d : Nat) (bs : List SubBlock) (a : List AttnGrad × Tally), (∀ g ∈ a.1, g.sub ∈ combineOrder i) → (∀ b ∈ bs, b ∈ combineOrder i) →
      ∀ g ∈ (bs.foldl (fun (a : List AttnGrad × Tally) b => let y := s.attnGradsOf tile i d b
                                                          (a.1 ++ y.1, a.2.append y.2)) a).1, g.sub ∈ combineOrder i from
    k _ _ _ (by simp) (fun _ h => h)
  intro d bs
  induction bs with
  | nil => exact fun a h _ => h
  | cons b bs ih =>
    intro a h hb
    refine ih _ (fun g hg => ?_) (fun x hx => hb x (by simp [hx]))
    simp only [List.mem_append] at hg
    rcases hg with hg | hg
    · exact h g hg
    · unfold State.attnGradsOf at hg
      split at hg
      · simp at hg
      · simp only [List.mem_map] at hg
        obtain ⟨x, _, rfl⟩ := hg
        exact hb b (by simp)

/-- Only the own block adds to dk and dv. -/
theorem foldl_noOwn (s : State) (tile : Nat) (i : AttendInstr) (gs : List AttnGrad) (h : ∀ g ∈ gs, g.sub.block.isNone = false) :
    gs.foldl (fun (st : State) g => if g.sub.block.isNone then st.ownGrad tile i (g.sub.first + g.pos) g.p g.ds else st) s = s := by
  induction gs with
  | nil => rfl
  | cons g gs ih =>
    simp only [List.foldl_cons]
    rw [h g (by simp)]
    simp only [Bool.false_eq_true, if_false]
    exact ih (fun x hx => h x (by simp [hx]))

/-- The gradients of the own block keep memory canonical. -/
theorem wf_ownGrads (s : State) (tile : Nat) (i : AttendInstr) (gs : List AttnGrad) (h : s.memoryCanonical) :
    (gs.foldl (fun (st : State) g => if g.sub.block.isNone then st.ownGrad tile i (g.sub.first + g.pos) g.p g.ds else st) s).memoryCanonical := by
  have e : ∀ (st : State) a x y, st.memoryCanonical → (st.addEntry tile a x y).memoryCanonical := by
    intro st a x y hc
    unfold State.addEntry State.tileWrite State.memoryCanonical at *
    exact ⟨hc.1, Memory.wf_writeBytes _ _ _ hc.2⟩
  have w : ∀ (st : State) t p ds, st.memoryCanonical → (st.ownGrad tile i t p ds).memoryCanonical := by
    intro st t p ds hc
    unfold State.ownGrad
    simp only []
    generalize List.range i.dh = l
    generalize st.halfRow tile i.q i.dh 0 = q
    generalize st.halfRow tile i.dout i.dh 0 = d
    induction l generalizing st with
    | nil => exact hc
    | cons a l ih => exact ih _ (e _ _ _ _ (e _ _ _ _ hc))
  induction gs generalizing s with
  | nil => exact h
  | cons g gs ih =>
    simp only [List.foldl_cons]
    split
    · exact ih _ (w _ _ _ _ h)
    · exact ih _ h

end Sys2Proof.Machine
end

