-- ==== Sys2Proof/Laws/Sends.lean ====
section
/-! SUPPORT. Laws of the exchange stage's messages and of the pen links (R262 to R266, R286, R380). -/

-- Checked one theorem at a time: the package as one text then needs less memory.
set_option Elab.async false

namespace Sys2Proof.Machine

/-- Nothing is found where nothing fits. -/
theorem find_none {α : Type} (l : List α) (p : α → Bool) (h : ∀ x ∈ l, p x = false) : l.find? p = none := by
  rw [List.find?_eq_none]; intro x hx; rw [h x hx]; simp

/-- Units of a message of which none has left enter the send log in order. -/
theorem sendUnits_fresh (us : List ((Bytes × Word) × Nat)) (s : State) (msg : Nat)
    (h : ∀ e ∈ s.fab.sendLog, ∀ u ∈ us, ¬(e.1 = msg ∧ e.2.1 = u.2)) (hn : (us.map (·.2)).Nodup) :
    us.foldl (fun (st : State) u => st.sendUnit msg u.2 (checkWord (padTo 512 u.1.1) u.1.2) u.1.2) s
    = { s with fab.sendLog := s.fab.sendLog ++ us.map (fun u => (msg, u.2, checkWord (padTo 512 u.1.1) u.1.2, u.1.2)) } := by
  induction us generalizing s with
  | nil => simp
  | cons u us ih =>
    simp only [List.foldl_cons, List.map_cons, List.nodup_cons] at *
    have e : s.sendUnit msg u.2 (checkWord (padTo 512 u.1.1) u.1.2) u.1.2 =
        { s with fab.sendLog := s.fab.sendLog ++ [(msg, u.2, checkWord (padTo 512 u.1.1) u.1.2, u.1.2)] } := by
      unfold State.sendUnit
      rw [find_none]
      intro x hx
      have := h x hx u (by simp)
      by_cases h1 : x.1 = msg
      · have h2 : x.2.1 ≠ u.2 := fun e => this ⟨h1, e⟩
        simp [h2]
      · simp [h1]
    rw [e, ih]
    · simp
    · intro x hx v hv
      simp only [List.mem_append, List.mem_singleton] at hx
      rcases hx with hx | rfl
      · exact h x hx v (by simp [hv])
      · rintro ⟨_, h2⟩
        apply hn.1
        simp only at h2
        rw [h2]
        exact List.mem_map_of_mem hv
    · exact hn.2

/-- Units of a message of which none has left are logged and carried (R380). -/
theorem exchangeUnits_fresh (s : State) (dst : Nat) (k : MsgKind) (ident : Nat) (us : List (Bytes × Word)) (h : s.unsent dst k ident) (hu : us ≠ []) :
    s.exchangeUnits dst k ident us = State.transmit { s with fab.sendLog := s.fab.sendLog ++ sendEntries dst k ident us } dst (dataItems k.code ident us) := by
  unfold State.exchangeUnits
  simp only []
  have ha : s.alreadySent (logKey dst k ident) us.length = false := by
    unfold State.alreadySent
    rw [Bool.eq_false_iff]
    intro hc
    rw [List.all_eq_true] at hc
    have := hc 0 (by simp; exact List.length_pos_iff.mpr hu)
    rw [List.any_eq_true] at this
    obtain ⟨e, he, h2⟩ := this
    simp only [Bool.and_eq_true, beq_iff_eq] at h2
    exact h e he h2.1
  rw [ha, sendUnits_fresh us.zipIdx s (logKey dst k ident)]
  · rfl
  · intro e he u _ hc
    exact h e he hc.1
  · have : us.zipIdx.map (·.2) = List.range us.length := by
      rw [List.zipIdx_map_snd, List.range_eq_range']
    rw [this]; exact List.nodup_range

/-- A body that is not empty has units. -/
theorem units_ne_nil (b : Bytes) (h : b ≠ []) : plainUnits b ≠ [] := by
  unfold plainUnits
  cases b with
  | nil => exact absurd rfl h
  | cons a l => simp [units]

/-- Carrying leaves the logs. -/
theorem transmit_fab (s : State) (dst : Nat) (is : List LinkItem) :
    (s.transmit dst is).fab.sendLog = s.fab.sendLog ∧ (s.transmit dst is).fab.sentNo = s.fab.sentNo ∧ (s.transmit dst is).fab.gotNo = s.fab.gotNo := by
  have := (State.transmit_only s dst is).get .msgs
  simp only [Part.same] at this
  rw [this]; exact ⟨rfl, rfl, rfl⟩

/-- What units that have not left before change. -/
theorem exchangeUnits_facts (s : State) (dst : Nat) (k : MsgKind) (ident : Nat) (us : List (Bytes × Word)) (h : s.unsent dst k ident) (hu : us ≠ []) :
    Only [.out, .stats, .pen, .conns, .msgs] s (s.exchangeUnits dst k ident us)
    ∧ (s.exchangeUnits dst k ident us).fab.sendLog = s.fab.sendLog ++ sendEntries dst k ident us
    ∧ (s.exchangeUnits dst k ident us).fab.sentNo = s.fab.sentNo ∧ (s.exchangeUnits dst k ident us).fab.gotNo = s.fab.gotNo := by
  rw [exchangeUnits_fresh s dst k ident us h hu]
  obtain ⟨a, b, c⟩ := transmit_fab { s with fab.sendLog := s.fab.sendLog ++ sendEntries dst k ident us } dst (dataItems k.code ident us)
  refine ⟨?_, a, b, c⟩
  refine Only.of (State.transmit_only _ _ _) rfl ?_
  refine ⟨rfl, fun p => ?_⟩
  cases p <;> first | exact .inl (by decide) | exact .inr (by (repeat' apply And.intro) <;> rfl)

/-- A message of which nothing has left is sent. -/
theorem exchange_fresh (s : State) (dst : Nat) (k : MsgKind) (ident : Nat) (body : Bytes) (h : s.unsent dst k ident) (hb : body ≠ []) :
    SentMessage dst k ident body s (s.exchange dst k ident body) := by
  have hu := units_ne_nil body hb
  have f := exchangeUnits_facts s dst k ident (plainUnits body) h hu
  have ha : s.alreadySent (logKey dst k ident) (plainUnits body).length = false := by
    unfold State.alreadySent
    rw [Bool.eq_false_iff]
    intro hc
    rw [List.all_eq_true] at hc
    have := hc 0 (by simp; exact List.length_pos_iff.mpr hu)
    rw [List.any_eq_true] at this
    obtain ⟨e, he, h2⟩ := this
    simp only [Bool.and_eq_true, beq_iff_eq] at h2
    exact h e he h2.1
  have e : s.exchange dst k ident body = (s.exchangeUnits dst k ident (plainUnits body)).emit (.message dst k.code body) := by
    unfold State.exchange
    simp only []
    have : (List.map (fun u => (u, (0 : Word))) (units (body.length / 512 + 1) body)) = plainUnits body := rfl
    rw [this, ha]; simp
  rw [e]
  refine ⟨?_, ?_, ?_⟩
  · refine Only.of (State.emit_only _ _) rfl f.1
  · simp [State.emit]
  · exact f.2.1

/-- A counted body is not empty. -/
theorem listBody_ne (b : Bytes) (n : Nat) : leBytes 8 n ++ b ≠ [] := by
  intro h
  have := congrArg List.length h
  simp [leBytes_length] at this

/-- What is out stays out on a pen link. -/
theorem prefix_toPen (s : State) (k : Nat) (is : List LinkItem) : s.out <+: (s.toPen k is).out := by
  have e : ∀ (t : State) k a b c, t.out <+: (t.emitFlit k a b c).out := by
    intro t k a b c; unfold State.emitFlit State.emit; exact ⟨_, rfl⟩
  have sp : ∀ (t : State) k f, (t.setPen k f).out = t.out := fun _ _ _ => rfl
  have sf : ∀ (t : State) k i, t.out <+: (t.sendFlit k i).out := by
    intro t k i
    unfold State.sendFlit
    split
    · unfold State.sendTime State.emit; exact ⟨_, rfl⟩
    split
    · extract_lets -merge a b c d
      have hd : t.out <+: d.out := by
        unfold d; rw [sp]; exact e _ _ _ _ _
      split
      · rw [sp]; exact hd.trans (e _ _ _ _ _)
      · exact hd
    · exact e _ _ _ _ _
  have dp : ∀ n (t : State), t.out <+: (State.drainPen n t k).out := by
    intro n
    induction n with
    | zero => intro t; exact List.prefix_rfl
    | succ n ih =>
      intro t
      unfold State.drainPen
      split
      · exact List.prefix_rfl
      · rename_i i _
        have a := sf (t.setPen k (fun x => { x with waiting := x.waiting.erase i })) k i
        rw [sp] at a
        exact a.trans (ih _)
  unfold State.toPen
  have a := dp ((s.setPen k (fun x => { x with waiting := x.waiting ++ is })).pen k).waiting.length (s.setPen k (fun x => { x with waiting := x.waiting ++ is }))
  rw [sp] at a
  exact a

/-- What is out stays out on the herd planes. -/
theorem prefix_stripe (s : State) (dst : Nat) (is : List LinkItem) : s.out <+: (s.stripe dst is).out := by
  have sc : ∀ (t : State) a b f, (t.setConn a b f).out = t.out := fun _ _ _ _ => rfl
  have sp : ∀ (t : State) a b i, t.out <+: (t.sendItem a b i).out := by
    intro t a b i; unfold State.sendItem State.sendUnnumbered State.sendPacket State.emit; split <;> exact ⟨_, rfl⟩
  have dc : ∀ n (t : State) a b, t.out <+: (State.drainConn n t a b).out := by
    intro n
    induction n with
    | zero => intro t a b; exact List.prefix_rfl
    | succ n ih =>
      intro t a b
      unfold State.drainConn
      split
      · exact List.prefix_rfl
      · rename_i i _
        have x := sp (t.setConn a b (fun x => { x with waiting := x.waiting.erase i })) a b i
        rw [sc] at x
        exact x.trans (ih _ _ _)
  have tc : ∀ (t : State) a b i, t.out <+: (t.toConn a b i).out := by
    intro t a b i
    unfold State.toConn
    have x := dc ((t.setConn a b (fun x => { x with waiting := x.waiting ++ [i] })).conn a b).waiting.length (t.setConn a b (fun x => { x with waiting := x.waiting ++ [i] })) a b
    rw [sc] at x
    exact x
  unfold State.stripe
  split
  · exact List.prefix_rfl
  · rename_i p ps hps
    simp only []
    clear hps
    generalize is.zipIdx = l
    induction l generalizing s with
    | nil => exact List.prefix_rfl
    | cons a l ih =>
      simp only [List.foldl_cons]
      exact (tc s _ _ _).trans (ih _)

/-- What is out stays out. -/
theorem prefix_transmit (s : State) (dst : Nat) (is : List LinkItem) : s.out <+: (s.transmit dst is).out := by
  unfold State.transmit
  split
  · split
    · exact prefix_toPen _ _ _
    · exact List.prefix_rfl
  · exact prefix_stripe _ _ _

/-- A pen engine after a change of one. -/
theorem pen_setPen (s : State) (k j : Nat) (f : PenEngine → PenEngine) : (s.setPen k f).pen j = if k = j then f (s.pen k) else s.pen j := by
  unfold State.setPen State.pen
  rw [NMap.getD_modify]

/-- The pen engine that is changed. -/
theorem pen_setPen_self (s : State) (k : Nat) (f : PenEngine → PenEngine) : (s.setPen k f).pen k = f (s.pen k) := by
  rw [pen_setPen, if_pos rfl]

/-- One control item on an engine that is up with nothing waiting leaves at once. -/
theorem toPen_control (s : State) (k : Nat) (i : LinkItem) (hu : (s.pen k).up = true) (hr : (s.pen k).retraining = false)
    (hw : (s.pen k).waiting = []) (hi : i.kind = 2) (hc : s.confidential = false) :
    (s.toPen k [i]).out = s.out ++ [.penFlit k (flitBytes 2 (b2n i.last) (s.pen k).nextSeq.toNat ((s.pen k).expect - 1).toNat (s.pen k).freed i.content)] := by
  have e1 : (s.setPen k (fun x => { x with waiting := x.waiting ++ [i] })).pen k = { s.pen k with waiting := [i] } := by
    rw [pen_setPen_self, hw]; rfl
  unfold State.toPen
  simp only []
  generalize hA : s.setPen k (fun x => { x with waiting := x.waiting ++ [i] }) = A at *
  have hAo : A.out = s.out := by rw [← hA]; rfl
  have hAc : A.confidential = false := by rw [← hA]; exact hc
  rw [e1]
  show (State.drainPen 1 A k).out = _
  unfold State.drainPen
  have n1 : (A.pen k).nextItem = some i := by
    rw [e1]; unfold PenEngine.nextItem; simp [hu, hr, hi]
  rw [n1]
  simp only [State.drainPen]
  unfold State.sendFlit
  have : (A.setPen k (fun x => { x with waiting := x.waiting.erase i })).confidential = false := hAc
  rw [this]
  simp only [Bool.false_eq_true, if_false]
  have e2 : (A.setPen k (fun x => { x with waiting := x.waiting.erase i })).pen k = { (A.pen k) with waiting := (A.pen k).waiting.erase i } := pen_setPen_self _ _ _
  unfold State.emitFlit State.emit
  simp only [e2, e1, hi]
  show (A.out ++ _) = _
  rw [hAo]

/-- The memories are the same. -/
theorem Only.mem {m : List Part} {s t : State} (o : Only m s t) (h1 : m.contains .hbm = false := by rfl) (h2 : m.contains .tiles = false := by rfl)
    (h3 : m.contains .channels = false := by rfl) (h4 : m.contains .mem = false := by rfl) : t.mem = s.mem := by
  have e1 := o.get .hbm h1; have e2 := o.get .tiles h2; have e3 := o.get .channels h3; have e4 := o.get .mem h4
  simp only [Part.same] at e1 e2 e3 e4
  obtain ⟨a1, a2⟩ := e1
  obtain ⟨a3, a4⟩ := e2
  obtain ⟨a5, a6, a7, a8, a9⟩ := e3
  obtain ⟨b1, b2, b3, b4, b5⟩ := e4
  generalize t.mem = x at *
  generalize s.mem = y at *
  cases x; cases y
  simp only [MemState.mk.injEq] at *
  simp only [*, and_self]

/-- The logs of the exchange stage are the same. -/
theorem Only.fab {m : List Part} {s t : State} (o : Only m s t) (h : m.contains .msgs = false := by rfl) :
    t.fab.sendLog = s.fab.sendLog ∧ t.fab.sentNo = s.fab.sentNo ∧ t.fab.gotNo = s.fab.gotNo := by
  have := o.get .msgs h
  simp only [Part.same] at this
  rw [this]; exact ⟨rfl, rfl, rfl⟩

/-- REDUCE, by its range. -/
theorem exec_reduce (tensor t : Nat) (tile : Fin 32) (addr : Nat) (s : State) : exec (.reduce tensor t tile addr) s =
    if tileRange addr 197120 then .next (s.reduceTile tensor t tile.val addr) else .fault .tileStoreRange := by
  unfold exec execReduce; rfl

/-- ALL_GATHER, by its range. -/
theorem exec_allGather (tensor t : Nat) (tile : Fin 32) (addr : Nat) (s : State) : exec (.allGather tensor t tile addr) s =
    if tileRange addr 32768 then .next (s.gatherTile tensor t tile.val addr) else .fault .tileStoreRange := by
  unfold exec execAllGather; rfl

/-- How many units bytes make. -/
theorem units_length : ∀ (n : Nat) (b : Bytes), b.length ≤ 512 * n → (units n b).length = (b.length + 511) / 512
  | 0, b, h => by
    have : b.length = 0 := by omega
    simp [units, this]
  | n + 1, b, h => by
    unfold units
    cases b with
    | nil => simp
    | cons a l =>
      simp only [List.length_cons]
      rw [units_length n _ (by simp at *; omega)]
      simp only [List.length_drop, List.length_cons] at *
      omega

/-- How many units a body makes. -/
theorem plainUnits_length (b : Bytes) : (plainUnits b).length = (b.length + 511) / 512 := by
  unfold plainUnits
  rw [List.length_map, units_length _ _ (by omega)]

/-- One entry a unit. -/
theorem sendEntries_length (dst : Nat) (k : MsgKind) (ident : Nat) (us : List (Bytes × Word)) : (sendEntries dst k ident us).length = us.length := by
  unfold sendEntries; rw [List.length_map, List.length_zipIdx]

/-- The next message of a kind, when it has not left. -/
theorem sendNext_fresh (s : State) (dst : Nat) (k : MsgKind) (us : List (Bytes × Word)) (n : Nat)
    (hn : NMap.getD s.fab.sentNo (countKey dst k) 0 = n) (h : s.unsent dst k n) (hu : us ≠ []) :
    Only [.out, .stats, .pen, .conns, .msgs] s (s.sendNext dst k us)
    ∧ (s.sendNext dst k us).fab.sendLog = s.fab.sendLog ++ sendEntries dst k n us
    ∧ NMap.getD (s.sendNext dst k us).fab.sentNo (countKey dst k) 0 = n + 1 := by
  unfold State.sendNext
  rw [hn]
  simp only []
  obtain ⟨a, b, c, d⟩ := exchangeUnits_facts ({ s with fab.sentNo := NMap.insert s.fab.sentNo (countKey dst k) (n + 1) } : State) dst k n us h hu
  refine ⟨?_, b, ?_⟩
  · refine Only.of a rfl ?_
    refine ⟨rfl, fun p => ?_⟩
    cases p <;> first | exact .inl (by decide) | exact .inr (by (repeat' apply And.intro) <;> rfl)
  · rw [c]
    show NMap.getD (NMap.insert _ _ _) _ _ = _
    rw [NMap.getD_insert, if_pos rfl]

/-- A tile has 8,192 elements. -/
theorem binary32s_length (x : Slot) : x.binary32s.length = 8192 := by
  unfold Slot.binary32s; rw [List.length_map, List.length_range]

/-- A binary32 tile takes 32,768 bytes. -/
theorem elementBytes32 (vs : List Nat) (h : vs.length = 8192) : (elementBytes 4 vs).length = 32768 := by
  rw [elementBytes_length, h]

/-- The elements of a tile by key. -/
theorem insertFold (base : Nat) (vs : List Nat) (o : Nat) (m : NMap Word) (j : Nat) :
    NMap.find? ((vs.zipIdx o).foldl (fun m v => NMap.insert m (base + v.2) (BitVec.ofNat 32 v.1)) m) (base + j) =
      if o ≤ j ∧ j < o + vs.length then some (BitVec.ofNat 32 (vs.getD (j - o) 0)) else NMap.find? m (base + j) := by
  induction vs generalizing o m with
  | nil => rw [if_neg (by simp only [List.length_nil]; omega)]; rfl
  | cons v vs ih =>
    simp only [List.zipIdx_cons, List.foldl_cons, List.length_cons]
    rw [ih]
    by_cases h : o + 1 ≤ j ∧ j < o + 1 + vs.length
    · rw [if_pos h, if_pos (by omega)]
      obtain ⟨k, hk⟩ : ∃ k, j - o = k + 1 := ⟨j - o - 1, by omega⟩
      rw [hk, show j - (o + 1) = k by omega]; rfl
    · rw [if_neg h]
      by_cases hj : j = o
      · subst hj
        rw [if_pos (by omega), NMap.find?_insert_self]
        simp
      · rw [if_neg (by omega), NMap.find?_insert_of_ne _ _ (by omega)]

/-- What a reduced tile leaves (R288). -/
theorem placeTile_facts (s : State) (h : s.memoryCanonical) (tensor t tile addr : Nat) (vs : List Nat) (hv : vs.length = 8192) :
    Only [.tiles, .emb, .msgs] s (s.placeTile tensor t tile addr vs)
    ∧ (s.placeTile tensor t tile addr vs).tileRead tile addr 32768 = elementBytes 4 vs
    ∧ s.tilesKept (s.placeTile tensor t tile addr vs) tile addr 32768
    ∧ (∀ i, i < 8192 → NMap.find? (s.placeTile tensor t tile addr vs).emb.denseGrad (tensor * 2 ^ 53 + t * 8192 + i) = some (BitVec.ofNat 32 (vs.getD i 0)))
    ∧ (s.placeTile tensor t tile addr vs).fab.gotNo = s.fab.gotNo := by
  have f := tileWrite_facts s h tile addr (elementBytes 4 vs)
  rw [elementBytes32 vs hv] at f
  refine ⟨State.placeTile_only _ _ _ _ _ _, f.1, f.2, ?_, rfl⟩
  intro i hi
  unfold State.placeTile
  simp only []
  rw [insertFold, if_pos ⟨by omega, by rw [hv]; omega⟩]
  rfl

/-- What the reading of a partial may change. -/
theorem readTile_only' (s : State) (a b : Nat) (x : Slot) : Only [.stats, .tel, .watch, .events] s (s.readTile a b x) := (State.readTile_only _ _ _ _).mono rfl

/-- Addresses of a tile store add. -/
theorem tileAddr_add (t a b : Nat) : tileAddr t (a + b) = tileAddr t a + b := by
  unfold tileAddr; exact (Nat.add_assoc _ _ _).symm

/-- Bytes of a tile store in two parts. -/
theorem tileRead_split (s : State) (t a n k : Nat) (h : k ≤ n) : s.tileRead t a n = s.tileRead t a k ++ s.tileRead t (a + k) (n - k) := by
  unfold State.tileRead
  rw [← readBytes_take _ (tileAddr t a) n k h, show tileAddr t (a + k) = tileAddr t a + k by unfold tileAddr; omega, ← readBytes_drop _ (tileAddr t a) n k h,
    List.take_append_drop]

/-- As many bytes as asked. -/
theorem tileRead_length (s : State) (t a n : Nat) : (s.tileRead t a n).length = n := readBytes_length _ _ _

/-- A shard read from a tile store. -/
theorem shardBytes_tile (c : ShardCopy) (hc : c.fromHbm = false) : ∀ (fuel : Nat) (s : State) (addr len : Nat), (len ≠ 0 → addr % 512 + len ≤ 512 * fuel) →
    State.shardBytes fuel s c addr len = (s, s.tileRead c.srcTile.val addr len, [])
  | 0, s, addr, len, h => by
    have : len = 0 := by omega
    subst this; rfl
  | fuel + 1, s, addr, len, h => by
    unfold State.shardBytes
    by_cases h0 : len = 0
    · subst h0; rfl
    · rw [if_neg h0]
      simp only []
      have e : s.shardBlock c addr = (s, ⟨true, s.tileRead c.srcTile.val (addr / 512 * 512) 512, s.tileTag c.srcTile.val addr⟩) := by
        unfold State.shardBlock; rw [if_neg (by simp [hc])]
      rw [e]
      simp only []
      have hm : min len (512 - addr % 512) ≤ len := Nat.min_le_left _ _
      rw [shardBytes_tile c hc fuel s (addr + min len (512 - addr % 512)) (len - min len (512 - addr % 512)) ?_]
      · simp only [if_true]
        rw [slice_tileRead _ _ _ _ _ _ (by omega), show addr / 512 * 512 + addr % 512 = addr by omega,
          ← tileRead_split _ _ _ _ _ hm]
        rfl
      · by_cases hl : len ≤ 512 - addr % 512
        · rw [Nat.min_eq_left hl]; omega
        · rw [Nat.min_eq_right (by omega)]
          have : (addr + (512 - addr % 512)) % 512 = 0 := by omega
          rw [this]
          have := h h0
          omega

/-- GATHER from a tile store inside its range. -/
theorem exec_gather (c : ShardCopy) (s : State) (hh : c.fromHbm = false) (hs : s.shardSource c tileBytes = true) (hd : tileRange c.dst (2 * c.n) = true) :
    exec (.gather c) s = .next (s.gatherShard c) := by
  show execGather c s = _
  unfold execGather
  rw [if_neg (by simp [hh]), if_neg (by simp [hh, hs, hd])]

/-- RING_PASS inside its range. -/
theorem exec_ring (p : Fin 8) (set user layer block : Nat) (tile : Fin 32) (addr : Nat) (s : State) (h : Bytes) (hs : s.histSet set = some h)
    (hr : tileRange addr (2048 * hWidth h) = true) :
    exec (.ringPass p set user layer block tile addr) s = .next (s.ringPass p.val h user layer block tile.val addr) := by
  show execRingPass p set user layer block tile addr s = _
  unfold execRingPass
  rw [hs]
  simp only [hr, if_true]

/-- Counting poison leaves memory. -/
theorem countPoison_mem (s : State) (a b n : Nat) : (s.countPoison a b n).mem = s.mem := by
  have o : Only [.watch, .tel, .events] s (s.countPoison a b n) := (State.countPoison_only _ _ _ _).mono rfl
  exact o.mem

/-- A run of writes of 1,024 bytes at distinct places, each after counting. -/
theorem ringFold (g : State → Nat → State) (tile base : Nat) (bs : Nat → Bytes) (hb : ∀ i, (bs i).length = 1024)
    (hg : ∀ st i, ∃ A : State, A.mem = st.mem ∧ Only [.watch, .tel, .events] st A ∧ g st i = A.tileWrite tile (base + 1024 * i) (bs i)) (n : Nat) (s : State) (hs : s.memoryCanonical) :
    let t := (List.range n).foldl g s
    Only [.watch, .tel, .events, .tiles] s t ∧ t.memoryCanonical ∧ s.tilesKept t tile base (1024 * n)
    ∧ ∀ i, i < n → t.tileRead tile (base + 1024 * i) 1024 = bs i := by
  induction n with
  | zero =>
    refine ⟨⟨rfl, fun p => .inr (by cases p <;> (repeat' apply And.intro) <;> rfl)⟩, hs, fun _ _ => rfl, fun i h => absurd h (by omega)⟩
  | succ n ih =>
    simp only [List.range_succ, List.foldl_append, List.foldl_cons, List.foldl_nil] at *
    generalize (List.range n).foldl g s = t at *
    obtain ⟨o, hc, hk, hv⟩ := ih
    obtain ⟨A, hm, oA, e⟩ := hg t n
    rw [e]
    have cA : A.memoryCanonical := by unfold State.memoryCanonical; rw [hm]; exact hc
    obtain ⟨f1, f2⟩ := tileWrite_facts A cA tile (base + 1024 * n) (bs n)
    rw [hb] at f1 f2
    refine ⟨?_, ?_, ?_, ?_⟩
    · exact Only.of (State.tileWrite_only _ _ _ _) rfl (Only.of oA rfl o)
    · exact ⟨cA.1, Memory.wf_writeBytes _ _ _ cA.2⟩
    · intro a ha
      have h1 : a < tileAddr tile (base + 1024 * n) ∨ tileAddr tile (base + 1024 * n) + 1024 ≤ a := by
        simp only [tileAddr_add] at *; omega
      have h2 : a < tileAddr tile base ∨ tileAddr tile base + 1024 * n ≤ a := by
        simp only [tileAddr_add] at *; omega
      rw [f2 a h1, hm, hk a h2]
    · intro i hi
      by_cases h : i = n
      · subst h; exact f1
      · have := hv i (by omega)
        rw [← this]
        have rb : ∀ (k x : Nat), x + k ≤ tileAddr tile (base + 1024 * n) →
            Memory.readBytes (A.tileWrite tile (base + 1024 * n) (bs n)).mem.tiles x k = Memory.readBytes t.mem.tiles x k := by
          intro k
          induction k with
          | zero => intro x _; rfl
          | succ k ih =>
            intro x hx
            simp only [Memory.readBytes]
            rw [f2 x (by omega), hm, ih (x + 1) (by omega)]
        unfold State.tileRead
        exact rb _ _ (by simp only [tileAddr_add]; omega)

/-- A check block widens to 512 elements. -/
theorem widenYs8_length (g : Bool) (a b : Bytes) : (widenYs8 g a b).length = 512 := by
  unfold widenYs8; rw [List.length_map, List.length_range]

/-- A block has at most a plane of check blocks. -/
theorem ringBlocks_le (h : Bytes) (np : Nat) (hn : np ≤ 512) : ringBlocks h np 0 ≤ hWidth h := by
  unfold ringBlocks ceilDiv
  simp only [show (0 : Nat) < 2 by omega, if_true]
  have : np * hWidth h ≤ 512 * hWidth h := Nat.mul_le_mul_right _ hn
  omega

/-- A block has at most 512 positions. -/
theorem windowPositions_le (s : State) (h : Bytes) (u b : Nat) : s.windowPositions h u b ≤ 512 := by
  unfold State.windowPositions
  split
  · split
    · exact Nat.min_le_left _ _
    · omega
  · omega

/-- Two runs of writes beside each other. -/
theorem tilesKept_two {s t u : State} {tile addr w nd : Nat} (hw : nd ≤ w) (k1 : s.tilesKept t tile (addr + 0 * 1024 * w) (1024 * nd))
    (k2 : t.tilesKept u tile (addr + 1 * 1024 * w) (1024 * nd)) : s.tilesKept u tile addr (2048 * w) := by
  intro a ha
  rw [k2 a ?_, k1 a ?_]
  · rw [tileAddr_add]
    generalize tileAddr tile addr = z at *
    omega
  · rw [tileAddr_add]
    generalize tileAddr tile addr = z at *
    omega

/-- Bytes below a range that is written. -/
theorem tileRead_kept {s t : State} {tile addr n : Nat} (k : s.tilesKept t tile addr n) (x len : Nat) (h : x + len ≤ addr) :
    t.tileRead tile x len = s.tileRead tile x len := by
  have rb : ∀ (k' y : Nat), y + k' ≤ tileAddr tile addr → Memory.readBytes t.mem.tiles y k' = Memory.readBytes s.mem.tiles y k' := by
    intro k'
    induction k' with
    | zero => intro y _; rfl
    | succ k' ih =>
      intro y hy
      simp only [Memory.readBytes]
      rw [k y (by omega), ih (y + 1) (by omega)]
  unfold State.tileRead
  apply rb
  have : tileAddr tile x + len = tileAddr tile (x + len) := (tileAddr_add _ _ _).symm
  rw [this]
  unfold tileAddr
  exact Nat.add_le_add_left h _

/-- Keys end before values begin. -/
theorem ring_le {addr w nd i : Nat} (hw : nd ≤ w) (hi : i < nd) : addr + 0 * 1024 * w + 1024 * i + 1024 ≤ addr + 1 * 1024 * w := by omega

/-- What placing a history block leaves, when every tag stands (R230). -/
theorem ringPlace_facts (s : State) (hs : s.memoryCanonical) (h : Bytes) (user layer b tile addr : Nat) (u : Half) (us : List (Bytes × Word))
    (good : ∀ v, v < 2 → ∀ i, i < ringBlocks h (s.windowPositions h user b) 0 →
        (ringUnit us (v * ringBlocks h (s.windowPositions h user b) 0 + i)).2 = partTag h s.penSize user b layer v i
        ∧ (ringUnit us (2 * ringBlocks h (s.windowPositions h user b) 0 + v * ringBlocks h (s.windowPositions h user b) 2 + i / 32)).2
            = partTag h s.penSize user b layer (2 + v) (i / 32)) :
    let t := s.ringPlace h user layer b tile addr u us
    Only [.watch, .tel, .events, .tiles] s t ∧ s.tilesKept t tile addr (2048 * hWidth h)
    ∧ ∀ v, v < 2 → ∀ i, i < ringBlocks h (s.windowPositions h user b) 0 →
        t.tileRead tile (addr + v * 1024 * hWidth h + 1024 * i) 1024 = elementBytes 2 (widenYs8 true
          (slice (ringUnit us (2 * ringBlocks h (s.windowPositions h user b) 0 + v * ringBlocks h (s.windowPositions h user b) 2 + i / 32)).1 (16 * (i % 32)) 16)
          (ringUnit us (v * ringBlocks h (s.windowPositions h user b) 0 + i)).1) := by
  have hw := ringBlocks_le h _ (windowPositions_le s h user b)
  unfold State.ringPlace
  simp only []
  generalize ringBlocks h (s.windowPositions h user b) 0 = nd at *
  generalize ringBlocks h (s.windowPositions h user b) 2 = ns at *
  generalize s.penSize = N at *
  have hgood : ∀ v, v < 2 → ∀ i, i < nd → ringGood h N user layer b v nd ns i us = true := fun v hv i hi => decide_eq_true (good v hv i hi)
  generalize hf : (fun (st : State) (v : Nat) => (List.range nd).foldl (fun (st : State) i =>
      (st.ys8Seen (ringGood h N user layer b v nd ns i us) u (field h 14 2 + 2 * layer + v) (st.tensorKey (field h 14 2 + 2 * layer + v))
        (poisonedScales (slice (ringUnit us (2 * nd + v * ns + i / 32)).1 (16 * (i % 32)) 16) 16) 16).tileWrite tile
        (addr + v * 1024 * hWidth h + 1024 * i)
        (elementBytes 2 (widenYs8 (ringGood h N user layer b v nd ns i us)
          (slice (ringUnit us (2 * nd + v * ns + i / 32)).1 (16 * (i % 32)) 16) (ringUnit us (v * nd + i)).1))) st) = F
  have two : (List.range 2).foldl F s = F (F s 0) 1 := by simp only [List.range_succ, List.range_zero, List.nil_append, List.foldl_append, List.foldl_cons, List.foldl_nil]
  rw [two]
  have one : ∀ v, v < 2 → ∀ st : State, st.memoryCanonical → 
      Only [.watch, .tel, .events, .tiles] st (F st v) ∧ (F st v).memoryCanonical ∧ st.tilesKept (F st v) tile (addr + v * 1024 * hWidth h) (1024 * nd)
      ∧ ∀ i, i < nd → (F st v).tileRead tile (addr + v * 1024 * hWidth h + 1024 * i) 1024 = elementBytes 2 (widenYs8 true
          (slice (ringUnit us (2 * nd + v * ns + i / 32)).1 (16 * (i % 32)) 16) (ringUnit us (v * nd + i)).1) := by
    intro v hv st hc
    have eF : F st v = (List.range nd).foldl (fun (st : State) i =>
        (st.countPoison 0x2101 (st.tensorKey (field h 14 2 + 2 * layer + v)) (poisonedScales (slice (ringUnit us (2 * nd + v * ns + i / 32)).1 (16 * (i % 32)) 16) 16)).tileWrite tile
        (addr + v * 1024 * hWidth h + 1024 * i) (elementBytes 2 (widenYs8 true (slice (ringUnit us (2 * nd + v * ns + i / 32)).1 (16 * (i % 32)) 16) (ringUnit us (v * nd + i)).1))) st := by
      rw [← hf]
      simp only []
      have : ∀ (l : List Nat) (x : State), (∀ i ∈ l, i < nd) → l.foldl (fun (st : State) i =>
      (st.ys8Seen (ringGood h N user layer b v nd ns i us) u (field h 14 2 + 2 * layer + v) (st.tensorKey (field h 14 2 + 2 * layer + v))
        (poisonedScales (slice (ringUnit us (2 * nd + v * ns + i / 32)).1 (16 * (i % 32)) 16) 16) 16).tileWrite tile
        (addr + v * 1024 * hWidth h + 1024 * i)
        (elementBytes 2 (widenYs8 (ringGood h N user layer b v nd ns i us)
          (slice (ringUnit us (2 * nd + v * ns + i / 32)).1 (16 * (i % 32)) 16) (ringUnit us (v * nd + i)).1))) x
        = l.foldl (fun (st : State) i =>
        (st.countPoison 0x2101 (st.tensorKey (field h 14 2 + 2 * layer + v)) (poisonedScales (slice (ringUnit us (2 * nd + v * ns + i / 32)).1 (16 * (i % 32)) 16) 16)).tileWrite tile
        (addr + v * 1024 * hWidth h + 1024 * i) (elementBytes 2 (widenYs8 true (slice (ringUnit us (2 * nd + v * ns + i / 32)).1 (16 * (i % 32)) 16) (ringUnit us (v * nd + i)).1))) x := by
        intro l
        induction l with
        | nil => intro x _; rfl
        | cons a l ih =>
          intro x hx
          simp only [List.foldl_cons]
          rw [ih _ (fun i hi => hx i (by simp [hi])), hgood v hv a (hx a (by simp))]
          rfl
      exact this _ _ (fun i hi => List.mem_range.mp hi)
    rw [eF]
    refine ringFold _ tile (addr + v * 1024 * hWidth h) (fun i => elementBytes 2 (widenYs8 true (slice (ringUnit us (2 * nd + v * ns + i / 32)).1 (16 * (i % 32)) 16) (ringUnit us (v * nd + i)).1)) ?_ ?_ nd st hc
    · intro i; rw [elementBytes_length, widenYs8_length]
    · clear eF two
      clear hf
      intro x i
      exact ⟨_, countPoison_mem _ _ _ _, (State.countPoison_only _ _ _ _).mono rfl, rfl⟩
  obtain ⟨o1, c1, k1, v1⟩ := one 0 (by omega) s hs
  obtain ⟨o2, c2, k2, v2⟩ := one 1 (by omega) (F s 0) c1
  refine ⟨Only.of o2 rfl o1, tilesKept_two hw k1 k2, ?_⟩
  intro v hv i hi
  have hv' : v = 0 ∨ v = 1 := by omega
  cases hv' with
  | inl h0 =>
    subst h0
    rw [← v1 i hi]
    exact tileRead_kept k2 _ _ (ring_le hw hi)
  | inr h1 =>
    subst h1
    exact v2 i hi

end Sys2Proof.Machine
end

