-- ==== Sys2Proof/Laws/Churns.lean ====
section
/-! SUPPORT. Laws of the churns: contexts, lanes and records (R183 to R211). -/

-- Checked one theorem at a time: the package as one text then needs less memory.
set_option Elab.async false

namespace Sys2Proof.Machine

/-- A churn after a change of one. -/
theorem churn_setChurn (s : State) (k j : Nat) (f : Churn → Churn) : (s.setChurn k f).churn j = if k = j then f (s.churn k) else s.churn j := by
  unfold State.setChurn State.churn
  rw [NMap.getD_modify]

/-- A context is known by its churn and number. -/
theorem ctx_key {c e : CtxId} (h1 : lineIx (ctxLine c) = lineIx (ctxLine e)) (h2 : c.ctx.val = e.ctx.val) : e = c := by
  obtain ⟨⟨t, ht⟩, ⟨l, hl⟩, ⟨x, hx⟩⟩ := c
  obtain ⟨⟨t', ht'⟩, ⟨l', hl'⟩, ⟨x', hx'⟩⟩ := e
  simp only [lineIx, ctxLine] at h1 h2
  have : t' = t := by omega
  have : l' = l := by omega
  subst_vars; rfl

/-- A context after a change of one. -/
theorem ctx_setCtx (s : State) (c e : CtxId) (f : Ctx → Ctx) : (s.setCtx c f).ctx e = if e = c then f (s.ctx c) else s.ctx e := by
  unfold State.setCtx State.ctx
  rw [churn_setChurn]
  by_cases h : e = c
  · subst h; simp only [if_true]; rw [NMap.getD_modify, if_pos rfl]
  · rw [if_neg h]
    split
    · rename_i hl
      simp only []
      rw [NMap.getD_modify, if_neg (fun h2 => h (ctx_key hl h2)), hl]
    · rfl

/-- Lanes written, by their key. -/
theorem find_setLanes (vs : List Nat) (r o : Nat) (m : NMap Word) (i : Nat) :
    NMap.find? ((vs.zipIdx o).foldl (fun m p => NMap.insert m (32 * r + p.2) (BitVec.ofNat 32 p.1)) m) i
    = if 32 * r + o ≤ i ∧ i < 32 * r + o + vs.length then some (BitVec.ofNat 32 (vs.getD (i - (32 * r + o)) 0)) else NMap.find? m i := by
  induction vs generalizing o m with
  | nil => rw [if_neg (by simp only [List.length_nil]; omega)]; rfl
  | cons v vs ih =>
    simp only [List.zipIdx_cons, List.foldl_cons, List.length_cons]
    rw [ih]
    by_cases h : 32 * r + (o + 1) ≤ i ∧ i < 32 * r + (o + 1) + vs.length
    · rw [if_pos h, if_pos (by omega)]
      obtain ⟨k, hk⟩ : ∃ k, i - (32 * r + o) = k + 1 := ⟨i - (32 * r + o) - 1, by omega⟩
      rw [hk, show i - (32 * r + (o + 1)) = k by omega]; rfl
    · rw [if_neg h]
      by_cases hj : i = 32 * r + o
      · subst hj
        rw [if_pos (by omega), NMap.find?_insert_self]
        simp
      · rw [if_neg (by omega), NMap.find?_insert_of_ne _ _ (by omega)]

/-- A register after one is written. -/
theorem reg_setLanes (x : Ctx) (d : Nat) (vs : List Nat) (h : vs.length = 32) (r l : Nat) (hl : l < 32) :
    (x.setLanes d vs).reg r l = if r = d then (BitVec.ofNat 32 (vs.getD l 0)).toNat else x.reg r l := by
  unfold Ctx.setLanes Ctx.reg NMap.getD
  simp only []
  rw [find_setLanes]
  by_cases hr : r = d
  · subst hr
    rw [if_pos (by omega), if_pos rfl, show 32 * r + l - (32 * r + 0) = l by omega]
    rfl
  · rw [if_neg (by omega), if_neg hr]

/-- What an instruction's lanes signal reaches the tally of its own context alone. -/
theorem addSignals_ctx (s : State) (c : CtxId) (fs : List Flags) :
    (∀ e, e ≠ c → (s.addSignals c fs).ctx e = s.ctx e) ∧ (s.addSignals c fs).ctx c = { s.ctx c with tally := ((s.addSignals c fs).ctx c).tally } := by
  unfold State.addSignals
  split
  · exact ⟨fun _ _ => rfl, rfl⟩
  · unfold State.addTally
    refine ⟨fun e he => by rw [ctx_setCtx, if_neg he], ?_⟩
    rw [ctx_setCtx, if_pos rfl]
    split <;> rfl

/-- Lanes written after their signals are in the tally. -/
theorem laneResult_of (s : State) (fs : List Flags) (c : CtxId) (d : Fin 32) (f : Nat → Nat) (vs : List Nat) (hv : vs.length = 32)
    (hf : ∀ l, l < 32 → vs.getD l 0 = f l) : LaneResult c d f s ((s.addSignals c fs).setCtx c (fun y => y.setLanes d.val vs)) := by
  obtain ⟨h1, h2⟩ := addSignals_ctx s c fs
  constructor
  · exact Only.of (State.setCtx_only _ _ _) rfl (State.addSignals_only _ _ _)
  · intro l hl
    rw [ctx_setCtx, if_pos rfl, reg_setLanes _ _ _ hv _ _ hl, if_pos rfl, hf l hl]
  · intro r l hr hl
    rw [ctx_setCtx, if_pos rfl, reg_setLanes _ _ _ hv _ _ hl, if_neg hr, h2]; rfl
  · rw [ctx_setCtx, if_pos rfl, h2]; rfl
  · intro e he
    rw [ctx_setCtx, if_neg he, h1 e he]

/-- A register has 32 lanes. -/
theorem lanes_length (x : Ctx) (r : Nat) : (x.lanes r).length = 32 := by unfold Ctx.lanes; rw [List.length_map, List.length_range]

/-- A lane of a register. -/
theorem lanes_getD (x : Ctx) (r l : Nat) (h : l < 32) : (x.lanes r).getD l 0 = x.reg r l := by
  unfold Ctx.lanes
  rw [List.getD_eq_getElem _ _ (by simpa using h), List.getElem_map, List.getElem_range]

/-- An operation of one source. -/
theorem laneOp1_facts (s : State) (c : CtxId) (d a : Fin 32) (g : Nat → Nat × Flags) :
    LaneResult c d (fun l => (g ((s.ctx c).reg a l)).1) s (s.laneOp1 c d.val a.val g) := by
  unfold State.laneOp1
  refine laneResult_of s _ c d _ _ (by simp [lanes_length]) (fun l hl => ?_)
  rw [List.getD_eq_getElem _ _ (by simp [lanes_length, hl]), List.getElem_map, List.getElem_map]
  have := lanes_getD (s.ctx c) a.val l hl
  rw [List.getD_eq_getElem _ _ (by rw [lanes_length]; exact hl)] at this
  rw [this]

/-- An operation of two sources. -/
theorem laneOp2_facts (s : State) (c : CtxId) (d a b : Fin 32) (g : Nat → Nat → Nat × Flags) :
    LaneResult c d (fun l => (g ((s.ctx c).reg a l) ((s.ctx c).reg b l)).1) s (s.laneOp2 c d.val a.val b.val g) := by
  unfold State.laneOp2
  refine laneResult_of s _ c d _ _ (by simp [lanes_length]) (fun l hl => ?_)
  rw [List.getD_eq_getElem _ _ (by simp [lanes_length, hl]), List.getElem_map, List.getElem_map, List.getElem_zip]
  have h1 := lanes_getD (s.ctx c) a.val l hl
  have h2 := lanes_getD (s.ctx c) b.val l hl
  rw [List.getD_eq_getElem _ _ (by rw [lanes_length]; exact hl)] at h1 h2
  rw [h1, h2]

/-- An operation of three sources. -/
theorem laneOp3_facts (s : State) (c : CtxId) (d a b e : Fin 32) (g : Nat → Nat → Nat → Nat × Flags) :
    LaneResult c d (fun l => (g ((s.ctx c).reg a l) ((s.ctx c).reg b l) ((s.ctx c).reg e l)).1) s (s.laneOp3 c d.val a.val b.val e.val g) := by
  unfold State.laneOp3
  refine laneResult_of s _ c d _ _ (by simp) (fun l hl => ?_)
  rw [List.getD_eq_getElem _ _ (by simp [hl]), List.getElem_map, List.getElem_map, List.getElem_range]

/-- Lanes written from the context. -/
theorem setLanes_facts (s : State) (c : CtxId) (d : Fin 32) (vs : Ctx → List Nat) (f : Nat → Nat) (hv : (vs (s.ctx c)).length = 32)
    (hf : ∀ l, l < 32 → (vs (s.ctx c)).getD l 0 = f l) : LaneResult c d f s (s.setCtx c (fun y => y.setLanes d.val (vs y))) := by
  have k := laneResult_of s [] c d f (vs (s.ctx c)) hv hf
  have e : s.setCtx c (fun y => y.setLanes d.val (vs y)) = s.setCtx c (fun y => y.setLanes d.val (vs (s.ctx c))) := rfl
  rw [e]; exact k

/-- The same value in every lane. -/
theorem getD_replicate {l : Nat} (x : Nat) (h : l < 32) : (List.replicate 32 x).getD l 0 = x := by
  rw [List.getD_eq_getElem _ _ (by simpa using h), List.getElem_replicate]

/-- Lanes given in another way. -/
theorem LaneResult.congr {c : CtxId} {d : Fin 32} {f g : Nat → Nat} {s t : State} (h : LaneResult c d f s t) (e : ∀ l, l < 32 → f l = g l) : LaneResult c d g s t :=
  ⟨h.only, fun l hl => (h.lanes l hl).trans (by rw [e l hl]), h.others, h.fields, h.contexts⟩

/-- A context is the same. -/
theorem ctx_of {m : List Part} {s A : State} (o : Only m s A) (h : m.contains .churns = false := by rfl) (e : CtxId) : A.ctx e = s.ctx e := by
  unfold State.ctx State.churn; rw [o.get .churns h]

/-- A lane has 32 bits. -/
theorem lanes_lt (x : Ctx) (r l : Nat) : x.reg r l < 2 ^ 32 := by unfold Ctx.reg; exact BitVec.isLt _

/-- A stage plane written, by its key. -/
theorem find_putStage (vs : List Nat) (r o : Nat) (m : NMap Word) (i : Nat) :
    NMap.find? ((vs.zipIdx o).foldl (fun m p => NMap.insert m (32 * r + p.2) (BitVec.ofNat 32 p.1)) m) i
    = if 32 * r + o ≤ i ∧ i < 32 * r + o + vs.length then some (BitVec.ofNat 32 (vs.getD (i - (32 * r + o)) 0)) else NMap.find? m i :=
  find_setLanes vs r o m i

/-- An element of a stage plane. -/
theorem putStage_at (m : NMap Word) (b : Nat) (vs : List Nat) (l : Nat) (h : l < vs.length) :
    NMap.find? (putStage m b vs) (32 * b + l) = some (BitVec.ofNat 32 (vs.getD l 0)) := by
  unfold putStage
  rw [find_setLanes, if_pos (by omega), show 32 * b + l - (32 * b + 0) = l by omega]

/-- At most 32 lanes are active. -/
theorem activeLanes_le (x : Ctx) : x.activeLanes ≤ 32 := by unfold Ctx.activeLanes; exact Nat.min_le_left _ _

/-- An active lane. -/
theorem take_lanes (x : Ctx) (r n l : Nat) (h : l < n) (hn : n ≤ 32) : ((x.lanes r).take n).getD l 0 = x.reg r l := by
  rw [List.getD_eq_getElem _ _ (by rw [List.length_take, lanes_length]; omega), List.getElem_take]
  have := lanes_getD x r l (by omega)
  rw [List.getD_eq_getElem _ _ (by rw [lanes_length]; omega)] at this
  exact this

/-- Folding a lane gives a value. -/
theorem redFold_some (kind : BitVec 2) (r : Rounding) (l : List Nat) (acc : Option Nat × List Flags) (h : l ≠ [] ∨ acc.1.isSome) :
    ((l.foldl (redFold kind r) acc).1).isSome := by
  induction l generalizing acc with
  | nil =>
    rcases h with h | h
    · exact absurd rfl h
    · exact h
  | cons a l ih =>
    simp only [List.foldl_cons]
    apply ih
    right
    unfold redFold
    split
    · split <;> rfl
    · rfl

/-- The scale 2^0. -/
theorem scale_zero (x : Num) : x.scale 0 = x := by cases x <;> simp [Num.scale]

/-- Reading the spliced stretch gives what was spliced in. -/
theorem splice_slice (b new : Bytes) (o : Nat) (h : o + new.length ≤ b.length) : slice (splice b o new) o new.length = new := by
  unfold splice
  have l0 : (slice b 0 o).length = o := by unfold slice; simp
  rw [Nat.max_eq_left h, List.take_of_length_le (by simp [l0]; omega)]
  rw [List.append_assoc, slice_append_right _ _ _ _ (by omega), l0, Nat.sub_self, slice_append_left _ _ _ _ (by omega), slice_all _ _ rfl]

/-- A retagged record carries the new tag. -/
theorem tagOf_retag (k v : Nat) (r : Bytes) (h : 10 ≤ r.length) : tagOf k (retag k v r) = v % 65536 := by
  have key : ∀ o, o + 2 ≤ r.length → field (splice r o (leBytes 2 (v % 65536))) o 2 = v % 65536 := by
    intro o ho
    unfold field
    have := splice_slice r (leBytes 2 (v % 65536)) o (by rw [leBytes_length]; exact ho)
    rw [leBytes_length] at this
    rw [this, leNat_leBytes]
    omega
  unfold tagOf retag
  split
  · exact key 4 (by omega)
  · exact key 8 (by omega)

/-- A record read at mark 0 touches the counters alone. -/
theorem readRecord_only' (s : State) (a l : Nat) (d : State) (rec : Bytes) (h : s.readRecord a l 0 = (d, some rec)) : Only [.stats] s d := by
  unfold State.readRecord State.readBlock at h
  cases hb : s.blockAt (a / 512) with
  | none => rw [hb] at h; simp at h
  | some x =>
    rw [hb] at h
    simp only [if_true, Prod.mk.injEq] at h
    rw [← h.1]
    exact ⟨rfl, fun p => by cases p <;> first | exact .inl (by decide) | exact .inr (by (repeat' apply And.intro) <;> rfl)⟩

/-- The mark past a held version is higher than it. -/
theorem advance_gt (n m : Nat) (d : List Nat) (h : m ∈ d) : m < advanceMark (n + 1) m d := by
  have mono : ∀ n m, m ≤ advanceMark n m d := by
    intro n
    induction n with
    | zero => intro m; exact Nat.le_refl _
    | succ n ih => intro m; unfold advanceMark; split
                   · exact Nat.le_trans (Nat.le_succ _) (ih _)
                   · exact Nat.le_refl _
  unfold advanceMark
  rw [if_pos (by simpa using h)]
  exact mono n (m + 1)

/-- The other line of a pair is another line. -/
theorem otherLine_ne (l : Nat) : otherLine l ≠ l := by unfold otherLine; split <;> omega

/-- A churn processor is unchanged where the part is. -/
theorem churn_of {m : List Part} {s A : State} (o : Only m s A) (h : m.contains .churns = false := by rfl) (e : Nat) : A.churn e = s.churn e := by
  unfold State.churn; rw [o.get .churns h]

/-- An item's facts rest on the plan and the tables. -/
theorem itemInfo_of {m : List Part} {s A : State} (o : Only m s A) (h1 : m.contains .plan = false := by rfl) (h2 : m.contains .tables = false := by rfl) (it : SweepItem) :
    A.itemInfo it = s.itemInfo it ∧ A.itemTable it = s.itemTable it ∧ A.itemPlanes it = s.itemPlanes it := by
  have e1 := o.get .plan h1; have e2 := o.get .tables h2
  simp only [Part.same] at e1 e2
  unfold State.itemInfo State.itemTable State.itemPlanes State.dense State.tableVersion
  rw [e1, e2.1]; exact ⟨rfl, rfl, rfl⟩

/-- Whether an item is unreadable rests on the plan and the tables. -/
theorem unreadable_of {m : List Part} {s A : State} (o : Only m s A) (h1 : m.contains .plan = false := by rfl) (h2 : m.contains .tables = false := by rfl)
    (h3 : m.contains .step = false := by rfl) (it : SweepItem) : A.unreadable it = s.unreadable it := by
  obtain ⟨a, b, c⟩ := itemInfo_of o h1 h2 it
  have e := o.get .step h3
  simp only [Part.same] at e
  unfold State.unreadable State.stepTag
  rw [a, c, e]

end Sys2Proof.Machine
end

