-- ==== Sys2Proof/Laws/Fabric.lean ====
section
/-! SUPPORT. Laws of the pen links and the herd ports: flits in order, what sending leaves, counted faults, and packets. -/

-- Checked one theorem at a time: the package as one text then needs less memory.
set_option Elab.async false

namespace Sys2Proof.Machine

/-- With nothing waiting, the credits of a flit are added and nothing leaves. -/
theorem takeCredit_open {s : State} {k : Nat} (f : Bytes) (h : (s.pen k).waiting = []) :
    s.takeCredit k f = s.setPen k (fun x => { x with credits := x.credits + field f 6 2 }) := by
  unfold State.takeCredit
  simp only [pen_setPen_self, h, List.length_nil, State.drainPen]

/-- The last value put at a key stands. -/
theorem NMap.insert_insert {α : Type} (m : NMap α) (i : Nat) (v w : α) : NMap.insert (NMap.insert m i v) i w = NMap.insert m i w := by
  induction m with
  | nil => simp [NMap.insert]
  | cons a r ih =>
    obtain ⟨k, x⟩ := a
    simp only [NMap.insert]
    by_cases h : k < i
    · simp [h, NMap.insert, ih]
    · by_cases e : k = i
      · simp [e, NMap.insert]
      · simp [h, e, NMap.insert]

/-- Two changes of an engine are one. -/
theorem setPen_setPen (s : State) (k : Nat) (f g : PenEngine → PenEngine) : (s.setPen k f).setPen k g = s.setPen k (fun x => g (f x)) := by
  unfold State.setPen
  simp only [NMap.modify, NMap.insert_insert, NMap.getD_insert, if_pos]

/-- A flit in order gives its credits and is taken. -/
theorem flit_inOrder {s : State} {k kind : Nat} {f : Bytes} (h : s.linkOpen k) (hg : flitGood f) (hk : field f 0 1 = kind)
    (hs : field f 2 2 = (s.pen k).expect.toNat) : s.numberedFlit k kind f =
      (s.setPen k (fun x => { x with credits := x.credits + field f 6 2 })).flitInOrder k f := by
  obtain ⟨hu, hr, hw⟩ := h
  unfold State.numberedFlit
  simp only [hu, hr, hg, hk, hs, Bool.not_true, Bool.false_eq_true, or_self, if_false, and_self, if_true]
  rw [takeCredit_open f hw]

/-- A flit in order in clear is delivered and acknowledged. -/
theorem flit_clear {s : State} {k kind : Nat} {f : Bytes} (h : s.linkOpen k) (hg : flitGood f) (hk : field f 0 1 = kind)
    (hs : field f 2 2 = (s.pen k).expect.toNat) (hc : s.confidential = false) : s.numberedFlit k kind f =
      ((s.setPen k (fun x => { x with credits := x.credits + field f 6 2, discarding := false, expect := x.expect + 1 })).penDeliver k kind
        (bit 0 (field f 1 1)) (flitBody f)).sendIdle k := by
  rw [flit_inOrder h hg hk hs]
  have hc' : ∀ g, (s.setPen k g).confidential = false := fun g => hc
  unfold State.flitInOrder
  simp only [setPen_setPen, hc', Bool.not_false, if_true, hk]

/-- The module an engine reaches rests on its peer alone. -/
theorem engineModule_setPen (s : State) (k j : Nat) (g : PenEngine → PenEngine) (h : ∀ x, (g x).peer = x.peer) :
    (s.setPen k g).engineModule j = s.engineModule j := by
  unfold State.engineModule State.me
  rw [pen_setPen]
  split
  · rename_i e; rw [h, e]; rfl
  · rfl

/-- A unit placed has arrived. -/
theorem hasUnit_put (s : State) (src num unit : Nat) (l : Bool) (d : Bytes) (c t : Word) : (s.placeUnit src num unit l d c t).hasUnit src num unit = true := by
  unfold State.placeUnit
  split
  · assumption
  · have : ∀ ms : List Msg, (putMsg ms src num (fun m => m.put unit (d, c, t) l)).any
        (fun m => m.src == src && m.num == num && (NMap.find? m.units unit).isSome) = true := by
      intro ms
      induction ms with
      | nil => simp [putMsg, Msg.put]
      | cons m r ih =>
        unfold putMsg
        split
        · rename_i h; simp [Msg.put, h.1, h.2]
        · rw [List.any_cons, ih, Bool.or_true]
    exact this s.fab.msgs

/-- Sending nothing leaves the receiving side. -/
theorem sent_refl (e : PenEngine) : PenEngine.sentFrom e e := rfl

/-- What only sends twice only sends. -/
theorem PenEngine.sentFrom.trans {a b c : PenEngine} (h : PenEngine.sentFrom a b) (k : PenEngine.sentFrom b c) : PenEngine.sentFrom a c := by
  unfold PenEngine.sentFrom at *; rw [k, h]

/-- A change of the sending side only sends. -/
theorem sent_setPen (s : State) (k j : Nat) (f : PenEngine → PenEngine) (h : ∀ x, PenEngine.sentFrom x (f x)) :
    PenEngine.sentFrom (s.pen j) ((s.setPen k f).pen j) := by
  rw [pen_setPen]; split
  · rename_i e; rw [← e]; exact h _
  · exact rfl

/-- What leaves does not change an engine. -/
theorem pen_emit (s : State) (o : Output) (j : Nat) : (s.emit o).pen j = s.pen j := rfl

/-- A flit sent leaves the receiving side. -/
theorem sent_emitFlit (s : State) (k kind fl : Nat) (b : Bytes) (j : Nat) : PenEngine.sentFrom (s.pen j) ((s.emitFlit k kind fl b).pen j) := by
  unfold State.emitFlit
  extract_lets e f r
  rw [pen_emit]
  have h : ∀ (u : State) (g : PenEngine → PenEngine), u.pen j = s.pen j → (∀ x, PenEngine.sentFrom x (g x)) → PenEngine.sentFrom (s.pen j) ((u.setPen k g).pen j) := by
    intro u g hu hg; rw [← hu]; exact sent_setPen u k j g hg
  refine h _ _ rfl ?_
  clear_value f r
  intro x
  generalize (r.drop (r.length - 512)) = z
  rfl

/-- A flit sent with its tag leaves the receiving side. -/
theorem sent_sendFlit (s : State) (k : Nat) (i : LinkItem) (j : Nat) : PenEngine.sentFrom (s.pen j) ((s.sendFlit k i).pen j) := by
  unfold State.sendFlit
  split
  · unfold State.sendTime
    simp only []
    rw [pen_emit]
    exact sent_setPen _ _ _ _ (fun x => rfl)
  split
  · simp only []
    split
    · refine PenEngine.sentFrom.trans ?_ (sent_setPen _ _ _ _ ?_)
      · refine PenEngine.sentFrom.trans ?_ (sent_emitFlit _ _ _ _ _ j)
        refine PenEngine.sentFrom.trans ?_ (sent_setPen _ _ _ _ ?_)
        · exact sent_emitFlit _ _ _ _ _ j
        · intro x; rfl
      · intro x; rfl
    · refine PenEngine.sentFrom.trans ?_ (sent_setPen _ _ _ _ ?_)
      · exact sent_emitFlit _ _ _ _ _ j
      · intro x; rfl
  · exact sent_emitFlit _ _ _ _ _ _

/-- What waits and leaves leaves the receiving side. -/
theorem sent_drainPen (n : Nat) (s : State) (k j : Nat) : PenEngine.sentFrom (s.pen j) ((State.drainPen n s k).pen j) := by
  induction n generalizing s with
  | zero => exact rfl
  | succ n ih =>
    unfold State.drainPen
    split
    · exact rfl
    · refine PenEngine.sentFrom.trans ?_ (ih _)
      refine PenEngine.sentFrom.trans ?_ (sent_sendFlit _ _ _ _)
      refine sent_setPen _ _ _ _ ?_
      intro x; rfl

/-- A message carried leaves the receiving sides. -/
theorem sent_transmit (s : State) (dst : Nat) (is : List LinkItem) (j : Nat) : PenEngine.sentFrom (s.pen j) ((s.transmit dst is).pen j) := by
  unfold State.transmit
  split
  · split
    · unfold State.toPen
      refine PenEngine.sentFrom.trans ?_ (sent_drainPen _ _ _ _)
      refine sent_setPen _ _ _ _ ?_
      intro x; rfl
    · exact rfl
  · have : ∀ is', (s.stripe dst is').pen j = s.pen j := by
      intro is'
      unfold State.pen; rw [show (s.stripe dst is').fab.pen = s.fab.pen from (State.stripe_only _ _ _).get .pen]
    rw [this]; exact rfl

/-- A message raises no event. -/
theorem message_events (s : State) (dst : Nat) (k : MsgKind) (b : Bytes) : (s.message dst k b).events = s.events :=
  (State.message_only _ _ _ _).get .events

/-- A message is put out behind what is out. -/
theorem prefix_message (s : State) (dst : Nat) (k : MsgKind) (b : Bytes) : s.out ++ [.message dst k.code b] <+: (s.message dst k b).out := by
  unfold State.message State.sendControl
  have e : ((s.emit (.message dst k.code b)).countControl dst).out = s.out ++ [.message dst k.code b] :=
    (State.countControl_only (s.emit (.message dst k.code b)) dst).get .out
  rw [← e]
  exact prefix_transmit _ _ _

/-- An event leaves the pen engines. -/
theorem raise_pen (s : State) (c u i q h k) : (s.raise c u i q h).pen k = s.pen k := by
  unfold State.pen; rw [(State.raise_only s c u i q h).get .pen]

/-- A counted fault leaves the pen engines. -/
theorem countedFault_pen (s : State) (u k) : (s.countedFault u).pen k = s.pen k := by
  unfold State.pen; rw [(State.countedFault_only s u).get .pen]

/-- A unit after a change of one. -/
theorem unit_setUnit (s : State) (u v : Half) (f : LedgerEntry → LedgerEntry) : (s.setUnit u f).unit v = if u = v then f (s.unit u) else s.unit v := by
  unfold State.setUnit State.unit
  rw [NMap.getD_modify]
  by_cases h : u = v
  · rw [if_pos (by rw [h]), if_pos h]
  · rw [if_neg (fun e => h (BitVec.eq_of_toNat_eq e)), if_neg h]

/-- A counted fault counts. -/
theorem count_counted (e : LedgerEntry) (t : BitVec 48) : (e.count t).counted = satAdd e.counted 1 := by
  unfold LedgerEntry.count
  simp only []
  split
  · rfl
  · split <;> rfl

/-- An event leaves the ledger. -/
theorem raise_unit (s : State) (c u i q h v) : (s.raise c u i q h).unit v = s.unit v := by
  unfold State.unit; rw [(State.raise_only s c u i q h).get .ledger]

/-- A fault of a unit with none counted in the step is counted and raises UNIT_FAULT. -/
theorem countedFault_new (s : State) (u : Half) (h : (s.unit u).countedIn = none) : ∃ a b : State, Only [.ledger] s a ∧ Raised 0x7201 u a b
    ∧ Only [.tel, .events] b (s.countedFault u) ∧ ((s.countedFault u).unit u).counted = satAdd (s.unit u).counted 1 := by
  unfold State.countedFault
  simp only [h, reduceCtorEq, and_false, if_false]
  generalize hg : (fun _ : LedgerEntry => ({ (s.unit u).count s.lifeStep with countedIn := if s.jobRuns then some s.seq.step else none } : LedgerEntry)) = g
  have gc : ∀ x, (g x).counted = satAdd (s.unit u).counted 1 := by intro x; rw [← hg]; exact count_counted _ _
  refine ⟨s.setUnit u g, (s.setUnit u g).raise 0x7201 u, State.setUnit_only s u g, Raised.of_raise _ 0x7201 u 0 0 false, ?_, ?_⟩
  · split
    · exact State.raise_only _ _ _ _ _ _
    · exact Only.refl _
  · split <;> simp only [raise_unit, unit_setUnit, if_true, gc]

/-- What leaves does not change the cabling. -/
theorem miscabled_emit (s : State) (o : Output) (m d) : (s.emit o).miscabled m d = s.miscabled m d := rfl

/-- An engine that has carried a peer is no spare. -/
theorem spareNow_used {s : State} {k : Nat} (pos : Nat) (h : (NMap.find? s.boot.penPeers k).isSome = true) : s.spareNow k pos = false := by
  unfold State.spareNow
  cases e : NMap.find? s.boot.penPeers k
  · rw [e] at h; exact absurd h (by decide)
  · rfl

/-- An engine that is down stays down while others fail. -/
theorem failed_kept (s : State) (k j : Nat) (h : (s.pen j).up = false ∧ (s.pen j).valid = false) :
    ((s.trainFailed k).pen j).up = false ∧ ((s.trainFailed k).pen j).valid = false := by
  unfold State.trainFailed
  split
  · exact h
  · rw [countedFault_pen, raise_pen, pen_setPen]
    split
    · exact ⟨rfl, rfl⟩
    · exact h

/-- Each engine has its own unit. -/
theorem unitEngine_inj {a b : Nat} (ha : a < 8) (hb : b < 8) (h : unitEngine a = unitEngine b) : a = b := by
  unfold unitEngine at h
  have := congrArg BitVec.toNat h
  simp only [BitVec.toNat_ofNat] at this
  omega

/-- A failed engine changes its own ledger entry alone. -/
theorem trainFailed_unit (s : State) (k : Nat) (v : Half) (h : unitEngine k ≠ v) : (s.trainFailed k).unit v = s.unit v := by
  unfold State.trainFailed
  split
  · rfl
  · unfold State.countedFault
    simp only []
    have e : ((s.setPen k (fun x => { x with up := false, valid := false })).raise 0x5001 (unitEngine k)).unit v = s.unit v := by rw [raise_unit]; rfl
    split
    · exact e
    · split
      · rw [raise_unit, raise_unit, unit_setUnit, if_neg h, e]
      · rw [raise_unit, unit_setUnit, if_neg h, e]

/-- An available engine that failed is down. -/
theorem trainFailed_down (s : State) (k : Nat) (h : s.unavailable (unitEngine k) = false) :
    ((s.trainFailed k).pen k).up = false ∧ ((s.trainFailed k).pen k).valid = false := by
  unfold State.trainFailed
  rw [if_neg (by simp [h]), countedFault_pen, raise_pen, pen_setPen_self]
  exact ⟨rfl, rfl⟩

/-- Every engine that failed is down. -/
theorem failed_all (fs : List (Fin 8)) (s : State) (j : Fin 8)
    (h : (j ∈ fs ∧ s.unavailable (unitEngine j) = false) ∨ ((s.pen j).up = false ∧ (s.pen j).valid = false)) :
    (((fs.map (·.val)).foldl (fun (st : State) k => st.trainFailed k) s).pen j).up = false
    ∧ (((fs.map (·.val)).foldl (fun (st : State) k => st.trainFailed k) s).pen j).valid = false := by
  induction fs generalizing s with
  | nil => rcases h with ⟨h, _⟩ | h
           · simp at h
           · exact h
  | cons a r ih =>
    rw [List.map_cons, List.foldl_cons]
    apply ih
    rcases h with ⟨hm, hu⟩ | h
    · by_cases e : j = a
      · right; rw [← e]; exact trainFailed_down s j hu
      · left
        refine ⟨by simpa [e] using hm, ?_⟩
        unfold State.unavailable at *
        rw [trainFailed_unit _ _ _ (fun h => e (Fin.ext (unitEngine_inj a.isLt j.isLt h)).symm)]
        exact hu
    · right; exact failed_kept _ _ _ h

/-- A connection after a change of one. -/
theorem conn_setConn (s : State) (d p d' p' : Nat) (f : Conn → Conn) :
    (s.setConn d p f).conn d' p' = if connKey d p = connKey d' p' then f (s.conn d p) else s.conn d' p' := by
  unfold State.setConn State.conn
  rw [NMap.getD_modify]

/-- The connection that is changed. -/
theorem conn_setConn_self (s : State) (d p : Nat) (f : Conn → Conn) : (s.setConn d p f).conn d p = f (s.conn d p) := by
  rw [conn_setConn, if_pos rfl]

/-- A herd port after a change of one. -/
theorem herdPort_setHerd (s : State) (i j : Nat) (f : HerdPort → HerdPort) : (s.setHerd i f).herdPort j = if i = j then f (s.herdPort i) else s.herdPort j := by
  unfold State.setHerd State.herdPort
  rw [NMap.getD_modify]

/-- A connection is unchanged where the part is. -/
theorem conn_of {m : List Part} {s t : State} (o : Only m s t) (h : m.contains .conns = false := by rfl) (d p : Nat) : t.conn d p = s.conn d p := by
  unfold State.conn; rw [o.get .conns h]

/-- A herd port is unchanged where the part is. -/
theorem herdPort_of {m : List Part} {s t : State} (o : Only m s t) (h : m.contains .herd = false := by rfl) (i : Nat) : t.herdPort i = s.herdPort i := by
  unfold State.herdPort; rw [o.get .herd h]

/-- What only sends twice only sends. -/
theorem Conn.sentFrom.trans {a b c : Conn} (h : Conn.sentFrom a b) (k : Conn.sentFrom b c) : Conn.sentFrom a c := by
  unfold Conn.sentFrom at *; rw [k, h]

/-- What sending leaves of a connection. -/
theorem Conn.sentFrom.keeps {a b : Conn} (h : Conn.sentFrom a b) : b.rate = a.rate ∧ b.lowered = a.lowered ∧ b.stopped = a.stopped
    ∧ b.below = a.below ∧ b.got = a.got ∧ b.removed = a.removed := by
  unfold Conn.sentFrom at h; rw [h]; exact ⟨rfl, rfl, rfl, rfl, rfl, rfl⟩

/-- A change of a connection's sending side only sends. -/
theorem csent_setConn (s : State) (d p d' p' : Nat) (f : Conn → Conn) (h : ∀ x, Conn.sentFrom x (f x)) :
    Conn.sentFrom (s.conn d' p') ((s.setConn d p f).conn d' p') := by
  rw [conn_setConn]
  split
  · rename_i e
    have : s.conn d p = s.conn d' p' := by unfold State.conn; rw [e]
    rw [← this]; exact h _
  · exact rfl

/-- What leaves does not change a connection. -/
theorem conn_emit (s : State) (o : Output) (d p : Nat) : (s.emit o).conn d p = s.conn d p := rfl

/-- A packet sent only sends. -/
theorem csent_sendPacket (s : State) (d p : Nat) (i : LinkItem) (d' p' : Nat) : Conn.sentFrom (s.conn d' p') ((s.sendPacket d p i).conn d' p') := by
  unfold State.sendPacket
  extract_lets c path header payload
  rw [conn_emit]
  have h : ∀ (u : State) (g : Conn → Conn), u.conn d' p' = s.conn d' p' → (∀ x, Conn.sentFrom x (g x)) → Conn.sentFrom (s.conn d' p') ((u.setConn d p g).conn d' p') := by
    intro u g hu hg; rw [← hu]; exact csent_setConn u d p d' p' g hg
  refine h _ _ rfl ?_
  clear_value header payload path
  intro x
  rfl

/-- An item sent only sends. -/
theorem csent_sendItem (s : State) (d p : Nat) (i : LinkItem) (d' p' : Nat) : Conn.sentFrom (s.conn d' p') ((s.sendItem d p i).conn d' p') := by
  unfold State.sendItem
  split
  · unfold State.sendUnnumbered
    simp only []
    rw [conn_emit]
    exact csent_setConn _ _ _ _ _ _ (fun x => rfl)
  · exact csent_sendPacket _ _ _ _ _ _

/-- What waits and leaves only sends. -/
theorem csent_drainConn (n : Nat) (s : State) (d p d' p' : Nat) : Conn.sentFrom (s.conn d' p') ((State.drainConn n s d p).conn d' p') := by
  induction n generalizing s with
  | zero => exact rfl
  | succ n ih =>
    unfold State.drainConn
    split
    · exact rfl
    · refine Conn.sentFrom.trans ?_ (ih _)
      refine Conn.sentFrom.trans ?_ (csent_sendItem _ _ _ _ _ _)
      refine csent_setConn _ _ _ _ _ _ ?_
      intro x; rfl

/-- An item given to a connection only sends. -/
theorem csent_toConn (s : State) (d p : Nat) (i : LinkItem) (d' p' : Nat) : Conn.sentFrom (s.conn d' p') ((s.toConn d p i).conn d' p') := by
  unfold State.toConn
  refine Conn.sentFrom.trans ?_ (csent_drainConn _ _ _ _ _ _)
  refine csent_setConn _ _ _ _ _ _ ?_
  intro x; rfl

/-- Items striped over the planes only send. -/
theorem csent_stripe (s : State) (d : Nat) (is : List LinkItem) (d' p' : Nat) : Conn.sentFrom (s.conn d' p') ((s.stripe d is).conn d' p') := by
  unfold State.stripe
  split
  · exact rfl
  · rename_i p ps hps
    simp only []
    clear hps
    generalize is.zipIdx = l
    induction l generalizing s with
    | nil => exact rfl
    | cons a l ih =>
      simp only [List.foldl_cons]
      refine Conn.sentFrom.trans ?_ (ih _)
      exact csent_toConn s _ _ _ _ _

/-- A lower rate leaves what has arrived. -/
theorem lowerRate_conn (s : State) (r i ce d p : Nat) : ((s.lowerRate r i ce).conn d p).below = (s.conn d p).below
    ∧ ((s.lowerRate r i ce).conn d p).got = (s.conn d p).got := by
  unfold State.lowerRate
  split
  · exact ⟨rfl, rfl⟩
  · extract_lets c due s1
    rw [conn_of (State.raiseOnce_only s1 0 0x5204 _ _ _ _)]
    unfold s1
    split
    · rw [conn_setConn]
      split
      · rename_i e
        have : s.conn r i = s.conn d p := by unfold State.conn; rw [e]
        rw [← this]; exact ⟨rfl, rfl⟩
      · exact ⟨rfl, rfl⟩
    · exact ⟨rfl, rfl⟩

/-- An acknowledgement leaves what has arrived. -/
theorem takeAck_conn (s : State) (r i : Nat) (h : Bytes) (d p : Nat) : ((s.takeAck r i h).conn d p).below = (s.conn d p).below
    ∧ ((s.takeAck r i h).conn d p).got = (s.conn d p).got := by
  unfold State.takeAck
  split
  · exact ⟨rfl, rfl⟩
  · extract_lets c a s1
    have k := csent_drainConn ((s1.lowerRate r i (field h 30 2)).conn r i).waiting.length (s1.lowerRate r i (field h 30 2)) r i d p
    unfold State.drainTo
    rw [k]
    have l := lowerRate_conn s1 r i (field h 30 2) d p
    have m : (s1.conn d p).below = (s.conn d p).below ∧ (s1.conn d p).got = (s.conn d p).got := by
      unfold s1
      split
      · rw [conn_setConn]
        split
        · rename_i e
          have : s.conn r i = s.conn d p := by unfold State.conn; rw [e]
          rw [← this]; exact ⟨rfl, rfl⟩
        · exact ⟨rfl, rfl⟩
      · exact ⟨rfl, rfl⟩
    exact ⟨l.1.trans m.1, l.2.trans m.2⟩

/-- What a packet that arrived moves. -/
theorem packetArrived_conn (s : State) (r i seq : Nat) (ce : Bool) :
    ((s.packetArrived r i seq ce).conn r i).below = (advance ((s.conn r i).got.length + 1) (s.conn r i).below ((s.conn r i).got ++ [seq])).1
    ∧ ((s.packetArrived r i seq ce).conn r i).got = (advance ((s.conn r i).got.length + 1) (s.conn r i).below ((s.conn r i).got ++ [seq])).2
    ∧ ((s.packetArrived r i seq ce).conn r i).ackDue = true := by
  unfold State.packetArrived
  extract_lets s1
  have k : (s1.conn r i).below = (advance ((s.conn r i).got.length + 1) (s.conn r i).below ((s.conn r i).got ++ [seq])).1
    ∧ (s1.conn r i).got = (advance ((s.conn r i).got.length + 1) (s.conn r i).below ((s.conn r i).got ++ [seq])).2
    ∧ (s1.conn r i).ackDue = true := by
    unfold s1; rw [conn_setConn_self]; exact ⟨rfl, rfl, rfl⟩
  split
  · rw [conn_of (State.raiseOnce_only _ 0 0x5204 _ _ _ _)]; exact k
  · exact k

/-- A packet that a port takes is delivered. -/
theorem numbered_open {s : State} {i kind : Nat} {p : HerdPacket} (h : s.packetOpen i kind p) (f : State → Nat → Bytes → State) :
    s.numberedPacket i kind p f = f ((s.takeAck (packetSource p.header) i p.header).packetArrived (packetSource p.header) i
      (recoverSeq (s.conn (packetSource p.header) i).below (field p.header 8 4)) (packetCe p)) (packetSource p.header) p.payload := by
  obtain ⟨h1, h2, h3, h4, h5, h6, h7⟩ := h
  unfold State.numberedPacket State.onFrame
  rw [if_neg (by simp [h1]), if_neg (by simp [h2])]
  show s.numberedFrame i kind p f = _
  unfold State.numberedFrame
  extract_lets hh r c seq
  rw [if_neg (by simp [hh, r, h3, h4, h5, h6, h7.1])]
  rw [if_neg (by
    simp only [c, seq, r, hh, Bool.or_eq_true, decide_eq_true_eq]
    rw [h7.2.1]; simp; exact h7.2.2)]
  unfold State.openPayload
  rw [if_neg (by simp [h5])]

/-- What a port that took a packet has received. -/
theorem packet_taken {s : State} {i : Nat} {p : HerdPacket} {u t : State} {m : List Part} (o : Only m u t)
    (hu : u = (s.takeAck (packetSource p.header) i p.header).packetArrived (packetSource p.header) i
      (recoverSeq (s.conn (packetSource p.header) i).below (field p.header 8 4)) (packetCe p)) (h : m.contains .conns = false := by rfl) : PacketTaken i p s t := by
  unfold PacketTaken
  simp only []
  rw [conn_of o h, hu]
  obtain ⟨a, b, c⟩ := packetArrived_conn (s.takeAck (packetSource p.header) i p.header) (packetSource p.header) i
    (recoverSeq (s.conn (packetSource p.header) i).below (field p.header 8 4)) (packetCe p)
  obtain ⟨d, e⟩ := takeAck_conn s (packetSource p.header) i p.header (packetSource p.header) i
  rw [a, b, c, d, e]; exact ⟨rfl, rfl, rfl⟩

/-- What arriving may change. -/
theorem arrived_only (s : State) (r i : Nat) (h : Bytes) (q : Nat) (ce : Bool) :
    Only [.out, .stats, .tel, .herd, .conns, .events] s ((s.takeAck r i h).packetArrived r i q ce) :=
  ((State.takeAck_only _ _ _ _).mono rfl).trans ((State.packetArrived_only _ _ _ _ _).mono rfl)

/-- The time alone. -/
theorem timed_only' (s : State) (n : Long) : Only [.time] s (s.timed n) := State.timed_only s n

/-- A unit placed leaves those that have arrived. -/
theorem putMsg_has (ms : List Msg) (src num unit : Nat) (v : Bytes × Word × Word) (l : Bool) (a b c : Nat)
    (h : ms.any (fun m => m.src == a && m.num == b && (NMap.find? m.units c).isSome) = true) :
    (putMsg ms src num (fun m => m.put unit v l)).any (fun m => m.src == a && m.num == b && (NMap.find? m.units c).isSome) = true := by
  induction ms with
  | nil => simp at h
  | cons m r ih =>
    unfold putMsg
    rw [List.any_cons, Bool.or_eq_true] at h
    split
    · rw [List.any_cons, Bool.or_eq_true]
      rcases h with h | h
      · left
        simp only [Bool.and_eq_true] at h ⊢
        refine ⟨h.1, ?_⟩
        show (NMap.find? (NMap.insert m.units unit v) c).isSome = true
        rw [NMap.find?_insert]
        split
        · rfl
        · exact h.2
      · right; exact h
    · rw [List.any_cons, Bool.or_eq_true]
      rcases h with h | h
      · left; exact h
      · right; exact ih h

/-- A unit placed leaves those that have arrived. -/
theorem placeUnit_has (s : State) (src num unit : Nat) (l : Bool) (d : Bytes) (x y : Word) (a b c : Nat) (h : s.hasUnit a b c = true) :
    (s.placeUnit src num unit l d x y).hasUnit a b c = true := by
  unfold State.placeUnit
  split
  · exact h
  · exact putMsg_has _ _ _ _ _ _ _ _ _ h

/-- Units that pass their checks all arrive. -/
theorem placeUnits_good (src num unit n : Nat) (last : Bool) (b : Bytes)
    (hg : ∀ j, j < n → checkWord ((slice b (520 * j) 520).take 512) (BitVec.ofNat 32 (field (slice b (520 * j) 520) 516 4)) =
        BitVec.ofNat 32 (field (slice b (520 * j) 520) 512 4)) (s : State) :
    Only [.msgs] s (s.placeUnits src num unit n last b) ∧ ∀ j, j < n → (s.placeUnits src num unit n last b).hasUnit src num (unit + j) = true := by
  unfold State.placeUnits
  have key : ∀ k, k ≤ n → Only [.msgs] s ((List.range k).foldl (fun (st : State) j => st.arriveUnit src num (unit + j) (last && j + 1 == n) (slice b (520 * j) 520)) s)
      ∧ ∀ j, j < k → ((List.range k).foldl (fun (st : State) j => st.arriveUnit src num (unit + j) (last && j + 1 == n) (slice b (520 * j) 520)) s).hasUnit src num (unit + j) = true := by
    intro k
    induction k with
    | zero => intro _; exact ⟨Only.refl _, fun j h => by omega⟩
    | succ k ih =>
      intro hk
      obtain ⟨o, g⟩ := ih (by omega)
      rw [List.range_succ, List.foldl_append]
      simp only [List.foldl_cons, List.foldl_nil]
      generalize (List.range k).foldl _ s = A at *
      have e : A.arriveUnit src num (unit + k) (last && k + 1 == n) (slice b (520 * k) 520) =
          A.placeUnit src num (unit + k) (last && k + 1 == n) ((slice b (520 * k) 520).take 512)
            (BitVec.ofNat 32 (field (slice b (520 * k) 520) 512 4)) (BitVec.ofNat 32 (field (slice b (520 * k) 520) 516 4)) := by
        unfold State.arriveUnit
        simp only []
        rw [if_pos (hg k (by omega))]
      rw [e]
      refine ⟨o.trans (State.placeUnit_only _ _ _ _ _ _ _ _), fun j hj => ?_⟩
      by_cases h : j = k
      · rw [h]; exact hasUnit_put _ _ _ _ _ _ _ _
      · exact placeUnit_has _ _ _ _ _ _ _ _ _ _ _ (g j (by omega))
  exact key n (Nat.le_refl n)

/-- Messages are unchanged where the part is. -/
theorem msgs_of {m : List Part} {s t : State} (o : Only m s t) (h : m.contains .msgs = false := by rfl) : t.fab.msgs = s.fab.msgs := by
  have := o.get .msgs h
  simp only [Part.same] at this
  rw [this]

/-- A message not seen before is put last. -/
theorem putMsg_new (ms : List Msg) (src num : Nat) (f : Msg → Msg) (h : ∀ m ∈ ms, ¬(m.src = src ∧ m.num = num)) :
    putMsg ms src num f = ms ++ [f { src := src, num := num, units := [] }] := by
  induction ms with
  | nil => rfl
  | cons m r ih =>
    unfold putMsg
    rw [if_neg (h m (by simp)), ih (fun x hx => h x (by simp [hx]))]
    rfl

/-- A control message of one packet is complete at once. -/
theorem controlPart_whole (s : State) (src num : Nat) (b : Bytes) (M : List Msg) (h : ∀ m ∈ s.fab.msgs, ¬(m.src = src ∧ m.num = num))
    (hc : field b 0 2 ≠ MsgKind.resent.code) (ht : field b 0 2 ≠ MsgKind.timeTransfer.code)
    (hM : putMsg s.fab.msgs src (msgNumber (field b 0 2) (s.fab.msgs.countP (fun m => m.src == src && m.num / 65536 == field b 0 2)))
      (fun m => m.put 0 (slice b 4 (field b 2 2), 0, 0) true) = M) : s.controlPart src num 0 true b = { s with fab.msgs := M } := by
  unfold State.controlPart
  extract_lets -merge src0 s1
  have e1 : s1.fab.msgs = s.fab.msgs ++ [{ src := src, num := num, units := [(0, (b, 0, 0))], total := some 1, visible := true }] := by
    show putMsg s.fab.msgs src num _ = _
    rw [putMsg_new _ _ _ _ h]
    simp [Msg.put, NMap.insert]
  have nf : ∀ m ∈ s.fab.msgs, (m.src == src && m.num == num && m.visible) = false := by
    intro m hm
    have := h m hm
    by_cases a : m.src = src
    · have : m.num ≠ num := fun e => this ⟨a, e⟩
      simp [this]
    · simp [a]
  have ef : s1.fab.msgs.find? (fun m => m.src == src && m.num == num && m.visible) =
      some { src := src, num := num, units := [(0, (b, 0, 0))], total := some 1, visible := true } := by
    rw [e1, List.find?_append, find_none _ _ nf]
    simp
  rw [ef]
  simp only [List.map_cons, List.map_nil, List.flatten_cons, List.flatten_nil, List.append_nil]
  have e2 : s1.fab.msgs.filter (fun x => !(x.src == src && x.num == num && x.visible)) = s.fab.msgs := by
    rw [e1, List.filter_append]
    have : s.fab.msgs.filter (fun x => !(x.src == src && x.num == num && x.visible)) = s.fab.msgs := by
      rw [List.filter_eq_self]; intro m hm; rw [nf m hm]; rfl
    rw [this]; simp
  rw [e2]
  unfold State.controlArrived
  simp only []
  rw [if_neg ht, if_neg hc]
  simp only [hM]
  rfl

/-- Timestamps are kept with the time they arrived. -/
theorem takeTimes_transfer (s : State) (peer : Nat) (b : Bytes) :
    NMap.find? (s.takeTimes peer b).clk.transfers peer = some (BitVec.ofNat 64 (field b 0 8), s.clk.time) := by
  unfold State.takeTimes
  simp only []
  split
  · split
    · exact NMap.find?_insert_self _ _ _
    · rw [(State.raise_only _ 0x1101 0 0 0 false).clk]; exact NMap.find?_insert_self _ _ _
  · exact NMap.find?_insert_self _ _ _

/-- With nothing waiting nothing leaves. -/
theorem drainTo_idle {s : State} {r i : Nat} (h : (s.conn r i).waiting = []) : s.drainTo r i = s := by
  unfold State.drainTo; rw [h]; rfl

/-- A packet sent again leaves with the same bytes behind the headers of its new path. -/
theorem sendAgain_out (s : State) (r i : Nat) (x : SentPacket) (now : Long) : ∃ q o,
    (s.sendAgain r i x now).out = s.out ++ [.herdPacket i q o x.header x.payload]
    ∧ ((s.sendAgain r i x now).herdPort i).retx = satAdd (s.herdPort i).retx 1 := by
  unfold State.sendAgain
  extract_lets s1 c path y s2
  have o1 : Only [.tel, .conns, .events] s s1 := State.pathLoss_only _ _ _ _ _
  have a : s2.out = s.out ++ [.herdPacket i path (s1.outerHeader r i path (field x.header 0 1 / 16) (x.header ++ x.payload)) x.header x.payload] := by
    have : ∀ (u : State) (o : Output), (u.emit o).out = u.out ++ [o] := fun _ _ => rfl
    unfold s2
    rw [this, (State.setHerd_only _ _ _).get .out, (State.setConn_only _ _ _ _).get .out, show s1.out = s.out from o1.get .out]
  have b : (s2.herdPort i).retx = satAdd (s.herdPort i).retx 1 := by
    unfold s2
    rw [herdPort_of (State.emit_only _ _), herdPort_setHerd, if_pos rfl, herdPort_of (State.setConn_only _ _ _ _), herdPort_of o1]
  refine ⟨path, s1.outerHeader r i path (field x.header 0 1 / 16) (x.header ++ x.payload), ?_, ?_⟩
  · split
    · rw [(State.raiseHalt_only s2 0x5203 _ _ _).get .out]; exact a
    · exact a
  · split
    · rw [herdPort_of (State.raiseHalt_only s2 0x5203 _ _ _)]; exact b
    · exact b

/-- A first loss on a path is entered. -/
theorem pathLoss_none (s : State) (r i path : Nat) (now : Long) (h : NMap.find? (s.conn r i).lossAt path = none) :
    s.pathLoss r i path now = s.setConn r i (fun c => { c with lossAt := NMap.insert c.lossAt path [now] }) := by
  unfold State.pathLoss
  have e : NMap.getD (s.conn r i).lossAt path [] = [] := by unfold NMap.getD; rw [h]; rfl
  simp only [e, List.filter_nil, List.nil_append, List.length_cons, List.length_nil]
  rw [if_neg (by simp)]

/-- Two changes of a connection are one. -/
theorem setConn_setConn (s : State) (d p : Nat) (f g : Conn → Conn) : (s.setConn d p f).setConn d p g = s.setConn d p (fun x => g (f x)) := by
  unfold State.setConn
  simp only [NMap.modify, NMap.insert_insert, NMap.getD_insert, if_pos]

/-- Another key of a map is unchanged. -/
theorem find_insert_ne {α : Type} (m : NMap α) (i j : Nat) (v : α) (h : j ≠ i) : NMap.find? (NMap.insert m i v) j = NMap.find? m j := by
  rw [NMap.find?_insert, if_neg (fun e => h e.symm)]

/-- What a plane sends leaves the pauses of its ports. -/
theorem drainPlane_paused (s : State) (i j : Nat) : ((s.drainPlane i).herdPort j).paused = (s.herdPort j).paused
    ∧ ((s.drainPlane i).herdPort j).pauseSince = (s.herdPort j).pauseSince := by
  have again : ∀ (t : State) r (x : SentPacket) now, ((t.sendAgain r i x now).herdPort j).paused = (t.herdPort j).paused
      ∧ ((t.sendAgain r i x now).herdPort j).pauseSince = (t.herdPort j).pauseSince := by
    intro t r x now
    unfold State.sendAgain
    extract_lets s1 c path y s2
    have h : (s2.herdPort j).paused = (t.herdPort j).paused ∧ (s2.herdPort j).pauseSince = (t.herdPort j).pauseSince := by
      unfold s2
      rw [herdPort_of (State.emit_only _ _), herdPort_setHerd]
      rw [show t.herdPort j = s1.herdPort j from (herdPort_of (State.pathLoss_only t r i x.path now) rfl j).symm]
      split
      · rename_i e
        subst e
        rw [herdPort_of (State.setConn_only _ _ _ _)]; exact ⟨rfl, rfl⟩
      · rw [herdPort_of (State.setConn_only _ _ _ _)]; exact ⟨rfl, rfl⟩
    split
    · rw [herdPort_of (State.raiseHalt_only s2 0x5203 _ _ _)]; exact h
    · exact h
  have resend : ∀ (t : State) r (x : SentPacket) now, ((t.resendPacket r i x now).herdPort j).paused = (t.herdPort j).paused
      ∧ ((t.resendPacket r i x now).herdPort j).pauseSince = (t.herdPort j).pauseSince := by
    intro t r x now
    unfold State.resendPacket
    split
    · rw [herdPort_of (State.setConn_only _ _ _ _)]; exact ⟨rfl, rfl⟩
    · exact again t r x now
  have held : ∀ (xs : List SentPacket) (t : State) r, ((xs.foldl (fun (st : State) x => st.resendPacket r i x st.clk.time) t).herdPort j).paused = (t.herdPort j).paused
      ∧ ((xs.foldl (fun (st : State) x => st.resendPacket r i x st.clk.time) t).herdPort j).pauseSince = (t.herdPort j).pauseSince := by
    intro xs
    induction xs with
    | nil => exact fun t r => ⟨rfl, rfl⟩
    | cons x xs ih =>
      intro t r
      rw [List.foldl_cons]
      exact ⟨(ih _ r).1.trans (resend t r x _).1, (ih _ r).2.trans (resend t r x _).2⟩
  unfold State.drainPlane
  generalize (s.fab.conns.map (·.1)).filter (fun e => e % 8 == i) = l
  induction l generalizing s with
  | nil => exact ⟨rfl, rfl⟩
  | cons e l ih =>
    rw [List.foldl_cons]
    have k := held ((s.conn (e / 8) i).sent.filter (·.held)) s (e / 8)
    have d : (((s.resendHeld (e / 8) i).drainTo (e / 8) i).herdPort j) = ((s.resendHeld (e / 8) i).herdPort j) :=
      herdPort_of (State.drainTo_only _ _ _) rfl j
    have := ih ((s.resendHeld (e / 8) i).drainTo (e / 8) i)
    rw [d] at this
    exact ⟨this.1.trans k.1, this.2.trans k.2⟩

/-- The end of a pause. -/
theorem resume_facts (s : State) (i q : Nat) : Only [.herd, .out, .stats, .conns, .halt, .tel, .events] s (s.resume i q)
    ∧ ((s.resume i q).herdPort i).paused = NMap.erase (s.herdPort i).paused q
    ∧ ((s.resume i q).herdPort i).pauseSince = NMap.erase (s.herdPort i).pauseSince q := by
  unfold State.resume
  refine ⟨((State.setHerd_only _ _ _).mono rfl).trans ((State.drainPlane_only _ _).mono rfl), ?_, ?_⟩
  · rw [(drainPlane_paused _ _ _).1, herdPort_setHerd, if_pos rfl]
  · rw [(drainPlane_paused _ _ _).2, herdPort_setHerd, if_pos rfl]

/-- A connection stopped stays stopped. -/
theorem stopConn_stopped (s : State) (m i : Nat) : ((s.stopConn m i).conn m i).stopped = true
    ∧ ∀ d p, (s.conn d p).stopped = true → ((s.stopConn m i).conn d p).stopped = true := by
  have pres : ∀ (u : State) (f : Conn → Conn), (∀ x, (f x).stopped = x.stopped ∨ (f x).stopped = true) → ∀ d p, (u.conn d p).stopped = true →
      ((u.setConn m i f).conn d p).stopped = true := by
    intro u f hf d p h
    rw [conn_setConn]
    split
    · rename_i e
      have : u.conn m i = u.conn d p := by unfold State.conn; rw [e]
      rw [this]
      rcases hf (u.conn d p) with g | g
      · rw [g]; exact h
      · exact g
    · exact h
  unfold State.stopConn
  extract_lets c s1
  have a : (s1.conn m i).stopped = true := by unfold s1; rw [conn_setConn_self]
  have b : ∀ d p, (s.conn d p).stopped = true → (s1.conn d p).stopped = true := by
    intro d p h; unfold s1; exact pres s _ (fun _ => .inr rfl) d p h
  split
  · exact ⟨a, b⟩
  · have k : ∀ d p, (s1.conn d p).stopped = true → (((s1.setConn m i (fun c => { c with sent := [], waiting := [] })).stripe m
        (c.sent.map (fun x => s.itemOf m i x) ++ c.waiting.filter (fun x => x.kind != 1 && x.kind != 2))).conn d p).stopped = true := by
      intro d p h
      rw [(Conn.sentFrom.keeps (csent_stripe _ _ _ d p)).2.2.1]
      exact pres s1 (fun c => { c with sent := [], waiting := [] }) (fun _ => .inl rfl) d p h
    exact ⟨k m i a, fun d p h => k d p (b d p h)⟩

/-- Every connection of a list is stopped. -/
theorem stopConns (l : List Nat) (s : State) (i : Nat) (m : Nat) (h : m ∈ l ∨ (s.conn m i).stopped = true) :
    ((l.foldl (fun (st : State) m => st.stopConn m i) s).conn m i).stopped = true := by
  induction l generalizing s with
  | nil => rcases h with h | h
           · simp at h
           · exact h
  | cons a r ih =>
    rw [List.foldl_cons]
    apply ih
    rcases h with h | h
    · by_cases e : m = a
      · right; rw [e]; exact (stopConn_stopped s a i).1
      · left; simpa [e] using h
    · right; exact (stopConn_stopped s a i).2 m i h

/-- The first tick at least two periods on. -/
theorem announced (last now p : Nat) (hp : 0 < p) (h : last ≤ now) (hn : now + 2 * p < 2 ^ 63) :
    now + 2 * p ≤ (BitVec.ofNat 64 (last + ceilDiv (now + 2 * p - last) p * p)).toNat
    ∧ ((BitVec.ofNat 64 (last + ceilDiv (now + 2 * p - last) p * p)).toNat - last) % p = 0 := by
  unfold ceilDiv
  generalize hx : now + 2 * p - last = x
  have e1 : x ≤ (x + p - 1) / p * p := by
    have := Nat.div_add_mod (x + p - 1) p
    have := Nat.mod_lt (x + p - 1) hp
    rw [Nat.mul_comm]
    omega
  have e2 : (x + p - 1) / p * p ≤ x + p - 1 := Nat.div_mul_le_self _ _
  rw [BitVec.toNat_ofNat, Nat.mod_eq_of_lt (by omega)]
  refine ⟨by omega, ?_⟩
  rw [Nat.add_sub_cancel_left]
  exact Nat.mul_mod_left _ _

end Sys2Proof.Machine
end

