-- ==== Sys2Proof/Laws/OnlyExec.lean ====
section
/-! SUPPORT. The parts of the state that each command may change when it answers a next state (Only): one lemma per command, in the order
of the table. -/

-- Checked one theorem at a time: the package as one text then needs less memory.
set_option Elab.async false

namespace Sys2Proof.Machine

/-- A command that answers a next state is in its range. -/
theorem ite_next {c : Prop} [Decidable c] {a : Host.Outcome State Fault Refusal} {f : Fault} {t : State} (h : (if c then a else .fault f) = .next t) : a = .next t := by
  split at h
  · exact h
  · cases h

/-- The same with the fault first. -/
theorem ite_next2 {c : Prop} [Decidable c] {a : Host.Outcome State Fault Refusal} {f : Fault} {t : State} (h : (if c then .fault f else a) = .next t) : a = .next t := by
  split at h
  · cases h
  · exact h

/-- The same with a refusal first. -/
theorem ite_next3 {c : Prop} [Decidable c] {a : Host.Outcome State Fault Refusal} {f : Refusal} {t : State} (h : (if c then .refused f else a) = .next t) : a = .next t := by
  split at h
  · cases h
  · exact h

/-- The state that a command answers with. -/
theorem Only.next {m : List Part} {s a t : State} (h : Only m s a) (k : (Host.Outcome.next a : Host.Outcome State Fault Refusal) = .next t) : Only m s t := by
  injection k with k; exact k ▸ h

theorem execLocalTick_only {x0 x1 s t} (h : execLocalTick x0 x1 s = .next t) : Only [.out, .active, .pend, .setup, .time, .clk, .job, .halt, .step, .slips, .phases, .stats, .intake, .tail, .replay, .reports, .void, .seq, .plan, .ports, .queues, .tel, .hbm, .tiles, .channels, .mem, .tables, .emb, .acc, .churns, .hist, .attn, .watch, .pen, .conns, .msgs, .events, .ledger, .exp, .rel, .sec, .pwr] s t :=
  Only.next (State.localTick_only _ _ _) h

theorem execDecisionPoint_only {x0 s t} (h : execDecisionPoint x0 s = .next t) : Only [.out, .time, .clk, .stats, .reports, .seq, .tel, .tables, .pen, .conns, .events] s t :=
  Only.next (Only.of (State.decisionPoint_only _) rfl ((State.timed_only _ _).mono rfl)) h

theorem execDecisionMessage_only {x0 s t} (h : execDecisionMessage x0 s = .next t) : Only [.out, .clk, .stats, .seq, .tel, .tables, .pen, .conns, .events] s t :=
  Only.next (State.decisionMessage_only _ _) h

theorem execTimeTransfer_only {x0 x1 s t} (h : execTimeTransfer x0 x1 s = .next t) : Only [.out, .time, .stats, .conns] s t :=
  Only.next (Only.of (State.timeTransfer_only _ _) rfl ((State.timed_only _ _).mono rfl)) h

theorem execTickHoldover_only {x0 s t} (h : execTickHoldover x0 s = .next t) : Only [.time, .clk, .stats, .tel, .events] s t :=
  Only.next (Only.of (State.enterHoldover_only _) rfl ((State.timed_only _ _).mono rfl)) h

theorem execTickLost_only {x0 s t} (h : execTickLost x0 s = .next t) : Only [.time, .clk, .tel, .events] s t :=
  Only.next (Only.of (State.loseTick_only _) rfl ((State.timed_only _ _).mono rfl)) h

theorem execTickInEdge_only {x0 x1 s t} (h : execTickInEdge x0 x1 s = .next t) : Only [.out, .active, .pend, .setup, .time, .clk, .job, .halt, .step, .slips, .phases, .stats, .intake, .tail, .replay, .reports, .void, .seq, .plan, .ports, .queues, .tel, .hbm, .tiles, .channels, .mem, .tables, .emb, .acc, .churns, .hist, .attn, .watch, .pen, .conns, .msgs, .events, .ledger, .exp, .rel, .sec, .pwr] s t :=
  Only.next (State.tickEdge_only _ _ _) h

theorem execDone_only {x0 s t} (h : execDone x0 s = .next t) : Only [.out, .stats, .reports, .pen, .conns] s t :=
  Only.next (State.takeDone_only _ _) h

theorem execExcessDeclaration_only {x0 x1 s t} (h : execExcessDeclaration x0 x1 s = .next t) : Only [.out, .stats, .reports, .pen, .conns] s t :=
  Only.next (State.takeExcess_only _ _ _) h

theorem execStart_only {x0 x1 s t} (h : execStart x0 x1 s = .next t) : Only [.out, .pend, .setup, .clk, .job, .halt, .stats, .intake, .seq, .ports, .queues, .tel, .mem, .tables, .pen, .conns, .msgs, .events, .ledger, .life, .exp] s t :=
  Only.next (State.windowWrite_only _ _ _ _ _ _ _ rfl (fun _ => (Only.mono (State.writeSeqCtrl_only _ _ _) rfl)) (fun _ => Only.mono (State.writeSeqCtrl_only _ _ _) rfl)) h

theorem execStop_only {x0 x1 s t} (h : execStop x0 x1 s = .next t) : Only [.out, .pend, .setup, .clk, .job, .halt, .stats, .intake, .seq, .ports, .queues, .tel, .mem, .tables, .pen, .conns, .msgs, .events, .ledger, .life, .exp] s t :=
  Only.next (State.windowWrite_only _ _ _ _ _ _ _ rfl (fun _ => (Only.mono (State.writeSeqCtrl_only _ _ _) rfl)) (fun _ => Only.mono (State.writeSeqCtrl_only _ _ _) rfl)) h

theorem execGatherPhaseStart_only {x0 s t} (h : execGatherPhaseStart x0 s = .next t) : Only [.out, .time, .halt, .phases, .stats, .replay, .reports, .seq, .queues, .tel, .mem, .emb, .acc, .hist, .attn, .watch, .pen, .conns, .msgs, .events, .ledger, .rel] s t :=
  Only.next (Only.of (State.startGather_only _ _) rfl ((State.timed_only _ _).mono rfl)) h

theorem execDenseForwardStart_only {x0 x1 s t} (h : execDenseForwardStart x0 x1 s = .next t) : Only [.time, .phases, .replay] s t :=
  Only.next (Only.of (State.startForward_only _ _ _) rfl ((State.timed_only _ _).mono rfl)) h

theorem execBackwardStart_only {x0 x1 s t} (h : execBackwardStart x0 x1 s = .next t) : Only [.time, .phases, .replay] s t :=
  Only.next (Only.of (State.startBackward_only _ _ _) rfl ((State.timed_only _ _).mono rfl)) h

theorem execGradientExchangeStart_only {x0 x1 s t} (h : execGradientExchangeStart x0 x1 s = .next t) : Only [.out, .time, .halt, .phases, .stats, .replay, .reports, .tel, .emb, .hist, .watch, .pen, .conns, .msgs, .events, .rel] s t :=
  Only.next (Only.of (State.startExchange_only _ _) rfl ((State.timed_only _ _).mono rfl)) h

theorem execMergePhaseStart_only {x0 s t} (h : execMergePhaseStart x0 s = .next t) : Only [.time, .phases, .replay, .tel, .emb, .watch, .events] s t :=
  Only.next (Only.of (State.startMerge_only _ _) rfl ((State.timed_only _ _).mono rfl)) h

theorem execPhase6End_only {x0 x1 s t} (h : execPhase6End x0 x1 s = .next t) : Only [.out, .time, .halt, .phases, .stats, .tail, .replay, .reports, .tel, .watch, .pen, .conns, .msgs, .events, .rel] s t :=
  Only.next (Only.of (State.endMerge_only _ _) rfl ((State.timed_only _ _).mono rfl)) h

theorem execUpdateSweepStart_only {x0 s t} (h : execUpdateSweepStart x0 s = .next t) : Only [.out, .time, .phases, .stats, .replay, .reports, .tel, .channels, .mem, .churns, .hist, .pen, .conns, .events, .ledger, .exp] s t :=
  Only.next (Only.of (State.startSweep_only _ _) rfl ((State.timed_only _ _).mono rfl)) h

theorem execSweepEnd_only {x0 s t} (h : execSweepEnd x0 s = .next t) : Only [.out, .setup, .time, .clk, .job, .halt, .phases, .stats, .intake, .tail, .reports, .seq, .queues, .tel, .channels, .mem, .tables, .emb, .hist, .attn, .watch, .pen, .conns, .msgs, .events, .life, .exp] s t :=
  Only.next (Only.of (State.endSweep_only _) rfl ((State.timed_only _ _).mono rfl)) h

theorem execTailSlotEnd_only {x0 s t} (h : execTailSlotEnd x0 s = .next t) : Only [.out, .setup, .time, .clk, .job, .halt, .phases, .stats, .intake, .tail, .reports, .seq, .queues, .tel, .channels, .mem, .tables, .emb, .hist, .attn, .watch, .pen, .conns, .msgs, .events, .life, .exp] s t :=
  Only.next (Only.of (State.endSlot_only _) rfl ((State.timed_only _ _).mono rfl)) h

theorem execStepRecord_only {x0 x1 s t} (h : execStepRecord x0 x1 s = .next t) : Only [.time, .seq, .tel, .watch, .events] s t :=
  Only.next (Only.of (State.writeRecord_only _ _) rfl ((State.timed_only _ _).mono rfl)) h

theorem execTickPeriod_only {x0 x1 s t} (h : execTickPeriod x0 x1 s = .next t) : Only [.out, .pend, .setup, .ports, .tel, .events] s t :=
  Only.next (State.windowWrite_only _ _ _ _ _ _ _ rfl (fun _ => Only.refl _) (fun _ => Only.mono (State.writeTickPeriod_only _ _) rfl)) h

theorem execTickCtrl_only {x0 x1 s t} (h : execTickCtrl x0 x1 s = .next t) : Only [.out, .pend, .setup, .ports, .tel, .events] s t :=
  Only.next (State.windowWrite_only _ _ _ _ _ _ _ rfl (fun _ => (Only.mono (State.writeTickCtrl_only _ _ _) rfl)) (fun _ => Only.mono (State.writeTickCtrl_only _ _ _) rfl)) h

theorem execStepLoRead_only {x0 s t} (h : execStepLoRead x0 s = .next t) : Only [.out, .setup, .seq] s t := by
  unfold execStepLoRead at h
  refine Only.next ?_ h
  repeat' first
    | with_reducible refine State.latchRead_only _ _ _ _ _ _ (by decide) (fun t => ?_)
    | with_reducible assumption
    | with_reducible exact Only.refl _
    | (with_reducible rfl)
    | decide
    | with_reducible refine Only.thenFold ?_ (fun t x => ?_)
    | with_reducible refine Only.thenFold_fst ?_ (fun t x => ?_)
    | (fail_if_no_progress ((with_reducible refine Only.lit ?_ ?_) <;> [skip; (intro p; cases p <;> first | exact .inl (by decide) | exact .inr (by (repeat' apply And.intro) <;> rfl))]))

theorem execEvtTailLoRead_only {x0 s t} (h : execEvtTailLoRead x0 s = .next t) : Only [.out, .setup, .events] s t := by
  unfold execEvtTailLoRead at h
  refine Only.next ?_ h
  repeat' first
    | with_reducible refine State.latchRead_only _ _ _ _ _ _ (by decide) (fun t => ?_)
    | with_reducible assumption
    | with_reducible exact Only.refl _
    | (with_reducible rfl)
    | decide
    | with_reducible refine Only.thenFold ?_ (fun t x => ?_)
    | with_reducible refine Only.thenFold_fst ?_ (fun t x => ?_)
    | (fail_if_no_progress ((with_reducible refine Only.lit ?_ ?_) <;> [skip; (intro p; cases p <;> first | exact .inl (by decide) | exact .inr (by (repeat' apply And.intro) <;> rfl))]))

theorem execLifeStepsLoRead_only {x0 s t} (h : execLifeStepsLoRead x0 s = .next t) : Only [.out, .setup, .life] s t := by
  unfold execLifeStepsLoRead at h
  refine Only.next ?_ h
  repeat' first
    | with_reducible refine State.latchRead_only _ _ _ _ _ _ (by decide) (fun t => ?_)
    | with_reducible assumption
    | with_reducible exact Only.refl _
    | (with_reducible rfl)
    | decide
    | with_reducible refine Only.thenFold ?_ (fun t x => ?_)
    | with_reducible refine Only.thenFold_fst ?_ (fun t x => ?_)
    | (fail_if_no_progress ((with_reducible refine Only.lit ?_ ?_) <;> [skip; (intro p; cases p <;> first | exact .inl (by decide) | exact .inr (by (repeat' apply And.intro) <;> rfl))]))

theorem execGroupPoll_only {x0 s t} (h : execGroupPoll x0 s = .next t) : Only [.out, .ports, .groups] s t :=
  Only.next (State.pollGroup_only _ _) h

theorem execDescriptorFetched_only {x0 x1 x2 s t} (h : execDescriptorFetched x0 x1 x2 s = .next t) : Only [.out, .time, .stats, .intake, .reports, .ports, .queues, .tel, .pen, .conns, .events, .exp] s t :=
  Only.next (State.descriptorFetched_only _ _ _ _) h

theorem execLapReread_only {x0 s t} (h : execLapReread x0 s = .next t) : Only [.out, .ports, .queues] s t :=
  Only.next (State.lapReread_only _ _) h

theorem execHostReadCompletion_only {x0 x1 x2 s t} (h : execHostReadCompletion x0 x1 x2 s = .next t) : Only [.out, .stats, .intake, .reports, .ports, .queues, .tel, .pen, .conns, .events, .ledger] s t :=
  Only.next (State.bufferRead_only _ _ _ _) h

theorem execHostReadTimeout_only {x0 s t} (h : execHostReadTimeout x0 s = .next t) : Only [.out, .setup, .stats, .intake, .reports, .ports, .groups, .queues, .tel, .pen, .conns, .events] s t :=
  Only.next (State.readTimeout_only _ _) h

theorem execTrainBatch_only {x0 s t} (h : execTrainBatch x0 s = .next t) : Only [.out, .intake, .ports, .queues, .tel, .events] s t :=
  Only.next (State.takeBatch_only _ _) h

theorem execEvalBatch_only {x0 s t} (h : execEvalBatch x0 s = .next t) : Only [.out, .ports, .queues] s t :=
  Only.next (State.takeEval_only _ _) h

theorem execTableLoadDescriptor_only {x0 s t} (h : execTableLoadDescriptor x0 s = .next t) : Only [.out, .stats, .intake, .reports, .queues, .tel, .tables, .pen, .conns, .events] s t :=
  Only.next (State.loadBlock_only _ _) h

theorem execTableLoadRecords_only {x0 x1 s t} (h : execTableLoadRecords x0 x1 s = .next t) : Only [.out, .stats, .intake, .reports, .queues, .tel, .hbm, .mem, .watch, .pen, .conns, .events, .ledger] s t :=
  Only.next (State.loadRows_only _ _ _ _) h

theorem execTableLoadBinary32_only {x0 x1 s t} (h : execTableLoadBinary32 x0 x1 s = .next t) : Only [.out, .stats, .intake, .reports, .queues, .tel, .hbm, .mem, .watch, .pen, .conns, .events, .ledger] s t :=
  Only.next (State.loadRows_only _ _ _ _) h

theorem execTableStaging_only {x0 s t} (h : execTableStaging x0 s = .next t) : Only [.out, .setup, .stats, .intake, .reports, .queues, .tel, .hbm, .mem, .tables, .pen, .conns, .events, .ledger] s t :=
  Only.next (State.beginStaging_only _ _) h

theorem execStagingFillEnd_only {s t} (h : execStagingFillEnd s = .next t) : Only [.setup, .queues, .tables] s t :=
  Only.next (State.endStaging_only _) h

theorem execTableSwap_only {x0 s t} (h : execTableSwap x0 s = .next t) : Only [.queues, .tel, .mem, .tables, .events] s t :=
  Only.next (State.takeSwap_only _ _) h

theorem execTableSwapDiscard_only {x0 s t} (h : execTableSwapDiscard x0 s = .next t) : Only [.queues, .tel, .mem, .tables, .events] s t :=
  Only.next (State.takeDiscard_only _ _) h

theorem execExportArm_only {x0 s t} (h : execExportArm x0 s = .next t) : Only [.out, .stats, .intake, .reports, .queues, .tel, .pen, .conns, .events, .exp] s t :=
  Only.next (State.armExport_only _ _) h

theorem execExportArmStop_only {x0 s t} (h : execExportArmStop x0 s = .next t) : Only [.queues, .exp] s t :=
  Only.next (State.stopExport_only _ _) h

theorem execFence_only {x0 s t} (h : execFence x0 s = .next t) : Only [.out, .stats, .intake, .reports, .queues, .tel, .pen, .conns, .events] s t :=
  Only.next (State.takeFence_only _ _) h

theorem execFenceCompletion_only {x0 s t} (h : execFenceCompletion x0 s = .next t) : Only [.out, .stats, .intake, .reports, .queues, .tel, .pen, .conns, .events] s t :=
  Only.next (State.endFence_only _ _) h

theorem execTelemetrySnapshot_only {x0 s t} (h : execTelemetrySnapshot x0 s = .next t) : Only [.queues] s t :=
  Only.next (State.takeSnapshot_only _ _) h

theorem execNop_only {x0 s t} (h : execNop x0 s = .next t) : Only [.queues] s t :=
  Only.next (State.takeNop_only _ _) h

theorem execCompletionRecord_only {x0 x1 s t} (h : execCompletionRecord x0 x1 s = .next t) : Only [.out, .time, .ports, .queues] s t := by
  unfold execCompletionRecord at h
  refine Only.next ?_ h
  repeat' first
    | with_reducible assumption
    | with_reducible exact Only.refl _
    | (with_reducible rfl)
    | decide
    | with_reducible apply Only.of (State.complete_only _ _)
    | with_reducible refine Only.thenFold ?_ (fun t x => ?_)
    | with_reducible refine Only.thenFold_fst ?_ (fun t x => ?_)
    | (fail_if_no_progress ((with_reducible refine Only.lit ?_ ?_) <;> [skip; (intro p; cases p <;> first | exact .inl (by decide) | exact .inr (by (repeat' apply And.intro) <;> rfl))]))

theorem execMsixHoldoffEnd_only {x0 s t} (h : execMsixHoldoffEnd x0 s = .next t) : Only [.out, .ports, .queues] s t :=
  Only.next (State.holdoffEnd_only _ _) h

theorem execTelemetryEntry_only {s t} (h : execTelemetryEntry s = .next t) : Only [.out, .ports, .queues, .tel] s t :=
  Only.next (State.writeTelemetry_only _) h

theorem execExportEntry_only {x0 s t} (h : execExportEntry x0 s = .next t) : Only [.fresh, .out, .stats, .ports, .queues, .tel, .mem, .events, .ledger, .exp] s t :=
  Only.next (State.drainExport_only _ _) h

theorem execArm_only {x0 x1 s t} (h : execArm x0 x1 s = .next t) : Only [.out, .setup, .ports, .queues, .tel, .events] s t :=
  Only.next (State.windowWrite_only _ _ _ _ _ _ _ rfl (fun _ => Only.refl _) (fun _ => Only.mono (State.writeQCmd_only _ _) rfl)) h

theorem execDisarm_only {x0 x1 s t} (h : execDisarm x0 x1 s = .next t) : Only [.out, .setup, .ports, .queues, .tel, .events] s t :=
  Only.next (State.windowWrite_only _ _ _ _ _ _ _ rfl (fun _ => Only.refl _) (fun _ => Only.mono (State.writeQCmd_only _ _) rfl)) h

theorem execDisarmEnd_only {x0 s t} (h : execDisarmEnd x0 s = .next t) : Only [.out, .stats, .intake, .reports, .queues, .tel, .pen, .conns, .events] s t :=
  Only.next (State.endDisarm_only _ _) h

theorem execGroupCfg_only {x0 x1 s t} (h : execGroupCfg x0 x1 s = .next t) : Only [.out, .setup, .ports, .groups, .tel, .events] s t :=
  Only.next (State.windowWrite_only _ _ _ _ _ _ _ rfl (fun _ => Only.refl _) (fun _ => Only.mono (State.writeGroupCfg_only _ _) rfl)) h

theorem execPortLinkDown_only {x0 x1 s t} (h : execPortLinkDown x0 x1 s = .next t) : Only [.ports] s t :=
  Only.next (State.linkDown_only _ _ _) h

theorem execPortRetrain_only {x0 s t} (h : execPortRetrain x0 s = .next t) : Only [.out, .setup, .ports, .tel, .events] s t :=
  Only.next (State.retrainPort_only _ _) h

theorem execLinkDownTimeout_only {x0 s t} (h : execLinkDownTimeout x0 s = .next t) : Only [.out, .setup, .stats, .intake, .reports, .ports, .groups, .queues, .tel, .mem, .tables, .pen, .conns, .events, .exp] s t := by
  unfold execLinkDownTimeout at h
  refine Only.next ?_ h
  repeat' first
    | with_reducible assumption
    | with_reducible exact Only.refl _
    | (with_reducible rfl)
    | decide
    | (with_reducible apply Only.ite) <;> intro _
    | with_reducible apply Only.of (State.orphanPort_only _ _)

theorem execHostReset_only {x0 x1 s t} (h : execHostReset x0 x1 s = .next t) : Only [.out, .setup, .stats, .intake, .reports, .ports, .groups, .queues, .tel, .mem, .tables, .pen, .conns, .events, .exp] s t :=
  Only.next (State.resetPort_only _ _) h

theorem execSurpriseRemoval_only {x0 s t} (h : execSurpriseRemoval x0 s = .next t) : Only [.out, .setup, .stats, .intake, .reports, .ports, .groups, .queues, .tel, .mem, .tables, .pen, .conns, .events, .exp] s t := by
  unfold execSurpriseRemoval at h
  refine Only.next ?_ h
  repeat' first
    | with_reducible assumption
    | with_reducible exact Only.refl _
    | (with_reducible rfl)
    | decide
    | with_reducible apply Only.of (State.setPort_only _ _ _)
    | with_reducible apply Only.of (State.resetPort_only _ _)

theorem execPortUp_only {x0 x1 x2 s t} (h : execPortUp x0 x1 x2 s = .next t) : Only [.ports, .tel, .events] s t :=
  Only.next (State.portUp_only _ _ _ _) h

theorem execUnsupportedRequest_only {x0 s t} (h : execUnsupportedRequest x0 s = .next t) : Only [.out] s t :=
  Only.next (State.emit_only _ _) h

theorem execSeparate_only {x0 s t} (h : execSeparate x0 s = .next t) : Only [.out, .halt, .phases, .stats, .replay, .reports, .seq, .queues, .tel, .emb, .acc, .hist, .attn, .watch, .pen, .conns, .msgs, .events, .ledger, .rel] s t := by
  unfold execSeparate at h
  repeat' first | (with_reducible replace h := ite_next h) | (with_reducible replace h := ite_next2 h) | (with_reducible replace h := ite_next3 h) | split at h
  all_goals first | refine Only.next ?_ h | (cases h; done)
  all_goals repeat' first
    | with_reducible assumption
    | with_reducible exact Only.refl _
    | (with_reducible rfl)
    | decide
    | with_reducible apply Only.of (State.checkFault_only _ _)
    | with_reducible apply Only.of (State.separateNext_only _)
    | with_reducible apply Only.of (State.separateEval_only _)

theorem execAggregate_only {x0 s t} (h : execAggregate x0 s = .next t) : Only [.out, .halt, .stats, .replay, .reports, .queues, .tel, .emb, .pen, .conns, .msgs, .events, .rel] s t := by
  unfold execAggregate at h
  refine Only.next ?_ h
  repeat' first
    | with_reducible assumption
    | with_reducible exact Only.refl _
    | (with_reducible rfl)
    | decide
    | (with_reducible apply Only.ite) <;> intro _
    | with_reducible apply Only.of (State.aggregateOwner_only _)
    | with_reducible apply Only.of (State.aggregateProxy_only _ _)

theorem execGatherRows_only {x0 s t} (h : execGatherRows x0 s = .next t) : Only [.tel, .emb, .watch, .events] s t :=
  Only.next (State.gatherRows_only _) h

theorem execPool_only {x0 x1 x2 s t} (h : execPool x0 x1 x2 s = .next t) : Only [.tiles, .emb, .lines, .watch] s t := by
  unfold execPool at h
  repeat' first | (with_reducible replace h := ite_next h) | (with_reducible replace h := ite_next2 h) | (with_reducible replace h := ite_next3 h) | split at h
  all_goals first | refine Only.next ?_ h | (cases h; done)
  all_goals repeat' first
    | with_reducible assumption
    | with_reducible exact Only.refl _
    | (with_reducible rfl)
    | decide
    | with_reducible apply Only.of (State.poolBag_only _ _ _ _ _)

theorem execRowCacheFill_only {x0 x1 x2 s t} (h : execRowCacheFill x0 x1 x2 s = .next t) : Only [.out, .halt, .phases, .stats, .replay, .reports, .seq, .queues, .tel, .mem, .emb, .acc, .hist, .attn, .watch, .pen, .conns, .msgs, .events, .ledger, .rel] s t :=
  Only.next (State.fillCache_only _ _ _ _) h

theorem execMma_only {x0 x1 x2 s t} (h : execMma x0 x1 x2 s = .next t) : Only [.out, .halt, .phases, .stats, .replay, .reports, .seq, .queues, .tel, .emb, .acc, .hist, .attn, .watch, .pen, .conns, .msgs, .events, .ledger, .rel] s t := by
  unfold execMma at h
  repeat' first | (with_reducible replace h := ite_next h) | (with_reducible replace h := ite_next2 h) | (with_reducible replace h := ite_next3 h) | split at h
  all_goals first | refine Only.next ?_ h | (cases h; done)
  all_goals repeat' first
    | with_reducible assumption
    | with_reducible exact Only.refl _
    | (with_reducible rfl)
    | decide
    | with_reducible apply Only.of (State.mma_only _ _ _)
    | with_reducible apply Only.of (State.checked_only _ _)

theorem execJoin_only {x0 x1 s t} (h : execJoin x0 x1 s = .next t) : Only [.tel, .acc, .events] s t := by
  unfold execJoin at h
  repeat' first | (with_reducible replace h := ite_next h) | (with_reducible replace h := ite_next2 h) | (with_reducible replace h := ite_next3 h) | split at h
  all_goals first | refine Only.next ?_ h | (cases h; done)
  all_goals repeat' first
    | with_reducible assumption
    | with_reducible exact Only.refl _
    | (with_reducible rfl)
    | decide
    | with_reducible apply Only.of (State.joinTile_only _ _ _)

theorem execRead_only {x0 x1 s t} (h : execRead x0 x1 s = .next t) : Only [.stats, .tel, .tiles, .watch, .events] s t := by
  unfold execRead at h
  repeat' first | (with_reducible replace h := ite_next h) | (with_reducible replace h := ite_next2 h) | (with_reducible replace h := ite_next3 h) | split at h
  all_goals first | refine Only.next ?_ h | (cases h; done)
  all_goals repeat' first
    | with_reducible assumption
    | with_reducible exact Only.refl _
    | (with_reducible rfl)
    | decide
    | with_reducible apply Only.of (State.readSlot_only _ _ _ _)

theorem execStore_only {x0 x1 s t} (h : execStore x0 x1 s = .next t) : Only [.tiles] s t := by
  unfold execStore at h
  repeat' first | (with_reducible replace h := ite_next h) | (with_reducible replace h := ite_next2 h) | (with_reducible replace h := ite_next3 h) | split at h
  all_goals first | refine Only.next ?_ h | (cases h; done)
  all_goals repeat' first
    | with_reducible assumption
    | with_reducible exact Only.refl _
    | (with_reducible rfl)
    | decide
    | with_reducible apply Only.of (State.tileWrite_only _ _ _ _)

theorem execClear_only {x0 x1 s t} (h : execClear x0 x1 s = .next t) : Only [.acc] s t :=
  Only.next (State.setSlot_only _ _ _ _) h

theorem execStatus_only {x0 x1 s t} (h : execStatus x0 x1 s = .next t) : Only [.tiles] s t := by
  unfold execStatus at h
  repeat' first | (with_reducible replace h := ite_next h) | (with_reducible replace h := ite_next2 h) | (with_reducible replace h := ite_next3 h) | split at h
  all_goals first | refine Only.next ?_ h | (cases h; done)
  all_goals repeat' first
    | with_reducible assumption
    | with_reducible exact Only.refl _
    | (with_reducible rfl)
    | decide
    | with_reducible apply Only.of (State.tileWrite_only _ _ _ _)

theorem execVectorOperation_only {x0 x1 x2 s t} (h : execVectorOperation x0 x1 x2 s = .next t) : Only [.out, .halt, .phases, .stats, .replay, .reports, .seq, .queues, .tel, .tiles, .emb, .acc, .hist, .attn, .lines, .watch, .pen, .conns, .msgs, .events, .ledger, .rel] s t := by
  unfold execVectorOperation at h
  repeat' first | (with_reducible replace h := ite_next h) | (with_reducible replace h := ite_next2 h) | (with_reducible replace h := ite_next3 h) | split at h
  all_goals first | refine Only.next ?_ h | (cases h; done)
  all_goals repeat' first
    | with_reducible assumption
    | with_reducible exact Only.refl _
    | (with_reducible rfl)
    | decide
    | with_reducible apply Only.of (State.checked_only _ _)
    | with_reducible apply Only.of (State.vector_only _ _ _)

theorem execRowOperation_only {x0 x1 s t} (h : execRowOperation x0 x1 s = .next t) : Only [.tiles, .lines, .watch] s t := by
  unfold execRowOperation at h
  repeat' first | (with_reducible replace h := ite_next h) | (with_reducible replace h := ite_next2 h) | (with_reducible replace h := ite_next3 h) | split at h
  all_goals first | refine Only.next ?_ h | (cases h; done)
  all_goals repeat' first
    | with_reducible assumption
    | with_reducible exact Only.refl _
    | (with_reducible rfl)
    | decide
    | with_reducible apply Only.of (State.rowOp_only _ _ _)

theorem execAttend_only {x0 x1 s t} (h : execAttend x0 x1 s = .next t) : Only [.stats, .tel, .tiles, .acc, .attn, .watch, .events] s t := by
  unfold execAttend at h
  repeat' first | (with_reducible replace h := ite_next h) | (with_reducible replace h := ite_next2 h) | (with_reducible replace h := ite_next3 h) | split at h
  all_goals first | refine Only.next ?_ h | (cases h; done)
  all_goals repeat' first
    | with_reducible assumption
    | with_reducible exact Only.refl _
    | (with_reducible rfl)
    | decide
    | with_reducible apply Only.of (State.attend_only _ _ _)

theorem execAttendBack_only {x0 x1 s t} (h : execAttendBack x0 x1 s = .next t) : Only [.stats, .tel, .tiles, .acc, .watch, .events] s t := by
  unfold execAttendBack at h
  repeat' first | (with_reducible replace h := ite_next h) | (with_reducible replace h := ite_next2 h) | (with_reducible replace h := ite_next3 h) | split at h
  all_goals first | refine Only.next ?_ h | (cases h; done)
  all_goals repeat' first
    | with_reducible assumption
    | with_reducible exact Only.refl _
    | (with_reducible rfl)
    | decide
    | with_reducible apply Only.of (State.attendBack_only _ _ _)

theorem execSend_only {x0 x1 x2 s t} (h : execSend x0 x1 x2 s = .next t) : Only [.out, .stats, .pen, .conns] s t := by
  unfold execSend at h
  refine Only.next ?_ h
  repeat' first
    | with_reducible assumption
    | with_reducible exact Only.refl _
    | (with_reducible rfl)
    | decide
    | with_reducible apply Only.of (State.emit_only _ _)
    | with_reducible apply Only.of (State.sendControl_only _ _ _ _)

theorem execAllToAll_only {x0 s t} (h : execAllToAll x0 s = .next t) : Only [.out, .halt, .phases, .stats, .replay, .reports, .seq, .queues, .tel, .mem, .emb, .acc, .hist, .attn, .watch, .pen, .conns, .msgs, .events, .ledger, .rel] s t :=
  Only.next (State.allToAll_only _ _) h

theorem execReduce_only {x0 x1 x2 x3 s t} (h : execReduce x0 x1 x2 x3 s = .next t) : Only [.out, .halt, .stats, .replay, .reports, .tel, .tiles, .emb, .watch, .pen, .conns, .msgs, .events, .rel] s t := by
  unfold execReduce at h
  repeat' first | (with_reducible replace h := ite_next h) | (with_reducible replace h := ite_next2 h) | (with_reducible replace h := ite_next3 h) | split at h
  all_goals first | refine Only.next ?_ h | (cases h; done)
  all_goals repeat' first
    | with_reducible assumption
    | with_reducible exact Only.refl _
    | (with_reducible rfl)
    | decide
    | with_reducible apply Only.of (State.reduceTile_only _ _ _ _ _)

theorem execAllGather_only {x0 x1 x2 x3 s t} (h : execAllGather x0 x1 x2 x3 s = .next t) : Only [.out, .halt, .stats, .replay, .reports, .tel, .tiles, .emb, .pen, .conns, .msgs, .events, .rel] s t := by
  unfold execAllGather at h
  repeat' first | (with_reducible replace h := ite_next h) | (with_reducible replace h := ite_next2 h) | (with_reducible replace h := ite_next3 h) | split at h
  all_goals first | refine Only.next ?_ h | (cases h; done)
  all_goals repeat' first
    | with_reducible assumption
    | with_reducible exact Only.refl _
    | (with_reducible rfl)
    | decide
    | with_reducible apply Only.of (State.gatherTile_only _ _ _ _ _)

theorem execGather_only {x0 s t} (h : execGather x0 s = .next t) : Only [.out, .halt, .phases, .stats, .replay, .reports, .seq, .queues, .tel, .tiles, .mem, .emb, .acc, .hist, .attn, .watch, .pen, .conns, .msgs, .events, .ledger, .rel] s t := by
  unfold execGather at h
  repeat' first | (with_reducible replace h := ite_next h) | (with_reducible replace h := ite_next2 h) | (with_reducible replace h := ite_next3 h) | split at h
  all_goals first | refine Only.next ?_ h | (cases h; done)
  all_goals repeat' first
    | with_reducible assumption
    | with_reducible exact Only.refl _
    | (with_reducible rfl)
    | decide
    | with_reducible apply Only.of (State.gatherShard_only _ _)

theorem execRingPass_only {x0 x1 x2 x3 x4 x5 x6 s t} (h : execRingPass x0 x1 x2 x3 x4 x5 x6 s = .next t) : Only [.out, .halt, .phases, .stats, .replay, .reports, .seq, .queues, .tel, .tiles, .mem, .emb, .acc, .hist, .attn, .watch, .pen, .conns, .msgs, .events, .ledger, .rel] s t := by
  unfold execRingPass at h
  repeat' first | (with_reducible replace h := ite_next h) | (with_reducible replace h := ite_next2 h) | (with_reducible replace h := ite_next3 h) | split at h
  all_goals first | refine Only.next ?_ h | (cases h; done)
  all_goals repeat' first
    | with_reducible assumption
    | with_reducible exact Only.refl _
    | (with_reducible rfl)
    | decide
    | with_reducible apply Only.of (State.ringPass_only _ _ _ _ _ _ _ _)

theorem execFirstRead_only {x0 x1 x2 s t} (h : execFirstRead x0 x1 x2 s = .next t) : Only [.halt, .stats, .tel, .hbm, .tiles, .channels, .mem, .churns, .watch, .events, .ledger] s t :=
  Only.next (State.firstRead_only _ _ _ _) h

theorem execAdd_only {x0 x1 x2 x3 x4 s t} (h : execAdd x0 x1 x2 x3 x4 s = .next t) : Only [.churns] s t :=
  Only.next (State.laneOp2_only _ _ _ _ _ _) h

theorem execSub_only {x0 x1 x2 x3 x4 s t} (h : execSub x0 x1 x2 x3 x4 s = .next t) : Only [.churns] s t :=
  Only.next (State.laneOp2_only _ _ _ _ _ _) h

theorem execMul_only {x0 x1 x2 x3 x4 s t} (h : execMul x0 x1 x2 x3 x4 s = .next t) : Only [.churns] s t :=
  Only.next (State.laneOp2_only _ _ _ _ _ _) h

theorem execFma_only {x0 x1 x2 x3 x4 x5 s t} (h : execFma x0 x1 x2 x3 x4 x5 s = .next t) : Only [.churns] s t :=
  Only.next (State.laneOp3_only _ _ _ _ _ _ _) h

theorem execFms_only {x0 x1 x2 x3 x4 x5 s t} (h : execFms x0 x1 x2 x3 x4 x5 s = .next t) : Only [.churns] s t :=
  Only.next (State.laneOp3_only _ _ _ _ _ _ _) h

theorem execRcp_only {x0 x1 x2 x3 s t} (h : execRcp x0 x1 x2 x3 s = .next t) : Only [.churns] s t :=
  Only.next (State.laneOp1_only _ _ _ _ _) h

theorem execRsq_only {x0 x1 x2 x3 s t} (h : execRsq x0 x1 x2 x3 s = .next t) : Only [.churns] s t :=
  Only.next (State.laneOp1_only _ _ _ _ _) h

theorem execMax_only {x0 x1 x2 x3 s t} (h : execMax x0 x1 x2 x3 s = .next t) : Only [.churns] s t :=
  Only.next (State.laneOp2_only _ _ _ _ _ _) h

theorem execMin_only {x0 x1 x2 x3 s t} (h : execMin x0 x1 x2 x3 s = .next t) : Only [.churns] s t :=
  Only.next (State.laneOp2_only _ _ _ _ _ _) h

theorem execNeg_only {x0 x1 x2 s t} (h : execNeg x0 x1 x2 s = .next t) : Only [.churns] s t :=
  Only.next (State.laneOp1_only _ _ _ _ _) h

theorem execAbs_only {x0 x1 x2 s t} (h : execAbs x0 x1 x2 s = .next t) : Only [.churns] s t :=
  Only.next (State.laneOp1_only _ _ _ _ _) h

theorem execMov_only {x0 x1 x2 s t} (h : execMov x0 x1 x2 s = .next t) : Only [.churns] s t :=
  Only.next (State.laneOp1_only _ _ _ _ _) h

theorem execCeq_only {x0 x1 x2 x3 s t} (h : execCeq x0 x1 x2 x3 s = .next t) : Only [.churns] s t :=
  Only.next (State.laneOp2_only _ _ _ _ _ _) h

theorem execClt_only {x0 x1 x2 x3 s t} (h : execClt x0 x1 x2 x3 s = .next t) : Only [.churns] s t :=
  Only.next (State.laneOp2_only _ _ _ _ _ _) h

theorem execCle_only {x0 x1 x2 x3 s t} (h : execCle x0 x1 x2 x3 s = .next t) : Only [.churns] s t :=
  Only.next (State.laneOp2_only _ _ _ _ _ _) h

theorem execCun_only {x0 x1 x2 x3 s t} (h : execCun x0 x1 x2 x3 s = .next t) : Only [.churns] s t :=
  Only.next (State.laneOp2_only _ _ _ _ _ _) h

theorem execSel_only {x0 x1 x2 x3 x4 s t} (h : execSel x0 x1 x2 x3 x4 s = .next t) : Only [.churns] s t :=
  Only.next (State.laneOp3_only _ _ _ _ _ _ _) h

theorem execLdc_only {x0 x1 x2 s t} (h : execLdc x0 x1 x2 s = .next t) : Only [.churns] s t :=
  Only.next (State.setCtx_only _ _ _) h

theorem execLdf_only {x0 x1 x2 x3 s t} (h : execLdf x0 x1 x2 x3 s = .next t) : Only [.churns] s t :=
  Only.next (State.loadField_only _ _ _ _ _) h

theorem execStf_only {x0 x1 x2 x3 x4 s t} (h : execStf x0 x1 x2 x3 x4 s = .next t) : Only [.churns] s t := by
  unfold execStf at h
  refine Only.next ?_ h
  repeat' first
    | with_reducible assumption
    | with_reducible exact Only.refl _
    | (with_reducible rfl)
    | decide
    | (with_reducible apply Only.ite) <;> intro _
    | with_reducible apply Only.of (State.storeRecord_only _ _ _ _ _ _)
    | with_reducible apply Only.of (State.storeStage_only _ _ _ _)

theorem execLds_only {x0 x1 x2 s t} (h : execLds x0 x1 x2 s = .next t) : Only [.churns] s t :=
  Only.next (State.setCtx_only _ _ _) h

theorem execRed_only {x0 x1 x2 x3 x4 s t} (h : execRed x0 x1 x2 x3 x4 s = .next t) : Only [.churns] s t :=
  Only.next (State.reduceLanes_only _ _ _ _ _ _) h

theorem execQprep_only {x0 x1 x2 s t} (h : execQprep x0 x1 x2 s = .next t) : Only [.churns] s t :=
  Only.next (State.qprepare_only _ _ _ _) h

theorem execWacc_only {x0 x1 x2 s t} (h : execWacc x0 x1 x2 s = .next t) : Only [.churns] s t :=
  Only.next (State.watchAccumulate_only _ _ _ _) h

theorem execWcopy_only {x0 s t} (h : execWcopy x0 s = .next t) : Only [.churns] s t :=
  Only.next (State.setCtx_only _ _ _) h

theorem execSect_only {x0 x1 x2 x3 x4 s t} (h : execSect x0 x1 x2 x3 x4 s = .next t) : Only [.out, .halt, .phases, .stats, .replay, .reports, .seq, .queues, .tel, .hbm, .tiles, .channels, .mem, .tables, .emb, .acc, .churns, .hist, .attn, .watch, .pen, .conns, .msgs, .events, .ledger, .exp, .rel] s t :=
  Only.next (State.endSection_only _ _ _ _ _ _) h

theorem execChurnNop_only {x0 s t} (h : execChurnNop x0 s = .next t) : Only [] s t :=
  Only.next (Only.refl _) h

theorem execRecordWriteVerified_only {x0 x1 s t} (h : execRecordWriteVerified x0 x1 s = .next t) : Only [.tel, .mem, .tables, .churns, .watch, .events, .exp] s t :=
  Only.next (State.recordVerified_only _ _ _) h

theorem execSweepTakeover_only {x0 s t} (h : execSweepTakeover x0 s = .next t) : Only [.halt, .tel, .churns, .watch, .events, .ledger] s t :=
  Only.next (State.takeover_only _ _) h

theorem execAppendDone_only {x0 x1 s t} (h : execAppendDone x0 x1 s = .next t) : Only [.halt, .stats, .tel, .hbm, .mem, .hist, .events, .ledger, .exp] s t :=
  Only.next (State.appendDone_only _ _ _) h

theorem execDigestCompare_only {x0 x1 x2 s t} (h : execDigestCompare x0 x1 x2 s = .next t) : Only [.halt, .seq, .tel, .watch, .events] s t :=
  Only.next (State.digestCompare_only _ _ _ _) h

theorem execDataFlit_only {x0 x1 s t} (h : execDataFlit x0 x1 s = .next t) : Only [.out, .clk, .halt, .stats, .replay, .reports, .seq, .queues, .tel, .watch, .pen, .conns, .msgs, .events, .ledger, .rel] s t :=
  Only.next (State.numberedFlit_only _ _ _ _) h

theorem execControlFlit_only {x0 x1 s t} (h : execControlFlit x0 x1 s = .next t) : Only [.out, .clk, .halt, .stats, .replay, .reports, .seq, .queues, .tel, .watch, .pen, .conns, .msgs, .events, .ledger, .rel] s t :=
  Only.next (State.numberedFlit_only _ _ _ _) h

theorem execTimeFlit_only {x0 x1 x2 s t} (h : execTimeFlit x0 x1 x2 s = .next t) : Only [.out, .time, .clk, .halt, .stats, .replay, .reports, .seq, .queues, .tel, .watch, .pen, .conns, .msgs, .events, .rel] s t :=
  Only.next (Only.of (State.timeFlit_only _ _ _) rfl ((State.timed_only _ _).mono rfl)) h

theorem execRetryReq_only {x0 x1 s t} (h : execRetryReq x0 x1 s = .next t) : Only [.out, .stats, .pen, .ledger] s t :=
  Only.next (State.retryReq_only _ _ _) h

theorem execLinkRetrain_only {x0 s t} (h : execLinkRetrain x0 s = .next t) : Only [.pen] s t :=
  Only.next (State.linkRetrain_only _ _) h

theorem execPenRetrain_only {x0 x1 s t} (h : execPenRetrain x0 x1 s = .next t) : Only [.out, .halt, .stats, .tel, .pen, .events, .ledger] s t :=
  Only.next (State.penRetrain_only _ _ _) h

theorem execStitchRetransmit_only {x0 s t} (h : execStitchRetransmit x0 s = .next t) : Only [.tel, .events, .ledger] s t := by
  unfold execStitchRetransmit at h
  refine Only.next ?_ h
  repeat' first
    | with_reducible assumption
    | with_reducible exact Only.refl _
    | (with_reducible rfl)
    | decide
    | (with_reducible apply Only.ite) <;> intro _
    | with_reducible apply Only.of (State.stitchRetransmit_only _ _)

theorem execTrain_only {x0 x1 s t} (h : execTrain x0 x1 s = .next t) : Only [.out, .pend, .setup, .ports, .tel, .pen, .herd, .msgs, .events] s t :=
  Only.next (State.windowWrite_only _ _ _ _ _ _ _ rfl (fun _ => (Only.mono (State.writeFabCtrl_only _ _) rfl)) (fun _ => Only.mono (State.writeFabCtrl_only _ _) rfl)) h

theorem execIdent_only {x0 x1 x2 s t} (h : execIdent x0 x1 x2 s = .next t) : Only [.out, .boot, .tel, .pen, .events] s t :=
  Only.next (State.ident_only _ _ _ _) h

theorem execDataPacket_only {x0 x1 x2 x3 s t} (h : execDataPacket x0 x1 x2 x3 s = .next t) : Only [.out, .time, .halt, .stats, .replay, .reports, .seq, .queues, .tel, .watch, .pen, .herd, .conns, .msgs, .events, .rel] s t :=
  Only.next (Only.of (State.dataPacket_only _ _ _ _) rfl ((State.timed_only _ _).mono rfl)) h

theorem execXon_only {x0 x1 s t} (h : execXon x0 x1 s = .next t) : Only [.out, .herd] s t :=
  Only.next (State.xon_only _ _ _) h

theorem execAckPacket_only {x0 x1 x2 s t} (h : execAckPacket x0 x1 x2 s = .next t) : Only [.out, .time, .stats, .tel, .herd, .conns, .events] s t :=
  Only.next (Only.of (State.ackPacket_only _ _ _) rfl ((State.timed_only _ _).mono rfl)) h

theorem execNak_only {x0 x1 x2 s t} (h : execNak x0 x1 x2 s = .next t) : Only [.out, .time, .halt, .stats, .tel, .herd, .conns, .events] s t :=
  Only.next (Only.of (State.nak_only _ _ _) rfl ((State.timed_only _ _).mono rfl)) h

theorem execTimePacket_only {x0 x1 x2 s t} (h : execTimePacket x0 x1 x2 s = .next t) : Only [.out, .time, .clk, .halt, .stats, .replay, .reports, .seq, .queues, .tel, .watch, .pen, .herd, .conns, .msgs, .events, .rel] s t := by
  unfold execTimePacket at h
  refine Only.next ?_ h
  repeat' first
    | with_reducible refine Only.trans ?_ (State.numberedPacket_only _ _ _ _ _ (by decide) (fun st src b => ?_))
    | with_reducible refine State.numberedPacket_only _ _ _ _ _ (by decide) (fun st src b => ?_)
    | with_reducible assumption
    | with_reducible exact Only.refl _
    | (with_reducible rfl)
    | decide
    | with_reducible apply Only.of (State.controlPart_only _ _ _ _ _ _)
    | with_reducible apply Only.of (State.timed_only _ _)

theorem execControlPacket_only {x0 x1 x2 s t} (h : execControlPacket x0 x1 x2 s = .next t) : Only [.out, .time, .clk, .halt, .stats, .replay, .reports, .seq, .queues, .tel, .watch, .pen, .herd, .conns, .msgs, .events, .rel] s t := by
  unfold execControlPacket at h
  refine Only.next ?_ h
  repeat' first
    | with_reducible refine Only.trans ?_ (State.numberedPacket_only _ _ _ _ _ (by decide) (fun st src b => ?_))
    | with_reducible refine State.numberedPacket_only _ _ _ _ _ (by decide) (fun st src b => ?_)
    | with_reducible assumption
    | with_reducible exact Only.refl _
    | (with_reducible rfl)
    | decide
    | with_reducible apply Only.of (State.controlPart_only _ _ _ _ _ _)
    | with_reducible apply Only.of (State.timed_only _ _)

theorem execStandaloneAck_only {x0 x1 s t} (h : execStandaloneAck x0 x1 s = .next t) : Only [.out, .stats, .conns] s t :=
  Only.next (State.standaloneAck_only _ _ _) h

theorem execGapPersists_only {x0 x1 s t} (h : execGapPersists x0 x1 s = .next t) : Only [.out, .stats, .conns] s t :=
  Only.next (State.gapPersists_only _ _ _) h

theorem execRetransmission_only {x0 x1 x2 x3 s t} (h : execRetransmission x0 x1 x2 x3 s = .next t) : Only [.out, .time, .halt, .tel, .herd, .conns, .events] s t :=
  Only.next (Only.of (State.retransmission_only _ _ _ _) rfl ((State.timed_only _ _).mono rfl)) h

theorem execAckProgressTimeout_only {x0 x1 s t} (h : execAckProgressTimeout x0 x1 s = .next t) : Only [.halt, .tel, .events] s t :=
  Only.next (State.ackTimeout_only _ _ _) h

theorem execRateRecovery_only {x0 x1 s t} (h : execRateRecovery x0 x1 s = .next t) : Only [.conns] s t :=
  Only.next (State.rateRecovery_only _ _ _) h

theorem execPfcFrame_only {x0 x1 x2 x3 s t} (h : execPfcFrame x0 x1 x2 x3 s = .next t) : Only [.out, .time, .halt, .stats, .tel, .herd, .conns, .events] s t :=
  Only.next (Only.of (State.pfcFrame_only _ _ _ _) rfl ((State.timed_only _ _).mono rfl)) h

theorem execHerdPfcStorm_only {x0 x1 s t} (h : execHerdPfcStorm x0 x1 s = .next t) : Only [.tel, .events] s t :=
  Only.next (State.pfcStorm_only _ _ _) h

theorem execPauseFrame_only {x0 s t} (h : execPauseFrame x0 s = .next t) : Only [.herd] s t :=
  Only.next (State.setHerd_only _ _ _) h

theorem execHerdPortDown_only {x0 s t} (h : execHerdPortDown x0 s = .next t) : Only [.out, .stats, .tel, .herd, .conns, .events] s t :=
  Only.next (State.portDown_only _ _) h

theorem execPcsLock_only {x0 s t} (h : execPcsLock x0 s = .next t) : Only [.herd] s t :=
  Only.next (State.setHerd_only _ _ _) h

theorem execJoinMessage_only {x0 x1 s t} (h : execJoinMessage x0 x1 s = .next t) : Only [.out, .time, .clk, .stats, .seq, .pen, .conns] s t :=
  Only.next (Only.of (State.joinMessage_only _ _) rfl ((State.timed_only _ _).mono rfl)) h

theorem execMapDigest_only {x0 x1 s t} (h : execMapDigest x0 x1 s = .next t) : Only [.job, .seq, .tel, .pen, .conns, .msgs, .events] s t :=
  Only.next (State.mapDigest_only _ _ _) h

theorem execPeerAbsent_only {s t} (h : execPeerAbsent s = .next t) : Only [.job, .seq, .tel, .pen, .conns, .msgs, .events] s t :=
  Only.next (State.peerAbsent_only _) h

theorem execBlockRead_only {x0 x1 s t} (h : execBlockRead x0 x1 s = .next t) : Only [.out, .halt, .phases, .stats, .replay, .reports, .seq, .queues, .tel, .mem, .emb, .acc, .hist, .attn, .watch, .pen, .conns, .msgs, .events, .ledger, .rel] s t := by
  unfold execBlockRead at h
  repeat' first | (with_reducible replace h := ite_next h) | (with_reducible replace h := ite_next2 h) | (with_reducible replace h := ite_next3 h) | split at h
  all_goals first | refine Only.next ?_ h | (cases h; done)
  all_goals repeat' first
    | with_reducible assumption
    | with_reducible exact Only.refl _
    | (with_reducible rfl)
    | decide
    | with_reducible apply Only.of (State.stageBlock_only _ _ _)

theorem execRecordWrite_only {x0 x1 x2 x3 s t} (h : execRecordWrite x0 x1 x2 x3 s = .next t) : Only [.tel, .channels, .mem, .events, .ledger] s t := by
  unfold execRecordWrite at h
  repeat' first | (with_reducible replace h := ite_next h) | (with_reducible replace h := ite_next2 h) | (with_reducible replace h := ite_next3 h) | split at h
  all_goals first | refine Only.next ?_ h | (cases h; done)
  all_goals repeat' first
    | with_reducible assumption
    | with_reducible exact Only.refl _
    | (with_reducible rfl)
    | decide
    | with_reducible apply Only.of (State.recordWrite_only _ _ _ _ _)

theorem execStackWriteAck_only {x0 x1 x2 s t} (h : execStackWriteAck x0 x1 x2 s = .next t) : Only [.out, .halt, .stats, .tel, .hbm, .tiles, .channels, .mem, .tables, .churns, .hist, .watch, .pen, .conns, .events, .ledger, .exp] s t :=
  Only.next (State.writeAck_only _ _ _ _) h

theorem execRegulatedIssue_only {x0 x1 x2 s t} (h : execRegulatedIssue x0 x1 x2 s = .next t) : Only [.time, .channels] s t :=
  Only.next (State.regulatedIssue_only _ _ _ _) h

theorem execRetrainRequest_only {x0 x1 x2 s t} (h : execRetrainRequest x0 x1 x2 s = .next t) : Only [.time, .channels] s t :=
  Only.next (State.retrainRequest_only _ _ _ _) h

theorem execRetrainOverdue_only {x0 s t} (h : execRetrainOverdue x0 s = .next t) : Only [.tel, .channels, .events] s t :=
  Only.next (State.retrainOverdue_only _ _) h

theorem execRetrainDone_only {x0 x1 x2 s t} (h : execRetrainDone x0 x1 x2 s = .next t) : Only [.setup, .time, .halt, .tel, .channels, .events, .ledger] s t :=
  Only.next (State.retrainDone_only _ _ _ _) h

theorem execRetrainNow_only {x0 x1 s t} (h : execRetrainNow x0 x1 s = .next t) : Only [.out, .pend, .setup, .ports, .tel, .channels, .events] s t :=
  Only.next (State.windowWrite_only _ _ _ _ _ _ _ rfl (fun _ => (Only.mono (State.writeMemCtrl_only _ _ _) rfl)) (fun _ => Only.mono (State.writeMemCtrl_only _ _ _) rfl)) h

theorem execStackTempSample_only {x0 x1 s t} (h : execStackTempSample x0 x1 s = .next t) : Only [.stats, .void, .tel, .channels, .events] s t :=
  Only.next (State.stackTemp_only _ _ _) h

theorem execRegRate_only {x0 x1 x2 x3 s t} (h : execRegRate x0 x1 x2 x3 s = .next t) : Only [.out, .pend, .setup, .ports, .tel, .events] s t :=
  Only.next (State.windowWrite_only _ _ _ _ _ _ _ rfl (fun _ => Only.refl _) (fun _ => Only.mono (State.writeRegulator_only _ _ _ _) rfl)) h

theorem execWitnessReq_only {x0 x1 s t} (h : execWitnessReq x0 x1 s = .next t) : Only [.out, .stats, .seq, .pen, .conns, .rel] s t :=
  Only.next (State.witnessReq_only _ _ _) h

theorem execWitnessWork_only {x0 x1 s t} (h : execWitnessWork x0 x1 s = .next t) : Only [.out, .stats, .tel, .pen, .conns, .events, .ledger, .rel] s t :=
  Only.next (State.witnessWork_only _ _ _) h

theorem execWitnessResult_only {x0 x1 s t} (h : execWitnessResult x0 x1 s = .next t) : Only [.out, .halt, .phases, .stats, .replay, .tel, .tiles, .emb, .watch, .pen, .conns, .msgs, .events] s t :=
  Only.next (State.witnessResult_only _ _ _) h

theorem execResend_only {x0 x1 x2 s t} (h : execResend x0 x1 x2 s = .next t) : Only [.out, .halt, .phases, .stats, .replay, .reports, .tel, .emb, .acc, .hist, .attn, .watch, .pen, .conns, .msgs, .events, .ledger, .rel] s t :=
  Only.next (State.resend_only _ _ _ _) h

theorem execLifetimeCountWrite_only {s t} (h : execLifetimeCountWrite s = .next t) : Only [.life] s t := by
  unfold execLifetimeCountWrite at h
  refine Only.next ?_ h
  repeat' first
    | with_reducible assumption
    | with_reducible exact Only.refl _
    | (with_reducible rfl)
    | decide
    | with_reducible refine Only.thenFold ?_ (fun t x => ?_)
    | with_reducible refine Only.thenFold_fst ?_ (fun t x => ?_)
    | (fail_if_no_progress ((with_reducible refine Only.lit ?_ ?_) <;> [skip; (intro p; cases p <;> first | exact .inl (by decide) | exact .inr (by (repeat' apply And.intro) <;> rfl))]))

theorem execTrWatchdog_only {s t} (h : execTrWatchdog s = .next t) : Only [.boot, .halt, .tel, .events] s t := by
  unfold execTrWatchdog at h
  refine Only.next ?_ h
  repeat' first
    | with_reducible assumption
    | with_reducible exact Only.refl _
    | (with_reducible rfl)
    | decide
    | with_reducible apply Only.of (State.raiseHalt_only _ _ _ _ _)
    | with_reducible refine Only.thenFold ?_ (fun t x => ?_)
    | with_reducible refine Only.thenFold_fst ?_ (fun t x => ?_)
    | (fail_if_no_progress ((with_reducible refine Only.lit ?_ ?_) <;> [skip; (intro p; cases p <;> first | exact .inl (by decide) | exact .inr (by (repeat' apply And.intro) <;> rfl))]))

theorem execCerts_only {x0 x1 s t} (h : execCerts x0 x1 s = .next t) : Only [.out, .active, .pend, .setup, .plan, .ports, .queues, .tel, .mem, .tables, .events, .exp, .jtag, .sec] s t :=
  Only.next (State.secCommand_only _ _ _ _) h

theorem execReport_only {x0 x1 s t} (h : execReport x0 x1 s = .next t) : Only [.out, .active, .pend, .setup, .plan, .ports, .queues, .tel, .mem, .tables, .events, .exp, .jtag, .sec] s t :=
  Only.next (State.secCommand_only _ _ _ _) h

theorem execReportKem_only {x0 x1 s t} (h : execReportKem x0 x1 s = .next t) : Only [.out, .active, .pend, .setup, .plan, .ports, .queues, .tel, .mem, .tables, .events, .exp, .jtag, .sec] s t :=
  Only.next (State.secCommand_only _ _ _ _) h

theorem execKeyLoad_only {x0 x1 x2 s t} (h : execKeyLoad x0 x1 x2 s = .next t) : Only [.out, .active, .pend, .setup, .plan, .ports, .queues, .tel, .mem, .tables, .events, .exp, .jtag, .sec] s t :=
  Only.next (State.secCommand_only _ _ _ _) h

theorem execExit_only {x0 x1 s t} (h : execExit x0 x1 s = .next t) : Only [.out, .active, .pend, .setup, .plan, .ports, .queues, .tel, .mem, .tables, .events, .exp, .jtag, .sec] s t :=
  Only.next (State.secCommand_only _ _ _ _) h

theorem execBypass_only {s t} (h : execBypass s = .next t) : Only [.jtag] s t :=
  Only.next (State.setJtag_only _ _) h

theorem execIdcode_only {s t} (h : execIdcode s = .next t) : Only [.jtag] s t :=
  Only.next (State.setJtag_only _ _) h

theorem execSamplePreload_only {s t} (h : execSamplePreload s = .next t) : Only [.jtag] s t :=
  Only.next (State.setJtag_only _ _) h

theorem execExtest_only {s t} (h : execExtest s = .next t) : Only [.jtag] s t :=
  Only.next (State.setJtag_only _ _) h

theorem execDebug_only {s t} (h : execDebug s = .next t) : Only [.jtag] s t :=
  Only.next (State.setJtag_only _ _) h

theorem execAuxPowerUp_only {s t} (h : execAuxPowerUp s = .next t) : Only [.out, .tel, .events, .powerEvents, .pwr] s t := by
  unfold execAuxPowerUp at h
  refine Only.next ?_ h
  repeat' first
    | with_reducible assumption
    | with_reducible exact Only.refl _
    | (with_reducible rfl)
    | decide
    | with_reducible apply Only.of (State.powerWait_only _)
    | with_reducible refine Only.thenFold ?_ (fun t x => ?_)
    | with_reducible refine Only.thenFold_fst ?_ (fun t x => ?_)
    | (fail_if_no_progress ((with_reducible refine Only.lit ?_ ?_) <;> [skip; (intro p; cases p <;> first | exact .inl (by decide) | exact .inr (by (repeat' apply And.intro) <;> rfl))]))

theorem execModuleInsertion_only {s t} (h : execModuleInsertion s = .next t) : Only [.out, .tel, .events, .powerEvents, .pwr] s t := by
  unfold execModuleInsertion at h
  refine Only.next ?_ h
  repeat' first
    | with_reducible assumption
    | with_reducible exact Only.refl _
    | (with_reducible rfl)
    | decide
    | with_reducible apply Only.of (State.powerWait_only _)
    | with_reducible refine Only.thenFold ?_ (fun t x => ?_)
    | with_reducible refine Only.thenFold_fst ?_ (fun t x => ?_)
    | (fail_if_no_progress ((with_reducible refine Only.lit ?_ ?_) <;> [skip; (intro p; cases p <;> first | exact .inl (by decide) | exact .inr (by (repeat' apply And.intro) <;> rfl))]))

theorem execModuleExtraction_only {s t} (h : execModuleExtraction s = .next t) : Only [.active, .pend, .setup, .win, .boot, .time, .clk, .job, .halt, .step, .slips, .phases, .stats, .intake, .tail, .replay, .reports, .void, .seq, .plan, .ports, .groups, .queues, .tel, .hbm, .tiles, .channels, .mem, .tables, .emb, .acc, .churns, .hist, .attn, .lines, .watch, .pen, .herd, .conns, .msgs, .events, .ledger, .life, .exp, .rel, .jtag, .sec, .powerEvents, .pwr] s t := by
  unfold execModuleExtraction at h
  refine Only.next ?_ h
  repeat' first
    | with_reducible assumption
    | with_reducible exact Only.refl _
    | (with_reducible rfl)
    | decide
    | (with_reducible apply Only.ite) <;> intro _
    | with_reducible apply Only.of (State.saddleLost_only _)
    | with_reducible refine Only.thenFold ?_ (fun t x => ?_)
    | with_reducible refine Only.thenFold_fst ?_ (fun t x => ?_)
    | (fail_if_no_progress ((with_reducible refine Only.lit ?_ ?_) <;> [skip; (intro p; cases p <;> first | exact .inl (by decide) | exact .inr (by (repeat' apply And.intro) <;> rfl))]))

theorem execPwrEnRise_only {x0 s t} (h : execPwrEnRise x0 s = .next t) : Only [.out, .time, .tel, .events, .powerEvents, .pwr] s t :=
  Only.next (Only.of (State.pwrEnRise_only _) rfl ((State.timed_only _ _).mono rfl)) h

theorem execPowering_only {x0 s t} (h : execPowering x0 s = .next t) : Only [.time, .pwr] s t :=
  Only.next (Only.of (State.powering_only _) rfl ((State.timed_only _ _).mono rfl)) h

theorem execBulkCharged_only {s t} (h : execBulkCharged s = .next t) : Only [.pwr] s t := by
  unfold execBulkCharged at h
  refine Only.next ?_ h
  repeat' first
    | with_reducible assumption
    | with_reducible exact Only.refl _
    | (with_reducible rfl)
    | decide
    | (with_reducible apply Only.ite) <;> intro _
    | with_reducible refine Only.thenFold ?_ (fun t x => ?_)
    | with_reducible refine Only.thenFold_fst ?_ (fun t x => ?_)
    | (fail_if_no_progress ((with_reducible refine Only.lit ?_ ?_) <;> [skip; (intro p; cases p <;> first | exact .inl (by decide) | exact .inr (by (repeat' apply And.intro) <;> rfl))]))

theorem execPwrgd_only {s t} (h : execPwrgd s = .next t) : Only [.pwr] s t := by
  unfold execPwrgd at h
  refine Only.next ?_ h
  repeat' first
    | with_reducible assumption
    | with_reducible exact Only.refl _
    | (with_reducible rfl)
    | decide
    | (with_reducible apply Only.ite) <;> intro _
    | with_reducible refine Only.thenFold ?_ (fun t x => ?_)
    | with_reducible refine Only.thenFold_fst ?_ (fun t x => ?_)
    | (fail_if_no_progress ((with_reducible refine Only.lit ?_ ?_) <;> [skip; (intro p; cases p <;> first | exact .inl (by decide) | exact .inr (by (repeat' apply And.intro) <;> rfl))]))

theorem execRailRegulationTimeout_only {s t} (h : execRailRegulationTimeout s = .next t) : Only [.active, .pend, .setup, .win, .boot, .time, .clk, .job, .halt, .step, .slips, .phases, .stats, .intake, .tail, .replay, .reports, .void, .seq, .plan, .ports, .groups, .queues, .tel, .hbm, .tiles, .channels, .mem, .tables, .emb, .acc, .churns, .hist, .attn, .lines, .watch, .pen, .herd, .conns, .msgs, .events, .ledger, .life, .exp, .rel, .jtag, .sec, .powerEvents, .pwr] s t := by
  unfold execRailRegulationTimeout at h
  refine Only.next ?_ h
  repeat' first
    | with_reducible assumption
    | with_reducible exact Only.refl _
    | (with_reducible rfl)
    | decide
    | (with_reducible apply Only.ite) <;> intro _
    | with_reducible apply Only.of (State.saddleLost_only _)
    | with_reducible refine Only.thenFold ?_ (fun t x => ?_)
    | with_reducible refine Only.thenFold_fst ?_ (fun t x => ?_)
    | (fail_if_no_progress ((with_reducible refine Only.lit ?_ ?_) <;> [skip; (intro p; cases p <;> first | exact .inl (by decide) | exact .inr (by (repeat' apply And.intro) <;> rfl))]))

theorem execPwrEnFall_only {x0 s t} (h : execPwrEnFall x0 s = .next t) : Only [.time, .pwr] s t := by
  unfold execPwrEnFall at h
  refine Only.next ?_ h
  repeat' first
    | with_reducible assumption
    | with_reducible exact Only.refl _
    | (with_reducible rfl)
    | decide
    | with_reducible apply Only.of (State.enterStopping_only _)
    | with_reducible apply Only.of (State.timed_only _ _)
    | (extract_lets +onlyGivenNames x; clear_value (hq : x = _); with_reducible refine Only.gen hq ?_ fun hx => ?_ <;> clear hq)
    | with_reducible refine Only.thenFold ?_ (fun t x => ?_)
    | with_reducible refine Only.thenFold_fst ?_ (fun t x => ?_)
    | (fail_if_no_progress ((with_reducible refine Only.lit ?_ ?_) <;> [skip; (intro p; cases p <;> first | exact .inl (by decide) | exact .inr (by (repeat' apply And.intro) <;> rfl))]))

theorem execRailsOff_only {x0 x1 s t} (h : execRailsOff x0 x1 s = .next t) : Only [.out, .active, .pend, .setup, .win, .boot, .time, .clk, .job, .halt, .step, .slips, .phases, .stats, .intake, .tail, .replay, .reports, .void, .seq, .plan, .ports, .groups, .queues, .tel, .hbm, .tiles, .channels, .mem, .tables, .emb, .acc, .churns, .hist, .attn, .lines, .watch, .pen, .herd, .conns, .msgs, .events, .ledger, .life, .exp, .rel, .jtag, .sec, .powerEvents, .pwr] s t :=
  Only.next (State.railsOff_only _ _ _) h

theorem execTripWaitEnd_only {s t} (h : execTripWaitEnd s = .next t) : Only [.out, .tel, .events, .powerEvents, .pwr] s t := by
  unfold execTripWaitEnd at h
  refine Only.next ?_ h
  repeat' first
    | with_reducible assumption
    | with_reducible exact Only.refl _
    | (with_reducible rfl)
    | decide
    | (with_reducible apply Only.ite) <;> intro _
    | with_reducible apply Only.of (State.powerWait_only _)
    | with_reducible apply Only.of (State.leaveLockout_only _)
    | with_reducible refine Only.thenFold ?_ (fun t x => ?_)
    | with_reducible refine Only.thenFold_fst ?_ (fun t x => ?_)
    | (fail_if_no_progress ((with_reducible refine Only.lit ?_ ?_) <;> [skip; (intro p; cases p <;> first | exact .inl (by decide) | exact .inr (by (repeat' apply And.intro) <;> rfl))]))

theorem execVinUv_only {s t} (h : execVinUv s = .next t) : Only [.out, .active, .pend, .setup, .win, .boot, .time, .clk, .job, .halt, .step, .slips, .phases, .stats, .intake, .tail, .replay, .reports, .void, .seq, .plan, .ports, .groups, .queues, .tel, .hbm, .tiles, .channels, .mem, .tables, .emb, .acc, .churns, .hist, .attn, .lines, .watch, .pen, .herd, .conns, .msgs, .events, .ledger, .life, .exp, .rel, .jtag, .sec, .powerEvents, .pwr] s t := by
  unfold execVinUv at h
  refine Only.next ?_ h
  repeat' first
    | with_reducible assumption
    | with_reducible exact Only.refl _
    | (with_reducible rfl)
    | decide
    | with_reducible apply Only.of (State.lockOut_only _ _)
    | with_reducible refine Only.thenFold ?_ (fun t x => ?_)
    | with_reducible refine Only.thenFold_fst ?_ (fun t x => ?_)
    | (fail_if_no_progress ((with_reducible refine Only.lit ?_ ?_) <;> [skip; (intro p; cases p <;> first | exact .inl (by decide) | exact .inr (by (repeat' apply And.intro) <;> rfl))]))

theorem execVinOv_only {s t} (h : execVinOv s = .next t) : Only [.out, .active, .pend, .setup, .win, .boot, .time, .clk, .job, .halt, .step, .slips, .phases, .stats, .intake, .tail, .replay, .reports, .void, .seq, .plan, .ports, .groups, .queues, .tel, .hbm, .tiles, .channels, .mem, .tables, .emb, .acc, .churns, .hist, .attn, .lines, .watch, .pen, .herd, .conns, .msgs, .events, .ledger, .life, .exp, .rel, .jtag, .sec, .powerEvents, .pwr] s t := by
  unfold execVinOv at h
  refine Only.next ?_ h
  repeat' first
    | with_reducible assumption
    | with_reducible exact Only.refl _
    | (with_reducible rfl)
    | decide
    | with_reducible apply Only.of (State.lockOut_only _ _)
    | with_reducible refine Only.thenFold ?_ (fun t x => ?_)
    | with_reducible refine Only.thenFold_fst ?_ (fun t x => ?_)
    | (fail_if_no_progress ((with_reducible refine Only.lit ?_ ?_) <;> [skip; (intro p; cases p <;> first | exact .inl (by decide) | exact .inr (by (repeat' apply And.intro) <;> rfl))]))

theorem execVinLow_only {x0 s t} (h : execVinLow x0 s = .next t) : Only [.out, .stats, .void, .tel, .events, .powerEvents, .pwr] s t :=
  Only.next (State.vinOut_only _ _ _) h

theorem execVinHigh_only {x0 s t} (h : execVinHigh x0 s = .next t) : Only [.out, .stats, .void, .tel, .events, .powerEvents, .pwr] s t :=
  Only.next (State.vinOut_only _ _ _) h

theorem execVinRated_only {x0 s t} (h : execVinRated x0 s = .next t) : Only [.pwr] s t := by
  unfold execVinRated at h
  refine Only.next ?_ h
  repeat' first
    | with_reducible assumption
    | with_reducible exact Only.refl _
    | (with_reducible rfl)
    | decide
    | with_reducible refine Only.thenFold ?_ (fun t x => ?_)
    | with_reducible refine Only.thenFold_fst ?_ (fun t x => ?_)
    | (fail_if_no_progress ((with_reducible refine Only.lit ?_ ?_) <;> [skip; (intro p; cases p <;> first | exact .inl (by decide) | exact .inr (by (repeat' apply And.intro) <;> rfl))]))

theorem execPwrOcp_only {s t} (h : execPwrOcp s = .next t) : Only [.out, .active, .pend, .setup, .win, .boot, .time, .clk, .job, .halt, .step, .slips, .phases, .stats, .intake, .tail, .replay, .reports, .void, .seq, .plan, .ports, .groups, .queues, .tel, .hbm, .tiles, .channels, .mem, .tables, .emb, .acc, .churns, .hist, .attn, .lines, .watch, .pen, .herd, .conns, .msgs, .events, .ledger, .life, .exp, .rel, .jtag, .sec, .powerEvents, .pwr] s t :=
  Only.next (State.lockOut_only _ _) h

theorem execClampStep_only {x0 s t} (h : execClampStep x0 s = .next t) : Only [.stats, .tel, .events, .pwr] s t :=
  Only.next (State.clampStep_only _) h

theorem execBudgetClamp_only {s t} (h : execBudgetClamp s = .next t) : Only [.tel, .events, .pwr] s t := by
  unfold execBudgetClamp at h
  refine Only.next ?_ h
  repeat' first
    | with_reducible assumption
    | with_reducible exact Only.refl _
    | (with_reducible rfl)
    | decide
    | with_reducible apply Only.of (State.clampActs_only _)
    | with_reducible refine Only.thenFold ?_ (fun t x => ?_)
    | with_reducible refine Only.thenFold_fst ?_ (fun t x => ?_)
    | (fail_if_no_progress ((with_reducible refine Only.lit ?_ ?_) <;> [skip; (intro p; cases p <;> first | exact .inl (by decide) | exact .inr (by (repeat' apply And.intro) <;> rfl))]))

theorem execSpecVoid_only {s t} (h : execSpecVoid s = .next t) : Only [.stats, .void, .tel, .events] s t :=
  Only.next (State.voidPromise_only _ _) h

theorem execJunctionSensorRead_only {x0 x1 s t} (h : execJunctionSensorRead x0 x1 s = .next t) : Only [.stats, .pwr] s t := by
  unfold execJunctionSensorRead at h
  refine Only.next ?_ h
  repeat' first
    | with_reducible assumption
    | with_reducible exact Only.refl _
    | (with_reducible rfl)
    | decide
    | with_reducible refine Only.thenFold ?_ (fun t x => ?_)
    | with_reducible refine Only.thenFold_fst ?_ (fun t x => ?_)
    | (fail_if_no_progress ((with_reducible refine Only.lit ?_ ?_) <;> [skip; (intro p; cases p <;> first | exact .inl (by decide) | exact .inr (by (repeat' apply And.intro) <;> rfl))]))

theorem execThermTrip_only {s t} (h : execThermTrip s = .next t) : Only [.out, .active, .pend, .setup, .win, .boot, .time, .clk, .job, .halt, .step, .slips, .phases, .stats, .intake, .tail, .replay, .reports, .void, .seq, .plan, .ports, .groups, .queues, .tel, .hbm, .tiles, .channels, .mem, .tables, .emb, .acc, .churns, .hist, .attn, .lines, .watch, .pen, .herd, .conns, .msgs, .events, .ledger, .life, .exp, .rel, .jtag, .sec, .powerEvents, .pwr] s t := by
  unfold execThermTrip at h
  refine Only.next ?_ h
  repeat' first
    | with_reducible assumption
    | with_reducible exact Only.refl _
    | (with_reducible rfl)
    | decide
    | with_reducible apply Only.of (State.lockOut_only _ _)
    | with_reducible refine Only.thenFold ?_ (fun t x => ?_)
    | with_reducible refine Only.thenFold_fst ?_ (fun t x => ?_)
    | (fail_if_no_progress ((with_reducible refine Only.lit ?_ ?_) <;> [skip; (intro p; cases p <;> first | exact .inl (by decide) | exact .inr (by (repeat' apply And.intro) <;> rfl))]))

theorem execCoolSpec_only {x0 x1 x2 s t} (h : execCoolSpec x0 x1 x2 s = .next t) : Only [.out, .stats, .void, .tel, .channels, .events, .powerEvents, .pwr] s t :=
  Only.next (State.coolSpec_only _ _ _ _) h

theorem execCoolOk_only {x0 x1 s t} (h : execCoolOk x0 x1 s = .next t) : Only [.out, .tel, .events, .powerEvents, .pwr] s t := by
  unfold execCoolOk at h
  refine Only.next ?_ h
  repeat' first
    | with_reducible assumption
    | with_reducible exact Only.refl _
    | (with_reducible rfl)
    | decide
    | (with_reducible apply Only.ite) <;> intro _
    | with_reducible apply Only.of (State.powerEvent_only _ _ _)
    | with_reducible refine Only.thenFold ?_ (fun t x => ?_)
    | with_reducible refine Only.thenFold_fst ?_ (fun t x => ?_)
    | (fail_if_no_progress ((with_reducible refine Only.lit ?_ ?_) <;> [skip; (intro p; cases p <;> first | exact .inl (by decide) | exact .inr (by (repeat' apply And.intro) <;> rfl))]))

theorem execCoolLost_only {s t} (h : execCoolLost s = .next t) : Only [.out, .active, .pend, .setup, .win, .boot, .time, .clk, .job, .halt, .step, .slips, .phases, .stats, .intake, .tail, .replay, .reports, .void, .seq, .plan, .ports, .groups, .queues, .tel, .hbm, .tiles, .channels, .mem, .tables, .emb, .acc, .churns, .hist, .attn, .lines, .watch, .pen, .herd, .conns, .msgs, .events, .ledger, .life, .exp, .rel, .jtag, .sec, .powerEvents, .pwr] s t := by
  unfold execCoolLost at h
  refine Only.next ?_ h
  repeat' first
    | with_reducible assumption
    | with_reducible exact Only.refl _
    | (with_reducible rfl)
    | decide
    | (with_reducible apply Only.ite) <;> intro _
    | with_reducible apply Only.of (State.lockOut_only _ _)

theorem execWearHour_only {x0 s t} (h : execWearHour x0 s = .next t) : Only [.out, .tel, .events, .powerEvents, .pwr] s t := by
  unfold execWearHour at h
  refine Only.next ?_ h
  repeat' first
    | with_reducible assumption
    | with_reducible exact Only.refl _
    | (with_reducible rfl)
    | decide
    | (with_reducible apply Only.ite) <;> intro _
    | with_reducible apply Only.of (State.hotHours_only _ _)
    | with_reducible refine Only.thenFold ?_ (fun t x => ?_)
    | with_reducible refine Only.thenFold_fst ?_ (fun t x => ?_)
    | (fail_if_no_progress ((with_reducible refine Only.lit ?_ ?_) <;> [skip; (intro p; cases p <;> first | exact .inl (by decide) | exact .inr (by (repeat' apply And.intro) <;> rfl))]))

theorem execAuxCfg_only {x0 x1 s t} (h : execAuxCfg x0 x1 s = .next t) : Only [.out, .pend, .setup, .ports, .tel, .events] s t :=
  Only.next (State.windowWrite_only _ _ _ _ _ _ _ rfl (fun _ => Only.refl _) (fun _ => Only.mono (State.writeAux_only _ _) rfl)) h

theorem execGetStatus_only {s t} (h : execGetStatus s = .next t) : Only [.out] s t :=
  Only.next (State.emit_only _ _) h

theorem execSetEnable_only {x0 s t} (h : execSetEnable x0 s = .next t) : Only [.out, .tel, .events, .powerEvents, .pwr] s t := by
  unfold execSetEnable at h
  refine Only.next ?_ h
  repeat' first
    | with_reducible assumption
    | with_reducible exact Only.refl _
    | (with_reducible rfl)
    | decide
    | (with_reducible apply Only.ite) <;> intro _
    | with_reducible apply Only.of (State.powerWait_only _)
    | with_reducible apply Only.of (State.enterStopping_only _)
    | with_reducible refine Only.thenFold ?_ (fun t x => ?_)
    | with_reducible refine Only.thenFold_fst ?_ (fun t x => ?_)
    | (fail_if_no_progress ((with_reducible refine Only.lit ?_ ?_) <;> [skip; (intro p; cases p <;> first | exact .inl (by decide) | exact .inr (by (repeat' apply And.intro) <;> rfl))]))

theorem execPowerCycle_only {s t} (h : execPowerCycle s = .next t) : Only [.out, .tel, .events, .powerEvents, .pwr] s t :=
  Only.next (State.powerCycle_only _) h

theorem execGetEvents_only {s t} (h : execGetEvents s = .next t) : Only [.out] s t :=
  Only.next (State.emit_only _ _) h

theorem execMctpControlMessage_only {x0 s t} (h : execMctpControlMessage x0 s = .next t) : Only [.out] s t :=
  Only.next (State.emit_only _ _) h

theorem execSetdasa_only {x0 s t} (h : execSetdasa x0 s = .next t) : Only [.pwr] s t := by
  unfold execSetdasa at h
  refine Only.next ?_ h
  repeat' first
    | with_reducible assumption
    | with_reducible exact Only.refl _
    | (with_reducible rfl)
    | decide
    | with_reducible refine Only.thenFold ?_ (fun t x => ?_)
    | with_reducible refine Only.thenFold_fst ?_ (fun t x => ?_)
    | (fail_if_no_progress ((with_reducible refine Only.lit ?_ ?_) <;> [skip; (intro p; cases p <;> first | exact .inl (by decide) | exact .inr (by (repeat' apply And.intro) <;> rfl))]))

theorem execEntdaa_only {x0 s t} (h : execEntdaa x0 s = .next t) : Only [.pwr] s t := by
  unfold execEntdaa at h
  refine Only.next ?_ h
  repeat' first
    | with_reducible assumption
    | with_reducible exact Only.refl _
    | (with_reducible rfl)
    | decide
    | with_reducible refine Only.thenFold ?_ (fun t x => ?_)
    | with_reducible refine Only.thenFold_fst ?_ (fun t x => ?_)
    | (fail_if_no_progress ((with_reducible refine Only.lit ?_ ?_) <;> [skip; (intro p; cases p <;> first | exact .inl (by decide) | exact .inr (by (repeat' apply And.intro) <;> rfl))]))

theorem execSetupUnlock_only {x0 x1 s t} (h : execSetupUnlock x0 x1 s = .next t) : Only [.out, .setup, .ports, .tel, .events] s t :=
  Only.next (State.windowWrite_only _ _ _ _ _ _ _ rfl (fun _ => Only.refl _) (fun _ => Only.mono (State.writeUnlock_only _ _) rfl)) h

theorem execApply_only {x0 x1 s t} (h : execApply x0 x1 s = .next t) : Only [.out, .active, .pend, .setup, .seq, .plan, .ports, .queues, .tel, .mem, .tables, .watch, .events, .exp, .sec] s t :=
  Only.next (State.windowWrite_only _ _ _ _ _ _ _ rfl (fun _ => Only.refl _) (fun _ => Only.mono (State.writeApply_only _ _) rfl)) h

theorem execDiscard_only {x0 x1 s t} (h : execDiscard x0 x1 s = .next t) : Only [.out, .active, .pend, .setup, .seq, .plan, .ports, .queues, .tel, .mem, .tables, .watch, .events, .exp, .sec] s t :=
  Only.next (State.windowWrite_only _ _ _ _ _ _ _ rfl (fun _ => Only.refl _) (fun _ => Only.mono (State.writeApply_only _ _) rfl)) h

theorem execPlanLoad_only {x0 x1 s t} (h : execPlanLoad x0 x1 s = .next t) : Only [.out, .active, .pend, .setup, .win, .boot, .time, .clk, .job, .halt, .step, .slips, .phases, .stats, .intake, .tail, .replay, .reports, .void, .seq, .plan, .ports, .groups, .queues, .tel, .hbm, .tiles, .channels, .mem, .tables, .emb, .acc, .churns, .hist, .attn, .lines, .watch, .pen, .herd, .conns, .msgs, .events, .ledger, .life, .exp, .rel, .jtag, .sec, .powerEvents, .pwr] s t :=
  Only.next (State.setupCommand_only _ _ _ _) h

theorem execPlanImageRead_only {x0 x1 s t} (h : execPlanImageRead x0 x1 s = .next t) : Only [.out, .active, .pend, .setup, .seq, .plan, .queues, .tel, .mem, .tables, .events, .exp, .sec] s t :=
  Only.next (State.planImageRead_only _ _ _) h

theorem execFwUpdate_only {x0 x1 s t} (h : execFwUpdate x0 x1 s = .next t) : Only [.out, .active, .pend, .setup, .win, .boot, .time, .clk, .job, .halt, .step, .slips, .phases, .stats, .intake, .tail, .replay, .reports, .void, .seq, .plan, .ports, .groups, .queues, .tel, .hbm, .tiles, .channels, .mem, .tables, .emb, .acc, .churns, .hist, .attn, .lines, .watch, .pen, .herd, .conns, .msgs, .events, .ledger, .life, .exp, .rel, .jtag, .sec, .powerEvents, .pwr] s t :=
  Only.next (State.setupCommand_only _ _ _ _) h

theorem execFlashWriteEnd_only {s t} (h : execFlashWriteEnd s = .next t) : Only [.setup, .boot] s t :=
  Only.next (State.flashWriteEnd_only _) h

theorem execErase_only {x0 x1 s t} (h : execErase x0 x1 s = .next t) : Only [.out, .active, .pend, .setup, .win, .boot, .time, .clk, .job, .halt, .step, .slips, .phases, .stats, .intake, .tail, .replay, .reports, .void, .seq, .plan, .ports, .groups, .queues, .tel, .hbm, .tiles, .channels, .mem, .tables, .emb, .acc, .churns, .hist, .attn, .lines, .watch, .pen, .herd, .conns, .msgs, .events, .ledger, .life, .exp, .rel, .jtag, .sec, .powerEvents, .pwr] s t :=
  Only.next (State.setupCommand_only _ _ _ _) h

theorem execEraseEnd_only {s t} (h : execEraseEnd s = .next t) : Only [.setup, .plan, .queues, .tel, .hbm, .tiles, .channels, .mem, .tables, .acc, .watch, .pen, .herd, .events, .exp, .rel, .sec] s t :=
  Only.next (State.eraseEnd_only _) h

theorem execModuleReset_only {x0 x1 s t} (h : execModuleReset x0 x1 s = .next t) : Only [.out, .active, .pend, .setup, .win, .boot, .time, .clk, .job, .halt, .step, .slips, .phases, .stats, .intake, .tail, .replay, .reports, .void, .seq, .plan, .ports, .groups, .queues, .tel, .hbm, .tiles, .channels, .mem, .tables, .emb, .acc, .churns, .hist, .attn, .lines, .watch, .pen, .herd, .conns, .msgs, .events, .ledger, .life, .exp, .rel, .jtag, .sec, .powerEvents, .pwr] s t :=
  Only.next (State.setupCommand_only _ _ _ _) h

theorem execRecover_only {x0 x1 x2 s t} (h : execRecover x0 x1 x2 s = .next t) : Only [.out, .active, .pend, .setup, .win, .boot, .time, .clk, .job, .halt, .step, .slips, .phases, .stats, .intake, .tail, .replay, .reports, .void, .seq, .plan, .ports, .groups, .queues, .tel, .hbm, .tiles, .channels, .mem, .tables, .emb, .acc, .churns, .hist, .attn, .lines, .watch, .pen, .herd, .conns, .msgs, .events, .ledger, .life, .exp, .rel, .jtag, .sec, .powerEvents, .pwr] s t :=
  Only.next (State.setupCommand_only _ _ _ _) h

theorem execBoot_only {x0 s t} (h : execBoot x0 s = .next t) : Only [.boot, .halt, .stats, .tel, .hbm, .channels, .mem, .pen, .herd, .msgs, .events, .ledger, .sec, .powerEvents] s t :=
  Only.next (State.bootRom_only _ _) h

theorem execDieStarted_only {x0 s t} (h : execDieStarted x0 s = .next t) : Only [.boot] s t :=
  Only.next (State.dieStarted_only _ _) h

theorem execDieStartTimeout_only {x0 s t} (h : execDieStartTimeout x0 s = .next t) : Only [.boot] s t :=
  Only.next (State.dieStartTimeout_only _ _) h

theorem execRegisterWrite_only {x0 x1 x2 x3 s t} (h : execRegisterWrite x0 x1 x2 x3 s = .next t) : Only [.out, .active, .pend, .setup, .win, .boot, .time, .clk, .job, .halt, .step, .slips, .phases, .stats, .intake, .tail, .replay, .reports, .void, .seq, .plan, .ports, .groups, .queues, .tel, .hbm, .tiles, .channels, .mem, .tables, .emb, .acc, .churns, .hist, .attn, .lines, .watch, .pen, .herd, .conns, .msgs, .events, .ledger, .life, .exp, .rel, .jtag, .sec, .powerEvents, .pwr] s t :=
  Only.next (State.windowWrite_only _ _ _ _ _ _ _ rfl (fun _ => State.writeAt_only _ _ _ _) (fun _ => State.writeAt_only _ _ _ _)) h

theorem execDoorbellReadCompletion_only {x0 x1 x2 s t} (h : execDoorbellReadCompletion x0 x1 x2 s = .next t) : Only [.out, .time, .ports, .groups, .queues, .tel, .events, .exp] s t :=
  Only.next (State.doorbellRead_only _ _ _ _ _) h

theorem execIdleFlit_only {x0 x1 s t} (h : execIdleFlit x0 x1 s = .next t) : Only [.out, .stats, .pen] s t :=
  Only.next (State.idleFlit_only _ _ _) h

theorem execPenTrainingEnd_only {x0 s t} (h : execPenTrainingEnd x0 s = .next t) : Only [.tel, .pen, .msgs, .events, .ledger] s t :=
  Only.next (State.endTraining_only _ _) h

theorem execReceivedFrameDiscarded_only {x0 x1 s t} (h : execReceivedFrameDiscarded x0 x1 s = .next t) : Only [.herd] s t :=
  Only.next (State.dropFrame_only _ _ _) h

theorem execPfcPauseExpiry_only {x0 x1 s t} (h : execPfcPauseExpiry x0 x1 s = .next t) : Only [.out, .halt, .stats, .tel, .herd, .conns, .events] s t :=
  Only.next (State.resume_only _ _ _) h

theorem execFwImageRead_only {x0 s t} (h : execFwImageRead x0 s = .next t) : Only [.setup, .boot, .tel, .tiles, .events] s t :=
  Only.next (State.fwImageRead_only _ _) h

end Sys2Proof.Machine
end

