-- ==== Sys2Proof/Machine/Mesh.lean ====
section
/-! DEFINITION. The saddle: the mesh of tiles, what each stitch port and branch port faces, the stitch links, and the one
fixed path between two dies (R17 to R21). -/

namespace Sys2Proof.Machine

/-- A die of the saddle that a stitch link reaches (R14, R19). -/
inductive Die where
  | tile (t : Fin 32)
  | memPort (k : Fin 12)
  | optical (k : Fin 16)
  | hostPort (h : Fin 2)
  | sequencer
  | tackRoom
  deriving DecidableEq, Repr

/-! ## The mesh and its edge (R17 to R20) -/

/-- The row of a tile, from north to south. -/
def tileRow (t : Nat) : Nat := t / 8
/-- The column of a tile, from west to east. -/
def tileColumn (t : Nat) : Nat := t % 8

/-- What a tile's stitch port faces: a neighbouring tile, or at the edge a memory port die (R17, R19). -/
def portFaces (t : Fin 32) (p : StitchPort) : Die :=
  match p with
  | .north => if tileRow t.val = 0 then .memPort (Fin.ofNat 12 (t.val / 2)) else .tile (t - 8)
  | .east => if tileColumn t.val = 7 then .memPort (Fin.ofNat 12 (4 + tileRow t.val / 2)) else .tile (t + 1)
  | .south => if tileRow t.val = 3 then .memPort (Fin.ofNat 12 (6 + (31 - t.val) / 2)) else .tile (t + 8)
  | .west => if tileColumn t.val = 0 then .memPort (Fin.ofNat 12 (11 - tileRow t.val / 2)) else .tile (t - 1)

/-- The die attached to a branch port, none for an empty one (R19). -/
def branchFaces (k : Fin 12) (b : Fin 2) : Option Die :=
  if k < 4 then some (.optical (Fin.ofNat 16 (2 * k.val + b.val)))
  else if 6 ≤ k ∧ k < 10 then some (.optical (Fin.ofNat 16 (2 * (k.val - 2) + b.val)))
  else if b = 1 then none
  else if k = 4 then some (.hostPort 0)
  else if k = 5 then some (.hostPort 1)
  else if k = 10 then some .sequencer
  else some .tackRoom

/-- A tile's four stitch ports. -/
def stitchPorts : List StitchPort := [.north, .east, .south, .west]

/-- Every tile, every memory port die. -/
def allTiles : List (Fin 32) := List.finRange 32
def allMemPorts : List (Fin 12) := List.finRange 12

/-- The two tiles that a memory port die is attached to (R19), ascending. -/
def attachedTiles (k : Fin 12) : List (Fin 32) :=
  allTiles.filter (fun t => stitchPorts.any (fun p => portFaces t p == .memPort k))

/-- The end of the link between a memory port die and an attached tile. -/
def edgeEnd (k : Fin 12) (t : Fin 32) : LinkEnd :=
  .mesh t ((stitchPorts.find? (fun p => portFaces t p == .memPort k)).getD .north)

/-- The links between tiles, each once under its name: 28 within rows and 24 between rows (R18, R38). -/
def tileLinks : List LinkEnd :=
  (allTiles.filter (fun t => tileColumn t.val < 7)).map (fun t => .mesh t .east)
    ++ (allTiles.filter (fun t => tileRow t.val < 3)).map (fun t => .mesh t .south)

/-- The links between edge tiles and memory port dies (R19). -/
def edgeLinks : List LinkEnd := allMemPorts.flatMap (fun k => (attachedTiles k).map (edgeEnd k))

/-- The branch links (R19, R20). -/
def branchLinks : List LinkEnd :=
  allMemPorts.flatMap (fun k => ([0, 1] : List (Fin 2)).filterMap (fun b => (branchFaces k b).map (fun _ => .branch k b)))

/-! ## Routes (R21) -/

/-- Mesh hops between two tiles. -/
def hops (t u : Fin 32) : Nat :=
  (tileRow t.val - tileRow u.val) + (tileRow u.val - tileRow t.val)
    + (tileColumn t.val - tileColumn u.val) + (tileColumn u.val - tileColumn t.val)

/-- The branch port that a die outside the ring of memory port dies hangs on. -/
def branchOf (d : Die) : Option (Fin 12 × Fin 2) :=
  (allMemPorts.flatMap (fun k => ([0, 1] : List (Fin 2)).map (fun b => (k, b)))).find? (fun e => branchFaces e.1 e.2 == some d)

/-- The memory port die through which a die outside the mesh reaches it. -/
def ringDie (d : Die) : Option (Fin 12) :=
  match d with
  | .tile _ => none
  | .memPort k => some k
  | _ => (branchOf d).map (·.1)

/-- The tiles at which a die's traffic may meet the mesh. -/
def meshTiles (d : Die) : List (Fin 32) :=
  match d with
  | .tile t => [t]
  | _ => ((ringDie d).map attachedTiles).getD []

/-- The nearer of two pairs of tiles in mesh hops; the first when both are equally near. -/
def nearerPair (a b : Fin 32 × Fin 32) : Fin 32 × Fin 32 := if hops b.1 b.2 < hops a.1 a.2 then b else a

/-- The tiles at which traffic between two dies enters and leaves the mesh (R21): the attached port nearer to the tile at
the other end, the lower-numbered tile where both are equally near. Between two edge dies each choice names the other's end,
and the model takes the nearest pair, lower source tile first (DEDUCED, log 36). -/
def meshEnds (a b : Die) : Option (Fin 32 × Fin 32) :=
  match (meshTiles a).flatMap (fun t => (meshTiles b).map (fun u => (t, u))) with
  | [] => none
  | p :: r => some (r.foldl nearerPair p)

/-- The links along a row from one column to another. -/
def rowPath (row c d : Nat) : List LinkEnd :=
  (List.range (d - c)).map (fun i => .mesh (Fin.ofNat 32 (8 * row + c + i)) .east)
    ++ (List.range (c - d)).map (fun i => .mesh (Fin.ofNat 32 (8 * row + c - 1 - i)) .east)

/-- The links along a column from one row to another. -/
def columnPath (column r q : Nat) : List LinkEnd :=
  (List.range (q - r)).map (fun i => .mesh (Fin.ofNat 32 (8 * (r + i) + column)) .south)
    ++ (List.range (r - q)).map (fun i => .mesh (Fin.ofNat 32 (8 * (r - 1 - i) + column)) .south)

/-- Within the mesh: first along the row to the destination column, then along that column (R21). -/
def meshPath (t u : Fin 32) : List LinkEnd :=
  rowPath (tileRow t.val) (tileColumn t.val) (tileColumn u.val) ++ columnPath (tileColumn u.val) (tileRow t.val) (tileRow u.val)

/-- The branch link of a die outside the ring. -/
def branchLink (d : Die) : List LinkEnd := ((branchOf d).map (fun e => LinkEnd.branch e.1 e.2)).toList

/-- The link between an edge die's memory port die and the mesh at a tile. -/
def edgeLink (d : Die) (t : Fin 32) : List LinkEnd := ((ringDie d).map (fun k => edgeEnd k t)).toList

/-- Whether one of two dies is the memory port die on whose branch port the other hangs: the branch link alone joins them. -/
def branchNeighbours (a b : Die) : Bool := (ringDie a).isSome && ringDie a == ringDie b && (branchLink a == [] || branchLink b == [])

/-- The links of the one fixed path from a die to another, in order (R20, R21): between two branch links of one memory port
die the path leads through the mesh. -/
def route (a b : Die) : List LinkEnd :=
  if a = b then []
  else if branchNeighbours a b then branchLink a ++ branchLink b
  else
    match meshEnds a b with
    | some e => branchLink a ++ edgeLink a e.1 ++ meshPath e.1 e.2 ++ edgeLink b e.2 ++ branchLink b
    | none => []

end Sys2Proof.Machine
end

