-- ==== Sys2Proof/Tests/Slice0.lean ====
section
/-! SUPPORT. Tests: an ill-formed command for each check of WellFormed, the manual's worked examples, and for every statement with
hypotheses a state and operands that meet them. Expected results come from the manual. -/

-- Checked one theorem at a time: the package as one text then needs less memory.
set_option Elab.async false

namespace Sys2Proof.Tests
open Sys2Proof Sys2Proof.Machine

/-! ## Ill-formed commands -/

/-- Matrix stage A of line 0 of tile 0. -/
def stage0 : StageId := ⟨0, 0, false⟩
/-- Line 0 of tile 0. -/
def line0 : LineId := ⟨0, 0⟩

theorem test_descriptor_length : Instr.wellFormed (.descriptorFetched 0 (.ok []) 0) = false := by decide +kernel
theorem test_instruction_words : Instr.wellFormed (.mma stage0 [] none) = false ∧ Instr.wellFormed (.join stage0 []) = false
    ∧ Instr.wellFormed (.read stage0 []) = false ∧ Instr.wellFormed (.store stage0 []) = false ∧ Instr.wellFormed (.clear stage0 []) = false
    ∧ Instr.wellFormed (.status stage0 []) = false := by decide +kernel
theorem test_row_empty : Instr.wellFormed (.rowOperation line0 ⟨.sum, false, 0, 0, 0, 0, 0, 0⟩) = false := by decide +kernel
theorem test_flit_length : Instr.wellFormed (.dataFlit 0 []) = false ∧ Instr.wellFormed (.controlFlit 0 []) = false
    ∧ Instr.wellFormed (.timeFlit 0 [] 0) = false ∧ Instr.wellFormed (.retryReq 0 []) = false ∧ Instr.wellFormed (.idleFlit 0 []) = false := by decide +kernel
theorem test_packet_header : Instr.wellFormed (.ackPacket 0 ⟨[], [], [], []⟩ 0) = false ∧ Instr.wellFormed (.nak 0 ⟨[], [], [], []⟩ 0) = false
    ∧ Instr.wellFormed (.dataPacket 0 ⟨[], [], [], []⟩ 0 0) = false ∧ Instr.wellFormed (.timePacket 0 ⟨[], [], [], []⟩ 0) = false
    ∧ Instr.wellFormed (.controlPacket 0 ⟨[], [], [], []⟩ 0) = false := by decide +kernel
theorem test_psn_range : Instr.wellFormed (.retransmission 0 0 4294967296 0) = false := by decide +kernel
theorem test_block_alignment : Instr.wellFormed (.blockRead 1 0) = false := by decide +kernel
theorem test_record_empty : Instr.wellFormed (.recordWrite 0 [] 0 0) = false := by decide +kernel
theorem test_spares_range : Instr.wellFormed (.retrainDone 0 (.trained 3) 0) = false := by decide +kernel
theorem test_register_offset : Instr.wellFormed (.registerWrite 0 0x100000 4 0) = false ∧ Instr.wellFormed (.registerWrite 0 0 3 0) = false := by decide +kernel
theorem test_doorbell_length : Instr.wellFormed (.doorbellReadCompletion 0 ⟨.ok [], []⟩ 0) = false := by decide +kernel
theorem test_image_units : Instr.wellFormed (.planImageRead (.ok [0]) {}) = false ∧ Instr.wellFormed (.keyLoad 0 0 (.ok [])) = false := by decide +kernel
theorem test_boot_certs : Instr.wellFormed (.boot {}) = false := by decide +kernel

/-! ## The worked examples of the manual -/

/-- A module that has booted to READY and serves its window. -/
def ready : State := { State.reset with boot.stage := .ready }

/-- R477, the worked example: the guard is disarmed by the key (step 1). -/
def idle1 : State := { ready with setup.armed := false }

/-- R477, step 1: the key of R465 disarms the guard. -/
theorem test_unlock : (match exec (.setupUnlock 0 0x7A910E5D) { ready with setup.armed := true } with
    | .next t => t.setup.armed | _ => true) = false := by decide +kernel
/-- R477, step 2: MODULE_ID enters the pending view, and the guard is armed again. -/
theorem test_module_id : (match exec (.registerWrite 0 0xA0008 4 0xB) idle1 with
    | .next t => (t.pend.moduleId, t.active.moduleId, t.setup.armed) | _ => (0, 0, false)) = (0xB, 0, true) := by decide +kernel
/-- R477, step 3: with the guard armed the write is ignored and logged with reason 0x2. -/
theorem test_module_id_locked : (match exec (.registerWrite 0 0xA0008 4 0xC) { ready with setup.armed := true, pend.moduleId := 0xB } with
    | .next t => (t.pend.moduleId, t.setup.logOffset, t.setup.logReason, t.setup.logCount) | _ => (0, 0, 0, 0)) = (0xB, 0xA0008, 2, 1) := by decide +kernel
/-- R477, step 6: SETUP_APPLY makes the pending identifier active. -/
theorem test_apply : (match exec (.apply 0 1) { ready with pend.moduleId := 0xB } with
    | .next t => t.active.moduleId | _ => 0) = 0xB := by decide +kernel
/-- R187: C56 of BETA0 = 0.9 (15,099,494 × 2^−24) at t = 1 is 0x3DCC_CCD0. -/
theorem test_decay_term : decayTerm 0x3F666666 1 = 0x3DCCCCD0 := by decide +kernel
/-- R119: −6.0 × 10^−35 at anchor −20 gives q = −5, 3.0 × 10^−36 is lost, 2^45 overflows to 2^159 − 1, and +0 is no loss. -/
theorem test_conversion : convert160 (decodeNum binary32 0x869F81E2) 0 (-20) = (-5, false, false)
    ∧ convert160 (decodeNum binary32 0x047F3637) 0 (-20) = (0, false, true)
    ∧ convert160 (decodeNum binary32 0x56000000) 0 (-20) = (2 ^ 159 - 1, true, false)
    ∧ convert160 (decodeNum binary32 0) 0 (-20) = (0, false, false) := by decide +kernel
/-- R120: the entry of 1.5 at anchor 0. -/
theorem test_entry_bytes : AccEntry.encode { n := 3 * 2 ^ 95 } = List.replicate 11 0 ++ [0x80, 0x01] ++ List.replicate 11 0 := by decide +kernel
/-- R120: the entry of −1.5 at anchor 0. -/
theorem test_entry_bytes_negative : AccEntry.encode { n := -(3 * 2 ^ 95) } =
    List.replicate 11 0 ++ [0x80, 0xFE] ++ List.replicate 7 0xFF ++ List.replicate 4 0 := by decide +kernel

/-- R61: the 50 ms plan of the worked example with a reserve of a percentage. -/
def plan50 (reserve : Nat) : Plan where
  header := ⟨0, 0, 1, reserve, 100, 4000, 6000, 0, 0, 0, 0, 0, 0, 0⟩
  wc := [0, 3600000, 12000000, 24000000, 36000000, 6000000, 1500000, 6000000]
  budgets := []
  map := ⟨0, 0, 0, 1, false, 1, 0, [], []⟩
  layout := {}
  measure := 0
/-- R61, the worked example: 49,900 µs at 50,000 µs and 44,400 µs at 45,000 µs are admitted, 48,900 µs at 45,000 µs is not. -/
theorem test_admission : admitNeed (plan50 20) 50000 = 49900 ∧ admits (plan50 20) 50000 = true ∧ admitNeed (plan50 20) 45000 = 48900
    ∧ admits (plan50 20) 45000 = false ∧ admitNeed (plan50 10) 45000 = 44400 ∧ admits (plan50 10) 45000 = true := by decide +kernel

/-! ## Witnesses: for every statement with hypotheses, states and operands that meet them, clause by clause -/

/-- A plan whose job map names two modules of pen 0 with module 0 as the tick master. -/
def pairPlan : Plan := { plan50 20 with map := ⟨0, 0, 0, 2, false, 1, 0, [⟨0, 1, 0, []⟩, ⟨1, 0, 0, []⟩], []⟩ }
/-- Module 0, the tick master of a job of two modules that runs. -/
def master0 : State := { ready with plan := some pairPlan, seq.job := .running }
/-- Module 1 of the same job. -/
def child1 : State := { master0 with active.moduleId := 1 }
/-- A job of one module that runs, after its first step has begun. -/
def running : State := { ready with plan := some (plan50 20), seq.job := .running, seq.phases := { started := [1] } }
theorem witness_TickPeriodWrite : ready.takesWrite ∧ (1000 ≤ (1000 : Word).toNat % 2 ^ 24 ∧ (10000000 : Word).toNat % 2 ^ 24 ≤ 10000000)
    ∧ (999 : Word).toNat % 2 ^ 24 < 1000 ∧ 10000000 < (10000001 : Word).toNat % 2 ^ 24 := by unfold State.takesWrite; decide +kernel

theorem witness_BufferedRegisterWrites : idle1.takesWrite ∧ idle1.setup.armed = false ∧ (2 : Word).toNat % 4 ≠ 3 ∧ (3 : Word).toNat % 4 = 3
    ∧ ready.takesWrite ∧ ready.plan = none ∧ (1 : Word).toNat % 2 ^ 16 ≠ 0 ∧ (0x10000 : Word).toNat % 2 ^ 16 = 0
    ∧ ({ ready with plan := some (plan50 20) } : State).plan = some (plan50 20) ∧ ready.pend.aux0 = 0 ∧ ready.pend.aux1 = 0
    ∧ ((9 : Word).toNat % 4 ≠ 3 ∧ (9 : Word).toNat / 4 % 4 ≠ 3 ∧ ¬((9 : Word).toNat % 4 = 1 ∧ (9 : Word).toNat / 4 % 4 = 1))
    ∧ (let s : State := { ready with pend.aux0 := 1 }
       s.takesWrite ∧ s.pend.aux0 ≠ 0 ∧ s.pend.aux0.toNat ≠ (2 : Word).toNat % 4 ∧ (2 : Word).toNat % 4 ≠ 0 ∧ (2 : Word).toNat % 4 ≠ 3
        ∧ (2 : Word).toNat / 4 % 4 ≠ 3)
    ∧ (0 : Word) ≠ 0x7A910E5D ∧ (2 : Word).toNat % 4 = 2 ∧ (1 : Word).toNat % 4 = 1 ∧ ready.idle = true ∧ ready.pend.excl = ready.active.excl
    ∧ running.takesWrite ∧ running.idle = false := by unfold State.takesWrite; decide +kernel

theorem witness_QueueRegisterWrites :
    (ready.takesWrite ∧ (0x18 : Word).toNat % 16 ≤ 8 ∧ (0x18 : Word).toNat / 16 % 2 = 1 ∧ ready.pollUnits 0 + 2 ^ (8 - (0x10 : Word).toNat % 16) ≤ 1024)
    ∧ (let s : State := { ready with host.groups := (List.range 4).map (fun i => (i + 1, { poll := 0, enable := true })) }
       s.takesWrite ∧ s.win.groupSel.toNat = 0 ∧ 1024 < s.pollUnits 0 + 2 ^ (8 - (0x10 : Word).toNat % 16))
    ∧ (let s : State := { ready with host.groups := [(0, { enable := true })], host.ports := [(0, { link := .up })] }
       s.takesWrite ∧ (1 : Word).toNat % 4 = 1 ∧ s.armBad s.win.qSel.toNat = false)
    ∧ ready.armBad ready.win.qSel.toNat = true
    ∧ (let s : State := { ready with host.queues := [(0, { mode := .armed })] }
       s.takesWrite ∧ (2 : Word).toNat % 4 = 2 ∧ (s.queue s.win.qSel.toNat).mode = .armed)
    ∧ (let s : State := { ready with host.queues := [(8191, { mode := .disarming })] }
       s.takesWrite ∧ (s.queue 8191).mode = .disarming ∧ (s.queue 8191).descs = []) := by unfold State.takesWrite; decide +kernel

theorem witness_RefusedWindowWrites : ready.boot.stage = .ready ∧ (3 : Fin 4) ≠ 0 ∧ ready.events.once.contains (0x6005, 3) = false
    ∧ (let s : State := { ready with setup.op := 4 }
       s.boot.stage = .ready ∧ s.confidential = false ∧ s.setup.op ≠ 0)
    ∧ ready.takesWrite ∧ ready.setup.armed = true ∧ (1 : Word).toNat % 4 ≠ ready.pend.tickSource.toNat
    ∧ (0xFFFFC < 0x100000 ∧ 2 ≠ 4) ∧ (0xFFFFF < 0x100000 ∧ 0xFFFFF % 4 ≠ 0) ∧ ready.setup.op = 0
    ∧ (0x10FFC < 0x100000 ∧ 0x10FFC % 4 = 0 ∧ regAt 0x10FFC = none) ∧ idle1.takesWrite ∧ idle1.setup.armed = false := by
  unfold State.takesWrite; decide +kernel

theorem witness_LatchingReads : ready.boot.stage = .ready ∧ (3 : Fin 4) ≠ 0 ∧ (8 ≠ 4 ∨ (0 : Fin 4) ≠ 0) ∧ (4 ≠ 4 ∨ (3 : Fin 4) ≠ 0) := by decide +kernel

theorem witness_TickWithoutAJob : ready.active.tickSource ≠ 2 ∧ ready.idle = true ∧ ready.seq.startPending = false := by decide +kernel

/-- Module 0 idle with TICK_IN as its tick source. -/
def edges : State := { ready with active.tickSource := 2 }
theorem witness_TickInEdges : edges.active.tickSource = 2 ∧ ready.active.tickSource ≠ 2
    ∧ (let s : State := { edges with clk.edgeSeen := true, clk.lastEdge := 5000000 }
       s.active.tickSource = 2 ∧ s.clk.edgeSeen = true ∧ (5999999 : Long).toNat < s.clk.lastEdge.toNat + 1000000)
    ∧ edges.clk.edgeSeen = false ∧ edges.idle = true ∧ edges.seq.startPending = false := by decide +kernel

theorem witness_GoAndHoldTicks : running.active.tickSource ≠ 2 ∧ running.jobRuns = true ∧ running.seq.haltPending = false ∧ running.clk.tickLost = false
    ∧ running.seq.curSlips.toNat < running.pend.slipLimit.toNat
    ∧ ({ running with clk.decision := some { go := true } } : State).clk.decision = some { go := true }
    ∧ ({ running with clk.decision := some { go := false } } : State).clk.decision = some { go := false }
    ∧ running.clk.decision = none ∧ running.decidesAlone = true ∧ running.allDone = false
    ∧ (let s : State := { running with active.tickSource := 2, clk.edgeSeen := true, clk.lastEdge := 5000000 }
       s.active.tickSource = 2 ∧ s.clk.lastEdge.toNat + 1000000 ≤ (6000000 : Long).toNat ∧ s.jobRuns = true) := by decide +kernel

theorem witness_TicksThatHalt : running.jobRuns = true ∧ running.sweepRuns = false ∧ ({ running with seq.haltPending := true } : State).seq.haltPending = true
    ∧ ({ running with clk.tickLost := true } : State).clk.tickLost = true
    ∧ (let s : State := { running with seq.curSlips := 8 }
       s.seq.haltPending = false ∧ s.clk.tickLost = false ∧ s.pend.slipLimit.toNat ≤ s.seq.curSlips.toNat)
    ∧ (child1.active.tickSource ≠ 2 ∧ child1.jobRuns = true ∧ child1.sweepRuns = false ∧ child1.seq.haltPending = false ∧ child1.clk.tickLost = false
      ∧ child1.seq.curSlips.toNat < child1.pend.slipLimit.toNat ∧ child1.clk.decision = none ∧ child1.isMaster = false ∧ child1.multi = true) := by
  decide +kernel

theorem witness_JobStarts : (let s : State := { ready with seq.startPending := true }
    s.active.tickSource ≠ 2 ∧ s.idle = true ∧ s.seq.startPending = true ∧ s.multi = false)
    ∧ (let s : State := { edges with seq.startPending := true }
    s.active.tickSource = 2 ∧ s.clk.edgeSeen = false ∧ s.idle = true ∧ s.seq.startPending = true ∧ s.multi = false) := by decide +kernel

theorem witness_StepClock : ready.active.tickSource ≠ 2 ∧ ready.idle = true ∧ ready.seq.startPending = false
    ∧ ({ ready with pwr.clampActed := true } : State).pwr.clampActed = true ∧ 1600 < ({ ready with pwr.tjMax := 1601 } : State).pwr.tjMax.toInt
    ∧ ready.pwr.clampActed = false ∧ (124 : Byte).toNat < 125 ∧ 0 * 100 ≤ 95 * ready.active.powerLimit.toNat ∧ ready.pwr.tjMax.toInt ≤ 1552
    ∧ 1552 < ({ ready with pwr.tjMax := 1600 } : State).pwr.tjMax.toInt ∧ ({ ready with pwr.tjMax := 1600 } : State).pwr.tjMax.toInt ≤ 1600 := by
  decide +kernel

theorem witness_DecisionsAndReports :
    (master0.jobRuns = true ∧ master0.isMaster = true ∧ master0.active.tickSource ≠ 2 ∧ master0.clk.decision = none
      ∧ ¬(master0.seq.next.active = true ∧ master0.seq.next.ended = false))
    ∧ (let s : State := { child1 with seq.next.active := true }
       s.jobRuns = true ∧ s.isMaster = false ∧ s.seq.next.active = true ∧ s.seq.next.ended = false)
    ∧ (child1.jobRuns = true ∧ child1.isMaster = false ∧ child1.multi = true ∧ ({ go := true } : Decision).t0 = none)
    ∧ (let s : State := { child1 with seq.startPending := true, seq.joined := true }
       s.isMaster = false ∧ s.multi = true ∧ ({ go := true, t0 := some 7 } : Decision).t0 = some 7 ∧ s.seq.startPending = true ∧ s.seq.joined = true)
    ∧ child1.clk.holdover = false
    ∧ (let s : State := { child1 with clk.holdover := true }
       s.clk.holdover = true ∧ s.clk.tickLost = false)
    ∧ (master0.treeChildren.contains 1 = true ∧ (⟨1, 0, [], true⟩ : DoneReport).step = master0.seq.step
      ∧ master0.seq.doneFrom.any (fun x => x.module == (1 : BitVec 12)) = false)
    ∧ (let s : State := { master0 with fab.pen := [(2, { up := true, valid := true, peer := 1 })] }
       s.multi = true ∧ s.treeEdges.contains 1 = true ∧ 1 / 8 = s.me / 8 ∧ s.engineTo (1 % 8) = some 2 ∧ (s.pen 2).retraining = false) := by
  decide +kernel
/-- A plan of two micro-batches. -/
def plan2 : Plan := { plan50 20 with header := { (plan50 20).header with microBatches := 2, maxBatches := 4, maxSamples := 8, maxEvents := 8, maxIntakeBytes := 4096 } }
/-- A running job of two micro-batches in which some phases have started and ended. -/
def inPhases (started ended : List Nat) : State := { running with plan := some plan2, seq.phases := { started := started, ended := ended } }

theorem witness_Phases :
    ((inPhases [1] []).jobRuns = true ∧ (inPhases [1] []).inPhase 1 = true ∧ (inPhases [1] []).inPhase 2 = false ∧ (inPhases [1] []).listsArrived = true)
    ∧ (let s : State := { inPhases [3, 2, 1] [2, 1] with seq.phases.forwardStarted := 1 }
       s.jobRuns = true ∧ s.inPhase 2 = true ∧ s.seq.phases.forwardStarted = 1 ∧ 1 < s.microBatches ∧ (1 : Nat) ≠ 0
        ∧ 0 < s.seq.phases.forwardStarted ∧ s.seq.phases.backwardStarted = 0)
    ∧ (let s := inPhases [2, 1] [1]
       s.inPhase 2 = true ∧ s.seq.phases.forwardStarted = 0 ∧ 0 < s.microBatches ∧ s.gathered = true)
    ∧ (let s : State := { inPhases [4, 3, 2, 1] [3, 2, 1] with seq.phases.backwardStarted := 2 }
       s.jobRuns = true ∧ s.seq.phases.backwardStarted = s.microBatches ∧ s.seq.phases.layers.contains 0 = false ∧ s.inPhase 6 = false
        ∧ s.partialsArrived = true ∧ s.partialsFormed = true)
    ∧ (let s := inPhases [6, 4, 3, 2, 1] [4, 3, 2, 1]
       s.jobRuns = true ∧ s.inPhase 6 = true ∧ s.phaseOver 6 = false)
    ∧ (let s := inPhases [6, 4, 3, 2, 1] [6, 4, 3, 2, 1]
       s.sweepMay = true ∧ s.logShort = false)
    ∧ (let s : State := { inPhases [6, 4, 3, 2, 1] [6, 4, 3, 2, 1] with
         plan := some { plan2 with layout := { plan2.layout with exportLog := some (4096, 8192) } }, rel.exp.logging := true }
       s.sweepMay = true ∧ s.logShort = true ∧ s.rel.exp.waiting = false)
    ∧ (let s := inPhases [7, 6, 4, 3, 2, 1] [6, 4, 3, 2, 1]
       s.inPhase 7 = true ∧ s.phaseOver 7 = false ∧ s.jobRuns = true ∧ s.swept = true)
    ∧ (let s : State := { inPhases [8, 7] [7] with seq.tail := { claimed := [3], granted := [3], current := some 3 } }
       s.seq.tail.current = some 3 ∧ s.seq.tail.claimed = [3] ∧ s.seq.tail.granted = [3] ∧ s.seq.job = .running)
    ∧ (let r : DueRecord := { step := 0, body := [], watch := [] }
       let s : State := { running with seq.step := 1, seq.due := [r] }
       s.seq.due = r :: [] ∧ s.completionsOut r.step = true ∧ s.compared r = true ∧ s.rel.witnessReqs.any (fun q => q.2 == r.step) = false) := by
  decide +kernel

/-- Queue 8191 armed, with its group polled and its port up. -/
def host1 (x : Queue) : State := { ready with host.queues := [(8191, x)], host.groups := [(127, { enable := true })], host.ports := [(3, { link := .up })] }
/-- A doorbell block whose last entry holds an index and a lap. -/
def doorbell (ix : Nat) : Bytes := List.replicate 504 0 ++ leBytes 4 ix ++ leBytes 4 0
theorem witness_PollsAndDoorbells :
    ((host1 {}).group 127).enable = true ∧ ((host1 {}).group 127).outstanding = false ∧ (host1 {}).portOpen (127 / 32)
    ∧ (let s : State := { host1 {} with host.groups := [(127, { enable := true, outstanding := true })] }
       (s.group 127).outstanding = true)
    ∧ (let x : Queue := { mode := .armed, log2 := 6, fetching := true }
       let s : State := { host1 x with host.groups := [(127, { enable := true, outstanding := true })] }
       (s.group 127).outstanding = true ∧ s.queue (127 * 64 + 63) = x ∧ x.mode = .armed
       ∧ (∀ j : Nat, j < 64 → j ≠ 63 → (s.queue (127 * 64 + j)).mode ≠ .armed) ∧ x.cls = 0 ∧ x.fetching = true
       ∧ field (doorbell 63) (8 * 63) 4 < x.entries
       ∧ x.ahead (field (doorbell 63) (8 * 63 + 4) 4 * x.entries + field (doorbell 63) (8 * 63) 4) x.f ≤ x.entries
       ∧ x.ahead x.c x.f ≤ x.ahead (field (doorbell 63) (8 * 63 + 4) 4 * x.entries + field (doorbell 63) (8 * 63) 4) x.f
       ∧ x.entries ≤ field (doorbell 64) (8 * 63) 4)
    ∧ (let x : Queue := { mode := .armed, cls := 3, log2 := 6, p := 1 }
       x.cls = 3 ∧ field (doorbell 1) (8 * 63) 4 < x.entries
       ∧ x.ahead (field (doorbell 1) (8 * 63 + 4) 4 * x.entries + field (doorbell 1) (8 * 63) 4) x.k ≤ x.ahead x.p x.k) := by
  unfold State.portOpen; decide +kernel

/-- A NOP descriptor with a LAP. -/
def nopDesc (lap : Nat) : Bytes := [8, 0, 0, 0] ++ leBytes 4 lap ++ List.replicate 56 0
theorem witness_DescriptorReads :
    (let x : Queue := { mode := .armed, log2 := 6, fetching := true, d := 1 }
     let s := host1 x
     s.queue 8191 = x ∧ x.mode = .armed ∧ x.fetching = true ∧ x.next x.c = x.d ∧ dLap (slice (nopDesc 0) 0 64) = x.c / x.entries % 2 ^ 32
      ∧ dOp (slice (nopDesc 0) 0 64) ≠ 3 ∧ s.round1 (slice (nopDesc 0) 0 64) (queuePort 8191) x.cls = none
      ∧ x.rereads < 8 ∧ dLap (slice (nopDesc 1) 0 64) ≠ x.c / x.entries % 2 ^ 32 ∧ (∀ d ∈ x.descs, d.pos ≠ x.c))
    ∧ (let x : Queue := { mode := .armed, log2 := 6, fetching := true, d := 1, rereads := 8 }
       x.fetching = true ∧ 8 ≤ x.rereads ∧ x.cls ≠ 3)
    ∧ (let x : Queue := { mode := .armed, log2 := 6, stale := true }
       x.stale = true ∧ (host1 x).portOpen (queuePort 8191)) := by unfold State.portOpen; decide +kernel

/-- A batch of one sample with an empty dense block, and its TRAIN_BATCH descriptor. -/
def batch1 : Bytes := leBytes 4 0x48544259 ++ leBytes 2 1 ++ leBytes 2 1 ++ leBytes 4 1 ++ leBytes 4 0 ++ leBytes 8 80 ++ List.replicate 40 0
  ++ [1, 0, 0, 0] ++ leBytes 4 0 ++ leBytes 8 80
/-- The descriptor of a batch. -/
def batchDesc (op : Nat) : Bytes := leBytes 1 op ++ List.replicate 23 0 ++ leBytes 8 80 ++ leBytes 4 1 ++ List.replicate 28 0
theorem witness_BufferReads : (let d : Desc := { pos := 0, bytes := batchDesc 1, stage := .taken }
    let s := host1 { mode := .armed, descs := [d] }
    (s.queue 8191).awaiting = some d ∧ (s.queue 8191).mute = false ∧ dOp d.bytes ≠ 3
      ∧ s.round2Batch d.bytes (slice batch1 0 (dBufLen d.bytes)) = none) := by decide +kernel

/-- Queue 0 armed with one descriptor that is ready, in a running job whose intake is open. -/
def withDesc (d : Desc) : State :=
  { running with plan := some plan2, seq.next.active := true, host.queues := [(0, { mode := .armed, descs := [d] })], host.ports := [(0, { link := .up })] }
/-- A descriptor of so many bytes behind its opcode, ready. -/
def readyOp (op : Nat) (rest : Bytes) : Desc := { pos := 0, bytes := padTo 64 (leBytes 1 op ++ rest), stage := .ready }
theorem witness_QueueOperations :
    (let d : Desc := { readyOp 1 [] with bytes := batchDesc 1 }
     let s := withDesc d
     s.readyDesc 0 1 = some d ∧ s.plan = some plan2 ∧ s.seq.next.active = true ∧ s.seq.next.closed = false ∧ s.emb.next.done = false
      ∧ s.filling = false ∧ overMaxima plan2.header d.bytes = [] ∧ fitsStep plan2.header s.seq.next d.bytes = true)
    ∧ ({ withDesc { readyOp 1 [] with bytes := batchDesc 1 } with seq.next.closed := true } : State).seq.next.closed = true
    ∧ (let d : Desc := { readyOp 2 [] with bytes := batchDesc 2 }
       (withDesc d).readyDesc 0 2 = some d ∧ (withDesc d).plan.isSome = true ∧ (withDesc d).seq.next.active = true)
    ∧ (let d := readyOp 6 []
       (withDesc d).readyDesc 0 6 = some d ∧ dFlag d.bytes = false)
    ∧ (let d := readyOp 6 (List.replicate 15 0 ++ [1, 0, 1])
       let s : State := { withDesc d with host.queues := [(0, { mode := .armed, descs := [d] }), (1, { mode := .armed })] }
       s.readyDesc 0 6 = some d ∧ dFlag d.bytes = true ∧ dTable d.bytes ≠ 0 ∧ (s.queue (dTable d.bytes)).mode = .armed
        ∧ (withDesc d).readyDesc 0 6 = some d ∧ ((withDesc d).queue (dTable d.bytes)).mode ≠ .armed)
    ∧ (let d : Desc := { readyOp 6 [] with stage := .waiting }
       ((withDesc d).queue 0).descs.find? (fun e => e.pos == ((withDesc d).queue 0).f && e.stage == .waiting && dOp e.bytes == 6) = some d
        ∧ dFlag d.bytes = false)
    ∧ (let d : Desc := { readyOp 6 (List.replicate 15 0 ++ [1, 0, 1]) with stage := .waiting }
       let s : State := { withDesc d with host.queues := [(0, { mode := .armed, descs := [d] }), (1, { mode := .armed })] }
       (s.queue (dTable d.bytes)).mode = .armed ∧ (s.queue (dTable d.bytes)).reached (dWaitPos d.bytes) = true)
    ∧ (withDesc (readyOp 8 [])).readyDesc 0 8 = some (readyOp 8 []) ∧ (withDesc (readyOp 7 [])).readyDesc 0 7 = some (readyOp 7 []) := by
  decide +kernel

theorem witness_QueueRecords :
    (let d : Desc := { readyOp 8 [] with stage := .finished }
     let s := withDesc d
     let x := s.queue 0
     x.mute = false ∧ x.irqEn = false ∧ s.portOpen (queuePort 0) ∧ x.descs.find? (fun e => e.pos == x.f) = some d ∧ d.stage = .finished ∧ d.hasData = false)
    ∧ (let x : Queue := { holding := true }
       x.holding = true ∧ x.more = false)
    ∧ (let x : Queue := { mode := .armed, holding := true, more := true }
       let s : State := { host1 x with host.ports := [(3, { link := .up, msix := [(0, { masked := false })] })] }
       x.holding = true ∧ x.more = true ∧ s.portOpen (queuePort 8191) ∧ (NMap.getD (s.port (queuePort 8191)).msix x.vector.toNat {}).masked = false)
    ∧ (let x : Queue := { mode := .armed, cls := 2, log2 := 6 }
       let s : State := { host1 x with host.tel.accepted := [⟨1, []⟩] }
       s.telemetryQueue = some 8191 ∧ s.host.tel.accepted = ⟨1, []⟩ :: [] ∧ s.host.tel.held = [] ∧ x.free = true ∧ x.irqEn = false
        ∧ s.portOpen (queuePort 8191)) := by unfold State.portOpen; decide +kernel

theorem witness_HostPorts : ((host1 {}).port 3).link = .up ∧ (ready.port 3).link = .down ∧ (host1 {}).enabledVectors 3 = []
    ∧ (let s : State := { host1 { mode := .armed } with host.ports := [(3, { link := .retraining })] }
       (s.port 3).link = .retraining ∧ (s.queue 8191).mode = .armed ∧ s.rel.exp.mode = .off)
    ∧ 6 ≤ (6 : BitVec 4).toNat ∧ 16 ≤ (16 : BitVec 5).toNat ∧ (5 : BitVec 4).toNat < 6 ∧ (15 : BitVec 5).toNat < 16 := by decide +kernel
/-- The descriptor block of table 5: one row of 16 elements in one range of module 0, with its default row. -/
def block5 (version : Nat) : Bytes := leBytes 2 5 ++ leBytes 2 1 ++ leBytes 4 version ++ leBytes 5 1 ++ List.replicate 3 0 ++ leBytes 2 16 ++ [0, 0]
  ++ leBytes 2 1 ++ leBytes 2 0 ++ leBytes 4 1024 ++ List.replicate 36 0 ++ (leBytes 5 0 ++ leBytes 5 1 ++ leBytes 2 0 ++ leBytes 4 0)
  ++ List.replicate 432 0 ++ (List.replicate 10 0 ++ leBytes 2 5 ++ List.replicate 500 0)
/-- Table 5 at a version. -/
def table5 (version : Nat) : TableVer := parseBlock (block5 version)
/-- The descriptor of a TABLE_LOAD of table 5. -/
def loadDesc (kind version rows len : Nat) (data : Bytes) : Desc :=
  { pos := 0, stage := .ready, data := data
    bytes := leBytes 1 3 ++ List.replicate 15 0 ++ leBytes 2 5 ++ leBytes 2 kind ++ leBytes 4 version ++ leBytes 8 0 ++ leBytes 8 rows ++ leBytes 8 0
      ++ leBytes 8 len ++ List.replicate 8 0 }
/-- An idle module with one descriptor and some tables. -/
def withTables (d : Desc) (ts : List TableVer) : State :=
  { ready with plan := some pairPlan, host.queues := [(0, { mode := .armed, cls := 1, descs := [d] })], emb.tables := ts }
theorem witness_TableLoads :
    (let d := loadDesc 0 1 0 1024 []
     (withTables d []).readyDesc 0 3 = some d ∧ dKind d.bytes = 0 ∧ (withTables d []).blockFail d.bytes d.data = some 0x3001)
    ∧ (let d := loadDesc 0 1 0 1024 (block5 1)
       let s := withTables d []
       s.readyDesc 0 3 = some d ∧ dKind d.bytes = 0 ∧ s.blockFail d.bytes d.data = none ∧ s.idle = true
        ∧ s.currentTable (parseBlock d.data).id = none ∧ s.tableVersion (parseBlock d.data).id (parseBlock d.data).version = none)
    ∧ (let d := loadDesc 0 1 0 1024 (block5 1)
       let s : State := { withTables d [] with seq.job := .running }
       s.readyDesc 0 3 = some d ∧ s.blockFail d.bytes d.data = none ∧ s.idle = false ∧ s.currentTable (parseBlock d.data).id = none)
    ∧ (let d := loadDesc 0 2 0 1024 (block5 2)
       let c : TableVer := { table5 1 with current := true }
       let s := withTables d [c]
       s.readyDesc 0 3 = some d ∧ dKind d.bytes = 0 ∧ s.blockFail d.bytes d.data = none ∧ s.currentTable (parseBlock d.data).id = some c
        ∧ c.version ≠ (parseBlock d.data).version ∧ c.sameShape (parseBlock d.data) = true ∧ s.stagedTable (parseBlock d.data).id = none)
    ∧ (let t : TableVer := { table5 1 with current := true, bases := [(0, 0)] }
       let d := loadDesc 1 1 1 32 (List.replicate 32 0)
       let s : State := { withTables d [t] with plan := some { pairPlan with layout := { pairPlan.layout with ranges := [⟨5, 0, 0, 512, 0⟩] } } }
       s.readyDesc 0 3 = some d ∧ dKind d.bytes = 1 ∧ s.rowLoadFail d.bytes = none ∧ s.tableVersion (dTable d.bytes) (dVersion d.bytes) = some t
        ∧ s.badExtent d.bytes = false ∧ s.loadTarget t.id t.version = .current ∧ recordsBad t d.data = false ∧ d.status = 0
        ∧ (State.loadWrites (s.loadRecords t d.bytes d.data) [] s 0).2.2 = true)
    ∧ (let t : TableVer := { table5 1 with current := true, bases := [(0, 0)] }
       let d := loadDesc 2 1 1 64 (List.replicate 64 0)
       let s : State := { withTables d [t] with plan := some { pairPlan with layout := { pairPlan.layout with ranges := [⟨5, 0, 0, 512, 0⟩] } } }
       s.readyDesc 0 3 = some d ∧ dKind d.bytes = 2 ∧ s.rowLoadFail d.bytes = none ∧ s.tableVersion (dTable d.bytes) (dVersion d.bytes) = some t
        ∧ s.badExtent d.bytes = false ∧ s.loadTarget t.id t.version = .current
        ∧ (State.loadWrites (s.loadRecords t d.bytes d.data) [] (s.countLoad t d.data) 0).2.2 = true) := by decide +kernel

/-- A TABLE_SWAP of table 5, or its discard. -/
def swapDesc (flags version : Nat) : Desc :=
  { pos := 0, stage := .ready, bytes := padTo 64 (leBytes 1 4 ++ List.replicate 15 0 ++ leBytes 2 5 ++ leBytes 2 flags ++ leBytes 4 version) }
/-- Version 2 of table 5 staged and filled. -/
def staged5 : TableVer := { table5 2 with ranges := [], staged := true, filled := true }
theorem witness_StagingAndSwaps :
    (let d : Desc := { loadDesc 0 2 0 1024 (block5 2) with stage := .waiting }
     let t : TableVer := { table5 2 with staged := true }
     let s := withTables d [{ table5 1 with current := true }, t]
     (s.queue 0).stagingLoad = some d ∧ s.stagedTable (dTable d.bytes) = some t ∧ s.setup.op = 0 ∧ t.filled = false ∧ t.filling = false
      ∧ (placeRanges t (s.ownedRanges t) [(0, 512)]).isSome = true ∧ placeRanges t (s.ownedRanges t) [(0, 511)] = none)
    ∧ ({ ready with setup.op := 3 } : State).setup.op = 3
    ∧ (let d := swapDesc 0 2
       let s := withTables d [{ table5 1 with current := true }, staged5]
       s.readyDesc 0 4 = some d ∧ dFlag d.bytes = false ∧ s.tableVersion (dTable d.bytes) (dVersion d.bytes) = some staged5
        ∧ staged5.staged = true ∧ staged5.filled = true ∧ s.tableComplete staged5 = true ∧ s.idle = true
        ∧ ({ s with seq.job := .running } : State).idle = false
        ∧ s.emb.swaps.any (fun w => w.table == dTable d.bytes && w.version == dVersion d.bytes) = false
        ∧ ((s.currentTable (dTable d.bytes)).map (·.dropped)).getD 0 = 0)
    ∧ (let d := swapDesc 0 2
       let s := withTables d [{ table5 1 with current := true, dropped := 1 }, staged5]
       ((s.currentTable (dTable d.bytes)).map (·.dropped)).getD 0 ≠ 0)
    ∧ (let d := swapDesc 0 2
       (withTables d []).readyDesc 0 4 = some d ∧ dFlag d.bytes = false ∧ (withTables d []).tableVersion (dTable d.bytes) (dVersion d.bytes) = none)
    ∧ (let d := swapDesc 1 2
       let s := withTables d [staged5]
       s.readyDesc 0 4 = some d ∧ dFlag d.bytes = true ∧ s.stagedTable (dTable d.bytes) = some staged5 ∧ staged5.version = dVersion d.bytes
        ∧ staged5.announced = false ∧ staged5.filled = true ∧ s.emb.swaps = [] ∧ (withTables d []).stagedTable (dTable d.bytes) = none) := by
  decide +kernel

theorem witness_Lookups :
    (let s : State := { running with seq.next.ended := true }
     s.inEvaluation = false ∧ s.seq.next.ended = true ∧ s.emb.next.done = false
      ∧ (separateLookups (s.boundTable s.nextStep) (batchLookups s.nextBatches)).invalid = [])
    ∧ (running.seq.next.ended = false ∧ running.emb.now.aggregated = false ∧ running.listsArrived = true ∧ (0 : BitVec 12).toNat = running.me)
    ∧ (let s : State := { running with plan := some { pairPlan with map := { pairPlan.map with modules := [⟨0, 8, 0, []⟩, ⟨8, 0, 0, []⟩] } } }
       (8 : BitVec 12).toNat ≠ s.me ∧ s.proxyFor.contains 8 = true ∧ s.proxyReady 8 = true ∧ s.emb.now.agg.any (fun a => a.1 == 8) = false)
    ∧ (let t : TableVer := { table5 1 with current := true }
       let e : RowRef := ⟨5, 0, 1, 0⟩
       let s : State := { running with emb.tables := [t], emb.now.unique := [e], emb.now.rowBytes := [(rowKey 5 0, List.replicate 32 0)] }
       s.emb.now.unique = [e] ∧ e.owner = s.me ∧ s.currentTable e.table = some t ∧ NMap.find? s.emb.now.values (rowKey e.table e.row) = none
        ∧ NMap.find? s.emb.now.rowBytes (rowKey e.table e.row) = some (List.replicate 32 0))
    ∧ ready.cacheKeeps 5 0 = false ∧ ready.fillTurn 0 5 0 = false
    ∧ (let t : TableVer := { table5 1 with current := true, bases := [(0, 0)] }
       let s : State := { running with
         plan := some { plan50 20 with layout := { (plan50 20).layout with ranges := [⟨5, 0, 0, 512, 0⟩], regions := [⟨0, .rowCache, 0, 1⟩] } }
         emb.tables := [t], emb.next.unique := [⟨5, 0, 1, 0⟩], mem.zeroed := some (0, 0) }
       s.currentTable 5 = some t ∧ t.rangeOf 0 = some (0, ⟨0, 1, 0⟩) ∧ (0 : Nat) = s.me ∧ s.homeTile 5 0 = some 0 ∧ s.cacheKeeps 5 0 = true
        ∧ s.fillTurn 0 5 0 = true ∧ s.mem.rowCache = [] ∧ t.segs * t.rs ≤ s.cacheBytes 0 ∧ (s.readSegments t 0).2.2 = []) := by decide +kernel

/-- The module of the witnesses is in a sound state. -/
theorem ready_sound : ready.Sound :=
  ⟨by unfold State.memoryCanonical; decide +kernel, by unfold State.eventsBounded; decide +kernel,
    by unfold State.viewsInRange Buffered.inRange; decide +kernel, by unfold State.debugClosed; decide +kernel⟩

/-- An EXPORT_ARM of queue 1, or its end. -/
def armDesc (flags : Nat) : Desc := readyOp 5 (List.replicate 15 0 ++ leBytes 2 1 ++ leBytes 2 flags)
/-- Queue 0 with one descriptor and queue 1 an armed EXPORT queue, with room for an export log. -/
def exporting (d : Desc) (job : JobState) : State :=
  { ready with plan := some { pairPlan with layout := { pairPlan.layout with exportLog := some (4096, 8192) } }, seq.job := job,
               host.queues := [(0, { mode := .armed, descs := [d] }), (1, { mode := .armed, cls := 3, log2 := 6 })],
               host.ports := [(0, { link := .up })] }
theorem witness_ExportStream :
    (let d := armDesc 0
     let s := exporting d .running
     s.readyDesc 0 5 = some d ∧ dFlag d.bytes = false ∧ (s.queue (dTable d.bytes)).cls = 3 ∧ (s.queue (dTable d.bytes)).mode = .armed
      ∧ s.streamArmed = false ∧ s.exportLog.isNone = false ∧ s.jobRuns = true ∧ (exporting d .idle).jobRuns = false
      ∧ ({ s with rel.exp.mode := .base } : State).streamArmed = true ∧ ((withDesc d).queue (dTable d.bytes)).mode ≠ .armed)
    ∧ (let d := armDesc 1
       let s := exporting d .running
       s.readyDesc 0 5 = some d ∧ dFlag d.bytes = true ∧ s.streamArmed = false ∧ ({ s with rel.exp.mode := .delta } : State).streamArmed = true
        ∧ s.rel.exp.armPending = false ∧ s.rel.exp.stopAfter = none ∧ s.sweepAhead = true)
    ∧ (let s : State := { exporting (armDesc 0) .idle with rel.exp.mode := .delta, rel.exp.queue := 1, rel.exp.openSteps := [5] }
       s.drains = true ∧ (s.queue 1).mode = .armed ∧ (s.queue 1).free = true ∧ (s.queue 1).irqEn = false ∧ (s.port (queuePort 1)).link = .up
        ∧ (s.port (queuePort 1)).orphaned = false ∧ s.rel.exp.openSteps = 5 :: [] ∧ s.rel.exp.stopAfter = none
        ∧ fitItems 4032 ((s.rel.exp.log.filter (fun e => e.1 == (5 : BitVec 48))).map (·.2))
          = (s.rel.exp.log.filter (fun e => e.1 == (5 : BitVec 48))).map (·.2)) := by decide +kernel

/-- A matrix word from its six 32-bit words. -/
def matrixWord (a b c d e f : Nat) : Bytes := leBytes 4 a ++ leBytes 4 b ++ leBytes 4 c ++ leBytes 4 d ++ leBytes 4 e ++ leBytes 4 f
theorem witness_MatrixSlots :
    (let w := matrixWord 0x3040E000 0x33 0 32 0 128
     mmaInRange w = true ∧ mInit w = true)
    ∧ (let w := matrixWord 0x3040C000 0x33 0 32 0 128
       let s : State := { ready with acc := [(0, { anchor := 64 })] }
       mmaInRange w = true ∧ mInit w = false ∧ (s.slot stage0 (mSlot w)).anchor = mAnchor w ∧ (ready.slot stage0 (mSlot w)).anchor ≠ mAnchor w) := by
  decide +kernel

/-- A state whose slot 0 of matrix stage 0 holds one entry of another anchor than its tile. -/
def skewedSlot : State := { ready with acc := [(0, { entries := [(8191, { anchor := 7 })] })] }
/-- Every entry of a fresh slot has the anchor that a tile store no one has written spells. -/
theorem fresh_anchors (k : Nat) : ((ready.slot stage0 0).entry k).anchor = (AccEntry.decode (ready.tileRead 0 (24 * k) 24)).anchor := by
  have blank : ∀ n a, Memory.readBytes ready.mem.tiles a n = List.replicate n 0 := by
    intro n
    induction n with
    | zero => intro a; rfl
    | succ n ih => intro a; exact congrArg (0 :: ·) (ih (a + 1))
  have h := blank 24 (tileAddr 0 (24 * k))
  show (0 : BitVec 10) = (AccEntry.decode (Memory.readBytes ready.mem.tiles (tileAddr 0 (24 * k)) 24)).anchor
  rw [h]
  decide +kernel
theorem witness_StoreAndJoin : ready.Sound ∧ tileRange (mAddr (matrixWord 0 0 0 0 0 0)) 197120 = true ∧ tileRange (mAddr (matrixWord 0 0 0 0 0x3FFFFF 0)) 16 = true
    ∧ (let w := matrixWord 0 0 0 0 0 0
       ((skewedSlot.slot stage0 (mSlot w)).entry 8191).anchor ≠ (AccEntry.decode (skewedSlot.tileRead 0 (mAddr w + 24 * 8191) 24)).anchor
        ∧ stage0.tile.val = 0 ∧ mSlot w = 0)
    ∧ ∀ k, k < 8192 → ((ready.slot stage0 0).entry k).anchor = (AccEntry.decode (ready.tileRead 0 (24 * k) 24)).anchor :=
  ⟨ready_sound, by decide +kernel, by decide +kernel, by decide +kernel, fun k _ => fresh_anchors k⟩

theorem witness_ReadSlot : ready.Sound ∧ tileRange (mAddr (matrixWord 0 3 0 0 0 0)) (8192 * ((readFmt (matrixWord 0 3 0 0 0 0)).width / 8)) = true
    ∧ ((ready.slot stage0 0).ovf = false ∧ (ready.slot stage0 0).chunks.toNat ≥ 1024 * (ready.slot stage0 0).loss.toNat)
    ∧ (let s : State := { ready with acc := [(0, { ovf := true })] }
       (s.slot stage0 0).ovf = true ∧ s.events.once.contains (0x2201, stageIx stage0 * 32 + 0) = false)
    ∧ (let s : State := { ready with acc := [(0, { loss := 1, chunks := 1023 })] }
       (s.slot stage0 0).ovf = false ∧ (s.slot stage0 0).chunks.toNat < 1024 * (s.slot stage0 0).loss.toNat
        ∧ s.events.once.contains (0x2202, stageIx stage0 * 32 + 0) = false) :=
  ⟨ready_sound, by decide +kernel⟩

theorem witness_StoredForms (k : Nat) (_ : k < 8192) : (({ anchor := 5 } : Slot).entry k).anchor = ({ anchor := 5 } : Slot).anchor := rfl

theorem witness_SplitGuarantee : ([] : List (List (Chunk × Int))).Perm [] ∧ (∀ p ∈ ([] : List (List (Chunk × Int))),
    (p.foldl (fun x c => (x.addChunk c.1 c.2).1) ({ anchor := 5 } : AccEntry)).ovf = false) := ⟨List.Perm.refl _, by decide +kernel⟩

theorem witness_VectorStage : ready.Sound
    ∧ (let v : VecInstr := { op := .add, src := 2, dst := 2, n := 128, a := 0, b := 512, d := 1024 }
       vecProvided v = true ∧ vecInRange v = true ∧ v.op ≠ .convert ∧ v.src = 2)
    ∧ (let v : VecInstr := { op := .fma, src := 1, dst := 1, n := 4, a := 0, b := 4, c := 8, d := 12 }
       vecProvided v = true ∧ vecInRange v = true ∧ v.op ≠ .convert ∧ v.src = 1)
    ∧ (let v : VecInstr := { op := .convert, src := 2, dst := 3, n := 32, a := 0, d := 1024 }
       vecProvided v = true ∧ vecInRange v = true ∧ Fmt.ofCode v.src = some binary32 ∧ Fmt.ofCode v.dst = some yf16 ∧ v.src ≠ 1 ∧ v.dst ≠ 1)
    ∧ (let v : VecInstr := { op := .convert, src := 1, dst := 2, n := 32, a := 0, d := 1024 }
       vecProvided v = true ∧ vecInRange v = true)
    ∧ (let v : VecInstr := { op := .convert, src := 2, dst := 1, n := 32, a := 0, d := 64 }
       vecProvided v = true ∧ vecInRange v = true)
    ∧ (let v : VecInstr := { op := .convert, src := 2, dst := 7, n := 32, a := 0, d := 1024 }
       vecProvided v = true ∧ vecInRange v = true ∧ (ready.loadValues line0 v.src v.a v.aux v.stream v.elemBase v.n).skew = false ∧ 7 ≤ v.dst)
    ∧ (let v : VecInstr := { op := .convert, src := 2, dst := 6, n := 32, a := 0, d := 1024, aux := 2048 }
       vecProvided v = true ∧ vecInRange v = true ∧ (ready.loadValues line0 v.src v.a v.aux v.stream v.elemBase v.n).skew = false ∧ v.dst = 6
        ∧ v.lastBlocks = false
        ∧ v.d + (writeValues v.dst 0 v.aux (ready.vecScale v) v.ovfInf (ready.loadValues line0 v.src v.a v.aux v.stream v.elemBase v.n).values
            (ready.vecRounding v)).bytes.length ≤ v.aux)
    ∧ (vecProvided { op := .fn .exp, src := 1, dst := 1, n := 1, a := 0, d := 0 } = false)
    ∧ (rowInRange ⟨.max, false, 0, 0, 1, 0, 0, 0⟩ = true ∧ rowInRange ⟨.dot, false, 0, 0, 32, 0, 128, 256⟩ = true) :=
  ⟨ready_sound, by decide +kernel⟩

/-- A row of 16 dimensions over one sub-block of 4 keys. -/
def attend1 : AttendInstr :=
  { row := 1, set := 1, sample := 0, event := 0, q := 0, dh := 16, smScale := 0x3F80, anchor := 0, subs := [{ len := 4, keys := 1024, values := 2048 }]
    out := 4096, kept := 5120, dout := 6144, dq := 7168, dk := 8192, dv := 12288 }
theorem witness_AttentionRows : ready.Sound ∧ attendInRange attend1 false = true ∧ attendInRange attend1 true = true
    ∧ (attend1.kept + 8 ≤ attend1.out ∨ attend1.out + 4 * attend1.dh ≤ attend1.kept)
    ∧ (let x := { attend1 with subs := [{ block := some 0, len := 4, keys := 1024, values := 2048 }] }
       attendInRange x true = true ∧ ∀ b ∈ x.subs, b.block.isSome = true) := ⟨ready_sound, by decide +kernel⟩

/-- A step in which a unit has already been counted. -/
def counted (ph : List Nat) : State := { inPhases ph [] with rel.ledger := [(5, { countedIn := some 0 })], seq.step := 0 }
theorem witness_CheckFaults :
    ((counted [2, 1]).jobRuns = true ∧ (counted [2, 1]).inEvaluation = false ∧ 1 ≤ (counted [2, 1]).phase ∧ (counted [2, 1]).phase ≤ 6
      ∧ (counted [2, 1]).seq.replay.running = false ∧ (counted [2, 1]).seq.replay.count = 0
      ∧ (counted [2, 1]).replayNeed (counted [2, 1]).phase ≤ (counted [2, 1]).reserveLeft
      ∧ ((counted [2, 1]).unit 5).countedIn = some (counted [2, 1]).seq.step)
    ∧ (let s : State := { counted [6, 1] with seq.replay.count := 1 }
       s.jobRuns = true ∧ s.inEvaluation = false ∧ 1 ≤ s.phase ∧ s.phase ≤ 6 ∧ 0 < s.seq.replay.count ∧ s.seq.replay.suspect = false)
    ∧ ((counted [7, 1]).inEvaluation = false ∧ 7 ≤ (counted [7, 1]).phase ∧ (counted [7, 1]).jobRuns = true
      ∧ ((counted [7, 1]).unit 5).countedIn = some (counted [7, 1]).seq.step)
    ∧ (let s : State := { counted [8, 7, 1] with seq.tail.current := some 2 }
       s.inEvaluation = true ∧ s.seq.evalFaults = 0 ∧ ({ s with seq.evalFaults := 1 } : State).inEvaluation = true
        ∧ 0 < ({ s with seq.evalFaults := 1 } : State).seq.evalFaults) := by decide +kernel

/-- A sound state stays one when only what soundness does not read changes. -/
theorem sound_of_running : running.Sound := ⟨ready_sound.memory, ready_sound.events, ready_sound.views, ready_sound.debug⟩

/-- A set of histories: 8 users of 2 blocks of one layer of 32 elements. -/
def set1 : Bytes := leBytes 2 1 ++ [0, 1, 1, 0] ++ leBytes 2 32 ++ leBytes 4 8 ++ leBytes 2 2 ++ leBytes 2 64 ++ List.replicate 16 0
/-- A running module of a pen of two with that set; user 0 has 20 events. -/
def histories : State :=
  { running with plan := some { pairPlan with layout := { pairPlan.layout with history := [set1] } }, hist.lengths := [(1, 0, 20)], mem.zeroed := some (0, 0) }
theorem histories_sound : histories.Sound := ⟨ready_sound.memory, ready_sound.events, ready_sound.views, ready_sound.debug⟩

/-- The pair of module 0 and module 8, in two pens, with two replicas of the dense model. -/
def herdPlan : Plan := { pairPlan with map := ⟨0, 0, 0, 1, true, 2, 0, [⟨0, 8, 0, [List.replicate 16 1]⟩, ⟨8, 0, 1, [List.replicate 16 2]⟩], []⟩ }
/-- A replica of a dense model at a module. -/
def replicaOf (m : BitVec 12) : State := { running with plan := some herdPlan, active.moduleId := m }
theorem replica_sound (m : BitVec 12) : (replicaOf m).Sound := ⟨ready_sound.memory, ready_sound.events,
  ready_sound.views, ready_sound.debug⟩
/-- A message of one unit that has arrived whole. -/
def oneUnit (src : Nat) (k : MsgKind) (ident : Nat) (data : Bytes) : Msg :=
  { src := src, num := msgNumber k.code ident, units := [(0, (data, 0, 0))], total := some 1, visible := true }

theorem witness_MessagesSent :
    (let s : State := { running with plan := some pairPlan, fab.pen := [(3, { up := true, valid := true, peer := 1 })] }
     (8 : BitVec 12).toNat / 8 ≠ s.me / 8 ∧ s.planesTo 8 = [] ∧ (1 : BitVec 12).toNat / 8 = s.me / 8 ∧ s.engineTo 1 = some 3
      ∧ (s.pen 3).retraining = false ∧ (s.pen 3).waiting = [] ∧ s.confidential = false ∧ 2 ≠ MsgKind.decision.code ∧ 2 ≠ MsgKind.timeTransfer.code)
    ∧ ready.phase = 0
    ∧ (let s : State := { running with plan := some pairPlan }
       s.phase ≠ 0 ∧ s.modules.filter (fun o => s.firstHop o != s.me) = [1] ∧ s.fab.sendLog = [])
    ∧ (histories.phase ≠ 0 ∧ histories.histSets = [set1] ∧ histories.penPeers = [1] ∧ histories.fab.sendLog = [])
    ∧ (let s : State := { running with plan := some pairPlan, seq.phases.started := [2, 1], fab.msgs := [oneUnit 1 .sendList 0 (leBytes 8 0)] }
       s.inEvaluation = false ∧ 2 ∈ s.seq.phases.started ∧ s.proxyFor = [] ∧ s.listsFor s.me = [(1, [])] ∧ s.fab.sendLog = [])
    ∧ (let m := oneUnit 1 .partials 8 [0]
       let s : State := { running with plan := some { pairPlan with map := { pairPlan.map with modules := [⟨0, 8, 0, []⟩, ⟨8, 0, 0, []⟩, ⟨1, 0, 0, []⟩] } }, fab.msgs := [m] }
       s.proxyFor = [8] ∧ (s.inbox .partials).filter (fun x => x.src / 8 == s.me / 8 && x.num % 65536 == 8) = [m] ∧ s.fab.sendLog = [] ∧ m.data ≠ [])
    ∧ (let s : State := { histories with seq.phases.started := [5, 4, 3, 2, 1] }
       5 ∈ s.seq.phases.started ∧ s.histSets ≠ [] ∧ s.penPeers = [1] ∧ s.fab.sendLog = []) := by decide +kernel

/-- Module 8 with a reduced tile that has arrived from module 0. -/
def gathering (d : Bytes) : State := { replicaOf 8 with fab.msgs := [oneUnit 0 .allGather 0 d] }
/-- The one message that has arrived is the one received. -/
theorem received_one (s : State) (src ident : Nat) (k : MsgKind) (d : Bytes) (h : s.fab.msgs = [oneUnit src k ident d]) :
    s.received k src ident = some (oneUnit src k ident d) := by simp [State.received, h, oneUnit]
theorem gathering_next (d : Bytes) : (gathering d).nextFrom ((gathering d).replicaModule 0) .allGather = some (oneUnit 0 .allGather 0 d) := by
  have h : (gathering d).replicaModule 0 = 0 := by
    show (replicaOf 8).replicaModule 0 = 0
    decide +kernel
  rw [h]
  exact received_one (gathering d) 0 0 .allGather d rfl
theorem oneUnit_data (src : Nat) (k : MsgKind) (ident : Nat) (d : Bytes) : (oneUnit src k ident d).data = d := List.append_nil d

theorem witness_DenseReduction : (replicaOf 0).Sound ∧ tileRange 0 197120 = true
    ∧ ({ replicaOf 0 with emb.denseGrad := [(0, 0)] } : State).hasTile 0 0 = true
    ∧ ((replicaOf 0).hasTile 0 0 = false ∧ (replicaOf 0).replicaModule (0 % (replicaOf 0).replicas) = (replicaOf 0).me
      ∧ ∃ r ∈ (replicaOf 0).otherReplicas, (replicaOf 0).nextFrom ((replicaOf 0).replicaModule r) .reduce = none)
    ∧ (let s : State := { running with plan := some pairPlan }
       s.Sound ∧ s.hasTile 0 0 = false ∧ s.replicaModule (0 % s.replicas) = s.me ∧ s.otherReplicas = [] ∧ s.replica < s.replicas)
    ∧ ((replicaOf 8).Sound ∧ (replicaOf 8).hasTile 0 0 = false ∧ (replicaOf 8).replicaModule (0 % (replicaOf 8).replicas) ≠ (replicaOf 8).me
      ∧ (replicaOf 8).fab.reducing.contains (0, 0) = false ∧ (replicaOf 8).fab.sendLog = []
      ∧ (replicaOf 8).nextFrom ((replicaOf 8).replicaModule 0) .allGather = none)
    ∧ (∀ d, (gathering d).Sound ∧ (gathering d).nextFrom ((gathering d).replicaModule 0) .allGather = some (oneUnit 0 .allGather 0 d)
      ∧ (oneUnit 0 .allGather 0 d).data = d)
    ∧ (tileRange 0 32768 = true ∧ (gathering []).replicaModule (0 % (gathering []).replicas) ≠ (gathering []).me
      ∧ (List.replicate 32768 (0 : Byte)).length = 32768)
    ∧ ((replicaOf 0).otherReplicas = [1] ∧ NMap.getD (replicaOf 0).fab.sentNo (countKey ((replicaOf 0).replicaModule 1) .allGather) 0 = 0
      ∧ (replicaOf 0).fab.sendLog = []) := by
  refine ⟨replica_sound 0, by decide +kernel, by decide +kernel, by decide +kernel, ?_, ⟨replica_sound 8, by decide +kernel⟩, ?_, ?_, by decide +kernel⟩
  · exact ⟨⟨ready_sound.memory, ready_sound.events, ready_sound.views, ready_sound.debug⟩, by decide +kernel⟩
  · exact fun d => ⟨⟨ready_sound.memory, ready_sound.events, (replica_sound 8).views, ready_sound.debug⟩, gathering_next d, oneUnit_data _ _ _ d⟩
  · exact ⟨by decide +kernel, by decide +kernel, List.length_replicate⟩

theorem witness_ShardCopies : ready.Sound
    ∧ (let c : ShardCopy := { fmt := 3, fromHbm := false, srcTile := 0, src := 0, srcScale := 0, dstTile := 31, dst := 1024, n := 512 }
       c.fromHbm = false ∧ tileRange c.dst (2 * c.n) = true ∧ c.toModule = none ∧ c.fromModule = none ∧ c.src + 2 * c.n ≤ tileBytes)
    ∧ (let c : ShardCopy := { fmt := 5, fromHbm := false, srcTile := 0, src := 0, srcScale := 0, dstTile := 31, dst := 1024, n := 512 }
       tileRange c.dst (2 * c.n) = true ∧ (c.fmt = 4 ∨ c.fmt = 5) ∧ c.src + c.n ≤ tileBytes)
    ∧ (let c : ShardCopy := { fmt := 6, fromHbm := false, srcTile := 0, src := 0, srcScale := 512, dstTile := 31, dst := 1024, n := 512 }
       let s : State := { ready with mem.tileTags := [(0, 0x10000000), (1, 0x20000000)] }
       s.Sound ∧ tileRange c.dst (2 * c.n) = true ∧ c.src + c.n ≤ tileBytes ∧ c.srcScale + c.n / 32 ≤ tileBytes ∧ c.n ≤ 512
        ∧ s.tileTag c.srcTile.val c.src = (ys8Tags c.stream c.firstBlock).1 ∧ s.tileTag c.srcTile.val c.srcScale = (ys8Tags c.stream c.firstBlock).2
        ∧ c.src % 512 = 0 ∧ c.srcScale % 512 = 0 ∧ poisonedScales (s.tileRead c.srcTile.val c.srcScale 16) (ceilDiv c.n 32) = 0)
    ∧ (let c : ShardCopy := { fmt := 3, fromHbm := false, srcTile := 0, src := 0, srcScale := 0, dstTile := 31, dst := 1024, n := 1, fromModule := some 1 }
       let m := oneUnit 1 .activation 0 [0, 0]
       let s : State := { running with fab.msgs := [m] }
       c.fromModule = some 1 ∧ s.nextFrom (1 : BitVec 12).toNat .activation = some m ∧ running.nextFrom (1 : BitVec 12).toNat .activation = none) :=
  ⟨ready_sound, by decide +kernel, by decide +kernel,
    ⟨⟨by unfold State.memoryCanonical; decide +kernel, ready_sound.events, ready_sound.views, ready_sound.debug⟩, by decide +kernel⟩, by decide +kernel⟩

theorem witness_HistoryPasses : histories.Sound ∧ histories.histSet 1 = some set1 ∧ tileRange 0 (2048 * hWidth set1) = true
    ∧ histories.windowPositions set1 1 0 = 0
    ∧ (let s : State := { histories with hist.ringSent := [(1, [1, 0, 1, 0, 0])] }
       s.windowPositions set1 0 0 ≠ 0 ∧ holderOf s.penSize 0 0 = s.penPos ∧ (1 : Fin 8).val ≠ 0 ∧ s.ringNext 1 [0, field set1 0 2, 0, 0] = none)
    ∧ (histories.windowPositions set1 0 0 ≠ 0 ∧ holderOf histories.penSize 0 0 = histories.penPos
      ∧ histories.ringNext 1 [0, field set1 0 2, 0, 0] = some [0, 0, 1, 0, 0] ∧ (histories.ringRead set1 0 0 0).1.fab = histories.fab
      ∧ (histories.ringRead set1 0 0 0).2 ≠ [] ∧ (histories.ringRead set1 0 0 0).1.active = histories.active ∧ histories.fab.sendLog = [])
    ∧ (let s : State := { histories with active.moduleId := 1, hist.lengths := [(1, 0, 20)], fab.msgs := [{ oneUnit 0 .ring 0 [] with
         units := (List.range 8).map (fun i => (i, (List.replicate 512 0, 0, partTag set1 2 0 0 0 (i / 2 % 2) (i % 2)))) }] }
       s.windowPositions set1 0 0 ≠ 0 ∧ holderOf s.penSize 0 0 ≠ s.penPos ∧ (holderOf s.penSize 0 0 + (1 : Fin 8).val) % s.penSize = s.penPos
        ∧ (s.nextFrom (s.me / 8 * 8 + holderOf s.penSize 0 0) .ring).isSome = true
        ∧ (holderOf s.penSize 0 0 + (0 : Fin 8).val) % s.penSize ≠ s.penPos ∧ ringBlocks set1 (s.windowPositions set1 0 0) 0 = 2) :=
  ⟨histories_sound, by decide +kernel⟩
/-- Module 0 of a pen of two, whose engine 0 is up and leads to module 1. -/
def penOpen : State := { running with plan := some pairPlan, fab.pen := [(0, { up := true, valid := true, peer := 1 })] }
/-- The same with its data sealed. -/
def penSealed (fails : Nat) : State := { penOpen with sec.mode := 2, fab.pen := [(0, { up := true, valid := true, peer := 1, tagFails := fails })] }

/-! ### Check words and flits -/

/-- A step of the CRC register stays in 32 bits. -/
theorem crcBit_lt (c : Nat) (h : c < 2 ^ 32) : crcBit c < 2 ^ 32 := by
  unfold crcBit
  split
  · exact Nat.xor_lt_two_pow (by omega) (by decide)
  · omega
theorem crcByte_lt (c : Nat) (b : Byte) (h : c < 2 ^ 32) : crcByte c b < 2 ^ 32 := by
  have hb : c ^^^ b.toNat < 2 ^ 32 := Nat.xor_lt_two_pow h (by omega)
  unfold crcByte
  exact crcBit_lt _ (crcBit_lt _ (crcBit_lt _ (crcBit_lt _ (crcBit_lt _ (crcBit_lt _ (crcBit_lt _ (crcBit_lt _ hb)))))))
theorem crc_fold_lt (bs : Bytes) (c : Nat) (h : c < 2 ^ 32) : bs.foldl crcByte c < 2 ^ 32 := by
  induction bs generalizing c with
  | nil => exact h
  | cons b r ih => exact ih _ (crcByte_lt c b h)
theorem crc32c_lt (bs : Bytes) : crc32c bs < 2 ^ 32 := Nat.xor_lt_two_pow (crc_fold_lt bs _ (by decide)) (by decide)

/-- The CRC register over four runs of 128 zero bytes. -/
theorem crc_run1 : (List.replicate 128 (0 : Byte)).foldl crcByte 0xFFFFFFFF = 4158167844 := by decide +kernel
theorem crc_run2 : (List.replicate 128 (0 : Byte)).foldl crcByte 4158167844 = 1200442991 := by decide +kernel
theorem crc_run3 : (List.replicate 128 (0 : Byte)).foldl crcByte 1200442991 = 1158271177 := by decide +kernel
theorem crc_run4 : (List.replicate 128 (0 : Byte)).foldl crcByte 1158271177 = 3473084991 := by decide +kernel
/-- A run of zero bytes is taken in parts. -/
theorem crc_zeros_add (n m c : Nat) : (List.replicate (n + m) (0 : Byte)).foldl crcByte c
    = (List.replicate m 0).foldl crcByte ((List.replicate n 0).foldl crcByte c) := by
  rw [← List.replicate_append_replicate, List.foldl_append]
/-- Two runs after each other. -/
theorem crc_zeros_run {n m c d e : Nat} (h : (List.replicate n (0 : Byte)).foldl crcByte c = d) (g : (List.replicate m (0 : Byte)).foldl crcByte d = e) :
    (List.replicate (n + m) (0 : Byte)).foldl crcByte c = e := by rw [crc_zeros_add, h, g]
theorem crc_zeros : (List.replicate (128 + (128 + (128 + 128))) (0 : Byte)).foldl crcByte 0xFFFFFFFF = 3473084991 :=
  crc_zeros_run crc_run1 (crc_zeros_run crc_run2 (crc_zeros_run crc_run3 crc_run4))
theorem crc_zeros_512 : (List.replicate 512 (0 : Byte)).foldl crcByte 0xFFFFFFFF = 3473084991 := crc_zeros
/-- The check word of a unit from the register after it. -/
theorem checkWord_run {u : Bytes} {r : Nat} (tag : Word) (h : u.foldl crcByte 0xFFFFFFFF = r) :
    checkWord u tag = BitVec.ofNat 32 (((leBytes 4 tag.toNat).foldl crcByte r) ^^^ 0xFFFFFFFF) := by
  unfold checkWord crc32c; rw [List.foldl_append, h]
/-- The check word of a unit of zeros whose tag word is 0. -/
theorem checkWord_zeros : checkWord (List.replicate 512 0) 0 = 3092126875 := (checkWord_run 0 crc_zeros_512).trans (by decide +kernel)

/-- A flit as it is built passes its check. -/
theorem flitGood_flitBytes (kind flags seq ack credit : Nat) (body : Bytes) (h : body.length ≤ 520) :
    flitGood (flitBytes kind flags seq ack credit body) = true := by
  have hb : (leBytes 1 kind ++ leBytes 1 flags ++ leBytes 2 seq ++ leBytes 2 ack ++ leBytes 2 credit ++ padTo 520 body).length = 528 := by
    simp only [List.length_append, leBytes_length, padTo_length]; omega
  unfold flitGood flitBytes
  generalize leBytes 1 kind ++ leBytes 1 flags ++ leBytes 2 seq ++ leBytes 2 ack ++ leBytes 2 credit ++ padTo 520 body = b at hb
  have hl : (b ++ leBytes 4 (crc32c b)).length = 532 := by rw [List.length_append, hb, leBytes_length]
  have hf : field (b ++ leBytes 4 (crc32c b) ++ leBytes 4 0) 528 4 = crc32c b := by
    rw [field_left _ _ _ _ (by omega), field_right _ _ _ _ (by omega), hb, field_leBytes, Nat.mod_eq_of_lt]
    exact crc32c_lt b
  have ht : (b ++ leBytes 4 (crc32c b) ++ leBytes 4 0).take 528 = b := by
    rw [List.append_assoc, List.take_append_of_le_length (by omega), ← hb, List.take_length]
  simp only [hf, ht, List.length_append, leBytes_length, hb, BEq.rfl, Bool.and_true]
/-- The body of a flit as it is built. -/
theorem flitBody_flitBytes (kind flags seq ack credit : Nat) (body : Bytes) (h : body.length = 520) :
    flitBody (flitBytes kind flags seq ack credit body) = body := by
  unfold flitBody flitBytes
  have hp : padTo 520 body = body := by unfold padTo; rw [h]; simp
  have hh : (leBytes 1 kind ++ leBytes 1 flags ++ leBytes 2 seq ++ leBytes 2 ack ++ leBytes 2 credit).length = 8 := by
    simp only [List.length_append, leBytes_length]
  simp only [hp]
  generalize leBytes 1 kind ++ leBytes 1 flags ++ leBytes 2 seq ++ leBytes 2 ack ++ leBytes 2 credit = a at hh
  rw [slice_append_left _ _ _ _ (by simp only [List.length_append, leBytes_length]; omega),
    slice_append_left _ _ _ _ (by simp only [List.length_append]; omega), slice_append_right _ _ _ _ (by omega), hh, slice_all _ _ h]

/-- The body of a flit that carries a unit of zeros with a check word. -/
def unitBody (w : Word) : Bytes := List.replicate 512 0 ++ leBytes 4 w.toNat ++ leBytes 4 0
theorem unitBody_length (w : Word) : (unitBody w).length = 520 := by simp only [unitBody, List.length_append, List.length_replicate, leBytes_length]
/-- The check word of such a unit is the one that stands with it. -/
theorem unitBody_check (w : Word) : checkWord ((unitBody w).take 512) (BitVec.ofNat 32 (field (unitBody w) 516 4)) = 3092126875
    ∧ BitVec.ofNat 32 (field (unitBody w) 512 4) = w := by
  have ht : (unitBody w).take 512 = List.replicate 512 0 := by
    unfold unitBody; rw [List.append_assoc, List.take_append_of_le_length (by rw [List.length_replicate])]; rw [List.take_of_length_le (by rw [List.length_replicate])]
  have h0 : field (unitBody w) 516 4 = 0 := by
    unfold unitBody; rw [field_right _ _ _ _ (by simp only [List.length_append, List.length_replicate, leBytes_length]; decide)]; simp only [List.length_append, List.length_replicate, leBytes_length]
    decide
  have hw : field (unitBody w) 512 4 = w.toNat % 256 ^ 4 := by
    unfold unitBody; rw [field_left _ _ _ _ (by simp only [List.length_append, List.length_replicate, leBytes_length]; decide), field_right _ _ _ _ (by simp only [List.length_replicate]; decide)]
    simp only [List.length_replicate, Nat.sub_self, field_leBytes]
  rw [ht, h0, hw]
  exact ⟨checkWord_zeros, by apply BitVec.eq_of_toNat_eq; simp; omega⟩

theorem witness_PenFlits :
    ((ready.pen 0).up = false ∧ penOpen.linkOpen 0 ∧ flitGood [] = false ∧ (penOpen.pen 0).discarding = false)
    ∧ (let s : State := { penOpen with fab.pen := [(0, { up := true, discarding := true })] }
       s.linkOpen 0 ∧ field (flitBytes 1 0 1 0 0 []) 0 1 = 1 ∧ field (flitBytes 1 0 1 0 0 []) 2 2 ≠ (s.pen 0).expect.toNat ∧ (s.pen 0).discarding = true)
    ∧ (∀ w, field (flitBytes 1 1 0 0 0 (unitBody w)) 0 1 = 1 ∧ field (flitBytes 1 1 0 0 0 (unitBody w)) 2 2 = (penOpen.pen 0).expect.toNat)
    ∧ (penOpen.confidential = false ∧ penOpen.inEvaluation = false ∧ penOpen.fab.asked.contains
        (penOpen.engineModule 0, penOpen.penMessage (penOpen.engineModule 0) (penOpen.pen 0).msgsGot, (penOpen.pen 0).unitsGot) = false)
    ∧ (let f := flitBytes 2 0 0 0 0 []
       field f 0 1 = 2 ∧ field f 2 2 = (penOpen.pen 0).expect.toNat ∧ bit 0 (field f 1 1) = false)
    ∧ (let f := flitBytes 2 1 0 0 0 [2, 0]
       field f 0 1 = 2 ∧ bit 0 (field f 1 1) = true ∧ field ((penOpen.pen 0).ctl ++ (flitBody f).take 512) 0 2 ≠ MsgKind.resent.code
        ∧ field ((penOpen.pen 0).ctl ++ (flitBody f).take 512) 0 2 ≠ MsgKind.timeTransfer.code)
    ∧ ((penSealed 0).linkOpen 0 ∧ (penSealed 0).confidential = true ∧ ((penSealed 0).pen 0).tagFails < 3 ∧ 3 ≤ ((penSealed 3).pen 0).tagFails)
    ∧ (field (flitBytes 0 0 0 0 5 []) 0 1 = 0 ∧ field (flitBytes 4 0 0 0xFFFF 0 [0, 0]) 0 1 = 4)
    ∧ (∀ kind flags seq ack credit body, body.length ≤ 520 → flitGood (flitBytes kind flags seq ack credit body) = true)
    ∧ (∀ w : Word, (flitBody (flitBytes 1 1 0 0 0 (unitBody w))) = unitBody w)
    ∧ (checkWord ((unitBody 3092126875).take 512) (BitVec.ofNat 32 (field (unitBody 3092126875) 516 4)) = BitVec.ofNat 32 (field (unitBody 3092126875) 512 4))
    ∧ (checkWord ((unitBody 0).take 512) (BitVec.ofNat 32 (field (unitBody 0) 516 4)) ≠ BitVec.ofNat 32 (field (unitBody 0) 512 4)) := by
  refine ⟨by unfold State.linkOpen; decide +kernel, by unfold State.linkOpen; decide +kernel, fun w => ⟨by rfl, by rfl⟩, by decide +kernel,
    by decide +kernel, by decide +kernel, by unfold State.linkOpen; decide +kernel, by decide +kernel, flitGood_flitBytes,
    fun w => flitBody_flitBytes _ _ _ _ _ _ (unitBody_length w), ?_, ?_⟩
  · rw [(unitBody_check _).1, (unitBody_check _).2]
  · rw [(unitBody_check _).1, (unitBody_check _).2]; decide

/-- A CONTROL flit that ends a group, with a tag. -/
def groupEnd (tag : Nat) : Bytes := flitBytes 2 0 0 0 0 (leBytes 16 tag)
/-- Whatever the tags are, one of two flits ends the group with a wrong one. -/
theorem witness_PenFlits_tag (fails : Nat) : ∃ f, flitGood f = true ∧ field f 0 1 = 2 ∧ field f 2 2 = ((penSealed fails).pen 0).expect.toNat
    ∧ bit 1 (field f 1 1) = false ∧ gcmOpen (penSealed fails).penKey (penNonce ((penSealed fails).engineModule 0) (penSealed fails).me
      ((penSealed fails).pen 0).groupsGot) [] (((penSealed fails).pen 0).group.map flitBody).flatten (slice f 8 16) = none := by
  have h0 : BitVec.ofNat 128 (leNat (slice (groupEnd 0) 8 16)) = 0 := by decide +kernel
  have h1 : BitVec.ofNat 128 (leNat (slice (groupEnd 1) 8 16)) = 1 := by decide +kernel
  have ne : (1 : BitVec 128) ≠ 0 := by decide
  by_cases h : Config.gcmTag (penSealed fails).penKey (penNonce ((penSealed fails).engineModule 0) (penSealed fails).me
      ((penSealed fails).pen 0).groupsGot) [] (Config.gcmEncrypt (penSealed fails).penKey (penNonce ((penSealed fails).engineModule 0)
      (penSealed fails).me ((penSealed fails).pen 0).groupsGot) (((penSealed fails).pen 0).group.map flitBody).flatten) = 0
  · refine ⟨groupEnd 1, flitGood_flitBytes _ _ _ _ _ _ (by decide), by decide +kernel, ?_, by decide +kernel, ?_⟩
    · exact (show field (groupEnd 1) 2 2 = 0 by decide +kernel)
    · unfold gcmOpen; simp only [h1, h, if_neg ne]
  · refine ⟨groupEnd 0, flitGood_flitBytes _ _ _ _ _ _ (by decide), by decide +kernel, ?_, by decide +kernel, ?_⟩
    · exact (show field (groupEnd 0) 2 2 = 0 by decide +kernel)
    · unfold gcmOpen; simp only [h0, if_neg (fun e => h (Eq.symm e))]

/-- A TIME flit that carries a message whole. -/
def timeFlitOf (kind : Nat) (body : Bytes) : Bytes := flitBytes 3 1 0 0 0 (leBytes 2 kind ++ leBytes 2 body.length ++ body)
theorem witness_PenLinkChanges :
    ((penOpen.pen 0).up = true ∧ (ready.pen 0).up = false ∧ (penOpen.pen 0).retraining = false)
    ∧ (let s : State := { running with fab.pen := [(7, { up := true, retraining := true, attempts := 1 })] }
       (s.pen 7).retraining = true ∧ (s.pen 7).attempts < 2 ∧ s.jobRuns = true ∧ (s.pen 7).waiting = [])
    ∧ (let s : State := { running with fab.pen := [(7, { up := true, retraining := true, attempts := 2 })] }
       (s.pen 7).retraining = true ∧ 2 ≤ (s.pen 7).attempts ∧ s.jobRuns = true)
    ∧ (let s : State := { child1 with fab.pen := [(0, { up := true, valid := true, peer := 0 })] }
       let f := timeFlitOf MsgKind.timeTransfer.code (leBytes 8 5 ++ leBytes 8 4 ++ leBytes 8 3)
       s.linkOpen 0 ∧ field f 0 1 = 3 ∧ bit 0 (field f 1 1) = true ∧ (s.pen 0).timeCtl = []
        ∧ field ((flitBody f).take 512) 0 2 = MsgKind.timeTransfer.code ∧ treeParent s.tickMaster s.me = some (s.engineModule 0)
        ∧ BitVec.ofNat 64 (field (slice ((flitBody f).take 512) 4 (field ((flitBody f).take 512) 2 2)) 16 8) ≠ (0 : Long))
    ∧ (let f := timeFlitOf MsgKind.decision.code []
       field f 0 1 = 3 ∧ bit 0 (field f 1 1) = true ∧ field ((flitBody f).take 512) 0 2 = MsgKind.decision.code)
    ∧ (LinkEnd.branch 4 1).attached = false ∧ (LinkEnd.mesh 31 .north).attached = true ∧ (LinkEnd.branch 4 0).attached = true
    ∧ (ready.unit (linkCode (.mesh 31 .north))).stepCount ≠ 1024
    ∧ (let s : State := { ready with rel.ledger := [((linkCode (.mesh 31 .north)).toNat, { stepCount := 1024 })] }
       (s.unit (linkCode (.mesh 31 .north))).stepCount = 1024 ∧ (s.unit (linkCode (.mesh 31 .north))).countedIn = none)
    ∧ (ready.boot.stage = .ready ∧ ready.setup.op = 0 ∧ ready.idle = true ∧ bit 0 (1 : Word).toNat = true ∧ bit 0 (2 : Word).toNat = false ∧ running.idle = false)
    ∧ ready.fab.training = false
    ∧ (let s : State := { ready with plan := some pairPlan, fab.training := true }
       s.fab.training = true ∧ s.unavailable (unitEngine 7) = false ∧ s.miscabled (8 : BitVec 12).toNat 1 = true
        ∧ s.miscabled (1 : BitVec 12).toNat (BitVec.ofNat 64 (s.identDigest + 1)) = false ∧ s.engineTo ((1 : BitVec 12).toNat % 8) = none
        ∧ ({ s with boot.penPeers := [(0, 1)] } : State).spareNow 7 1 = true)
    ∧ (let s : State := { penOpen with fab.training := true }
       s.fab.training = true ∧ s.unavailable (unitEngine 7) = false ∧ s.miscabled (1 : BitVec 12).toNat (BitVec.ofNat 64 (s.identDigest + 1)) = false
        ∧ s.engineTo ((1 : BitVec 12).toNat % 8) = some 0 ∧ 0 ≠ (7 : Fin 8).val) := by unfold State.linkOpen; decide +kernel

/-- A module of the herd whose plane 0 is locked. -/
def onPlane (m : BitVec 12) : State := { replicaOf m with active.herdEn := true, fab.herd := [(0, { pcsLock := true })] }
/-- A packet of module 8 for module 0 on plane 0, with its PSN. -/
def packetOf (kind flags psn : Nat) (payload : Bytes) : HerdPacket :=
  let s := onPlane 8
  let h := s.packetHeader kind flags 0 0 payload.length psn 0 0 0 0 0
  { header := h, payload := payload, outer := s.outerHeader 0 0 0 kind (h ++ payload) }
/-- The payload of a packet that carries a control message whole. -/
def messageOf (kind : Nat) (body : Bytes) : Bytes := leBytes 2 kind ++ leBytes 2 body.length ++ body
theorem witness_HerdPackets :
    ready.herdOn 0 = false
    ∧ (let p : HerdPacket := ⟨[], [], [], List.replicate 12 0 ++ [0x88, 0xCC] ++ List.replicate 52 0⟩
       (onPlane 0).herdOn 0 = true ∧ (onPlane 0).frameFault 0 (packetBytes p) = some .lldp ∧ FrameFault.lldp.counted = false)
    ∧ (let p := packetOf 0 0 0 (unitBody 3092126875)
       (onPlane 0).frameFault 0 (packetBytes p) = none ∧ (onPlane 0).headerGood 0 1 p.header = false)
    ∧ (let p := packetOf 0 0 0 (unitBody 3092126875)
       (onPlane 0).packetOpen 0 0 p ∧ field p.header 6 2 = 520 * 1 ∧ slice p.payload 0 520 = unitBody 3092126875)
    ∧ (let p := packetOf 0 0 0 [0]
       let s : State := { onPlane 0 with active.herd := [(0, { pfcTx := true })] }
       s.herdOn 0 = true ∧ s.frameFault 0 (packetBytes p) = none ∧ dataLenGood p.header = false ∧ (s.herdPort 0).xoff = false
        ∧ (NMap.getD s.active.herd (0 : Fin 8) {}).pfcTx = true)
    ∧ (∀ kind ∈ [3, 4], (onPlane 0).packetOpen 0 kind (packetOf kind 2 0 (messageOf 2 [])) ∧ field (packetOf kind 2 0 (messageOf 2 [])).payload 0 2 ≠ MsgKind.resent.code
        ∧ field (packetOf kind 2 0 (messageOf 2 [])).payload 0 2 ≠ MsgKind.timeTransfer.code ∧ bit 1 (field (packetOf kind 2 0 (messageOf 2 [])).header 1 1) = true
        ∧ field (packetOf kind 2 0 (messageOf 2 [])).header 20 4 = 0 ∧ (onPlane 0).fab.msgs = [])
    ∧ (let p := packetOf 3 2 0 (messageOf MsgKind.timeTransfer.code (List.replicate 24 0))
       (onPlane 0).packetOpen 0 3 p ∧ field p.payload 0 2 = MsgKind.timeTransfer.code)
    ∧ (let p := packetOf 4 2 1 (messageOf 2 [])
       let s : State := { onPlane 0 with fab.conns := [(64, { below := 0, got := [1] })] }
       s.frameFault 0 (packetBytes p) = none ∧ s.headerGood 0 4 p.header = true ∧ s.mayConnect (packetSource p.header) 0 = true
        ∧ bit 0 (field p.header 1 1) = false ∧ field p.header 6 2 = p.payload.length
        ∧ (s.conn (packetSource p.header) 0).got.contains (recoverSeq (s.conn (packetSource p.header) 0).below (field p.header 8 4)) = true) := by
  unfold State.packetOpen; decide +kernel

/-- The packet that module 0 has sent to module 8 on plane 0, not acknowledged yet. -/
def sent0 (retries : Nat) : SentPacket := { seq := 0, header := List.replicate 32 0, payload := [], sentAt := 0, path := 3, retries := retries }
/-- Module 0 on plane 0 with a connection to module 8. -/
def onConn (c : Conn) : State := { onPlane 0 with fab.conns := [(64, c)] }
theorem witness_HerdAcknowledgement :
    (let p := packetOf 1 4 0 []
     let s := onConn { nextSeq := 1, sent := [sent0 0] }
     s.herdOn 0 = true ∧ s.frameFault 0 (packetBytes p) = none ∧ s.headerGood 0 1 p.header = true ∧ bit 2 (field p.header 1 1) = true
      ∧ field p.header 30 2 = 0 ∧ (s.conn (packetSource p.header) 0).waiting = []
      ∧ recoverSeq (s.conn (packetSource p.header) 0).acked (field p.header 12 4) ≤ (s.conn (packetSource p.header) 0).nextSeq)
    ∧ (let h := (onPlane 8).packetHeader 1 4 0 0 0 0 0 0 0 0 3
       let p : HerdPacket := { header := h, payload := [], outer := (onPlane 8).outerHeader 0 0 0 1 h }
       let s := onConn { nextSeq := 1, sent := [sent0 0] }
       s.frameFault 0 (packetBytes p) = none ∧ s.headerGood 0 1 p.header = true ∧ bit 2 (field p.header 1 1) = true
        ∧ field p.header 30 2 ≠ 0 ∧ (s.conn (packetSource p.header) 0).lowered = none ∧ s.events.once.contains (0x5204, 0) = false)
    ∧ (let p := packetOf 2 0 0 []
       let s := onConn { nextSeq := 1, sent := [sent0 0] }
       s.frameFault 0 (packetBytes p) = none ∧ s.headerGood 0 2 p.header = true ∧ bit 2 (field p.header 1 1) = false
        ∧ (s.conn (packetSource p.header) 0).sent.find? (fun x => x.seq % 2 ^ 32 == field p.header 8 4) = some (sent0 0)
        ∧ s.classPaused 0 (field (sent0 0).header 0 1 / 16) = false)
    ∧ (let s := onConn { nextSeq := 1, sent := [sent0 15], lossAt := [] }
       (s.conn (8 : BitVec 12).toNat 0).sent.find? (fun x => x.seq % 2 ^ 32 == 0 % 2 ^ 32) = some (sent0 15)
        ∧ (63999 : Long).toNat < (sent0 15).sentAt.toNat + 64000 ∧ (sent0 15).sentAt.toNat + 64000 ≤ (64000 : Long).toNat
        ∧ s.classPaused 0 0 = false ∧ NMap.find? (s.conn 8 0).lossAt (sent0 15).path = none
        ∧ ({ s with fab.herd := [(0, { pcsLock := true, paused := [(3, 1)] })] } : State).classPaused 0 0 = true)
    ∧ (let ts := List.replicate 7 (64000 : Long)
       let s := onConn { nextSeq := 1, sent := [sent0 14], lossAt := [(3, ts)] }
       NMap.find? (s.conn 8 0).lossAt (sent0 14).path = some ts ∧ ts.length = 7 ∧ ts.all (fun t => t == 64000) = true ∧ (64000 : Long).toNat < (64000 : Long).toNat + 1000000
        ∧ (s.conn 8 0).removed.contains (sent0 14).path = false ∧ (sent0 14).retries ≠ 15)
    ∧ (((onConn {}).conn 8 0).sent = [] ∧ ((onConn { sent := [sent0 0] }).conn 8 0).sent ≠ [] ∧ ((onConn {}).conn 8 0).ackDue = false
      ∧ ((onConn { ackDue := true }).conn 8 0).ackDue = true ∧ ((onConn { ackDue := true }).conn 8 0).waiting = [] ∧ ((onConn {}).conn 8 0).got = []
      ∧ ((onConn { ackDue := true }).conn 8 0).stopped = false ∧ (onConn {}).classPaused 0 1 = false
      ∧ ({ onConn {} with fab.herd := [(0, { pcsLock := true, paused := [(5, 1)] })] } : State).classPaused 0 1 = true)
    ∧ (((onConn { got := [1] }).conn 8 0).got = [1] ∧ 1 = ((onConn { got := [1] }).conn 8 0).below + 1 ∧ (onConn {}).classPaused 0 2 = false) := by
  decide +kernel

theorem witness_HerdFlowAndJoining :
    (1048575 < 1048576 ∧ (({ ready with fab.herd := [(7, { xoff := true })] } : State).herdPort 7).xoff = true ∧ (ready.herdPort 7).xoff = false)
    ∧ (NMap.getD ({ ready with active.herd := [(7, { pfcRx := false })] } : State).active.herd 7 {}).pfcRx = false
    ∧ ((NMap.getD ready.active.herd 7 {}).pfcRx = true ∧ (0xFFFF : Half) ≠ 0 ∧ NMap.find? (ready.herdPort 7).paused 7 = none
      ∧ NMap.find? (({ ready with fab.herd := [(7, { paused := [(7, 1)] })] } : State).herdPort 7).paused 7 ≠ none)
    ∧ ((onPlane 0).frameFault 0 (packetBytes (packetOf 1 4 0 [])) = none
      ∧ ready.frameFault 0 (List.replicate 12 0 ++ [0x88, 0xCC]) = some .lldp
      ∧ ready.frameFault 0 (List.replicate 12 0 ++ [0x81, 0, 0, 0, 0x86, 0xDD] ++ List.replicate 40 0) = some .extension
      ∧ ready.frameFault 0 (List.replicate 12 0 ++ [0x81, 0, 0, 0, 0x08, 0]) = some .ipv4)
    ∧ (4352 < (List.replicate 4349 (0 : Byte)).length + 4 ∧ (List.replicate 4348 (0 : Byte)).length + 4 ≤ 4352)
    ∧ (let f : Bytes := List.replicate 12 0 ++ [0x81, 0, 0, 0, 0x86, 0xDD] ++ List.replicate 6 0 ++ [17] ++ List.replicate 40 0
       f.length + 4 ≤ 4352 ∧ beField f 12 2 ≠ 0x88CC ∧ beField f 0 6 = (NMap.getD ready.active.herd 0 {}).srcMac.toNat ∧ beField f 12 2 = 0x8100
        ∧ beField f 16 2 = 0x86DD ∧ beField f 24 1 = 17 ∧ slice f 42 16 ≠ ready.planeAddress ready.me 0
        ∧ beField f 0 6 ≠ (NMap.getD ({ ready with active.herd := [(0, { srcMac := 1 })] } : State).active.herd 0 {}).srcMac.toNat)
    ∧ ((ready.herdPort 0).pcsLock = false ∧ ((onPlane 0).herdPort 0).pcsLock = true)
    ∧ (({ ready with seq.joinFrom := [1] } : State).seq.joinFrom.contains 1 = true ∧ ready.seq.joinFrom.contains 1 = false ∧ ready.seq.joined = false)
    ∧ (let s : State := { ready with plan := some pairPlan, seq.startPending := true, seq.joined := true }
       s.isMaster = true ∧ s.seq.joined = true ∧ s.seq.startPending = true ∧ s.clk.t0 = none ∧ (∀ c ∈ s.treeChildren, ∃ j ∈ s.seq.joinFrom ++ [1], j.toNat = c)
        ∧ (0 : Long).toNat + 2 * (s.period * 1000) < 2 ^ 63 ∧ s.clk.lastTick.toNat ≤ (0 : Long).toNat ∧ 0 < s.period ∧ s.idle = true)
    ∧ ready.seq.startPending = false := by
  refine ⟨by decide +kernel, by decide +kernel, by decide +kernel, by decide +kernel, ?_, by decide +kernel, by decide +kernel, by decide +kernel, by decide +kernel, by decide +kernel⟩
  simp only [List.length_replicate]; decide

/-- A module with one memory write in entry 63 of stack 0's buffer. -/
def committed (src : Nat) : State :=
  { ready with mem.stackRecs := [(0, { buffer := [(63, .committed 0 (List.replicate 512 7) 0 src)] })], mem.zeroed := some (0, 0) }
theorem committed_sound (src : Nat) : (committed src).Sound := ⟨ready_sound.memory, ready_sound.events, ready_sound.views, ready_sound.debug⟩
theorem witness_MemoryAccess :
    ((ready.place 0).1 = 0 ∧ ready.blockCount * 512 ≤ 2 ^ 50 ∧ 511 / 512 = 0 ∧ 511 < ready.blockCount * 512)
    ∧ (let s : State := { ready with mem.channels := [(0, { held := true })] }
       s.accessible 0 = false)
    ∧ (ready.accessible 0 = true ∧ (committed 0).blockAt 0 = some (List.replicate 512 7, 0) ∧ (ready.unit (unitChannel 0)).countedIn = none
      ∧ ready.blockAt 0 = none ∧ ready.stageReads = false)
    ∧ (ready.plan = none ∧ (ready.stack 0).busyBlock 0 = false ∧ (ready.stack 0).freeEntry = some 0 ∧ ready.denseTail 0 [1] = [1]
      ∧ (ready.denseTail 0 (List.replicate 512 1)).length = 512
      ∧ (({ ready with mem.zeroed := some (0, 0) } : State).blockAt 0).isSome = true ∧ ((committed 0).stack 0).busyBlock 0 = true)
    ∧ ((committed 5).Sound ∧ NMap.getD ((committed 5).stack (0 : Fin 12)).buffer (63 : Fin 64) .free = .committed 0 (List.replicate 512 7) 0 5
      ∧ (committed 5).mem.waiting = [] ∧ ((committed 5).channel 0).held = false ∧ ((committed 5).channel 0).down = false
      ∧ ({ committed 5 with mem.channels := [(0, { held := true })] } : State).Sound
      ∧ (({ committed 5 with mem.channels := [(0, { held := true })] } : State).channel 0).held = true
      ∧ (({ committed 5 with mem.channels := [(0, { down := true })] } : State).channel 0).down = true)
    ∧ (let x : Ctx := { active := true, index := 9 }
       let s : State := { committed (churnSource 63 9) with churns := [(63, { ctxs := [(7, x)] })] }
       s.Sound ∧ NMap.getD (s.stack (0 : Fin 12)).buffer (63 : Fin 64) .free = .committed 0 (List.replicate 512 7) 0 (churnSource 63 9)
        ∧ (s.churn 63).faulted = false ∧ (s.churn 63).ctxs = [(7, x)] ∧ x.copies = [] ∧ x.failures = 0)
    ∧ (NMap.getD (ready.stack (0 : Fin 12)).buffer (0 : Fin 64) .free = .free) := by
  refine ⟨by decide +kernel, by decide +kernel, by decide +kernel, by decide +kernel,
    ⟨committed_sound 5, by decide +kernel, by decide +kernel, by decide +kernel, by decide +kernel,
      ⟨ready_sound.memory, ready_sound.events, ready_sound.views, ready_sound.debug⟩, by decide +kernel, by decide +kernel⟩,
    ⟨⟨ready_sound.memory, ready_sound.events, ready_sound.views, ready_sound.debug⟩, by decide +kernel⟩, by decide +kernel⟩

/-- A module whose channel 383 is in some state. -/
def channel383 (c : Channel) : State := { ready with mem.channels := [(383, c)] }
theorem witness_ChannelsAndStacks :
    ((ready.channel 383).pending = none ∧ (ready.channel 383).held = false)
    ∧ (((channel383 { pending := some 5 }).channel 383).pending = some 5 ∧ ((channel383 { pending := some 5 }).channel 383).overdue = false)
    ∧ (((channel383 { held := true, spares := 1 }).channel 383).held = true ∧ ((channel383 { held := true, spares := 1 }).channel 383).spares + 1 ≤ 2
      ∧ 2 < ((channel383 { held := true, spares := 1 }).channel 383).spares + 2)
    ∧ (let s : State := { idle1 with win.chSel := 383 }
       s.boot.stage = .ready ∧ s.setup.op = 0 ∧ s.setup.armed = false ∧ bit 1 (2 : Word).toNat = true ∧ s.idle = true ∧ s.win.chSel.toNat ≤ 383
        ∧ 383 < ({ s with win.chSel := 384 } : State).win.chSel.toNat ∧ bit 1 (1 : Word).toNat = false)
    ∧ ((1520 : Half).toInt ≤ 1520 ∧ ready.mem.throttled = false ∧ 1520 < (1521 : Half).toInt ∧ (1680 : Half).toInt ≤ 1680 ∧ (ready.stack 11).hot = false)
    ∧ (let s : State := { ready with seq.void := { coolant := true } }
       1680 < (1681 : Half).toInt ∧ (s.stack 11).crit = false ∧ s.seq.void.any = true)
    ∧ (let s : State := { ready with mem.throttled := true }
       (1472 : Half).toInt ≤ 1472 ∧ s.mem.throttled = true ∧ ∀ j, j < 12 → j ≠ 11 → (s.stack j).temp.toInt ≤ 1472) := by decide +kernel

/-- A running replica that has the digest of tensor 3. -/
def digesting : State := { replicaOf 0 with watch.entries := [(watchKey 1 3, { digest := some (5, 0) })] }
/-- A running module that has a witness's work to do. -/
def witnessing (ended : List Nat) : State := { inPhases [7, 6, 4, 3, 2, 1] ended with rel.witnessReqs := [(1, 0)] }
theorem witness_DigestsAndWitness :
    (let s : State := { histories with hist.doneSent := true }
     s.hist.written = false ∧ s.hist.doneFrom.contains 1 = false ∧ 1 < s.penSize ∧ s.hist.doneFrom.length + 1 ≠ s.penSize ∧ s.penSize ≤ (7 : Fin 8)
      ∧ ({ s with hist.doneFrom := [0] } : State).hist.doneFrom.length + 1 = s.penSize)
    ∧ ((digesting.watchOf (watchKey 1 3)).digest = some (5, 0) ∧ digesting.digestPeers.contains (8 : BitVec 12).toNat = true
      ∧ (digesting.watchOf (watchKey 1 3)).peers = [] ∧ bit 6 (digesting.watchOf (watchKey 1 3)).flags.toNat = false ∧ (5 : BitVec 256) ≠ 6
      ∧ digesting.digestPeers.contains (1 : BitVec 12).toNat = false)
    ∧ (ready.jobRuns = false ∧ running.jobRuns = true ∧ running.rel.witnessReqs.any (fun q => q.1 == 1) = false ∧ running.seq.replay.suspect = false
      ∧ ({ running with seq.replay.suspect := true } : State).seq.replay.suspect = true ∧ running.rel.witnessReqs = [])
    ∧ ((witnessing []).rel.witnessReqs = (1, 0) :: [] ∧ (witnessing []).phaseOver 7 = false ∧ (witnessing [7]).phaseOver 7 = true
      ∧ (witnessing [7]).seq.replay.suspect = false ∧ [UnitId.tackRoom].length < 2 ∧ 2 ≤ [UnitId.tackRoom, UnitId.sequencer].length)
    ∧ (let s : State := { running with seq.replay.awaiting := true, fab.sendLog := [(2 ^ 32, 0, 1, 0)] }
       s.seq.replay.awaiting = true ∧ s.sentAgrees {} = false ∧ ({ s with fab.sendLog := [] } : State).sentAgrees {} = true)
    ∧ running.seq.replay.awaiting = false
    ∧ (let s : State := { running with fab.sendLog := [(2 ^ 32 + 7, 0, 1, 0)] }
       s.fab.sendLog.any (fun e => e.1 == (1 : BitVec 12).toNat * 2 ^ 32 + 7 && e.2.1 == 0) = true ∧ s.jobRuns = true ∧ 1 ≤ s.phase ∧ s.phase ≤ 6
        ∧ s.seq.replay.running = false ∧ s.seq.replay.count = 0
        ∧ s.fab.sendLog.any (fun e => e.1 == (1 : BitVec 12).toNat * 2 ^ 32 + 8 && e.2.1 == 0) = false) := by decide +kernel

/-- A module that takes security commands, with a window of some length. -/
def secured (mode : BitVec 2) (len : Word) : State := { idle1 with sec.mode := mode, win.secLen := len, host.ports := [(0, { link := .up })], sec.idOk := true }
/-- The clause for a key blob that opens rests on the uninterpreted GCM of Config, so no concrete blob meets it here. -/
theorem witness_SecurityCommands :
    (idle1.boot.stage = .ready ∧ idle1.setup.op = 0 ∧ idle1.setup.cmdRunning = 0 ∧ idle1.setup.armed = false)
    ∧ (1 ≤ (1 : Word).toNat % 8 ∧ (4 : Word).toNat % 8 ≤ 4 ∧ ({ idle1 with win.secAddr := 63 } : State).win.secAddr.toNat % 64 ≠ 0)
    ∧ (let s := secured 0 7592
       (1 : Word).toNat % 8 = 1 ∧ s.win.secAddr.toNat % 64 = 0 ∧ 7592 ≤ s.win.secLen.toNat ∧ s.sec.running = false ∧ s.portOpen 0)
    ∧ (let s := secured 0 3892
       (2 : Word).toNat % 8 = 2 ∧ bit 3 (2 : Word).toNat = false ∧ bit 3 (10 : Word).toNat = true ∧ (10 : Word).toNat % 8 = 2 ∧ 3892 ≤ s.win.secLen.toNat
        ∧ s.sec.idOk = true ∧ s.portOpen 0 ∧ ({ s with sec.idOk := false } : State).sec.idOk = false)
    ∧ (let s := secured 1 2480
       (3 : Word).toNat % 8 = 3 ∧ 2480 ≤ s.win.secLen.toNat ∧ s.sec.idOk = true ∧ s.idle = true ∧ s.sec.mode = 1 ∧ (secured 0 2480).sec.mode ≠ 1
        ∧ s.openBlob [] = none)
    ∧ ((4 : Word).toNat % 8 = 4 ∧ (secured 1 0).sec.mode = 1 ∧ (secured 2 0).sec.mode = 2 ∧ (secured 0 0).sec.mode = 0 ∧ (secured 2 0).idle = true) := by
  unfold State.portOpen; decide +kernel

theorem witness_EraseJtagAndSideband : ({ ready with setup.op := 5 } : State).setup.op = 5
    ∧ (let s : State := { ready with setup.op := 2, sec.running := true }
       s.setup.op = 2 ∧ s.sec.running = true)
    ∧ ready.setup.op ≠ 5 ∧ ready.setup.op ≠ 2 ∧ ready.sec.running = false := by decide +kernel

/-- The plan of a module alone, with its place in the job map and every table complete. -/
def alonePlan : Plan := { plan50 20 with map := ⟨0, 0, 0, 1, false, 1, 0, [⟨0, 0xFFFF, 0, []⟩], []⟩ }
/-- An idle module with that plan and the guard disarmed. -/
def startable : State := { idle1 with plan := some alonePlan }
theorem witness_StartAndStop : startable.takesWrite ∧ startable.setup.armed = false ∧ (0x105 : Word).toNat / 256 % 256 ≠ 0
    ∧ ((0x105 : Word).toNat % 4 = 1 ∧ startable.idle = true ∧ startable.seq.startPending = false ∧ startable.sec.mode ≠ 1
      ∧ startable.beyondService = false ∧ startable.startFailures = [] ∧ startable.multi = false)
    ∧ (({ startable with seq.startPending := true } : State).seq.startPending = true ∧ idle1.startFailures ≠ [])
    ∧ ((0xFF02 : Word).toNat / 256 % 256 ≠ 0 ∧ (0xFF02 : Word).toNat % 4 = 2 ∧ ({ running with setup.armed := false } : State).jobRuns = true)
    ∧ (let s : State := { startable with seq.job := .halted }
       s.takesWrite ∧ s.seq.job = .halted) := by unfold State.takesWrite; decide +kernel

/-- Block 0 of dense tensor 1: one plane of 32 elements, at the start of HBM, with its copy in tile store 0. -/
def dense1 : DenseTensor := { id := 1, planes := 1, blocks := 2, base := 0, workBase := 4096, workTile := some 0, binds := [] }
/-- The record of that block: LOADED, one plane, step tag 5. -/
def record1 : Bytes := padTo 96 [0, 0, 0, 1, 5, 0, 1, 0]
/-- A line of dense tensor 1 in the sweep table: kind 1, a YF16 working copy. -/
def entry1 : Bytes := [1, 0, 1, 3, 0, 0, 0, 0]
/-- A running module whose churn of line 0 has block 0 of dense tensor 1 in its list, and its record in stack 0's write buffer. -/
def sweeping (k : Churn) : State :=
  { running with
    plan := some { alonePlan with layout := { alonePlan.layout with dense := [dense1], sweep := [(line0, entry1)] } }
    churns := [(0, k)], mem.stackRecs := [(0, { buffer := [(0, .committed 0 (padTo 512 record1) 0 0)] })] }
/-- Context 0 of that churn. -/
def ctx0 : CtxId := ⟨0, 0, 0⟩
/-- Its item. -/
def item1 : SweepItem := .dense 1 0
/-- That context with the record of its item, in some block. -/
def inCtx (x : Ctx) : State := sweeping { ctxs := [(0, x)], list := [item1] }
theorem witness_ChurnStores :
    ((inCtx { item := some item1, nAct := 32 }).ctx ctx0).item = some item1
    ∧ 0 < ((inCtx { item := some item1, nAct := 32 }).ctx ctx0).activeLanes
    ∧ ((inCtx { item := some item1, nAct := 2 }).ctx ctx0).activeLanes = 2
    ∧ (let s := withTables (loadDesc 0 1 0 1024 []) [table5 1]
       s.itemTable (.row 5 1 0 0) = some (table5 1))
    ∧ (let s := inCtx { item := some item1, nAct := 32, new := record1 }
       (s.storeField (s.ctx ctx0) item1 (1 : BitVec 4).toNat false ((s.ctx ctx0).lanes 0) 0).isSome = true ∧ (1 : BitVec 4) ≠ 6 ∧ (1 : BitVec 4) ≠ 7)
    ∧ (let s := inCtx { item := some item1, nAct := 32, acc := [(0, 0), (1, 0x3F800000)] }
       (qprepPair (((s.itemTable item1).map (·.codeBits)).getD 8) (NMap.find? (s.ctx ctx0).acc (0 : Fin 4)) (NMap.find? (s.ctx ctx0).acc (1 : Fin 4))).isSome = true
        ∧ NMap.find? (s.ctx ctx0).acc (2 : Fin 4) = none)
    ∧ (let s := inCtx { item := some item1, nAct := 32, wcopy := true }
       s.Sound ∧ s.dense 1 = some dense1 ∧ 0 + 1 ≠ dense1.blocks ∧ s.sweepEntry (s.listLine (lineIx (ctxLine ctx0))) 1 1 = some entry1
        ∧ field entry1 3 1 = 3 ∧ dense1.workTile = some 0 ∧ (s.ctx ctx0).wcopy = true ∧ (s.ctx ctx0).sent = false ∧ (s.ctx ctx0).retag = none) :=
  ⟨by decide +kernel, by decide +kernel, by decide +kernel, by decide +kernel, by decide +kernel, by decide +kernel,
    ⟨ready_sound.memory, ready_sound.events, ready_sound.views, ready_sound.debug⟩, by decide +kernel⟩

theorem witness_ChurnRecords :
    (let s := sweeping { list := [item1] }
     (s.churn (lineIx (ctxLine ctx0))).list[0]? = some item1 ∧ s.mayRead ctx0 0 = true ∧ (s.churn (lineIx (ctxLine ctx0))).resumeH ≤ 0
      ∧ (s.readRecord (s.itemInfo item1).addr (s.itemInfo item1).size 0).2 = some record1 ∧ tagOf (s.itemInfo item1).kind record1 ≠ s.stepTag
      ∧ s.poisonedInput (lineIx (ctxLine ctx0)) item1 record1 = false
      ∧ (s.readRecord (s.itemInfo item1).addr (s.itemInfo item1).size 3).2 = none)
    ∧ (sweeping { list := [item1], readDone := [0] }).mayRead ctx0 0 = false
    ∧ (let s := inCtx { item := some item1, nAct := 64 }
       (s.ctx ctx0).sent = false ∧ (s.ctx ctx0).retag = none ∧ (s.ctx ctx0).item = some item1 ∧ (s.ctx ctx0).block + 1 < ceilDiv (s.ctx ctx0).nAct 32)
    ∧ (let x : Ctx := { item := some item1, nAct := 32, index := 0 }
       let s := sweeping { ctxs := [(0, x)], list := [item1], h := 1 }
       ceilDiv (s.ctx ctx0).nAct 32 ≤ (s.ctx ctx0).block + 1 ∧ (s.ctx ctx0).wcopy = false
        ∧ (s.churn (lineIx (ctxLine ctx0))).ctxs = [(ctx0.ctx.val, s.ctx ctx0)] ∧ (s.churn (lineIx (ctxLine ctx0))).faulted = false
        ∧ (s.ctx ctx0).index < (s.churn (lineIx (ctxLine ctx0))).h ∧ (inCtx x).ctx ctx0 = x ∧ ((inCtx x).churn (lineIx (ctxLine ctx0))).h ≤ x.index)
    ∧ (let s : State := { inCtx { item := some item1 } with seq.phases.started := [7, 1] }
       s.inEvaluation = false ∧ 7 ≤ s.phase ∧ (s.ctx ctx0).failures = 0)
    ∧ (let x : Ctx := { item := some item1, new := record1 }
       x.poison = false ∧ 10 ≤ x.new.length)
    ∧ (let x : Ctx := { item := some item1, active := true }
       let s := sweeping { ctxs := [(0, x)], list := [item1], verified := [0] }
       (s.churn (lineIx line0)).faulted = false ∧ 0 ∈ (s.churn (lineIx line0)).verified ∧ (s.churn (lineIx line0)).holding 0 = some (0, x)
        ∧ x.item = some item1 ∧ x.skip = false ∧ (s.churn (lineIx line0)).resume = none ∧ (s.churn (lineIx line0)).v = 0
        ∧ (s.churn (lineIx line0)).writeDone = [])
    ∧ (let s : State := { sweeping { list := [item1], faulted := true } with churns := [(0, { list := [item1], faulted := true }), (1, { list := [item1] })] }
       (s.churn (lineIx line0)).faulted = true ∧ (s.churn (lineIx line0)).v < (s.churn (lineIx line0)).list.length
        ∧ (s.countedFault (churnUnit (lineIx line0))).canTakeOver (lineIx line0) = true
        ∧ (s.churn (otherLine (lineIx line0))).v < (s.churn (otherLine (lineIx line0))).list.length)
    ∧ (let s : State := { sweeping {} with churns := [(0, { list := [item1], faulted := true }), (1, { faulted := true })] }
       (s.countedFault (churnUnit (lineIx line0))).canTakeOver (lineIx line0) = false ∧ s.jobRuns = true
        ∧ s.events.once.contains (0x7303, lineIx line0) = false) := by decide +kernel

/-- A module whose controller is in some state. -/
def powered (p : PowerState) : State := { ready with pwr := p }
theorem witness_PowerLockouts : (powered { ctl := .on }).powered = true ∧ (powered {}).powered = false ∧ (powered { ctl := .powering }).pwr.ctl = .powering
    ∧ (powered {}).pwr.ctl ≠ .powering
    ∧ (let s := powered { ctl := .lockout, lowSince := some 0 }
       s.pwr.ctl = .lockout ∧ s.pwr.lowSince = some 0 ∧ (0 : Long).toNat + 100000000 ≤ (100000000 : Long).toNat ∧ s.pwr.tripWait = false
        ∧ s.pwr.rearmed = false ∧ (99999999 : Long).toNat < (0 : Long).toNat + 100000000)
    ∧ ((powered { ctl := .lockout, tripWait := true, rearmed := true }).pwr.tripWait = true
      ∧ (powered { ctl := .lockout, tripWait := true, rearmed := true }).pwr.rearmed = true) := by decide +kernel

theorem witness_PowerSequence :
    (let s := powered { pwrEn := true, vinOk := false }
     s.pwr.pwrEn = true ∧ s.pwr.waitRaised = false ∧ s.pwr.vinOk = false ∧ ready.pwr.pwrEn = false)
    ∧ (let s := powered { auxUp := true, coolOk := false }
       s.pwr.ctl = .standby ∧ s.pwr.auxUp = true ∧ s.pwr.waitRaised = false ∧ (s.pwr.inserted && s.pwr.sideband && s.pwr.vinOk && s.pwr.coolOk) = false
        ∧ (ready.pwr.inserted && ready.pwr.sideband && ready.pwr.vinOk && ready.pwr.coolOk) = true)
    ∧ (let s := powered { auxUp := true, pwrEn := true, slotId := 3 }
       s.pwr.mayPower = true ∧ s.pwr.cycleAt = none ∧ (powered {}).pwr.mayPower = false
        ∧ (powered { auxUp := true, pwrEn := true, slotId := 3, cycleAt := some 0 }).pwr.mayPower = true)
    ∧ ((powered { ctl := .powering, tackRoom := true }).pwr.ctl = .powering ∧ (powered { ctl := .powering, tackRoom := true }).pwr.tackRoom = true)
    ∧ ((powered { ctl := .on }).pwr.ctl = .on ∧ (powered { ctl := .stopping }).pwr.ctl = .stopping) := by decide +kernel

theorem witness_PromiseAndClamps : (powered { ctl := .on }).powered = true ∧ (powered { ctl := .on }).seq.void.any = false
    ∧ ({ powered { ctl := .on } with seq.void.vin := true } : State).seq.void.any = true
    ∧ (3100 ≤ (powered { clock := 3100 }).pwr.clock.toNat ∧ 3000 ≤ (powered { clock := 3099 }).pwr.clock.toNat ∧ (powered { clock := 3099 }).pwr.clock.toNat < 3100)
    ∧ (2100 ≤ (powered { clock := 2100 }).pwr.clock.toNat ∧ 2000 ≤ (powered { clock := 2099 }).pwr.clock.toNat ∧ (powered { clock := 2099 }).pwr.clock.toNat < 2100)
    ∧ (ready.events.once.contains (0x9104, 0) = false ∧ ({ ready with events.once := [(0x9104, 0)] } : State).events.once.contains (0x9104, 0) = true)
    ∧ (ready.pwr.coolOk = true ∧ (powered { coolOk := false }).pwr.coolOk = false)
    ∧ ((powered { wearHot := 3999 }).pwr.wearHot.toNat = 3999 ∧ (powered { wearHot := 4999 }).pwr.wearHot.toNat = 4999 ∧ ready.pwr.wearHot.toNat ≠ 3999) := by
  decide +kernel

/-- LOCKOUT stays when the input voltage sags. -/
theorem witness_LockoutHolds : (powered { ctl := .lockout }).pwr.ctl = .lockout
    ∧ (match exec .vinUv (powered { ctl := .lockout }) with | .next t => t.pwr.ctl | _ => .standby) = .lockout := by decide +kernel

/-- A plan image of one module: header, job map, worst cases, one budget. -/
def image1 : Bytes :=
  padTo 512 (leBytes 4 0x4E4C5059 ++ leBytes 2 1 ++ leBytes 2 0 ++ leBytes 8 1536 ++ leBytes 2 1 ++ [20, 0] ++ leBytes 4 100 ++ leBytes 4 4000 ++ leBytes 4 6000
    ++ leBytes 8 1024 ++ leBytes 8 1088 ++ leBytes 4 1 ++ leBytes 4 4)
  ++ padTo 512 (leBytes 4 0x504D4A59 ++ leBytes 2 1 ++ leBytes 2 1 ++ leBytes 4 512 ++ leBytes 4 1 ++ leBytes 8 0 ++ leBytes 2 0 ++ [1, 0] ++ leBytes 2 1
    ++ leBytes 2 1024 ++ List.replicate 32 0 ++ leBytes 2 0 ++ leBytes 2 0xFFFF)
  ++ padTo 512 (List.replicate 64 0 ++ leBytes 2 5 ++ leBytes 2 0 ++ leBytes 4 1 ++ leBytes 4 0)
/-- A module that waits for a plan image of some length. -/
def loading (len : Word) : State := { ready with setup := { ready.setup with op := 1, cmdRunning := 1, len := len } }
/-- The clauses for a firmware image whose header and hashes hold rest on uninterpreted functions of Config, so no concrete image meets
them here; the other clauses have their states. -/
theorem witness_SetupCommands : idle1.takesWrite ∧ idle1.setup.armed = false
    ∧ ((1 : Word).toNat % 16 = 1 ∧ idle1.idle = true ∧ ({ running with setup.armed := false } : State).idle = false ∧ (4 : Word).toNat % 16 = 4
      ∧ idle1.setup.flashBusy = false ∧ ({ idle1 with setup.flashBusy := true } : State).takesWrite)
    ∧ (let s : State := { State.reset with boot.stage := .recovery, setup.armed := false }
       s.boot.stage = .recovery ∧ s.setup.op = 0 ∧ s.setup.cmdRunning = 0 ∧ s.confidential = false ∧ (5 : Word).toNat % 16 = 5 ∧ fwHeaderBad [] = true)
    ∧ ready.setup.op ≠ 1
    ∧ ((loading 1536).setup.op = 1 ∧ (loading 1536).setup.cmdRunning = 1 ∧ (loading 1536).setup.flashBusy = false
      ∧ headerBad image1 (loading 1536).setup.len.toNat = false ∧ headerBad image1 (loading 1024).setup.len.toNat = true
      ∧ image1.length = (loading 1536).setup.len.toNat ∧ placesBad image1 = false ∧ (loading 1536).mapBad image1 = false
      ∧ (loading 1536).signatureBad image1 = false ∧ (loading 1536).imageBad image1 {} (loading 1536).setup.len.toNat = false)
    ∧ ready.setup.cmdRunning ≠ 2
    ∧ (let s : State := { ready with setup.cmdRunning := 2 }
       s.setup.cmdRunning = 2 ∧ s.setup.flashBusy = false ∧ fwFailure [] ≠ 0)
    ∧ (({ ready with boot.writing := some [] } : State).boot.writing = some [] ∧ ready.boot.writing = none) := by
  unfold State.takesWrite; decide +kernel
/-- Whether the plan of that image is admitted depends on the period alone. -/
theorem witness_SetupCommands_admission : admits (parsePlan image1 {}) 100000 = true ∧ admits (parsePlan image1 {}) 1000 = false := by
  unfold admits admitNeed parsePlan; decide +kernel

/-- The Tack Room is up and has not booted. -/
def booting : State := { State.reset with pwr.tackRoom := true }
theorem witness_BootSequence : booting.boot.stage = .rom ∧ booting.pwr.tackRoom = true ∧ State.reset.pwr.tackRoom = false
    ∧ (booting.readFlash { trimOk := false }).trimOk = false ∧ (booting.readFlash { flashReadOk := false }).flashReadOk = false
    ∧ fwHeaderBad (booting.readFlash {}).image = true ∧ booting.boot.image = none
    ∧ (({ booting with boot.hyram := some ⟨[1], [], 0, 0⟩, boot.image := some [2], boot.svnFloor := some 3 } : State).readFlash {}).certs = [1]
    ∧ (let s : State := { booting with boot := { stage := .releasing, started := List.range 63 } }
       s.boot.stage = .releasing ∧ s.boot.started.contains (63 : Fin 64).val = false ∧ s.boot.started.length = 63)
    ∧ (({ booting with boot := { stage := .releasing } } : State).boot.started.length ≠ 63 ∧ booting.boot.stage ≠ .releasing) := by decide +kernel

/-- A sound state with a command in its queue, which a step takes. -/
theorem witness_StepRunsTheFrontCommand : ({ ready with pending := [.lifetimeCountWrite] } : State).pending = [Instr.lifetimeCountWrite]
    ∧ ready.pending = [] ∧ (match step { ready with pending := [.lifetimeCountWrite, .bypass] } with | .next t => t.pending | _ => []) = [Instr.bypass] := by
  decide +kernel
theorem witness_SoundIsKept : ready.Sound ∧ ({ ready with rel.ledger := [(5, { state := 2 })] } : State).unavailable 5 = true
    ∧ (match step { ready with pending := [.bypass] } with | .next _ => true | _ => false) = true :=
  ⟨ready_sound, by decide +kernel, by decide +kernel⟩

/-- A GO tick of a running module alone advances the step counter; a HOLD tick does not. -/
theorem witness_StepCounter :
    (match exec (.localTick 100000000 {}) { running with clk.decision := some { go := true } } with | .next t => t.seq.step | _ => 0) = 1
    ∧ (match exec (.localTick 100000000 {}) { running with clk.decision := some { go := false } } with | .next t => t.seq.step | _ => 9) = 0
    ∧ running.jobRuns = true ∧ ({ running with seq.phases := {} } : State).filling = true ∧ Instr.bypass ≠ Instr.localTick 0 {} := by decide +kernel

/-- A step of one sample whose feature 0 is a bag of table 5. -/
def bagging (places : List BagPlace) : State :=
  let d : Desc := { pos := 0, stage := .taken, bytes := batchDesc 1
                    data := List.replicate 6 0 ++ leBytes 2 1 ++ List.replicate 56 0 ++ [2, 0, 0, 0] ++ leBytes 4 16 ++ leBytes 8 80 ++ leBytes 2 5 ++ List.replicate 14 0 }
  { running with plan := some { plan50 20 with layout := { (plan50 20).layout with bags := places } }, seq.intake.order := [(0, 0)],
                 host.queues := [(0, { mode := .armed, descs := [d] })], emb.tables := [{ table5 1 with current := true }] }
theorem witness_Lookups_pool : ((bagging []).bag 0 0).isSome = true ∧ (bagging []).bagPlace 0 = none
    ∧ (let pl : BagPlace := ⟨0, 31, 1024, 0⟩
       (bagging [pl]).bagPlace 0 = some pl ∧ ((bagging [pl]).bag 0 0).isSome = true
        ∧ tileRange (pl.addr + 0 * (table5 1).dim * 2) ((table5 1).dim * 2) = true) := by decide +kernel

/-! ## More ill-formed commands -/

theorem test_matrix_opcode : Instr.wellFormed (.mma stage0 (2 :: List.replicate 23 0) none) = false
    ∧ Instr.wellFormed (.mma stage0 (1 :: List.replicate 23 0) none) = true ∧ Instr.wellFormed (.join stage0 (1 :: List.replicate 23 0)) = false
    ∧ Instr.wellFormed (.read stage0 (4 :: List.replicate 23 0)) = false ∧ Instr.wellFormed (.store stage0 (3 :: List.replicate 23 0)) = false
    ∧ Instr.wellFormed (.clear stage0 (6 :: List.replicate 23 0)) = false ∧ Instr.wellFormed (.status stage0 (5 :: List.replicate 23 0)) = false := by
  decide +kernel
theorem test_vector_ranges : Instr.wellFormed (.vectorOperation line0 { op := .add, src := 2, dst := 2, n := 0, a := 0, d := 0 } none) = false
    ∧ Instr.wellFormed (.vectorOperation line0 { op := .add, src := 16, dst := 2, n := 1, a := 0, d := 0 } none) = false
    ∧ Instr.wellFormed (.vectorOperation line0 { op := .add, src := 2, dst := 16, n := 1, a := 0, d := 0 } none) = false
    ∧ Instr.wellFormed (.vectorOperation line0 { op := .convert, src := 2, dst := 3, scaleK := 128, n := 1, a := 0, d := 0 } none) = false
    ∧ Instr.wellFormed (.vectorOperation line0 { op := .convert, src := 2, dst := 3, scaleK := -127, n := 1, a := 0, d := 0 } none) = false := by decide +kernel
theorem test_gather_ends : Instr.wellFormed (.gather { fmt := 3, fromHbm := false, srcTile := 0, src := 0, srcScale := 0, dstTile := 0, dst := 0, n := 0 }) = false
    ∧ Instr.wellFormed (.gather { fmt := 3, fromHbm := false, srcTile := 0, src := 0, srcScale := 0, dstTile := 0, dst := 0, n := 1, toModule := some 1, fromModule := some 2 })
      = false := by decide +kernel
theorem test_link_attached : Instr.wellFormed (.stitchRetransmit (.branch 4 1)) = false := by decide +kernel
theorem test_record_block : Instr.wellFormed (.recordWrite 511 [0, 0] 0 0) = false := by decide +kernel

/-! ## Words written out from the manual's encodings -/

/-- R190, R191: FMA of v1 := v2 × v3 + v4 with RM 3, STF F 6 with MFMT of v5 with SR, RED kind 3 of v31 into S2 with RM 1, LDC v31 := C63, SECT
with ONCE and LAST, QPREP S1 S3, and LDF v7 := F 5 with MFMT. -/
theorem test_churn_words : decodeChurnWord ⟨0, 0, 0⟩ 0x320C4104 = some (.fma ⟨0, 0, 0⟩ 1 2 3 4 3)
    ∧ decodeChurnWord ⟨0, 0, 0⟩ 0x1000B622 = some (.stf ⟨0, 0, 0⟩ 6 true 5 1)
    ∧ decodeChurnWord ⟨0, 0, 0⟩ 0x100BE324 = some (.red ⟨0, 0, 0⟩ 3 31 2 1)
    ∧ decodeChurnWord ⟨0, 0, 0⟩ 0x0007FF20 = some (.ldc ⟨0, 0, 0⟩ 31 63)
    ∧ decodeChurnWord ⟨0, 0, 0⟩ 0x00000530 = some (.sect ⟨0, 0, 0⟩ true false true none)
    ∧ decodeChurnWord ⟨0, 0, 0⟩ 0x000C2025 = some (.qprep ⟨0, 0, 0⟩ 1 3)
    ∧ decodeChurnWord ⟨0, 0, 0⟩ 0x0002A721 = some (.ldf ⟨0, 0, 0⟩ 7 5 true)
    ∧ decodeChurnWord ⟨0, 0, 0⟩ 0x0D = none ∧ decodeChurnWord ⟨0, 0, 0⟩ 0x40000001 = none ∧ decodeChurnWord ⟨0, 0, 0⟩ 0x23A = none := by decide +kernel
/-- R123: the OP byte names the command. -/
theorem test_matrix_words : decodeMatrixWord stage0 (3 :: List.replicate 23 0) = some (.read stage0 (3 :: List.replicate 23 0))
    ∧ decodeMatrixWord stage0 (7 :: List.replicate 23 0) = none := by decide +kernel

/-! ## Places and routes -/

/-- R21, the example: T00 to M06 goes T00 to T06 along row 0, then T06 to T30 down column 6, and leaves through T30.S. -/
theorem test_route : (route (.tile 0) (.memPort 6)).take 9 = [.mesh 0 .east, .mesh 1 .east, .mesh 2 .east, .mesh 3 .east, .mesh 4 .east, .mesh 5 .east,
      .mesh 6 .south, .mesh 14 .south, .mesh 22 .south]
    ∧ route (.tile 0) (.memPort 6) = meshPath 0 30 ++ edgeLink (.memPort 6) 30 := by decide +kernel
end Sys2Proof.Tests
end

section
/-! SUPPORT and CLAIM. Reads of the low half of a register pair (R8, R76, R335, R409): what the window shows of a register without
reserved bits, the three ways such a read can end, and the obligation about them. -/

namespace Sys2Proof.Machine

/-! ## What the window shows -/

/-- In READY, P0 sees every offset of the window. -/
theorem State.portSees_p0 {s : State} (h : s.boot.stage = .ready) (off : Nat) : s.portSees 0 off = true := by
  simp [State.portSees, h]

/-- R335: what a data port sees of the window in READY. -/
theorem State.portSees_dataPort {s : State} (h : s.boot.stage = .ready) {port : Nat} (hp : port ≠ 0) (off : Nat) :
    s.portSees port off = true ↔ off < 0x10000 ∨ off = 0x40000 + 4 * port ∨ (0x60000 ≤ off ∧ off ≤ 0x680FC) := by
  simp [State.portSees, h, hp, or_assoc]

/-- A register without reserved bits reads as its value: no free bits are mixed in (R10). -/
theorem State.withReserved_full (s : State) (off v : Nat) :
    BitVec.ofNat 32 (s.withReserved off 0xFFFFFFFF v) = BitVec.ofNat 32 v := by
  have hmask : v &&& 0xFFFFFFFF = v % 2 ^ 32 := Nat.and_two_pow_sub_one_eq_mod v 32
  apply BitVec.eq_of_toNat_eq
  simp [State.withReserved, hmask]

/-- What a port reads of a register that it sees and that has no reserved bits: its value, buffered fields in the active view. -/
theorem State.windowRead_full {s : State} {port off : Nat} {r : Reg} (hsee : s.portSees port off = true) (hr : regAt off = some r)
    (hd : r.defined = 0xFFFFFFFF) (hn : r ≠ .shadowData) :
    s.windowRead port off = BitVec.ofNat 32 (s.readReg s.active port r) := by
  simp only [State.windowRead, hsee, Bool.not_true, Bool.false_eq_true, if_false]
  split
  next hnone => simp [hr] at hnone
  next hshadow => exact absurd (Option.some.inj (hr.symm.trans hshadow)) hn
  next hsome =>
    obtain rfl := Option.some.inj (hr.symm.trans hsome)
    rw [hd, State.withReserved_full]

/-- A word made of the low half of a value is the word made of the value. -/
theorem ofNat_lo32 (n : Nat) : BitVec.ofNat 32 (lo32 n) = BitVec.ofNat 32 n := by
  apply BitVec.eq_of_toNat_eq
  simp [lo32, bits]

/-- The registers of the low halves show the step counter (R76), SEQ and the lifetime step count (R409). -/
theorem State.readReg_lowHalves (s : State) (view : Buffered) (port : Nat) :
    s.readReg view port .stepLo = lo32 s.seq.step.toNat
    ∧ s.readReg view port .evtTailLo = lo32 s.events.seq.toNat
    ∧ s.readReg view port .lifeStepsLo = lo32 s.rel.lifeSteps.toNat := by
  simp [State.readReg, Buffered.reg, State.readControl, State.readHostRegs, State.readMemFab, State.readStatus]

/-! ## The three ways a latching read ends -/

/-- A whole-word read through P0 answers the low half of the value and then latches. -/
theorem State.latchRead_p0 {s : State} (h : s.boot.stage = .ready) {off n : Nat} {r : Reg} (hr : regAt off = some r)
    (hd : r.defined = 0xFFFFFFFF) (hn : r ≠ .shadowData) (hv : s.readReg s.active 0 r = lo32 n) (latch : State → State) :
    s.latchRead 0 off 0 4 latch = latch (s.emit (.windowData 0 (BitVec.ofNat 32 n))) := by
  have hsee := State.portSees_p0 h off
  have hdata : s.windowRead 0 off = BitVec.ofNat 32 n := by rw [State.windowRead_full hsee hr hd hn, hv, ofNat_lo32]
  simp [State.latchRead, State.serves, h, hsee, hdata]

/-- A whole-word read through a port that does not see the register answers ones and latches nothing (R335). -/
theorem State.latchRead_unseen {s : State} (h : s.boot.stage = .ready) {port off : Nat} (hsee : s.portSees port off = false)
    (latch : State → State) : s.latchRead port off 0 4 latch = s.emit (.windowData port 0xFFFFFFFF) := by
  simp [State.latchRead, State.serves, h, hsee, State.windowRead]

/-- A read of another width or alignment answers ones and is logged with WIDTH; nothing is latched (R8). -/
theorem State.latchRead_width {s : State} (h : s.boot.stage = .ready) {shift width : Nat} (hw : width ≠ 4 ∨ shift ≠ 0)
    (port off : Nat) (latch : State → State) :
    s.latchRead port off shift width latch = (s.emit (.windowData port 0xFFFFFFFF)).log (off + shift) port .width := by
  simp [State.latchRead, State.serves, h, hw]

/-! ## The commands -/

/-- The three latching reads of one access, each with the offset of its register. -/
def lowReads (x : LowRead) : List (Instr × Nat) := [(.stepLoRead x, 0x2000C), (.evtTailLoRead x, 0xF0004), (.lifeStepsLoRead x, 0xF0028)]

/-- Each of the three commands is a latching read at its own offset. -/
theorem exec_lowReads {x : LowRead} {e : Instr × Nat} (he : e ∈ lowReads x) (s : State) :
    ∃ latch, exec e.1 s = .next (s.latchRead x.port.val e.2 x.shift.val x.width latch) := by
  simp only [lowReads, List.mem_cons, List.not_mem_nil, or_false] at he
  rcases he with rfl | rfl | rfl <;> exact ⟨_, rfl⟩

/-- R335: no data port sees a register of the three. -/
theorem State.portSees_lowReads {s : State} (h : s.boot.stage = .ready) {x : LowRead} {e : Instr × Nat} (he : e ∈ lowReads x)
    {p : Fin 4} (hp : p ≠ 0) : s.portSees p.val e.2 = false := by
  have hp' : p.val ≠ 0 := Fin.val_ne_of_ne hp
  rw [← Bool.not_eq_true, State.portSees_dataPort h hp']
  simp only [lowReads, List.mem_cons, List.not_mem_nil, or_false] at he
  rcases he with rfl | rfl | rfl <;> dsimp only <;> omega

/-- A whole-word latching read through a data port answers ones and changes nothing else. -/
theorem exec_lowReads_dataPort {s : State} (h : s.boot.stage = .ready) {p : Fin 4} (hp : p ≠ 0) {e : Instr × Nat}
    (he : e ∈ lowReads ⟨p, 0, 4⟩) : exec e.1 s = .next (s.emit (.windowData p.val 0xFFFFFFFF)) := by
  obtain ⟨latch, hexec⟩ := exec_lowReads he s
  exact hexec.trans (congrArg _ (State.latchRead_unseen h (State.portSees_lowReads h he hp) latch))

/-- A latching read of another width or alignment answers ones and is logged. -/
theorem exec_lowReads_width {s : State} (h : s.boot.stage = .ready) {x : LowRead} (hw : x.width ≠ 4 ∨ x.shift ≠ 0) {e : Instr × Nat}
    (he : e ∈ lowReads x) :
    exec e.1 s = .next ((s.emit (.windowData x.port.val 0xFFFFFFFF)).log (e.2 + x.shift.val) x.port.val .width) := by
  obtain ⟨latch, hexec⟩ := exec_lowReads he s
  have hw' : x.width ≠ 4 ∨ x.shift.val ≠ 0 := hw.imp_right Fin.val_ne_of_ne
  exact hexec.trans (congrArg _ (State.latchRead_width h hw' _ _ latch))

/-- Settles O5: a whole-word read through P0 by `State.latchRead_p0`, one through a data port by R335's view, and one of another width
or alignment by R8, in which case the output and the access log alone change. -/
theorem latchingReads : Obligations.LatchingReads := by
  intro s h
  obtain ⟨hstep, htail, hlife⟩ := s.readReg_lowHalves s.active 0
  refine ⟨?stepLo, ?evtTailLo, ?lifeStepsLo, ?dataPort, ?width⟩
  case stepLo => exact congrArg _ (State.latchRead_p0 h (by decide) rfl (by decide) hstep _)
  case evtTailLo => exact congrArg _ (State.latchRead_p0 h (by decide) rfl (by decide) htail _)
  case lifeStepsLo => exact congrArg _ (State.latchRead_p0 h (by decide) rfl (by decide) hlife _)
  case dataPort =>
    intro p hp c hc
    obtain ⟨e, he, rfl⟩ : ∃ e ∈ lowReads ⟨p, 0, 4⟩, e.1 = c := List.mem_map.mp hc
    exact exec_lowReads_dataPort h hp he
  case width =>
    intro p k w hw e he
    have hexec := exec_lowReads_width (x := ⟨p, k, w⟩) h hw he
    have hemit : Only [.out, .setup] s (s.emit (.windowData p.val 0xFFFFFFFF)) := (State.emit_only _ _).mono rfl
    exact ⟨_, hexec, hemit.trans ((State.log_only _ _ _ _).mono rfl), rfl, rfl, logged_log _ _ _ _⟩

end Sys2Proof.Machine
end

section
/-! SUPPORT and CLAIM. Soundness over every step (R39, R76, R256, R391, R394, R407, R425, R430, R457, R461): every command keeps what the module keeps, and
the queue of waiting commands is no part of it. -/

namespace Sys2Proof.Machine

/-- Every command that answers a next state keeps what the module keeps: one law for each row of the table. -/
theorem exec_keeps {c : Instr} {s t : State} (h : exec c s = .next t) : Keeps s t := by
  cases c with
  | localTick => exact execLocalTick_keeps h
  | decisionPoint => exact execDecisionPoint_keeps h
  | decisionMessage => exact execDecisionMessage_keeps h
  | timeTransfer => exact execTimeTransfer_keeps h
  | tickHoldover => exact execTickHoldover_keeps h
  | tickLost => exact execTickLost_keeps h
  | tickInEdge => exact execTickInEdge_keeps h
  | done => exact execDone_keeps h
  | excessDeclaration => exact execExcessDeclaration_keeps h
  | start => exact execStart_keeps h
  | stop => exact execStop_keeps h
  | gatherPhaseStart => exact execGatherPhaseStart_keeps h
  | denseForwardStart => exact execDenseForwardStart_keeps h
  | backwardStart => exact execBackwardStart_keeps h
  | gradientExchangeStart => exact execGradientExchangeStart_keeps h
  | mergePhaseStart => exact execMergePhaseStart_keeps h
  | phase6End => exact execPhase6End_keeps h
  | updateSweepStart => exact execUpdateSweepStart_keeps h
  | sweepEnd => exact execSweepEnd_keeps h
  | tailSlotEnd => exact execTailSlotEnd_keeps h
  | stepRecord => exact execStepRecord_keeps h
  | tickPeriod => exact execTickPeriod_keeps h
  | tickCtrl => exact execTickCtrl_keeps h
  | stepLoRead => exact execStepLoRead_keeps h
  | evtTailLoRead => exact execEvtTailLoRead_keeps h
  | lifeStepsLoRead => exact execLifeStepsLoRead_keeps h
  | groupPoll => exact execGroupPoll_keeps h
  | descriptorFetched => exact execDescriptorFetched_keeps h
  | lapReread => exact execLapReread_keeps h
  | hostReadCompletion => exact execHostReadCompletion_keeps h
  | hostReadTimeout => exact execHostReadTimeout_keeps h
  | trainBatch => exact execTrainBatch_keeps h
  | evalBatch => exact execEvalBatch_keeps h
  | tableLoadDescriptor => exact execTableLoadDescriptor_keeps h
  | tableLoadRecords => exact execTableLoadRecords_keeps h
  | tableLoadBinary32 => exact execTableLoadBinary32_keeps h
  | tableStaging => exact execTableStaging_keeps h
  | stagingFillEnd => exact execStagingFillEnd_keeps h
  | tableSwap => exact execTableSwap_keeps h
  | tableSwapDiscard => exact execTableSwapDiscard_keeps h
  | exportArm => exact execExportArm_keeps h
  | exportArmStop => exact execExportArmStop_keeps h
  | fence => exact execFence_keeps h
  | fenceCompletion => exact execFenceCompletion_keeps h
  | telemetrySnapshot => exact execTelemetrySnapshot_keeps h
  | nop => exact execNop_keeps h
  | completionRecord => exact execCompletionRecord_keeps h
  | msixHoldoffEnd => exact execMsixHoldoffEnd_keeps h
  | telemetryEntry => exact execTelemetryEntry_keeps h
  | exportEntry => exact execExportEntry_keeps h
  | arm => exact execArm_keeps h
  | disarm => exact execDisarm_keeps h
  | disarmEnd => exact execDisarmEnd_keeps h
  | groupCfg => exact execGroupCfg_keeps h
  | portLinkDown => exact execPortLinkDown_keeps h
  | portRetrain => exact execPortRetrain_keeps h
  | linkDownTimeout => exact execLinkDownTimeout_keeps h
  | hostReset _ cause => exact execHostReset_keeps (x1 := cause) h
  | surpriseRemoval => exact execSurpriseRemoval_keeps h
  | portUp => exact execPortUp_keeps h
  | unsupportedRequest => exact execUnsupportedRequest_keeps h
  | separate => exact execSeparate_keeps h
  | aggregate => exact execAggregate_keeps h
  | gatherRows line => exact execGatherRows_keeps (x0 := line) h
  | pool => exact execPool_keeps h
  | rowCacheFill => exact execRowCacheFill_keeps h
  | mma => exact execMma_keeps h
  | join => exact execJoin_keeps h
  | read => exact execRead_keeps h
  | store => exact execStore_keeps h
  | clear => exact execClear_keeps h
  | status => exact execStatus_keeps h
  | vectorOperation => exact execVectorOperation_keeps h
  | rowOperation => exact execRowOperation_keeps h
  | attend => exact execAttend_keeps h
  | attendBack => exact execAttendBack_keeps h
  | send => exact execSend_keeps h
  | allToAll => exact execAllToAll_keeps h
  | reduce => exact execReduce_keeps h
  | allGather => exact execAllGather_keeps h
  | gather => exact execGather_keeps h
  | ringPass => exact execRingPass_keeps h
  | firstRead => exact execFirstRead_keeps h
  | add => exact execAdd_keeps h
  | sub => exact execSub_keeps h
  | mul => exact execMul_keeps h
  | fma => exact execFma_keeps h
  | fms => exact execFms_keeps h
  | rcp => exact execRcp_keeps h
  | rsq => exact execRsq_keeps h
  | max => exact execMax_keeps h
  | min => exact execMin_keeps h
  | neg => exact execNeg_keeps h
  | abs => exact execAbs_keeps h
  | mov => exact execMov_keeps h
  | ceq => exact execCeq_keeps h
  | clt => exact execClt_keeps h
  | cle => exact execCle_keeps h
  | cun => exact execCun_keeps h
  | sel => exact execSel_keeps h
  | ldc => exact execLdc_keeps h
  | ldf => exact execLdf_keeps h
  | stf => exact execStf_keeps h
  | lds => exact execLds_keeps h
  | red => exact execRed_keeps h
  | qprep => exact execQprep_keeps h
  | wacc => exact execWacc_keeps h
  | wcopy => exact execWcopy_keeps h
  | sect => exact execSect_keeps h
  | churnNop c => exact execChurnNop_keeps (x0 := c) h
  | recordWriteVerified => exact execRecordWriteVerified_keeps h
  | sweepTakeover => exact execSweepTakeover_keeps h
  | appendDone => exact execAppendDone_keeps h
  | digestCompare => exact execDigestCompare_keeps h
  | dataFlit => exact execDataFlit_keeps h
  | controlFlit => exact execControlFlit_keeps h
  | timeFlit => exact execTimeFlit_keeps h
  | retryReq => exact execRetryReq_keeps h
  | linkRetrain => exact execLinkRetrain_keeps h
  | penRetrain => exact execPenRetrain_keeps h
  | stitchRetransmit => exact execStitchRetransmit_keeps h
  | train => exact execTrain_keeps h
  | ident => exact execIdent_keeps h
  | dataPacket => exact execDataPacket_keeps h
  | xon => exact execXon_keeps h
  | ackPacket => exact execAckPacket_keeps h
  | nak => exact execNak_keeps h
  | timePacket => exact execTimePacket_keeps h
  | controlPacket => exact execControlPacket_keeps h
  | standaloneAck => exact execStandaloneAck_keeps h
  | gapPersists => exact execGapPersists_keeps h
  | retransmission => exact execRetransmission_keeps h
  | ackProgressTimeout => exact execAckProgressTimeout_keeps h
  | rateRecovery => exact execRateRecovery_keeps h
  | pfcFrame => exact execPfcFrame_keeps h
  | herdPfcStorm => exact execHerdPfcStorm_keeps h
  | pauseFrame => exact execPauseFrame_keeps h
  | herdPortDown => exact execHerdPortDown_keeps h
  | pcsLock => exact execPcsLock_keeps h
  | joinMessage => exact execJoinMessage_keeps h
  | mapDigest => exact execMapDigest_keeps h
  | peerAbsent => exact execPeerAbsent_keeps h
  | blockRead => exact execBlockRead_keeps h
  | recordWrite => exact execRecordWrite_keeps h
  | stackWriteAck => exact execStackWriteAck_keeps h
  | regulatedIssue => exact execRegulatedIssue_keeps h
  | retrainRequest => exact execRetrainRequest_keeps h
  | retrainOverdue => exact execRetrainOverdue_keeps h
  | retrainDone => exact execRetrainDone_keeps h
  | retrainNow => exact execRetrainNow_keeps h
  | stackTempSample => exact execStackTempSample_keeps h
  | regRate => exact execRegRate_keeps h
  | witnessReq => exact execWitnessReq_keeps h
  | witnessWork => exact execWitnessWork_keeps h
  | witnessResult => exact execWitnessResult_keeps h
  | resend => exact execResend_keeps h
  | lifetimeCountWrite => exact execLifetimeCountWrite_keeps h
  | trWatchdog => exact execTrWatchdog_keeps h
  | certs => exact execCerts_keeps h
  | report => exact execReport_keeps h
  | reportKem => exact execReportKem_keeps h
  | keyLoad => exact execKeyLoad_keeps h
  | exit => exact execExit_keeps h
  | bypass => exact execBypass_keeps h
  | idcode => exact execIdcode_keeps h
  | samplePreload => exact execSamplePreload_keeps h
  | extest => exact execExtest_keeps h
  | debug => exact execDebug_keeps h
  | auxPowerUp => exact execAuxPowerUp_keeps h
  | moduleInsertion => exact execModuleInsertion_keeps h
  | moduleExtraction => exact execModuleExtraction_keeps h
  | pwrEnRise => exact execPwrEnRise_keeps h
  | powering => exact execPowering_keeps h
  | bulkCharged => exact execBulkCharged_keeps h
  | pwrgd => exact execPwrgd_keeps h
  | railRegulationTimeout => exact execRailRegulationTimeout_keeps h
  | pwrEnFall => exact execPwrEnFall_keeps h
  | railsOff => exact execRailsOff_keeps h
  | tripWaitEnd => exact execTripWaitEnd_keeps h
  | vinUv => exact execVinUv_keeps h
  | vinOv => exact execVinOv_keeps h
  | vinLow => exact execVinLow_keeps h
  | vinHigh => exact execVinHigh_keeps h
  | vinRated => exact execVinRated_keeps h
  | pwrOcp => exact execPwrOcp_keeps h
  | clampStep junction => exact execClampStep_keeps (x0 := junction) h
  | budgetClamp => exact execBudgetClamp_keeps h
  | specVoid => exact execSpecVoid_keeps h
  | junctionSensorRead => exact execJunctionSensorRead_keeps h
  | thermTrip => exact execThermTrip_keeps h
  | coolSpec => exact execCoolSpec_keeps h
  | coolOk => exact execCoolOk_keeps h
  | coolLost => exact execCoolLost_keeps h
  | wearHour => exact execWearHour_keeps h
  | auxCfg => exact execAuxCfg_keeps h
  | getStatus => exact execGetStatus_keeps h
  | setEnable => exact execSetEnable_keeps h
  | powerCycle => exact execPowerCycle_keeps h
  | getEvents => exact execGetEvents_keeps h
  | mctpControlMessage => exact execMctpControlMessage_keeps h
  | setdasa => exact execSetdasa_keeps h
  | entdaa => exact execEntdaa_keeps h
  | setupUnlock => exact execSetupUnlock_keeps h
  | apply => exact execApply_keeps h
  | discard => exact execDiscard_keeps h
  | planLoad => exact execPlanLoad_keeps h
  | planImageRead => exact execPlanImageRead_keeps h
  | fwUpdate => exact execFwUpdate_keeps h
  | flashWriteEnd => exact execFlashWriteEnd_keeps h
  | erase => exact execErase_keeps h
  | eraseEnd => exact execEraseEnd_keeps h
  | moduleReset => exact execModuleReset_keeps h
  | recover => exact execRecover_keeps h
  | boot => exact execBoot_keeps h
  | dieStarted => exact execDieStarted_keeps h
  | dieStartTimeout => exact execDieStartTimeout_keeps h
  | registerWrite => exact execRegisterWrite_keeps h
  | doorbellReadCompletion => exact execDoorbellReadCompletion_keeps h
  | idleFlit => exact execIdleFlit_keeps h
  | penTrainingEnd => exact execPenTrainingEnd_keeps h
  | receivedFrameDiscarded => exact execReceivedFrameDiscarded_keeps h
  | pfcPauseExpiry => exact execPfcPauseExpiry_keeps h
  | fwImageRead => exact execFwImageRead_keeps h

/-- What the module keeps does not look at the queue of waiting commands. -/
theorem State.Sound.withPending {s : State} (h : s.Sound) (q : List Instr) : State.Sound { s with pending := q } :=
  ⟨h.memory, h.events, h.views, h.debug⟩

/-- Settles O59: on an empty queue nothing changes, and else the command at the front keeps what the module keeps (`exec_keeps`). -/
theorem soundIsKept : Obligations.SoundIsKept := by
  intro s t h
  unfold step at h
  split at h
  next =>
    cases h
    exact ⟨id, fun _ => id⟩
  next c rest _ =>
    have hkeeps : Keeps { s with pending := rest } t := exec_keeps h
    exact ⟨fun hsound => hkeeps.sound (hsound.withPending rest), fun u hu => hkeeps.gone u hu⟩

end Sys2Proof.Machine
end

section
/-! SUPPORT and CLAIM. Changes of the pen links (R24, R46, R265, R267 to R269, R283, R298, R391): retraining, loss, training, IDENT, time
transfer and stitch retransmissions, one law for each way that such a command goes, and the obligation about them. -/

namespace Sys2Proof.Machine

/-! ## Changes of one engine -/

/-- Two changes that make the same of an engine are one change. -/
theorem State.setPen_congr {s : State} {k : Nat} {f g : PenEngine → PenEngine} (h : f (s.pen k) = g (s.pen k)) :
    s.setPen k f = s.setPen k g := by
  have hsame : f (NMap.getD s.fab.pen k {}) = g (NMap.getD s.fab.pen k {}) := h
  simp only [State.setPen, NMap.modify, hsame]

/-- A pen engine is the same. -/
theorem Only.pen {m : List Part} {s t : State} (h : Only m s t) (k : Nat) (hm : m.contains .pen = false := by rfl) : t.pen k = s.pen k := by
  have hpen := h.get .pen hm
  simp only [Part.same] at hpen
  unfold State.pen; rw [hpen]

/-- Messages that take their places change nothing else. -/
theorem State.setMsgs_only (s : State) (ms : List Msg) : Only [.msgs] s { s with fab.msgs := ms } := by
  refine ⟨rfl, fun p => ?_⟩
  cases p
  case msgs => exact .inl (by decide)
  all_goals exact .inr (by simp [Part.same])

/-- Arming the guard changes the setup block alone. -/
theorem State.arm_only (s : State) : Only [.setup] s { s with setup.armed := true } := by
  refine ⟨rfl, fun p => ?_⟩
  cases p
  case setup => exact .inl (by decide)
  all_goals exact .inr (by simp [Part.same])

/-! ## Retraining (R264, R265) -/

/-- A failed attempt before the third is counted. -/
theorem State.penRetrain_again {s : State} {k : Nat} (hr : (s.pen k).retraining = true) (ha : (s.pen k).attempts < 2) :
    s.penRetrain k false = s.setPen k (fun x => { x with attempts := (s.pen k).attempts + 1 }) := by
  have hlast : ¬2 ≤ (s.pen k).attempts := by omega
  simp only [State.penRetrain, hr, hlast, Bool.not_true, Bool.false_eq_true, if_false]
  exact State.setPen_congr rfl

/-- A link that is lost raises PEN_LINK_LOST, is down, and halts a job that runs. -/
theorem State.linkLost_spec {s : State} {k : Nat} (hj : s.jobRuns = true) : ∃ u : State,
    Raised 0x5102 (unitEngine k) s u ∧ Only [.tel, .events, .ledger] u (s.linkLost k)
      ∧ ((s.linkLost k).pen k).up = false ∧ ((s.linkLost k).pen k).valid = false ∧ (s.linkLost k).seq.haltPending = true := by
  let down := s.setPen k (fun x => { x with up := false, valid := false, retraining := false, attempts := 0 })
  let u := down.raiseHalt 0x5102 (unitEngine k)
  have hraised : Raised 0x5102 (unitEngine k) s u := Raised.of_raise down 0x5102 (unitEngine k) 0 0 true
  have hcount : Only [.tel, .events, .ledger] u (s.linkLost k) := State.countedFault_only u _
  have hpen : (s.linkLost k).pen k = { s.pen k with up := false, valid := false, retraining := false, attempts := 0 } :=
    (hcount.pen k).trans (((State.raiseHalt_only down 0x5102 (unitEngine k) 0 0).pen k).trans (pen_setPen_self s k _))
  have hhalt : u.seq.haltPending = true := by
    have hruns : (down.raise 0x5102 (unitEngine k) 0 0 true).jobRuns = true := by
      rw [State.jobRuns, raise_seq]; exact hj
    exact (congrArg (_ || ·) hruns).trans (Bool.or_true _)
  refine ⟨u, hraised, hcount, ?_, ?_, ?_⟩
  · rw [hpen]
  · rw [hpen]
  · exact (hcount.get .halt).1.trans hhalt

/-- A link runs again, and has asked for the flit that it expects. -/
def State.resumed (s : State) (k : Nat) : State :=
  (s.setPen k (fun x => { x with retraining := false, attempts := 0, discarding := true, freed := 0 })).emit
    (.penFlit k (flitBytes 4 0 0 ((s.pen k).expect - 1).toNat (s.pen k).freed (leBytes 2 (s.pen k).expect.toNat)))

/-- What asking leaves of the engine. -/
theorem State.resumed_pen (s : State) (k : Nat) :
    (s.resumed k).pen k = { s.pen k with retraining := false, attempts := 0, discarding := true, freed := 0 } := pen_setPen_self s k _

/-- Asking changes the engine and what is out. -/
theorem State.resumed_only (s : State) (k : Nat) : Only [.out, .pen] s (s.resumed k) :=
  ((State.setPen_only s k _).mono rfl).trans ((State.emit_only _ _).mono rfl)

/-- A link with nothing waiting resumes by asking, and a job that runs has it reported. -/
theorem State.linkResumed_idle {s : State} {k : Nat} (hw : (s.pen k).waiting = []) :
    s.linkResumed k = if s.jobRuns then (s.resumed k).raise 0x5101 (unitEngine k) else s.resumed k := by
  have hasked : (s.setPen k (fun x => { x with retraining := false, attempts := 0 })).requestRetry k (s.pen k).expect = s.resumed k := by
    unfold State.requestRetry
    simp only [setPen_setPen, pen_setPen_self]
    exact congrArg (State.emit · _) (State.setPen_congr rfl)
  have hwait : ((s.resumed k).pen k).waiting = [] := by rw [State.resumed_pen]; exact hw
  simp only [State.linkResumed, hasked, hwait, List.length_nil, State.drainPen]

/-- What a link that resumes leaves. -/
theorem State.linkResumed_spec {s : State} {k : Nat} (hw : (s.pen k).waiting = []) :
    Only [.out, .pen, .tel, .events] s (s.linkResumed k)
      ∧ (s.linkResumed k).pen k = { s.pen k with retraining := false, attempts := 0, discarding := true, freed := 0 }
      ∧ (s.linkResumed k).out = s.out
        ++ [.penFlit k (flitBytes 4 0 0 ((s.pen k).expect - 1).toNat (s.pen k).freed (leBytes 2 (s.pen k).expect.toNat))]
      ∧ (s.jobRuns = true → Raised 0x5101 (unitEngine k) s (s.linkResumed k))
      ∧ (s.jobRuns = false → (s.linkResumed k).events = s.events) := by
  rw [State.linkResumed_idle hw]
  have honly : Only [.out, .pen, .tel, .events] s (s.resumed k) := (State.resumed_only s k).mono rfl
  cases s.jobRuns
  case false => exact ⟨honly, State.resumed_pen s k, rfl, nofun, fun _ => rfl⟩
  case true =>
    have hraise := State.raise_only (s.resumed k) 0x5101 (unitEngine k) 0 0 false
    exact ⟨honly.trans (hraise.mono rfl), (hraise.pen k).trans (State.resumed_pen s k), hraise.get .out,
      fun _ => Raised.of_raise (s.resumed k) 0x5101 (unitEngine k) 0 0 false, nofun⟩

/-! ## TIME flits (R46, R283) -/

/-- An engine takes a TIME flit that ends a message. -/
def State.timeTaken (s : State) (k : Nat) (f : Bytes) : State :=
  s.setPen k (fun x => { x with credits := x.credits + field f 6 2, timeCtl := [] })

/-- A TIME flit with LAST on an open link completes its message. -/
theorem State.timeFlit_last {s : State} {k : Nat} {f m : Bytes} (h : s.linkOpen k) (hg : flitGood f) (hk : field f 0 1 = 3)
    (hl : bit 0 (field f 1 1) = true) (hm : (s.pen k).timeCtl ++ (flitBody f).take 512 = m) :
    s.timeFlit k f = (s.timeTaken k f).controlArrived (s.engineModule k) m := by
  obtain ⟨hup, hretrain, hwait⟩ := h
  have htakes : s.takesFlit k 3 f = true := by simp [State.takesFlit, hup, hretrain, hg, hk]
  unfold State.timeFlit State.penTime
  rw [if_pos htakes, takeCredit_open f hwait]
  have hmodule : (s.setPen k (fun x => { x with credits := x.credits + field f 6 2 })).engineModule k = s.engineModule k :=
    engineModule_setPen s k k _ (fun _ => rfl)
  simp only [hl, if_true, setPen_setPen, pen_setPen_self, hm, hmodule]
  rfl

/-- What an engine that has taken a TIME flit leaves. -/
theorem State.timeTaken_spec (s : State) (k : Nat) (f : Bytes) : Only [.pen] s (s.timeTaken k f) ∧ ((s.timeTaken k f).pen k).timeCtl = [] :=
  ⟨State.setPen_only s k _, congrArg PenEngine.timeCtl (pen_setPen_self s k _)⟩

/-- Timestamps from the parent lock the time base, and raise TICK_LOCK where it was not locked (R46). -/
theorem State.takeTimes_parent {s : State} {peer : Nat} {b : Bytes} (hp : treeParent s.tickMaster s.me = some peer)
    (h1 : BitVec.ofNat 64 (field b 16 8) ≠ (0 : Long)) :
    (s.takeTimes peer b).clk.locked = true ∧ (s.takeTimes peer b).clk.holdover = false
      ∧ (s.takeTimes peer b).clk.lastTransfer = s.clk.time
      ∧ (s.takeTimes peer b).clk.offset = offsetOf (BitVec.ofNat 64 (field b 16 8)) (BitVec.ofNat 64 (field b 8 8))
        (BitVec.ofNat 64 (field b 0 8)) s.clk.time
      ∧ (s.clk.locked = false → Raised 0x1101 unitNone s (s.takeTimes peer b))
      ∧ (s.clk.locked = true → (s.takeTimes peer b).events = s.events) := by
  unfold State.takeTimes
  dsimp only
  rw [if_pos ⟨hp, h1⟩]
  cases hlock : s.clk.locked
  case true => exact ⟨rfl, rfl, rfl, rfl, nofun, fun _ => rfl⟩
  case false =>
    rw [if_neg Bool.false_ne_true]
    refine ⟨?_, ?_, ?_, ?_, fun _ => Raised.of_raise _ 0x1101 unitNone 0 0 false, nofun⟩
    all_goals rw [(State.raise_only _ 0x1101 0 0 0 false).clk]

/-- A TIME flit that completes timestamps hands them to the time base. -/
theorem State.timeFlit_timestamps {s : State} {k : Nat} {f m b : Bytes} (now : Long) (h : s.linkOpen k) (hg : flitGood f)
    (hk : field f 0 1 = 3) (hl : bit 0 (field f 1 1) = true) (hm : (s.pen k).timeCtl ++ (flitBody f).take 512 = m)
    (hb : slice m 4 (field m 2 2) = b) (hc : field m 0 2 = MsgKind.timeTransfer.code) :
    (s.timed now).timeFlit k f = ((s.timed now).timeTaken k f).takeTimes (s.engineModule k) b := by
  have hlast : (s.timed now).timeFlit k f = ((s.timed now).timeTaken k f).controlArrived (s.engineModule k) m :=
    State.timeFlit_last (s := s.timed now) h hg hk hl hm
  rw [hlast, State.controlArrived, hb]
  exact if_pos hc

/-- A decision in a TIME flit takes its place as a message (R43). -/
theorem State.timeFlit_decision {s : State} {k : Nat} {f m : Bytes} (now : Long) (h : s.linkOpen k) (hg : flitGood f)
    (hk : field f 0 1 = 3) (hl : bit 0 (field f 1 1) = true) (hm : (s.pen k).timeCtl ++ (flitBody f).take 512 = m)
    (hc : field m 0 2 = MsgKind.decision.code) :
    (s.timed now).timeFlit k f = { (s.timed now).timeTaken k f with
      fab.msgs := putMsg s.fab.msgs (s.engineModule k) (msgNumber MsgKind.decision.code
        (s.fab.msgs.countP (fun x => x.src == s.engineModule k && x.num / 65536 == MsgKind.decision.code)))
        (fun x => x.put 0 (slice m 4 (field m 2 2), 0, 0) true) } := by
  have hlast : (s.timed now).timeFlit k f = ((s.timed now).timeTaken k f).controlArrived (s.engineModule k) m :=
    State.timeFlit_last (s := s.timed now) h hg hk hl hm
  rw [hlast, State.controlArrived]
  simp only [hc]
  rw [if_neg (by decide), if_neg (by decide)]
  rfl

/-! ## Stitch links (R24, R391) -/

/-- A retransmission is logged in the ledger entry of its link, and counted for the step. -/
def State.stitchLogged (s : State) (u : Half) : State := (s.logged u).setUnit u (fun e => { e with stepCount := e.stepCount + 1 })

/-- What the log of a retransmission leaves. -/
theorem State.stitchLogged_unit (s : State) (u : Half) :
    (s.stitchLogged u).unit u = { s.unit u with logged := satAdd (s.unit u).logged 1, stepCount := (s.unit u).stepCount + 1 } := by
  simp [State.stitchLogged, State.logged, unit_setUnit]

/-- Another unit's entry stays. -/
theorem State.stitchLogged_other (s : State) {u v : Half} (h : v ≠ u) : (s.stitchLogged u).unit v = s.unit v := by
  simp [State.stitchLogged, State.logged, unit_setUnit, h.symm]

/-- The log of a retransmission changes the ledger alone. -/
theorem State.stitchLogged_only (s : State) (u : Half) : Only [.ledger] s (s.stitchLogged u) :=
  (State.logged_only s u).trans (State.setUnit_only _ u _)

/-- STITCH_RETRANSMIT: the 1,025th of a step is a counted fault. -/
theorem State.stitchRetransmit_eq (s : State) (u : Half) : s.stitchRetransmit u =
    if (s.unit u).stepCount = 1024 then (s.stitchLogged u).countedFault u else s.stitchLogged u := by
  show (if ((s.stitchLogged u).unit u).stepCount = 1025 then _ else _) = _
  rw [State.stitchLogged_unit]
  simp only [Nat.reduceEqDiff]
  rfl

/-! ## TRAIN (R267, R298) -/

/-- A write of FAB_CTRL through P0, as the window takes it. -/
theorem exec_train {s : State} (h : s.takesWrite) (v : Word) :
    exec (.train 0 v) s = .next (State.writeFabCtrl { s with setup.armed := true } v.toNat) :=
  congrArg Host.Outcome.next (window_free (r := .fabCtrl) h rfl (by decide) rfl (by decide) nofun nofun rfl)

/-- A write of FAB_CTRL takes HERD_EN into the pending view. -/
def State.herdEnTaken (s : State) (v : Nat) : State := s.setPending (fun b => { b with herdEn := bit 1 v })

/-- A write of FAB_CTRL by its case: HERD_EN alone, training, or a refusal. -/
theorem State.writeFabCtrl_eq (s : State) (v : Nat) : s.writeFabCtrl v =
    if bit 0 v = true then (if s.idle = true then (s.herdEnTaken v).beginTraining else (s.herdEnTaken v).log 0xA0000 0 .state)
    else s.herdEnTaken v := by
  unfold State.writeFabCtrl
  cases bit 0 v <;> rfl

/-- While training runs, no engine is up and no herd port has lock. -/
theorem State.beginTraining_down (s : State) :
    (∀ p, p ∈ s.beginTraining.fab.pen → p.2.up = false) ∧ (∀ p, p ∈ s.beginTraining.fab.herd → p.2.pcsLock = false) := by
  constructor
  · intro p hp
    obtain ⟨e, -, rfl⟩ := List.mem_map.mp hp
    rfl
  · intro p hp
    obtain ⟨e, -, rfl⟩ := List.mem_map.mp hp
    rfl

/-! ## IDENT (R267 to R269) -/

/-- The own IDENT leaves. -/
def State.identSent (s : State) (k : Nat) : State :=
  s.emit (.penFlit k (flitBytes 5 0 0 0 0 (leBytes 2 s.me ++ leBytes 8 s.identDigest)))

/-- IDENT on an engine that trains: a miscabled peer is refused, and else the lowest engine that reaches the peer carries the link. -/
theorem State.ident_training {s : State} {k m : Nat} {d : Long} (ht : s.fab.training = true) (hu : s.unavailable (unitEngine k) = false) :
    s.ident k m d =
      if s.miscabled m d then (s.identSent k).raise 0x5002 (unitEngine k)
      else match s.engineTo (m % 8) with
        | none => (s.identSent k).carryPeer k (m % 8)
        | some j =>
          if j = k then s.identSent k
          else if j < k then (s.identSent k).raise 0x5002 (unitEngine k)
          else (((s.identSent k).setPen j (fun x => { x with up := false, valid := false })).carryPeer k (m % 8)).raise 0x5002 (unitEngine j) := by
  unfold State.ident
  rw [if_neg (by simp [ht, hu])]
  rfl

/-- An engine carries the link to a pen position, which flash keeps. -/
def State.carried (s : State) (k pos : Nat) : State :=
  { s.setPen k (fun x => { up := true, valid := true, peer := BitVec.ofNat 3 pos, retries := x.retries }) with
    boot.penPeers := NMap.insert s.boot.penPeers k pos }

/-- What carrying a peer leaves of the engines. -/
theorem State.carried_pen (s : State) (k pos : Nat) :
    (s.carried k pos).pen k = { up := true, valid := true, peer := BitVec.ofNat 3 pos, retries := (s.pen k).retries }
      ∧ ∀ j, j ≠ k → (s.carried k pos).pen j = s.pen j :=
  ⟨pen_setPen_self s k _, fun j hj => (pen_setPen s k j _).trans (if_neg (Ne.symm hj))⟩

/-- A spare put to use is reported, and nothing else follows. -/
theorem State.carryPeer_eq (s : State) (k pos : Nat) :
    s.carryPeer k pos = if s.spareNow k pos then (s.carried k pos).raise 0x5003 (unitEngine k) else s.carried k pos := rfl

/-- The report of a spare leaves the engines and the boot block. -/
theorem State.carryPeer_rest (s : State) (k pos : Nat) :
    (∀ j, (s.carryPeer k pos).pen j = (s.carried k pos).pen j)
      ∧ (s.carryPeer k pos).boot = { s.boot with penPeers := NMap.insert s.boot.penPeers k pos } := by
  rw [State.carryPeer_eq]
  split
  · exact ⟨fun j => raise_pen _ _ _ _ _ _ j, (State.raise_only _ _ _ _ _ _).get .boot⟩
  · exact ⟨fun _ => rfl, rfl⟩

/-- A spare put to use is what is reported last. -/
theorem State.carryPeer_spare {s : State} {k pos : Nat} (h : s.spareNow k pos = true) : (s.carryPeer k pos).lastEvent = some 0x5003 := by
  rw [State.carryPeer_eq, if_pos h]
  exact raised_last (Raised.of_raise (s.carried k pos) 0x5003 (unitEngine k) 0 0 false)

/-! ## The end of training (R267) -/

/-- The engines of which a lane did not come up, as numbers of engines. -/
theorem failedEngines (failed : List OpticalLane) :
    (List.range 8).filter (laneFailed failed) = ((List.finRange 8).filter (fun k => laneFailed failed k.val)).map (·.val) := by
  rw [← List.map_coe_finRange_eq_range, List.filter_map]
  rfl

/-- Training that ends takes down every available engine with a lane that did not come up. -/
theorem State.endTraining_spec {s : State} {failed : List OpticalLane} (ht : s.fab.training = true) :
    (s.endTraining failed).fab.training = false ∧ (s.endTraining failed).fab.lanesDown = failed
      ∧ ∀ o ∈ failed, o.engine.val < 8 → s.unavailable (unitEngine o.engine) = false →
        ((s.endTraining failed).pen o.engine).up = false ∧ ((s.endTraining failed).pen o.engine).valid = false := by
  have hends : s.endTraining failed = ((List.range 8).filter (laneFailed failed)).foldl (fun (st : State) k => st.trainFailed k)
      { s with fab.training := false, fab.lanesDown := failed } := if_pos ht
  rw [hends]
  have honly := Only.foldl State.trainFailed_only ((List.range 8).filter (laneFailed failed))
    { s with fab.training := false, fab.lanesDown := failed }
  have hmsgs := honly.get .msgs
  refine ⟨congrArg FabState.training hmsgs, congrArg FabState.lanesDown hmsgs, fun o ho hlt hu => ?_⟩
  rw [failedEngines]
  refine failed_all _ _ ⟨o.engine.val, hlt⟩ (.inl ⟨?_, hu⟩)
  exact List.mem_filter.mpr ⟨List.mem_finRange _, List.any_eq_true.mpr ⟨o, ho, by simp⟩⟩

/-- Settles O41: each clause by the law of the way that its command goes. -/
theorem penLinkChanges : Obligations.PenLinkChanges := by
  intro s k
  refine ⟨?retrains, ?linkDown, ?noAttempt, ?again, ?lost, ?resumes, ?timestamps, ?decision, ?noLink, ?retransmission, ?counted,
    ?trains, ?refused, ?herdEn, ?noIdent, ?miscabled, ?newPeer, ?knownPeer, ?noTraining, ?trained⟩
  case retrains =>
    intro hup
    exact congrArg Host.Outcome.next ((if_pos hup).trans (State.setPen_congr rfl))
  case linkDown =>
    intro hup
    exact congrArg Host.Outcome.next (if_neg (by simp [hup]))
  case noAttempt =>
    intro hr ok
    exact congrArg Host.Outcome.next (if_pos (by simp [hr]))
  case again =>
    intro hr ha
    exact congrArg Host.Outcome.next (State.penRetrain_again hr ha)
  case lost =>
    intro hr ha hj
    have hlost : s.penRetrain k false = s.linkLost k := by simp [State.penRetrain, hr, ha]
    obtain ⟨u, hspec⟩ := State.linkLost_spec (k := k) hj
    exact ⟨_, u, congrArg Host.Outcome.next hlost, hspec⟩
  case resumes =>
    intro hr hw
    have hresumes : s.penRetrain k true = s.linkResumed k := by simp [State.penRetrain, hr]
    exact ⟨_, congrArg Host.Outcome.next hresumes, State.linkResumed_spec hw⟩
  case timestamps =>
    intro f now b m hopen hgood hkind hlast hm hb hcode
    obtain ⟨htaken, hctl⟩ := (s.timed now).timeTaken_spec k f
    let v := (s.timed now).timeTaken k f
    have htimes : Only [.clk, .tel, .events] v (v.takeTimes (s.engineModule k) b) := State.takeTimes_only _ _ _
    have honly : Only [.pen, .clk, .time, .tel, .events] s (v.takeTimes (s.engineModule k) b) :=
      ((timed_only' s now).mono rfl).trans ((htaken.mono rfl).trans (htimes.mono rfl))
    refine ⟨_, congrArg Host.Outcome.next (State.timeFlit_timestamps now hopen hgood hkind hlast hm hb hcode), honly,
      htimes.get .time, (congrArg PenEngine.timeCtl (htimes.pen k)).trans hctl, takeTimes_transfer v _ b, fun hparent ht1 => ?_⟩
    exact State.takeTimes_parent (s := v) hparent ht1
  case decision =>
    intro f now m hopen hgood hkind hlast hm hcode
    obtain ⟨htaken, hctl⟩ := (s.timed now).timeTaken_spec k f
    refine ⟨_, congrArg Host.Outcome.next (State.timeFlit_decision now hopen hgood hkind hlast hm hcode), ?_, rfl, hctl, rfl⟩
    exact ((timed_only' s now).mono rfl).trans ((htaken.mono rfl).trans ((State.setMsgs_only _ _).mono rfl))
  case noLink =>
    intro l hl
    exact congrArg Host.Outcome.next (if_neg (by simp [hl]))
  case retransmission =>
    intro l hl hn
    have hlogged : exec (.stitchRetransmit l) s = .next (s.stitchLogged (linkCode l)) :=
      congrArg Host.Outcome.next ((if_pos hl).trans ((State.stitchRetransmit_eq s _).trans (if_neg hn)))
    exact ⟨_, hlogged, State.stitchLogged_only s _, State.stitchLogged_unit s _, fun v hv => State.stitchLogged_other s hv⟩
  case counted =>
    intro l hl hn hfirst
    have hcounted : exec (.stitchRetransmit l) s = .next ((s.stitchLogged (linkCode l)).countedFault (linkCode l)) :=
      congrArg Host.Outcome.next ((if_pos hl).trans ((State.stitchRetransmit_eq s _).trans (if_pos hn)))
    have hunit := State.stitchLogged_unit s (linkCode l)
    obtain ⟨a, b, hledger, hraised, hevents, hcount⟩ :=
      countedFault_new (s.stitchLogged (linkCode l)) (linkCode l) (by rw [hunit]; exact hfirst)
    exact ⟨_, a, b, hcounted, (State.stitchLogged_only s _).trans hledger, hraised, hevents, by rw [hcount, hunit]⟩
  case trains =>
    intro v hw hidle hv
    let armed : State := { s with setup.armed := true }
    let taken := armed.herdEnTaken v.toNat
    have hwrite : armed.writeFabCtrl v.toNat = taken.beginTraining :=
      (State.writeFabCtrl_eq armed v.toNat).trans ((if_pos hv).trans (if_pos hidle))
    have honly : Only [.pend, .setup, .pen, .herd, .msgs] s (armed.writeFabCtrl v.toNat) :=
      ((State.arm_only s).mono rfl).trans (State.writeFabCtrl_only armed _)
    rw [hwrite] at honly
    exact ⟨_, (exec_train hw v).trans (congrArg Host.Outcome.next hwrite), honly, rfl, rfl, State.beginTraining_down taken⟩
  case refused =>
    intro v hw hidle hv
    let armed : State := { s with setup.armed := true }
    let taken := armed.herdEnTaken v.toNat
    have hwrite : armed.writeFabCtrl v.toNat = taken.log 0xA0000 0 .state :=
      (State.writeFabCtrl_eq armed v.toNat).trans ((if_pos hv).trans (if_neg (Bool.eq_false_iff.mp hidle)))
    have honly : Only [.pend, .setup] s (taken.log 0xA0000 0 .state) :=
      ((State.arm_only s).mono rfl).trans (((State.setPending_only armed _).mono rfl).trans ((State.log_only taken _ _ _).mono rfl))
    exact ⟨_, (exec_train hw v).trans (congrArg Host.Outcome.next hwrite), honly, logged_log _ _ _ _⟩
  case herdEn =>
    intro v hw hv
    exact (exec_train hw v).trans (congrArg Host.Outcome.next ((State.writeFabCtrl_eq _ v.toNat).trans (if_neg (Bool.eq_false_iff.mp hv))))
  case noIdent =>
    intro m d h
    exact congrArg Host.Outcome.next (if_pos (by simpa using h))
  case miscabled =>
    intro m d ht hu hbad
    have hident : s.ident k m.toNat d = (s.identSent k).raise 0x5002 (unitEngine k) := (State.ident_training ht hu).trans (if_pos hbad)
    refine ⟨_, congrArg Host.Outcome.next hident, Raised.of_raise (s.identSent k) 0x5002 (unitEngine k) 0 0 false, ?_⟩
    exact ((State.emit_only _ _).mono rfl).trans ((State.raise_only _ _ _ _ _ _).mono rfl)
  case newPeer =>
    intro m d ht hu hgood hnone
    have hident : s.ident k m.toNat d = (s.identSent k).carryPeer k (m.toNat % 8) := by
      rw [State.ident_training ht hu, hgood, hnone]; rfl
    have hcarry : Only [.boot, .tel, .pen, .events] (s.identSent k) ((s.identSent k).carryPeer k (m.toNat % 8)) := State.carryPeer_only _ _ _
    obtain ⟨hpens, hboot⟩ := (s.identSent k).carryPeer_rest k (m.toNat % 8)
    have hpen := (hpens k).trans ((s.identSent k).carried_pen k (m.toNat % 8)).1
    exact ⟨_, congrArg Host.Outcome.next hident, ((State.emit_only _ _).mono rfl).trans (hcarry.mono rfl), congrArg PenEngine.up hpen,
      congrArg PenEngine.valid hpen, hboot, congrArg PenEngine.peer hpen, State.carryPeer_spare (s := s.identSent k), hcarry.get .out⟩
  case knownPeer =>
    intro m d j ht hu hgood hj hne
    have hident : s.ident k m.toNat d = if j < k.val then (s.identSent k).raise 0x5002 (unitEngine k)
        else (((s.identSent k).setPen j (fun x => { x with up := false, valid := false })).carryPeer k (m.toNat % 8)).raise 0x5002
          (unitEngine j) := by
      rw [State.ident_training ht hu, hgood, hj]
      exact if_neg hne
    refine ⟨_, congrArg Host.Outcome.next hident, ?_, fun hlt => ?_, fun hlt => ?_⟩
    · split
      · exact raised_last (Raised.of_raise _ 0x5002 (unitEngine k) 0 0 false)
      · exact raised_last (Raised.of_raise _ 0x5002 (unitEngine j) 0 0 false)
    · rw [if_pos hlt]
      exact ⟨raise_pen _ _ _ _ _ _ k, raise_pen _ _ _ _ _ _ j⟩
    · rw [if_neg (by omega), raise_pen, raise_pen]
      let down := (s.identSent k).setPen j (fun x => { x with up := false, valid := false })
      obtain ⟨hself, hothers⟩ := down.carried_pen k (m.toNat % 8)
      obtain ⟨hpens, -⟩ := down.carryPeer_rest k (m.toNat % 8)
      have hdown := ((hpens j).trans (hothers j hne)).trans (pen_setPen_self (s.identSent k) j _)
      exact ⟨congrArg PenEngine.up ((hpens k).trans hself), congrArg PenEngine.up hdown, congrArg PenEngine.valid hdown⟩
  case noTraining =>
    intro fs ht
    exact congrArg Host.Outcome.next (if_neg (by simp [ht]))
  case trained =>
    intro fs ht
    exact ⟨_, rfl, (State.endTraining_only s fs).mono rfl, State.endTraining_spec ht⟩

end Sys2Proof.Machine
end

section
/-! SUPPORT and CLAIM. Boot and die release (R13, R412, R415, R418, R419, R479, R481, R483): what is read of module flash, what identity and
the SVN leave in the boot and security state, what the release of the dies leaves, and the obligation about them. -/

namespace Sys2Proof.Machine

/-- The security state is the same. -/
theorem Only.sec {m : List Part} {s t : State} (h : Only m s t) (hm : m.contains .sec = false := by rfl)
    (hn : m.contains .jtag = false := by rfl) : t.sec = s.sec := by
  have hsec := h.get .sec hm
  have hjtag := h.get .jtag hn
  simp only [Part.same] at hsec hjtag
  rw [hjtag] at hsec; exact hsec

/-! ## What the boot ROM reads (R13, R483) -/

/-- What flash holds is read, and before the first boot what the command brings. -/
theorem State.readFlash_image (s : State) (b : BootInput) : (s.readFlash b).image = s.boot.image.getD b.image := rfl

/-- The records of Hyram stand as flash holds them. -/
theorem State.readFlash_hyram {s : State} {h : HyramRecords} (hh : s.boot.hyram = some h) (b : BootInput) :
    (s.readFlash b).certs = h.certs ∧ (s.readFlash b).trim = h.trim ∧ (s.readFlash b).vendor = h.vendor
      ∧ (s.readFlash b).stepping = h.stepping := by
  simp [State.readFlash, hh]

/-- The copy of SVN_FLOOR stands as flash holds it. -/
theorem State.readFlash_svnFloor {s : State} {f : Word} (hf : s.boot.svnFloor = some f) (b : BootInput) :
    (s.readFlash b).svnFloor = some f := by
  simp [State.readFlash, hf]

/-! ## Identity and trim (R412 to R415) -/

/-- The state once flash is read and the identity compared. -/
def State.identified (s : State) (r : BootInput) : State := (s.keepFlash r).bootIdentity r

/-- The state once the trim records are measured too. -/
def State.trimmed (s : State) (r : BootInput) : State :=
  { s.identified r with boot.vendor := r.vendor, boot.stepping := r.stepping, sec.trim := Config.sha3 r.trim }

/-- Whether the key that the device secret gives is the one that the module certificate holds. -/
def identityHolds (r : BootInput) : Bool :=
  r.secret.isSome && (r.secret.map (fun ds => Config.identityKey (identitySeed ds))).getD [] == slice r.certs 64 1312

/-- What reading flash and the identity leave in the boot block. -/
theorem State.identified_boot (s : State) (r : BootInput) : (s.identified r).boot = { s.boot with
    hyram := some ⟨r.certs, r.trim, r.vendor, r.stepping⟩, image := some r.image
    serial := BitVec.ofNat 64 (field r.certs 8 8) } := by
  unfold State.identified State.bootIdentity State.keepFlash
  dsimp only
  split <;> simp

/-- What the identity leaves of the security state. -/
theorem State.identified_sec (s : State) (r : BootInput) :
    (s.identified r).sec.mode = s.sec.mode ∧ (s.identified r).sec.idOk = identityHolds r := by
  unfold State.identified State.bootIdentity State.keepFlash identityHolds
  dsimp only
  split <;> simp

/-- The identity changes the boot and security state, and raises an event. -/
theorem State.identified_only (s : State) (r : BootInput) : Only [.boot, .sec, .tel, .events] s (s.identified r) :=
  ((State.keepFlash_only s r).mono rfl).trans ((State.bootIdentity_only _ r).mono rfl)

/-- The trim records change nothing more. -/
theorem State.trimmed_only (s : State) (r : BootInput) : Only [.boot, .sec, .tel, .events] s (s.trimmed r) := by
  refine (State.identified_only s r).trans ⟨rfl, fun p => ?_⟩
  cases p
  case boot | sec => exact .inl (by decide)
  all_goals exact .inr (by simp [Part.same, State.trimmed])

/-- BOOT with the tack room in its ROM: bad trim, an image that does not run, or the release of the dies. -/
theorem State.bootRom_of_rom {s : State} (hrom : s.boot.stage = .rom) (hroom : s.pwr.tackRoom = true) {b r : BootInput}
    (hr : s.readFlash b = r) : s.bootRom b =
      if !r.trimOk then (s.identified r).bootFailed 4
      else if !r.flashReadOk then (s.trimmed r).enterRecovery 3
      else if fwHeaderBad r.image then (s.trimmed r).enterRecovery 1
      else if fwHashBad r.image then (s.trimmed r).enterRecovery 2
      else (s.trimmed r).releaseDies r := by
  unfold State.bootRom
  rw [if_neg (by simp [hrom, hroom]), hr]
  rfl

/-! ## SVN (R419) -/

/-- The state once the image is measured and its SVN compared with the floor. -/
def State.svnChecked (s : State) (r : BootInput) : State := ({ s with sec.fw := fwMeasure r.image } : State).bootSvn r.image r.svnFloor

/-- What the SVN leaves in the boot block. -/
theorem State.svnChecked_boot (s : State) (r : BootInput) :
    (s.svnChecked r).boot.version = fwVersionOf r.image ∧ (s.svnChecked r).boot.image = s.boot.image := by
  unfold State.svnChecked State.bootSvn
  dsimp only
  split <;> simp

/-- What the measurement and the SVN leave in the security state. -/
theorem State.svnChecked_sec (s : State) (r : BootInput) :
    (s.svnChecked r).sec.fw = fwMeasure r.image ∧ (s.svnChecked r).sec.trim = s.sec.trim ∧ (s.svnChecked r).sec.svn = fwSvn r.image
      ∧ (s.svnChecked r).sec.svnLow = decide ((fwSvn r.image).toNat < (r.svnFloor.getD (fwSvn r.image)).toNat)
      ∧ (s.svnChecked r).sec.mode = s.sec.mode ∧ (s.svnChecked r).sec.idOk = s.sec.idOk := by
  unfold State.svnChecked State.bootSvn
  dsimp only
  split <;> simp

/-- The SVN leaves the memories. -/
theorem State.svnChecked_mem (s : State) (r : BootInput) : (s.svnChecked r).mem = s.mem :=
  (State.bootSvn_only { s with sec.fw := fwMeasure r.image } r.image r.svnFloor).mem

/-! ## The release of the dies (R317, R479) -/

/-- A stack after a change of one. -/
theorem State.stack_setStack (s : State) (k j : Nat) (f : Stack → Stack) :
    (s.setStack k f).stack j = if k = j then f (s.stack k) else s.stack j := by
  unfold State.setStack State.stack
  rw [NMap.getD_modify]

/-- A stack is the same. -/
theorem Only.stack {m : List Part} {s t : State} (h : Only m s t) (k : Nat) (hm : m.contains .channels = false := by rfl) :
    t.stack k = s.stack k := by
  obtain ⟨-, hrecs, -⟩ := h.get .channels hm
  unfold State.stack; rw [hrecs]

/-- A port that replays empties its own write buffer and leaves the others. -/
theorem State.replayPort_buffer (s : State) (k j : Nat) :
    ((s.replayPort k).stack j).buffer = if k = j then [] else (s.stack j).buffer := by
  unfold State.replayPort
  extract_lets es n s1
  have hreplayed : Only [.stats, .tel, .hbm, .events] s (es.foldl State.replayEntry s) := Only.foldl State.replayEntry_only es s
  have hs1 : (s1.stack j).buffer = if k = j then [] else (s.stack j).buffer := by
    rw [State.stack_setStack, hreplayed.stack j]
    split <;> rfl
  split
  · exact hs1
  · rw [(State.raise_only s1 0x4103 0 k n false).stack j]; exact hs1

/-- Once the ports below n have replayed, their write buffers are empty. -/
theorem State.replayPorts_buffer (s : State) (n : Nat) : ∀ k, k < n → (((List.range n).foldl State.replayPort s).stack k).buffer = [] := by
  induction n with
  | zero => exact fun k hk => absurd hk (Nat.not_lt_zero k)
  | succ n ih =>
    intro k hk
    rw [List.range_succ, List.foldl_append, List.foldl_cons, List.foldl_nil, State.replayPort_buffer]
    split
    · rfl
    · exact ih k (by omega)

/-- What the release leaves behind the check of the SVN: power-on, replay and training change neither the boot and security state nor the
keys, and the twelve write buffers are empty. -/
theorem State.releaseDies_spec (s : State) (r : BootInput) :
    (s.releaseDies r).boot = { (s.svnChecked r).boot with stage := .releasing, released := List.range 64, started := [] }
      ∧ (s.releaseDies r).sec = (s.svnChecked r).sec ∧ (s.releaseDies r).mem.keyGen = s.mem.keyGen
      ∧ ∀ k, k < 12 → ((s.releaseDies r).stack k).buffer = [] := by
  unfold State.releaseDies
  extract_lets _ s1 s2 s3
  have hs2 : Only [.halt, .tel, .channels, .events, .ledger, .powerEvents] s1 s2 :=
    Only.ite (fun _ => State.powerOn_only s1 r) (fun _ => Only.refl s1)
  have hports : Only [.stats, .tel, .hbm, .channels, .events] s2 ((List.range 12).foldl State.replayPort s2) :=
    Only.foldl State.replayPort_only _ _
  have htrain : Only [.pen, .herd, .msgs] _ s3 := State.beginTraining_only _
  have hs3 : Only [.halt, .stats, .tel, .hbm, .channels, .pen, .herd, .msgs, .events, .ledger, .powerEvents] s1 s3 :=
    (hs2.mono rfl).trans ((hports.mono rfl).trans (htrain.mono rfl))
  have hboot : s3.boot = s1.boot := hs3.get .boot
  have hsec : s3.sec = s1.sec := hs3.sec
  have hkeys : s3.mem.keyGen = s1.mem.keyGen := (hs3.get .mem).2.1
  have hempty : ∀ k, k < 12 → (s3.stack k).buffer = [] := fun k hk =>
    (congrArg Stack.buffer (htrain.stack k)).trans (State.replayPorts_buffer s2 12 k hk)
  clear_value s3
  exact ⟨congrArg (fun x : BootState => { x with stage := .releasing, released := List.range 64, started := [] }) hboot, hsec,
    hkeys.trans (congrArg MemState.keyGen (State.svnChecked_mem s r)), hempty⟩

/-! ## The ways a boot goes -/

/-- Bad trim: FAILED with FAIL 4 (R412, R475). -/
theorem State.bootFailed_spec (s : State) (r : BootInput) : Only [.boot, .sec, .tel, .events] s ((s.identified r).bootFailed 4)
    ∧ ((s.identified r).bootFailed 4).boot.image = some r.image
    ∧ ((s.identified r).bootFailed 4).boot.hyram = some ⟨r.certs, r.trim, r.vendor, r.stepping⟩ :=
  ⟨(State.identified_only s r).trans ((State.bootFailed_only _ 4).mono rfl),
    congrArg BootState.image (State.identified_boot s r), congrArg BootState.hyram (State.identified_boot s r)⟩

/-- RECOVERY from an image that does not run: the keys are cleared and change their generation (R481). -/
theorem State.recovery_spec (s : State) (r : BootInput) {f : Nat} (hf : f < 256) :
    Only [.boot, .sec, .mem, .tel, .events] s ((s.trimmed r).enterRecovery f)
      ∧ ((s.trimmed r).enterRecovery f).boot.fail.toNat = f ∧ ((s.trimmed r).enterRecovery f).mem.keyGen = s.mem.keyGen + 1 :=
  ⟨((State.trimmed_only s r).mono rfl).trans ((State.enterRecovery_only _ f).mono rfl), Nat.mod_eq_of_lt hf,
    congrArg (fun m : MemState => m.keyGen + 1) (State.trimmed_only s r).mem⟩

/-- An image that does not run gives RECOVERY with the number of what failed (R481). -/
theorem State.bootRom_recovery {s : State} (hrom : s.boot.stage = .rom) (hroom : s.pwr.tackRoom = true) {b r : BootInput}
    (hr : s.readFlash b = r) (htrim : r.trimOk = true) {f : Nat}
    (hf : (f = 3 ∧ r.flashReadOk = false) ∨ (f = 1 ∧ r.flashReadOk = true ∧ fwHeaderBad r.image = true)
      ∨ (f = 2 ∧ r.flashReadOk = true ∧ fwHeaderBad r.image = false ∧ fwHashBad r.image = true)) :
    s.bootRom b = (s.trimmed r).enterRecovery f := by
  rw [State.bootRom_of_rom hrom hroom hr]
  rcases hf with ⟨rfl, hread⟩ | ⟨rfl, hread, hheader⟩ | ⟨rfl, hread, hheader, hhash⟩
  · simp [htrim, hread]
  · simp [htrim, hread, hheader]
  · simp [htrim, hread, hheader, hhash]

/-- An image that runs gives the release of the dies (R479). -/
theorem State.bootRom_release {s : State} (hrom : s.boot.stage = .rom) (hroom : s.pwr.tackRoom = true) {b r : BootInput}
    (hr : s.readFlash b = r) (htrim : r.trimOk = true) (hread : r.flashReadOk = true) (hheader : fwHeaderBad r.image = false)
    (hhash : fwHashBad r.image = false) : s.bootRom b = (s.trimmed r).releaseDies r := by
  rw [State.bootRom_of_rom hrom hroom hr]
  simp [htrim, hread, hheader, hhash]

/-! ## Dies that start (R479) -/

/-- A die counts once, while dies are released: with the last of 64 the module is READY. -/
theorem State.dieStarted_new {s : State} {d : Nat} (hstage : s.boot.stage = .releasing) (hd : s.boot.started.contains d = false) :
    s.dieStarted d = if s.boot.started.length = 63 then { s with boot.started := d :: s.boot.started, boot.stage := .ready }
      else { s with boot.started := d :: s.boot.started } := by
  unfold State.dieStarted
  rw [if_neg (by simpa [hstage] using hd)]
  simp

/-- Settles O56: each way of a boot by its equation of `State.bootRom`, and what it leaves by the laws of its stages. -/
theorem bootSequence : Obligations.BootSequence := by
  intro s b r hr
  refine ⟨?image, ?firstImage, ?hyram, ?floor, ?noBoot, fun hrom hroom => ⟨?badTrim, ?recovery, ?release⟩, ?noDie, ?die⟩
  case image => intro i hi; rw [← hr, State.readFlash_image, hi]; rfl
  case firstImage => intro hi; rw [← hr, State.readFlash_image, hi]; rfl
  case hyram => intro h hh; rw [← hr]; exact State.readFlash_hyram hh b
  case floor => intro f hf; rw [← hr]; exact State.readFlash_svnFloor hf b
  case noBoot =>
    intro h
    exact congrArg Host.Outcome.next (if_pos (by simpa using h))
  case badTrim =>
    intro htrim
    have hboot : s.bootRom b = (s.identified r).bootFailed 4 := by rw [State.bootRom_of_rom hrom hroom hr]; simp [htrim]
    obtain ⟨honly, himage, hhyram⟩ := State.bootFailed_spec s r
    exact ⟨_, congrArg Host.Outcome.next hboot, honly, rfl, rfl, himage, hhyram⟩
  case recovery =>
    intro htrim f hf
    have hlt : f < 256 := by omega
    obtain ⟨honly, hfail, hkeys⟩ := State.recovery_spec s r hlt
    exact ⟨_, congrArg Host.Outcome.next (State.bootRom_recovery hrom hroom hr htrim hf), honly, rfl, hfail, rfl, rfl, rfl, rfl, hkeys⟩
  case release =>
    intro htrim hread hheader hhash
    obtain ⟨hboot, hsec, hkeys, hbuffers⟩ := State.releaseDies_spec (s.trimmed r) r
    obtain ⟨hversion, himage⟩ := State.svnChecked_boot (s.trimmed r) r
    obtain ⟨hfw, hmeasured, hsvn, hlow, hmode, hid⟩ := State.svnChecked_sec (s.trimmed r) r
    obtain ⟨hmode', hid'⟩ := State.identified_sec s r
    have himage' : (s.trimmed r).boot.image = some r.image := congrArg BootState.image (State.identified_boot s r)
    have hidentity : ((s.trimmed r).releaseDies r).sec.idOk = identityHolds r := by rw [hsec, hid]; exact hid'
    refine ⟨_, congrArg Host.Outcome.next (State.bootRom_release hrom hroom hr htrim hread hheader hhash), ?stage, ?released, ?started,
      ?fw, ?trim, ?svn, ?version, ?flash, ?svnLow, ?mode, ?keys, hbuffers, ?noSecret, ?secret⟩
    case stage | released | started => rw [hboot]
    case fw => rw [hsec, hfw]
    case trim => rw [hsec, hmeasured]; rfl
    case svn => rw [hsec, hsvn]
    case version => rw [hboot]; exact hversion
    case flash => rw [hboot]; exact himage.trans himage'
    case svnLow => rw [hsec, hlow]
    case mode => rw [hsec, hmode]; exact hmode'
    case keys => rw [hkeys, (State.trimmed_only s r).mem]
    case noSecret => intro hnone; rw [hidentity]; simp [identityHolds, hnone]
    case secret => intro ds hds; rw [hidentity]; simp [identityHolds, hds]
  case noDie =>
    intro d h
    have hno : ¬(s.boot.stage = .releasing ∧ s.boot.started.contains d.val = false) := by
      rintro ⟨hstage, hd⟩
      rcases h with h | h
      · exact h hstage
      · exact absurd (h.symm.trans hd) (by decide)
    exact ⟨congrArg Host.Outcome.next (if_pos h), congrArg Host.Outcome.next (if_neg (by simpa using hno))⟩
  case die =>
    intro d hstage hd
    refine ⟨fun hlen => ?_, fun hlen => ?_, congrArg Host.Outcome.next (if_pos ⟨hstage, by simpa using hd⟩)⟩
    · exact congrArg Host.Outcome.next ((State.dieStarted_new hstage hd).trans (if_neg hlen))
    · exact congrArg Host.Outcome.next ((State.dieStarted_new hstage hd).trans (if_pos hlen))

end Sys2Proof.Machine
end

section
/-! SUPPORT and CLAIM. The step counter (R50): which commands leave it, what takes it to 0, what a tick makes of it, and the
obligation about it. -/

-- Checked one theorem at a time: the package as one text then needs less memory.
set_option Elab.async false

namespace Sys2Proof.Machine

/-! ## The counter stays, or reads 0 -/

/-- The step counter is the same, or it reads 0. -/
def StepStill (s t : State) : Prop := t.seq.step = s.seq.step ∨ t.seq.step = 0

theorem StepStill.refl (s : State) : StepStill s s := .inl rfl

theorem StepStill.trans {s t u : State} (h : StepStill s t) (k : StepStill t u) : StepStill s u := by
  rcases k with k | k
  · rcases h with h | h
    · exact .inl (k.trans h)
    · exact .inr (k.trans h)
  · exact .inr k

/-- An operation that does not touch the counter. -/
theorem Only.stepStill {m : List Part} {s t : State} (h : Only m s t) (hm : m.contains .step = false := by rfl) : StepStill s t :=
  .inl (h.get .step hm)

/-- A conditional operation. -/
theorem StepStill.ite {s a b : State} {c : Prop} [Decidable c] (h : StepStill s a) (k : StepStill s b) : StepStill s (if c then a else b) := by
  split
  · exact h
  · exact k

/-- The state that a command answers with. -/
theorem StepStill.next {s a t : State} (h : StepStill s a) (k : (Host.Outcome.next a : Host.Outcome State Fault Refusal) = .next t) :
    StepStill s t := by
  injection k with k
  exact k ▸ h

/-- The saddle's loss takes the counter to 0 with the other registers (R440). -/
theorem State.saddleLost_stepStill (s : State) : StepStill s s.saddleLost := .inr rfl

/-- A module reset takes it to 0 too (R478). -/
theorem State.moduleReset_stepStill (s : State) : StepStill s s.moduleReset := .inr rfl

/-- LOCKOUT loses a powered saddle, and nothing else of it moves the counter (R441). -/
theorem State.lockOut_stepStill (s : State) (code : Nat) : StepStill s (s.lockOut code) := by
  unfold State.lockOut
  extract_lets s1
  have h1 : StepStill s s1 := .ite (State.saddleLost_stepStill s) (.refl s)
  clear_value s1
  have hevent := (State.powerEvent_only { s1 with pwr.ctl := .lockout, pwr.rearmed := false, pwr.cycleAt := none } code 0).stepStill
  exact StepStill.trans h1 hevent

/-- The end of STOPPING loses the saddle (R440). -/
theorem State.railsOff_stepStill (s : State) (hours hot : Nat) : StepStill s (s.railsOff hours hot) := by
  unfold State.railsOff
  refine .ite (.refl s) ?_
  exact .trans (t := ({ ((({ s with pwr.wearOn := satAdd s.pwr.wearOn hours } : State).hotHours hot).saddleLost) with pwr.ctl := .standby } : State))
    (.inr rfl) (State.powerWait_only _).stepStill

/-! ## Writes of the window -/

/-- What the window makes of a write: nothing but its own log, ports and events, or one of the write's two effects (R464 to R471). -/
def WindowCase (s t : State) (off : Nat) (l u : State → State) : Prop :=
  ∃ s0 : State, Only [.out, .setup, .ports, .tel, .events] s s0 ∧ (t = s0 ∨ t = (l s0).log off 0 .locked ∨ t = u s0)

/-- A write that has no effect of its own. -/
theorem WindowCase.own {s t : State} {off : Nat} {l u : State → State} (h : Only [.out, .setup, .ports, .tel, .events] s t) :
    WindowCase s t off l u := ⟨t, h, .inl rfl⟩

/-- A write past the views ends in one of these ways (R465, R466, R471). -/
theorem State.guardedWrite_cases {s s0 : State} (armed : Bool) (off v : Nat) (r : Reg) (l u : State → State)
    (h : Only [.out, .setup, .ports, .tel, .events] s s0) : WindowCase s (s0.guardedWrite armed off v r l u) off l u := by
  unfold State.guardedWrite
  split
  · exact .own (h.trans ((State.denied_only _ _ _).mono rfl))
  split
  · exact .own (h.trans ((State.busyWrite_only _ _).mono rfl))
  split
  · exact .own (h.trans ((State.log_only _ _ _ _).mono rfl))
  split
  · exact ⟨s0, h, .inr (.inl rfl)⟩
  · exact ⟨s0, h, .inr (.inr rfl)⟩

/-- Every write of the window ends in one of these ways. -/
theorem State.windowWrite_cases (s : State) (port off width v : Nat) (l u : State → State) :
    WindowCase s (s.windowWrite port off width v l u) off l u := by
  unfold State.windowWrite
  extract_lets armed _ s0
  have h : Only [.out, .setup, .ports, .tel, .events] s s0 :=
    Only.ite (fun _ => (State.arm_only s).mono rfl) (fun _ => Only.refl s)
  clear_value s0
  split
  · exact .own (Only.refl s)
  split
  · exact .own (h.trans ((State.log_only _ _ _ _).mono rfl))
  split
  · exact .own (h.trans ((State.writeMsix_only _ _ _ _).mono rfl))
  · exact .own h
  split
  · exact .own (h.trans ((State.denied_only _ _ _).mono rfl))
  split
  · exact .own (h.trans ((State.log_only _ _ _ _).mono rfl))
  split
  · split
    · exact .own (h.trans ((State.busyWrite_only _ _).mono rfl))
    · exact .own (h.trans ((State.log_only _ _ _ _).mono rfl))
  · exact State.guardedWrite_cases armed off v _ l u h

/-- A write whose two effects leave the counter, or take it to 0, does so too. -/
theorem State.windowWrite_stepStill (s : State) (port off width v : Nat) {l u : State → State} (hl : ∀ t, StepStill t (l t))
    (hu : ∀ t, StepStill t (u t)) : StepStill s (s.windowWrite port off width v l u) := by
  obtain ⟨s0, h, hcase⟩ := s.windowWrite_cases port off width v l u
  have h0 : StepStill s s0 := h.stepStill
  rcases hcase with e | e | e <;> rw [e]
  · exact h0
  · exact h0.trans ((hl s0).trans (State.log_only _ _ _ _).stepStill)
  · exact h0.trans (hu s0)

/-- RECOVER resets the module, or leaves the counter (R481). -/
theorem State.cmdRecover_stepStill (s : State) (img : FwImage) : StepStill s (s.cmdRecover img) := by
  unfold State.cmdRecover
  refine .ite (State.refuseCmd_only s 5 0).stepStill ?_
  extract_lets s1
  have h1 : StepStill s s1 :=
    (Only.of (State.readImage_only _) rfl ((State.beginCmd_only s 5).mono rfl) : Only [.out, .setup] s s1).stepStill
  clear_value s1
  have hfail : ∀ (t : State) (code : Nat), StepStill s1 t → StepStill s ((t.raise code unitTackRoom).endCmd code) := fun t code ht =>
    h1.trans (ht.trans ((State.raise_only _ _ _ _ _ _).stepStill.trans (State.endCmd_only _ _).stepStill))
  split
  · exact h1.trans (State.endCmd_only _ _).stepStill
  · exact .ite (hfail _ _ (.refl _)) (.ite (hfail _ _ (.inl rfl)) (.ite (hfail _ _ (.inl rfl)) (.inr rfl)))

/-- The setup commands move the counter by a module reset alone (R472, R478). -/
theorem State.writeSetupCmd_stepStill (s : State) (v : Nat) (img : FwImage) : StepStill s (s.writeSetupCmd v img) := by
  unfold State.writeSetupCmd
  split
  · exact (State.cmdPlanLoad_only s).stepStill
  · exact (State.cmdFwUpdate_only s).stepStill
  · exact (State.cmdErase_only s).stepStill
  · exact .ite (State.refuseCmd_only s 4 0).stepStill s.moduleReset_stepStill
  · exact State.cmdRecover_stepStill s img
  · exact (State.log_only s _ _ _).stepStill

/-- A write of SETUP_CMD through the window. -/
theorem State.setupCommand_stepStill (s : State) (port v : Nat) (img : FwImage) : StepStill s (s.setupCommand port v img) :=
  s.windowWrite_stepStill port 0x1000C 4 v (fun t => .refl t) (fun t => t.writeSetupCmd_stepStill v img)

/-- A write of any register moves it by SETUP_CMD's module reset alone. -/
theorem State.writeReg_stepStill (s : State) (r : Reg) (v : Nat) (guarded : Bool) : StepStill s (s.writeReg r v guarded) := by
  have hbuffered : ∀ r, StepStill s (s.writeBuffered r v) := fun r => (State.writeBuffered_only s r v).stepStill
  unfold State.writeReg
  split
  · exact (State.writeTickCtrl_only s v guarded).stepStill
  · exact (State.writeTickPeriod_only s v).stepStill
  · exact (State.writeSeqCtrl_only s v guarded).stepStill
  · exact (State.writeMemCtrl_only s v guarded).stepStill
  · exact (State.writeRegulator_only s _ false v).stepStill
  · exact (State.writeRegulator_only s _ true v).stepStill
  · exact (State.writeUnlock_only s v).stepStill
  · exact (State.writeApply_only s v).stepStill
  · exact .ite (.refl s) (s.writeSetupCmd_stepStill v _)
  · exact .ite (.refl s) (State.writeSecCmd_only s v _).stepStill
  · exact (State.writeQCmd_only s v).stepStill
  · exact (State.writeGroupCfg_only s v).stepStill
  · exact (State.writeAux_only s v).stepStill
  · exact (State.writeFabCtrl_only s v).stepStill
  · exact .ite (.refl s) (hbuffered _)
  · exact .ite (.refl s) (hbuffered _)
  · exact .ite (.refl s) (hbuffered _)
  · exact .ite (.refl s) (hbuffered _)
  · exact hbuffered _

/-- The write of a register at an offset. -/
theorem State.writeAt_stepStill (s : State) (off v : Nat) (guarded : Bool) : StepStill s (s.writeAt off v guarded) := by
  unfold State.writeAt
  split
  · exact s.writeReg_stepStill _ v guarded
  · exact .refl s

/-! ## Every command but a tick -/

/-- Extraction loses a powered saddle (R442). -/
theorem execModuleExtraction_stepStill {s t : State} (h : execModuleExtraction s = .next t) : StepStill s t := by
  unfold execModuleExtraction at h
  extract_lets s1 at h
  have h1 : StepStill s s1 := .ite s.saddleLost_stepStill (.refl s)
  clear_value s1
  exact .next (a := { s1 with pwr.inserted := false, pwr.pwrEn := false, pwr.flow := 0, pwr.ctl := .standby, pwr.waitRaised := false }) h1 h

/-- No command but a tick moves the counter but to 0. -/
theorem exec_stepStill {c : Instr} {s t : State} (h : exec c s = .next t) (hc : ∀ now p, c ≠ .localTick now p ∧ c ≠ .tickInEdge now p) :
    StepStill s t := by
  cases c with
  | localTick now p => exact absurd rfl (hc now p).1
  | decisionPoint => exact (execDecisionPoint_only h).stepStill
  | decisionMessage => exact (execDecisionMessage_only h).stepStill
  | timeTransfer => exact (execTimeTransfer_only h).stepStill
  | tickHoldover => exact (execTickHoldover_only h).stepStill
  | tickLost => exact (execTickLost_only h).stepStill
  | tickInEdge now p => exact absurd rfl (hc now p).2
  | done => exact (execDone_only h).stepStill
  | excessDeclaration => exact (execExcessDeclaration_only h).stepStill
  | start => exact (execStart_only h).stepStill
  | stop => exact (execStop_only h).stepStill
  | gatherPhaseStart => exact (execGatherPhaseStart_only h).stepStill
  | denseForwardStart => exact (execDenseForwardStart_only h).stepStill
  | backwardStart => exact (execBackwardStart_only h).stepStill
  | gradientExchangeStart => exact (execGradientExchangeStart_only h).stepStill
  | mergePhaseStart => exact (execMergePhaseStart_only h).stepStill
  | phase6End => exact (execPhase6End_only h).stepStill
  | updateSweepStart => exact (execUpdateSweepStart_only h).stepStill
  | sweepEnd => exact (execSweepEnd_only h).stepStill
  | tailSlotEnd => exact (execTailSlotEnd_only h).stepStill
  | stepRecord => exact (execStepRecord_only h).stepStill
  | tickPeriod => exact (execTickPeriod_only h).stepStill
  | tickCtrl => exact (execTickCtrl_only h).stepStill
  | stepLoRead => exact (execStepLoRead_only h).stepStill
  | evtTailLoRead => exact (execEvtTailLoRead_only h).stepStill
  | lifeStepsLoRead => exact (execLifeStepsLoRead_only h).stepStill
  | groupPoll => exact (execGroupPoll_only h).stepStill
  | descriptorFetched => exact (execDescriptorFetched_only h).stepStill
  | lapReread => exact (execLapReread_only h).stepStill
  | hostReadCompletion => exact (execHostReadCompletion_only h).stepStill
  | hostReadTimeout => exact (execHostReadTimeout_only h).stepStill
  | trainBatch => exact (execTrainBatch_only h).stepStill
  | evalBatch => exact (execEvalBatch_only h).stepStill
  | tableLoadDescriptor => exact (execTableLoadDescriptor_only h).stepStill
  | tableLoadRecords => exact (execTableLoadRecords_only h).stepStill
  | tableLoadBinary32 => exact (execTableLoadBinary32_only h).stepStill
  | tableStaging => exact (execTableStaging_only h).stepStill
  | stagingFillEnd => exact (execStagingFillEnd_only h).stepStill
  | tableSwap => exact (execTableSwap_only h).stepStill
  | tableSwapDiscard => exact (execTableSwapDiscard_only h).stepStill
  | exportArm => exact (execExportArm_only h).stepStill
  | exportArmStop => exact (execExportArmStop_only h).stepStill
  | fence => exact (execFence_only h).stepStill
  | fenceCompletion => exact (execFenceCompletion_only h).stepStill
  | telemetrySnapshot => exact (execTelemetrySnapshot_only h).stepStill
  | nop => exact (execNop_only h).stepStill
  | completionRecord => exact (execCompletionRecord_only h).stepStill
  | msixHoldoffEnd => exact (execMsixHoldoffEnd_only h).stepStill
  | telemetryEntry => exact (execTelemetryEntry_only h).stepStill
  | exportEntry => exact (execExportEntry_only h).stepStill
  | arm => exact (execArm_only h).stepStill
  | disarm => exact (execDisarm_only h).stepStill
  | disarmEnd => exact (execDisarmEnd_only h).stepStill
  | groupCfg => exact (execGroupCfg_only h).stepStill
  | portLinkDown => exact (execPortLinkDown_only h).stepStill
  | portRetrain => exact (execPortRetrain_only h).stepStill
  | linkDownTimeout => exact (execLinkDownTimeout_only h).stepStill
  | hostReset _ cause => exact (execHostReset_only (x1 := cause) h).stepStill
  | surpriseRemoval => exact (execSurpriseRemoval_only h).stepStill
  | portUp => exact (execPortUp_only h).stepStill
  | unsupportedRequest => exact (execUnsupportedRequest_only h).stepStill
  | separate => exact (execSeparate_only h).stepStill
  | aggregate => exact (execAggregate_only h).stepStill
  | gatherRows line => exact (execGatherRows_only (x0 := line) h).stepStill
  | pool => exact (execPool_only h).stepStill
  | rowCacheFill => exact (execRowCacheFill_only h).stepStill
  | mma => exact (execMma_only h).stepStill
  | join => exact (execJoin_only h).stepStill
  | read => exact (execRead_only h).stepStill
  | store => exact (execStore_only h).stepStill
  | clear => exact (execClear_only h).stepStill
  | status => exact (execStatus_only h).stepStill
  | vectorOperation => exact (execVectorOperation_only h).stepStill
  | rowOperation => exact (execRowOperation_only h).stepStill
  | attend => exact (execAttend_only h).stepStill
  | attendBack => exact (execAttendBack_only h).stepStill
  | send => exact (execSend_only h).stepStill
  | allToAll => exact (execAllToAll_only h).stepStill
  | reduce => exact (execReduce_only h).stepStill
  | allGather => exact (execAllGather_only h).stepStill
  | gather => exact (execGather_only h).stepStill
  | ringPass => exact (execRingPass_only h).stepStill
  | firstRead => exact (execFirstRead_only h).stepStill
  | add => exact (execAdd_only h).stepStill
  | sub => exact (execSub_only h).stepStill
  | mul => exact (execMul_only h).stepStill
  | fma => exact (execFma_only h).stepStill
  | fms => exact (execFms_only h).stepStill
  | rcp => exact (execRcp_only h).stepStill
  | rsq => exact (execRsq_only h).stepStill
  | max => exact (execMax_only h).stepStill
  | min => exact (execMin_only h).stepStill
  | neg => exact (execNeg_only h).stepStill
  | abs => exact (execAbs_only h).stepStill
  | mov => exact (execMov_only h).stepStill
  | ceq => exact (execCeq_only h).stepStill
  | clt => exact (execClt_only h).stepStill
  | cle => exact (execCle_only h).stepStill
  | cun => exact (execCun_only h).stepStill
  | sel => exact (execSel_only h).stepStill
  | ldc => exact (execLdc_only h).stepStill
  | ldf => exact (execLdf_only h).stepStill
  | stf => exact (execStf_only h).stepStill
  | lds => exact (execLds_only h).stepStill
  | red => exact (execRed_only h).stepStill
  | qprep => exact (execQprep_only h).stepStill
  | wacc => exact (execWacc_only h).stepStill
  | wcopy => exact (execWcopy_only h).stepStill
  | sect => exact (execSect_only h).stepStill
  | churnNop c => exact (execChurnNop_only (x0 := c) h).stepStill
  | recordWriteVerified => exact (execRecordWriteVerified_only h).stepStill
  | sweepTakeover => exact (execSweepTakeover_only h).stepStill
  | appendDone => exact (execAppendDone_only h).stepStill
  | digestCompare => exact (execDigestCompare_only h).stepStill
  | dataFlit => exact (execDataFlit_only h).stepStill
  | controlFlit => exact (execControlFlit_only h).stepStill
  | timeFlit => exact (execTimeFlit_only h).stepStill
  | retryReq => exact (execRetryReq_only h).stepStill
  | linkRetrain => exact (execLinkRetrain_only h).stepStill
  | penRetrain => exact (execPenRetrain_only h).stepStill
  | stitchRetransmit => exact (execStitchRetransmit_only h).stepStill
  | train => exact (execTrain_only h).stepStill
  | ident => exact (execIdent_only h).stepStill
  | dataPacket => exact (execDataPacket_only h).stepStill
  | xon => exact (execXon_only h).stepStill
  | ackPacket => exact (execAckPacket_only h).stepStill
  | nak => exact (execNak_only h).stepStill
  | timePacket => exact (execTimePacket_only h).stepStill
  | controlPacket => exact (execControlPacket_only h).stepStill
  | standaloneAck => exact (execStandaloneAck_only h).stepStill
  | gapPersists => exact (execGapPersists_only h).stepStill
  | retransmission => exact (execRetransmission_only h).stepStill
  | ackProgressTimeout => exact (execAckProgressTimeout_only h).stepStill
  | rateRecovery => exact (execRateRecovery_only h).stepStill
  | pfcFrame => exact (execPfcFrame_only h).stepStill
  | herdPfcStorm => exact (execHerdPfcStorm_only h).stepStill
  | pauseFrame => exact (execPauseFrame_only h).stepStill
  | herdPortDown => exact (execHerdPortDown_only h).stepStill
  | pcsLock => exact (execPcsLock_only h).stepStill
  | joinMessage => exact (execJoinMessage_only h).stepStill
  | mapDigest => exact (execMapDigest_only h).stepStill
  | peerAbsent => exact (execPeerAbsent_only h).stepStill
  | blockRead => exact (execBlockRead_only h).stepStill
  | recordWrite => exact (execRecordWrite_only h).stepStill
  | stackWriteAck => exact (execStackWriteAck_only h).stepStill
  | regulatedIssue => exact (execRegulatedIssue_only h).stepStill
  | retrainRequest => exact (execRetrainRequest_only h).stepStill
  | retrainOverdue => exact (execRetrainOverdue_only h).stepStill
  | retrainDone => exact (execRetrainDone_only h).stepStill
  | retrainNow => exact (execRetrainNow_only h).stepStill
  | stackTempSample => exact (execStackTempSample_only h).stepStill
  | regRate => exact (execRegRate_only h).stepStill
  | witnessReq => exact (execWitnessReq_only h).stepStill
  | witnessWork => exact (execWitnessWork_only h).stepStill
  | witnessResult => exact (execWitnessResult_only h).stepStill
  | resend => exact (execResend_only h).stepStill
  | lifetimeCountWrite => exact (execLifetimeCountWrite_only h).stepStill
  | trWatchdog => exact (execTrWatchdog_only h).stepStill
  | certs => exact (execCerts_only h).stepStill
  | report => exact (execReport_only h).stepStill
  | reportKem => exact (execReportKem_only h).stepStill
  | keyLoad => exact (execKeyLoad_only h).stepStill
  | exit => exact (execExit_only h).stepStill
  | bypass => exact (execBypass_only h).stepStill
  | idcode => exact (execIdcode_only h).stepStill
  | samplePreload => exact (execSamplePreload_only h).stepStill
  | extest => exact (execExtest_only h).stepStill
  | debug => exact (execDebug_only h).stepStill
  | auxPowerUp => exact (execAuxPowerUp_only h).stepStill
  | moduleInsertion => exact (execModuleInsertion_only h).stepStill
  | moduleExtraction => exact execModuleExtraction_stepStill h
  | pwrEnRise => exact (execPwrEnRise_only h).stepStill
  | powering => exact (execPowering_only h).stepStill
  | bulkCharged => exact (execBulkCharged_only h).stepStill
  | pwrgd => exact (execPwrgd_only h).stepStill
  | railRegulationTimeout => exact .next (.ite (.inr rfl) (.refl s)) h
  | pwrEnFall => exact (execPwrEnFall_only h).stepStill
  | railsOff hours hot => exact .next (s.railsOff_stepStill hours hot) h
  | tripWaitEnd => exact (execTripWaitEnd_only h).stepStill
  | vinUv => exact .next (State.lockOut_stepStill { s with pwr.vinOk := false } 0x9003) h
  | vinOv => exact .next (State.lockOut_stepStill { s with pwr.vinOk := false } 0x9004) h
  | vinLow => exact (execVinLow_only h).stepStill
  | vinHigh => exact (execVinHigh_only h).stepStill
  | vinRated => exact (execVinRated_only h).stepStill
  | pwrOcp => exact .next (s.lockOut_stepStill 0x9005) h
  | clampStep junction => exact (execClampStep_only (x0 := junction) h).stepStill
  | budgetClamp => exact (execBudgetClamp_only h).stepStill
  | specVoid => exact (execSpecVoid_only h).stepStill
  | junctionSensorRead => exact (execJunctionSensorRead_only h).stepStill
  | thermTrip => exact .next (a := { s.lockOut 0x9202 with pwr.thermTrip := true, pwr.tripWait := true }) (s.lockOut_stepStill 0x9202) h
  | coolSpec => exact (execCoolSpec_only h).stepStill
  | coolOk => exact (execCoolOk_only h).stepStill
  | coolLost => exact .next (.ite (s.lockOut_stepStill 0x9303) (.refl s)) h
  | wearHour => exact (execWearHour_only h).stepStill
  | auxCfg => exact (execAuxCfg_only h).stepStill
  | getStatus => exact (execGetStatus_only h).stepStill
  | setEnable => exact (execSetEnable_only h).stepStill
  | powerCycle => exact (execPowerCycle_only h).stepStill
  | getEvents => exact (execGetEvents_only h).stepStill
  | mctpControlMessage => exact (execMctpControlMessage_only h).stepStill
  | setdasa => exact (execSetdasa_only h).stepStill
  | entdaa => exact (execEntdaa_only h).stepStill
  | setupUnlock => exact (execSetupUnlock_only h).stepStill
  | apply => exact (execApply_only h).stepStill
  | discard => exact (execDiscard_only h).stepStill
  | planLoad port v => exact .next (s.setupCommand_stepStill port.val v.toNat _) h
  | planImageRead => exact (execPlanImageRead_only h).stepStill
  | fwUpdate port v => exact .next (s.setupCommand_stepStill port.val v.toNat _) h
  | flashWriteEnd => exact (execFlashWriteEnd_only h).stepStill
  | erase port v => exact .next (s.setupCommand_stepStill port.val v.toNat _) h
  | eraseEnd => exact (execEraseEnd_only h).stepStill
  | moduleReset port v => exact .next (s.setupCommand_stepStill port.val v.toNat _) h
  | recover port v img => exact .next (s.setupCommand_stepStill port.val v.toNat img) h
  | boot => exact (execBoot_only h).stepStill
  | dieStarted => exact (execDieStarted_only h).stepStill
  | dieStartTimeout => exact (execDieStartTimeout_only h).stepStill
  | registerWrite port off width v =>
    exact .next (s.windowWrite_stepStill port.val off width v.toNat (fun t => t.writeAt_stepStill off v.toNat true)
      (fun t => t.writeAt_stepStill off v.toNat false)) h
  | doorbellReadCompletion => exact (execDoorbellReadCompletion_only h).stepStill
  | idleFlit => exact (execIdleFlit_only h).stepStill
  | penTrainingEnd => exact (execPenTrainingEnd_only h).stepStill
  | receivedFrameDiscarded => exact (execReceivedFrameDiscarded_only h).stepStill
  | pfcPauseExpiry => exact (execPfcPauseExpiry_only h).stepStill
  | fwImageRead => exact (execFwImageRead_only h).stepStill

/-! ## Ticks -/

/-- The state as a tick finds it: the time has come, an edge is kept, and the power stage has measured. -/
def State.atTick (s : State) (now : Long) (seen : Bool) (edge : Long) (p : PowerSample) : State :=
  { s with clk := { s.clk with time := now, edgeSeen := seen, lastEdge := edge }, pwr := (s.measured p).pwr }

/-- A command is a tick: a local tick, or with SOURCE = TICK_IN an edge that is accepted (R42, R47). -/
def TickComes (s : State) (now : Long) (p : PowerSample) (c : Instr) : Prop :=
  (c = .localTick now p ∧ s.active.tickSource ≠ 2)
    ∨ (c = .tickInEdge now p ∧ s.active.tickSource = 2 ∧ (s.clk.edgeSeen = false ∨ s.clk.lastEdge.toNat + 1000000 ≤ now.toNat))

/-- LOCAL_TICK with a source other than TICK_IN. -/
theorem exec_localTick {s : State} (now : Long) (p : PowerSample) (hsource : s.active.tickSource ≠ 2) :
    exec (.localTick now p) s = .next (s.atTick now s.clk.edgeSeen s.clk.lastEdge p).tick :=
  congrArg Host.Outcome.next (if_neg hsource)

/-- When an edge comes too early to be accepted (R47). -/
theorem earlyEdge_iff {k : ClockState} {now : Long} : (k.edgeSeen && decide (now.toNat < k.lastEdge.toNat + 1000000)) = false ↔
    k.edgeSeen = false ∨ k.lastEdge.toNat + 1000000 ≤ now.toNat := by
  cases k.edgeSeen <;> simp

/-- An edge that is accepted with SOURCE = TICK_IN. -/
theorem exec_tickInEdge {s : State} (now : Long) (p : PowerSample) (hsource : s.active.tickSource = 2)
    (hedge : s.clk.edgeSeen = false ∨ s.clk.lastEdge.toNat + 1000000 ≤ now.toNat) :
    exec (.tickInEdge now p) s = .next (s.atTick now true now p).tick := by
  refine congrArg Host.Outcome.next ?_
  unfold State.tickEdge
  rw [if_neg (not_not.mpr hsource), earlyEdge_iff.mpr hedge]
  rfl

/-- What a command that is a tick does. -/
theorem exec_tick {s : State} {now : Long} {p : PowerSample} {c : Instr} (h : TickComes s now p c) :
    ∃ (seen : Bool) (edge : Long), exec c s = .next (s.atTick now seen edge p).tick := by
  rcases h with ⟨rfl, hsource⟩ | ⟨rfl, hsource, hedge⟩
  · exact ⟨_, _, exec_localTick now p hsource⟩
  · exact ⟨_, _, exec_tickInEdge now p hsource hedge⟩

/-- A local tick or an edge that is no tick leaves the step counter. -/
theorem exec_noTick {s t : State} {now : Long} {p : PowerSample} {c : Instr} (hc : c = .localTick now p ∨ c = .tickInEdge now p)
    (hno : ¬TickComes s now p c) (h : exec c s = .next t) : t.seq.step = s.seq.step := by
  rcases hc with rfl | rfl
  · have hsource : s.active.tickSource = 2 := by
      by_contra hne
      exact hno (.inl ⟨rfl, hne⟩)
    have hsame : s.localTick now p = s := if_pos hsource
    cases h
    rw [hsame]
  · cases h
    unfold State.tickEdge
    split
    · rfl
    next hsource =>
      split
      · exact (State.raise_only _ _ _ _ _ _).get .step
      next hedge =>
        exact absurd (.inr ⟨rfl, not_not.mp hsource, earlyEdge_iff.mp (Bool.not_eq_true _ ▸ hedge)⟩) hno

/-- The filling interval is the same. -/
theorem Only.filling {m : List Part} {s t : State} (h : Only m s t) (hj : m.contains .job = false := by rfl)
    (hp : m.contains .phases = false := by rfl) : t.filling = s.filling := by
  obtain ⟨hjob, -, -⟩ := h.get .job hj
  have hphases : t.seq.phases = s.seq.phases := h.get .phases hp
  simp only [State.filling, State.jobRuns, hjob, hphases]

/-- What a start changes once the sequencer stands at T_0: nothing of the job's own state (R49, R121, R182). -/
theorem State.startJob_rest (s : State) : Only [.out, .halt, .stats, .intake, .reports, .ports, .queues, .tel, .hbm, .tiles, .mem, .tables, .churns,
    .watch, .pen, .conns, .events, .ledger, .exp] s.freshJob s.startJob :=
  Only.of (State.endIntake_only _) rfl (Only.of (State.takeEveryBatch_only _) rfl (Only.of (State.derivePass_only _) rfl
    (Only.of (State.startWatch_only _) rfl ((State.freshInit_only _).mono rfl))))

/-- At T_0 the counter reads 0 (R49, R50). -/
theorem State.startJob_step (s : State) : s.startJob.seq.step = 0 := s.startJob_rest.get .step

/-- The number of the step that a GO tick starts (R50). -/
def State.goStep (s : State) : BitVec 48 := if s.filling then 0 else s.seq.step + 1

/-- A GO tick starts the next step (R50). -/
theorem State.startStep_step (s : State) : s.startStep.seq.step = s.goStep := by
  unfold State.startStep
  extract_lets n s1 s2 s3
  have h3 : Only [.queues, .exp] s2 s3 := Only.ite (fun _ => State.startStream_only s2) (fun _ => Only.refl s2)
  have hrest : Only [.out, .halt, .stats, .intake, .replay, .reports, .ports, .queues, .tel, .watch, .pen, .conns, .msgs, .events, .exp, .rel] s2
      s3.startPhase1.intakeExcess.openIntake :=
    Only.of (State.openIntake_only _) rfl (Only.of (State.intakeExcess_only _) rfl (Only.of (State.startPhase1_only _) rfl (h3.mono rfl)))
  exact (hrest.get .step : _ = s2.seq.step)

/-- The state on which a tick's decision acts: the decision is taken, and an announced period settled (R62). -/
def State.decided (s : State) (d : Decision) : State := ({ s with clk.decision := none } : State).settlePeriod d

/-- GO starts a step on that state, HOLD counts a slip. -/
theorem State.obeyDecision_eq (s : State) (d : Decision) :
    s.obeyDecision d = if d.go then (s.decided d).startStep else (s.decided d).holdTick := rfl

/-- What taking the decision may change. -/
theorem State.decided_only (s : State) (d : Decision) : Only [.active, .pend, .clk, .seq, .tel, .events] s (s.decided d) := by
  have htaken : Only [.clk] s { s with clk.decision := none } := by
    refine ⟨rfl, fun p => ?_⟩
    cases p
    case clk => exact .inl (by decide)
    all_goals exact .inr (by simp [Part.same])
  exact Only.of (State.settlePeriod_only _ d) rfl (htaken.mono rfl)

/-- What a tick makes of the counter with its decision: GO starts the next step, HOLD keeps the counter. -/
theorem State.obeyDecision_step (s : State) (d : Decision) :
    (s.obeyDecision d).seq.step = if d.go = false then s.seq.step else s.goStep := by
  have hstep : (s.decided d).seq.step = s.seq.step := (s.decided_only d).get .step
  rw [State.obeyDecision_eq]
  cases d.go
  · exact ((State.holdTick_only _).get .step).trans hstep
  · refine (State.startStep_step _).trans ?_
    simp [State.goStep, hstep, (s.decided_only d).filling]

/-- What a tick of a running job makes of the counter. -/
theorem State.jobTick_step (s : State) : s.jobTick.seq.step = s.seq.step ∨ s.jobTick.seq.step = s.goStep := by
  have hobey : ∀ (t : State) (d : Decision), t.seq.step = s.seq.step → t.filling = s.filling →
      (t.obeyDecision d).seq.step = s.seq.step ∨ (t.obeyDecision d).seq.step = s.goStep := by
    intro t d hstep hfill
    rw [State.obeyDecision_step, State.goStep, State.goStep, hstep, hfill]
    exact (ite_eq_or_eq (d.go = false) _ _)
  unfold State.jobTick
  split
  · exact .inl ((State.haltNow_only s).get .step)
  split
  · exact .inl (((State.haltNow_only _).get .step).trans ((State.raise_only _ _ _ _ _ _).get .step))
  split
  · exact hobey s _ rfl rfl
  split
  · have h : Only [.out, .clk, .stats, .reports, .seq, .tel, .tables, .pen, .conns, .events] s s.checkIntake.makeDecision :=
      Only.of (State.makeDecision_only _) rfl ((State.checkIntake_only s).mono rfl)
    exact hobey _ _ (h.get .step) h.filling
  · exact .inl ((State.noDecision_only s).get .step)

/-- When a tick is the T_0 of a pending start (R49, R294). -/
theorem State.startsHere_iff {s : State} : s.startsHere = true ↔
    s.idle = true ∧ s.seq.startPending = true ∧ (s.multi = false ∨ ∃ t0, s.clk.t0 = some t0 ∧ t0.toNat ≤ s.clk.time.toNat) := by
  unfold State.startsHere
  cases s.clk.t0 <;> simp [and_assoc]

/-- A tick whose T_0 has come starts the job. -/
theorem tick_start {s : State} (h : s.startsHere = true) : s.tick = s.prelude.startJob := by
  simp only [State.tick, h, Bool.true_or, if_true]
  rfl

/-- The pulses of a tick, its count, the step clock and the promise (R42, R47, R445, R446). -/
def State.idleTick (s : State) : State := s.tickPulse.countTick.setStepClock.restorePromise

/-- What these may change. -/
theorem State.idleTick_only (s : State) : Only [.out, .clk, .void, .queues, .tel, .channels, .events, .pwr] s s.idleTick :=
  Only.of (State.restorePromise_only _) rfl (Only.of (State.setStepClock_only _) rfl (Only.of (State.countTick_only _) rfl
    ((State.tickPulse_only s).mono rfl)))

/-- A tick while no job runs and none starts is these alone. -/
theorem tick_idle {s : State} (hidle : s.idle = true) (hstart : s.startsHere = false) : s.tick = s.idleTick := by
  have hnone : s.idleTick.jobRuns = false := by
    obtain ⟨hjob, -, -⟩ := s.idleTick_only.get .job
    simp only [State.idle, beq_iff_eq] at hidle
    simp [State.jobRuns, hjob, hidle]
  simp only [State.tick, hstart, hidle, Bool.not_true, Bool.or_self, Bool.false_eq_true, if_false]
  exact if_neg (by simpa [State.idleTick] using hnone)

/-- A tick of a halted job: what comes before the job's part. -/
theorem tick_halted {s : State} (hidle : s.idle = false) (hruns : s.jobRuns = false) : s.tick = s.prelude := by
  have hstart : s.startsHere = false := by simp [State.startsHere, hidle]
  obtain ⟨hjob, -, -⟩ := (prelude_only s).get .job
  have hnone : s.prelude.jobRuns = false := by
    unfold State.jobRuns at hruns ⊢
    rw [hjob]; exact hruns
  simp only [State.tick, hstart, hidle, Bool.not_false, Bool.or_true, if_true, Bool.false_eq_true, if_false]
  exact if_neg (by simpa [State.prelude] using hnone)

/-- What a tick makes of the counter: 0 where a job starts, the number of the next step where a running job's tick is GO, and else what
it was. -/
theorem State.tick_step (s : State) : s.tick.seq.step = s.seq.step ∨ (s.tick.seq.step = 0 ∧ s.seq.startPending = true)
    ∨ (s.jobRuns = true ∧ s.tick.seq.step = s.goStep) := by
  have hprelude : s.prelude.seq.step = s.seq.step := (prelude_only s).get .step
  cases hruns : s.jobRuns
  case true =>
    have hgo : s.prelude.goStep = s.goStep := by simp [State.goStep, hprelude, (prelude_only s).filling]
    rw [tick_job hruns]
    rcases s.prelude.jobTick_step with h | h
    · exact .inl (h.trans hprelude)
    · exact .inr (.inr ⟨rfl, h.trans hgo⟩)
  cases hstart : s.startsHere
  case true =>
    obtain ⟨-, hpending, -⟩ := State.startsHere_iff.mp hstart
    exact .inr (.inl ⟨by rw [tick_start hstart, State.startJob_step], hpending⟩)
  cases hidle : s.idle
  case true =>
    rw [tick_idle hidle hstart]
    exact .inl (s.idleTick_only.get .step)
  case false =>
    rw [tick_halted hidle hruns]
    exact .inl hprelude

/-- With its decision and no halt, a tick of a running job obeys the decision. -/
theorem tick_decided {s : State} {d : Decision} (hruns : s.jobRuns = true) (hhalt : s.seq.haltPending = false)
    (hlost : s.clk.tickLost = false) (hslips : s.seq.curSlips.toNat < s.pend.slipLimit.toNat) (hd : s.clk.decision = some d) :
    s.tick = s.prelude.obeyDecision d := by
  obtain ⟨hhalt', -⟩ := (prelude_only s).get .halt
  obtain ⟨hslips', -⟩ := (prelude_only s).get .slips
  have hlimit : s.prelude.active.slipLimit = s.pend.slipLimit := (prelude_act s).1
  rw [tick_job hruns]
  unfold State.jobTick
  rw [if_neg (by simp [hhalt', hhalt, prelude_clk, hlost]), if_neg (by rw [hlimit, hslips']; omega), prelude_clk, hd]

/-- Settles O60: a command but a tick by `exec_stepStill`; a tick by `State.tick_step`, and where the start or the decision is given by
`State.startJob_step` and `State.obeyDecision_step`. -/
theorem stepCounter : Obligations.StepCounter := by
  refine ⟨fun s t c h hc => exec_stepStill h hc, ?ticks, ?start, ?decided⟩
  case ticks =>
    intro s t now p c hc h
    by_cases htick : TickComes s now p c
    case neg => exact .inl (exec_noTick hc htick h)
    obtain ⟨seen, edge, hexec⟩ := exec_tick htick
    obtain rfl : _ = t := Host.Outcome.next.inj (hexec.symm.trans h)
    rcases (s.atTick now seen edge p).tick_step with hsame | ⟨hzero, hpending⟩ | ⟨hruns, hgo⟩
    · exact .inl hsame
    · exact .inr (.inl ⟨hzero, .inr hpending⟩)
    · cases hfill : s.filling
      case true => exact .inr (.inl ⟨hgo.trans (if_pos hfill), .inl rfl⟩)
      case false => exact .inr (.inr ⟨hruns, hgo.trans (if_neg (by rw [Bool.not_eq_true]; exact hfill))⟩)
  case start =>
    intro s now p hsource hidle hpending ht0
    have hstart : (s.atTick now s.clk.edgeSeen s.clk.lastEdge p).startsHere = true := State.startsHere_iff.mpr ⟨hidle, hpending, ht0⟩
    exact ⟨_, exec_localTick now p hsource, by rw [tick_start hstart, State.startJob_step]⟩
  case decided =>
    intro s now p d hsource hruns hhalt hlost hslips hd
    refine ⟨_, exec_localTick now p hsource, ?_⟩
    have hprelude := prelude_only (s.atTick now s.clk.edgeSeen s.clk.lastEdge p)
    have hstep : _ = s.seq.step := hprelude.get .step
    have hfill : _ = s.filling := hprelude.filling
    rw [tick_decided (s := s.atTick now _ _ p) hruns hhalt hlost hslips hd, State.obeyDecision_step, State.goStep, hstep, hfill]

end Sys2Proof.Machine
end

section
/-! SUPPORT and CLAIM. Ticks (R42, R45 to R47, R49, R70, R457): the pulses and the count of a tick without a job, edges of TICK_IN, ticks that
halt a job, the tick that starts one, and the obligations about them. -/

-- Checked one theorem at a time: the package as one text then needs less memory.
set_option Elab.async false

namespace Sys2Proof.Machine

/-! ## A tick without a job (R42, R47, R457) -/

/-- An output under a condition. -/
theorem State.emitIf_rest (s : State) (c : Prop) [Decidable c] (o : Output) :
    (if c then s.emit o else s).out = s.out ++ (if c then [o] else []) ∧ (if c then s.emit o else s).active = s.active := by
  split
  · exact ⟨rfl, rfl⟩
  · exact ⟨(List.append_nil _).symm, rfl⟩

/-- The pulses of a tick: TICK_OUT where it is enabled, and each AUX pin that mirrors it (log 11). -/
theorem State.tickPulse_out (s : State) : s.tickPulse.out = s.out ++ (if s.active.tickOutEn then [.tickOut] else [])
    ++ (if s.active.aux0 = 1 then [.auxPulse 0] else []) ++ (if s.active.aux1 = 1 then [.auxPulse 1] else []) := by
  simp only [State.tickPulse, State.emitIf_rest]

/-- A tick without a job is counted. -/
theorem State.idleTick_clk (s : State) : s.idleTick.clk = { s.clk with tickNo := s.clk.tickNo + 1, lastTick := s.clk.time } := by
  unfold State.idleTick
  rw [(State.restorePromise_only _).clk, (State.setStepClock_only _).clk]
  unfold State.countTick
  simp only [(State.tickPulse_only s).clk]

/-- What a tick without a job puts out. -/
theorem State.idleTick_out (s : State) : s.idleTick.out = s.tickPulse.out :=
  (Only.of (State.restorePromise_only _) rfl (Only.of (State.setStepClock_only _) rfl ((State.countTick_only _).mono rfl)) :
    Only [.clk, .void, .queues, .tel, .channels, .events, .pwr] s.tickPulse s.idleTick).get .out

/-- No job is about to start at a tick without a pending start. -/
theorem State.startsHere_none {s : State} (h : s.seq.startPending = false) : s.startsHere = false := by simp [State.startsHere, h]

/-- Settles O6: the tick is the pulses, the count, the step clock and the promise alone (`tick_idle`), and these leave the job and the views. -/
theorem tickWithoutAJob : Obligations.TickWithoutAJob := by
  intro s now p hsource hidle hpending
  let u := s.atTick now s.clk.edgeSeen s.clk.lastEdge p
  have htick : u.tick = u.idleTick := tick_idle hidle (State.startsHere_none hpending)
  have honly := u.idleTick_only
  obtain ⟨hjob, -, -⟩ := honly.get .job
  refine ⟨u.idleTick, (exec_localTick now p hsource).trans (congrArg _ htick), u.idleTick_clk, ?_, ?_, honly.get .active, honly.get .pend⟩
  · exact u.idleTick_out.trans u.tickPulse_out
  · exact hjob.trans (beq_iff_eq.mp hidle)

/-- Settles O7: each way that `State.tickEdge` goes; the first edge of an idle module is a tick without a job. -/
theorem tickInEdges : Obligations.TickInEdges := by
  intro s now p
  refine ⟨fun hsource => ?localTick, fun hsource => ?other, fun hsource hseen hearly => ?early, fun hsource hseen hidle hpending => ?first⟩
  case localTick => exact congrArg Host.Outcome.next (if_pos hsource)
  case other => exact congrArg Host.Outcome.next (if_pos hsource)
  case early =>
    let u : State := { s with clk.glitch := satAdd s.clk.glitch 1, clk.time := now }
    have hedge : s.tickEdge now p = u.raise 0x1104 := by
      unfold State.tickEdge
      rw [if_neg (not_not.mpr hsource), if_pos (by simp [hseen, hearly])]
    have honly := State.raise_only u 0x1104 0 0 0 false
    exact ⟨_, congrArg Host.Outcome.next hedge, raise_seq u _ _ _ _ _, honly.get .active, Raised.of_raise u 0x1104 0 0 0 false, honly.clk⟩
  case first =>
    let u := s.atTick now true now p
    have htick : u.tick = u.idleTick := tick_idle hidle (State.startsHere_none hpending)
    exact ⟨u.idleTick, (exec_tickInEdge now p hsource (.inl hseen)).trans (congrArg _ htick), u.idleTick_clk⟩

/-! ## Ticks that halt (R45, R46, R70) -/

/-- Whether an update sweep runs is the same. -/
theorem Only.sweepRuns {m : List Part} {s t : State} (h : Only m s t) (hp : m.contains .phases = false := by rfl)
    (hh : m.contains .hist = false := by rfl) (hc : m.contains .churns = false := by rfl) (hl : m.contains .ledger = false := by rfl) :
    t.sweepRuns = s.sweepRuns := by
  have hphases : t.seq.phases = s.seq.phases := h.get .phases hp
  have hhist : t.hist = s.hist := h.get .hist hh
  have hchurns : t.churns = s.churns := h.get .churns hc
  have hledger : t.rel.ledger = s.rel.ledger := h.get .ledger hl
  simp only [State.sweepRuns, State.inPhase, State.phaseOver, State.sweepStuck, State.appendLost, State.listLost, State.canTakeOver,
    State.lineAvailable, State.unavailable, State.unit, State.churn, hphases, hhist, hchurns, hledger]

/-- A job that halts while no sweep runs is HALTED, and its step counter and events stay. -/
theorem State.haltNow_halted {s : State} (h : s.sweepRuns = false) : s.haltNow.seq.job = .halted
    ∧ s.haltNow.seq.step = s.seq.step ∧ s.haltNow.events = s.events := by
  have honly := s.haltNow_only
  refine ⟨?_, honly.get .step, honly.get .events⟩
  unfold State.haltNow State.enterHalted
  rw [h, if_neg Bool.false_ne_true]
  exact ((State.exportJobEnded_only _).get .job).1

/-- A tick that raises an event and halts. -/
theorem State.raise_haltNow {s : State} (h : s.sweepRuns = false) (code : Nat) (unit : Half) (ident qty : Nat) (b : Bool) :
    (s.raise code unit ident qty b).haltNow.seq.job = .halted
      ∧ (s.raise code unit ident qty b).haltNow.seq.step = s.seq.step
      ∧ (s.raise code unit ident qty b).haltNow.lastEvent = some (BitVec.ofNat 16 code) := by
  have honly := State.raise_only s code unit ident qty b
  obtain ⟨hjob, hstep, hevents⟩ := State.haltNow_halted (s := s.raise code unit ident qty b) (honly.sweepRuns.trans h)
  refine ⟨hjob, hstep.trans (honly.get .step), ?_⟩
  unfold State.lastEvent
  rw [hevents]
  exact raised_last (Raised.of_raise s code unit ident qty b)

/-- At a tick with a halt pending or the ticks lost a running job halts (R46, R70). -/
theorem State.jobTick_halts {s : State} (h : s.seq.haltPending = true ∨ s.clk.tickLost = true) : s.jobTick = s.haltNow := by
  unfold State.jobTick
  rw [if_pos (by simpa using h)]

/-- At a tick after SLIP_LIMIT slips of the step a job that was not halting halts (R70). -/
theorem State.jobTick_slips {s : State} (hhalt : s.seq.haltPending = false) (hlost : s.clk.tickLost = false)
    (hslips : s.active.slipLimit.toNat ≤ s.seq.curSlips.toNat) :
    s.jobTick = (s.raise 0x1203 unitSequencer 0 s.seq.curSlips.toNat true).haltNow := by
  unfold State.jobTick
  rw [if_neg (by simp [hhalt, hlost]), if_pos hslips]

/-- At a tick without a decision a job whose module does not decide alone halts (R45). -/
theorem State.jobTick_noDecision {s : State} (hhalt : s.seq.haltPending = false) (hlost : s.clk.tickLost = false)
    (hslips : s.seq.curSlips.toNat < s.active.slipLimit.toNat) (hnone : s.clk.decision = none) (halone : s.decidesAlone = false) :
    s.jobTick = s.noDecision := by
  unfold State.jobTick
  rw [if_neg (by simp [hhalt, hlost]), if_neg (by omega), hnone]
  simp only [halone, Bool.false_eq_true, if_false]

/-- Whether this module is the tick master rests on its plan and its number. -/
theorem State.isMaster_congr {s t : State} (hplan : t.plan = s.plan) (hme : t.active.moduleId = s.active.moduleId) : t.isMaster = s.isMaster := by
  have hmap : t.jobMap = s.jobMap := congrArg (Option.map Plan.map) hplan
  have hnumber : t.me = s.me := congrArg BitVec.toNat hme
  unfold State.isMaster
  rw [hmap, hnumber]

/-- Whether a module decides alone rests on its plan, its number and its tick source (log 11). -/
theorem State.decidesAlone_congr {s t : State} (hplan : t.plan = s.plan) (hme : t.active.moduleId = s.active.moduleId)
    (hsource : t.active.tickSource = s.active.tickSource) : t.decidesAlone = s.decidesAlone := by
  have hmap : t.jobMap = s.jobMap := congrArg (Option.map Plan.map) hplan
  have hnumber : t.me = s.me := congrArg BitVec.toNat hme
  unfold State.decidesAlone State.multi State.modules
  rw [State.isMaster_congr hplan hme, hmap, hnumber, hsource]

/-- The part of a tick before the job's leaves what the job's part looks at. -/
theorem prelude_job (s : State) : s.prelude.seq.haltPending = s.seq.haltPending ∧ s.prelude.seq.curSlips = s.seq.curSlips
    ∧ s.prelude.seq.step = s.seq.step ∧ s.prelude.sweepRuns = s.sweepRuns ∧ s.prelude.clk.tickLost = s.clk.tickLost
    ∧ s.prelude.clk.decision = s.clk.decision ∧ s.prelude.decidesAlone = s.decidesAlone := by
  have honly := prelude_only s
  obtain ⟨hhalt, -⟩ := honly.get .halt
  obtain ⟨hslips, -⟩ := honly.get .slips
  obtain ⟨-, hme, hsource, hplan⟩ := prelude_act s
  refine ⟨hhalt, hslips, honly.get .step, honly.sweepRuns, ?_, ?_, State.decidesAlone_congr hplan hme hsource⟩
  all_goals rw [prelude_clk]

/-- Settles O9: the tick is that of a running job (`tick_job`), whose part before the job's leaves what decides whether it halts. -/
theorem ticksThatHalt : Obligations.TicksThatHalt := by
  intro s now p c hc hruns hsweep
  obtain ⟨seen, edge, hexec⟩ := exec_tick hc
  let u := s.atTick now seen edge p
  obtain ⟨hhalt, hslips, hstep, hsweep', hlost, hdecision, halone⟩ := prelude_job u
  have hlimit : u.prelude.active.slipLimit = s.pend.slipLimit := (prelude_act u).1
  have hrun : u.prelude.sweepRuns = false := hsweep'.trans hsweep
  have hjob : exec c s = .next u.prelude.jobTick := hexec.trans (congrArg _ (tick_job hruns))
  refine ⟨fun hpending => ⟨_, hjob, ?halted⟩, fun hnone hticks hover => ⟨_, hjob, ?slipped⟩,
    fun hnone hticks hunder hdec hsource hmaster hmulti => ⟨_, hjob, ?undecided⟩⟩
  case halted =>
    rw [State.jobTick_halts (by rw [hhalt, hlost]; exact hpending)]
    obtain ⟨hhalted, hkept, -⟩ := State.haltNow_halted hrun
    exact ⟨hhalted, hkept.trans hstep⟩
  case slipped =>
    rw [State.jobTick_slips (hhalt.trans hnone) (hlost.trans hticks) (by rw [hlimit, hslips]; exact hover)]
    obtain ⟨hhalted, hkept, hlast⟩ := State.raise_haltNow hrun 0x1203 unitSequencer 0 u.prelude.seq.curSlips.toNat true
    exact ⟨hhalted, hkept.trans hstep, hlast⟩
  case undecided =>
    have hother : u.decidesAlone = false := by
      have hother : s.decidesAlone = false := by simpa [State.decidesAlone, hmaster, hmulti] using hsource
      exact hother
    rw [State.jobTick_noDecision (hhalt.trans hnone) (hlost.trans hticks) (by rw [hlimit, hslips]; exact hunder) (hdecision.trans hdec)
      (halone.trans hother), State.noDecision]
    obtain ⟨hhalted, hkept, hlast⟩ := State.raise_haltNow hrun 0x1103 0 0 0 true
    exact ⟨hhalted, hkept.trans hstep, hlast⟩

/-! ## The tick that starts a job (R49) -/

/-- A job that starts is in the filling interval, with its counts at 0 and nothing of an earlier job (R49). -/
theorem State.startJob_facts (s : State) : s.startJob.seq.job = .filling ∧ s.startJob.seq.startPending = false ∧ s.startJob.seq.step = 0
    ∧ s.startJob.seq.curSlips = 0 ∧ s.startJob.seq.slipTotal = 0 ∧ s.startJob.seq.phases = {} ∧ s.startJob.clk.t0 = some s.clk.time
    ∧ s.startJob.clk.tickNo = 0 ∧ s.startJob.acc = [] ∧ s.startJob.attn = [] ∧ s.startJob.hist = {} := by
  have hrest := s.startJob_rest
  obtain ⟨hjob, hstarted, -⟩ := hrest.get .job
  obtain ⟨hslips, htotal⟩ := hrest.get .slips
  refine ⟨hjob, hstarted, hrest.get .step, hslips, htotal, hrest.get .phases, ?_, ?_, hrest.get .acc, hrest.get .attn, hrest.get .hist⟩
  all_goals
    rw [hrest.clk]
    rfl

/-- Settles O10: the tick is T_0 (`tick_start`), and its job starts as `State.startJob_facts` says. -/
theorem jobStarts : Obligations.JobStarts := by
  intro s now p c hc hidle hpending hmulti
  obtain ⟨seen, edge, hexec⟩ := exec_tick hc
  have hstart : (s.atTick now seen edge p).startsHere = true := State.startsHere_iff.mpr ⟨hidle, hpending, .inl hmulti⟩
  have htime : (s.atTick now seen edge p).prelude.clk.time = now := congrArg ClockState.time (prelude_clk _)
  have hfacts := (s.atTick now seen edge p).prelude.startJob_facts
  rw [htime] at hfacts
  rw [tick_start hstart] at hexec
  exact ⟨_, hexec, hfacts⟩

end Sys2Proof.Machine
end

section
/-! SUPPORT and CLAIM. Decisions and reports (R43, R45, R46, R53, R67, R68): the decision point, a decision that arrives, holdover and lost
ticks, DONE and excess on their way up the tree, and the obligation about them. -/

-- Checked one theorem at a time: the package as one text then needs less memory.
set_option Elab.async false

namespace Sys2Proof.Machine

/-! ## Decisions (R43, R45) -/

/-- Nothing is declared once the intake of the coming step has ended, or before it begins (R367). -/
theorem State.checkIntake_none {s : State} (h : ¬(s.seq.next.active = true ∧ s.seq.next.ended = false)) : s.checkIntake = s := by
  unfold State.checkIntake
  refine if_neg fun hopen => h ?_
  simp only [Bool.and_eq_true, Bool.not_eq_true'] at hopen
  exact ⟨hopen.1.2, hopen.2⟩

/-- An intake that has not ended by the decision point is an excess (R367). -/
theorem State.checkIntake_excess {s : State} (hruns : s.jobRuns = true) (hactive : s.seq.next.active = true) (hended : s.seq.next.ended = false) :
    s.checkIntake = s.declareExcess := by
  unfold State.checkIntake
  exact if_pos (by simp [hruns, hactive, hended])

/-- What a declared excess leaves in the sequencer and the clocks (R68). -/
theorem State.declareExcess_facts (s : State) : s.declareExcess.seq.excess = true ∧ s.declareExcess.seq.ownExcess = true
    ∧ s.declareExcess.seq.excessSpent = false ∧ s.declareExcess.clk = s.clk ∧ s.declareExcess.isMaster = s.isMaster := by
  have hsent := State.upTree_only { s with seq.excess := true, seq.ownExcess := true, seq.excessSpent := false } .excess
    (leBytes 6 s.seq.step.toNat)
  obtain ⟨-, -, -, -, hexcess, hown, hspent⟩ := hsent.get .reports
  have hactive : s.declareExcess.active = s.active := hsent.get .active
  exact ⟨hexcess, hown, hspent, hsent.clk, State.isMaster_congr (hsent.get .plan) (congrArg Buffered.moduleId hactive)⟩

/-- GO: every DONE is there, and no excess is left to cost its tick (R45, R68). -/
theorem State.mayGo_iff {s : State} : s.mayGo = true ↔ s.allDone = true ∧ (s.seq.excess = false ∨ s.seq.excessSpent = true) := by
  simp [State.mayGo]

/-- The tick master that has taken no decision for the coming tick makes its own. -/
theorem State.decisionPoint_master {s : State} (hruns : s.jobRuns = true) (hmaster : s.isMaster = true) (hsource : s.active.tickSource ≠ 2)
    (hnone : s.clk.decision = none) (hintake : ¬(s.seq.next.active = true ∧ s.seq.next.ended = false)) :
    s.decisionPoint = s.makeDecision := by
  unfold State.decisionPoint
  rw [if_neg (by simp [hruns]), State.checkIntake_none hintake]
  exact if_pos (by simpa [hmaster, hnone] using hsource)

/-- Another module only looks at its own intake. -/
theorem State.decisionPoint_other {s : State} (hruns : s.jobRuns = true) (hmaster : s.isMaster = false) (hactive : s.seq.next.active = true)
    (hended : s.seq.next.ended = false) : s.decisionPoint = s.declareExcess := by
  obtain ⟨-, -, -, -, hother⟩ := s.declareExcess_facts
  unfold State.decisionPoint
  rw [if_neg (by simp [hruns]), State.checkIntake_excess hruns hactive hended]
  exact if_neg (by simp [hother, hmaster])

/-- A decision goes on to the modules below (R43). -/
def State.passedOn (s : State) (d : Decision) : State := s.messages s.treeChildren .decision (decisionBody d)

/-- What passing it on may change. -/
theorem State.passedOn_only (s : State) (d : Decision) : Only [.out, .stats, .pen, .conns] s (s.passedOn d) := State.messages_only s _ _ _

/-- A module with a running job keeps the decision for the coming tick (R45). -/
theorem State.decisionMessage_decision {s : State} {d : Decision} (hruns : s.jobRuns = true) (hmaster : s.isMaster = false)
    (hmulti : s.multi = true) (ht0 : d.t0 = none) : s.decisionMessage d = (s.passedOn d).acceptDecision d := by
  obtain ⟨hjob, -, -⟩ := (s.passedOn_only d).get .job
  have hpassed : (s.passedOn d).jobRuns = true := by
    unfold State.jobRuns at hruns ⊢
    rw [hjob]; exact hruns
  unfold State.decisionMessage
  rw [if_neg (by simp [hmaster, hmulti]), ht0]
  exact if_pos hpassed

/-- A module that has joined takes T_0 (R294). -/
theorem State.decisionMessage_start {s : State} {d : Decision} {z : Long} (hmaster : s.isMaster = false) (hmulti : s.multi = true)
    (ht0 : d.t0 = some z) (hpending : s.seq.startPending = true) (hjoined : s.seq.joined = true) :
    s.decisionMessage d = { s.passedOn d with clk.t0 := some z } := by
  obtain ⟨-, hpassed, -⟩ := (s.passedOn_only d).get .job
  obtain ⟨-, -, -, -, -, -, hjoin, -⟩ := (s.passedOn_only d).get .seq
  unfold State.decisionMessage
  rw [if_neg (by simp [hmaster, hmulti]), ht0]
  exact if_pos (by
    show ((s.passedOn d).seq.startPending && (s.passedOn d).seq.joined) = true
    rw [hpassed, hjoin, hpending, hjoined]; rfl)

/-! ## Reports (R53, R67, R68) -/

/-- A DONE that goes on leaves the reports that are there, and the step counter. -/
theorem State.forwardDone_facts (s : State) : s.forwardDone.seq.doneFrom = s.seq.doneFrom ∧ s.forwardDone.seq.step = s.seq.step := by
  unfold State.forwardDone
  split
  · have hsent := State.upTree_only { s with seq.doneUp := true } .done (doneBody s.joinedDone)
    obtain ⟨hfrom, -⟩ := hsent.get .reports
    exact ⟨hfrom, hsent.get .step⟩
  · exact ⟨rfl, rfl⟩

/-- The first report of a module below for the current step is taken (R53). -/
theorem State.takeDone_new {s : State} {r : DoneReport} (hruns : s.jobRuns = true) (hstep : r.step = s.seq.step)
    (hchild : s.treeChildren.contains r.module.toNat = true) (hnew : s.seq.doneFrom.any (fun x => x.module == r.module) = false) :
    s.takeDone r = ({ s with seq.doneFrom := s.seq.doneFrom ++ [r] } : State).forwardDone := by
  unfold State.takeDone
  exact if_pos (by simp only [hruns, hstep, hchild, hnew, decide_true, Bool.not_false, Bool.and_self])

/-- An excess of a module below for the current step is taken and passed on (R68). -/
theorem State.takeExcess_now {s : State} {m : Nat} (hruns : s.jobRuns = true) (hchild : s.treeChildren.contains m = true) :
    s.takeExcess m s.seq.step
      = ({ s with seq.excess := true, seq.excessSpent := false } : State).upTree .excess (leBytes 6 s.seq.step.toNat) := by
  unfold State.takeExcess
  exact if_pos (by simp only [hruns, hchild, decide_true, Bool.and_self])

/-! ## The time base (R46, R283) -/

/-- Within the pen a time transfer is one TIME flit on the engine that reaches the peer. -/
theorem State.timeTransfer_pen {s : State} {peer k : Nat} (hmulti : s.multi = true) (hedge : s.treeEdges.contains peer = true)
    (hpen : peer / 8 = s.me / 8) (hengine : s.engineTo (peer % 8) = some k) (hup : (s.pen k).retraining = false) :
    s.timeTransfer peer = s.emit (.penFlit k (flitBytes 3 1 0 ((s.pen k).expect - 1).toNat 0 (s.timeContent peer))) := by
  unfold State.timeTransfer
  simp only [hmulti, hedge, hpen, hengine, hup, Bool.not_true, Bool.or_self, Bool.false_eq_true, if_false, if_true]

/-- Settles O12: one law for the way that each of the commands goes, with what it leaves. -/
theorem decisionsAndReports : Obligations.DecisionsAndReports := by
  intro s now
  refine ⟨?master, ?excess, ?decision, ?start, ?holdover, ?lost, ?done, ?declaration, ?transfer⟩
  case master =>
    intro hruns hmaster hsource hnone hintake
    have hdecide : (s.timed now).decisionPoint = (s.timed now).makeDecision := State.decisionPoint_master hruns hmaster hsource hnone hintake
    exact ⟨_, (s.timed now).ownDecision, congrArg Host.Outcome.next hdecide, rfl, State.mayGo_iff (s := s.timed now)⟩
  case excess =>
    intro hruns hmaster hactive hended
    obtain ⟨hexcess, hown, hspent, hclk, -⟩ := (s.timed now).declareExcess_facts
    exact ⟨_, congrArg Host.Outcome.next (State.decisionPoint_other (s := s.timed now) hruns hmaster hactive hended), hexcess, hown, hspent,
      (congrArg ClockState.decision hclk : _ = (s.timed now).clk.decision)⟩
  case decision =>
    intro d hruns hmaster hmulti ht0
    exact ⟨_, congrArg Host.Outcome.next (State.decisionMessage_decision hruns hmaster hmulti ht0), rfl⟩
  case start =>
    intro d z hmaster hmulti ht0 hpending hjoined
    exact ⟨_, congrArg Host.Outcome.next (State.decisionMessage_start hmaster hmulti ht0 hpending hjoined),
      congrArg (fun k : ClockState => { k with t0 := some z }) (s.passedOn_only d).clk⟩
  case holdover =>
    intro hmulti hmaster hnot
    let u : State := { s.timed now with clk.holdover := true, clk.locked := false, seq.stats.holdover := true }
    have henter : (s.timed now).enterHoldover = u.raise 0x1102 := by
      have henters : ((s.timed now).multi && !(s.timed now).isMaster && !(s.timed now).clk.holdover) = true := by
        show (s.multi && !s.isMaster && !s.clk.holdover) = true
        simp [hmulti, hmaster, hnot]
      exact if_pos henters
    have hraise := State.raise_only u 0x1102 0 0 0 false
    refine ⟨_, congrArg Host.Outcome.next henter, Raised.of_raise u 0x1102 0 0 0 false, ?_, hraise.clk⟩
    rw [raise_seq]
  case lost =>
    intro hhold hnot
    let u : State := { s.timed now with clk.tickLost := (s.timed now).jobRuns }
    have hlose : (s.timed now).loseTick = u.raise 0x1103 0 0 0 true := by
      have hloses : ((s.timed now).clk.holdover && !(s.timed now).clk.tickLost) = true := by
        show (s.clk.holdover && !s.clk.tickLost) = true
        simp [hhold, hnot]
      exact if_pos hloses
    exact ⟨_, congrArg Host.Outcome.next hlose, Raised.of_raise u 0x1103 0 0 0 true, (State.raise_only u 0x1103 0 0 0 true).clk⟩
  case done =>
    intro r hruns hstep hchild hnew
    obtain ⟨hfrom, hkept⟩ := State.forwardDone_facts { s with seq.doneFrom := s.seq.doneFrom ++ [r] }
    exact ⟨_, congrArg Host.Outcome.next (State.takeDone_new hruns hstep hchild hnew), hfrom, hkept⟩
  case declaration =>
    intro m hruns hchild
    obtain ⟨-, -, -, -, hexcess, -, hspent⟩ :=
      (State.upTree_only { s with seq.excess := true, seq.excessSpent := false } .excess (leBytes 6 s.seq.step.toNat)).get .reports
    exact ⟨_, congrArg Host.Outcome.next (State.takeExcess_now hruns hchild), hexcess, hspent⟩
  case transfer =>
    intro peer k hmulti hedge hpen hengine hup
    exact congrArg Host.Outcome.next (State.timeTransfer_pen (s := s.timed now) hmulti hedge hpen hengine hup)

end Sys2Proof.Machine
end

section
/-! SUPPORT and CLAIM. Writes of the buffered registers and of the guard (R41, R76, R320, R457, R465, R469, R470): what each makes of the
pending view, how it is refused, and the obligations about them. Reserved bits written otherwise count for nothing (log 9). -/

-- Checked one theorem at a time: the package as one text then needs less memory.
set_option Elab.async false

namespace Sys2Proof.Machine

/-! ## Refused writes (R464) -/

/-- A write that is logged and raises an event leaves both views. -/
theorem State.logRaise_facts (s : State) (off : Nat) (r : LogReason) (code : Nat) :
    ((s.log off 0 r).raise code).active = s.active ∧ ((s.log off 0 r).raise code).pend = s.pend
      ∧ Raised (BitVec.ofNat 16 code) 0 s ((s.log off 0 r).raise code) ∧ Logged off 0 r ((s.log off 0 r).raise code) := by
  refine ⟨raise_active _ _ _ _ _ _, raise_pend _ _ _ _ _ _, (Raised.of_raise (s.log off 0 r) code 0 0 0 false).from rfl, ?_⟩
  unfold Logged
  rw [raise_setup]
  exact logged_log s off 0 r

/-! ## TICK_PERIOD (R41) -/

/-- A write of TICK_PERIOD as the window takes it. -/
theorem exec_tickPeriod {s : State} (h : s.takesWrite) (v : Word) :
    exec (.tickPeriod 0 v) s = .next (State.writeTickPeriod { s with setup.armed := true } v.toNat) :=
  congrArg Host.Outcome.next (window_free (r := .tickPeriod) h rfl (by decide) rfl (by decide) nofun nofun rfl)

/-- Settles O1: a period in the range enters the pending view, and any other is logged and raises TICK_RANGE. -/
theorem tickPeriodWrite : Obligations.TickPeriodWrite := by
  intro s v h
  refine ⟨fun hin => (exec_tickPeriod h v).trans (congrArg _ ?inRange), fun hout => ⟨_, exec_tickPeriod h v, ?outOfRange⟩⟩
  case inRange =>
    have hno : ¬(v.toNat % 2 ^ 24 < 1000 ∨ 10000000 < v.toNat % 2 ^ 24) := by omega
    have hmod : BitVec.ofNat 24 (v.toNat % 2 ^ 24) = BitVec.ofNat 24 v.toNat := by
      apply BitVec.eq_of_toNat_eq
      simp
    unfold State.writeTickPeriod
    dsimp only
    rw [if_neg hno, hmod]
    rfl
  case outOfRange =>
    have hwrite : State.writeTickPeriod { s with setup.armed := true } v.toNat
        = (State.log { s with setup.armed := true } 0x20004 0 .range).raise 0x1001 := if_pos hout
    obtain ⟨hactive, hpend, hraised, hlogged⟩ := State.logRaise_facts { s with setup.armed := true } 0x20004 .range 0x1001
    rw [hwrite]
    exact ⟨hactive, hpend, hraised.from rfl, hlogged⟩

/-! ## TICK_CTRL (R76, R78) -/

/-- A write of TICK_CTRL through the disarmed guard. -/
theorem exec_tickCtrl {s : State} (h : s.takesWrite) (hguard : s.setup.armed = false) (v : Word) :
    exec (.tickCtrl 0 v) s = .next (State.writeTickCtrl { s with setup.armed := true } v.toNat false) :=
  congrArg Host.Outcome.next (window_unlocked (r := .tickCtrl) h rfl (by decide) rfl (by decide) nofun nofun hguard)

/-! ## REG_RATE and REG_BURST (R320, R329) -/

/-- The registers of the regulators stand at their offsets. -/
theorem regAt_regulator (c : Fin 5) : regAt (0x80080 + 4 * c.val) = some (.regRate c.val) ∧ regAt (0x800A0 + 4 * c.val) = some (.regBurst c.val) := by
  revert c
  decide

/-- A write of a regulator register as the window takes it. -/
theorem exec_regRate {s : State} (h : s.takesWrite) (c : Fin 5) (burst : Bool) (v : Word) :
    exec (.regRate 0 c burst v) s = .next (State.writeRegulator { s with setup.armed := true } c.val burst v.toNat) := by
  have hc := c.isLt
  obtain ⟨hrate, hburst⟩ := regAt_regulator c
  cases burst
  · exact congrArg Host.Outcome.next (window_free (off := 0x80080 + 4 * c.val) h hrate (by omega) (by omega) (by omega) nofun nofun rfl)
  · exact congrArg Host.Outcome.next (window_free (off := 0x800A0 + 4 * c.val) h hburst (by omega) (by omega) (by omega) nofun nofun rfl)

/-- Without a plan nothing is clamped. -/
theorem State.clampRegulators_noPlan {s : State} (h : s.plan = none) : s.clampRegulators = s := by
  unfold State.clampRegulators
  rw [h]

/-- With a plan the pending rates are those clamped to its maxima. -/
theorem State.clampRegulators_regRate {s : State} {p : Plan} (h : s.plan = some p) :
    s.clampRegulators.pend.regRate = clampTo p.layout.rateMax s.pend.regRate := by
  unfold State.clampRegulators
  rw [h]
  dsimp only
  split
  next hsame => exact hsame.1.symm
  next => rw [raise_pend]

/-- A map of the values of a sparse map by their keys. -/
theorem NMap.find?_mapKeyed {α β : Type} (m : NMap α) (f : Nat → α → β) (j : Nat) :
    NMap.find? (m.map (fun e => (e.1, f e.1 e.2))) j = (NMap.find? m j).map (f j) := by
  induction m with
  | nil => rfl
  | cons e r ih =>
    simp only [List.map_cons, NMap.find?, ih]
    split_ifs with hkey
    · rw [hkey]; rfl
    · rfl

/-- A field clamped to a maximum. -/
theorem getD_clampTo {w : Nat} (l : List Nat) {m : NMap (BitVec w)} {c : Nat} {x : BitVec w} (h : NMap.find? m c = some x) (d : BitVec w) :
    (NMap.getD (clampTo l m) c d).toNat = min x.toNat (l.getD c x.toNat) := by
  have hclamped : NMap.find? (clampTo l m) c = some (BitVec.ofNat w (min x.toNat (l.getD c x.toNat))) := by
    have hmap := NMap.find?_mapKeyed m (fun k y => BitVec.ofNat w (min y.toNat (l.getD k y.toNat))) c
    rw [h] at hmap
    exact hmap
  have hlt : min x.toNat (l.getD c x.toNat) < 2 ^ w := lt_of_le_of_lt (Nat.min_le_left _ _) x.isLt
  rw [NMap.getD, hclamped, Option.getD_some, BitVec.toNat_ofNat, Nat.mod_eq_of_lt hlt]

/-! ## AUX_CFG (R457) -/

/-- A write of AUX_CFG as the window takes it. -/
theorem exec_auxCfg {s : State} (h : s.takesWrite) (v : Word) :
    exec (.auxCfg 0 v) s = .next (State.writeAux { s with setup.armed := true } v.toNat) :=
  congrArg Host.Outcome.next (window_free (r := .auxCfg) h rfl (by decide) rfl (by decide) nofun nofun rfl)

/-- Pins without a holder take any functions but two pulse timers. -/
theorem claims_free (a b : BitVec 2) (h : ¬(a = 1 ∧ b = 1)) :
    (claimRefused 0 (if b = 0 then 0 else 0) a || claimRefused 0 (if a = 0 then 0 else a) b) = false := by
  revert a b
  decide

/-- A pin with a holder takes no other function. -/
theorem claim_held (old other new : BitVec 2) (hold : old ≠ 0) (hnew : new ≠ 0) (hdiff : new ≠ old) : claimRefused old other new = true := by
  revert old other new
  decide

/-- A write of AUX_CFG that claims the one function of a pin that another holds is refused with CONFLICT. -/
theorem State.writeAux_held {s : State} {v : Nat} (hold : s.pend.aux0 ≠ 0) (h0 : BitVec.ofNat 2 v ≠ 0) (hdiff : BitVec.ofNat 2 v ≠ s.pend.aux0)
    (h3 : BitVec.ofNat 2 v ≠ 3) (h13 : BitVec.ofNat 2 (v / 4) ≠ 3) : s.writeAux v = (s.log 0xE0020 0 .state).raise 0x9020 := by
  unfold State.writeAux
  dsimp only
  rw [if_neg (not_or.mpr ⟨h3, h13⟩), claim_held _ _ _ hold h0 hdiff, Bool.true_or, if_pos rfl]

/-- A write of AUX_CFG while no pin has a holder. -/
theorem State.writeAux_free {s : State} {v : Nat} (hold0 : s.pend.aux0 = 0) (hold1 : s.pend.aux1 = 0) (h3 : BitVec.ofNat 2 v ≠ 3)
    (h13 : BitVec.ofNat 2 (v / 4) ≠ 3) (hone : ¬(BitVec.ofNat 2 v = 1 ∧ BitVec.ofNat 2 (v / 4) = 1)) :
    s.writeAux v = { s with pend.aux0 := BitVec.ofNat 2 v, pend.aux1 := BitVec.ofNat 2 (v / 4) } := by
  unfold State.writeAux
  dsimp only
  rw [if_neg (not_or.mpr ⟨h3, h13⟩), hold0, hold1, claims_free _ _ hone, if_neg Bool.false_ne_true]
  rfl

/-- A field of two bits and the number that it holds. -/
theorem ofNat2_eq_iff (n : Nat) (k : BitVec 2) : BitVec.ofNat 2 n = k ↔ n % 4 = k.toNat := by
  rw [← BitVec.toNat_inj, BitVec.toNat_ofNat]

/-! ## SETUP_UNLOCK (R465) -/

/-- A write of SETUP_UNLOCK as the window takes it: it does not arm the guard by itself. -/
theorem exec_setupUnlock {s : State} (h : s.takesWrite) (v : Word) : exec (.setupUnlock 0 v) s = .next (s.writeUnlock v.toNat) := by
  obtain ⟨hready, hop, hcmd, hclear⟩ := h
  have hserves : s.serves = true := by simp [State.serves, hready]
  have hreg : regAt 0x10000 = some .setupUnlock := rfl
  have hviews : s.confRefused .setupUnlock = false := by simp [State.confRefused, hclear]
  have hcommand : s.commandRuns .setupUnlock v.toNat = false := by simp [State.commandRuns, hcmd]
  refine congrArg Host.Outcome.next ?_
  simp [State.windowWrite, hserves, hreg, hready, State.guardedWrite, hviews, hop, hcommand, lockedHit_zero s .setupUnlock v.toNat rfl]

/-! ## SETUP_APPLY (R469, R470) -/

/-- A write of SETUP_APPLY as the window takes it. -/
theorem window_setupApply {s : State} (h : s.takesWrite) (v : Word) :
    s.windowWrite 0 0x10008 4 v.toNat (fun t => t) (fun t => t.writeApply v.toNat) = State.writeApply { s with setup.armed := true } v.toNat :=
  window_free (r := .setupApply) h rfl (by decide) rfl (by decide) nofun nofun rfl

/-- Without a plan no rule holds RETRAIN_AUTO back, and no history is cut. -/
theorem State.applyRetrain_noPlan {s : State} (h : s.plan = none) : s.applyRetrain = s := by
  unfold State.applyRetrain
  rw [h]
  exact if_neg (by simp)

/-- A set of registers excludes the channels that it excludes. -/
theorem sameExclusion_refl (a : NMap (BitVec 10)) : sameExclusion a a = true := beq_self_eq_true _

/-- An apply point with STATE IDLE and without a plan takes the pending tick period. -/
theorem State.applyPeriod_noPlan {s : State} (h : s.plan = none) :
    s.applyPeriod true = { s with active.tickPeriod := s.pend.tickPeriod } := by
  unfold State.applyPeriod
  split
  next hsame =>
    have htick : s.active = { s.active with tickPeriod := s.pend.tickPeriod } := by rw [hsame]
    exact congrArg (fun b => { s with active := b }) htick
  next =>
    rw [if_neg (by simp)]
    split
    next => rfl
    next p hp => exact absurd (h.symm.trans hp) nofun

/-- An exclusion set that excludes what it excluded changes nothing else (R307). -/
theorem State.applyExclusion_same {s : State} (h : s.pend.excl = s.active.excl) : s.applyExclusion = s := by
  unfold State.applyExclusion
  rw [h, if_pos (sameExclusion_refl _)]

/-- Without a plan no history is cut (R256). -/
theorem State.trimHistories_noPlan {s : State} (h : s.plan = none) : s.trimHistories = s := by
  unfold State.trimHistories
  rw [h]

/-- An apply point with STATE IDLE and without a plan, and with the exclusion set unchanged, makes the pending view active. -/
theorem State.applyPoint_noPlan {s : State} (h : s.plan = none) (hexcl : s.pend.excl = s.active.excl) :
    s.applyPoint true = { s with active := s.pend } := by
  let u : State := { s with active := { s.active.adopt s.pend with tickSource := s.pend.tickSource, moduleId := s.pend.moduleId } }
  have hpoint : s.applyPoint true = if (u.applyPeriod true).applyExclusion.active.histDefault = s.active.histDefault then
      (u.applyPeriod true).applyExclusion else (u.applyPeriod true).applyExclusion.trimHistories := by
    unfold State.applyPoint
    rw [State.clampRegulators_noPlan h, State.applyRetrain_noPlan h]
    rfl
  have hview : { u.active with tickPeriod := u.pend.tickPeriod } = s.pend := by
    show { s.pend with excl := s.active.excl } = s.pend
    rw [← hexcl]
  have hperiod : u.applyPeriod true = { s with active := s.pend } :=
    (State.applyPeriod_noPlan (s := u) h).trans (congrArg (fun b => { s with active := b }) hview)
  rw [hpoint, hperiod, State.applyExclusion_same rfl, State.trimHistories_noPlan (s := { s with active := s.pend }) h, ite_self]

/-- DISCARD alone (R470). -/
theorem State.writeApply_discard {s : State} {v : Nat} (h : v % 4 = 2) : s.writeApply v = { s with pend := s.active } := by
  have h0 : bit 0 v = false := by simp [bit]; omega
  have h1 : bit 1 v = true := by simp [bit]; omega
  simp [State.writeApply, h0, h1]

/-- APPLY alone (R469): an apply point while STATE is IDLE. -/
theorem State.writeApply_apply {s : State} {v : Nat} (h : v % 4 = 1) :
    s.writeApply v = if s.idle then s.applyPoint true else s.log 0x10008 0 .state := by
  have h0 : bit 0 v = true := by simp [bit]; omega
  have h1 : bit 1 v = false := by simp [bit]; omega
  unfold State.writeApply
  rw [h0, h1]
  cases s.idle <;> rfl

/-- Settles O2: each register by the window's way to it and the law of its own write. -/
theorem bufferedRegisterWrites : Obligations.BufferedRegisterWrites := by
  intro s v h
  let u : State := { s with setup.armed := true }
  refine ⟨?tickCtrl, ?tickCtrlBad, ?rate, ?burst, ?burstBad, ?clamped, ?aux, ?auxHeld, ?unlock, ?key, ?discard, ?apply, ?applyBusy⟩
  case tickCtrl =>
    intro hguard hsource
    refine (exec_tickCtrl h hguard v).trans (congrArg _ ?_)
    unfold State.writeTickCtrl
    rw [if_neg (by simpa using hsource)]
    simp [State.setPending, bit]
  case tickCtrlBad =>
    intro hguard hsource
    have hwrite : u.writeTickCtrl v.toNat false = (u.log 0x20000 0 .range).raise 0x1001 := if_pos ⟨by decide, hsource⟩
    obtain ⟨-, hpend, hraised, hlogged⟩ := u.logRaise_facts 0x20000 .range 0x1001
    exact ⟨_, (exec_tickCtrl h hguard v).trans (congrArg _ hwrite), hpend, hraised.from rfl, hlogged⟩
  case rate =>
    intro c hplan
    refine (exec_regRate h c false v).trans (congrArg _ ?_)
    exact State.clampRegulators_noPlan hplan
  case burst =>
    intro c hplan hburst
    refine (exec_regRate h c true v).trans (congrArg _ ?_)
    exact (if_neg hburst).trans (State.clampRegulators_noPlan hplan)
  case burstBad =>
    intro c hburst
    have hwrite : u.writeRegulator c.val true v.toNat = u.log (0x800A0 + 4 * c.val) 0 .range := if_pos hburst
    exact ⟨_, (exec_regRate h c true v).trans (congrArg _ hwrite), rfl, logged_log _ _ _ _⟩
  case clamped =>
    intro c p hplan
    refine ⟨_, exec_regRate h c false v, ?_⟩
    let w : State := u.setPending (fun b => { b with regRate := NMap.insert b.regRate c.val (BitVec.ofNat 20 v.toNat) })
    have hrate : (u.writeRegulator c.val false v.toNat).pend.regRate = clampTo p.layout.rateMax w.pend.regRate :=
      State.clampRegulators_regRate (s := w) hplan
    have hfield : NMap.find? w.pend.regRate c.val = some (BitVec.ofNat 20 v.toNat) := NMap.find?_insert_self _ _ _
    rw [hrate, getD_clampTo p.layout.rateMax hfield, BitVec.toNat_ofNat]
  case aux =>
    intro hold0 hold1 h3 h13 hone
    refine (exec_auxCfg h v).trans (congrArg _ ?_)
    refine State.writeAux_free (s := u) hold0 hold1 ?_ ?_ ?_
    all_goals
      simp only [ne_eq, ofNat2_eq_iff]
      assumption
  case auxHeld =>
    intro hold hdiff h0 h3 h13
    have hwrite : u.writeAux v.toNat = (u.log 0xE0020 0 .state).raise 0x9020 := by
      refine State.writeAux_held (s := u) hold ?_ ?_ ?_ ?_
      · rw [ne_eq, ofNat2_eq_iff]; exact h0
      · rw [ne_eq, ofNat2_eq_iff]; exact fun heq => hdiff heq.symm
      · rw [ne_eq, ofNat2_eq_iff]; exact h3
      · rw [ne_eq, ofNat2_eq_iff]; exact h13
    obtain ⟨-, hpend, hraised, hlogged⟩ := u.logRaise_facts 0xE0020 .state 0x9020
    exact ⟨_, (exec_auxCfg h v).trans (congrArg _ hwrite), hpend, hraised.from rfl, hlogged⟩
  case unlock =>
    exact (exec_setupUnlock h 0x7A910E5D).trans (congrArg _ (if_pos (by decide)))
  case key =>
    intro hkey
    have hno : ¬v.toNat % 2 ^ 32 = 0x7A910E5D := by
      rw [Nat.mod_eq_of_lt v.isLt]
      exact fun heq => hkey (BitVec.eq_of_toNat_eq heq)
    exact ⟨_, (exec_setupUnlock h v).trans (congrArg _ (if_neg hno)), rfl, logged_log _ _ _ _⟩
  case discard =>
    intro hv
    exact congrArg Host.Outcome.next ((window_setupApply h v).trans (State.writeApply_discard hv))
  case apply =>
    intro hv hidle hplan hexcl
    have hwrite : u.writeApply v.toNat = { u with active := u.pend } := by
      rw [State.writeApply_apply hv, if_pos (show u.idle = true from hidle)]
      exact State.applyPoint_noPlan (s := u) hplan hexcl
    exact congrArg Host.Outcome.next ((window_setupApply h v).trans hwrite)
  case applyBusy =>
    intro hv hidle
    have hwrite : u.writeApply v.toNat = u.log 0x10008 0 .state := by
      rw [State.writeApply_apply hv, if_neg (by rw [show u.idle = false from hidle]; decide)]
    exact ⟨_, congrArg Host.Outcome.next ((window_setupApply h v).trans hwrite), rfl, rfl, logged_log _ _ _ _⟩

end Sys2Proof.Machine
end

section
/-! CLAIM. The state right after reset (R76, R256, R407, R425, R457, R461): what every step keeps holds of it (`State.Sound`). -/

-- Checked one theorem at a time: the package as one text then needs less memory.
set_option Elab.async false

namespace Sys2Proof.Machine

/-- The fields of a view at reset lie in the ranges of their registers. -/
theorem Buffered.reset_inRange : ({} : Buffered).inRange := by
  refine ⟨?slipLimit, ⟨?histLeast, ?histMost⟩, ?stallDefault, ⟨?powerLeast, ?powerMost⟩, ?aux0, ?aux1, ?timer⟩
  all_goals decide

/-- What every step keeps holds at reset: memories without a byte, no event, views in their ranges, and MODE 0. -/
theorem State.reset_sound : State.reset.Sound where
  memory := ⟨rfl, rfl⟩
  events := ⟨Nat.zero_le 256, Nat.zero_le 32⟩
  views := ⟨Buffered.reset_inRange, Buffered.reset_inRange⟩
  debug := fun hmode => absurd hmode (by decide)

/-- The unit ledger is all GOOD at reset (log 3). -/
theorem State.reset_available (u : Half) : State.reset.unavailable u = false := rfl

/-- Settles O57: `State.reset_sound`, an empty ledger, and the other fields at their reset values (log 2, log 3). -/
theorem resetIsSound : Obligations.ResetIsSound :=
  ⟨State.reset_sound, rfl, rfl, rfl, rfl, rfl, rfl, State.reset_available⟩

end Sys2Proof.Machine
end

section
/-! SUPPORT and CLAIM. Group polls, doorbell entries and descriptors as they are read (R64, R338, R341, R344, R352, R353, R357): one law for
each way that a doorbell entry or a descriptor goes, and the obligations about them. -/

-- Checked one theorem at a time: the package as one text then needs less memory.
set_option Elab.async false

namespace Sys2Proof.Machine

/-! ## Polls (R338, R353) -/

/-- A poll of an enabled group that waits for none asks for its doorbell block. -/
theorem State.pollGroup_open {s : State} {g : Nat} (hon : (s.group g).enable = true) (hnone : (s.group g).outstanding = false)
    (hport : s.portOpen (g / 32)) :
    s.pollGroup g = (s.setGroup g (fun y => { y with outstanding := true })).readHost (g / 32) (s.group g).db.toNat 512 := by
  have hkept : (s.port (g / 32)).orphaned = false := hport.2
  unfold State.pollGroup
  exact if_pos (by simp [hon, hnone, hkept])

/-- The read of a group's doorbell block has ended. -/
def State.blockArrived (s : State) (g : Nat) (now : Long) : State :=
  (({ s with clk.time := now } : State).readOver (g / 32) (s.group g).db.toNat 512).setGroup g (fun y => { y with outstanding := false })

/-- Advancing the time changes nothing else. -/
theorem State.time_only (s : State) (now : Long) : Only [.time] s { s with clk.time := now } := by
  refine ⟨rfl, fun p => ?_⟩
  cases p
  case time => exact .inl (by decide)
  all_goals exact .inr (by simp [Part.same])

/-- What the end of the read may change. -/
theorem State.blockArrived_only (s : State) (g : Nat) (now : Long) : Only [.time, .ports, .groups] s (s.blockArrived g now) :=
  Only.of (State.setGroup_only _ _ _) rfl (Only.of (State.readOver_only _ _ _ _) rfl ((s.time_only now).mono rfl))

/-- A read that fails raises HOST_READ_ERR and leaves the group free for its next poll. -/
theorem State.doorbellRead_failed {s : State} {g : Nat} (hout : (s.group g).outstanding = true) (seen : List (Fin 64 × Long)) (now : Long) :
    s.doorbellRead g .failed seen now = (s.blockArrived g now).raiseOnce (8192 + g) 0x6108 (unitPort (g / 32)) (g * 64) := by
  unfold State.doorbellRead
  exact if_neg (by simp [hout])

/-- A block changes what its entries change, in their order. -/
theorem State.doorbellRead_ok {s : State} {g : Nat} (hout : (s.group g).outstanding = true) (b : Bytes) (seen : List (Fin 64 × Long)) (now : Long) :
    s.doorbellRead g (.ok b) seen now
      = (List.range 64).foldl (fun (st : State) i => st.doorbell b (visibleAt seen now i) (g * 64 + i)) (s.blockArrived g now) := by
  unfold State.doorbellRead
  exact if_neg (by simp [hout])

/-! ## Doorbell entries (R341, R357) -/

/-- The entry of a queue that is not armed has no effect. -/
theorem State.doorbell_idle {s : State} {q : Nat} (h : (s.queue q).mode ≠ .armed) (b : Bytes) (now : Nat) : s.doorbell b now q = s := if_neg h

/-- A block in whose group one queue is armed does what that queue's entry does, when that leaves the others unarmed. -/
theorem State.doorbellRead_one {s : State} {g i : Nat} (hi : i < 64) (hout : (s.group g).outstanding = true) {b : Bytes}
    {seen : List (Fin 64 × Long)} {now : Long} {t : State} (hothers : ∀ j, j < 64 → j ≠ i → (s.queue (g * 64 + j)).mode ≠ .armed)
    (hentry : (s.blockArrived g now).doorbell b (visibleAt seen now i) (g * 64 + i) = t)
    (hkept : ∀ q, q ≠ g * 64 + i → t.queue q = s.queue q) : s.doorbellRead g (.ok b) seen now = t := by
  rw [State.doorbellRead_ok hout]
  refine (foldl_one i hi _ (fun j hj hne => ?_) (fun j hj hne => ?_)).trans hentry
  · exact State.doorbell_idle (by rw [(s.blockArrived_only g now).queue]; exact hothers j hj hne) _ _
  · refine State.doorbell_idle ?_ _ _
    rw [hentry, hkept _ (by omega)]
    exact hothers j hj hne

/-- No descriptor is asked for while one is being read. -/
theorem State.fetchNext_fetching {s : State} {q : Nat} (h : (s.queue q).fetching = true) : s.fetchNext q = s := if_neg (by simp [h])

/-- An entry that posts slots within the ring (R341), on a queue whose next descriptor is being read. -/
theorem State.postTo_posts {s : State} {q pi lap now : Nat} (hpi : pi < (s.queue q).entries)
    (hring : (s.queue q).ahead (lap * (s.queue q).entries + pi) (s.queue q).f ≤ (s.queue q).entries)
    (hforward : (s.queue q).ahead (s.queue q).c (s.queue q).f ≤ (s.queue q).ahead (lap * (s.queue q).entries + pi) (s.queue q).f)
    (hfetch : (s.queue q).fetching = true) :
    s.postTo q pi lap now
      = s.setQueue q (fun y => { y with d := (lap * (s.queue q).entries + pi) % y.modulus, posted := BitVec.ofNat 64 now }) := by
  unfold State.postTo
  rw [if_neg (by omega)]
  exact State.fetchNext_fetching (by rw [queue_setQueue_self]; exact hfetch)

/-- An entry that moves the host's position within what has been written (R357). -/
theorem State.consumeTo_moves {s : State} {q pi lap : Nat} (hcls : (s.queue q).cls ≠ 2) (hpi : pi < (s.queue q).entries)
    (hring : (s.queue q).ahead (lap * (s.queue q).entries + pi) (s.queue q).k ≤ (s.queue q).ahead (s.queue q).p (s.queue q).k) :
    s.consumeTo q pi lap = s.setQueue q (fun y => { y with k := (lap * (s.queue q).entries + pi) % y.modulus }) := by
  unfold State.consumeTo
  rw [if_neg (by omega)]
  exact if_neg hcls

/-- A queue that is no ring of the export stream halts with its event alone. -/
theorem State.haltQueue_eq {s : State} {q : Nat} (hcls : (s.queue q).cls ≠ 3) (code : Nat) :
    s.haltQueue q code
      = (s.setQueue q (fun x => { x with mode := .halted, code := BitVec.ofNat 16 code })).raise code (unitPort (queuePort q)) q := by
  unfold State.haltQueue
  exact if_neg (fun h => hcls h.1)

/-- An entry of a queue that the host fills, while it is armed. -/
theorem State.doorbell_posts {s : State} {g i : Nat} (hi : i < 64) (hmode : (s.queue (g * 64 + i)).mode = .armed)
    (hcls : (s.queue (g * 64 + i)).cls = 0) (b : Bytes) (now : Nat) :
    s.doorbell b now (g * 64 + i) = s.postTo (g * 64 + i) (field b (8 * i) 4) (field b (8 * i + 4) 4) now := by
  have hoff : (g * 64 + i) % 64 = i := by omega
  unfold State.doorbell
  rw [if_pos hmode, hcls, hoff]
  exact if_neg (by decide)

/-- An entry of a TELEMETRY ring, while it is armed. -/
theorem State.doorbell_consumes {s : State} {g i : Nat} (hi : i < 64) (hmode : (s.queue (g * 64 + i)).mode = .armed)
    (hcls : (s.queue (g * 64 + i)).cls = 3) (b : Bytes) (now : Nat) :
    s.doorbell b now (g * 64 + i) = s.consumeTo (g * 64 + i) (field b (8 * i) 4) (field b (8 * i + 4) 4) := by
  have hoff : (g * 64 + i) % 64 = i := by omega
  unfold State.doorbell
  rw [if_pos hmode, hcls, hoff]
  exact if_pos (by decide)

/-- An entry past the ring halts its queue (R341). -/
theorem State.postTo_pastRing {s : State} {q pi : Nat} (h : (s.queue q).entries ≤ pi) (lap now : Nat) : s.postTo q pi lap now = s.haltQueue q 0x6105 :=
  if_pos (.inl h)

/-- The other queues stay when one queue changes after the block has arrived. -/
theorem State.setQueue_blockArrived_other (s : State) (g : Nat) (now : Long) {q j : Nat} (f : Queue → Queue) (h : j ≠ q) :
    ((s.blockArrived g now).setQueue q f).queue j = s.queue j := by
  rw [queue_setQueue, if_neg (Ne.symm h), (s.blockArrived_only g now).queue]

section
variable {s : State} {g i : Nat} {b : Bytes} {seen : List (Fin 64 × Long)} {now : Long} (hi : i < 64)
  (hout : (s.group g).outstanding = true) (harmed : (s.queue (g * 64 + i)).mode = .armed)
  (hothers : ∀ j, j < 64 → j ≠ i → (s.queue (g * 64 + j)).mode ≠ .armed)
include hi hout harmed hothers

/-- One submission queue is armed, and its entry posts slots within the ring (R64, R341). -/
theorem State.doorbellRead_posts (hcls : (s.queue (g * 64 + i)).cls = 0) (hfetch : (s.queue (g * 64 + i)).fetching = true)
    (hpi : field b (8 * i) 4 < (s.queue (g * 64 + i)).entries)
    (hring : (s.queue (g * 64 + i)).ahead (field b (8 * i + 4) 4 * (s.queue (g * 64 + i)).entries + field b (8 * i) 4) (s.queue (g * 64 + i)).f
      ≤ (s.queue (g * 64 + i)).entries)
    (hforward : (s.queue (g * 64 + i)).ahead (s.queue (g * 64 + i)).c (s.queue (g * 64 + i)).f
      ≤ (s.queue (g * 64 + i)).ahead (field b (8 * i + 4) 4 * (s.queue (g * 64 + i)).entries + field b (8 * i) 4) (s.queue (g * 64 + i)).f) :
    s.doorbellRead g (.ok b) seen now
      = (s.blockArrived g now).setQueue (g * 64 + i) (fun y => { y with
          d := (field b (8 * i + 4) 4 * (s.queue (g * 64 + i)).entries + field b (8 * i) 4) % y.modulus
          posted := BitVec.ofNat 64 (visibleAt seen now i) }) := by
  have hq := (s.blockArrived_only g now).queue (g * 64 + i)
  refine State.doorbellRead_one hi hout hothers ?_ fun q hne => s.setQueue_blockArrived_other g now _ hne
  rw [State.doorbell_posts hi (by rw [hq]; exact harmed) (by rw [hq]; exact hcls), ← hq]
  rw [← hq] at hfetch hpi hring hforward
  exact State.postTo_posts hpi hring hforward hfetch

/-- One TELEMETRY ring is armed, and its entry moves the host's position (R357). -/
theorem State.doorbellRead_consumes (hcls : (s.queue (g * 64 + i)).cls = 3) (hpi : field b (8 * i) 4 < (s.queue (g * 64 + i)).entries)
    (hring : (s.queue (g * 64 + i)).ahead (field b (8 * i + 4) 4 * (s.queue (g * 64 + i)).entries + field b (8 * i) 4) (s.queue (g * 64 + i)).k
      ≤ (s.queue (g * 64 + i)).ahead (s.queue (g * 64 + i)).p (s.queue (g * 64 + i)).k) :
    s.doorbellRead g (.ok b) seen now
      = (s.blockArrived g now).setQueue (g * 64 + i) (fun y => { y with
          k := (field b (8 * i + 4) 4 * (s.queue (g * 64 + i)).entries + field b (8 * i) 4) % y.modulus }) := by
  have hq := (s.blockArrived_only g now).queue (g * 64 + i)
  refine State.doorbellRead_one hi hout hothers ?_ fun q hne => s.setQueue_blockArrived_other g now _ hne
  rw [State.doorbell_consumes hi (by rw [hq]; exact harmed) (by rw [hq]; exact hcls), ← hq]
  rw [← hq] at hpi hring hcls
  exact State.consumeTo_moves (by rw [hcls]; decide) hpi hring

/-- One submission queue is armed, and its entry names a slot past the ring (R341). -/
theorem State.doorbellRead_halts (hcls : (s.queue (g * 64 + i)).cls = 0) (hpi : (s.queue (g * 64 + i)).entries ≤ field b (8 * i) 4) :
    s.doorbellRead g (.ok b) seen now
      = ((s.blockArrived g now).setQueue (g * 64 + i) (fun x => { x with mode := .halted, code := 0x6105 })).raise 0x6105
          (unitPort (queuePort (g * 64 + i))) (g * 64 + i) := by
  have hq := (s.blockArrived_only g now).queue (g * 64 + i)
  refine State.doorbellRead_one hi hout hothers ?_ fun q hne => ?_
  · rw [State.doorbell_posts hi (by rw [hq]; exact harmed) (by rw [hq]; exact hcls), State.postTo_pastRing (by rw [hq]; exact hpi)]
    exact State.haltQueue_eq (by rw [hq, hcls]; decide) 0x6105
  · rw [(State.raise_only _ _ _ _ _ _).queue]
    exact s.setQueue_blockArrived_other g now _ hne

end

/-- Settles O15: a poll asks for the block; a read that fails frees the group; and an entry posts, moves the host's position or halts its
queue, by the laws above. -/
theorem pollsAndDoorbells : Obligations.PollsAndDoorbells := by
  intro s g now seen
  refine ⟨fun hon hnone hport => ?_, fun hout => ?_, fun i b x hout hx harmed hothers => ?_⟩
  · refine congrArg Host.Outcome.next ((State.pollGroup_open hon hnone hport).trans ?_)
    exact readHost_open (portOpen_of hport rfl)
  · refine ⟨_, congrArg Host.Outcome.next (State.doorbellRead_failed hout seen now), ?frame, ?group⟩
    · exact Only.of (State.raiseOnce_only _ _ _ _ _ _ _) rfl ((s.blockArrived_only g now).mono rfl)
    · rw [(State.raiseOnce_only _ _ _ _ _ _ _).group]
      unfold State.blockArrived
      rw [group_setGroup, if_pos rfl, (State.readOver_only _ _ _ _).group]
      rfl
  · have hframe : ∀ f, Only [.time, .ports, .groups, .queues] s ((s.blockArrived g now).setQueue (g.val * 64 + i.val) f) := fun f =>
      Only.of (State.setQueue_only _ _ _) rfl ((s.blockArrived_only g now).mono rfl)
    have hqueue := (s.blockArrived_only g now).queue (g.val * 64 + i.val)
    subst hx
    refine ⟨fun hcls hfetch hpi hring hforward => ?_, fun hcls hpi hring => ?_, fun hcls hpi => ?_⟩
    · refine ⟨_, congrArg Host.Outcome.next (State.doorbellRead_posts i.isLt hout harmed hothers hcls hfetch hpi hring hforward), hframe _, ?_⟩
      rw [queue_setQueue_self, hqueue]
    · refine ⟨_, congrArg Host.Outcome.next (State.doorbellRead_consumes i.isLt hout harmed hothers hcls hpi hring), hframe _, ?_⟩
      rw [queue_setQueue_self, hqueue]
    · refine ⟨_, congrArg Host.Outcome.next (State.doorbellRead_halts i.isLt hout harmed hothers hcls hpi), ?_, ?_, ?_⟩
      · exact Only.of (State.raise_only _ _ _ _ _ _) rfl ((hframe _).mono rfl)
      · rw [(State.raise_only _ _ _ _ _ _).queue, queue_setQueue_self, hqueue]
      · refine (Raised.of_raise _ _ _ _ _ _).from ?_
        exact (hframe _).get .events rfl

/-! ## Descriptors as they are read (R344, R352, R353) -/

/-- The read of the descriptor at position C has ended. -/
def State.descArrived (s : State) (q : Nat) (now : Long) : State :=
  ({ s with clk.time := now } : State).readOver (queuePort q) ((s.queue q).ring.toNat + 64 * (s.queue q).slot (s.queue q).c) 64

/-- What the end of the read may change. -/
theorem State.descArrived_only (s : State) (q : Nat) (now : Long) : Only [.time, .ports] s (s.descArrived q now) :=
  Only.of (State.readOver_only _ _ _ _) rfl ((s.time_only now).mono rfl)

section
variable {s : State} {q : Nat} {now : Long} (hmode : (s.queue q).mode = .armed) (hfetch : (s.queue q).fetching = true)
include hmode hfetch

/-- A read that ends well goes on by the LAP of its position (R344). -/
theorem State.descriptorFetched_ok (data : Bytes) :
    s.descriptorFetched q (.ok data) now
      = if dLap (slice data 0 64) = (s.queue q).c / (s.queue q).entries % 2 ^ 32 then
          ((s.descArrived q now).acceptDesc q (slice data 0 64)).fetchNext q
        else (s.descArrived q now).lapMismatch q := by
  unfold State.descriptorFetched
  exact (if_neg (by simp [hfetch])).trans (if_neg (by simp [hmode]))

/-- A read that fails leaves a descriptor without its bytes, which fails (R353). -/
theorem State.descriptorFetched_failed :
    s.descriptorFetched q .failed now
      = (((s.descArrived q now).pushDesc q (blindDesc (s.queue q).c)).failDesc q (s.queue q).c 0x6108).fetchNext q := by
  unfold State.descriptorFetched
  exact (if_neg (by simp [hfetch])).trans (if_neg (by simp [hmode]))

end

/-- A queue as the descriptor at C is put behind the others. -/
theorem State.pushDesc_queue (s : State) (q : Nat) (d : Desc) :
    (s.pushDesc q d).queue q
      = { s.queue q with
          c := (s.queue q).next (s.queue q).c, descs := (s.queue q).descs ++ [d], fetching := false, rereads := 0, stale := false } :=
  queue_setQueue_self s q _

/-- A descriptor that passes the first round and names no source is ready, and eligible from Q + 20 µs (R64, R352). -/
theorem State.acceptDesc_ready {s : State} {q : Nat} {b : Bytes} (hop : dOp b ≠ 3) (hround : s.round1 b (queuePort q) (s.queue q).cls = none) :
    s.acceptDesc q b
      = s.pushDesc q { pos := (s.queue q).c, bytes := b, stage := .ready, readyAt := s.readyTime q (s.queue q).posted.toNat } := by
  unfold State.acceptDesc
  simp only [hround, if_neg hop]

/-- Nothing more is asked for once C has reached D. -/
theorem State.fetchNext_caughtUp {s : State} {q : Nat} (h : (s.queue q).c = (s.queue q).d) : s.fetchNext q = s := if_neg (by simp [h])

/-- Asking for the next descriptor changes of its queue only that one is being read. -/
theorem State.fetchNext_queue (s : State) (q : Nat) : ∃ reading : Bool, (s.fetchNext q).queue q = { s.queue q with fetching := reading } := by
  unfold State.fetchNext
  extract_lets x
  split
  · refine ⟨true, ?_⟩
    rw [(State.readHost_only _ _ _ _).queue, queue_setQueue_self]
  · exact ⟨x.fetching, rfl⟩

/-- Asking for the next descriptor counts no failed one. -/
theorem State.fetchNext_descFail (s : State) (q : Nat) : (s.fetchNext q).host.descFail = s.host.descFail := by
  unfold State.fetchNext
  extract_lets x
  split
  · exact ((State.readHost_only _ _ _ _).get .queues rfl).2
  · rfl

/-- A descriptor behind others of other positions is the one that its position names. -/
theorem Queue.withDone_append {x : Queue} {ds : List Desc} {d : Desc} (hdescs : x.descs = ds ++ [d]) (h : ∀ e ∈ ds, e.pos ≠ d.pos)
    (status result : Nat) :
    (x.withDone d.pos status result).descs = ds ++ [{ d with stage := .finished, status := BitVec.ofNat 16 status, result := result }] := by
  have hsame : ds.map (fun e => if e.pos = d.pos then
      { e with stage := .finished, status := BitVec.ofNat 16 status, result := result } else e) = ds :=
    (List.map_congr_left fun e he => if_neg (h e he)).trans (List.map_id ds)
  unfold Queue.withDone
  simp only [hdescs, List.map_append, hsame, List.map_cons, List.map_nil, if_true]

/-- Before the eighth re-read another LAP leaves the descriptor for another read (R344). -/
theorem State.lapMismatch_again {s : State} {q : Nat} (h : (s.queue q).rereads < 8) :
    s.lapMismatch q = s.setQueue q (fun y => { y with stale := true, fetching := false }) := if_pos h

/-- A descriptor that is done leaves the class of its queue. -/
theorem Queue.withDone_cls (x : Queue) (pos status result : Nat) : (x.withDone pos status result).cls = x.cls := rfl

/-- A queue that is no ring of the export stream halts with its code and its event, and counts no failed descriptor. -/
theorem State.haltQueue_facts {s : State} {q : Nat} (hcls : (s.queue q).cls ≠ 3) (code : Nat) :
    ((s.haltQueue q code).queue q).mode = .halted ∧ ((s.haltQueue q code).queue q).code = BitVec.ofNat 16 code
      ∧ Raised (BitVec.ofNat 16 code) (unitPort (queuePort q)) s (s.haltQueue q code)
      ∧ (s.haltQueue q code).host.descFail = s.host.descFail := by
  rw [State.haltQueue_eq hcls]
  refine ⟨?_, ?_, (Raised.of_raise _ _ _ _ _ _).from rfl, ((State.raise_only _ _ _ _ _ _).get .queues rfl).2⟩
  all_goals rw [(State.raise_only _ _ _ _ _ _).queue, queue_setQueue_self]

/-- After the eighth re-read the queue halts with LAP_ERR, and the descriptor counts as failed (R344). -/
theorem State.lapMismatch_halts {s : State} {q : Nat} (h : 8 ≤ (s.queue q).rereads) (hcls : (s.queue q).cls ≠ 3) :
    ((s.lapMismatch q).queue q).mode = .halted ∧ ((s.lapMismatch q).queue q).code = 0x6104
      ∧ Raised 0x6104 (unitPort (queuePort q)) s (s.lapMismatch q)
      ∧ (s.lapMismatch q).host.descFail = satAdd s.host.descFail 1 := by
  have hkept : (((s.pushDesc q (blindDesc (s.queue q).c)).finishDesc q (s.queue q).c 0x6104 0).queue q).cls = (s.queue q).cls := by
    rw [finishDesc_queue, Queue.withDone_cls, State.pushDesc_queue]
  obtain ⟨hmode, hcode, hraised, hcount⟩ := State.haltQueue_facts (hkept.trans_ne hcls) 0x6104
  unfold State.lapMismatch
  rw [if_neg (by omega)]
  exact ⟨hmode, hcode, hraised.from rfl, congrArg (satAdd · 1) hcount⟩

/-- A descriptor with another LAP is read again while its port is open (R344). -/
theorem State.lapReread_open {s : State} {q : Nat} (hmode : (s.queue q).mode = .armed) (hstale : (s.queue q).stale = true) :
    s.lapReread q = (s.setQueue q (fun y => { y with stale := false, fetching := true, rereads := y.rereads + 1 })).readHost (queuePort q)
      ((s.queue q).ring.toNat + 64 * (s.queue q).slot (s.queue q).c) 64 := if_pos ⟨hmode, hstale⟩

/-- Settles O16: by the LAP of a descriptor's position it is accepted, read again, or halts its queue; and a read that fails makes it fail. -/
theorem descriptorReads : Obligations.DescriptorReads := by
  intro s q x now data hx hmode
  subst hx
  have hqueue := (s.descArrived_only q.val now).queue q.val
  refine ⟨fun hfetch hnext hlap hop hround => ?accepted, fun hfetch hreads hlap => ?again, fun hfetch hreads hcls hlap => ?halted,
    fun hfetch hpos => ?failed, fun hstale hport => ?reread⟩
  case accepted =>
    have hready := State.acceptDesc_ready (s := s.descArrived q.val now) (q := q.val) hop (by rw [hqueue]; exact hround)
    have hpushed := State.pushDesc_queue (s.descArrived q.val now) q.val
      { pos := (s.queue q.val).c, bytes := slice data 0 64, stage := .ready
        readyAt := (s.descArrived q.val now).readyTime q.val (s.queue q.val).posted.toNat }
    rw [hqueue] at hready hpushed
    refine ⟨_, congrArg Host.Outcome.next ((State.descriptorFetched_ok hmode hfetch data).trans (if_pos hlap)), ?_, ?_⟩
    all_goals rw [hready, State.fetchNext_caughtUp (by rw [hpushed]; exact hnext)]
    · exact Only.of (State.setQueue_only _ _ _) rfl ((s.descArrived_only q.val now).mono rfl)
    · rw [hpushed, hnext]
      unfold State.readyTime
      rw [(s.descArrived_only q.val now).group]
  case again =>
    refine ⟨_, congrArg Host.Outcome.next ((State.descriptorFetched_ok hmode hfetch data).trans (if_neg hlap)), ?_, ?_⟩
    all_goals rw [State.lapMismatch_again (by rw [hqueue]; exact hreads)]
    · exact Only.of (State.setQueue_only _ _ _) rfl ((s.descArrived_only q.val now).mono rfl)
    · rw [queue_setQueue_self, hqueue]
  case halted =>
    obtain ⟨hmode', hcode, hraised, hfail⟩ := State.lapMismatch_halts (s := s.descArrived q.val now) (q := q.val) (by rw [hqueue]; exact hreads)
      (by rw [hqueue]; exact hcls)
    refine ⟨_, congrArg Host.Outcome.next ((State.descriptorFetched_ok hmode hfetch data).trans (if_neg hlap)), hmode', hcode, ?_, ?_⟩
    · exact hraised.from ((s.descArrived_only q.val now).get .events rfl)
    · rw [hfail, ((s.descArrived_only q.val now).get .queues rfl).2]
  case failed =>
    obtain ⟨hfailed, hcount⟩ := failDesc_facts ((s.descArrived q.val now).pushDesc q.val (blindDesc (s.queue q.val).c)) q.val
      (s.queue q.val).c 0x6108
    obtain ⟨reading, hfetched⟩ := State.fetchNext_queue
      (((s.descArrived q.val now).pushDesc q.val (blindDesc (s.queue q.val).c)).failDesc q.val (s.queue q.val).c 0x6108) q.val
    rw [hfailed, State.pushDesc_queue, hqueue] at hfetched
    refine ⟨_, congrArg Host.Outcome.next (State.descriptorFetched_failed hmode hfetch), ?_, ?_, ?_, ?_⟩
    · rw [hfetched]
      rfl
    · rw [hfetched]
      rfl
    · rw [State.fetchNext_descFail, hcount]
      exact congrArg (satAdd · 1) ((s.descArrived_only q.val now).get .queues rfl).2
    · rw [hfetched]
      exact Queue.withDone_append (d := blindDesc (s.queue q.val).c) rfl hpos 0x6108 0
  case reread =>
    refine congrArg Host.Outcome.next ((State.lapReread_open hmode hstale).trans ?_)
    exact readHost_open (portOpen_of hport rfl)

end Sys2Proof.Machine
end

section
/-! SUPPORT and CLAIM. What a queue takes in its turn (R55, R64, R345, R350, R351, R355): batches, fences, NOP and snapshots, one law for
each way that the command goes, and the obligation about them. -/

-- Checked one theorem at a time: the package as one text then needs less memory.
set_option Elab.async false

namespace Sys2Proof.Machine

/-! ## Batches (R55, R64, R345) -/

/-- A batch within the maxima of the plan and of the step enters the coming step. -/
theorem State.takeBatch_enters {s : State} {q : Nat} {d : Desc} {p : Plan} (hready : s.readyDesc q 1 = some d) (hplan : s.plan = some p)
    (hopen : s.seq.next.active = true) (hclosed : s.seq.next.closed = false) (hdone : s.emb.next.done = false) (hfill : s.filling = false)
    (hmax : overMaxima p.header d.bytes = []) (hfits : fitsStep p.header s.seq.next d.bytes = true) :
    s.takeBatch q = s.enterBatch q d := by
  unfold State.takeBatch
  simp only [hready, hplan, hopen, hclosed, hdone, hfill, hmax, hfits]
  rfl

/-- No batch is taken without an open intake. -/
theorem State.takeBatch_shut {s : State} {q : Nat} (h : s.seq.next.active = false ∨ s.seq.next.closed = true) : s.takeBatch q = s := by
  unfold State.takeBatch
  extract_lets i
  have hshut : (!i.active || i.closed || s.emb.next.done || (s.filling && s.seq.doneSent)) = true := by
    rcases h with h | h <;> simp [i, h]
  split
  · exact if_pos hshut
  · rfl

/-- The queue of a batch that enters a step. -/
theorem State.enterBatch_queue (s : State) (q : Nat) (d : Desc) :
    (s.enterBatch q d).queue q = { s.queue q with descs := (s.queue q).descs.map (fun x => if x.pos = d.pos then
      { x with stage := .taken, step := s.nextStep, sampleBase := s.seq.next.samples, covered := s.inTime x || x.covered } else x) } := by
  unfold State.enterBatch
  rw [(State.readBuffer_only _ _ _ _ _).queue]
  exact setDesc_queue _ q d.pos _

/-- What a batch adds to the step that it enters. -/
theorem State.enterBatch_next (s : State) (q : Nat) (d : Desc) :
    (s.enterBatch q d).seq.next = { s.seq.next with
      ended := false, order := s.seq.next.order ++ [(q, d.pos)], batches := s.seq.next.batches + 1
      samples := s.seq.next.samples + dSamples d.bytes, events := s.seq.next.events + dEvents d.bytes
      bytes := s.seq.next.bytes + dBufLen d.bytes } := by
  unfold State.enterBatch
  exact ((State.readBuffer_only _ _ _ _ _).get .intake rfl).2

/-- Position, stage and step of the descriptors once the one at a position is bound to a step. -/
theorem map_taken {descs : List Desc} {pos : Nat} {step : BitVec 48} {f : Desc → Desc}
    (hf : ∀ x, ((f x).pos, (f x).stage, (f x).step) = (x.pos, DescStage.taken, step)) :
    (descs.map (fun x => if x.pos = pos then f x else x)).map (fun e => (e.pos, e.stage, e.step))
      = descs.map (fun e => (e.pos, if e.pos = pos then .taken else e.stage, if e.pos = pos then step else e.step)) := by
  rw [List.map_map]
  refine List.map_congr_left fun x _ => ?_
  simp only [Function.comp_apply]
  split
  · exact hf x
  · rfl

/-- An evaluation batch is bound to the coming step while its intake is open (R55). -/
theorem State.takeEval_taken {s : State} {q : Nat} {d : Desc} (hready : s.readyDesc q 2 = some d) (hplan : s.plan.isSome = true)
    (hopen : s.seq.next.active = true) :
    s.takeEval q = State.readBuffer (dBufLen d.bytes / 4096 + 1)
      (s.setDesc q d.pos (fun x => { x with stage := .taken, step := s.nextStep, covered := s.inTime x })) (queuePort q) (dBufAddr d.bytes)
      (dBufLen d.bytes) := by
  unfold State.takeEval
  simp only [hready]
  exact if_pos (by rw [hplan, hopen]; rfl)

/-! ## Fences (R350) -/

/-- A fence that waits for nothing, or for another armed queue, holds its queue. -/
theorem State.takeFence_waits {s : State} {q : Nat} {d : Desc} (hready : s.readyDesc q 6 = some d)
    (h : dFlag d.bytes = false ∨ (dTable d.bytes ≠ q ∧ (s.queue (dTable d.bytes)).mode = .armed)) :
    s.takeFence q = s.setQueue q (fun x => x.withStage d.pos .waiting) := by
  have hgood : ¬ (dFlag d.bytes && (dTable d.bytes == q || (s.queue (dTable d.bytes)).mode != .armed)) = true := by
    rcases h with h | ⟨hother, harmed⟩
    · simp [h]
    · simp [hother, harmed]
  unfold State.takeFence
  simp only [hready]
  exact if_neg hgood

/-- A fence that waits for its own queue, or for one that is not armed, fails. -/
theorem State.takeFence_fails {s : State} {q : Nat} {d : Desc} (hready : s.readyDesc q 6 = some d) (hflag : dFlag d.bytes = true)
    (h : dTable d.bytes = q ∨ (s.queue (dTable d.bytes)).mode ≠ .armed) : s.takeFence q = s.failDesc q d.pos 0x6107 := by
  have hbad : (dFlag d.bytes && (dTable d.bytes == q || (s.queue (dTable d.bytes)).mode != .armed)) = true := by
    rcases h with h | h <;> simp [hflag, h]
  unfold State.takeFence
  simp only [hready]
  exact if_pos hbad

/-- A fence at the front of its queue ends once what it waits for has been reached. -/
theorem State.endFence_ends {s : State} {q : Nat} {d : Desc}
    (hfront : (s.queue q).descs.find? (fun e => e.pos == (s.queue q).f && e.stage == .waiting && dOp e.bytes == 6) = some d)
    (h : dFlag d.bytes = false ∨ ((s.queue (dTable d.bytes)).mode = .armed ∧ (s.queue (dTable d.bytes)).reached (dWaitPos d.bytes) = true)) :
    s.endFence q = s.finishDesc q d.pos 0 0 := by
  unfold State.endFence
  simp only [hfront]
  rcases h with h | ⟨harmed, hreached⟩
  · exact if_pos (by rw [h]; rfl)
  · by_cases hflag : (!dFlag d.bytes) = true
    · exact if_pos hflag
    · exact (if_neg hflag).trans ((if_neg (by simp [harmed])).trans (if_pos hreached))

/-! ## NOP and snapshots (R351, R355) -/

/-- A NOP ends in its turn. -/
theorem State.takeNop_ends {s : State} {q : Nat} {d : Desc} (hready : s.readyDesc q 8 = some d) : s.takeNop q = s.finishDesc q d.pos 0 0 := by
  unfold State.takeNop
  simp only [hready]

/-- A snapshot ends with the words of the window that it names. -/
theorem State.takeSnapshot_queue {s : State} {q : Nat} {d : Desc} (hready : s.readyDesc q 7 = some d) :
    ((s.takeSnapshot q).queue q).descs = (s.queue q).descs.map (fun e => if e.pos = d.pos then
      { e with
        stage := .finished, status := 0, result := dWinLen d.bytes
        data := s.snapshot (queuePort q) (dWinOffset d.bytes) (dWinLen d.bytes) }
      else e) := by
  unfold State.takeSnapshot
  simp only [hready]
  rw [finishDesc_queue, setDesc_queue]
  unfold Queue.withDone
  simp only [List.map_map]
  refine List.map_congr_left fun e _ => ?_
  by_cases hpos : e.pos = d.pos
  · simp only [Function.comp_apply, if_pos hpos]
    rfl
  · simp only [Function.comp_apply, if_neg hpos]

/-- Settles O18: each command takes the ready descriptor of its queue by the laws above, and without an open intake no batch is taken (log 32).
Any ready queue's batch may be taken (log 17). -/
theorem queueOperations : Obligations.QueueOperations := by
  intro s q d
  refine ⟨fun p hready hplan hopen hclosed hdone hfill hmax hfits => ?batch, fun _ hshut => ?shut, fun hready hplan hopen => ?eval,
    fun hready h => ?waits, fun hready hflag h => ?fails, fun hfront h => ?ends, fun hready => ?nop, fun hready => ?snapshot⟩
  case batch =>
    have hnext := s.enterBatch_next q.val d
    refine ⟨_, congrArg Host.Outcome.next (State.takeBatch_enters hready hplan hopen hclosed hdone hfill hmax hfits), ?_, ?_, ?_, ?_, ?_, ?_, ?_⟩
    · exact (State.enterBatch_only _ _ _).mono rfl
    · exact congrArg IntakeState.order hnext
    · exact congrArg IntakeState.batches hnext
    · exact congrArg IntakeState.samples hnext
    · exact congrArg IntakeState.events hnext
    · exact congrArg IntakeState.bytes hnext
    · rw [s.enterBatch_queue q.val d]
      exact map_taken fun _ => rfl
  case shut => exact congrArg Host.Outcome.next (State.takeBatch_shut hshut)
  case eval =>
    refine ⟨_, congrArg Host.Outcome.next (State.takeEval_taken hready hplan hopen), ?_, ?_⟩
    · exact Only.of (State.readBuffer_only _ _ _ _ _) rfl ((State.setDesc_only _ _ _ _).mono rfl)
    · rw [(State.readBuffer_only _ _ _ _ _).queue, setDesc_queue]
      exact map_taken fun _ => rfl
  case waits => exact congrArg Host.Outcome.next (State.takeFence_waits hready h)
  case fails => exact ⟨_, congrArg Host.Outcome.next (State.takeFence_fails hready hflag h), (failDesc_facts _ _ _ _).1⟩
  case ends => exact congrArg Host.Outcome.next (State.endFence_ends hfront h)
  case nop => exact congrArg Host.Outcome.next (State.takeNop_ends hready)
  case snapshot => exact ⟨_, rfl, State.takeSnapshot_only s q.val, State.takeSnapshot_queue hready⟩

end Sys2Proof.Machine
end

section
/-! SUPPORT and CLAIM. Lookups (R67, R153, R154, R157, R159, R160, R162): separation, unions, the gather and pool stages and the row cache,
one law for each way that the command goes, and the obligation about them. -/

-- Checked one theorem at a time: the package as one text then needs less memory.
set_option Elab.async false

namespace Sys2Proof.Machine

/-! ## Separation (R153, R154) -/

/-- A batch without an invalid lookup is separated without an event. -/
theorem State.separateNext_valid {s : State} (hended : s.seq.next.ended = true) (hdone : s.emb.next.done = false)
    (hvalid : (separateLookups (s.boundTable s.nextStep) (batchLookups s.nextBatches)).invalid = []) :
    s.separateNext = { s with
      emb.next := separateLookups (s.boundTable s.nextStep) (batchLookups s.nextBatches)
      emb.sortScratch := sortedLookups (batchLookups s.nextBatches) } := by
  unfold State.separateNext
  rw [if_neg (by simp [hended, hdone])]
  extract_lets n
  rw [hvalid]
  rfl

/-- Nothing is separated before the intake has ended, or a second time. -/
theorem State.separateNext_idle {s : State} (h : s.seq.next.ended = false ∨ s.emb.next.done = true) : s.separateNext = s := by
  unfold State.separateNext
  refine if_pos ?_
  rcases h with h | h <;> simp [h]

/-! ## Unions (R67, R157) -/

/-- What an owner's union makes of the step's lookups, outside the evaluation slot. -/
theorem State.aggregateOwner_emb {s : State} (hnew : s.emb.now.aggregated = false) (hlists : s.listsArrived = true)
    (heval : s.inEvaluation = false) :
    s.aggregateOwner.emb = { s.emb with
      now.owned := unionRows s.me (s.sendList s.me ++ (s.listsFor s.me).flatMap (·.2)), now.aggregated := true
      served := unionRows s.me (s.sendList s.me ++ (s.listsFor s.me).flatMap (·.2)) } := by
  have hcheck : ∀ (ts : List TableVer) (st : State),
      (ts.foldl (fun (st : State) t => (st.ownedRanges t).foldl (fun (st : State) (r : ShardRange × Nat) => st.checkRange t r.2) st) st).emb = st.emb := by
    intro ts st
    exact (Only.foldl (fun st t => Only.foldl (fun (st : State) (r : ShardRange × Nat) => st.checkRange_only t r.2) _ st) ts st).emb
  unfold State.aggregateOwner
  rw [if_neg (by simp [hnew, hlists])]
  simp only [heval, Bool.false_eq_true, if_false]
  exact hcheck _ _

/-- A proxy's union is formed once every list of its pen is there. -/
theorem State.aggregateProxy_agg {s : State} {owner : Nat} (hready : s.proxyReady owner = true)
    (hnew : s.emb.now.agg.any (fun a => a.1 == owner) = false) :
    (s.aggregateProxy owner).emb.now.agg
      = s.emb.now.agg ++ [(owner, unionRows owner (s.sendList owner ++ (s.listsFor owner).flatMap (·.2)))] := by
  unfold State.aggregateProxy
  rw [if_pos (by simp [hready, hnew])]
  exact congrArg (·.now.agg) (State.exchange_only _ _ _ _ _).emb

/-! ## Gather and pool (R159, R160) -/

/-- A row enters the step's values dequantised. -/
theorem State.gatherRow_values (s : State) (t : TableVer) (row : Nat) (b : Bytes) :
    (s.gatherRow t row b).emb.now.values = NMap.insert s.emb.now.values (rowKey t.id row) (dequantRow t b).1 := by
  have hcounted : ((s.countExceptions (watchKey 2 t.id) (dequantRow t b).2.1).countPoison 0x2101 (watchKey 2 t.id) (dequantRow t b).2.2).emb
      = s.emb := ((State.countPoison_only _ _ _ _).emb).trans (State.countExceptions_only _ _ _).emb
  unfold State.gatherRow
  extract_lets d key s1
  exact congrArg (fun e => NMap.insert e.now.values (rowKey t.id row) (dequantRow t b).1) hcounted

/-- One owned row of the unique list, read and not yet gathered. -/
theorem State.gatherRows_one {s : State} {e : RowRef} {t : TableVer} {b : Bytes} (hunique : s.emb.now.unique = [e]) (howner : e.owner = s.me)
    (htable : s.currentTable e.table = some t) (hnew : NMap.find? s.emb.now.values (rowKey e.table e.row) = none)
    (hread : NMap.find? s.emb.now.rowBytes (rowKey e.table e.row) = some b) : s.gatherRows = s.gatherRow t e.row b := by
  unfold State.gatherRows
  simp only [hunique, List.foldl_cons, List.foldl_nil, hnew, Option.isSome_none, Bool.false_eq_true, if_false, htable, if_pos howner, hread]

/-- The elements of a bag's pooled vector, rounded to YF16, with the signals of the rounding. -/
def Bag.rounded (b : Bag) : List (Nat × Flags) := b.pool.map (fun r => convert binary32 yf16 .rne false 0 r.1)

/-- The state once a bag is in its accumulator and its signals are counted. -/
def State.countBag (s : State) (l : LineId) (b : Bag) : State :=
  (s.setLine l (fun y => { y with bag := b.pool.map (fun r => BitVec.ofNat 32 r.1) })).countExceptions (watchKey 2 b.table.id)
    (b.pool.flatMap (·.2) ++ b.rounded.map (·.2))

/-- What the accumulator and the counts change. -/
theorem State.countBag_only (s : State) (l : LineId) (b : Bag) : Only [.lines, .watch] s (s.countBag l b) :=
  Only.of (State.countExceptions_only _ _ _) rfl ((State.setLine_only _ _ _).mono rfl)

/-- The state once a bag is pooled, before its vector goes to a tile store. -/
def State.keepBag (s : State) (l : LineId) (p f : Nat) (b : Bag) : State :=
  { s.countBag l b with
    emb.now.pooled := (s.countBag l b).emb.now.pooled.filter (fun x => x.1 != p || x.2.1 != f)
      ++ [(p, f, b.rounded.map (fun h => BitVec.ofNat 16 h.1))] }

/-- What is pooled once a bag is. -/
theorem State.keepBag_pooled (s : State) (l : LineId) (p f : Nat) (b : Bag) :
    (s.keepBag l p f b).emb.now.pooled = s.emb.now.pooled.filter (fun x => x.1 != p || x.2.1 != f)
      ++ [(p, f, b.pool.map (fun r => BitVec.ofNat 16 (convert binary32 yf16 .rne false 0 r.1).1))] := by
  have hvector : b.rounded.map (fun h => BitVec.ofNat 16 h.1)
      = b.pool.map (fun r => BitVec.ofNat 16 (convert binary32 yf16 .rne false 0 r.1).1) := List.map_map
  unfold State.keepBag
  rw [hvector, (s.countBag_only l b).emb]

/-- Pooling leaves the plan, and the tile stores until the vector is written. -/
theorem State.keepBag_rest (s : State) (l : LineId) (p f : Nat) (b : Bag) :
    (s.keepBag l p f b).bagPlace f = s.bagPlace f ∧ (s.keepBag l p f b).mem.tiles = s.mem.tiles := by
  have hplan : (s.keepBag l p f b).plan = s.plan := (s.countBag_only l b).get .plan rfl
  refine ⟨?_, ((s.countBag_only l b).get .tiles rfl).1⟩
  unfold State.bagPlace
  rw [hplan]

/-- The vector of a feature that the plan gives no place stays with the step. -/
theorem State.poolBag_unplaced {s : State} {f : Nat} (hplace : s.bagPlace f = none) (l : LineId) (p : Nat) (b : Bag) :
    s.poolBag l p f b = s.keepBag l p f b := by
  have hnone := (s.keepBag_rest l p f b).1.trans hplace
  show (match (s.keepBag l p f b).bagPlace f with | some pl => _ | none => s.keepBag l p f b) = _
  rw [hnone]

/-- The vector of a feature goes to the place that the plan gives it. -/
theorem State.poolBag_placed {s : State} {f : Nat} {pl : BagPlace} (hplace : s.bagPlace f = some pl) (l : LineId) (p : Nat) (b : Bag) :
    s.poolBag l p f b = (s.keepBag l p f b).tileWrite pl.tile.val (pl.addr + p * b.table.dim * 2)
      (elementBytes 2 (b.pool.map (fun r => (convert binary32 yf16 .rne false 0 r.1).1))) := by
  have hsome := (s.keepBag_rest l p f b).1.trans hplace
  have hbytes : b.rounded.map (fun h : Nat × Flags => h.1) = b.pool.map (fun r => (convert binary32 yf16 .rne false 0 r.1).1) := List.map_map
  rw [← hbytes]
  show (match (s.keepBag l p f b).bagPlace f with
    | some pl => (s.keepBag l p f b).tileWrite pl.tile.val (pl.addr + p * b.table.dim * 2) (elementBytes 2 (b.rounded.map (fun h : Nat × Flags => h.1)))
    | none => s.keepBag l p f b) = _
  rw [hsome]

/-! ## The row cache (R162, R163) -/

/-- Reads of a block leave the row cache. -/
theorem State.readBlock_rowCache (s : State) (b : Nat) : (s.readBlock b 0).1.mem.rowCache = s.mem.rowCache := by
  have hbad : (s.blockBad b).mem.rowCache = s.mem.rowCache := by
    obtain ⟨-, -, -, -, hraised⟩ := (State.raise_only (({ s with mem.blockErr := satAdd s.mem.blockErr 1 } : State).countedFault
      (unitChannel (s.place b).1)) 0x4101 (unitChannel (s.place b).1) 0 (s.channelByte b) false).get .mem rfl
    obtain ⟨-, -, -, -, hcounted⟩ := (State.countedFault_only ({ s with mem.blockErr := satAdd s.mem.blockErr 1 } : State)
      (unitChannel (s.place b).1)).get .mem rfl
    exact hraised.trans hcounted
  unfold State.readBlock
  split
  · exact congrArg (fun r : State × BlockRead => r.1.mem.rowCache) (if_pos rfl)
  · exact hbad

/-- Reads of a row's segments leave the row cache. -/
theorem State.readSegments_rowCache (s : State) (t : TableVer) (row : Nat) : (s.readSegments t row).1.mem.rowCache = s.mem.rowCache := by
  unfold State.readSegments
  induction List.range t.segs using List.reverseRecOn with
  | nil => rfl
  | append_singleton gs g ih =>
    rw [List.foldl_append]
    exact (State.readBlock_rowCache _ _).trans ih

/-- A row that may not stay in the cache is not filled (R162). -/
theorem State.fillCache_notKept {s : State} {tile table row : Nat} (h : s.cacheKeeps table row = false ∨ s.fillTurn tile table row = false) :
    s.fillCache tile table row = s := by
  have hidle : ∀ r : Nat × ShardRange,
      (r.2.owner ≠ s.me ∨ s.homeTile table r.1 ≠ some tile ∨ (!s.cacheKeeps table row) = true ∨ (!s.fillTurn tile table row) = true) := by
    intro r
    rcases h with h | h <;> simp [h]
  unfold State.fillCache
  split
  · rfl
  · split
    · rfl
    · exact if_pos (hidle _)

/-- An owned row whose turn has come enters its home tile's empty region while the region has room. -/
theorem State.fillCache_enters {s : State} {tile table row : Nat} {t : TableVer} {r : Nat × ShardRange} (htable : s.currentTable table = some t)
    (hrange : t.rangeOf row = some r) (howner : r.2.owner = s.me) (hhome : s.homeTile table r.1 = some tile)
    (hkeeps : s.cacheKeeps table row = true) (hturn : s.fillTurn tile table row = true) (hempty : s.mem.rowCache = [])
    (hroom : t.segs * t.rs ≤ s.cacheBytes tile) : s.fillCache tile table row = s.enterCache t tile row := by
  have hused : ({ s with mem.rowCache := [] } : State).cacheUsed tile = 0 := rfl
  unfold State.fillCache
  simp only [htable, hrange, hempty, List.any_nil, List.filter_nil, hused]
  rw [if_neg (by simp [howner, hhome, hkeeps, hturn])]
  exact if_neg (by simp; omega)

/-- A row whose blocks are read enters an empty cache as its only entry. -/
theorem State.enterCache_empty {s : State} {t : TableVer} {row : Nat} (hempty : s.mem.rowCache = []) (hread : (s.readSegments t row).2.2 = [])
    (tile : Nat) :
    (s.enterCache t tile row).mem.rowCache = [⟨tile, t.id, row, BitVec.ofNat 16 (field ((s.readSegments t row).2.1.headD []) 8 2),
        (s.readSegments t row).2.1⟩]
      ∧ (s.enterCache t tile row).emb = s.emb ∧ (s.enterCache t tile row).mem.hbm = s.mem.hbm := by
  have hcache := (s.readSegments_rowCache t row).trans hempty
  have hrest := s.readSegments_only t row
  unfold State.enterCache
  extract_lets r
  rw [if_pos hread]
  refine ⟨?_, hrest.emb, (hrest.get .hbm rfl).1⟩
  show r.1.mem.rowCache.filter _ ++ _ = _
  rw [hcache]
  rfl

/-- The current version of a table is one of it. -/
theorem State.currentTable_id {s : State} {id : Nat} {t : TableVer} (h : s.currentTable id = some t) : t.id = id := by
  have hfound := List.find?_some h
  simp only [Bool.and_eq_true, beq_iff_eq] at hfound
  exact hfound.1

/-- Settles O23: separation, the unions, the gather and pool stages and the row cache, by the laws above. -/
theorem lookups : Obligations.Lookups := by
  intro s
  refine ⟨fun heval hended hdone hvalid => ?separate, fun heval hidle => ?separated, fun owner howner hnew hlists heval => ?owner,
    fun owner hother hproxy hready hnew => ?proxy, fun l e t b hunique howner htable hnew hread => ?gather,
    fun l p f b hbag hplace => ?pool, fun l p f b pl hbag hplace hfits => ?poolPlaced, fun tile table row hkeeps => ?notKept,
    fun tile table row hturn => ?notYet,
    fun tile table row t r htable hrange howner hhome hkeeps hturn hempty hroom hread => ?fill⟩
  case separate =>
    refine congrArg Host.Outcome.next ((if_neg (by simp [heval])).trans ?_)
    exact State.separateNext_valid hended hdone hvalid
  case separated => exact congrArg Host.Outcome.next ((if_neg (by simp [heval])).trans (State.separateNext_idle hidle))
  case owner =>
    have hemb := State.aggregateOwner_emb hnew hlists heval
    refine ⟨_, congrArg Host.Outcome.next (if_pos howner), ?_, ?_, ?_⟩
    all_goals rw [hemb]
  case proxy =>
    refine ⟨_, congrArg Host.Outcome.next ((if_neg hother).trans (if_pos hproxy)), State.aggregateProxy_agg hready hnew⟩
  case gather =>
    refine ⟨_, rfl, (State.gatherRows_only s).mono rfl, ?_⟩
    rw [State.gatherRows_one hunique howner htable hnew hread]
    exact s.gatherRow_values t e.row b
  case pool =>
    refine ⟨s.poolBag l p f b, ?_, ?_⟩
    · show execPool l p f s = _
      unfold execPool
      simp only [hbag, hplace]
    · rw [State.poolBag_unplaced hplace]
      exact s.keepBag_pooled l p f b
  case poolPlaced =>
    refine ⟨s.poolBag l p f b, ?_, ?_, ?_⟩
    · show execPool l p f s = _
      unfold execPool
      simp only [hbag, hplace, hfits, if_true]
    · rw [State.poolBag_placed hplace, (State.tileWrite_only _ _ _ _).emb]
      exact s.keepBag_pooled l p f b
    · rw [State.poolBag_placed hplace]
      unfold State.tileWrite
      rw [(s.keepBag_rest l p f b).2]
  case notKept => exact congrArg Host.Outcome.next (State.fillCache_notKept (.inl hkeeps))
  case notYet => exact congrArg Host.Outcome.next (State.fillCache_notKept (.inr hturn))
  case fill =>
    obtain ⟨hcache, hemb, hhbm⟩ := State.enterCache_empty hempty hread tile.val
    refine ⟨s.fillCache tile.val table row, rfl, ?_⟩
    rw [State.fillCache_enters htable hrange howner hhome hkeeps hturn hempty hroom]
    exact ⟨hemb, hhbm, by rw [hcache, State.currentTable_id htable]⟩

end Sys2Proof.Machine
end

section
/-! SUPPORT and CLAIM. The time promise, clamps, junctions, coolant and wear (R63, R327, R436, R444, R446, R448, R451, R452): power events, what
suspends the promise, one law for each way that a command goes, and the obligation about them. -/

-- Checked one theorem at a time: the package as one text then needs less memory.
set_option Elab.async false

namespace Sys2Proof.Machine

/-! ## What the controller measures -/

/-- A change of the controller that keeps the events it holds. -/
theorem State.controller_only (s : State) {p : PowerState} (h : p.events = s.pwr.events) : Only [.pwr] s { s with pwr := p } := by
  refine Only.lit (Only.refl s) fun q => ?_
  cases q
  case pwr => exact .inl (by decide)
  case powerEvents => exact .inr h
  all_goals exact .inr (by simp [Part.same])

/-- VIN is seen outside its rated band (R436). -/
def State.vinSeen (s : State) (mv : Half) : State := { s with pwr.vin := mv, pwr.vinOk := false }

/-- The coolant is seen, in or out of specification (R451). -/
def State.coolSeen (s : State) (inlet flow : Half) (pin ok : Bool) : State :=
  { s with pwr.inlet := inlet, pwr.flow := flow, pwr.coolPin := pin, pwr.coolOk := ok }

/-- What is seen of the coolant changes the controller alone. -/
theorem State.coolSeen_only (s : State) (inlet flow : Half) (pin ok : Bool) : Only [.pwr] s (s.coolSeen inlet flow pin ok) :=
  s.controller_only rfl

/-- The whole peak budget is used (R443). -/
def State.peakSpent (s : State) : State := { s with pwr.peakUsed := 250 }

/-! ## Power events (R461) -/

/-- A power event is raised in the tack room, or held by the controller. -/
theorem State.powerEvent_raised (s : State) (code qty : Nat) : PowerEvent (BitVec.ofNat 16 code) s (s.powerEvent code qty) := by
  unfold State.powerEvent
  refine ⟨fun hroom => ?_, fun hroom => ?_⟩
  · rw [if_pos hroom]
    refine ⟨(Raised.of_raise s code 0 0 qty false).to rfl, List.getLast?_concat, ?_⟩
    exact (State.raise_only s code 0 0 qty false).get .powerEvents rfl
  · rw [if_neg (by simp [hroom])]
    refine ⟨⟨List.getLast?_concat, s.eventRec code 0 0 qty false, rfl, ?_⟩, rfl⟩
    show (s.pwr.events ++ [_]).drop ((s.pwr.events ++ [_]).length - 32) = _
    rw [List.length_append]
    rfl

/-- The controller and the sequencer otherwise stay. -/
theorem State.powerEvent_pwr (s : State) (code qty : Nat) :
    (s.powerEvent code qty).pwr = { s.pwr with events := (s.powerEvent code qty).pwr.events } :=
  (s.powerEvent_only code qty).get .pwr rfl

/-- A power event leaves the sequencer. -/
theorem State.powerEvent_seq (s : State) (code qty : Nat) : (s.powerEvent code qty).seq = s.seq := by
  unfold State.powerEvent
  split
  · exact raise_seq s code 0 0 qty false
  · rfl

/-- A power event, then what leaves events, outputs and the controller. -/
theorem PowerEvent.to {c : Half} {s t' t : State} (h : PowerEvent c s t') (hevents : t.events = t'.events) (hout : t.out = t'.out)
    (hheld : t.pwr.events = t'.pwr.events) : PowerEvent c s t := by
  unfold PowerEvent HeldEvent Raised at *
  rw [hevents, hout, hheld]
  exact h

/-- POWER_WAIT changes of the controller only its mark and the events held. -/
theorem State.powerWait_pwr (s : State) :
    s.powerWait.pwr = { s.pwr with waitRaised := s.powerWait.pwr.waitRaised, events := s.powerWait.pwr.events } := by
  unfold State.powerWait
  split
  · have hevent := ({ s with pwr.waitRaised := true } : State).powerEvent_pwr 0x9501 0
    rw [hevent]
  · rfl

/-- POWER_WAIT leaves the sequencer. -/
theorem State.powerWait_seq (s : State) : s.powerWait.seq = s.seq := by
  unfold State.powerWait
  split
  · exact State.powerEvent_seq _ _ _
  · rfl

/-! ## The promise (R63, R436, R446) -/

/-- The causes stand, and the step counts as voided. -/
theorem State.voidPromise_seq (s : State) (f : VoidCauses → VoidCauses) :
    (s.voidPromise f).seq.void = f s.seq.void ∧ (s.voidPromise f).seq.stats.voided = (s.seq.stats.voided || (f s.seq.void).any) := by
  unfold State.voidPromise
  extract_lets v s1
  split
  · rw [raise_seq]
    exact ⟨rfl, rfl⟩
  · exact ⟨rfl, rfl⟩

/-- SPEC_VOID is raised when the promise was in force. -/
theorem State.voidPromise_raised {s : State} {f : VoidCauses → VoidCauses} (hcause : (f s.seq.void).any = true) (hforce : s.seq.void.any = false) :
    Raised 0x9010 0 s (s.voidPromise f) := by
  unfold State.voidPromise
  rw [if_pos (by simp [hcause, hforce])]
  exact (Raised.of_raise _ 0x9010 0 0 0 false).from rfl

/-- A promise that was suspended already raises nothing. -/
theorem State.voidPromise_quiet {s : State} (hvoid : s.seq.void.any = true) (f : VoidCauses → VoidCauses) : (s.voidPromise f).events = s.events := by
  unfold State.voidPromise
  extract_lets v s1
  rw [if_neg (by simp [hvoid])]

/-- Out of the rated band, a powered saddle's promise is suspended (R436). -/
theorem State.vinOut_powered {s : State} (h : s.powered = true) (mv : Half) (code : Nat) :
    s.vinOut mv code
      = ((s.vinSeen mv).powerEvent code mv.toNat).voidPromise (fun v => { v with vin := true }) :=
  if_pos h

/-- Without power only the conditions of power-on are looked at (R439). -/
theorem State.vinOut_unpowered {s : State} (h : s.powered = false) (mv : Half) (code : Nat) :
    s.vinOut mv code = ((s.vinSeen mv).powerEvent code mv.toNat).powerWait :=
  if_neg (by simp [h])

/-- Either way the controller keeps what VIN out of the band does not say. -/
theorem State.vinOut_pwr (s : State) (mv : Half) (code : Nat) :
    (s.vinOut mv code).pwr = { s.pwr with
      vin := mv, vinOk := false, waitRaised := (s.vinOut mv code).pwr.waitRaised, events := (s.vinOut mv code).pwr.events } := by
  have hevent := (s.vinSeen mv).powerEvent_pwr code mv.toNat
  cases hpow : s.powered
  · rw [State.vinOut_unpowered hpow, State.powerWait_pwr, hevent]
    rfl
  · rw [State.vinOut_powered hpow, (State.voidPromise_only _ _).pwr, hevent]
    rfl

/-! ## Clamps (R444, R446) -/

/-- An event that has not been raised in the step is raised. -/
theorem State.raiseOnce_raised {s : State} {mark code : Nat} (h : s.events.once.contains (code, mark) = false) (unit : Half)
    (ident qty : Nat) : Raised (BitVec.ofNat 16 code) unit s (s.raiseOnce mark code unit ident qty) := by
  unfold State.raiseOnce
  rw [if_neg (ne_true_of_eq_false h)]
  exact Raised.of_raise s code unit ident qty false

/-- An event that has been raised in the step is not raised again. -/
theorem State.raiseOnce_again {s : State} {mark code : Nat} (h : s.events.once.contains (code, mark) = true) (unit : Half)
    (ident qty : Nat) : s.raiseOnce mark code unit ident qty = s := if_pos h

/-- A clamp is marked as acting now. -/
def State.clamping (s : State) : State := { s with pwr.clampActed := true, pwr.clamped := true, pwr.clampAt := some s.clk.time }

/-- A clamp acts with PWR_CLAMP. -/
theorem State.clampActs_eq (s : State) : s.clampActs = s.clamping.raiseOnce 0 0x9104 := rfl

/-- What the controller holds once a clamp has acted. -/
theorem State.clampActs_pwr (s : State) :
    s.clampActs.pwr = { s.pwr with clampActed := true, clamped := true, clampAt := some s.clk.time } :=
  (State.raiseOnce_only s.clamping 0 0x9104 0 0 0 false).pwr

/-- PWR_CLAMP once per step. -/
theorem State.clampActs_event (s : State) :
    (s.events.once.contains (0x9104, 0) = false → Raised 0x9104 0 s s.clampActs)
      ∧ (s.events.once.contains (0x9104, 0) = true → s.clampActs.events = s.events) := by
  rw [s.clampActs_eq]
  refine ⟨fun h => ?_, fun h => ?_⟩
  · exact (State.raiseOnce_raised (s := s.clamping) h 0 0 0).from rfl
  · rw [State.raiseOnce_again (s := s.clamping) h]
    rfl

/-- The clock after one step of a clamp: 100 MHz down, not below the floor in force, and never up. -/
def State.clampedClock (s : State) : Nat :=
  min s.pwr.clock.toNat (max (if s.seq.void.any then 2000 else 3000) (s.pwr.clock.toNat - 100))

/-- A step of a clamp sets the clock and acts. -/
theorem State.clampStep_eq (s : State) :
    s.clampStep = ({ s with
      pwr.clock := BitVec.ofNat 16 s.clampedClock, seq.stats.clockMin := min s.seq.stats.clockMin s.clampedClock } : State).clampActs := by
  have hclock : (if s.pwr.clock.toNat < max (if s.seq.void.any then 2000 else 3000) (s.pwr.clock.toNat - 100) then s.pwr.clock.toNat
      else max (if s.seq.void.any then 2000 else 3000) (s.pwr.clock.toNat - 100)) = s.clampedClock := by
    unfold State.clampedClock
    generalize (if s.seq.void.any then 2000 else 3000) = floor
    split <;> omega
  rw [← hclock]
  rfl

/-- The clock register holds the clock after the step. -/
theorem State.clampStep_clock (s : State) : s.clampStep.pwr.clock.toNat = s.clampedClock := by
  have hfits : s.clampedClock < 2 ^ 16 := by
    have hclock := s.pwr.clock.isLt
    unfold State.clampedClock
    omega
  rw [s.clampStep_eq, State.clampActs_pwr]
  exact (BitVec.toNat_ofNat _ _).trans (Nat.mod_eq_of_lt hfits)

/-! ## Junctions and coolant (R327, R448, R451) -/

/-- The higher of two temperatures, as numbers. -/
theorem hotter_toInt (a b : Half) : (hotter a b).toInt = max a.toInt b.toInt := by
  unfold hotter
  split <;> omega

/-- Once the coolant is out of specification, only what is measured changes. -/
theorem State.coolSpec_still {s : State} (h : s.pwr.coolOk = false) (inlet flow : Half) (pin : Bool) :
    s.coolSpec inlet flow pin = s.coolSeen inlet flow pin false :=
  if_pos (by simp [h])

/-- Coolant going out of specification under power throttles the memory and suspends the promise (R327). -/
theorem State.coolSpec_powered {s : State} (h : s.pwr.coolOk = true) (hpow : s.powered = true) (inlet flow : Half) (pin : Bool) :
    s.coolSpec inlet flow pin
      = ((s.coolSeen inlet flow pin false).powerEvent 0x9301).stackCrit 0
          (fun v => { v with coolant := true }) :=
  (if_neg (by simp [h])).trans (if_pos hpow)

/-- Without power only the conditions of power-on are looked at (R439). -/
theorem State.coolSpec_unpowered {s : State} (h : s.pwr.coolOk = true) (hpow : s.powered = false) (inlet flow : Half) (pin : Bool) :
    s.coolSpec inlet flow pin
      = ((s.coolSeen inlet flow pin false).powerEvent 0x9301).powerWait :=
  (if_neg (by simp [h])).trans (if_neg (by simp [hpow]))

/-- Either way the controller keeps what the coolant does not say. -/
theorem State.coolSpec_pwr (s : State) (inlet flow : Half) (pin : Bool) :
    (s.coolSpec inlet flow pin).pwr = { s.pwr with
      inlet := inlet, flow := flow, coolPin := pin, coolOk := false, waitRaised := (s.coolSpec inlet flow pin).pwr.waitRaised
      events := (s.coolSpec inlet flow pin).pwr.events } := by
  have hevent := (s.coolSeen inlet flow pin false).powerEvent_pwr 0x9301 0
  cases hok : s.pwr.coolOk
  · rw [State.coolSpec_still hok]
    rfl
  · cases hpow : s.powered
    · rw [State.coolSpec_unpowered hok hpow, State.powerWait_pwr, hevent]
      rfl
    · rw [State.coolSpec_powered hok hpow, (State.stackCrit_only _ _ _).pwr, hevent]
      rfl

/-- The memory throttles with its causes and its events (R327). -/
theorem State.stackCrit_facts (s : State) (ident : Nat) (f : VoidCauses → VoidCauses) :
    (s.stackCrit ident f).mem.crit = true ∧ (s.stackCrit ident f).seq.void = f s.seq.void
      ∧ ((f s.seq.void).any = true → s.seq.void.any = false → (s.stackCrit ident f).lastEvent = some 0x9010)
      ∧ (s.seq.void.any = true → (s.stackCrit ident f).lastEvent = some 0x4303) := by
  have hseq : (({ s with mem.crit := true } : State).raise 0x4303 0 ident).seq = s.seq := raise_seq _ _ _ _ _ _
  have hraised := Raised.of_raise ({ s with mem.crit := true } : State) 0x4303 0 ident 0 false
  refine ⟨?_, ?_, fun hcause hforce => ?_, fun hvoid => ?_⟩
  · obtain ⟨-, -, -, -, hvoid⟩ := (State.voidPromise_only (({ s with mem.crit := true } : State).raise 0x4303 0 ident) f).get .channels rfl
    obtain ⟨-, -, -, -, hraise⟩ := (State.raise_only ({ s with mem.crit := true } : State) 0x4303 0 ident 0 false).get .channels rfl
    exact hvoid.trans hraise
  · exact (State.voidPromise_seq _ f).1.trans (congrArg (fun q => f q.void) hseq)
  · exact raised_last (State.voidPromise_raised (by rw [hseq]; exact hcause) (by rw [hseq]; exact hforce))
  · refine raised_last (hraised.to ?_)
    exact State.voidPromise_quiet (by rw [hseq]; exact hvoid) f

/-! ## The wear ledger (R452) -/

/-- The hot hours are counted. -/
def State.hotCounted (s : State) (n : Nat) : State := { s with pwr.wearHot := satAdd s.pwr.wearHot n }

/-- A count of hot hours that was lower has reached a threshold, which the controller says. -/
def State.hotPassed (s : State) (old limit code : Nat) : State :=
  if old < limit ∧ limit ≤ s.pwr.wearHot.toNat then s.powerEvent code else s

/-- Hot hours are counted, then held against the two thresholds. -/
theorem State.hotHours_eq (s : State) (n : Nat) :
    s.hotHours n = ((s.hotCounted n).hotPassed s.pwr.wearHot.toNat 4000 0x9401).hotPassed s.pwr.wearHot.toNat 5000 0x9402 := rfl

/-- A threshold changes only the events held. -/
theorem State.hotPassed_pwr (s : State) (old limit code : Nat) :
    (s.hotPassed old limit code).pwr = { s.pwr with events := (s.hotPassed old limit code).pwr.events } := by
  unfold State.hotPassed
  split
  · exact s.powerEvent_pwr code 0
  · rfl

/-- Counting hot hours changes that count and the events held. -/
theorem State.hotHours_pwr (s : State) (n : Nat) :
    (s.hotHours n).pwr = { s.pwr with wearHot := satAdd s.pwr.wearHot n, events := (s.hotHours n).pwr.events } := by
  rw [s.hotHours_eq, State.hotPassed_pwr, State.hotPassed_pwr]
  rfl

/-- A threshold that is not passed says nothing. -/
theorem State.hotPassed_not {s : State} {old limit : Nat} (h : ¬(old < limit ∧ limit ≤ s.pwr.wearHot.toNat)) (code : Nat) :
    s.hotPassed old limit code = s := if_neg h

/-- A threshold that is passed has its event. -/
theorem State.hotPassed_event {s : State} {old limit : Nat} (hold : old < limit) (hnew : limit ≤ s.pwr.wearHot.toNat) (code : Nat) :
    s.hotPassed old limit code = s.powerEvent code := if_pos ⟨hold, hnew⟩

/-- One more hot hour. -/
theorem State.hotCounted_toNat {s : State} (h : s.pwr.wearHot.toNat < 2 ^ 32 - 1) :
    (s.hotCounted 1).pwr.wearHot.toNat = s.pwr.wearHot.toNat + 1 := by
  refine (satAdd_toNat _ _).trans ?_
  omega

/-- The hour that reaches 4,000 says so. -/
theorem State.hotHours_first {s : State} (h : s.pwr.wearHot.toNat = 3999) : s.hotHours 1 = (s.hotCounted 1).powerEvent 0x9401 := by
  have hnew := State.hotCounted_toNat (s := s) (by omega)
  have hkept : ((s.hotCounted 1).powerEvent 0x9401).pwr.wearHot = (s.hotCounted 1).pwr.wearHot :=
    (congrArg PowerState.wearHot ((s.hotCounted 1).powerEvent_pwr 0x9401 0)).trans rfl
  have hpassed : (s.hotCounted 1).hotPassed s.pwr.wearHot.toNat 4000 0x9401 = (s.hotCounted 1).powerEvent 0x9401 :=
    State.hotPassed_event (by omega) (by omega) _
  rw [s.hotHours_eq, hpassed]
  exact State.hotPassed_not (by rw [hkept]; omega) _

/-- The hour that reaches 5,000 says so. -/
theorem State.hotHours_second {s : State} (h : s.pwr.wearHot.toNat = 4999) : s.hotHours 1 = (s.hotCounted 1).powerEvent 0x9402 := by
  have hnew := State.hotCounted_toNat (s := s) (by omega)
  have hnot : (s.hotCounted 1).hotPassed s.pwr.wearHot.toNat 4000 0x9401 = s.hotCounted 1 := State.hotPassed_not (by omega) _
  rw [s.hotHours_eq, hnot]
  exact State.hotPassed_event (by omega) (by omega) _

/-- Any other hour is counted alone. -/
theorem State.hotHours_between {s : State} (hfirst : s.pwr.wearHot.toNat ≠ 3999) (hsecond : s.pwr.wearHot.toNat ≠ 4999) :
    s.hotHours 1 = s.hotCounted 1 := by
  have hnew : (s.hotCounted 1).pwr.wearHot.toNat ≤ s.pwr.wearHot.toNat + 1 := by
    refine (satAdd_toNat _ _).le.trans ?_
    omega
  have hnot : (s.hotCounted 1).hotPassed s.pwr.wearHot.toNat 4000 0x9401 = s.hotCounted 1 := State.hotPassed_not (by omega) _
  rw [s.hotHours_eq, hnot]
  exact State.hotPassed_not (by omega) _

/-! ## What each command does -/

/-- VIN out of the rated band (R63, R436). -/
theorem State.vinOut_facts (s : State) (mv : Half) (code : Nat) :
    (s.powered = true → (s.vinOut mv code).seq.void = { s.seq.void with vin := true } ∧ (s.vinOut mv code).seq.stats.voided = true)
      ∧ (s.powered = true → s.seq.void.any = false → (s.vinOut mv code).lastEvent = some 0x9010)
      ∧ (s.powered = true → s.seq.void.any = true → PowerEvent (BitVec.ofNat 16 code) s (s.vinOut mv code))
      ∧ (s.powered = false → (s.vinOut mv code).seq = s.seq) := by
  have hcause : ∀ v : VoidCauses, ({ v with vin := true } : VoidCauses).any = true := fun v => by simp [VoidCauses.any]
  have hraised := (s.vinSeen mv).powerEvent_raised code mv.toNat
  have hkept := (s.vinSeen mv).powerEvent_only code mv.toNat
  have hvoid : ((s.vinSeen mv).powerEvent code mv.toNat).seq.void = s.seq.void := hkept.get .void rfl
  refine ⟨fun hpow => ?_, fun hpow hforce => ?_, fun hpow hany => ?_, fun hpow => ?_⟩
  · obtain ⟨hset, hcount⟩ := State.voidPromise_seq ((s.vinSeen mv).powerEvent code mv.toNat)
      (fun v => { v with vin := true })
    rw [State.vinOut_powered hpow, hset, hcount, hvoid, hcause, Bool.or_true]
    exact ⟨rfl, rfl⟩
  · rw [State.vinOut_powered hpow]
    exact raised_last (State.voidPromise_raised (hcause _) (by rw [hvoid]; exact hforce))
  · rw [State.vinOut_powered hpow]
    have hpromise := State.voidPromise_only ((s.vinSeen mv).powerEvent code mv.toNat)
      (fun v => { v with vin := true })
    exact PowerEvent.to hraised (State.voidPromise_quiet (by rw [hvoid]; exact hany) _) (hpromise.get .out rfl) (hpromise.get .powerEvents rfl)
  · rw [State.vinOut_unpowered hpow]
    exact (State.powerWait_seq _).trans (State.powerEvent_seq _ _ _)

/-- The steps of a clamp by the clock and the floor in force (R444). -/
theorem State.clampedClock_facts (s : State) :
    (s.seq.void.any = false → 3100 ≤ s.pwr.clock.toNat → s.clampedClock = s.pwr.clock.toNat - 100)
      ∧ (s.seq.void.any = false → 3000 ≤ s.pwr.clock.toNat → s.pwr.clock.toNat < 3100 → s.clampedClock = 3000)
      ∧ (s.seq.void.any = true → 2100 ≤ s.pwr.clock.toNat → s.clampedClock = s.pwr.clock.toNat - 100)
      ∧ (s.seq.void.any = true → 2000 ≤ s.pwr.clock.toNat → s.pwr.clock.toNat < 2100 → s.clampedClock = 2000)
      ∧ s.clampedClock ≤ s.pwr.clock.toNat := by
  unfold State.clampedClock
  refine ⟨fun hforce _ => ?_, fun hforce _ _ => ?_, fun hvoid _ => ?_, fun hvoid _ _ => ?_, Nat.min_le_left _ _⟩
  · simp only [hforce, Bool.false_eq_true, if_false]
    omega
  · simp only [hforce, Bool.false_eq_true, if_false]
    omega
  · simp only [hvoid, if_true]
    omega
  · simp only [hvoid, if_true]
    omega

/-- A clamp's step leaves the event as it acts (R444). -/
theorem State.clampStep_event (s : State) :
    (s.events.once.contains (0x9104, 0) = false → Raised 0x9104 0 s s.clampStep)
      ∧ (s.events.once.contains (0x9104, 0) = true → s.clampStep.events = s.events) := by
  have hacts := ({ s with
      pwr.clock := BitVec.ofNat 16 s.clampedClock, seq.stats.clockMin := min s.seq.stats.clockMin s.clampedClock } : State).clampActs_event
  rw [s.clampStep_eq]
  exact ⟨fun h => (hacts.1 h).from rfl, hacts.2⟩

/-- What the controller and the step record hold after a clamp's step. -/
theorem State.clampStep_rest (s : State) :
    s.clampStep.pwr = { s.pwr with
        clock := BitVec.ofNat 16 s.clampedClock, clampActed := true, clamped := true, clampAt := some s.clk.time }
      ∧ s.clampStep.seq.stats.clockMin = min s.seq.stats.clockMin s.clampedClock := by
  rw [s.clampStep_eq]
  exact ⟨State.clampActs_pwr _, congrArg StepStats.clockMin ((State.clampActs_only _).get .stats rfl)⟩

/-- The coolant going out of specification under power (R327, R451). -/
theorem State.coolSpec_facts {s : State} (hok : s.pwr.coolOk = true) (hpow : s.powered = true) (inlet flow : Half) (pin : Bool) :
    ((s.coolSpec inlet flow pin).mem.crit = true ∧ (s.coolSpec inlet flow pin).seq.void = { s.seq.void with coolant := true })
      ∧ (s.seq.void.any = false → (s.coolSpec inlet flow pin).lastEvent = some 0x9010)
      ∧ (s.seq.void.any = true → (s.coolSpec inlet flow pin).lastEvent = some 0x4303) := by
  have hseq := (s.coolSeen inlet flow pin false).powerEvent_seq 0x9301 0
  obtain ⟨hcrit, hvoid, hforced, hvoided⟩ := State.stackCrit_facts
    ((s.coolSeen inlet flow pin false).powerEvent 0x9301) 0
    (fun v => { v with coolant := true })
  rw [hseq] at hvoid hforced hvoided
  rw [State.coolSpec_powered hok hpow]
  exact ⟨⟨hcrit, hvoid⟩, hforced (by simp [VoidCauses.any]), hvoided⟩

/-- Settles O53: what voids the promise, what the clamps leave of the clock, and the controller's events, by the laws above. A clamp's floor
follows from the promise (log 27). -/
theorem promiseAndClamps : Obligations.PromiseAndClamps := by
  intro s
  refine ⟨fun mv c code hc => ?vin, fun mv => ?rated, ?specVoid, fun j => ?clamp, ?budget, fun temp n => ?junction,
    fun inlet flow pin => ?coolSpec, fun inlet flow => ?coolOk, ?wear, ?wearHot⟩
  case vin =>
    obtain ⟨k, hexec, rfl⟩ : ∃ k : Nat, exec c s = .next (s.vinOut mv k) ∧ BitVec.ofNat 16 k = code := by
      simp only [List.mem_cons, Prod.mk.injEq, List.not_mem_nil, or_false] at hc
      rcases hc with ⟨rfl, rfl⟩ | ⟨rfl, rfl⟩
      · exact ⟨0x9001, rfl, rfl⟩
      · exact ⟨0x9002, rfl, rfl⟩
    have hpwr := s.vinOut_pwr mv k
    exact ⟨_, hexec, State.vinOut_only _ _ _, by rw [hpwr], by rw [hpwr], by rw [hpwr],
      by rw [hpwr], s.vinOut_facts mv k⟩
  case rated => exact ⟨_, rfl, execVinRated_only rfl, rfl, rfl, rfl⟩
  case specVoid =>
    refine ⟨_, rfl, execSpecVoid_only rfl, (s.voidPromise_seq _).1, State.voidPromise_raised ?_, fun hany => State.voidPromise_quiet hany _⟩
    simp [VoidCauses.any]
  case clamp =>
    obtain ⟨hpwr, hleast⟩ := s.clampStep_rest
    obtain ⟨hdown, hfloor, hdownVoid, hfloorVoid, hle⟩ := s.clampedClock_facts
    refine ⟨s.clampStep, rfl, State.clampStep_only s, by rw [hpwr], by rw [hpwr], by rw [hpwr], by rw [hpwr], ?_⟩
    rw [s.clampStep_clock]
    exact ⟨hdown, hfloor, hdownVoid, hfloorVoid, hle, hleast, s.clampStep_event⟩
  case budget =>
    have hpwr := State.clampActs_pwr s.peakSpent
    have hevent := State.clampActs_event s.peakSpent
    exact ⟨s.peakSpent.clampActs, rfl, execBudgetClamp_only rfl, by rw [hpwr]; rfl, by rw [hpwr], by rw [hpwr], by rw [hpwr]; rfl,
      fun h => (hevent.1 h).from rfl, hevent.2⟩
  case junction => exact ⟨_, rfl, execJunctionSensorRead_only rfl, rfl, rfl, hotter_toInt _ _, hotter_toInt _ _⟩
  case coolSpec =>
    have hpwr := s.coolSpec_pwr inlet flow pin
    refine ⟨s.coolSpec inlet flow pin, rfl, execCoolSpec_only rfl, by rw [hpwr], by rw [hpwr], by rw [hpwr], by rw [hpwr],
      by rw [hpwr], fun hok hpow => ?_, fun hok hpow => ?_, fun hok hpow => ?_, fun hok => ?_⟩
    · obtain ⟨hset, -, -⟩ := State.coolSpec_facts hok hpow inlet flow pin
      exact hset
    · obtain ⟨-, hforce, -⟩ := State.coolSpec_facts hok hpow inlet flow pin
      exact hforce
    · obtain ⟨-, -, hvoid⟩ := State.coolSpec_facts hok hpow inlet flow pin
      exact hvoid
    · rw [State.coolSpec_still hok]
      exact s.coolSeen_only _ _ _ _
  case coolOk =>
    have hpwr := (s.coolSeen inlet flow false true).powerEvent_pwr 0x9302 0
    cases hok : s.pwr.coolOk
    · refine ⟨(s.coolSeen inlet flow false true).powerEvent 0x9302, congrArg Host.Outcome.next (if_neg (ne_true_of_eq_false hok)), ?_,
        by rw [hpwr]; rfl, by rw [hpwr]; rfl, by rw [hpwr]; rfl, by rw [hpwr]; rfl, fun _ => ?_, fun h => nomatch h⟩
      · exact Only.of (State.powerEvent_only _ _ _) rfl ((s.coolSeen_only _ _ _ _).mono rfl)
      · exact (s.coolSeen inlet flow false true).powerEvent_raised 0x9302 0
    · refine ⟨s.coolSeen inlet flow false true, congrArg Host.Outcome.next (if_pos hok), ?_, rfl, rfl, rfl, rfl,
        fun h => (nomatch h), fun _ => ⟨rfl, rfl⟩⟩
      exact (s.coolSeen_only _ _ _ _).mono rfl
  case wear => exact ⟨_, rfl, s.controller_only rfl, rfl⟩
  case wearHot =>
    have hpwr := s.hotHours_pwr 1
    refine ⟨s.hotHours 1, rfl, State.hotHours_only s 1, by rw [hpwr], by rw [hpwr], fun h => ?_,
      fun h => ?_, fun hfirst hsecond => ?_⟩
    · rw [State.hotHours_first h]
      exact (s.hotCounted 1).powerEvent_raised 0x9401 0
    · rw [State.hotHours_second h]
      exact (s.hotCounted 1).powerEvent_raised 0x9402 0
    · rw [State.hotHours_between hfirst hsecond]
      exact ⟨rfl, rfl⟩

end Sys2Proof.Machine
end

section
/-! SUPPORT and CLAIM. Setup commands (R60, R292, R472, R478, R480 to R482): how SETUP_CMD reaches its command in READY and in RECOVERY, what
each command and each image that has been read leaves, and the obligation about them. -/

-- Checked one theorem at a time: the package as one text then needs less memory.
set_option Elab.async false

namespace Sys2Proof.Machine

/-! ## SETUP_CMD through the window (R472, R481) -/

/-- The state as a write through P0 finds it: the guard is armed (R465). -/
def State.guardArmed (s : State) : State := { s with setup.armed := true }

/-- A write of SETUP_CMD in READY, past the disarmed guard. -/
theorem State.setupCommand_ready {s : State} (h : s.takesWrite) (hguard : s.setup.armed = false) (v : Nat) (img : FwImage) :
    s.setupCommand 0 v img = s.guardArmed.writeSetupCmd v img :=
  window_unlocked (r := .setupCmd) h (by decide) (by decide) (by decide) (by decide) nofun nofun hguard

/-- What the window asks of a write in READY: the stage, no long operation, and a host that may set the module up. -/
theorem State.takesWrite_facts {s : State} (h : s.takesWrite) : s.boot.stage = .ready ∧ s.setup.op = 0 ∧ s.confidential = false := by
  obtain ⟨hready, hop, -, hplain⟩ := h
  exact ⟨hready, hop, hplain⟩

/-- A write of SETUP_CMD in RECOVERY, past the disarmed guard. -/
theorem State.setupCommand_recovery {s : State} (hstage : s.boot.stage = .recovery) (hop : s.setup.op = 0) (hcmd : s.setup.cmdRunning = 0)
    (hguard : s.setup.armed = false) (hconf : s.confidential = false) (v : Nat) (img : FwImage) :
    s.setupCommand 0 v img = s.guardArmed.writeSetupCmd v img := by
  have hserves : ¬ (!s.serves || decide (0x100000 ≤ 0x1000C)) = true := by simp [State.serves, hstage]
  have hreg : regAt 0x1000C = some .setupCmd := by decide
  have hopen : s.guardArmed.confRefused .setupCmd = false := by
    have hplain : s.guardArmed.confidential = false := hconf
    simp [State.confRefused, hplain]
  have hfree : s.guardArmed.commandRuns .setupCmd v = false := by
    have hnone : s.guardArmed.setup.cmdRunning = 0 := hcmd
    simp [State.commandRuns, hnone]
  have hwrite : s.guardArmed.guardedWrite s.setup.armed 0x1000C v .setupCmd (fun t => t) (fun t => t.writeSetupCmd v img)
      = s.guardArmed.writeSetupCmd v img := by
    unfold State.guardedWrite
    exact (if_neg (ne_true_of_eq_false hopen)).trans ((if_neg (not_not_intro hop)).trans ((if_neg (ne_true_of_eq_false hfree)).trans
      (if_neg (by simp [hguard]))))
  unfold State.setupCommand State.windowWrite
  rw [if_neg hserves]
  simp only [hreg]
  rw [if_neg (by decide), if_neg (by decide), if_neg (by omega), if_pos (by decide)]
  exact hwrite

/-- A write of SETUP_CMD starts the command that its value names. -/
theorem State.writeSetupCmd_cases (s : State) {v : Nat} (img : FwImage) :
    (v % 16 = 1 → s.writeSetupCmd v img = s.cmdPlanLoad) ∧ (v % 16 = 2 → s.writeSetupCmd v img = s.cmdFwUpdate)
      ∧ (v % 16 = 3 → s.writeSetupCmd v img = s.cmdErase) ∧ (v % 16 = 4 → s.writeSetupCmd v img = s.cmdModuleReset)
      ∧ (v % 16 = 5 → s.writeSetupCmd v img = s.cmdRecover img) := by
  unfold State.writeSetupCmd
  refine ⟨fun h => ?_, fun h => ?_, fun h => ?_, fun h => ?_, fun h => ?_⟩
  all_goals simp only [h]

/-- Arming the guard changes the setup block alone. -/
theorem State.guardArmed_only (s : State) : Only [.setup] s s.guardArmed :=
  Only.lit (Only.refl s) fun p => by cases p <;> simp [Part.same]

/-! ## How the commands begin or are refused (R472) -/

/-- A command that is refused has its code as its result, and is logged. -/
theorem State.refuseCmd_facts (s : State) (c code : Nat) :
    (s.refuseCmd c code).setup.resultCmd = BitVec.ofNat 3 c ∧ (s.refuseCmd c code).setup.resultCode = BitVec.ofNat 16 code
      ∧ (s.refuseCmd c code).setup.resultDone = true ∧ (s.refuseCmd c code).setup.op = s.setup.op ∧ Logged 0x1000C 0 .state (s.refuseCmd c code) :=
  ⟨rfl, rfl, rfl, rfl, logged_log _ _ _ _⟩

/-- PLAN_LOAD in IDLE begins to read the header of the image. -/
theorem State.cmdPlanLoad_begins {s : State} (hidle : s.idle = true) (hready : s.boot.stage = .ready) :
    s.cmdPlanLoad = ((s.beginCmd 1).startOp 1).readPlanHeader :=
  (if_neg (by simp [hidle])).trans (if_neg (not_not_intro hready))

/-- PLAN_LOAD outside IDLE is refused with PLAN_STATE. -/
theorem State.cmdPlanLoad_refused {s : State} (hidle : s.idle = false) : s.cmdPlanLoad = (s.refuseCmd 1 0x5302).raise 0x5302 :=
  if_pos (by simp [hidle])

/-- FW_UPDATE in IDLE discards the plan and begins to read the image. -/
theorem State.cmdFwUpdate_begins {s : State} (hidle : s.idle = true) (hready : s.boot.stage = .ready) (hconf : s.confidential = false) :
    s.cmdFwUpdate = ((s.beginCmd 2).dropPlan).readImage :=
  (if_neg (by simp [hconf])).trans (if_neg (by simp [hidle, hready]))

/-- FW_UPDATE outside IDLE is refused. -/
theorem State.cmdFwUpdate_refused {s : State} (hidle : s.idle = false) (hconf : s.confidential = false) : s.cmdFwUpdate = s.refuseCmd 2 0 :=
  (if_neg (by simp [hconf])).trans (if_pos (by simp [hidle]))

/-- ERASE in IDLE begins the secure erase. -/
theorem State.cmdErase_begins {s : State} (hidle : s.idle = true) (hready : s.boot.stage = .ready) (hconf : s.confidential = false) :
    s.cmdErase = (s.beginCmd 3).startOp 5 := if_neg (by simp [hidle, hready, hconf])

/-- ERASE outside IDLE is refused. -/
theorem State.cmdErase_refused {s : State} (hidle : s.idle = false) : s.cmdErase = s.refuseCmd 3 0 := if_pos (by simp [hidle])

/-- What discarding the plan and starting the read leave of the setup block and the outputs. -/
theorem State.dropPlan_facts (s : State) : s.dropPlan.setup = s.setup ∧ s.dropPlan.out = s.out ∧ s.dropPlan.plan = none := by
  have hbreak := State.breakExport_only ({ s with plan := none, sec.plan := 0 } : State)
  exact ⟨hbreak.get .setup rfl, hbreak.get .out rfl, hbreak.get .plan rfl⟩

/-- A unit's ledger entry after a module reset is the one that flash holds (R478). -/
theorem State.moduleReset_unit (s : State) (u : Half) : s.moduleReset.unit u = (s.unit u).stored :=
  NMap.getD_map s.rel.ledger LedgerEntry.stored u.toNat {} rfl

/-- An event, then the end of a command. -/
theorem Raised.of_raise_endCmd {s s' : State} (h : s'.events = s.events) (code : Nat) (unit : Half) (result : Nat) :
    Raised (BitVec.ofNat 16 code) unit s ((s'.raise code unit).endCmd result) :=
  ((Raised.of_raise s' code unit 0 0 false).from h).to rfl

/-! ## Recovery (R481) -/

section
variable {s : State} {img : FwImage} (hstage : s.boot.stage = .recovery)
include hstage

/-- RECOVER whose read fails. -/
theorem State.cmdRecover_unread (hread : img.read = .failed) : s.cmdRecover img = (s.beginCmd 5).readImage.endCmd 0x6108 := by
  unfold State.cmdRecover
  rw [if_neg (not_not_intro hstage)]
  simp only [hread]

/-- RECOVER of an image whose header is bad. -/
theorem State.cmdRecover_header {b : Bytes} (hread : img.read = .ok b) (hheader : fwHeaderBad b = true) :
    s.cmdRecover img = ((s.beginCmd 5).readImage.raise 0x8301 unitTackRoom).endCmd 0x8301 := by
  unfold State.cmdRecover
  rw [if_neg (not_not_intro hstage)]
  simp only [hread, hheader, if_true]

/-- RECOVER of an image with a section whose hash differs. -/
theorem State.cmdRecover_hash {b : Bytes} (hread : img.read = .ok b) (hheader : fwHeaderBad b = false) (hhash : fwHashBad b = true) :
    s.cmdRecover img = (({ (s.beginCmd 5).readImage with boot.image := some [] } : State).raise 0x8302 unitTackRoom).endCmd 0x8302 := by
  unfold State.cmdRecover
  rw [if_neg (not_not_intro hstage)]
  simp only [hread, hheader, hhash, Bool.false_eq_true, if_false, if_true]

/-- RECOVER of a good image that flash takes. -/
theorem State.cmdRecover_good {b : Bytes} (hread : img.read = .ok b) (hheader : fwHeaderBad b = false) (hhash : fwHashBad b = false)
    (hflash : img.flashOk = true) : s.cmdRecover img = ({ (s.beginCmd 5).readImage with boot.image := some b } : State).moduleReset := by
  unfold State.cmdRecover
  rw [if_neg (not_not_intro hstage)]
  simp only [hread, hheader, hhash, hflash, Bool.false_eq_true, Bool.not_true, if_false]

end

/-! ## Plan images (R60, R61, R292, R472) -/

/-- A plan load that ends has a code and runs no more. -/
theorem State.endPlanLoad_setup {s : State} (h : s.setup.op = 1) (code : Nat) :
    (s.endPlanLoad code).setup = { s.setup with op := 0, cmdRunning := 0, resultCode := BitVec.ofNat 16 code, resultDone := true } := by
  unfold State.endPlanLoad State.endOp
  rw [if_pos (show (s.endCmd code).setup.op = BitVec.ofNat 3 1 from h)]
  rfl

/-- A plan image of the wrong shape is refused with PLAN_BAD (R60). -/
theorem State.loadImage_malformed {s : State} {b : Bytes} (h : headerBad b s.setup.len.toNat = true ∨ b.length ≠ s.setup.len.toNat)
    (l : PlanLayout) : s.loadImage b l = (s.raise 0x1302).endPlanLoad 0x1302 := by
  unfold State.loadImage
  refine if_pos ?_
  rcases h with h | h <;> simp [h]

/-- What a load of an image rests on is not the outputs. -/
theorem State.readPlanRest_eq (s : State) (b : Bytes) : ∃ os : List Output, s.readPlanRest b = s.emits os
    ∧ (field b 8 8 ≠ s.setup.len.toNat → os = [])
    ∧ (field b 8 8 = s.setup.len.toNat → 512 < s.setup.len.toNat →
        os = [.hostRead 0 (s.setup.addr.toNat + 512) (s.setup.len.toNat - 512)]) := by
  unfold State.readPlanRest
  split
  case isTrue h => exact ⟨[.hostRead 0 (s.setup.addr.toNat + 512) (s.setup.len.toNat - 512)], rfl, fun hne => absurd h.1 hne, fun _ _ => rfl⟩
  case isFalse h => exact ⟨[], by rw [State.emits, List.append_nil], fun _ => rfl, fun heq hlong => absurd ⟨heq, hlong⟩ h⟩

/-- A header of the rules names its own length (R60). -/
theorem headerBad_length {b : Bytes} {len : Nat} (h : headerBad b len = false) : field b 8 8 = len := by
  by_contra hne
  have hlen : ((parseHeader b).imageLen != len) = true := bne_iff_ne.mpr hne
  simp [headerBad, hlen] at h

/-- Discarding versions ends no other long setup operation than a table load's. -/
theorem State.placeTables_setup {s : State} (h : s.setup.op ≠ 3) (l : PlanLayout) : (s.placeTables l).setup = s.setup := by
  have hstaging : ∀ st : State, st.setup = s.setup → st.dropStaging.setup = s.setup := by
    intro st hst
    have hstop : ∀ (qs : List (Nat × Queue)), (qs.foldl (fun (u : State) e => e.2.descs.foldl (fun (u : State) d =>
        if d.stage = .waiting ∧ dOp d.bytes = 3 then u.stopDesc e.1 d.pos 0x300A 0 else u) u) st).setup = st.setup := fun qs =>
      (Only.foldl (fun u e => Only.foldl (fun u d => Only.ite (fun _ => State.stopDesc_only u e.1 d.pos 0x300A 0) fun _ => Only.refl u) _ u) qs
        st).get .setup rfl
    unfold State.dropStaging State.endOp
    extract_lets s1
    have hs1 : s1.setup = s.setup := (hstop _).trans hst
    rw [hs1, if_neg (show ¬ s.setup.op = BitVec.ofNat 3 3 from h)]
    split <;> exact hs1
  have hdiscard : s.discardTables.setup = s.setup := by
    unfold State.discardTables
    extract_lets s1
    refine ((State.raise_only _ 0x300A 0 0 0 false).get .setup rfl).trans (hstaging s1 ?_)
    exact (Only.foldl (fun st w => State.failSwaps_only st w.waiters) s.emb.swaps s).get .setup rfl
  unfold State.placeTables
  split
  · rfl
  · split
    · exact hdiscard
    · rfl

/-- What loading a plan leaves: the plan and its measurement, and the setup block and the outputs as they were. -/
theorem State.installPlan_facts {s : State} (h : s.setup.op ≠ 3) (p : Plan) :
    (s.installPlan p).plan = some p ∧ (s.installPlan p).sec.plan = p.measure ∧ (s.installPlan p).setup = s.setup
      ∧ (s.installPlan p).out = s.out := by
  have hout : (s.installPlan p).out = s.out := (State.installPlan_only s p).get .out rfl
  have hplaced := State.placeTables_setup h p.layout
  refine ⟨?_, ?_, ?_, hout⟩
  all_goals
    unfold State.installPlan
    simp only []
    split
  · exact (State.breakExport_only _).get .plan rfl
  · rfl
  · rw [(State.breakExport_only _).sec]
  · rfl
  · exact ((State.breakExport_only _).get .setup rfl).trans hplaced
  · exact hplaced

/-- The admission unit answers by its condition alone (R61). -/
theorem State.runAdmission_admits (s : State) (p : Plan) (period : Nat) : (s.runAdmission p period).2 = admits p period := by
  unfold State.runAdmission
  extract_lets s1
  cases admits p period <;> rfl

section
variable {s : State} {b : Bytes} {l : PlanLayout} (hop : s.setup.op = 1) (hheader : headerBad b s.setup.len.toNat = false)
  (hlen : b.length = s.setup.len.toNat) (hplaces : placesBad b = false) (hmap : s.mapBad b = false) (hsign : s.signatureBad b = false)
  (himage : s.imageBad b l s.setup.len.toNat = false)
include hheader hlen hplaces hmap hsign himage

/-- An image of the rules goes to the admission unit (R61). -/
theorem State.loadImage_checked :
    s.loadImage b l = if (s.runAdmission (parsePlan b l) s.active.tickPeriod.toNat).2 then
        ((s.runAdmission (parsePlan b l) s.active.tickPeriod.toNat).1.installPlan (parsePlan b l)).endPlanLoad 0
      else (s.runAdmission (parsePlan b l) s.active.tickPeriod.toNat).1.endPlanLoad 0x1301 := by
  unfold State.loadImage
  rw [if_neg (by simp [hheader, hlen, hplaces])]
  exact if_neg (by simp [hmap, hsign, himage])

include hop

/-- A plan that is admitted is loaded. -/
theorem State.loadImage_admitted (hadmits : admits (parsePlan b l) s.active.tickPeriod.toNat = true) :
    (s.loadImage b l).plan = some (parsePlan b l) ∧ (s.loadImage b l).sec.plan = (parsePlan b l).measure
      ∧ (s.loadImage b l).setup = { s.setup with op := 0, cmdRunning := 0, resultCode := 0, resultDone := true }
      ∧ (s.loadImage b l).out = s.out := by
  have hadmission := State.runAdmission_only s (parsePlan b l) s.active.tickPeriod.toNat
  have hsetup : (s.runAdmission (parsePlan b l) s.active.tickPeriod.toNat).1.setup = s.setup := hadmission.get .setup rfl
  obtain ⟨hplan, hmeasure, hkept, hout⟩ := State.installPlan_facts
    (s := (s.runAdmission (parsePlan b l) s.active.tickPeriod.toNat).1) (by rw [hsetup, hop]; decide) (parsePlan b l)
  rw [State.loadImage_checked hheader hlen hplaces hmap hsign himage, if_pos ((State.runAdmission_admits _ _ _).trans hadmits)]
  have hend := State.endPlanLoad_only ((s.runAdmission (parsePlan b l) s.active.tickPeriod.toNat).1.installPlan (parsePlan b l)) 0
  refine ⟨(hend.get .plan rfl).trans hplan, ?_, ?_, (hend.get .out rfl).trans (hout.trans (hadmission.get .out rfl))⟩
  · rw [hend.sec, hmeasure]
  · rw [State.endPlanLoad_setup (by rw [hkept, hsetup]; exact hop), hkept, hsetup]
    rfl

/-- A plan that is not admitted leaves the previous one. -/
theorem State.loadImage_unadmitted (hadmits : admits (parsePlan b l) s.active.tickPeriod.toNat = false) :
    Only [.setup, .seq, .tel, .events] s (s.loadImage b l)
      ∧ (s.loadImage b l).setup = { s.setup with op := 0, cmdRunning := 0, resultCode := 0x1301, resultDone := true } := by
  have hadmission := State.runAdmission_only s (parsePlan b l) s.active.tickPeriod.toNat
  have hsetup : (s.runAdmission (parsePlan b l) s.active.tickPeriod.toNat).1.setup = s.setup := hadmission.get .setup rfl
  have hno : ¬ (s.runAdmission (parsePlan b l) s.active.tickPeriod.toNat).2 = true :=
    ne_true_of_eq_false ((State.runAdmission_admits _ _ _).trans hadmits)
  rw [State.loadImage_checked hheader hlen hplaces hmap hsign himage, if_neg hno]
  refine ⟨Only.of (State.endPlanLoad_only _ _) rfl (hadmission.mono rfl), ?_⟩
  rw [State.endPlanLoad_setup (by rw [hsetup]; exact hop), hsetup]
  rfl

end

/-! ## Firmware images (R480, R482) -/

/-- The code of a failed check fits its field. -/
theorem fwFailure_lt (b : Bytes) : fwFailure b < 2 ^ 16 := by
  unfold fwFailure
  split
  · decide
  · split <;> decide

/-- Nothing waits for a firmware image unless FW_UPDATE runs and flash is not being written. -/
theorem State.fwImageRead_idle {s : State} (h : s.setup.cmdRunning ≠ 2 ∨ s.setup.flashBusy = true) (img : FwImage) : s.fwImageRead img = s :=
  if_pos h

/-- A firmware image that fails a check ends the update with its event. -/
theorem State.fwImageRead_bad {s : State} {img : FwImage} {b : Bytes} (hcmd : s.setup.cmdRunning = 2) (hflash : s.setup.flashBusy = false)
    (hread : img.read = .ok b) (hbad : fwFailure b ≠ 0) : s.fwImageRead img = (s.tileWrite 0 0 b).fwFailed (fwFailure b) := by
  unfold State.fwImageRead
  rw [if_neg (by simp [hcmd, hflash])]
  simp only [hread]
  exact if_pos hbad

/-- A firmware image that passes goes to flash. -/
theorem State.fwImageRead_good {s : State} {img : FwImage} {b : Bytes} (hcmd : s.setup.cmdRunning = 2) (hflash : s.setup.flashBusy = false)
    (hread : img.read = .ok b) (hgood : fwFailure b = 0) (hok : img.flashOk = true) :
    s.fwImageRead img = { s.tileWrite 0 0 b with setup.flashBusy := true, boot.writing := some b } := by
  unfold State.fwImageRead
  rw [if_neg (by simp [hcmd, hflash])]
  simp only [hread]
  rw [if_neg (not_not_intro hgood)]
  exact if_neg (by simp [hok])

/-! ## The parts of the obligation -/

section
variable {s : State} (hwrite : s.takesWrite) (hguard : s.setup.armed = false)
include hwrite hguard

/-- PLAN_LOAD begins to read the image's header (R472). -/
theorem exec_planLoad_begins {v : Word} (hv : v.toNat % 16 = 1) (hidle : s.idle = true) :
    ∃ t : State, exec (.planLoad 0 v) s = .next t ∧ Only [.out, .setup] s t ∧ t.setup.op = 1 ∧ t.setup.cmdRunning = 1
      ∧ t.setup.resultCmd = 1 ∧ t.setup.resultDone = false
      ∧ t.out = s.out ++ [.hostRead 0 s.setup.addr.toNat (min 512 s.setup.len.toNat)] := by
  obtain ⟨hready, -, -⟩ := State.takesWrite_facts hwrite
  have hbegins := (s.guardArmed.writeSetupCmd_cases { read := .failed }).1 hv
  refine ⟨((s.guardArmed.beginCmd 1).startOp 1).readPlanHeader, ?_, ?_, rfl, rfl, rfl, rfl, rfl⟩
  · refine congrArg Host.Outcome.next ((State.setupCommand_ready hwrite hguard _ _).trans (hbegins.trans ?_))
    exact State.cmdPlanLoad_begins hidle hready
  · refine Only.of (State.emit_only _ _) rfl ?_
    exact Only.of (State.startOp_only _ _) rfl (Only.of (State.beginCmd_only _ _) rfl (s.guardArmed_only.mono rfl))

/-- PLAN_LOAD outside IDLE is refused with PLAN_STATE (R472). -/
theorem exec_planLoad_refused {v : Word} (hv : v.toNat % 16 = 1) (hidle : s.idle = false) :
    ∃ t : State, exec (.planLoad 0 v) s = .next t ∧ Only [.setup, .tel, .events] s t ∧ t.setup.resultCmd = 1 ∧ t.setup.resultCode = 0x5302
      ∧ t.setup.resultDone = true ∧ Logged 0x1000C 0 .state t ∧ Raised 0x5302 0 s t := by
  have hrefused := (s.guardArmed.writeSetupCmd_cases { read := .failed }).1 hv
  obtain ⟨hcmd, hcode, hdone, -, hlogged⟩ := s.guardArmed.refuseCmd_facts 1 0x5302
  have hsetup := raise_setup (s.guardArmed.refuseCmd 1 0x5302) 0x5302 0 0 0 false
  refine ⟨(s.guardArmed.refuseCmd 1 0x5302).raise 0x5302, ?_, ?_, ?_, ?_, ?_, ?_, ?_⟩
  · refine congrArg Host.Outcome.next ((State.setupCommand_ready hwrite hguard _ _).trans (hrefused.trans ?_))
    exact State.cmdPlanLoad_refused hidle
  · exact Only.of (State.raise_only _ _ _ _ _ _) rfl (Only.of (State.refuseCmd_only _ _ _) rfl (s.guardArmed_only.mono rfl))
  · exact (congrArg SetupState.resultCmd hsetup).trans hcmd
  · exact (congrArg SetupState.resultCode hsetup).trans hcode
  · exact (congrArg SetupState.resultDone hsetup).trans hdone
  · unfold Logged
    rw [hsetup]
    exact hlogged
  · exact (Raised.of_raise _ _ _ _ _ _).from rfl

/-- FW_UPDATE discards the plan and begins to read the image (R472, R482). -/
theorem exec_fwUpdate_begins {v : Word} (hv : v.toNat % 16 = 2) (hidle : s.idle = true) :
    ∃ t : State, exec (.fwUpdate 0 v) s = .next t ∧ Only [.out, .setup, .plan, .queues, .tel, .events, .exp, .sec] s t
      ∧ t.setup.cmdRunning = 2 ∧ t.setup.op = 0 ∧ t.plan = none ∧ t.setup.resultDone = false
      ∧ t.out = s.out ++ [.hostRead 0 s.setup.addr.toNat s.setup.len.toNat] := by
  obtain ⟨hready, hop, hplain⟩ := State.takesWrite_facts hwrite
  obtain ⟨-, hbegins, -⟩ := s.guardArmed.writeSetupCmd_cases (v := v.toNat) { read := .failed }
  obtain ⟨hsetup, hout, hplan⟩ := (s.guardArmed.beginCmd 2).dropPlan_facts
  have hread : (s.guardArmed.beginCmd 2).dropPlan.readImage.out
      = (s.guardArmed.beginCmd 2).dropPlan.out ++ [.hostRead 0 (s.guardArmed.beginCmd 2).dropPlan.setup.addr.toNat
          (s.guardArmed.beginCmd 2).dropPlan.setup.len.toNat] := rfl
  refine ⟨(s.guardArmed.beginCmd 2).dropPlan.readImage, ?_, ?_, congrArg SetupState.cmdRunning hsetup, ?_, hplan,
    congrArg SetupState.resultDone hsetup, ?_⟩
  · refine congrArg Host.Outcome.next ((State.setupCommand_ready hwrite hguard _ _).trans ((hbegins hv).trans ?_))
    exact State.cmdFwUpdate_begins hidle hready hplain
  · refine Only.of (State.emit_only _ _) rfl (Only.of (State.dropPlan_only _) rfl ?_)
    exact Only.of (State.beginCmd_only _ _) rfl (s.guardArmed_only.mono rfl)
  · exact (congrArg SetupState.op hsetup).trans hop
  · rw [hread, hout, hsetup]
    rfl

/-- ERASE begins the secure erase (R472, R473). -/
theorem exec_erase_begins {v : Word} (hv : v.toNat % 16 = 3) (hidle : s.idle = true) :
    ∃ t : State, exec (.erase 0 v) s = .next t ∧ Only [.setup] s t ∧ t.setup.op = 5 ∧ t.setup.cmdRunning = 3 ∧ t.setup.resultCmd = 3
      ∧ t.setup.resultDone = false := by
  obtain ⟨hready, -, hplain⟩ := State.takesWrite_facts hwrite
  obtain ⟨-, -, hbegins, -⟩ := s.guardArmed.writeSetupCmd_cases (v := v.toNat) { read := .failed }
  refine ⟨(s.guardArmed.beginCmd 3).startOp 5, ?_, ?_, rfl, rfl, rfl, rfl⟩
  · refine congrArg Host.Outcome.next ((State.setupCommand_ready hwrite hguard _ _).trans ((hbegins hv).trans ?_))
    exact State.cmdErase_begins hidle hready hplain
  · exact Only.of (State.startOp_only _ _) rfl (Only.of (State.beginCmd_only _ _) rfl s.guardArmed_only)

omit hguard in
/-- A command that is refused with a code of its own changes the setup block alone. -/
theorem refused_setup {c : Instr} {k code : Nat} (h : exec c s = .next (s.guardArmed.refuseCmd k code)) :
    ∃ t : State, exec c s = .next t ∧ Only [.setup] s t ∧ t.setup.resultDone = true ∧ t.setup.op = 0 ∧ Logged 0x1000C 0 .state t := by
  obtain ⟨-, hnone, -⟩ := State.takesWrite_facts hwrite
  obtain ⟨-, -, hdone, hop, hlogged⟩ := s.guardArmed.refuseCmd_facts k code
  exact ⟨_, h, Only.of (State.refuseCmd_only _ _ _) rfl s.guardArmed_only, hdone, hop.trans hnone, hlogged⟩

/-- FW_UPDATE and ERASE outside IDLE are refused (R472). -/
theorem exec_setup_refused {v : Word} {c : Instr} (hc : c ∈ [Instr.fwUpdate 0 v, .erase 0 v]) (hv : v.toNat % 16 = 2 ∨ v.toNat % 16 = 3)
    (hidle : s.idle = false) :
    ∃ t : State, exec c s = .next t ∧ Only [.setup] s t ∧ t.setup.resultDone = true ∧ t.setup.op = 0 ∧ Logged 0x1000C 0 .state t := by
  obtain ⟨-, -, hplain⟩ := State.takesWrite_facts hwrite
  obtain ⟨-, htwo, hthree, -⟩ := s.guardArmed.writeSetupCmd_cases (v := v.toNat) { read := .failed }
  have hexec : exec c s = .next (s.guardArmed.writeSetupCmd v.toNat { read := .failed }) := by
    simp only [List.mem_cons, List.not_mem_nil, or_false] at hc
    rcases hc with rfl | rfl
    · exact congrArg Host.Outcome.next (State.setupCommand_ready hwrite hguard _ _)
    · exact congrArg Host.Outcome.next (State.setupCommand_ready hwrite hguard _ _)
  rcases hv with hv | hv
  · exact refused_setup hwrite (hexec.trans (congrArg Host.Outcome.next ((htwo hv).trans
      (State.cmdFwUpdate_refused hidle hplain))))
  · exact refused_setup hwrite (hexec.trans (congrArg Host.Outcome.next ((hthree hv).trans (State.cmdErase_refused hidle))))

/-- MODULE_RESET resets the module, or is refused while flash is being written (R472, R478). -/
theorem exec_moduleReset {v : Word} (hv : v.toNat % 16 = 4) :
    exec (.moduleReset 0 v) s = .next (if s.setup.flashBusy then s.guardArmed.refuseCmd 4 0 else s.guardArmed.moduleReset) := by
  obtain ⟨-, -, -, hreset, -⟩ := s.guardArmed.writeSetupCmd_cases (v := v.toNat) { read := .failed }
  exact congrArg Host.Outcome.next ((State.setupCommand_ready hwrite hguard _ _).trans (hreset hv))

end

/-- RECOVER in RECOVERY reads its image (R481). -/
theorem exec_recover {s : State} (hstage : s.boot.stage = .recovery) (hop : s.setup.op = 0) (hcmd : s.setup.cmdRunning = 0)
    (hguard : s.setup.armed = false) (hconf : s.confidential = false) {v : Word} (hv : v.toNat % 16 = 5) (img : FwImage) :
    exec (.recover 0 v img) s = .next (s.guardArmed.cmdRecover img) := by
  obtain ⟨-, -, -, -, hrecover⟩ := s.guardArmed.writeSetupCmd_cases (v := v.toNat) img
  exact congrArg Host.Outcome.next ((State.setupCommand_recovery hstage hop hcmd hguard hconf _ _).trans (hrecover hv))

/-- What RECOVER leaves as its read of the image begins. -/
theorem State.recoverRead_only (s : State) : Only [.out, .setup] s (s.guardArmed.beginCmd 5).readImage :=
  Only.of (State.readImage_only _) rfl (Only.of (State.beginCmd_only _ _) rfl (s.guardArmed_only.mono rfl))

/-- The outcomes of RECOVER in RECOVERY (R481). -/
theorem State.recover_facts {s : State} (hstage : s.boot.stage = .recovery) (img : FwImage) :
    (img.read = .failed → Only [.out, .setup] s (s.guardArmed.cmdRecover img) ∧ (s.guardArmed.cmdRecover img).setup.resultCode = 0x6108
        ∧ (s.guardArmed.cmdRecover img).setup.resultDone = true)
      ∧ (∀ b, img.read = .ok b → fwHeaderBad b = true → Only [.out, .setup, .tel, .events] s (s.guardArmed.cmdRecover img)
        ∧ (s.guardArmed.cmdRecover img).setup.resultCode = 0x8301 ∧ Raised 0x8301 unitTackRoom s (s.guardArmed.cmdRecover img))
      ∧ (∀ b, img.read = .ok b → fwHeaderBad b = false → fwHashBad b = true → (s.guardArmed.cmdRecover img).boot.stage = .recovery
        ∧ (s.guardArmed.cmdRecover img).setup.resultCode = 0x8302 ∧ Raised 0x8302 unitTackRoom s (s.guardArmed.cmdRecover img))
      ∧ (∀ b, img.read = .ok b → fwHeaderBad b = false → fwHashBad b = false → img.flashOk = true →
        (s.guardArmed.cmdRecover img).boot = { s.boot.flash with cause := 1, image := some b }) := by
  have hstage' : s.guardArmed.boot.stage = .recovery := hstage
  refine ⟨fun hread => ?_, fun b hread hheader => ?_, fun b hread hheader hhash => ?_, fun b hread hheader hhash hflash => ?_⟩
  · rw [State.cmdRecover_unread hstage' hread]
    exact ⟨Only.of (State.endCmd_only _ _) rfl s.recoverRead_only, rfl, rfl⟩
  · rw [State.cmdRecover_header hstage' hread hheader]
    refine ⟨?_, rfl, Raised.of_raise_endCmd rfl 0x8301 unitTackRoom 0x8301⟩
    exact Only.of (State.endCmd_only _ _) rfl (Only.of (State.raise_only _ _ _ _ _ _) rfl (s.recoverRead_only.mono rfl))
  · rw [State.cmdRecover_hash hstage' hread hheader hhash]
    refine ⟨?_, rfl, Raised.of_raise_endCmd rfl 0x8302 unitTackRoom 0x8302⟩
    exact (congrArg BootState.stage ((State.raise_only _ 0x8302 unitTackRoom 0 0 false).get .boot rfl)).trans hstage
  · rw [State.cmdRecover_good hstage' hread hheader hhash hflash]
    rfl

/-- The read of a plan image that fails (R472). -/
theorem exec_planImageRead_failed {s : State} (hop : s.setup.op = 1) (hcmd : s.setup.cmdRunning = 1) (hflash : s.setup.flashBusy = false)
    (l : PlanLayout) : exec (.planImageRead .failed l) s = .next (s.endPlanLoad 0x6108) := by
  refine congrArg Host.Outcome.next ((if_neg (not_not_intro hop)).trans (if_pos ?_))
  exact ⟨by rw [hcmd]; decide, by rw [hflash]; rfl⟩

/-- A plan image of the wrong shape (R60). -/
theorem exec_planImageRead_malformed {s : State} (hop : s.setup.op = 1) (l : PlanLayout) {b : Bytes}
    (hbad : headerBad b s.setup.len.toNat = true ∨ b.length ≠ s.setup.len.toNat) :
    ∃ t : State, exec (.planImageRead (.ok b) l) s = .next t ∧ Only [.out, .setup, .tel, .events] s t ∧ t.setup.op = 0
      ∧ t.setup.resultCode = 0x1302 ∧ t.setup.resultDone = true ∧ Raised 0x1302 0 s t ∧ (field b 8 8 ≠ s.setup.len.toNat → t.out = s.out) := by
  have hrest := s.readPlanRest_only b
  have hsetup : (s.readPlanRest b).setup = s.setup := hrest.get .setup rfl
  have hraise := State.raise_only (s.readPlanRest b) 0x1302 0 0 0 false
  have hend := State.endPlanLoad_setup (s := (s.readPlanRest b).raise 0x1302) (by rw [raise_setup, hsetup]; exact hop) 0x1302
  have hdone := State.endPlanLoad_only ((s.readPlanRest b).raise 0x1302) 0x1302
  refine ⟨_, congrArg Host.Outcome.next ((if_neg (not_not_intro hop)).trans (State.loadImage_malformed (by rw [hsetup]; exact hbad) l)),
    ?_, ?_, ?_, ?_, ?_, fun hlen => ?_⟩
  · exact Only.of hdone rfl (Only.of hraise rfl (hrest.mono rfl))
  · exact congrArg SetupState.op hend
  · exact congrArg SetupState.resultCode hend
  · exact congrArg SetupState.resultDone hend
  · exact ((Raised.of_raise _ 0x1302 0 0 0 false).from (hrest.get .events rfl)).to (hdone.get .events rfl)
  · obtain ⟨os, heq, hnone, -⟩ := s.readPlanRest_eq b
    have hout : (s.readPlanRest b).out = s.out := by rw [heq, hnone hlen, State.emits, List.append_nil]
    exact (hdone.get .out rfl).trans ((hraise.get .out rfl).trans hout)

/-- A plan image of the rules is loaded when it is admitted, and leaves the previous plan otherwise (R60, R61). -/
theorem exec_planImageRead_checked {s : State} (hop : s.setup.op = 1) {l : PlanLayout} {b : Bytes}
    (hheader : headerBad b s.setup.len.toNat = false) (hlen : b.length = s.setup.len.toNat) (hplaces : placesBad b = false)
    (hmap : s.mapBad b = false) (hsign : s.signatureBad b = false) (himage : s.imageBad b l s.setup.len.toNat = false) :
    ((s.runAdmission (parsePlan b l) s.active.tickPeriod.toNat).2 = true → ∃ t : State, exec (.planImageRead (.ok b) l) s = .next t
      ∧ t.plan = some (parsePlan b l) ∧ t.sec.plan = (parsePlan b l).measure ∧ t.setup.resultCode = 0 ∧ t.setup.resultDone = true
      ∧ t.setup.op = 0 ∧ (512 < s.setup.len.toNat → .hostRead 0 (s.setup.addr.toNat + 512) (s.setup.len.toNat - 512) ∈ t.out))
    ∧ ((s.runAdmission (parsePlan b l) s.active.tickPeriod.toNat).2 = false → ∃ t : State, exec (.planImageRead (.ok b) l) s = .next t
      ∧ Only [.out, .setup, .seq, .tel, .events] s t ∧ t.setup.resultCode = 0x1301 ∧ t.setup.resultDone = true ∧ t.setup.op = 0) := by
  obtain ⟨os, heq, -, hos⟩ := s.readPlanRest_eq b
  have hexec : exec (.planImageRead (.ok b) l) s = .next ((s.emits os).loadImage b l) := by
    refine congrArg Host.Outcome.next ((if_neg (not_not_intro hop)).trans ?_)
    exact congrArg (fun t : State => t.loadImage b l) heq
  refine ⟨fun hok => ?_, fun hno => ?_⟩
  · obtain ⟨hplan, hmeasure, hsetup, hout⟩ := State.loadImage_admitted (s := s.emits os) (l := l) hop hheader hlen hplaces hmap hsign himage
      ((State.runAdmission_admits _ _ _).symm.trans hok)
    refine ⟨_, hexec, hplan, hmeasure, congrArg SetupState.resultCode hsetup, congrArg SetupState.resultDone hsetup,
      congrArg SetupState.op hsetup, fun hlong => ?_⟩
    rw [hout, hos (headerBad_length hheader) hlong]
    exact List.mem_append_right _ List.mem_cons_self
  · obtain ⟨hframe, hsetup⟩ := State.loadImage_unadmitted (s := s.emits os) (l := l) hop hheader hlen hplaces hmap hsign himage
      ((State.runAdmission_admits _ _ _).symm.trans hno)
    refine ⟨_, hexec, ?_, congrArg SetupState.resultCode hsetup, congrArg SetupState.resultDone hsetup, congrArg SetupState.op hsetup⟩
    exact Only.of hframe rfl ((State.emits_only s os).mono rfl)

/-- Settles O55: each command begins or is refused, and each image is taken or refused, by the laws above. Result codes and the order of
refusals are log 29, what a module reset keeps log 30. -/
theorem setupCommands : Obligations.SetupCommands := by
  intro s
  refine ⟨fun v hwrite hguard => ⟨fun hv hidle => ?_, fun hv hidle => ?_, fun hv hidle => ?_, fun hv hidle => ?_, fun c hc hv hidle => ?_,
    fun hv hflash => ?flashBusy, fun hv hflash => ?reset⟩, fun v img hstage hop hcmd hguard hconf hv => ?recovery,
    fun v img hwrite hguard hv => ?noRecovery, fun r l hop => ?noPlan, fun l hop hcmd hflash => ⟨?planFailed, fun b hbad => ?_,
      fun b hheader hlen hplaces hmap hsign himage => ?_⟩, fun img h => ?_, fun img b hcmd hflash hread => ⟨fun hbad => ?fwBad,
      fun hgood hok => ?fwGood⟩, fun b hwriting => ?flashEnd, fun hnone => ?flashNone⟩
  · exact exec_planLoad_begins hwrite hguard hv hidle
  · exact exec_planLoad_refused hwrite hguard hv hidle
  · exact exec_fwUpdate_begins hwrite hguard hv hidle
  · exact exec_erase_begins hwrite hguard hv hidle
  · exact exec_setup_refused hwrite hguard hc hv hidle
  case flashBusy =>
    obtain ⟨t, hexec, hframe, -, -, hlogged⟩ := refused_setup hwrite
      ((exec_moduleReset hwrite hguard hv).trans (congrArg Host.Outcome.next (if_pos hflash)))
    exact ⟨t, hexec, hframe, hlogged⟩
  case reset =>
    have hexec := (exec_moduleReset hwrite hguard hv).trans (congrArg Host.Outcome.next (if_neg (ne_true_of_eq_false hflash)))
    refine ⟨_, hexec, rfl, rfl, rfl, rfl, rfl, rfl, rfl, rfl, rfl, rfl, rfl, rfl, rfl, rfl, rfl, rfl, rfl, fun u => ?_, rfl, rfl⟩
    rw [State.moduleReset_unit]
    exact ⟨rfl, rfl⟩
  case recovery =>
    have hexec := exec_recover hstage hop hcmd hguard hconf hv img
    obtain ⟨hunread, hheader, hhash, hgood⟩ := State.recover_facts hstage img
    exact ⟨fun hread => ⟨_, hexec, hunread hread⟩, fun b hread hbad => ⟨_, hexec, hheader b hread hbad⟩,
      fun b hread hok hbad => ⟨_, hexec, hhash b hread hok hbad⟩, fun b hread hok hhashes hflash => ⟨_, hexec, hgood b hread hok hhashes hflash⟩⟩
  case noRecovery =>
    obtain ⟨-, -, -, -, hrecover⟩ := s.guardArmed.writeSetupCmd_cases (v := v.toNat) img
    obtain ⟨hready, -, -⟩ := State.takesWrite_facts hwrite
    have hstage : s.guardArmed.boot.stage ≠ .recovery := fun h => nomatch hready.symm.trans h
    obtain ⟨t, hexec, hframe, -, -, hlogged⟩ := refused_setup hwrite (c := .recover 0 v img) (k := 5) (code := 0)
      (congrArg Host.Outcome.next ((State.setupCommand_ready hwrite hguard _ _).trans ((hrecover hv).trans (if_pos hstage))))
    exact ⟨t, hexec, hframe, hlogged⟩
  case noPlan => exact congrArg Host.Outcome.next (if_pos hop)
  case planFailed =>
    have hend := State.endPlanLoad_setup hop 0x6108
    exact ⟨_, exec_planImageRead_failed hop hcmd hflash l, State.endPlanLoad_only _ _, congrArg SetupState.op hend,
      congrArg SetupState.cmdRunning hend, congrArg SetupState.resultCode hend, congrArg SetupState.resultDone hend⟩
  · exact exec_planImageRead_malformed hop l hbad
  · exact exec_planImageRead_checked hop hheader hlen hplaces hmap hsign himage
  · exact congrArg Host.Outcome.next (State.fwImageRead_idle h img)
  case fwBad =>
    refine ⟨_, congrArg Host.Outcome.next (State.fwImageRead_bad hcmd hflash hread hbad), ?_, ?_, rfl, ?_⟩
    · exact Only.of (State.fwFailed_only _ _) rfl ((State.tileWrite_only _ _ _ _).mono rfl)
    · exact (BitVec.toNat_ofNat _ _).trans (Nat.mod_eq_of_lt (fwFailure_lt b))
    · exact raised_last (Raised.of_raise_endCmd (s' := s.tileWrite 0 0 b) rfl (fwFailure b) unitTackRoom (fwFailure b))
  case fwGood =>
    refine ⟨_, congrArg Host.Outcome.next (State.fwImageRead_good hcmd hflash hread hgood hok), ?_, rfl, rfl⟩
    exact Only.lit ((State.tileWrite_only s 0 0 b).mono rfl) fun p => by cases p <;> simp [Part.same]
  case flashEnd =>
    have hend : s.flashWriteEnd
        = ({ s with boot.image := some b, boot.writing := none, boot.fwNewer := true, setup.flashBusy := false } : State).endCmd 0 := by
      unfold State.flashWriteEnd
      simp only [hwriting]
    refine ⟨s.flashWriteEnd, rfl, State.flashWriteEnd_only s, ?_, ?_⟩
    all_goals
      rw [hend]
      rfl
  case flashNone =>
    refine congrArg Host.Outcome.next ?_
    unfold State.flashWriteEnd
    simp only [hnone]

end Sys2Proof.Machine
end

section
/-! SUPPORT and CLAIM. The vector stage (R79, R82, R95, R133 to R135): what a stage's results leave in the tile store and in its registers, what a
conversion reads, writes and counts, the special inputs of its functions, and the obligation about them. -/

-- Checked one theorem at a time: the package as one text then needs less memory.
set_option Elab.async false

namespace Sys2Proof.Machine

/-! ## Elements and lists -/

/-- Elements that are written as bytes read back as their low bytes. -/
theorem elements_elementBytes (w : Nat) (xs : List Nat) : elements w xs.length (elementBytes w xs) = xs.map (· % 256 ^ w) := by
  induction xs with
  | nil => rfl
  | cons x xs ih =>
    have hbytes : elementBytes w (x :: xs) = leBytes w x ++ elementBytes w xs := rfl
    have hlength := leBytes_length w x
    rw [hbytes, List.length_cons, elements, List.take_left' hlength, List.drop_left' hlength, ih, leNat_leBytes, List.map_cons]

/-- A list whose elements are taken with their indices, index by index. -/
theorem map_zipIdx_range {α β : Type} (f : α × Nat → β) (d : α) (xs : List α) {n : Nat} (h : xs.length = n) :
    xs.zipIdx.map f = (List.range n).map (fun j => f (xs.getD j d, j)) := by
  subst h
  refine List.ext_getElem (by simp) fun j hj _ => ?_
  have hlt : j < xs.length := by simpa using hj
  simp [List.getElem?_eq_getElem hlt]

/-- An element of a list given by its indices. -/
theorem getD_map_range {α : Type} (f : Nat → α) (d : α) {j n : Nat} (h : j < n) : ((List.range n).map f).getD j d = f j := by
  simp [h]

/-- Insertions at consecutive keys. -/
theorem NMap.getD_insertAll {α β : Type} (g : β → α) (d : α) (b : β) (r k : Nat) (xs : List β) (o : Nat) (m : NMap α) :
    NMap.getD ((xs.zipIdx o).foldl (fun m x => NMap.insert m (r + x.2) (g x.1)) m) k d =
      if r + o ≤ k ∧ k < r + o + xs.length then g (xs.getD (k - (r + o)) b) else NMap.getD m k d := by
  induction xs generalizing o m with
  | nil => exact (if_neg (by simp only [List.length_nil]; omega)).symm
  | cons x xs ih =>
    rw [List.zipIdx_cons, List.foldl_cons, ih, List.length_cons]
    by_cases hlater : r + (o + 1) ≤ k ∧ k < r + (o + 1) + xs.length
    · have hindex : k - (r + o) = k - (r + (o + 1)) + 1 := by omega
      rw [if_pos hlater, if_pos (by omega), hindex, List.getD_cons_succ]
    · rw [if_neg hlater, NMap.getD_insert]
      by_cases hhere : r + o = k
      · rw [if_pos hhere, if_pos (by omega), hhere, Nat.sub_self, List.getD_cons_zero]
      · rw [if_neg hhere, if_neg (by omega)]

/-! ## Results at their place (R79) -/

/-- A register of a stage after consecutive ones are written. -/
theorem State.vecReg_setVecRegs (s : State) (l : LineId) (r k : Nat) (xs : List Nat) :
    (s.setVecRegs l r xs).vecReg l k = if r ≤ k ∧ k < r + xs.length then xs.getD (k - r) 0 % 2 ^ 64 else s.vecReg l k := by
  unfold State.vecReg State.setVecRegs State.setLine State.lineState
  rw [NMap.getD_modify, if_pos rfl]
  dsimp only
  rw [NMap.getD_insertAll (BitVec.ofNat 64) 0 0]
  by_cases h : r ≤ k ∧ k < r + xs.length
  · rw [if_pos h, if_pos (by simpa using h), BitVec.toNat_ofNat, Nat.add_zero]
  · rw [if_neg h, if_neg (by simpa using h)]

/-- Registers written after counting in the watch. -/
theorem State.setVecRegs_facts {s u : State} (o : Only [.watch] s u) (l : LineId) (d : Nat) (xs : List Nat) :
    Only [.lines, .watch] s (u.setVecRegs l d xs)
    ∧ (∀ j, j < xs.length → (u.setVecRegs l d xs).vecReg l (d + j) = xs.getD j 0 % 2 ^ 64)
    ∧ ∀ r, r < d ∨ d + xs.length ≤ r → (u.setVecRegs l d xs).vecReg l r = s.vecReg l r := by
  have hlines : ∀ r, u.vecReg l r = s.vecReg l r := fun r => by
    unfold State.vecReg State.lineState
    rw [o.get .lines]
  refine ⟨Only.of (State.setVecRegs_only _ _ _ _) rfl (o.mono rfl), fun j hj => ?_, fun r hr => ?_⟩
  · rw [State.vecReg_setVecRegs, if_pos (by omega), Nat.add_sub_cancel_left]
  · rw [State.vecReg_setVecRegs, if_neg (by omega), hlines]

/-- Memory is canonical where it is the same. -/
theorem memoryCanonical_of_mem {s u : State} (hmem : u.mem = s.mem) (h : s.memoryCanonical) : u.memoryCanonical := by
  unfold State.memoryCanonical
  rw [hmem]
  exact h

/-- A write to a tile store keeps memory canonical. -/
theorem memoryCanonical_tileWrite {s : State} (h : s.memoryCanonical) (tile addr : Nat) (bs : Bytes) :
    (s.tileWrite tile addr bs).memoryCanonical := ⟨h.1, Memory.wf_writeBytes _ _ _ h.2⟩

/-- Bytes written to a tile store after operations that leave the memories. -/
theorem tileWrite_after {s u : State} (hmem : u.mem = s.mem) (h : s.memoryCanonical) (tile addr : Nat) (bs : Bytes) :
    (u.tileWrite tile addr bs).tileRead tile addr bs.length = bs ∧ s.tilesKept (u.tileWrite tile addr bs) tile addr bs.length := by
  obtain ⟨hread, hkept⟩ := tileWrite_facts u (memoryCanonical_of_mem hmem h) tile addr bs
  exact ⟨hread, fun a ha => (hkept a ha).trans (by rw [hmem])⟩

/-- Elements written to a tile store after counting in the watch. -/
theorem State.tileWrite_elements {s u : State} (o : Only [.watch] s u) (h : s.Sound) (tile d w : Nat) {xs : List Nat} {n : Nat}
    (hn : xs.length = n) :
    Only [.tiles, .watch] s (u.tileWrite tile d (elementBytes w xs))
    ∧ (u.tileWrite tile d (elementBytes w xs)).tileRead tile d (w * n) = elementBytes w xs
    ∧ s.tilesKept (u.tileWrite tile d (elementBytes w xs)) tile d (w * n) := by
  have hlength : (elementBytes w xs).length = w * n := by rw [elementBytes_length, hn]
  exact ⟨Only.of (State.tileWrite_only _ _ _ _) rfl (o.mono rfl), tileWrite_of o h.memory tile d _ _ hlength⟩

/-! ## Elementwise operations (R133) -/

/-- A provided operation whose operands lie inside its places. -/
theorem exec_vec_provided {i : VecInstr} (hprovided : vecProvided i = true) (hrange : vecInRange i = true) (l : LineId) (c : Check) (s : State) :
    exec (.vectorOperation l i c) s = .next ((s.vector l i).checked c) := by
  rw [exec_vec, hprovided, if_neg (by decide), if_pos hrange]

/-- The results of an elementwise operation over the operands that the stage reads. -/
def State.arithResults (s : State) (l : LineId) (i : VecInstr) (wide : Bool) (f : Fmt) : List (Nat × Flags) :=
  (List.range i.n).map (fun j => vecElem i.op f (Rounding.ofField i.rm) ((s.longElems l wide i.a i.n).getD j 0)
    ((s.longElems l wide i.b i.n).getD j 0) ((s.longElems l wide i.c i.n).getD j 0))

/-- An elementwise operation counts its exceptions and writes its results. -/
theorem State.vector_arith {i : VecInstr} (hop : i.op ≠ .convert) {wide : Bool} (hwide : (i.src == 1) = wide) (s : State) (l : LineId) :
    s.vector l i =
      (s.countExceptions (s.tensorKey i.tensor) ((s.arithResults l i wide (if wide then binary64 else binary32)).map (·.2))).putLong l wide i.d
        ((s.arithResults l i wide (if wide then binary64 else binary32)).map (·.1)) := by
  subst hwide
  exact if_neg hop

/-- The results of an elementwise operation as numbers, one for each index. -/
theorem State.arithResults_fst (s : State) (l : LineId) (i : VecInstr) (wide : Bool) (f : Fmt) :
    (s.arithResults l i wide f).map (·.1) = (List.range i.n).map (fun j => (vecElem i.op f (Rounding.ofField i.rm)
      ((s.longElems l wide i.a i.n).getD j 0) ((s.longElems l wide i.b i.n).getD j 0) ((s.longElems l wide i.c i.n).getD j 0)).1) :=
  List.map_map

/-- An operand in the registers, element by element (R79). -/
theorem State.longElems_wide (s : State) (l : LineId) (a : Nat) {j n : Nat} (h : j < n) :
    (s.longElems l true a n).getD j 0 = s.vecReg l (a + j) := getD_map_range _ 0 h

/-- An elementwise operation in binary32 writes its results to the tile store (R79, R133). -/
theorem exec_vec_binary32 {s : State} (h : s.Sound) (l : LineId) {i : VecInstr} (hprovided : vecProvided i = true) (hrange : vecInRange i = true)
    (hop : i.op ≠ .convert) (hsrc : i.src = 2) :
    ∃ t : State, exec (.vectorOperation l i none) s = .next t ∧ Only [.tiles, .watch] s t
      ∧ t.tileRead l.tile.val i.d (4 * i.n) = elementBytes 4 ((List.range i.n).map (fun j => (vecElem i.op binary32 (Rounding.ofField i.rm)
          ((elements 4 i.n (s.tileRead l.tile.val i.a (4 * i.n))).getD j 0) ((elements 4 i.n (s.tileRead l.tile.val i.b (4 * i.n))).getD j 0)
          ((elements 4 i.n (s.tileRead l.tile.val i.c (4 * i.n))).getD j 0)).1))
      ∧ s.tilesKept t l.tile.val i.d (4 * i.n) := by
  refine ⟨_, exec_vec_provided hprovided hrange l none s, ?_⟩
  rw [State.vector_arith hop (wide := false) (by rw [hsrc]; rfl), State.arithResults_fst]
  exact State.tileWrite_elements (State.countExceptions_only _ _ _) h _ _ _ (by rw [List.length_map, List.length_range])

/-- An elementwise operation in binary64 writes its results to the stage's registers (R79, R133). -/
theorem exec_vec_binary64 (s : State) (l : LineId) {i : VecInstr} (hprovided : vecProvided i = true) (hrange : vecInRange i = true)
    (hop : i.op ≠ .convert) (hsrc : i.src = 1) :
    ∃ t : State, exec (.vectorOperation l i none) s = .next t ∧ Only [.lines, .watch] s t
      ∧ (∀ j, j < i.n → t.vecReg l (i.d + j) = (vecElem i.op binary64 (Rounding.ofField i.rm)
          (s.vecReg l (i.a + j)) (s.vecReg l (i.b + j)) (s.vecReg l (i.c + j))).1 % 2 ^ 64)
      ∧ (∀ r, r < i.d ∨ i.d + i.n ≤ r → t.vecReg l r = s.vecReg l r) := by
  refine ⟨_, exec_vec_provided hprovided hrange l none s, ?_⟩
  have hlength : ((s.arithResults l i true binary64).map (·.1)).length = i.n := by
    rw [State.arithResults_fst, List.length_map, List.length_range]
  obtain ⟨hframe, hwritten, hkept⟩ := State.setVecRegs_facts (State.countExceptions_only s (s.tensorKey i.tensor)
    ((s.arithResults l i true binary64).map (·.2))) l i.d ((s.arithResults l i true binary64).map (·.1))
  rw [hlength] at hwritten hkept
  rw [State.vector_arith hop (wide := true) (by rw [hsrc]; rfl)]
  refine ⟨hframe, fun j hj => (hwritten j hj).trans ?_, hkept⟩
  rw [State.arithResults_fst, getD_map_range _ 0 hj, State.longElems_wide s l i.a hj, State.longElems_wide s l i.b hj,
    State.longElems_wide s l i.c hj]

/-! ## Row operations (R135) -/

/-- A row operation in binary32 writes one element to the tile store. -/
theorem exec_row_binary32 {s : State} (h : s.Sound) (l : LineId) {i : RowInstr} (hrange : rowInRange i = true) (hwide : i.wide = false) :
    ∃ t : State, exec (.rowOperation l i) s = .next t ∧ Only [.tiles, .watch] s t
      ∧ t.tileRead l.tile.val i.d 4 = leBytes 4 (rowFold i.kind binary32 (Rounding.ofField i.rm)
          (elements 4 i.n (s.tileRead l.tile.val i.a (4 * i.n))) (elements 4 i.n (s.tileRead l.tile.val i.b (4 * i.n)))).1
      ∧ s.tilesKept t l.tile.val i.d 4 := by
  refine ⟨s.rowOp l i, (exec_row l i s).trans (if_pos hrange), ?_⟩
  unfold State.rowOp rowFmt
  rw [hwide]
  exact State.tileWrite_elements (n := 1) (State.countExceptions_only _ _ _) h _ _ _ rfl

/-- A row operation in binary64 writes one register. -/
theorem exec_row_binary64 (s : State) (l : LineId) {i : RowInstr} (hwide : i.wide = true) :
    ∃ t : State, exec (.rowOperation l i) s = .next t ∧ Only [.lines, .watch] s t
      ∧ t.vecReg l i.d = (rowFold i.kind binary64 (Rounding.ofField i.rm) ((List.range i.n).map (fun j => s.vecReg l (i.a + j)))
          ((List.range i.n).map (fun j => s.vecReg l (i.b + j)))).1 % 2 ^ 64
      ∧ ∀ r, r ≠ i.d → t.vecReg l r = s.vecReg l r := by
  have hrange : rowInRange i = true := by rw [rowInRange, hwide, Bool.true_or]
  refine ⟨s.rowOp l i, (exec_row l i s).trans (if_pos hrange), ?_⟩
  unfold State.rowOp rowFmt
  rw [hwide]
  obtain ⟨hframe, hwritten, hkept⟩ := State.setVecRegs_facts (State.countExceptions_only s (s.tensorKey i.tensor) _) l i.d [_]
  exact ⟨hframe, hwritten 0 Nat.one_pos, fun r hr => hkept r (by rw [List.length_singleton]; omega)⟩

/-! ## Conversions (R95) -/

/-- A value times 1. -/
theorem Num.scale_zero (x : Num) : x.scale 0 = x := by cases x <;> simp [Num.scale]

/-- Nothing poisoned is not counted. -/
theorem State.countPoison_zero (s : State) (code key : Nat) : s.countPoison code key 0 = s := if_pos rfl

/-- The state once what a conversion reads and makes is counted, before its result is written. -/
def State.countConvert (s : State) (l : LineId) (i : VecInstr) (x : Loaded) (w : Written) : State :=
  let key := s.tensorKey i.tensor
  let es := withSignals w.elems x.signals
  let s1 := (s.countPoison 0x2101 key x.poisoned).countPoison 0x2102 key x.malformed
  let s2 := if convertCounts i.src i.dst then
      s1.countConversions key (vectorUnit l) (s.vecScale i) es w.crowded w.crowdedBlocks w.zeroBlocks 0
    else s1.countExceptions key (es.map (·.flags))
  s2.countPoison 0x2104 key w.poison

/-- A conversion whose tags stand writes its result once it is counted. -/
theorem State.vector_convert {s : State} {l : LineId} {i : VecInstr} {x : Loaded} {w : Written} (hop : i.op = .convert)
    (hload : s.loadValues l i.src i.a i.aux i.stream i.elemBase i.n = x) (hskew : x.skew = false)
    (hwrite : writeValues i.dst 0 i.aux (s.vecScale i) i.ovfInf x.values (s.vecRounding i) = w) :
    s.vector l i = (s.countConvert l i x w).putConverted l i w := by
  subst hwrite hload
  refine (if_pos hop).trans ?_
  unfold State.vecConvert
  extract_lets key x k w es s1 s2 s3
  exact if_neg (ne_true_of_eq_false hskew)

/-- What counting a conversion changes. -/
theorem State.countConvert_only (s : State) (l : LineId) (i : VecInstr) (x : Loaded) (w : Written) :
    Only [.tel, .watch, .events] s (s.countConvert l i x w) := by
  unfold State.countConvert
  extract_lets key es s1 s2
  have hread : Only [.tel, .watch, .events] s s1 := (State.countPoison_only _ _ _ _).trans (State.countPoison_only _ _ _ _)
  have hcounted : Only [.watch] s1 s2 := Only.ite (fun _ => State.countConversions_only _ _ _ _ _ _ _ _ _) (fun _ => State.countExceptions_only _ _ _)
  exact (hread.trans (hcounted.mono rfl)).trans (State.countPoison_only _ _ _ _)

/-- A conversion without poisoned or malformed blocks counts in the watch alone. -/
theorem State.countConvert_clean (s : State) (l : LineId) (i : VecInstr) {x : Loaded} {w : Written} (hread : x.poisoned = 0)
    (hform : x.malformed = 0) (hmade : w.poison = 0) : Only [.watch] s (s.countConvert l i x w) := by
  unfold State.countConvert
  simp only [hread, hform, hmade, State.countPoison_zero]
  exact Only.ite (fun _ => State.countConversions_only _ _ _ _ _ _ _ _ _) (fun _ => State.countExceptions_only _ _ _)

/-- A result of a format other than binary64 and YS8 is written to the tile store as it is. -/
theorem State.putConverted_plain {i : VecInstr} (hlong : i.dst ≠ 1) (hblock : i.dst ≠ 6) (s : State) (l : LineId) (w : Written) :
    s.putConverted l i w = s.tileWrite l.tile.val i.d w.bytes := (if_neg hlong).trans (if_neg hblock)

/-- A conversion to YB16, to row codes or to activation codes, or from a block or row format, writes its bytes to the tile store. -/
theorem exec_convert_bytes {s : State} (h : s.Sound) (l : LineId) {i : VecInstr} {x : Loaded} {w : Written} (hprovided : vecProvided i = true)
    (hrange : vecInRange i = true) (hop : i.op = .convert) (hload : s.loadValues l i.src i.a i.aux i.stream i.elemBase i.n = x)
    (hskew : x.skew = false) (hwrite : writeValues i.dst 0 i.aux (s.vecScale i) i.ovfInf x.values (s.vecRounding i) = w)
    (hlong : i.dst ≠ 1) (hblock : i.dst ≠ 6) :
    ∃ t : State, exec (.vectorOperation l i none) s = .next t ∧ Only [.tiles, .watch, .tel, .events] s t
      ∧ t.tileRead l.tile.val i.d w.bytes.length = w.bytes ∧ s.tilesKept t l.tile.val i.d w.bytes.length := by
  have hcounted := s.countConvert_only l i x w
  refine ⟨_, exec_vec_provided hprovided hrange l none s, ?_⟩
  rw [State.vector_convert hop hload hskew hwrite, State.putConverted_plain hlong hblock]
  exact ⟨Only.of (State.tileWrite_only _ _ _ _) rfl (hcounted.mono rfl), tileWrite_after hcounted.mem h.memory _ _ _⟩

/-- Tagging leaves the bytes of the tile stores (R101). -/
theorem State.tagYs8_tiles (s : State) (tile addr scales stream first n : Nat) : (s.tagYs8 tile addr scales stream first n).mem.tiles = s.mem.tiles := by
  unfold State.tagYs8
  induction n with
  | zero => rfl
  | succ n ih => rw [List.range_succ, List.foldl_append]; exact ih

/-- Bytes of a tile store are read alike where the bytes of the tile stores are the same. -/
theorem tileRead_congr {s t : State} (h : t.mem.tiles = s.mem.tiles) (tile addr n : Nat) : t.tileRead tile addr n = s.tileRead tile addr n := by
  unfold State.tileRead
  rw [h]

/-- Bytes that are the same one by one read alike. -/
theorem readBytes_congr {m m' : Memory} {a n : Nat} (h : ∀ b, a ≤ b → b < a + n → Memory.read m b = Memory.read m' b) :
    Memory.readBytes m a n = Memory.readBytes m' a n := by
  induction n generalizing a with
  | zero => rfl
  | succ n ih => exact congrArg₂ List.cons (h a le_rfl (by omega)) (ih fun b hlow hhigh => h b (by omega) (by omega))

/-- Bytes of a tile store outside those written read as before. -/
theorem tileRead_outside {s t : State} {tile addr n : Nat} (hkept : s.tilesKept t tile addr n) {a k : Nat} (h : a + k ≤ addr ∨ addr + n ≤ a) :
    t.tileRead tile a k = s.tileRead tile a k := by
  refine readBytes_congr fun b hlow hhigh => hkept b ?_
  unfold tileAddr at *
  omega

/-- A conversion to YS8 writes its elements and, apart from them, its scale bytes (R96, R100). -/
theorem exec_convert_ys8 {s : State} (h : s.Sound) (l : LineId) {i : VecInstr} {x : Loaded} {w : Written} (hprovided : vecProvided i = true)
    (hrange : vecInRange i = true) (hop : i.op = .convert) (hload : s.loadValues l i.src i.a i.aux i.stream i.elemBase i.n = x)
    (hskew : x.skew = false) (hwrite : writeValues i.dst 0 i.aux (s.vecScale i) i.ovfInf x.values (s.vecRounding i) = w)
    (hdst : i.dst = 6) (hlast : i.lastBlocks = false) (happart : i.d + w.bytes.length ≤ i.aux ∨ i.aux + w.scales.length ≤ i.d) :
    ∃ t : State, exec (.vectorOperation l i none) s = .next t ∧ Only [.tiles, .watch, .tel, .events] s t
      ∧ t.tileRead l.tile.val i.d w.bytes.length = w.bytes ∧ t.tileRead l.tile.val i.aux w.scales.length = w.scales := by
  have hcounted := s.countConvert_only l i x w
  have hput : (s.countConvert l i x w).putConverted l i w = (((s.countConvert l i x w).tileWrite l.tile.val i.d w.bytes).tileWrite l.tile.val
      i.aux w.scales).tagYs8 l.tile.val i.d i.aux i.stream (i.elemBase / 32) (i.n / 32) := by
    unfold State.putConverted State.ys8Tail
    rw [if_neg (by rw [hdst]; decide), if_pos hdst, if_neg (ne_true_of_eq_false hlast)]
  have hcanonical := memoryCanonical_of_mem hcounted.mem h.memory
  refine ⟨_, exec_vec_provided hprovided hrange l none s, ?_⟩
  rw [State.vector_convert hop hload hskew hwrite, hput]
  generalize s.countConvert l i x w = u at hcounted hcanonical
  obtain ⟨hdata, -⟩ := tileWrite_facts u hcanonical l.tile.val i.d w.bytes
  obtain ⟨hscales, hkept⟩ := tileWrite_facts _ (memoryCanonical_tileWrite hcanonical l.tile.val i.d w.bytes) l.tile.val i.aux w.scales
  refine ⟨?_, ?_, ?_⟩
  · exact Only.of (State.tagYs8_only _ _ _ _ _ _ _) rfl (Only.of (State.tileWrite_only _ _ _ _) rfl
      (Only.of (State.tileWrite_only _ _ _ _) rfl (hcounted.mono rfl)))
  · exact (tileRead_congr (State.tagYs8_tiles _ _ _ _ _ _ _) _ _ _).trans ((tileRead_outside hkept happart).trans hdata)
  · exact (tileRead_congr (State.tagYs8_tiles _ _ _ _ _ _ _) _ _ _).trans hscales

/-! ## Conversions between the formats of single elements (R95) -/

/-- The elements of a conversion's source as the stage reads them: registers for binary64, else the tile store (R79). -/
def State.floatElems (s : State) (l : LineId) (code : Nat) (f : Fmt) (a n : Nat) : List Nat :=
  if code = 1 then s.longElems l true a n else elements (f.width / 8) n (s.tileRead l.tile.val a (f.width / 8 * n))

/-- What a conversion between formats of single elements makes of its source. -/
def State.floatResults (s : State) (l : LineId) (i : VecInstr) (f g : Fmt) : List Nat :=
  (s.floatElems l i.src f i.a i.n).zipIdx.map (fun p => (((decodeNum f p.1).scale (s.vecScale i)).round g (s.vecRounding i p.2) i.ovfInf).1)

/-- A conversion reads as many elements as it is asked. -/
theorem State.floatElems_length (s : State) (l : LineId) (code : Nat) (f : Fmt) (a n : Nat) : (s.floatElems l code f a n).length = n := by
  unfold State.floatElems
  split
  · exact (List.length_map _).trans List.length_range
  · exact elements_length _ _ _

/-- A conversion makes as many results. -/
theorem State.floatResults_length (s : State) (l : LineId) (i : VecInstr) (f g : Fmt) : (s.floatResults l i f g).length = i.n := by
  rw [State.floatResults, List.length_map, List.length_zipIdx, State.floatElems_length]

/-- The results of a conversion, index by index. -/
theorem State.floatResults_range (s : State) (l : LineId) (i : VecInstr) (f g : Fmt) : s.floatResults l i f g = (List.range i.n).map (fun j =>
    (((decodeNum f ((s.floatElems l i.src f i.a i.n).getD j 0)).scale (s.vecScale i)).round g (s.vecRounding i j) i.ovfInf).1) :=
  map_zipIdx_range _ 0 _ (s.floatElems_length _ _ _ _ _)

/-- The bytes that elements of a short format or of binary32 take. -/
theorem formatBytes_float {code : Nat} {f : Fmt} (hf : Fmt.ofCode code = some f) (hlong : code ≠ 1) (n : Nat) :
    formatBytes code n = f.width / 8 * n := by
  rcases ofCode_bytes hf with ⟨rfl, -⟩ | ⟨rfl, rfl⟩ | ⟨rfl, rfl⟩ | ⟨rfl, rfl⟩ | ⟨rfl, rfl⟩
  · exact absurd rfl hlong
  · rfl
  · rfl
  · exact (Nat.one_mul n).symm
  · exact (Nat.one_mul n).symm

/-- What a stage reads of a format of single elements: their values, with nothing to report. -/
theorem State.loadValues_float {code : Nat} {f : Fmt} (hf : Fmt.ofCode code = some f) (s : State) (l : LineId) (a aux stream first n : Nat) :
    s.loadValues l code a aux stream first n = { values := (s.floatElems l code f a n).map (decodeNum f) } := by
  unfold State.loadValues State.floatElems
  rw [hf]
  by_cases hlong : code = 1
  · simp only [if_pos hlong]
  · simp only [if_neg hlong, formatBytes_float hf hlong]

/-- What is written of a format of single elements: their bytes, with no block poisoned. -/
theorem writeValues_float {code : Nat} {g : Fmt} (hg : Fmt.ofCode code = some g) (aux : Nat) (k : Int) (ovfInf : Bool) (xs : List Num)
    (m : Nat → Rounding) :
    (writeValues code 0 aux k ovfInf xs m).bytes = elementBytes (g.width / 8) (xs.zipIdx.map (fun p => ((p.1.scale k).round g (m p.2) ovfInf).1))
    ∧ (writeValues code 0 aux k ovfInf xs m).poison = 0 := by
  unfold writeValues
  rw [hg]
  simp only [List.map_map, Function.comp_def, Nat.zero_add, and_self]

/-- A conversion between formats of single elements counts in the watch alone and writes its results. -/
theorem State.vector_convert_float {i : VecInstr} {f g : Fmt} (hop : i.op = .convert) (hf : Fmt.ofCode i.src = some f)
    (hg : Fmt.ofCode i.dst = some g) (s : State) (l : LineId) : ∃ (u : State) (w : Written), Only [.watch] s u ∧
      s.vector l i = u.putConverted l i w ∧ w.bytes = elementBytes (g.width / 8) (s.floatResults l i f g) := by
  obtain ⟨hbytes, hpoison⟩ := writeValues_float hg i.aux (s.vecScale i) i.ovfInf ((s.floatElems l i.src f i.a i.n).map (decodeNum f)) (s.vecRounding i)
  refine ⟨_, _, s.countConvert_clean l i ?_ ?_ hpoison, State.vector_convert hop (State.loadValues_float hf s l _ _ _ _ _) rfl rfl, hbytes.trans ?_⟩
  · rfl
  · rfl
  · rw [List.zipIdx_map, List.map_map]
    rfl

/-- A conversion to a short format or to binary32 writes its results to the tile store. -/
theorem exec_convert_tiles {s : State} (h : s.Sound) (l : LineId) {i : VecInstr} {f g : Fmt} (hprovided : vecProvided i = true)
    (hrange : vecInRange i = true) (hop : i.op = .convert) (hf : Fmt.ofCode i.src = some f) (hg : Fmt.ofCode i.dst = some g) (hlong : i.dst ≠ 1) :
    ∃ t : State, exec (.vectorOperation l i none) s = .next t ∧ Only [.tiles, .watch] s t
      ∧ t.tileRead l.tile.val i.d (g.width / 8 * i.n) = elementBytes (g.width / 8) (s.floatResults l i f g)
      ∧ s.tilesKept t l.tile.val i.d (g.width / 8 * i.n) := by
  have hblock : i.dst ≠ 6 := fun hdst => by
    rw [hdst] at hg
    exact nomatch hg
  obtain ⟨u, w, hcounted, hvector, hbytes⟩ := State.vector_convert_float hop hf hg s l
  refine ⟨_, exec_vec_provided hprovided hrange l none s, ?_⟩
  rw [hvector, State.putConverted_plain hlong hblock, hbytes]
  exact State.tileWrite_elements hcounted h _ _ _ (s.floatResults_length l i f g)

/-- A conversion to binary64 writes its results to the stage's registers. -/
theorem exec_convert_regs (s : State) (l : LineId) {i : VecInstr} {f : Fmt} (hprovided : vecProvided i = true)
    (hrange : vecInRange i = true) (hop : i.op = .convert) (hf : Fmt.ofCode i.src = some f) (hlong : i.dst = 1) :
    ∃ t : State, exec (.vectorOperation l i none) s = .next t ∧ Only [.lines, .watch] s t
      ∧ ∀ j, j < i.n → t.vecReg l (i.d + j) = (s.floatResults l i f binary64).getD j 0 % 2 ^ 64 := by
  obtain ⟨u, w, hcounted, hvector, hbytes⟩ := State.vector_convert_float hop hf (by rw [hlong]; rfl) s l
  have hlength := s.floatResults_length l i f binary64
  have hregs : elements 8 i.n w.bytes = (s.floatResults l i f binary64).map (· % 256 ^ 8) := by
    rw [hbytes, ← hlength]
    exact elements_elementBytes 8 _
  have hput : u.putConverted l i w = u.setVecRegs l i.d ((s.floatResults l i f binary64).map (· % 256 ^ 8)) := by
    rw [← hregs]
    exact if_pos hlong
  obtain ⟨hframe, hwritten, -⟩ := State.setVecRegs_facts hcounted l i.d ((s.floatResults l i f binary64).map (· % 256 ^ 8))
  rw [List.length_map, hlength] at hwritten
  refine ⟨_, exec_vec_provided hprovided hrange l none s, ?_⟩
  rw [hvector, hput]
  refine ⟨hframe, fun j hj => (hwritten j hj).trans ?_⟩
  have hmod : 256 ^ 8 = 2 ^ 64 := by norm_num
  simp [hlength, hj, hmod]

/-- The results of binary64 to binary32: rounded in the direction of `rm`, and no scale applies (R92, R94). -/
theorem State.floatResults_narrow {i : VecInstr} (hsrc : i.src = 1) (hdst : i.dst = 2) (s : State) (l : LineId) :
    s.floatResults l i binary64 binary32 = (List.range i.n).map (fun j =>
      ((decodeNum binary64 (s.vecReg l (i.a + j))).round binary32 (Rounding.ofField i.rm) i.ovfInf).1) := by
  have hscale : s.vecScale i = 0 := if_pos (.inl (by omega))
  have hround : ∀ j, s.vecRounding i j = Rounding.ofField i.rm := fun j => (if_pos hdst).trans (if_pos hsrc)
  have helems : s.floatElems l i.src binary64 i.a i.n = s.longElems l true i.a i.n := if_pos hsrc
  rw [State.floatResults_range]
  refine List.map_congr_left fun j hj => ?_
  rw [hscale, hround, helems, Num.scale_zero, State.longElems_wide s l i.a (List.mem_range.mp hj)]

/-- A result of binary32 to binary64, to which no scale applies (R94). -/
theorem State.floatResults_widen {i : VecInstr} (hsrc : i.src = 2) (hdst : i.dst = 1) (s : State) (l : LineId) {j : Nat} (hj : j < i.n) :
    (s.floatResults l i binary32 binary64).getD j 0 =
      ((decodeNum binary32 ((elements 4 i.n (s.tileRead l.tile.val i.a (4 * i.n))).getD j 0)).round binary64 (s.vecRounding i j) i.ovfInf).1 := by
  have hscale : s.vecScale i = 0 := if_pos (.inl (by omega))
  have helems : s.floatElems l i.src binary32 i.a i.n = elements 4 i.n (s.tileRead l.tile.val i.a (4 * i.n)) := if_neg (by omega)
  rw [State.floatResults_range, getD_map_range _ 0 hj, hscale, helems, Num.scale_zero]

/-! ## The conversions that R95 lists -/

/-- A provided conversion is a listed one. -/
theorem vecProvided_convert {i : VecInstr} (hprovided : vecProvided i = true) (hop : i.op = .convert) : convertListed i.src i.dst = true := by
  unfold vecProvided at hprovided
  rw [hop] at hprovided
  exact (Bool.and_eq_true_iff.mp hprovided).1

/-- binary64 converts to binary32 alone. -/
theorem convertListed_from_binary64 {src dst : Nat} (h : convertListed src dst = true) (hsrc : src = 1) : dst = 2 := by
  subst hsrc
  exact beq_iff_eq.mp h

/-- binary32 alone converts to binary64. -/
theorem convertListed_to_binary64 {src dst : Nat} (h : convertListed src dst = true) (hdst : dst = 1) : src = 2 := by
  subst hdst
  unfold convertListed at h
  split at h
  case h_2 => rfl
  all_goals exact nomatch h

/-- A block or row format converts to binary32 or YF16 alone. -/
theorem convertListed_from_block {src dst : Nat} (h : convertListed src dst = true) (hsrc : 6 ≤ src) : dst = 2 ∨ dst = 3 := by
  unfold convertListed at h
  split at h
  case h_6 | h_7 | h_8 | h_9 => simpa using h
  case h_10 => exact nomatch h
  all_goals omega

/-- A conversion from a block or row format, or to YB16, row codes or activation codes, makes neither binary64 nor YS8. -/
theorem convertListed_plain {src dst : Nat} (h : convertListed src dst = true) (hcode : 7 ≤ dst ∨ 6 ≤ src) : dst ≠ 1 ∧ dst ≠ 6 := by
  rcases hcode with hdst | hsrc
  · omega
  · have := convertListed_from_block h hsrc
    omega

/-! ## The functions (R134) -/

/-- A NaN gives the canonical NaN, and invalid where it is a signalling one (R82). -/
theorem vecFn_nan {w : Nat} {signalling : Bool} (h : decodeNum binary32 w = .nan signalling) (f : VecFn) :
    vecFn f w = (0x7FC00000, { invalid := signalling }) := by
  unfold vecFn
  rw [h]

/-- The logarithms of a zero, of a number below zero and of +∞ (R134). -/
theorem vecFn_logs {f : VecFn} (hf : f = .log2 ∨ f = .log) :
    (∀ z : Nat, z = 0 ∨ z = 0x80000000 → (vecFn f z).1 = 0xFF800000 ∧ (vecFn f z).2.divZero = true)
    ∧ (vecFn f 0xC0000000).1 = 0x7FC00000 ∧ (vecFn f 0xC0000000).2.invalid = true ∧ (vecFn f 0x7F800000).1 = 0x7F800000 := by
  rcases hf with rfl | rfl
  all_goals
    refine ⟨?_, rfl, rfl, rfl⟩
    rintro z (rfl | rfl)
    · exact ⟨rfl, rfl⟩
    · exact ⟨rfl, rfl⟩

/-- The odd functions at the infinities and the zeros (R134). -/
theorem vecFn_odd {f : VecFn} (hf : f = .tanh ∨ f = .erf) : (vecFn f 0x7F800000).1 = 0x3F800000 ∧ (vecFn f 0xFF800000).1 = 0xBF800000
    ∧ (vecFn f 0).1 = 0 ∧ (vecFn f 0x80000000).1 = 0x80000000 := by
  rcases hf with rfl | rfl <;> exact ⟨rfl, rfl, rfl, rfl⟩

/-! ## The obligation -/

/-- Settles O30: one law for each way that a vector or row operation goes. Where rows, YB16 and activations stand is log 38, the result of a
comparison and what a selection takes log 13. -/
theorem vectorStage : Obligations.VectorStage := by
  refine ⟨fun s l h => ⟨?binary32, ?binary64, ?tiles, ?narrow, ?widen, ?blocks, ?refused, ?row32, ?row64, ?check⟩, fun f => ?nan,
    rfl, rfl, rfl, rfl, fun f hf => (vecFn_logs hf).1, fun f hf => (vecFn_logs hf).2, fun f hf => vecFn_odd hf, rfl, rfl⟩
  case binary32 => exact fun i hprovided hrange hop hsrc => exec_vec_binary32 h l hprovided hrange hop hsrc
  case binary64 => exact fun i hprovided hrange hop hsrc => exec_vec_binary64 s l hprovided hrange hop hsrc
  case tiles =>
    intro i f g hprovided hrange hop hf hg hsrc hdst
    have helems : s.floatElems l i.src f i.a i.n = elements (f.width / 8) i.n (s.tileRead l.tile.val i.a (f.width / 8 * i.n)) := if_neg hsrc
    rw [← helems]
    exact exec_convert_tiles h l hprovided hrange hop hf hg hdst
  case narrow =>
    intro i hprovided hrange hop hsrc
    have hdst := convertListed_from_binary64 (vecProvided_convert hprovided hop) hsrc
    rw [← State.floatResults_narrow hsrc hdst]
    exact exec_convert_tiles h l hprovided hrange hop (by rw [hsrc]; rfl) (by rw [hdst]; rfl) (by omega)
  case widen =>
    intro i hprovided hrange hop hdst
    have hsrc := convertListed_to_binary64 (vecProvided_convert hprovided hop) hdst
    obtain ⟨t, hexec, hframe, hregs⟩ := exec_convert_regs s l (f := binary32) hprovided hrange hop (by rw [hsrc]; rfl) hdst
    exact ⟨t, hexec, hframe, fun j hj => by rw [hregs j hj, State.floatResults_widen hsrc hdst s l hj]⟩
  case blocks =>
    intro i x w hprovided hrange hop hload hskew hwrite
    refine ⟨fun hcode => ?_, fun hdst hlast happart => exec_convert_ys8 h l hprovided hrange hop hload hskew hwrite hdst hlast happart⟩
    obtain ⟨hlong, hblock⟩ := convertListed_plain (vecProvided_convert hprovided hop) hcode
    exact exec_convert_bytes h l hprovided hrange hop hload hskew hwrite hlong hblock
  case refused =>
    intro i hprovided c
    rw [exec_vec, hprovided]
    rfl
  case row32 => exact fun i hrange hwide => exec_row_binary32 h l hrange hwide
  case row64 => exact fun i hwide => exec_row_binary64 s l hwide
  case check => exact fun i u hprovided hrange => ⟨_, exec_vec_provided hprovided hrange l none s, exec_vec_provided hprovided hrange l (some u) s⟩
  case nan =>
    have hquiet : decodeNum binary32 0x7FC00000 = .nan false := by decide
    have hsignalling : decodeNum binary32 0xFF800001 = .nan true := by decide
    rw [vecFn_nan hquiet, vecFn_nan hsignalling]
    exact ⟨rfl, rfl⟩

end Sys2Proof.Machine
end

section
/-! SUPPORT and CLAIM. GATHER (R95, R102, R286, R289): what a shard's source in a tile store reads as, the activation that arrives, and the
obligation about them. -/

-- Checked one theorem at a time: the package as one text then needs less memory.
set_option Elab.async false

namespace Sys2Proof.Machine

/-- A slice has the length asked for. -/
theorem slice_length (b : Bytes) (o n : Nat) : (slice b o n).length = n := by
  simp only [slice, List.length_append, List.length_take, List.length_replicate]
  omega

/-- Reads of which none failed and whose tags stand report nothing (R311). -/
theorem State.readFaults_none (s : State) : s.readFaults [] none = s := by
  have hnew : s.newBad [] = [] := by
    unfold State.newBad
    split <;> rfl
  unfold State.readFaults
  rw [hnew]
  split <;> rfl

/-- A YF16 shard in a tile store is its bytes, unchanged. -/
theorem State.shardData_yf16 {c : ShardCopy} (hstore : c.fromHbm = false) (hfmt : c.fmt = 3) (s : State) :
    s.shardData c = (s, s.tileRead c.srcTile.val c.src (2 * c.n)) := by
  unfold State.shardData
  rw [if_neg (by omega), if_neg (by omega), shardBytes_tile c hstore _ s _ _ (by omega)]
  exact congrArg (·, _) s.readFaults_none

/-- An 8-bit shard in a tile store is its elements, widened to YF16. -/
theorem State.shardData_yf8 {c : ShardCopy} (hstore : c.fromHbm = false) (hfmt : c.fmt = 4 ∨ c.fmt = 5) (s : State) :
    s.shardData c = (s, elementBytes 2 ((elements 1 c.n (s.tileRead c.srcTile.val c.src c.n)).map (fun e =>
      (convert (if c.fmt = 4 then yf8e4 else yf8e5) yf16 .rne false 0 e).1))) := by
  unfold State.shardData
  rw [if_neg (by omega), if_pos hfmt, shardBytes_tile c hstore _ s _ _ (by omega)]
  exact congrArg (·, _) s.readFaults_none

/-- A check block of a shard in a tile store: it never fails its reads. -/
theorem State.shardBlock_tile {c : ShardCopy} (hstore : c.fromHbm = false) (s : State) (addr : Nat) :
    s.shardBlock c addr = (s, ⟨true, s.tileRead c.srcTile.val (addr / 512 * 512) 512, s.tileTag c.srcTile.val addr⟩) :=
  if_neg (by rw [hstore]; decide)

/-- The first data check block of a YS8 shard, whose tags stand and whose live blocks are not poisoned (R102). -/
theorem State.shardPart_good {s : State} {c : ShardCopy} (hstore : c.fromHbm = false) (hshort : c.n ≤ 512)
    (hdata : s.tileTag c.srcTile.val c.src = (ys8Tags c.stream c.firstBlock).1)
    (hscale : s.tileTag c.srcTile.val c.srcScale = (ys8Tags c.stream c.firstBlock).2) (halign : c.src % 512 = 0) (hscales : c.srcScale % 512 = 0)
    (hclean : poisonedScales (s.tileRead c.srcTile.val c.srcScale 16) (ceilDiv c.n 32) = 0) :
    s.shardPart c {} 0 = (s, { elems := (widenYs8 true (s.tileRead c.srcTile.val c.srcScale 16) (s.tileRead c.srcTile.val c.src 512)).take c.n }) := by
  have hlive : min 16 (ceilDiv (c.n - 0) 32) = ceilDiv c.n 32 := by
    unfold ceilDiv
    omega
  have hfrom : ∀ a, a % 512 = 0 → a / 512 * 512 = a := by omega
  have hfirst : slice (s.tileRead c.srcTile.val c.srcScale 512) 0 16 = s.tileRead c.srcTile.val c.srcScale 16 :=
    slice_tileRead _ _ _ _ _ _ (by decide)
  unfold State.shardPart
  simp only [State.shardBlock_tile hstore, Nat.mul_zero, Nat.add_zero, hdata, hscale, hfrom _ halign, hfrom _ hscales, hscales, hfirst, hlive,
    hclean, BlockRead.failedBlock, State.ys8Seen, State.countPoison]
  simp

/-- A YS8 shard in a tile store of at most one data check block, whose tags stand: its elements, widened to YF16. -/
theorem State.shardData_ys8 {s : State} {c : ShardCopy} (hstore : c.fromHbm = false) (hfmt : c.fmt = 6) (hshort : c.n ≤ 512)
    (hdata : s.tileTag c.srcTile.val c.src = (ys8Tags c.stream c.firstBlock).1)
    (hscale : s.tileTag c.srcTile.val c.srcScale = (ys8Tags c.stream c.firstBlock).2) (halign : c.src % 512 = 0) (hscales : c.srcScale % 512 = 0)
    (hclean : poisonedScales (s.tileRead c.srcTile.val c.srcScale 16) (ceilDiv c.n 32) = 0) :
    s.shardData c = (s, elementBytes 2 ((widenYs8 true (s.tileRead c.srcTile.val c.srcScale 16) (s.tileRead c.srcTile.val c.src 512)).take c.n)) := by
  unfold State.shardData
  rw [if_pos hfmt]
  unfold State.shardYs8
  rcases Nat.eq_zero_or_pos c.n with hempty | hsome
  · rw [hempty, show ceilDiv 0 512 = 0 from rfl]
    exact congrArg (·, _) s.readFaults_none
  · rw [show ceilDiv c.n 512 = 1 by unfold ceilDiv; omega]
    simp only [List.range_one, List.foldl_cons, List.foldl_nil, State.shardPart_good hstore hshort hdata hscale halign hscales hclean]
    exact congrArg (·, _) s.readFaults_none

/-- A shard that a module copies for itself: its bytes stand at the destination, and nothing else changes. -/
theorem exec_gather_local {s : State} (h : s.Sound) {c : ShardCopy} {bs : Bytes} (hstore : c.fromHbm = false)
    (hrange : tileRange c.dst (2 * c.n) = true) (hto : c.toModule = none) (hfrom : c.fromModule = none)
    (hsource : s.shardSource c tileBytes = true) (hbytes : s.shardData c = (s, bs)) (hlength : bs.length = 2 * c.n) :
    ∃ t : State, exec (.gather c) s = .next t ∧ Only [.tiles] s t ∧ t.tileRead c.dstTile.val c.dst (2 * c.n) = bs
      ∧ s.tilesKept t c.dstTile.val c.dst (2 * c.n) := by
  have hgather : s.gatherShard c = s.tileWrite c.dstTile.val c.dst bs := by
    unfold State.gatherShard
    simp only [hfrom, hto, hbytes]
  rw [exec_gather c s hstore hsource hrange, hgather, ← hlength]
  exact ⟨_, rfl, State.tileWrite_only _ _ _ _, tileWrite_facts s h.memory _ _ _⟩

/-- A shard's source in a tile store inside its range. -/
theorem State.shardSource_tile {c : ShardCopy} (hdata : c.src + shardLen c ≤ tileBytes) (hscale : c.fmt = 6 → c.srcScale + c.n / 32 ≤ tileBytes)
    (s : State) : s.shardSource c tileBytes = true := by
  by_cases hfmt : c.fmt = 6
  · simp [State.shardSource, hdata, hscale hfmt]
  · simp [State.shardSource, hdata, hfmt]

/-- An activation that arrives is placed, and its message is consumed (R286). -/
theorem exec_gather_arrived {s : State} (h : s.Sound) {c : ShardCopy} {m : BitVec 12} {x : Msg} (hstore : c.fromHbm = false)
    (hrange : tileRange c.dst (2 * c.n) = true) (hfrom : c.fromModule = some m) (hmessage : s.nextFrom m.toNat .activation = some x) :
    ∃ t : State, exec (.gather c) s = .next t ∧ Only [.tiles, .msgs] s t
      ∧ t.tileRead c.dstTile.val c.dst (2 * c.n) = slice x.data 0 (2 * c.n)
      ∧ s.tilesKept t c.dstTile.val c.dst (2 * c.n)
      ∧ NMap.getD t.fab.gotNo (countKey m.toNat .activation) 0 = NMap.getD s.fab.gotNo (countKey m.toNat .activation) 0 + 1 := by
  have hsource : s.shardSource c tileBytes = true := by simp [State.shardSource, hfrom]
  have hgather : s.gatherShard c = (s.consumed m.toNat .activation).tileWrite c.dstTile.val c.dst (slice x.data 0 (2 * c.n)) := by
    unfold State.gatherShard
    simp only [hfrom, hmessage]
  have hlength : (slice x.data 0 (2 * c.n)).length = 2 * c.n := slice_length _ _ _
  obtain ⟨hread, hkept⟩ := tileWrite_facts (s.consumed m.toNat .activation) h.memory c.dstTile.val c.dst (slice x.data 0 (2 * c.n))
  rw [hlength] at hread hkept
  rw [exec_gather c s hstore hsource hrange, hgather]
  refine ⟨_, rfl, Only.of (State.tileWrite_only _ _ _ _) rfl ((State.consumed_only _ _ _).mono rfl), hread, hkept, ?_⟩
  exact (NMap.getD_modify _ _ _ _ _).trans (if_pos rfl)

/-- Settles O35: the bytes of each kind of shard, copied by one law, and the activation, by another. Where an activation is placed is log 20,
and that one that has not arrived leaves everything as it is log 32. -/
theorem shardCopies : Obligations.ShardCopies := by
  intro s c h hstore hrange hto
  refine ⟨fun hfrom hfmt hsrc => ?yf16, fun hfrom hfmt hsrc => ?yf8, fun hfrom hfmt hsrc hsrcScale hshort hdata hscale halign hscales hclean => ?ys8,
    fun m x hfrom hmessage => exec_gather_arrived h hstore hrange hfrom hmessage, fun m hfrom hnone => ?absent⟩
  case yf16 =>
    have hsource := s.shardSource_tile (c := c) (by rw [shardLen, if_pos hfmt]; exact hsrc) (by omega)
    exact exec_gather_local h hstore hrange hto hfrom hsource (s.shardData_yf16 hstore hfmt) (tileRead_length _ _ _ _)
  case yf8 =>
    have hsource := s.shardSource_tile (c := c) (by rw [shardLen, if_neg (by omega)]; exact hsrc) (by omega)
    refine exec_gather_local h hstore hrange hto hfrom hsource (s.shardData_yf8 hstore hfmt) ?_
    rw [elementBytes_length, List.length_map, elements_length]
  case ys8 =>
    have hsource := s.shardSource_tile (c := c) (by rw [shardLen, if_neg (by omega)]; exact hsrc) (fun _ => hsrcScale)
    obtain ⟨t, hexec, hframe, hread, -⟩ := exec_gather_local h hstore hrange hto hfrom hsource
      (State.shardData_ys8 hstore hfmt hshort hdata hscale halign hscales hclean)
      (by rw [elementBytes_length, List.length_take, widenYs8_length, Nat.min_eq_left hshort])
    exact ⟨t, hexec, hframe, hread⟩
  case absent =>
    have hgather : s.gatherShard c = s := by
      unfold State.gatherShard
      simp only [hfrom, hnone]
    rw [exec_gather c s hstore (by simp [State.shardSource, hfrom]) hrange, hgather]

end Sys2Proof.Machine
end

section
/-! SUPPORT and CLAIM. Reductions, stored tiles and JOIN (R120, R126 to R128, R131): what an entry sums up from chunks and from joined parts,
what the forms of a slot in the tile store and in an exact partial are read back as, what STORE, STATUS and JOIN make of the state, and
the obligations about them. -/

-- Checked one theorem at a time: the package as one text then needs less memory.
set_option Elab.async false

namespace Sys2Proof.Machine

/-! ## Sums of chunks and of parts (R118, R127) -/

/-- The chunks of a reduction, taken into an entry in their order. -/
def AccEntry.reduced (x : AccEntry) (cs : List (Chunk × Int)) : AccEntry := cs.foldl (fun x c => (x.addChunk c.1 c.2).1) x

/-- Entries joined into an entry in their order. -/
def AccEntry.joined (x : AccEntry) (ys : List AccEntry) : AccEntry := ys.foldl (fun x y => (x.join y).1) x

/-- The L160 integer that a chunk, adjusted, gives at an anchor. -/
def chunkValue (a : BitVec 10) (c : Chunk × Int) : Int := (convert160 c.1.sum c.2 a.toInt).1

/-- An entry holds the exact sum of the chunks of a reduction at its anchor and the OR of their flags, with OVF clear. -/
structure AccEntry.SumsUp (x : AccEntry) (a : BitVec 10) (cs : List (Chunk × Int)) : Prop where
  value : x.n.toInt = (cs.map (chunkValue a)).sum
  anchor : x.anchor = a
  ovf : x.ovf = false
  nan : x.nan = cs.any (·.1.nan)
  pinf : x.pinf = cs.any (·.1.pinf)
  ninf : x.ninf = cs.any (·.1.ninf)

/-- There is one such entry. -/
theorem AccEntry.SumsUp.unique {x y : AccEntry} {a : BitVec 10} {cs : List (Chunk × Int)} (hx : x.SumsUp a cs) (hy : y.SumsUp a cs) : x = y := by
  have hn : x.n = y.n := BitVec.eq_of_toInt_eq (hx.value.trans hy.value.symm)
  obtain ⟨-, hanchor, hovf, hnan, hpinf, hninf⟩ := hx
  obtain ⟨-, hanchor', hovf', hnan', hpinf', hninf'⟩ := hy
  cases x
  cases y
  simp_all

/-- Chunks taken into an initialised entry, none of which saturates it, leave their sum. -/
theorem AccEntry.sumsUp_reduced {a : BitVec 10} {cs : List (Chunk × Int)} (h : (({ anchor := a } : AccEntry).reduced cs).ovf = false) :
    (({ anchor := a } : AccEntry).reduced cs).SumsUp a cs := by
  obtain ⟨-, hvalue, hanchor, hnan, hpinf, hninf⟩ := fold_noOvf cs { anchor := a } h
  exact ⟨hvalue.trans (Int.zero_add _), hanchor, h, hnan, hpinf, hninf⟩

/-- A flag of joined parts is the OR over the chunks of all of them, in any order. -/
theorem any_parts {parts order : List (List (Chunk × Int))} (hperm : order.Perm parts) {part : List (Chunk × Int) → AccEntry}
    {flag : AccEntry → Bool} {chunkFlag : Chunk × Int → Bool} (h : ∀ p ∈ order, flag (part p) = p.any chunkFlag) :
    (order.map part).any flag = parts.flatten.any chunkFlag := by
  rw [List.any_map, List.any_flatten, ← hperm.any_eq, Bool.eq_iff_iff, List.any_eq_true, List.any_eq_true]
  exact exists_congr fun p => and_congr_right fun hp => by rw [Function.comp_apply, h p hp]

/-- The value of joined parts is the sum over the chunks of all of them, in any order. -/
theorem sum_parts {parts order : List (List (Chunk × Int))} (hperm : order.Perm parts) {part : List (Chunk × Int) → AccEntry}
    {value : Chunk × Int → Int} (h : ∀ p ∈ order, (part p).n.toInt = (p.map value).sum) :
    ((order.map part).map (·.n.toInt)).sum = (parts.flatten.map value).sum := by
  rw [List.map_map, List.map_flatten, List.sum_flatten, List.map_map, ← (hperm.map _).sum_eq]
  exact congrArg List.sum (List.map_congr_left h)

/-- Parts that sum up their chunks, joined in any order without saturation, sum up the chunks of them all. -/
theorem AccEntry.sumsUp_joined {a : BitVec 10} {parts order : List (List (Chunk × Int))} (hperm : order.Perm parts)
    {part : List (Chunk × Int) → AccEntry} (hparts : ∀ p ∈ order, (part p).SumsUp a p)
    (h : (({ anchor := a } : AccEntry).joined (order.map part)).ovf = false) :
    (({ anchor := a } : AccEntry).joined (order.map part)).SumsUp a parts.flatten := by
  have hanchors : ∀ y ∈ order.map part, y.anchor = a := by
    intro y hy
    obtain ⟨p, hp, rfl⟩ := List.mem_map.mp hy
    exact (hparts p hp).anchor
  obtain ⟨-, hvalue, hanchor, hnan, hpinf, hninf⟩ := join_noOvf (order.map part) { anchor := a } hanchors h
  have hsum := sum_parts hperm fun p hp => (hparts p hp).value
  exact ⟨hvalue.trans ((Int.zero_add _).trans hsum), hanchor, h, hnan.trans (any_parts hperm fun p hp => (hparts p hp).nan),
    hpinf.trans (any_parts hperm fun p hp => (hparts p hp).pinf), hninf.trans (any_parts hperm fun p hp => (hparts p hp).ninf)⟩

/-- Settles O29: the joined parts and the unsplit reduction both sum up the same chunks. R128 says it of LOSS and CHUNKS too, which a slot
counts and no entry holds. -/
theorem splitGuarantee : Obligations.SplitGuarantee := by
  intro a parts order hperm hparts hwhole hjoined
  have hpart : ∀ p ∈ order, (({ anchor := a } : AccEntry).reduced p).SumsUp a p := fun p hp =>
    AccEntry.sumsUp_reduced (hparts p (hperm.subset hp))
  exact (AccEntry.sumsUp_joined hperm hpart hjoined).unique (AccEntry.sumsUp_reduced hwhole)

/-! ## Stored forms (R120, R126, R131) -/

/-- An exact partial takes 168,448 bytes (R131). -/
theorem Slot.partialBytes_length (x : Slot) : x.partialBytes.length = 168448 := by
  obtain ⟨V, F, hparts, hV, hF, -, -⟩ := partial_parts x
  rw [hparts, List.length_append, List.length_append, hV, hF, padTo_length, statusBytes_length]
  rfl

/-- The status block of an exact partial is that of the stored tile (R131). -/
theorem Slot.partialBytes_status (x : Slot) : slice x.partialBytes 167936 512 = padTo 512 x.statusBytes := by
  obtain ⟨V, F, hparts, hV, hF, -, -⟩ := partial_parts x
  have hlength : (V ++ F).length = 167936 := by rw [List.length_append, hV, hF]
  have hblock : (padTo 512 x.statusBytes).length = 512 := by
    rw [padTo_length, statusBytes_length]
    rfl
  rw [hparts, slice_append_right _ _ _ _ hlength.le, hlength, Nat.sub_self, slice_all _ _ hblock]

/-- An exact partial of a slot whose entries all have its anchor expands to the stored tile (R131). -/
theorem expandPartial_partialBytes {x : Slot} (h : ∀ i, i < 8192 → (x.entry i).anchor = x.anchor) : expandPartial x.partialBytes = x.stored := by
  have hstatus := x.partialBytes_status
  obtain ⟨V, F, hparts, hV, hF, hvalues, hflags⟩ := partial_parts x
  have hentries := expand_partial x V F 8192 h hV hF le_rfl hvalues hflags
  rw [← hparts] at hentries
  unfold expandPartial Slot.stored
  dsimp only
  rw [hentries, hstatus]

/-- Settles O28: an entry's bytes, the stored tile, its JOIN into an initialised slot and the exact partial. -/
theorem storedForms : Obligations.StoredForms :=
  ⟨fun x => ⟨encode_length x, decode_encode x⟩, fun x => ⟨stored_length x, stored_entry x⟩, storedSlot_facts,
    fun x => ⟨x.partialBytes_length, expandPartial_partialBytes⟩⟩

/-! ## STORE, STATUS and JOIN (R126, R127) -/

/-- STATUS, by its range. -/
theorem exec_status (m : StageId) (w : Bytes) (s : State) : exec (.status m w) s =
    if tileRange (mAddr w) 16 then .next (s.tileWrite m.tile.val (mAddr w) (s.slot m (mSlot w)).statusBytes) else .fault .tileStoreRange := by
  unfold exec execStatus; rfl

/-- Bytes that a command writes to a tile store of a sound state stand there, and nothing else changes. -/
theorem tileWrite_alone {s : State} (h : s.Sound) (tile addr : Nat) {bs : Bytes} {n : Nat} (hlength : bs.length = n) :
    Only [.tiles] s (s.tileWrite tile addr bs) ∧ (s.tileWrite tile addr bs).tileRead tile addr n = bs
      ∧ s.tilesKept (s.tileWrite tile addr bs) tile addr n := by
  subst hlength
  exact ⟨State.tileWrite_only _ _ _ _, tileWrite_facts s h.memory tile addr bs⟩

/-- A field of a piece of tile store bytes is the number at its place. -/
theorem field_slice_tileRead (s : State) (tile addr : Nat) {total o n f k : Nat} (hpiece : o + n ≤ total) (hfield : f + k ≤ n) :
    field (slice (s.tileRead tile addr total) o n) f k = leNat (s.tileRead tile (addr + (o + f)) k) := by
  unfold field
  rw [slice_tileRead _ _ _ _ _ _ hpiece, slice_tileRead _ _ _ _ _ _ hfield, Nat.add_assoc]

/-- An event leaves the slots. -/
theorem raise_slot (s : State) (code : Nat) (unit : Half) (ident qty : Nat) (b : Bool) (n : StageId) (k : Nat) :
    (s.raise code unit ident qty b).slot n k = s.slot n k := by
  have hacc : (s.raise code unit ident qty b).acc = s.acc := (State.raise_only s code unit ident qty b).get .acc rfl
  unfold State.slot
  rw [hacc]

/-- The stored tile that a JOIN reads, joined into its slot: the slot after it, and whether an anchor differed (R127). -/
def State.joinResult (s : State) (m : StageId) (w : Bytes) : Slot × Bool :=
  (s.slot m (mSlot w)).joinBytes (s.tileRead m.tile.val (mAddr w) 197120)

/-- The entry of the stored tile that a JOIN reads. -/
def State.joinSource (s : State) (m : StageId) (w : Bytes) (i : Nat) : AccEntry :=
  AccEntry.decode (s.tileRead m.tile.val (mAddr w + 24 * i) 24)

/-- JOIN is one change of its slot, with an event or without. -/
theorem State.joinTile_eq (s : State) (m : StageId) (w : Bytes) : s.joinTile m w =
    if (s.joinResult m w).2 then (s.setSlot m (mSlot w) (s.joinResult m w).1).raise 0x2203 (stageUnit m) (mSlot w)
    else s.setSlot m (mSlot w) (s.joinResult m w).1 := rfl

/-- JOIN leaves every slot but its own. -/
theorem State.joinTile_slot (s : State) (m n : StageId) (w : Bytes) {k : Nat} (hk : k < 32) :
    (s.joinTile m w).slot n k = if n = m ∧ k = mSlot w then (s.joinResult m w).1 else s.slot n k := by
  have hset := slot_setSlot s m n (mSlot w) k (s.joinResult m w).1 (mSlot_lt w) hk
  rw [State.joinTile_eq]
  split
  · rw [raise_slot]
    exact hset
  · exact hset

/-- JOIN raises ANCHOR_MISMATCH when an anchor differed (R127). -/
theorem State.joinTile_raised {s : State} {m : StageId} {w : Bytes} (h : (s.joinResult m w).2 = true) :
    Raised 0x2203 (stageUnit m) s (s.joinTile m w) := by
  rw [State.joinTile_eq, if_pos h]
  exact (Raised.of_raise _ 0x2203 (stageUnit m) (mSlot w) 0 false).from rfl

/-- JOIN raises nothing when every anchor was the slot's. -/
theorem State.joinTile_quiet {s : State} {m : StageId} {w : Bytes} (h : (s.joinResult m w).2 = false) : (s.joinTile m w).events = s.events := by
  rw [State.joinTile_eq, if_neg (ne_true_of_eq_false h)]
  rfl

/-- What JOIN makes of its slot and when it finds another anchor, in the bytes of the tile store that it reads (R126, R127). -/
theorem State.joinResult_facts (s : State) (m : StageId) (w : Bytes) :
    (∀ i, i < 8192 → (s.joinResult m w).1.entry i = (((s.slot m (mSlot w)).entry i).join (s.joinSource m w i)).1)
    ∧ (s.joinResult m w).1.loss = satAdd (s.slot m (mSlot w)).loss (leNat (s.tileRead m.tile.val (mAddr w + 196612) 4))
    ∧ (s.joinResult m w).1.chunks = satAdd (s.slot m (mSlot w)).chunks (leNat (s.tileRead m.tile.val (mAddr w + 196616) 4))
    ∧ ((s.joinResult m w).2 = true ↔ ∃ i, i < 8192 ∧ ((s.slot m (mSlot w)).entry i).anchor ≠ (s.joinSource m w i).anchor) := by
  obtain ⟨hentry, -, hloss, hchunks, hdiffer⟩ := joinBytes_facts (s.slot m (mSlot w)) (s.tileRead m.tile.val (mAddr w) 197120)
  rw [field_slice_tileRead s _ _ (by decide) (by decide)] at hloss hchunks
  have hsource : ∀ i, i < 8192 → AccEntry.decode (slice (s.tileRead m.tile.val (mAddr w) 197120) (24 * i) 24) = s.joinSource m w i :=
    fun i hi => congrArg AccEntry.decode (slice_tileRead _ _ _ _ _ _ (by omega))
  refine ⟨fun i hi => (hentry i hi).trans (by rw [hsource i hi]), hloss, hchunks, hdiffer.trans ?_⟩
  exact exists_congr fun i => and_congr_right fun hi => by rw [hsource i hi]

/-- Settles O26: STORE and STATUS are one write of the tile store, and JOIN is one change of its slot with one event at most. -/
theorem storeAndJoin : Obligations.StoreAndJoin := by
  intro s m w k hsound
  refine ⟨fun hrange => ?store, fun hrange => ?status, fun hrange => ?join⟩
  case store => exact ⟨_, (exec_store m w s).trans (if_pos hrange), tileWrite_alone hsound _ _ (stored_length _)⟩
  case status => exact ⟨_, (exec_status m w s).trans (if_pos hrange), tileWrite_alone hsound _ _ (statusBytes_length _)⟩
  case join =>
    obtain ⟨hentry, hloss, hchunks, hdiffer⟩ := s.joinResult_facts m w
    have hslot : (s.joinTile m w).slot m (mSlot w) = (s.joinResult m w).1 :=
      (s.joinTile_slot m m w (mSlot_lt w)).trans (if_pos ⟨rfl, rfl⟩)
    refine ⟨s.joinTile m w, (exec_join m w s).trans (if_pos hrange), (State.joinTile_only s m w).mono rfl, fun n hk hother => ?_, ?_⟩
    · rw [s.joinTile_slot m n w hk, if_neg fun ⟨hn, hslots⟩ => hother.elim (· hn) (· hslots)]
    · rw [hslot]
      refine ⟨hentry, hloss, hchunks, fun hsame => State.joinTile_quiet ?_, fun hother => State.joinTile_raised (hdiffer.mpr hother)⟩
      rw [Bool.eq_false_iff, ne_eq, hdiffer]
      rintro ⟨i, hi, hne⟩
      exact hne (hsame i hi)

end Sys2Proof.Machine
end

section
/-! SUPPORT and CLAIM. Table loads, staging and swaps (R141, R147 to R149, R169, R171, R352, R471): which version a load may write, one law for
each way that a load, a staging fill, a swap and a discard go, and the two obligations about them. -/

-- Checked one theorem at a time: the package as one text then needs less memory.
set_option Elab.async false

namespace Sys2Proof.Machine

/-! ## Descriptors that end (R147, R352) -/

/-- A failed descriptor leaves the tables, the pool and the swaps. -/
theorem State.failDesc_emb (s : State) (q pos code : Nat) : (s.failDesc q pos code).emb = s.emb := (State.failDesc_only s q pos code).emb

/-- The queue of a descriptor whose work stopped with a status. -/
theorem State.stopDesc_queue (s : State) (q pos status result : Nat) :
    (s.stopDesc q pos status result).queue q = { (s.queue q).withDone pos status result with code := BitVec.ofNat 16 status } := by
  unfold State.stopDesc
  rw [(State.raiseOnce_only _ _ _ _ _ _ _).queue, queue_setQueue_self, finishDesc_queue]

/-! ## Which version a load writes (R148) -/

/-- In IDLE a load of a table without a current version is its first. -/
theorem State.loadTarget_first {s : State} {id : Nat} (hnone : s.currentTable id = none) (hidle : s.idle = true) (version : Nat) :
    s.loadTarget id version = .first := by
  unfold State.loadTarget
  simp only [hnone, hidle, if_true]

/-- While a job runs no table gains its first version. -/
theorem State.loadTarget_notIdle {s : State} {id : Nat} (hnone : s.currentTable id = none) (hidle : s.idle = false) (version : Nat) :
    s.loadTarget id version = .fails 0x3001 := by
  unfold State.loadTarget
  simp only [hnone, hidle]
  rfl

/-- A load that names another version than the current one begins a staged version when there is none. -/
theorem State.loadTarget_newStage {s : State} {id version : Nat} {c : TableVer} (hcurrent : s.currentTable id = some c)
    (hother : c.version ≠ version) (hnone : s.stagedTable id = none) : s.loadTarget id version = .newStage := by
  unfold State.loadTarget
  simp only [hcurrent, hnone, if_neg hother]

/-! ## Descriptor blocks (R141, R148, R352) -/

/-- A descriptor block that breaks a check of R141 fails its load. -/
theorem State.loadBlock_bad {s : State} {q code : Nat} {d : Desc} (hready : s.readyDesc q 3 = some d) (hkind : dKind d.bytes = 0)
    (hbad : s.blockFail d.bytes d.data = some code) : s.loadBlock q = s.failDesc q d.pos code := by
  unfold State.loadBlock
  simp only [hready, hbad]
  exact if_neg (not_not_intro hkind)

/-- A good block of a version that R148 lets no load write fails its load. -/
theorem State.loadBlock_refused {s : State} {q code : Nat} {d : Desc} (hready : s.readyDesc q 3 = some d) (hkind : dKind d.bytes = 0)
    (hgood : s.blockFail d.bytes d.data = none)
    (htarget : s.loadTarget (parseBlock d.data).id (parseBlock d.data).version = .fails code) : s.loadBlock q = s.failDesc q d.pos code := by
  unfold State.loadBlock
  simp only [hready, hgood, htarget]
  exact if_neg (not_not_intro hkind)

/-- The first version of a table is held as its current one. -/
theorem State.loadBlock_first {s : State} {q : Nat} {d : Desc} (hready : s.readyDesc q 3 = some d) (hkind : dKind d.bytes = 0)
    (hgood : s.blockFail d.bytes d.data = none) (htarget : s.loadTarget (parseBlock d.data).id (parseBlock d.data).version = .first) :
    s.loadBlock q = (s.holdCurrent (parseBlock d.data)).finishDesc q d.pos 0 0 := by
  unfold State.loadBlock
  simp only [hready, hgood, htarget]
  exact if_neg (not_not_intro hkind)

/-- A version that is not held yet becomes current where the plan's layout places the table (R146). -/
theorem State.holdCurrent_fresh {s : State} {t : TableVer} (hnone : s.tableVersion t.id t.version = none) :
    s.holdCurrent t = s.holdVersion { t with current := true, bases := s.layoutBases t.id } := by
  unfold State.holdCurrent
  simp only [hnone]

/-- A new version of the current one's shape is held as staged, and its load waits for the staging fill (R149). -/
theorem State.loadBlock_newStage {s : State} {q : Nat} {d : Desc} {c : TableVer} (hready : s.readyDesc q 3 = some d) (hkind : dKind d.bytes = 0)
    (hgood : s.blockFail d.bytes d.data = none) (hcurrent : s.currentTable (parseBlock d.data).id = some c)
    (hshape : c.sameShape (parseBlock d.data) = true)
    (htarget : s.loadTarget (parseBlock d.data).id (parseBlock d.data).version = .newStage) :
    s.loadBlock q = (s.holdVersion { parseBlock d.data with staged := true }).setDesc q d.pos (fun x => { x with stage := .waiting }) := by
  unfold State.loadBlock
  simp only [hready, hgood, htarget, hcurrent]
  exact (if_neg (not_not_intro hkind)).trans (if_pos hshape)

/-! ## Row loads (R147, R148) -/

/-- What a row load of a kind has counted in the watch before its first write: the conversions of binary32 values (R92, R243). -/
def State.loadCounted (s : State) (kind : Nat) (t : TableVer) (src : Bytes) : State := if kind = 2 then s.countLoad t src else s

/-- A row load that no check refuses and whose writes are verified ends with the count of the records written. -/
theorem State.loadRows_done {s : State} {q kind : Nat} {d : Desc} {t : TableVer} {fails : List Nat} (hready : s.readyDesc q 3 = some d)
    (hkind : dKind d.bytes = kind) (hpass : s.rowLoadFail d.bytes = none) (hversion : s.tableVersion (dTable d.bytes) (dVersion d.bytes) = some t)
    (hextent : s.badExtent d.bytes = false) (htarget : ∀ code, s.loadTarget t.id t.version ≠ .fails code)
    (hfilled : s.loadTarget t.id t.version = .staged → t.filled = true) (hrecords : kind = 1 → recordsBad t d.data = false)
    (hstatus : d.status = 0) (hverified : (State.loadWrites (s.loadRecords t d.bytes d.data) fails (s.loadCounted kind t d.data) 0).2.2 = true) :
    s.loadRows q kind fails =
      (State.loadWrites (s.loadRecords t d.bytes d.data) fails (s.loadCounted kind t d.data) 0).1.finishDesc q d.pos 0
        (State.loadWrites (s.loadRecords t d.bytes d.data) fails (s.loadCounted kind t d.data) 0).2.1 := by
  have hwaits : ¬(s.loadTarget t.id t.version = .staged ∧ (!t.filled) = true) := fun ⟨hstaged, hfill⟩ => by simp [hfilled hstaged] at hfill
  have hbad : ¬(kind = 1 ∧ recordsBad t d.data = true) := fun ⟨hone, hrec⟩ => by simp [hrecords hone] at hrec
  -- No `.fails` target (`htarget`): the simplifier takes the other alternative of the match on the target.
  unfold State.loadCounted at hverified ⊢
  unfold State.loadRows
  simp only [hready, hpass, hversion, hextent]
  refine (if_neg (not_not_intro hkind)).trans ((if_neg Bool.false_ne_true).trans ((if_neg hwaits).trans ((if_neg hbad).trans ?_)))
  exact (if_neg (by simpa using hverified)).trans (if_neg (not_not_intro hstatus))

/-- Settles O21: each load goes one way of `State.loadBlock` or `State.loadRows`. That staging starts at the DESCRIPTOR load and that rows are
written directly is log 18. -/
theorem tableLoads : Obligations.TableLoads := by
  intro s q d hready
  refine ⟨fun code hkind hbad => ?bad, fun hkind hgood hidle hnone hfresh => ?first, fun hkind hgood hidle hnone => ?notIdle,
    fun c hkind hgood hcurrent hother hshape hstaged => ?newStage,
    fun t fails hkind hpass hversion hextent htarget hfilled hrecords hstatus hverified => ?records,
    fun t fails hkind hpass hversion hextent htarget hfilled hstatus hverified => ?binary32⟩
  case bad => exact ⟨_, congrArg Host.Outcome.next (State.loadBlock_bad hready hkind hbad), s.failDesc_emb _ _ _, (failDesc_facts _ _ _ _).1⟩
  case first =>
    refine congrArg Host.Outcome.next ((State.loadBlock_first hready hkind hgood (State.loadTarget_first hnone hidle _)).trans ?_)
    rw [State.holdCurrent_fresh hfresh]
    rfl
  case notIdle =>
    have hrefused := State.loadBlock_refused hready hkind hgood (State.loadTarget_notIdle hnone hidle _)
    exact ⟨_, congrArg Host.Outcome.next hrefused, s.failDesc_emb _ _ _, (failDesc_facts _ _ _ _).1⟩
  case newStage =>
    exact congrArg Host.Outcome.next
      (State.loadBlock_newStage hready hkind hgood hcurrent hshape (State.loadTarget_newStage hcurrent hother hstaged))
  case records =>
    exact congrArg Host.Outcome.next
      (State.loadRows_done hready hkind hpass hversion hextent htarget hfilled (fun _ => hrecords) hstatus hverified)
  case binary32 =>
    exact congrArg Host.Outcome.next
      (State.loadRows_done hready hkind hpass hversion hextent htarget hfilled (fun h => absurd h (by decide)) hstatus hverified)

/-! ## Staging (R149, R471) -/

/-- The staged version has its place in the pool and its fill runs, and the updates that its swap will drop count from here (R149, R171). -/
def State.stagingPlaced (s : State) (t : TableVer) (p : NMap Nat × List (Nat × Nat)) : State :=
  let s1 : State := { s with emb.pool := poolOf p.2 }
  (s1.mapTables (fun u => u.id == t.id && u.staged) (fun u => { u with bases := p.1, filling := true })).mapTables
    (fun u => u.id == t.id && u.current) (fun u => { u with dropped := u.sweptNow })

/-- The zero fill of a list of regions. -/
def State.zeroRegions (s : State) (rs : List (Nat × Nat)) : State := rs.foldl (fun (st : State) r => State.zeroRegion (r.2 / 512) st r.1) s

/-- A zero fill changes neither the setup block nor the tables. -/
theorem State.zeroRegions_only (s : State) (rs : List (Nat × Nat)) : Only [.stats, .tel, .hbm, .mem, .events, .ledger] s (s.zeroRegions rs) :=
  Only.foldl (f := fun st r => State.zeroRegion (r.2 / 512) st r.1) (fun st r => State.zeroRegion_only (r.2 / 512) st r.1) rs s

/-- A staging fill may begin: a load waits for it, and no long setup operation runs. -/
structure State.StagingDue (s : State) (q : Nat) (d : Desc) (t : TableVer) : Prop where
  load : (s.queue q).stagingLoad = some d
  version : s.stagedTable (dTable d.bytes) = some t
  free : s.setup.op = 0
  unfilled : t.filled = false
  unbegun : t.filling = false

/-- Nothing holds back a fill that may begin. -/
theorem State.StagingDue.not_held {s : State} {q : Nat} {d : Desc} {t : TableVer} (h : s.StagingDue q d t) :
    ¬(s.setup.op ≠ 0 ∨ t.filled = true ∨ t.filling = true) := by
  simp [h.free, h.unfilled, h.unbegun]

/-- With space in the pool the staged version is placed and its fill begins, as a long setup operation (R149, R471). -/
theorem State.beginStaging_begins {s : State} {q : Nat} {d : Desc} {t : TableVer} {p : NMap Nat × List (Nat × Nat)} (hdue : s.StagingDue q d t)
    (hplace : placeRanges t (s.ownedRanges t) s.emb.pool = some p) :
    s.beginStaging q = ((s.stagingPlaced t p).startOp 3).zeroRegions ((s.stagingPlaced t p).regionsOf { t with bases := p.1 }) := by
  unfold State.beginStaging
  simp only [hdue.load, hdue.version, hplace]
  exact if_neg hdue.not_held

/-- Without space in the pool the staged version is discarded and its load fails with TABLE_NO_SPACE (R149). -/
theorem State.beginStaging_noSpace {s : State} {q : Nat} {d : Desc} {t : TableVer} (hdue : s.StagingDue q d t)
    (hplace : placeRanges t (s.ownedRanges t) s.emb.pool = none) :
    s.beginStaging q = (s.dropVersions (fun u => u.id == t.id && u.staged)).failDesc q d.pos 0x3004 := by
  unfold State.beginStaging
  simp only [hdue.load, hdue.version, hplace]
  exact if_neg hdue.not_held

/-- The waiting loads of tables whose fill has ended complete. -/
def State.endLoads (s : State) (ids : List Nat) : State :=
  s.host.queues.foldl (fun (st : State) e => e.2.descs.foldl (fun (st : State) d =>
    if d.stage = .waiting ∧ dOp d.bytes = 3 ∧ ids.contains (dTable d.bytes) then st.finishDesc e.1 d.pos 0 0 else st) st) s

/-- Completing loads changes the queues alone. -/
theorem State.endLoads_only (s : State) (ids : List Nat) : Only [.queues] s (s.endLoads ids) := by
  unfold State.endLoads
  refine Only.foldl (fun st e => Only.foldl (fun st d => ?_) _ st) _ s
  exact Only.ite (fun _ => State.finishDesc_only st e.1 d.pos 0 0) fun _ => Only.refl st

/-- The long setup operation has ended, and the versions that were filling are filled. -/
def State.fillEnded (s : State) : State :=
  ({ s with setup.op := 0 } : State).mapTables (·.filling) (fun t => { t with filling := false, filled := true })

/-- The end of a fill completes the loads that waited for it (R149, R471). -/
theorem State.endStaging_ends {s : State} (h : s.setup.op = 3) :
    s.endStaging = s.fillEnded.endLoads ((s.emb.tables.filter (·.filling)).map (·.id)) := by
  have hended : s.endOp 3 = { s with setup.op := 0 } := if_pos h
  unfold State.endStaging
  rw [if_neg (not_not_intro h), hended]
  rfl

/-! ## Swaps (R169, R171) -/

/-- The updates that a swap of a table has dropped (R171). -/
def State.swapDropped (s : State) (table : Nat) : Nat := ((s.currentTable table).map (·.dropped)).getD 0

/-- The tables once a swap has taken effect: the old version freed, the staged one current, the swap no longer held. -/
def State.swapped (s : State) (table version : Nat) : State :=
  let s1 := (s.dropVersions (fun t => t.id == table && t.current)).mapTables (fun t => t.id == table && t.version == version)
    (fun t => { t with current := true, staged := false, announced := false, dropped := 0 })
  { s1 with emb.swaps := s1.emb.swaps.filter (fun w => w.table != table) }

/-- A swap that one descriptor waits for completes it, and raises its event, or two when updates were dropped. -/
theorem State.commitSwap_one (s : State) (table version q pos : Nat) :
    s.commitSwap table version [(q, pos)] =
      if s.swapDropped table = 0 then (((s.swapped table version).finishDesc q pos 0 (s.swapDropped table)).raise 0x3202 0 table version)
      else (((s.swapped table version).finishDesc q pos 0 (s.swapDropped table)).raise 0x3202 0 table version).raise 0x3204 0 table
        (s.swapDropped table) := rfl

/-- The events of a swap leave its tables and its queue. -/
theorem State.commitSwap_ended (s : State) (table version q pos : Nat) :
    Only [.tel, .events] ((s.swapped table version).finishDesc q pos 0 (s.swapDropped table)) (s.commitSwap table version [(q, pos)]) := by
  rw [State.commitSwap_one]
  exact Only.ite (fun _ => State.raise_only _ _ _ _ _ _) fun _ => (State.raise_only _ _ _ _ _ _).trans (State.raise_only _ _ _ _ _ _)

/-- The queue of the descriptor that a swap completes. -/
theorem State.commitSwap_queue (s : State) (table version q pos : Nat) :
    (s.commitSwap table version [(q, pos)]).queue q = (s.queue q).withDone pos 0 (s.swapDropped table) := by
  rw [(s.commitSwap_ended table version q pos).queue q, finishDesc_queue]
  rfl

/-- The last event of a swap: SWAP_DONE, or UPDATES_DROPPED when updates were dropped (R171). -/
theorem State.commitSwap_lastEvent (s : State) (table version q pos : Nat) :
    (s.commitSwap table version [(q, pos)]).lastEvent = some (if s.swapDropped table = 0 then 0x3202 else 0x3204) := by
  rw [State.commitSwap_one]
  split
  · exact raised_last (Raised.of_raise _ 0x3202 0 table version false)
  · exact raised_last (Raised.of_raise _ 0x3204 0 table (s.swapDropped table) false)

/-- A TABLE_SWAP names a version that is ready to be swapped in: staged, filled and completely loaded (R169). -/
structure State.SwapReady (s : State) (q : Nat) (d : Desc) (t : TableVer) : Prop where
  ready : s.readyDesc q 4 = some d
  swaps : dFlag d.bytes = false
  version : s.tableVersion (dTable d.bytes) (dVersion d.bytes) = some t
  staged : t.staged = true
  filled : t.filled = true
  complete : s.tableComplete t = true

/-- Nothing fails such a swap. -/
theorem State.SwapReady.not_incomplete {s : State} {q : Nat} {d : Desc} {t : TableVer} (h : s.SwapReady q d t) :
    ¬(!t.staged || !t.filled || !s.tableComplete t) = true := by
  simp [h.staged, h.filled, h.complete]

/-- In IDLE a swap takes effect at once (R169). -/
theorem State.takeSwap_commits {s : State} {q : Nat} {d : Desc} {t : TableVer} (h : s.SwapReady q d t) (hidle : s.idle = true) :
    s.takeSwap q = s.commitSwap (dTable d.bytes) (dVersion d.bytes) [(q, d.pos)] := by
  unfold State.takeSwap
  simp only [h.ready, h.swaps, h.version]
  exact (if_neg Bool.false_ne_true).trans ((if_neg h.not_incomplete).trans (if_pos hidle))

/-- While a job runs the first TABLE_SWAP of a version waits for its swap (R169). -/
theorem State.takeSwap_waits {s : State} {q : Nat} {d : Desc} {t : TableVer} (h : s.SwapReady q d t) (hidle : s.idle = false)
    (hfirst : s.emb.swaps.any (fun w => w.table == dTable d.bytes && w.version == dVersion d.bytes) = false) :
    s.takeSwap q = { s.setQueue q (fun x => x.withStage d.pos .taken) with
      emb.swaps := s.emb.swaps ++ [{ table := dTable d.bytes, version := dVersion d.bytes, waiters := [(q, d.pos)] }] } := by
  unfold State.takeSwap
  simp only [h.ready, h.swaps, h.version]
  refine (if_neg Bool.false_ne_true).trans ((if_neg h.not_incomplete).trans ((if_neg (ne_true_of_eq_false hidle)).trans ?_))
  exact if_neg (ne_true_of_eq_false hfirst)

/-- A TABLE_SWAP of a version that is not held stops with SWAP_INCOMPLETE (R169). -/
theorem State.takeSwap_unheld {s : State} {q : Nat} {d : Desc} (hready : s.readyDesc q 4 = some d) (hflag : dFlag d.bytes = false)
    (hnone : s.tableVersion (dTable d.bytes) (dVersion d.bytes) = none) : s.takeSwap q = s.stopDesc q d.pos 0x3203 0 := by
  unfold State.takeSwap
  simp only [hready, hflag, hnone]
  rfl

/-! ## Discarded swaps (R169) -/

/-- A discard of a staged version that no swap waits for frees it and completes. -/
theorem State.takeDiscard_drops {s : State} {q : Nat} {d : Desc} {t : TableVer} (hready : s.readyDesc q 4 = some d) (hflag : dFlag d.bytes = true)
    (hstaged : s.stagedTable (dTable d.bytes) = some t) (hversion : t.version = dVersion d.bytes) (hannounced : t.announced = false)
    (hfilled : t.filled = true) (hswaps : s.emb.swaps = []) :
    s.takeDiscard q = (s.dropVersions (fun u => u.id == dTable d.bytes && u.staged)).finishDesc q d.pos 0 0 := by
  have hsame : ({ s with emb.swaps := [] } : State) = s := by rw [← hswaps]
  unfold State.takeDiscard
  simp only [hready, hflag, hstaged, hswaps, List.filter_nil, List.flatMap_nil, hsame]
  refine (if_neg (by decide)).trans ((if_neg (not_not_intro hversion)).trans ((if_neg (ne_true_of_eq_false hannounced)).trans ?_))
  exact if_neg (by simp [hfilled])

/-- A discard of a table without a staged version completes and changes no table. -/
theorem State.takeDiscard_none {s : State} {q : Nat} {d : Desc} (hready : s.readyDesc q 4 = some d) (hflag : dFlag d.bytes = true)
    (hnone : s.stagedTable (dTable d.bytes) = none) : s.takeDiscard q = s.finishDesc q d.pos 0 0 := by
  unfold State.takeDiscard
  simp only [hready, hflag, hnone]
  rfl

/-- Settles O22: a fill begins or finds no space, and ends; a swap takes effect, waits or fails; and a discard frees the staged version or
finds none. Where a staged version is placed (`placeRanges`, first fit) is log 43, the order of staging log 18. -/
theorem stagingAndSwaps : Obligations.StagingAndSwaps := by
  intro s q d
  refine ⟨fun t p hload hversion hfree hunfilled hunbegun hplace => ?begins, fun t hload hversion hfree hunfilled hunbegun hplace => ?noSpace,
    fun hfill => ?fillEnd, fun t hready hflag hversion hstaged hfilled hcomplete hidle => ?swap,
    fun t hready hflag hversion hstaged hfilled hcomplete hidle hfirst => ?waits, fun hready hflag hnone => ?unheld,
    fun t hready hflag hstaged hversion hannounced hfilled hswaps => ?discard, fun hready hflag hnone => ?discardNone⟩
  case begins =>
    have hdue : s.StagingDue q.val d t := ⟨hload, hversion, hfree, hunfilled, hunbegun⟩
    have honly := State.zeroRegions_only ((s.stagingPlaced t p).startOp 3) ((s.stagingPlaced t p).regionsOf { t with bases := p.1 })
    refine ⟨_, congrArg Host.Outcome.next (State.beginStaging_begins hdue hplace), ?_, ?_, ?_, ?_⟩
    · exact congrArg SetupState.op (honly.get .setup rfl)
    · exact congrArg SetupState.armed (honly.get .setup rfl)
    · exact congrArg EmbState.pool honly.emb
    · exact congrArg EmbState.tables honly.emb
  case noSpace =>
    have hdue : s.StagingDue q.val d t := ⟨hload, hversion, hfree, hunfilled, hunbegun⟩
    refine ⟨_, congrArg Host.Outcome.next (State.beginStaging_noSpace hdue hplace), ?_, (failDesc_facts _ _ _ _).1⟩
    exact congrArg EmbState.tables (State.failDesc_emb _ _ _ _)
  case fillEnd =>
    have honly := s.fillEnded.endLoads_only ((s.emb.tables.filter (·.filling)).map (·.id))
    rw [← State.endStaging_ends hfill] at honly
    exact ⟨_, rfl, State.endStaging_only s, congrArg SetupState.op (honly.get .setup rfl), congrArg EmbState.tables honly.emb⟩
  case swap =>
    have hswap : s.SwapReady q.val d t := ⟨hready, hflag, hversion, hstaged, hfilled, hcomplete⟩
    have hemb := (s.commitSwap_ended (dTable d.bytes) (dVersion d.bytes) q.val d.pos).emb
    have hlast := s.commitSwap_lastEvent (dTable d.bytes) (dVersion d.bytes) q.val d.pos
    refine ⟨_, congrArg Host.Outcome.next (State.takeSwap_commits hswap hidle), ?_, ?_, ?_, fun hdrop => ?_, fun hdrop => ?_⟩
    · exact congrArg EmbState.tables hemb
    · exact congrArg EmbState.swaps hemb
    · exact s.commitSwap_queue _ _ _ _
    · exact hlast.trans (congrArg some (if_pos hdrop))
    · exact hlast.trans (congrArg some (if_neg hdrop))
  case waits => exact congrArg Host.Outcome.next (State.takeSwap_waits ⟨hready, hflag, hversion, hstaged, hfilled, hcomplete⟩ hidle hfirst)
  case unheld =>
    have hstopped := State.takeSwap_unheld hready hflag hnone
    exact ⟨_, congrArg Host.Outcome.next hstopped, (State.stopDesc_only _ _ _ _ _).emb, s.stopDesc_queue _ _ _ _⟩
  case discard =>
    refine ⟨_, congrArg Host.Outcome.next (State.takeDiscard_drops hready hflag hstaged hversion hannounced hfilled hswaps), ?_, rfl, ?_⟩
    · exact Only.of (State.finishDesc_only _ _ _ _ _) rfl ((State.dropVersions_only _ _).mono rfl)
    · exact finishDesc_queue _ _ _ _ _
  case discardNone => exact congrArg Host.Outcome.next (State.takeDiscard_none hready hflag hnone)

end Sys2Proof.Machine
end

section
/-! SUPPORT and CLAIM. The register operations of the churns (R183, R191, R192, R194): the operations on binary32 in the words of R191,
the fields that LDF reads, and the obligation about them. -/

-- Checked one theorem at a time: the package as one text then needs less memory.
set_option Elab.async false

namespace Sys2Proof.Machine

/-! ## Operations on binary32 (R191) -/

/-- NEG inverts bit 31, and gives the canonical NaN for a NaN. -/
theorem fNeg_binary32 (a : Nat) : fNeg binary32 a = if (decodeNum binary32 a).isNaN then 0x7FC00000 else a ^^^ 2 ^ 31 := rfl

/-- ABS clears bit 31, and gives the canonical NaN for a NaN. -/
theorem fAbs_binary32 (a : Nat) : fAbs binary32 a = if (decodeNum binary32 a).isNaN then 0x7FC00000 else a % 2 ^ 31 := rfl

/-- A comparison gives 1.0 where it holds, else +0. -/
theorem boolResult_binary32 (r : Bool × Flags) : (boolResult binary32 r).1 = if r.1 then 0x3F800000 else 0 := rfl

/-- The unordered comparison holds where an operand is a NaN. -/
theorem fCmp_un (f : Fmt) (a b : Nat) : (fCmp f .un a b).1 = ((decodeNum f a).isNaN || (decodeNum f b).isNaN) := rfl

/-! ## Fields (R184, R192) -/

/-- A context with a record has 32 lanes of a field. -/
theorem State.fieldLanes_item {s : State} {x : Ctx} {it : SweepItem} (hitem : x.item = some it) (f : Nat) (mf : Bool) :
    s.fieldLanes x f mf = (List.range 32).map (fun l => if l < x.activeLanes then s.fieldLane x it f mf l else (0, .none)) := by
  unfold State.fieldLanes
  rw [hitem]

/-- LDF gives the field of the record in the active lanes and +0 in the others. -/
theorem State.loadField_facts {s : State} {c : CtxId} {it : SweepItem} (hitem : (s.ctx c).item = some it) (d : Fin 32) (f : Nat)
    (mf : Bool) :
    LaneResult c d (fun l => if l < (s.ctx c).activeLanes then (s.fieldLane (s.ctx c) it f mf l).1 else 0) s (s.loadField c d.val f mf) := by
  unfold State.loadField
  rw [State.fieldLanes_item hitem]
  refine laneResult_of s _ c d _ _ (by simp) (fun l hl => ?_)
  rw [List.getD_eq_getElem _ _ (by simp [hl]), List.getElem_map, List.getElem_map, List.getElem_range]
  split <;> rfl

/-- Settles O37: an operation of one, two or three sources by the law of its kind, a constant or an accumulator in every lane, and a
field by `State.loadField_facts`. -/
theorem churnArithmetic : Obligations.ChurnArithmetic := by
  intro s c d a b e rm k j f mf
  have htwo := laneOp2_facts s c d a b
  have hone := laneOp1_facts s c d a
  have hthree := laneOp3_facts s c d a b e
  refine ⟨?add, ?sub, ?mul, ?fma, ?fms, ?rcp, ?rsq, ?max, ?min, ?neg, ?abs, ?mov, ?ceq, ?clt, ?cle, ?cun, ?sel, ?ldc, ?lds,
    fun it hitem => ?ldf⟩
  case add => exact ⟨_, rfl, htwo (fAdd binary32 (Rounding.ofField rm))⟩
  case sub => exact ⟨_, rfl, htwo (fSub binary32 (Rounding.ofField rm))⟩
  case mul => exact ⟨_, rfl, htwo (fMul binary32 (Rounding.ofField rm))⟩
  case fma => exact ⟨_, rfl, hthree (fFma binary32 (Rounding.ofField rm))⟩
  case fms => exact ⟨_, rfl, hthree (fFms binary32 (Rounding.ofField rm))⟩
  case rcp => exact ⟨_, rfl, hone (fRcp binary32 (Rounding.ofField rm))⟩
  case rsq => exact ⟨_, rfl, hone (fRsqrt binary32 (Rounding.ofField rm))⟩
  case max => exact ⟨_, rfl, htwo (fMax binary32)⟩
  case min => exact ⟨_, rfl, htwo (fMin binary32)⟩
  case neg => exact ⟨_, rfl, (hone _).congr (fun l _ => fNeg_binary32 _)⟩
  case abs => exact ⟨_, rfl, (hone _).congr (fun l _ => fAbs_binary32 _)⟩
  case mov => exact ⟨_, rfl, hone (fun x => (x, {}))⟩
  case ceq => exact ⟨_, rfl, (htwo _).congr (fun l _ => boolResult_binary32 _)⟩
  case clt => exact ⟨_, rfl, (htwo _).congr (fun l _ => boolResult_binary32 _)⟩
  case cle => exact ⟨_, rfl, (htwo _).congr (fun l _ => boolResult_binary32 _)⟩
  case cun => exact ⟨_, rfl, (htwo _).congr (fun l _ => (boolResult_binary32 _).trans (by rw [fCmp_un]))⟩
  case sel => exact ⟨_, rfl, (hthree _).congr (fun l _ => (ite_not _ _ _).symm)⟩
  case ldc => exact ⟨_, rfl, setLanes_facts s c d _ _ List.length_replicate (fun l hl => getD_replicate _ hl)⟩
  case lds => exact ⟨_, rfl, setLanes_facts s c d _ _ List.length_replicate (fun l hl => getD_replicate _ hl)⟩
  case ldf => exact ⟨_, rfl, State.loadField_facts hitem d f.toNat mf⟩

end Sys2Proof.Machine
end

section
/-! SUPPORT and CLAIM. Contexts, stores, reductions and the record that leaves (R180, R192 to R196, R201, R202, R207): what each operation
makes of its context, the end of the last section, and the obligation about stores. -/

-- Checked one theorem at a time: the package as one text then needs less memory.
set_option Elab.async false

namespace Sys2Proof.Machine

/-! ## Contexts (R183) -/

/-- A churn after a change of it. -/
theorem churn_setChurn_self (s : State) (k : Nat) (f : Churn → Churn) : (s.setChurn k f).churn k = f (s.churn k) := by
  rw [churn_setChurn, if_pos rfl]

/-- A context after a change of it. -/
theorem ctx_setCtx_self (s : State) (c : CtxId) (f : Ctx → Ctx) : (s.setCtx c f).ctx c = f (s.ctx c) := by
  rw [ctx_setCtx, if_pos rfl]

/-- A churn after a change of one of its contexts. -/
theorem churn_setCtx (s : State) (c : CtxId) (f : Ctx → Ctx) : (s.setCtx c f).churn (lineIx (ctxLine c)) =
    { s.churn (lineIx (ctxLine c)) with ctxs := NMap.modify (s.churn (lineIx (ctxLine c))).ctxs c.ctx.val {} f } :=
  churn_setChurn_self _ _ _

/-- A change of a context leaves whose list the churns run. -/
theorem listLine_setCtx (s : State) (c : CtxId) (f : Ctx → Ctx) (line : Nat) : (s.setCtx c f).listLine line = s.listLine line := by
  unfold State.listLine State.setCtx
  rw [churn_setChurn]
  split
  · next h => rw [h]
  · rfl

/-- A change of a context after what its lanes signalled reaches all its fields but the tally. -/
theorem addSignals_setCtx (s : State) (c : CtxId) (fs : List Flags) (f : Ctx → Ctx) :
    Only [.churns] s ((s.addSignals c fs).setCtx c f)
      ∧ ((s.addSignals c fs).setCtx c f).ctx c = f { s.ctx c with tally := ((s.addSignals c fs).ctx c).tally } := by
  refine ⟨Only.of (State.setCtx_only _ _ _) rfl (State.addSignals_only _ _ _), ?_⟩
  rw [ctx_setCtx_self]
  exact congrArg f (addSignals_ctx s c fs).2

/-- The tally of a context that holds a record gains what an instruction adds. -/
theorem addTally_ctx {s : State} {c : CtxId} {it : SweepItem} (hitem : (s.ctx c).item = some it) (t : RecordTally) :
    (s.addTally c t).ctx c = { s.ctx c with tally := (s.ctx c).tally ++ [t] } := by
  unfold State.addTally
  rw [ctx_setCtx_self]
  exact if_pos (by rw [hitem]; rfl)

/-! ## Stores (R192, R193) -/

/-- A store to a stage plane puts the active lanes at their places in the current block. -/
theorem State.storeStage_facts (s : State) (c : CtxId) (one : Bool) (a : Nat) :
    Only [.churns] s (s.storeStage c one a)
      ∧ (∀ l, l < (s.ctx c).activeLanes →
        NMap.find? (if one then ((s.storeStage c one a).ctx c).stage1 else ((s.storeStage c one a).ctx c).stage0) (32 * (s.ctx c).block + l) =
          some (BitVec.ofNat 32 ((s.ctx c).reg a l)))
      ∧ ((s.storeStage c one a).ctx c).v = (s.ctx c).v ∧ ((s.storeStage c one a).ctx c).new = (s.ctx c).new := by
  have hput (m : NMap Word) (l : Nat) (hl : l < (s.ctx c).activeLanes) :
      NMap.find? (putStage m (s.ctx c).block (((s.ctx c).lanes a).take (s.ctx c).activeLanes)) (32 * (s.ctx c).block + l) =
        some (BitVec.ofNat 32 ((s.ctx c).reg a l)) := by
    have hle := activeLanes_le (s.ctx c)
    rw [putStage_at _ _ _ _ (by rw [List.length_take, lanes_length]; omega), take_lanes _ _ _ _ hl hle]
  unfold State.storeStage
  cases one <;> rw [ctx_setCtx_self] <;> exact ⟨State.setCtx_only _ _ _, hput _, rfl, rfl⟩

/-- A store to a field of the record: the buffer takes what it leaves, and the tally its conversions. -/
theorem State.storeRecord_facts {s : State} {c : CtxId} {it : SweepItem} {f a : Nat} {mf : Bool} {rm : BitVec 2} {r : Stored}
    (hitem : (s.ctx c).item = some it) (hstored : s.storeField (s.ctx c) it f mf ((s.ctx c).lanes a) rm = some r) :
    Only [.churns] s (s.storeRecord c f mf a rm) ∧ (s.storeRecord c f mf a rm).ctx c =
      { s.ctx c with new := r.new, poison := (s.ctx c).poison || r.poison, tally := (s.ctx c).tally ++ [r.tally it] } := by
  have hrun : s.storeRecord c f mf a rm =
      (s.addTally c (r.tally it)).setCtx c (fun y => { y with new := r.new, poison := y.poison || r.poison }) := by
    unfold State.storeRecord
    simp only [hitem, hstored]
  rw [hrun, ctx_setCtx_self, addTally_ctx hitem]
  exact ⟨Only.of (State.setCtx_only _ _ _) rfl (State.addTally_only _ _ _), rfl⟩

/-- SCALAR of a row takes lane 0 exactly. -/
theorem State.storeField_scalar {s : State} {it : SweepItem} {tv : TableVer} (htable : s.itemTable it = some tv) (x : Ctx) (mf : Bool)
    (vs : List Nat) (rm : BitVec 2) :
    s.storeField x it 5 mf vs rm =
      some { new := splice x.new 4 (leBytes 4 (vs.getD 0 0)), poison := false, out := { bytes := [], elems := [] } } := by
  cases it with
  | dense t b => exact absurd htable (by simp [State.itemTable])
  | row t v x' g => unfold State.storeField; simp only [htable]; rfl

/-- STF to a field of the record. -/
theorem exec_stf_record {f : BitVec 4} (h6 : f ≠ 6) (h7 : f ≠ 7) (c : CtxId) (mf : Bool) (a : Fin 32) (rm : BitVec 2) (s : State) :
    exec (.stf c f mf a rm) s = .next (s.storeRecord c f.toNat mf a.val rm) :=
  congrArg Host.Outcome.next ((if_neg h6).trans (if_neg h7))

/-! ## Reductions (R194) -/

/-- What RED makes of an accumulator: the fold of the active lanes into it. -/
def Ctx.reduced (x : Ctx) (kind : BitVec 2) (a k : Nat) (rm : BitVec 2) : Option Nat × List Flags :=
  ((x.lanes a).take x.activeLanes).foldl (redFold kind (Rounding.ofField rm)) ((NMap.find? x.acc k).map (·.toNat), [])

/-- With an active lane RED leaves a value in its accumulator, the fold of the lanes, and the other accumulators as they are. -/
theorem State.reduceLanes_facts {s : State} {c : CtxId} (hactive : 0 < (s.ctx c).activeLanes) (kind : BitVec 2) (a k : Nat) (rm : BitVec 2) :
    ∃ v, ((s.ctx c).reduced kind a k rm).1 = some v ∧ Only [.churns] s (s.reduceLanes c kind a k rm)
      ∧ NMap.find? ((s.reduceLanes c kind a k rm).ctx c).acc k = some (BitVec.ofNat 32 v)
      ∧ ∀ j, j ≠ k → NMap.find? ((s.reduceLanes c kind a k rm).ctx c).acc j = NMap.find? (s.ctx c).acc j := by
  have hlanes : ((s.ctx c).lanes a).take (s.ctx c).activeLanes ≠ [] := by
    refine List.ne_nil_of_length_pos ?_
    rw [List.length_take, lanes_length]
    omega
  obtain ⟨v, hv⟩ := Option.isSome_iff_exists.mp
    (redFold_some kind (Rounding.ofField rm) _ ((NMap.find? (s.ctx c).acc k).map (·.toNat), []) (.inl hlanes))
  obtain ⟨honly, hctx⟩ := addSignals_setCtx s c ((s.ctx c).reduced kind a k rm).2
    (fun y => { y with acc := NMap.insert y.acc k (BitVec.ofNat 32 v) })
  have hreduced : s.reduceLanes c kind a k rm =
      (s.addSignals c ((s.ctx c).reduced kind a k rm).2).setCtx c (fun y => { y with acc := NMap.insert y.acc k (BitVec.ofNat 32 v) }) := by
    unfold State.reduceLanes
    simp only [hv]
    rfl
  rw [hreduced, hctx]
  exact ⟨v, hv, honly, NMap.find?_insert_self _ _ _, fun j hj => NMap.find?_insert_of_ne _ _ (Ne.symm hj)⟩

/-- The first two lanes of a register. -/
theorem Ctx.lanes_two (x : Ctx) (a : Nat) : (x.lanes a).take 2 = [x.reg a 0, x.reg a 1] := rfl

/-- RED of two lanes into an empty accumulator. -/
theorem Ctx.reduced_two {x : Ctx} {k : Nat} (hempty : NMap.find? x.acc k = none) (htwo : x.activeLanes = 2) (kind : BitVec 2) (a : Nat)
    (rm : BitVec 2) :
    x.reduced kind a k rm = redFold kind (Rounding.ofField rm) (redFold kind (Rounding.ofField rm) (none, []) (x.reg a 0)) (x.reg a 1) := by
  unfold Ctx.reduced
  rw [hempty, htwo, x.lanes_two]
  rfl

/-! ## The scale pair (R195) -/

/-- QPREP on a context that holds a record: SCALE and OFFSET as the pair gives them, or NaNs and the record poisoned. -/
theorem State.qprepare_facts {s : State} {c : CtxId} {it : SweepItem} (hitem : (s.ctx c).item = some it) (i j : Nat) :
    Only [.churns] s (s.qprepare c i j) ∧ ((s.qprepare c i j).ctx c).qprep = true
      ∧ (∀ p, qprepPair (((s.itemTable it).map (·.codeBits)).getD 8) (NMap.find? (s.ctx c).acc i) (NMap.find? (s.ctx c).acc j) = some p →
          ((s.qprepare c i j).ctx c).new = splice (s.ctx c).new 0 (leBytes 2 p.1 ++ leBytes 2 p.2.1)
            ∧ ((s.qprepare c i j).ctx c).poison = (s.ctx c).poison)
      ∧ (qprepPair (((s.itemTable it).map (·.codeBits)).getD 8) (NMap.find? (s.ctx c).acc i) (NMap.find? (s.ctx c).acc j) = none →
          ((s.qprepare c i j).ctx c).poison = true
            ∧ ((s.qprepare c i j).ctx c).new = splice (s.ctx c).new 0 (leBytes 2 0x7FC0 ++ leBytes 2 0x7FC0)) := by
  unfold State.qprepare
  simp only [hitem]
  cases hpair : qprepPair (((s.itemTable it).map (·.codeBits)).getD 8) (NMap.find? (s.ctx c).acc i) (NMap.find? (s.ctx c).acc j) with
  | some p =>
    obtain ⟨honly, hctx⟩ := addSignals_setCtx s c p.2.2
      (fun y => { y with qprep := true, new := splice y.new 0 (leBytes 2 p.1 ++ leBytes 2 p.2.1) })
    rw [hctx]
    refine ⟨honly, rfl, fun q hq => ?_, fun h => nomatch h⟩
    obtain rfl := Option.some.inj hq
    exact ⟨rfl, rfl⟩
  | none =>
    rw [ctx_setCtx_self]
    exact ⟨State.setCtx_only _ _ _, rfl, fun _ h => (nomatch h), fun _ => ⟨rfl, rfl⟩⟩

/-- An empty accumulator gives no scale pair. -/
theorem qprepPair_empty {m mx : Option Word} (h : m = none ∨ mx = none) (b : Nat) : qprepPair b m mx = none := by
  rcases h with rfl | rfl
  · rfl
  · cases m <;> rfl

/-! ## The lanes of the watch sums (R196) -/

/-- Active lanes of two registers in pairs. -/
theorem Ctx.lanePairs (x : Ctx) (a b : Nat) :
    (((x.lanes a).zip (x.lanes b)).take x.activeLanes).map (fun p => (BitVec.ofNat 32 p.1, BitVec.ofNat 32 p.2)) =
      (List.range x.activeLanes).map (fun l => ((BitVec.ofNat 32 (x.reg a l), BitVec.ofNat 32 (x.reg b l)) : Word × Word)) := by
  unfold Ctx.lanes
  rw [List.zip_map', ← List.map_take, List.take_range, Nat.min_eq_left (activeLanes_le x), List.map_map]
  rfl

/-- WACC in a context that holds a record: the pairs of the active lanes join the record's, and the churn's sums stay. -/
theorem State.watchAccumulate_facts {s : State} {c : CtxId} {it : SweepItem} (hitem : (s.ctx c).item = some it) (a b : Nat) :
    Only [.churns] s (s.watchAccumulate c a b)
      ∧ ((s.watchAccumulate c a b).churn (lineIx (ctxLine c))).sums = (s.churn (lineIx (ctxLine c))).sums
      ∧ (s.watchAccumulate c a b).ctx c = { s.ctx c with wacc := (s.ctx c).wacc ++ (List.range (s.ctx c).activeLanes).map (fun l =>
          (BitVec.ofNat 32 ((s.ctx c).reg a l), BitVec.ofNat 32 ((s.ctx c).reg b l))) } := by
  unfold State.watchAccumulate
  refine ⟨State.setCtx_only _ _ _, by rw [churn_setCtx], ?_⟩
  rw [ctx_setCtx_self, if_pos (by rw [hitem]; rfl), Ctx.lanePairs]

/-! ## Records that wait for H (R207) -/

/-- A context whose record waits no longer when H has passed it. -/
def Churn.unheldCtx (k : Churn) (x : Ctx) : Ctx := { x with held := x.held && !decide (x.index < k.h) }

/-- The records that H has passed wait no longer. -/
def Churn.unheld (k : Churn) : Churn := { k with ctxs := k.ctxs.map (fun e => (e.1, k.unheldCtx e.2)) }

/-- A faulted churn issues nothing. -/
theorem State.releaseHeld_faulted {s : State} {line : Nat} (h : (s.churn line).faulted = true) : s.releaseHeld line = s := by
  unfold State.releaseHeld
  exact if_pos h

/-- A churn's contexts wait no longer for H where it has passed them, and the writes that leave change no churn. -/
theorem State.releaseHeld_issues {s : State} {line : Nat} (h : (s.churn line).faulted = false) :
    Only [.tel, .channels, .mem, .events, .ledger] (s.setChurn line Churn.unheld) (s.releaseHeld line) := by
  unfold State.releaseHeld
  simp only [h, Bool.false_eq_true, if_false]
  refine Only.foldl (fun t e => ?_) _ _
  split
  · exact State.issueRecord_only _ _ _ _ _
  · exact Only.refl _

/-- What waits for H changes its contexts in nothing but whether they wait, and a record that H has not reached goes on waiting. -/
theorem State.releaseHeld_ctx (s : State) (line : Nat) (e : CtxId) :
    ∃ w : Bool, (s.releaseHeld line).ctx e = { s.ctx e with held := w }
      ∧ (line = lineIx (ctxLine e) → (s.churn line).h ≤ (s.ctx e).index → w = (s.ctx e).held) := by
  cases hfault : (s.churn line).faulted with
  | true => exact ⟨(s.ctx e).held, by rw [State.releaseHeld_faulted hfault], fun _ _ => rfl⟩
  | false =>
    rw [ctx_of (State.releaseHeld_issues hfault)]
    by_cases hline : line = lineIx (ctxLine e)
    · subst hline
      refine ⟨(s.ctx e).held && !decide ((s.ctx e).index < (s.churn (lineIx (ctxLine e))).h), ?_, fun _ hindex => ?_⟩
      · unfold State.ctx
        rw [churn_setChurn_self]
        exact NMap.getD_map _ (s.churn (lineIx (ctxLine e))).unheldCtx _ _ rfl
      · rw [decide_eq_false (by omega)]
        exact Bool.and_true _
    · refine ⟨(s.ctx e).held, ?_, fun h => absurd h hline⟩
      unfold State.ctx
      rw [churn_setChurn, if_neg hline]

/-! ## The end of the last section (R185, R201, R202) -/

/-- The context is at its first block again. -/
def Ctx.rewound (x : Ctx) : Ctx := { x with block := 0 }

/-- A record is complete by what its program has written, whatever block the context is at. -/
theorem State.completeRecord_rewound (s : State) (x : Ctx) (it : SweepItem) : s.completeRecord x.rewound it = s.completeRecord x it := rfl

section
variable {s : State} {c : CtxId} (hsent : (s.ctx c).sent = false) (hretag : (s.ctx c).retag = none)
include hsent hretag

/-- SECT goes by its checks, its kind and its block where a program runs. -/
theorem State.endSection_runs (once prologue last : Bool) :
    s.endSection c once prologue last none =
      if prologue then s.endPrologue c
      else if !once && decide ((s.ctx c).block + 1 < ceilDiv (s.ctx c).nAct 32) then s.setCtx c (fun y => { y with block := y.block + 1 })
      else if last then (s.setCtx c Ctx.rewound).finishRecord c else s.setCtx c Ctx.rewound := by
  unfold State.endSection
  rw [if_neg (by rw [hsent, hretag]; exact Bool.false_ne_true)]
  rfl

/-- A per-block section runs again until every block is done. -/
theorem State.endSection_next (h : (s.ctx c).block + 1 < ceilDiv (s.ctx c).nAct 32) (last : Bool) :
    s.endSection c false false last none = s.setCtx c (fun y => { y with block := y.block + 1 }) := by
  rw [State.endSection_runs hsent hretag, if_neg Bool.false_ne_true, if_pos (by simpa using h)]

/-- A section that has run over its blocks ends, and the record is finished after the last one. -/
theorem State.endSection_ends {once : Bool} (h : once = true ∨ ceilDiv (s.ctx c).nAct 32 ≤ (s.ctx c).block + 1) (last : Bool) :
    s.endSection c once false last none = if last then (s.setCtx c Ctx.rewound).finishRecord c else s.setCtx c Ctx.rewound := by
  rw [State.endSection_runs hsent hretag, if_neg Bool.false_ne_true, if_neg (by simpa using fun ho => h.resolve_left (by simp [ho]))]

/-- A failed check ends in a new start. -/
theorem State.endSection_checked (once prologue last : Bool) (u : UnitId) :
    s.endSection c once prologue last (some u) = s.recompute c (unitCode u) := by
  unfold State.endSection
  rw [if_neg (by rw [hsent, hretag]; exact Bool.false_ne_true)]

end

/-- A context whose record has been formed: its write, the parts of its working copy that wait, and what it adds to the watch. -/
def Ctx.formed (x : Ctx) (rec : Bytes) (copies : List Nat) (tally : List RecordTally) : Ctx :=
  { x with new := rec, sent := true, held := true, copies := copies, tally := x.tally ++ tally }

/-- A record whose program ran no WCOPY is formed and waits for H. -/
theorem State.finishRecord_alone {s : State} {c : CtxId} {it : SweepItem} (hitem : (s.ctx c).item = some it) (hcopy : (s.ctx c).wcopy = false) :
    ∃ tally, s.finishRecord c =
      (s.setCtx c (fun y => y.formed (s.completeRecord (s.ctx c) it) [] tally)).releaseHeld (lineIx (ctxLine c)) := by
  unfold State.finishRecord State.ctxCopy
  simp only [hitem, hcopy, Bool.false_eq_true, if_false, List.append_assoc]
  exact ⟨_, rfl⟩

/-- A record whose program ran WCOPY is formed, its working copy issued, and it waits for H. -/
theorem State.finishRecord_copies {s : State} {c : CtxId} {it : SweepItem} {d : DenseTensor} {w : WorkCopy} (hitem : (s.ctx c).item = some it)
    (hcopy : (s.ctx c).wcopy = true) (hwork : s.recordCopy (lineIx (ctxLine c)) it (s.completeRecord (s.ctx c) it) = some (d, w)) :
    ∃ tally, s.finishRecord c =
      ((s.setCtx c (fun y => y.formed (s.completeRecord (s.ctx c) it) (w.waits d) tally)).issueCopies (lineIx (ctxLine c))
        (s.ctx c).index d w).releaseHeld (lineIx (ctxLine c)) := by
  unfold State.finishRecord State.ctxCopy
  simp only [hitem, hcopy, if_true, hwork, List.append_assoc]
  exact ⟨_, rfl⟩

/-! ## Working copies in a tile store (R180, R486) -/

/-- The bytes of a block's values in YF16. -/
def yf16Bytes (xs : List Num) : Bytes := elementBytes 2 (xs.map (fun x => (x.round yf16 .rne false).1))

/-- 32 values in YF16 take 64 bytes. -/
theorem yf16Bytes_length (xs : List Num) : (yf16Bytes xs).length = 2 * xs.length := by
  unfold yf16Bytes
  rw [elementBytes_length, List.length_map]

/-- A YF16 working copy of a block before the tensor's last is one part of 64 bytes a block. -/
theorem State.workingCopy_yf16 {d : DenseTensor} {entry : Bytes} {block : Nat} (hcode : field entry 3 1 = 3) (hlast : block + 1 ≠ d.blocks)
    (s : State) (xs : List Num) : (s.workingCopy d entry block xs).parts = [⟨64 * block, yf16Bytes xs, 0⟩] := by
  have hoff : 32 * block * 2 = 64 * block := by omega
  have hformat : Fmt.ofCode 3 = some yf16 := rfl
  have hwidth : yf16.width / 8 = 2 := rfl
  unfold State.workingCopy workingBytes streamTail yf16Bytes
  simp [hcode, hlast, hoff, hformat, hwidth, scale_zero, Function.comp_def]

/-- A working copy of one part in a tile store is one write of it. -/
theorem State.issueCopies_tile {d : DenseTensor} {t : Fin 32} {w : WorkCopy} {p : WorkPart} (htile : d.workTile = some t)
    (hparts : w.parts = [p]) (s : State) (line index : Nat) :
    s.issueCopies line index d w = (s.tileWrite t.val (d.workBase + p.off) p.bytes).setTileTag t.val (d.workBase + p.off) p.tag := by
  unfold State.issueCopies State.issueCopy State.writeWorking
  rw [hparts]
  simp only [htile]
  rfl

/-- The working copy of a dense record that a sweep-table entry names. -/
theorem State.recordCopy_dense {s : State} {n : Nat} {dt : DenseTensor} {e : Bytes} {line : Nat} (hdense : s.dense n = some dt)
    (hentry : s.sweepEntry (s.listLine line) 1 n = some e) (b : Nat) (rec : Bytes) :
    s.recordCopy line (.dense n b) rec = some (dt, s.workingCopy dt e b ((List.range 32).map (densePlane rec 0).elem)) := by
  unfold State.recordCopy
  simp only [hdense, hentry]

/-- Bytes written to a tile store with their tag stand there after what leaves the tile stores. -/
theorem tileWrite_around {s u t : State} {m : List Part} {tile addr n : Nat} {bs : Bytes} {tag : Word} (hbefore : u.mem = s.mem)
    (hcanonical : s.memoryCanonical) (hlength : bs.length = n) (hafter : Only m ((u.tileWrite tile addr bs).setTileTag tile addr tag) t)
    (htiles : m.contains .tiles = false := by rfl) : t.tileRead tile addr n = bs ∧ s.tilesKept t tile addr n := by
  subst hlength
  have hsame : t.mem.tiles = (u.tileWrite tile addr bs).mem.tiles := (hafter.get .tiles htiles).1
  obtain ⟨hread, hkept⟩ := tileWrite_after hbefore hcanonical tile addr bs
  refine ⟨(tileRead_congr hsame _ _ _).trans hread, fun a ha => ?_⟩
  rw [hsame]
  exact hkept a ha

/-- The YF16 working copy of a dense record, in a tile store, as SECT leaves it after the last section. -/
theorem State.finishRecord_tile {s : State} {c : CtxId} {n b : Nat} {dt : DenseTensor} {e : Bytes} {w : Fin 32} (hcanonical : s.memoryCanonical)
    (hitem : (s.ctx c).item = some (.dense n b)) (hcopy : (s.ctx c).wcopy = true) (hdense : s.dense n = some dt) (hlast : b + 1 ≠ dt.blocks)
    (hentry : s.sweepEntry (s.listLine (lineIx (ctxLine c))) 1 n = some e) (hcode : field e 3 1 = 3) (htile : dt.workTile = some w) :
    (s.finishRecord c).tileRead w.val (dt.workBase + 64 * b) 64 =
        yf16Bytes ((List.range 32).map (densePlane (s.completeRecord (s.ctx c) (.dense n b)) 0).elem)
      ∧ s.tilesKept (s.finishRecord c) w.val (dt.workBase + 64 * b) 64 := by
  obtain ⟨tally, hfinish⟩ := State.finishRecord_copies hitem hcopy (State.recordCopy_dense hdense hentry b _)
  rw [hfinish, State.issueCopies_tile htile (State.workingCopy_yf16 hcode hlast _ _)]
  exact tileWrite_around (u := s.setCtx c _) rfl hcanonical (by rw [yf16Bytes_length]; rfl) (State.releaseHeld_only _ _)

/-- Settles O38: each store by the law of its place, RED by the fold of the active lanes, QPREP by whether its accumulators give a pair,
and the working copy by the write that the last SECT leaves in the tile store. -/
theorem churnStores : Obligations.ChurnStores := by
  intro s c it hitem
  refine ⟨rfl, fun f mf a rm hf => ?stage, fun mf a rm tv htable => ?scalar, fun f mf a rm r h6 h7 hstored => ?field,
    fun kind a k rm hactive => ?red, fun i j => ?qprep, fun a b => ?wacc, ?wcopy,
    fun n b dt e w hsound hdenseItem hdense hlast hentry hcode htile hcopy hsent hretag => ?sect⟩
  case stage =>
    rcases hf with rfl | rfl
    · exact ⟨_, rfl, s.storeStage_facts c false a⟩
    · exact ⟨_, rfl, s.storeStage_facts c true a⟩
  case scalar =>
    obtain ⟨honly, hctx⟩ := State.storeRecord_facts (f := (5 : BitVec 4).toNat) hitem
      (State.storeField_scalar htable (s.ctx c) mf ((s.ctx c).lanes a) rm)
    refine ⟨_, exec_stf_record (by decide) (by decide) c mf a rm s, honly, ?_, by rw [hctx]⟩
    rw [hctx, lanes_getD _ _ _ (by decide)]
  case field => exact ⟨_, exec_stf_record h6 h7 c mf a rm s, State.storeRecord_facts hitem hstored⟩
  case red =>
    obtain ⟨v, hv, honly, hacc, hothers⟩ := State.reduceLanes_facts hactive kind a k rm
    refine ⟨_, BitVec.ofNat 32 v, rfl, honly, hacc, hothers, fun hkind hempty htwo => ?sum, fun hkind hempty htwo => ?squares⟩
    all_goals
      rw [Ctx.reduced_two hempty htwo] at hv
      subst hkind
      exact congrArg (BitVec.ofNat 32) (Option.some.inj hv).symm
  case qprep =>
    obtain ⟨honly, hset, hpair, hnone⟩ := State.qprepare_facts hitem i j
    exact ⟨_, rfl, honly, hset, hpair, fun hempty => hnone (qprepPair_empty hempty _)⟩
  case wacc => exact ⟨_, rfl, State.watchAccumulate_facts hitem a b⟩
  case wcopy => exact ⟨_, rfl, State.setCtx_only _ _ _, ctx_setCtx_self _ _ _⟩
  case sect =>
    subst hdenseItem
    have hend := State.endSection_ends hsent hretag (.inl rfl : true = true ∨ _) true
    have hctx := ctx_setCtx_self s c Ctx.rewound
    have hcopied := State.finishRecord_tile (s := s.setCtx c Ctx.rewound) (c := c) hsound.memory (by rw [hctx]; exact hitem)
      (by rw [hctx]; exact hcopy) hdense hlast (by rw [listLine_setCtx]; exact hentry) hcode htile
    rw [hctx] at hcopied
    exact ⟨_, congrArg Host.Outcome.next hend, hcopied⟩

end Sys2Proof.Machine
end

section
/-! SUPPORT and CLAIM. Records of the update sweep (R176, R184, R185, R201 to R211): a record's first read, the end of its sections, the
verified write and the sums of the watch, a list that is taken over or lost, and the obligation about them. -/

-- Checked one theorem at a time: the package as one text then needs less memory.
set_option Elab.async false

namespace Sys2Proof.Machine

/-! ## The first read (R205, R206, R207) -/

/-- The low bits of the step rest on the step. -/
theorem stepTag_of {m : List Part} {s A : State} (o : Only m s A) (h : m.contains .step = false := by rfl) : A.stepTag = s.stepTag := by
  unfold State.stepTag
  rw [o.get .step h]

/-- Whether a record is poisoned on input rests on the plan, the tables and whose list the churn runs. -/
theorem poisonedInput_of {m : List Part} {s A : State} (o : Only m s A) (hplan : m.contains .plan = false := by rfl)
    (htables : m.contains .tables = false := by rfl) (hchurns : m.contains .churns = false := by rfl) (line : Nat) (it : SweepItem)
    (rec : Bytes) : A.poisonedInput line it rec = s.poisonedInput line it rec := by
  obtain ⟨hinfo, -, hplanes⟩ := itemInfo_of o hplan htables it
  have hprogram : A.itemProgram line it = s.itemProgram line it := by
    unfold State.itemProgram State.sweepEntry State.listLine
    rw [hinfo, churn_of o hchurns, o.get .plan hplan]
  unfold State.poisonedInput State.program
  rw [hprogram, hplanes, o.get .plan hplan]

/-- A record that may not be read now leaves the state as it is. -/
theorem State.firstRead_waits {s : State} {c : CtxId} {i : Nat} (h : s.mayRead c i = false) (failed : Nat) : s.firstRead c i failed = s := by
  unfold State.firstRead
  simp only [h, Bool.false_eq_true, if_false]
  split <;> rfl

section
variable {s d : State} {c : CtxId} {i failed : Nat} {it : SweepItem} (hlist : (s.churn (lineIx (ctxLine c))).list[i]? = some it)
  (hmay : s.mayRead c i = true)
include hlist hmay

/-- A record that no read verifies is lost. -/
theorem State.firstRead_lost (hread : s.readRecord (s.itemInfo it).addr (s.itemInfo it).size failed = (d, none)) :
    s.firstRead c i failed = d.lostRecord c i it := by
  unfold State.firstRead
  simp only [hlist, hmay, hread, if_true]

/-- A record of the churn's own list that a read verifies may be updated. -/
theorem State.firstRead_starts {rec : Bytes} (hown : (s.churn (lineIx (ctxLine c))).resumeH ≤ i)
    (hread : s.readRecord (s.itemInfo it).addr (s.itemInfo it).size failed = (d, some rec)) :
    s.firstRead c i failed = d.startRecord c i it rec := by
  unfold State.firstRead
  simp only [hlist, hmay, hread, if_true]
  exact if_neg (fun h => absurd h.1 (by omega))

end

/-- A record without the current tag that is not poisoned enters its context fresh. -/
theorem State.startRecord_enters {s : State} {c : CtxId} {it : SweepItem} {rec : Bytes} (htag : tagOf (s.itemInfo it).kind rec ≠ s.stepTag)
    (hclean : s.poisonedInput (lineIx (ctxLine c)) it rec = false) (i : Nat) :
    s.startRecord c i it rec = (s.setCtx c (fun _ => (s.churn (s.listLine (lineIx (ctxLine c)))).freshCtx
      (s.itemProgram (lineIx (ctxLine c)) it) i it (s.itemInfo it) rec)).readComplete (lineIx (ctxLine c)) i :=
  (if_neg htag).trans (if_neg (ne_true_of_eq_false hclean))

/-- A completed first read changes the contexts in nothing but whether they wait for H. -/
theorem State.readComplete_ctx (s : State) (line i : Nat) (e : CtxId) : ∃ w : Bool, (s.readComplete line i).ctx e = { s.ctx e with held := w } := by
  obtain ⟨w, hctx, -⟩ := (s.setChurn line (fun k => k.markRead i)).releaseHeld_ctx line e
  refine ⟨w, hctx.trans ?_⟩
  have hsame : (s.setChurn line (fun k => k.markRead i)).ctx e = s.ctx e := by
    unfold State.ctx
    rw [churn_setChurn]
    split
    · next h => rw [h]; rfl
    · rfl
  rw [hsame]

/-- A record of the churn's own list that reads without the current tag and unpoisoned is read once, and enters its context fresh. -/
theorem State.firstRead_enters {s d : State} {c : CtxId} {i : Nat} {it : SweepItem} {rec : Bytes}
    (hlist : (s.churn (lineIx (ctxLine c))).list[i]? = some it) (hmay : s.mayRead c i = true)
    (hown : (s.churn (lineIx (ctxLine c))).resumeH ≤ i) (hread : s.readRecord (s.itemInfo it).addr (s.itemInfo it).size 0 = (d, some rec))
    (htag : tagOf (s.itemInfo it).kind rec ≠ s.stepTag) (hclean : s.poisonedInput (lineIx (ctxLine c)) it rec = false) :
    Only [.churns, .stats, .channels, .mem, .tel, .events, .ledger] s (s.firstRead c i 0)
      ∧ ∃ (k : Churn) (prog : Nat) (w : Bool), (s.firstRead c i 0).ctx c = { k.freshCtx prog i it (s.itemInfo it) rec with held := w } := by
  have hstats : Only [.stats] s d := readRecord_only' s _ _ d rec hread
  have hinfo := (itemInfo_of hstats rfl rfl it).1
  rw [State.firstRead_starts hlist hmay hown hread, State.startRecord_enters (by rw [hinfo, stepTag_of hstats]; exact htag)
    (by rw [poisonedInput_of hstats]; exact hclean), hinfo]
  refine ⟨Only.of (State.readComplete_only _ _ _) rfl (Only.of (State.setCtx_only _ _ _) rfl (hstats.mono rfl)), ?_⟩
  obtain ⟨w, hctx⟩ := State.readComplete_ctx (d.setCtx c (fun _ => (d.churn (d.listLine (lineIx (ctxLine c)))).freshCtx
    (d.itemProgram (lineIx (ctxLine c)) it) i it (s.itemInfo it) rec)) (lineIx (ctxLine c)) i c
  rw [ctx_setCtx_self] at hctx
  exact ⟨_, _, w, hctx⟩

/-- A record that fails its reads raises RECORD_UNREADABLE and is rebuilt in its context. -/
theorem State.lostRecord_facts (s : State) (c : CtxId) (i : Nat) (it : SweepItem) :
    ∃ u : State, Raised 0x7304 (churnUnit (lineIx (ctxLine c))) s u
      ∧ Only [.churns, .channels, .mem, .tel, .events, .ledger] u (s.lostRecord c i it)
      ∧ ((s.lostRecord c i it).ctx c).item = some it ∧ ((s.lostRecord c i it).ctx c).new = s.unreadable it := by
  unfold State.lostRecord
  refine ⟨_, Raised.of_raise s 0x7304 _ _ i false, (State.writeWithout_only _ _ _ _ _ _).mono rfl, ?_⟩
  unfold State.writeWithout
  obtain ⟨w, hctx⟩ := State.readComplete_ctx _ (lineIx (ctxLine c)) i c
  rw [hctx, ctx_setCtx_self]
  exact ⟨rfl, rfl⟩

/-! ## Sections (R184, R185, R201 to R204) -/

/-- A prologue's registers are copied to its churn. -/
theorem State.endPrologue_prologue (s : State) (c : CtxId) : ((s.endPrologue c).churn (lineIx (ctxLine c))).prologue =
    (s.ctx c).v.foldl (fun m e => NMap.insert m (1024 * s.ctxProgram c + e.1) e.2) (s.churn (lineIx (ctxLine c))).prologue := by
  unfold State.endPrologue
  rw [churn_setChurn_self]

/-- A context that starts its record again after its first failure. -/
def Churn.retried (k : Churn) (x : Ctx) : Ctx := { k.restartCtx x with failures := 1 }

/-- A failed check of a record with none before raises SWEEP_RECOMPUTE and starts the record again from what was read. -/
theorem State.recompute_first {s : State} {c : CtxId} (h : (s.ctx c).failures = 0) (u : Half) :
    (s.recompute c u).lastEvent = some 0x7301 ∧ ∃ k : Churn, (s.recompute c u).ctx c = k.retried (s.ctx c) := by
  have hraised := State.raise_only (s.checkFault u) 0x7301 (churnUnit (lineIx (ctxLine c))) (lineIx (ctxLine c)) (s.ctx c).index false
  have hrun : s.recompute c u = ((s.checkFault u).raise 0x7301 (churnUnit (lineIx (ctxLine c))) (lineIx (ctxLine c)) (s.ctx c).index).setCtx c
      ((s.checkFault u).churn ((s.checkFault u).listLine (lineIx (ctxLine c)))).retried := if_pos h
  rw [hrun, ctx_setCtx_self, ctx_of hraised, ctx_of (State.checkFault_only _ _)]
  exact ⟨raised_last (Raised.of_raise (s.checkFault u) 0x7301 _ _ _ false), _, rfl⟩

/-- A completed record that is not poisoned carries the tag of the step. -/
theorem State.completeRecord_tag {s : State} {x : Ctx} (hclean : x.poison = false) (hlength : 10 ≤ x.new.length) (it : SweepItem) :
    tagOf (s.itemInfo it).kind (s.completeRecord x it) = s.stepTag := by
  unfold State.completeRecord
  rw [hclean]
  exact (tagOf_retag _ _ _ hlength).trans (Nat.mod_mod _ _)

/-- In a churn whose one context waits and has been passed by H, its record's write alone leaves. -/
theorem State.releaseHeld_one {s : State} {line n : Nat} {x : Ctx} {it : SweepItem} (hctxs : (s.churn line).ctxs = [(n, x)])
    (hfault : (s.churn line).faulted = false) (hheld : x.held = true) (hpassed : x.index < (s.churn line).h) (hitem : x.item = some it) :
    s.releaseHeld line = (s.setChurn line Churn.unheld).issueRecord line x.index it x.new := by
  unfold State.releaseHeld
  simp only [hctxs, hfault, hheld, hpassed, Bool.false_eq_true, if_false, decide_true, Bool.and_self, List.filter_cons_of_pos,
    List.filter_nil, List.mergeSort_singleton, List.foldl_cons, List.foldl_nil, hitem]
  rfl

/-- A change of the one listed value. -/
theorem NMap.modify_single {α : Type} (i : Nat) (x d : α) (f : α → α) : NMap.modify [(i, x)] i d f = [(i, f x)] := by
  simp [NMap.modify, NMap.insert, NMap.getD, NMap.find?]

/-- A churn's one context after a change of it. -/
theorem ctxs_setCtx_one {s : State} {c : CtxId} (h : (s.churn (lineIx (ctxLine c))).ctxs = [(c.ctx.val, s.ctx c)]) (f : Ctx → Ctx) :
    ((s.setCtx c f).churn (lineIx (ctxLine c))).ctxs = [(c.ctx.val, f (s.ctx c))] := by
  rw [churn_setCtx, ← NMap.modify_single _ _ {}, ← h]

section
variable {s : State} {c : CtxId} {it : SweepItem} (hitem : (s.ctx c).item = some it) (hcopy : (s.ctx c).wcopy = false)
include hitem hcopy

/-- After the last section of a program without WCOPY the record is formed in its context, and waits until H has reached it. -/
theorem State.finishRecord_formed : ((s.finishRecord c).ctx c).new = s.completeRecord (s.ctx c) it ∧ ((s.finishRecord c).ctx c).sent = true
    ∧ ((s.churn (lineIx (ctxLine c))).h ≤ (s.ctx c).index → ((s.finishRecord c).ctx c).held = true) := by
  obtain ⟨tally, hfinish⟩ := State.finishRecord_alone hitem hcopy
  obtain ⟨w, hctx, hheld⟩ :=
    (s.setCtx c (fun y => y.formed (s.completeRecord (s.ctx c) it) [] tally)).releaseHeld_ctx (lineIx (ctxLine c)) c
  rw [churn_setCtx, ctx_setCtx_self] at hheld
  rw [hfinish, hctx, ctx_setCtx_self]
  exact ⟨rfl, rfl, fun hindex => hheld rfl hindex⟩

/-- The record leaves at once when H has passed it and nothing else waits. -/
theorem State.finishRecord_leaves (hctxs : (s.churn (lineIx (ctxLine c))).ctxs = [(c.ctx.val, s.ctx c)])
    (hfault : (s.churn (lineIx (ctxLine c))).faulted = false) (hpassed : (s.ctx c).index < (s.churn (lineIx (ctxLine c))).h) :
    ∃ u : State, Only [.churns] s u ∧ s.finishRecord c = u.portWrite ⟨(s.itemInfo it).addr,
      s.recordBytes it (s.completeRecord (s.ctx c) it), none, churnSource (lineIx (ctxLine c)) (s.ctx c).index, false⟩ := by
  obtain ⟨tally, hfinish⟩ := State.finishRecord_alone hitem hcopy
  have hissue := State.releaseHeld_one (s := s.setCtx c (fun y => y.formed (s.completeRecord (s.ctx c) it) [] tally))
    (ctxs_setCtx_one hctxs _) (by rw [churn_setCtx]; exact hfault) rfl (by rw [churn_setCtx]; exact hpassed) hitem
  exact ⟨_, Only.of (State.setChurn_only _ _ Churn.unheld) rfl (State.setCtx_only _ _ _), hfinish.trans hissue⟩

end

/-! ## The verified write (R203, R204, R207, R243) -/

/-- A change of a watch record that keeps its count of swept records keeps every key's. -/
theorem swept_setWatch {f : Watch → Watch} (h : ∀ w, (f w).swept = w.swept) (s : State) (k j : Nat) :
    ((s.setWatch k f).watchOf j).swept = (s.watchOf j).swept := by
  rw [watchOf_setWatch]
  split
  · next hkey => rw [h, hkey]
  · rfl

/-- Poisoned blocks leave the counts of swept records. -/
theorem countPoison_swept (s : State) (code key n j : Nat) : ((s.countPoison code key n).watchOf j).swept = (s.watchOf j).swept := by
  unfold State.countPoison
  split
  · rfl
  · unfold State.watchOf
    rw [(State.raiseOnce_only _ _ _ _ _ _ _).get .watch]
    refine swept_setWatch (fun _ => ?_) s key j
    rfl

/-- Exceptions leave the counts of swept records. -/
theorem countExceptions_swept (s : State) (key : Nat) (fs : List Flags) (j : Nat) :
    ((s.countExceptions key fs).watchOf j).swept = (s.watchOf j).swept := by
  refine swept_setWatch (fun _ => ?_) s key j
  rfl

/-- Conversions leave the counts of swept records. -/
theorem countConversions_swept (s : State) (key : Nat) (unit : Half) (k : Int) (cs : List Converted) (a b n m j : Nat) :
    ((s.countConversions key unit k cs a b n m).watchOf j).swept = (s.watchOf j).swept := by
  refine swept_setWatch (fun w => ?_) s key j
  unfold Watch.observe
  simp only []
  split_ifs <;> rfl

/-- What a record adds to the watch's counts leaves those of swept records. -/
theorem countTally_swept (s : State) (key j : Nat) (unit : Half) (t : RecordTally) :
    ((s.countTally key unit t).watchOf j).swept = (s.watchOf j).swept := by
  unfold State.countTally
  refine (countPoison_swept _ _ _ _ _).trans ((countExceptions_swept _ _ _ _).trans ?_)
  split
  · rfl
  · exact countConversions_swept _ _ _ _ _ _ _ _ _ _

/-- Operations for each of a list that leave a key's count of swept records. -/
theorem swept_foldl {α : Type} {f : State → α → State} {j : Nat} (h : ∀ u a, ((f u a).watchOf j).swept = (u.watchOf j).swept) (l : List α)
    (s : State) : ((l.foldl f s).watchOf j).swept = (s.watchOf j).swept := by
  induction l generalizing s with
  | nil => rfl
  | cons a l ih => rw [List.foldl_cons, ih, h]

/-- The counts of a verified record leave those of swept records. -/
theorem flushTally_swept (s : State) (line i j : Nat) : ((s.flushTally line i).watchOf j).swept = (s.watchOf j).swept := by
  unfold State.flushTally
  split
  · rfl
  · exact swept_foldl (fun u t => countTally_swept u _ _ _ t) _ _

/-- The sums that a record adds change nothing else of the churn. -/
theorem Churn.addSums_rest (k : Churn) (i : Nat) : k.addSums i = { k with sums := (k.addSums i).sums } := by
  unfold Churn.addSums
  split <;> rfl

/-- The sums that records add change nothing else of the churn. -/
theorem Churn.addSums_fold (is : List Nat) (k : Churn) : is.foldl Churn.addSums k = { k with sums := (is.foldl Churn.addSums k).sums } := by
  induction is generalizing k with
  | nil => rfl
  | cons i is ih =>
    rw [List.foldl_cons, ih, k.addSums_rest i]

/-- A churn once the records that V has passed from a mark on have entered its sums. -/
def Churn.settled (k : Churn) (mark : Nat) : Churn :=
  { k with
    sums := ((List.range' mark (k.v - mark)).foldl Churn.addSums k).sums
    pending := k.pending.filter (fun e => decide (k.v ≤ e.1)) }

/-- The records that V has passed enter the churn's sums, and the counts of swept records stay. -/
theorem State.settleSums_facts (s : State) (line mark : Nat) :
    (s.settleSums line mark).churn line = (s.churn line).settled mark
      ∧ ∀ j, ((s.settleSums line mark).watchOf j).swept = (s.watchOf j).swept := by
  unfold State.settleSums
  constructor
  · rw [churn_setChurn_self, churn_of (Only.foldl (fun u i => State.flushTally_only u line i) _ _), Churn.addSums_fold]
    rfl
  · exact fun j => swept_foldl (fun u i => flushTally_swept u line i j) _ _

/-- A churn where what record i adds to the watch waits for V. -/
def Churn.awaiting (k : Churn) (i : Nat) (p : PendingSums) : Churn := { k with pending := NMap.insert k.pending i p }

/-- A record that stands verified is counted as swept, and what its program adds to the watch waits for V. -/
theorem State.recordKept_facts {s : State} {line i n : Nat} {x : Ctx} {it : SweepItem} (hholding : (s.churn line).holding i = some (n, x))
    (hitem : x.item = some it) (hskip : x.skip = false) :
    (s.recordKept line i).churn line = (s.churn line).awaiting i ⟨s.itemKey it, x.wacc, x.tally⟩
      ∧ ((s.recordKept line i).watchOf (s.itemKey it)).swept = (s.watchOf (s.itemKey it)).swept + 1 := by
  have hkept : Only [.mem, .tables, .exp] s (((s.logSwept it x.new).cacheSwept it x.new).countDropped it) :=
    Only.of (State.countDropped_only _ _) rfl (Only.of (State.cacheSwept_only _ _ _) rfl ((State.logSwept_only _ _ _).mono rfl))
  have hwatch := hkept.get .watch
  have hchurn := churn_of hkept rfl line
  unfold State.recordKept
  simp only [hholding, hitem, hskip]
  constructor
  · rw [churn_setChurn_self, churn_of (State.setWatch_only _ _ _), hchurn]
    rfl
  · exact (congrArg Watch.swept (watchOf_setWatch _ _ _ _)).trans (by rw [if_pos rfl]; unfold State.watchOf; rw [hwatch])

/-- A churn that has freed the context of record i and marked the record written. -/
def Churn.freed (k : Churn) (n i : Nat) : Churn := { k with ctxs := NMap.erase k.ctxs n }.markWritten i

/-- A verified record at V moves V past it. -/
theorem Churn.freed_v {k : Churn} {i : Nat} (h : k.v = i) (n : Nat) : i < (k.freed n i).v := by
  subst h
  refine advance_gt _ _ _ ?_
  split
  · next hdone => simpa using hdone
  · exact List.mem_cons_self

/-- A verified record at V, with none written beyond it, moves V by one. -/
theorem Churn.freed_v_next {k : Churn} {i : Nat} (h : k.v = i) (hdone : k.writeDone = []) (n : Nat) : (k.freed n i).v = i + 1 := by
  unfold Churn.freed Churn.markWritten
  simp [h, hdone, advanceMark]

/-- A record that waits for V adds its pairs to its key's sums. -/
theorem Churn.addSums_at {k : Churn} {i : Nat} {p : PendingSums} (h : NMap.find? k.pending i = some p) :
    NMap.getD (k.addSums i).sums p.key {} = p.pairs.foldl WatchSum.add (NMap.getD k.sums p.key {}) := by
  unfold Churn.addSums
  simp only [h]
  rw [NMap.getD_modify, if_pos rfl]

/-- A record that waits at the mark, which V has passed by one, adds its pairs to its key's sums. -/
theorem Churn.settled_sums {k : Churn} {i : Nat} {p : PendingSums} (h : NMap.find? k.pending i = some p) (hv : k.v = i + 1) :
    NMap.getD (k.settled i).sums p.key {} = p.pairs.foldl WatchSum.add (NMap.getD k.sums p.key {}) := by
  unfold Churn.settled
  simp only [hv, Nat.add_sub_cancel_left]
  exact Churn.addSums_at h

/-- A churn without a list taken over begins none. -/
theorem Churn.takeResume_none {k : Churn} (h : k.resume = none) : k.takeResume = k := by
  unfold Churn.takeResume
  rw [h]

section
variable {s : State} {line i n : Nat} {x : Ctx} {it : SweepItem} (hfault : (s.churn line).faulted = false)
  (hverified : i ∈ (s.churn line).verified) (hholding : (s.churn line).holding i = some (n, x)) (hitem : x.item = some it)
  (hskip : x.skip = false) (hresume : (s.churn line).resume = none)
include hfault hverified hholding

/-- A verified record is kept, its context freed, and the records that V has passed settled. -/
theorem State.recordVerified_runs : s.recordVerified line i =
    (((s.recordKept line i).setChurn line (fun k => k.freed n i)).settleSums line (s.churn line).v).setChurn line
      (fun k => k.takeResume) := by
  unfold State.recordVerified
  simp only [hfault, hholding, List.contains_iff_mem.mpr hverified]
  rfl

include hitem hskip

/-- A verified record is counted as swept. -/
theorem State.recordVerified_swept :
    ((s.recordVerified line i).watchOf (s.itemKey it)).swept = (s.watchOf (s.itemKey it)).swept + 1 := by
  rw [State.recordVerified_runs hfault hverified hholding]
  exact ((State.settleSums_facts _ _ _).2 _).trans (State.recordKept_facts hholding hitem hskip).2

include hresume

/-- The churn of a verified record. -/
theorem State.recordVerified_churn : (s.recordVerified line i).churn line =
    (((s.churn line).awaiting i ⟨s.itemKey it, x.wacc, x.tally⟩).freed n i).settled (s.churn line).v := by
  rw [State.recordVerified_runs hfault hverified hholding, churn_setChurn_self, (State.settleSums_facts _ _ _).1, churn_setChurn_self,
    (State.recordKept_facts hholding hitem hskip).1]
  exact Churn.takeResume_none hresume

/-- The context of a verified record is free. -/
theorem State.recordVerified_ctxs : ((s.recordVerified line i).churn line).ctxs = NMap.erase (s.churn line).ctxs n := by
  rw [State.recordVerified_churn hfault hverified hholding hitem hskip hresume]
  rfl

/-- The verified record at V moves V past it. -/
theorem State.recordVerified_v (h : (s.churn line).v = i) : i < ((s.recordVerified line i).churn line).v := by
  rw [State.recordVerified_churn hfault hverified hholding hitem hskip hresume]
  exact Churn.freed_v (k := (s.churn line).awaiting i _) h n

/-- The pairs of the verified record at V, with none written beyond it, enter the sums of its key in their order. -/
theorem State.recordVerified_sums (h : (s.churn line).v = i) (hdone : (s.churn line).writeDone = []) :
    NMap.getD ((s.recordVerified line i).churn line).sums (s.itemKey it) {} =
      x.wacc.foldl WatchSum.add (NMap.getD (s.churn line).sums (s.itemKey it) {}) := by
  rw [State.recordVerified_churn hfault hverified hholding hitem hskip hresume, h]
  exact Churn.settled_sums (p := ⟨s.itemKey it, x.wacc, x.tally⟩) (NMap.find?_insert_self _ _ _) (Churn.freed_v_next h hdone n)

end

/-! ## Takeover (R209 to R211) -/

/-- An event leaves which events have been raised once in the step. -/
theorem raise_once (s : State) (code : Nat) (unit : Half) (ident qty : Nat) (halts : Bool) :
    (s.raise code unit ident qty halts).events.once = s.events.once := by
  rw [State.raise_events, EventState.push]

/-- Faults counted leave which events have been raised in the step. -/
theorem countedFault_once (s : State) (u : Half) : (s.countedFault u).events.once = s.events.once := by
  unfold State.countedFault
  simp only []
  split_ifs <;> simp only [raise_once] <;> rfl

/-- An event raised once in the step is the newest. -/
theorem State.raiseOnce_last {s : State} {mark code : Nat} (h : s.events.once.contains (code, mark) = false) (unit : Half)
    (ident qty : Nat) (halts : Bool) : (s.raiseOnce mark code unit ident qty halts).lastEvent = some (BitVec.ofNat 16 code) := by
  unfold State.raiseOnce
  rw [if_neg (ne_true_of_eq_false h)]
  exact raised_last (Raised.of_raise s code unit ident qty halts)

/-- Whether a job runs rests on the job. -/
theorem jobRuns_of {m : List Part} {s A : State} (o : Only m s A) (h : m.contains .job = false := by rfl) : A.jobRuns = s.jobRuns := by
  unfold State.jobRuns
  rw [(o.get .job h).1]

/-- A lost sweep raises SWEEP_LOST when the step has not, and halts the job at the next tick. -/
theorem State.sweepLost_facts {s : State} {line : Nat} (honce : s.events.once.contains (0x7303, line) = false) (hruns : s.jobRuns = true) :
    (s.sweepLost line).lastEvent = some 0x7303 ∧ (s.sweepLost line).seq.haltPending = true := by
  have hjob := (jobRuns_of (State.raiseOnce_only s line 0x7303 (churnUnit line) line 0 true)).trans hruns
  refine ⟨State.raiseOnce_last honce _ _ _ _, ?_⟩
  unfold State.sweepLost State.haltNext
  rw [hjob]
  exact Bool.or_true _

/-- A change of a churn raises no event. -/
theorem lastEvent_setChurn (s : State) (line : Nat) (f : Churn → Churn) : (s.setChurn line f).lastEvent = s.lastEvent := rfl

/-- A churn that will resume a list from its marks. -/
def Churn.resuming (k : Churn) (r : List SweepItem × Nat × Nat) : Churn := { k with resume := some r }

/-- A churn whose list another has taken over. -/
def Churn.emptied (k : Churn) : Churn := { k with list := [], v := 0, h := 0, readDone := [], writeDone := [], verified := [] }

/-- A churn whose own list is not done goes on with it. -/
theorem Churn.takeResume_busy {k : Churn} (h : k.v < k.list.length) : k.takeResume = k := by
  unfold Churn.takeResume
  split
  · exact if_neg (by omega)
  · rfl

section
variable {s : State} {line : Nat} (hfault : (s.churn line).faulted = true) (hleft : (s.churn line).v < (s.churn line).list.length)
include hfault hleft

/-- A faulted churn's list that the tile's other churn can take, which has a list of its own to finish. -/
theorem State.takeover_taken (htake : (s.countedFault (churnUnit line)).canTakeOver line = true)
    (hbusy : (s.churn (otherLine line)).v < (s.churn (otherLine line)).list.length) :
    (s.takeover line).lastEvent = some 0x7302
      ∧ ((s.takeover line).churn (otherLine line)).resume = some ((s.churn line).list, (s.churn line).v, (s.churn line).h)
      ∧ ((s.takeover line).churn line).list = [] ∧ ((s.takeover line).churn line).faulted = true := by
  have hrun : s.takeover line = ((((s.countedFault (churnUnit line)).incomplete (s.churn line).list).raise 0x7302 (churnUnit line) line
      (s.churn line).v).setChurn (otherLine line) (fun o =>
        (o.resuming ((s.churn line).list, (s.churn line).v, (s.churn line).h)).takeResume)).setChurn line Churn.emptied := by
    unfold State.takeover
    rw [if_neg (by simp [hfault]; omega)]
    exact if_pos htake
  have hsame : Only [.tel, .watch, .events, .ledger] s (((s.countedFault (churnUnit line)).incomplete (s.churn line).list).raise 0x7302
      (churnUnit line) line (s.churn line).v) :=
    Only.of (State.raise_only _ _ _ _ _ _) rfl (Only.of (State.incomplete_only _ _) rfl ((State.countedFault_only _ _).mono rfl))
  have hother := otherLine_ne line
  rw [hrun]
  refine ⟨?_, ?_, ?_, ?_⟩
  · rw [lastEvent_setChurn, lastEvent_setChurn]
    exact raised_last (Raised.of_raise _ 0x7302 _ _ _ _)
  · rw [churn_setChurn, if_neg hother.symm, churn_setChurn_self, churn_of hsame,
      Churn.takeResume_busy (k := (s.churn (otherLine line)).resuming _) hbusy]
    rfl
  · rw [churn_setChurn_self]
    rfl
  · rw [churn_setChurn_self, churn_setChurn, if_neg hother, churn_of hsame]
    exact hfault

/-- A faulted churn's list that no churn of the tile can take is lost. -/
theorem State.takeover_lost (htake : (s.countedFault (churnUnit line)).canTakeOver line = false) :
    s.takeover line = (s.countedFault (churnUnit line)).sweepLost line := by
  unfold State.takeover
  rw [if_neg (by simp [hfault]; omega)]
  exact if_neg (ne_true_of_eq_false htake)

end

/-- Settles O39: each way of a first read, of a section's end, of a verified write and of a takeover by its law above. Taking a list over
and SWEEP_LOST rest on R210 and R211, and how an unreadable record is rebuilt on log 22. -/
theorem churnRecords : Obligations.ChurnRecords := by
  intro s c i it
  have hrewound : (s.setCtx c Ctx.rewound).ctx c = (s.ctx c).rewound := ctx_setCtx_self s c Ctx.rewound
  refine ⟨fun rec d hlist hmay hown hread htag hclean => ?enters, fun d hlist hmay hread => ?lost, fun hmay => ?waits,
    fun hsent hretag => ⟨fun last hitem hblock => ?next, fun once hends => ?ends, fun once last => ?prologue,
      fun once hitem hcopy hends => ⟨?formed, fun hctxs hfault hpassed => ?leaves⟩, fun once prologue last u _ _ hfailures => ?checked⟩,
    fun x hclean hlength => State.completeRecord_tag hclean hlength it,
    fun l n x hfault hverified hholding hitem hskip hresume => ?verified, fun l hfault => ?sound, fun l hfault hleft htake hbusy => ?taken,
    fun l hfault hleft htake hruns honce => ?sweepLost⟩
  case enters =>
    obtain ⟨honly, k, prog, w, hctx⟩ := State.firstRead_enters hlist hmay hown hread htag hclean
    refine ⟨s.firstRead c i 0, rfl, honly, ?_⟩
    rw [hctx]
    exact ⟨rfl, rfl, rfl, rfl, rfl, rfl, rfl, rfl⟩
  case lost =>
    obtain ⟨u, hraised, honly, hitem, hnew⟩ := d.lostRecord_facts c i it
    refine ⟨_, u, congrArg Host.Outcome.next (State.firstRead_lost hlist hmay hread), hraised, honly, hitem, hnew.trans ?_⟩
    have hread_only := State.readRecord_only s (s.itemInfo it).addr (s.itemInfo it).size 3
    rw [hread] at hread_only
    exact unreadable_of hread_only rfl rfl rfl it
  case waits => exact congrArg Host.Outcome.next (State.firstRead_waits hmay 0)
  case next => exact congrArg Host.Outcome.next (State.endSection_next hsent hretag hblock last)
  case ends => exact congrArg Host.Outcome.next (State.endSection_ends hsent hretag hends false)
  case prologue =>
    have hrun : s.endSection c once true last none = s.endPrologue c := State.endSection_runs hsent hretag once true last
    exact ⟨_, congrArg Host.Outcome.next hrun, State.endPrologue_only s c, s.endPrologue_prologue c⟩
  case formed =>
    have hformed := State.finishRecord_formed ((congrArg Ctx.item hrewound).trans hitem) ((congrArg Ctx.wcopy hrewound).trans hcopy)
    rw [hrewound, churn_setCtx] at hformed
    exact ⟨_, congrArg Host.Outcome.next (State.endSection_ends hsent hretag hends true), hformed⟩
  case leaves =>
    obtain ⟨u, honly, hleaves⟩ := State.finishRecord_leaves ((congrArg Ctx.item hrewound).trans hitem) ((congrArg Ctx.wcopy hrewound).trans hcopy)
      (by rw [ctxs_setCtx_one hctxs, hrewound]) (by rw [churn_setCtx]; exact hfault) (by rw [hrewound, churn_setCtx]; exact hpassed)
    rw [hrewound] at hleaves
    exact ⟨_, u, congrArg Host.Outcome.next (State.endSection_ends hsent hretag hends true), (State.setCtx_only _ _ _).trans honly, hleaves⟩
  case checked =>
    obtain ⟨hlast, k, hctx⟩ := State.recompute_first hfailures (unitCode u)
    refine ⟨_, congrArg Host.Outcome.next (State.endSection_checked hsent hretag once prologue last u), hlast, ?_⟩
    rw [hctx]
    exact ⟨rfl, rfl, rfl, rfl, rfl, rfl⟩
  case verified =>
    refine ⟨_, rfl, (State.recordVerified_only _ _ _).mono rfl, ?_, ?_, ?_, ?_⟩
    · exact congrArg (fun m => NMap.find? m n) (State.recordVerified_ctxs hfault hverified hholding hitem hskip hresume)
    · exact State.recordVerified_v hfault hverified hholding hitem hskip hresume
    · exact State.recordVerified_sums hfault hverified hholding hitem hskip hresume
    · exact State.recordVerified_swept hfault hverified hholding hitem hskip
  case sound => exact congrArg Host.Outcome.next (if_pos (by rw [hfault]; rfl))
  case taken => exact ⟨_, rfl, State.takeover_taken hfault hleft htake hbusy⟩
  case sweepLost =>
    refine ⟨_, congrArg Host.Outcome.next (State.takeover_lost hfault hleft htake), State.sweepLost_facts ?_ ?_⟩
    · rw [countedFault_once]
      exact honce
    · exact (jobRuns_of (State.countedFault_only _ _)).trans hruns

end Sys2Proof.Machine
end

section
/-! SUPPORT and CLAIM. Attention rows (R224, R231 to R233): what ATTEND and ATTEND_BACK leave before they write their results, which slots
they use, and the obligation about them. -/

-- Checked one theorem at a time: the package as one text then needs less memory.
set_option Elab.async false

namespace Sys2Proof.Machine

/-! ## Slots (R231) -/

/-- A slot rests on the accumulators. -/
theorem slot_of {m : List Part} {s t : State} (o : Only m s t) (n : StageId) (k : Nat) (h : m.contains .acc = false := by rfl) :
    t.slot n k = s.slot n k := by
  unfold State.slot
  rw [o.get .acc h]

/-- The products of a command stand in its slot alone. -/
theorem State.leaveSlot_others (s : State) (l : LineId) (i : AttendInstr) (a : Tally) {n : StageId} {k : Nat} (hk : k < 32)
    (h : n ≠ attendStage l i ∨ k ≠ i.slot.val) : (s.leaveSlot l i a).slot n k = s.slot n k := by
  unfold State.leaveSlot
  split
  · rw [slot_setSlot _ _ _ _ _ _ i.slot.isLt hk, if_neg (by tauto)]
  · rfl

/-! ## ATTEND (R232) -/

/-- What ATTEND leaves before it writes to the tile store: the row's running state, its counts and its products. -/
def State.attended (s : State) (l : LineId) (i : AttendInstr) : State :=
  let r := s.attendRow l.tile.val i
  (({ s with attn := NMap.insert s.attn i.row r.1 } : State).tally l i (r.2.append { signals := r.1.outputs.map (·.2) })).leaveSlot l i r.2

/-- ATTEND writes what phase 4 needs of the row, and then its outputs. -/
theorem State.attend_eq (s : State) (l : LineId) (i : AttendInstr) : s.attend l i =
    ((s.attended l i).tileWrite l.tile.val i.kept (elementBytes 4 [(s.attendRow l.tile.val i).1.m.toNat, (s.attendRow l.tile.val i).1.l.toNat])).tileWrite
      l.tile.val i.out (elementBytes 4 ((s.attendRow l.tile.val i).1.outputs.map (·.1))) := rfl

/-- The running state of a row is one of the attention rows. -/
theorem State.setAttn_only (s : State) (x : NMap AttnState) : Only [.attn] s { s with attn := x } := by
  refine Only.lit (Only.refl _) ?_
  intro p
  cases p <;> first | exact .inl (by decide) | exact .inr (by (repeat' apply And.intro) <;> rfl)

section
variable (s : State) (l : LineId) (i : AttendInstr)

theorem State.attended_only : Only [.acc, .attn, .stats, .tel, .watch, .events] s (s.attended l i) :=
  Only.of (State.leaveSlot_only _ _ _ _) rfl (Only.of (State.tally_only _ _ _ _) rfl ((State.setAttn_only _ _).mono rfl))

/-- The rows' running states: that of the command's row, and the others as before. -/
theorem State.attended_attn : (s.attended l i).attn = NMap.insert s.attn i.row (s.attendRow l.tile.val i).1 :=
  Only.get (Only.of (m := [.acc]) (n := [.acc, .stats, .tel, .watch, .events]) (State.leaveSlot_only _ _ _ _) rfl
    ((State.tally_only _ _ _ _).mono rfl)) .attn

/-- No slot but the one that the command names is changed. -/
theorem State.attended_others {n : StageId} {k : Nat} (hk : k < 32) (h : n ≠ attendStage l i ∨ k ≠ i.slot.val) :
    (s.attended l i).slot n k = s.slot n k :=
  (State.leaveSlot_others _ l i _ hk h).trans (slot_of (Only.of (State.tally_only _ _ _ _) rfl ((State.setAttn_only _ _).mono rfl)
    : Only [.attn, .stats, .tel, .watch, .events] s _) n k)

/-- As many outputs as the row has dimensions. -/
theorem State.attendRow_outputs : ((s.attendRow l.tile.val i).1.outputs.map (·.1)).length = i.dh := by
  rw [List.length_map, AttnState.outputs, List.length_map, (attendRow_facts s l.tile.val i).2]

end

/-- The two words kept of a row. -/
theorem elementBytes_two (w a b : Nat) : elementBytes w [a, b] = leBytes w a ++ leBytes w b := by
  simp [elementBytes]

/-- What ATTEND leaves of the tile store: the outputs, what phase 4 needs, and every other byte. -/
theorem State.attend_tiles {s : State} (h : s.memoryCanonical) (l : LineId) (i : AttendInstr) :
    (s.attend l i).tileRead l.tile.val i.out (4 * i.dh) = elementBytes 4 ((s.attendRow l.tile.val i).1.outputs.map (·.1))
    ∧ (i.kept + 8 ≤ i.out ∨ i.out + 4 * i.dh ≤ i.kept → (s.attend l i).tileRead l.tile.val i.kept 8 =
        leBytes 4 (s.attendRow l.tile.val i).1.m.toNat ++ leBytes 4 (s.attendRow l.tile.val i).1.l.toNat)
    ∧ ∀ a, (a < tileAddr l.tile.val i.out ∨ tileAddr l.tile.val i.out + 4 * i.dh ≤ a) →
        (a < tileAddr l.tile.val i.kept ∨ tileAddr l.tile.val i.kept + 8 ≤ a) →
        Memory.read (s.attend l i).mem.tiles a = Memory.read s.mem.tiles a := by
  have hmem := (s.attended_only l i).mem
  obtain ⟨hkept, hfirst⟩ := tileWrite_after hmem h l.tile.val i.kept
    (elementBytes 4 [(s.attendRow l.tile.val i).1.m.toNat, (s.attendRow l.tile.val i).1.l.toNat])
  obtain ⟨hout, hsecond⟩ := tileWrite_facts _ (memoryCanonical_tileWrite (memoryCanonical_of_mem hmem h) l.tile.val i.kept
    (elementBytes 4 [(s.attendRow l.tile.val i).1.m.toNat, (s.attendRow l.tile.val i).1.l.toNat])) l.tile.val i.out
    (elementBytes 4 ((s.attendRow l.tile.val i).1.outputs.map (·.1)))
  rw [elementBytes_length] at hkept hfirst
  rw [elementBytes_length, s.attendRow_outputs l i] at hout hsecond
  rw [State.attend_eq]
  refine ⟨hout, fun hapart => ?_, fun a ha hb => (hsecond a ha).trans (hfirst a hb)⟩
  exact (tileRead_outside hsecond hapart).trans (hkept.trans (elementBytes_two _ _ _))

/-! ## ATTEND_BACK (R233) -/

/-- Every sub-block of the combine order is cut from one of the command's, of the same window block or of the own one. -/
theorem combineOrder_block {i : AttendInstr} {b : SubBlock} (h : b ∈ combineOrder i) : ∃ c ∈ i.subs, b.block = c.block := by
  obtain ⟨c, hc, hcut⟩ := List.mem_flatMap.mp (List.mem_mergeSort.mp h)
  obtain ⟨j, -, rfl⟩ := List.mem_map.mp hcut
  exact ⟨c, hc, rfl⟩

/-- The READ of a query's gradient. -/
def dqReads (i : AttendInstr) (x : Slot) : List (Nat × Flags) := readRows x i.dh i.smScale.toNat

/-- What ATTEND_BACK leaves before it writes to the tile store: its counts and its two slots. -/
def State.attendedBack (s : State) (l : LineId) (i : AttendInstr) : State :=
  let gs := s.attnGrads l.tile.val i
  let x := s.dqOf l.tile.val i gs.1
  ((s.tally l i (gs.2.append { signals := (dqReads i x).map (·.2), reads := [x] })).leaveSlot l i gs.2).setSlot
    (attendStage l i) i.dqSlot.val x

/-- The gradients of the own block's keys and values, added into their entries one position after another. -/
def State.ownGrads (s : State) (tile : Nat) (i : AttendInstr) (gs : List AttnGrad) : State :=
  gs.foldl (fun (st : State) g => if g.sub.block.isNone then st.ownGrad tile i (g.sub.first + g.pos) g.p g.ds else st) s

section
variable (s : State) (l : LineId) (i : AttendInstr)

/-- ATTEND_BACK adds the own block's gradients, and then writes the query's. -/
theorem State.attendBack_eq : s.attendBack l i =
    ((s.attendedBack l i).ownGrads l.tile.val i (s.attnGrads l.tile.val i).1).tileWrite l.tile.val i.dq
      (elementBytes 4 ((dqReads i (s.dqOf l.tile.val i (s.attnGrads l.tile.val i).1)).map (·.1))) := rfl

theorem State.attendedBack_only : Only [.acc, .stats, .tel, .watch, .events] s (s.attendedBack l i) :=
  Only.of (State.setSlot_only _ _ _ _) rfl (Only.of (State.leaveSlot_only _ _ _ _) rfl ((State.tally_only _ _ _ _).mono rfl))

/-- The slot of the query's gradient. -/
theorem State.attendedBack_dq : (s.attendedBack l i).slot (attendStage l i) i.dqSlot.val =
    s.dqOf l.tile.val i (s.attnGrads l.tile.val i).1 :=
  (slot_setSlot _ _ _ _ _ _ i.dqSlot.isLt i.dqSlot.isLt).trans (if_pos ⟨rfl, rfl⟩)

/-- No slot but the two that the command names is changed. -/
theorem State.attendedBack_others {n : StageId} {k : Nat} (hk : k < 32)
    (h : n ≠ attendStage l i ∨ (k ≠ i.slot.val ∧ k ≠ i.dqSlot.val)) : (s.attendedBack l i).slot n k = s.slot n k :=
  (slot_setSlot _ _ _ _ _ _ i.dqSlot.isLt hk).trans ((if_neg (by tauto)).trans
    ((State.leaveSlot_others _ l i _ hk (by tauto)).trans (slot_of (State.tally_only _ _ _ _) n k)))

end

theorem State.ownGrads_only (s : State) (tile : Nat) (i : AttendInstr) (gs : List AttnGrad) : Only [.tiles] s (s.ownGrads tile i gs) :=
  Only.foldl (fun _ _ => Only.ite (fun _ => State.ownGrad_only _ _ _ _ _ _) (fun _ => Only.refl _)) _ _

/-- Without an own block no key or value gains a gradient. -/
theorem State.ownGrads_window (s u : State) (tile : Nat) {i : AttendInstr} (h : ∀ b ∈ i.subs, b.block.isSome = true) :
    u.ownGrads tile i (s.attnGrads tile i).1 = u := by
  refine foldl_noOwn u tile i _ fun g hg => ?_
  obtain ⟨c, hc, hblock⟩ := combineOrder_block (attnGrads_subs s tile i g hg)
  rw [hblock, ← Option.not_isSome, h c hc]
  rfl

/-- What ATTEND_BACK leaves of the tile store: the query's gradient, and, without an own block, every other byte. -/
theorem State.attendBack_tiles {s : State} (h : s.memoryCanonical) (l : LineId) (i : AttendInstr) :
    (s.attendBack l i).tileRead l.tile.val i.dq (4 * i.dh) = elementBytes 4
        ((dqReads i (s.dqOf l.tile.val i (s.attnGrads l.tile.val i).1)).map (·.1))
    ∧ ((∀ b ∈ i.subs, b.block.isSome = true) → s.tilesKept (s.attendBack l i) l.tile.val i.dq (4 * i.dh)) := by
  have hmem := (s.attendedBack_only l i).mem
  obtain ⟨hread, hkept⟩ := tileWrite_facts _ (wf_ownGrads (s.attendedBack l i) l.tile.val i (s.attnGrads l.tile.val i).1
    (memoryCanonical_of_mem hmem h)) l.tile.val i.dq
    (elementBytes 4 ((dqReads i (s.dqOf l.tile.val i (s.attnGrads l.tile.val i).1)).map (·.1)))
  rw [elementBytes_length, List.length_map, dqReads, readRows_length] at hread hkept
  refine ⟨hread, fun hwindow a ha => (hkept a ha).trans ?_⟩
  show Memory.read ((s.attendedBack l i).ownGrads l.tile.val i (s.attnGrads l.tile.val i).1).mem.tiles a = _
  rw [State.ownGrads_window s _ _ hwindow, hmem]

/-! ## The obligation -/

/-- Settles O31: each command is what it leaves outside the tile store, followed by the writes of its results. Log 40 has which part of a
binary32 operand the backward pass multiplies. -/
theorem attentionRows : Obligations.AttentionRows := by
  intro s l i hs
  refine ⟨fun hrange => ⟨_, (exec_attend l i s).trans (if_pos hrange), (State.attend_only s l i).mono rfl, ?_⟩,
    fun hrange => ⟨_, (exec_attendBack l i s).trans (if_pos hrange), (State.attendBack_only s l i).mono rfl, ?_⟩⟩
  · obtain ⟨hout, hkept, hrest⟩ := State.attend_tiles hs.memory l i
    have hattn : (s.attend l i).attn = NMap.insert s.attn i.row (s.attendRow l.tile.val i).1 := s.attended_attn l i
    have hrow : NMap.getD (s.attend l i).attn i.row {} = (s.attendRow l.tile.val i).1 := by
      rw [hattn, NMap.getD_insert, if_pos rfl]
    rw [hrow]
    refine ⟨(attendRow_facts s l.tile.val i).1, fun r hr => ?_, fun n k hk h => s.attended_others l i hk h, ?_, hkept, hrest⟩
    · rw [hattn, NMap.getD_insert, if_neg (Ne.symm hr)]
    · rw [hout, AttnState.outputs, List.map_map]
      rfl
  · obtain ⟨hdq, hkept⟩ := State.attendBack_tiles hs.memory l i
    have hslots : ∀ n k, (s.attendBack l i).slot n k = (s.attendedBack l i).slot n k := fun n k =>
      slot_of ((State.ownGrads_only _ l.tile.val i _).trans (State.tileWrite_only _ _ _ _)) n k
    refine ⟨hdq, (hslots _ _).trans (s.attendedBack_dq l i), fun n k hk h => (hslots n k).trans (s.attendedBack_others l i hk h), hkept⟩

end Sys2Proof.Machine
end

section
/-! SUPPORT and CLAIM. RING_PASS (R216, R229, R230): the ways that a pass of a history block goes, and the obligation about them. -/

-- Checked one theorem at a time: the package as one text then needs less memory.
set_option Elab.async false

namespace Sys2Proof.Machine

/-! ## The ways of a pass (R229) -/

section
variable {s : State} {p : Nat} {h : Bytes} {user layer b tile addr : Nat}

/-- A block without window positions moves nothing (R216). -/
theorem State.ringPass_empty (hempty : s.windowPositions h user b = 0) : s.ringPass p h user layer b tile addr = s := if_pos hempty

/-- The holder sends its own block in every pass but pass 0. -/
theorem State.ringPass_holder (hfull : s.windowPositions h user b ≠ 0) (hholder : holderOf s.penSize user b = s.penPos) (hp : p ≠ 0) :
    s.ringPass p h user layer b tile addr = s.ringSend p h user layer b :=
  (if_neg hfull).trans ((if_pos hholder).trans (if_neg hp))

/-- A module that neither holds the block nor stands p positions behind its holder has no part in the pass. -/
theorem State.ringPass_apart (hfull : s.windowPositions h user b ≠ 0) (hholder : holderOf s.penSize user b ≠ s.penPos)
    (hplace : (holderOf s.penSize user b + p) % s.penSize ≠ s.penPos) : s.ringPass p h user layer b tile addr = s :=
  (if_neg hfull).trans ((if_neg hholder).trans (if_neg hplace))

/-- The module p positions behind the holder consumes the block and places it; a tag that does not stand is reported (R230). -/
theorem State.ringPass_receiver (hfull : s.windowPositions h user b ≠ 0) (hholder : holderOf s.penSize user b ≠ s.penPos)
    (hplace : (holderOf s.penSize user b + p) % s.penSize = s.penPos) {m : Msg}
    (hnext : s.nextFrom (s.me / 8 * 8 + holderOf s.penSize user b) .ring = some m) :
    s.ringPass p h user layer b tile addr =
      ((s.consumed (s.me / 8 * 8 + holderOf s.penSize user b) .ring).ringPlace h user layer b tile addr (unitExchange tile) m.tagged).ringReport
        (s.ringSkew h user layer b m.tagged) false (unitExchange tile) := by
  unfold State.ringPass
  rw [if_neg hfull, if_neg hholder, if_pos hplace]
  simp only [hnext]

/-! ## Sending (R229) -/

/-- A block whose turn has not come stays. -/
theorem State.ringSend_waits (hturn : s.ringNext p [layer, field h 0 2, user, b] = none) : s.ringSend p h user layer b = s := by
  unfold State.ringSend
  simp only [hturn]

/-- A state whose pass p has sent the block of a record last. -/
def State.ringSent (s : State) (p : Nat) (k : List Nat) : State := { s with hist.ringSent := NMap.insert s.hist.ringSent p k }

/-- A block whose turn has come is read and sent as the next message to the module p positions on. -/
theorem State.ringSend_sends {k : List Nat} (hturn : s.ringNext p [layer, field h 0 2, user, b] = some k) :
    s.ringSend p h user layer b = ((s.ringRead h user layer b).1.ringSent p k).sendNext
      (s.me / 8 * 8 + (s.penPos + p) % s.penSize) .ring (s.ringRead h user layer b).2 := by
  unfold State.ringSend
  simp only [hturn]
  rfl

/-- What a sent block leaves: its units in the send log, the next number, the record of its turn, and the tile stores. -/
theorem State.ringSend_facts {k : List Nat} (hturn : s.ringNext p [layer, field h 0 2, user, b] = some k)
    (hfab : (s.ringRead h user layer b).1.fab = s.fab) (hunits : (s.ringRead h user layer b).2 ≠ []) {n : Nat}
    (hcount : NMap.getD s.fab.sentNo (countKey (s.me / 8 * 8 + (s.penPos + p) % s.penSize) .ring) 0 = n)
    (hunsent : s.unsent (s.me / 8 * 8 + (s.penPos + p) % s.penSize) .ring n) :
    (s.ringSend p h user layer b).fab.sendLog = s.fab.sendLog
        ++ sendEntries (s.me / 8 * 8 + (s.penPos + p) % s.penSize) .ring n (s.ringRead h user layer b).2
    ∧ NMap.getD (s.ringSend p h user layer b).fab.sentNo (countKey (s.me / 8 * 8 + (s.penPos + p) % s.penSize) .ring) 0 = n + 1
    ∧ (s.ringSend p h user layer b).hist.ringSent = NMap.insert (s.ringRead h user layer b).1.hist.ringSent p k
    ∧ (s.ringSend p h user layer b).mem.tiles = s.mem.tiles := by
  have hfabSent : ((s.ringRead h user layer b).1.ringSent p k).fab = s.fab := hfab
  obtain ⟨honly, hlog, hnumber⟩ := sendNext_fresh ((s.ringRead h user layer b).1.ringSent p k)
    (s.me / 8 * 8 + (s.penPos + p) % s.penSize) .ring (s.ringRead h user layer b).2 n (by rw [hfabSent, hcount])
    (by unfold State.unsent; rw [hfabSent]; exact hunsent) hunits
  rw [State.ringSend_sends hturn]
  refine ⟨hlog.trans (by rw [hfabSent]), hnumber, congrArg HistState.ringSent (honly.get .hist), (honly.get .tiles).1.trans ?_⟩
  exact ((State.ringRead_only s h user layer b).get .tiles).1

/-! ## Receiving (R230) -/

/-- The tags of every check block of a received history block stand. -/
def State.ringStands (s : State) (h : Bytes) (user layer b : Nat) (us : List (Bytes × Word)) : Prop :=
  ∀ v, v < 2 → ∀ i, i < ringBlocks h (s.windowPositions h user b) 0 →
    (ringUnit us (v * ringBlocks h (s.windowPositions h user b) 0 + i)).2 = partTag h s.penSize user b layer v i
    ∧ (ringUnit us (2 * ringBlocks h (s.windowPositions h user b) 0 + v * ringBlocks h (s.windowPositions h user b) 2 + i / 32)).2
        = partTag h s.penSize user b layer (2 + v) (i / 32)

/-- Where every tag stands, nothing is reported. -/
theorem State.ringSkew_stands {us : List (Bytes × Word)} (hstands : s.ringStands h user layer b us) :
    s.ringSkew h user layer b us = false := by
  unfold State.ringSkew
  simp only [List.any_eq_false, List.mem_range]
  rintro v hv hskew
  obtain ⟨i, hi, hbad⟩ := List.any_eq_true.mp hskew
  rw [ringGood, decide_eq_true (hstands v hv i (List.mem_range.mp hi))] at hbad
  exact absurd hbad (by decide)

/-- A consumed message is counted. -/
theorem State.consumed_got (s : State) (src : Nat) (k : MsgKind) :
    NMap.getD (s.consumed src k).fab.gotNo (countKey src k) 0 = NMap.getD s.fab.gotNo (countKey src k) 0 + 1 := by
  unfold State.consumed
  rw [NMap.getD_modify, if_pos rfl]

/-- A block that arrives with every tag standing is consumed and widened. -/
theorem State.ringPass_receives (hfull : s.windowPositions h user b ≠ 0)
    (hholder : holderOf s.penSize user b ≠ s.penPos) (hplace : (holderOf s.penSize user b + p) % s.penSize = s.penPos) {m : Msg}
    (hnext : s.nextFrom (s.me / 8 * 8 + holderOf s.penSize user b) .ring = some m) (hstands : s.ringStands h user layer b m.tagged) :
    s.ringPass p h user layer b tile addr =
      (s.consumed (s.me / 8 * 8 + holderOf s.penSize user b) .ring).ringPlace h user layer b tile addr (unitExchange tile) m.tagged := by
  rw [State.ringPass_receiver hfull hholder hplace hnext, State.ringSkew_stands hstands]
  rfl

end

/-! ## The obligation -/

/-- Settles O36: each way of a pass by its equation above, a sent block by the send log and a received one by what placing it leaves. The
turn of a block (`State.ringNext`) is the model's choice (log 45). -/
theorem historyPasses : Obligations.HistoryPasses := by
  intro s p set user layer block tile addr h hs hset hrange
  have hexec := exec_ring p set user layer block tile addr s h hset hrange
  refine ⟨fun hempty => ?_, fun hfull hholder hp hturn => ?_, fun n k hfull hholder hp hturn hfab hunits _ hcount hunsent => ?_,
    fun m hfull hholder hplace hnext hstands => ?_, fun hfull hholder hplace => ?_⟩
  · rw [hexec, State.ringPass_empty hempty]
  · rw [hexec, State.ringPass_holder hfull hholder hp, State.ringSend_waits hturn]
  · exact ⟨_, hexec.trans (congrArg Host.Outcome.next (State.ringPass_holder hfull hholder hp)),
      State.ringSend_facts hturn hfab hunits hcount hunsent⟩
  · obtain ⟨honly, hkept, hwidened⟩ := ringPlace_facts (s.consumed (s.me / 8 * 8 + holderOf s.penSize user block) .ring) hs.memory h user
      layer block tile.val addr (unitExchange tile.val) m.tagged hstands
    refine ⟨_, hexec.trans (congrArg Host.Outcome.next (State.ringPass_receives hfull hholder hplace hnext hstands)),
      Only.of honly rfl ((State.consumed_only _ _ _).mono rfl), hkept, ?_, hwidened⟩
    rw [honly.fab.2.2, State.consumed_got]
  · rw [hexec, State.ringPass_apart hfull hholder hplace]

end Sys2Proof.Machine
end

section
/-! SUPPORT and CLAIM. The append exchange, replica digests, the witness, RESEND and the watchdog (R226, R251, R385 to R388, R391, R393,
R395): one law for each way that a command goes, and the obligation about them. -/

-- Checked one theorem at a time: the package as one text then needs less memory.
set_option Elab.async false

namespace Sys2Proof.Machine

/-! ## Events that halt -/

/-- An event that halts is raised, and the job halts at the next tick when one runs. -/
theorem State.raiseHalt_facts (s : State) (code : Nat) (unit : Half) (ident qty : Nat) :
    Raised (BitVec.ofNat 16 code) unit s (s.raiseHalt code unit ident qty)
    ∧ (s.raiseHalt code unit ident qty).seq = { s.seq with haltPending := s.seq.haltPending || s.jobRuns } := by
  refine ⟨Raised.of_raise s code unit ident qty true, ?_⟩
  unfold State.raiseHalt State.haltNext State.jobRuns
  rw [raise_seq]

/-! ## APPEND_DONE (R226) -/

section
variable {s : State} {pos : Nat}

/-- What keeps an APPEND_DONE from counting: the records are written, the module has been counted, it is none of the pen, or it is this
one before its own writes are done. -/
theorem State.appendDone_still (h : s.hist.written = true ∨ s.hist.doneFrom.contains pos = true ∨ s.penSize ≤ pos
    ∨ (pos = s.penPos ∧ s.hist.doneSent = false)) (n : Nat) : s.appendDone pos n = s :=
  if_pos (by simpa [or_assoc] using h)

/-- A state that has counted a module's APPEND_DONE. -/
def State.doneCounted (s : State) (pos : Nat) : State := { s with hist.doneFrom := pos :: s.hist.doneFrom }

variable (hwritten : s.hist.written = false) (hnew : s.hist.doneFrom.contains pos = false) (hpos : pos < s.penSize)
  (hown : pos ≠ s.penPos ∨ s.hist.doneSent = true)
include hwritten hnew hpos hown

/-- An APPEND_DONE that counts; the last one of the pen lets the user records be written. -/
theorem State.appendDone_counts (n : Nat) : s.appendDone pos n =
    if s.hist.doneFrom.length + 1 = s.penSize then (s.doneCounted pos).writeUsers n else s.doneCounted pos := by
  refine if_neg ?_
  simp only [hwritten, hnew, Bool.false_or, Bool.or_eq_true, decide_eq_true_eq, Bool.and_eq_true, beq_iff_eq, Bool.not_eq_true']
  rintro (h | ⟨h, hsent⟩)
  · omega
  · exact hown.elim (absurd h) (fun hs => absurd (hs.symm.trans hsent) (by decide))

end

/-- Writing the user records marks them written, and leaves the rest of the step's histories. -/
theorem State.writeUsers_hist (s : State) (n : Nat) : (s.writeUsers n).hist = { s.hist with written := true } :=
  congrArg (fun x : HistState => { x with written := true })
    ((Only.foldl (fun t u => State.writeUser_only t u.1 (if u.2 = 0 then n else 0)) s.touchedUsers.zipIdx s).get .hist)

/-! ## DIGEST_COMPARE (R251, R252) -/

/-- A watch record rests on the watch. -/
theorem watchOf_of {m : List Part} {s t : State} (o : Only m s t) (k : Nat) (h : m.contains .watch = false := by rfl) :
    t.watchOf k = s.watchOf k := by
  unfold State.watchOf
  rw [o.get .watch h]

/-- FLAGS[6] set. -/
theorem bit_or_diverge (f : Byte) : bit 6 (f ||| 0x40).toNat = true := by
  revert f; decide

section
variable {s : State} {m tensor : Nat} {d : BitVec 256}

/-- A digest is of no use without one of this module, from a module outside the group, and when one of its sender is held. -/
theorem State.digestCompare_still (h : (s.watchOf (watchKey 1 tensor)).digest = none ∨ s.digestPeers.contains m = false
    ∨ (s.watchOf (watchKey 1 tensor)).peers.any (fun p => p.1 == m) = true) : s.digestCompare m tensor d = s := by
  unfold State.digestCompare
  simp only []
  split
  · rfl
  · rename_i own hown
    refine if_pos ?_
    rcases h with h | h | h
    · rw [h] at hown
      cases hown
    · rw [h]
      rfl
    · rw [h, Bool.or_true]

/-- Whether a digest is that of this module and of every one held. -/
def State.digestAgrees (s : State) (tensor : Nat) (own d : BitVec 256) : Bool :=
  own == d && (s.watchOf (watchKey 1 tensor)).peers.all (fun p => p.2 == d)

/-- A state that holds a module's digest, with its outcome in the records due. -/
def State.digestHeld (s : State) (m tensor : Nat) (own : BitVec 256 × BitVec 48) (d : BitVec 256) : State :=
  (s.setWatch (watchKey 1 tensor) (fun w => { w with peers := w.peers ++ [(m, d)] })).patchDue own.2 tensor (s.digestAgrees tensor own.1 d)

theorem State.digestHeld_watch (own : BitVec 256 × BitVec 48) : (s.digestHeld m tensor own d).watchOf (watchKey 1 tensor) =
    { s.watchOf (watchKey 1 tensor) with peers := (s.watchOf (watchKey 1 tensor)).peers ++ [(m, d)] } :=
  (watchOf_setWatch s _ _ _).trans (if_pos rfl)

/-- What DIVERGE leaves: FLAGS[6] set in the tensor's record, the event, and a halt at the next tick. -/
theorem State.diverge_facts (s : State) (tensor : Nat) :
    (s.diverge tensor).watchOf (watchKey 1 tensor) =
      { s.watchOf (watchKey 1 tensor) with flags := (s.watchOf (watchKey 1 tensor)).flags ||| 0x40 }
    ∧ (s.diverge tensor).lastEvent = some 0x2306 ∧ (s.diverge tensor).seq.haltPending = (s.seq.haltPending || s.jobRuns) := by
  obtain ⟨hraised, hseq⟩ := State.raiseHalt_facts
    (s.setWatch (watchKey 1 tensor) (fun w => { w with flags := w.flags ||| 0x40 })) 0x2306 0 tensor 0
  refine ⟨?_, raised_last hraised, congrArg SeqState.haltPending hseq⟩
  exact (watchOf_of (State.raiseHalt_only _ _ _ _ _) _).trans ((watchOf_setWatch s _ _ _).trans (if_pos rfl))

variable {own : BitVec 256 × BitVec 48} (hown : (s.watchOf (watchKey 1 tensor)).digest = some own)
  (hpeer : s.digestPeers.contains m = true) (hnew : (s.watchOf (watchKey 1 tensor)).peers.any (fun p => p.1 == m) = false)
include hown hpeer hnew

/-- A digest of the group is held and compared. -/
theorem State.digestCompare_held :
    s.digestCompare m tensor d =
      if !s.digestAgrees tensor own.1 d && !bit 6 (s.watchOf (watchKey 1 tensor)).flags.toNat then (s.digestHeld m tensor own d).diverge tensor
      else s.digestHeld m tensor own d := by
  unfold State.digestCompare
  simp only [hown, hpeer, hnew, Bool.not_true, Bool.or_false, Bool.false_eq_true, if_false]
  rfl

/-- A digest that is compared is held, whatever the outcome. -/
theorem State.digestCompare_peers :
    ((s.digestCompare m tensor d).watchOf (watchKey 1 tensor)).peers = (s.watchOf (watchKey 1 tensor)).peers ++ [(m, d)] := by
  rw [State.digestCompare_held hown hpeer hnew]
  split
  · rw [(State.diverge_facts _ _).1, State.digestHeld_watch]
  · rw [State.digestHeld_watch]

/-- A digest that agrees raises nothing and halts nothing. -/
theorem State.digestCompare_agrees (hsame : own.1 = d) (hall : ∀ p ∈ (s.watchOf (watchKey 1 tensor)).peers, p.2 = d) :
    (s.digestCompare m tensor d).events = s.events ∧ (s.digestCompare m tensor d).seq.haltPending = s.seq.haltPending := by
  have hagrees : s.digestAgrees tensor own.1 d = true := by
    simpa [State.digestAgrees, hsame] using fun a b h => hall (a, b) h
  rw [State.digestCompare_held hown hpeer hnew, hagrees]
  exact ⟨rfl, rfl⟩

/-- A digest that differs from this module's diverges, once. -/
theorem State.digestCompare_differs (hdiffers : own.1 ≠ d) (hfirst : bit 6 (s.watchOf (watchKey 1 tensor)).flags.toNat = false) :
    (s.digestCompare m tensor d).lastEvent = some 0x2306
    ∧ bit 6 ((s.digestCompare m tensor d).watchOf (watchKey 1 tensor)).flags.toNat = true
    ∧ (s.digestCompare m tensor d).seq.haltPending = (s.seq.haltPending || s.jobRuns) := by
  have hagrees : s.digestAgrees tensor own.1 d = false := by simp [State.digestAgrees, hdiffers]
  rw [State.digestCompare_held hown hpeer hnew, hagrees, hfirst]
  obtain ⟨hwatch, hlast, hhalt⟩ := State.diverge_facts (s.digestHeld m tensor own d) tensor
  refine ⟨hlast, ?_, hhalt⟩
  rw [show (!false && !false) = true from rfl, if_pos rfl, hwatch]
  exact bit_or_diverge _

end

/-! ## The witness (R385, R387) -/

/-- A verdict is put out behind what is out. -/
theorem State.sendVerdict_out (s : State) (m : Nat) (ok : Bool) (r : Bytes) :
    s.out ++ [.message m MsgKind.witnessResult.code (leBytes 1 (b2n ok))] <+: (s.sendVerdict m ok r).out := by
  unfold State.sendVerdict
  simp only []
  split
  · exact (prefix_message s m .witnessResult _).trans (prefix_transmit _ _ _)
  · exact prefix_message s m .witnessResult _

/-- What a verdict leaves of the requests and of what is out. -/
theorem State.sendVerdict_facts {s u : State} (hout : u.out = s.out) (m : Nat) (ok : Bool) (r : Bytes) :
    (u.sendVerdict m ok r).rel.witnessReqs = u.rel.witnessReqs ∧ (u.sendVerdict m ok r).rel.served = u.rel.served
    ∧ s.out ++ [.message m MsgKind.witnessResult.code (leBytes 1 (b2n ok))] <+: (u.sendVerdict m ok r).out := by
  obtain ⟨-, -, hserved, hreqs⟩ := (State.sendVerdict_only u m ok r).get .rel
  exact ⟨hreqs, hserved, hout ▸ State.sendVerdict_out u m ok r⟩

/-- A state with other witness requests waiting. -/
def State.setRequests (s : State) (rs : List (BitVec 12 × BitVec 48)) : State := { s with rel.witnessReqs := rs }

theorem State.setRequests_only (s : State) (rs : List (BitVec 12 × BitVec 48)) : Only [.rel] s (s.setRequests rs) := by
  refine Only.lit (Only.refl _) ?_
  intro p
  cases p <;> first | exact .inl (by decide) | exact .inr (by (repeat' apply And.intro) <;> rfl)

section
variable {s : State} {m : BitVec 12}

/-- A request is passed over without a job, for another step, and when one of its sender waits. -/
theorem State.witnessReq_still {n : BitVec 48} (h : s.jobRuns = false ∨ n ≠ s.seq.step ∨ s.rel.witnessReqs.any (fun q => q.1 == m) = true) :
    s.witnessReq m n = s :=
  if_pos (by simpa [or_assoc] using h)

variable (hruns : s.jobRuns = true) (hnew : s.rel.witnessReqs.any (fun q => q.1 == m) = false)
include hruns hnew

/-- A request for the step is refused when the step is suspect here too; else it waits its turn. -/
theorem State.witnessReq_heard : s.witnessReq m s.seq.step =
    if s.seq.replay.suspect then s.sendVerdict m.toNat false [] else
      (s.setRequests ((s.rel.witnessReqs ++ [(m, s.seq.step)]).mergeSort (fun a b => decide (a.1.toNat ≤ b.1.toNat)))).flagWitness
        s.seq.step :=
  if_neg (by simp [hruns, hnew])

/-- A request that waits: ascending by requester, and the step's record will say so. -/
theorem State.witnessReq_waits (hsuspect : s.seq.replay.suspect = false) : Only [.stats, .seq, .rel] s (s.witnessReq m s.seq.step)
    ∧ (s.witnessReq m s.seq.step).rel.witnessReqs.Perm (s.rel.witnessReqs ++ [(m, s.seq.step)])
    ∧ (s.witnessReq m s.seq.step).rel.witnessReqs.Pairwise (fun a b => a.1.toNat ≤ b.1.toNat)
    ∧ (s.witnessReq m s.seq.step).seq.stats.witness = true := by
  rw [State.witnessReq_heard hruns hnew, if_neg (ne_true_of_eq_false hsuspect)]
  refine ⟨Only.of (State.flagWitness_only _ _) rfl ((State.setRequests_only _ _).mono rfl), List.mergeSort_perm _ _, ?_, ?_⟩
  · refine (List.pairwise_mergeSort (fun a b c hab hbc => ?_) (fun a b => ?_) _).imp of_decide_eq_true
    · exact decide_eq_true ((of_decide_eq_true hab).trans (of_decide_eq_true hbc))
    · simpa using Nat.le_total _ _
  · have hflag : (s.seq.stats.witness || (decide (s.seq.step = s.seq.step) && s.jobRuns)) = true := by simp [hruns]
    exact hflag

end

/-- A witness's own check faults, counted one after another. -/
def State.faultsCounted (s : State) (fs : List UnitId) : State :=
  fs.foldl (fun (st : State) u => (st.raise 0x7101 (unitCode u)).countedFault (unitCode u)) s

theorem State.faultsCounted_only (s : State) (fs : List UnitId) : Only [.tel, .events, .ledger] s (s.faultsCounted fs) :=
  Only.foldl (fun _ _ => Only.of (State.countedFault_only _ _) rfl ((State.raise_only _ _ _ _ _ _).mono rfl)) _ _

/-- A state whose witness has served once more. -/
def State.servedMore (s : State) : State := { s with rel.served := satAdd s.rel.served 1 }

theorem State.servedMore_only (s : State) : Only [.rel] s s.servedMore := by
  refine Only.lit (Only.refl _) ?_
  intro p
  cases p <;> first | exact .inl (by decide) | exact .inr (by (repeat' apply And.intro) <;> rfl)

section
variable {s : State} {q : BitVec 12 × BitVec 48} {rest : List (BitVec 12 × BitVec 48)} (hreqs : s.rel.witnessReqs = q :: rest)
  (fs : List UnitId) (b : Bytes)
include hreqs

/-- The work for the lowest requester: refused in a suspect step, put off before the own sweep's end, and then refused after two check
faults or served. -/
theorem State.witnessWork_eq : s.witnessWork fs b =
    if s.seq.replay.suspect then (s.setRequests rest).sendVerdict q.1.toNat false []
    else if !s.phaseOver 7 then s
    else if 2 ≤ fs.length then ((s.setRequests rest).faultsCounted fs).sendVerdict q.1.toNat false []
    else ((s.setRequests rest).faultsCounted fs).servedMore.sendVerdict q.1.toNat true b := by
  unfold State.witnessWork
  simp only [hreqs]
  rfl

/-- A step that became suspect here refuses the lowest requester. -/
theorem State.witnessWork_suspect (hsuspect : s.seq.replay.suspect = true) :
    Only [.out, .stats, .pen, .conns, .rel] s (s.witnessWork fs b)
    ∧ (s.witnessWork fs b).rel.witnessReqs = rest ∧ (s.witnessWork fs b).rel.served = s.rel.served
    ∧ s.out ++ [.message q.1.toNat MsgKind.witnessResult.code (leBytes 1 0)] <+: (s.witnessWork fs b).out := by
  rw [State.witnessWork_eq hreqs, if_pos hsuspect]
  exact ⟨Only.of (State.sendVerdict_only _ _ _ _) rfl ((State.setRequests_only _ _).mono rfl),
    State.sendVerdict_facts (u := s.setRequests rest) rfl _ false _⟩

/-- The witness serves no one before its own sweep has ended. -/
theorem State.witnessWork_early (hsuspect : s.seq.replay.suspect = false) (hsweep : s.phaseOver 7 = false) : s.witnessWork fs b = s := by
  rw [State.witnessWork_eq hreqs, if_neg (ne_true_of_eq_false hsuspect), hsweep]
  rfl

section
variable (hsuspect : s.seq.replay.suspect = false) (hsweep : s.phaseOver 7 = true)
include hsuspect hsweep

/-- With at most one check fault the lowest requester is served. -/
theorem State.witnessWork_serves (hfaults : fs.length < 2) :
    Only [.out, .stats, .tel, .pen, .conns, .events, .ledger, .rel] s (s.witnessWork fs b)
    ∧ (s.witnessWork fs b).rel.witnessReqs = rest ∧ (s.witnessWork fs b).rel.served = satAdd s.rel.served 1
    ∧ s.out ++ [.message q.1.toNat MsgKind.witnessResult.code (leBytes 1 1)] <+: (s.witnessWork fs b).out := by
  refine ⟨State.witnessWork_only _ _ _, ?_⟩
  rw [State.witnessWork_eq hreqs, if_neg (ne_true_of_eq_false hsuspect), hsweep, if_neg (by decide), if_neg (by omega)]
  have hcounted := State.faultsCounted_only (s.setRequests rest) fs
  obtain ⟨-, -, hserved, hrest⟩ := hcounted.get .rel
  obtain ⟨hleft, hmore, hout⟩ := State.sendVerdict_facts (u := ((s.setRequests rest).faultsCounted fs).servedMore) (hcounted.get .out)
    q.1.toNat true b
  exact ⟨hleft.trans hrest, hmore.trans (congrArg (fun x => satAdd x 1) hserved), hout⟩

/-- After two check faults the lowest requester is refused. -/
theorem State.witnessWork_refuses (hfaults : 2 ≤ fs.length) :
    Only [.out, .stats, .tel, .pen, .conns, .events, .ledger, .rel] s (s.witnessWork fs b)
    ∧ (s.witnessWork fs b).rel.witnessReqs = rest ∧ (s.witnessWork fs b).rel.served = s.rel.served
    ∧ s.out ++ [.message q.1.toNat MsgKind.witnessResult.code (leBytes 1 0)] <+: (s.witnessWork fs b).out := by
  refine ⟨State.witnessWork_only _ _ _, ?_⟩
  rw [State.witnessWork_eq hreqs, if_neg (ne_true_of_eq_false hsuspect), hsweep, if_neg (by decide), if_pos hfaults]
  have hcounted := State.faultsCounted_only (s.setRequests rest) fs
  obtain ⟨-, -, hserved, hrest⟩ := hcounted.get .rel
  obtain ⟨hleft, hsame, hout⟩ := State.sendVerdict_facts (u := (s.setRequests rest).faultsCounted fs) (hcounted.get .out) q.1.toNat false []
  exact ⟨hleft.trans hrest, hsame.trans hserved, hout⟩

end

end

/-! ## The suspect module (R386, R387) -/

/-- A module that awaits no verdict leaves one that comes. -/
theorem State.witnessResult_still {s : State} (h : s.seq.replay.awaiting = false) (ok : Bool) (r : WitnessReturn) : s.witnessResult ok r = s :=
  if_pos (by rw [h]; rfl)

/-- A state that awaits no verdict any more. -/
def State.verdictIn (s : State) : State := { s with seq.replay.awaiting := false }

theorem State.verdictIn_only (s : State) : Only [.replay] s s.verdictIn := by
  refine Only.lit (Only.refl _) ?_
  intro p
  cases p <;> first | exact .inl (by decide) | exact .inr (by (repeat' apply And.intro) <;> rfl)

/-- A verdict that ends the job: its event is raised, no other is awaited, and the job halts at the next tick. -/
theorem State.verdictHalts (s : State) (code : Nat) :
    Only [.halt, .replay, .tel, .events] s (s.verdictIn.raiseHalt code) ∧ Raised (BitVec.ofNat 16 code) 0 s (s.verdictIn.raiseHalt code)
    ∧ (s.verdictIn.raiseHalt code).seq.replay = { s.seq.replay with awaiting := false }
    ∧ (s.verdictIn.raiseHalt code).seq.haltPending = (s.seq.haltPending || s.jobRuns) := by
  obtain ⟨hraised, hseq⟩ := State.raiseHalt_facts s.verdictIn code 0 0 0
  exact ⟨Only.of (State.raiseHalt_only _ _ _ _ _) rfl ((State.verdictIn_only s).mono rfl), hraised.from rfl,
    congrArg SeqState.replay hseq, congrArg SeqState.haltPending hseq⟩

/-- Without a witness the job halts (R387). -/
theorem State.witnessResult_refused {s : State} (hawaits : s.seq.replay.awaiting = true) (r : WitnessReturn) :
    s.witnessResult false r = s.verdictIn.raiseHalt 0x7106 :=
  (if_neg (by rw [hawaits]; decide)).trans (if_pos rfl)

section
variable {s : State} {r : WitnessReturn} (hawaits : s.seq.replay.awaiting = true)
include hawaits

/-- A witness that computed something else than what this module has sent halts the job (R386). -/
theorem State.witnessResult_differs (hdiffers : s.sentAgrees r = false) : s.witnessResult true r = s.verdictIn.raiseHalt 0x7105 :=
  (if_neg (by rw [hawaits]; decide)).trans ((if_neg (by decide)).trans (if_neg (ne_true_of_eq_false hdiffers)))

/-- A witness that computed what this module has sent is followed (R386). -/
theorem State.witnessResult_agrees (hagrees : s.sentAgrees r = true) : s.witnessResult true r = s.witnessOk r :=
  (if_neg (by rw [hawaits]; decide)).trans ((if_neg (by decide)).trans (if_pos hagrees))

end

/-- What the send log gains for a unit that the witness returned. -/
def loggedUnit (u : OutUnit) : Nat × Nat × Word × Word :=
  (u.dst.toNat * 2 ^ 32 + u.num, u.unit, checkWord (padTo 512 u.data) u.tag, u.tag)

/-- Outstanding units enter the send log in order. -/
theorem State.sendOutstandings_log (us : List OutUnit) (s : State) :
    (us.foldl (fun (st : State) u => st.sendOutstanding u) s).fab.sendLog = s.fab.sendLog ++ us.map loggedUnit := by
  induction us generalizing s with
  | nil => exact (List.append_nil _).symm
  | cons u us ih =>
    have hlog : (s.sendOutstanding u).fab.sendLog = s.fab.sendLog ++ [loggedUnit u] := (transmit_fab _ _ _).1
    rw [List.foldl_cons, ih, hlog, List.append_assoc]
    rfl

/-- A state with the witness's blocks whose outstanding units have left. -/
def State.witnessed (s : State) (r : WitnessReturn) : State :=
  r.units.foldl (fun (st : State) u => st.sendOutstanding u) (s.takeWitness r)

theorem State.witnessed_sent (s : State) (r : WitnessReturn) : Only [.out, .stats, .pen, .conns, .msgs] (s.takeWitness r) (s.witnessed r) :=
  Only.foldl (fun _ _ => State.sendOutstanding_only _ _) _ _

/-- Taking the witness's blocks sends nothing. -/
theorem State.takeWitness_log (s : State) (r : WitnessReturn) : (s.takeWitness r).fab.sendLog = s.fab.sendLog :=
  (Only.foldl (m := [.tiles]) (fun t b => State.tileWrite_only t _ _ _) r.blocks s).fab.1

/-- What WITNESS_OK leaves (R386): the step goes on to phase 7 with the witness's computation. -/
theorem State.witnessOk_facts (s : State) (r : WitnessReturn) : Raised 0x7104 0 s (s.witnessOk r)
    ∧ (s.witnessOk r).seq.replay = { s.seq.replay with awaiting := false, verdictOk := true } ∧ (s.witnessOk r).emb.merged = r.merged
    ∧ (s.witnessOk r).seq.phases.started = [1, 2, 3, 4, 5, 6] ∧ (s.witnessOk r).seq.phases.ended = [1, 2, 3, 4, 5]
    ∧ (s.witnessOk r).fab.sendLog = s.fab.sendLog ++ r.units.map loggedUnit := by
  have hsent := s.witnessed_sent r
  have htaken := State.takeWitness_only s r
  have hevents : (s.witnessed r).events = s.events := (hsent.get .events).trans (htaken.get .events)
  have hreplay : (s.witnessed r).seq.replay = s.seq.replay := (hsent.get .replay).trans (htaken.get .replay)
  have hmerged : (s.witnessed r).emb.merged = r.merged := congrArg EmbState.merged hsent.emb
  have hlog : (s.witnessed r).fab.sendLog = s.fab.sendLog ++ r.units.map loggedUnit :=
    (State.sendOutstandings_log r.units (s.takeWitness r)).trans (by rw [State.takeWitness_log])
  unfold State.witnessOk
  simp only []
  refine ⟨(Raised.of_raise _ 0x7104 0 0 0 false).from hevents, ?_, ?_, ?_, ?_, ?_⟩
  · rw [raise_seq]
    exact congrArg (fun x : ReplayState => { x with awaiting := false, verdictOk := true }) hreplay
  · rw [(State.raise_only _ _ _ _ _ _).emb]
    exact hmerged
  · rw [raise_seq]
  · rw [raise_seq]
  · rw [(State.raise_only _ _ _ _ _ _).fab.1]
    exact hlog

/-! ## RESEND and the local replay (R382, R388) -/

/-- A unit that this module has not sent is not sent again. -/
theorem State.resend_unsent {s : State} {m msg unit : Nat}
    (h : s.fab.sendLog.any (fun e => e.1 == m * 2 ^ 32 + msg && e.2.1 == unit) = false) : s.resend m msg unit = s :=
  if_pos (by rw [h]; rfl)

/-- What the first local replay of a step leaves (R382, R383). -/
theorem State.beginReplay_first {s : State} (hrunning : s.seq.replay.running = false) (hcount : s.seq.replay.count = 0) :
    s.beginReplay.seq.replay = { s.seq.replay with running := true, phase := s.phase, count := 1, began := s.clk.time }
    ∧ s.beginReplay.seq.phases.started = [1] ∧ s.beginReplay.rel.replays = satAdd s.rel.replays 1 ∧ s.beginReplay.acc = []
    ∧ s.beginReplay.fab.sendLog = s.fab.sendLog := by
  unfold State.beginReplay
  rw [if_neg (by simp [hrunning, hcount])]
  simp only []
  generalize hbegun : State.raise _ 0x7102 = u
  have hu : u.seq.replay = { s.seq.replay with running := true, phase := s.phase, count := 1, began := s.clk.time }
      ∧ u.seq.phases.started = [1] ∧ u.rel.replays = satAdd s.rel.replays 1 ∧ u.acc = [] ∧ u.fab.sendLog = s.fab.sendLog := by
    subst hbegun
    simp only [raise_seq, State.raise_rest]
    exact ⟨rfl, rfl, rfl, rfl, rfl⟩
  split
  · exact hu
  · have hdeclared := State.declareExcess_only { u with seq.stats.reserveShort := true }
    rw [hdeclared.get .replay, hdeclared.get .phases, (hdeclared.get .rel).1, hdeclared.get .acc, hdeclared.fab.1]
    exact hu

/-- A state in which a unit is to be sent again. -/
def State.resending (s : State) (key unit : Nat) : State := { s with seq.replay.resend := s.seq.replay.resend ++ [(key, unit)] }

/-- A unit asked for in phases 1 to 6 is counted against its sending stage, and the step is replayed. -/
theorem State.resend_replays {s : State} {m msg unit : Nat}
    (hsent : s.fab.sendLog.any (fun e => e.1 == m * 2 ^ 32 + msg && e.2.1 == unit) = true) (hruns : s.jobRuns = true)
    (hlow : 1 ≤ s.phase) (hhigh : s.phase ≤ 6) :
    s.resend m msg unit = ((s.resending (m * 2 ^ 32 + msg) unit).countedFault (s.sendingStage s.me m msg)).beginReplay := by
  have hcounted := State.countedFault_only (s.resending (m * 2 ^ 32 + msg) unit) (s.sendingStage s.me m msg)
  have hjob := (jobRuns_of hcounted).trans hruns
  have hphase : ((s.resending (m * 2 ^ 32 + msg) unit).countedFault (s.sendingStage s.me m msg)).phase = s.phase := by
    unfold State.phase
    rw [hcounted.get .phases]
    rfl
  exact (if_neg (by rw [hsent]; decide)).trans (if_pos ⟨hjob, hphase ▸ hlow, hphase ▸ hhigh⟩)

/-- What a RESEND in phases 1 to 6 leaves when the step has had no replay. -/
theorem State.resend_facts {s : State} {m msg unit : Nat}
    (hsent : s.fab.sendLog.any (fun e => e.1 == m * 2 ^ 32 + msg && e.2.1 == unit) = true) (hruns : s.jobRuns = true)
    (hlow : 1 ≤ s.phase) (hhigh : s.phase ≤ 6) (hrunning : s.seq.replay.running = false) (hcount : s.seq.replay.count = 0) :
    (s.resend m msg unit).seq.replay.resend = s.seq.replay.resend ++ [(m * 2 ^ 32 + msg, unit)]
    ∧ (s.resend m msg unit).seq.replay.running = true ∧ (s.resend m msg unit).seq.replay.count = 1
    ∧ (s.resend m msg unit).seq.phases.started = [1] ∧ (s.resend m msg unit).rel.replays = satAdd s.rel.replays 1
    ∧ (s.resend m msg unit).acc = [] ∧ (s.resend m msg unit).fab.sendLog = s.fab.sendLog := by
  have hcounted := State.countedFault_only (s.resending (m * 2 ^ 32 + msg) unit) (s.sendingStage s.me m msg)
  have hkept := hcounted.get .replay
  obtain ⟨hreplay, hstarted, hreplays, hacc, hlog⟩ := State.beginReplay_first ((congrArg ReplayState.running hkept).trans hrunning)
    ((congrArg ReplayState.count hkept).trans hcount)
  rw [State.resend_replays hsent hruns hlow hhigh, hreplay]
  refine ⟨congrArg ReplayState.resend hkept, rfl, rfl, hstarted, ?_, hacc, hlog.trans hcounted.fab.1⟩
  rw [hreplays, (hcounted.get .rel).1]
  rfl

/-! ## The watchdog (R395) -/

/-- A state whose next restart the watchdog has caused. -/
def State.watchdogCause (s : State) : State := { s with boot.cause := 2 }

theorem State.watchdogCause_only (s : State) : Only [.boot] s s.watchdogCause := by
  refine Only.lit (Only.refl _) ?_
  intro p
  cases p <;> first | exact .inl (by decide) | exact .inr (by (repeat' apply And.intro) <;> rfl)

/-! ## The obligation -/

/-- Settles O47: each command by the law of the way that it goes. What a witness computed is its command's operand (log 26), its answers'
bytes are log 6, and the append exchange is logs 21 and 45. -/
theorem digestsAndWitness : Obligations.DigestsAndWitness := by
  intro s
  refine ⟨fun pos n h => congrArg Host.Outcome.next (State.appendDone_still h n),
    fun pos n hwritten hnew hpos hown hmore => ?moreDone, fun pos n hwritten hnew hpos hown hall => ?allDone,
    fun m tensor d h => congrArg Host.Outcome.next (State.digestCompare_still h),
    fun m tensor own d hown hpeer hnew => ⟨_, rfl, State.digestCompare_only _ _ _ _, State.digestCompare_peers hown hpeer hnew,
      State.digestCompare_agrees hown hpeer hnew, State.digestCompare_differs hown hpeer hnew⟩,
    fun m n h => congrArg Host.Outcome.next (State.witnessReq_still h),
    fun m hruns hnew => ⟨fun hsuspect => ?refused, fun hsuspect => ⟨_, rfl, State.witnessReq_waits hruns hnew hsuspect⟩⟩,
    fun fs b hnone => congrArg Host.Outcome.next ?noRequest,
    fun fs b q rest hreqs => ⟨fun hsuspect => ⟨_, rfl, State.witnessWork_suspect hreqs fs b hsuspect⟩,
      fun hsuspect hsweep => congrArg Host.Outcome.next (State.witnessWork_early hreqs fs b hsuspect hsweep),
      fun hsuspect hsweep hfaults => ⟨_, rfl, State.witnessWork_serves hreqs fs b hsuspect hsweep hfaults⟩,
      fun hsuspect hsweep hfaults => ⟨_, rfl, State.witnessWork_refuses hreqs fs b hsuspect hsweep hfaults⟩⟩,
    fun ok r h => congrArg Host.Outcome.next (State.witnessResult_still h ok r),
    fun r hawaits => ⟨?noWitness, fun hdiffers => ?sentBad, fun hagrees => ?witnessOk⟩,
    fun m msg unit h => congrArg Host.Outcome.next (State.resend_unsent h),
    fun m msg unit hsent hruns hlow hhigh hrunning hcount => ⟨_, rfl, State.resend_facts hsent hruns hlow hhigh hrunning hcount⟩,
    rfl, ?watchdog⟩
  case moreDone => exact congrArg Host.Outcome.next ((State.appendDone_counts hwritten hnew hpos hown n).trans (if_neg hmore))
  case allDone =>
    refine ⟨_, rfl, State.appendDone_only _ _ _, ?_⟩
    rw [State.appendDone_counts hwritten hnew hpos hown, if_pos hall, State.writeUsers_hist]
    rfl
  case refused =>
    refine ⟨_, congrArg Host.Outcome.next ((State.witnessReq_heard hruns hnew).trans (if_pos hsuspect)),
      State.sendVerdict_only _ _ _ _, State.sendVerdict_out s _ false _⟩
  case noRequest =>
    unfold State.witnessWork
    simp only [hnone]
  case noWitness => exact ⟨_, congrArg Host.Outcome.next (State.witnessResult_refused hawaits r), State.verdictHalts s 0x7106⟩
  case sentBad => exact ⟨_, congrArg Host.Outcome.next (State.witnessResult_differs hawaits hdiffers), State.verdictHalts s 0x7105⟩
  case witnessOk =>
    exact ⟨_, congrArg Host.Outcome.next (State.witnessResult_agrees hawaits hagrees), State.witnessOk_only _ _, State.witnessOk_facts s r⟩
  case watchdog =>
    obtain ⟨hraised, hseq⟩ := State.raiseHalt_facts s.watchdogCause 0x7501 unitTackRoom 0 0
    have halted := State.raiseHalt_only s.watchdogCause 0x7501 unitTackRoom 0 0
    exact ⟨_, rfl, Only.of halted rfl (s.watchdogCause_only.mono rfl), hraised.from rfl, halted.get .boot, congrArg SeqState.haltPending hseq⟩

end Sys2Proof.Machine
end

section
/-! SUPPORT and CLAIM. Pen flits (R262 to R264, R266, R287, R388): what a closed link leaves, what asking for a flit leaves, one equation
for each way that a flit in order goes, and the obligation about them. -/

-- Checked one theorem at a time: the package as one text then needs less memory.
set_option Elab.async false

namespace Sys2Proof.Machine

/-! ## A link that takes nothing (R265) -/

section
variable {s : State} {k : Nat} (h : (s.pen k).up = false ∨ (s.pen k).retraining = true)
include h

/-- A numbered flit on a link that is down or retraining is lost. -/
theorem State.numberedFlit_closed (kind : Nat) (f : Bytes) : s.numberedFlit k kind f = s := if_pos (by simpa using h)

/-- A link that is down or retraining takes no flit. -/
theorem State.takesFlit_closed (kind : Nat) (f : Bytes) : s.takesFlit k kind f = false := by
  rcases h with hdown | hretrains <;> simp [State.takesFlit, *]

/-- A failed flit on a link that is down or retraining is not asked for. -/
theorem State.flitFails_closed : s.flitFails k = s := if_neg (by rcases h with hdown | hretrains <;> simp [*])

/-- An IDLE flit on a link that is down or retraining is lost. -/
theorem State.idleFlit_closed (f : Bytes) : s.idleFlit k f = s := by
  unfold State.idleFlit
  rw [State.takesFlit_closed h, State.flitFails_closed h, if_neg Bool.false_ne_true, ite_self]

/-- A RETRY_REQ on a link that is down or retraining is lost. -/
theorem State.retryReq_closed (f : Bytes) : s.retryReq k f = s := by
  unfold State.retryReq
  rw [State.takesFlit_closed h, State.flitFails_closed h, if_neg Bool.false_ne_true, ite_self]

end

/-! ## What a link sends of itself -/

/-- Asking for the flit that is expected: the link discards until it comes (R264). -/
theorem State.requestRetry_facts (s : State) (k : Nat) : Only [.out, .pen] s (s.requestRetry k (s.pen k).expect)
    ∧ (s.requestRetry k (s.pen k).expect).pen k = { s.pen k with discarding := true, freed := 0 }
    ∧ (s.requestRetry k (s.pen k).expect).out = s.out
      ++ [.penFlit k (flitBytes 4 0 0 ((s.pen k).expect - 1).toNat (s.pen k).freed (leBytes 2 (s.pen k).expect.toNat))] :=
  ⟨State.requestRetry_only s k _, pen_setPen_self s k _, rfl⟩

/-- An IDLE acknowledges the flit before the one expected, and grants the credits freed (R262, R263). -/
theorem State.sendIdle_facts (s : State) (k : Nat) : Only [.out, .pen] s (s.sendIdle k)
    ∧ (s.sendIdle k).pen k = { s.pen k with freed := 0 }
    ∧ (s.sendIdle k).out = s.out ++ [.penFlit k (flitBytes 0 0 0 ((s.pen k).expect - 1).toNat (s.pen k).freed [])] :=
  ⟨State.sendIdle_only s k, pen_setPen_self s k _, rfl⟩

/-- A link that has taken a flit in order, and stands as `e` with it, answers with an IDLE. -/
theorem State.sendIdle_taken {m : List Part} {s u : State} {k : Nat} {e : PenEngine} (ho : Only m s u) (hpen : u.pen k = e)
    (hexpect : e.expect = (s.pen k).expect + 1) (hm : m.contains .out = false := by rfl) : Only (.out :: .pen :: m) s (u.sendIdle k)
    ∧ (u.sendIdle k).pen k = { e with freed := 0 }
    ∧ (u.sendIdle k).out = s.out ++ [.penFlit k (flitBytes 0 0 0 (s.pen k).expect.toNat e.freed [])] := by
  obtain ⟨honly, hidle, hout⟩ := u.sendIdle_facts k
  have hack : e.expect - 1 = (s.pen k).expect := by rw [hexpect, BitVec.add_sub_cancel]
  have hkept : u.out = s.out := ho.get .out hm
  rw [hpen] at hidle
  rw [hpen, hack, hkept] at hout
  exact ⟨(ho.mono (by simp +contextual [List.all_eq_true])).trans (honly.mono (by simp)), hidle, hout⟩

/-! ## Flits out of order, failed and unnumbered (R262 to R264) -/

section
variable {s : State} {k : Nat} {f : Bytes} (hopen : s.linkOpen k)
include hopen

/-- A numbered flit that is not the one expected is discarded, and asked for unless it follows one asked for already. -/
theorem State.numberedFlit_refused {kind : Nat} (hbad : ¬(flitGood f ∧ field f 0 1 = kind ∧ field f 2 2 = (s.pen k).expect.toNat)) :
    s.numberedFlit k kind f = if (s.pen k).discarding && flitGood f then s else s.requestRetry k (s.pen k).expect := by
  obtain ⟨hup, hretrain, -⟩ := hopen
  unfold State.numberedFlit
  exact (if_neg (by simp [hup, hretrain])).trans (if_neg hbad)

/-- A flit that fails LINK_CRC is asked for. -/
theorem State.flitFails_open : s.flitFails k = s.requestRetry k (s.pen k).expect := by
  obtain ⟨hup, hretrain, -⟩ := hopen
  exact if_pos (by simp [hup, hretrain])

/-- A flit that fails LINK_CRC does not say what it is, and is asked for whatever it was (log 41). -/
theorem State.failedFlit_asked (hcrc : flitGood f = false) : s.numberedFlit k 2 f = s.requestRetry k (s.pen k).expect
    ∧ s.idleFlit k f = s.requestRetry k (s.pen k).expect ∧ s.retryReq k f = s.requestRetry k (s.pen k).expect := by
  have htakes : ∀ kind, s.takesFlit k kind f = false := fun kind => by simp [State.takesFlit, hcrc]
  refine ⟨?_, ?_, ?_⟩
  · rw [State.numberedFlit_refused hopen (by simp [hcrc]), hcrc, Bool.and_false, if_neg Bool.false_ne_true]
  · unfold State.idleFlit
    rw [htakes, hcrc, if_neg Bool.false_ne_true, if_neg Bool.false_ne_true, State.flitFails_open hopen]
  · unfold State.retryReq
    rw [htakes, hcrc, if_neg Bool.false_ne_true, if_neg Bool.false_ne_true, State.flitFails_open hopen]

/-- An open link takes a good flit of its kind. -/
theorem State.takesFlit_open {kind : Nat} (hgood : flitGood f) (hkind : field f 0 1 = kind) : s.takesFlit k kind f = true := by
  obtain ⟨hup, hretrain, -⟩ := hopen
  simp [State.takesFlit, hup, hretrain, hgood, hkind]

/-- An IDLE gives its credits. -/
theorem State.idleFlit_open (hgood : flitGood f) (hkind : field f 0 1 = 0) :
    s.idleFlit k f = s.setPen k (fun x => { x with credits := x.credits + field f 6 2 }) :=
  (if_pos (State.takesFlit_open hopen hgood hkind)).trans (takeCredit_open f hopen.2.2)

/-- A link that has taken a RETRY_REQ: its credits, its count, and the ledger's log. -/
def State.retryCounted (s : State) (k : Nat) (f : Bytes) : State :=
  (s.setPen k (fun x => { x with credits := x.credits + field f 6 2, retries := satAdd x.retries 1 })).logged (unitEngine k)

/-- A RETRY_REQ gives its credits, is counted, and lets the kept flits leave again. -/
theorem State.retryReq_open (hgood : flitGood f) (hkind : field f 0 1 = 4) :
    s.retryReq k f = (s.retryCounted k f).resendFlits k (field f 8 2) := by
  refine (if_pos (State.takesFlit_open hopen hgood hkind)).trans ?_
  rw [takeCredit_open f hopen.2.2, setPen_setPen]
  rfl

end

/-- What a RETRY_REQ leaves. -/
theorem State.retryReq_facts (s : State) (k : Nat) (f : Bytes) :
    Only [.out, .pen, .ledger] s ((s.retryCounted k f).resendFlits k (field f 8 2))
    ∧ ((s.retryCounted k f).resendFlits k (field f 8 2)).pen k =
      { s.pen k with credits := (s.pen k).credits + field f 6 2, retries := satAdd (s.pen k).retries 1 }
    ∧ ((s.retryCounted k f).resendFlits k (field f 8 2)).unit (unitEngine k) =
      { s.unit (unitEngine k) with logged := satAdd (s.unit (unitEngine k)).logged 1 }
    ∧ ((s.retryCounted k f).resendFlits k (field f 8 2)).out = s.out
      ++ ((s.pen k).retry.dropWhile (fun e => e.1 != field f 8 2)).map (fun e => Output.penFlit k e.2) := by
  have hpen : (s.retryCounted k f).pen k =
      { s.pen k with credits := (s.pen k).credits + field f 6 2, retries := satAdd (s.pen k).retries 1 } := pen_setPen_self s k _
  have hout : ((s.retryCounted k f).resendFlits k (field f 8 2)).out = s.out
      ++ (((s.retryCounted k f).pen k).retry.dropWhile (fun e => e.1 != field f 8 2)).map (fun e => Output.penFlit k e.2) := rfl
  rw [hpen] at hout
  refine ⟨?_, hpen, ?_, hout⟩
  · exact Only.of (State.resendFlits_only _ _ _) rfl (Only.of (State.logged_only _ _) rfl ((State.setPen_only s k _).mono rfl))
  · exact (unit_setUnit _ _ _ _).trans (if_pos rfl)

/-! ## Units in clear (R263, R287, R388) -/

/-- A unit whose check word holds is placed. -/
theorem State.arriveUnit_good {u : Bytes} (h : checkWord (u.take 512) (BitVec.ofNat 32 (field u 516 4)) = BitVec.ofNat 32 (field u 512 4))
    (s : State) (src num unit : Nat) (last : Bool) : s.arriveUnit src num unit last u =
      s.placeUnit src num unit last (u.take 512) (BitVec.ofNat 32 (field u 512 4)) (BitVec.ofNat 32 (field u 516 4)) := if_pos h

/-- A unit whose check word fails is not placed. -/
theorem State.arriveUnit_bad {u : Bytes} (h : checkWord (u.take 512) (BitVec.ofNat 32 (field u 516 4)) ≠ BitVec.ofNat 32 (field u 512 4))
    (s : State) (src num unit : Nat) (last : Bool) : s.arriveUnit src num unit last u = s.badUnit src num unit := if_neg h

/-- A message that leaves only sends on the pen engines. -/
theorem sent_message (s : State) (dst : Nat) (m : MsgKind) (b : Bytes) (j : Nat) :
    PenEngine.sentFrom (s.pen j) ((s.message dst m b).pen j) := by
  have hcounted : ((s.emit (.message dst m.code b)).countControl dst).pen j = s.pen j := (State.countControl_only _ _).pen j
  rw [← hcounted]
  exact sent_transmit _ _ _ j

/-- A failed unit that has not been asked for yet, as the sender is asked for it. -/
def State.unitAsked (s : State) (src num unit : Nat) : State :=
  { s.raise 0x7101 (s.sendingStage src s.me num) with fab.asked := s.fab.asked ++ [(src, num, unit)] }

/-- Outside the evaluation slot the sender of a failed unit is asked for it once (R388). -/
theorem State.badUnit_asks {s : State} {src num unit : Nat} (heval : s.inEvaluation = false)
    (hnew : s.fab.asked.contains (src, num, unit) = false) :
    s.badUnit src num unit = ((s.unitAsked src num unit).message src .resend (leBytes 4 num ++ leBytes 4 unit)).raise 0x7107 0 num := by
  have hfab : (s.raise 0x7101 (s.sendingStage src s.me num)).fab = s.fab := by simp
  unfold State.badUnit State.unitAsked
  dsimp only
  rw [if_neg (by simp [heval]), if_neg (ne_true_of_eq_false hnew), hfab]

/-- What asking for a failed unit leaves. -/
theorem State.badUnit_facts {s : State} {src num unit : Nat} (heval : s.inEvaluation = false)
    (hnew : s.fab.asked.contains (src, num, unit) = false) :
    (∀ j, PenEngine.sentFrom (s.pen j) ((s.badUnit src num unit).pen j)) ∧ (s.badUnit src num unit).lastEvent = some 0x7107
    ∧ (s.badUnit src num unit).fab.msgs = s.fab.msgs
    ∧ Output.message src MsgKind.resend.code (leBytes 4 num ++ leBytes 4 unit) ∈ (s.badUnit src num unit).out := by
  have hraise := State.raise_only s 0x7101 (s.sendingStage src s.me num) 0 0 false
  let asked := s.unitAsked src num unit
  let sent := asked.message src .resend (leBytes 4 num ++ leBytes 4 unit)
  have hmessage : Only [.out, .stats, .pen, .conns] asked sent := State.message_only _ _ _ _
  have hlast := State.raise_only sent 0x7107 0 num 0 false
  rw [State.badUnit_asks heval hnew]
  refine ⟨fun j => ?_, raised_last (Raised.of_raise sent 0x7107 0 num 0 false), ?_, ?_⟩
  · have hpen : asked.pen j = s.pen j := hraise.pen j
    rw [hlast.pen j, ← hpen]
    exact sent_message asked src .resend _ j
  · exact (msgs_of hlast).trans ((msgs_of hmessage).trans (msgs_of hraise : (s.raise 0x7101 _).fab.msgs = _))
  · have hout : (sent.raise 0x7107 0 num).out = sent.out := hlast.get .out
    rw [hout]
    exact (prefix_message asked src .resend _).subset (List.mem_append_right _ (List.mem_singleton_self _))

/-! ## Flits in order in clear (R263, R264) -/

section
variable {s : State} {k : Nat} {f : Bytes} (hopen : s.linkOpen k) (hgood : flitGood f)
  (hseq : field f 2 2 = (s.pen k).expect.toNat)

/-- A link that has taken a numbered flit in clear. -/
def State.flitTaken (s : State) (k : Nat) (f : Bytes) : State := s.setPen k (fun x => { x with
  credits := x.credits + field f 6 2, discarding := false, expect := x.expect + 1 })

/-- The engine of a link that has taken a numbered flit. -/
theorem State.flitTaken_pen (s : State) (k : Nat) (f : Bytes) : (s.flitTaken k f).pen k =
    { s.pen k with credits := (s.pen k).credits + field f 6 2, discarding := false, expect := (s.pen k).expect + 1 } := pen_setPen_self s k _

/-- A flit taken leaves the module that the engine reaches. -/
theorem State.flitTaken_module (s : State) (k : Nat) (f : Bytes) : (s.flitTaken k f).engineModule k = s.engineModule k :=
  engineModule_setPen s k k _ (fun _ => rfl)

/-- A link that has counted the unit of a DATA flit. -/
def State.unitCounted (s : State) (k : Nat) (f : Bytes) : State := (s.flitTaken k f).setPen k (fun x => { x with
  freed := x.freed + 1
  unitsGot := if bit 0 (field f 1 1) then 0 else x.unitsGot + 1
  msgsGot := if bit 0 (field f 1 1) then x.msgsGot + 1 else x.msgsGot })

/-- The engine of a link that has counted a unit. -/
theorem State.unitCounted_pen (s : State) (k : Nat) (f : Bytes) : (s.unitCounted k f).pen k = { s.pen k with
    expect := (s.pen k).expect + 1, discarding := false, credits := (s.pen k).credits + field f 6 2, freed := (s.pen k).freed + 1
    unitsGot := if bit 0 (field f 1 1) then 0 else (s.pen k).unitsGot + 1
    msgsGot := if bit 0 (field f 1 1) then (s.pen k).msgsGot + 1 else (s.pen k).msgsGot } :=
  (pen_setPen_self _ k _).trans (by rw [State.flitTaken_pen])

/-- A link that has taken a CONTROL flit, with what it holds of an unfinished message. -/
def State.controlTaken (s : State) (k : Nat) (f b : Bytes) : State := (s.flitTaken k f).setPen k (fun x => { x with ctl := b })

/-- The engine of a link that has taken a CONTROL flit. -/
theorem State.controlTaken_pen (s : State) (k : Nat) (f b : Bytes) : (s.controlTaken k f b).pen k = { s.pen k with
    expect := (s.pen k).expect + 1, discarding := false, credits := (s.pen k).credits + field f 6 2, ctl := b } :=
  (pen_setPen_self _ k _).trans (by rw [State.flitTaken_pen])

include hopen hgood hseq

/-- A DATA flit in order hands its unit over by its place in the schedule. -/
theorem State.dataFlit_clear (hkind : field f 0 1 = 1) (hclear : s.confidential = false) :
    s.numberedFlit k 1 f = ((s.unitCounted k f).arriveUnit (s.engineModule k) (s.penMessage (s.engineModule k) (s.pen k).msgsGot)
      (s.pen k).unitsGot (bit 0 (field f 1 1)) (flitBody f)).sendIdle k := by
  rw [flit_clear hopen hgood hkind hseq hclear]
  show ((s.flitTaken k f).penUnit k (bit 0 (field f 1 1)) (flitBody f)).sendIdle k = _
  unfold State.penUnit
  dsimp only
  rw [State.flitTaken_module, State.flitTaken_pen]
  rfl

/-- A CONTROL flit in order completes its message with LAST, and else adds to it. -/
theorem State.controlFlit_clear (hkind : field f 0 1 = 2) (hclear : s.confidential = false) :
    s.numberedFlit k 2 f = (if bit 0 (field f 1 1) then
        (s.controlTaken k f []).controlArrived (s.engineModule k) ((s.pen k).ctl ++ (flitBody f).take 512)
      else s.controlTaken k f ((s.pen k).ctl ++ (flitBody f).take 512)).sendIdle k := by
  rw [flit_clear hopen hgood hkind hseq hclear]
  show ((s.flitTaken k f).penControl k (bit 0 (field f 1 1)) (flitBody f)).sendIdle k = _
  unfold State.penControl
  dsimp only
  rw [State.flitTaken_module, State.flitTaken_pen]
  rfl

end

/-! ## Flits in order in confidential mode (R266) -/

section
variable {s : State} {k : Nat} {f : Bytes} (hopen : s.linkOpen k) (hgood : flitGood f)
  (hseq : field f 2 2 = (s.pen k).expect.toNat)

/-- A link that has taken an encrypted flit into its group. -/
def State.flitGrouped (s : State) (k : Nat) (f : Bytes) : State := s.setPen k (fun x => { x with
  credits := x.credits + field f 6 2, discarding := false, expect := x.expect + 1, group := x.group ++ [f.take 528] })

/-- The engine of a link that has taken an encrypted flit. -/
theorem State.flitGrouped_pen (s : State) (k : Nat) (f : Bytes) : (s.flitGrouped k f).pen k = { s.pen k with
    credits := (s.pen k).credits + field f 6 2, discarding := false, expect := (s.pen k).expect + 1
    group := (s.pen k).group ++ [f.take 528] } := pen_setPen_self s k _

include hopen hgood hseq

/-- A DATA flit in confidential mode waits for the tag of its group. -/
theorem State.dataFlit_sealed (hkind : field f 0 1 = 1) (hsealed : s.confidential = true) :
    s.numberedFlit k 1 f = (s.flitGrouped k f).sendIdle k := by
  have hconf : ∀ g, (s.setPen k g).confidential = true := fun _ => hsealed
  rw [flit_inOrder hopen hgood hkind hseq, State.flitInOrder]
  rw [if_neg (by simp [hconf]), if_neg (by simp [hkind]), setPen_setPen, setPen_setPen]
  rfl

/-- A CONTROL flit without LAST of a group carries the group's tag. -/
theorem State.controlFlit_tag (hkind : field f 0 1 = 2) (hsealed : s.confidential = true) (htag : bit 1 (field f 1 1) = false) :
    s.numberedFlit k 2 f =
      (s.setPen k (fun x => { x with credits := x.credits + field f 6 2, discarding := false })).tagFlit k f := by
  have hconf : ∀ g, (s.setPen k g).confidential = true := fun _ => hsealed
  rw [flit_inOrder hopen hgood hkind hseq, State.flitInOrder]
  rw [if_neg (by simp [hconf]), if_pos (by simp [hkind, htag]), setPen_setPen]

end

/-- A group whose tag fails is asked for again three times, and then takes the link down. -/
theorem State.tagFlit_fails {s : State} {k : Nat} {f : Bytes} (h : gcmOpen s.penKey (penNonce (s.engineModule k) s.me (s.pen k).groupsGot) []
    ((s.pen k).group.map flitBody).flatten (slice f 8 16) = none) :
    s.tagFlit k f = if 3 ≤ (s.pen k).tagFails then
        ((s.setPen k (fun x => { x with group := [], tagFails := 0 })).linkLost k).raise 0x5103 (unitEngine k)
      else (s.setPen k (fun x => { x with group := [], tagFails := x.tagFails + 1 })).requestRetry k
        ((s.pen k).expect - BitVec.ofNat 16 (s.pen k).group.length) := by
  unfold State.tagFlit
  simp only [h]

/-- A link that is lost is down. -/
theorem State.linkLost_down (s : State) (k : Nat) : ((s.linkLost k).pen k).up = false := by
  unfold State.linkLost
  rw [countedFault_pen, (State.raiseHalt_only _ _ _ _ _).pen k, pen_setPen_self]

/-! ## Messages (R287) -/

/-- A complete control message has taken its place under its kind, behind those of the kind from its source (log 6). -/
def State.messageIn (s : State) (src : Nat) (b : Bytes) : State :=
  { s with
    fab.msgs := putMsg s.fab.msgs src
      (msgNumber (field b 0 2) (s.fab.msgs.countP (fun m => m.src == src && m.num / 65536 == field b 0 2)))
      (fun m => m.put 0 (slice b 4 (field b 2 2), 0, 0) true) }

/-- A message that has taken its place changes the messages alone. -/
theorem State.messageIn_only (s : State) (src : Nat) (b : Bytes) : Only [.msgs] s (s.messageIn src b) := State.setMsgs_only s _

/-- A control message but timestamps and a unit sent again takes its place as a message. -/
theorem State.controlArrived_message {b : Bytes} (hresent : field b 0 2 ≠ MsgKind.resent.code)
    (htimes : field b 0 2 ≠ MsgKind.timeTransfer.code) (s : State) (src : Nat) : s.controlArrived src b = s.messageIn src b :=
  (if_neg htimes).trans (if_neg hresent)

/-! ## The obligation -/

/-- Settles O40: each way of a flit by its equation above. Which IDLE answers a flit and what is discarded after an ask are log 24; the
payload of RETRY_REQ and the numbers of messages are log 6. -/
theorem penFlits : Obligations.PenFlits := by
  intro s k f
  have hcontrolTaken : ∀ b, Only [.pen] s (s.controlTaken k f b) := fun b => (State.setPen_only s k _).trans (State.setPen_only _ k _)
  refine ⟨?closed, ?outOfOrder, ?failed, ?data, ?controlPart, ?controlLast, ?sealed, ?tag, ?idle, ?retry⟩
  case closed =>
    intro h
    exact ⟨congrArg _ (State.numberedFlit_closed h 1 f), congrArg _ (State.numberedFlit_closed h 2 f),
      congrArg _ (State.idleFlit_closed h f), congrArg _ (State.retryReq_closed h f)⟩
  case outOfOrder =>
    intro hopen hbad
    have hrefused := State.numberedFlit_refused hopen hbad
    refine ⟨fun hdiscards hgood => ?_, fun hfirst => ?_⟩
    · exact congrArg Host.Outcome.next (hrefused.trans (if_pos (by simp [hdiscards, hgood])))
    · have hasks := hrefused.trans (if_neg (by rcases hfirst with h | h <;> simp [h]))
      exact ⟨_, congrArg Host.Outcome.next hasks, State.requestRetry_facts s k⟩
  case failed =>
    intro hopen hcrc c hc
    obtain ⟨hcontrol, hidle, hretry⟩ := State.failedFlit_asked hopen hcrc
    refine ⟨s.requestRetry k (s.pen k).expect, ?_, State.requestRetry_facts s k⟩
    rcases hc with rfl | rfl | rfl
    · exact congrArg Host.Outcome.next hcontrol
    · exact congrArg Host.Outcome.next hidle
    · exact congrArg Host.Outcome.next hretry
  case data =>
    intro hopen hgood hkind hseq hclear
    have hdata := State.dataFlit_clear hopen hgood hseq hkind hclear
    have hpen := s.unitCounted_pen k f
    have hcounted : Only [.pen] s (s.unitCounted k f) := (State.setPen_only s k _).trans (State.setPen_only _ k _)
    refine ⟨fun hcheck => ?_, fun hcheck heval hnew => ?_⟩
    · rw [State.arriveUnit_good hcheck] at hdata
      have hplaced := State.placeUnit_only (s.unitCounted k f) (s.engineModule k) (s.penMessage (s.engineModule k) (s.pen k).msgsGot)
        (s.pen k).unitsGot (bit 0 (field f 1 1)) ((flitBody f).take 512) (BitVec.ofNat 32 (field (flitBody f) 512 4))
        (BitVec.ofNat 32 (field (flitBody f) 516 4))
      obtain ⟨honly, hengine, hout⟩ := State.sendIdle_taken ((hcounted.mono rfl).trans (hplaced.mono rfl) : Only [.pen, .msgs] s _)
        ((hplaced.pen k).trans hpen) rfl
      refine ⟨_, congrArg Host.Outcome.next hdata, honly.mono rfl, hengine, hout, ?_⟩
      exact hasUnit_put (s.unitCounted k f) _ _ _ _ _ _ _
    · rw [State.arriveUnit_bad hcheck] at hdata
      obtain ⟨hsent, hevent, hmsgs, hresend⟩ := State.badUnit_facts (s := s.unitCounted k f) heval hnew
      have hidle := State.sendIdle_facts ((s.unitCounted k f).badUnit (s.engineModule k)
        (s.penMessage (s.engineModule k) (s.pen k).msgsGot) (s.pen k).unitsGot) k
      refine ⟨_, congrArg Host.Outcome.next hdata, ?_, hevent, hmsgs, List.mem_append_left _ hresend⟩
      rw [hidle.2.1]
      exact (congrArg PenEngine.expect (hsent k)).trans (congrArg PenEngine.expect hpen)
  case controlPart =>
    intro hopen hgood hkind hseq hclear hlast
    have hcontrol := State.controlFlit_clear hopen hgood hseq hkind hclear
    rw [if_neg (ne_true_of_eq_false hlast)] at hcontrol
    obtain ⟨honly, hengine, hout⟩ := State.sendIdle_taken (s := s) (u := s.controlTaken k f ((s.pen k).ctl ++ (flitBody f).take 512))
      (hcontrolTaken _) (s.controlTaken_pen k f _) rfl
    exact ⟨_, congrArg Host.Outcome.next hcontrol, honly.mono rfl, hengine, hout⟩
  case controlLast =>
    intro b hopen hgood hkind hseq hclear hlast hb hresent htimes
    have hcontrol := State.controlFlit_clear hopen hgood hseq hkind hclear
    rw [if_pos hlast, hb, State.controlArrived_message hresent htimes] at hcontrol
    obtain ⟨honly, hengine, -⟩ := State.sendIdle_taken (((hcontrolTaken []).mono rfl).trans
      ((State.messageIn_only _ (s.engineModule k) b).mono rfl) : Only [.pen, .msgs] s _) (s.controlTaken_pen k f []) rfl
    exact ⟨_, congrArg Host.Outcome.next hcontrol, honly.mono rfl, congrArg PenEngine.ctl hengine, congrArg PenEngine.expect hengine, rfl⟩
  case sealed =>
    intro hopen hgood hkind hseq hsealed
    obtain ⟨honly, hengine, hout⟩ := State.sendIdle_taken (State.setPen_only s k _) (s.flitGrouped_pen k f) rfl
    exact ⟨_, congrArg Host.Outcome.next (State.dataFlit_sealed hopen hgood hseq hkind hsealed), honly.mono rfl,
      congrArg PenEngine.expect hengine, congrArg PenEngine.group hengine, hout⟩
  case tag =>
    intro hopen hgood hkind hseq hsealed htag hfails
    let u := s.setPen k (fun x => { x with credits := x.credits + field f 6 2, discarding := false })
    have hpen : u.pen k = { s.pen k with credits := (s.pen k).credits + field f 6 2, discarding := false } := pen_setPen_self s k _
    have hmodule : u.engineModule k = s.engineModule k := engineModule_setPen s k k _ (fun _ => rfl)
    have hgroup : u.tagFlit k f = _ := State.tagFlit_fails (by rw [hpen, hmodule]; exact hfails)
    have hflit := (State.controlFlit_tag hopen hgood hseq hkind hsealed htag).trans hgroup
    rw [hpen] at hflit
    refine ⟨fun hfew => ?_, fun hmany => ?_⟩
    · rw [if_neg (by simpa using hfew)] at hflit
      let v := u.setPen k (fun x => { x with group := [], tagFails := x.tagFails + 1 })
      have hasks : Only [.out, .pen] v (v.requestRetry k ((s.pen k).expect - BitVec.ofNat 16 (s.pen k).group.length)) :=
        State.requestRetry_only _ _ _
      have hengine : (v.requestRetry k ((s.pen k).expect - BitVec.ofNat 16 (s.pen k).group.length)).pen k = _ := pen_setPen_self v k _
      have hkept : v.pen k = _ := (pen_setPen_self u k _).trans (by rw [hpen])
      rw [hkept] at hengine
      refine ⟨_, congrArg Host.Outcome.next hflit, ?_, congrArg PenEngine.expect hengine, congrArg PenEngine.group hengine,
        congrArg PenEngine.tagFails hengine, congrArg PenEngine.discarding hengine⟩
      exact ((State.setPen_only s k _).mono rfl).trans (((State.setPen_only u k _).mono rfl).trans hasks)
    · rw [if_pos hmany] at hflit
      refine ⟨_, congrArg Host.Outcome.next hflit, ?_, raised_last (Raised.of_raise _ 0x5103 (unitEngine k) 0 0 false)⟩
      rw [raise_pen]
      exact State.linkLost_down _ k
  case idle =>
    intro hopen hgood hkind
    exact ⟨_, congrArg Host.Outcome.next (State.idleFlit_open hopen hgood hkind), State.setPen_only s k _, pen_setPen_self s k _⟩
  case retry =>
    intro hopen hgood hkind
    exact ⟨_, congrArg Host.Outcome.next (State.retryReq_open hopen hgood hkind), State.retryReq_facts s k f⟩

end Sys2Proof.Machine
end

section
/-! SUPPORT and CLAIM. Herd packets (R273, R276 to R278, R281, R287): the ways that a frame goes at a port, what a packet that a port
takes leaves, and the obligation about them. -/

-- Checked one theorem at a time: the package as one text then needs less memory.
set_option Elab.async false

namespace Sys2Proof.Machine

/-! ## Frames at a port (R271, R272) -/

/-- The herd port that is changed. -/
theorem herdPort_setHerd_self (s : State) (i : Nat) (f : HerdPort → HerdPort) : (s.setHerd i f).herdPort i = f (s.herdPort i) := by
  rw [herdPort_setHerd, if_pos rfl]

/-- A frame discarded is counted at its port. -/
theorem State.discardFrame_port (s : State) (i : Nat) :
    (s.discardFrame i).herdPort i = { s.herdPort i with discarded := satAdd (s.herdPort i).discarded 1 } := herdPort_setHerd_self s i _

section
variable {s : State} {i : Nat} {p : HerdPacket}

/-- A port that does not receive takes no packet. -/
theorem State.onFrame_off (h : s.herdOn i = false) (f : State → State) : s.onFrame i p f = s := if_pos (by simp [h])

/-- A frame with a fault is dropped. -/
theorem State.onFrame_fault {e : FrameFault} (hon : s.herdOn i = true) (hfault : s.frameFault i (packetBytes p) = some e)
    (f : State → State) : s.onFrame i p f = if e.counted then s.discardFrame i else s := by
  unfold State.onFrame State.dropFrame
  simp only [hon, hfault, Bool.not_true, Bool.false_eq_true, if_false, Option.isSome_some, if_true]

/-- A frame without a fault hands its packet over. -/
theorem State.onFrame_taken (hon : s.herdOn i = true) (hframe : s.frameFault i (packetBytes p) = none) (f : State → State) :
    s.onFrame i p f = f s := by
  unfold State.onFrame
  simp only [hon, hframe, Bool.not_true, Bool.false_eq_true, if_false, Option.isSome_none]

/-! ## Numbered packets (R276 to R278) -/

/-- A packet whose header the port does not take is discarded and counted. -/
theorem State.numberedFrame_bad {kind : Nat} (h : s.headerGood i kind p.header = false) (f : State → Nat → Bytes → State) :
    s.numberedFrame i kind p f = s.discardFrame i := if_pos (by simp [h])

/-- A packet that has arrived before is acknowledged only. -/
theorem State.numberedFrame_duplicate {kind : Nat} (hheader : s.headerGood i kind p.header = true)
    (hconn : s.mayConnect (packetSource p.header) i = true) (hclear : s.confidential = false) (hplain : bit 0 (field p.header 1 1) = false)
    (hlen : field p.header 6 2 = p.payload.length) (hgot : (s.conn (packetSource p.header) i).got.contains
      (recoverSeq (s.conn (packetSource p.header) i).below (field p.header 8 4)) = true) (f : State → Nat → Bytes → State) :
    s.numberedFrame i kind p f = s.setConn (packetSource p.header) i (fun c => { c with ackDue := true }) :=
  (if_neg (by simp [hheader, hconn, hclear, hplain, hlen])).trans (if_pos (by rw [hgot, Bool.true_or]))

/-- A port that has taken a packet: its acknowledgement is used, and its own is due. -/
def State.packetIn (s : State) (i : Nat) (p : HerdPacket) : State :=
  (s.takeAck (packetSource p.header) i p.header).packetArrived (packetSource p.header) i
    (recoverSeq (s.conn (packetSource p.header) i).below (field p.header 8 4)) (packetCe p)

/-- What a packet that a port takes may change. -/
theorem State.packetIn_only (s : State) (i : Nat) (p : HerdPacket) :
    Only [.out, .stats, .tel, .herd, .conns, .events] s (s.packetIn i p) := arrived_only s _ i p.header _ _

/-- A packet that arrives leaves the fill of its port. -/
theorem packetArrived_fill (s : State) (r i seq : Nat) (ce : Bool) :
    ((s.packetArrived r i seq ce).herdPort i).fill = (s.herdPort i).fill := by
  unfold State.packetArrived
  cases ce
  case false => rfl
  case true =>
    rw [if_pos rfl, herdPort_of (State.raiseOnce_only _ _ _ _ _ _ _), herdPort_setHerd_self]
    rfl

/-- A packet that a port takes leaves the port's fill. -/
theorem State.packetIn_fill (s : State) (i : Nat) (p : HerdPacket) : ((s.packetIn i p).herdPort i).fill = (s.herdPort i).fill := by
  unfold State.packetIn
  rw [packetArrived_fill, herdPort_of (State.takeAck_only s _ i p.header)]

/-! ## DATA packets (R273, R276) -/

/-- Below the XOFF threshold the port's fill is all that a DATA packet changes ahead of its checks. -/
theorem State.bufferFilled_low {fill : Nat} (h : fill ≤ 1572864) (s : State) (i : Nat) :
    s.bufferFilled i fill = s.setHerd i (fun x => { x with fill := fill }) := if_neg (by omega)

/-- A change of its fill leaves whether a port takes a packet. -/
theorem State.packetOpen_fill {kind : Nat} (h : s.packetOpen i kind p) (fill : Nat) :
    (s.setHerd i (fun x => { x with fill := fill })).packetOpen i kind p := by
  obtain ⟨hon, hrest⟩ := h
  refine ⟨?_, hrest⟩
  rw [← hon]
  unfold State.herdOn
  rw [herdPort_setHerd_self]
  rfl

/-- A LEN of one to eight units is a good one. -/
theorem dataLenGood_units {h : Bytes} {n : Nat} (hlen : field h 6 2 = 520 * n) (hlow : 1 ≤ n) (hhigh : n ≤ 8) : dataLenGood h = true := by
  unfold dataLenGood
  rw [hlen, Nat.mul_mod_right, decide_eq_true (by omega)]
  rfl

/-- A DATA packet that the port takes places its units. -/
theorem State.dataPacket_open {fill n : Nat} (h : s.packetOpen i 0 p) (hfill : fill ≤ 1572864) (hlen : field p.header 6 2 = 520 * n)
    (hlow : 1 ≤ n) (hhigh : n ≤ 8) : s.dataPacket i p fill =
      ((s.setHerd i (fun x => { x with fill := fill })).packetIn i p).placeUnits (packetSource p.header) (field p.header 16 4)
        (field p.header 20 4) n (bit 1 (field p.header 1 1)) p.payload := by
  have hfilled := State.packetOpen_fill h fill
  have hnumbered := numbered_open hfilled (fun st src b => st.placeUnits src (field p.header 16 4) (field p.header 20 4)
    (field p.header 6 2 / 520) (bit 1 (field p.header 1 1)) b)
  have hn : field p.header 6 2 / 520 = n := by omega
  unfold State.dataPacket
  rw [State.onFrame_taken h.1 h.2.1]
  dsimp only
  rw [State.bufferFilled_low hfill, dataLenGood_units hlen hlow hhigh, if_pos rfl]
  rw [State.numberedPacket, State.onFrame_taken hfilled.1 hfilled.2.1] at hnumbered
  rw [hnumbered, hn]
  rfl

/-- A DATA packet of a bad LEN is discarded, with XOFF where it fills the receive buffer past the threshold. -/
theorem State.dataPacket_badLen {fill : Nat} (hon : s.herdOn i = true) (hframe : s.frameFault i (packetBytes p) = none)
    (hlen : dataLenGood p.header = false) : s.dataPacket i p fill = (s.bufferFilled i fill).discardFrame i := by
  unfold State.dataPacket
  rw [State.onFrame_taken hon hframe]
  exact if_neg (ne_true_of_eq_false hlen)

/-- XOFF for both priorities when the receive buffer passes its threshold (R273). -/
theorem State.bufferFilled_full {fill : Nat} (hfill : 1572864 < fill) (hopen : (s.herdPort i).xoff = false)
    (htx : (NMap.getD s.active.herd i {}).pfcTx = true) :
    (s.bufferFilled i fill).herdPort i = { s.herdPort i with fill := fill, xoff := true }
    ∧ (s.bufferFilled i fill).out = s.out ++ [.pfc i s.active.pcpCtrl.toNat 0xFFFF, .pfc i s.active.pcpBulk.toNat 0xFFFF] := by
  have hxoff : s.bufferFilled i fill = ((s.setHerd i (fun x => { x with fill := fill })).setHerd i (fun x => { x with xoff := true })).emits
      [.pfc i s.active.pcpCtrl.toNat 0xFFFF, .pfc i s.active.pcpBulk.toNat 0xFFFF] :=
    if_pos ⟨hfill, by rw [hopen]; rfl, htx⟩
  rw [hxoff]
  refine ⟨(herdPort_setHerd_self _ i _).trans ?_, rfl⟩
  rw [herdPort_setHerd_self]

/-! ## Messages of one packet (R276, R287) -/

/-- A control message of one packet arrives whole. -/
theorem controlPart_single {s : State} {src num : Nat} (h : ∀ m ∈ s.fab.msgs, ¬(m.src = src ∧ m.num = num)) (b : Bytes) :
    s.controlPart src num 0 true b = s.controlArrived src b := by
  let whole : Msg := { src := src, num := num, units := [(0, (b, 0, 0))], total := some 1, visible := true }
  have hput : putMsg s.fab.msgs src num (fun m =>
      (if m.visible then { m with units := [], total := none, visible := false } else m).put 0 (b, 0, 0) true) = s.fab.msgs ++ [whole] := by
    rw [putMsg_new _ _ _ _ h]
    rfl
  have hother : ∀ m ∈ s.fab.msgs, (m.src == src && m.num == num && m.visible) = false := fun m hm => by
    have := h m hm
    grind
  have hfind : (s.fab.msgs ++ [whole]).find? (fun m => m.src == src && m.num == num && m.visible) = some whole := by
    rw [List.find?_append, find_none _ _ hother]
    simp [whole]
  have hfilter : (s.fab.msgs ++ [whole]).filter (fun m => !(m.src == src && m.num == num && m.visible)) = s.fab.msgs := by
    rw [List.filter_append, List.filter_eq_self.mpr (fun m hm => by rw [hother m hm]; rfl)]
    simp [whole]
  unfold State.controlPart
  dsimp only
  rw [hput, hfind]
  dsimp only
  rw [hfilter]
  simp only [whole, List.map_cons, List.map_nil, List.flatten_cons, List.flatten_nil, List.append_nil]

/-- A TIME or CONTROL packet that ends its message with its first unit hands the message over. -/
theorem State.controlPacket_open {kind : Nat} (h : s.packetOpen i kind p) (hlast : bit 1 (field p.header 1 1) = true)
    (hunit : field p.header 20 4 = 0)
    (hnew : ∀ m ∈ s.fab.msgs, ¬(m.src = packetSource p.header ∧ m.num = 65536 * 64 + field p.header 16 4)) :
    s.numberedPacket i kind p (fun st src b =>
        st.controlPart src (65536 * 64 + field p.header 16 4) (field p.header 20 4) (bit 1 (field p.header 1 1)) b) =
      (s.packetIn i p).controlArrived (packetSource p.header) p.payload := by
  rw [numbered_open h, hlast, hunit]
  refine controlPart_single ?_ _
  rw [msgs_of (arrived_only s _ i p.header _ _)]
  exact hnew

/-- TIME and CONTROL packets go the same way. -/
theorem exec_controlPacket {kind : Nat} (hkind : kind = 3 ∨ kind = 4) (s : State) (i : Fin 8) (p : HerdPacket) (now : Long) :
    exec (if kind = 3 then .timePacket i p now else .controlPacket i p now) s = .next ((s.timed now).numberedPacket i kind p (fun st src b =>
      st.controlPart src (65536 * 64 + field p.header 16 4) (field p.header 20 4) (bit 1 (field p.header 1 1)) b)) := by
  rcases hkind with rfl | rfl <;> rfl

end

/-! ## The commands -/

/-- Where a port leaves every frame alone, a packet advances the time and nothing else. -/
theorem exec_herdStill {s : State} {i : Fin 8} {p : HerdPacket} {now : Long} (h : ∀ f, (s.timed now).onFrame i p f = s.timed now) :
    (∀ fill, exec (.dataPacket i p fill now) s = .next { s with clk.time := now })
      ∧ exec (.controlPacket i p now) s = .next { s with clk.time := now } ∧ exec (.timePacket i p now) s = .next { s with clk.time := now }
      ∧ exec (.ackPacket i p now) s = .next { s with clk.time := now } ∧ exec (.nak i p now) s = .next { s with clk.time := now } :=
  ⟨fun _ => congrArg _ (h _), congrArg _ (h _), congrArg _ (h _), congrArg _ (h _), congrArg _ (h _)⟩

/-- Every packet but DATA is checked by its frame first, and then by its header. -/
theorem exec_headerChecked {i : Fin 8} {p : HerdPacket} {now : Long} {kind : Nat} {c : Instr} (hc : (kind, c) ∈
      [(1, Instr.ackPacket i p now), (2, .nak i p now), (3, .timePacket i p now), (4, .controlPacket i p now)]) (s : State) :
    ∃ f : State → State, exec c s = .next ((s.timed now).onFrame i p f)
      ∧ ∀ u : State, u.headerGood i kind p.header = false → f u = u.discardFrame i := by
  simp only [List.mem_cons, Prod.mk.injEq, List.not_mem_nil, or_false] at hc
  rcases hc with ⟨rfl, rfl⟩ | ⟨rfl, rfl⟩ | ⟨rfl, rfl⟩ | ⟨rfl, rfl⟩
  · exact ⟨_, rfl, fun _ hbad => if_neg (ne_true_of_eq_false hbad)⟩
  · exact ⟨_, rfl, fun _ hbad => if_neg (ne_true_of_eq_false hbad)⟩
  · exact ⟨_, rfl, fun _ hbad => State.numberedFrame_bad hbad _⟩
  · exact ⟨_, rfl, fun _ hbad => State.numberedFrame_bad hbad _⟩

/-! ## The obligation -/

/-- Settles O42: a frame at a port by `State.onFrame`, a numbered packet by what `State.packetIn` leaves and where its units or its message
go. Which frames are counted is log 41, and how a control message spells itself is log 6. -/
theorem herdPackets : Obligations.HerdPackets := by
  intro s i p now
  refine ⟨?off, ?uncounted, ?discarded, ?data, ?xoff, ?message, ?times, ?duplicate⟩
  case off => exact fun hoff => exec_herdStill (State.onFrame_off (s := s.timed now) hoff)
  case uncounted =>
    rintro hon ⟨e, hfault, huncounted⟩
    exact exec_herdStill fun f =>
      (State.onFrame_fault (s := s.timed now) hon hfault f).trans (if_neg (ne_true_of_eq_false huncounted))
  case discarded =>
    intro kind c hc hon hbad
    obtain ⟨f, hexec, hdiscard⟩ := exec_headerChecked hc s
    have hdiscards : (s.timed now).onFrame i p f = (s.timed now).discardFrame i := by
      rcases hbad with ⟨hframe, hheader⟩ | ⟨e, hfault, hcounted⟩
      · exact (State.onFrame_taken (s := s.timed now) hon hframe f).trans (hdiscard _ hheader)
      · exact (State.onFrame_fault (s := s.timed now) hon hfault f).trans (if_pos hcounted)
    exact ⟨_, hexec.trans (congrArg Host.Outcome.next hdiscards),
      ((timed_only' s now).mono rfl).trans ((State.discardFrame_only _ _).mono rfl), State.discardFrame_port (s.timed now) i⟩
  case data =>
    intro fill n hopen hfill hlen hlow hhigh hcheck
    have hdata := State.dataPacket_open (s := s.timed now) hopen hfill hlen hlow hhigh
    let u := (s.timed now).setHerd i (fun x => { x with fill := fill })
    obtain ⟨hplaced, hunits⟩ := placeUnits_good (packetSource p.header) (field p.header 16 4) (field p.header 20 4) n
      (bit 1 (field p.header 1 1)) p.payload hcheck (u.packetIn i p)
    have hfilled : Only [.time, .herd] s u := ((timed_only' s now).mono rfl).trans ((State.setHerd_only _ _ _).mono rfl)
    refine ⟨_, congrArg Host.Outcome.next hdata, ?_, packet_taken (s := u) hplaced rfl, ?_, hunits⟩
    · exact (hfilled.mono rfl).trans (((u.packetIn_only i p).mono rfl).trans (hplaced.mono rfl))
    · rw [herdPort_of hplaced, State.packetIn_fill, herdPort_setHerd_self]
  case xoff =>
    intro fill hon hframe hlen hfull hopen htx
    obtain ⟨hport, hout⟩ := State.bufferFilled_full (s := s.timed now) (i := i) hfull hopen htx
    refine ⟨_, congrArg Host.Outcome.next (State.dataPacket_badLen (s := s.timed now) hon hframe hlen), ?_, ?_, hout⟩
    · exact ((timed_only' s now).mono rfl).trans (((State.bufferFilled_only _ _ _).mono rfl).trans ((State.discardFrame_only _ _).mono rfl))
    · rw [State.discardFrame_port, hport]
      rfl
  case message =>
    intro kind hkind hopen hresent htimes hlast hunit hnew
    have hmessage := State.controlPacket_open (s := s.timed now) hopen hlast hunit hnew
    rw [State.controlArrived_message hresent htimes] at hmessage
    have hin := (s.timed now).packetIn_only i p
    have hplaced := ((s.timed now).packetIn i p).messageIn_only (packetSource p.header) p.payload
    refine ⟨_, (exec_controlPacket hkind s i p now).trans (congrArg Host.Outcome.next hmessage), ?_, packet_taken (s := s.timed now) hplaced rfl, ?_⟩
    · exact ((timed_only' s now).mono rfl).trans ((hin.mono rfl).trans (hplaced.mono rfl))
    · show (State.messageIn _ _ _).fab.msgs = _
      unfold State.messageIn
      dsimp only
      rw [msgs_of hin]
      rfl
  case times =>
    intro hopen htimes hlast hunit hnew
    have hmessage := State.controlPacket_open (s := s.timed now) hopen hlast hunit hnew
    rw [State.controlArrived, htimes] at hmessage
    have hin := (s.timed now).packetIn_only i p
    have htaken := State.takeTimes_only ((s.timed now).packetIn i p) (packetSource p.header) (slice p.payload 4 (field p.payload 2 2))
    refine ⟨_, congrArg Host.Outcome.next (hmessage.trans (if_pos rfl)), ?_, packet_taken (s := s.timed now) htaken rfl, ?_⟩
    · exact ((timed_only' s now).mono rfl).trans ((hin.mono rfl).trans (htaken.mono rfl))
    · rw [takeTimes_transfer, hin.clk]
      rfl
  case duplicate =>
    intro kind hkind hon hframe hheader hconn hclear hplain hlen hgot
    refine (exec_controlPacket hkind s i p now).trans (congrArg Host.Outcome.next ?_)
    exact (State.onFrame_taken (s := s.timed now) hon hframe _).trans
      (State.numberedFrame_duplicate (s := s.timed now) hheader hconn hclear hplain hlen hgot _)

end Sys2Proof.Machine
end

section
/-! SUPPORT and CLAIM. Herd acknowledgement, congestion, retransmission and gaps (R273, R276, R279, R280): one law for each way that an
acknowledgement, a resend or an unnumbered packet goes, and the obligation about them. -/

-- Checked one theorem at a time: the package as one text then needs less memory.
set_option Elab.async false

namespace Sys2Proof.Machine

/-! ## Changes of one connection -/

/-- Two changes that make the same of a connection are one change. -/
theorem State.setConn_congr {s : State} {r i : Nat} {f g : Conn → Conn} (h : f (s.conn r i) = g (s.conn r i)) :
    s.setConn r i f = s.setConn r i g := by
  have hsame : f (NMap.getD s.fab.conns (connKey r i) {}) = g (NMap.getD s.fab.conns (connKey r i) {}) := h
  simp only [State.setConn, NMap.modify, hsame]

/-- The headers ahead of a packet rest on the active view and the job map. -/
theorem outerHeader_of {m : List Part} {s t : State} (o : Only m s t) (d plane path kind : Nat) (body : Bytes)
    (ha : m.contains .active = false := by rfl) (hp : m.contains .plan = false := by rfl) :
    t.outerHeader d plane path kind body = s.outerHeader d plane path kind body := by
  have hactive : t.active = s.active := o.get .active ha
  have hplan : t.plan = s.plan := o.get .plan hp
  unfold State.outerHeader State.planeAddress State.udpPort State.classPriority State.classDscp State.jobMap State.me
  rw [hactive, hplan]

/-! ## Acknowledgements (R276, R279, R280) -/

section
variable {s : State} {r i : Nat} {h : Bytes}

/-- Without ACK_VALID a header acknowledges nothing. -/
theorem State.takeAck_none (hvalid : bit 2 (field h 1 1) = false) : s.takeAck r i h = s := if_pos (by simp [hvalid])

/-- A connection whose packets below ACK_PSN are freed, where it has sent so far. -/
def State.acked (s : State) (r i : Nat) (h : Bytes) : State :=
  if recoverSeq (s.conn r i).acked (field h 12 4) ≤ (s.conn r i).nextSeq then
    s.setConn r i (fun c => { c with
      acked := recoverSeq (s.conn r i).acked (field h 12 4)
      sent := c.sent.filter (fun p => decide (recoverSeq (s.conn r i).acked (field h 12 4) ≤ p.seq)) })
  else s

/-- An acknowledgement frees packets, may lower the rate, and lets what waits go. -/
theorem State.takeAck_valid (hvalid : bit 2 (field h 1 1) = true) :
    s.takeAck r i h = ((s.acked r i h).lowerRate r i (field h 30 2)).drainTo r i := if_neg (by simp [hvalid])

/-- Freeing packets leaves the rate. -/
theorem State.acked_rate (s : State) (r i : Nat) (h : Bytes) : Only [.conns] s (s.acked r i h)
    ∧ ((s.acked r i h).conn r i).rate = (s.conn r i).rate ∧ ((s.acked r i h).conn r i).lowered = (s.conn r i).lowered := by
  unfold State.acked
  split
  · refine ⟨State.setConn_only _ _ _ _, ?_, ?_⟩ <;> rw [conn_setConn_self]
  · exact ⟨Only.refl s, rfl, rfl⟩

/-- Without CE marks and with nothing waiting, an acknowledgement frees what it covers and nothing else. -/
theorem State.takeAck_frees {a : Nat} (hvalid : bit 2 (field h 1 1) = true) (hce : field h 30 2 = 0) (hwaiting : (s.conn r i).waiting = [])
    (ha : recoverSeq (s.conn r i).acked (field h 12 4) = a) (hsent : a ≤ (s.conn r i).nextSeq) : s.takeAck r i h =
      s.setConn r i (fun c => { c with acked := a, sent := c.sent.filter (fun p => decide (a ≤ p.seq)) }) := by
  have hacked : s.acked r i h = s.setConn r i (fun c => { c with acked := a, sent := c.sent.filter (fun p => decide (a ≤ p.seq)) }) := by
    unfold State.acked
    rw [ha, if_pos hsent]
  have hrate : ∀ u : State, u.lowerRate r i 0 = u := fun _ => if_pos rfl
  rw [State.takeAck_valid hvalid, hce, hrate, hacked]
  refine drainTo_idle ?_
  rw [conn_setConn_self]
  exact hwaiting

/-- A connection whose rate is lowered now. -/
def State.slowed (s : State) (r i : Nat) : State :=
  s.setConn r i (fun c => { c with rate := max (c.rate * 7 / 8) 4194304, lowered := some s.clk.time })

/-- The connection that is slowed. -/
theorem State.slowed_conn (s : State) (r i : Nat) : (s.slowed r i).conn r i =
    { s.conn r i with rate := max ((s.conn r i).rate * 7 / 8) 4194304, lowered := some s.clk.time } := conn_setConn_self s r i _

/-- The first CE marks of a connection lower its rate, and are reported once in the step (R280). -/
theorem State.lowerRate_first {ce : Nat} (hce : ce ≠ 0) (hfirst : (s.conn r i).lowered = none) :
    s.lowerRate r i ce = (s.slowed r i).raiseOnce 0 0x5204 (portUnit i) r := by
  unfold State.lowerRate
  rw [if_neg hce]
  simp only [hfirst, if_true]
  rfl

/-- What waits and leaves keeps the rate of its connection, and raises no event. -/
theorem State.drainTo_rate (s : State) (r i : Nat) : ((s.drainTo r i).conn r i).rate = (s.conn r i).rate
    ∧ ((s.drainTo r i).conn r i).lowered = (s.conn r i).lowered ∧ (s.drainTo r i).lastEvent = s.lastEvent := by
  obtain ⟨hrate, hlowered, -⟩ := (csent_drainConn (s.conn r i).waiting.length s r i r i).keeps
  have hevents : (s.drainTo r i).events = s.events := (State.drainTo_only s r i).get .events
  exact ⟨hrate, hlowered, by rw [State.lastEvent, hevents]; rfl⟩

/-- What an acknowledgement with the first CE marks leaves. -/
theorem State.takeAck_slows (hvalid : bit 2 (field h 1 1) = true) (hce : field h 30 2 ≠ 0) (hfirst : (s.conn r i).lowered = none) :
    ((s.takeAck r i h).conn r i).rate = max ((s.conn r i).rate * 7 / 8) 4194304
    ∧ ((s.takeAck r i h).conn r i).lowered = some s.clk.time
    ∧ (s.events.once.contains (0x5204, 0) = false → (s.takeAck r i h).lastEvent = some 0x5204) := by
  obtain ⟨honly, hrate, hlowered⟩ := s.acked_rate r i h
  have hslowed : Only [.conns] (s.acked r i h) ((s.acked r i h).slowed r i) := State.setConn_only _ _ _ _
  rw [State.takeAck_valid hvalid, State.lowerRate_first hce (hlowered.trans hfirst)]
  obtain ⟨hkeptRate, hkeptLowered, hevent⟩ := (((s.acked r i h).slowed r i).raiseOnce 0 0x5204 (portUnit i) r).drainTo_rate r i
  rw [hkeptRate, hkeptLowered, hevent, conn_of (State.raiseOnce_only _ 0 0x5204 _ _ _ _), State.slowed_conn]
  refine ⟨congrArg (fun n => max (n * 7 / 8) 4194304) hrate, congrArg some (congrArg ClockState.time honly.clk), fun honce => ?_⟩
  refine State.raiseOnce_last ?_ _ _ _ _
  rw [(hslowed.get .events : _ = _), (honly.get .events : _ = _)]
  exact honce

end

/-! ## Sending again (R279) -/

section
variable {s : State} {r i : Nat} {x : SentPacket} {now : Long}

/-- A packet of a class that is not paused goes again at once. -/
theorem State.resendPacket_open (hclass : s.classPaused i (field x.header 0 1 / 16) = false) :
    s.resendPacket r i x now = s.sendAgain r i x now := if_neg (ne_true_of_eq_false hclass)

/-- A packet of a paused class waits for the end of the pause. -/
theorem State.resendPacket_paused (hclass : s.classPaused i (field x.header 0 1 / 16) = true) : s.resendPacket r i x now =
    s.setConn r i (fun c => { c with sent := c.sent.map (fun p => if p.seq = x.seq then { p with held := true } else p) }) := if_pos hclass

/-- The path that a connection takes next in the round robin (R278). -/
def Conn.path (c : Conn) : Nat := Machine.nextPath c.removed c.nextPath

/-- A packet as it stands once it has left again. -/
def SentPacket.again (x : SentPacket) (path : Nat) (now : Long) : SentPacket :=
  { x with path := path, retries := x.retries + 1, sentAt := now, held := false }

/-- A state in which a packet whose loss is entered has left again, before its sixteenth time takes the peer. -/
def State.leftAgain (s : State) (r i : Nat) (x : SentPacket) (now : Long) : State :=
  ((s.setConn r i (fun c => { c with
      nextPath := (s.conn r i).path + 1
      sent := c.sent.map (fun p => if p.seq = x.seq then x.again (s.conn r i).path now else p) })).setHerd
    i (fun h => { h with retx := satAdd h.retx 1 })).emit (.herdPacket i (s.conn r i).path
      (s.outerHeader r i (s.conn r i).path (field x.header 0 1 / 16) (x.header ++ x.payload)) x.header x.payload)

/-- A packet that leaves again changes its connection, the count of its port and what is out. -/
theorem State.leftAgain_only (s : State) (r i : Nat) (x : SentPacket) (now : Long) : Only [.conns, .herd, .out] s (s.leftAgain r i x now) :=
  Only.of (State.emit_only _ _) rfl (Only.of (State.setHerd_only _ _ _) rfl ((State.setConn_only _ _ _ _).mono rfl))

/-- A packet leaves again with the same bytes on the next path, and is counted at the port. -/
theorem State.leftAgain_facts (s : State) (r i : Nat) (x : SentPacket) (now : Long) :
    (s.leftAgain r i x now).out = s.out ++ [.herdPacket i (s.conn r i).path
      (s.outerHeader r i (s.conn r i).path (field x.header 0 1 / 16) (x.header ++ x.payload)) x.header x.payload]
    ∧ ((s.leftAgain r i x now).herdPort i).retx = satAdd (s.herdPort i).retx 1
    ∧ (s.leftAgain r i x now).conn r i = { s.conn r i with
        nextPath := (s.conn r i).path + 1
        sent := (s.conn r i).sent.map (fun p => if p.seq = x.seq then x.again (s.conn r i).path now else p) } := by
  refine ⟨rfl, congrArg HerdPort.retx (herdPort_setHerd_self _ i _), ?_⟩
  unfold State.leftAgain
  rw [conn_emit, conn_of (State.setHerd_only _ _ _), conn_setConn_self]

/-- A loss is entered, the packet leaves again, and the sixteenth time loses the peer. -/
theorem State.sendAgain_eq (s : State) (r i : Nat) (x : SentPacket) (now : Long) : s.sendAgain r i x now =
    if x.retries + 1 = 16 then ((s.pathLoss r i x.path now).leftAgain r i x now).raiseHalt 0x5203 (portUnit i) r
    else (s.pathLoss r i x.path now).leftAgain r i x now := by
  unfold State.sendAgain
  generalize s.pathLoss r i x.path now = u
  rfl

/-- What a packet sent again leaves, whether or not it was the sixteenth time. -/
theorem State.sendAgain_facts {s u : State} {r i : Nat} {x : SentPacket} {now : Long} (hloss : s.pathLoss r i x.path now = u) :
    (s.sendAgain r i x now).out = s.out ++ [.herdPacket i (u.conn r i).path
      (s.outerHeader r i (u.conn r i).path (field x.header 0 1 / 16) (x.header ++ x.payload)) x.header x.payload]
    ∧ ((s.sendAgain r i x now).herdPort i).retx = satAdd (s.herdPort i).retx 1
    ∧ (s.sendAgain r i x now).conn r i = { u.conn r i with
        nextPath := (u.conn r i).path + 1
        sent := (u.conn r i).sent.map (fun p => if p.seq = x.seq then x.again (u.conn r i).path now else p) } := by
  have hentered : Only [.tel, .conns, .events] s u := hloss ▸ State.pathLoss_only s r i x.path now
  have hhalt : Only [.halt, .tel, .events] (u.leftAgain r i x now) (s.sendAgain r i x now) := by
    rw [State.sendAgain_eq, hloss]
    exact Only.ite (fun _ => State.raiseHalt_only _ _ _ _ _) (fun _ => Only.refl _)
  obtain ⟨hout, hretx, hconn⟩ := u.leftAgain_facts r i x now
  have hkept : u.out = s.out := hentered.get .out
  rw [hkept, outerHeader_of hentered] at hout
  rw [herdPort_of hentered] at hretx
  exact ⟨(hhalt.get .out : _ = _).trans hout, (congrArg HerdPort.retx (herdPort_of hhalt rfl i)).trans hretx,
    (conn_of hhalt rfl r i).trans hconn⟩

/-- A packet goes again without an event of its own but the sixteenth time, which loses the peer and halts the job. -/
theorem State.sendAgain_events {s u : State} {r i : Nat} {x : SentPacket} {now : Long} (hloss : s.pathLoss r i x.path now = u) :
    (x.retries ≠ 15 → (s.sendAgain r i x now).events = u.events)
    ∧ (x.retries = 15 → Raised 0x5203 (portUnit i) u (s.sendAgain r i x now)
      ∧ (s.jobRuns = true → (s.sendAgain r i x now).seq.haltPending = true)) := by
  have hagain := u.leftAgain_only r i x now
  rw [State.sendAgain_eq, hloss]
  refine ⟨fun hmore => ?_, fun hlast => ?_⟩
  · rw [if_neg (by omega)]
    exact hagain.get .events
  · obtain ⟨hraised, hseq⟩ := State.raiseHalt_facts (u.leftAgain r i x now) 0x5203 (portUnit i) r 0
    rw [if_pos (by omega)]
    refine ⟨hraised.from (hagain.get .events), fun hruns => ?_⟩
    have hjob := (jobRuns_of hagain).trans (hloss ▸ jobRuns_of (State.pathLoss_only s r i x.path now))
    rw [hseq, hjob, hruns, Bool.or_true]

/-- The eighth loss on a path within 1 ms removes it (R279). -/
theorem State.pathLoss_eighth {path : Nat} {ts : List Long} (hloss : NMap.find? (s.conn r i).lossAt path = some ts) (hlen : ts.length = 7)
    (hrecent : ∀ t ∈ ts, now.toNat < t.toNat + 1000000) (hthere : (s.conn r i).removed.contains path = false) :
    s.pathLoss r i path now = ((s.setConn r i (fun c => { c with lossAt := NMap.insert c.lossAt path (ts ++ [now]) })).setConn r i
      (fun c => { c with removed := path :: c.removed })).raise 0x5202 (portUnit i) path := by
  have hkept : (NMap.getD (s.conn r i).lossAt path []).filter (fun t => decide (now.toNat < t.toNat + 1000000)) = ts := by
    unfold NMap.getD
    rw [hloss]
    exact List.filter_eq_self.mpr fun t ht => decide_eq_true (hrecent t ht)
  unfold State.pathLoss
  simp only [hkept]
  exact if_pos ⟨by simp [hlen], by rw [hthere]; rfl⟩

/-- What the eighth loss on a path leaves of its connection. -/
theorem State.pathLoss_removes {path : Nat} {ts : List Long} (hloss : NMap.find? (s.conn r i).lossAt path = some ts) (hlen : ts.length = 7)
    (hrecent : ∀ t ∈ ts, now.toNat < t.toNat + 1000000) (hthere : (s.conn r i).removed.contains path = false) :
    Raised 0x5202 (portUnit i) s (s.pathLoss r i path now)
    ∧ ((s.pathLoss r i path now).conn r i).removed = path :: (s.conn r i).removed := by
  rw [State.pathLoss_eighth hloss hlen hrecent hthere]
  refine ⟨Raised.of_raise _ 0x5202 (portUnit i) path 0 false, ?_⟩
  rw [conn_of (State.raise_only _ _ _ _ _ _), conn_setConn_self, conn_setConn_self]

/-- A packet that is outstanding goes again once 64 µs have passed since its last send. -/
theorem State.retransmission_found {psn : Nat} (h : (s.conn r i).sent.find? (fun p => p.seq % 2 ^ 32 == psn % 2 ^ 32) = some x) :
    s.retransmission i r psn = if x.sentAt.toNat + 64000 ≤ s.clk.time.toNat then s.resendPacket r i x s.clk.time else s := by
  unfold State.retransmission
  simp only [h]

end

/-! ## Packets that are not numbered (R273, R276, R279) -/

section
variable {s : State} {r i : Nat} {x : LinkItem} (hwaiting : (s.conn r i).waiting = [])
include hwaiting

/-- An item alone on a connection that may send it leaves at once. -/
theorem State.toConn_sends (hruns : (s.conn r i).stopped = false) (hclass : s.classPaused i x.kind = false) (hkind : x.kind = 1 ∨ x.kind = 2) :
    s.toConn r i x = (s.setConn r i (fun c => { c with waiting := [] })).sendItem r i x := by
  let queued := s.setConn r i (fun c => { c with waiting := c.waiting ++ [x] })
  have hconn : queued.conn r i = { s.conn r i with waiting := [x] } := (conn_setConn_self s r i _).trans (by rw [hwaiting]; rfl)
  have hnext : queued.nextPacket r i = some x := by
    have hopen : queued.classPaused i x.kind = false := hclass
    unfold State.nextPacket
    rw [hconn]
    rcases hkind with hack | hnak <;> simp_all
  have htaken : queued.setConn r i (fun c => { c with waiting := c.waiting.erase x }) = s.setConn r i (fun c => { c with waiting := [] }) :=
    (setConn_setConn s r i _ _).trans (State.setConn_congr (by simp [hwaiting]))
  show State.drainConn (queued.conn r i).waiting.length queued r i = _
  rw [hconn]
  show State.drainConn 1 queued r i = _
  unfold State.drainConn
  simp only [hnext, htaken]
  rfl

/-- An item alone on a connection waits while its class is paused. -/
theorem State.toConn_waits (hclass : s.classPaused i x.kind = true) :
    s.toConn r i x = s.setConn r i (fun c => { c with waiting := [x] }) := by
  let queued := s.setConn r i (fun c => { c with waiting := c.waiting ++ [x] })
  have hqueued : queued = s.setConn r i (fun c => { c with waiting := [x] }) := State.setConn_congr (by rw [hwaiting]; rfl)
  have hconn : queued.conn r i = { s.conn r i with waiting := [x] } := by rw [hqueued, conn_setConn_self]
  have hnext : queued.nextPacket r i = none := by
    have hpaused : queued.classPaused i x.kind = true := hclass
    unfold State.nextPacket
    rw [hconn]
    simp [hpaused]
  show State.drainConn (queued.conn r i).waiting.length queued r i = _
  rw [hconn]
  show State.drainConn 1 queued r i = _
  unfold State.drainConn
  simp only [hnext]
  exact hqueued

/-- What an ACK or a NAK leaves: one packet of no payload, which carries the acknowledgement that was due. -/
theorem State.giveUnnumbered_facts {kind psn : Nat} {h : Bytes} (hruns : (s.conn r i).stopped = false)
    (hclass : s.classPaused i kind = false) (hkind : kind = 1 ∨ kind = 2)
    (hheader : s.packetHeader kind 4 r i 0 psn (s.conn r i).below 0 0 s.seq.step.toNat (s.conn r i).ceSince = h) :
    Only [.out, .conns] s (s.giveUnnumbered r i kind psn)
    ∧ (s.giveUnnumbered r i kind psn).out = s.out ++ [.herdPacket i (nextPath (s.conn r i).removed (s.conn r i).nextPath)
        (s.outerHeader r i (nextPath (s.conn r i).removed (s.conn r i).nextPath) kind h) h []]
    ∧ (s.giveUnnumbered r i kind psn).conn r i = { s.conn r i with ackDue := false, ceSince := 0 } := by
  let u := s.setConn r i (fun c => { c with waiting := [] })
  have hu : Only [.conns] s u := State.setConn_only _ _ _ _
  have hconn : u.conn r i = s.conn r i := (conn_setConn_self s r i _).trans (by rw [← hwaiting])
  have hsends : s.giveUnnumbered r i kind psn = u.sendUnnumbered r i kind psn :=
    (State.toConn_sends hwaiting hruns hclass hkind).trans (if_pos hkind)
  have hout : (u.sendUnnumbered r i kind psn).out = s.out ++ [.herdPacket i (nextPath (u.conn r i).removed (u.conn r i).nextPath)
      (u.outerHeader r i (nextPath (u.conn r i).removed (u.conn r i).nextPath) kind
        (s.packetHeader kind 4 r i 0 psn (u.conn r i).below 0 0 s.seq.step.toNat (u.conn r i).ceSince))
      (s.packetHeader kind 4 r i 0 psn (u.conn r i).below 0 0 s.seq.step.toNat (u.conn r i).ceSince) []] := rfl
  have hsent : (u.sendUnnumbered r i kind psn).conn r i = { u.conn r i with ackDue := false, ceSince := 0 } := conn_setConn_self u r i _
  rw [hconn, hheader, outerHeader_of hu] at hout
  rw [hconn] at hsent
  rw [hsends]
  exact ⟨(hu.mono rfl).trans (State.sendUnnumbered_only u r i kind psn), hout, hsent⟩

end

/-- One packet received beyond one that is missing makes a gap of that one. -/
theorem Conn.gap_single {c : Conn} (hgot : c.got = [c.below + 1]) : c.gap = [c.below] := by
  unfold Conn.gap
  rw [hgot]
  simp

/-- A connection that has received nothing beyond its base has no gap. -/
theorem Conn.gap_none {c : Conn} (hgot : c.got = []) : c.gap = [] := by
  unfold Conn.gap
  rw [hgot]

/-! ## The obligation -/

/-- Settles O43: an acknowledgement by what it frees and slows, a resend by `State.sendAgain_facts`, an ACK or a NAK by what
`State.giveUnnumbered` leaves. The class of an ACK and a NAK is log 41; one NAK for each packet of the lowest gap is log 25. -/
theorem herdAcknowledgement : Obligations.HerdAcknowledgement := by
  intro s i p now r
  refine ⟨?frees, ?slows, ?nak, ?retransmission, ?noneSent, ?timeout, rfl, ?noneDue, ?acks, ?paused, ?noGap, ?gap⟩
  case frees =>
    intro a hon hframe hheader hvalid hce hwaiting ha hsent
    have hack : (s.timed now).ackPacket i p = (s.timed now).takeAck (packetSource p.header) i p.header :=
      (State.onFrame_taken (s := s.timed now) hon hframe _).trans (if_pos hheader)
    have hfrees := State.takeAck_frees (s := s.timed now) hvalid hce hwaiting ha hsent
    exact ⟨_, congrArg Host.Outcome.next (hack.trans hfrees), ((timed_only' s now).mono rfl).trans ((State.setConn_only _ _ _ _).mono rfl),
      conn_setConn_self (s.timed now) _ _ _⟩
  case slows =>
    intro hon hframe hheader hvalid hce hfirst
    have hack : (s.timed now).ackPacket i p = (s.timed now).takeAck (packetSource p.header) i p.header :=
      (State.onFrame_taken (s := s.timed now) hon hframe _).trans (if_pos hheader)
    exact ⟨_, congrArg Host.Outcome.next hack, State.takeAck_slows (s := s.timed now) hvalid hce hfirst⟩
  case nak =>
    intro x hon hframe hheader hvalid hfind hclass
    have hnak : (s.timed now).nak i p = (s.timed now).sendAgain (packetSource p.header) i x now := by
      unfold State.nak
      rw [State.onFrame_taken (s := s.timed now) hon hframe]
      refine (if_pos hheader).trans ?_
      dsimp only
      rw [State.takeAck_none hvalid]
      have hfound : ((s.timed now).conn (packetSource p.header) i).sent.find? (fun x => x.seq % 2 ^ 32 == field p.header 8 4) = some x := hfind
      simp only [hfound]
      exact State.resendPacket_open (s := s.timed now) hclass
    generalize hloss : (s.timed now).pathLoss (packetSource p.header) i x.path now = u
    obtain ⟨hout, hretx, -⟩ := State.sendAgain_facts hloss
    refine ⟨_, (u.conn (packetSource p.header) i).path, congrArg Host.Outcome.next hnak, ?_, hretx⟩
    rw [hout]
    exact List.mem_append_right _ (List.mem_singleton_self _)
  case retransmission =>
    intro x psn hfind
    have hfound := State.retransmission_found (s := s.timed now) hfind
    have hagain : x.sentAt.toNat + 64000 ≤ now.toNat → s.classPaused i (field x.header 0 1 / 16) = false →
        (s.timed now).retransmission i r.toNat psn = (s.timed now).sendAgain r.toNat i x now := fun hlate hclass =>
      hfound.trans ((if_pos hlate).trans (State.resendPacket_open (s := s.timed now) hclass))
    refine ⟨fun hearly => ?early, fun hlate hclass => ?held, fun hlate hclass hfirst => ?again,
      fun ts hlate hclass hloss hlen hrecent hthere hmore => ?eighth⟩
    case early => exact congrArg Host.Outcome.next (hfound.trans (if_neg (Nat.not_le.mpr hearly)))
    case held => exact congrArg Host.Outcome.next (hfound.trans ((if_pos hlate).trans (State.resendPacket_paused (s := s.timed now) hclass)))
    case again =>
      have hloss := pathLoss_none (s.timed now) r.toNat i x.path now hfirst
      obtain ⟨hout, hretx, hconn⟩ := State.sendAgain_facts hloss
      obtain ⟨hquiet, hlast⟩ := State.sendAgain_events hloss
      rw [conn_setConn_self] at hout hconn
      exact ⟨_, _, congrArg Host.Outcome.next (hagain hlate hclass), rfl, hout, hretx, congrArg Conn.nextPath hconn, congrArg Conn.sent hconn,
        fun hmore => hquiet hmore, fun hsixteenth => hlast hsixteenth⟩
    case eighth =>
      obtain ⟨hraised, hremoved⟩ := State.pathLoss_removes (s := s.timed now) hloss hlen hrecent hthere
      obtain ⟨-, -, hconn⟩ := State.sendAgain_facts (s := s.timed now) (r := r.toNat) (i := i) (x := x) (now := now) rfl
      obtain ⟨hquiet, -⟩ := State.sendAgain_events (s := s.timed now) (r := r.toNat) (i := i) (x := x) (now := now) rfl
      exact ⟨_, congrArg Host.Outcome.next (hagain hlate hclass), hraised.to (hquiet hmore), (congrArg Conn.removed hconn).trans hremoved⟩
  case noneSent =>
    intro hnone
    exact congrArg Host.Outcome.next (if_pos (by rw [hnone]; rfl))
  case timeout =>
    intro hsome
    obtain ⟨hraised, hseq⟩ := State.raiseHalt_facts s 0x5203 (portUnit i) r.toNat 0
    refine ⟨_, congrArg Host.Outcome.next (if_neg (by simpa using hsome)), hraised, State.raiseHalt_only _ _ _ _ _, fun hruns => ?_⟩
    rw [hseq, hruns, Bool.or_true]
  case noneDue =>
    intro hnone
    exact congrArg Host.Outcome.next (if_neg (by simp [hnone]))
  case acks =>
    intro h hdue hon hwaiting hruns hclass hheader
    obtain ⟨honly, hout, hconn⟩ := State.giveUnnumbered_facts hwaiting hruns hclass (.inl rfl) hheader
    exact ⟨_, _, congrArg Host.Outcome.next (if_pos (by simp [hdue, hon])), honly.mono rfl, hout, hconn⟩
  case paused =>
    intro hdue hon hwaiting hclass
    exact congrArg Host.Outcome.next ((if_pos (by simp [hdue, hon])).trans (State.toConn_waits hwaiting hclass))
  case noGap =>
    intro hnone
    refine congrArg Host.Outcome.next ?_
    unfold State.gapPersists
    rw [Conn.gap_none hnone, List.foldl_nil, ite_self]
  case gap =>
    intro g h hon hgot hg hwaiting hruns hclass hheader
    obtain ⟨honly, hout, -⟩ := State.giveUnnumbered_facts hwaiting hruns hclass (.inr rfl) hheader
    have hgap : s.gapPersists i r.toNat = s.giveUnnumbered r.toNat i 2 ((s.conn r.toNat i).below % 2 ^ 32) := by
      unfold State.gapPersists
      rw [if_pos hon, Conn.gap_single (hg ▸ hgot)]
      rfl
    exact ⟨_, _, congrArg Host.Outcome.next hgap, honly.mono rfl, hout⟩

end Sys2Proof.Machine
end

section
/-! SUPPORT and CLAIM. Herd flow control, discarded frames, planes and joining (R271 to R273, R282, R294, R298, R425): one law for each
way that a command goes, and the obligation about them. -/

-- Checked one theorem at a time: the package as one text then needs less memory.
set_option Elab.async false

namespace Sys2Proof.Machine

/-! ## Flow control (R273) -/

section
variable {s : State} {i q fill quanta : Nat}

/-- XON for both priorities once the receive buffer has fallen below 1 MiB. -/
theorem State.xon_sends (hfill : fill < 1048576) (hxoff : (s.herdPort i).xoff = true) : Only [.herd, .out] s (s.xon i fill)
    ∧ (s.xon i fill).herdPort i = { s.herdPort i with xoff := false, fill := fill }
    ∧ (s.xon i fill).out = s.out ++ [.pfc i s.active.pcpCtrl.toNat 0, .pfc i s.active.pcpBulk.toNat 0] := by
  have hxon : s.xon i fill = (s.setHerd i (fun h => { h with xoff := false, fill := fill })).emits
      [.pfc i s.active.pcpCtrl.toNat 0, .pfc i s.active.pcpBulk.toNat 0] := if_pos ⟨hfill, hxoff⟩
  refine ⟨(State.xon_only s i fill).mono rfl, ?_, ?_⟩
  · rw [hxon]
    exact herdPort_setHerd_self s i _
  · rw [hxon]
    rfl

/-- A fill that stays high, or a port that has sent no XOFF, changes nothing. -/
theorem State.xon_still (h : 1048576 ≤ fill ∨ (s.herdPort i).xoff = false) : s.xon i fill = s := by
  refine if_neg ?_
  rintro ⟨hlow, hxoff⟩
  rcases h with hhigh | hopen
  · omega
  · simp [hopen] at hxoff

/-- A port that does not honour PFC ignores a pause. -/
theorem State.pfcFrame_ignored (hrx : (NMap.getD s.active.herd i {}).pfcRx = false) : s.pfcFrame i q quanta = s :=
  if_pos (by rw [hrx]; rfl)

/-- A PFC frame of no quanta ends the pause. -/
theorem State.pfcFrame_resumes (hrx : (NMap.getD s.active.herd i {}).pfcRx = true) : s.pfcFrame i q 0 = s.resume i q :=
  (if_neg (by rw [hrx]; decide)).trans (if_pos rfl)

/-- A state in which a priority of a port is paused for some quanta. -/
def State.pausedFor (s : State) (i q quanta : Nat) : State := s.setHerd i (fun h => { h with
  paused := NMap.insert h.paused q quanta
  pauseSince := if (NMap.find? h.paused q).isSome then h.pauseSince else NMap.insert h.pauseSince q s.clk.time })

/-- A PFC frame of some quanta pauses its priority. -/
theorem State.pfcFrame_pauses (hrx : (NMap.getD s.active.herd i {}).pfcRx = true) (hquanta : quanta ≠ 0) :
    s.pfcFrame i q quanta = s.pausedFor i q quanta := (if_neg (by rw [hrx]; decide)).trans (if_neg hquanta)

/-- What a pause leaves of the port: the quanta of its priority, and since when it is paused without a break. -/
theorem State.pausedFor_facts (s : State) (i q quanta : Nat) :
    NMap.find? ((s.pausedFor i q quanta).herdPort i).paused q = some quanta
    ∧ (∀ a, a ≠ q → NMap.find? ((s.pausedFor i q quanta).herdPort i).paused a = NMap.find? (s.herdPort i).paused a)
    ∧ (NMap.find? (s.herdPort i).paused q = none → NMap.find? ((s.pausedFor i q quanta).herdPort i).pauseSince q = some s.clk.time) := by
  have hport := herdPort_setHerd_self s i (fun h => { h with
    paused := NMap.insert h.paused q quanta
    pauseSince := if (NMap.find? h.paused q).isSome then h.pauseSince else NMap.insert h.pauseSince q s.clk.time })
  rw [State.pausedFor, hport]
  refine ⟨NMap.find?_insert_self _ _ _, fun a ha => find_insert_ne _ _ _ _ ha, fun hnew => ?_⟩
  simp [hnew]

/-- A priority paused for 10 ms is reported. -/
theorem State.pfcStorm_paused (h : NMap.find? (s.herdPort i).paused q ≠ none) : s.pfcStorm i q = s.raise 0x5205 (portUnit i) q :=
  if_pos (Option.isSome_iff_ne_none.mpr h)

end

/-! ## Frames that are discarded (R271, R272) -/

/-- Every fault but LLDP and an extension header is counted. -/
theorem FrameFault.counted_iff (e : FrameFault) : e.counted = true ↔ e ≠ .lldp ∧ e ≠ .extension := by
  cases e <;> simp [FrameFault.counted]

section
variable {s : State} {i : Nat} {f : Bytes}

/-- A frame without a fault is not dropped. -/
theorem State.dropFrame_none (h : s.frameFault i f = none) : s.dropFrame i f = s := by
  unfold State.dropFrame
  simp only [h]

/-- A frame with a fault is discarded, and counted by its fault. -/
theorem State.dropFrame_some {e : FrameFault} (h : s.frameFault i f = some e) :
    s.dropFrame i f = if e.counted then s.discardFrame i else s := by
  unfold State.dropFrame
  simp only [h]

/-- A frame of more than 4,352 bytes with its FCS is oversize. -/
theorem State.frameFault_oversize (h : 4352 < f.length + 4) : s.frameFault i f = some .oversize := if_pos h

variable (hlen : f.length + 4 ≤ 4352) (hlldp : beField f 12 2 ≠ 0x88CC)
include hlen hlldp

/-- A frame for another MAC is not taken. -/
theorem State.frameFault_wrongMac (hmac : beField f 0 6 ≠ (NMap.getD s.active.herd i {}).srcMac.toNat) :
    s.frameFault i f = some .wrongMac :=
  (if_neg (Nat.not_lt.mpr hlen)).trans ((if_neg hlldp).trans (if_pos hmac))

/-- A UDP packet for another address than this module's on the plane is not taken. -/
theorem State.frameFault_wrongAddress (hmac : beField f 0 6 = (NMap.getD s.active.herd i {}).srcMac.toNat)
    (htag : beField f 12 2 = 0x8100) (hipv6 : beField f 16 2 = 0x86DD) (hudp : beField f 24 1 = 17)
    (haddress : slice f 42 16 ≠ s.planeAddress s.me i) : s.frameFault i f = some .wrongAddress := by
  have hpacket : s.packetFault i f = some .wrongAddress := by
    unfold State.packetFault
    simp only [hudp]
    exact if_neg haddress
  unfold State.frameFault
  rw [if_neg (Nat.not_lt.mpr hlen), if_neg hlldp, if_neg (not_not.mpr hmac), if_neg (not_not.mpr htag), if_neg (by rw [hipv6]; decide),
    if_neg (not_not.mpr hipv6), hpacket]

end

/-! ## Planes (R282) -/

/-- A port that has lost lock, with its event. -/
def State.lockLost (s : State) (i : Nat) : State :=
  (s.setHerd i (fun h => { h with pcsLock := false, localFault := true, paused := [], pauseSince := [], xoff := false })).raise 0x5201
    (portUnit i)

/-- A port without lock has none to lose. -/
theorem State.portDown_unlocked {s : State} {i : Nat} (h : (s.herdPort i).pcsLock = false) : s.portDown i = s :=
  if_pos (by rw [h]; rfl)

/-- A port that loses lock stops every connection of its plane. -/
theorem State.portDown_locked {s : State} {i : Nat} (h : (s.herdPort i).pcsLock = true) :
    s.portDown i = (((s.fab.conns.map (·.1)).filter (fun e => e % 8 == i)).map (· / 8)).foldl (fun (st : State) m => st.stopConn m i)
      (s.lockLost i) := by
  have hconns : (s.lockLost i).fab.conns = s.fab.conns := (State.raise_only _ _ _ _ _ _).get .conns
  rw [← hconns]
  exact if_neg (by rw [h]; decide)

/-- What a plane that goes down leaves. -/
theorem State.portDown_facts {s : State} {i : Nat} (h : (s.herdPort i).pcsLock = true) :
    Raised 0x5201 (portUnit i) s (s.lockLost i) ∧ Only [.out, .stats, .conns] (s.lockLost i) (s.portDown i)
    ∧ (s.portDown i).herdPort i =
      { s.herdPort i with pcsLock := false, localFault := true, paused := [], pauseSince := [], xoff := false }
    ∧ (∀ e ∈ s.fab.conns, e.1 % 8 = i → ((s.portDown i).conn (e.1 / 8) i).stopped = true) := by
  have hstops : Only [.out, .stats, .conns] (s.lockLost i) (s.portDown i) := by
    rw [State.portDown_locked h]
    exact Only.foldl (fun t m => State.stopConn_only t m i) _ _
  refine ⟨Raised.of_raise _ 0x5201 (portUnit i) 0 0 false, hstops, ?_, fun e he hplane => ?_⟩
  · rw [herdPort_of hstops, State.lockLost, herdPort_of (State.raise_only _ _ _ _ _ _), herdPort_setHerd_self]
  · rw [State.portDown_locked h]
    refine stopConns _ _ i _ (.inl (List.mem_map.mpr ⟨e.1, ?_, rfl⟩))
    exact List.mem_filter.mpr ⟨List.mem_map.mpr ⟨e, he, rfl⟩, by simp [hplane]⟩

/-! ## Joining (R294, R425) -/

/-- An event leaves the fabric. -/
theorem raise_fab (s : State) (code : Nat) (unit : Half) (ident qty : Nat) (halts : Bool) :
    (s.raise code unit ident qty halts).fab = s.fab := by simp only [State.raise_rest]

/-- The tick master, the tree and the period rest on the plan and the active view. -/
theorem tree_of {m : List Part} {s t : State} (o : Only m s t) (ha : m.contains .active = false := by rfl)
    (hp : m.contains .plan = false := by rfl) : t.isMaster = s.isMaster ∧ t.treeChildren = s.treeChildren ∧ t.period = s.period := by
  have hactive : t.active = s.active := o.get .active ha
  have hplan : t.plan = s.plan := o.get .plan hp
  unfold State.isMaster State.treeChildren State.period State.modules State.tickMaster State.jobMap State.me
  rw [hactive, hplan]
  exact ⟨rfl, rfl, rfl⟩

/-- A state that has heard a JOIN. -/
def State.joinHeard (s : State) (m : BitVec 12) : State := { s with seq.joinFrom := s.seq.joinFrom ++ [m] }

section
variable {s : State} {m : BitVec 12}

/-- A JOIN heard before changes nothing. -/
theorem State.joinMessage_again (h : s.seq.joinFrom.contains m = true) : s.joinMessage m = s := if_pos h

/-- A new JOIN may be passed on, and may be the last that the tick master waits for. -/
theorem State.joinMessage_new (h : s.seq.joinFrom.contains m = false) : s.joinMessage m = (s.joinHeard m).sendJoin.announceStart :=
  if_neg (ne_true_of_eq_false h)

/-- A module that has not joined itself passes nothing on. -/
theorem State.join_unjoined (h : s.seq.joined = false) : s.sendJoin.announceStart = s := by
  have hsend : s.sendJoin = s := if_neg (by simp [h])
  rw [hsend]
  exact if_neg (by simp [h])

/-- The tick master of a job that starts announces T_0 once every child has joined: the first tick at least two periods on. -/
theorem State.announceStart_t0 (hmaster : s.isMaster = true) (hjoined : s.seq.joined = true) (hpending : s.seq.startPending = true)
    (hnone : s.clk.t0 = none) (hall : ∀ c ∈ s.treeChildren, ∃ j ∈ s.seq.joinFrom, j.toNat = c) :
    s.announceStart.clk.t0 = some (BitVec.ofNat 64 (s.clk.lastTick.toNat
      + ceilDiv (s.clk.time.toNat + 2 * (s.period * 1000) - s.clk.lastTick.toNat) (s.period * 1000) * (s.period * 1000))) := by
  have hheard : s.treeChildren.all (fun m => s.seq.joinFrom.any (fun j => j.toNat == m)) = true := by simpa using hall
  unfold State.announceStart
  rw [if_pos (by simp only [hmaster, hjoined, hpending, hheard, hnone, Option.isNone_none, Bool.and_self])]
  exact congrArg ClockState.t0 (State.messages_only _ _ _ _).clk

/-- Passing a JOIN on leaves what the tick master's announcement rests on. -/
theorem State.joinMessage_t0 (hnew : s.seq.joinFrom.contains m = false) (hmaster : s.isMaster = true) (hjoined : s.seq.joined = true)
    (hpending : s.seq.startPending = true) (hnone : s.clk.t0 = none)
    (hall : ∀ c ∈ s.treeChildren, ∃ j ∈ s.seq.joinFrom ++ [m], j.toNat = c) :
    (s.joinMessage m).clk.t0 = some (BitVec.ofNat 64 (s.clk.lastTick.toNat
      + ceilDiv (s.clk.time.toNat + 2 * (s.period * 1000) - s.clk.lastTick.toNat) (s.period * 1000) * (s.period * 1000))) := by
  have hsent := State.sendJoin_only (s.joinHeard m)
  obtain ⟨hmasterKept, hchildren, hperiod⟩ := tree_of hsent
  obtain ⟨-, -, -, -, -, -, hjoinedKept, hfrom, -⟩ := hsent.get .seq
  have hclk := hsent.clk
  have ht0 := State.announceStart_t0 (s := (s.joinHeard m).sendJoin) (hmasterKept.trans hmaster) (hjoinedKept.trans hjoined)
    ((hsent.get .job).2.1.trans hpending) ((congrArg ClockState.t0 hclk).trans hnone) (by rw [hchildren, hfrom]; exact hall)
  rw [hclk, hperiod] at ht0
  rw [State.joinMessage_new hnew]
  exact ht0

/-- What a new JOIN leaves of those heard. -/
theorem State.joinMessage_heard (hnew : s.seq.joinFrom.contains m = false) : (s.joinMessage m).seq.joinFrom = s.seq.joinFrom ++ [m] := by
  obtain ⟨-, -, -, -, -, -, -, hpassed, -⟩ := (State.sendJoin_only (s.joinHeard m)).get .seq
  obtain ⟨-, -, -, -, -, -, -, hannounced, -⟩ := (State.announceStart_only (s.joinHeard m).sendJoin).get .seq
  rw [State.joinMessage_new hnew]
  exact hannounced.trans hpassed

end

/-- A state that has kept a peer's map digest. -/
def State.digestKept (s : State) (m : Nat) (d : BitVec 256) : State :=
  { s with fab.mapDigests := (s.fab.mapDigests.filter (fun e => e.1 != m)) ++ [(m, d)] }

/-- A digest kept changes the messages' part alone. -/
theorem State.digestKept_only (s : State) (m : Nat) (d : BitVec 256) : Only [.msgs] s (s.digestKept m d) := by
  refine ⟨rfl, fun p => ?_⟩
  cases p
  case msgs => exact .inl (by decide)
  all_goals exact .inr (by simp [Part.same, State.digestKept])

section
variable {s : State} {m : Nat} {d : BitVec 256}

/-- A digest that is this module's, or that comes while it does not start, is kept. -/
theorem State.mapDigest_kept (h : s.idle = true → s.seq.startPending = true → d = s.ownMapDigest) : s.mapDigest m d = s.digestKept m d := by
  refine if_neg ?_
  simp only [Bool.and_eq_true, bne_iff_ne, ne_eq]
  rintro ⟨⟨hidle, hpending⟩, hdiffers⟩
  exact hdiffers (h hidle hpending)

/-- A starting module that has found a digest that differs: its connections close again. -/
def State.mismatched (s : State) : State := { s.closeConnections with fab.mismatch := true, seq.startPending := false }

/-- A digest that differs keeps a starting module from joining, with MAP_MISMATCH. -/
theorem State.mapDigest_differs (hidle : s.idle = true) (hpending : s.seq.startPending = true) (hd : d ≠ s.ownMapDigest) :
    s.mapDigest m d = (s.digestKept m d).mismatched.raise 0x5303 :=
  if_pos (by simp [hidle, hpending, hd])

/-- PEER_ABSENT while no start is pending changes nothing. -/
theorem State.peerAbsent_still (h : s.idle = false ∨ s.seq.startPending = false ∨ s.clk.t0 ≠ none) : s.peerAbsent = s := by
  refine if_neg ?_
  simp only [Bool.and_eq_true, Option.isNone_iff_eq_none]
  rintro ⟨⟨hidle, hpending⟩, hnone⟩
  rcases h with h | h | h
  · simp [h] at hidle
  · simp [h] at hpending
  · exact h hnone

/-- A start that is abandoned: the connections close again. -/
def State.abandoned (s : State) : State := ({ s with seq.startPending := false } : State).closeConnections

/-- PEER_ABSENT abandons the start that is pending, and the tick master reports it. -/
theorem State.peerAbsent_abandons (hidle : s.idle = true) (hpending : s.seq.startPending = true) (hnone : s.clk.t0 = none) :
    s.peerAbsent = if s.isMaster then s.abandoned.raise 0x5304 else s.abandoned :=
  if_pos (by simp [hidle, hpending, hnone])

end

/-! ## The obligation -/

/-- Settles O44: each command by its equation above. LLDP frames and extension headers are not counted, and PEER_ABSENT is silent off the
tick master (log 25); local and remote fault are log 41, and commands that come too late or too early are no-ops (log 32). -/
theorem herdFlowAndJoining : Obligations.HerdFlowAndJoining := by
  intro s i q now
  refine ⟨fun fill hfill hxoff => ⟨_, rfl, State.xon_sends hfill hxoff⟩, fun fill h => congrArg Host.Outcome.next (State.xon_still h),
    fun quanta hrx => congrArg Host.Outcome.next (State.pfcFrame_ignored (s := s.timed now) hrx), ?pauses, ?resumes, ?expiry,
    fun hnone => congrArg Host.Outcome.next (if_neg (by simp [hnone])), ?storm, ?pauseFrame, ?silent, ?counted,
    fun f h => State.frameFault_oversize h, fun f hlen hlldp => ⟨State.frameFault_wrongMac hlen hlldp, State.frameFault_wrongAddress hlen hlldp⟩,
    fun h => congrArg Host.Outcome.next (State.portDown_unlocked h), fun h => ⟨_, _, rfl, State.portDown_facts h⟩, ?lock, ?joinAgain, ?joinNew,
    ?digestKept, ?digestDiffers, fun h => congrArg Host.Outcome.next (State.peerAbsent_still h), ?absent⟩
  case pauses =>
    intro quanta hrx hquanta
    have hpauses := State.pfcFrame_pauses (s := s.timed now) (q := q) hrx (fun h => hquanta (BitVec.eq_of_toNat_eq h))
    exact ⟨_, congrArg Host.Outcome.next hpauses, ((timed_only' s now).mono rfl).trans ((State.setHerd_only _ _ _).mono rfl),
      (s.timed now).pausedFor_facts i q quanta.toNat⟩
  case resumes =>
    intro hrx
    obtain ⟨honly, hpaused, -⟩ := resume_facts (s.timed now) i q
    exact ⟨_, congrArg Host.Outcome.next (State.pfcFrame_resumes (s := s.timed now) hrx),
      ((timed_only' s now).mono rfl).trans (honly.mono rfl), hpaused⟩
  case expiry => exact ⟨_, rfl, resume_facts s i q⟩
  case storm =>
    intro hpaused
    exact ⟨_, congrArg Host.Outcome.next (State.pfcStorm_paused hpaused), State.raise_only _ _ _ _ _ _,
      Raised.of_raise s 0x5205 (portUnit i) q 0 false⟩
  case pauseFrame => exact ⟨_, rfl, State.setHerd_only _ _ _, herdPort_setHerd_self s i _⟩
  case silent =>
    intro f h
    refine congrArg Host.Outcome.next ?_
    rcases h with h | h | h
    · exact State.dropFrame_none h
    · exact State.dropFrame_some h
    · exact State.dropFrame_some h
  case counted =>
    intro f e h hlldp hextension
    have hdrop := (State.dropFrame_some h).trans (if_pos (e.counted_iff.mpr ⟨hlldp, hextension⟩))
    exact ⟨_, congrArg Host.Outcome.next hdrop, State.discardFrame_only s i, State.discardFrame_port s i⟩
  case lock => exact fun rf => ⟨_, rfl, State.setHerd_only _ _ _, herdPort_setHerd_self s i _⟩
  case joinAgain => exact fun m h => congrArg Host.Outcome.next (State.joinMessage_again (s := s.timed now) h)
  case joinNew =>
    intro m hnew
    refine ⟨_, rfl, ((timed_only' s now).mono rfl).trans ((State.joinMessage_only _ _).mono rfl),
      State.joinMessage_heard (s := s.timed now) hnew, fun hunjoined => ?_, fun hmaster hjoined hpending hnone hall => ?_⟩
    · exact (State.joinMessage_new (s := s.timed now) hnew).trans (State.join_unjoined (s := (s.timed now).joinHeard m) hunjoined)
    · refine ⟨_, State.joinMessage_t0 (s := s.timed now) hnew hmaster hjoined hpending hnone hall, fun hnow hlast hperiod => ?_⟩
      exact announced _ _ _ (by omega) hlast hnow
  case digestKept =>
    intro m d h
    exact ⟨_, congrArg Host.Outcome.next (State.mapDigest_kept h), State.digestKept_only _ _ _, rfl⟩
  case digestDiffers =>
    intro m d hidle hpending hd
    refine ⟨_, rfl, (State.mapDigest_only s m.toNat d).mono rfl, ?_⟩
    rw [State.mapDigest_differs hidle hpending hd]
    refine ⟨Raised.of_raise _ 0x5303 0 0 0 false, ?_, ?_, ?_⟩
    · exact congrArg SeqState.startPending (raise_seq _ _ _ _ _ _)
    · exact congrArg FabState.mismatch (raise_fab _ _ _ _ _ _)
    · exact congrArg FabState.conns (raise_fab _ _ _ _ _ _)
  case absent =>
    intro hidle hpending hnone
    refine ⟨_, rfl, (State.peerAbsent_only s).mono rfl, ?_⟩
    rw [State.peerAbsent_abandons hidle hpending hnone]
    cases s.isMaster
    case true =>
      refine ⟨?_, ?_, ?_, fun _ => Raised.of_raise _ 0x5304 0 0 0 false, nofun⟩
      · exact congrArg SeqState.startPending (raise_seq _ _ _ _ _ _)
      · exact congrArg SeqState.joined (raise_seq _ _ _ _ _ _)
      · exact congrArg FabState.conns (raise_fab _ _ _ _ _ _)
    case false => exact ⟨rfl, rfl, rfl, nofun, fun _ => rfl⟩

end Sys2Proof.Machine
end

section
/-! SUPPORT and CLAIM. Memory ports (R304, R311 to R316, R319, R322): what a block read, a write through the write buffer, its acknowledgement
and a regulated issue leave, one law for each way that they go, and the obligation about them. -/

-- Checked one theorem at a time: the package as one text then needs less memory.
set_option Elab.async false

namespace Sys2Proof.Machine

/-! ## What memory rests on -/

/-- Where a block lies rests on the active view (R305). -/
theorem place_of {m : List Part} {s t : State} (o : Only m s t) (h : m.contains .active = false := by rfl) (b : Nat) :
    t.place b = s.place b := by
  unfold State.place State.interleave State.channelCount State.excluded
  rw [o.get .active h]

/-- Whether a stage of a running step reads rests on the job, its phases and its tail. -/
theorem stageReads_of {m : List Part} {s t : State} (o : Only m s t) (hjob : m.contains .job = false := by rfl)
    (hphases : m.contains .phases = false := by rfl) (htail : m.contains .tail = false := by rfl) : t.stageReads = s.stageReads := by
  unfold State.stageReads State.inEvaluation State.phase
  rw [jobRuns_of o hjob, o.get .phases hphases, o.get .tail htail]

/-- The writes that wait are the same. -/
theorem waiting_of {m : List Part} {s t : State} (o : Only m s t) (h : m.contains .channels = false := by rfl) :
    t.mem.waiting = s.mem.waiting := by
  obtain ⟨-, -, hwaiting, -⟩ := o.get .channels h
  exact hwaiting

/-- An event leaves memory. -/
theorem raise_mem (s : State) (code : Nat) (unit : Half) (ident qty : Nat) (halts : Bool) :
    (s.raise code unit ident qty halts).mem = s.mem := by simp only [State.raise_rest]

/-! ## Reads (R311) -/

/-- A block that a port delivers is counted. -/
def State.blockCounted (s : State) : State := { s with seq.stats.hbmBytes := s.seq.stats.hbmBytes + 512 }

/-- Counting a block changes the step's counts alone. -/
theorem State.blockCounted_only (s : State) : Only [.stats] s s.blockCounted := by
  refine ⟨rfl, fun p => ?_⟩
  cases p
  case stats => exact .inl (by decide)
  all_goals exact .inr (by simp [Part.same, State.blockCounted])

/-- A counted fault leaves memory. -/
theorem countedFault_mem (s : State) (u : Half) : (s.countedFault u).mem = s.mem := by
  unfold State.countedFault
  simp only []
  split_ifs <;> simp only [raise_mem] <;> rfl

/-- A block that failed its reads is counted, and BLOCK_BAD is raised for its channel. -/
theorem State.blockBad_facts (s : State) (b : Nat) : (∃ u : State, Raised 0x4101 (unitChannel (s.place b).1) u (s.blockBad b))
    ∧ (s.blockBad b).mem = { s.mem with blockErr := satAdd s.mem.blockErr 1 } := by
  refine ⟨⟨_, Raised.of_raise _ 0x4101 _ 0 _ false⟩, ?_⟩
  exact (raise_mem _ _ _ _ _ _).trans (countedFault_mem _ _)

section
variable {s : State} {b : Nat}

/-- A block whose first read holds is delivered. -/
theorem State.stageBlock_first {x : Bytes × Word} (hblock : s.blockAt b = some x) : (s.stageBlock b 0).1 = s.blockCounted := by
  unfold State.stageBlock State.readBlock
  rw [hblock]
  rfl

/-- A block whose second or third read holds is delivered, with a fault counted against its channel. -/
theorem State.stageBlock_again {x : Bytes × Word} (hblock : s.blockAt b = some x) {r : Nat} (hr : r = 1 ∨ r = 2) :
    (s.stageBlock b r).1 = s.blockCounted.countedFault (unitChannel (s.place b).1) := by
  unfold State.stageBlock State.readBlock
  rw [hblock]
  rcases hr with rfl | rfl <;> rfl

/-- A block that fails three reads, or does not verify, is marked failed; outside the stages of a step that is all. -/
theorem State.stageBlock_fails {r : Nat} (h : r = 3 ∨ s.blockAt b = none) (hstage : s.stageReads = false) :
    ∃ u : State, Only [.stats] s u ∧ (s.stageBlock b r).1 = u.blockBad b := by
  have hquiet {u : State} (hu : Only [.stats] s u) : (u.blockBad b).readFaults [b] none = u.blockBad b := by
    have hreads : (u.blockBad b).stageReads = false := ((stageReads_of (State.blockBad_only u b)).trans (stageReads_of hu)).trans hstage
    exact if_pos (by simp [hreads])
  unfold State.stageBlock State.readBlock
  cases hblock : s.blockAt b with
  | none => exact ⟨s, Only.refl s, hquiet (Only.refl s)⟩
  | some x =>
    obtain rfl : r = 3 := h.resolve_right (by simp [hblock])
    exact ⟨s.blockCounted, s.blockCounted_only, hquiet s.blockCounted_only⟩

end

/-- A read inside the usable space, of a block whose port issues it. -/
theorem exec_blockRead {s : State} {addr : Nat} (hin : addr < s.blockCount * 512) (hopen : s.accessible (addr / 512) = true) (r : Fin 4) :
    exec (.blockRead addr r) s = .next (s.stageBlock (addr / 512) r.val).1 :=
  (if_neg (by omega)).trans (if_pos hopen)

/-! ## Writes (R313 to R316) -/

/-- A write inside the usable space. -/
theorem exec_recordWrite {s : State} {addr : Nat} (hin : addr < s.blockCount * 512) (d : Bytes) (g : Word) (r : Fin 4) :
    exec (.recordWrite addr d g r) s = .next (s.recordWrite addr d g r.val) := if_neg (by omega)

/-- A write is stored as it came but where it is a dense record with zeros to follow: not without a plan, and not when it fills its block. -/
theorem State.denseTail_same {s : State} {d : Bytes} (h : s.plan = none ∨ d.length = 512) (addr : Nat) : s.denseTail addr d = d := by
  unfold State.denseTail
  rcases h with hplan | hlen
  · rw [hplan]; rfl
  · split
    · next t ht =>
      extract_lets b
      split
      · next hrec =>
        have hsize : denseSize t.planes = 512 := hrec.2.symm.trans hlen
        unfold recordTail
        simp [hsize, perBlock, padTo, hlen, Nat.mod_one]
      · rfl
    · rfl

/-- A write buffer's entry takes a write. -/
def State.entered (s : State) (k e : Nat) (x : WriteEntry) : State :=
  s.setStack k (fun st => { st with buffer := NMap.insert st.buffer e x })

/-- An entry taken changes its port alone. -/
theorem State.entered_only (s : State) (k e : Nat) (x : WriteEntry) : Only [.channels] s (s.entered k e x) := State.setStack_only _ _ _

/-- The buffer whose entry takes a write. -/
theorem State.entered_buffer (s : State) (k e : Nat) (x : WriteEntry) :
    ((s.entered k e x).stack k).buffer = NMap.insert (s.stack k).buffer e x := by
  unfold State.entered
  rw [State.stack_setStack, if_pos rfl]

/-- An entry taken raises no event and counts no failed block. -/
theorem State.entered_counts (s : State) (k e : Nat) (x : WriteEntry) :
    (s.entered k e x).lastEvent = s.lastEvent ∧ (s.entered k e x).mem.blockErr = s.mem.blockErr := ⟨rfl, rfl⟩

/-- The merge read of a block has failed three times (R315). -/
def State.mergeFailed (s : State) (b : Nat) : State :=
  (s.blockBad b).raise 0x4102 (unitChannel (s.place b).1) 0 (s.channelByte b)

/-- A failed merge read counts the block and leaves BLOCK_REBUILT as the newest event; the rest of memory stays. -/
theorem State.mergeFailed_facts (s : State) (b : Nat) : (s.mergeFailed b).lastEvent = some 0x4102
    ∧ (s.mergeFailed b).mem = { s.mem with blockErr := satAdd s.mem.blockErr 1 } := by
  obtain ⟨-, hmem⟩ := s.blockBad_facts b
  refine ⟨raised_last (Raised.of_raise _ 0x4102 _ _ _ _), ?_⟩
  exact (raise_mem _ _ _ _ _ _).trans hmem

section
variable {s : State} {w : WaitingWrite}

/-- A write waits behind another of its block, and for a free entry. -/
theorem State.portWrite_waits (h : (s.stack ((s.place (w.addr / 512)).1 / 32)).busyBlock (w.addr / 512) = true
      ∨ (s.stack ((s.place (w.addr / 512)).1 / 32)).freeEntry = none) :
    s.portWrite w = { s with mem.waiting := s.mem.waiting ++ [w] } := by
  have hwaits : s.enterWrite w = none := by
    unfold State.enterWrite
    simp only []
    rcases h with h | h
    · exact if_pos h
    · rw [h]; exact ite_self none
  unfold State.portWrite
  rw [hwaits]

variable {e : Nat} {g : Word} (hfree : (s.stack ((s.place (w.addr / 512)).1 / 32)).freeEntry = some e)
  (hidle : (s.stack ((s.place (w.addr / 512)).1 / 32)).busyBlock (w.addr / 512) = false) (htag : w.tag = some g)
include hfree hidle htag

/-- A whole block enters as it came. -/
theorem State.portWrite_whole (hlen : w.bytes.length = 512) : s.portWrite w =
    s.entered ((s.place (w.addr / 512)).1 / 32) e (.committed (w.addr / 512) w.bytes g w.src) := by
  unfold State.portWrite State.enterWrite
  simp [hidle, hfree, htag, hlen, State.entered]

/-- A part of a block enters merged with the block as it stands. -/
theorem State.portWrite_merged {old : Bytes × Word} (hlen : w.bytes.length < 512) (hmerge : w.mergeFails = false)
    (hblock : s.blockAt (w.addr / 512) = some old) : s.portWrite w =
    s.entered ((s.place (w.addr / 512)).1 / 32) e (.committed (w.addr / 512) (splice old.1 (w.addr % 512) w.bytes) g w.src) := by
  have hpart : ¬512 ≤ w.bytes.length := by omega
  unfold State.portWrite State.enterWrite
  simp [hidle, hfree, htag, hpart, hmerge, hblock, State.entered, mergeBlock]

/-- A part of a block whose merge read fails enters with 0xFF around it. -/
theorem State.portWrite_unmerged (hlen : w.bytes.length < 512) (hmerge : w.mergeFails = true) : s.portWrite w =
    (s.mergeFailed (w.addr / 512)).entered ((s.place (w.addr / 512)).1 / 32) e
      (.committed (w.addr / 512) (mergeBlock none (w.addr % 512) w.bytes) g w.src) := by
  have hpart : ¬512 ≤ w.bytes.length := by omega
  unfold State.portWrite State.enterWrite
  simp [hidle, hfree, htag, hpart, hmerge, State.entered, State.mergeFailed]

end

section
variable {s : State} {addr : Nat} {d : Bytes} (hpos : 0 < d.length) (hfit : addr % 512 + d.length ≤ 512)
include hpos hfit

/-- A write whose merge read holds arrives at its port. -/
theorem State.recordWrite_arrives (g : Word) :
    s.recordWrite addr d g 0 = s.portWrite ⟨addr, s.denseTail addr d, some g, 0, false⟩ := by
  unfold State.recordWrite
  rw [if_neg (by omega)]
  simp

/-- A part of a block whose three merge reads fail arrives with that. -/
theorem State.recordWrite_fails (hlen : d.length < 512) (g : Word) :
    s.recordWrite addr d g 3 = s.portWrite ⟨addr, s.denseTail addr d, some g, 0, true⟩ := by
  unfold State.recordWrite
  rw [if_neg (by omega)]
  simp [show ¬512 ≤ d.length by omega]

end

/-! ## Acknowledgements (R312, R314) -/

/-- An entry of a write buffer is free again. -/
def State.entryFreed (s : State) (k e : Nat) : State := s.setStack k (fun st => { st with buffer := NMap.erase st.buffer e })

/-- Freeing an entry changes its port alone. -/
theorem State.entryFreed_only (s : State) (k e : Nat) : Only [.channels] s (s.entryFreed k e) := State.setStack_only _ _ _

/-- The buffer whose entry is free again. -/
theorem State.entryFreed_buffer (s : State) (k e : Nat) : ((s.entryFreed k e).stack k).buffer = NMap.erase (s.stack k).buffer e := by
  unfold State.entryFreed
  rw [State.stack_setStack, if_pos rfl]

/-- With nothing waiting, no write is tried again. -/
theorem State.retryWaiting_none {s : State} (h : s.mem.waiting = []) : s.retryWaiting = s := by
  unfold State.retryWaiting
  rw [h, List.foldl_nil, ← h]

/-- Writes tried again leave the churns. -/
theorem State.retryWaiting_churn (s : State) (line : Nat) : s.retryWaiting.churn line = s.churn line := churn_of (State.retryWaiting_only s) rfl line

/-- A write of a port's own has no writer to tell. -/
theorem State.tellWriter_port {src : Nat} (h : src < 2 ^ 40) (s : State) (ok : Bool) : s.tellWriter src ok = s := if_pos h

/-- The write of a record is told to its churn. -/
theorem State.tellWriter_churn {line i : Nat} (hline : line < 64) (hi : i < 2 ^ 38) (s : State) (ok : Bool) :
    s.tellWriter (churnSource line i) ok = s.recordEnded line i ok := by
  have hlow : ¬churnSource line i < 2 ^ 40 := by unfold churnSource; omega
  have hhigh : ¬appendSource 0 ≤ churnSource line i := by unfold churnSource appendSource; omega
  have hnumber : churnSource line i / 2 ^ 40 - 1 = line := by unfold churnSource; omega
  have hindex : churnSource line i % 2 ^ 38 = i := by unfold churnSource; omega
  have hkind : churnSource line i % 2 ^ 40 / 2 ^ 38 = 0 := by unfold churnSource; omega
  unfold State.tellWriter
  rw [if_neg hlow, if_neg hhigh]
  simp only [hnumber, hindex, hkind]

/-- A stored unit reads back at its place, with its coordinate, the keys in force and its tag, and nothing else of HBM moves. -/
theorem State.putUnit_facts {s : State} {d : Bytes} (hcanonical : s.memoryCanonical) (hlen : d.length = 512) (b : Nat) (g : Word) :
    Memory.readBytes (s.putUnit b d g).mem.hbm (granuleKey (s.place b) * 512) 512 = d
    ∧ (∀ a, a < granuleKey (s.place b) * 512 ∨ granuleKey (s.place b) * 512 + 512 ≤ a →
        Memory.read (s.putUnit b d g).mem.hbm a = Memory.read s.mem.hbm a)
    ∧ NMap.find? (s.putUnit b d g).mem.units (granuleKey (s.place b)) = some ⟨s.coord b, s.mem.keyGen, g⟩ := by
  obtain ⟨hwf, -⟩ := hcanonical
  have hhbm : (s.putUnit b d g).mem.hbm = Memory.writeBytes s.mem.hbm (granuleKey (s.place b) * 512) d :=
    congrArg (Memory.writeBytes _ _) (slice_all d 512 hlen)
  rw [hhbm]
  refine ⟨?_, fun a ha => ?_, NMap.find?_insert_self _ _ _⟩
  · have hback := Memory.readBytes_writeBytes d s.mem.hbm (granuleKey (s.place b) * 512) hwf
    rwa [hlen] at hback
  · exact Memory.read_writeBytes_of_outside d _ _ a hwf (by rwa [hlen])

section
variable {s : State} {k e b src : Nat} {d : Bytes} {g : Word} (hentry : NMap.getD (s.stack k).buffer e .free = .committed b d g src)
include hentry

/-- The stack of a held channel acknowledges nothing. -/
theorem State.writeAck_held (hheld : (s.channel (s.place b).1).held = true) (ok : Bool) : s.writeAck k e ok = s := by
  unfold State.writeAck
  rw [hentry]
  exact if_pos hheld

variable (hheld : (s.channel (s.place b).1).held = false)
include hheld

/-- An acknowledged write is stored, its entry is free, and its writer hears of it. -/
theorem State.writeAck_stores (hdown : (s.channel (s.place b).1).down = false) :
    s.writeAck k e true = (((s.entryFreed k e).putUnit b d g).tellWriter src true).retryWaiting := by
  unfold State.writeAck
  simp only [hentry, hheld, hdown]
  rfl

/-- A write that is not acknowledged, or whose channel is down, has failed. -/
theorem State.writeAck_fails {ok : Bool} (h : ok = false ∨ (s.channel (s.place b).1).down = true) :
    s.writeAck k e ok =
      (((s.entryFreed k e).raise 0x4104 (unitChannel (s.place b).1) 0 (s.channelByte b)).tellWriter src false).retryWaiting := by
  have hfailed : (ok && !(s.channel (s.place b).1).down) = false := by rcases h with h | h <;> simp [h]
  unfold State.writeAck
  simp only [hentry, hheld, hfailed]
  rfl

end

/-! ## A churn's record (R203, R204) -/

/-- Context n of a line lies on that line. -/
theorem ctxAt_line {line : Nat} (h : line < 64) (n : Nat) : lineIx (ctxLine (ctxAt line n)) = line := by
  unfold lineIx ctxLine ctxAt
  simp only [Fin.ofNat]
  omega

section
variable {s : State} {line i n : Nat} {x : Ctx} (hline : line < 64) (hn : n < 8) (hctxs : (s.churn line).ctxs = [(n, x)])
  (hfault : (s.churn line).faulted = false) (hactive : x.active = true) (hindex : x.index = i)

include hline hn hctxs in
/-- A change of the one context of a churn. -/
theorem State.setCtx_one (f : Ctx → Ctx) : (s.setCtx (ctxAt line n) f).churn line = { s.churn line with ctxs := [(n, f x)] } := by
  have hctx : (ctxAt line n).ctx.val = n := Nat.mod_eq_of_lt hn
  have hchange := churn_setCtx s (ctxAt line n) f
  rw [ctxAt_line hline] at hchange
  rw [hchange, hctx, hctxs, NMap.modify_single]

include hctxs hactive hindex in
/-- A churn's one context holds its record. -/
theorem State.holding_one : (s.churn line).holding i = some (n, x) := by
  unfold Churn.holding
  rw [hctxs]
  exact List.find?_cons_of_pos (by simp [hactive, hindex])

include hline hn hctxs hfault hactive hindex

/-- The record's write stands: with no copy outstanding the churn has it verified. -/
theorem State.recordEnded_stored (hcopies : x.copies = []) :
    i ∈ ((s.recordEnded line i true).churn line).verified
    ∧ ((s.recordEnded line i true).churn line).ctxs = [(n, { x with stored := true })]
    ∧ Only [.churns] s (s.recordEnded line i true) := by
  have hended : s.recordEnded line i true =
      (s.setCtx (ctxAt line n) (fun y => { y with stored := true })).reportVerified line i := by
    unfold State.recordEnded
    simp only [State.holding_one hctxs hactive hindex, hfault]
  have hone := State.setCtx_one hline hn hctxs (fun y => { y with stored := true })
  have hholding : ((s.setCtx (ctxAt line n) (fun y => { y with stored := true })).churn line).holding i =
      some (n, { x with stored := true }) := State.holding_one (congrArg Churn.ctxs hone) hactive hindex
  have hreport : s.recordEnded line i true = (s.setCtx (ctxAt line n) (fun y => { y with stored := true })).setChurn line
      (fun k => { k with verified := i :: k.verified.filter (fun j => j != i) }) := by
    rw [hended]
    unfold State.reportVerified
    simp only [hholding, Ctx.complete, hcopies]
    rfl
  have honly : Only [.churns] s (s.recordEnded line i true) := by
    rw [hended]
    exact (State.setCtx_only _ _ _).trans (State.reportVerified_only _ _ _)
  refine ⟨?_, ?_, honly⟩
  · rw [hreport, churn_setChurn_self]
    exact List.mem_cons_self
  · rw [hreport, churn_setChurn_self, hone]

/-- The record's write failed once: the failure is counted and the write issued again. -/
theorem State.recordEnded_again (hfirst : x.failures = 0) :
    (s.recordEnded line i false).churn line = { s.churn line with ctxs := [(n, { x with failures := 1 })] } := by
  have hended : s.recordEnded line i false =
      (x.item.map (fun it => (s.setCtx (ctxAt line n) (fun y => { y with failures := 1 })).issueRecord line i it x.new)).getD
        (s.setCtx (ctxAt line n) (fun y => { y with failures := 1 })) := by
    unfold State.recordEnded
    simp only [State.holding_one hctxs hactive hindex, hfault]
    exact if_pos hfirst
  rw [hended]
  refine Eq.trans ?_ (State.setCtx_one hline hn hctxs (fun y => { y with failures := 1 }))
  cases x.item with
  | none => rfl
  | some it => exact churn_of (State.issueRecord_only _ line i it x.new) rfl line

end

/-! ## The regulators (R319) -/

/-- A bucket never holds more than its burst. -/
theorem State.bucket_le (s : State) (k c : Nat) (now : Long) : s.bucket k c now ≤ (NMap.getD s.active.regBurst c 0).toNat * 1024000 := by
  unfold State.bucket
  simp only []
  split
  · exact Nat.min_le_left _ _
  · exact le_rfl

/-- A regulated issue leaves its time in the class's bucket, less a block's tokens when it held them. -/
theorem State.regulatedIssue_stack (s : State) (k c : Nat) (now : Long) :
    (s.regulatedIssue k c now).stack k = { s.stack k with
      buckets := NMap.insert (s.stack k).buckets c (if 512000 ≤ s.bucket k c now ∧ NMap.getD s.active.regRate c 0 ≠ 0 then
        s.bucket k c now - 512000 else s.bucket k c now)
      refilled := NMap.insert (s.stack k).refilled c now } :=
  (State.stack_setStack s k k _).trans (if_pos rfl)

/-! ## The obligation -/

/-- Settles O45: the space and the hold first (R304, R322), then a read by the number of its reads that fail, a write by the state of its
port's buffer, an acknowledgement by its entry and its writer, and the bucket of a regulated issue. -/
theorem memoryAccess : Obligations.MemoryAccess := by
  rintro s addr _ _ rfl rfl
  refine ⟨?outside, ?heldRead, ?firstRead, ?laterRead, ?lostRead, ?noWrite, ?tail, ?entered, ?waits, ?acked, ?churn, ?notCommitted,
    ?regulated⟩
  case outside => exact fun hout => ⟨fun _ => if_pos hout, fun _ _ _ => if_pos hout⟩
  case heldRead => exact fun r hin hheld => (if_neg (by omega)).trans (if_neg (by simp [hheld]))
  case firstRead =>
    exact fun x hin hopen hblock => (exec_blockRead hin hopen 0).trans (congrArg Host.Outcome.next (State.stageBlock_first hblock))
  case laterRead =>
    intro x r hin hopen hblock hr hnew
    have hread := State.stageBlock_again (s := s) hblock (r := r.val) (by rcases hr with rfl | rfl <;> simp)
    obtain ⟨c, d, hledger, hraised, hrest, hcounted⟩ := countedFault_new s.blockCounted (unitChannel (s.place (addr / 512)).1) hnew
    exact ⟨_, c, d, (exec_blockRead hin hopen r).trans (congrArg Host.Outcome.next hread),
      (s.blockCounted_only.mono rfl).trans (hledger.mono rfl), hraised, hrest, hcounted⟩
  case lostRead =>
    intro r hin hopen hlost hstage
    obtain ⟨v, hv, hread⟩ := State.stageBlock_fails (s := s) (r := r.val) (hlost.imp_left (by rintro rfl; rfl)) hstage
    obtain ⟨⟨u, hraised⟩, hmem⟩ := v.blockBad_facts (addr / 512)
    rw [place_of hv] at hraised
    refine ⟨v.blockBad (addr / 512), u, (exec_blockRead hin hopen r).trans (congrArg Host.Outcome.next hread),
      (hv.mono rfl).trans ((State.blockBad_only _ _).mono rfl), hraised, ?_⟩
    obtain ⟨-, -, -, herr, -⟩ := hv.get .mem
    rw [hmem, herr]
  case noWrite => exact fun d g r hin hlen => (exec_recordWrite hin d g r).trans (congrArg Host.Outcome.next (if_pos hlen))
  case tail => exact fun d h => State.denseTail_same h addr
  case entered =>
    rintro d _ g e hin hpos hfit rfl hbusy hfree
    refine ⟨fun hlen => ?_, fun old hlen hblock => ?_, fun hpart hlen => ?_⟩
    · have hwrite := (State.recordWrite_arrives hpos hfit g).trans
        (State.portWrite_whole (w := ⟨addr, s.denseTail addr d, some g, 0, false⟩) hfree hbusy rfl hlen)
      refine ⟨_, (exec_recordWrite hin d g 0).trans (congrArg Host.Outcome.next hwrite), State.entered_only _ _ _ _, ?_, fun j hj => ?_⟩
      · rw [State.entered_buffer]; exact NMap.find?_insert_self _ _ _
      · rw [State.entered_buffer]; exact NMap.find?_insert_of_ne _ _ hj.symm
    · have hwrite := (State.recordWrite_arrives hpos hfit g).trans
        (State.portWrite_merged (w := ⟨addr, s.denseTail addr d, some g, 0, false⟩) hfree hbusy rfl hlen rfl hblock)
      refine ⟨_, (exec_recordWrite hin d g 0).trans (congrArg Host.Outcome.next hwrite), State.entered_only _ _ _ _, ?_⟩
      rw [State.entered_buffer]; exact NMap.find?_insert_self _ _ _
    · have hwrite := (State.recordWrite_fails hpos hfit hpart g).trans
        (State.portWrite_unmerged (w := ⟨addr, s.denseTail addr d, some g, 0, true⟩) hfree hbusy rfl hlen rfl)
      obtain ⟨hlast, hmem⟩ := s.mergeFailed_facts (addr / 512)
      refine ⟨_, (exec_recordWrite hin d g 3).trans (congrArg Host.Outcome.next hwrite), ?_, ?_, ?_⟩
      · rw [(State.entered_counts _ _ _ _).2, hmem]
      · rw [(State.entered_counts _ _ _ _).1, hlast]
      · rw [State.entered_buffer]; exact NMap.find?_insert_self _ _ _
  case waits =>
    intro d g hin hpos hfit hfull
    exact (exec_recordWrite hin d g 0).trans (congrArg Host.Outcome.next ((State.recordWrite_arrives hpos hfit g).trans
      (State.portWrite_waits (w := ⟨addr, s.denseTail addr d, some g, 0, false⟩) hfull)))
  case acked =>
    intro k e d g src hsound hentry hsrc hwaiting
    refine ⟨?_, ?_, ?_⟩
    · exact fun hheld ok => congrArg Host.Outcome.next (State.writeAck_held hentry hheld ok)
    · intro hheld hdown hlen
      have hack := State.writeAck_stores hentry hheld hdown
      rw [State.tellWriter_port hsrc, State.retryWaiting_none (s := (s.entryFreed k e).putUnit (addr / 512) d g) hwaiting] at hack
      obtain ⟨hback, hothers, hunit⟩ := State.putUnit_facts (s := s.entryFreed k e) hsound.memory hlen (addr / 512) g
      exact ⟨_, congrArg Host.Outcome.next hack, ((s.entryFreed_only k e).mono rfl).trans ((State.putUnit_only _ _ _ _).mono rfl),
        hback, hothers, hunit, s.entryFreed_buffer k e⟩
    · intro ok hheld hfails
      have hack := State.writeAck_fails hentry hheld hfails
      have hraise := State.raise_only (s.entryFreed k e) 0x4104 (unitChannel (s.place (addr / 512)).1) 0 (s.channelByte (addr / 512)) false
      rw [State.tellWriter_port hsrc, State.retryWaiting_none ((waiting_of hraise).trans hwaiting)] at hack
      refine ⟨_, congrArg Host.Outcome.next hack, ((s.entryFreed_only k e).mono rfl).trans (hraise.mono rfl),
        (Raised.of_raise _ 0x4104 _ _ _ _).from rfl, ?_⟩
      rw [hraise.stack]
      exact s.entryFreed_buffer k e
  case churn =>
    intro k e d g line i n x hsound hentry hline hi hwaiting hheld hfault hctxs hn hactive hindex hcopies
    refine ⟨fun hdown => ?_, fun hfirst => ?_⟩
    · let u := (s.entryFreed k e).putUnit (addr / 512) d g
      obtain ⟨hverified, hstored, honly⟩ :=
        State.recordEnded_stored (s := u) hline hn hctxs hfault hactive hindex hcopies
      have hack := State.writeAck_stores hentry hheld hdown
      rw [State.tellWriter_churn hline hi, State.retryWaiting_none ((waiting_of honly).trans hwaiting)] at hack
      have hput : Only [.channels, .hbm, .stats, .churns] s u :=
        ((s.entryFreed_only k e).mono rfl).trans ((State.putUnit_only _ _ _ _).mono rfl)
      exact ⟨_, congrArg Host.Outcome.next hack, hput.trans (honly.mono rfl), hverified, hstored⟩
    · let u := (s.entryFreed k e).raise 0x4104 (unitChannel (s.place (addr / 512)).1) 0 (s.channelByte (addr / 512))
      have hchurn : u.churn line = s.churn line := churn_of (State.raise_only (s.entryFreed k e) _ _ _ _ _) rfl line
      have hended := State.recordEnded_again (s := u) hline hn ((congrArg Churn.ctxs hchurn).trans hctxs)
        ((congrArg Churn.faulted hchurn).trans hfault) hactive hindex hfirst
      have hack := State.writeAck_fails hentry hheld (.inl rfl)
      rw [State.tellWriter_churn hline hi] at hack
      refine ⟨_, u, congrArg Host.Outcome.next hack, (Raised.of_raise _ 0x4104 _ _ _ _).from rfl, ?_, ?_⟩
      · rw [State.retryWaiting_churn, hended]
      · rw [State.retryWaiting_churn, hended, hchurn]
  case notCommitted =>
    intro k e ok hentry
    refine congrArg Host.Outcome.next ?_
    unfold State.writeAck
    split
    · next b d g c hcommitted => exact absurd hcommitted (hentry b d g c)
    · rfl
  case regulated =>
    intro k c now
    have hstack := s.regulatedIssue_stack k c now
    refine ⟨_, rfl, State.regulatedIssue_only s k c now, ?_, ?_, s.bucket_le k c now⟩
    · rw [hstack]; exact NMap.find?_insert_self _ _ _
    · rw [hstack]; exact NMap.find?_insert_self _ _ _

end Sys2Proof.Machine
end

section
/-! SUPPORT and CLAIM. Channels and stacks (R301, R321 to R327, R329): how a request for retraining is counted, how a retraining ends, what
RETRAIN_NOW does through the window, what a stack's temperature makes of the memory, and the obligation about them. -/

-- Checked one theorem at a time: the package as one text then needs less memory.
set_option Elab.async false

namespace Sys2Proof.Machine

/-! ## Channels and units of the ledger -/

/-- A channel after a change of one. -/
theorem channel_setChannel (s : State) (c j : Nat) (f : Channel → Channel) :
    (s.setChannel c f).channel j = if c = j then f (s.channel c) else s.channel j := by
  unfold State.setChannel State.channel
  rw [NMap.getD_modify]

/-- The channel that is changed. -/
@[simp] theorem channel_setChannel_self (s : State) (c : Nat) (f : Channel → Channel) : (s.setChannel c f).channel c = f (s.channel c) := by
  rw [channel_setChannel, if_pos rfl]

/-- A channel rests on memory. -/
theorem channel_congr {s t : State} (h : t.mem = s.mem) (c : Nat) : t.channel c = s.channel c := by
  unfold State.channel
  rw [h]

/-- A stack rests on memory. -/
theorem stack_congr {s t : State} (h : t.mem = s.mem) (k : Nat) : t.stack k = s.stack k := by
  unfold State.stack
  rw [h]

/-- A channel is the same. -/
theorem Only.channel {m : List Part} {s t : State} (h : Only m s t) (c : Nat) (hm : m.contains .channels = false := by rfl) :
    t.channel c = s.channel c := by
  obtain ⟨hchannels, -⟩ := h.get .channels hm
  unfold State.channel
  rw [hchannels]

/-- A unit's ledger entry is the same. -/
theorem Only.unit {m : List Part} {s t : State} (h : Only m s t) (u : Half) (hm : m.contains .ledger = false := by rfl) :
    t.unit u = s.unit u := by
  unfold State.unit
  rw [h.get .ledger hm]

/-! ## Requests (R321) -/

/-- The errors that a cause counts. -/
def errorCount : RetrainCause → Nat
  | .errors n => n
  | .temperature => 0
  | .age => 0

/-- A cause asks for retraining of a channel that may be retrained and has no request pending (R321). -/
def State.RetrainAsked (s : State) (ch : Nat) (cause : RetrainCause) (now : Long) : Prop :=
  s.active.retrainAuto = true ∧ s.retrainCaused ch cause now = true ∧ (s.channel ch).down = false ∧ (s.channel ch).pending = none

/-- The errors of a channel are counted at a time. -/
def State.errorsCounted (s : State) (ch : Nat) (cause : RetrainCause) (now : Long) : State :=
  (s.timed now).setChannel ch (fun c => { c with errors := satAdd c.errors (errorCount cause) })

/-- A cause that asks leaves its request with the count. -/
theorem State.retrainRequest_asked {s : State} {ch : Nat} {cause : RetrainCause} {now : Long} (h : s.RetrainAsked ch cause now) :
    s.retrainRequest ch cause now =
      (s.errorsCounted ch cause now).setChannel ch (fun c => { c with pending := some now, overdue := false }) := by
  obtain ⟨hauto, hcaused, hdown, hnone⟩ := h
  unfold State.retrainRequest
  rw [if_pos (by simp [hauto, hcaused, hdown, hnone])]
  cases cause <;> rfl

/-- A cause that does not is counted alone. -/
theorem State.retrainRequest_counted {s : State} {ch : Nat} {cause : RetrainCause} {now : Long} (h : ¬s.RetrainAsked ch cause now) :
    s.retrainRequest ch cause now = s.errorsCounted ch cause now := by
  unfold State.retrainRequest
  rw [if_neg (by simpa [State.RetrainAsked, and_assoc] using h)]
  cases cause <;> rfl

/-- The channel whose errors are counted, and the others. -/
theorem State.errorsCounted_channel (s : State) (ch : Nat) (cause : RetrainCause) (now : Long) (c : Nat) :
    (s.errorsCounted ch cause now).channel c =
      if ch = c then { s.channel ch with errors := satAdd (s.channel ch).errors (errorCount cause) } else s.channel c :=
  channel_setChannel (s.timed now) ch c _

/-- What a request leaves of the channels. -/
theorem State.retrainRequest_facts (s : State) (ch : Nat) (cause : RetrainCause) (now : Long) :
    ((s.retrainRequest ch cause now).channel ch).errors = satAdd (s.channel ch).errors (errorCount cause)
    ∧ (s.RetrainAsked ch cause now → ((s.retrainRequest ch cause now).channel ch).pending = some now)
    ∧ (¬s.RetrainAsked ch cause now → ((s.retrainRequest ch cause now).channel ch).pending = (s.channel ch).pending)
    ∧ ∀ c, c ≠ ch → (s.retrainRequest ch cause now).channel c = s.channel c := by
  have hself := s.errorsCounted_channel ch cause now ch
  rw [if_pos rfl] at hself
  have hother {c : Nat} (hc : c ≠ ch) : (s.errorsCounted ch cause now).channel c = s.channel c := by
    rw [State.errorsCounted_channel, if_neg hc.symm]
  by_cases h : s.RetrainAsked ch cause now
  · rw [State.retrainRequest_asked h, channel_setChannel_self, hself]
    refine ⟨rfl, fun _ => rfl, (absurd h ·), fun c hc => ?_⟩
    rw [channel_setChannel, if_neg hc.symm, hother hc]
  · rw [State.retrainRequest_counted h, hself]
    exact ⟨rfl, (absurd · h), fun _ => rfl, fun c hc => hother hc⟩

/-- With no request pending, or one that is overdue already, nothing becomes overdue. -/
theorem State.retrainOverdue_still {s : State} {ch : Nat} (h : (s.channel ch).pending = none ∨ (s.channel ch).overdue = true) :
    s.retrainOverdue ch = s := by
  refine if_neg ?_
  rcases h with h | h <;> simp [h]

/-- A pending request becomes overdue. -/
theorem State.retrainOverdue_raises {s : State} {ch : Nat} {p : Long} (hpending : (s.channel ch).pending = some p)
    (hnew : (s.channel ch).overdue = false) :
    s.retrainOverdue ch = (s.setChannel ch (fun x => { x with overdue := true })).raise 0x4203 (unitChannel ch) :=
  if_pos (by simp [hpending, hnew])

/-! ## How a retraining ends (R301, R323) -/

/-- A channel is released at the end of its retraining, and with it the long setup operation of RETRAIN_NOW. -/
def State.released (s : State) (ch : Nat) (now : Long) : State :=
  ((s.timed now).setChannel ch (fun c => { c with held := false })).endOp 4

/-- The release changes the time, the channel and the setup block. -/
theorem State.released_only (s : State) (ch : Nat) (now : Long) : Only [.time, .channels, .setup] s (s.released ch now) :=
  Only.of (State.endOp_only _ 4) rfl (Only.of (State.setChannel_only _ ch _) rfl ((State.timed_only s now).mono rfl))

/-- The channel that is released, and the stacks. -/
theorem State.released_facts (s : State) (ch : Nat) (now : Long) :
    (s.released ch now).channel ch = { s.channel ch with held := false } ∧ ∀ k, (s.released ch now).stack k = s.stack k := by
  have hend : Only [.setup] ((s.timed now).setChannel ch (fun c => { c with held := false })) (s.released ch now) := State.endOp_only _ 4
  refine ⟨?_, fun k => ?_⟩
  · rw [hend.channel, channel_setChannel_self]; rfl
  · rw [hend.stack]; rfl

/-- The operation of RETRAIN_NOW ends with the release. -/
theorem State.released_op {s : State} (h : s.setup.op = 4) (ch : Nat) (now : Long) : (s.released ch now).setup.op = 0 :=
  congrArg (fun t : State => t.setup.op) (if_pos h)

/-- Lanes are logged one by one, each with its event. -/
theorem State.sparedLanes_facts (s : State) (u : Half) (n : Nat) :
    ((List.range n).foldl (fun (st : State) _ => (st.logged u).raise 0x4202 u) s).mem = s.mem
    ∧ ((List.range n).foldl (fun (st : State) _ => (st.logged u).raise 0x4202 u) s).events.seq = s.events.seq + BitVec.ofNat 64 n := by
  induction n with
  | zero => simp
  | succ n ih =>
    obtain ⟨hmem, hseq⟩ := ih
    rw [List.range_succ, List.foldl_append, List.foldl_cons, List.foldl_nil]
    constructor
    · simp [hmem]
    · have hraise (t : State) : ((t.logged u).raise 0x4202 u).events.seq = t.events.seq + 1 := by
        rw [State.raise_events]; rfl
      rw [hraise, hseq, BitVec.ofNat_add, BitVec.add_assoc]
      rfl

/-- Replaced lanes: the channel's count of them, the stacks, and one event for each. -/
theorem State.spareLanes_facts (s : State) (ch n : Nat) :
    (s.spareLanes ch n).channel ch = { s.channel ch with spares := (s.channel ch).spares + n }
    ∧ (∀ k, (s.spareLanes ch n).stack k = s.stack k) ∧ (s.spareLanes ch n).events.seq = s.events.seq + BitVec.ofNat 64 n := by
  obtain ⟨hmem, hseq⟩ :=
    (s.setChannel ch (fun c => { c with spares := c.spares + n })).sparedLanes_facts (unitChannel ch) n
  exact ⟨(channel_congr hmem ch).trans (channel_setChannel_self _ _ _), fun k => stack_congr hmem k, hseq⟩

/-- A channel that is down: its mark, CH_DOWN, the ledger and the halt of a running job. -/
theorem State.channelDown_facts (s : State) (ch : Nat) :
    (s.channelDown ch).channel ch = { s.channel ch with down := true, pending := none, overdue := false }
    ∧ Raised 0x4204 (unitChannel ch) s (s.channelDown ch)
    ∧ ((s.unit (unitChannel ch)).state ≠ 3 → ((s.channelDown ch).unit (unitChannel ch)).state = 2)
    ∧ (s.jobRuns = true → (s.channelDown ch).seq.haltPending = true) := by
  let down := (s.setChannel ch (fun c => { c with down := true, pending := none, overdue := false })).permanentNow (unitChannel ch)
  have honly : Only [.halt, .tel, .events] down (s.channelDown ch) := State.raiseHalt_only _ _ _ _ _
  obtain ⟨hraised, hseq⟩ := down.raiseHalt_facts 0x4204 (unitChannel ch) 0 0
  refine ⟨?_, hraised.from rfl, fun hkept => ?_, fun hruns => ?_⟩
  · exact (honly.channel ch).trans (channel_setChannel_self s ch _)
  · have hentry : down.unit (unitChannel ch) = { s.unit (unitChannel ch) with state := 2, perm := s.lifeStep } :=
      ((unit_setUnit _ _ _ _).trans (if_pos rfl)).trans (if_neg hkept)
    rw [honly.unit, hentry]
  · have hhalt : (s.channelDown ch).seq.haltPending = (s.seq.haltPending || s.jobRuns) := congrArg SeqState.haltPending hseq
    rw [hhalt, hruns, Bool.or_true]

/-- A channel that is not held ends no retraining. -/
theorem State.retrainDone_still {s : State} {ch : Nat} (h : (s.channel ch).held = false) (o : RetrainOutcome) (now : Long) :
    s.retrainDone ch o now = s := if_pos (by simp [h])

section
variable {s : State} {ch : Nat} (hheld : (s.channel ch).held = true) (now : Long)
include hheld

/-- The old settings: the channel is released. -/
theorem State.retrainDone_old : s.retrainDone ch .oldSettings now = s.released ch now := if_neg (by simp [hheld])

/-- New settings, with lanes replaced. -/
theorem State.retrainDone_trained {n : Nat} (hspares : (s.channel ch).spares + n ≤ 2) : s.retrainDone ch (.trained n) now =
    (((s.released ch now).spareLanes ch n).channelTrained ch now).raise 0x4201 (unitChannel ch) :=
  (if_neg (by simp [hheld])).trans (if_neg (by omega))

/-- A channel that could not be trained, or not with its spare lanes, is down. -/
theorem State.retrainDone_down {o : RetrainOutcome} (h : o = .down ∨ ∃ n, o = .trained n ∧ 2 < (s.channel ch).spares + n) :
    s.retrainDone ch o now = (s.released ch now).channelDown ch := by
  refine (if_neg (by simp [hheld])).trans ?_
  rcases h with rfl | ⟨n, rfl, hspares⟩
  · rfl
  · exact if_pos hspares

end

/-! ## MEM_CTRL through the window (R324, R329) -/

/-- A write of MEM_CTRL through P0, past the disarmed guard. -/
theorem exec_retrainNow {s : State} (h : s.takesWrite) (hguard : s.setup.armed = false) (v : Word) :
    exec (.retrainNow 0 v) s = .next (s.guardArmed.writeMemCtrl v.toNat false) :=
  congrArg Host.Outcome.next (window_unlocked (r := .memCtrl) h (by decide) (by decide) (by decide) (by decide) nofun nofun hguard)

section
variable {s : State} {v : Nat}

/-- RETRAIN_AUTO of MEM_CTRL enters the pending view. -/
def State.retrainAutoTaken (s : State) (v : Nat) : State := s.setPending (fun b => { b with retrainAuto := bit 0 v })

/-- Without RETRAIN_NOW that is all. -/
theorem State.writeMemCtrl_auto (hnow : bit 1 v = false) : s.writeMemCtrl v false = s.retrainAutoTaken v := by
  unfold State.writeMemCtrl
  rw [hnow]
  rfl

/-- RETRAIN_NOW in a job, or of a channel that does not exist, is refused. -/
theorem State.writeMemCtrl_refused (hnow : bit 1 v = true) (h : s.idle = false ∨ 383 < s.win.chSel.toNat) :
    s.writeMemCtrl v false = s.log offMemCtrl 0 (if s.idle then .range else .state) :=
  if_pos (by rcases h with h | h <;> simp [hnow, h])

/-- RETRAIN_NOW of an idle module holds the channel that CH_SEL names. -/
theorem State.writeMemCtrl_holds (hnow : bit 1 v = true) (hidle : s.idle = true) (hsel : s.win.chSel.toNat ≤ 383) :
    s.writeMemCtrl v false =
      ((s.retrainAutoTaken v).startOp 4).setChannel s.win.chSel.toNat (fun c => { c with held := true }) :=
  (if_neg (by simp [hnow, hidle, hsel])).trans (if_pos (by simp [hnow]))

end

/-! ## Stack temperatures (R325 to R327) -/

/-- A temperature is seen at a stack. -/
def State.tempSeen (s : State) (k : Nat) (temp : Half) : State := s.setStack k (fun x => { x with
  temp := temp, peak := if x.peak.toInt < temp.toInt then temp else x.peak
  hot := x.hot || decide (1520 < temp.toInt), crit := decide (1680 < temp.toInt) })

/-- A temperature seen changes its stack alone. -/
theorem State.tempSeen_only (s : State) (k : Nat) (temp : Half) : Only [.channels] s (s.tempSeen k temp) := State.setStack_only _ _ _

/-- A stack after a temperature seen at it. -/
theorem State.tempSeen_stack (s : State) (k : Nat) (temp : Half) : (s.tempSeen k temp).stack k = { s.stack k with
    temp := temp, peak := if (s.stack k).peak.toInt < temp.toInt then temp else (s.stack k).peak
    hot := (s.stack k).hot || decide (1520 < temp.toInt), crit := decide (1680 < temp.toInt) } :=
  (State.stack_setStack _ _ _ _).trans (if_pos rfl)

/-- The ports throttle for a stack (R326). -/
def State.throttledFor (s : State) (k : Nat) : State := ({ s with mem.throttled := true } : State).raise 0x4301 0 k

/-- Throttling changes the ports and raises an event. -/
theorem State.throttledFor_only (s : State) (k : Nat) : Only [.channels, .tel, .events] s (s.throttledFor k) := by
  refine Only.of (State.raise_only _ _ _ _ _ _) rfl ⟨rfl, fun p => ?_⟩
  cases p
  case channels => exact .inl (by decide)
  all_goals exact .inr (by simp [Part.same])

/-- Throttling marks the memory and raises its event; the stacks and the sequencer stay. -/
theorem State.throttledFor_facts (s : State) (k : Nat) : (s.throttledFor k).mem = { s.mem with throttled := true }
    ∧ (∀ j, (s.throttledFor k).stack j = s.stack j) ∧ Raised 0x4301 0 s (s.throttledFor k) ∧ (s.throttledFor k).seq = s.seq :=
  ⟨raise_mem _ _ _ _ _ _, fun j => stack_congr (t := s.throttledFor k) (raise_mem _ _ _ _ _ _) j,
    (Raised.of_raise _ 0x4301 0 k 0 false).from rfl, raise_seq _ _ _ _ _ _⟩

/-- The ports run again, and no stack counts as hot (R326). -/
def State.runsAgain (s : State) : State := ({ s with
  mem.throttled := false, mem.stackRecs := s.mem.stackRecs.map (fun e => (e.1, { e.2 with hot := false })) } : State).raise 0x4302

/-- With one stack above a temperature not every stack is below it. -/
theorem State.stacksBelow_not {s : State} {k : Nat} {t : Int} (hk : k < 12) (h : t < (s.stack k).temp.toInt) : s.stacksBelow t = false := by
  rw [← Bool.not_eq_true]
  intro hall
  have hbelow := List.all_eq_true.mp hall k (List.mem_range.mpr hk)
  simp only [decide_eq_true_eq] at hbelow
  omega

/-- A temperature seen, with throttling when the stack becomes hot. -/
def State.hotChecked (s : State) (k : Nat) (temp : Half) : State :=
  if decide (1520 < temp.toInt) && !(s.stack k).hot then (s.tempSeen k temp).throttledFor k else s.tempSeen k temp

/-- The same, with the promise suspended when the stack becomes critical (R327). -/
def State.critChecked (s : State) (k : Nat) (temp : Half) : State :=
  if decide (1680 < temp.toInt) && !(s.stack k).crit then (s.hotChecked k temp).stackCrit k (fun v => { v with stack := true })
  else s.hotChecked k temp

/-- A temperature seen, checked against its limits, and the ports that run again below 92 °C. -/
theorem State.stackTemp_eq (s : State) (k : Nat) (temp : Half) : s.stackTemp k temp =
    if (s.critChecked k temp).mem.throttled && (s.critChecked k temp).stacksBelow 1472 then (s.critChecked k temp).runsAgain
    else s.critChecked k temp := rfl

/-- A suspended promise leaves the stacks. -/
theorem State.stackCrit_stack (s : State) (ident : Nat) (f : VoidCauses → VoidCauses) (k : Nat) :
    (s.stackCrit ident f).stack k = s.stack k := by
  unfold State.stackCrit
  rw [(State.voidPromise_only _ f).stack, (State.raise_only _ _ _ _ _ _).stack]
  rfl

section
variable {s : State} {k : Nat} {temp : Half}

/-- At 95 °C or less no stack becomes hot. -/
theorem State.hotChecked_mild (h : temp.toInt ≤ 1520) : s.hotChecked k temp = s.tempSeen k temp :=
  if_neg (by simp [show ¬1520 < temp.toInt by omega])

/-- A stack that becomes hot throttles the ports. -/
theorem State.hotChecked_hot (h : 1520 < temp.toInt) (hnew : (s.stack k).hot = false) :
    s.hotChecked k temp = (s.tempSeen k temp).throttledFor k := if_pos (by simp [h, hnew])

/-- Throttling leaves the stacks and the sequencer. -/
theorem State.hotChecked_rest : (s.hotChecked k temp).stack k = (s.tempSeen k temp).stack k ∧ (s.hotChecked k temp).seq = s.seq := by
  obtain ⟨-, hstacks, -, hseq⟩ := (s.tempSeen k temp).throttledFor_facts k
  unfold State.hotChecked
  split
  · exact ⟨hstacks k, hseq⟩
  · exact ⟨rfl, rfl⟩

/-- At 105 °C or less no stack becomes critical. -/
theorem State.critChecked_mild (h : temp.toInt ≤ 1680) : s.critChecked k temp = s.hotChecked k temp :=
  if_neg (by simp [show ¬1680 < temp.toInt by omega])

/-- A stack that becomes critical suspends the promise. -/
theorem State.critChecked_crit (h : 1680 < temp.toInt) (hnew : (s.stack k).crit = false) :
    s.critChecked k temp = (s.hotChecked k temp).stackCrit k (fun v => { v with stack := true }) := if_pos (by simp [h, hnew])

/-- Checks against the limits leave the temperatures seen. -/
theorem State.critChecked_stack : (s.critChecked k temp).stack k = (s.tempSeen k temp).stack k := by
  unfold State.critChecked
  split
  · rw [State.stackCrit_stack, State.hotChecked_rest.1]
  · exact State.hotChecked_rest.1

/-- Above 92 °C the ports do not run again. -/
theorem State.stackTemp_above (hk : k < 12) (h : 1472 < temp.toInt) : s.stackTemp k temp = s.critChecked k temp := by
  have hseen : ((s.critChecked k temp).stack k).temp = temp := by rw [State.critChecked_stack, State.tempSeen_stack]
  rw [State.stackTemp_eq, State.stacksBelow_not hk (by rw [hseen]; exact h), Bool.and_false, if_neg Bool.false_ne_true]

/-- At 95 °C or less a temperature is only seen, but where it lets throttled ports run again. -/
theorem State.stackTemp_mild (h : temp.toInt ≤ 1520) : s.stackTemp k temp =
    if s.mem.throttled && (s.tempSeen k temp).stacksBelow 1472 then (s.tempSeen k temp).runsAgain else s.tempSeen k temp := by
  rw [State.stackTemp_eq, State.critChecked_mild (by omega), State.hotChecked_mild h]
  rfl

/-- A stack at 95 °C or less keeps its mark of heat and loses that of criticality. -/
theorem State.tempSeen_mild (h : temp.toInt ≤ 1520) : s.tempSeen k temp = s.setStack k (fun x =>
    { x with temp := temp, peak := if x.peak.toInt < temp.toInt then temp else x.peak, crit := false }) := by
  unfold State.tempSeen
  simp [show ¬1520 < temp.toInt by omega, show ¬1680 < temp.toInt by omega]

/-- With every other stack at 92 °C or less, a temperature not above it brings all there. -/
theorem State.tempSeen_below (h : temp.toInt ≤ 1472) (hothers : ∀ j, j < 12 → j ≠ k → (s.stack j).temp.toInt ≤ 1472) :
    (s.tempSeen k temp).stacksBelow 1472 = true := by
  refine List.all_eq_true.mpr fun j hj => decide_eq_true ?_
  by_cases hjk : j = k
  · rw [hjk, State.tempSeen_stack]; exact h
  · rw [State.tempSeen, State.stack_setStack, if_neg (Ne.symm hjk)]
    exact hothers j (List.mem_range.mp hj) hjk

end

/-- The ports run again, with their event, and no stack counts as hot. -/
theorem State.runsAgain_facts (s : State) : Only [.channels, .tel, .events] s s.runsAgain ∧ s.runsAgain.mem.throttled = false
    ∧ Raised 0x4302 0 s s.runsAgain ∧ ∀ j, (s.runsAgain.stack j).hot = false := by
  have hmem : s.runsAgain.mem = { s.mem with
      throttled := false, stackRecs := s.mem.stackRecs.map (fun e => (e.1, { e.2 with hot := false })) } :=
    raise_mem _ _ _ _ _ _
  refine ⟨?_, by rw [hmem], (Raised.of_raise _ 0x4302 0 0 0 false).from rfl, fun j => ?_⟩
  · refine Only.of (State.raise_only _ _ _ _ _ _) rfl ⟨rfl, fun p => ?_⟩
    cases p
    case channels => exact .inl (by decide)
    all_goals exact .inr (by simp [Part.same])
  · have hstack : s.runsAgain.stack j = { s.stack j with hot := false } :=
      (congrArg (fun m : MemState => NMap.getD m.stackRecs j {}) hmem).trans
        (NMap.getD_map s.mem.stackRecs (fun x => { x with hot := false }) j {} rfl)
    rw [hstack]

/-! ## The obligation -/

/-- Settles O46: a request and its time limit, the end of a retraining by its outcome, RETRAIN_NOW by what the window and the job allow, and
a stack's temperature by the limits that it passes. -/
theorem channelsAndStacks : Obligations.ChannelsAndStacks := by
  intro s ch now k temp
  refine ⟨?request, ?notOverdue, ?overdue, ?notHeld, ?oldSettings, ?trained, ?down, ?holds, ?refused, ?auto, ?cool, ?hot, ?crit, ?again⟩
  case request =>
    rintro cause _ rfl
    obtain ⟨herrors, hasked, hnot, hothers⟩ := s.retrainRequest_facts ch cause now
    refine ⟨_, rfl, State.retrainRequest_only s ch cause now, ?_, ?_, hothers⟩
    · cases cause <;> exact herrors
    · by_cases h : s.RetrainAsked ch cause now
      · exact (hasked h).trans (if_pos h).symm
      · exact (hnot h).trans (if_neg h).symm
  case notOverdue => exact fun h => congrArg Host.Outcome.next (State.retrainOverdue_still h)
  case overdue =>
    intro p hpending hnew
    have hraise := State.raise_only (s.setChannel ch (fun x => { x with overdue := true })) 0x4203 (unitChannel ch) 0 0 false
    refine ⟨_, congrArg Host.Outcome.next (State.retrainOverdue_raises hpending hnew),
      ((State.setChannel_only s ch _).mono rfl).trans (hraise.mono rfl), (Raised.of_raise _ 0x4203 _ 0 0 false).from rfl, ?_⟩
    rw [hraise.channel, channel_setChannel_self]
  case notHeld => exact fun o h => congrArg Host.Outcome.next (State.retrainDone_still h o now)
  case oldSettings =>
    exact fun hheld => ⟨_, congrArg Host.Outcome.next (State.retrainDone_old hheld now), s.released_only ch now,
      (s.released_facts ch now).1, fun hop => State.released_op hop ch now⟩
  case trained =>
    intro n hheld hspares
    obtain ⟨hfree, hstacks⟩ := s.released_facts ch now
    obtain ⟨hspared, hkept, hseq⟩ := (s.released ch now).spareLanes_facts ch n
    have htrained : Only [.time, .channels, .setup, .ledger, .tel, .events] s (((s.released ch now).spareLanes ch n).channelTrained ch now) :=
      Only.of (State.channelTrained_only _ _ _) rfl (Only.of (State.spareLanes_only _ _ _) rfl ((s.released_only ch now).mono rfl))
    have hraise := State.raise_only (((s.released ch now).spareLanes ch n).channelTrained ch now) 0x4201 (unitChannel ch) 0 0 false
    have hraised := Raised.of_raise (((s.released ch now).spareLanes ch n).channelTrained ch now) 0x4201 (unitChannel ch) 0 0 false
    refine ⟨_, congrArg Host.Outcome.next (State.retrainDone_trained hheld now hspares), htrained.trans (hraise.mono rfl), ?_,
      raised_last hraised, ?_⟩
    · rw [hraise.channel, State.channelTrained, channel_setChannel_self, hspared, hkept, hfree, hstacks]
    · obtain ⟨hlast, -⟩ := hraised
      have hevents := (s.released_only ch now).get .events
      exact hlast.trans (congrArg (· + 1) (hseq.trans (congrArg (fun e => EventState.seq e + BitVec.ofNat 64 n) hevents)))
  case down =>
    intro o hheld ho
    obtain ⟨hfree, -⟩ := s.released_facts ch now
    have honly := s.released_only ch now
    obtain ⟨hchannel, hraised, hledger, hhalt⟩ := (s.released ch now).channelDown_facts ch
    rw [hfree] at hchannel
    refine ⟨_, congrArg Host.Outcome.next (State.retrainDone_down hheld now ho), (honly.mono rfl).trans ((State.channelDown_only _ _).mono rfl),
      congrArg Channel.down hchannel, congrArg Channel.held hchannel, congrArg Channel.pending hchannel,
      hraised.from (honly.get .events), fun hkept => hledger ?_, fun hruns => hhalt ?_⟩
    · rw [honly.unit]; exact hkept
    · rw [jobRuns_of honly]; exact hruns
  case holds =>
    intro v hwrite hguard hnow hidle hsel
    have hmem := State.writeMemCtrl_holds (s := s.guardArmed) hnow hidle hsel
    refine ⟨_, (exec_retrainNow hwrite hguard v).trans (congrArg Host.Outcome.next hmem), ?_, rfl, rfl, channel_setChannel_self _ _ _⟩
    exact Only.of (State.setChannel_only _ _ _) rfl (Only.of (State.startOp_only _ _) rfl
      (Only.of (State.setPending_only _ _) rfl (s.arm_only.mono rfl)))
  case refused =>
    intro v hwrite hguard hnow hrefused
    have hmem := State.writeMemCtrl_refused (s := s.guardArmed) hnow hrefused
    exact ⟨_, (exec_retrainNow hwrite hguard v).trans (congrArg Host.Outcome.next hmem), s.arm_only.trans (State.log_only _ _ _ _),
      logged_log _ _ _ _⟩
  case auto =>
    exact fun v hwrite hguard hnow =>
      (exec_retrainNow hwrite hguard v).trans (congrArg Host.Outcome.next (State.writeMemCtrl_auto hnow))
  case cool =>
    intro hcool hfree
    refine congrArg Host.Outcome.next ?_
    rw [State.stackTemp_mild hcool, hfree, ← State.tempSeen_mild hcool]
    rfl
  case hot =>
    intro hhot hmild hnew
    have hthrottles : s.stackTemp k temp = (s.tempSeen k temp).throttledFor k := by
      rw [State.stackTemp_above k.isLt (by omega), State.critChecked_mild hmild, State.hotChecked_hot hhot hnew]
    obtain ⟨hmem, hstacks, hraised, -⟩ := (s.tempSeen k temp).throttledFor_facts k
    refine ⟨_, congrArg Host.Outcome.next hthrottles, ?_, by rw [hmem], hraised.from rfl, ?_, ?_, by rw [hmem]; rfl⟩
    · exact ((s.tempSeen_only k temp).mono rfl).trans (State.throttledFor_only _ _)
    · rw [hstacks, State.tempSeen_stack]; simp [hhot]
    · rw [hstacks, State.tempSeen_stack]
  case crit =>
    intro hcrit hnew hvoid
    have hacts : s.stackTemp k temp = (s.hotChecked k temp).stackCrit k (fun v => { v with stack := true }) := by
      rw [State.stackTemp_above k.isLt (by omega), State.critChecked_crit hcrit hnew]
    obtain ⟨hstack, hseq⟩ := State.hotChecked_rest (s := s) (k := k) (temp := temp)
    obtain ⟨hmark, hcause, -, hlast⟩ := (s.hotChecked k temp).stackCrit_facts k (fun v => { v with stack := true })
    refine ⟨_, congrArg Host.Outcome.next hacts, hmark, by rw [hcause], ?_, hlast (by rw [hseq]; exact hvoid), ?_⟩
    · exact (State.voidPromise_seq _ _).2.trans (by simp [VoidCauses.any])
    · rw [State.stackCrit_stack, hstack, State.tempSeen_stack]
      exact decide_eq_true hcrit
  case again =>
    intro hlow hthrottled hothers
    have hagain : s.stackTemp k temp = (s.tempSeen k temp).runsAgain := by
      rw [State.stackTemp_mild (by omega), hthrottled, State.tempSeen_below hlow hothers]; rfl
    obtain ⟨honly, hruns, hraised, hcool⟩ := (s.tempSeen k temp).runsAgain_facts
    exact ⟨_, congrArg Host.Outcome.next hagain, ((s.tempSeen_only k temp).mono rfl).trans honly, hruns, hraised.from rfl,
      fun j _ => hcool j⟩

end Sys2Proof.Machine
end

section
/-! SUPPORT and CLAIM. Groups and queues by register writes (R338, R339): what GROUP_CFG, ARM and DISARM make of the group and the queue that
are selected, how they are refused, and the obligation about them. Reserved bits written otherwise count for nothing (log 9). -/

-- Checked one theorem at a time: the package as one text then needs less memory.
set_option Elab.async false

namespace Sys2Proof.Machine

/-- An event leaves what was logged. -/
theorem Logged.raise {off source : Nat} {r : LogReason} {t : State} (h : Logged off source r t) (code : Nat) (unit : Half) (ident qty : Nat)
    (halts : Bool) : Logged off source r (t.raise code unit ident qty halts) := by
  unfold Logged
  rw [raise_setup]
  exact h

/-! ## GROUP_CFG (R338) -/

/-- A write of GROUP_CFG as the window takes it. -/
theorem exec_groupCfg {s : State} (h : s.takesWrite) (v : Word) :
    exec (.groupCfg 0 v) s = .next (State.writeGroupCfg { s with setup.armed := true } v.toNat) :=
  congrArg Host.Outcome.next (window_free (r := .groupCfg) h rfl (by decide) rfl (by decide) nofun nofun rfl)

/-- A group enabled within the poll units of its port takes its period (R338). -/
theorem State.writeGroupCfg_enables {s : State} {v : Nat} (hpoll : v % 16 ≤ 8) (hen : bit 4 v = true)
    (hroom : s.pollUnits s.win.groupSel.toNat + 2 ^ (8 - v % 16) ≤ 1024) :
    s.writeGroupCfg v = s.setGroup s.win.groupSel.toNat (fun g => { g with poll := BitVec.ofNat 4 v, enable := true }) := by
  unfold State.writeGroupCfg
  simp only [BitVec.toNat_ofNat, Nat.reducePow, hen]
  rw [if_neg (by omega), if_neg (by simp), if_neg (by simpa using hroom)]

/-- A group whose polls are more than its port has room for is refused (R338). -/
theorem State.writeGroupCfg_refused {s : State} {v : Nat} (hpoll : v % 16 ≤ 8) (hen : bit 4 v = true)
    (hroom : 1024 < s.pollUnits s.win.groupSel.toNat + 2 ^ (8 - v % 16)) :
    s.writeGroupCfg v = (s.log 0x40014 0 .state).raise 0x6201 (unitPort (s.win.groupSel.toNat / 32)) s.win.groupSel.toNat := by
  unfold State.writeGroupCfg
  simp only [BitVec.toNat_ofNat, Nat.reducePow, hen]
  rw [if_neg (by omega), if_neg (by simp), if_pos (by simpa using hroom)]

/-! ## Q_CMD (R339) -/

/-- A write of Q_CMD as the window takes it. -/
theorem window_qCmd {s : State} (h : s.takesWrite) (v : Word) :
    s.windowWrite 0 0x40040 4 v.toNat (fun t => t) (fun t => t.writeQCmd v.toNat) = State.writeQCmd { s with setup.armed := true } v.toNat :=
  window_free (r := .qCmd) h rfl (by decide) rfl (by decide) nofun nofun rfl

/-- The value 1 of Q_CMD is ARM. -/
theorem State.writeQCmd_arm {v : Nat} (hv : v % 4 = 1) (s : State) : s.writeQCmd v = s.armQueue := by
  simp only [State.writeQCmd, hv]

/-- The value 2 of Q_CMD is DISARM. -/
theorem State.writeQCmd_disarm {v : Nat} (hv : v % 4 = 2) (s : State) : s.writeQCmd v = s.disarmQueue := by
  simp only [State.writeQCmd, hv]

/-- A queue as ARM makes it from the staging registers: its interrupt settings stay, and its positions stand at the start of its first lap. -/
def WindowRegs.armedQueue (w : WindowRegs) (x : Queue) : Queue where
  vector := x.vector
  irqEn := x.irqEn
  holdoff := x.holdoff
  mode := .armed
  cls := w.qClass
  log2 := w.qLog2
  ring := w.qRing
  aux := w.qAux
  startLap := w.qStartLap
  c := w.qStartLap.toNat * 2 ^ w.qLog2.toNat
  f := w.qStartLap.toNat * 2 ^ w.qLog2.toNat
  d := w.qStartLap.toNat * 2 ^ w.qLog2.toNat
  p := w.qStartLap.toNat * 2 ^ w.qLog2.toNat
  k := w.qStartLap.toNat * 2 ^ w.qLog2.toNat

/-- A queue that may be armed starts from the staging registers, and its port is no longer orphaned (R339, R369). -/
theorem State.armQueue_arms {s : State} (h : s.armBad s.win.qSel.toNat = false) :
    s.armQueue.queue s.win.qSel.toNat = s.win.armedQueue (s.queue s.win.qSel.toNat)
      ∧ (s.armQueue.port (queuePort s.win.qSel.toNat)).orphaned = false := by
  let t : State := (s.setQueue s.win.qSel.toNat s.win.armedQueue).setPort (queuePort s.win.qSel.toNat) (fun x => { x with orphaned := false })
  have harm : Only [.tel] t s.armQueue := by
    unfold State.armQueue
    dsimp only
    rw [if_neg (ne_true_of_eq_false h)]
    exact Only.ite (fun _ => State.refillHeld_only 64 t) (fun _ => Only.refl t)
  rw [harm.queue, harm.port]
  constructor
  · exact ((State.setPort_only _ _ _).queue _).trans (queue_setQueue_self _ _ _)
  · rw [port_setPort, if_pos rfl]

/-- A queue that may not be armed takes ARM_ERR alone, and QUEUE_CFG is raised (R339). -/
theorem State.armQueue_refused {s : State} (h : s.armBad s.win.qSel.toNat = true) :
    s.armQueue = ((s.setQueue s.win.qSel.toNat (fun x => { x with armErr := true })).log 0x40040 0 .state).raise 0x6202
      (unitPort (queuePort s.win.qSel.toNat)) s.win.qSel.toNat := if_pos h

/-- A refused ARM sets its queue's ARM_ERR, and the queue keeps its state. -/
theorem State.armQueue_refused_queue {s : State} (h : s.armBad s.win.qSel.toNat = true) :
    (s.armQueue.queue s.win.qSel.toNat).armErr = true
      ∧ (s.armQueue.queue s.win.qSel.toNat).mode = (s.queue s.win.qSel.toNat).mode := by
  have hqueue : s.armQueue.queue s.win.qSel.toNat = { s.queue s.win.qSel.toNat with armErr := true } := by
    rw [State.armQueue_refused h, (State.raise_only _ _ _ _ _ _).queue]
    exact queue_setQueue_self s _ _
  rw [hqueue]
  exact ⟨rfl, rfl⟩

/-- DISARM of an armed queue leaves the descriptors that are taken in (R339). -/
theorem State.disarmQueue_armed {s : State} (h : (s.queue s.win.qSel.toNat).mode = .armed) :
    s.disarmQueue = s.setQueue s.win.qSel.toNat (fun y => { y with
      mode := .disarming, stale := false, fetching := false, mute := y.mute || y.mode == .orphaned
      descs := y.descs.filter (fun d => d.stage == .taken || d.stage == .waiting || d.stage == .finished) }) := if_pos (.inl h)

/-- A disarming queue without a descriptor becomes UNARMED, and the fences that wait for it fail (R339, R350). -/
theorem State.endDisarm_ends {s : State} {q : Nat} (hmode : (s.queue q).mode = .disarming) (hdescs : (s.queue q).descs = []) :
    s.endDisarm q = (s.setQueue q (fun y => { y with mode := .unarmed, mute := false })).failFences q := if_pos ⟨hmode, hdescs⟩

/-- Settles O3: a group's configuration is taken or refused, a queue armed or refused, disarmed and unarmed, each by its law above. What a
write with changed reserved bits does is log 9. -/
theorem queueRegisterWrites : Obligations.QueueRegisterWrites := by
  intro s v h
  let u : State := { s with setup.armed := true }
  refine ⟨fun hpoll hen hroom => ?enabled, fun hpoll hen hroom => ?full, fun hv hgood => ?armed, fun hv hbad => ?refused,
    fun hv hmode => ?disarmed, fun q hmode hdescs => ?unarmed⟩
  case enabled =>
    refine (exec_groupCfg h v).trans (congrArg _ ?_)
    exact State.writeGroupCfg_enables (s := u) hpoll (by simpa [bit] using hen) hroom
  case full =>
    have hwrite := State.writeGroupCfg_refused (s := u) hpoll (by simpa [bit] using hen) hroom
    refine ⟨_, (exec_groupCfg h v).trans (congrArg _ hwrite), ?_, ?_, ?_⟩
    · exact (State.raise_only _ _ _ _ _ _).get .groups rfl
    · exact (Raised.of_raise _ _ _ _ _ _).from rfl
    · exact (logged_log _ _ _ _).raise _ _ _ _ _
  case armed =>
    obtain ⟨hqueue, hport⟩ := State.armQueue_arms (s := u) hgood
    exact ⟨_, congrArg Host.Outcome.next ((window_qCmd h v).trans (State.writeQCmd_arm hv _)), hport, hqueue⟩
  case refused =>
    obtain ⟨herr, hmode⟩ := State.armQueue_refused_queue (s := u) hbad
    refine ⟨_, congrArg Host.Outcome.next ((window_qCmd h v).trans (State.writeQCmd_arm hv _)), herr, hmode, ?_, ?_⟩
    all_goals rw [State.armQueue_refused (s := u) hbad]
    · exact (Raised.of_raise _ _ _ _ _ _).from rfl
    · exact (logged_log _ _ _ _).raise _ _ _ _ _
  case disarmed =>
    refine ⟨_, congrArg Host.Outcome.next ((window_qCmd h v).trans ((State.writeQCmd_disarm hv _).trans
      (State.disarmQueue_armed (s := u) hmode))), ?_, ?_, fun q hq => ?_⟩
    · rw [queue_setQueue_self]
    · rw [queue_setQueue_self]; rfl
    · rw [queue_setQueue, if_neg (Ne.symm hq)]; rfl
  case unarmed =>
    refine ⟨_, congrArg Host.Outcome.next (State.endDisarm_ends hmode hdescs), ?_⟩
    rw [queue_setQueue_self]

end Sys2Proof.Machine
end

section
/-! SUPPORT and CLAIM. What queues and rings write (R354, R355, R357, R358, R363): completion records, the messages of a vector and entries of
a device-written ring through an open port, and the obligation about them. -/

-- Checked one theorem at a time: the package as one text then needs less memory.
set_option Elab.async false

namespace Sys2Proof.Machine

/-! ## Messages (R363) -/

/-- A vector that is not masked sends its message through an open port. -/
theorem State.msix_open {s : State} {p v : Nat} (hport : s.portOpen p) (hmask : (NMap.getD (s.port p).msix v {}).masked = false) :
    s.msix p v = { s with out := s.out ++ [.msix p v] } :=
  (if_neg (ne_true_of_eq_false hmask)).trans (toHost_open hport)

/-- A queue whose interrupt is not enabled is not told of what is written for it. -/
theorem State.notify_off {s : State} {q : Nat} (h : (s.queue q).irqEn = false) : s.notify q = s := if_pos (by rw [h]; rfl)

/-- A holdoff in which nothing was written just ends. -/
theorem State.holdoffEnd_quiet {s : State} {q : Nat} (hhold : (s.queue q).holding = true) (hmore : (s.queue q).more = false) :
    s.holdoffEnd q = s.setQueue q (fun y => { y with holding := false }) :=
  (if_neg (by simp [hhold])).trans (if_neg (ne_true_of_eq_false hmore))

/-- A holdoff in which more was written ends with one message. -/
theorem State.holdoffEnd_more {s : State} {q : Nat} (hhold : (s.queue q).holding = true) (hmore : (s.queue q).more = true) :
    s.holdoffEnd q
      = (s.msix (queuePort q) (s.queue q).vector.toNat).setQueue q (fun y => { y with holding := decide (y.holdoff ≠ 0), more := false }) :=
  (if_neg (by simp [hhold])).trans (if_pos hmore)

/-! ## Positions that move on -/

/-- A change of a queue counts for what it makes of the queue alone. -/
theorem State.setQueue_congr {s : State} {q : Nat} {f g : Queue → Queue} (h : f (s.queue q) = g (s.queue q)) : s.setQueue q f = s.setQueue q g :=
  congrArg (fun x => { s with host.queues := NMap.insert s.host.queues q x }) h

/-- A queue whose completion position has moved to `f` past the descriptor at `pos`. -/
def Queue.completed (x : Queue) (f pos : Nat) : Queue := { x with f := f, descs := x.descs.filter (fun e => e.pos != pos) }

/-- A completion leaves whether the interrupt is enabled. -/
theorem Queue.completed_irqEn (x : Queue) (f pos : Nat) : (x.completed f pos).irqEn = x.irqEn := rfl

/-- A ring whose producer position has moved to `p`. -/
def Queue.produced (x : Queue) (p : Nat) : Queue := { x with p := p }

/-- A new entry leaves whether the interrupt is enabled. -/
theorem Queue.produced_irqEn (x : Queue) (p : Nat) : (x.produced p).irqEn = x.irqEn := rfl

/-! ## Completions (R354, R355) -/

/-- The record of a descriptor as it leaves through its queue's port (R354). -/
def State.completionWrite (s : State) (q : Nat) (d : Desc) : Output :=
  .completion (queuePort q) ((s.queue q).aux.toNat + 32 * (s.queue q).slot d.pos)
    (completionRecord q (s.queue q) d s.stepOrNone (s.late d)) (s.completionInfo d)

/-- The completion of a finished descriptor without data is its record alone, through an open port and with no interrupt enabled. -/
theorem State.complete_record {s : State} {q : Nat} {d : Desc} (hmute : (s.queue q).mute = false) (hirq : (s.queue q).irqEn = false)
    (hport : s.portOpen (queuePort q)) (hfront : (s.queue q).descs.find? (fun e => e.pos == (s.queue q).f) = some d)
    (hstage : d.stage = .finished) (hdata : d.hasData = false) :
    s.complete q = (s.setQueue q (fun y => y.completed ((s.queue q).next (s.queue q).f) d.pos)).emit (s.completionWrite q d) := by
  let t : State := s.setQueue q (fun y => y.completed ((s.queue q).next (s.queue q).f) d.pos)
  have hqueue : s.setQueue q (fun y => y.completed (y.next y.f) d.pos) = t := State.setQueue_congr rfl
  have hwrite : t.writeOutputs q d = t := if_neg (ne_true_of_eq_false hdata)
  have hsend : t.toHost (queuePort q) (s.completionWrite q d) = t.emit (s.completionWrite q d) := toHost_open (portOpen_of hport rfl)
  have hquiet : (t.queue q).irqEn = false := by
    rw [queue_setQueue_self, Queue.completed_irqEn, hirq]
  have hcomplete : s.complete q = (((s.setQueue q (fun y => y.completed (y.next y.f) d.pos)).writeOutputs q d).toHost (queuePort q)
      (s.completionWrite q d)).notify q := by
    unfold State.complete
    simp only [hmute, Bool.false_eq_true, if_false, hfront, if_pos hstage]
    rfl
  rw [hcomplete, hqueue, hwrite, hsend]
  exact State.notify_off hquiet

/-! ## Entries of a device-written ring (R357) -/

/-- The next entry of a ring as it leaves through the ring's port. -/
def State.entryWrite (s : State) (q size : Nat) (e : Bytes) : Output :=
  .hostWrite (queuePort q) ((s.queue q).ring.toNat + size * (s.queue q).slot (s.queue q).p) (padTo size e)

/-- The producer word that covers the next entry of a ring. -/
def State.producerWrite (s : State) (q : Nat) : Output :=
  .hostWrite (queuePort q) (s.queue q).aux.toNat (leBytes 8 ((s.queue q).next (s.queue q).p))

/-- A ring whose entry has been written. -/
def State.entryWritten (s : State) (q size : Nat) (e : Bytes) : State :=
  { s.setQueue q (fun y => y.produced ((s.queue q).next (s.queue q).p)) with out := s.out ++ [s.entryWrite q size e, s.producerWrite q] }

/-- An entry of a ring with no interrupt enabled is the entry and the producer word, through an open port. -/
theorem State.writeEntry_open {s : State} {q : Nat} (hirq : (s.queue q).irqEn = false) (hport : s.portOpen (queuePort q)) (size : Nat)
    (e : Bytes) : s.writeEntry q size e = s.entryWritten q size e := by
  let t : State := (s.emit (s.entryWrite q size e)).setQueue q (fun y => y.produced ((s.queue q).next (s.queue q).p))
  have hqueue : (s.emit (s.entryWrite q size e)).setQueue q (fun y => y.produced (y.next y.p)) = t := State.setQueue_congr rfl
  have hentry : s.toHost (queuePort q) (s.entryWrite q size e) = s.emit (s.entryWrite q size e) := toHost_open hport
  have hword : t.toHost (queuePort q) (s.producerWrite q) = t.emit (s.producerWrite q) := toHost_open (portOpen_of hport rfl)
  have hquiet : (t.queue q).irqEn = false := by
    rw [queue_setQueue_self, Queue.produced_irqEn]
    exact hirq
  have hout : t.emit (s.producerWrite q) = s.entryWritten q size e :=
    congrArg (fun o => { s.setQueue q (fun y => y.produced ((s.queue q).next (s.queue q).p)) with out := o }) (List.append_assoc s.out [_] [_])
  calc s.writeEntry q size e
      = (((s.toHost (queuePort q) (s.entryWrite q size e)).setQueue q (fun y => y.produced (y.next y.p))).toHost (queuePort q)
          (s.producerWrite q)).notify q := rfl
    _ = (t.emit (s.producerWrite q)).notify q := by rw [hentry, hqueue, hword]
    _ = t.emit (s.producerWrite q) := State.notify_off hquiet
    _ = s.entryWritten q size e := hout

/-- Nothing is refilled while no step record is held (R73). -/
theorem State.refillHeld_none {s : State} (h : s.host.tel.held = []) (n : Nat) : State.refillHeld n s = s := by
  cases n with
  | zero => rfl
  | succ n =>
    unfold State.refillHeld
    rw [h]

/-- The next record enters a TELEMETRY ring with a free entry (R358). -/
theorem State.writeTelemetry_enters {s : State} {q : Nat} {r : TelRecord} {rest : List TelRecord} (hring : s.telemetryQueue = some q)
    (hnext : s.host.tel.accepted = r :: rest) (hfree : (s.queue q).free = true) :
    s.writeTelemetry = State.refillHeld 64
      (({ s with host.tel.accepted := rest } : State).writeEntry q 512 (telemetryEntry (s.queue q).p r)) := by
  unfold State.writeTelemetry
  rw [hring, hnext]
  exact if_pos hfree

/-- Settles O19: a completion by its record, a vector's holdoff by whether more was written in it, and a telemetry entry by the entry and the
producer word of its ring. -/
theorem queueRecords : Obligations.QueueRecords := by
  intro s q x now hx
  subst hx
  refine ⟨fun d hmute hirq hport hfront hstage hdata => ?completion, fun hhold hmore => ?quiet, fun hhold hmore hport hmask => ?message,
    fun r rest hring hnext hheld hfree hirq hport => ?entry⟩
  case completion =>
    exact congrArg Host.Outcome.next (State.complete_record (s := s.timed now) hmute hirq hport hfront hstage hdata)
  case quiet => exact congrArg Host.Outcome.next (State.holdoffEnd_quiet hhold hmore)
  case message =>
    refine congrArg Host.Outcome.next ((State.holdoffEnd_more hhold hmore).trans ?_)
    rw [State.msix_open hport hmask]
    rfl
  case entry =>
    let t : State := { s with host.tel.accepted := rest }
    refine congrArg Host.Outcome.next ((State.writeTelemetry_enters hring hnext hfree).trans ?_)
    have hwritten := State.writeEntry_open (s := t) hirq hport 512 (telemetryEntry (s.queue q.val).p r)
    exact (congrArg (State.refillHeld 64) hwritten).trans (State.refillHeld_none (s := t.entryWritten q.val 512 _) hheld 64)

end Sys2Proof.Machine
end

section
/-! SUPPORT and CLAIM. Host ports (R332, R364 to R366, R369 to R371): what a port's link going down and coming back, a host reset, a removal and
a new link leave of the port, its groups and its queues, and the obligation about them. -/

-- Checked one theorem at a time: the package as one text then needs less memory.
set_option Elab.async false

namespace Sys2Proof.Machine

/-! ## A link that comes back (R364, R366) -/

/-- A message of a vector leaves the link of every port, and the count of its retrainings. -/
theorem State.msix_link (s : State) (p v j : Nat) :
    ((s.msix p v).port j).link = (s.port j).link ∧ ((s.msix p v).port j).retrains = (s.port j).retrains := by
  have hset : ∀ f : Port → Port, (∀ x, (f x).link = x.link ∧ (f x).retrains = x.retrains) →
      ((s.setPort p f).port j).link = (s.port j).link ∧ ((s.setPort p f).port j).retrains = (s.port j).retrains := by
    intro f hf
    rw [port_setPort]
    split
    next hpj => exact hpj ▸ hf _
    next => exact ⟨rfl, rfl⟩
  unfold State.msix State.toHost
  dsimp only
  split_ifs
  · exact hset _ fun _ => ⟨rfl, rfl⟩
  · exact ⟨rfl, rfl⟩
  · exact ⟨rfl, rfl⟩
  · exact hset _ fun _ => ⟨rfl, rfl⟩

/-- Messages of several vectors do the same. -/
theorem State.msixAll_link (p j : Nat) (vs : List Nat) (s : State) :
    ((vs.foldl (fun (st : State) v => st.msix p v) s).port j).link = (s.port j).link
      ∧ ((vs.foldl (fun (st : State) v => st.msix p v) s).port j).retrains = (s.port j).retrains := by
  induction vs generalizing s with
  | nil => exact ⟨rfl, rfl⟩
  | cons v vs ih =>
    obtain ⟨hlink, hretrains⟩ := s.msix_link p v j
    obtain ⟨hrest, hcount⟩ := ih (s.msix p v)
    exact ⟨hrest.trans hlink, hcount.trans hretrains⟩

/-- What a completion record still needs rests on the clocks alone. -/
theorem State.refreshed_congr {s t : State} (h : t.clk = s.clk) (again : Bool) : t.refreshed again = s.refreshed again := by
  funext o
  unfold State.refreshed
  rw [h]

/-- A port whose link has come back, with the event. -/
def State.linkBack (s : State) (p : Nat) : State :=
  (s.setPort p (fun y => { y with link := .up, retrains := satAdd y.retrains 1, heldOut := [], unacked := [] })).raise 0x6002 (unitPort p)

/-- What a port sends once its link is back: reads again, then the writes not acknowledged, then what was held (R366). -/
def State.sentAgain (s : State) (p : Nat) : List Output :=
  (s.port p).outstanding ++ (s.port p).unacked.map (s.refreshed true)
    ++ ((s.port p).heldOut.filter (fun o => !isRead o)).map (s.refreshed false)

/-- The state after a retraining, but for the guard. -/
def State.retrained (s : State) (p : Nat) : State :=
  (s.enabledVectors p).foldl (fun (st : State) v => st.msix p v) ((s.linkBack p).emits (s.sentAgain p))

/-- A retraining sends again and tells every enabled vector; P0's arms the guard (R366, R465). -/
theorem State.retrainPort_eq {s : State} {p : Nat} (h : (s.port p).link = .retraining) :
    s.retrainPort p = if p = 0 then { s.retrained p with setup.armed := true } else s.retrained p := by
  have hclk : (s.linkBack p).clk = s.clk := (State.raise_only _ _ _ _ _ _).clk
  have hsent : s.sentAgain p = (s.port p).outstanding ++ (s.port p).unacked.map ((s.linkBack p).refreshed true)
      ++ ((s.port p).heldOut.filter (fun o => !isRead o)).map ((s.linkBack p).refreshed false) := by
    rw [State.refreshed_congr hclk, State.refreshed_congr hclk]
    rfl
  unfold State.retrained
  rw [hsent]
  exact if_neg (by simp [h])

/-- What a retraining leaves of the port and of the events. -/
theorem State.retrained_facts (s : State) (p : Nat) :
    ((s.retrained p).port p).link = .up ∧ ((s.retrained p).port p).retrains = satAdd (s.port p).retrains 1
      ∧ Raised 0x6002 (unitPort p) s (s.retrained p) := by
  have hport : ((s.linkBack p).emits (s.sentAgain p)).port p
      = { s.port p with link := .up, retrains := satAdd (s.port p).retrains 1, heldOut := [], unacked := [] } := by
    rw [(State.emits_only _ _).port]
    unfold State.linkBack
    rw [(State.raise_only _ _ _ _ _ _).port, port_setPort, if_pos rfl]
  obtain ⟨hlink, hretrains⟩ := State.msixAll_link p p (s.enabledVectors p) ((s.linkBack p).emits (s.sentAgain p))
  refine ⟨hlink.trans (by rw [hport]), hretrains.trans (by rw [hport]), ?_⟩
  have hevents := (Only.foldl (fun t v => State.msix_only t p v) (s.enabledVectors p) ((s.linkBack p).emits (s.sentAgain p))).get .events
  have hback : Raised 0x6002 (unitPort p) s (s.linkBack p) := (Raised.of_raise _ _ _ _ _ _).from rfl
  exact hback.to hevents

/-- Without an enabled vector a retraining puts out what it sends again, and no more. -/
theorem State.retrained_out {s : State} {p : Nat} (h : s.enabledVectors p = []) : (s.retrained p).out = s.out ++ s.sentAgain p := by
  have hback : (s.linkBack p).out = s.out := (State.raise_only _ _ _ _ _ _).get .out rfl
  unfold State.retrained
  rw [h]
  exact congrArg (· ++ s.sentAgain p) hback

/-! ## The modes of queues -/

/-- Every queue has the same mode in two states. -/
def State.ModesKept (s t : State) : Prop := ∀ j, (t.queue j).mode = (s.queue j).mode

/-- Modes that are kept twice are kept. -/
theorem State.ModesKept.trans {s t u : State} (h : s.ModesKept t) (k : t.ModesKept u) : s.ModesKept u := fun j => (k j).trans (h j)

/-- What leaves the queues keeps their modes. -/
theorem Only.modesKept {m : List Part} {s t : State} (h : Only m s t) (hm : m.contains .queues = false := by rfl) : s.ModesKept t :=
  fun j => congrArg Queue.mode (h.queue j hm)

/-- An operation for each of a list keeps the modes that it keeps each time. -/
theorem State.ModesKept.foldl {α : Type} {f : State → α → State} (h : ∀ (t : State) x, t.ModesKept (f t x)) (l : List α) (s : State) :
    s.ModesKept (l.foldl f s) := by
  induction l generalizing s with
  | nil => exact fun _ => rfl
  | cons x r ih => exact (h s x).trans (ih _)

/-- A change of a queue that keeps its mode. -/
theorem State.setQueue_modesKept (s : State) (q : Nat) {f : Queue → Queue} (h : ∀ x, (f x).mode = x.mode) : s.ModesKept (s.setQueue q f) := by
  intro j
  rw [queue_setQueue]
  split
  next hqj => rw [h, hqj]
  next => rfl

/-- A descriptor that fails leaves its queue in its mode (R352). -/
theorem State.failDesc_modesKept (s : State) (q pos code : Nat) : s.ModesKept (s.failDesc q pos code) := by
  unfold State.failDesc
  extract_lets -merge s0 s1 _ _ s2
  have hwithdrawn : s.ModesKept s0 := by
    unfold s0
    split
    · exact (State.withdraw_only _ _ _).modesKept
    · exact fun _ => rfl
  have hfinished : s0.ModesKept s1 := s0.setQueue_modesKept q fun _ => rfl
  have hcoded : s1.ModesKept s2 := s1.setQueue_modesKept q (f := fun x => { x with code := BitVec.ofNat 16 code }) fun _ => rfl
  have hraised : s2.ModesKept (s2.raiseOnce q code (unitPort (queuePort q)) q pos) := (State.raiseOnce_only _ _ _ _ _ _ _).modesKept
  exact hwithdrawn.trans (hfinished.trans (hcoded.trans (hraised.trans (State.endIntake_only _).modesKept)))

/-- Fences that fail leave their queues in their modes (R350). -/
theorem State.failFences_modesKept (s : State) (wq : Nat) : s.ModesKept (s.failFences wq) := by
  refine State.ModesKept.foldl (fun t e => State.ModesKept.foldl (fun u d => ?_) e.2.descs t) s.host.queues s
  split_ifs
  · exact u.failDesc_modesKept _ _ _
  · exact fun _ => rfl

/-- A stream that breaks leaves every queue in its mode (R403). -/
theorem State.breakExport_modesKept (s : State) : s.ModesKept s.breakExport := by
  have hwaiter : ∀ (t : State) (status : Half) (w : Nat × Nat), t.ModesKept (t.finishWaiter status w) :=
    fun t status w => t.setQueue_modesKept w.1 fun _ => rfl
  unfold State.breakExport
  extract_lets s1 s2
  have hstops : s.ModesKept s1 := State.ModesKept.foldl (fun t w => hwaiter t 0 w) _ s
  have harm : s1.ModesKept s2 := by
    unfold s2
    split
    · exact hwaiter _ _ _
    · exact fun _ => rfl
  split_ifs
  · exact hstops.trans (harm.trans ((State.setExport_only _ _).modesKept.trans (State.raise_only _ _ _ _ _ _).modesKept))
  · exact fun _ => rfl

/-! ## Queues of a port whose host was reset (R369, R370) -/

/-- An armed or halted queue is orphaned, and the other queues keep their modes. -/
theorem State.orphanQueue_mode (s : State) (q j : Nat) :
    ((s.orphanQueue q).queue j).mode
      = if q = j ∧ ((s.queue q).mode = .armed ∨ (s.queue q).mode = .halted) then .orphaned else (s.queue j).mode := by
  unfold State.orphanQueue
  extract_lets x gone s1 s2 s3
  split
  next hidle => exact (if_neg fun h => by rcases h.2 with h | h <;> simp_all [x]).symm
  next hlive =>
    have hkept : Only [.intake, .mem, .tables] s s2 :=
      Only.thenFold (Only.foldl (fun t d => (State.withdraw_only t q d).mono rfl) gone s) fun t d => (State.dropWaitingLoad_only t d).mono rfl
    have hmode : (s3.queue j).mode
        = if q = j ∧ ((s.queue q).mode = .armed ∨ (s.queue q).mode = .halted) then .orphaned else (s.queue j).mode := by
      unfold s3
      rw [queue_setQueue, hkept.queue, hkept.queue]
      by_cases hqj : q = j
      · subst hqj
        simp
      · simp [hqj]
    split
    next => exact (s3.failFences_modesKept q j).trans hmode
    next => exact hmode

/-- An armed or halted queue among those of a reset port is orphaned, and stays so. -/
theorem State.orphanQueues_mode {j : Nat} (qs : List Nat) (s : State)
    (h : (s.queue j).mode = .orphaned ∨ (j ∈ qs ∧ ((s.queue j).mode = .armed ∨ (s.queue j).mode = .halted))) :
    ((qs.foldl State.orphanQueue s).queue j).mode = .orphaned := by
  induction qs generalizing s with
  | nil => simpa using h
  | cons q qs ih =>
    refine ih (s.orphanQueue q) ?_
    rw [s.orphanQueue_mode q j]
    rcases h with horphaned | ⟨hmem, hlive⟩
    · exact .inl (by simp [horphaned])
    · by_cases hqj : q = j
      · subst hqj
        exact .inl (if_pos ⟨rfl, hlive⟩)
      · rw [if_neg fun h => hqj h.1]
        exact .inr ⟨(List.mem_cons.mp hmem).resolve_left (Ne.symm hqj), hlive⟩

/-- A key that is listed is among the keys. -/
theorem NMap.mem_keys {α : Type} {m : NMap α} {k : Nat} {v : α} (h : NMap.find? m k = some v) : k ∈ m.map (·.1) := by
  induction m with
  | nil => cases h
  | cons e r ih =>
    simp only [NMap.find?] at h
    split at h
    next hkey => exact hkey ▸ List.mem_cons_self
    next => exact List.mem_cons_of_mem _ (ih h)

/-- A queue of a port that has been armed stands among the port's queues. -/
theorem State.mem_portQueues {s : State} {q : Nat} (h : (s.queue q).mode ≠ .unarmed) : q ∈ s.portQueues (queuePort q) := by
  refine List.mem_filter.mpr ⟨?_, by simp⟩
  cases hfind : NMap.find? s.host.queues q with
  | none => exact absurd (by rw [State.queue, NMap.getD, hfind]; rfl) h
  | some x => exact NMap.mem_keys hfind

/-! ## Host resets (R364, R369, R370) -/

/-- A port whose host was reset: its link is down, and its reads and writes are dropped. -/
def Port.shut (x : Port) : Port := { x with link := .down, orphaned := true, heldOut := [], outstanding := [], unacked := [] }

/-- The state once a port is shut and its groups are disabled. -/
def State.shutPort (s : State) (p : Nat) : State :=
  { s.setPort p Port.shut with
    host.groups := s.host.groups.map (fun e => if e.1 / 32 = p then (e.1, { e.2 with enable := false, outstanding := false }) else e) }

/-- The port that is shut. -/
theorem State.shutPort_port (s : State) (p : Nat) : (s.shutPort p).port p = (s.port p).shut :=
  (port_setPort s p p Port.shut).trans (if_pos rfl)

/-- A group of a port that is shut is disabled. -/
theorem State.shutPort_group (s : State) {p g : Nat} (h : g / 32 = p) : ((s.shutPort p).group g).enable = false := by
  let f : Nat → Group → Group := fun k x => if k / 32 = p then { x with enable := false, outstanding := false } else x
  have hgroups : (s.shutPort p).host.groups = s.host.groups.map (fun e => (e.1, f e.1 e.2)) := by
    refine List.map_congr_left fun e _ => ?_
    simp only [f]
    split <;> rfl
  rw [State.group, NMap.getD, hgroups, NMap.find?_mapKeyed]
  cases NMap.find? s.host.groups g with
  | none => rfl
  | some x => simp [f, h]

/-- The state of a host reset whose queues are orphaned and whose port is shut. -/
def State.resetShut (s : State) (p : Nat) : State := ((s.portQueues p).foldl State.orphanQueue s).shutPort p

/-- The state of a host reset with its event. -/
def State.resetRaised (s : State) (p : Nat) : State := (s.resetShut p).endIntake.raise 0x6003 (unitPort p) p

/-- The state of a host reset once an export stream through the port has broken. -/
def State.resetStream (s : State) (p : Nat) : State :=
  if (s.resetRaised p).rel.exp.mode ≠ .off ∧ queuePort (s.resetRaised p).rel.exp.queue = p then (s.resetRaised p).breakExport else s.resetRaised p

/-- A host reset in its parts; P0's arms the guard and ends a setup command that reads. -/
theorem State.orphanPort_eq (s : State) (p : Nat) :
    s.orphanPort p = if p = 0 then ({ s.resetStream p with setup.armed := true } : State).failSetupRead 0x6108 else s.resetStream p := rfl

/-- What a host reset may change once the port is shut, and the queues keep their modes. -/
theorem State.orphanPort_shut (s : State) (p : Nat) :
    Only [.out, .setup, .stats, .intake, .reports, .queues, .tel, .pen, .conns, .events, .exp] (s.resetShut p) (s.orphanPort p)
      ∧ (s.resetShut p).ModesKept (s.orphanPort p) := by
  have hraised : Only [.out, .stats, .intake, .reports, .tel, .pen, .conns, .events] (s.resetShut p) (s.resetRaised p) :=
    Only.of (State.raise_only _ _ _ _ _ _) rfl ((State.endIntake_only _).mono rfl)
  have hstream : Only [.queues, .tel, .events, .exp] (s.resetRaised p) (s.resetStream p) ∧ (s.resetRaised p).ModesKept (s.resetStream p) := by
    unfold State.resetStream
    split_ifs
    · exact ⟨State.breakExport_only _, State.breakExport_modesKept _⟩
    · exact ⟨Only.refl _, fun _ => rfl⟩
  have hguard : Only [.setup] (s.resetStream p) (s.orphanPort p) := by
    rw [State.orphanPort_eq]
    refine Only.ite (fun _ => ?_) (fun _ => Only.refl _)
    exact (Only.lit (Only.refl _) (by intro x; cases x <;> simp [Part.same])).trans (State.failSetupRead_only _ _)
  obtain ⟨hframe, hmodes⟩ := hstream
  exact ⟨((hraised.mono rfl).trans (hframe.mono rfl)).trans (hguard.mono rfl), hraised.modesKept.trans (hmodes.trans hguard.modesKept)⟩

/-- HOST_RESET is the newest event of a host reset unless a stream is on. -/
theorem State.orphanPort_lastEvent {s : State} {p : Nat} (h : s.rel.exp.mode = .off) : (s.orphanPort p).lastEvent = some 0x6003 := by
  have hmode : (s.resetRaised p).rel.exp.mode = .off := by
    have horphaned := Only.foldl State.orphanQueue_only (s.portQueues p) s
    have hintake := (State.endIntake_only (s.resetShut p)).get .exp rfl
    have hraise := (State.raise_only (s.resetShut p).endIntake 0x6003 (unitPort p) p 0 false).get .exp rfl
    exact (congrArg ExportState.mode (hraise.trans (hintake.trans (horphaned.get .exp)))).trans h
  have hstream : s.resetStream p = s.resetRaised p := if_neg fun hon => hon.1 hmode
  have hevents : (s.orphanPort p).events = (s.resetRaised p).events := by
    rw [State.orphanPort_eq, hstream]
    split_ifs
    · exact (State.failSetupRead_only _ _).get .events rfl
    · rfl
  rw [State.lastEvent, hevents]
  exact raised_last (Raised.of_raise (s.resetShut p).endIntake 0x6003 (unitPort p) p 0 false)

/-- The port of a host reset. -/
theorem State.orphanPort_port (s : State) (p : Nat) :
    ((s.orphanPort p).port p).link = .down ∧ ((s.orphanPort p).port p).orphaned = true ∧ ((s.orphanPort p).port p).heldOut = []
      ∧ ((s.orphanPort p).port p).outstanding = [] ∧ ((s.orphanPort p).port p).unacked = [] := by
  rw [(s.orphanPort_shut p).1.port, State.resetShut, State.shutPort_port]
  exact ⟨rfl, rfl, rfl, rfl, rfl⟩

/-- A host reset disables the groups of its port. -/
theorem State.orphanPort_group (s : State) {p g : Nat} (h : g / 32 = p) : ((s.orphanPort p).group g).enable = false := by
  rw [(s.orphanPort_shut p).1.group]
  exact State.shutPort_group _ h

/-- A host reset orphans the armed and the halted queues of its port. -/
theorem State.orphanPort_queue {s : State} {q : Nat} (h : (s.queue q).mode = .armed ∨ (s.queue q).mode = .halted) :
    ((s.orphanPort (queuePort q)).queue q).mode = .orphaned := by
  have hmem : q ∈ s.portQueues (queuePort q) := State.mem_portQueues (by rcases h with h | h <;> rw [h] <;> decide)
  exact ((s.orphanPort_shut (queuePort q)).2 q).trans (State.orphanQueues_mode _ s (.inr ⟨hmem, h⟩))

/-- A link that is up or retraining takes a host reset. -/
theorem State.resetPort_live {s : State} {p : Nat} (h : (s.port p).link ≠ .down) : s.resetPort p = s.orphanPort p := if_neg h

/-- A port that is down has had its host reset already (log 17). -/
theorem State.resetPort_down {s : State} {p : Nat} (h : (s.port p).link = .down) : s.resetPort p = s := if_pos h

/-! ## A link that goes down, and a link that trains (R331, R364, R371) -/

/-- A link that goes down is retraining, with the writes that it has not acknowledged. -/
theorem State.linkDown_up {s : State} {p : Nat} (h : (s.port p).link = .up) (n : Nat) :
    s.linkDown p n = s.setPort p (fun x => { x with link := .retraining, unacked := s.unackedWrites p n }) := if_pos h

/-- A port with a new link, and its event. -/
def State.linkTrained (s : State) (p : Nat) (speed : BitVec 4) (width : BitVec 5) : State :=
  (s.setPort p (fun x => { x with link := .up, present := true, speed := speed, width := width })).raise 0x6001 (unitPort p) p

/-- A new link on a port that was down; a slower or narrower one is degraded (R331). -/
theorem State.portUp_down {s : State} {p : Nat} (h : (s.port p).link = .down) (speed : BitVec 4) (width : BitVec 5) :
    s.portUp p speed width = if speed.toNat < 6 ∨ width.toNat < 16 then (s.linkTrained p speed width).raise 0x6004 (unitPort p) p
      else s.linkTrained p speed width := if_neg (by simp [h])

/-- The port of a new link. -/
theorem State.portUp_port {s : State} {p : Nat} (h : (s.port p).link = .down) (speed : BitVec 4) (width : BitVec 5) :
    (s.portUp p speed width).port p = { s.port p with link := .up, present := true, speed := speed, width := width } := by
  have htrained : (s.linkTrained p speed width).port p = { s.port p with link := .up, present := true, speed := speed, width := width } := by
    unfold State.linkTrained
    rw [(State.raise_only _ _ _ _ _ _).port, port_setPort, if_pos rfl]
  rw [State.portUp_down h]
  split_ifs
  · rw [(State.raise_only _ _ _ _ _ _).port, htrained]
  · exact htrained

/-- Settles O20: a link by whether it comes back in time, a host reset by what it leaves of the port, its groups and its queues, and a new link
by its speed and width. A reset of a port that is down does nothing new, and what is not acknowledged is an operand (log 17). -/
theorem hostPorts : Obligations.HostPorts := by
  intro s p
  refine ⟨fun n hup => ?down, fun hretraining => ?back, fun c hc hretraining => ?reset, fun hdown => ⟨fun k => ?resetDown, ?removedDown⟩,
    fun hup => ?removed, fun speed width hdown => ?trained, rfl⟩
  case down => exact congrArg Host.Outcome.next (State.linkDown_up hup n)
  case back =>
    obtain ⟨hlink, hcount, hraised⟩ := s.retrained_facts p.val
    refine ⟨_, rfl, (State.retrainPort_only s p.val).mono rfl, ?_⟩
    rw [State.retrainPort_eq hretraining]
    split_ifs with hp
    · exact ⟨hlink, hcount, hraised, fun _ => rfl, State.retrained_out⟩
    · exact ⟨hlink, hcount, hraised, fun h => absurd (congrArg Fin.val h) hp, State.retrained_out⟩
  case reset =>
    have hexec : exec c s = .next (s.orphanPort p.val) := by
      rcases hc with rfl | ⟨k, rfl⟩
      · exact congrArg Host.Outcome.next (if_pos hretraining)
      · exact congrArg Host.Outcome.next (State.resetPort_live (by simp [hretraining]))
    obtain ⟨hlink, horphaned, hheld, hreads, hwrites⟩ := s.orphanPort_port p.val
    exact ⟨_, hexec, hlink, horphaned, hheld, hreads, hwrites, fun g hg => s.orphanPort_group hg,
      fun q hq hlive => hq ▸ State.orphanPort_queue hlive, State.orphanPort_lastEvent⟩
  case resetDown => exact congrArg Host.Outcome.next (State.resetPort_down hdown)
  case removedDown =>
    exact congrArg (fun t : State => Host.Outcome.next (t.setPort p.val (fun x => { x with present := false }))) (State.resetPort_down hdown)
  case removed =>
    obtain ⟨hlink, horphaned, -⟩ := s.orphanPort_port p.val
    refine ⟨_, rfl, ?_⟩
    rw [State.resetPort_live (by simp [hup]), port_setPort, if_pos rfl]
    exact ⟨hlink, horphaned, rfl⟩
  case trained =>
    have hraised : Raised 0x6001 (unitPort p.val) s (s.linkTrained p.val speed width) := (Raised.of_raise _ _ _ _ _ _).from rfl
    refine ⟨_, rfl, State.portUp_only s p.val speed width, State.portUp_port hdown speed width, fun hspeed hwidth => ?_, fun hslow => ?_⟩
    · rw [State.portUp_down hdown, if_neg (by omega)]
      exact hraised
    · rw [State.portUp_down hdown, if_pos hslow]
      exact raised_last (Raised.of_raise _ _ _ _ _ _)

end Sys2Proof.Machine
end

section
/-! SUPPORT and CLAIM. The export stream (R349, R397 to R400, R403): the arm that starts or waits, the arm that is refused, the stop, an entry of
delta items and the stream that breaks, and the obligation about them. -/

-- Checked one theorem at a time: the package as one text then needs less memory.
set_option Elab.async false

namespace Sys2Proof.Machine

/-- The reliability state is the same. -/
theorem Only.rel {m : List Part} {s t : State} (h : Only m s t) (hledger : m.contains .ledger = false := by rfl)
    (hlife : m.contains .life = false := by rfl) (hexp : m.contains .exp = false := by rfl) (hrel : m.contains .rel = false := by rfl) :
    t.rel = s.rel := by
  have hledger := h.get .ledger hledger
  obtain ⟨hsteps, hhi, hwritten⟩ := h.get .life hlife
  have hexp := h.get .exp hexp
  obtain ⟨hreplays, hsuspects, hserved, hreqs⟩ := h.get .rel hrel
  calc t.rel
      = ⟨t.rel.ledger, t.rel.lifeSteps, t.rel.lifeHi, t.rel.lifeWritten, t.rel.replays, t.rel.suspects, t.rel.served, t.rel.witnessReqs,
          t.rel.exp⟩ := rfl
    _ = s.rel := by rw [hledger, hsteps, hhi, hwritten, hexp, hreplays, hsuspects, hserved, hreqs]

/-! ## Arming (R349, R397, R398) -/

/-- A descriptor that is done has left the stage that it was in. -/
theorem Queue.withStage_withDone (x : Queue) (pos : Nat) (g : DescStage) (status result : Nat) :
    (x.withStage pos g).withDone pos status result = x.withDone pos status result := by
  have hdescs : ((x.withStage pos g).withDone pos status result).descs = (x.withDone pos status result).descs := by
    unfold Queue.withDone Queue.withStage
    simp only [List.map_map]
    refine List.map_congr_left fun d _ => ?_
    by_cases hpos : d.pos = pos
    · simp only [Function.comp_apply, if_pos hpos]
    · simp only [Function.comp_apply, if_neg hpos]
  exact congrArg (fun l => { x with descs := l }) hdescs

/-- The state once an arm is taken: the stream goes to the queue that its descriptor names, and the arm waits. -/
def State.armTaken (s : State) (q : Nat) (d : Desc) : State :=
  { s.setQueue q (fun x => x.withStage d.pos .taken) with
    rel.exp.queue := dTable d.bytes, rel.exp.armWaiter := some (q, d.pos), rel.exp.stopWaiters := [] }

/-- What an arm that is taken may change. -/
theorem State.armTaken_only (s : State) (q : Nat) (d : Desc) : Only [.queues, .exp] s (s.armTaken q d) :=
  Only.of (State.setExport_only _ _) rfl ((State.setQueue_only _ _ _).mono rfl)

section
variable {s : State} {q : Nat} {d : Desc} (hready : s.readyDesc q 5 = some d) (hflag : dFlag d.bytes = false)
include hready hflag

/-- An arm that names no armed EXPORT queue fails (R349). -/
theorem State.armExport_noQueue (h : (s.queue (dTable d.bytes)).cls ≠ 3 ∨ (s.queue (dTable d.bytes)).mode ≠ .armed) :
    s.armExport q = s.failDesc q d.pos 0x6103 := by
  unfold State.armExport
  simp only [hready]
  exact (if_neg (ne_true_of_eq_false hflag)).trans (if_pos h)

variable (hcls : (s.queue (dTable d.bytes)).cls = 3) (hmode : (s.queue (dTable d.bytes)).mode = .armed)
include hcls hmode

/-- An arm while a stream is armed fails (R398). -/
theorem State.armExport_busy (h : s.streamArmed = true) : s.armExport q = s.failDesc q d.pos 0x7404 := by
  unfold State.armExport
  simp only [hready]
  exact (if_neg (ne_true_of_eq_false hflag)).trans ((if_neg (by simp [hcls, hmode])).trans (if_pos h))

/-- An arm with a log in the plan is taken: while a job runs it waits for the job's end of step, and else the stream starts (R398). -/
theorem State.armExport_taken (hoff : s.streamArmed = false) (hlog : s.exportLog.isNone = false) :
    s.armExport q = if s.jobRuns then { s.armTaken q d with rel.exp.armPending := true } else (s.armTaken q d).startStream := by
  unfold State.armExport
  simp only [hready]
  exact (if_neg (ne_true_of_eq_false hflag)).trans ((if_neg (by simp [hcls, hmode])).trans
    ((if_neg (ne_true_of_eq_false hoff)).trans (if_neg (ne_true_of_eq_false hlog))))

end

/-- The stream as its start leaves it (R397, R398). -/
def State.streamStarted (s : State) : ExportState :=
  { s.rel.exp with
    mode := .base, armPending := false, logging := true, stepValid := false, step := 0, stopAfter := none
    log := [], logUsed := 0, stepItems := [], openSteps := [], base := s.baseItems, entrySeq := 0, armWaiter := none }

/-- A stream that an arm waits for starts, and the arm is done. -/
theorem State.startStream_waiting {s : State} {q pos : Nat} (h : s.rel.exp.armWaiter = some (q, pos)) :
    s.startStream = State.finishDesc { s with rel.exp := s.streamStarted } q pos 0 0 := by
  unfold State.startStream
  simp only [h]
  rfl

/-! ## Stopping (R398) -/

section
variable {s : State} {q : Nat} {d : Desc} (hready : s.readyDesc q 5 = some d) (hflag : dFlag d.bytes = true)
include hready hflag

/-- A stop of a stream that is not armed is done at once. -/
theorem State.stopExport_off (h : s.streamArmed = false) : s.stopExport q = s.finishDesc q d.pos 0 0 := by
  unfold State.stopExport
  simp only [hready]
  exact (if_neg (by simp [hflag])).trans (if_pos (by simp [h]))

/-- The first stop of a stream during a step waits for the end of its sweep. -/
theorem State.stopExport_waits (harmed : s.streamArmed = true) (hpending : s.rel.exp.armPending = false) (hstop : s.rel.exp.stopAfter = none)
    (hahead : s.sweepAhead = true) :
    s.stopExport q = { s.setQueue q (fun x => x.withStage d.pos .taken) with
      rel.exp.stopWaiters := s.rel.exp.stopWaiters ++ [(q, d.pos)], rel.exp.stopAfter := some s.seq.step } := by
  unfold State.stopExport
  simp only [hready]
  refine (if_neg (by simp [hflag])).trans ((if_neg (by simp [harmed])).trans ((if_neg (by simp [hpending])).trans ?_))
  refine (if_neg ?_).trans (if_pos hahead)
  show ¬ s.rel.exp.stopAfter.isSome = true
  rw [hstop]
  decide

end

/-! ## Entries (R399, R400, R403) -/

/-- The items of a step in the log. -/
def State.loggedItems (s : State) (n : BitVec 48) : List ExportItem := (s.rel.exp.log.filter (fun i => i.1 == n)).map (·.2)

/-- The stream once the last entry of a step has been written, with `size` bytes of the log freed. -/
def ExportState.stepSent (e : ExportState) (n : BitVec 48) (size : Nat) : ExportState :=
  { e with
    log := e.log.filter (fun i => i.1 != n), logUsed := e.logUsed - size, openSteps := e.openSteps.drop 1
    stepItems := NMap.erase e.stepItems n.toNat, step := n, stepValid := true, entrySeq := e.entrySeq + 1 }

/-- The one entry of a step whose items fit in it: LAST with the step's count of items (R400). -/
def State.stepEntry (s : State) (n : BitVec 48) : Bytes :=
  s.exportEntry (s.loggedItems n) n.toNat 2 (NMap.getD s.rel.exp.stepItems n.toNat 0)

/-- A stream that no stop waits for goes on. -/
theorem State.settleStream_on {s : State} (h : s.rel.exp.stopAfter = none) : s.settleStream = s := by
  unfold State.settleStream
  exact if_neg (by simp [h])

/-- A step whose items fit in one entry leaves the log with it. -/
theorem State.deltaEntry_fits {s : State} {n : BitVec 48} (hirq : (s.queue s.rel.exp.queue).irqEn = false)
    (hport : s.portOpen (queuePort s.rel.exp.queue)) (hstop : s.rel.exp.stopAfter = none)
    (hfit : fitItems 4032 (s.loggedItems n) = s.loggedItems n) :
    s.deltaEntry n = { s.entryWritten s.rel.exp.queue 4096 (s.stepEntry n) with
      rel.exp := s.rel.exp.stepSent n (((s.loggedItems n).map ExportItem.size).foldl (· + ·) 0) } := by
  have hput : s.putExport (s.loggedItems n) n.toNat 2 (NMap.getD s.rel.exp.stepItems n.toNat 0)
      = { s.entryWritten s.rel.exp.queue 4096 (s.stepEntry n) with rel.exp.entrySeq := s.rel.exp.entrySeq + 1 } :=
    congrArg (fun t : State => { t with rel.exp.entrySeq := t.rel.exp.entrySeq + 1 }) (State.writeEntry_open hirq hport 4096 (s.stepEntry n))
  unfold State.loggedItems at hfit hput
  unfold State.deltaEntry
  simp only [hfit, decide_true, if_true, List.drop_length, List.map_nil, List.nil_append, b2n, Nat.mul_one, Bool.or_true]
  rw [hput]
  exact State.settleStream_on hstop

/-- What the writing of an entry may change. -/
theorem State.entryWritten_only (s : State) (q size : Nat) (e : Bytes) : Only [.out, .queues] s (s.entryWritten q size e) :=
  Only.of (State.emits_only (s.setQueue q _) [s.entryWrite q size e, s.producerWrite q]) rfl ((State.setQueue_only _ _ _).mono rfl)

/-- The drain of a stream that is on, into a ring with a free entry, goes by the oldest step whose sweep has ended (R399). -/
theorem State.drainExport_step {s : State} {n : BitVec 48} {rest : List (BitVec 48)} (hmode : s.rel.exp.mode = .base ∨ s.rel.exp.mode = .delta)
    (hdrains : s.drains = true) (harmed : (s.queue s.rel.exp.queue).mode = .armed) (hfree : (s.queue s.rel.exp.queue).free = true)
    (hopen : s.rel.exp.openSteps = n :: rest) (fails : Bool) :
    s.drainExport fails = if fails then s.breakExport else s.deltaEntry n := by
  have hready : ¬(!(s.rel.exp.mode == .base || s.rel.exp.mode == .delta) || !s.drains || (s.queue s.rel.exp.queue).mode != .armed
      || !(s.queue s.rel.exp.queue).free) = true := by
    rcases hmode with hmode | hmode <;> simp [hmode, hdrains, harmed, hfree]
  unfold State.drainExport
  refine (if_neg hready).trans ?_
  simp only [hopen]

/-- A stream that breaks discards its log, and EXPORT_BROKEN is raised (R403). -/
theorem State.breakExport_on {s : State} (hmode : s.rel.exp.mode = .base ∨ s.rel.exp.mode = .delta) :
    s.breakExport.rel.exp.mode = .broken ∧ s.breakExport.rel.exp.log = [] ∧ s.breakExport.rel.exp.logging = false
      ∧ Raised 0x7403 0 s s.breakExport := by
  have hwaiter : ∀ (t : State) (status : Half) (w : Nat × Nat), Only [.queues] t (t.finishWaiter status w) :=
    fun t status w => State.setQueue_only t w.1 _
  unfold State.breakExport
  extract_lets s1 s2
  have hwaiters : Only [.queues] s s2 := by
    have hstops : Only [.queues] s s1 := Only.foldl (fun t w => hwaiter t 0 w) _ s
    unfold s2
    split
    · exact hstops.trans (hwaiter _ _ _)
    · exact hstops
  rw [if_pos (by tauto)]
  refine ⟨?_, ?_, ?_, (Raised.of_raise _ _ _ _ _ _).from (hwaiters.get .events rfl)⟩
  all_goals rw [(State.raise_only _ _ _ _ _ _).get .exp rfl]

/-- Settles O24: an arm by whether its queue is armed, a stream is on and a job runs; a stop by whether a stream is on; and an entry by whether
the reads of the log fail. -/
theorem exportStream : Obligations.ExportStream := by
  intro s q d
  refine ⟨fun hready hflag hcls hmode hoff hlog hruns => ?waits, fun hready hflag hcls hmode hoff hlog hidle => ?starts,
    fun hready hflag hbad => ?noQueue, fun hready hflag hcls hmode hon => ?busy, fun hready hflag hoff => ?stopOff,
    fun hready hflag hon hpending hstop hahead => ?stopWaits,
    fun n rest hmode hdrains hqueue harmed hfree hirq hport hopen hstop hfit => ?entry,
    fun n rest hmode hdrains harmed hfree hopen => ?broken⟩
  case waits =>
    exact congrArg Host.Outcome.next ((State.armExport_taken hready hflag hcls hmode hoff hlog).trans (if_pos hruns))
  case starts =>
    have hstart : s.armExport q.val
        = State.finishDesc { s.armTaken q.val d with rel.exp := (s.armTaken q.val d).streamStarted } q.val d.pos 0 0 :=
      (State.armExport_taken hready hflag hcls hmode hoff hlog).trans ((if_neg (ne_true_of_eq_false hidle)).trans (State.startStream_waiting rfl))
    refine ⟨_, congrArg Host.Outcome.next hstart, ?_, rfl, rfl, rfl, rfl, rfl, rfl, ?_⟩
    · exact Only.of (State.finishDesc_only _ _ _ _ _) rfl (Only.of (State.setExport_only _ _) rfl (s.armTaken_only q.val d))
    · rw [finishDesc_queue]
      refine Eq.trans ?_ ((s.queue q.val).withStage_withDone d.pos .taken 0 0)
      exact congrArg (fun x : Queue => x.withDone d.pos 0 0) (queue_setQueue_self s q.val _)
  case noQueue =>
    exact ⟨_, congrArg Host.Outcome.next (State.armExport_noQueue hready hflag hbad), (State.failDesc_only _ _ _ _).rel,
      (failDesc_facts _ _ _ _).1⟩
  case busy =>
    exact ⟨_, congrArg Host.Outcome.next (State.armExport_busy hready hflag hcls hmode hon), (State.failDesc_only _ _ _ _).rel,
      (failDesc_facts _ _ _ _).1⟩
  case stopOff => exact congrArg Host.Outcome.next (State.stopExport_off hready hflag hoff)
  case stopWaits => exact congrArg Host.Outcome.next (State.stopExport_waits hready hflag hon hpending hstop hahead)
  case entry =>
    rw [← hqueue] at harmed hfree hirq hport ⊢
    have hentry := (State.drainExport_step hmode hdrains harmed hfree hopen false).trans (State.deltaEntry_fits hirq hport hstop hfit)
    refine ⟨_, congrArg Host.Outcome.next hentry, ?_, rfl, ?_, rfl, rfl, rfl, rfl⟩
    · exact Only.of (State.setExport_only _ _) rfl ((s.entryWritten_only _ _ _).mono rfl)
    · show s.rel.exp.openSteps.drop 1 = rest
      rw [hopen]
      rfl
  case broken =>
    obtain ⟨hmode', hlog, hlogging, hraised⟩ := State.breakExport_on hmode
    exact ⟨_, congrArg Host.Outcome.next (State.drainExport_step hmode hdrains harmed hfree hopen true), State.breakExport_only s, hmode', hlog,
      hlogging, hraised⟩

end Sys2Proof.Machine
end

section
/-! SUPPORT and CLAIM. LOCKOUT and the power sequence (R436 to R442, R447, R449, R451, R452, R459, R461): what the loss of the saddle and the
entry into LOCKOUT leave, what each command of the power sequence makes of the controller, and the obligations about them. -/

-- Checked one theorem at a time: the package as one text then needs less memory.
set_option Elab.async false

namespace Sys2Proof.Machine

/-! ## The controller's state -/

/-- The controller stays in its state. -/
theorem Only.ctl {m : List Part} {s t : State} (h : Only m s t) (hm : m.contains .pwr = false := by rfl) : t.pwr.ctl = s.pwr.ctl := by
  have hpwr : t.pwr = { s.pwr with events := t.pwr.events } := h.get .pwr hm
  rw [hpwr]

/-- A power event leaves the controller's state. -/
theorem State.powerEvent_ctl (s : State) (code qty : Nat) : (s.powerEvent code qty).pwr.ctl = s.pwr.ctl := (s.powerEvent_only code qty).ctl

/-- POWER_WAIT leaves the controller's state. -/
theorem State.powerWait_ctl (s : State) : s.powerWait.pwr.ctl = s.pwr.ctl := (congrArg PowerState.ctl s.powerWait_pwr).trans rfl

/-- A saddle in STANDBY or in LOCKOUT is not powered. -/
theorem State.powered_false {s : State} (h : s.pwr.ctl = .standby ∨ s.pwr.ctl = .lockout) : s.powered = false := by
  unfold State.powered
  rcases h with h | h <;> rw [h] <;> rfl

/-! ## POWER_WAIT (R439) -/

section
variable {s : State}

/-- POWER_WAIT is a matter of a high PWR_EN. -/
theorem State.powerWait_disabled (h : s.pwr.pwrEn = false) : s.powerWait = s := if_neg (by simp [h])

/-- POWER_WAIT is raised once. -/
theorem State.powerWait_again (h : s.pwr.waitRaised = true) : s.powerWait = s := if_neg (by simp [h])

/-- Without a failing condition there is nothing to wait for. -/
theorem State.powerWait_ready (h : (s.pwr.inserted && s.pwr.sideband && s.pwr.vinOk && s.pwr.coolOk) = true) : s.powerWait = s := by
  refine if_neg ?_
  simp only [Bool.and_eq_true] at h
  obtain ⟨⟨⟨hinserted, hsideband⟩, hvin⟩, hcool⟩ := h
  simp only [PowerState.mayPower, hinserted, hsideband, hvin, hcool]
  cases s.pwr.auxUp <;> cases s.pwr.pwrEn <;> simp

/-- In STANDBY with PWR_EN high, a failing condition raises POWER_WAIT. -/
theorem State.powerWait_waits (hctl : s.pwr.ctl = .standby) (haux : s.pwr.auxUp = true) (hen : s.pwr.pwrEn = true)
    (hfails : (s.pwr.inserted && s.pwr.sideband && s.pwr.vinOk && s.pwr.coolOk) = false) (hnew : s.pwr.waitRaised = false) :
    PowerEvent 0x9501 s s.powerWait ∧ s.powerWait.pwr.waitRaised = true := by
  have hraised := ({ s with pwr.waitRaised := true } : State).powerEvent_raised 0x9501 0
  have hmay : s.pwr.mayPower = false := by
    rw [← hfails]
    simp [PowerState.mayPower, haux, hen]
  have heq : s.powerWait = ({ s with pwr.waitRaised := true } : State).powerEvent 0x9501 := if_pos (by simp [hctl, haux, hen, hmay, hnew])
  rw [heq]
  have hpwr := ({ s with pwr.waitRaised := true } : State).powerEvent_pwr 0x9501 0
  exact ⟨hraised, by rw [hpwr]⟩

end

/-! ## The saddle's loss and the entry into LOCKOUT (R440, R441) -/

/-- What the loss of the saddle leaves (R478). -/
theorem State.saddleLost_spec (s : State) : SaddleLost s s.saddleLost where
  rails := ⟨rfl, rfl, rfl, rfl⟩
  registers := ⟨rfl, rfl, rfl, rfl⟩
  memory := rfl
  job := ⟨rfl, rfl, rfl, rfl, rfl, rfl, rfl, rfl, rfl⟩
  events := rfl
  boot := rfl
  flash := ⟨rfl, rfl, rfl, rfl⟩
  wear := ⟨rfl, rfl⟩

/-- A power event while the tack room is unpowered is held, and signalled by in-band interrupt (R458, R461). -/
theorem State.powerEvent_held {s : State} (h : s.pwr.tackRoom = false) (code qty : Nat) :
    ∃ held, s.powerEvent code qty = { s with pwr.events := held, out := s.out ++ [.inBandInterrupt] } := by
  unfold State.powerEvent
  rw [if_neg (ne_true_of_eq_false h)]
  exact ⟨_, rfl⟩

/-- A power event that is held changes nothing that the loss of the saddle leaves. -/
theorem SaddleLost.powerEvent {s t : State} (h : SaddleLost s t) (code qty : Nat) : SaddleLost s (t.powerEvent code qty) := by
  obtain ⟨-, hroom, -⟩ := h.rails
  obtain ⟨held, heq⟩ := State.powerEvent_held hroom code qty
  rw [heq]
  exact { h with }

/-- The controller in LOCKOUT. -/
def State.inLockout (s : State) : State := { s with pwr.ctl := .lockout, pwr.rearmed := false, pwr.cycleAt := none }

/-- A powered saddle loses its contents on the way into LOCKOUT. -/
theorem State.lockOut_powered {s : State} (h : s.powered = true) (code : Nat) : s.lockOut code = s.saddleLost.inLockout.powerEvent code := by
  unfold State.lockOut
  rw [if_pos h]
  rfl

/-- Without power only the controller moves. -/
theorem State.lockOut_unpowered {s : State} (h : s.powered = false) (code : Nat) : s.lockOut code = s.inLockout.powerEvent code := by
  unfold State.lockOut
  rw [if_neg (ne_true_of_eq_false h)]
  rfl

/-- The entry into LOCKOUT with its event (R441). -/
theorem State.lockOut_lockedOut (s : State) (code : Nat) : LockedOut (BitVec.ofNat 16 code) s (s.lockOut code) := by
  cases hpow : s.powered
  case true =>
    have hraised := s.saddleLost.inLockout.powerEvent_raised code 0
    have hlost : SaddleLost s s.saddleLost.inLockout := { s.saddleLost_spec with }
    rw [State.lockOut_powered hpow]
    exact { state := State.powerEvent_ctl _ _ _
            lost := fun _ => hlost.powerEvent code 0
            kept := fun h => nomatch hpow.symm.trans h
            held := fun _ => (hraised.2 rfl).1
            raised := fun h => nomatch hpow.symm.trans h }
  case false =>
    have hraised := s.inLockout.powerEvent_raised code 0
    rw [State.lockOut_unpowered hpow]
    exact { state := State.powerEvent_ctl _ _ _
            lost := fun h => nomatch hpow.symm.trans h
            kept := fun _ => Only.of (State.powerEvent_only _ _ _) rfl (Only.mono (s.controller_only rfl) rfl)
            held := fun h => (hraised.2 (h.resolve_left (ne_true_of_eq_false hpow))).1
            raised := fun _ hroom => (hraised.1 hroom).1 }

/-- The entry into LOCKOUT keeps what VIN and the temperature trip have left. -/
theorem State.lockOut_pins (s : State) (code : Nat) :
    (s.lockOut code).pwr.vinOk = s.pwr.vinOk ∧ (s.lockOut code).pwr.thermTrip = s.pwr.thermTrip := by
  cases hpow : s.powered
  · rw [State.lockOut_unpowered hpow, State.powerEvent_pwr]
    exact ⟨rfl, rfl⟩
  · rw [State.lockOut_powered hpow, State.powerEvent_pwr]
    exact ⟨rfl, rfl⟩

/-- VIN that left its band before the entry into LOCKOUT belongs to it. -/
theorem LockedOut.from_vin {code : Half} {s t : State} (h : LockedOut code { s with pwr.vinOk := false } t) : LockedOut code s t :=
  { h with
    lost := fun hpow => { h.lost hpow with }
    kept := fun hpow => Only.of (h.kept hpow) rfl (Only.mono (s.controller_only rfl) rfl) }

/-- THERM_TRIP# and the wait after a trip belong to the entry into LOCKOUT (R449). -/
theorem LockedOut.tripped {code : Half} {s t : State} (h : LockedOut code s t) :
    LockedOut code s { t with pwr.thermTrip := true, pwr.tripWait := true } :=
  { h with
    lost := fun hpow => { h.lost hpow with }
    kept := fun hpow => Only.of (t.controller_only rfl) rfl (h.kept hpow) }

/-- A module in LOCKOUT is not powered. -/
theorem LockedOut.unpowered {code : Half} {s t : State} (h : LockedOut code s t) : t.powered = false := State.powered_false (.inr h.state)

/-- Settles O50: `State.lockOut_lockedOut`, and LOCKOUT has no power. What is lost and what is held are the model's choices (log 27, log 29). -/
theorem overCurrent : Obligations.OverCurrent := fun s =>
  have hlocked := s.lockOut_lockedOut 0x9005
  ⟨s.lockOut 0x9005, rfl, hlocked, hlocked.unpowered⟩

/-! ## The way out of LOCKOUT (R441, R449) -/

section
variable {s : State}

/-- While the wait after a thermal trip runs, the way out is noted. -/
theorem State.rearm_waits (h : s.pwr.tripWait = true) : s.rearm = { s with pwr.rearmed := true } := if_pos h

/-- Without that wait LOCKOUT is left. -/
theorem State.rearm_leaves (h : s.pwr.tripWait = false) : s.rearm = s.leaveLockout := if_neg (ne_true_of_eq_false h)

/-- What a way out of LOCKOUT makes of the controller. -/
theorem State.rearm_facts (hlock : s.pwr.ctl = .lockout) :
    (s.pwr.tripWait = false → s.rearm.powerWait.pwr.ctl = .standby ∧ s.rearm.powerWait.pwr.thermTrip = false)
      ∧ (s.pwr.tripWait = true → s.rearm.powerWait.pwr.ctl = .lockout ∧ s.rearm.powerWait.pwr.rearmed = true
        ∧ s.rearm.powerWait.pwr.thermTrip = s.pwr.thermTrip)
      ∧ s.rearm.powerWait.pwr.pwrEn = s.pwr.pwrEn ∧ s.rearm.powerWait.pwr.lowSince = s.pwr.lowSince := by
  rw [State.powerWait_pwr]
  cases hwait : s.pwr.tripWait
  · rw [State.rearm_leaves hwait]
    exact ⟨fun _ => ⟨rfl, rfl⟩, nofun, rfl, rfl⟩
  · rw [State.rearm_waits hwait]
    exact ⟨nofun, fun _ => ⟨hlock, rfl, rfl⟩, rfl, rfl⟩

/-- PWR_EN has risen. -/
def State.enRisen (s : State) (now : Long) : State := { s.timed now with pwr.pwrEn := true, pwr.lowSince := none }

/-- Outside LOCKOUT a rise of PWR_EN looks at the conditions of power-on (R439). -/
theorem State.pwrEnRise_outside (h : s.pwr.ctl ≠ .lockout) (now : Long) : (s.timed now).pwrEnRise = (s.enRisen now).powerWait := if_pos h

/-- In LOCKOUT a rise of PWR_EN after 100 ms low is a way out (R441). -/
theorem State.pwrEnRise_late {now a : Long} (hlock : s.pwr.ctl = .lockout) (hlow : s.pwr.lowSince = some a)
    (hlate : a.toNat + 100000000 ≤ now.toNat) : (s.timed now).pwrEnRise = (s.enRisen now).rearm.powerWait := by
  have hlow' : (s.timed now).pwr.lowSince = some a := hlow
  refine (if_neg (not_not_intro hlock)).trans ?_
  simp only [hlow']
  exact if_pos hlate

/-- In LOCKOUT no other rise of PWR_EN is one. -/
theorem State.pwrEnRise_early {now : Long} (hlock : s.pwr.ctl = .lockout)
    (hearly : ∀ a, s.pwr.lowSince = some a → now.toNat < a.toNat + 100000000) : (s.timed now).pwrEnRise = s.enRisen now := by
  refine (if_neg (not_not_intro hlock)).trans ?_
  split
  next a hlow => exact if_neg (Nat.not_le.mpr (hearly a hlow))
  next => rfl

/-- POWER_CYCLE in LOCKOUT is a way out. -/
theorem State.powerCycle_lockout (h : s.pwr.ctl = .lockout) : s.powerCycle = s.rearm.powerWait := by simp only [State.powerCycle, h]

/-- The wait after a thermal trip is over (R441). -/
def State.tripWaited (s : State) : State := { s with pwr.tripWait := false }

/-- The end of the wait, when a way out has been noted. -/
theorem exec_tripWaitEnd_rearmed (hlock : s.pwr.ctl = .lockout) (h : s.pwr.rearmed = true) :
    exec .tripWaitEnd s = .next s.tripWaited.leaveLockout.powerWait := congrArg Host.Outcome.next (if_pos ⟨hlock, h⟩)

/-- The end of the wait, when none has been. -/
theorem exec_tripWaitEnd_alone (h : s.pwr.rearmed = false) : exec .tripWaitEnd s = .next s.tripWaited :=
  congrArg Host.Outcome.next (if_neg (by simp [h]))

end

/-- A rise of PWR_EN in LOCKOUT, by how long PWR_EN was low. -/
theorem exec_pwrEnRise_lockout {s : State} (hlock : s.pwr.ctl = .lockout) {now a : Long} (hlow : s.pwr.lowSince = some a) :
    ∃ t : State, exec (.pwrEnRise now) s = .next t ∧ Only [.out, .time, .tel, .events, .powerEvents, .pwr] s t
      ∧ t.clk.time = now ∧ t.pwr.pwrEn = true ∧ t.pwr.lowSince = none
      ∧ (a.toNat + 100000000 ≤ now.toNat → s.pwr.tripWait = false → t.pwr.ctl = .standby ∧ t.pwr.thermTrip = false)
      ∧ (a.toNat + 100000000 ≤ now.toNat → s.pwr.tripWait = true → t.pwr.ctl = .lockout ∧ t.pwr.rearmed = true
          ∧ t.pwr.thermTrip = s.pwr.thermTrip)
      ∧ (now.toNat < a.toNat + 100000000 → t.pwr.ctl = .lockout ∧ t.pwr.rearmed = s.pwr.rearmed ∧ t.pwr.thermTrip = s.pwr.thermTrip) := by
  refine ⟨_, rfl, execPwrEnRise_only rfl, ?_⟩
  by_cases hlate : a.toNat + 100000000 ≤ now.toNat
  · obtain ⟨hleaves, hwaits, hen, hlow'⟩ := State.rearm_facts (s := s.enRisen now) hlock
    have hkept : Only [.out, .tel, .events, .powerEvents, .pwr] (s.enRisen now) (s.enRisen now).rearm.powerWait :=
      Only.of (State.powerWait_only _) rfl ((State.rearm_only _).mono rfl)
    rw [State.pwrEnRise_late hlock hlow hlate]
    exact ⟨hkept.get .time, hen, hlow', fun _ => hleaves, fun _ => hwaits, fun h => absurd hlate (Nat.not_le.mpr h)⟩
  · have hearly : ∀ b, s.pwr.lowSince = some b → now.toNat < b.toNat + 100000000 := fun b hb => by
      obtain rfl : a = b := Option.some.inj (hlow.symm.trans hb)
      exact Nat.not_le.mp hlate
    rw [State.pwrEnRise_early hlock hearly]
    exact ⟨rfl, rfl, rfl, fun h => absurd h hlate, fun h => absurd h hlate, fun _ => ⟨hlock, rfl, rfl⟩⟩

/-- Settles O51: `State.lockOut_lockedOut` for what enters LOCKOUT with an event, and the ways out by whether the wait after a trip runs. What a
lost saddle clears and the held events are the model's choices (log 27, log 29), and so are the commands without effect (log 32). -/
theorem powerLockouts : Obligations.PowerLockouts := by
  intro s
  have hvin : ∀ code, LockedOut (BitVec.ofNat 16 code) s (({ s with pwr.vinOk := false } : State).lockOut code)
      ∧ (({ s with pwr.vinOk := false } : State).lockOut code).pwr.vinOk = false
      ∧ (({ s with pwr.vinOk := false } : State).lockOut code).pwr.thermTrip = s.pwr.thermTrip := fun code =>
    ⟨(State.lockOut_lockedOut _ code).from_vin, State.lockOut_pins _ code⟩
  refine ⟨⟨_, rfl, hvin 0x9003⟩, ⟨_, rfl, hvin 0x9004⟩, ⟨_, rfl, (s.lockOut_lockedOut 0x9202).tripped, rfl, rfl⟩,
    fun hpow => ⟨_, congrArg Host.Outcome.next (if_pos hpow), s.lockOut_lockedOut 0x9303⟩,
    fun hpow => congrArg Host.Outcome.next (if_neg (ne_true_of_eq_false hpow)),
    fun hctl => ⟨_, congrArg Host.Outcome.next (if_pos hctl), { s.saddleLost_spec with }, rfl, rfl, rfl⟩,
    fun hctl => congrArg Host.Outcome.next (if_neg hctl),
    fun hlock => ⟨fun now a hlow => exec_pwrEnRise_lockout hlock hlow, ?cycle, ?waited⟩⟩
  case cycle =>
    obtain ⟨hleaves, hwaits, -⟩ := State.rearm_facts hlock
    have hexec : exec .powerCycle s = .next s.rearm.powerWait := congrArg Host.Outcome.next (State.powerCycle_lockout hlock)
    exact ⟨_, hexec, execPowerCycle_only hexec, hleaves, hwaits⟩
  case waited =>
    cases hrearmed : s.pwr.rearmed
    · have hexec := exec_tripWaitEnd_alone hrearmed
      exact ⟨_, hexec, execTripWaitEnd_only hexec, rfl, nofun, fun _ => ⟨hlock, rfl⟩⟩
    · have hexec := exec_tripWaitEnd_rearmed hlock hrearmed
      have hpwr := s.tripWaited.leaveLockout.powerWait_pwr
      exact ⟨_, hexec, execTripWaitEnd_only hexec, by rw [hpwr]; rfl, fun _ => by rw [hpwr]; exact ⟨rfl, rfl⟩, nofun⟩

/-! ## The power sequence (R437 to R440, R442, R459) -/

section
variable {s : State}

/-- In STANDBY the saddle is powered when every condition holds and a POWER_CYCLE lies 1 s back (R439, R459). -/
theorem State.powering_starts (hctl : s.pwr.ctl = .standby) (hmay : s.pwr.mayPower = true)
    (hdue : ∀ a, s.pwr.cycleAt = some a → a.toNat + 1000000000 ≤ s.clk.time.toNat) :
    s.powering = { s with pwr.ctl := .powering, pwr.waitRaised := false, pwr.cycleAt := none } := by
  unfold State.powering
  refine if_pos ?_
  split
  next a ha => simp [hctl, hmay, hdue a ha]
  next => simp [hctl, hmay]

/-- Else the controller stays. -/
theorem State.powering_stays (h : s.pwr.ctl ≠ .standby ∨ s.pwr.mayPower = false
    ∨ ∃ a, s.pwr.cycleAt = some a ∧ s.clk.time.toNat < a.toNat + 1000000000) : s.powering = s := by
  unfold State.powering
  refine if_neg ?_
  rcases h with h | h | ⟨a, ha, hearly⟩
  · simp [h]
  · simp [h]
  · simp [ha, hearly]

/-- ON and POWERING end in STOPPING (R440). -/
theorem State.enterStopping_stops (h : s.pwr.ctl = .on ∨ s.pwr.ctl = .powering) :
    s.enterStopping = { s with pwr.ctl := .stopping, pwr.pwrgd := false } := if_pos h

/-- The other states do not. -/
theorem State.enterStopping_stays (hon : s.pwr.ctl ≠ .on) (hpowering : s.pwr.ctl ≠ .powering) : s.enterStopping = s :=
  if_neg (not_or.mpr ⟨hon, hpowering⟩)

/-- POWER_CYCLE in ON begins to stop, and notes when (R459). -/
theorem State.powerCycle_on (h : s.pwr.ctl = .on) :
    s.powerCycle = { s with pwr.cycleAt := some s.clk.time, pwr.ctl := .stopping, pwr.pwrgd := false } := by
  simp only [State.powerCycle, h]
  exact if_pos (.inl rfl)

end

/-- Nothing added to a count. -/
theorem satAdd_zero {n : Nat} (c : BitVec n) : satAdd c 0 = c := by
  refine BitVec.eq_of_toNat_eq ?_
  have hfits := c.isLt
  rw [satAdd_toNat]
  omega

/-- No hot hour passes no threshold. -/
theorem State.hotHours_zero (s : State) : s.hotHours 0 = s := by
  have hcount : s.hotCounted 0 = s := by
    unfold State.hotCounted
    rw [satAdd_zero]
  have hfirst : s.hotPassed s.pwr.wearHot.toNat 4000 0x9401 = s := State.hotPassed_not (by omega) _
  rw [s.hotHours_eq, hcount, hfirst]
  exact State.hotPassed_not (by omega) _

/-- The state in STANDBY once the rails are off and the powered hours are written (R440, R452). -/
def State.railsCut (s : State) (hours : Nat) : State :=
  { ({ s with pwr.wearOn := satAdd s.pwr.wearOn hours } : State).saddleLost with pwr.ctl := .standby }

/-- RAILS_OFF without hot hours in STOPPING. -/
theorem exec_railsOff {s : State} (h : s.pwr.ctl = .stopping) (hours : Nat) : exec (.railsOff hours 0) s = .next (s.railsCut hours).powerWait := by
  refine congrArg Host.Outcome.next ?_
  unfold State.railsOff
  rw [if_neg (not_not_intro h)]
  simp only [State.hotHours_zero]
  rfl

/-- Standby power has come up (R438). -/
def State.standbyUp (s : State) (inserted : Bool) : State :=
  { s with pwr := { s.pwr with inserted := inserted, auxUp := true, ctl := .standby, sideband := true } }

/-- What standby power that comes up may change. -/
theorem State.standbyUp_only (s : State) (inserted : Bool) :
    Only [.out, .tel, .events, .powerEvents, .pwr] s (s.standbyUp inserted).powerWait :=
  Only.of (State.powerWait_only _) rfl (Only.mono (m := [.pwr]) (s.controller_only rfl) rfl)

/-- PWR_EN has fallen. -/
def State.enFallen (s : State) (now : Long) : State :=
  { s.timed now with pwr.pwrEn := false, pwr.lowSince := some now, pwr.waitRaised := false }

/-- The sideband enable as it is set (R459). -/
def State.enabled (s : State) (arg : Bool) : State := { s with pwr.sideband := arg }

/-- The module is out of its tray (R442). -/
def State.extracted (s : State) : State :=
  { s with pwr.inserted := false, pwr.pwrEn := false, pwr.flow := 0, pwr.ctl := .standby, pwr.waitRaised := false }

/-- Extraction of a powered saddle loses its contents (R442). -/
theorem exec_moduleExtraction_powered {s : State} (h : s.powered = true) : exec .moduleExtraction s = .next s.saddleLost.extracted := by
  show Host.Outcome.next (State.extracted (if s.powered then s.saddleLost else s)) = _
  rw [if_pos h]

/-- Extraction of a saddle without power. -/
theorem exec_moduleExtraction_unpowered {s : State} (h : s.powered = false) : exec .moduleExtraction s = .next s.extracted := by
  show Host.Outcome.next (State.extracted (if s.powered then s.saddleLost else s)) = _
  rw [if_neg (ne_true_of_eq_false h)]

/-- Settles O52: one equation for each command of the power sequence, with `State.powerWait` by whether a condition of power-on fails. The time
of a POWER_CYCLE, the hours and what insertion and extraction leave are the model's choices (log 27). -/
theorem powerSequence : Obligations.PowerSequence := by
  intro s
  refine ⟨?aux, ?insertion, ?extraction, fun now hctl => ?rise, fun now hctl => ?powering, fun hctl => ?bulk, fun hctl hroom => ?pwrgd,
    fun now hctl => ?fall, fun hctl => ?cycle, fun hours hctl => ?rails, ?enable, ?disable⟩
  case aux =>
    have hpwr := (s.standbyUp s.pwr.inserted).powerWait_pwr
    refine ⟨(s.standbyUp s.pwr.inserted).powerWait, rfl, s.standbyUp_only _, by rw [hpwr]; rfl, by rw [hpwr]; rfl, by rw [hpwr]; rfl,
      fun hen hnew hvin => ?_, fun hen => ?_⟩
    · exact (State.powerWait_waits (s := s.standbyUp s.pwr.inserted) rfl rfl hen (by simp [State.standbyUp, hvin]) hnew).1
    · rw [State.powerWait_disabled (s := s.standbyUp s.pwr.inserted) hen]
      exact ⟨rfl, rfl, rfl⟩
  case insertion =>
    have hpwr := (s.standbyUp true).powerWait_pwr
    exact ⟨(s.standbyUp true).powerWait, rfl, s.standbyUp_only _, by rw [hpwr]; rfl, by rw [hpwr]; rfl, by rw [hpwr]; rfl, by rw [hpwr]; rfl⟩
  case extraction =>
    cases hpow : s.powered
    · exact ⟨s.extracted, exec_moduleExtraction_unpowered hpow, nofun, fun _ => s.controller_only rfl, rfl, rfl, rfl, rfl⟩
    · exact ⟨s.saddleLost.extracted, exec_moduleExtraction_powered hpow, fun _ => { s.saddleLost_spec with }, nofun, rfl, rfl, rfl, rfl⟩
  case rise =>
    have hexec : exec (.pwrEnRise now) s = .next (s.enRisen now).powerWait :=
      congrArg Host.Outcome.next (State.pwrEnRise_outside (by rw [hctl]; nofun) now)
    have hpwr := (s.enRisen now).powerWait_pwr
    refine ⟨_, hexec, execPwrEnRise_only hexec, by rw [hpwr]; rfl, by rw [hpwr]; exact hctl, fun haux hnew hfails => ?_, fun hquiet => ?_⟩
    · exact State.powerWait_waits (s := s.enRisen now) hctl haux rfl hfails hnew
    · have hsame : (s.enRisen now).powerWait = s.enRisen now := hquiet.elim (State.powerWait_ready (s := s.enRisen now))
        (State.powerWait_again (s := s.enRisen now))
      rw [hsame]
      exact ⟨rfl, rfl⟩
  case powering =>
    refine ⟨_, rfl, execPowering_only rfl, fun hmay hnone => ?_, fun a hmay hcycle => ?_, fun hmay => ?_⟩
    · rw [State.powering_starts (s := s.timed now) hctl hmay fun a ha => nomatch hnone.symm.trans ha]
      exact ⟨rfl, rfl⟩
    · by_cases hdue : a.toNat + 1000000000 ≤ now.toNat
      · rw [State.powering_starts (s := s.timed now) hctl hmay fun b hb => Option.some.inj (hcycle.symm.trans hb) ▸ hdue]
        exact iff_of_true rfl hdue
      · rw [State.powering_stays (s := s.timed now) (.inr (.inr ⟨a, hcycle, Nat.not_le.mp hdue⟩))]
        exact iff_of_false (fun h => nomatch hctl.symm.trans h) hdue
    · rw [State.powering_stays (s := s.timed now) (.inr (.inl hmay))]
      exact hctl
  case bulk => exact ⟨_, congrArg Host.Outcome.next (if_pos hctl), s.controller_only rfl, rfl, rfl, hctl⟩
  case pwrgd => exact ⟨_, congrArg Host.Outcome.next (if_pos ⟨hctl, hroom⟩), s.controller_only rfl, rfl, rfl, rfl⟩
  case fall =>
    have hexec : exec (.pwrEnFall now) s = .next { s.enFallen now with pwr.ctl := .stopping, pwr.pwrgd := false } :=
      congrArg Host.Outcome.next (State.enterStopping_stops (s := s.enFallen now) hctl)
    exact ⟨_, hexec, execPwrEnFall_only hexec, rfl, rfl, rfl, rfl, rfl⟩
  case cycle => exact ⟨_, congrArg Host.Outcome.next (State.powerCycle_on hctl), s.controller_only rfl, rfl, rfl, rfl⟩
  case rails =>
    have hkept := State.powerWait_only (s.railsCut hours)
    have hpwr := (s.railsCut hours).powerWait_pwr
    exact ⟨_, exec_railsOff hctl hours, by rw [hpwr]; rfl, by rw [hpwr]; rfl, by rw [hpwr]; rfl, hkept.get .active, hkept.mem,
      State.powerWait_seq _, by rw [hpwr]; rfl, by rw [hpwr]; rfl⟩
  case enable =>
    have hpwr := (s.enabled true).powerWait_pwr
    exact ⟨(s.enabled true).powerWait, rfl, execSetEnable_only (x0 := true) rfl, by rw [hpwr]; rfl, by rw [hpwr]; rfl, by rw [hpwr]; rfl⟩
  case disable =>
    have hpwr := (s.enabled false).enterStopping.powerWait_pwr
    refine ⟨(s.enabled false).enterStopping.powerWait, rfl, execSetEnable_only (x0 := false) rfl, ?_, fun hctl => ?_, fun hon hpowering => ?_⟩
    · rw [hpwr]
      by_cases hctl : s.pwr.ctl = .on ∨ s.pwr.ctl = .powering
      · rw [State.enterStopping_stops (s := s.enabled false) hctl]
        rfl
      · obtain ⟨hon, hpowering⟩ := not_or.mp hctl
        rw [State.enterStopping_stays (s := s.enabled false) hon hpowering]
        rfl
    · rw [hpwr, State.enterStopping_stops (s := s.enabled false) hctl]
      exact ⟨rfl, rfl⟩
    · rw [hpwr, State.enterStopping_stays (s := s.enabled false) hon hpowering]
      rfl

/-! ## Commands that leave the controller in its state -/

/-- The controller is in the same state. -/
def CtlStays (s t : State) : Prop := t.pwr.ctl = s.pwr.ctl

theorem CtlStays.refl (s : State) : CtlStays s s := rfl

theorem CtlStays.trans {s t u : State} (h : CtlStays s t) (k : CtlStays t u) : CtlStays s u := Eq.trans k h

/-- A conditional operation. -/
theorem CtlStays.ite {s a b : State} {c : Prop} [Decidable c] (h : CtlStays s a) (k : CtlStays s b) : CtlStays s (if c then a else b) := by
  split
  · exact h
  · exact k

/-- The state that a command answers with. -/
theorem CtlStays.next {s a t : State} (h : CtlStays s a) (k : (Host.Outcome.next a : Host.Outcome State Fault Refusal) = .next t) :
    CtlStays s t := by
  injection k with k
  exact k ▸ h

/-- What the controller holds once the operation is done has the state it had. -/
theorem CtlStays.of_pwr {s t : State} {p : PowerState} (h : t.pwr = p) (hp : p.ctl = s.pwr.ctl := by rfl) : CtlStays s t :=
  (congrArg PowerState.ctl h).trans hp

/-- VIN out of its band leaves the controller's state (R436). -/
theorem State.vinOut_ctl (s : State) (mv : Half) (code : Nat) : CtlStays s (s.vinOut mv code) := .of_pwr (s.vinOut_pwr mv code)

/-- Coolant out of specification leaves the controller's state (R451). -/
theorem State.coolSpec_ctl (s : State) (inlet flow : Half) (pin : Bool) : CtlStays s (s.coolSpec inlet flow pin) :=
  .of_pwr (s.coolSpec_pwr inlet flow pin)

/-- A clamp that acts leaves the controller's state (R444). -/
theorem State.clampActs_ctl (s : State) : CtlStays s s.clampActs := .of_pwr s.clampActs_pwr

/-- A step of a clamp leaves the controller's state (R444). -/
theorem State.clampStep_ctl (s : State) : CtlStays s s.clampStep := .of_pwr s.clampStep_rest.1

/-- Hot hours leave the controller's state (R452). -/
theorem State.hotHours_ctl (s : State) (n : Nat) : CtlStays s (s.hotHours n) := .of_pwr (s.hotHours_pwr n)

/-- The step clock leaves the controller's state (R445). -/
theorem State.setStepClock_ctl (s : State) : CtlStays s s.setStepClock :=
  .ite (State.raise_only _ _ _ _ _ _).ctl (.ite (State.raise_only _ _ _ _ _ _).ctl (.refl s))

/-- A tick leaves the controller's state (R42). -/
theorem State.tick_ctl (s : State) : CtlStays s s.tick := by
  unfold State.tick
  extract_lets begins s1 s2
  have h1 : CtlStays s s1 := .ite (State.applyPoint_only s false).ctl (.refl s)
  have hclock : CtlStays s1 (s1.tickPulse.countTick.setStepClock) :=
    .trans ((State.countTick_only _).ctl.trans (State.tickPulse_only s1).ctl) (State.setStepClock_ctl _)
  have h2 : CtlStays s1 s2 := hclock.trans (State.restorePromise_only _).ctl
  exact (h1.trans h2).trans (.ite (State.startJob_only s2).ctl (.ite (State.jobTick_only s2).ctl (.refl s2)))

/-- A local tick (R42). -/
theorem State.localTick_ctl (s : State) (now : Long) (p : PowerSample) : CtlStays s (s.localTick now p) :=
  .ite (.refl s) ((s.timed now).measured p).tick_ctl

/-- An edge of TICK_IN (R47). -/
theorem State.tickEdge_ctl (s : State) (now : Long) (p : PowerSample) : CtlStays s (s.tickEdge now p) :=
  .ite (.refl s) (.ite (State.raise_only _ _ _ _ _ _).ctl (State.tick_ctl _))

/-! ## Writes of the window -/

/-- A write whose two effects leave the controller's state does so too. -/
theorem State.windowWrite_ctl (s : State) (port off width v : Nat) {l u : State → State} (hl : ∀ t, CtlStays t (l t))
    (hu : ∀ t, CtlStays t (u t)) : CtlStays s (s.windowWrite port off width v l u) := by
  obtain ⟨s0, h, hcase⟩ := s.windowWrite_cases port off width v l u
  have h0 : CtlStays s s0 := h.ctl
  rcases hcase with e | e | e <;> rw [e]
  · exact h0
  · exact h0.trans ((hl s0).trans (State.log_only _ _ _ _).ctl)
  · exact h0.trans (hu s0)

/-- RECOVER (R481) loads firmware: the controller has its own. -/
theorem State.cmdRecover_ctl (s : State) (img : FwImage) : CtlStays s (s.cmdRecover img) := by
  have hfail : ∀ (t : State) (code : Nat), CtlStays s t → CtlStays s ((t.raise code unitTackRoom).endCmd code) := fun t code ht =>
    ht.trans (.trans (State.raise_only _ _ _ _ _ _).ctl (State.endCmd_only _ _).ctl)
  unfold State.cmdRecover
  refine .ite (State.refuseCmd_only s 5 0).ctl ?_
  split
  · exact (State.endCmd_only (s.beginCmd 5).readImage 0x6108).ctl
  · exact .ite (hfail _ _ (.refl s)) (.ite (hfail _ _ (.refl s)) (.ite (hfail _ _ (.refl s)) (.refl s)))

/-- The setup commands (R472): what a module reset leaves of the controller has the state it had. -/
theorem State.writeSetupCmd_ctl (s : State) (v : Nat) (img : FwImage) : CtlStays s (s.writeSetupCmd v img) := by
  unfold State.writeSetupCmd
  split
  · exact (State.cmdPlanLoad_only s).ctl
  · exact (State.cmdFwUpdate_only s).ctl
  · exact (State.cmdErase_only s).ctl
  · exact .ite (State.refuseCmd_only s 4 0).ctl (.refl s)
  · exact State.cmdRecover_ctl s img
  · exact (State.log_only s _ _ _).ctl

/-- A write of SETUP_CMD through the window. -/
theorem State.setupCommand_ctl (s : State) (port v : Nat) (img : FwImage) : CtlStays s (s.setupCommand port v img) :=
  s.windowWrite_ctl port 0x1000C 4 v (fun t => .refl t) (fun t => t.writeSetupCmd_ctl v img)

/-- A write of any register. -/
theorem State.writeReg_ctl (s : State) (r : Reg) (v : Nat) (guarded : Bool) : CtlStays s (s.writeReg r v guarded) := by
  have hbuffered : ∀ r, CtlStays s (s.writeBuffered r v) := fun r => (State.writeBuffered_only s r v).ctl
  unfold State.writeReg
  split
  · exact (State.writeTickCtrl_only s v guarded).ctl
  · exact (State.writeTickPeriod_only s v).ctl
  · exact (State.writeSeqCtrl_only s v guarded).ctl
  · exact (State.writeMemCtrl_only s v guarded).ctl
  · exact (State.writeRegulator_only s _ false v).ctl
  · exact (State.writeRegulator_only s _ true v).ctl
  · exact (State.writeUnlock_only s v).ctl
  · exact (State.writeApply_only s v).ctl
  · exact .ite (.refl s) (s.writeSetupCmd_ctl v _)
  · exact .ite (.refl s) (State.writeSecCmd_only s v _).ctl
  · exact (State.writeQCmd_only s v).ctl
  · exact (State.writeGroupCfg_only s v).ctl
  · exact (State.writeAux_only s v).ctl
  · exact (State.writeFabCtrl_only s v).ctl
  · exact .ite (.refl s) (hbuffered _)
  · exact .ite (.refl s) (hbuffered _)
  · exact .ite (.refl s) (hbuffered _)
  · exact .ite (.refl s) (hbuffered _)
  · exact hbuffered _

/-- The write of a register at an offset. -/
theorem State.writeAt_ctl (s : State) (off v : Nat) (guarded : Bool) : CtlStays s (s.writeAt off v guarded) := by
  unfold State.writeAt
  split
  · exact s.writeReg_ctl _ v guarded
  · exact .refl s

/-! ## Every command in LOCKOUT (R441) -/

/-- The commands that may take the controller from one state to another: the power sequence, its enables, and what puts the module in LOCKOUT. -/
inductive MovesController : Instr → Prop
  | auxPowerUp : MovesController .auxPowerUp
  | moduleInsertion : MovesController .moduleInsertion
  | moduleExtraction : MovesController .moduleExtraction
  | pwrEnRise {now} : MovesController (.pwrEnRise now)
  | powering {now} : MovesController (.powering now)
  | pwrgd : MovesController .pwrgd
  | railRegulationTimeout : MovesController .railRegulationTimeout
  | pwrEnFall {now} : MovesController (.pwrEnFall now)
  | railsOff {hours hot} : MovesController (.railsOff hours hot)
  | tripWaitEnd : MovesController .tripWaitEnd
  | vinUv : MovesController .vinUv
  | vinOv : MovesController .vinOv
  | pwrOcp : MovesController .pwrOcp
  | thermTrip : MovesController .thermTrip
  | coolLost : MovesController .coolLost
  | setEnable {arg} : MovesController (.setEnable arg)
  | powerCycle : MovesController .powerCycle

/-- Every other command leaves the controller in its state. -/
theorem exec_ctl {c : Instr} {s t : State} (h : exec c s = .next t) (hc : ¬MovesController c) : CtlStays s t := by
  cases c with
  | localTick now p => exact .next (s.localTick_ctl now p) h
  | decisionPoint => exact (execDecisionPoint_only h).ctl
  | decisionMessage => exact (execDecisionMessage_only h).ctl
  | timeTransfer => exact (execTimeTransfer_only h).ctl
  | tickHoldover => exact (execTickHoldover_only h).ctl
  | tickLost => exact (execTickLost_only h).ctl
  | tickInEdge now p => exact .next (s.tickEdge_ctl now p) h
  | done => exact (execDone_only h).ctl
  | excessDeclaration => exact (execExcessDeclaration_only h).ctl
  | start => exact (execStart_only h).ctl
  | stop => exact (execStop_only h).ctl
  | gatherPhaseStart => exact (execGatherPhaseStart_only h).ctl
  | denseForwardStart => exact (execDenseForwardStart_only h).ctl
  | backwardStart => exact (execBackwardStart_only h).ctl
  | gradientExchangeStart => exact (execGradientExchangeStart_only h).ctl
  | mergePhaseStart => exact (execMergePhaseStart_only h).ctl
  | phase6End => exact (execPhase6End_only h).ctl
  | updateSweepStart => exact (execUpdateSweepStart_only h).ctl
  | sweepEnd => exact (execSweepEnd_only h).ctl
  | tailSlotEnd => exact (execTailSlotEnd_only h).ctl
  | stepRecord => exact (execStepRecord_only h).ctl
  | tickPeriod => exact (execTickPeriod_only h).ctl
  | tickCtrl => exact (execTickCtrl_only h).ctl
  | stepLoRead => exact (execStepLoRead_only h).ctl
  | evtTailLoRead => exact (execEvtTailLoRead_only h).ctl
  | lifeStepsLoRead => exact (execLifeStepsLoRead_only h).ctl
  | groupPoll => exact (execGroupPoll_only h).ctl
  | descriptorFetched => exact (execDescriptorFetched_only h).ctl
  | lapReread => exact (execLapReread_only h).ctl
  | hostReadCompletion => exact (execHostReadCompletion_only h).ctl
  | hostReadTimeout => exact (execHostReadTimeout_only h).ctl
  | trainBatch => exact (execTrainBatch_only h).ctl
  | evalBatch => exact (execEvalBatch_only h).ctl
  | tableLoadDescriptor => exact (execTableLoadDescriptor_only h).ctl
  | tableLoadRecords => exact (execTableLoadRecords_only h).ctl
  | tableLoadBinary32 => exact (execTableLoadBinary32_only h).ctl
  | tableStaging => exact (execTableStaging_only h).ctl
  | stagingFillEnd => exact (execStagingFillEnd_only h).ctl
  | tableSwap => exact (execTableSwap_only h).ctl
  | tableSwapDiscard => exact (execTableSwapDiscard_only h).ctl
  | exportArm => exact (execExportArm_only h).ctl
  | exportArmStop => exact (execExportArmStop_only h).ctl
  | fence => exact (execFence_only h).ctl
  | fenceCompletion => exact (execFenceCompletion_only h).ctl
  | telemetrySnapshot => exact (execTelemetrySnapshot_only h).ctl
  | nop => exact (execNop_only h).ctl
  | completionRecord => exact (execCompletionRecord_only h).ctl
  | msixHoldoffEnd => exact (execMsixHoldoffEnd_only h).ctl
  | telemetryEntry => exact (execTelemetryEntry_only h).ctl
  | exportEntry => exact (execExportEntry_only h).ctl
  | arm => exact (execArm_only h).ctl
  | disarm => exact (execDisarm_only h).ctl
  | disarmEnd => exact (execDisarmEnd_only h).ctl
  | groupCfg => exact (execGroupCfg_only h).ctl
  | portLinkDown => exact (execPortLinkDown_only h).ctl
  | portRetrain => exact (execPortRetrain_only h).ctl
  | linkDownTimeout => exact (execLinkDownTimeout_only h).ctl
  | hostReset _ cause => exact (execHostReset_only (x1 := cause) h).ctl
  | surpriseRemoval => exact (execSurpriseRemoval_only h).ctl
  | portUp => exact (execPortUp_only h).ctl
  | unsupportedRequest => exact (execUnsupportedRequest_only h).ctl
  | separate => exact (execSeparate_only h).ctl
  | aggregate => exact (execAggregate_only h).ctl
  | gatherRows line => exact (execGatherRows_only (x0 := line) h).ctl
  | pool => exact (execPool_only h).ctl
  | rowCacheFill => exact (execRowCacheFill_only h).ctl
  | mma => exact (execMma_only h).ctl
  | join => exact (execJoin_only h).ctl
  | read => exact (execRead_only h).ctl
  | store => exact (execStore_only h).ctl
  | clear => exact (execClear_only h).ctl
  | status => exact (execStatus_only h).ctl
  | vectorOperation => exact (execVectorOperation_only h).ctl
  | rowOperation => exact (execRowOperation_only h).ctl
  | attend => exact (execAttend_only h).ctl
  | attendBack => exact (execAttendBack_only h).ctl
  | send => exact (execSend_only h).ctl
  | allToAll => exact (execAllToAll_only h).ctl
  | reduce => exact (execReduce_only h).ctl
  | allGather => exact (execAllGather_only h).ctl
  | gather => exact (execGather_only h).ctl
  | ringPass => exact (execRingPass_only h).ctl
  | firstRead => exact (execFirstRead_only h).ctl
  | add => exact (execAdd_only h).ctl
  | sub => exact (execSub_only h).ctl
  | mul => exact (execMul_only h).ctl
  | fma => exact (execFma_only h).ctl
  | fms => exact (execFms_only h).ctl
  | rcp => exact (execRcp_only h).ctl
  | rsq => exact (execRsq_only h).ctl
  | max => exact (execMax_only h).ctl
  | min => exact (execMin_only h).ctl
  | neg => exact (execNeg_only h).ctl
  | abs => exact (execAbs_only h).ctl
  | mov => exact (execMov_only h).ctl
  | ceq => exact (execCeq_only h).ctl
  | clt => exact (execClt_only h).ctl
  | cle => exact (execCle_only h).ctl
  | cun => exact (execCun_only h).ctl
  | sel => exact (execSel_only h).ctl
  | ldc => exact (execLdc_only h).ctl
  | ldf => exact (execLdf_only h).ctl
  | stf => exact (execStf_only h).ctl
  | lds => exact (execLds_only h).ctl
  | red => exact (execRed_only h).ctl
  | qprep => exact (execQprep_only h).ctl
  | wacc => exact (execWacc_only h).ctl
  | wcopy => exact (execWcopy_only h).ctl
  | sect => exact (execSect_only h).ctl
  | churnNop c => exact (execChurnNop_only (x0 := c) h).ctl
  | recordWriteVerified => exact (execRecordWriteVerified_only h).ctl
  | sweepTakeover => exact (execSweepTakeover_only h).ctl
  | appendDone => exact (execAppendDone_only h).ctl
  | digestCompare => exact (execDigestCompare_only h).ctl
  | dataFlit => exact (execDataFlit_only h).ctl
  | controlFlit => exact (execControlFlit_only h).ctl
  | timeFlit => exact (execTimeFlit_only h).ctl
  | retryReq => exact (execRetryReq_only h).ctl
  | linkRetrain => exact (execLinkRetrain_only h).ctl
  | penRetrain => exact (execPenRetrain_only h).ctl
  | stitchRetransmit => exact (execStitchRetransmit_only h).ctl
  | train => exact (execTrain_only h).ctl
  | ident => exact (execIdent_only h).ctl
  | dataPacket => exact (execDataPacket_only h).ctl
  | xon => exact (execXon_only h).ctl
  | ackPacket => exact (execAckPacket_only h).ctl
  | nak => exact (execNak_only h).ctl
  | timePacket => exact (execTimePacket_only h).ctl
  | controlPacket => exact (execControlPacket_only h).ctl
  | standaloneAck => exact (execStandaloneAck_only h).ctl
  | gapPersists => exact (execGapPersists_only h).ctl
  | retransmission => exact (execRetransmission_only h).ctl
  | ackProgressTimeout => exact (execAckProgressTimeout_only h).ctl
  | rateRecovery => exact (execRateRecovery_only h).ctl
  | pfcFrame => exact (execPfcFrame_only h).ctl
  | herdPfcStorm => exact (execHerdPfcStorm_only h).ctl
  | pauseFrame => exact (execPauseFrame_only h).ctl
  | herdPortDown => exact (execHerdPortDown_only h).ctl
  | pcsLock => exact (execPcsLock_only h).ctl
  | joinMessage => exact (execJoinMessage_only h).ctl
  | mapDigest => exact (execMapDigest_only h).ctl
  | peerAbsent => exact (execPeerAbsent_only h).ctl
  | blockRead => exact (execBlockRead_only h).ctl
  | recordWrite => exact (execRecordWrite_only h).ctl
  | stackWriteAck => exact (execStackWriteAck_only h).ctl
  | regulatedIssue => exact (execRegulatedIssue_only h).ctl
  | retrainRequest => exact (execRetrainRequest_only h).ctl
  | retrainOverdue => exact (execRetrainOverdue_only h).ctl
  | retrainDone => exact (execRetrainDone_only h).ctl
  | retrainNow => exact (execRetrainNow_only h).ctl
  | stackTempSample => exact (execStackTempSample_only h).ctl
  | regRate => exact (execRegRate_only h).ctl
  | witnessReq => exact (execWitnessReq_only h).ctl
  | witnessWork => exact (execWitnessWork_only h).ctl
  | witnessResult => exact (execWitnessResult_only h).ctl
  | resend => exact (execResend_only h).ctl
  | lifetimeCountWrite => exact (execLifetimeCountWrite_only h).ctl
  | trWatchdog => exact (execTrWatchdog_only h).ctl
  | certs => exact (execCerts_only h).ctl
  | report => exact (execReport_only h).ctl
  | reportKem => exact (execReportKem_only h).ctl
  | keyLoad => exact (execKeyLoad_only h).ctl
  | exit => exact (execExit_only h).ctl
  | bypass => exact (execBypass_only h).ctl
  | idcode => exact (execIdcode_only h).ctl
  | samplePreload => exact (execSamplePreload_only h).ctl
  | extest => exact (execExtest_only h).ctl
  | debug => exact (execDebug_only h).ctl
  | auxPowerUp => exact absurd .auxPowerUp hc
  | moduleInsertion => exact absurd .moduleInsertion hc
  | moduleExtraction => exact absurd .moduleExtraction hc
  | pwrEnRise => exact absurd .pwrEnRise hc
  | powering => exact absurd .powering hc
  | bulkCharged => exact .next (.ite (a := { s with pwr.bulk := true, pwr.tackRoom := true }) (.refl s) (.refl s)) h
  | pwrgd => exact absurd .pwrgd hc
  | railRegulationTimeout => exact absurd .railRegulationTimeout hc
  | pwrEnFall => exact absurd .pwrEnFall hc
  | railsOff => exact absurd .railsOff hc
  | tripWaitEnd => exact absurd .tripWaitEnd hc
  | vinUv => exact absurd .vinUv hc
  | vinOv => exact absurd .vinOv hc
  | vinLow mv => exact .next (s.vinOut_ctl mv 0x9001) h
  | vinHigh mv => exact .next (s.vinOut_ctl mv 0x9002) h
  | vinRated mv => exact .next (a := { s with pwr.vin := mv, pwr.vinOk := true }) (.refl s) h
  | pwrOcp => exact absurd .pwrOcp hc
  | clampStep junction => exact .next s.clampStep_ctl h
  | budgetClamp => exact .next (a := s.peakSpent.clampActs) s.peakSpent.clampActs_ctl h
  | specVoid => exact (execSpecVoid_only h).ctl
  | junctionSensorRead temp sensor =>
    exact .next (a := { s with
      pwr.tj := temp, pwr.tjSensor := sensor, pwr.tjMax := hotter s.pwr.tjMax temp, seq.stats.tjMax := hotter s.seq.stats.tjMax temp }) (.refl s) h
  | thermTrip => exact absurd .thermTrip hc
  | coolSpec inlet flow pin => exact .next (s.coolSpec_ctl inlet flow pin) h
  | coolOk inlet flow =>
    exact .next (a := if s.pwr.coolOk then s.coolSeen inlet flow false true else (s.coolSeen inlet flow false true).powerEvent 0x9302)
      (.ite (.refl s) (State.powerEvent_ctl _ _ _)) h
  | coolLost => exact absurd .coolLost hc
  | wearHour hot =>
    exact .next (a := if hot then s.hotHours 1 else { s with pwr.wearOn := satAdd s.pwr.wearOn 1 }) (.ite (s.hotHours_ctl 1) (.refl s)) h
  | auxCfg => exact (execAuxCfg_only h).ctl
  | getStatus => exact (execGetStatus_only h).ctl
  | setEnable => exact absurd .setEnable hc
  | powerCycle => exact absurd .powerCycle hc
  | getEvents => exact (execGetEvents_only h).ctl
  | mctpControlMessage => exact (execMctpControlMessage_only h).ctl
  | setdasa addr => exact .next (a := { s with pwr.dynAddr := some addr }) (.refl s) h
  | entdaa addr => exact .next (a := { s with pwr.dynAddr := some addr }) (.refl s) h
  | setupUnlock => exact (execSetupUnlock_only h).ctl
  | apply => exact (execApply_only h).ctl
  | discard => exact (execDiscard_only h).ctl
  | planLoad port v => exact .next (s.setupCommand_ctl port.val v.toNat _) h
  | planImageRead => exact (execPlanImageRead_only h).ctl
  | fwUpdate port v => exact .next (s.setupCommand_ctl port.val v.toNat _) h
  | flashWriteEnd => exact (execFlashWriteEnd_only h).ctl
  | erase port v => exact .next (s.setupCommand_ctl port.val v.toNat _) h
  | eraseEnd => exact (execEraseEnd_only h).ctl
  | moduleReset port v => exact .next (s.setupCommand_ctl port.val v.toNat _) h
  | recover port v img => exact .next (s.setupCommand_ctl port.val v.toNat img) h
  | boot => exact (execBoot_only h).ctl
  | dieStarted => exact (execDieStarted_only h).ctl
  | dieStartTimeout => exact (execDieStartTimeout_only h).ctl
  | registerWrite port off width v =>
    exact .next (s.windowWrite_ctl port.val off width v.toNat (fun t => t.writeAt_ctl off v.toNat true)
      (fun t => t.writeAt_ctl off v.toNat false)) h
  | doorbellReadCompletion => exact (execDoorbellReadCompletion_only h).ctl
  | idleFlit => exact (execIdleFlit_only h).ctl
  | penTrainingEnd => exact (execPenTrainingEnd_only h).ctl
  | receivedFrameDiscarded => exact (execReceivedFrameDiscarded_only h).ctl
  | pfcPauseExpiry => exact (execPfcPauseExpiry_only h).ctl
  | fwImageRead => exact (execFwImageRead_only h).ctl

/-- What ends LOCKOUT, or takes the module's standby power away. -/
def EndsLockout (c : Instr) (s : State) : Prop :=
  c = .powerCycle ∨ c = .tripWaitEnd ∨ c = .auxPowerUp ∨ c = .moduleInsertion ∨ c = .moduleExtraction
    ∨ ∃ now a : Long, c = .pwrEnRise now ∧ s.pwr.lowSince = some a ∧ a.toNat + 100000000 ≤ now.toNat

/-- A command that moves the controller leaves LOCKOUT, or ends it. -/
theorem MovesController.inLockout {c : Instr} {s t : State} (hc : MovesController c) (hlock : s.pwr.ctl = .lockout) (h : exec c s = .next t) :
    t.pwr.ctl = .lockout ∨ EndsLockout c s := by
  have hoff : s.powered = false := State.powered_false (.inr hlock)
  have hon : s.pwr.ctl ≠ .on := fun e => nomatch hlock.symm.trans e
  have hpowering : s.pwr.ctl ≠ .powering := fun e => nomatch hlock.symm.trans e
  have stays : ∀ {a : State}, a.pwr.ctl = .lockout → exec c s = .next a → t.pwr.ctl = .lockout ∨ EndsLockout c s := fun ha hexec =>
    .inl (Host.Outcome.next.inj (hexec.symm.trans h) ▸ ha)
  cases hc with
  | powerCycle => exact .inr (.inl rfl)
  | tripWaitEnd => exact .inr (.inr (.inl rfl))
  | auxPowerUp => exact .inr (.inr (.inr (.inl rfl)))
  | moduleInsertion => exact .inr (.inr (.inr (.inr (.inl rfl))))
  | moduleExtraction => exact .inr (.inr (.inr (.inr (.inr (.inl rfl)))))
  | @pwrEnRise now =>
    by_cases hlate : ∃ a : Long, s.pwr.lowSince = some a ∧ a.toNat + 100000000 ≤ now.toNat
    · obtain ⟨a, hlow, hlate⟩ := hlate
      exact .inr (.inr (.inr (.inr (.inr (.inr ⟨now, a, rfl, hlow, hlate⟩)))))
    · refine stays (a := s.enRisen now) hlock (congrArg Host.Outcome.next (State.pwrEnRise_early hlock fun a hlow => ?_))
      exact Nat.not_le.mp fun hle => hlate ⟨a, hlow, hle⟩
  | @powering now =>
    exact stays (a := s.timed now) hlock (congrArg Host.Outcome.next (State.powering_stays (.inl fun e => nomatch hlock.symm.trans e)))
  | pwrgd => exact stays hlock (congrArg Host.Outcome.next (if_neg fun e => hpowering e.1))
  | railRegulationTimeout => exact stays hlock (congrArg Host.Outcome.next (if_neg hpowering))
  | @pwrEnFall now =>
    exact stays (a := s.enFallen now) hlock (congrArg Host.Outcome.next (State.enterStopping_stays (s := s.enFallen now) hon hpowering))
  | @railsOff hours hot =>
    exact stays hlock (congrArg Host.Outcome.next (if_pos fun e => nomatch hlock.symm.trans e))
  | vinUv => exact stays (State.lockOut_lockedOut _ 0x9003).state rfl
  | vinOv => exact stays (State.lockOut_lockedOut _ 0x9004).state rfl
  | pwrOcp => exact stays (s.lockOut_lockedOut 0x9005).state rfl
  | thermTrip => exact stays (s.lockOut_lockedOut 0x9202).tripped.state rfl
  | coolLost => exact stays hlock (congrArg Host.Outcome.next (if_neg (ne_true_of_eq_false hoff)))
  | @setEnable arg =>
    have hstays := State.enterStopping_stays (s := s.enabled arg) hon hpowering
    cases arg
    · refine stays (a := (s.enabled false).powerWait) ((State.powerWait_ctl _).trans hlock) ?_
      rw [← hstays]
      rfl
    · exact stays (a := (s.enabled true).powerWait) ((State.powerWait_ctl _).trans hlock) rfl

/-- Settles O54: a command that moves the controller by `MovesController.inLockout`, and any other by `exec_ctl`. -/
theorem lockoutHolds : Obligations.LockoutHolds := by
  intro c s t hlock h
  by_cases hc : MovesController c
  · exact hc.inLockout hlock h
  · exact .inl (Eq.trans (exec_ctl h hc) hlock)

end Sys2Proof.Machine
end

section
/-! SUPPORT and CLAIM. The tack room's commands, the secure erase, the JTAG instructions and the sideband (R414, R420 to R426, R429, R430, R432,
R458, R459, R461, R473): how SEC_CMD reaches its command, when it is refused, what each command leaves, and the obligations about them. -/

-- Checked one theorem at a time: the package as one text then needs less memory.
set_option Elab.async false

namespace Sys2Proof.Machine

/-! ## SEC_CMD through the window (R432, R471) -/

/-- A change of the security state that keeps the JTAG instruction. -/
theorem State.security_only (s : State) {x : SecState} (h : x.jtag = s.sec.jtag) : Only [.sec] s { s with sec := x } := by
  refine Only.lit (Only.refl s) fun p => ?_
  cases p
  case sec => exact .inl (by decide)
  case jtag => exact .inr h
  all_goals exact .inr (by simp [Part.same])

/-- A write of SEC_CMD in READY, past the disarmed guard: confidential mode does not refuse it. -/
theorem State.secCommand_ready {s : State} (hready : s.boot.stage = .ready) (hop : s.setup.op = 0) (hguard : s.setup.armed = false)
    (v : Nat) (r : ReadResult) : s.secCommand 0 v r = s.guardArmed.writeSecCmd v r := by
  have hserves : ¬ (!s.serves || decide (0x100000 ≤ 0xD0004)) = true := by simp [State.serves, hready]
  have hreg : regAt 0xD0004 = some .secCmd := by decide
  have hopen : s.guardArmed.confRefused .secCmd = false := by simp [State.confRefused]
  have hfree : s.guardArmed.commandRuns .secCmd v = false := by simp [State.commandRuns]
  have hwrite : s.guardArmed.guardedWrite s.setup.armed 0xD0004 v .secCmd (fun t => t) (fun t => t.writeSecCmd v r)
      = s.guardArmed.writeSecCmd v r := by
    unfold State.guardedWrite
    exact (if_neg (ne_true_of_eq_false hopen)).trans ((if_neg (not_not_intro hop)).trans ((if_neg (ne_true_of_eq_false hfree)).trans
      (if_neg (by simp [hguard]))))
  unfold State.secCommand State.windowWrite
  rw [if_neg hserves]
  simp only [hreg]
  rw [if_neg (by decide), if_neg (by decide), if_neg (by simp [hready]), if_pos (by decide)]
  exact hwrite

/-- A write of SEC_CMD runs the command that its value names (R420). -/
theorem State.writeSecCmd_cases (s : State) {v : Nat} (r : ReadResult) :
    (v % 8 = 1 → s.writeSecCmd v r = s.secRun 7592 false true State.certs)
      ∧ (v % 8 = 2 → s.writeSecCmd v r = s.secRun 3892 true true (fun t => t.report (bit 3 v)))
      ∧ (v % 8 = 3 → s.writeSecCmd v r = s.secRun 2480 true (s.idle && s.sec.mode == 1) (fun t => t.keyLoad r))
      ∧ (v % 8 = 4 → s.writeSecCmd v r = s.secRun 0 false (s.idle && s.sec.mode != 0) State.exitConfidential) := by
  unfold State.writeSecCmd
  refine ⟨fun h => ?_, fun h => ?_, fun h => ?_, fun h => ?_⟩
  all_goals simp only [h]

/-! ## Refusals (R420, R464) -/

/-- SEC_ADDR and SEC_LEN name a buffer for a command, and no other command runs. -/
def State.secFree (s : State) (need : Nat) : Prop :=
  s.win.secAddr.toNat % 64 = 0 ∧ need ≤ s.win.secLen.toNat ∧ s.sec.running = false

/-- The command has begun: SEC_RESULT shows it as running (R432). -/
def State.secBegun (s : State) : State := { s.guardArmed with sec.resultDone := false }

/-- What the begin of a command changes. -/
theorem State.secBegun_only (s : State) : Only [.setup, .sec] s s.secBegun :=
  Only.of (s.guardArmed.security_only rfl) rfl (s.guardArmed_only.mono rfl)

section
variable {s : State} {need : Nat} {needsId allowed : Bool} {f : State → State}

/-- SEC_ADDR that is no multiple of 64 bytes refuses every command. -/
theorem State.secRun_range (h : s.win.secAddr.toNat % 64 ≠ 0) : s.secRun need needsId allowed f = s.refuseSec 0x8004 := by
  unfold State.secRun State.secFail
  rw [if_pos (.inl h)]

/-- A command whose checks of the buffer hold goes on with the identity and its own condition. -/
theorem State.secFail_free (h : s.secFree need) : s.secFail need needsId allowed
    = if needsId && !s.sec.idOk then some 0x8001 else if !allowed then some 0x8102 else none := by
  obtain ⟨haddr, hlen, hrun⟩ := h
  unfold State.secFail
  rw [if_neg (by omega), if_neg (ne_true_of_eq_false hrun)]

/-- Without an identity a command that needs one is refused with ID_FAIL. -/
theorem State.secRun_noId (h : s.secFree need) (hid : s.sec.idOk = false) : s.secRun need true allowed f = s.refuseSec 0x8001 := by
  unfold State.secRun
  rw [State.secFail_free h]
  simp [hid]

/-- A command whose condition fails is refused with KEY_STATE. -/
theorem State.secRun_state (h : s.secFree need) (hid : needsId = true → s.sec.idOk = true) :
    s.secRun need needsId false f = s.refuseSec 0x8102 := by
  unfold State.secRun
  rw [State.secFail_free h]
  cases needsId <;> simp_all

/-- Any other command is carried out. -/
theorem State.secRun_runs (h : s.secFree need) (hid : needsId = true → s.sec.idOk = true) :
    s.secRun need needsId true f = f { s with sec.resultDone := false } := by
  unfold State.secRun
  rw [State.secFail_free h]
  cases needsId <;> simp_all

end

/-- The code in SEC_RESULT and the entry of the access log that a refusal leaves. -/
theorem State.refuseSec_facts (s : State) (code : Nat) :
    (s.refuseSec code).sec = { s.sec with resultCode := BitVec.ofNat 16 code, resultDone := true, running := false }
      ∧ Logged 0xD0004 0 (if code = 0x8004 then .range else .state) (s.refuseSec code) := by
  unfold State.refuseSec
  extract_lets s1
  split
  · exact ⟨rfl, rfl, rfl, rfl⟩
  · have hraise := State.raise_only s1 code unitTackRoom 0 0 false
    have hsetup : (s1.raise code unitTackRoom).setup = s1.setup := hraise.get .setup
    exact ⟨hraise.sec, by rw [Logged, hsetup]; exact ⟨rfl, rfl, rfl⟩⟩

/-- A refusal raises its code, but for ID_FAIL. -/
theorem State.refuseSec_raised (s : State) {code : Nat} (h : code ≠ 0x8001) :
    Raised (BitVec.ofNat 16 code) unitTackRoom s (s.refuseSec code) := by
  unfold State.refuseSec
  rw [if_neg h]
  exact (Raised.of_raise _ code unitTackRoom 0 0 false).from rfl

/-- A refusal with ID_FAIL raises nothing. -/
theorem State.refuseSec_noId_only (s : State) : Only [.setup, .sec] s (s.refuseSec 0x8001) := by
  unfold State.refuseSec
  rw [if_pos rfl]
  exact Only.of (State.endSec_only _ _) rfl ((State.log_only _ _ _ _).mono rfl)

/-- A command that ends when none ran. -/
theorem SecState.ended_idle {x : SecState} (h : x.running = false) (code : Half) :
    { x with resultCode := code, resultDone := true, running := false } = { x with resultCode := code, resultDone := true } := by
  rw [← h]

/-! ## CERTS and REPORT (R414, R421 to R423) -/

/-- Through an open port P0 bytes go to SEC_ADDR. -/
theorem State.secWrite_open {s : State} (h : s.portOpen 0) (b : Bytes) : s.secWrite b = s.emit (.hostWrite 0 s.win.secAddr.toNat b) := toHost_open h

/-- The report has its number. -/
def State.reportCounted (s : State) : State := { s with sec.reportSeq := s.sec.reportSeq + 1 }

/-- A signed report (R421). -/
def State.signedReport (s : State) (kem : Bool) : Bytes := s.reportBody kem ++ padTo 2420 (s.attest (s.reportBody kem))

/-- A field before the bytes that are looked at. -/
theorem slice_leBytes_skip {k o : Nat} (h : k ≤ o) (v : Nat) (b : Bytes) (n : Nat) : slice (leBytes k v ++ b) o n = slice b (o - k) n := by
  rw [slice_append_right _ _ _ _ (by rw [leBytes_length]; exact h), leBytes_length]

/-- The field that is looked at. -/
theorem slice_leBytes_append (k v : Nat) (b : Bytes) : slice (leBytes k v ++ b) 0 k = leBytes k v := by
  rw [slice_append_left _ _ _ _ (by rw [leBytes_length, Nat.zero_add]), slice_all _ _ (leBytes_length k v)]

/-- Bytes 24 to 31 of a report are its number (R421). -/
theorem State.signedReport_seq (s : State) (kem : Bool) : slice (s.signedReport kem) 24 8 = leBytes 8 s.sec.reportSeq.toNat := by
  unfold State.signedReport State.reportBody
  simp (disch := decide) only [List.append_assoc, slice_leBytes_skip]
  exact slice_leBytes_append 8 _ _

/-- REPORT without a KEM key (R421). -/
theorem State.report_plain {s : State} (h : s.portOpen 0) :
    s.report false = (s.reportCounted.emit (.hostWrite 0 s.win.secAddr.toNat (s.reportCounted.signedReport false))).endSec 0 :=
  congrArg (fun t => t.endSec 0) (State.secWrite_open (s := s.reportCounted) h _)

/-- The report that binds the next session is kept (R423). -/
def State.reportKept (s : State) : State := { s with sec.lastReport := s.signedReport true }

/-- REPORT with a KEM key makes the key first (R422). -/
theorem State.report_true (s : State) :
    s.report true = (s.newKem.reportCounted.reportKept.secWrite (s.newKem.reportCounted.signedReport true)).endSec 0 := by
  unfold State.report State.reportKept State.signedReport State.reportCounted
  simp only [↓reduceIte]

/-- What a report with a KEM key changes before it leaves. -/
theorem State.reportKept_only (s : State) : Only [.sec] s s.newKem.reportCounted.reportKept := by
  have hcounted : Only [.sec] s s.newKem.reportCounted := (State.newKem_only s).trans (s.newKem.security_only rfl)
  generalize s.newKem.reportCounted = u at hcounted ⊢
  exact hcounted.trans (u.security_only rfl)

/-- Through an open port the report leaves. -/
theorem State.report_kem {s : State} (h : s.portOpen 0) :
    s.report true = (s.newKem.reportCounted.reportKept.emit
      (.hostWrite 0 s.win.secAddr.toNat (s.newKem.reportCounted.signedReport true))).endSec 0 := by
  have hkept := s.reportKept_only
  have hwin : s.newKem.reportCounted.reportKept.win = s.win := hkept.get .win
  rw [s.report_true, State.secWrite_open (portOpen_of h (hkept.port 0)), hwin]

/-! ## KEY_LOAD (R422 to R425) -/

/-- The blob is read through P0. -/
def State.blobRead (s : State) : State := s.emit (.hostRead 0 s.win.secAddr.toNat 2480)

/-- A failed KEY_LOAD in MODE 1 (R422). -/
theorem State.keyFailed_sec {s : State} (h : s.sec.mode = 1) : s.keyFailed.sec = { s.sec with kem := none, mode := 0 } := by
  unfold State.keyFailed
  rw [if_pos h]

/-- A KEY_LOAD of a blob that does not open. -/
theorem State.keyLoad_bad {s : State} {b : Bytes} (h : s.openBlob b = none) :
    s.keyLoad (.ok b) = (s.blobRead.keyFailed.raise 0x8101 unitTackRoom).endSec 0x8101 := by
  unfold State.keyLoad
  extract_lets s1
  have hopen : s1.openBlob b = none := h
  simp only [hopen]
  rfl

/-- A KEY_LOAD of a blob that opens. -/
theorem State.keyLoad_good {s : State} {b : Bytes} {k : KeyBlob} (h : s.openBlob b = some k) :
    s.keyLoad (.ok b) = (s.blobRead.enterConfidential k).endSec 0 := by
  unfold State.keyLoad
  extract_lets s1
  have hopen : s1.openBlob b = some k := h
  simp only [hopen]
  rfl

/-- Discarding the plan leaves the memory, and of the security state all but the plan's measurement (R418). -/
theorem State.dropPlan_rest (s : State) : s.dropPlan.mem = s.mem ∧ s.dropPlan.sec = { s.sec with plan := 0 } ∧ s.dropPlan.acc = s.acc := by
  have hbreak := State.breakExport_only ({ s with plan := none, sec.plan := 0 } : State)
  exact ⟨hbreak.mem, hbreak.sec, hbreak.get .acc⟩

/-- Discarding every version leaves none (R489). -/
theorem State.discardTables_facts (s : State) : s.discardTables.emb.tables = [] ∧ s.discardTables.mem = { s.mem with rowCache := [] } := by
  have hswaps : Only [.queues, .tel, .events] s (s.emb.swaps.foldl (fun (st : State) w => st.failSwaps w.waiters) s) :=
    Only.foldl (fun st w => State.failSwaps_only st w.waiters) s.emb.swaps s
  unfold State.discardTables
  extract_lets s1
  have hmem : s1.dropStaging.mem = s.mem := (State.dropStaging_only s1).mem.trans hswaps.mem
  obtain ⟨htables, -⟩ := (State.raise_only _ 0x300A 0 0 0 false).get .tables rfl
  refine ⟨htables, (State.raise_only _ 0x300A 0 0 0 false).mem.trans ?_⟩
  show ({ s1.dropStaging.mem with rowCache := [] } : MemState) = _
  rw [hmem]

/-- The end of the staging of a version ends no other long setup operation than its own. -/
theorem State.dropStaging_setup {s : State} (h : s.setup.op ≠ 3) : s.dropStaging.setup = s.setup := by
  unfold State.dropStaging
  extract_lets s1
  have hstop : Only [.queues, .tel, .events] s s1 :=
    (Only.foldl (fun u e => Only.foldl (fun u d => Only.ite (fun _ => State.stopDesc_only u e.1 d.pos 0x300A 0) fun _ => Only.refl u) _ u) _ s)
  have hsame : s1.setup = s.setup := hstop.get .setup
  split
  · unfold State.endOp
    rw [hsame, if_neg (show ¬ s.setup.op = BitVec.ofNat 3 3 from h)]
    exact hsame
  · exact hsame

/-- Discarding every version leaves the setup block while no staging runs. -/
theorem State.discardTables_setup {s : State} (h : s.setup.op ≠ 3) : s.discardTables.setup = s.setup := by
  unfold State.discardTables
  extract_lets s1
  have hfailed : Only [.queues, .tel, .events] s s1 := Only.foldl (fun st w => State.failSwaps_only st w.waiters) s.emb.swaps s
  have hswaps : s1.setup = s.setup := hfailed.get .setup
  exact ((State.raise_only _ 0x300A 0 0 0 false).get .setup rfl).trans ((State.dropStaging_setup (by rw [hswaps]; exact h)).trans hswaps)

/-- The keys of a session are in force (R424). -/
def State.sessionKeyed (s : State) (k : KeyBlob) : State :=
  { s with
    mem.keyGen := s.mem.keyGen + 1
    sec := { s.sec with
      kem := none, jobTag := k.jobTag, jobSecret := k.secret, tenantPub := k.tenant, tenantKey := Config.sha3 k.tenant
      keyMid := s.active.moduleId, frozen := s.counters } }

/-- The debug port is closed in confidential mode (R425, R430). -/
def State.debugShut (s : State) : State :=
  { s with
    active.debugEn := false, pend.debugEn := false
    sec.mode := 2, sec.jtag := if s.sec.jtag = .debug then .bypass else s.sec.jtag }

/-- Confidential mode: the keys, then no plan and no tables, then the debug port. -/
theorem State.enterConfidential_eq (s : State) (k : KeyBlob) :
    s.enterConfidential k = (s.sessionKeyed k).dropPlan.discardTables.debugShut.raise 0x8103 unitTackRoom := by
  unfold State.enterConfidential State.sessionKeyed
  dsimp only
  generalize State.discardTables _ = u
  rfl

/-- The security state in confidential mode (R424, R425). -/
theorem State.enterConfidential_sec (s : State) (k : KeyBlob) : (s.enterConfidential k).sec = { (s.sessionKeyed k).sec with
    plan := 0, mode := 2, jtag := if s.sec.jtag = .debug then .bypass else s.sec.jtag } := by
  obtain ⟨-, hsec, -⟩ := (s.sessionKeyed k).dropPlan_rest
  have hdiscard : (s.sessionKeyed k).dropPlan.discardTables.sec = { (s.sessionKeyed k).sec with plan := 0 } :=
    (State.discardTables_only _).sec.trans hsec
  rw [s.enterConfidential_eq k, (State.raise_only _ 0x8103 unitTackRoom 0 0 false).sec]
  unfold State.debugShut
  rw [hdiscard]
  rfl

/-- What else confidential mode leaves (R425). -/
theorem State.enterConfidential_rest (s : State) (k : KeyBlob) :
    (s.enterConfidential k).plan = none ∧ (s.enterConfidential k).emb.tables = [] ∧ (s.enterConfidential k).mem.keyGen = s.mem.keyGen + 1
      ∧ (s.enterConfidential k).active.debugEn = false ∧ (s.enterConfidential k).pend.debugEn = false
      ∧ (s.enterConfidential k).lastEvent = some 0x8103 := by
  obtain ⟨hmem, -⟩ := (s.sessionKeyed k).dropPlan_rest
  obtain ⟨-, -, hplan⟩ := (s.sessionKeyed k).dropPlan_facts
  obtain ⟨htables, hcleared⟩ := (s.sessionKeyed k).dropPlan.discardTables_facts
  have hdiscard : (s.sessionKeyed k).dropPlan.discardTables.plan = none := ((State.discardTables_only _).get .plan).trans hplan
  have hkeyGen : (s.sessionKeyed k).dropPlan.discardTables.mem.keyGen = s.mem.keyGen + 1 := by
    rw [hcleared, hmem]
    rfl
  rw [s.enterConfidential_eq k]
  generalize (s.sessionKeyed k).dropPlan.discardTables = u at htables hdiscard hkeyGen
  have hraise := State.raise_only u.debugShut 0x8103 unitTackRoom 0 0 false
  refine ⟨(hraise.get .plan).trans hdiscard, ?_, ?_, ?_, ?_, raised_last (Raised.of_raise _ 0x8103 unitTackRoom 0 0 false)⟩
  · rw [hraise.emb]
    exact htables
  · rw [hraise.mem]
    exact hkeyGen
  · rw [raise_active]
    rfl
  · rw [raise_pend]
    rfl

/-! ## EXIT (R426) and the secure erase (R473) -/

/-- EXIT in MODE 2 begins the secure erase. -/
theorem State.exitConfidential_erases {s : State} (h : s.sec.mode = 2) : s.exitConfidential = { s.startOp 2 with sec.running := true } :=
  if_pos (by simp [State.confidential, h])

/-- EXIT in MODE 1 discards the KEM key pair. -/
theorem State.exitConfidential_ends {s : State} (h : s.sec.mode ≠ 2) :
    s.exitConfidential = (({ s with sec.kem := none, sec.mode := 0 } : State).raise 0x8104 unitTackRoom).endSec 0 :=
  if_neg (by simpa [State.confidential] using h)

/-- Memory, tile stores and accumulators are erased under fresh keys (R473). -/
def State.memoryErased (s : State) : State :=
  { s with
    acc := []
    mem := { s.mem with
      keyGen := s.mem.keyGen + 1, zeroed := some (s.mem.keyGen + 1, s.mem.epoch), hbm := [], units := [], waiting := []
      stackRecs := s.mem.stackRecs.map (fun e => (e.1, { e.2 with buffer := [] })), tiles := [], tileTags := [], rowCache := [] } }

/-- What the secure erase leaves (R473). -/
theorem State.secureErase_facts (s : State) :
    s.secureErase.mem = s.memoryErased.mem ∧ s.secureErase.acc = [] ∧ s.secureErase.plan = none ∧ s.secureErase.emb.tables = []
      ∧ s.secureErase.sec = { s.sec with plan := 0 } ∧ (s.setup.op ≠ 3 → s.secureErase.setup = s.setup) := by
  obtain ⟨hmem, hsec, hacc⟩ := s.memoryErased.dropPlan_rest
  obtain ⟨hsetup, -, hplan⟩ := s.memoryErased.dropPlan_facts
  obtain ⟨htables, hcleared⟩ := s.memoryErased.dropPlan.discardTables_facts
  have hdiscard := State.discardTables_only s.memoryErased.dropPlan
  refine ⟨?_, (hdiscard.get .acc).trans hacc, (hdiscard.get .plan).trans hplan, htables, hdiscard.sec.trans hsec, fun hop => ?_⟩
  · refine hcleared.trans ?_
    rw [hmem]
    rfl
  · have hkept : s.memoryErased.dropPlan.setup.op ≠ 3 := by
      rw [hsetup]
      exact hop
    exact (State.discardTables_setup hkept).trans hsetup

/-- The write buffers of erased memory are empty. -/
theorem State.memoryErased_buffer {s t : State} (h : t.mem = s.memoryErased.mem) (k : Nat) : (t.stack k).buffer = [] := by
  rw [stack_congr h]
  exact congrArg Stack.buffer (NMap.getD_map s.mem.stackRecs (fun x => { x with buffer := [] }) k {} rfl)

/-- A long setup operation that ends. -/
theorem State.endOp_ends {s : State} {op : Nat} (h : s.setup.op = BitVec.ofNat 3 op) : s.endOp op = { s with setup.op := 0 } := if_pos h

/-- The session of EXIT is cleared, under fresh per-boot keys (R426). -/
def State.sessionCleared (s : State) : State :=
  { s with
    mem.keyGen := s.mem.keyGen + 1
    sec := { s.sec with
      mode := 0, kem := none, jobTag := 0, jobSecret := 0, tenantPub := [], tenantKey := 0, keyMid := 0, frozen := {} } }

/-- The end of EXIT after the secure erase, but for the long setup operation. -/
def State.sessionEnded (s : State) : State := (s.sessionCleared.clearCounters.raise 0x8104 unitTackRoom).endSec 0

/-- What the end of EXIT leaves of what the secure erase has left (R426, R429). -/
theorem State.sessionEnded_facts (s : State) :
    s.sessionEnded.setup = s.setup ∧ s.sessionEnded.acc = s.acc ∧ s.sessionEnded.plan = s.plan ∧ s.sessionEnded.emb.tables = s.emb.tables
      ∧ (s.sessionEnded.mem.hbm = s.mem.hbm ∧ s.sessionEnded.mem.tiles = s.mem.tiles ∧ s.sessionEnded.mem.keyGen = s.mem.keyGen + 1)
      ∧ s.sessionEnded.sec = { s.sessionCleared.sec with resultCode := 0, resultDone := true, running := false }
      ∧ s.sessionEnded.lastEvent = some 0x8104 ∧ s.sessionEnded.rel.replays = 0 ∧ s.sessionEnded.watch.lost = 0 := by
  have hraise := State.raise_only s.sessionCleared.clearCounters 0x8104 unitTackRoom 0 0 false
  have hrel : (s.sessionCleared.clearCounters.raise 0x8104 unitTackRoom).rel = s.sessionCleared.clearCounters.rel := by
    simp only [State.raise_rest]
  have hmem := hraise.mem
  have hsec : s.sessionEnded.sec = { s.sessionCleared.sec with resultCode := 0, resultDone := true, running := false } :=
    congrArg (fun x : SecState => { x with resultCode := 0, resultDone := true, running := false }) hraise.sec
  exact ⟨hraise.get .setup, hraise.get .acc, hraise.get .plan, congrArg EmbState.tables hraise.emb,
    ⟨(congrArg MemState.hbm hmem).trans rfl, (congrArg MemState.tiles hmem).trans rfl, (congrArg MemState.keyGen hmem).trans rfl⟩, hsec,
    raised_last (Raised.of_raise s.sessionCleared.clearCounters 0x8104 unitTackRoom 0 0 false), congrArg RelState.replays hrel,
    congrArg WatchState.lost (hraise.get .watch)⟩

/-- EXIT in MODE 2 ends with the erase, the end of its session and the end of the long setup operation. -/
theorem State.exitDone_eq (s : State) : s.exitDone = s.secureErase.sessionEnded.endOp 2 := by
  unfold State.exitDone
  generalize s.secureErase = u
  rfl

/-- Settles O49: the end of the erase by `State.secureErase_facts` and `State.sessionEnded_facts`, and the fields of GET_STATUS by their place. The
fresh keys at the end of EXIT (log 28), the layout of GET_STATUS (log 6) and the control reply (log 5) are the model's choices. -/
theorem eraseJtagAndSideband : Obligations.EraseJtagAndSideband := by
  intro s
  obtain ⟨hmem, hacc, hplan, htables, hsec, hsetup⟩ := s.secureErase_facts
  refine ⟨fun hop => ?erase, fun hop hrun => ?exit, fun herase hexit => ?idle, fun p hp => ?jtag, ?status, ⟨_, rfl, State.emit_only _ _, rfl⟩,
    fun body => ⟨_, rfl, State.emit_only _ _, rfl⟩, fun a c hc => ?address⟩
  case erase =>
    have hexec : exec .eraseEnd s = .next ((s.secureErase.endCmd 0).endOp 5) := congrArg Host.Outcome.next (if_pos hop)
    have hkept : s.secureErase.setup = s.setup := hsetup (by rw [hop]; decide)
    generalize s.secureErase = u at *
    have hend : (u.endCmd 0).setup.op = BitVec.ofNat 3 5 := (congrArg SetupState.op hkept).trans hop
    refine ⟨_, hexec.trans (congrArg Host.Outcome.next (State.endOp_ends hend)), ?_⟩
    exact ⟨congrArg MemState.hbm hmem, congrArg MemState.tiles hmem, hacc, hplan, htables, congrArg MemState.keyGen hmem,
      fun k _ => State.memoryErased_buffer hmem k, congrArg MemState.waiting hmem, rfl, rfl, rfl, rfl, hsec⟩
  case exit =>
    have hexec : exec .eraseEnd s = .next (s.secureErase.sessionEnded.endOp 2) :=
      congrArg Host.Outcome.next ((if_neg (by rw [hop]; decide)).trans ((if_pos ⟨hop, hrun⟩).trans s.exitDone_eq))
    have hkept : s.secureErase.setup = s.setup := hsetup (by rw [hop]; decide)
    generalize s.secureErase = u at *
    obtain ⟨hsetup', hacc', hplan', htables', ⟨hhbm, htiles, hkeyGen⟩, hsec', hlast, hreplays, hlost⟩ := u.sessionEnded_facts
    generalize u.sessionEnded = w at *
    have hend : w.setup.op = BitVec.ofNat 3 2 := by
      rw [hsetup', hkept]
      exact hop
    refine ⟨_, hexec.trans (congrArg Host.Outcome.next (State.endOp_ends hend)), hhbm.trans (congrArg MemState.hbm hmem),
      htiles.trans (congrArg MemState.tiles hmem), hacc'.trans hacc, hplan'.trans hplan, htables'.trans htables, ?_, rfl, ?_⟩
    · exact hkeyGen.trans (congrArg (fun m : MemState => m.keyGen + 1) hmem)
    · rw [hsec']
      exact ⟨rfl, rfl, rfl, rfl, rfl, rfl, rfl, rfl, hlast, hreplays, hlost⟩
  case idle =>
    exact congrArg Host.Outcome.next ((if_neg herase).trans (if_neg fun h => hexit.elim (fun hne => hne h.1) fun hoff => ne_true_of_eq_false hoff h.2))
  case jtag =>
    have hdebug : (if s.active.debugEn && !s.confidential then JtagInstr.debug else .bypass)
        = if s.active.debugEn = true ∧ s.sec.mode ≠ 2 then .debug else .bypass := if_congr (by simp [State.confidential]) rfl rfl
    simp only [List.mem_cons, List.not_mem_nil, or_false] at hp
    rcases hp with rfl | rfl | rfl | rfl | rfl
    · rfl
    · rfl
    · rfl
    · rfl
    · exact congrArg (fun j => Host.Outcome.next (s.setJtag j)) hdebug
  case status =>
    refine ⟨_, rfl, State.emit_only _ _, s.pwr.status, rfl, ?_, ?_, ?_, ?_⟩
    · simp [PowerState.status, leBytes_length]
    · unfold PowerState.status
      simp (disch := decide) only [List.append_assoc, slice_leBytes_skip]
      exact slice_leBytes_append 2 _ _
    · unfold PowerState.status
      simp (disch := decide) only [List.append_assoc, slice_leBytes_skip]
      exact slice_leBytes_append 4 _ _
    · unfold PowerState.status
      simp (disch := decide) only [List.append_assoc, slice_leBytes_skip]
      exact slice_all _ _ (leBytes_length 4 _)
  case address =>
    simp only [List.mem_cons, List.not_mem_nil, or_false] at hc
    rcases hc with rfl | rfl <;> rfl

/-! ## The obligation about SEC_CMD -/

/-- A command that is refused in its state (R420). -/
theorem State.refusedState_facts {s : State} (hrun : s.sec.running = false) :
    Only [.setup, .tel, .events, .sec] s (s.guardArmed.refuseSec 0x8102)
      ∧ (s.guardArmed.refuseSec 0x8102).sec = { s.sec with resultCode := 0x8102, resultDone := true }
      ∧ Raised 0x8102 unitTackRoom s (s.guardArmed.refuseSec 0x8102) := by
  obtain ⟨hsec, -⟩ := s.guardArmed.refuseSec_facts 0x8102
  exact ⟨Only.of (State.refuseSec_only _ _) rfl (s.guardArmed_only.mono rfl), hsec.trans (SecState.ended_idle (x := s.sec) hrun _),
    (s.guardArmed.refuseSec_raised (by decide)).from rfl⟩

/-- A command that sends and ends changes nothing else. -/
theorem State.secEnded_only {s t : State} (h : Only [.out, .sec] s.secBegun t) (code : Nat) : Only [.out, .setup, .sec] s (t.endSec code) :=
  Only.of (State.endSec_only _ _) rfl (Only.of h rfl (s.secBegun_only.mono rfl))

section
variable {s : State} {v : Word} (hready : s.boot.stage = .ready) (hop : s.setup.op = 0) (hguard : s.setup.armed = false)
include hready hop hguard

/-- CERTS as the window runs it (R414). -/
theorem exec_certs (hv : v.toNat % 8 = 1) : exec (.certs 0 v) s = .next (s.guardArmed.secRun 7592 false true State.certs) := by
  obtain ⟨hcase, -⟩ := s.guardArmed.writeSecCmd_cases (v := v.toNat) .failed
  exact congrArg Host.Outcome.next ((State.secCommand_ready hready hop hguard _ _).trans (hcase hv))

/-- REPORT and REPORT_KEM as the window runs them (R421). -/
theorem exec_report {c : Instr} (hc : c = .report 0 v ∨ c = .reportKem 0 v) (hv : v.toNat % 8 = 2) :
    exec c s = .next (s.guardArmed.secRun 3892 true true (fun t => t.report (bit 3 v.toNat))) := by
  obtain ⟨-, hcase, -⟩ := s.guardArmed.writeSecCmd_cases (v := v.toNat) .failed
  rcases hc with rfl | rfl
  all_goals exact congrArg Host.Outcome.next ((State.secCommand_ready hready hop hguard _ _).trans (hcase hv))

/-- KEY_LOAD as the window runs it (R424). -/
theorem exec_keyLoad (hv : v.toNat % 8 = 3) (r : ReadResult) :
    exec (.keyLoad 0 v r) s = .next (s.guardArmed.secRun 2480 true (s.idle && s.sec.mode == 1) (fun t => t.keyLoad r)) := by
  obtain ⟨-, -, hcase, -⟩ := s.guardArmed.writeSecCmd_cases (v := v.toNat) r
  exact congrArg Host.Outcome.next ((State.secCommand_ready hready hop hguard _ _).trans (hcase hv))

/-- EXIT as the window runs it (R426). -/
theorem exec_exit (hv : v.toNat % 8 = 4) :
    exec (.exit 0 v) s = .next (s.guardArmed.secRun 0 false (s.idle && s.sec.mode != 0) State.exitConfidential) := by
  obtain ⟨-, -, -, hcase⟩ := s.guardArmed.writeSecCmd_cases (v := v.toNat) .failed
  exact congrArg Host.Outcome.next ((State.secCommand_ready hready hop hguard _ _).trans (hcase hv))

/-- Every command with a SEC_ADDR that is no multiple of 64 bytes (R420). -/
theorem exec_sec_range {c : Instr} (hc : c ∈ [Instr.certs 0 v, .report 0 v, .reportKem 0 v, .keyLoad 0 v .failed, .exit 0 v])
    (hv1 : 1 ≤ v.toNat % 8) (hv4 : v.toNat % 8 ≤ 4) (haddr : s.win.secAddr.toNat % 64 ≠ 0) :
    exec c s = .next (s.guardArmed.refuseSec 0x8004) := by
  have hexec : exec c s = .next (s.secCommand 0 v.toNat .failed) := by
    simp only [List.mem_cons, List.not_mem_nil, or_false] at hc
    rcases hc with rfl | rfl | rfl | rfl | rfl <;> rfl
  obtain ⟨hcerts, hreport, hload, hexit⟩ := s.guardArmed.writeSecCmd_cases (v := v.toNat) .failed
  have haddr' : s.guardArmed.win.secAddr.toNat % 64 ≠ 0 := haddr
  rw [hexec, State.secCommand_ready hready hop hguard]
  obtain hv | hv | hv | hv : v.toNat % 8 = 1 ∨ v.toNat % 8 = 2 ∨ v.toNat % 8 = 3 ∨ v.toNat % 8 = 4 := by omega
  · rw [hcerts hv, State.secRun_range haddr']
  · rw [hreport hv, State.secRun_range haddr']
  · rw [hload hv, State.secRun_range haddr']
  · rw [hexit hv, State.secRun_range haddr']

end

section
variable {s : State}

/-- CERTS writes the certificates to host memory (R414). -/
theorem State.certs_begun (hrun : s.sec.running = false) (hport : s.portOpen 0) :
    Only [.out, .setup, .sec] s s.secBegun.certs
      ∧ s.secBegun.certs.out = s.out ++ [.hostWrite 0 s.win.secAddr.toNat (padTo 7592 s.sec.certs)]
      ∧ s.secBegun.certs.sec = { s.sec with resultCode := 0, resultDone := true } := by
  have heq : s.secBegun.certs = (s.secBegun.emit (.hostWrite 0 s.win.secAddr.toNat (padTo 7592 s.sec.certs))).endSec 0 :=
    congrArg (fun t => t.endSec 0) (State.secWrite_open (portOpen_of hport (s.secBegun_only.port 0)) _)
  rw [heq]
  exact ⟨State.secEnded_only ((State.emit_only _ _).mono rfl) 0, rfl, SecState.ended_idle (x := s.sec) hrun 0⟩

/-- REPORT writes a report with the next number (R421). -/
theorem State.report_begun (hrun : s.sec.running = false) (hport : s.portOpen 0) :
    Only [.out, .setup, .sec] s (s.secBegun.report false)
      ∧ (s.secBegun.report false).sec = { s.sec with resultCode := 0, resultDone := true, reportSeq := s.sec.reportSeq + 1 }
      ∧ ∃ b, (s.secBegun.report false).out = s.out ++ [.hostWrite 0 s.win.secAddr.toNat b]
        ∧ slice b 24 8 = leBytes 8 (s.sec.reportSeq + 1).toNat := by
  have hseq := s.secBegun.reportCounted.signedReport_seq false
  rw [State.report_plain (portOpen_of hport (s.secBegun_only.port 0))]
  generalize s.secBegun.reportCounted.signedReport false = b at hseq ⊢
  have hcounted : Only [.sec] s.secBegun s.secBegun.reportCounted := s.secBegun.security_only rfl
  exact ⟨State.secEnded_only (Only.of (State.emit_only _ _) rfl (hcounted.mono rfl)) 0,
    SecState.ended_idle (x := { s.sec with reportSeq := s.sec.reportSeq + 1 }) hrun 0, b, rfl, hseq⟩

/-- REPORT with a KEM key makes the key, and keeps the report that it writes (R422, R423). -/
theorem State.reportKem_begun (hport : s.portOpen 0) :
    Only [.out, .setup, .sec] s (s.secBegun.report true) ∧ (s.secBegun.report true).sec.kem = some (Config.randomBits s.sec.draws)
      ∧ (s.secBegun.report true).sec.mode = (if s.sec.mode = 0 then 1 else s.sec.mode)
      ∧ (s.secBegun.report true).sec.reportSeq = s.sec.reportSeq + 1 ∧ (s.secBegun.report true).sec.resultCode = 0
      ∧ (s.secBegun.report true).sec.resultDone = true
      ∧ (s.secBegun.report true).out = s.out ++ [.hostWrite 0 s.win.secAddr.toNat (s.secBegun.report true).sec.lastReport] := by
  have hkept := s.secBegun.reportKept_only
  have hout : s.secBegun.newKem.reportCounted.reportKept.out = s.out := hkept.get .out
  rw [State.report_kem (portOpen_of hport (s.secBegun_only.port 0))]
  refine ⟨State.secEnded_only (Only.of (State.emit_only _ _) rfl (hkept.mono rfl)) 0, rfl, rfl, rfl, rfl, rfl, ?_⟩
  exact congrArg (· ++ _) hout

/-- KEY_LOAD whose read fails (R422). -/
theorem State.keyLoad_unread (hmode : s.sec.mode = 1) :
    Only [.out, .setup, .sec] s (s.secBegun.keyLoad .failed) ∧ (s.secBegun.keyLoad .failed).sec.mode = 0
      ∧ (s.secBegun.keyLoad .failed).sec.kem = none ∧ (s.secBegun.keyLoad .failed).sec.resultCode = 0x6108
      ∧ (s.secBegun.keyLoad .failed).sec.jobSecret = s.sec.jobSecret := by
  have hsec := State.keyFailed_sec (s := s.secBegun.blobRead) hmode
  have heq : s.secBegun.keyLoad .failed = s.secBegun.blobRead.keyFailed.endSec 0x6108 := rfl
  rw [heq]
  refine ⟨State.secEnded_only (Only.of (State.keyFailed_only _) rfl ((State.emit_only _ _).mono rfl)) _, ?_⟩
  generalize s.secBegun.blobRead.keyFailed = u at hsec
  exact ⟨congrArg SecState.mode hsec, congrArg SecState.kem hsec, rfl, (congrArg SecState.jobSecret hsec).trans rfl⟩

/-- KEY_LOAD of a blob that does not open (R422, R424). -/
theorem State.keyLoad_unopened {b : Bytes} (hmode : s.sec.mode = 1) (hblob : s.openBlob b = none) :
    Only [.out, .setup, .tel, .events, .sec] s (s.secBegun.keyLoad (.ok b)) ∧ (s.secBegun.keyLoad (.ok b)).sec.mode = 0
      ∧ (s.secBegun.keyLoad (.ok b)).sec.kem = none ∧ (s.secBegun.keyLoad (.ok b)).sec.resultCode = 0x8101
      ∧ Raised 0x8101 unitTackRoom s (s.secBegun.keyLoad (.ok b)) ∧ (s.secBegun.keyLoad (.ok b)).sec.jobSecret = s.sec.jobSecret := by
  have hfailed := State.keyFailed_sec (s := s.secBegun.blobRead) hmode
  have hkept : Only [.out, .sec] s.secBegun s.secBegun.blobRead.keyFailed :=
    Only.of (State.keyFailed_only _) rfl ((State.emit_only _ _).mono rfl)
  rw [State.keyLoad_bad (s := s.secBegun) hblob]
  generalize s.secBegun.blobRead.keyFailed = u at hfailed hkept
  have hraise := State.raise_only u 0x8101 unitTackRoom 0 0 false
  have hevents : u.events = s.events := hkept.get .events
  have hsec := hraise.sec.trans hfailed
  have hraised := (Raised.of_raise u 0x8101 unitTackRoom 0 0 false).from hevents
  refine ⟨Only.of (State.endSec_only _ _) rfl (Only.of hraise rfl (Only.of hkept rfl (s.secBegun_only.mono rfl))), ?_⟩
  generalize u.raise 0x8101 unitTackRoom = w at hsec hraised
  exact ⟨congrArg SecState.mode hsec, congrArg SecState.kem hsec, rfl, hraised, (congrArg SecState.jobSecret hsec).trans rfl⟩

/-- KEY_LOAD of a blob that opens enters confidential mode (R424, R425). -/
theorem State.keyLoad_opened {b : Bytes} {k : KeyBlob} (hblob : s.openBlob b = some k) :
    ∃ t, s.secBegun.keyLoad (.ok b) = t ∧ t.sec.mode = 2 ∧ t.sec.kem = none ∧ t.sec.jobTag = k.jobTag ∧ t.sec.jobSecret = k.secret
      ∧ t.sec.tenantKey = Config.sha3 k.tenant ∧ t.sec.resultCode = 0 ∧ t.plan = none ∧ t.emb.tables = [] ∧ t.mem.keyGen = s.mem.keyGen + 1
      ∧ t.active.debugEn = false ∧ t.pend.debugEn = false ∧ t.sec.jtag ≠ .debug ∧ t.lastEvent = some 0x8103 := by
  have hsec := s.secBegun.blobRead.enterConfidential_sec k
  obtain ⟨hplan, htables, hkeyGen, hactive, hpend, hlast⟩ := s.secBegun.blobRead.enterConfidential_rest k
  have hjtag : (if s.sec.jtag = .debug then JtagInstr.bypass else s.sec.jtag) ≠ .debug := by
    split
    · nofun
    · assumption
  refine ⟨_, State.keyLoad_good (s := s.secBegun) hblob, ?_⟩
  generalize s.secBegun.blobRead.enterConfidential k = u at *
  exact ⟨congrArg SecState.mode hsec, congrArg SecState.kem hsec, congrArg SecState.jobTag hsec, congrArg SecState.jobSecret hsec,
    congrArg SecState.tenantKey hsec, rfl, hplan, htables, hkeyGen, hactive, hpend,
    fun h => hjtag ((congrArg SecState.jtag hsec).symm.trans h), hlast⟩

/-- EXIT in MODE 1 discards the KEM key pair at once (R426). -/
theorem State.exit_plain (hmode : s.sec.mode = 1) :
    Only [.setup, .tel, .events, .sec] s s.secBegun.exitConfidential ∧ Raised 0x8104 unitTackRoom s s.secBegun.exitConfidential
      ∧ s.secBegun.exitConfidential.sec
        = { s.sec with kem := none, mode := 0, resultCode := 0, resultDone := true, running := false } := by
  have hother : s.secBegun.sec.mode ≠ 2 := fun h => nomatch hmode.symm.trans h
  have hends : Only [.setup, .sec] s { s.secBegun with sec.kem := none, sec.mode := 0 } :=
    Only.of (s.secBegun.security_only rfl) rfl s.secBegun_only
  have hraise := State.raise_only ({ s.secBegun with sec.kem := none, sec.mode := 0 } : State) 0x8104 unitTackRoom 0 0 false
  rw [State.exitConfidential_ends hother]
  exact ⟨Only.of (State.endSec_only _ _) rfl (Only.of hraise rfl (hends.mono rfl)),
    (Raised.of_raise ({ s.secBegun with sec.kem := none, sec.mode := 0 } : State) 0x8104 unitTackRoom 0 0 false).from rfl,
    congrArg (fun x : SecState => { x with resultCode := 0, resultDone := true, running := false }) hraise.sec⟩

/-- EXIT in MODE 2 begins the secure erase (R426). -/
theorem State.exit_confidential (hmode : s.sec.mode = 2) :
    Only [.setup, .sec] s s.secBegun.exitConfidential ∧ s.secBegun.exitConfidential.setup.op = 2
      ∧ s.secBegun.exitConfidential.sec = { s.sec with resultDone := false, running := true } := by
  rw [State.exitConfidential_erases (s := s.secBegun) hmode]
  have hstarts : Only [.setup, .sec] s (s.secBegun.startOp 2) := Only.of (State.startOp_only _ _) rfl s.secBegun_only
  exact ⟨Only.of (State.security_only _ rfl) rfl hstarts, rfl, rfl⟩

end

/-- Settles O48: the window runs the command that the value names (`exec_certs` to `exec_exit`), `State.secRun` refuses it or begins it, and the
laws above say what each command leaves. The reasons RANGE and STATE, the silent ID_FAIL, the code of a failed read and the operation that
EXIT begins (log 28), and what a write does with reserved bits (log 9), are the model's choices. -/
theorem securityCommands : Obligations.SecurityCommands := by
  intro s v hready hop _ hguard
  refine ⟨fun c hc hv1 hv4 haddr => ?range, fun hv haddr hlen hrun hport => ?certs, fun hv haddr hlen hrun hid => ?noId,
    fun hv hkem haddr hlen hrun hid hport => ?report, fun hv hkem haddr hlen hrun hid hport => ?reportKem,
    fun r hv haddr hlen hrun hid hstate => ?keyState, fun r hv haddr hlen hrun hid hidle hmode => ?keyLoad,
    fun hv haddr hrun hidle hmode => ?exitPlain, fun hv haddr hrun hidle hmode => ?exitErase, fun hv haddr hrun hstate => ?exitState⟩
  case range =>
    obtain ⟨hsec, hlog⟩ := s.guardArmed.refuseSec_facts 0x8004
    exact ⟨_, exec_sec_range hready hop hguard hc hv1 hv4 haddr, Only.of (State.refuseSec_only _ _) rfl (s.guardArmed_only.mono rfl), hsec,
      (s.guardArmed.refuseSec_raised (by decide)).from rfl, hlog⟩
  case certs =>
    exact ⟨_, (exec_certs hready hop hguard hv).trans (congrArg Host.Outcome.next (State.secRun_runs ⟨haddr, hlen, hrun⟩ nofun)),
      State.certs_begun hrun hport⟩
  case noId =>
    obtain ⟨hsec, hlog⟩ := s.guardArmed.refuseSec_facts 0x8001
    exact ⟨_, (exec_report hready hop hguard (.inl rfl) hv).trans (congrArg Host.Outcome.next (State.secRun_noId ⟨haddr, hlen, hrun⟩ hid)),
      Only.of (State.refuseSec_noId_only _) rfl (s.guardArmed_only.mono rfl), hsec.trans (SecState.ended_idle (x := s.sec) hrun _), hlog⟩
  case report =>
    have hexec := (exec_report hready hop hguard (.inl rfl) hv).trans
      (congrArg Host.Outcome.next (State.secRun_runs ⟨haddr, hlen, hrun⟩ fun _ => hid))
    rw [hkem] at hexec
    exact ⟨_, hexec, State.report_begun hrun hport⟩
  case reportKem =>
    have hexec := (exec_report hready hop hguard (.inr rfl) hv).trans
      (congrArg Host.Outcome.next (State.secRun_runs ⟨haddr, hlen, hrun⟩ fun _ => hid))
    rw [hkem] at hexec
    exact ⟨_, hexec, State.reportKem_begun hport⟩
  case keyState =>
    have hfails : (s.idle && s.sec.mode == 1) = false := by
      rcases hstate with h | h
      · rw [h, Bool.false_and]
      · rw [beq_eq_false_iff_ne.mpr h, Bool.and_false]
    have hfree : s.guardArmed.secFree 2480 := ⟨haddr, hlen, hrun⟩
    have hexec := exec_keyLoad hready hop hguard hv r
    rw [hfails, State.secRun_state hfree fun _ => hid] at hexec
    exact ⟨_, hexec, State.refusedState_facts hrun⟩
  case keyLoad =>
    have hholds : (s.idle && s.sec.mode == 1) = true := by simp [hidle, hmode]
    have hfree : s.guardArmed.secFree 2480 := ⟨haddr, hlen, hrun⟩
    have hexec := exec_keyLoad hready hop hguard hv r
    rw [hholds, State.secRun_runs hfree fun _ => hid] at hexec
    refine ⟨fun hr => ?_, fun b hr hblob => ?_, fun b k hr hblob => ?_⟩
    · subst hr
      exact ⟨_, hexec, State.keyLoad_unread hmode⟩
    · subst hr
      exact ⟨_, hexec, State.keyLoad_unopened hmode hblob⟩
    · subst hr
      obtain ⟨t, ht, hfacts⟩ := State.keyLoad_opened hblob
      exact ⟨t, hexec.trans (congrArg Host.Outcome.next ht), hfacts⟩
  case exitPlain =>
    have hholds : (s.idle && s.sec.mode != 0) = true := by simp [hidle, hmode]
    have hfree : s.guardArmed.secFree 0 := ⟨haddr, Nat.zero_le _, hrun⟩
    have hexec := exec_exit hready hop hguard hv
    rw [hholds, State.secRun_runs (needsId := false) hfree nofun] at hexec
    exact ⟨_, hexec, State.exit_plain hmode⟩
  case exitErase =>
    have hholds : (s.idle && s.sec.mode != 0) = true := by simp [hidle, hmode]
    have hfree : s.guardArmed.secFree 0 := ⟨haddr, Nat.zero_le _, hrun⟩
    have hexec := exec_exit hready hop hguard hv
    rw [hholds, State.secRun_runs (needsId := false) hfree nofun] at hexec
    exact ⟨_, hexec, State.exit_confidential hmode⟩
  case exitState =>
    have hfails : (s.idle && s.sec.mode != 0) = false := by rcases hstate with h | h <;> simp [h]
    have hfree : s.guardArmed.secFree 0 := ⟨haddr, Nat.zero_le _, hrun⟩
    have hexec := exec_exit hready hop hguard hv
    rw [hfails, State.secRun_state (needsId := false) hfree nofun] at hexec
    obtain ⟨honly, hsec, hraised⟩ := State.refusedState_facts hrun
    exact ⟨_, hexec, honly, hraised, hsec⟩

end Sys2Proof.Machine
end

section
/-! CLAIM. One step: the command at the front of the queue runs, and the queue behind it is left (log 1). -/

-- Checked one theorem at a time: the package as one text then needs less memory.
set_option Elab.async false

namespace Sys2Proof.Machine

/-- A step with a command at the front of the queue. -/
theorem step_front {s : State} {c : Instr} {q : List Instr} (h : s.pending = c :: q) : step s = exec c { s with pending := q } := by
  unfold step
  split
  next hnone => exact nomatch h.symm.trans hnone
  next d rest hsome =>
    obtain ⟨rfl, rfl⟩ := List.cons.inj (h.symm.trans hsome)
    rfl

/-- A step on an empty queue. -/
theorem step_idle {s : State} (h : s.pending = []) : step s = .next s := by
  unfold step
  split
  next => rfl
  next hsome => exact nomatch h.symm.trans hsome

/-- Settles O58: the two cases of a step, and no command touches the queue (`exec_keeps`). That commands are taken in order, one a step, and
that the module idles on an empty queue are the model's own (log 1). -/
theorem stepRunsTheFrontCommand : Obligations.StepRunsTheFrontCommand := by
  refine ⟨fun c q s h => step_front h, fun s h => step_idle h, fun c s t h => (exec_keeps h).queue, fun s t c q hq h => ?_⟩
  rw [step_front hq] at h
  exact (exec_keeps h).queue

end Sys2Proof.Machine
end
